-- ==== Sys2Proof/Word.lean ====
section
/-!
DEFINITION. The words of the module (00 R2): bit 0 is the least significant bit of any field. Widths that the
manual fixes are bit vectors; counts, sizes and indices are natural numbers.
-/
namespace Sys2Proof

abbrev Byte := BitVec 8
abbrev W16 := BitVec 16
abbrev W32 := BitVec 32
abbrev W64 := BitVec 64
abbrev Bytes := List Byte

/-- A furrow position (02 R22): STEP [63:28], PASS [27:25], LAYER_SLOT [24:12], MICRO_BATCH [11:4], TICK [3:0]. -/
abbrev Pos := BitVec 64

/-- A module ID (a, b, c, d), `a` in bits [15:12] (11 R223, bits [59:44] of a Lamio global address). -/
abbrev ModId := BitVec 16

/-- A table keyed by a natural number: keys strictly rising, no entry equal to the table's default. -/
abbrev Sparse (α : Type) := List (Nat × α)

end Sys2Proof
end

