-- ==== Sys2Proof/Syntax.lean ====
section
/-!
DEFINITION. The commands of the block: one constructor of `Instr` for each row of spec/opcode_table.json, with the
operands its row's rule gives it. What the manual leaves to the module's own choice (a unit, a number of tiles) and
what a sensor, a link or the host delivers are operands too.
-/
namespace Sys2Proof

/-- What a read of host memory by the module answers (13 R278): data, or one of the failures of a PCIe access. -/
inductive HostData
  | ok (bytes : Bytes)
  | timeout
  | unsupported
  | aborted
  | untranslated
  deriving DecidableEq, Repr

/-- A descriptor (13 R276): its ring, the header of bytes 1 to 15 (byte 0, the opcode, is the row), the
opcode-specific bytes 16 to 63, and what host memory holds at the address the descriptor names, where its opcode
reads host memory when it executes (GRAPH_SUBMIT, TENSOR_DEFINE, ROOT_SUPPLY, the parameter-block class). -/
structure Desc where
  ring  : Nat
  flags : Byte
  tag   : W16
  count : W32
  gate  : Pos
  body  : Bytes
  data  : HostData
  deriving DecidableEq, Repr

/-- The opcodes of 13 R277 (code order); the parameter-block class and STOP carry the sub-operation in their block. -/
inductive DescOp
  | graphSubmit | graphRetire | tensorDefine | tensorRelease | furrowAdvance | runBegin | groupDefine | groupReform
  | copyIn | copyOut | exportConfigure | snapshot | stop | resume | modeSet | rootSupply | voteSupply | placementPin
  | counterConfigure | traceConfigure | injectConfigure | attest | fence
  | unknown (code : Byte)
  deriving DecidableEq, Repr

/-- The transport a Sahith request arrives on (18 R384). -/
inductive Transport
  | doe
  | mctp
  | attest (d : Desc)
  deriving DecidableEq, Repr

/-- A Lamio packet (14 R302), its context word split (TASK_ID, low 24 bits of the step, attempt number). -/
structure Packet where
  source   : ModId
  dest     : ModId
  tag      : W16
  offset   : BitVec 44
  len8     : Nat
  orderSeq : Nat
  seedbed  : Bool
  poison   : Bool
  detour   : Bool
  status   : Nat
  context  : Option (W32 × Nat × Nat)
  data     : Bytes
  deriving DecidableEq, Repr

/-- The key of a collective segment (10 R208): group number, sequence number, segment index. -/
structure SegKey where
  group : Nat
  seq   : Nat
  index : Nat
  deriving DecidableEq, Repr

/-- What an end-of-data notice or a missing-range request names (14 R298): a collective segment, or a bulk transfer by its
requester's tag and its source module. -/
inductive DataKey
  | segment (k : SegKey)
  | bulk (tag : W16) (source : ModId)
  deriving DecidableEq, Repr

/-- One part of a collective's chain traffic (10 R204): `phase` 0 to 3 is a partial on the chain of A, B, C, D in the
+ direction, 4 the final value returning (for an operation that copies, a member's input). `values` is the widened data of
the segment; `events` is what 10 R203 needs of it: element, rank of the member that performs the fold step, K_INDEX and
cause of each element's first event. -/
structure CollMsg where
  key    : SegKey
  phase  : Nat
  ranks  : List Nat
  source : ModId
  values : Bytes
  events : List (Nat × Nat × Nat × Nat)
  deriving DecidableEq, Repr

/-- An order forwarded over the hedge lane (13 R289): the issuing holding, its ring, the issuer's copy of the head at
issue, and the descriptor. `mgmt` marks a management STOP (19 R408); `source` is the forwarding module. -/
structure FwdOrder where
  source  : ModId
  holding : Nat
  stamp   : Pos
  mgmt    : Bool
  op      : DescOp
  desc    : Desc
  deriving DecidableEq, Repr

/-- A vote contribution (09 R174): the OR of the vote words reduced so far, the number of contributors, and for each bit the
lowest ID among the modules that set it; bits 0, 1, 2, 3, 4, 5, 8 and 9 in that order, 0xFFFF where none does. -/
structure VoteWord where
  bits        : W16
  count       : Nat := 1
  firstSetter : List ModId := []
  deriving DecidableEq, Repr

/-- A vote record as it is broadcast (09 R179). -/
structure VoteMsg where
  step         : Nat
  bits         : W16
  outcome      : Nat
  supplied     : Bool
  timedOut     : Bool
  contributors : Nat
  firstSetter  : List ModId
  timestamp    : W64
  deriving DecidableEq, Repr

/-- A stop order on the hedge lane (02 R35, R40): scheduled with a target, or immediate. -/
structure StopMsg where
  scheduled     : Bool
  target        : Pos
  sourceKind    : Nat
  sourceHolding : Nat
  deriving DecidableEq, Repr

/-- A discovery offer (14 R312): the position offered, the holding configuration (14 R311) and the hop count. -/
structure OfferMsg where
  position : ModId
  config   : BitVec 128
  hops     : Nat
  port     : Nat
  deriving DecidableEq, Repr

/-- A firmware image (18 R374): the signer's public key and the SVN of its header, the bytes before the signature,
and the signature. -/
structure FirmwareImage where
  pubKey : Bytes
  svn    : W32
  body   : Bytes
  sig    : Bytes
  deriving DecidableEq, Repr

/-- The signed factory record (18 R376); `version` is checked against rollback counter 1 (18 R379). -/
structure FactoryRecord where
  pubKey        : Bytes
  version       : W32
  serial        : W64
  coreMap       : BitVec 4096
  harrowMap     : BitVec 256
  powerLimit    : Nat
  dieThrottle   : Nat
  hbmThrottle   : Nat
  ownerKeyHash  : Bytes
  identityKey   : Bytes
  certChain     : Bytes
  body          : Bytes
  sig           : Bytes
  deriving DecidableEq, Repr

/-- What FACTORY_SERVICE_WRITE writes (18 R380). -/
inductive ServiceItem
  | record (r : FactoryRecord)
  | slot (n : Nat) (image : FirmwareImage)
  deriving DecidableEq, Repr

/-- The run of a task by the scheduler: the step and task ID that name it, the unit that runs it and the number of
tiles it is cut into (12 R262: the module's own choice), and what a peer's memory returned where the task reads one
(MOVE with SOURCE_MODULE, 12 R252). -/
structure TaskRun where
  step   : Nat
  task   : W32
  unit   : Nat
  tiles  : Nat
  remote : Bytes
  deriving DecidableEq, Repr

/-- Which block's solve a harrow row acts on: segment number, root record index, block q (07 R146). -/
structure SolveKey where
  seg    : Nat
  record : Nat
  block  : Nat
  deriving DecidableEq, Repr

/-- The fields of a vector instruction but its opcode (05 R92). -/
structure VecArgs where
  mask : Nat
  zero : Bool
  vd   : Nat
  va   : Nat
  vb   : Nat
  bsel : Nat
  vc   : Nat
  imm  : W32
  deriving DecidableEq, Repr

/-- The vector opcodes of 05 R93. -/
inductive VecOp
  | nop | mov | add | sub | mul | fma | min | max | abs | neg | div | rcp | sqrt | rsqrt | exp2 | log2
  | exp | log | tanh | erf | sigmoid | cmpeq | cmplt | cmple | cmpgt | cmpge | cmpun | mand | mor | mandn | sel
  | compress | expand | redsum | redmax | redmin | wacc | wsum | cvti | cvtf | iadd | iand | ixor | laneidx
  | randu | randb | load | store
  deriving DecidableEq, Repr

/-- The answer to a host read in flight (13 R278): which read, and what came back. For a descriptor read, `aux` is what
host memory holds at the address the descriptor itself names. -/
structure HostReply where
  id   : Nat
  data : HostData
  aux  : HostData
  deriving DecidableEq, Repr

/-- A core's entry of a program-counter batch beyond what State holds (17 R366): the stall state and vector PC of the
tile on the core, captured at the sample. -/
structure PcSeen where
  core  : Nat
  stall : Nat
  pc    : Nat
  deriving DecidableEq, Repr

/-- Pages (logical page, bytes) and fallow queues (master tensor, queue image) of a shard at a step (15 R332). -/
structure ShardImage where
  pages  : List (Nat × Bytes)
  queues : List (Nat × Bytes)
  deriving DecidableEq, Repr

/-- A segment as a survivor sends it: its number, STATE, steps and DIGEST in the sender's directory, and the retained copy
(15 R333). -/
structure SegmentCopy where
  number    : Nat
  state     : Nat
  firstStep : Nat
  lastStep  : Nat
  digest    : BitVec 256
  bytes     : Bytes
  deriving DecidableEq, Repr

/-- What a module that has been through module reset is given of the run (15 R333): segments, tensor definitions (index,
module group, record), the seed, the holdings, the lead master, the modes, the lead's timestamp, T and m. -/
structure RunCopy where
  segments     : List SegmentCopy
  tensors      : List (Nat × Nat × Bytes)
  seed         : W64
  firstHolding : Nat
  holdingCount : Nat
  leadHolding  : Nat
  lead         : ModId
  modes        : List Bool
  timestamp    : W64
  target       : Nat
  committed    : Nat
  deriving DecidableEq, Repr

/-- The stage of a shard's restoration (15 R331-R333) that SHARD_RESTORATION reports: a module needs it; the module has
been reinstated (R333), with what it was given of the run where it had lost it, and reads the sink; its shard at step `target`
and at the step before, with the fingerprints of both recorded in the sink, the export position, and the decision logs that the
sink holds of the steps after T (R333); a sender or a record is
missing. -/
inductive RestoreStage
  | waiting (module : ModId)
  | reinstate (module : ModId) (run : Option RunCopy)
  | rebuilt (target : Nat) (shard prior : ShardImage) (previous recorded : BitVec 256) (nextSeq produced : Nat)
      (logs : List (Nat × Bytes))
  | failed
  deriving DecidableEq, Repr

/-- The commands, in the order of spec/opcode_table.json. -/
inductive Instr
  -- descriptors (13 R277)
  | graphSubmit (d : Desc)
  | graphRetire (d : Desc)
  | tensorDefine (d : Desc)
  | tensorRelease (d : Desc)
  | furrowAdvance (d : Desc)
  | runBegin (d : Desc)
  | groupDefine (d : Desc)
  | groupReform (d : Desc)
  | copyIn (d : Desc)
  | copyOut (d : Desc)
  | exportConfig (d : Desc)
  | exportAcknowledge (d : Desc)
  | exportChainBase (d : Desc)
  | exportReplayImport (d : Desc)
  | snapshot (d : Desc)
  | stopScheduled (d : Desc)
  | stopImmediate (d : Desc)
  | resume (d : Desc)
  | modeSet (d : Desc)
  | rootSupply (d : Desc)
  | voteSupply (d : Desc)
  | placementPin (d : Desc)
  | counterConfig (d : Desc)
  | counterReadNow (d : Desc)
  | counterClear (d : Desc)
  | counterStatus (d : Desc)
  | traceConfigArm (d : Desc)
  | traceRearm (d : Desc)
  | traceDisable (d : Desc)
  | traceStatus (d : Desc)
  | injectConfigure (d : Desc)
  -- Sahith requests (18 R385)
  | getIdentity (t : Transport) (request : Bytes)
  | challenge (t : Transport) (request : Bytes)
  | fence (d : Desc)
  -- registers and windows
  | nudge (ring : Nat)
  | nudgeAll
  | ringEnable (completion : Bool) (ring : Nat) (value : Bool)
  | ringResume (ring : Nat)
  | discover
  | holdingReset
  | timeOffset (value : W64)
  | timeRate (value : W32)
  | trapArmed
  | nonceRequest
  | requestGo
  | powerControl (value : W64)
  | registerWrite (offset len : Nat) (value : W64)
  | bar4Load (offset len : Nat)
  | bar4Store (offset : Nat) (data : Bytes)
  -- management port (19 R407)
  | getStatus (body : Bytes)
  | setPowerCap (body : Bytes)
  | mgmtStop (body : Bytes)
  | mgmtHoldingReset (body : Bytes)
  | moduleReset (body : Bytes)
  | powerOff (body : Bytes)
  | powerOn (body : Bytes)
  | getNonce (body : Bytes)
  | securityRequest (body : Bytes)
  -- slot 2: the management controller's own firmware (18 R379)
  | recoveryImageLoad (slot : Nat) (image : FirmwareImage)
  -- pins and supplies (19 R388-R392); voltages in units of 10 mV
  | pwrEnAssert
  | pwrEnDeassert
  | inputUndervoltage (volts : Nat)
  | inputOvervoltage (volts : Nat)
  | modResetN (lowNs : Nat)
  | perstN
  | functionLevelReset
  | hostLinkDown
  | masterSel (level : Bool)
  -- start-up (18 R375, 19 R401)
  | bootRom (bootSel : Bool)
  | firmwareVerify
  | pufRegenerate (correctable : Bool)
  | hbmTraining (failed : List Nat)
  | lpddrTraining (failed : List Nat)
  | builtInSelfTest (cores harrows gleaners rollers : List Nat)
  | lamioTraining (laneMasks : List W16) (farOk : List Bool)
  -- power and thermal control (19 R393-R400)
  | powerSample (watts volts amps : Nat)
  | capStepRaise
  | capStepLower
  | sensorRead (readings : List W16)
  | thermalStepRaise
  | thermalStepLower
  | episodeEnd (thermal : Bool)
  -- poll engine, order point, posting (13)
  | pollTick
  | ringFetchRetry (id : Nat)
  | livenessTimeout
  | orderHoldRelease
  | completionPost (ring : Nat)
  | coalesceExpiry (ring : Option Nat)
  | stepReportPost
  -- Lamio link (14 R294-R296); `farOk`: the far end is of this holding, or meets 14 R314
  | flitReceive (port : Nat) (hedge : Bool) (flit : Bytes)
  | linkRetry (port : Nat) (hedge : Bool)
  | linkRetrain (port : Nat) (laneMask : W16) (farOk : Bool)
  | linkRetrainAttempt (port : Nat) (laneMask : W16) (farOk : Bool)
  -- packets (14 R303)
  | readReq (p : Packet)
  | write (p : Packet)
  | atomicAdd64 (p : Packet)
  | atomicAdd32 (p : Packet)
  | atomicSwap64 (p : Packet)
  | atomicCas64 (p : Packet)
  | atomicOr64 (p : Packet)
  | atomicAnd64 (p : Packet)
  | bulkReq (p : Packet)
  | readResp (p : Packet)
  | writeAck (p : Packet)
  | atomicResp (p : Packet)
  | bulkDone (p : Packet)
  | collData (m : CollMsg)
  | bulkData (p : Packet)
  | txnTimeout (dest : ModId) (tag : W16)
  -- hedge messages and their bounds
  | furrowHead (head : Pos)
  | localFront (module : ModId) (front seedbedFront : Pos) (lowestTask : W32)
  | furrowStall
  | timestampSync (lead : W64)
  | heartbeatTick
  | heartbeat (module : ModId) (published : Nat)
  | heartbeatLoss (module : ModId)
  | hedgeMemberLost (source lost : ModId) (cause : Nat) (head : Pos)
  | hedgeEvent (module : ModId) (code : W16) (position : Pos) (timestamp detail : W64)
  | voteTimeoutReport (module : ModId) (step : Nat) (bounds : Nat)
  | voteContribution (module : ModId) (step : Nat) (word : VoteWord)
  | voteOutcome (v : VoteMsg)
  | autoResume
  | voteTimeout
  | muster (module : ModId) (group epoch seq : Nat) (signature : W64) (seedbed : Bool)
  | goAhead (group epoch seq : Nat) (go : Bool)
  | endOfDataNotice (source : ModId) (key : DataKey) (sent : Nat)
  | missingRangeRequest (source : ModId) (key : DataKey) (first len : Nat)
  | reservationRequest (source : ModId) (key : SegKey)
  | grant (bin : ModId) (key : SegKey)
  | takeBack (bin : ModId) (key : SegKey)
  | release (key : SegKey)
  | reservationTimeout (key : SegKey)
  | collTimeout (group seq : Nat) (member : ModId)
  | groupDefinition (source : ModId) (part epoch : Nat) (bytes : Bytes)
  | agreementAck (source : ModId) (kind : Nat) (ident pos : W64)
  | hedgeTimeout (kind : Nat)
  | orderForward (o : FwdOrder)
  | hedgeStop (m : StopMsg)
  | stopCutReached
  | setupWrite (offset len : Nat) (value : W64)
  | discoveryOffer (o : OfferMsg)
  | discoveryAnswer (position held : ModId) (hops : Nat) (masterCandidate : Bool)
  | discoveryTimeout
  | discoveryReoffer (position : ModId)
  -- scheduler and faults
  | taskAdmit
  | ageingTick (step : Nat) (task : W32)
  | tileComplete (step : Nat) (task : W32) (attempt : Nat)
  | trapDeliver
  | watchdogExpiry (step : Nat) (task : W32) (core other : Nat)
  | coreSramError (core other : Nat)
  | selfTestDone (core : Nat) (passed : Bool)
  | harrowFault (harrow cause : Nat)
  | gleanerFailure (region : Nat)
  | poisonedRead (step : Nat) (task : W32) (line other : Nat)
  | memTimeout (far : Bool) (line : Nat)
  | patrolScrub (far : Bool) (region frame : Nat) (corrected : List Nat) (uncorrectable : List Nat)
  | migrationStart (page : Nat)
  | migrationSeal (page : Nat)
  | migrationFlip (page : Nat)
  | migrationSourceFree (page : Nat)
  | gleanerAdd (seg record block : Nat) (step : Nat) (task : W32)
  | solveHarrowAssign (k : SolveKey) (harrows : List Nat)
  | solveBoundary (k : SolveKey)
  | solveAcceptance (k : SolveKey)
  | deadlineDecision (k : SolveKey)
  | workingPageAudit
  -- task kinds (12 R251)
  | matmul (r : TaskRun)
  | matmulStat (r : TaskRun)
  | attentionFwd (r : TaskRun)
  | attentionBwd (r : TaskRun)
  | vectorProgram (r : TaskRun)
  | norm (r : TaskRun)
  | softmax (r : TaskRun)
  | loss (r : TaskRun)
  | gather (r : TaskRun)
  | scatter (r : TaskRun)
  | preconditionApply (r : TaskRun)
  | update (r : TaskRun)
  | solve (r : TaskRun)
  | fold (r : TaskRun)
  | move (r : TaskRun)
  | exportRecord (r : TaskRun)
  | fingerprint (r : TaskRun)
  | evalReduce (r : TaskRun)
  | allReduce (r : TaskRun)
  | reduceScatter (r : TaskRun)
  | allGather (r : TaskRun)
  | broadcast (r : TaskRun)
  | allToAll (r : TaskRun)
  | barrier (r : TaskRun)
  | collectiveVote (r : TaskRun)
  | collectiveNorm (r : TaskRun)
  -- vector instructions (05 R93), each on one core
  | vNop (core : Nat) (a : VecArgs)
  | vMov (core : Nat) (a : VecArgs)
  | vAdd (core : Nat) (a : VecArgs)
  | vSub (core : Nat) (a : VecArgs)
  | vMul (core : Nat) (a : VecArgs)
  | vFma (core : Nat) (a : VecArgs)
  | vMin (core : Nat) (a : VecArgs)
  | vMax (core : Nat) (a : VecArgs)
  | vAbs (core : Nat) (a : VecArgs)
  | vNeg (core : Nat) (a : VecArgs)
  | vDiv (core : Nat) (a : VecArgs)
  | vRcp (core : Nat) (a : VecArgs)
  | vSqrt (core : Nat) (a : VecArgs)
  | vRsqrt (core : Nat) (a : VecArgs)
  | vExp2 (core : Nat) (a : VecArgs)
  | vLog2 (core : Nat) (a : VecArgs)
  | vExp (core : Nat) (a : VecArgs)
  | vLog (core : Nat) (a : VecArgs)
  | vTanh (core : Nat) (a : VecArgs)
  | vErf (core : Nat) (a : VecArgs)
  | vSigmoid (core : Nat) (a : VecArgs)
  | vCmpeq (core : Nat) (a : VecArgs)
  | vCmplt (core : Nat) (a : VecArgs)
  | vCmple (core : Nat) (a : VecArgs)
  | vCmpgt (core : Nat) (a : VecArgs)
  | vCmpge (core : Nat) (a : VecArgs)
  | vCmpun (core : Nat) (a : VecArgs)
  | vMand (core : Nat) (a : VecArgs)
  | vMor (core : Nat) (a : VecArgs)
  | vMandn (core : Nat) (a : VecArgs)
  | vSel (core : Nat) (a : VecArgs)
  | vCompress (core : Nat) (a : VecArgs)
  | vExpand (core : Nat) (a : VecArgs)
  | vRedsum (core : Nat) (a : VecArgs)
  | vRedmax (core : Nat) (a : VecArgs)
  | vRedmin (core : Nat) (a : VecArgs)
  | vWacc (core : Nat) (a : VecArgs)
  | vWsum (core : Nat) (a : VecArgs)
  | vCvti (core : Nat) (a : VecArgs)
  | vCvtf (core : Nat) (a : VecArgs)
  | vIadd (core : Nat) (a : VecArgs)
  | vIand (core : Nat) (a : VecArgs)
  | vIxor (core : Nat) (a : VecArgs)
  | vLaneidx (core : Nat) (a : VecArgs)
  | vRandu (core : Nat) (a : VecArgs)
  | vRandb (core : Nat) (a : VecArgs)
  | vLoad (core : Nat) (a : VecArgs)
  | vStore (core : Nat) (a : VecArgs)
  -- export, evaluation, restoration, sampling, trace
  | exportAckPoll (acked : W64)
  | exportResend
  | evalBudgetExpiry
  | shardRestoration (stage : RestoreStage)
  | counterSample (consumed : W64)
  | pcSample (seen : List PcSeen) (consumed : W64)
  | sheafThresholdTest
  | sheafFreeze
  -- supplies, links and units
  | inputPowerApplied (volts : Nat)
  | aux3v3Applied
  | aux3v3Removed
  | thermTripNRelease
  | hostLinkUp
  | holdingResetDone
  | memoryControllerFailure (far : Bool) (region : Nat)
  | coreHalt (core : Nat)
  | coreResume (core : Nat)
  | reorderHoldExpiry (port vc : Nat)
  | hostAccessCompletion (r : HostReply)
  | hostCompletionTimeout (id : Nat)
  | msixVectorUnmask (vector : Nat)
  | factoryServiceWrite (item : ServiceItem)
  deriving DecidableEq, Repr

end Sys2Proof
end

