-- ==== Sys2Proof/Decode.lean ====
section
/-!
DEFINITION. The rows of the opcode table give no bits: the block's commands reach it as register accesses, descriptors,
messages, pin changes and engine steps, never as words of one common encoding. No word spells a command.
-/
namespace Sys2Proof

/-- The command a table word spells: none, since no row of the table gives bits. -/
def decodeTableWord (_nbits _w : Nat) : Option Instr := none

end Sys2Proof
end

