-- ==== Sys2Proof/Machine/Bits.lean ====
section
/-!
DEFINITION. Bits, fields and bytes (00 R2: bit 0 is the least significant bit; structures are little-endian).
-/
namespace Sys2Proof.Machine

open Sys2Proof

/-- Bits [lo+len-1:lo] of a number. -/
def bits (x lo len : Nat) : Nat := (x >>> lo) % 2 ^ len

/-- One bit of a number. -/
def bitOf (x i : Nat) : Bool := bits x i 1 == 1

def b2n (b : Bool) : Nat := if b then 1 else 0

/-- A word laid out from bit 0 up as fields of (width, value); a value is cut to its width. -/
def pack : List (Nat × Nat) → Nat
  | [] => 0
  | (w, v) :: t => v % 2 ^ w + 2 ^ w * pack t

/-- The number a little-endian byte string spells. -/
def leNat : Bytes → Nat
  | [] => 0
  | b :: t => b.toNat + 256 * leNat t

/-- `len` bytes of `x`, least significant first. -/
def leBytes : Nat → Nat → Bytes
  | 0, _ => []
  | len + 1, x => BitVec.ofNat 8 x :: leBytes len (x / 256)

/-- What the signature of an image covers: every byte before it (18 R374; the order of the header's fields is log entry 10). -/
def imageMessage (i : FirmwareImage) : Bytes := i.pubKey ++ leBytes 4 i.svn.toNat ++ i.body

/-- What the signature of the factory record covers: every byte before it. -/
def recordMessage (r : FactoryRecord) : Bytes :=
  r.pubKey ++ leBytes 4 r.version.toNat ++ leBytes 8 r.serial.toNat ++ leBytes 512 r.coreMap.toNat ++
    leBytes 32 r.harrowMap.toNat ++ leBytes 2 r.powerLimit ++ leBytes 1 r.dieThrottle ++ leBytes 1 r.hbmThrottle ++
    r.ownerKeyHash ++ r.identityKey ++ r.certChain ++ r.body

/-- `len` bytes of `x`, most significant first. -/
def beBytes (len x : Nat) : Bytes := (leBytes len x).reverse

/-- The number a big-endian byte string spells. -/
def beNat (bs : Bytes) : Nat := leNat bs.reverse

/-- Byte `i` of a structure; 0 past its end. -/
def byteAt (bs : Bytes) (i : Nat) : Nat := (bs.getD i 0).toNat

/-- `len` bytes from byte `off`. -/
def slice (bs : Bytes) (off len : Nat) : Bytes := (bs.drop off).take len

/-- The little-endian field of `len` bytes at byte `off`. -/
def field (bs : Bytes) (off len : Nat) : Nat := leNat (slice bs off len)

/-- The bytes cut or padded with zeros to `len`. -/
def padTo (len : Nat) (bs : Bytes) : Bytes := bs.take len ++ List.replicate (len - bs.length) 0

/-- Whether bytes `off` to `off + len - 1` are all 0 (a reserved field, 00 R3). -/
def zeroAt (bs : Bytes) (off len : Nat) : Bool := (slice bs off len).all (· == 0)

/-- `s` with bytes `off` onward replaced by `new`. -/
def overlay (bs : Bytes) (off : Nat) (new : Bytes) : Bytes :=
  bs.take off ++ new ++ bs.drop (off + new.length)

/-- The bytes padded with zeros to a multiple of `m`. -/
def padMul (m : Nat) (bs : Bytes) : Bytes := padTo ((bs.length + m - 1) / m * m) bs

/-- A signed number from its `w`-bit two's-complement pattern. -/
def signed (w x : Nat) : Int := (BitVec.ofNat w x).toInt

/-- A number capped at `m` (a saturating count). -/
def satTo (m x : Nat) : Nat := if m < x then m else x

/-- x / y rounded up. -/
def ceilDiv (x y : Nat) : Nat := (x + y - 1) / y

/-- The base-2 logarithm of a power of two, and none otherwise. -/
def pow2Log (x : Nat) : Option Nat := if x ≠ 0 ∧ 2 ^ Nat.log2 x = x then some (Nat.log2 x) else none

/-- The list with its element at `i` replaced. -/
def setAt {α : Type} (l : List α) (i : Nat) (v : α) : List α := l.set i v

/-- `b` added at the end of `l` unless it is there already. -/
def addNew {α : Type} [DecidableEq α] (l : List α) (b : α) : List α := if b ∈ l then l else l ++ [b]

/-- The first element for which `p` holds, replaced by its image. -/
def mapFirst {α : Type} (p : α → Bool) (f : α → α) : List α → List α
  | [] => []
  | x :: t => if p x then f x :: t else x :: mapFirst p f t

/-- Elements in ascending order of `key`, equal keys in their order (insertion sort, by structural recursion). -/
def insertBy {α : Type} (le : α → α → Bool) (x : α) : List α → List α
  | [] => [x]
  | y :: t => if le x y then x :: y :: t else y :: insertBy le x t

def sortBy {α : Type} (le : α → α → Bool) : List α → List α
  | [] => []
  | x :: t => insertBy le x (sortBy le t)

def sortNat : List Nat → List Nat := sortBy (fun a b => Nat.ble a b)

/-- Lexicographic comparison of byte strings, ascending. -/
def bytesLe : Bytes → Bytes → Bool
  | [], _ => true
  | _ :: _, [] => false
  | a :: s, b :: t => if a.toNat < b.toNat then true else if b.toNat < a.toNat then false else bytesLe s t

end Sys2Proof.Machine
end

