-- ==== Sys2Proof/Machine/Num.lean ====
section
/-!
DEFINITION. Exact values and the one rounding of the module, round-to-nearest, ties-to-even (03 R46, R47, R57). A value
is NaN, an infinity, or (-1)^neg x m x 2^e exactly; every format's value is one of these, and so is every sum and product
of them. Quotients, roots and transcendental values carry far more bits than any format holds, the last of them sticky.
-/
namespace Sys2Proof.Machine

open Sys2Proof

/-- An exact value. A zero keeps its sign. -/
inductive Num
  | nan
  | inf (neg : Bool)
  | fin (neg : Bool) (m : Nat) (e : Int)
  deriving DecidableEq, Repr

def Num.zero : Num := .fin false 0 0

def Num.isNan : Num → Bool
  | .nan => true
  | _ => false

def Num.isInf : Num → Bool
  | .inf _ => true
  | _ => false

def Num.isFin : Num → Bool
  | .fin .. => true
  | _ => false

def Num.isZero : Num → Bool
  | .fin _ m _ => m == 0
  | _ => false

/-- The sign bit; a NaN has sign 0. -/
def Num.sign : Num → Bool
  | .nan => false
  | .inf n => n
  | .fin n _ _ => n

def Num.neg : Num → Num
  | .nan => .nan
  | .inf n => .inf !n
  | .fin n m e => .fin (!n) m e

def Num.abs : Num → Num
  | .nan => .nan
  | .inf _ => .inf false
  | .fin _ m e => .fin false m e

/-- m x 2^k for k at least 0, m / 2^-k rounded down otherwise. -/
def shiftNat (m : Nat) (k : Int) : Nat := if 0 ≤ k then m * 2 ^ k.toNat else m / 2 ^ (-k).toNat

/-- m / 2^k to nearest, ties to even. -/
def rne (m k : Nat) : Nat :=
  let q := m / 2 ^ k
  let r := m % 2 ^ k
  if 2 * r < 2 ^ k then q else if 2 ^ k < 2 * r then q + 1 else if q % 2 = 0 then q else q + 1

/-- The integer a signed magnitude spells. -/
def signedMag (neg : Bool) (m : Nat) : Int := if neg then -(m : Int) else m

/-- The value m x 2^e of an integer; a zero takes the sign given. -/
def Num.ofInt (zeroNeg : Bool) (m e : Int) : Num :=
  if m = 0 then .fin zeroNeg 0 0 else .fin (decide (m < 0)) m.natAbs e

/-- The exact sum. An exact zero sum is +0 unless both operands are negative. -/
def Num.add : Num → Num → Num
  | .nan, _ => .nan
  | _, .nan => .nan
  | .inf a, .inf b => if a = b then .inf a else .nan
  | .inf a, _ => .inf a
  | _, .inf b => .inf b
  | .fin na ma ea, .fin nb mb eb =>
    let e := min ea eb
    .ofInt (na && nb) (signedMag na (ma * 2 ^ (ea - e).toNat) + signedMag nb (mb * 2 ^ (eb - e).toNat)) e

def Num.sub (a b : Num) : Num := a.add b.neg

/-- The exact product; 0 x Inf is NaN. -/
def Num.mul : Num → Num → Num
  | .nan, _ => .nan
  | _, .nan => .nan
  | .inf a, .inf b => .inf (a != b)
  | .inf a, .fin b m _ => if m = 0 then .nan else .inf (a != b)
  | .fin a m _, .inf b => if m = 0 then .nan else .inf (a != b)
  | .fin na ma ea, .fin nb mb eb => .fin (na != nb) (ma * mb) (ea + eb)

/-- Bits kept of a quotient, a root or a transcendental value before its one rounding. -/
def workBits : Nat := 160

/-- The quotient, cut to at least `workBits` bits, the last bit sticky. 0/0 and Inf/Inf are NaN; x/0 is Inf. -/
def Num.div : Num → Num → Num
  | .nan, _ => .nan
  | _, .nan => .nan
  | .inf _, .inf _ => .nan
  | .inf a, .fin b _ _ => .inf (a != b)
  | .fin a _ _, .inf b => .fin (a != b) 0 0
  | .fin na ma ea, .fin nb mb eb =>
    if mb = 0 then (if ma = 0 then .nan else .inf (na != nb))
    else if ma = 0 then .fin (na != nb) 0 0
    else
      let k := workBits + Nat.log2 mb
      let x := ma * 2 ^ k
      .fin (na != nb) (2 * (x / mb) + (if x % mb = 0 then 0 else 1)) (ea - eb - k - 1)

/-- The square root rounded down, bit by bit from bit `n - 1`. -/
def isqrtFrom (x : Nat) : Nat → Nat → Nat
  | 0, r => r
  | n + 1, r => isqrtFrom x n (if (r + 2 ^ n) * (r + 2 ^ n) ≤ x then r + 2 ^ n else r)

def isqrt (x : Nat) : Nat := isqrtFrom x (Nat.log2 x / 2 + 1) 0

/-- The square root, cut to at least `workBits` bits, the last bit sticky. A negative operand gives NaN; -0 gives -0. -/
def Num.sqrt : Num → Num
  | .nan => .nan
  | .inf n => if n then .nan else .inf false
  | .fin n m e =>
    if m = 0 then .fin n 0 0
    else if n then .nan
    else
      let odd := (e % 2).toNat
      let x := m * 2 ^ (odd + 2 * workBits)
      let r := isqrt x
      .fin false (2 * r + (if r * r = x then 0 else 1)) ((e - odd) / 2 - workBits - 1)

/-- Numeric comparison, false when either is NaN; -0 equals +0. -/
def Num.lt : Num → Num → Bool
  | .nan, _ => false
  | _, .nan => false
  | .inf a, .inf b => a && !b
  | .inf a, _ => a
  | _, .inf b => !b
  | .fin na ma ea, .fin nb mb eb =>
    let e := min ea eb
    decide (signedMag na (ma * 2 ^ (ea - e).toNat) < signedMag nb (mb * 2 ^ (eb - e).toNat))

def Num.eq : Num → Num → Bool
  | .nan, _ => false
  | _, .nan => false
  | .inf a, .inf b => a == b
  | .inf _, _ => false
  | _, .inf _ => false
  | .fin na ma ea, .fin nb mb eb =>
    let e := min ea eb
    decide (signedMag na (ma * 2 ^ (ea - e).toNat) = signedMag nb (mb * 2 ^ (eb - e).toNat))

def Num.le (a b : Num) : Bool := a.lt b || a.eq b

/-- floor(log2 |v|) of a finite non-zero value. -/
def Num.exponent : Num → Int
  | .fin _ m e => Nat.log2 m + e
  | _ => 0

/-- v x 2^k. -/
def Num.scale (k : Int) : Num → Num
  | .fin n m e => .fin n m (e + k)
  | v => v

/-- A natural number as a value. -/
def Num.ofNat (n : Nat) : Num := .fin false n 0

/-! ### Binary formats with an IEEE layout -/

/-- The bias of an exponent field of `eb` bits. -/
def bias (eb : Nat) : Int := 2 ^ (eb - 1) - 1

/-- The exponent of the least significant bit of a subnormal. -/
def eMin (eb mb : Nat) : Int := 1 - bias eb - mb

/-- The magnitude code of m x 2^e, m not 0, on the grid of `eb` exponent and `mb` mantissa bits, without an upper
bound: codes rise with magnitude, and a carry out of the mantissa raises the exponent. -/
def gridCode (eb mb m : Nat) (e : Int) : Nat :=
  let q := max ((Nat.log2 m : Int) + e - mb) (eMin eb mb)
  let mant := if q ≤ e then m * 2 ^ (e - q).toNat else rne m (q - e).toNat
  (q - eMin eb mb).toNat * 2 ^ mb + mant

/-- The value of a magnitude code. -/
def gridValue (eb mb : Nat) (neg : Bool) (code : Nat) : Num :=
  let ex := code / 2 ^ mb
  let f := code % 2 ^ mb
  if ex = 0 then .fin neg f (eMin eb mb) else .fin neg (2 ^ mb + f) (eMin eb mb + ex - 1)

/-- The pattern of an IEEE-layout format: one rounding, overflow to Inf, the canonical NaN (03 R57, R59). -/
def ieeeBits (eb mb : Nat) : Num → Nat
  | .nan => (2 ^ eb - 1) * 2 ^ mb + 2 ^ (mb - 1)
  | .inf n => b2n n * 2 ^ (eb + mb) + (2 ^ eb - 1) * 2 ^ mb
  | .fin n m e =>
    b2n n * 2 ^ (eb + mb) + (if m = 0 then 0 else min (gridCode eb mb m e) ((2 ^ eb - 1) * 2 ^ mb))

/-- The value of a pattern of an IEEE-layout format. -/
def ieeeValue (eb mb : Nat) (x : Nat) : Num :=
  let neg := bitOf x (eb + mb)
  let code := x % 2 ^ (eb + mb)
  if code < (2 ^ eb - 1) * 2 ^ mb then gridValue eb mb neg code
  else if code = (2 ^ eb - 1) * 2 ^ mb then .inf neg
  else .nan

def toB32 (v : Num) : W32 := BitVec.ofNat 32 (ieeeBits 8 23 v)
def ofB32 (x : W32) : Num := ieeeValue 8 23 x.toNat
def toB64 (v : Num) : W64 := BitVec.ofNat 64 (ieeeBits 11 52 v)
def ofB64 (x : W64) : Num := ieeeValue 11 52 x.toNat

/-- RNE32 and RNE64 as values. -/
def rnd32 (v : Num) : Num := ofB32 (toB32 v)
def rnd64 (v : Num) : Num := ofB64 (toB64 v)

/-- A binary32 pattern widened exactly to binary64. -/
def widen (x : W32) : W64 := toB64 (ofB32 x)

/-- The integer nearest a finite value, ties to even. -/
def Num.toIntRne : Num → Int
  | .fin n m e => signedMag n (if 0 ≤ e then m * 2 ^ e.toNat else rne m (-e).toNat)
  | _ => 0

end Sys2Proof.Machine
end

