-- ==== Sys2Proof/Machine/Formats.lean ====
section
/-!
DEFINITION. The number formats and block scaling of 03: format codes, elements, scales, the storage of a tensor, and the
choice of a block's scale at write.
-/
namespace Sys2Proof.Machine

open Sys2Proof

/-! ### Format codes (03 R44, R45) -/

def fE2M1 : Nat := 0
def fE2M3 : Nat := 1
def fE3M2 : Nat := 2
def fE4M3 : Nat := 3
def fE5M2 : Nat := 4
def fB16 : Nat := 5
def fBF16 : Nat := 6
def fB32 : Nat := 7
def fB64 : Nat := 8
def fINT8 : Nat := 9
def fINT32 : Nat := 10

/-- Width in bits of a format code. -/
def fmtWidth (f : Nat) : Nat :=
  match f with
  | 0 => 4 | 1 => 6 | 2 => 6 | 3 => 8 | 4 => 8 | 5 => 16 | 6 => 16 | 7 => 32 | 8 => 64 | 9 => 8 | 10 => 32 | _ => 0

/-- Codes 0x0B to 0x1F are reserved. -/
def fmtKnown (f : Nat) : Bool := decide (f ≤ 10)

def fmtBlocked (f : Nat) : Bool := decide (f ≤ 4) || f == 9

/-- The formats the matrix arrays take. -/
def fmtArray (f : Nat) : Bool := decide (f ≤ 6) || f == 9

/-- Floating-point formats, INT32 and INT8 apart. -/
def fmtFloat (f : Nat) : Bool := decide (f ≤ 8)

/-- Elements in a block, by block-size code. -/
def blockSize (code : Nat) : Nat := 16 * 2 ^ code

/-- Exponent and mantissa widths of a floating-point format (03 R46). -/
def fmtShape (f : Nat) : Nat × Nat :=
  match f with
  | 0 => (2, 1) | 1 => (2, 3) | 2 => (3, 2) | 3 => (4, 3) | 4 => (5, 2) | 5 => (5, 10) | 6 => (8, 7) | 7 => (8, 23)
  | _ => (11, 52)

/-- emax of a block-scaled format (03 R46, R48). -/
def fmtEmax (f : Nat) : Int :=
  match f with
  | 0 => 2 | 1 => 2 | 2 => 4 | 3 => 8 | 4 => 15 | _ => 0

/-- The largest finite magnitude code of a block-scaled floating-point format. -/
def fmtMaxCode (f : Nat) : Nat :=
  match f with
  | 0 => 7 | 1 => 31 | 2 => 31 | 3 => 0x7E | _ => 0x7B

/-! ### Elements -/

/-- The value of an element before its scale (03 R46, R48). -/
def elemValue (f x : Nat) : Num :=
  if f = fINT8 then .ofInt false (signed 8 x) (-6)
  else if f = fINT32 then .ofInt false (signed 32 x) 0
  else
    let (eb, mb) := fmtShape f
    let code := x % 2 ^ (eb + mb)
    let neg := bitOf x (eb + mb)
    if f ≤ fE3M2 then gridValue eb mb neg code
    else if f = fE4M3 then (if code = 0x7F then .nan else gridValue eb mb neg code)
    else ieeeValue eb mb x

/-- The value of a block's element under its scale code; 0xFF reads as NaN (03 R50). -/
def scaledValue (f scale x : Nat) : Num :=
  if scale = 0xFF then .nan else (elemValue f x).scale ((scale : Int) - 127)

/-- The pattern of a value in a format that is not block-scaled; INT32 by 03 R58. -/
def plainBits (f : Nat) (v : Num) : Nat :=
  if f = fINT32 then
    match v with
    | .nan => 0
    | .inf n => if n then 2 ^ 31 else 2 ^ 31 - 1
    | .fin .. =>
      let i := v.toIntRne
      if i < -2 ^ 31 then 2 ^ 31 else if 2 ^ 31 - 1 < i then 2 ^ 31 - 1 else (i % 2 ^ 32).toNat
  else
    let (eb, mb) := fmtShape f
    ieeeBits eb mb v

/-- The canonical NaN element of a block with scale 0xFF (03 R59). -/
def nanElem (f : Nat) : Nat := if f = fE4M3 then 0x7F else if f = fE5M2 then 0x7E else 0

/-- A finite value over 2^X rounded on the element grid and saturated; whether it saturated (03 R53 step 5, R55). -/
def elemBits (f : Nat) (x : Int) (v : Num) : Nat × Bool :=
  match v with
  | .nan => (nanElem f, false)
  | .inf n => ((if n then 0x80 else 0) + 0x7C, false)
  | .fin n m e =>
    if f = fINT8 then
      let k := rne m 0
      let k := if m = 0 then 0 else (let s := e - x + 6; if 0 ≤ s then k * 2 ^ s.toNat else rne m (-s).toNat)
      let sat := decide (127 < k)
      let k := min k 127
      ((signedMag n k % 256).toNat, sat)
    else
      let (eb, mb) := fmtShape f
      let code := if m = 0 then 0 else gridCode eb mb m (e - x)
      let sat := decide (fmtMaxCode f < code)
      (b2n n * 2 ^ (eb + mb) + min code (fmtMaxCode f), sat)

/-- The largest magnitude among the finite values. -/
def amax (vs : List Num) : Num :=
  vs.foldl (fun a v => if v.isFin && a.lt v.abs then v.abs else a) Num.zero

/-- The scale code of a block (03 R53 steps 1 to 4). -/
def blockScale (f : Nat) (vs : List Num) : Nat :=
  if vs.any Num.isNan then 0xFF
  else if f != fE5M2 && vs.any Num.isInf then 0xFF
  else
    let a := amax vs
    if a.isZero then 0x7F
    else
      let x := a.exponent - fmtEmax f
      ((max (-127) (min 127 x)) + 127).toNat

/-- A block as it is written: scale code, elements, and which of them saturated (03 R53). -/
def writeBlock (f : Nat) (vs : List Num) : Nat × List Nat × List Nat :=
  let c := blockScale f vs
  if c = 0xFF then (c, vs.map fun _ => nanElem f, [])
  else
    let es := vs.map (elemBits f ((c : Int) - 127))
    (c, es.map (·.1), (List.range es.length).filter fun i => (es.getD i (0, false)).2)

/-- Elements of a block that raise the event of 03 R60: Inf into a finite-only block that holds no NaN (R54). -/
def blockInfEvents (f : Nat) (vs : List Num) : List Nat :=
  if f == fE5M2 || vs.any Num.isNan then []
  else (List.range vs.length).filter fun i => (vs.getD i Num.zero).isInf

/-! ### The grain form (03 R61, R62) -/

/-- The grain of an element whose value, its block scale applied, is `v`: CLASS [1:0], SIGNIFICAND [12:2], EXPONENT [22:13],
SIGN [23]. Array formats hold 11 significant bits, so the significand is exact. -/
def grain (v : Num) : BitVec 24 :=
  match v with
  | .nan => BitVec.ofNat 24 3
  | .inf n => BitVec.ofNat 24 (pack [(2, 2), (11, 0), (10, 0), (1, b2n n)])
  | .fin n m e =>
    if m = 0 then BitVec.ofNat 24 (pack [(2, 0), (11, 0), (10, 0), (1, b2n n)])
    else
      BitVec.ofNat 24 (pack [(2, 1), (11, shiftNat m (10 - (Nat.log2 m : Int))), (10, (Nat.log2 m + e + 511).toNat),
        (1, b2n n)])

/-! ### Storage (03 R51, 12 R246) -/

/-- The shape a tensor is stored in: format, block-size code, extents (dimension 0 innermost). -/
structure Shape where
  fmt    : Nat
  block  : Nat
  extent : List Nat
  deriving DecidableEq, Repr

def Shape.row (s : Shape) : Nat := s.extent.getD 0 1

/-- Rows: the product of the extents of dimensions 1 up. -/
def Shape.rows (s : Shape) : Nat := (s.extent.drop 1).foldl (· * ·) 1

/-- Elements a stored row occupies: whole blocks for a block-scaled format. -/
def Shape.stride (s : Shape) : Nat :=
  if fmtBlocked s.fmt then ceilDiv s.row (blockSize s.block) * blockSize s.block else s.row

/-- Bytes of the element array. -/
def Shape.elemBytes (s : Shape) : Nat := s.rows * s.stride * fmtWidth s.fmt / 8

/-- Offset of the scale array: the first 64-byte boundary at or after the element array. -/
def Shape.scaleBase (s : Shape) : Nat := ceilDiv s.elemBytes 64 * 64

/-- Blocks in a row. -/
def Shape.rowBlocks (s : Shape) : Nat := s.stride / blockSize s.block

/-- Bytes of the whole tensor. -/
def Shape.bytes (s : Shape) : Nat :=
  if fmtBlocked s.fmt then s.scaleBase + s.rows * s.rowBlocks else s.elemBytes

/-- Elements in all, padding apart. -/
def Shape.elems (s : Shape) : Nat := s.rows * s.row

/-- Linear index of stored element i of a row. -/
def Shape.slot (s : Shape) (row i : Nat) : Nat := row * s.stride + i

/-- The pattern at a stored element slot of a byte image read by `rd`. -/
def slotBits (rd : Nat → Byte) (f slot : Nat) : Nat :=
  let w := fmtWidth f
  let lo := slot * w
  let first := lo / 8
  let n := ceilDiv (lo % 8 + w) 8
  bits (leNat ((List.range n).map fun k => rd (first + k))) (lo % 8) w

/-- The exact value at (row, i) of a tensor image read by `rd`. -/
def Shape.value (s : Shape) (rd : Nat → Byte) (row i : Nat) : Num :=
  let x := slotBits rd s.fmt (s.slot row i)
  if fmtBlocked s.fmt then
    scaledValue s.fmt (rd (s.scaleBase + row * s.rowBlocks + i / blockSize s.block)).toNat x
  else elemValue s.fmt x

/-- Patterns of `w` bits packed from bit 0 into whole bytes. -/
def packElems (w : Nat) (es : List Nat) : Bytes :=
  leBytes (ceilDiv (es.length * w) 8) (pack (es.map fun e => (w, e)))

/-- The list cut into chunks of `n`. -/
def chunksOf {α : Type} (n : Nat) : Nat → List α → List (List α)
  | 0, _ => []
  | k + 1, l => if l.isEmpty then [] else l.take n :: chunksOf n k (l.drop n)

/-- Coordinates 1 up of a row number. -/
def rowCoords : List Nat → Nat → List Nat
  | [], _ => []
  | e :: t, r => (r % e) :: rowCoords t (r / e)

/-- The row number of coordinates 1 up. -/
def rowIndex : List Nat → List Nat → Nat
  | [], _ => 0
  | e :: t, c => c.headD 0 + e * rowIndex t c.tail

end Sys2Proof.Machine
end

