-- ==== Sys2Proof/Config.lean ====
section
/-!
DEFINITION. What the manual leaves free: uninterpreted constants, with no body, so that no proof can see a value.
-/
namespace Sys2Proof.Config

/-- The nonce the security mailbox draws at its n-th issue (20 R425: the manual gives no value). -/
opaque freshNonce : Nat → BitVec 256

/-- Byte `i` of the SLH-DSA-SHA2-128s signature of a message under a private key (18 R385 names FIPS 205 for it). -/
opaque signatureByte : Bytes → Bytes → Nat → Byte

/-- TRIGGER_INDEX of a sheaf whose trigger came before any entry was written (17 R371 names the entry written last). -/
opaque noEntryIndex : Nat → W64

/-- Block-size code of the P and dS tiles of attention in a block-scaled format (05 R102 names the format alone). -/
opaque attentionBlock : Nat → Nat

/-- The fingerprint of another member of the holding for a step: module, step (16 R347: no command of the table carries
it to the master). -/
opaque memberFingerprint : Nat → Nat → BitVec 256

/-- The step up to which the sink has acknowledged every record of another member: module, step of the report (16 R349:
no command carries it to the master). -/
opaque memberAcked : Nat → Nat → Option Nat

/-- The share of a tile in the work of its task: task ID, slot of 17 R362, amount (12 R262: tile shapes are the module's
own choice). -/
opaque tileShare : BitVec 32 → Nat → Nat → Nat

/-- A byte of a solve's checkpoint after its boundary: fold step, slot, boundary, byte (07 R137: the scalar state, in no stated
layout). -/
opaque checkpointByte : Nat → Nat → Nat → Nat → Byte

/-- The harrow from which the module looks for another one, given the one that failed (12 R262). -/
opaque harrowChoice : Nat → Nat

/-- The core from which the module looks for another one, given the one that failed (12 R262: the unit chosen is the
module's own choice). -/
opaque coreChoice : Nat → Nat

/-- What a stall-cycle counter reads: its counter ID, the time of the reading in ns (17 R362: cycles are timing; log entry 75). -/
opaque stallCycles : Nat → Nat → W64

/-- A byte of the hopper directory, whose layout the spec does not give, by its entries (step, page, far tier, frame) and its offset
(11 R221, R222; log entry 80). -/
opaque hopperDirByte : List (Nat × Nat × Bool × Nat) → Nat → Byte

/-- A byte of the part of the tally that holds the task completions, the fold journal and the page lists, whose layout the spec does
not give, by the completions (step, task, status), the valid journal slots and the offset (11 R221, R222; log entry 80). -/
opaque tallyByte : List (Nat × Nat × Nat) → List (Nat × Nat) → Nat → Byte

/-- Step and clipping factor of an entry of a fallow queue that COPY_IN has loaded, by the queue's master tensor and the entry's
place: the spec does not lay out the queue's header for a load (08 R165, R169; log entry 52). -/
opaque loadedFallow : Nat → Nat → Nat × BitVec 32

/-- A roller's test-mode comparison of a staged page differs: step, page (08 R170: only a roller at fault gives another result, and
no command is such a fault; log entry 82). -/
opaque rollerDiffers : Nat → Nat → Bool

/-- A cell of a core at its n-th halt: halt, cell, which value (04 R88: how far the tile had got is timing). -/
opaque cellAtHalt : Nat → Nat → Nat → W64

end Sys2Proof.Config
end

