-- ==== Sys2Proof/Machine/Furrow.lean ====
section
/-!
DEFINITION. Furrow positions and distances (02 R22 to R24, R30).
-/
namespace Sys2Proof.Machine

open Sys2Proof

def passF : Nat := 0
def passB : Nat := 1
def passU : Nat := 2
def passC : Nat := 3
def passE : Nat := 4

/-- STEP, bits [63:28]. -/
def stepOf (p : Pos) : Nat := p.toNat / 2 ^ 28

/-- PASS, bits [27:25]. -/
def passOf (p : Pos) : Nat := bits p.toNat 25 3

/-- LAYER_SLOT, bits [24:12]. -/
def slotOf (p : Pos) : Nat := bits p.toNat 12 13

/-- The position (step, pass, layer slot), micro-batch and tick 0. -/
def posOf (step pass slot : Nat) : Pos := BitVec.ofNat 64 (step * 2 ^ 28 + pass % 8 * 2 ^ 25 + slot % 2 ^ 13 * 2 ^ 12)

/-- Malformed wherever it is supplied (02 R23): a reserved pass code, a layer slot of 8,191, or non-zero bits [24:0] in
pass C or E. -/
def posMalformed (p : Pos) : Bool :=
  decide (passE < passOf p) || slotOf p == 8191 || (decide (passC ≤ passOf p) && bits p.toNat 0 25 != 0)

/-- The gate with the step number of an instance put in (02 R24); a gate of 0 stays 0 only in a one-shot segment, so the
step is added to the position's lower fields. -/
def gateAt (step : Nat) (g : Pos) : Pos := BitVec.ofNat 64 (step * 2 ^ 28 + g.toNat % 2 ^ 28)

/-- Layer slot of layer l of n in a pass (02 R23). -/
def layerSlot (n pass l : Nat) : Nat := if pass = passB then n - 1 - l else l

/-- The distance of one step (02 R30). -/
def stepDistance : Nat := 2 ^ 28

/-- A wait of distance d from P has expired at a head (02 R30); an overflowing sum never expires. -/
def distanceReached (head p : Pos) (d : Nat) : Bool :=
  decide (p.toNat + d < 2 ^ 64) && decide (p.toNat + d ≤ head.toNat)

end Sys2Proof.Machine
end

