-- ==== Sys2Proof/Machine/Sha.lean ====
section
/-!
DEFINITION. SHA-256 and HMAC-SHA-256, which the manual names without restating (16 R345, 18 R374, R378, R383), and the
CRC-64 of a flit (14 R294). PRESUMED: FIPS 180-4 and FIPS 198-1 (log entry 11).
-/
namespace Sys2Proof.Machine

open Sys2Proof

/-- The first 64 primes, from which FIPS 180-4 takes its constants. -/
def shaPrimes : List Nat :=
  [2, 3, 5, 7, 11, 13, 17, 19, 23, 29, 31, 37, 41, 43, 47, 53, 59, 61, 67, 71, 73, 79] ++
  [83, 89, 97, 101, 103, 107, 109, 113, 127, 131, 137, 139, 149, 151, 157, 163, 167, 173, 179, 181] ++
  [191, 193, 197, 199, 211, 223, 227, 229, 233, 239, 241, 251, 257, 263, 269, 271, 277, 281, 283, 293, 307, 311]

/-- The greatest number of `n` more bits over `r` whose d-th power does not exceed `x`. -/
def rootBelow (d x : Nat) : Nat → Nat → Nat
  | 0, r => r
  | n + 1, r => rootBelow d x n (if (r + 2 ^ n) ^ d ≤ x then r + 2 ^ n else r)

/-- The first 32 bits of the fraction of the d-th root of a number below 512. -/
def rootFraction (d p : Nat) : W32 := BitVec.ofNat 32 (rootBelow d (p * 2 ^ (32 * d)) 41 0)

/-- A round's constant: of the cube root of its prime. -/
def shaK : List W32 := shaPrimes.map (rootFraction 3)

/-- The value before the first block: of the square roots of the first eight primes. -/
def shaInit : List W32 := (shaPrimes.take 8).map (rootFraction 2)

/-- The message schedule, newest word first: `n` words more than the list holds. -/
def shaSchedule : Nat → List W32 → List W32
  | 0, w => w
  | n + 1, w =>
    let x15 := w.getD 14 0
    let x2 := w.getD 1 0
    let s0 := x15.rotateRight 7 ^^^ x15.rotateRight 18 ^^^ (x15 >>> 3)
    let s1 := x2.rotateRight 17 ^^^ x2.rotateRight 19 ^^^ (x2 >>> 10)
    shaSchedule n ((w.getD 15 0 + s0 + w.getD 6 0 + s1) :: w)

/-- One round on the working variables a to h. -/
def shaRound (v : List W32) (k w : W32) : List W32 :=
  let a := v.getD 0 0
  let b := v.getD 1 0
  let c := v.getD 2 0
  let e := v.getD 4 0
  let s1 := e.rotateRight 6 ^^^ e.rotateRight 11 ^^^ e.rotateRight 25
  let ch := (e &&& v.getD 5 0) ^^^ (~~~e &&& v.getD 6 0)
  let t1 := v.getD 7 0 + s1 + ch + k + w
  let s0 := a.rotateRight 2 ^^^ a.rotateRight 13 ^^^ a.rotateRight 22
  let maj := (a &&& b) ^^^ (a &&& c) ^^^ (b &&& c)
  [t1 + s0 + maj, a, b, c, v.getD 3 0 + t1, e, v.getD 5 0, v.getD 6 0]

/-- One 64-byte block. -/
def shaBlock (h : List W32) (block : Bytes) : List W32 :=
  let w0 := (List.range 16).map fun i => BitVec.ofNat 32 (beNat (slice block (4 * i) 4))
  let w := (shaSchedule 48 w0.reverse).reverse
  let v := (List.zip shaK w).foldl (fun v kw => shaRound v kw.1 kw.2) h
  List.zipWith (· + ·) h v

/-- `n` blocks of 64 bytes. -/
def shaBlocks : Nat → List W32 → Bytes → List W32
  | 0, h, _ => h
  | n + 1, h, bs => shaBlocks n (shaBlock h (bs.take 64)) (bs.drop 64)

/-- SHA-256 of a byte string, 32 bytes. -/
def sha256 (msg : Bytes) : Bytes :=
  let z := (119 - msg.length % 64) % 64
  let m := msg ++ [0x80] ++ List.replicate z 0 ++ beBytes 8 (8 * msg.length)
  (shaBlocks (m.length / 64) shaInit m).flatMap fun w => beBytes 4 w.toNat

/-- A digest as the little-endian value of a 256-bit register (byte 0 in bits [7:0], 00 R2). -/
def digestBits (d : Bytes) : BitVec 256 := BitVec.ofNat 256 (leNat d)

/-- The bytes of a 256-bit register. -/
def digestBytes (d : BitVec 256) : Bytes := leBytes 32 d.toNat

/-- HMAC-SHA-256. -/
def hmac256 (key msg : Bytes) : Bytes :=
  let k := padTo 64 (if key.length ≤ 64 then key else sha256 key)
  sha256 (k.map (· ^^^ 0x5c) ++ sha256 (k.map (· ^^^ 0x36) ++ msg))

/-- One bit of a CRC-64 with polynomial 0x42F0E1EBA9EA3693, most significant bit first (14 R294; log entry 12). -/
def crcBit (c : W64) : W64 := if c.getLsbD 63 then (c <<< 1) ^^^ 0x42F0E1EBA9EA3693 else c <<< 1

def crcByte (c : W64) (b : Byte) : W64 :=
  let c := c ^^^ (b.zeroExtend 64 <<< 56)
  crcBit (crcBit (crcBit (crcBit (crcBit (crcBit (crcBit (crcBit c)))))))

/-- Initial value and final XOR all ones (14 R294). -/
def crc64 (bs : Bytes) : W64 := ~~~(bs.foldl crcByte (BitVec.allOnes 64))

end Sys2Proof.Machine
end

