-- ==== Sys2Proof/Machine/State.lean ====
section
/-!
DEFINITION. The state of the module: every register, table, queue, mode and pin the manual gives it, as plain data.
Each field's comment gives its width or range, the rule that names it, and its reset value; the default of a field IS
its value in `State.reset` (after module reset). "Model:" marks a field of the model's own.
-/
namespace Sys2Proof.Machine

open Sys2Proof

/-- Why the block would stop. No command of the table stops the block: what the manual calls a fault of the module is an
effect on its state (15 R323). Kept closed and empty of raisers; safe. -/
inductive Fault
  /-- Raised by no command. -/
  | none
  deriving DecidableEq, Repr

/-- Why a command would have no meaning. -/
inductive Refusal
  /-- Raised by an arm of `exec` whose row has no meaning yet; safe. -/
  | notModelled (mnemonic : String)
  deriving DecidableEq, Repr

/-! ### What is fixed about this die and its flash -/

/-- Model: one signature string that verifies: the SHA-256 or public key it verifies under, the message, the string
(18 R374, R381 name FIPS 205 for the check; the model holds the set of strings that pass it). -/
structure SigFact where
  key : Bytes
  msg : Bytes
  sig : Bytes
  deriving DecidableEq, Repr

/-- The default image of both slots: SVN 0, signed. -/
def defaultImage : FirmwareImage := ⟨[1], 0, [2], [3]⟩

/-- The default factory record: every core and harrow enabled, the limits of 20 R426. -/
def defaultRecord : FactoryRecord :=
  ⟨[1], 0, 1, BitVec.allOnes 4096, BitVec.allOnes 256, 7500, 100, 90, List.replicate 32 0,
   List.replicate 32 7, [], [4], [5]⟩

/-- One entry of the replay-protected area (18 R378). -/
structure ReplayEntry where
  /-- 32 bits; 18 R378; 0. -/
  counter : W32 := 0
  /-- 32 bits; 18 R378; 0. -/
  writes  : W32 := 0
  /-- whether the HMAC tag of the entry is the one the rollback key gives (18 R378); true. -/
  tagOk   : Bool := true
  deriving DecidableEq, Repr

/-- The NOR flash (18 R374, 11 R238) and what is fixed about the die. Kept through every reset. -/
structure Flash where
  /-- two firmware slots; 18 R374; slot images signed, SVN 0 (log entry 5). -/
  slots      : List FirmwareImage := [defaultImage, defaultImage]
  /-- SHA-256 of the accepted signer key, mask ROM; 18 R374 (as the key itself; log entry 5). -/
  rootKey    : Bytes := [1]
  /-- 18 R376; every unit enabled (log entry 5). -/
  record     : FactoryRecord := defaultRecord
  /-- version of the management controller firmware; 18 R379; 0. -/
  mgmtSvn    : W32 := 0
  /-- its image; 18 R374, R383 (log entry 5). -/
  mgmtImage  : Bytes := []
  /-- four entries; 18 R378; zeros with good tags. -/
  replay     : List ReplayEntry := [{}, {}, {}, {}]
  /-- (far?, region, frame) of each retired frame, at most 4,096; 11 R238; empty. -/
  retired    : List (Bool × Nat × Nat) := []
  /-- the PUF seed the helper data regenerates; 18 R377; 32 zero bytes (log entry 5). -/
  pufSeed    : Bytes := List.replicate 32 0
  /-- the identity public key FIPS 205 key generation gives for that seed; 18 R377 (log entry 5). -/
  dieKey     : Bytes := List.replicate 32 7
  /-- Model: the signature strings that verify; log entry 10. -/
  sigs       : List SigFact :=
    [⟨[1], imageMessage defaultImage, [3]⟩, ⟨[1], recordMessage defaultRecord, [5]⟩]
  /-- 8 bits, silicon stepping; 20 R414; 0 (log entry 4). -/
  stepping   : Byte := 0
  deriving DecidableEq, Repr

/-! ### Security, boot and identity (18) -/

structure Security where
  /-- 2 bits; 18 R380, R382; sealed. Survives every reset unless a transition is pending. -/
  state         : Nat := 0
  /-- 2 bits, 3 = none; 18 R382; 3. -/
  pending       : Nat := 3
  /-- 18 R382; 0. -/
  identityValid : Bool := false
  /-- slot booted; 18 R382; 0 (log entry 4). -/
  slot          : Nat := 0
  /-- 18 R382; 0. -/
  otherRefused  : Bool := false
  /-- 8 bits; 18 R382; 0. -/
  bootError     : Nat := 0
  /-- 32 bits; 18 R382; 0 (log entry 4). -/
  fwSvn         : W32 := 0
  /-- 256 bits; 20 R425; 0. -/
  nonce         : BitVec 256 := 0
  /-- whether a nonce is issued and not used up; 20 R425; no. -/
  nonceIssued   : Bool := false
  /-- when the nonce was issued, and the one it withdrew, which a request of the same cycle still names; 20 R425; none. -/
  nonceAt       : Option Nat := none
  nonceBefore   : Option (BitVec 256) := none
  /-- Model: nonces drawn so far, the argument of the free value Config.freshNonce (log entry 9). -/
  nonceCount    : Nat := 0
  /-- 2 bits; 20 R425; 0. -/
  result        : Nat := 0
  /-- 32 KiB, sparse by byte; 20 R425; 0. -/
  area          : Sparse Byte := []
  /-- eight registers of 256 bits; 18 R383; 0. -/
  meas          : List (BitVec 256) := List.replicate 8 0
  /-- SVN of the image refused for its SVN, to be reported at ready; 18 R379; none. -/
  refusedSvn    : Option W32 := none
  /-- old state of a transition to be reported at ready; 18 R381; none. -/
  changedFrom   : Option Nat := none
  /-- Sahith requests held, one per transport (0 DOE, 1 MCTP), with the response being made; 18 R384; none. -/
  busy          : List (Nat × Bytes) := []
  deriving DecidableEq, Repr

/-- The READY register (19 R402) and the start-up sequence (19 R401). -/
structure Startup where
  /-- 19 R402; 0. -/
  ready      : Bool := false
  /-- 19 R402; 0. -/
  failed     : Bool := false
  /-- 19 R402; 0. -/
  recovery   : Bool := false
  /-- 4 bits; 19 R402; 0. -/
  phase      : Nat := 0
  /-- whether the action of phase 0 (ROM stage) has completed; 18 R375. -/
  romDone    : Bool := false
  /-- 8 bits; 19 R402; 0. -/
  failedUnit : Nat := 0
  /-- 8 bits; 19 R402; 0. -/
  portsUp    : Byte := 0
  /-- ELAPSED_MS once frozen; 19 R402; not frozen. -/
  elapsed    : Option Nat := none
  /-- slot tried first, from BOOT_SEL; 18 R375, 19 R389; 0. -/
  firstSlot  : Nat := 0
  /-- timestamp at the start of phase 0; 19 R402; 0. -/
  startedAt  : Nat := 0
  /-- units retired in phase 5, reported after MODULE_READY; 19 R403; none. -/
  bistCores    : List Nat := []
  bistHarrows  : List Nat := []
  bistGleaners : List Nat := []
  bistRollers  : List Nat := []
  deriving DecidableEq, Repr

/-! ### Power, cooling, pins (19) -/

structure Power where
  /-- input voltage in 10 mV; 19 R390, R396 INPUT_V; 4,800 (log entry 6). -/
  volts        : Nat := 4800
  /-- 16 bits; 19 R396 INPUT_A; 0. -/
  amps         : Nat := 0
  /-- 16 bits, 1 ms average; 19 R396 INPUT_W; 0. -/
  watts        : Nat := 0
  /-- AUX_3V3 present; 19 R388; yes (log entry 6). -/
  aux          : Bool := true
  /-- PWR_EN pin; 19 R388; asserted (log entry 6). -/
  pwrEn        : Bool := true
  /-- PWR_GOOD pin; 19 R388; high (log entry 6). -/
  pwrGood      : Bool := true
  /-- state set by POWER_OFF; 19 R407; released. -/
  offByMgmt    : Bool := false
  /-- THERM_TRIP_N driven low; 19 R400; no. -/
  tripLow      : Bool := false
  /-- timestamp at which PWR_EN was last deasserted; 19 R400; none. -/
  pwrEnLowAt   : Option Nat := none
  /-- TRIP_SENSOR, TRIP_VALID; 20 R426; 0. Kept by the management controller. -/
  tripSensor   : Option Nat := none
  /-- MASTER_SEL pin; 19 R389; deasserted. -/
  masterSel    : Bool := false
  /-- PCIe link up; 14 R312; down (log entry 6). -/
  linkUp       : Bool := false
  /-- PERST_N asserted; 19 R388; no. -/
  perst        : Bool := false
  /-- ALERT_N asserted and its causes read; 19 R406; released. -/
  alert        : Bool := false
  /-- 13 bits; 19 R394; factory limit 7,500. -/
  capW         : Nat := 7500
  /-- 6 bits; 19 R394; 0. -/
  clockLimit   : Nat := 0
  /-- 8 bits; 19 R394; 100. -/
  dieThrottle  : Nat := 100
  /-- 8 bits; 19 R394; 90. -/
  hbmThrottle  : Nat := 90
  /-- cap step, 0 to 48; 19 R395; 0. -/
  capStep      : Nat := 0
  /-- thermal step, 0 to 48; 19 R399; 0. -/
  thermalStep  : Nat := 0
  /-- 19 R396; 0. -/
  capUnmet     : Bool := false
  /-- 19 R396; 0. -/
  inputLow     : Bool := false
  /-- power samples since the last change of step: count and sum; 19 R395; 0. -/
  windowCount  : Nat := 0
  windowSum    : Nat := 0
  /-- power samples of the last 1 ms, newest first; 19 R395; none. -/
  samples      : List Nat := []
  /-- 128 entries of 16 bits; 19 R399; 0x8000, no reading yet (log entry 6). -/
  sensors      : List W16 := List.replicate 128 0x8000
  /-- sensors at or above their near threshold; 19 R399; none. -/
  nearSensors  : List Nat := []
  /-- episode of the cap under way; 19 R397; no. -/
  capEpisode   : Bool := false
  /-- episode of temperature under way; 19 R397; no. -/
  thermEpisode : Bool := false
  /-- timestamps at which each cause last decided STEP; 19 R397; 0. -/
  capDecidedAt   : Nat := 0
  thermDecidedAt : Nat := 0
  /-- when the host last wrote CAP_W, which stands over a management order of that cycle; 19 R408; never. -/
  capWrittenAt   : Option Nat := none
  deriving DecidableEq, Repr

/-! ### Host and rings (13) -/

structure HostCtx where
  /-- 64 bits; 13 R269; 0. -/
  doorbellBase    : W64 := 0
  /-- 64 bits; 13 R269; 0. -/
  progressBase    : W64 := 0
  /-- 8 bits; 13 R269; 2. -/
  pollInterval    : BitVec 8 := 2
  /-- 8 bits; 13 R269; 0. -/
  reportRing      : BitVec 8 := 0
  /-- 32 bits; 13 R269; 0. -/
  eventLost       : W32 := 0
  /-- 64 bits; 13 R269; 0. -/
  reportBase      : W64 := 0
  /-- 64 bits; 13 R269; 0. -/
  windowBase      : W64 := 0
  /-- 64 bits; 13 R269; 0. -/
  eventBase       : W64 := 0
  /-- 5 bits; 13 R269; 0. -/
  eventSizeLog2   : BitVec 5 := 0
  /-- 13 R269; 0. -/
  eventEnable     : Bool := false
  /-- 11 bits; 13 R269; 0. -/
  eventVector     : BitVec 11 := 0
  /-- 8 bits; 13 R269; 0. -/
  eventCoalesce   : BitVec 8 := 0
  /-- 20 bits; 13 R269; 0. -/
  dataPasid       : BitVec 20 := 0
  /-- 13 R269; 0. -/
  dataPasidEnable : Bool := false
  deriving DecidableEq, Repr

structure SubRing where
  /-- 64 bits; 13 R270; 0. -/
  base           : W64 := 0
  /-- 5 bits; 13 R270; 0. -/
  sizeLog2       : BitVec 5 := 0
  /-- 8 bits; 13 R270; 0. -/
  completionRing : BitVec 8 := 0
  /-- 13 R270; 0. -/
  enable         : Bool := false
  /-- 13 R270; 0. -/
  haltOnError    : Bool := false
  /-- 13 R270; 0. -/
  pasidEnable    : Bool := false
  /-- 2 bits: 0 disabled, 1 running, 2 halted, 3 error; 13 R270; 0. -/
  state          : Nat := 0
  /-- 20 bits; 13 R270; 0. -/
  pasid          : BitVec 20 := 0
  /-- 8 bits; 13 R270; 0. -/
  errorCode      : Nat := 0
  /-- 32 bits; 13 R270; 0. -/
  generation     : W32 := 0
  /-- 32 bits; 13 R270; 0. -/
  fetched        : W32 := 0
  /-- 32 bits; 13 R270; 0. -/
  executed       : W32 := 0
  /-- PRODUCER as last read; 13 R272, R275; 0. -/
  producer       : W32 := 0
  /-- descriptors fetched and not executed, oldest first, at most 64; 13 R275; none. -/
  waiting        : List (DescOp × Desc) := []
  /-- slots whose descriptor read is in flight; 13 R275; 0. -/
  reading        : Nat := 0
  /-- descriptors executed whose work continues; 13 R281, R283; 0. -/
  inFlight       : Nat := 0
  /-- RING_ENABLE 0 received, STATE 0 once nothing is in flight; 13 R283; no. -/
  draining       : Bool := false
  /-- progress word last written; 13 R273; none. -/
  shown          : Option Nat := none
  deriving DecidableEq, Repr

/-- A completion or report entry (13 R284) before it has a slot. -/
structure Entry where
  tag      : W16
  status   : Nat
  halted   : Bool
  report   : Bool
  detail   : Nat
  urgent   : Bool
  /-- position of a step report; other entries take the head at posting. -/
  position : Option Pos
  /-- submission ring of a descriptor that completed after its execution, for HALT_ON_ERROR. -/
  ring     : Option Nat
  /-- the host access that may still time out under HOST_COMPLETION_TIMEOUT, and its ring (13 R278). -/
  access   : Option (Nat × Nat)
  /-- QUIET: not posted while its status is OK (13 R276). -/
  quiet    : Bool
  deriving DecidableEq, Repr

structure ComplRing where
  /-- 64 bits; 13 R271; 0. -/
  base        : W64 := 0
  /-- 5 bits; 13 R271; 0. -/
  sizeLog2    : BitVec 5 := 0
  /-- 11 bits; 13 R271; 0. -/
  vector      : BitVec 11 := 0
  /-- 13 R271; 0. -/
  enable      : Bool := false
  /-- 13 R271; 0. -/
  pasidEnable : Bool := false
  /-- 2 bits; 13 R271; 0. -/
  state       : Nat := 0
  /-- 20 bits; 13 R271; 0. -/
  pasid       : BitVec 20 := 0
  /-- 8 bits; 13 R271; 0. -/
  coalesce    : BitVec 8 := 0
  /-- 32 bits; 13 R271; 0. -/
  generation  : W32 := 0
  /-- 32 bits; 13 R271; 0. -/
  posted      : W32 := 0
  /-- CONSUMER as last read; 13 R272; 0. -/
  consumer    : W32 := 0
  /-- entries waiting to be posted, oldest first (HELD counts them while the ring is full); 13 R284; none. -/
  waiting     : List Entry := []
  /-- posted entries not yet signalled, and when the first was posted; 13 R284; 0. -/
  unsignalled : Nat := 0
  firstAt     : Nat := 0
  /-- progress word last written; 13 R273; none. -/
  shown       : Option Nat := none
  deriving DecidableEq, Repr

/-- What a host read in flight is for (13 R275, R278). -/
inductive HostAccess
  /-- a doorbell word -/
  | doorbell (word : Nat)
  /-- the descriptor of a ring's slot index -/
  | descriptor (ring : Nat) (index : W32) (retries : Nat)
  /-- the source data of a COPY_IN -/
  | copyIn (ring : Nat) (d : Desc) (reply : Option ModId)
  deriving DecidableEq, Repr

structure HostIf where
  /-- 512 bits; 13 R269. -/
  ctx        : HostCtx := {}
  /-- 256 contexts; 13 R270. -/
  sub        : Sparse SubRing := []
  /-- 256 contexts; 13 R271. -/
  compl      : Sparse ComplRing := []
  /-- event ring: entries posted, CONSUMER of word 512, LOST pending, unsignalled entries; 13 R285; 0. -/
  evPosted   : W32 := 0
  evConsumer : W32 := 0
  evLostFlag : Bool := false
  evUnsig    : Nat := 0
  evFirstAt  : Nat := 0
  /-- a master's own events waiting for its event ring to be enabled; 19 R403; none. -/
  evWaiting  : List (W16 × ModId × Pos × W64 × W64) := []
  /-- host reads in flight by identifier, and the next identifier; 13 R275, R278; none. -/
  accesses   : Sparse (Option HostAccess) := []
  nextAccess : Nat := 0
  /-- LIVENESS as last read, and when it last changed; 13 R275, 15 R330; 0. -/
  liveness   : W64 := 0
  liveAt     : Nat := 0
  liveSeen   : Bool := false
  /-- safe hold in force; 15 R330; no. -/
  safeHold   : Bool := false
  /-- MSI-X: masked vectors and pending bits, 2,048 each; 13 R266, R284; every vector masked, no bit pending (log entry 28). -/
  msixMasked  : BitVec 2048 := BitVec.allOnes 2048
  msixPending : BitVec 2048 := 0
  /-- report slot of the last committed step is to be written before its report; 13 R284. -/
  lastPoll   : Nat := 0
  deriving DecidableEq, Repr

/-! ### The furrow, the run, stops, modes (01, 02) -/

/-- The stop map (02 R40). Stream entries s = 0 to 5: last position, last task, abandoned, seedbed. -/
structure StopMap where
  kind       : Nat
  sourceKind : Nat
  sourceHolding : Nat
  aborted    : Nat
  head       : Pos
  target     : Pos
  timestamp  : W64
  lastCommit : Pos
  seedbedHead : Pos
  streams    : List (Pos × W32 × Nat × Bool)
  deriving DecidableEq, Repr

/-- How the run stands (02 R36, R39; 14 R316). -/
inductive Halt
  | running
  | cut
  | smear
  /-- halted with no lead master (14 R316) -/
  | noLead
  deriving DecidableEq, Repr

/-- A run-wide order held at the lead master (13 R289). -/
structure HeldOrder where
  order   : FwdOrder
  arrived : Nat
  deriving DecidableEq, Repr

/-- A descriptor whose work continues after it executed, other than a host read (13 R281). -/
inductive JobKind
  /-- STOP: done when the cut or the halt is reached on every module (02 R35) -/
  | stop (scheduled : Bool) (target : Pos)
  /-- GRAPH_RETIRE: done at the boundary (12 R245) -/
  | retire (segment : Nat)
  /-- RUN_BEGIN: waiting for the other holding masters until the commit-vote timeout (13 R279) -/
  | runBegin
  /-- GROUP_DEFINE or GROUP_REFORM: waiting until every member holds the definition (10 R196) -/
  | group (number : Nat) (epoch : Nat) (missing : List ModId)
  /-- COPY_OUT or SNAPSHOT waiting for the seedbed to close (09 R188) -/
  | copyOut
  /-- an order sent to other modules, the run lead master among them (13 R280, R289): those whose result is awaited, the
  first error status among the results so far, and the sum of their details -/
  | targets (missing : List ModId) (status detail : Nat)
  /-- PLACEMENT_PIN: the pages to be in a tier, and how many of them move (11 R232) -/
  | pin (pages : List Nat) (far : Bool) (moved : Nat)
  /-- COPY_OUT or COPY_IN on a peer's memory: the transaction tags awaited, and the data read so far, each part with its tag and
  whether it was poisoned (13 R278) -/
  | remote (out : Bool) (tags : List W16) (parts : List (W16 × Bool × Bytes))
  /-- RESUME after an immediate stop, until the head stands at (m + 1, F, 0) on every module (02 R42) -/
  | resume
  deriving DecidableEq, Repr

structure Job where
  d     : Desc
  op    : DescOp
  kind  : JobKind
  /-- the module that sent the order and takes its result; none for a descriptor of this module's rings. -/
  reply : Option ModId
  /-- when it began; the bounds of 15 R318 and 13 R279 run from it. -/
  at_   : Nat := 0
  deriving DecidableEq, Repr

structure Run where
  /-- a run exists; 13 R279; no. -/
  isOn          : Bool := false
  /-- 64 bits, RUN_BEGIN START; 13 R279; 0. -/
  start         : Pos := 0
  /-- 64 bits, run seed; 13 R279; 0. -/
  seed          : W64 := 0
  /-- 16 bits; 13 R279; 0. -/
  firstHolding  : Nat := 0
  /-- 1 to 1,024; 13 R279; 0. -/
  holdingCount  : Nat := 0
  /-- holding of the present run lead master; 14 R316; 0. -/
  leadHolding   : Nat := 0
  /-- Model: module ID of the run lead master as learned at RUN_BEGIN, 0xFFFF while not known; 14 R316; 0xFFFF. -/
  leadModule    : ModId := 0xFFFF
  /-- RUN_BEGIN bytes 16 to 35 received from each holding master; 13 R279; none. -/
  begun         : List (Nat × Bytes) := []
  /-- holding masters known by their RUN_BEGIN, by holding number; 14 R316; none. -/
  masters       : List (Nat × ModId) := []
  /-- 64 bits, this module's copy of the furrow head; 02 R22; 0. -/
  head          : Pos := 0
  /-- seedbed head; 01 R16; none set. -/
  seedbedHead   : Option Pos := none
  /-- the seedbed is open (from its opening to its close); 01 R17; no. -/
  seedbedOpen   : Bool := false
  /-- advance limit in host-paced mode; 02 R29; none. -/
  advanceLimit  : Option Pos := none
  /-- local front and seedbed front last reported by each module; 02 R26, 12 R256; none. -/
  fronts        : List (ModId × Pos × Pos × W32) := []
  /-- target and order of a pending scheduled stop; 02 R36; none. -/
  stop          : Option StopMsg := none
  /-- halted at a cut, in a smear, or running; 02 R36, R39; running. -/
  halt          : Halt := .running
  /-- stop map of the last halt; 02 R40; none. -/
  stopMap       : Option StopMap := none
  /-- when the run last halted here; 15 R318; 0. -/
  haltAt        : Nat := 0
  /-- modules that have reported the stop reached, and the discard complete; 14 R298; none. -/
  stopAcks      : List ModId := []
  discardAcks   : List ModId := []
  /-- modes of functions 0 to 9, true = host-assisted; 01 R19; hardware. -/
  modes         : List Bool := List.replicate 10 false
  /-- MODE_SETs waiting for the boundary, in order-point order; 01 R19; none. -/
  pendingModes  : List (Nat × Bool) := []
  /-- how many of them, from the first, had executed when pass C decided; 01 R19; 0. -/
  modesDue      : Nat := 0
  /-- segments whose GRAPH_RETIRE had executed when pass C decided; 12 R245; none. -/
  retireDue     : List Nat := []
  /-- the step a rollback goes to once the commit work of the step before it is complete; 02 R42; none. -/
  rollTo        : Option Nat := none
  /-- at a new lead master, the step whose vote was open, and whether another module's commit record decides it; 14 R316,
      09 R183; none. -/
  succession    : Option (Nat × Bool) := none
  /-- FURROW_STALL raised since the head last advanced, and when it advanced; 02 R33. -/
  stallRaised   : Bool := false
  headAt        : Nat := 0
  /-- highest step whose task runs have been created; 12 R258; none. -/
  created       : Option Nat := none
  /-- number of times each step has been run in this run; 09 R179; 0. -/
  attempts      : Sparse Nat := []
  /-- highest step with a commit record on this module; 02 R40, R42; none. -/
  lastCommit    : Option Nat := none
  /-- steps all of whose commit work, or discard, is complete on this module; 01 R13, 02 R26; none. -/
  finished      : Option Nat := none
  /-- highest step for which a module of the run is known to hold a commit record; 02 R42; none. -/
  knownCommit   : Option Nat := none
  /-- runs of steps (step, attempt) that vote RETRY for an address error, or for poison; 11 R224, 15 R327; none. -/
  addressRetry  : List (Nat × Nat) := []
  poisonRetry   : List (Nat × Nat) := []
  /-- the run must not resume automatically; 10 R212, 11 R224, 15 R327, R339; no. -/
  holdResume    : Bool := false
  /-- run-wide orders held at the lead master; 13 R289; none. -/
  held          : List HeldOrder := []
  /-- descriptors whose work continues; 13 R281; none. -/
  jobs          : List Job := []
  /-- timestamp at which the copy of the head entered (n, C), and (n, E); 09 R177, 16 R356; 0. -/
  enteredC      : Nat := 0
  enteredE      : Nat := 0
  deriving DecidableEq, Repr

/-! ### Votes and commits (09, 15 R322) -/

/-- A commit record (15 R322). -/
structure CommitRecord where
  step        : Nat
  entries     : Nat
  flipped     : Nat
  foldDone    : Bool
  queuesDone  : Bool
  rootsDone   : Bool
  recordsDone : Bool
  fingerprintDone : Bool
  reported    : Bool
  timestamp   : W64
  deriving DecidableEq, Repr

structure Votes where
  /-- 16 bits, vote word of the open step; 09 R172; 0. -/
  word        : W16 := 0
  /-- findings of seedbed work of step n + 1, held; 09 R191; 0. -/
  heldWord    : W16 := 0
  /-- step whose vote is open on this module; 09 R174; none. -/
  openStep    : Option Nat := none
  /-- this module has contributed its word for the open step; 09 R174; no. -/
  contributed : Bool := false
  /-- contributions received (module, word) for the open step at a master; 09 R174; none. -/
  received    : List (ModId × VoteWord) := []
  /-- the word last contributed; 09 R174; 0. -/
  sent        : W16 := 0
  /-- members declared lost while the vote was open, which count with bit 8; 09 R174; none. -/
  lost        : List ModId := []
  /-- decision taken for the open step by the lead master; 09 R176; none. -/
  decided     : Option VoteMsg := none
  /-- vote timeout reported for the open step; 09 R177; no. -/
  timeoutSent : Bool := false
  /-- vote-record ring, 256 records by step mod 256; 09 R179; none. -/
  ring        : List (Nat × VoteMsg × Nat) := []
  /-- commit records, newest first, at most 256; 15 R321, R322; none. -/
  commits     : List CommitRecord := []
  /-- outcome received for a step, awaiting that the head leaves it; 09 R180; none. -/
  outcome     : Option (Nat × Nat) := none
  deriving DecidableEq, Repr

/-! ### Task graphs (12), parsed -/

structure TensorRec where
  format : Nat
  block  : Nat
  cls    : Nat
  fallow : Bool
  pinned : Bool
  pinFar : Bool
  rank   : Nat
  shardDim : Nat
  sharded  : Bool
  shardGroup : Nat
  homeModule : W16
  homeOffset : Nat
  extent     : List Nat
  /-- Model: fixed at acceptance (12 R247): MODULE_GROUP of the segment or TENSOR_DEFINE that brought the tensor, shards it is
  cut into, this module's rank among them, and whether this module holds a home of it. -/
  onGroup    : Nat := 0xFFFF
  parts      : Nat := 1
  shard      : Nat := 0
  held       : Bool := true
  deriving DecidableEq, Repr

structure ViewRec where
  tensor : Nat
  start  : List Nat
  span   : List Nat
  deriving DecidableEq, Repr

structure TaskRec where
  kind   : Nat
  stream : Nat
  stint  : Nat
  inCount  : Nat
  outCount : Nat
  predCount : Nat
  gate   : Pos
  succOffset : Nat
  succCount  : Nat
  inView  : List Nat
  outView : List Nat
  program : Nat
  record  : Nat
  blockFirst : Nat
  blockCount : Nat
  param   : Bytes
  deriving DecidableEq, Repr

structure StatRec where
  running : Nat
  pendingT : Nat
  kind    : Nat
  norm    : Nat
  firstFold : Bool
  interval : Nat
  phase    : Nat
  blockLog2 : Nat
  beta     : W32
  layer    : Nat
  multM1   : Nat
  rows     : Nat
  cols     : Nat
  deriving DecidableEq, Repr

structure RootRec where
  stat   : Nat
  root   : Nat
  work   : Nat
  algorithm : Nat
  pLog2  : Nat
  precision : Bool
  dampMode  : Bool
  carry     : Bool
  ageAction : Bool
  biasCorrect : Bool
  strict      : Bool
  deadlineM1  : Nat
  maxAge      : Nat
  iterLimit   : Nat
  epsilon     : W32
  tol         : W32
  harrows     : Nat
  deriving DecidableEq, Repr

structure UpdateRec where
  master  : Nat
  working : Nat
  m1      : Nat
  m2      : Nat
  grad    : Nat
  leftRoot  : Nat
  rightRoot : Nat
  normT   : Nat
  recipe  : Nat
  decay   : Bool
  clip    : Bool
  precise : Bool
  biasCorrect : Bool
  fallowDelay : Nat
  layer  : Nat
  lr     : W32
  beta1  : W32
  beta2  : W32
  eps    : W32
  wd     : W32
  clipNorm : W32
  umax   : W32
  t0     : Nat
  deriving DecidableEq, Repr

/-- A segment as retained (12 R241, R244), its stint codes resolved (04 R73). -/
structure Segment where
  standing    : Bool
  layers      : Nat
  oneShot     : Nat
  taskBase    : Nat
  tensorBase  : Nat
  evalInterval : Nat
  evalPhase    : Nat
  group       : Nat
  bytes       : Bytes
  tensors     : List TensorRec
  views       : List ViewRec
  tasks       : List TaskRec
  edges       : List Nat
  stats       : List StatRec
  roots       : List RootRec
  updates     : List UpdateRec
  programs    : Bytes
  order       : List Nat
  deriving DecidableEq, Repr

/-- An entry of the graph directory (12 R244) with the segment it describes. -/
structure DirEntry where
  /-- 3 bits; 12 R244; 0. -/
  state     : Nat := 0
  /-- 64 bits; 12 R244; 0. -/
  firstStep : Nat := 0
  /-- 64 bits; 12 R244; 0. -/
  lastStep  : Nat := 0
  /-- 256 bits; 12 R244; 0. -/
  digest    : BitVec 256 := 0
  /-- the retained copy; 12 R244; none. -/
  segment   : Option Segment := none
  /-- first slot of its root records in the solve-record table; 20 R420; 0. -/
  solveBase : Nat := 0
  deriving DecidableEq, Repr

structure Graph where
  /-- 256 entries; 12 R244; free. -/
  dir        : Sparse DirEntry := []
  /-- tensors defined by TENSOR_DEFINE; 13 R277; none. -/
  tensors    : Sparse (Option TensorRec) := []
  /-- MODULE_GROUP each of them was defined with; 13 R277; 0xFFFF. -/
  tensorGroups : Sparse Nat := []
  /-- solve-record slots given out since the last holding reset; 20 R420; 0. -/
  solveSlots : Nat := 0
  deriving DecidableEq, Repr

/-! ### Task runs and the scheduler (12 R258-R263) -/

/-- A NaN event (04 R83, R87). -/
structure NanEvent where
  outIndex : Nat
  kIndex   : Nat
  cause    : Nat
  stage    : Nat
  unit     : Nat
  gleaner  : Bool
  /-- Model: the output view of the task whose element `outIndex` is. -/
  view     : Nat := 0
  deriving DecidableEq, Repr

/-- Where a task run stands (12 R258-R261): created, holding a slot, dispatched and computed, published or completed
at once, discarded, abandoned. -/
inductive Phase
  | created
  | admitted
  | computed
  | published
  | discarded
  | abandoned
  deriving DecidableEq, Repr

/-- A write of a task's fresh allocation: cells of one tensor, published together (12 R253). -/
abbrev Cells := List (Nat × Byte)

/-- Who wrote a layer over the committed memory, and which readers see it (12 R253-R255, 08 R166, 13 R278). -/
inductive LayerTag
  /-- the output of a task run of a step, published; `seedbed` while its seedbed is open -/
  | output (step : Nat) (task : W32) (seedbed : Bool)
  /-- staged hopper pages of a step -/
  | staged (step : Nat)
  /-- a COPY_IN held for a step -/
  | held (step : Nat)
  deriving DecidableEq, Repr

structure TaskInst where
  step     : Nat
  task     : W32
  seg      : Nat
  index    : Nat
  stream   : Nat
  gate     : Pos
  phase    : Phase
  /-- started while the seedbed was open; 01 R17. -/
  seedbed  : Bool
  /-- attempt number of the run in progress or published; 12 R257. -/
  attempt  : Nat
  /-- unit that runs it, tiles in all and complete; 12 R262. -/
  unit     : Nat
  tiles    : Nat
  done     : Nat
  /-- overruns of the watchdog: the core, and the place of the tile in the run; 15 R325. -/
  overran  : List (Nat × Nat)
  /-- fresh allocation; 12 R253. -/
  cells    : Cells
  /-- staged in the hopper, not published by R253; 08 R166. -/
  staged   : Bool
  /-- first NaN event of the run; 04 R84. -/
  event    : Option NanEvent
  /-- findings for the vote; 09 R173. -/
  findings : W16
  /-- counters of its work, slot and amount; 17 R361. -/
  counts   : List (Nat × Nat)
  /-- the same of its tiles that were run again; 17 R361. -/
  recounts : List (Nat × Nat) := []
  /-- status of completion (13 R286). -/
  status   : Nat
  /-- contributions of a MATMUL_STAT not yet added: block and elements; 06 R112. -/
  contributions : List (Nat × List W32)
  /-- dispatch class boost and when it became eligible; 12 R261. -/
  boost    : Nat
  eligibleAt : Option Nat
  /-- position in the order of publication on this module; 02 R40. -/
  pubSeq   : Nat
  /-- Lamio transactions of its tiles that timed out; 15 R324. -/
  txnFails : Nat := 0
  /-- sequence number of a COLLECTIVE, from its group's counter at creation; 10 R199; 0. -/
  seq      : Nat := 0
  /-- when the copy of the head reached its gate; 10 R214; not yet. -/
  gateAt   : Option Nat := none
  /-- versions its run is bound to, by page read: the writer, or none for the committed home; 12 R255, R257. -/
  bound    : List (Nat × Option LayerTag) := []
  deriving DecidableEq, Repr

/-- A cell of a halted core as a debug request reads it (04 R88): accumulator, wide buffer, grains of A and B, k, stint. -/
structure CellView where
  acc   : W32
  wide  : W64
  grainA : BitVec 24
  grainB : BitVec 24
  k     : W32
  stint : W32
  deriving DecidableEq, Repr

structure Sched where
  /-- task runs, in the order created; 12 R258; none. -/
  tasks   : List TaskInst := []
  /-- publications so far; 02 R40; 0. -/
  pubs    : Nat := 0
  /-- NaN trap candidates held; 04 R85: step, gate, task, stream, seedbed, event. -/
  candidates : List (Nat × Pos × W32 × Nat × Bool × NanEvent) := []
  /-- retired cores, harrows, gleaners, rollers until module reset; 01 R7; none. -/
  retiredCores    : List Nat := []
  retiredHarrows  : List Nat := []
  retiredGleaners : List Nat := []
  retiredRollers  : List Nat := []
  /-- suspect cores; 15 R325; none. -/
  suspects : List Nat := []
  /-- halted cores (open state); 04 R88; none. -/
  halted   : List Nat := []
  /-- the 2,048 cells of each halted core, frozen at the halt; 04 R88; none. -/
  frozen   : List (Nat × List CellView) := []
  /-- Model: halts so far, an argument of the free value Config.cellAtHalt; 0. -/
  halts    : Nat := 0
  /-- tasks published by this module, carried in its heartbeat; 10 R214; 0. -/
  pubCount : Nat := 0
  deriving DecidableEq, Repr

/-! ### Memory (11) -/

/-- The layer is of the hopper. -/
def LayerTag.isStaged : LayerTag → Bool
  | .staged _ => true
  | _ => false

structure Layer where
  tag   : LayerTag
  cells : Cells
  deriving DecidableEq, Repr

/-- A directory entry (11 R219) of a page that has a frame. -/
structure PageEntry where
  /-- in the far tier (LPDDR5X); 11 R219. -/
  far   : Bool := false
  frame : Nat := 0
  gen   : Nat := 0
  /-- 0 settled, 1 MOVING, 2 SEALING, 3 flipped, source frame not yet freed; 11 R228. -/
  state : Nat := 0
  /-- the other frame of a move: destination before the flip, source after; 11 R228. -/
  otherFar   : Bool := false
  otherFrame : Nat := 0
  /-- lines copied so far marked dirty; 11 R228. -/
  dirty : List Nat := []
  /-- has a frame; 11 R220. -/
  present : Bool := false
  /-- 0 not pinned, 1 near, 2 far; 11 R233. -/
  pin   : Nat := 0
  /-- heat counter, 16 bits; 11 R225. -/
  heat  : Nat := 0
  /-- why the page is moving, as in `Selected`; 11 R228. -/
  cause : Nat := 0
  deriving DecidableEq, Repr

/-- Selected moves not yet started (11 R227, R233, R234): 0 rotation, 1 pin, 2 hint, 3 sowing, 4 retirement. -/
structure Selected where
  page  : Nat
  toFar : Bool
  cause : Nat
  deriving DecidableEq, Repr

/-- A staged page of a step with the frame it was given (08 R166). -/
structure HopperEntry where
  step  : Nat
  page  : Nat
  far   : Bool
  frame : Nat
  deriving DecidableEq, Repr

/-- A frame given at dispatch to a page that a task run writes, and made its home at publication (12 R253). -/
structure FreshFrame where
  step  : Nat
  task  : W32
  page  : Nat
  far   : Bool
  frame : Nat
  deriving DecidableEq, Repr

/-- The journal of a fold in the tally (06 R120): the chunks done, and the slot with the chunk written to it while it is valid. -/
structure FoldJournal where
  step : Nat
  task : W32
  done : Nat := 0
  slot : Option (Nat × Cells) := none
  deriving DecidableEq, Repr

/-- What a frame has shown of errors since module reset (11 R235, R237); lines are counted within the frame. -/
structure FrameHealth where
  far    : Bool
  region : Nat
  frame  : Nat
  /-- when the scrub period being counted began. -/
  since  : Nat
  /-- distinct lines with a corrected error in it. -/
  lines  : List Nat
  /-- corrected errors of the frame. -/
  corrected : Nat
  /-- lines that had an uncorrectable error, and those of them rewritten since. -/
  failed    : List Nat
  rewritten : List Nat
  deriving DecidableEq, Repr

/-- The memory and rotation fields (11 R226, 20 R417). -/
structure MemCfg where
  /-- 16 bits; 1,024. -/
  rotationBudget : BitVec 16 := 1024
  /-- 7 bits; 90. -/
  hbmTarget      : BitVec 7 := 90
  /-- 16 bits; 256. -/
  hysteresis     : BitVec 16 := 256
  /-- 4 bits; 1. -/
  decayShift     : BitVec 4 := 1
  /-- 4 bits; 2. -/
  lookahead      : BitVec 4 := 2
  /-- 8 bits; 24. -/
  scrubPeriod    : BitVec 8 := 24
  deriving DecidableEq, Repr

/-- A COPY_IN for a step (13 R278) until its data has come: its issuer, its TAG and ring, its range; what later ones for the step
have written since; its transfer was aborted (R290). -/
structure AwaitedCopy where
  source  : ModId
  ident   : W64
  step    : Nat
  off     : Nat
  len     : Nat
  newer   : List (Nat × Nat) := []
  aborted : Bool := false
  deriving DecidableEq, Repr

structure Memory where
  /-- committed contents, canonical; unlisted bytes read 0; 11 R219 (log entry 3). -/
  base     : List Host.Cell := []
  /-- published, staged and held versions over it, oldest first; 12 R253. -/
  layers   : List Layer := []
  /-- poisoned 64-byte lines, by line number; 11 R236; none. -/
  poison   : List Nat := []
  /-- error history of frames; 11 R235, R237; none. -/
  health   : List FrameHealth := []
  /-- hopper directory: frames of staged pages; 08 R166; empty. -/
  hopper   : List HopperEntry := []
  /-- fresh frames of task runs that have not published; 12 R253; none. -/
  fresh    : List FreshFrame := []
  /-- journals of folds in progress; 06 R120; none. -/
  folds    : List FoldJournal := []
  /-- old home frames (far?, region, frame) kept until the difference records are formed; 08 R167; none. -/
  oldHomes : List (Bool × Nat × Nat) := []
  /-- directory; 11 R219; no page has data. -/
  pages    : Sparse PageEntry := []
  /-- retired frames since module reset (far?, region, frame); 11 R237; none. -/
  retired  : List (Bool × Nat × Nat) := []
  /-- memory fields in force, and those waiting for the next commit; 11 R226. -/
  cfg      : MemCfg := {}
  staged   : Option MemCfg := none
  /-- 10 bits, RESERVED_SIZE as written; 11 R226; 96. -/
  reservedSize : BitVec 10 := 96
  /-- the size in force, GiB: that of the register from RUN_BEGIN on; 11 R226; 96. -/
  reservedNow  : BitVec 10 := 96
  /-- bytes; 11 R220; 3,584 GiB with no frame retired. -/
  capacity : Nat := 3584 * 2 ^ 30
  /-- moves selected and not started, and the budget left of the step; 11 R227; none. -/
  selected : List Selected := []
  budget   : Nat := 0
  /-- consecutive memory-request expiries per device (far?, region, count); 15 R319; none. -/
  expiries : List (Bool × Nat × Nat) := []
  /-- lines whose memory request has been reissued (far?, line); 15 R319; none. -/
  reissued : List (Bool × Nat) := []
  /-- COPY_INs held for a step whose data has not come, in order of execution; 13 R278; none. -/
  awaited  : List AwaitedCopy := []
  /-- pages whose committed home is poisoned and which wait for their restoration; 15 R327; none. -/
  damaged  : List Nat := []
  /-- a memory device is lost; 15 R324; no. -/
  deviceLost : Bool := false
  /-- committed contents before the commit in progress, kept until its records are formed; 08 R167; none. -/
  oldBase  : Option (List Host.Cell) := none
  deriving DecidableEq, Repr

/-! ### Numerics block and the trap (04 R87, 20 R418) -/

structure TrapRecord where
  taskId   : W32 := 0
  stream   : Nat := 0
  cause    : Nat := 0
  stage    : Nat := 0
  seedbed  : Bool := false
  valid    : Bool := false
  gleaner  : Bool := false
  unit     : Nat := 0
  position : Pos := 0
  outIndex : W64 := 0
  kIndex   : W32 := 0
  since    : W32 := 0
  timestamp : W64 := 0
  deriving DecidableEq, Repr

structure Numerics where
  /-- 4 bits; 20 R418; 3. -/
  stintDefault : BitVec 4 := 3
  /-- 20 R418; 0. -/
  trapEnable   : Bool := false
  /-- W1S; 20 R418; 0. -/
  trapArmed    : Bool := false
  /-- Model: when TRAP_ARMED was last written 1, for the cycle of 00 R5; never. -/
  armedAt      : Option Nat := none
  /-- 4 bits; 20 R418; 0. -/
  rollerCheck  : BitVec 4 := 0
  /-- 32 bits; 20 R418; +0. -/
  gMax         : W32 := 0
  /-- 512 bits; 04 R87; 0. -/
  trap         : TrapRecord := {}
  deriving DecidableEq, Repr

/-! ### Harrows and solves (07) -/

/-- A solve record (07 R146). -/
structure SolveRecord where
  status    : Nat := 0
  outcome   : Nat := 0
  warmRejected : Bool := false
  carried   : Bool := false
  fallback  : Bool := false
  age       : Nat := 0
  lag       : Nat := 0
  iterations : Nat := 0
  harrowCount : Nat := 0
  harrowFirst : Nat := 0
  statStep  : Nat := 0
  deadline  : Pos := 0
  residual  : W64 := 0
  boundary  : Nat := 0
  skippedBusy : Nat := 0
  timestamp : W64 := 0
  deriving DecidableEq, Repr

/-- The matrices and scalars of a solve at its last boundary (07 R137): values in the solve precision, row-major. -/
structure SolveWork where
  /-- step of the fold that issued it, and the task run that did; 07 R130. -/
  foldStep : Nat := 0
  /-- dimension n. -/
  n        : Nat := 0
  /-- assembled matrix; 07 R131. -/
  a        : List W64 := []
  tauA     : W64 := 0
  /-- X (Newton, result), or L and W (Cholesky), or G and V (Jacobi). -/
  x        : List W64 := []
  m        : List W64 := []
  /-- iteration limit in force; 07 R134. -/
  limit    : Nat := 0
  /-- the algorithm has ended; 07 R138. -/
  ended    : Bool := false
  /-- the assembly has been done; 07 R131. -/
  started  : Bool := false
  /-- a scalar of the assembly is non-finite, which ends the solve at boundary 0; 07 R139. -/
  bad      : Bool := false
  /-- the root a warm start reads, as installed by the apply of the step whose fold issued the solve; 07 R145. -/
  warm     : Option (List W64) := none
  /-- boundary 0 has been passed; 07 R139. -/
  begun    : Bool := false
  /-- a committed step has decided its deadline; 07 R140, R141. -/
  covered  : Bool := false
  /-- first NaN event of the solve; 07 R139. -/
  event    : Option NanEvent := none
  deriving DecidableEq, Repr

/-- A candidate root (07 R138, R148): header fields and the block in the root format, as bytes. -/
structure Candidate where
  statStep   : Nat
  residual   : W64
  state      : Nat
  iterations : Nat
  block      : Bytes
  deriving DecidableEq, Repr

/-- A decision of 07 R140 for a step. -/
structure Decision where
  step     : Nat
  outcome  : Nat
  carried  : Bool
  fallback : Bool
  age      : Nat
  lag      : Nat
  /-- the block uses the diagonal preconditioner in the step. -/
  diagonal : Bool
  /-- the candidate selected, installed at the commit (07 R143). -/
  selected : Option Candidate
  /-- the solve record before the decision, for SKIP (07 R143). -/
  before   : SolveRecord
  /-- the candidate before the decision, for SKIP (07 R143). -/
  beforeCandidate : Option Candidate
  /-- the decision abandoned a late solve (07 R141); its work and harrows before that, for SKIP. -/
  abandoned : Bool := false
  beforeWork : Option SolveWork := none
  beforeHarrows : List Nat := []
  /-- ROOT_AGE_LIMIT had been raised in this run of reuses. -/
  beforeRaised : Bool := false
  deriving DecidableEq, Repr

structure BlockSolve where
  key       : SolveKey
  /-- index in the solve-record table; 20 R420. -/
  slot      : Nat := 0
  record    : SolveRecord := {}
  work      : Option SolveWork := none
  candidate : Option Candidate := none
  harrows   : List Nat := []
  decisions : List Decision := []
  ageRaised : Bool := false
  deriving DecidableEq, Repr

structure Harrows where
  /-- 4 bits; 20 R419; 8. -/
  maxAge      : BitVec 4 := 8
  /-- 12 bits; 20 R419; 16. -/
  newtonLimit : BitVec 12 := 16
  /-- 12 bits; 20 R419; 24. -/
  jacobiLimit : BitVec 12 := 24
  /-- 32 bits; 20 R419; 2^-10. -/
  tol         : W32 := 0x3A800000
  /-- solve records and solves in flight, one per block of a held root record; 07 R146; none. -/
  blocks      : List BlockSolve := []
  /-- decisions imported by EXPORT_REPLAY_IMPORT: step, root tensor, block, decision, header and block bytes;
      16 R355; none. -/
  replay      : List (Nat × Nat × Nat × Decision × Bytes) := []
  deriving DecidableEq, Repr

/-! ### Collectives (10) -/

structure Group where
  /-- bytes 16 to 63 of the definition in force; 10 R194, 20 R421. -/
  def48   : Bytes := []
  /-- 16 bits; 10 R195; 0. -/
  epoch   : Nat := 0
  /-- 32 bits, sequence counter and its value at the last commit; 10 R199; 0. -/
  seq     : Nat := 0
  seqAtCommit : Nat := 0
  /-- the counter's value after each created step's collectives, by step, until its commit; 10 R199; none. -/
  marks   : List (Nat × Nat) := []
  deriving DecidableEq, Repr

/-- The chain state of one segment of a collective on this module (10 R204). -/
structure SegState where
  index    : Nat
  /-- partials received and not yet folded in. -/
  partials : List CollMsg := []
  /-- chains this member has completed, and the value it holds for the next: patterns of the fold format. -/
  phase    : Nat := 0
  value    : List W64 := []
  /-- its first event by element (10 R203): element, performing rank, K_INDEX, cause. -/
  events   : List (Nat × Nat × Nat × Nat) := []
  /-- the value has been passed on. -/
  passed   : Bool := false
  final    : Option (List W64) := none
  deriving DecidableEq, Repr

structure CollInst where
  step     : Nat
  task     : W32
  group    : Nat
  epoch    : Nat
  seq      : Nat
  /-- operation, 8 for EVAL_REDUCE; 10 R198, 12 R252. -/
  op       : Nat
  operator : Nat
  mode     : Nat
  count    : Nat
  root     : Nat
  /-- format and block-size code of the input view; 10 R211. -/
  format   : Nat
  block    : Nat
  seedbed  : Bool
  /-- 0 mustered, 1 data moving, 2 complete; 10 R212. -/
  phase    : Nat
  /-- this member's widened contribution, as patterns of the fold format; 10 R201. -/
  mine     : List W64
  /-- copied inputs of the members: rank, segment, bytes (gather, broadcast, all-to-all); 10 R198. -/
  blocks   : List (Nat × Nat × Bytes) := []
  segs     : List SegState := []
  /-- what has been sent, with its destination, kept for missing ranges; 15 R337. -/
  sent     : List (ModId × CollMsg) := []
  /-- segments of which a missing range has been requested; 15 R337. -/
  asked    : List Nat := []
  /-- when each member last sent something for it; 10 R214. -/
  heard    : List (ModId × Nat) := []
  startedAt : Nat := 0
  deriving DecidableEq, Repr

/-- A reservation request queued at this module's bin (10 R208): 0 queued, 1 tentative, 2 firm. -/
structure BinReq where
  key    : SegKey
  source : ModId
  state  : Nat
  deriving DecidableEq, Repr

/-- This module's own reservation for a segment it will send (10 R208): bins granted so far. -/
structure MyReserve where
  key     : SegKey
  granted : List ModId
  firm    : Bool
  since   : Nat
  deriving DecidableEq, Repr

structure Coll where
  /-- group definitions held, by number; 10 R196; none. -/
  groups   : Sparse (Option Group) := []
  /-- definition messages received in part: group lead, epoch, part, bytes; 14 R298; none. -/
  parts    : List (ModId × Nat × Nat × Bytes) := []
  /-- musters received as group lead: group, epoch, seq, module, signature, seedbed; 10 R212; none. -/
  musters  : List (Nat × Nat × Nat × ModId × W64 × Bool) := []
  /-- collectives this lead has decided as mismatches while members were absent: group, epoch, members answered; 10 R212;
      none. -/
  decided  : List (Nat × Nat × List ModId) := []
  /-- collectives of this module's tasks in flight; 10 R197; none. -/
  live     : List CollInst := []
  /-- the 32 bin slots are held by requests of state 1 and 2; 10 R207; none. -/
  bin      : List BinReq := []
  reserves : List MyReserve := []
  /-- steps in whose run a collective completed with COLL_MISMATCH; 10 R212; none. -/
  mismatches : List (Nat × Nat × Nat) := []
  /-- segments whose data has left this bin while members have yet to confirm their reservations; 10 R208; none. -/
  left     : List SegKey := []
  /-- groups of this module that still name a lost module: group, module; 10 R216, R217; none. -/
  unformed : List (Nat × ModId) := []
  /-- a loss has been noted whose re-forming is not yet reported complete; 10 R216, 14 R298; no. -/
  reforming : Bool := false
  /-- modules that have reported re-forming complete, at the lead master; 14 R298, 15 R318; none. -/
  reformAcks : List ModId := []
  deriving DecidableEq, Repr

/-! ### Timeouts (15 R318, 20 R422) -/

structure Timeouts where
  /-- 32 bits, µs; 50. -/
  txn        : W32 := 50
  /-- 32 bits, µs; 100. -/
  mem        : W32 := 100
  /-- 32 bits, ms; 1,000. -/
  hedge      : W32 := 1000
  /-- 32 bits, ms; 100. -/
  coll       : W32 := 100
  /-- 32 bits, ms; 10. -/
  watchdogFloor  : W32 := 10
  /-- 8 bits; 16. -/
  watchdogFactor : BitVec 8 := 16
  /-- 4 bits; 3. -/
  ringRetry  : BitVec 4 := 3
  /-- 32 bits, ms; 30,000. -/
  vote       : W32 := 30000
  /-- 64 bits, furrow distance; 0. -/
  voteDistance : W64 := 0
  /-- 32 bits, ms; 50. -/
  heartbeat  : W32 := 50
  /-- 32 bits, ms; 10,000. -/
  liveness   : W32 := 10000
  /-- 32 bits, ms; 10,000. -/
  stall      : W32 := 10000
  /-- 32 bits, ms; 5. -/
  ageing     : W32 := 5
  deriving DecidableEq, Repr

/-! ### Counters, sampling, the sheaf (17) -/

structure SampleCfg where
  enable   : Bool := false
  host     : Bool := false
  furrow   : Bool := false
  pc       : Bool := false
  pcInterval : Nat := 0
  interval : Nat := 0
  base     : Nat := 0
  size     : Nat := 0
  stride   : Nat := 0
  ids      : List Nat := []
  deriving DecidableEq, Repr

/-- A trace entry (17 R367). -/
structure TraceEntry where
  timestamp : W64
  position  : Pos
  source    : Nat
  type      : Nat
  seedbed   : Bool
  unit      : Nat
  task      : W32
  data      : W64
  deriving DecidableEq, Repr

structure Sheaf where
  /-- 0 disabled, 1 armed, 2 triggered, 3 frozen; 17 R369; 0. -/
  state      : Nat := 0
  /-- 16 bits; 17 R369; 0. -/
  mask       : W16 := 0
  /-- PRE in eighths, trigger set, target position, counter, threshold and event codes of the configuration; 17 R369, R371; 0. -/
  preEighths : Nat := 0
  triggers   : Nat := 0
  position   : Pos := 0
  counter    : Nat := 0
  threshold  : W64 := 0
  codes      : List Nat := []
  /-- indices; 17 R369, R371; 0. -/
  writeIndex   : Nat := 0
  triggerIndex : Nat := 0
  freezeIndex  : Nat := 0
  /-- Model: the index at which a triggered ring freezes; 17 R371; 0. -/
  freezeAt     : Nat := 0
  /-- entries in the tail buffer so far; 17 R367; 0. -/
  tailIndex    : Nat := 0
  /-- LOST and IGNORED of the status; 17 R369, R372; 0. -/
  lost       : Nat := 0
  ignored    : Nat := 0
  /-- entries dropped since the last marker; 17 R372; 0. -/
  dropped    : Nat := 0
  /-- entries written in the present microsecond, and which microsecond it is; 17 R372; 0. -/
  rateCount  : Nat := 0
  rateAt     : Nat := 0
  /-- the ring and the tail buffer, by position; 17 R367; empty. -/
  ring       : Sparse (Option TraceEntry) := []
  tail       : Sparse (Option TraceEntry) := []
  /-- trigger waiting for the freeze: kind, code or counter; 17 R371. -/
  cause      : Nat × Nat := (0, 0)
  /-- triggers of seedbed work held: kind and code; 09 R191; none. -/
  held       : List (Nat × Nat) := []
  /-- furrow-position trigger already tested true; 17 R370. -/
  positionHit : Bool := false
  /-- counter-threshold trigger already tested true; 17 R370; no. -/
  counterHit : Bool := false
  deriving DecidableEq, Repr

structure Counters where
  /-- counter values by ID, 65,536 of 64 bits; 17 R360; 0. -/
  values   : Sparse Nat := []
  /-- 16 bits; 20 R423; 0. -/
  select   : W16 := 0
  /-- sampling configuration; 17 R363; disabled. -/
  cfg      : SampleCfg := {}
  /-- NEXT_SEQ, PRODUCED, OVERWRITTEN, CONSUMED of the sample area; 17 R364; 1, 0, 0, 0. -/
  nextSeq  : Nat := 1
  produced : Nat := 0
  overwritten : Nat := 0
  consumed : Nat := 0
  /-- overwritten since the last SAMPLE_BUFFER_WRAP and when it was raised; 17 R364. -/
  wrapCount : Nat := 0
  wrapAt    : Option Nat := none
  /-- sequences and lengths of the records in the ring, oldest first; 17 R364. -/
  records  : List (Nat × Nat) := []
  /-- time or head of the last counter record and of the last batch; 17 R365. -/
  lastAt   : Nat := 0
  lastHead : Pos := 0
  lastPcAt : Nat := 0
  /-- local sample area, 63 MiB, sparse by byte; 17 R364; 0. -/
  localArea : Sparse Byte := []
  /-- host sample writes are suspended; 17 R373; no. -/
  suspended : Bool := false
  deriving DecidableEq, Repr

/-! ### Stones (15 R335-R338) -/

structure Stone where
  port   : Nat
  vc     : Nat
  action : Nat
  rateLog2 : Nat
  depth  : Nat
  offset : Nat
  mask   : Byte
  trigger : Pos
  deriving DecidableEq, Repr

structure StoneLive where
  stone   : Stone
  /-- packets sent on its port and VC since it took effect; 15 R336. -/
  sent    : Nat
  /-- its trigger has acted; 15 R336. -/
  fired   : Bool
  deriving DecidableEq, Repr

structure Stones where
  /-- configuration in force, and its block's SHA-256; 15 R335, 20 R424; none. -/
  live    : List StoneLive := []
  digest  : BitVec 256 := 0
  /-- configuration waiting for its boundary; 15 R335; none. -/
  pending : Option (List Stone × BitVec 256 × Bool) := none
  /-- the configuration that had executed when pass C decided; 15 R335; none. -/
  due     : Option (List Stone × BitVec 256 × Bool) := none
  /-- packets a reorder stone holds: port, VC, packets still to pass, type, packet, held since; 15 R337. -/
  holding : List (Nat × Nat × Nat × Nat × Packet × Nat) := []
  deriving DecidableEq, Repr

/-! ### Export (16) -/

structure ExportCfg where
  enable   : Bool := false
  sinkHost : Bool := false
  viaOwn   : Bool := false
  scope    : Bool := false
  k        : Nat := 64
  evalBudget : Nat := 0
  sinkBase : Nat := 0
  sinkSize : Nat := 0
  sinkStride : Nat := 0
  ackDistance : W64 := 0x20000000
  ackTime  : Nat := 10000
  evalDistance : W64 := 0
  deriving DecidableEq, Repr

/-- A step record retained until the sink acknowledges it (16 R344, R352). -/
structure RetainedRecord where
  seq     : Nat
  step    : Nat
  bytes   : Bytes
  /-- ring offset of its first byte, once written; 16 R351. -/
  at_     : Option Nat
  /-- head and timestamp at emission; 16 R352. -/
  head    : Pos
  time    : Nat
  /-- bytes of records formed before it: its place in the staging ring; 16 R352 (log entry 80). -/
  place   : Nat := 0
  deriving DecidableEq, Repr

/-- A fallow delay queue (08 R165): master tensor, entries (step, c, gradient bit patterns), and the staged change. -/
structure FallowQueue where
  master  : Nat
  entries : List (Nat × W32 × List W32)
  /-- staged: consume the oldest entry, and the new entry. -/
  consume : Bool
  append  : Option (Nat × W32 × List W32)
  deriving DecidableEq, Repr

structure Exporter where
  cfg      : ExportCfg := {}
  /-- configuration waiting for its boundary; 16 R354; none. -/
  pending  : Option ExportCfg := none
  /-- the configuration that had executed when pass C decided; 16 R354; none. -/
  due      : Option ExportCfg := none
  /-- 16 R353; 1. -/
  nextSeq  : Nat := 1
  /-- 16 R353; 0. -/
  acked    : Nat := 0
  produced : Nat := 0
  resends  : Nat := 0
  waits    : Nat := 0
  /-- the next record is the first since export was enabled; 16 R344; yes. -/
  first    : Bool := true
  retained : List RetainedRecord := []
  /-- bytes of the records formed so far, which the staging ring has held; 16 R352 (log entry 80). -/
  formed   : Nat := 0
  /-- fingerprint chain value and the step it belongs to; 16 R346; zero, none. -/
  chain    : BitVec 256 := 0
  prevChain : BitVec 256 := 0
  chainStep : Option Nat := none
  /-- words of each exported tensor or queue at the previous commit (tensor, queue?), as bytes; 16 R342. -/
  images   : List (Nat × Bool × Bytes) := []
  /-- the fallow queues before the commit in progress, kept until its records are formed; 16 R343; none. -/
  oldFallow : Option (List FallowQueue) := none
  /-- the step whose record waits for room in staging; 16 R352; none. -/
  waiting  : Option Nat := none
  /-- tensors and queues that have had a keyframe in a record since export was enabled; 16 R343. -/
  keyed    : List (Nat × Bool) := []
  /-- module fingerprints formed in this run (step, F), the last 256; 15 R332; none. -/
  prints   : List (Nat × BitVec 256) := []
  /-- evaluation of the last committed step was abandoned; 16 R349. -/
  evalAbandoned : Bool := false
  deriving DecidableEq, Repr

/-! ### Lamio ports and transactions (14) -/

/-- One lane class of a port: its sequence space and retry buffer (14 R294, R295). -/
structure LaneClass where
  sendSeq  : Nat := 0
  recvSeq  : Nat := 0
  /-- flits not acknowledged: sequence and bytes, oldest first; 14 R295; none. -/
  buffer   : List (Nat × Bytes) := []
  retries  : Nat := 0
  sentAt   : Nat := 0
  /-- packets that wait for room in the retry buffer, or for a retraining to end, with what a stone does to their flit; 14 R295,
  R296; none. -/
  blocked  : List (Nat × Packet × Option (Nat × Byte)) := []
  deriving DecidableEq, Repr

structure Port where
  /-- width 16, 8, 4 or 0 (down); 14 R296; down until training. -/
  width    : Nat := 0
  mask     : W16 := 0
  /-- held down: the far end belongs to another holding and does not match; 14 R314; no. -/
  heldDown : Bool := false
  retraining : Bool := false
  data     : LaneClass := {}
  hedge    : LaneClass := {}
  /-- credits returned by the far end, per VC; 14 R294; 0. -/
  credits  : List Nat := [0, 0, 0, 0]
  /-- taken down by its optical engine's trip; 19 R400; no. -/
  tripped  : Bool := false
  /-- time of the last retrain attempt while down; 14 R296. -/
  triedAt  : Nat := 0
  deriving DecidableEq, Repr

/-- A request this module issued and has not had answered (14 R309). -/
structure Txn where
  dest   : ModId
  tag    : W16
  type   : Nat
  p      : Packet
  resent : Bool
  sentAt : Nat
  /-- the task run (step, task ID) it serves. -/
  task   : Option (Nat × W32)
  /-- it serves a BAR4 load. -/
  bar4   : Bool := false
  /-- not sent yet: 2,048 requests, or 256 atomics, are outstanding to its destination; 14 R301, R307. -/
  queued : Bool := false
  deriving DecidableEq, Repr

/-- A bulk transfer that arrives here: its source module and requester's tag, the packets got (offset, length), and whether its
missing range has been asked for (15 R337). -/
structure BulkIn where
  source : ModId
  tag    : W16
  got    : List (Nat × Nat) := []
  asked  : Bool := false
  deriving DecidableEq, Repr

/-- A bulk transfer sent from here: where to, under which tag, the local offset it was read at if any, its data. -/
structure BulkOut where
  dest   : ModId
  tag    : W16
  off    : Nat
  src    : Option Nat
  data   : Bytes
  deriving DecidableEq, Repr

structure Lamio where
  ports    : Sparse Port := []
  /-- next ORDER_SEQ to send, by destination and VC (dest * 2 + vc); 14 R301; 0. -/
  sendOrder : Sparse Nat := []
  /-- next ORDER_SEQ expected, by source and VC; 14 R301; 0. -/
  recvOrder : Sparse Nat := []
  /-- packets that arrived ahead of their turn: type, packet; 14 R301; none. -/
  reorder  : List (Nat × Packet) := []
  txns     : List Txn := []
  nextTag  : W16 := 0
  /-- last 256 atomic results per issuer: source, ORDER_SEQ, old value; 14 R309; none. -/
  atomics  : List (ModId × Nat × W64) := []
  /-- reads waiting under 09 R187 for the local U stream; none. -/
  readsHeld : List Packet := []
  /-- results of finished requests (destination, tag, status, data); 14 R303. -/
  answers  : List (ModId × W16 × Nat × Bytes) := []
  /-- this module's requests that its own router could not forward: destination, tag; 14 R300; none. -/
  unreached : List (ModId × W16) := []
  /-- bulk transfers arriving, until they are whole; 15 R337; none. -/
  bulkIn   : List BulkIn := []
  /-- the last 2,048 bulk transfers sent, for a range that is missing; 15 R337; none. -/
  bulkOut  : List BulkOut := []
  deriving DecidableEq, Repr

/-! ### Holding and discovery (14 R311-R313, 15 R328, R334) -/

/-- The RWL fields as they stood at the start of a cycle (20 R412): holding configuration, SPEC_DEPTH, VOTE_REPORT, RESERVED_SIZE,
G_MAX, and the harrows' word. -/
structure LockedFields where
  at_      : Nat
  config   : Nat
  depth    : BitVec 3
  report   : W64
  reserved : BitVec 10
  gMax     : W32
  harrows  : Nat
  deriving DecidableEq, Repr

structure Holding where
  /-- 10 bits; 14 R311; 0. -/
  number   : BitVec 10 := 0
  /-- 16 bits; 14 R311; 0. -/
  origin   : ModId := 0
  /-- 16 bits; 14 R311; 0. -/
  masterId : ModId := 0
  /-- 16 bits; 14 R311; 0. -/
  extentM1 : BitVec 16 := 0
  /-- 16 bits; 14 R311; 0xFFFF. -/
  hallM1   : BitVec 16 := 0xFFFF
  /-- 4 bits; 14 R311; 0xF. -/
  wrap     : BitVec 4 := 0xF
  /-- 8 bits; 14 R311; 0. -/
  axisRole : BitVec 8 := 0
  /-- 3 bits; 14 R313; 0. -/
  state    : Nat := 0
  /-- 14 R313; 0. -/
  isMaster : Bool := false
  /-- 7 bits; 14 R313; 0. -/
  members  : Nat := 0
  /-- 16 bits; 14 R313; 0. -/
  offender : W16 := 0
  /-- 3 bits; 20 R415; 1. -/
  specDepth : BitVec 3 := 1
  /-- 64 bits; 20 R415; 0. -/
  voteReport : W64 := 0
  /-- 32 bits, signed; 20 R415; 0. -/
  timeRate  : W32 := 0
  /-- 16 bits, MODULE_ID; 20 R414; 0xFFFF. -/
  moduleId  : ModId := 0xFFFF
  /-- 20 R412; 0. -/
  setupLock : Bool := false
  /-- the RWL fields before the writes of the last cycle that wrote a register; 20 R412; none. -/
  before    : Option LockedFields := none
  /-- positions that answered discovery with their least hop count, and when it began; 14 R312; none. -/
  answered  : List (ModId × Nat) := []
  discoverAt : Nat := 0
  /-- least hop count of the offers this module has taken in a discovery; 14 R312; 0. -/
  hops      : Nat := 0
  /-- when a vacant position was last offered; 15 R328; none. -/
  reoffered : List (ModId × Nat) := []
  /-- a holding reset is under way; 19 R404; no. -/
  resetting : Bool := false
  /-- of each module: when its heartbeat last came, its published-task count, and when that count last changed; 15 R328, 10 R214;
  none. -/
  beats     : List (ModId × Nat × Nat × Nat) := []
  lastHedge : Nat := 0
  lastBeat  : Nat := 0
  /-- modules declared lost; 15 R328; none. -/
  lost      : List ModId := []
  /-- this module has isolated itself; 15 R328; no. -/
  isolated  : Bool := false
  /-- RESTORE_STATUS: STATE, HOST_INPUT, MODULE, COUNT, TARGET; 15 R334; 0. -/
  restore   : Nat := 0
  restoreHost   : Bool := false
  restoreTarget : Nat := 0
  /-- modules that need restoration, and those restored whose groups wait for the last; 15 R331, R332; none. -/
  restoring : List ModId := []
  restored  : List ModId := []
  /-- the run's last committed step at the loss, m; 15 R331; 0. -/
  restoreUpTo : Nat := 0
  deriving DecidableEq, Repr

/-- The timestamp and its discipline (02 R34, 20 R416). -/
structure Clock where
  /-- 64 bits, ns, TIME_NOW; 02 R34; 0. -/
  now       : Nat := 0
  /-- Model: fraction of a nanosecond in units of 2^-32; log entry 2. -/
  frac      : Nat := 0
  /-- remainder of the offset to slew in, signed ns; 20 R416; 0. -/
  offset    : Int := 0
  /-- Model: the part of a nanosecond slewed so far, in units of 2^-32. -/
  slewTick  : Nat := 0
  /-- Model: nanoseconds that have passed, never slewed, stepped or reset; the base of every bound measured in time. -/
  up        : Nat := 0
  deriving DecidableEq, Repr

/-! ### The vector engines (05 R89) -/

/-- A core's vector engine: V, M, D and Z registers, the row and group in progress, and the task run it serves. -/
structure VecCtx where
  /-- V0 to V31, 64 lanes of 32 bits; +0 (05 R89). -/
  v      : Sparse (List W32) := []
  /-- M0, the live mask, 64 bits; 05 R89, R91; every lane live (log entry 8). -/
  live   : BitVec 64 := BitVec.allOnes 64
  /-- M1 to M7; 0 (05 R89). -/
  m      : Sparse (BitVec 64) := []
  /-- D0 to D3, 64 lanes of binary64; +0 (05 R89). -/
  d      : Sparse (List W64) := []
  /-- Z0 to Z15; 0 (05 R89, R90). -/
  z      : Sparse W32 := []
  /-- element index of lane 0 in the output view; 05 R91; 0. -/
  first  : Nat := 0
  /-- the tail is running: only lane 0 is live; 05 R91; no. -/
  tail   : Bool := false
  /-- row and group in progress; 05 R91; 0. -/
  row    : Nat := 0
  group  : Nat := 0
  /-- index of the next instruction; 05 R96; 0. -/
  pc     : Nat := 0
  /-- lanes that have raised their event in this group; 05 R96; none. -/
  raised : BitVec 64 := 0
  /-- events so far: element, instruction index, cause, stage; 05 R96; none. -/
  events : List NanEvent := []
  /-- seed of the draws, and P; 05 R103; 0. -/
  seed   : W64 := 0
  gate   : Pos := 0
  /-- output values STOREd: view, element, bits; 05 R95; none. -/
  stores : List (Nat × Nat × W32) := []
  /-- the lane input of an epilogue, row-major in the output view; 04 R82, 05 R89; none. -/
  input  : Option (List W32) := none
  /-- task run served: step, task ID; none. -/
  task   : Option (Nat × W32) := none
  deriving DecidableEq, Repr

/-! ### What the module has sent -/

/-- Hedge messages sent (14 R298): kind by constructor. -/
inductive Hedge
  | furrowHead (head : Pos)
  | localFront (front seedbedFront : Pos) (lowestTask : W32)
  | timestampSync (now : W64)
  | heartbeat (published : Nat)
  | event (code : W16) (position : Pos) (timestamp detail : W64)
  | memberLost (lost : ModId) (cause : Nat) (head : Pos)
  | voteTimeout (step : Nat) (bounds : Nat)
  | voteContribution (module : ModId) (step : Nat) (word : VoteWord)
  | voteOutcome (v : VoteMsg)
  | muster (group epoch seq : Nat) (signature : W64) (seedbed : Bool)
  | goAhead (group epoch seq : Nat) (go : Bool)
  | endOfData (key : DataKey) (sent : Nat)
  | missingRange (key : DataKey) (first len : Nat)
  | reserve (key : SegKey)
  | grant (key : SegKey)
  | takeBack (key : SegKey)
  | release (key : SegKey)
  | groupDefinition (part epoch : Nat) (bytes : Bytes)
  | agreement (kind : Nat) (ident pos : W64)
  | orderForward (o : FwdOrder)
  | stop (m : StopMsg)
  | setupWrite (offset len : Nat) (value : W64)
  | discoveryOffer (o : OfferMsg)
  | discoveryAnswer (position held : ModId) (hops : Nat) (candidate : Bool)
  deriving DecidableEq, Repr

/-- Everything the module has sent since reset, oldest first. Model: no command reads it back. -/
structure Outbox where
  /-- hedge messages with their destination, 0xFFFF = broadcast; 14 R298. -/
  hedge   : List (ModId × Hedge) := []
  /-- the 32 bytes of those whose payload 14 R298 lays out. -/
  hedgeBytes : List Bytes := []
  /-- packets: port, type code, packet; 14 R302. -/
  packets : List (Nat × Nat × Packet) := []
  /-- collective data: port, destination, message; 10 R204. -/
  coll    : List (ModId × CollMsg) := []
  /-- flits: port, hedge lane?, bytes; 14 R294. -/
  flits   : List (Nat × Bool × Bytes) := []
  /-- hedge messages forwarded through this module: port and the 32 bytes; 14 R298. -/
  transit : List (Nat × Bytes) := []
  /-- link-level answers: port, hedge lane?, ACK sequence, NAK; 14 R295. -/
  acks    : List (Nat × Bool × Nat × Bool) := []
  /-- host memory writes: address, bytes, poisoned?; 13. -/
  host    : List (Nat × Bytes × Bool) := []
  /-- host memory reads issued: identifier, address, length; 13 R275, R278. -/
  reads   : List (Nat × Nat × Nat) := []
  /-- MSI-X messages; 13 R284. -/
  msix    : List Nat := []
  /-- BAR4 load completions: data and poisoned?; 13 R267. -/
  loads   : List (Bytes × Bool) := []
  /-- management responses: code, body; 19 R407. -/
  mgmt    : List (Nat × Bytes) := []
  /-- Sahith responses: transport (0 DOE, 1 MCTP, 2 ATTEST), message; 18 R385. -/
  sahith  : List (Nat × Bytes) := []
  deriving DecidableEq, Repr

/-- The state of the module. -/
structure State where
  flash    : Flash := {}
  security : Security := {}
  startup  : Startup := {}
  power    : Power := {}
  host     : HostIf := {}
  run      : Run := {}
  votes    : Votes := {}
  graph    : Graph := {}
  sched    : Sched := {}
  mem      : Memory := {}
  numerics : Numerics := {}
  harrows  : Harrows := {}
  coll     : Coll := {}
  tmo      : Timeouts := {}
  /-- timeout fields waiting for the next commit; 15 R318; none. -/
  tmoNext  : Option Timeouts := none
  counters : Counters := {}
  sheaf    : Sheaf := {}
  stones   : Stones := {}
  exporter : Exporter := {}
  fallow   : List FallowQueue := []
  lamio    : Lamio := {}
  holding  : Holding := {}
  clock    : Clock := {}
  /-- vector engines of the cores, by core ID; 05 R89. -/
  vec      : Sparse VecCtx := []
  out      : Outbox := {}
  /-- the queue of commands that are waiting, first in, first out. -/
  pending  : List Instr := []
  deriving DecidableEq, Repr

/-- The module right after module reset, start-up phase 0 about to begin (19 R401, R404). -/
def State.reset : State := {}

end Sys2Proof.Machine
end

