-- ==== Sys2Proof/Machine/Table.lean ====
section
/-!
DEFINITION. Tables keyed by a natural number, in one canonical form: keys strictly rising and no entry equal to the
value an unlisted key reads as. Memory is such a table, of bytes.
-/
namespace Sys2Proof.Machine

open Sys2Proof

/-- The entry at `k`; `d` where none is listed. -/
def tget {α : Type} (d : α) : Sparse α → Nat → α
  | [], _ => d
  | (j, v) :: t, k => if j = k then v else tget d t k

/-- The table without its entries at `k`. -/
def tdrop {α : Type} : Sparse α → Nat → Sparse α
  | [], _ => []
  | (j, v) :: t, k => if j = k then tdrop t k else (j, v) :: tdrop t k

/-- The entry placed before the first larger key. -/
def tinsert {α : Type} (k : Nat) (v : α) : Sparse α → Sparse α
  | [] => [(k, v)]
  | (j, w) :: t => if k < j then (k, v) :: (j, w) :: t else (j, w) :: tinsert k v t

/-- The table with `v` at `k`; an entry that equals the default is removed. -/
def tset {α : Type} [DecidableEq α] (d : α) (t : Sparse α) (k : Nat) (v : α) : Sparse α :=
  if v = d then tdrop t k else tinsert k v (tdrop t k)

/-- The table with the entry at `k` replaced by its image. -/
def tmod {α : Type} [DecidableEq α] (d : α) (t : Sparse α) (k : Nat) (f : α → α) : Sparse α :=
  tset d t k (f (tget d t k))

/-- Keys strictly rising, each above `lo`, and no entry equal to the default. -/
def twfFrom {α : Type} [DecidableEq α] (d : α) (lo : Option Nat) : Sparse α → Bool
  | [] => true
  | (k, v) :: t => (match lo with | none => true | some l => decide (l < k)) && decide (v ≠ d) && twfFrom d (some k) t

/-- The canonical form of a table. -/
def twf {α : Type} [DecidableEq α] (d : α) (t : Sparse α) : Bool := twfFrom d none t

/-- Consecutive bytes written from key `k`. -/
def tsetBytes (t : Sparse Byte) (k : Nat) : Bytes → Sparse Byte
  | [] => t
  | b :: bs => tsetBytes (tset 0 t k b) (k + 1) bs

/-- Consecutive bytes read from key `k`. -/
def tgetBytes (t : Sparse Byte) (k len : Nat) : Bytes := (List.range len).map fun i => tget 0 t (k + i)

end Sys2Proof.Machine
end

