-- ==== Sys2Proof/Machine/Ops.lean ====
section
/-!
DEFINITION. The named operations on the state that every family shares: counting, tracing, hedge messages, host writes,
interrupts and events.
-/
namespace Sys2Proof.Machine

open Sys2Proof

/-- What a command answers. -/
abbrev Answer := Host.Outcome State Fault Refusal

/-! ### Who the module is -/

/-- This module is the run lead master (14 R316). -/
def State.isLead (s : State) : Bool :=
  s.run.isOn && s.holding.isMaster && s.holding.number.toNat == s.run.leadHolding && s.run.halt != .noLead

/-- This module has an ID (14 R312). -/
def State.assigned (s : State) : Bool := s.holding.moduleId != 0xFFFF

/-- The module is powered and ready: phase 7 of start-up reached (19 R401). -/
def State.ready (s : State) : Bool := s.startup.ready && s.power.pwrGood

/-- No run, or the run stands at a scheduled-stop cut (12 R243, 14 R305). -/
def State.quiet (s : State) : Bool := !s.run.isOn || s.run.halt == .cut

/-- The run exists, is not halted, and completes no commit work for a rollback (02 R42). -/
def State.moving (s : State) : Bool := s.run.isOn && s.run.halt == .running && s.run.rollTo.isNone

/-- Nanoseconds in a microsecond and in a millisecond. -/
def us (n : Nat) : Nat := n * 1000

def ms (n : Nat) : Nat := n * 1000000

/-! ### Counters (17 R360, R361) -/

/-- `n` added to a slot under a status, modulo 2^64. -/
def countAs (slot status n : Nat) (s : State) : State :=
  { s with counters.values := tmod 0 s.counters.values (4 * slot + status) fun v => (v + n) % 2 ^ 64 }

/-- A count that belongs to no task run goes under status 0. -/
def count (slot n : Nat) (s : State) : State := countAs slot 0 n s

/-- Work done: status 1 for seedbed work, status 0 otherwise. -/
def countWork (seedbed : Bool) (slot n : Nat) (s : State) : State := countAs slot (b2n seedbed) n s

/-- A stones count: 32 bits, saturating (15 R338). -/
def countStone (slot : Nat) (s : State) : State :=
  { s with counters.values := tmod 0 s.counters.values (4 * slot) fun v => satTo (2 ^ 32 - 1) (v + 1) }

/-! ### The sheaf (17 R367 to R372) -/

def sheafEntries : Nat := 2097152

def tailEntries : Nat := 32768

/-- An entry written to the ring, or to the tail buffer once the post-trigger count is reached (17 R371). -/
def sheafStore (e : TraceEntry) (h : Sheaf) : Sheaf :=
  if h.state = 3 ∨ (h.state = 2 ∧ h.freezeAt ≤ h.writeIndex) then
    { h with tail := tset none h.tail (h.tailIndex % tailEntries) (some e), tailIndex := h.tailIndex + 1 }
  else
    { h with ring := tset none h.ring (h.writeIndex % sheafEntries) (some e), writeIndex := h.writeIndex + 1 }

/-- An entry offered: at most 256 in a microsecond, the others dropped and counted; a lost marker goes in first when
the rate next allows (17 R372). -/
def sheafOffer (now : Nat) (e : TraceEntry) (h : Sheaf) : Sheaf :=
  let h := if h.rateAt = now / 1000 then h else { h with rateAt := now / 1000, rateCount := 0 }
  if 256 ≤ h.rateCount then { h with lost := h.lost + 1, dropped := h.dropped + 1 }
  else if h.dropped = 0 then sheafStore e { h with rateCount := h.rateCount + 1 }
  else
    let marker : TraceEntry :=
      { e with source := 15, type := 0, seedbed := false, unit := 0, task := BitVec.allOnes 32,
               data := BitVec.ofNat 64 h.dropped }
    let h := sheafStore marker { h with rateCount := h.rateCount + 1, dropped := 0 }
    if 256 ≤ h.rateCount then { h with lost := h.lost + 1, dropped := h.dropped + 1 }
    else sheafStore e { h with rateCount := h.rateCount + 1 }

/-- A happening of a class recorded when the sheaf is not disabled and its mask names the class (17 R368). -/
def trace (source type : Nat) (seedbed : Bool) (unit : Nat) (task : W32) (data : Nat) (s : State) : State :=
  if s.sheaf.state ≠ 0 ∧ (s.sheaf.mask.getLsbD source = true ∨ source = 15) then
    let e : TraceEntry :=
      ⟨BitVec.ofNat 64 s.clock.now, s.run.head, source, type, seedbed, unit, task, BitVec.ofNat 64 data⟩
    { s with sheaf := sheafOffer s.clock.now e s.sheaf }
  else s

/-- A trigger of the sheaf: kind 0 trap, 1 event, 2 furrow position, 3 counter (17 R370, R371). -/
def sheafTrigger (kind code : Nat) (s : State) : State :=
  let h := s.sheaf
  if h.triggers.testBit kind then
    if h.state = 1 then
      { s with sheaf := { h with
          state := 2
          triggerIndex := if h.writeIndex = 0 then (Config.noEntryIndex 0).toNat else h.writeIndex - 1
          freezeAt := h.writeIndex + sheafEntries * (8 - h.preEighths) / 8
          cause := (kind, code) } }
    else if 2 ≤ h.state then { s with sheaf.ignored := h.ignored + 1 }
    else s
  else s

/-- A trigger raised by seedbed work is held while the seedbed is open (09 R191). -/
def sheafTriggerOf (seedbed : Bool) (kind code : Nat) (s : State) : State :=
  if seedbed && s.run.seedbedOpen then { s with sheaf.held := s.sheaf.held ++ [(kind, code)] }
  else sheafTrigger kind code s

/-! ### Host writes and interrupts (13 R264, R284) -/

/-- A write to host memory; a link that is down carries nothing. -/
def hostWrite (addr : Nat) (bs : Bytes) (poison : Bool) (s : State) : State :=
  if s.power.linkUp then { s with out.host := s.out.host ++ [(addr, bs, poison)] } else s

/-- Bytes written by the master's link. -/
def masterWrite (addr : Nat) (bs : Bytes) (s : State) : State :=
  if s.holding.isMaster then hostWrite addr bs false s else { s with out.host := s.out.host ++ [(addr, bs, false)] }

/-- An MSI-X message; a masked vector sets its pending bit. -/
def signal (vector : Nat) (s : State) : State :=
  if s.host.msixMasked.getLsbD vector then
    { s with host.msixPending := s.host.msixPending ||| (BitVec.twoPow 2048 vector) }
  else if s.power.linkUp then { s with out.msix := s.out.msix ++ [vector] } else s

/-! ### Hedge messages (14 R298) -/

/-- The message kind code. -/
def hedgeKind : Hedge → Nat
  | .furrowHead _ => 0x01
  | .localFront .. => 0x02
  | .timestampSync _ => 0x03
  | .heartbeat _ => 0x04
  | .event .. => 0x05
  | .memberLost .. => 0x06
  | .voteTimeout .. => 0x07
  | .voteContribution .. => 0x08
  | .voteOutcome _ => 0x09
  | .muster .. => 0x0C
  | .goAhead .. => 0x0D
  | .endOfData .. => 0x0E
  | .missingRange .. => 0x0F
  | .reserve _ => 0x10
  | .grant _ => 0x11
  | .takeBack _ => 0x12
  | .release _ => 0x13
  | .groupDefinition .. => 0x14
  | .agreement .. => 0x15
  | .orderForward _ => 0x18
  | .stop _ => 0x19
  | .setupWrite .. => 0x1C
  | .discoveryOffer _ => 0x20
  | .discoveryAnswer .. => 0x21

/-- Bytes 0 to 7 of a hedge message. -/
def hedgeHeader (source dest : ModId) (m : Hedge) : Nat :=
  pack [(8, hedgeKind m), (8, 0), (16, source.toNat), (16, dest.toNat), (16, 0)]

/-- The destination of a broadcast. -/
def everyone : ModId := 0xFFFF

/-- The key of a collective segment in eight bytes: group, sequence, segment index, from the low end (14 R298 names the three;
log entry 7). -/
def keyWord (k : SegKey) : Nat := pack [(16, k.group), (32, k.seq), (16, k.index)]

/-- Bytes 8 to 15 of a notice: the key of a segment, or of a bulk transfer its tag and source module (14 R298; log entry 7). -/
def dataKeyWord : DataKey → Nat
  | .segment k => keyWord k
  | .bulk t m => pack [(16, t.toNat), (16, m.toNat)]

/-- Bytes 8 to 31 of the kinds that 14 R298 lays out, local front included; none for the others (log entries 7, 36). -/
def hedgePayload : Hedge → Option Bytes
  | .localFront f b _ => some (leBytes 8 f.toNat ++ leBytes 8 b.toNat ++ leBytes 8 0)
  | .memberLost m c h => some (leBytes 2 m.toNat ++ leBytes 1 c ++ leBytes 5 0 ++ leBytes 8 h.toNat ++ leBytes 8 0)
  | .voteTimeout n b => some (leBytes 8 n ++ leBytes 8 b ++ leBytes 8 0)
  | .endOfData k n => some (leBytes 8 (dataKeyWord k) ++ leBytes 8 n ++ leBytes 8 0)
  | .missingRange k a n => some (leBytes 8 (dataKeyWord k) ++ leBytes 8 a ++ leBytes 8 n)
  | .groupDefinition part epoch bytes =>
    some (leBytes 1 part ++ leBytes 1 0 ++ leBytes 2 epoch ++ leBytes 4 0 ++ padTo 16 bytes)
  | .agreement kind ident pos => some (leBytes 1 kind ++ leBytes 7 0 ++ leBytes 8 ident.toNat ++ leBytes 8 pos.toNat)
  | .furrowHead .. | .timestampSync .. | .heartbeat .. | .event .. | .voteContribution .. | .voteOutcome .. | .muster ..
  | .goAhead .. | .reserve .. | .grant .. | .takeBack .. | .release .. | .orderForward .. | .stop .. | .setupWrite ..
  | .discoveryOffer .. | .discoveryAnswer .. => none

/-- The message's 32 bytes, where its payload is laid out. -/
def hedgeMessage (source dest : ModId) (m : Hedge) : List Bytes :=
  match hedgePayload m with
  | some b => [leBytes 8 (hedgeHeader source dest m) ++ b]
  | none => []

/-- A hedge message sent, and traced (17 R368 class 3). -/
def sendHedge (dest : ModId) (m : Hedge) (s : State) : State :=
  trace 3 0 false 0 (BitVec.allOnes 32) (hedgeHeader s.holding.moduleId dest m)
    { s with
      out.hedge := s.out.hedge ++ [(dest, m)]
      out.hedgeBytes := s.out.hedgeBytes ++ hedgeMessage s.holding.moduleId dest m }

/-- A hedge message received, traced; the silence of 15 R328 is over. -/
def traceReceive (source : ModId) (kind : Nat) (s : State) : State :=
  trace 3 1 false 0 (BitVec.allOnes 32)
    (pack [(8, kind), (8, 0), (16, source.toNat), (16, s.holding.moduleId.toNat), (16, 0)])
    { s with holding.lastHedge := s.clock.up }

/-! ### Events (13 R285, R287) -/

/-- Entry `i` of a ring of 2^log2 slots lies in slot i mod 2^log2, PHASE 1 in even passes (13 R284). -/
def ringPhase (log2 i : Nat) : Nat := if i / 2 ^ log2 % 2 = 0 then 1 else 0

/-- One entry of the event ring. -/
def eventBytes (log2 i : Nat) (lost : Bool) (code module : Nat) (pos : Pos) (ts detail : W64) : Bytes :=
  leBytes 2 code ++ leBytes 1 (ringPhase log2 i + 2 * b2n lost) ++ [0] ++ leBytes 2 module ++ [0, 0] ++
    leBytes 8 pos.toNat ++ leBytes 8 ts.toNat ++ leBytes 8 detail.toNat

/-- A vector signalled at once, or counted until its coalescing time has passed (13 R284). -/
def eventSignal (s : State) : State :=
  if s.host.ctx.eventCoalesce = 0 then signal s.host.ctx.eventVector.toNat { s with host.evUnsig := 0 }
  else { s with
    host.evFirstAt := if s.host.evUnsig = 0 then s.clock.up else s.host.evFirstAt
    host.evUnsig := s.host.evUnsig + 1 }

/-- EVENT_LOST, saturating. -/
def countLost (s : State) : State :=
  { s with
    host.ctx.eventLost := BitVec.ofNat 32 (satTo (2 ^ 32 - 1) (s.host.ctx.eventLost.toNat + 1))
    host.evLostFlag := true }

/-- An event posted by the holding master: written, or dropped and counted when the ring is full; while the ring is not
enabled it waits (13 R285, 19 R403). -/
def postEvent (code : Nat) (module : ModId) (pos : Pos) (ts detail : W64) (s : State) : State :=
  let log2 := s.host.ctx.eventSizeLog2.toNat
  if !s.host.ctx.eventEnable then
    { s with host.evWaiting := s.host.evWaiting ++ [(BitVec.ofNat 16 code, module, pos, ts, detail)] }
  else if 2 ^ log2 ≤ (s.host.evPosted - s.host.evConsumer).toNat then countLost s
  else
    let i := s.host.evPosted.toNat
    let slot := s.host.ctx.eventBase.toNat / 4096 * 4096 + 32 * (i % 2 ^ log2)
    eventSignal (hostWrite slot (eventBytes log2 i s.host.evLostFlag code module.toNat pos ts detail) false
      { s with host.evPosted := s.host.evPosted + 1, host.evLostFlag := false })

/-- The event rows of 13 R287. -/
def evModuleReady : Nat := 0x0001
def evCoreRetired : Nat := 0x0101
def evTaskReplayed : Nat := 0x0102
def evHarrowRetired : Nat := 0x0103
def evPageRetired : Nat := 0x0104
def evNanTrap : Nat := 0x0201
def evVoteSkip : Nat := 0x0202
def evVoteRetry : Nat := 0x0203
def evDriftAudit : Nat := 0x0204
def evLinkDegraded : Nat := 0x0301
def evLinkDown : Nat := 0x0302
def evMemberLost : Nat := 0x0303
def evGroupReformed : Nat := 0x0304
def evRootReused : Nat := 0x0401
def evRootAgeLimit : Nat := 0x0402
def evWarmStartRejected : Nat := 0x0403
def evFurrowStall : Nat := 0x0501
def evGlobalStop : Nat := 0x0502
def evSafeHold : Nat := 0x0503
def evTraceFrozen : Nat := 0x0601
def evSampleBufferWrap : Nat := 0x0602
def evThrottle : Nat := 0x0701
def evPowerCap : Nat := 0x0702
def evThermalTripNear : Nat := 0x0703
def evAttestationStateChange : Nat := 0x0801
def evRollbackRefused : Nat := 0x0802
def evRingError : Nat := 0x0901

/-- The event's way to a holding master: posted on the master itself, sent to it by an assigned member, and kept by a
module that has no ID yet (13 R285, 19 R403). -/
def deliverEvent (code : Nat) (pos : Pos) (detail : W64) (s : State) : State :=
  let ts := BitVec.ofNat 64 s.clock.now
  if s.holding.isMaster then postEvent code s.holding.moduleId pos ts detail s
  else if s.assigned then sendHedge s.holding.masterId (.event (BitVec.ofNat 16 code) pos ts detail) s
  else { s with host.evWaiting := s.host.evWaiting ++ [(BitVec.ofNat 16 code, s.holding.moduleId, pos, ts, detail)] }

/-- An event raised at a position: traced (class 2), tried as a trigger, delivered. -/
def raiseAt (seedbed : Bool) (code : Nat) (pos : Pos) (detail : Nat) (s : State) : State :=
  let s := trace 2 0 seedbed 0 (BitVec.ofNat 32 code) detail s
  let s := if code ∈ s.sheaf.codes ∧ code ≠ 0 then sheafTriggerOf seedbed 1 code s else s
  deliverEvent code pos (BitVec.ofNat 64 detail) s

/-- An event raised at this module's copy of the head. -/
def raise (code detail : Nat) (s : State) : State := raiseAt false code s.run.head detail s

/-- Events that waited are posted, or sent to the master, oldest first (19 R403). -/
def flushEvents (s : State) : State :=
  let waiting := s.host.evWaiting
  let s' := { s with host.evWaiting := [] }
  waiting.foldl (fun t e =>
    let (code, module, pos, ts, detail) := e
    let module := if module = everyone then t.holding.moduleId else module
    if t.holding.isMaster then postEvent code.toNat module pos ts detail t
    else if t.assigned then sendHedge t.holding.masterId (.event code pos ts detail) t
    else { t with host.evWaiting := t.host.evWaiting ++ [e] }) s'

/-! ### The clock (02 R34, 20 R416; log entry 2) -/

/-- 200 ppm in units of 2^-32. -/
def maxSlew : Int := 858993

/-- One tick of 1 ns: `up` counts it; the timestamp moves by it, with the rate correction of the run lead master and
an offset slewed in; the two together correct it by no more than 200 ppm, and never backward (02 R34). -/
def tick (s : State) : State :=
  let rate := if s.isLead then s.holding.timeRate.toInt else 0
  let f : Int := s.clock.frac + 2 ^ 32 + rate
  let whole := (f / 2 ^ 32).toNat
  let room : Int := maxSlew + (if 0 < s.clock.offset then - rate else rate)
  let due := if s.clock.offset = 0 then 0 else s.clock.slewTick + room.toNat
  let slewNow := decide (2 ^ 32 ≤ due) && (decide (0 < s.clock.offset) || whole != 0)
  let slew : Int := if slewNow then (if 0 < s.clock.offset then 1 else -1) else 0
  { s with clock := { s.clock with
      now := (s.clock.now + whole + slew).toNat
      frac := (f % 2 ^ 32).toNat
      offset := s.clock.offset - slew
      slewTick := if slewNow then due - 2 ^ 32 else due
      up := s.clock.up + 1 } }

/-- A measurement register extended with a 32-byte digest (18 R383). -/
def extendMeas (i : Nat) (d : Bytes) (s : State) : State :=
  let m := digestBytes (s.security.meas.getD i 0)
  { s with security.meas := s.security.meas.set i (digestBits (sha256 (m ++ d))) }

/-- Responses that were being made are sent, and their transports are free (18 R384). -/
def answerSahith (s : State) : State :=
  { s with out.sahith := s.out.sahith ++ s.security.busy, security.busy := [] }

end Sys2Proof.Machine
end

