-- ==== Sys2Proof/Machine/Mem.lean ====
section
/-!
DEFINITION. Addresses and memory: the address space (11 R219 to R224), tensors' homes, the versions a reader sees
(12 R253, R255, 09 R187, R188), plain writes, poison, heat and frames.
-/
namespace Sys2Proof.Machine

open Sys2Proof

/-! ### Module IDs and Lamio addresses (11 R223, R224) -/

/-- Coordinate i of a module ID or extent field: 0 is A (bits [15:12]) to 3, D (bits [3:0]). -/
def coord (m : ModId) (i : Nat) : Nat := bits m.toNat (12 - 4 * i) 4

/-- A module ID from its coordinates. -/
def modOf (a b c d : Nat) : ModId := BitVec.ofNat 16 (a * 4096 + b * 256 + c * 16 + d)

/-- The module lies in the hall. -/
def inHall (h : Holding) (m : ModId) : Bool :=
  (List.range 4).all fun i => decide (coord m i ≤ coord h.hallM1 i)

/-- Bit of WRAP for axis i: A is bit 3 (14 R311). -/
def wrapped (h : Holding) (i : Nat) : Bool := h.wrap.getLsbD (3 - i)

/-- Position `off` steps from `base` on an axis; none outside an unwrapped axis. -/
def axisAt (h : Holding) (i base off : Nat) : Option Nat :=
  let n := coord h.hallM1 i + 1
  if wrapped h i then some ((base + off) % n) else if base + off < n then some (base + off) else none

/-- The members of the holding (14 R311), in ascending offset. -/
def members (h : Holding) : List ModId :=
  (List.range (coord h.extentM1 0 + 1)).flatMap fun a =>
  (List.range (coord h.extentM1 1 + 1)).flatMap fun b =>
  (List.range (coord h.extentM1 2 + 1)).flatMap fun c =>
  (List.range (coord h.extentM1 3 + 1)).flatMap fun d =>
    match axisAt h 0 (coord h.origin 0) a, axisAt h 1 (coord h.origin 1) b,
          axisAt h 2 (coord h.origin 2) c, axisAt h 3 (coord h.origin 3) d with
    | some a, some b, some c, some d => [modOf a b c d]
    | _, _, _, _ => []

/-- The module belongs to this module's holding. -/
def inHolding (h : Holding) (m : ModId) : Bool := (members h).contains m

/-- The module and local offset a Lamio address names; none for a reserved SPACE, a non-zero module field in the alias,
or a module outside the hall. -/
def lamioTarget (s : State) (a : Nat) : Option (ModId × Nat) :=
  let space := bits a 60 4
  let m : ModId := BitVec.ofNat 16 (bits a 44 16)
  let off := bits a 0 44
  if space = 0 then (if m = 0 then some (s.holding.moduleId, off) else none)
  else if space = 1 then (if inHall s.holding m then some (m, off) else none)
  else none

/-- The global address of a local offset. -/
def lamioAddr (m : ModId) (off : Nat) : Nat := 2 ^ 60 + m.toNat * 2 ^ 44 + off

def gib : Nat := 2 ^ 30

/-- The first byte of the reserved area (11 R221). -/
def reservedBase (s : State) : Nat := s.mem.capacity - s.mem.reservedNow.toNat * gib

/-- SETUP_LOCK set, and the RWL fields in force (20 R412, 11 R226). -/
def lockSetup (s : State) : State := { s with holding.setupLock := true, mem.reservedNow := s.mem.reservedSize }

/-- The range touches the reserved area. -/
def touchesReserved (s : State) (off len : Nat) : Bool :=
  decide (reservedBase s < off + len) && decide (off < s.mem.capacity)

/-- The two ranges share a byte. -/
def overlap (a la b lb : Nat) : Bool := decide (a < b + lb) && decide (b < a + la)

/-! ### Tensors (12 R246, R247) -/

/-- The extents of this module's shard, or of the whole tensor. -/
def TensorRec.local (t : TensorRec) : List Nat :=
  if t.sharded then t.extent.set t.shardDim (t.extent.getD t.shardDim 1 / t.parts) else t.extent

def TensorRec.shape (t : TensorRec) : Shape := ⟨t.format, t.block, t.local⟩

/-- Bytes of the tensor's home on a module that holds it. -/
def TensorRec.bytes (t : TensorRec) : Nat := t.shape.bytes

/-- The segments held: directory entries that are not free, in segment order (12 R244). -/
def heldSegments (s : State) : List (Nat × Segment) :=
  s.graph.dir.filterMap fun e => if e.2.state = 0 then none else e.2.segment.map fun g => (e.1, g)

/-- Every defined tensor with its index. -/
def definedTensors (s : State) : List (Nat × TensorRec) :=
  (heldSegments s).flatMap (fun e => e.2.tensors.mapIdx fun i t => (e.2.tensorBase + i, t)) ++
    s.graph.tensors.filterMap fun e => e.2.map fun t => (e.1, t)

/-- The record of a tensor index. -/
def findTensor (s : State) (i : Nat) : Option TensorRec :=
  ((definedTensors s).find? fun e => e.1 == i).map (·.2)

/-- The tensors of this module whose home the range touches. -/
def tensorsAt (s : State) (off len : Nat) : List (Nat × TensorRec) :=
  (definedTensors s).filter fun e => e.2.held && overlap off len e.2.homeOffset e.2.bytes

/-- The range touches a defined tensor. -/
def covered (s : State) (off len : Nat) : Bool := !(tensorsAt s off len).isEmpty

/-! ### Versions -/

/-- Who reads: a reader that belongs to no step instance, or a task of a step. -/
inductive Reader
  | plain
  | task (step : Nat) (seedbed : Bool)
  deriving DecidableEq, Repr

/-- Which layers over the committed memory a reader sees (09 R187, R188, 12 R255, 13 R278). -/
def sees (head : Pos) : Reader → LayerTag → Bool
  | .plain, .output _ _ sb => !sb
  | .plain, .staged _ => false
  | .plain, .held k => decide ((posOf k passF 0).toNat ≤ head.toNat)
  | .task n sb, .output k _ held => decide (k ≤ n) && (sb || !held)
  | .task n sb, .staged k => sb && k + 1 == n
  | .task n _, .held k => decide (k ≤ n)

/-- The cell a list of writes holds at an address; the first listed wins. -/
def cellAt (cs : Cells) (a : Nat) : Option Byte := (cs.find? fun c => c.1 == a).map (·.2)

/-- The byte a reader sees: the latest layer it sees that holds the address, else the committed memory. -/
def readByte (m : Memory) (head : Pos) (r : Reader) (a : Nat) : Byte :=
  m.layers.foldl (fun v l => if sees head r l.tag then (cellAt l.cells a).getD v else v) (tget 0 m.base a)

def readBytes (s : State) (r : Reader) (off len : Nat) : Bytes :=
  (List.range len).map fun i => readByte s.mem s.run.head r (off + i)

/-- The order of layers: by step, a held COPY_IN before the step's own writers (13 R278). -/
def layerKey : LayerTag → Nat
  | .held k => 2 * k
  | .staged k => 2 * k + 1
  | .output k _ _ => 2 * k + 1

/-- A layer put after every layer of its key or a lower one. -/
def addLayer (l : Layer) : List Layer → List Layer
  | [] => [l]
  | x :: t => if layerKey l.tag < layerKey x.tag then l :: x :: t else x :: addLayer l t

/-- Cells written to the committed memory, the first listed written last. -/
def applyCells (b : List Host.Cell) (cs : Cells) : List Host.Cell :=
  cs.foldr (fun c t => tset 0 t c.1 c.2) b

/-- The directory flip: the page's home is another frame, with the next generation (11 R228 step 5). -/
def flipTo (far : Bool) (frame : Nat) (e : PageEntry) : PageEntry :=
  { e with far := far, frame := frame, present := true, gen := e.gen + 1, dirty := [] }

/-- One directory flip of the apply (08 R167): the staged frame is the page's home; the old home is kept until the records are
formed. -/
def flipHome (m : Memory) (h : HopperEntry) : Memory :=
  let e : PageEntry := tget {} m.pages h.page
  { m with
    pages := tset {} m.pages h.page (flipTo h.far h.frame e)
    oldHomes := if e.present then m.oldHomes ++ [(e.far, h.page % 32, e.frame)] else m.oldHomes }

/-- The line is written whole by staged layers among those given. -/
def stagedWhole (ls : List Layer) (line : Nat) : Bool :=
  (List.range 64).all fun i => ls.any fun l => l.tag.isStaged && l.cells.any fun c => c.1 == 64 * line + i

/-- Layers that satisfy `p` merged into the committed memory, oldest first; staged pages among them become homes; the other
layers are kept. -/
def mergeLayers (p : LayerTag → Bool) (m : Memory) : Memory :=
  let merged := m.layers.filter fun l => p l.tag
  let m := (m.hopper.filter fun h => p (.staged h.step)).foldl flipHome m
  { m with
    base := merged.foldl (fun b l => applyCells b l.cells) m.base
    layers := m.layers.filter fun l => !p l.tag
    hopper := m.hopper.filter fun h => !p (.staged h.step)
    poison := m.poison.filter fun l => !stagedWhole merged l }

/-- Layers that satisfy `p` dropped, with the frames of staged pages among them. -/
def dropLayers (p : LayerTag → Bool) (m : Memory) : Memory :=
  { m with
    layers := m.layers.filter fun l => !p l.tag
    hopper := m.hopper.filter fun h => !p (.staged h.step) }

/-- The cells of consecutive bytes. -/
def cellsAt (off : Nat) (bs : Bytes) : Cells := bs.mapIdx fun i b => (off + i, b)

/-! ### Lines, poison, heat, frames (11 R219, R225, R236) -/

def lineBytes : Nat := 64

def pageBytes : Nat := 2 ^ 21

/-- The 64-byte lines a range touches. -/
def linesOf (off len : Nat) : List Nat :=
  if len = 0 then [] else (List.range ((off + len - 1) / 64 - off / 64 + 1)).map fun i => off / 64 + i

/-- The parts of a range that lie in one 64-byte line each, in ascending address: offset from the start, and length
(13 R267). -/
def lineParts (o len : Nat) : List (Nat × Nat) :=
  (linesOf o len).map fun l =>
    let lo := max o (64 * l)
    let hi := min (o + len) (64 * l + 64)
    (lo - o, hi - lo)

/-- The pages a range touches. -/
def pagesOf (off len : Nat) : List Nat :=
  if len = 0 then [] else (List.range ((off + len - 1) / pageBytes - off / pageBytes + 1)).map fun i => off / pageBytes + i

/-- Poisoned lines of a range. -/
def poisonedIn (s : State) (off len : Nat) : List Nat := (linesOf off len).filter fun l => s.mem.poison.contains l

/-- The range covers the line whole. -/
def coversLine (off len line : Nat) : Bool := decide (off ≤ 64 * line) && decide (64 * line + 64 ≤ off + len)

/-! ### Frames of the reserved area (11 R222) -/

/-- The fallow queues of the held segments in their order: master tensor, delay, bytes of an entry (08 R165). -/
def fallowSlots (s : State) : List (Nat × Nat × Nat) :=
  (heldSegments s).flatMap fun e => (e.2.updates.filter fun u => u.fallowDelay != 0).filterMap fun u =>
    (findTensor s u.grad).map fun t => (u.master, u.fallowDelay, t.bytes)

/-- Bytes the fallow queues of the held segments may take. -/
def queueBytes (s : State) : Nat := ((fallowSlots s).map fun q => q.2.1 * q.2.2).foldl (· + ·) 0

/-- Frames of a tier and region that the reserved area's fixed parts hold from RUN_BEGIN on, and its fallow queues: the reserved
pages have the highest frames, in their order (log entry 13). -/
def reservedFrames (s : State) (far : Bool) (region : Nat) : Nat :=
  if !s.run.isOn then 0
  else if far then 128 + (ceilDiv (queueBytes s) pageBytes + 31 - region) / 32
  else 50

def tierFrames (far : Bool) : Nat := if far then 32768 else 24576

/-- The page on a frame. -/
def pageOn (s : State) (far : Bool) (region frame : Nat) : Option Nat :=
  ((s.mem.pages.find? fun e => e.1 % 32 == region && e.2.present && e.2.far == far && e.2.frame == frame).map (·.1)).orElse
    fun _ =>
      let j := tierFrames far - 1 - frame
      if frame < tierFrames far ∧ j < reservedFrames s far region then
        some (reservedBase s / pageBytes + 32 * (j + (if far then 50 else 0)) + region)
      else none

/-- Failed lines of frames that a write covers whole are rewritten (11 R237). -/
def noteRewrite (off len : Nat) (s : State) : State :=
  let step := fun (h : FrameHealth) =>
    match pageOn s h.far h.region h.frame with
    | some p => { h with
        rewritten := (h.failed.filter fun k => coversLine off len (32768 * p + k)).foldl addNew h.rewritten }
    | none => h
  { s with mem.health := s.mem.health.map step }

/-- A write clears the poison of the lines it covers whole (11 R236), or sets it where the data is poisoned (14 R310). -/
def writePoison (off len : Nat) (poison : Bool) (s : State) : State :=
  let s := noteRewrite off len s
  if poison then { s with mem.poison := (linesOf off len).foldl addNew s.mem.poison }
  else { s with mem.poison := s.mem.poison.filter fun l => !coversLine off len l }

/-- The region of a page. -/
def pageRegion (p : Nat) : Nat := p % 32

/-- The frame is in use by a page or as the other frame of a move, or is retired. -/
def frameBusy (s : State) (far : Bool) (region frame : Nat) : Bool :=
  (s.mem.pages.any fun e => pageRegion e.1 == region && e.2.present &&
    ((e.2.far == far && e.2.frame == frame) ||
     (e.2.state != 0 && e.2.otherFar == far && e.2.otherFrame == frame))) ||
  (s.mem.hopper.any fun h => pageRegion h.page == region && h.far == far && h.frame == frame) ||
  (s.mem.fresh.any fun h => pageRegion h.page == region && h.far == far && h.frame == frame) ||
  s.mem.oldHomes.contains (far, region, frame) ||
  s.mem.retired.contains (far, region, frame) || s.flash.retired.contains (far, region, frame)

/-- The lowest free frame of a tier in a region, searched from `i` over `n` frames. -/
def freeFrameFrom (s : State) (far : Bool) (region : Nat) : Nat → Nat → Option Nat
  | 0, _ => none
  | n + 1, i => if frameBusy s far region i then freeFrameFrom s far region n (i + 1) else some i

def freeFrame (s : State) (far : Bool) (region : Nat) : Option Nat :=
  freeFrameFrom s far region (tierFrames far - reservedFrames s far region) 0

def pageOf (s : State) (p : Nat) : PageEntry := tget {} s.mem.pages p

def setPage (p : Nat) (e : PageEntry) (s : State) : State :=
  { s with mem.pages := tset {} s.mem.pages p e }

/-- A page that is not moving. -/
def settled (e : PageEntry) : PageEntry :=
  { e with state := 0, dirty := [], otherFar := false, otherFrame := 0, cause := 0 }

/-- The tier a new page is given: far where pinned far or in the far parts of the reserved area, near otherwise; the
other tier when that one has no free frame (log entry 13). -/
def homeTier (s : State) (p : Nat) : Bool :=
  (pageOf s p).pin == 2 || decide (reservedBase s + 3 * gib + 128 * 2 ^ 20 ≤ p * pageBytes)

/-- A page that is written gets a frame when it has none (11 R220). -/
def ensureFrame (p : Nat) (s : State) : State :=
  let e := pageOf s p
  if e.present then s
  else
    let far := homeTier s p
    match freeFrame s far (pageRegion p) with
    | some f => setPage p { e with present := true, far := far, frame := f, gen := e.gen + 1 } s
    | none =>
      match freeFrame s (!far) (pageRegion p) with
      | some f => setPage p { e with present := true, far := !far, frame := f, gen := e.gen + 1 } s
      | none => s

/-- The tier a page has or is moving to. -/
def tierOf (s : State) (p : Nat) : Bool :=
  let e := pageOf s p
  if !e.present then homeTier s p else if e.state == 1 || e.state == 2 then e.otherFar else e.far

/-- A fresh frame for the staged page of a step, in the tier its home has or is moving to (08 R166); none when the tier has no
free frame. -/
def stageFrame (step p : Nat) (s : State) : Option State :=
  if s.mem.hopper.any fun h => h.step == step && h.page == p then some s
  else
    let far := tierOf s p
    (freeFrame s far (pageRegion p)).map fun f =>
      { s with mem.hopper := s.mem.hopper ++ [⟨step, p, far, f⟩] }

/-- Fresh frames for the pages that a task run writes, each in its page's tier (12 R253); none when one cannot be had. -/
def freshFrames (step : Nat) (task : W32) : List Nat → State → Option State
  | [], s => some s
  | p :: ps, s =>
    if s.mem.fresh.any fun h => h.step == step && h.task == task && h.page == p then freshFrames step task ps s
    else
      let far := tierOf s p
      (freeFrame s far (pageRegion p)).bind fun f =>
        freshFrames step task ps { s with mem.fresh := s.mem.fresh ++ [⟨step, task, p, far, f⟩] }

def stageFrames (step : Nat) : List Nat → State → Option State
  | [], s => some s
  | p :: ps, s => (stageFrame step p s).bind (stageFrames step ps)

/-- A memory request answered: its device has not expired, and no request of its lines is reissued (15 R319). -/
def answered (far : Bool) (region : Nat) (lines : List Nat) (m : Memory) : Memory :=
  { m with
    expiries := m.expiries.filter fun (x : Bool × Nat × Nat) => !(x.1 == far && x.2.1 == region)
    reissued := m.reissued.filter fun (x : Bool × Nat) => !(x.1 == far && lines.contains x.2) }

/-- The counter slots and bytes of an access, by the tier of its pages (17 R362). -/
def touchCounts (s : State) (write : Bool) (off len : Nat) : List (Nat × Nat) :=
  (pagesOf off len).map fun p =>
    (0x230 + 2 * b2n (if (pageOf s p).present then (pageOf s p).far else homeTier s p) + b2n write,
      min (off + len) ((p + 1) * pageBytes) - max off (p * pageBytes))

/-- What an access acts on: it reads a home, writes one, or writes the staged pages that will replace it (08 R166). -/
inductive Access
  | read
  | write
  | stage
  deriving DecidableEq, Repr

/-- An access of `len` bytes at `off`: one heat unit for each line, saturating (11 R225); bytes by tier counted
(17 R362), as speculative where a seedbed run accesses them (09 R192); a write to a home line that a move has copied marks it
dirty (11 R228). -/
def touchAs (seedbed : Bool) (what : Access) (off len : Nat) (s : State) : State :=
  let home := what == .write
  (pagesOf off len).foldl (fun s p =>
    let s := if home then ensureFrame p s else s
    let e := pageOf s p
    let lo := max off (p * pageBytes)
    let hi := min (off + len) ((p + 1) * pageBytes)
    let lines := linesOf lo (hi - lo)
    let e := { e with
      heat := satTo 0xFFFF (e.heat + lines.length)
      dirty := if home && e.state == 1 then lines.foldl addNew e.dirty else e.dirty }
    let far := if e.present then e.far else homeTier s p
    let s := countWork seedbed (0x230 + 2 * b2n far + b2n (what != .read)) (hi - lo) (setPage p e s)
    { s with mem := answered far (pageRegion p) lines s.mem }) s

/-- An access that no seedbed run makes. -/
def touch (write : Bool) (off len : Nat) (s : State) : State :=
  touchAs false (if write then .write else .read) off len s

/-! ### Moves (11 R228, R230) -/

/-- A move selected. -/
def selectMove (page : Nat) (toFar : Bool) (cause : Nat) (s : State) : State :=
  { s with mem.selected := s.mem.selected ++ [⟨page, toFar, cause⟩] }

/-- A trace entry of the memory class: 0 migration start, 1 flip, 2 poison, 3 retirement, with the local offset
(17 R368). -/
def traceMemory (type off : Nat) (s : State) : State := trace 5 type false 0 (BitVec.allOnes 32) off s

/-- The copy of a moving page is complete: the entry is SEALING. -/
def sealMove (page : Nat) (s : State) : State :=
  let e := pageOf s page
  if e.state = 1 then count 0x234 pageBytes (setPage page { e with state := 2 } s) else s

/-- The slot a move counts under: rotation, pins and hints, sowing. -/
def moveSlot (cause : Nat) : Nat :=
  if cause = 0 then 0x235 else if cause = 3 then 0x236 else if cause = 1 ∨ cause = 2 then 0x237 else 0x238

def countMove (cause : Nat) (s : State) : State := if moveSlot cause < 0x238 then count (moveSlot cause) 1 s else s

/-- A page that stands in another tier than its pin's, and is on no move, is to be moved there (R230, R233). -/
def repin (page : Nat) (s : State) : State :=
  let e := pageOf s page
  if e.present && e.pin != 0 && e.far != (e.pin == 2) && !s.mem.selected.any (fun x => x.page == page) then
    selectMove page (e.pin == 2) 1 s
  else s

/-- The flip: the dirty lines are copied again, and the entry points at the destination with the next generation in one
write. The error history of the frames stays with the frames. -/
def flipMove (page : Nat) (s : State) : State :=
  let e := pageOf s page
  if e.state = 2 then
    let s := setPage page
      { flipTo e.otherFar e.otherFrame e with otherFar := e.far, otherFrame := e.frame, state := 3 } s
    let s := countMove e.cause (count 0x234 (lineBytes * e.dirty.length) s)
    repin page (traceMemory 1 (page * pageBytes) s)
  else s

/-- No access of the old generation is outstanding: the source frame is free. -/
def freeSource (page : Nat) (s : State) : State :=
  let e := pageOf s page
  if e.state = 3 then setPage page (settled e) s else s

/-- A move under way completes before another flip of the page: the page gets a staged pair, or a fresh frame (R230; 12 R253). -/
def finishMove (page : Nat) (s : State) : State :=
  let e := pageOf s page
  if e.state == 1 || e.state == 2 then freeSource page (flipMove page (sealMove page s)) else s

/-- The fresh frames of a task run made the homes of their pages; the frames they replace are free, since a run binds to what it
reads when it starts (12 R253, R255). -/
def flipFresh (step : Nat) (task : W32) (s : State) : State :=
  let mine := fun (h : FreshFrame) => h.step == step && h.task == task
  let s := (s.mem.fresh.filter mine).foldl (fun s h =>
    let s := finishMove h.page s
    setPage h.page (flipTo h.far h.frame (pageOf s h.page)) s) s
  { s with mem.fresh := s.mem.fresh.filter fun h => !mine h }

/-! ### Writes outside step instances -/

/-- Bytes made the current version at once: written to the committed memory, and no longer held by any version that a
plain reader saw (12 R253, 14 R305). -/
def writeNow (off : Nat) (bs : Bytes) (poison : Bool) (s : State) : State :=
  let inside := fun a : Nat => decide (off ≤ a) && decide (a < off + bs.length)
  let s := touch true off bs.length (writePoison off bs.length poison s)
  { s with
    mem.base := tsetBytes s.mem.base off bs
    mem.layers := s.mem.layers.map fun l =>
      if sees s.run.head .plain l.tag then { l with cells := l.cells.filter fun c => !inside c.1 } else l }

/-- The reduced gradient of the step at the head is retained: from pass U until its commit or discard (08 R166). -/
def retaining (s : State) : Bool :=
  s.run.isOn && decide (passU ≤ passOf s.run.head) && decide (passOf s.run.head ≤ passC) && !s.votes.commits.any fun c => c.step == stepOf s.run.head

/-- The page belongs to a reduced gradient that the tally marks retained (08 R166). -/
def pageRetained (s : State) (p : Nat) : Bool :=
  retaining s && (heldSegments s).any fun e => e.2.updates.any fun u =>
    match findTensor s u.grad with
    | some t => t.held && (pagesOf t.homeOffset t.bytes).contains p
    | none => false

/-- The range touches a retained page, which is not written until the step has committed or been discarded (11 R222). -/
def touchesRetained (s : State) (off len : Nat) : Bool := retaining s && (pagesOf off len).any (pageRetained s)

/-- A write without a context word is allowed before RUN_BEGIN, at a scheduled-stop cut, or on bytes no defined tensor
covers, and never in the reserved area (11 R224, 14 R305) or on retained pages (11 R222). -/
def plainWriteAllowed (s : State) (off len : Nat) : Bool :=
  !touchesReserved s off len && !touchesRetained s off len && (s.quiet || !covered s off len)

end Sys2Proof.Machine
end

