-- ==== Sys2Proof/Machine/Registers.lean ====
section
/-!
DEFINITION. The setup registers (20): what each word of BAR0 reads, and what a write does to each field. The fields
whose write acts (ENABLE and RESUME of a ring, DISCOVER, HOLDING_RESET, TIME_OFFSET, TIME_RATE, TRAP_ARMED, the mailbox
commands, power control) are rows of the opcode table of their own, and a write here leaves them alone (log entry 14).
-/
namespace Sys2Proof.Machine

open Sys2Proof

/-! ### Units in service (01 R7, 18 R376) -/

def coreEnabled (s : State) (c : Nat) : Bool :=
  s.flash.record.coreMap.getLsbD c && !s.sched.retiredCores.contains c

/-- A core that takes tiles: enabled, not retired, not suspect, not halted (01 R7, 04 R88, 15 R325). -/
def coreUsable (s : State) (c : Nat) : Bool :=
  decide (c < 4096) && coreEnabled s c && !s.sched.suspects.contains c && !s.sched.halted.contains c

/-- Another core for a tile of a core that failed. -/
def otherCore (s : State) (failed : Nat) : Nat :=
  (((List.range 4096).map fun i => (Config.coreChoice failed + i) % 4096).find? fun c =>
    c != failed && coreUsable s c).getD failed

def harrowEnabled (s : State) (h : Nat) : Bool :=
  s.flash.record.harrowMap.getLsbD h && !s.sched.retiredHarrows.contains h

def enabledCores (s : State) : Nat := ((List.range 4096).filter (coreEnabled s)).length

def enabledHarrows (s : State) : Nat := ((List.range 256).filter (harrowEnabled s)).length

/-- The clock step in force (19 R393). -/
def clockStep (p : Power) : Nat := max (max p.capStep p.thermalStep) p.clockLimit

/-! ### Offsets of the parts of the reserved area (log entry 7) -/

def stopMapAt (s : State) : Nat := reservedBase s
def commitRecordsAt (s : State) : Nat := reservedBase s + 0x10000
def voteRingAt (s : State) : Nat := reservedBase s + 0x20000
def graphDirAt (s : State) : Nat := reservedBase s + 0x30000
def groupTableAt (s : State) : Nat := reservedBase s + 0x40000
def solveRecordsAt (s : State) : Nat := reservedBase s + 0x10000000
def hopperDirAt (s : State) : Nat := reservedBase s + 2 * gib
def sheafAt (s : State) : Nat := reservedBase s + 3 * gib
def sheafTailAt (s : State) : Nat := sheafAt s + 64 * 2 ^ 20
def sampleLocalAt (s : State) : Nat := sheafAt s + 65 * 2 ^ 20

/-! ### Words that other chapters lay out -/

/-- READY (19 R402). -/
def readyWord (s : State) : Nat :=
  let u := s.startup
  let elapsed := u.elapsed.getD ((s.clock.up - u.startedAt) / 1000000)
  pack [(1, b2n u.ready), (1, b2n u.failed), (1, b2n u.recovery), (1, 0), (4, u.phase), (8, u.failedUnit),
    (8, u.portsUp.toNat), (8, 0), (16, elapsed), (16, enabledCores s)]

/-- Power status (19 R396). -/
def powerStatusWord (p : Power) : Nat :=
  let st := clockStep p
  pack [(6, st), (1, b2n (st != 0 && st == p.capStep)), (1, b2n (st != 0 && st == p.thermalStep)),
    (1, b2n p.capUnmet), (1, b2n p.inputLow), (6, 0), (16, p.watts), (16, p.volts), (16, p.amps)]

/-- Power control (19 R394). -/
def powerControlWord (p : Power) : Nat :=
  pack [(13, p.capW), (3, 0), (6, p.clockLimit), (10, 0), (8, p.dieThrottle), (8, p.hbmThrottle)]

/-- Security status (18 R382). -/
def securityWord (c : Security) : Nat :=
  pack [(2, c.state), (2, c.pending), (1, b2n c.identityValid), (1, c.slot), (1, b2n c.otherRefused), (1, 0),
    (8, c.bootError), (16, 0), (32, c.fwSvn.toNat)]

/-- Holding configuration, 128 bits (14 R311). -/
def holdingConfig (h : Holding) : Nat :=
  pack [(10, h.number.toNat), (6, 0), (16, h.origin.toNat), (16, h.masterId.toNat), (16, h.extentM1.toNat),
    (16, h.hallM1.toNat), (4, h.wrap.toNat), (8, h.axisRole.toNat)]

/-- Holding status (14 R313). -/
def holdingStatus (h : Holding) : Nat :=
  pack [(3, h.state), (1, b2n h.isMaster), (7, h.members), (5, 0), (16, h.offender.toNat)]

/-- RESTORE_STATUS, 128 bits (15 R334). -/
def restoreStatus (h : Holding) : Nat :=
  let lowest := (sortNat (h.restoring.map (·.toNat))).headD 0
  pack [(3, h.restore), (1, b2n h.restoreHost), (12, 0), (16, lowest), (16, satTo 0xFFFF h.restoring.length),
    (16, 0), (64, h.restoreTarget)]

/-- The host context, 512 bits (13 R269). -/
def hostContext (s : State) : Nat :=
  let c := s.host.ctx
  pack [(64, c.doorbellBase.toNat), (64, c.progressBase.toNat), (8, c.pollInterval.toNat), (8, 0),
    (8, c.reportRing.toNat), (8, 0), (32, c.eventLost.toNat), (64, c.reportBase.toNat), (64, c.windowBase.toNat),
    (64, c.eventBase.toNat), (5, c.eventSizeLog2.toNat), (1, b2n c.eventEnable), (10, 0), (11, c.eventVector.toNat),
    (5, 0), (8, c.eventCoalesce.toNat), (20, c.dataPasid.toNat), (1, b2n c.dataPasidEnable), (3, 0),
    (64, graphDirAt s)]

/-- A submission ring context, 256 bits (13 R270). -/
def subContext (r : SubRing) : Nat :=
  pack [(64, r.base.toNat), (5, r.sizeLog2.toNat), (3, 0), (8, r.completionRing.toNat), (1, b2n r.enable),
    (1, b2n r.haltOnError), (1, b2n r.pasidEnable), (1, 0), (2, r.state), (2, 0), (20, r.pasid.toNat), (4, 0),
    (8, r.errorCode), (8, 0), (32, r.generation.toNat), (32, r.fetched.toNat), (32, r.executed.toNat)]

/-- The ring is full: entries wait for space (13 R284). -/
def complFull (c : ComplRing) : Bool := decide (2 ^ c.sizeLog2.toNat ≤ (c.posted - c.consumer).toNat)

/-- A completion ring context, 256 bits (13 R271); HELD counts the entries that wait for space. -/
def complContext (c : ComplRing) : Nat :=
  pack [(64, c.base.toNat), (5, c.sizeLog2.toNat), (11, c.vector.toNat), (1, b2n c.enable), (1, b2n c.pasidEnable),
    (2, c.state), (4, 0), (20, c.pasid.toNat), (4, 0), (8, c.coalesce.toNat), (8, 0), (32, c.generation.toNat),
    (32, c.posted.toNat), (32, if complFull c then (c.waiting.filter fun e => !(e.quiet && e.status == 0)).length else 0)]

/-- Memory and rotation, word 0 (20 R417). -/
def memWord (m : MemCfg) : Nat :=
  pack [(16, m.rotationBudget.toNat), (7, m.hbmTarget.toNat), (9, 0), (16, m.hysteresis.toNat),
    (4, m.decayShift.toNat), (4, m.lookahead.toNat), (8, m.scrubPeriod.toNat)]

/-- Numerics, word 0 (20 R418). -/
def numericsWord (n : Numerics) : Nat :=
  pack [(4, n.stintDefault.toNat), (1, b2n n.trapEnable), (1, b2n n.trapArmed), (2, 0), (4, n.rollerCheck.toNat)]

/-- The trap record, 512 bits (04 R87). -/
def trapWord (t : TrapRecord) : Nat :=
  pack [(32, t.taskId.toNat), (3, t.stream), (3, t.cause), (3, t.stage), (1, b2n t.seedbed), (1, b2n t.valid),
    (1, b2n t.gleaner), (12, t.unit), (8, 0), (64, t.position.toNat), (64, t.outIndex.toNat), (32, t.kIndex.toNat),
    (32, t.since.toNat), (64, t.timestamp.toNat)]

/-- Harrows, word 0 (20 R419). -/
def harrowsWord (h : Harrows) : Nat :=
  pack [(4, h.maxAge.toNat), (12, h.newtonLimit.toNat), (12, h.jacobiLimit.toNat), (4, 0), (32, h.tol.toNat)]

/-- The bin's slots (10 R207, 20 R421): free, firm, tentative, queued. -/
def binWord (c : Coll) : Nat :=
  let firm := (c.bin.filter fun r => r.state == 2).length
  let tent := (c.bin.filter fun r => r.state == 1).length
  let queued := (c.bin.filter fun r => r.state == 0).length
  pack [(6, 32 - firm - tent), (6, firm), (6, tent), (14, 0), (32, satTo (2 ^ 32 - 1) queued)]

/-- Timeouts, words 0 to 6 (20 R422). -/
def timeoutWord (t : Timeouts) (i : Nat) : Nat :=
  match i with
  | 0 => pack [(32, t.txn.toNat), (32, t.mem.toNat)]
  | 1 => pack [(32, t.hedge.toNat), (32, t.coll.toNat)]
  | 2 => pack [(32, t.watchdogFloor.toNat), (8, t.watchdogFactor.toNat), (4, t.ringRetry.toNat)]
  | 3 => t.vote.toNat
  | 4 => t.voteDistance.toNat
  | 5 => pack [(32, t.heartbeat.toNat), (32, t.liveness.toNat)]
  | 6 => pack [(32, t.stall.toNat), (32, t.ageing.toNat)]
  | _ => 0

/-- Slots of 17 R362; every other slot reads 0. -/
def slotListed (n : Nat) : Bool :=
  (decide (n ≤ 0xFF) && (fmtArray (n / 16) && fmtArray (n % 16))) ||
  (decide (0x100 ≤ n) && decide (n ≤ 0x1FF)) || (decide (0x200 ≤ n) && decide (n ≤ 0x21F)) ||
  (decide (0x220 ≤ n) && decide (n ≤ 0x223)) || (decide (0x230 ≤ n) && decide (n ≤ 0x237)) ||
  (decide (0x240 ≤ n) && decide (n ≤ 0x2E0)) || (decide (0x2E1 ≤ n) && decide (n ≤ 0x2E6)) ||
  (decide (0x2E8 ≤ n) && decide (n ≤ 0x2EF)) || (decide (0x300 ≤ n) && decide (n ≤ 0x315)) ||
  (decide (0x318 ≤ n) && decide (n ≤ 0x31C)) || (decide (0x320 ≤ n) && decide (n ≤ 0x327)) ||
  (decide (0x400 ≤ n) && decide (n ≤ 0x45F))

/-- A counter ID of a reserved slot or status (17 R363). -/
def counterReserved (id : Nat) : Bool := id % 4 == 3 || !slotListed (id / 4)

/-- The value a counter ID reads; what a stall-cycle counter (slots 0x300 to 0x30F) reads is free (log entry 75). -/
def counterValue (s : State) (id : Nat) : Nat :=
  if counterReserved id then 0
  else if 0x300 ≤ id / 4 ∧ id / 4 < 0x310 then (Config.stallCycles id s.clock.up).toNat
  else tget 0 s.counters.values id

/-- 64-bit word `i` of a wide register. -/
def wordOf (x i : Nat) : Nat := bits x (64 * i) 64

/-! ### BAR0 reads (20 R409 to R426) -/

/-- The 8-byte word at an aligned BAR0 offset. -/
def bar0Word (s : State) (o : Nat) : Nat :=
  let w := o % 0x10000
  match o / 0x10000 with
  | 0 =>
    if w = 0 then pack [(16, 0x1F6D), (16, 0x4096), (8, s.flash.stepping.toNat)]
    else if w = 8 then s.flash.record.serial.toNat
    else if w = 0x10 then readyWord s
    else if w = 0x18 then b2n s.holding.setupLock
    else if w = 0x20 then s.holding.moduleId.toNat
    else 0
  | 1 =>
    if w < 0x40 then wordOf (hostContext s) (w / 8)
    else if 0x1000 ≤ w ∧ w < 0x3000 then
      wordOf (subContext (tget {} s.host.sub ((w - 0x1000) / 32))) (w % 32 / 8)
    else if 0x3000 ≤ w ∧ w < 0x5000 then
      wordOf (complContext (tget {} s.host.compl ((w - 0x3000) / 32))) (w % 32 / 8)
    else 0
  | 2 =>
    if w < 0x10 then wordOf (holdingConfig s.holding) (w / 8)
    else if w = 0x18 then holdingStatus s.holding
    else if w = 0x20 then s.holding.specDepth.toNat
    else if w = 0x28 then stopMapAt s
    else if w = 0x30 then s.holding.voteReport.toNat
    else if w = 0x38 then voteRingAt s
    else if 0x40 ≤ w ∧ w < 0x50 then wordOf (restoreStatus s.holding) ((w - 0x40) / 8)
    else if w = 0x50 then s.clock.now % 2 ^ 64
    else if w = 0x60 then s.holding.timeRate.toNat
    else 0
  | 3 =>
    if w = 0 then memWord s.mem.cfg
    else if w = 8 then s.mem.reservedSize.toNat
    else if w = 0x10 then s.mem.capacity
    else 0
  | 4 =>
    if w = 0 then numericsWord s.numerics
    else if w = 8 then s.numerics.gMax.toNat
    else if 0x40 ≤ w ∧ w < 0x80 then wordOf (trapWord s.numerics.trap) ((w - 0x40) / 8)
    else 0
  | 5 =>
    if w = 0 then harrowsWord s.harrows
    else if w = 8 then solveRecordsAt s
    else if 0x10 ≤ w ∧ w < 0x30 then
      pack ((List.range 64).map fun i => (1, b2n (harrowEnabled s (8 * (w - 0x10) + i))))
    else 0
  | 6 =>
    if w = 0 then (s.coll.groups.filter fun g => g.2.isSome).length
    else if w = 8 then binWord s.coll
    else if w = 0x10 then groupTableAt s
    else 0
  | 7 => if w < 0x38 then timeoutWord s.tmo (w / 8) else 0
  | 8 =>
    if w = 0 then sheafAt s
    else if w = 8 then sampleLocalAt s
    else if w = 0x10 then s.counters.select.toNat
    else if w = 0x18 then counterValue s s.counters.select.toNat
    else 0
  | 9 =>
    if w = 0 then
      pack [(1, b2n (!s.stones.live.isEmpty)), (1, b2n (s.stones.pending.isSome || s.stones.due.isSome)), (6, s.stones.live.length)]
    else if 0x20 ≤ w ∧ w < 0x40 then wordOf s.stones.digest.toNat ((w - 0x20) / 8)
    else 0
  | 10 =>
    if w = 0 then securityWord s.security
    else if w = 0x10 then s.security.result
    else if 0x20 ≤ w ∧ w < 0x40 then wordOf s.security.nonce.toNat ((w - 0x20) / 8)
    else if 0x8000 ≤ w then leNat (tgetBytes s.security.area (w - 0x8000) 8)
    else 0
  | 11 =>
    if w = 0 then powerControlWord s.power
    else if w = 8 then powerStatusWord s.power
    else if w = 0x10 then pack [(8, s.power.tripSensor.getD 0), (1, b2n s.power.tripSensor.isSome)]
    else if 0x100 ≤ w ∧ w < 0x200 then
      pack ((List.range 4).map fun i => (16, (s.power.sensors.getD ((w - 0x100) / 2 + i) 0).toNat))
    else 0
  | _ => 0

/-- A BAR0 read that the module completes; none is Unsupported Request (20 R410). -/
def bar0Read (s : State) (o len : Nat) : Option Nat :=
  if (len = 4 ∨ len = 8) ∧ o % len = 0 then some (bits (bar0Word s (o / 8 * 8)) (8 * (o % 8)) (8 * len)) else none

/-! ### Field writes -/

/-- `x` where it lies within the range, else the field as it stands (20 R410). -/
def inRange (lo hi x old : Nat) : Nat := if lo ≤ x ∧ x ≤ hi then x else old

/-- A binary32 pattern that is neither NaN, infinite nor negative; -0 counts as +0 (03 R427). -/
def nonNegFinite (x : W32) : Bool :=
  match ofB32 x with
  | .fin n m _ => !n || m == 0
  | _ => false

/-- Whether a binary32 pattern is finite and greater than 0 (03 R427: -0 is not). -/
def positiveFinite (x : W32) : Bool :=
  match ofB32 x with
  | .fin n m _ => !n && m != 0
  | _ => false

/-- Word `i` of the host context written. -/
def writeHostContext (i v : Nat) (c : HostCtx) : HostCtx :=
  match i with
  | 0 => { c with doorbellBase := BitVec.ofNat 64 v }
  | 1 => { c with progressBase := BitVec.ofNat 64 v }
  | 2 => { c with
      pollInterval := BitVec.ofNat 8 (inRange 0 128 (bits v 0 8) c.pollInterval.toNat)
      reportRing := BitVec.ofNat 8 (bits v 16 8)
      eventLost := BitVec.ofNat 32 (bits v 32 32) }
  | 3 => { c with reportBase := BitVec.ofNat 64 v }
  | 4 => { c with windowBase := BitVec.ofNat 64 v }
  | 5 => { c with eventBase := BitVec.ofNat 64 v }
  | 6 =>
    let n := bits v 0 5
    { c with
      eventSizeLog2 := if n = 0 ∨ (6 ≤ n ∧ n ≤ 16) then BitVec.ofNat 5 n else c.eventSizeLog2
      eventEnable := bitOf v 5
      eventVector := BitVec.ofNat 11 (bits v 16 11)
      eventCoalesce := BitVec.ofNat 8 (bits v 32 8)
      dataPasid := BitVec.ofNat 20 (bits v 40 20)
      dataPasidEnable := bitOf v 60 }
  | _ => c

/-- The data-channel fields, the only ones a member's own host may write (13 R268). -/
def writeDataChannel (v : Nat) (c : HostCtx) : HostCtx :=
  { c with dataPasid := BitVec.ofNat 20 (bits v 40 20), dataPasidEnable := bitOf v 60 }

/-- A ring size of 2^4 to 2^16. -/
def ringSize (x old : Nat) : Nat := inRange 4 16 x old

/-- Word `i` of a submission ring context written, ENABLE and RESUME apart; the fields of R270 only while ENABLE is 0. -/
def writeSubContext (i v : Nat) (r : SubRing) : SubRing :=
  match i with
  | 0 => if r.enable then r else { r with base := BitVec.ofNat 64 v }
  | 1 =>
    let r := { r with haltOnError := bitOf v 17 }
    if r.enable then r
    else { r with
      sizeLog2 := BitVec.ofNat 5 (ringSize (bits v 0 5) r.sizeLog2.toNat)
      completionRing := BitVec.ofNat 8 (bits v 8 8)
      pasidEnable := bitOf v 18
      pasid := BitVec.ofNat 20 (bits v 24 20) }
  | 2 => if r.enable then r else { r with generation := BitVec.ofNat 32 v }
  | _ => r

/-- Word `i` of a completion ring context written, ENABLE apart. -/
def writeComplContext (i v : Nat) (c : ComplRing) : ComplRing :=
  match i with
  | 0 => if c.enable then c else { c with base := BitVec.ofNat 64 v }
  | 1 =>
    let c := { c with coalesce := BitVec.ofNat 8 (bits v 48 8) }
    if c.enable then c
    else { c with
      sizeLog2 := BitVec.ofNat 5 (ringSize (bits v 0 5) c.sizeLog2.toNat)
      vector := BitVec.ofNat 11 (bits v 5 11)
      pasidEnable := bitOf v 17
      pasid := BitVec.ofNat 20 (bits v 24 20) }
  | 2 => if c.enable then c else { c with generation := BitVec.ofNat 32 v }
  | _ => c

/-- Product of the four extents of a holding. -/
def extentProduct (e : ModId) : Nat := ((List.range 4).map fun i => coord e i + 1).foldl (· * ·) 1

/-- The holding configuration written, a field out of range kept (14 R311). -/
def writeHoldingConfig (v : Nat) (h : Holding) : Holding :=
  let ext : ModId := BitVec.ofNat 16 (bits v 48 16)
  let role := bits v 84 8
  let roleOk := (List.range 4).all fun i => bits role (2 * i) 2 != 3
  { h with
    number := BitVec.ofNat 10 v
    origin := BitVec.ofNat 16 (bits v 16 16)
    masterId := BitVec.ofNat 16 (bits v 32 16)
    extentM1 := if extentProduct ext ≤ 64 then ext else h.extentM1
    hallM1 := BitVec.ofNat 16 (bits v 64 16)
    wrap := BitVec.ofNat 4 (bits v 80 4)
    axisRole := if roleOk then BitVec.ofNat 8 role else h.axisRole }

/-- Memory and rotation word 0 written; in force from the next commit (11 R226). -/
def writeMemWord (v : Nat) (m : MemCfg) : MemCfg :=
  { rotationBudget := BitVec.ofNat 16 v
    hbmTarget := BitVec.ofNat 7 (inRange 50 100 (bits v 16 7) m.hbmTarget.toNat)
    hysteresis := BitVec.ofNat 16 (bits v 32 16)
    decayShift := BitVec.ofNat 4 (inRange 1 8 (bits v 48 4) m.decayShift.toNat)
    lookahead := BitVec.ofNat 4 (bits v 52 4)
    scrubPeriod := BitVec.ofNat 8 (inRange 1 168 (bits v 56 8) m.scrubPeriod.toNat) }

/-- Numerics word 0 written, TRAP_ARMED apart. -/
def writeNumericsWord (v : Nat) (n : Numerics) : Numerics :=
  { n with
    stintDefault := BitVec.ofNat 4 (inRange 0 6 (bits v 0 4) n.stintDefault.toNat)
    trapEnable := bitOf v 4
    rollerCheck := BitVec.ofNat 4 (bits v 8 4) }

/-- Harrows word 0 written. -/
def writeHarrowsWord (v : Nat) (h : Harrows) : Harrows :=
  let tol : W32 := BitVec.ofNat 32 (bits v 32 32)
  { h with
    maxAge := BitVec.ofNat 4 (inRange 1 15 (bits v 0 4) h.maxAge.toNat)
    newtonLimit := BitVec.ofNat 12 (inRange 1 4095 (bits v 4 12) h.newtonLimit.toNat)
    jacobiLimit := BitVec.ofNat 12 (inRange 1 4095 (bits v 16 12) h.jacobiLimit.toNat)
    tol := if positiveFinite tol then tol else h.tol }

/-- A timeout word written (20 R422). -/
def writeTimeoutWord (i v : Nat) (t : Timeouts) : Timeouts :=
  let lo := bits v 0 32
  let hi := bits v 32 32
  let f := fun a b x (old : W32) => BitVec.ofNat 32 (inRange a b x old.toNat)
  match i with
  | 0 => { t with txn := f 1 10000 lo t.txn, mem := f 10 10000 hi t.mem }
  | 1 => { t with hedge := f 1 10000 lo t.hedge, coll := f 1 10000 hi t.coll }
  | 2 => { t with
      watchdogFloor := f 1 1000 lo t.watchdogFloor
      watchdogFactor := BitVec.ofNat 8 (inRange 2 255 (bits v 32 8) t.watchdogFactor.toNat)
      ringRetry := BitVec.ofNat 4 (bits v 40 4) }
  | 3 => { t with vote := f 10 600000 lo t.vote }
  | 4 => { t with voteDistance := BitVec.ofNat 64 v }
  | 5 => { t with
      heartbeat := f 5 10000 lo t.heartbeat
      liveness := if hi = 0 then 0 else f 100 3600000 hi t.liveness }
  | 6 => { t with stall := f 1 1000000 lo t.stall, ageing := f 1 1000 hi t.ageing }
  | _ => t

/-- The host may write this module's setup registers: it is the holding master, or a master candidate that has no ID yet
(13 R268, 14 R311, R312). -/
def hostControls (s : State) : Bool :=
  s.holding.isMaster || (s.power.masterSel && s.power.linkUp && !s.assigned)

/-- The blocks of holding scope: SPEC_DEPTH, memory and rotation, numerics, harrows, timeouts (20 R409, R415). -/
def holdingScope (o : Nat) : Bool :=
  o == 0x20020 || o / 0x10000 == 3 || o / 0x10000 == 4 || o / 0x10000 == 5 || o / 0x10000 == 7

/-- The 8-byte word at an aligned offset as a partial write completes it: the staged value where the field is not yet in
force. -/
def heldWord (s : State) (o : Nat) : Nat :=
  if o = 0x30000 then memWord (s.mem.staged.getD s.mem.cfg)
  else if o / 0x10000 = 7 ∧ o % 0x10000 < 0x38 then timeoutWord (s.tmoNext.getD s.tmo) (o % 0x10000 / 8)
  else bar0Word s o

/-- A whole word written to a register of holding scope. -/
def writeHoldingWord (o v : Nat) (s : State) : State :=
  let unlocked := !s.holding.setupLock
  if o = 0x20020 then
    if unlocked && decide (bits v 0 3 ≤ 1) then { s with holding.specDepth := BitVec.ofNat 3 v } else s
  else if o = 0x30000 then { s with mem.staged := some (writeMemWord v (s.mem.staged.getD s.mem.cfg)) }
  else if o = 0x30008 then
    if unlocked then
      { s with mem.reservedSize := BitVec.ofNat 10 (inRange 32 512 (bits v 0 10) s.mem.reservedSize.toNat) }
    else s
  else if o = 0x40000 then { s with numerics := writeNumericsWord v s.numerics }
  else if o = 0x40008 then
    let g : W32 := BitVec.ofNat 32 v
    if unlocked && nonNegFinite g then { s with numerics.gMax := g } else s
  else if o = 0x50000 then if unlocked then { s with harrows := writeHarrowsWord v s.harrows } else s
  else if o / 0x10000 = 7 ∧ o % 0x10000 < 0x38 then
    let t := writeTimeoutWord (o % 0x10000 / 8) v (s.tmoNext.getD s.tmo)
    if s.run.isOn then { s with tmoNext := some t } else { s with tmo := t }
  else s

/-- The event ring enabled: its counts begin at 0 and the events that waited are posted (13 R274, R285, 19 R403). -/
def enableEvents (was : Bool) (s : State) : State :=
  if !was && s.host.ctx.eventEnable then
    flushEvents { s with host.evPosted := 0, host.evConsumer := 0, host.evUnsig := 0 }
  else s

/-- A whole word written to any other register. -/
def writeOtherWord (o v : Nat) (s : State) : State :=
  let w := o % 0x10000
  let unlocked := !s.holding.setupLock
  match o / 0x10000 with
  | 1 =>
    if w < 0x40 then enableEvents s.host.ctx.eventEnable { s with host.ctx := writeHostContext (w / 8) v s.host.ctx }
    else if 0x1000 ≤ w ∧ w < 0x3000 then
      { s with host.sub := tmod {} s.host.sub ((w - 0x1000) / 32) (writeSubContext (w % 32 / 8) v) }
    else if 0x3000 ≤ w ∧ w < 0x5000 then
      { s with host.compl := tmod {} s.host.compl ((w - 0x3000) / 32) (writeComplContext (w % 32 / 8) v) }
    else s
  | 2 =>
    if w < 0x10 then
      if unlocked then
        let whole := holdingConfig s.holding
        let new := if w = 0 then v + 2 ^ 64 * wordOf whole 1 else wordOf whole 0 + 2 ^ 64 * v
        { s with holding := writeHoldingConfig new s.holding }
      else s
    else if w = 0x30 then
      if unlocked then { s with holding.voteReport := BitVec.ofNat 64 v } else s
    else s
  | 8 => if w = 0x10 then { s with counters.select := BitVec.ofNat 16 v } else s
  | 10 =>
    if 0x8000 ≤ w then { s with security.area := tsetBytes s.security.area (w - 0x8000) (leBytes 8 v) } else s
  | _ => s

/-- The word a write of `len` bytes leaves, the other bytes as they stand. -/
def mergeWord (old o len v : Nat) : Nat :=
  if len = 8 then v % 2 ^ 64
  else if o % 8 = 0 then v % 2 ^ 32 + old / 2 ^ 32 * 2 ^ 32
  else old % 2 ^ 32 + v % 2 ^ 32 * 2 ^ 32

/-- An access the module completes: 4 or 8 bytes, naturally aligned (20 R410). -/
def accessOk (o len : Nat) : Bool := (len == 4 || len == 8) && o % len == 0

/-- The RWL fields now. -/
def lockedFields (s : State) : LockedFields :=
  { at_ := s.clock.up, config := holdingConfig s.holding, depth := s.holding.specDepth, report := s.holding.voteReport,
    reserved := s.mem.reservedSize, gMax := s.numerics.gMax, harrows := harrowsWord s.harrows }

/-- The RWL fields kept before the first write of a cycle. -/
def keepFields (s : State) : State :=
  if s.holding.before.any fun b => b.at_ == s.clock.up then s else { s with holding.before := some (lockedFields s) }

/-- The RWL fields put back. -/
def restoreFields (b : LockedFields) (s : State) : State :=
  { s with
    holding := { writeHoldingConfig b.config s.holding with specDepth := b.depth, voteReport := b.report, before := none }
    mem.reservedSize := b.reserved
    numerics.gMax := b.gMax
    harrows := writeHarrowsWord b.harrows s.harrows }

/-- SETUP_LOCK set: it wins over the writes of RWL fields in the same cycle, and a master that has sent such writes sends the words
as they stand (20 R411, R412). -/
def lockRegisters (s : State) : State :=
  match s.holding.before with
  | none => lockSetup s
  | some b =>
    if b.at_ ≠ s.clock.up then lockSetup s
    else
      let t := restoreFields b s
      let again := ([0x20020, 0x30008, 0x40008, 0x50000] : List Nat).filter fun o => heldWord s o != heldWord t o
      lockSetup (if s.holding.isMaster then
        again.foldl (fun t o => sendHedge everyone (.setupWrite o 8 (BitVec.ofNat 64 (heldWord t o))) t) t else t)

/-- A register write, applied to the word that holds it. -/
def writeRegister (o len v : Nat) (s : State) : State :=
  let s := keepFields s
  let a := o / 8 * 8
  let word := mergeWord (heldWord s a) o len v
  if holdingScope a then writeHoldingWord a word s else writeOtherWord a word s

end Sys2Proof.Machine
end

