-- ==== Sys2Proof/Machine/Entries.lean ====
section
/-!
DEFINITION. Statuses, completion entries, descriptors whose work continues, and orders on their way (13 R276, R281 to
R286, R289).
-/
namespace Sys2Proof.Machine

open Sys2Proof

/-! ### Status codes (13 R286) -/

def stOk : Nat := 0x00
def stSkipped : Nat := 0x01
def stDiscarded : Nat := 0x02
def stStateConflict : Nat := 0x03
def stMalformed : Nat := 0x04
def stTimeout : Nat := 0x05
def stMemberLost : Nat := 0x06
def stCollMismatch : Nat := 0x07
def stNanTrap : Nat := 0x08
def stConflictLost : Nat := 0x09
def stReplayedOk : Nat := 0x0A
def stDeadlineReused : Nat := 0x0B
def stWarmStartRejected : Nat := 0x0C
def stNotPermitted : Nat := 0x0D
def stRetryVoted : Nat := 0x0E

/-- The error statuses of 13 R282. -/
def isError (st : Nat) : Bool :=
  st == stStateConflict || st == stMalformed || st == stTimeout || st == stConflictLost || st == stNotPermitted

/-- What the execution of a descriptor comes to: completed with a status and DETAIL, or its work continues. -/
inductive Result
  | done (status detail : Nat)
  | later (kind : JobKind)
  /-- a host read of the descriptor's own is in flight (13 R278) -/
  | reading
  deriving DecidableEq, Repr

/-- Opcode codes of 13 R277. -/
def opCode : DescOp → Nat
  | .graphSubmit => 0x01 | .graphRetire => 0x02 | .tensorDefine => 0x03 | .tensorRelease => 0x04
  | .furrowAdvance => 0x05 | .runBegin => 0x06 | .groupDefine => 0x07 | .groupReform => 0x08 | .copyIn => 0x09
  | .copyOut => 0x0A | .exportConfigure => 0x0B | .snapshot => 0x0C | .stop => 0x0D | .resume => 0x0E
  | .modeSet => 0x0F | .rootSupply => 0x10 | .voteSupply => 0x11 | .placementPin => 0x12
  | .counterConfigure => 0x13 | .traceConfigure => 0x14 | .injectConfigure => 0x15 | .attest => 0x16
  | .fence => 0x17 | .unknown c => c.toNat

/-- The opcode of a byte. -/
def opOf (c : Byte) : DescOp :=
  match c.toNat with
  | 0x01 => .graphSubmit | 0x02 => .graphRetire | 0x03 => .tensorDefine | 0x04 => .tensorRelease
  | 0x05 => .furrowAdvance | 0x06 => .runBegin | 0x07 => .groupDefine | 0x08 => .groupReform | 0x09 => .copyIn
  | 0x0A => .copyOut | 0x0B => .exportConfigure | 0x0C => .snapshot | 0x0D => .stop | 0x0E => .resume
  | 0x0F => .modeSet | 0x10 => .rootSupply | 0x11 => .voteSupply | 0x12 => .placementPin
  | 0x13 => .counterConfigure | 0x14 => .traceConfigure | 0x15 => .injectConfigure | 0x16 => .attest
  | 0x17 => .fence | _ => .unknown c

/-! ### Descriptor fields -/

/-- The field of `len` bytes at descriptor byte `off` (16 to 63). -/
def dAt (d : Desc) (off len : Nat) : Nat := field d.body (off - 16) len

/-- Descriptor bytes off to 63 are 0. -/
def dZeroFrom (d : Desc) (off : Nat) : Bool := zeroAt d.body (off - 16) (64 - off)

/-- Descriptor bytes off to off + len - 1 are 0. -/
def dZeroIn (d : Desc) (off len : Nat) : Bool := zeroAt d.body (off - 16) len

/-- QUIET and URGENT (13 R276). -/
def dQuiet (d : Desc) : Bool := d.flags.getLsbD 0

def dUrgent (d : Desc) : Bool := d.flags.getLsbD 1

/-- The bytes host memory held at the address a descriptor names; none when the access failed. -/
def dBlock (d : Desc) : Option Bytes :=
  match d.data with
  | .ok b => some b
  | _ => none

/-- A descriptor as an order that goes to other modules; its host data goes with it. -/
def asOrder (op : DescOp) (d : Desc) (s : State) : FwdOrder :=
  ⟨s.holding.moduleId, s.holding.number.toNat, s.run.head, false, op, d⟩

/-- An accepted order sent to every module it acts on (13 R279, R289, 20 R411; log entry 15). -/
def spread (op : DescOp) (d : Desc) (s : State) : State := sendHedge everyone (.orderForward (asOrder op d s)) s

/-- The module ID of the run lead master as this module knows it (14 R316). -/
def leadId (s : State) : ModId :=
  if s.run.leadHolding = s.holding.number.toNat then s.holding.masterId else s.run.leadModule

/-! ### Entries -/

/-- The submission ring of a number. -/
def subRing (s : State) (r : Nat) : SubRing := tget {} s.host.sub r

def setSub (r : Nat) (f : SubRing → SubRing) (s : State) : State :=
  { s with host.sub := tmod {} s.host.sub r f }

def complRing (s : State) (c : Nat) : ComplRing := tget {} s.host.compl c

def setCompl (c : Nat) (f : ComplRing → ComplRing) (s : State) : State :=
  { s with host.compl := tmod {} s.host.compl c f }

/-- DATA of a class-1 trace entry (17 R368). -/
def descData (op : DescOp) (d : Desc) (status : Nat) : Nat := pack [(16, d.tag.toNat), (8, status), (8, opCode op)]

/-- A COPY_OUT or a SNAPSHOT to a host sink that is OK may still meet a completion timeout: the access that names it
(13 R278). -/
def accessFor (op : DescOp) (d : Desc) (status : Nat) (s : State) : Option (Nat × Nat) × State :=
  if status == stOk && (op == .copyOut || (op == .snapshot && bitOf (dAt d 24 1) 0)) then
    (some (s.host.nextAccess, d.ring), { s with host.nextAccess := s.host.nextAccess + 1 })
  else (none, s)

/-- A descriptor completed: its entry waits for the completion ring, unless it is QUIET and stays OK. -/
def completeWith (op : DescOp) (d : Desc) (status detail : Nat) (halted late : Bool) (s : State) : State :=
  let (access, s) := accessFor op d status s
  if dQuiet d && status == stOk && access.isNone then s
  else
    let e : Entry :=
      { tag := d.tag, status := status, halted := halted, report := false, detail := detail, urgent := dUrgent d,
        position := none, ring := if late then some d.ring else none, access := access, quiet := dQuiet d }
    setCompl (subRing s d.ring).completionRing.toNat (fun c => { c with waiting := c.waiting ++ [e] }) s

/-- A descriptor completed at its execution: an error halts a HALT_ON_ERROR ring before its next descriptor
(13 R282). -/
def completeNow (op : DescOp) (d : Desc) (status detail : Nat) (s : State) : State :=
  let halt := isError status && (subRing s d.ring).haltOnError
  let s := if halt then setSub d.ring (fun r => { r with state := 2 }) s else s
  trace 1 1 false 0 (BitVec.allOnes 32) (descData op d status) (completeWith op d status detail halt false s)

/-- A ring whose ENABLE was written 0 reads STATE 0 once nothing of it is in flight (13 R283). -/
def settleRing (r : SubRing) : SubRing :=
  if r.draining && r.inFlight == 0 then { r with draining := false, state := 0 } else r

/-- A descriptor completed after its execution: an error halts its ring when the entry is posted (13 R282). -/
def completeLater (op : DescOp) (d : Desc) (status detail : Nat) (s : State) : State :=
  let halt := isError status && (subRing s d.ring).haltOnError
  let s := setSub d.ring (fun r => settleRing { r with inFlight := r.inFlight - 1 }) s
  trace 1 1 false 0 (BitVec.allOnes 32) (descData op d status) (completeWith op d status detail halt true s)

/-- Agreement kind 0: the result of an order sent to another module (log entry 15). -/
def agreeResult : Nat := 0

/-- What names a descriptor in a result on its way back: TAG and ring. -/
def resultIdent (d : Desc) : W64 := BitVec.ofNat 64 (pack [(16, d.tag.toNat), (16, d.ring)])

def resultWord (status detail : Nat) : W64 := BitVec.ofNat 64 (pack [(8, status), (32, detail)])

/-- The result of an order returned to the module that sent it. -/
def sendResult (m : ModId) (d : Desc) (status detail : Nat) (s : State) : State :=
  sendHedge m (.agreement agreeResult (resultIdent d) (resultWord status detail)) s

/-- Work that continues: a descriptor's of this module, or an order's of another. -/
def startJob (reply : Option ModId) (op : DescOp) (d : Desc) (k : JobKind) (s : State) : State :=
  let s := { s with run.jobs := s.run.jobs ++ [⟨d, op, k, reply, s.clock.up⟩] }
  if reply.isSome then s else setSub d.ring (fun r => { r with inFlight := r.inFlight + 1 }) s

/-- Every continuing job that satisfies `p` completes. -/
def finishJobs (p : Job → Bool) (status detail : Nat) (s : State) : State :=
  let ready := s.run.jobs.filter p
  let s := { s with run.jobs := s.run.jobs.filter fun j => !p j }
  ready.foldl (fun s j => match j.reply with
    | some m => sendResult m j.d status detail s
    | none => completeLater j.op j.d status detail s) s

/-- The result of an execution recorded. -/
def record (op : DescOp) (d : Desc) (x : State × Result) : State :=
  match x.2 with
  | .done st dt => completeNow op d st dt x.1
  | .later k => startJob none op d k x.1
  | .reading => setSub d.ring (fun r => { r with inFlight := r.inFlight + 1 }) x.1

/-- The result of an order's execution for another module: returned, or its work continues. -/
def recordFor (m : ModId) (op : DescOp) (d : Desc) (x : State × Result) : State :=
  match x.2 with
  | .done st dt => sendResult m d st dt x.1
  | .later k => startJob (some m) op d k x.1
  | .reading => x.1

/-- A descriptor refused with a status, no side effect. -/
def refuse (status : Nat) (s : State) : State × Result := (s, .done status 0)

def accept (detail : Nat) (s : State) : State × Result := (s, .done stOk detail)

/-! ### Checks common to every opcode (13 R276, R282 check 1) -/

/-- The header breaks 13 R276 or 02 R25. -/
def headerBad (d : Desc) : Bool :=
  (d.flags >>> 2 != 0) || d.tag == 0xFFFF || posMalformed d.gate

/-- A parameter block as an opcode of 13 R280 finds it: the block, or the status of the failed check. -/
def paramBlock (d : Desc) : Except Nat Bytes :=
  if dAt d 16 8 % 64 ≠ 0 ∨ 65536 < d.count.toNat ∨ dZeroFrom d 34 = false then .error stMalformed
  else
    match d.data with
    | .ok b => .ok (padTo d.count.toNat b)
    | .timeout => .error stTimeout
    | _ => .error stMalformed

/-- MODULE of a parameter-block descriptor: every module of the holding, or one member of it. -/
def paramTarget (s : State) (d : Desc) : Option (List ModId) :=
  let m : ModId := BitVec.ofNat 16 (dAt d 32 2)
  if m = everyone then some (members s.holding)
  else if inHolding s.holding m then some [m] else none

/-- This module is a target of a parameter-block descriptor. -/
def targetsMe (s : State) (d : Desc) : Bool :=
  let m : ModId := BitVec.ofNat 16 (dAt d 32 2)
  m == everyone || m == s.holding.moduleId

/-- RESULT of a parameter-block descriptor written. -/
def writeResult (d : Desc) (bs : Bytes) (s : State) : State :=
  if dAt d 24 8 = 0 then s else hostWrite (dAt d 24 8) bs false s

end Sys2Proof.Machine
end

