-- ==== Sys2Proof/Machine/Ports.lean ====
section
/-!
DEFINITION. The width and state of the Lamio ports (14 R296, R314).
-/
namespace Sys2Proof.Machine

open Sys2Proof

/-- Lanes of a mask. -/
def lanes (m : W16) : Nat := ((List.range 16).filter fun i => m.getLsbD i).length

/-- The width a port runs at with the surviving lanes; 0 is down (14 R296). -/
def widthOf (m : W16) : Nat :=
  let n := lanes m
  if n = 16 then 16 else if 8 ≤ n then 8 else if 4 ≤ n then 4 else 0

/-- DETAIL of LINK_DEGRADED and LINK_DOWN; bit 16 marks a link held down between holdings (14 R296, R314). -/
def linkDetail (p : Nat) (width : Nat) (heldDown : Bool) (m : W16) : Nat :=
  pack [(3, p), (5, 0), (8, width), (1, b2n heldDown), (15, 0), (16, m.toNat)]

def port (s : State) (p : Nat) : Port := tget {} s.lamio.ports p

def setPort (p : Nat) (f : Port → Port) (s : State) : State :=
  { s with lamio.ports := tmod {} s.lamio.ports p f }

/-- The port carries traffic. -/
def portUp (s : State) (p : Nat) : Bool := (port s p).width != 0 && !(port s p).heldDown

/-- PORTS_UP: the ports that are trained (19 R402). -/
def notePorts (s : State) : State :=
  { s with startup.portsUp :=
      BitVec.ofNat 8 (((List.range 8).filter fun p => (port s p).width != 0).foldl (fun a p => a + 2 ^ p) 0) }

/-- A port taken down, with LINK_DOWN when it was up. -/
def takeDown (p : Nat) (m : W16) (s : State) : State :=
  let wasUp := (port s p).width != 0
  let s := notePorts (setPort p (fun q => { q with width := 0, mask := m, retraining := false, triedAt := s.clock.up }) s)
  if wasUp then raise evLinkDown (linkDetail p 0 false m) s else s

/-- A port at the width its lanes give: LINK_DEGRADED when the width changed or the port returns, LINK_DOWN when it went
down (14 R296). -/
def trainWidth (p : Nat) (m : W16) (s : State) : State :=
  let old := (port s p).width
  let new := widthOf m
  if new = 0 then takeDown p m s
  else
    let s := notePorts (setPort p (fun q =>
      { q with width := new, mask := m, retraining := false, data := { q.data with retries := 0 },
               hedge := { q.hedge with retries := 0 } }) s)
    if new = old then s else raise evLinkDegraded (linkDetail p new false m) s

/-- A link whose far end belongs to another holding and does not match is held down, with LINK_DOWN and bit 16 (14 R314);
any other link is released. -/
def holdLink (p : Nat) (farOk : Bool) (s : State) : State :=
  if farOk then setPort p (fun q => { q with heldDown := false }) s
  else if (port s p).heldDown then s
  else
    let s := setPort p (fun q => { q with heldDown := true }) s
    raise evLinkDown (linkDetail p (port s p).width true (port s p).mask) s

/-- A port trained: its width, and whether 14 R314 holds it down. -/
def trainPort (p : Nat) (m : W16) (farOk : Bool) (s : State) : State := holdLink p farOk (trainWidth p m s)

end Sys2Proof.Machine
end

