-- ==== Sys2Proof/Machine/Reset.lean ====
section
/-!
DEFINITION. The reset levels (13 R290, 19 R404, R405, 20 R413) and the measurement registers (18 R383).
-/
namespace Sys2Proof.Machine

open Sys2Proof

/-- Function-level reset: host-interface state alone (13 R290). Executed descriptors run on without entries, so their
jobs and accesses are forgotten, and a copy in flight on the link with them; waiting events are dropped and counted; host samples are suspended (17 R373). -/
def functionLevel (s : State) : State :=
  let n := s.host.evWaiting.length
  { s with
    host := { ({} : HostIf) with
      ctx := { ({} : HostCtx) with eventLost := BitVec.ofNat 32 (satTo (2 ^ 32 - 1) n) }
      evLostFlag := n != 0
      safeHold := s.host.safeHold
      liveness := s.host.liveness
      liveAt := s.host.liveAt
      liveSeen := s.host.liveSeen
      nextAccess := s.host.nextAccess }
    run.jobs := s.run.jobs.filter fun j => j.reply.isSome
    run.held := s.run.held.filter fun h => h.order.mgmt || h.order.source != s.holding.moduleId
    mem.awaited := s.mem.awaited.map fun c => if c.source = s.holding.moduleId then { c with aborted := true } else c
    counters.suspended := s.counters.suspended || (s.counters.cfg.enable && s.counters.cfg.host)
    holding.restore := if s.holding.restore = 2 && s.exporter.cfg.sinkHost then 5 else s.holding.restore }

/-- A nonce that is not used is withdrawn (20 R413). -/
def withdrawNonce (c : Security) : Security := { c with nonce := 0, nonceIssued := false, nonceAt := none, nonceBefore := none }

/-- The moves that a holding reset leaves owed: those of pins, whose marks the directory keeps, and of retired frames (11 R230,
R237). -/
def keptMoves (s : State) : List Selected :=
  s.mem.selected.filter (fun x => x.cause == 1 || x.cause == 4) ++
    s.mem.pages.filterMap fun e =>
      if (e.2.state = 1 ∨ e.2.state = 2) ∧ (e.2.cause = 1 ∨ e.2.cause = 4) then some ⟨e.1, e.2.otherFar, e.2.cause⟩ else none

/-- Holding reset of this module (19 R404, 20 R413): the run, the tally and reserved area, graphs, tensors and groups are
lost; boot, security, counters, retirements, links and the holding configuration are kept. -/
def holdingLevel (s : State) : State :=
  { s with
    security := withdrawNonce s.security
    host := {}
    run := {}
    votes := {}
    graph := {}
    sched := { ({} : Sched) with
      retiredCores := s.sched.retiredCores
      retiredHarrows := s.sched.retiredHarrows
      retiredGleaners := s.sched.retiredGleaners
      retiredRollers := s.sched.retiredRollers
      suspects := s.sched.suspects
      halted := s.sched.halted }
    mem := { s.mem with
      base := s.mem.base.filter fun c => decide (c.1 < reservedBase s)
      layers := []
      cfg := {}
      staged := none
      reservedSize := 96
      reservedNow := 96
      pages := s.mem.pages.foldl (fun t e => tset {} t e.1 (settled e.2)) s.mem.pages
      hopper := []
      oldHomes := []
      fresh := []
      folds := []
      selected := keptMoves s
      budget := 0
      oldBase := none
      awaited := [] }
    numerics := { ({} : Numerics) with trap := s.numerics.trap }
    harrows := {}
    coll := {}
    tmo := {}
    tmoNext := none
    counters := { ({} : Counters) with values := s.counters.values }
    sheaf := {}
    stones := {}
    exporter := {}
    fallow := []
    lamio := { s.lamio with reorder := [], txns := [], readsHeld := [], answers := [] }
    holding := { s.holding with
      specDepth := 1
      voteReport := 0
      timeRate := 0
      setupLock := false
      resetting := true
      beats := []
      lost := []
      isolated := false
      restore := 0
      restoreHost := false
      restoreTarget := 0
      restoring := []
      restored := []
      restoreUpTo := 0 }
    clock := { s.clock with now := 0, frac := 0, offset := 0, slewTick := 0 }
    vec := [] }

/-- Frames usable in a region: those the retirement list in flash does not name (11 R220). -/
def usableFrames (f : Flash) (region : Nat) : Nat :=
  57344 - (f.retired.filter fun r => r.2.1 == region).length

/-- CAPACITY as module reset sets it (11 R220). -/
def capacityOf (f : Flash) : Nat :=
  32 * ((List.range 32).map (usableFrames f)).foldl min 57344 * pageBytes

/-- The security state after a reset: a pending transition takes effect, register 2 is extended with the old and new
states, and the change is reported at ready (18 R381). -/
def securityAfterReset (c : Security) : Security :=
  let fresh : Security := { ({} : Security) with state := c.state, nonceCount := c.nonceCount }
  if c.pending = 3 then fresh
  else { fresh with
    state := c.pending
    changedFrom := some c.state
    meas := fresh.meas.set 2 (digestBits (sha256 (List.replicate 32 0 ++
      padTo 32 [BitVec.ofNat 8 c.state, BitVec.ofNat 8 c.pending]))) }

/-- Module reset: everything volatile; the flash, the pins and the supplies are kept, and the trip record is cleared
(19 R404, 20 R426). Start-up begins again at phase 0. -/
def moduleLevel (s : State) : State :=
  let r := State.reset
  { r with
    flash := s.flash
    security := securityAfterReset s.security
    startup := { r.startup with startedAt := s.clock.up }
    power := { r.power with
      volts := s.power.volts
      amps := s.power.amps
      aux := s.power.aux
      pwrEn := s.power.pwrEn
      pwrGood := s.power.pwrGood
      offByMgmt := s.power.offByMgmt
      tripLow := s.power.tripLow
      pwrEnLowAt := s.power.pwrEnLowAt
      masterSel := s.power.masterSel
      linkUp := s.power.linkUp
      perst := s.power.perst
      inputLow := s.power.inputLow
      capW := s.flash.record.powerLimit
      dieThrottle := s.flash.record.dieThrottle
      hbmThrottle := s.flash.record.hbmThrottle
      alert := s.power.alert }
    mem := { r.mem with capacity := capacityOf s.flash }
    clock := { r.clock with up := s.clock.up }
    out := s.out
    pending := s.pending }

/-- Cold loss: as module reset, and the PCIe link; PWR_GOOD is deasserted, and the management controller keeps its trip
record while AUX_3V3 is present (19 R392, R404, 20 R426). -/
def coldLoss (s : State) : State :=
  let t := moduleLevel s
  { t with
    power.pwrGood := false
    power.linkUp := false
    power.tripSensor := if s.power.aux then s.power.tripSensor else none
    power.inputLow := false }

/-- The causes of ALERT_N (19 R406). -/
def alertCause (s : State) : Bool :=
  !s.power.nearSensors.isEmpty || s.power.tripLow || s.power.inputLow || s.startup.failed || s.startup.recovery

/-- ALERT_N asserted while a cause holds; it stays asserted until the status has been read. -/
def withAlert (s : State) : State := { s with power.alert := s.power.alert || alertCause s }

end Sys2Proof.Machine
end

