-- ==== Sys2Proof/Machine/Boot.lean ====
section
/-!
DEFINITION. Start-up (18 R374 to R379, 19 R401 to R403), the factory service (18 R380), and the security mailbox (18 R381,
20 R425).
-/
namespace Sys2Proof.Machine

open Sys2Proof

/-! ### Images and signatures -/

/-- A signature verifies (log entry 10). -/
def verifies (f : Flash) (key msg sig : Bytes) : Bool := f.sigs.contains ⟨key, msg, sig⟩

/-- The digests of an image, of the factory record and of the management firmware (18 R383). -/
def imageDigest (i : FirmwareImage) : Bytes := sha256 (imageMessage i ++ i.sig)

def recordDigest (r : FactoryRecord) : Bytes := sha256 (recordMessage r ++ r.sig)

def mgmtDigest (f : Flash) : Bytes := sha256 (leBytes 4 f.mgmtSvn.toNat ++ f.mgmtImage)

/-- The image's key is the one the mask ROM accepts. -/
def keyAccepted (f : Flash) (i : FirmwareImage) : Bool := i.pubKey == f.rootKey

def imageSigned (f : Flash) (i : FirmwareImage) : Bool := keyAccepted f i && verifies f i.pubKey (imageMessage i) i.sig

/-- Rollback counter `i` (18 R378). -/
def rollback (f : Flash) (i : Nat) : W32 := (f.replay.getD i {}).counter

/-- The slot would be accepted: signature good and SVN not below counter 0 (18 R375, R379). -/
def slotAccepted (f : Flash) (n : Nat) : Bool :=
  match f.slots[n]? with
  | none => false
  | some i => imageSigned f i && decide ((rollback f 0).toNat ≤ i.svn.toNat)

/-- The SVN of a slot refused for its SVN alone. -/
def refusedForSvn (f : Flash) (n : Nat) : Option W32 :=
  match f.slots[n]? with
  | none => none
  | some i => if imageSigned f i && decide (i.svn.toNat < (rollback f 0).toNat) then some i.svn else none

/-- Cores a factory record enables. -/
def recordCores (r : FactoryRecord) : Nat := ((List.range 4096).filter fun i => r.coreMap.getLsbD i).length

/-- The factory record is accepted: signed by the root key, not below counter 1, at least 4,032 cores (18 R376, R379). -/
def recordAccepted (f : Flash) (r : FactoryRecord) : Bool :=
  r.pubKey == f.rootKey && verifies f r.pubKey (recordMessage r) r.sig && decide ((rollback f 1).toNat ≤ r.version.toNat) &&
    decide (4032 ≤ recordCores r)

/-- The management firmware runs: not below counter 2 (18 R379). -/
def mgmtRuns (f : Flash) : Bool := decide ((rollback f 2).toNat ≤ f.mgmtSvn.toNat)

/-! ### The phases (19 R401) -/

/-- Boot recovery with an error (18 R375). -/
def recover (error : Nat) (s : State) : State :=
  withAlert { s with
    security.bootError := error
    startup.recovery := true
    startup.elapsed := some ((s.clock.up - s.startup.startedAt) / 1000000) }

/-- The start-up may take the action of a phase. -/
def inPhase (s : State) (n : Nat) : Bool :=
  s.power.pwrGood && s.startup.phase == n && !s.startup.failed && !s.startup.recovery && !s.startup.ready

/-- Phase 0: BOOT_SEL is sampled, and the root key of the slots checked (18 R375, 19 R389). -/
def bootRom (bootSel : Bool) (s : State) : State :=
  if inPhase s 0 && !s.startup.romDone then
    let s := { s with
      startup.startedAt := s.clock.up
      startup.firstSlot := b2n bootSel
      startup.romDone := true }
    if s.flash.slots.any (keyAccepted s.flash) then { s with startup.phase := 1 } else recover 1 s
  else s

/-- Phase 1: the slots in their order, the factory record, the replay-protected area, the measurements of registers 0 to 2
(18 R375, R376, R378, R379, R383). -/
def firmwareVerify (s : State) : State :=
  if inPhase s 1 then
    let f := s.flash
    let first := s.startup.firstSlot
    let other := 1 - first
    if f.replay.any fun e => !e.tagOk then recover 5 s
    else
      let chosen := if slotAccepted f first then some first else if slotAccepted f other then some other else none
      match chosen with
      | none => recover 2 { s with security.otherRefused := true }
      | some n =>
        let refused := n != first
        let s := { s with
          security.slot := n
          security.otherRefused := refused
          security.refusedSvn := if refused then refusedForSvn f first else none
          security.fwSvn := ((f.slots[n]?).map (·.svn)).getD 0 }
        let s := extendMeas 0 (mgmtDigest f)
          (extendMeas 0 (((f.slots[n]?).map imageDigest).getD []) s)
        if !recordAccepted f f.record then recover 3 s
        else
          let s := extendMeas 2 (padTo 32 [BitVec.ofNat 8 s.security.state]) (extendMeas 1 (recordDigest f.record) s)
          { s with
            power.capW := f.record.powerLimit
            power.dieThrottle := f.record.dieThrottle
            power.hbmThrottle := f.record.hbmThrottle
            startup.phase := 2 }
  else s

/-- Phase 2: the PUF seed and the identity key (18 R376, R377). -/
def pufRegenerate (correctable : Bool) (s : State) : State :=
  if inPhase s 2 then
    if !correctable then recover 4 s
    else if s.flash.record.identityKey != s.flash.dieKey then recover 6 s
    else { s with security.identityValid := true, startup.phase := 3 }
  else s

/-- Phases 3 and 4: training of a memory tier; the lowest region that failed is reported. -/
def memoryTraining (phase : Nat) (failed : List Nat) (s : State) : State :=
  if inPhase s phase then
    match failed with
    | [] => { s with startup.phase := phase + 1 }
    | r :: rest =>
      withAlert { s with
        startup.failed := true
        startup.failedUnit := rest.foldl min r
        startup.elapsed := some ((s.clock.up - s.startup.startedAt) / 1000000) }
  else s

/-- Phase 5: a failing unit is retired; start-up continues (15 R326, 08 R170). -/
def selfTestAll (cores harrows gleaners rollers : List Nat) (s : State) : State :=
  if inPhase s 5 then
    let cores := cores.filter (coreEnabled s)
    let harrows := harrows.filter (harrowEnabled s)
    { s with
      sched.retiredCores := s.sched.retiredCores ++ cores
      sched.retiredHarrows := s.sched.retiredHarrows ++ harrows
      sched.retiredGleaners := s.sched.retiredGleaners ++ gleaners
      sched.retiredRollers := s.sched.retiredRollers ++ rollers
      startup.bistCores := cores
      startup.bistHarrows := harrows
      startup.bistGleaners := gleaners
      startup.bistRollers := rollers
      startup.phase := 6 }
  else s

/-- DETAIL of CORE_RETIRED: kind 0 core, 1 gleaner, 2 roller (15 R326). -/
def coreRetiredDetail (unit kind cause : Nat) (task : W32) : Nat :=
  pack [(12, unit), (4, kind), (8, cause), (8, 0), (32, task.toNat)]

/-- DETAIL of HARROW_RETIRED (15 R326). -/
def harrowRetiredDetail (harrow cause : Nat) (record : W32) : Nat :=
  pack [(8, harrow), (8, cause), (16, 0), (32, record.toNat)]

/-- DETAIL of MODULE_READY (19 R403). -/
def readyDetail (s : State) : Nat :=
  pack [(16, s.startup.elapsed.getD 0), (8, s.startup.portsUp.toNat), (8, 0), (13, enabledCores s), (3, 0),
    (9, enabledHarrows s)]

/-- A rollback counter raised to the version booted, never lowered (18 R379). -/
def raiseCounter (i : Nat) (v : W32) (f : Flash) : Flash :=
  let e := f.replay.getD i {}
  if e.counter.toNat < v.toNat then { f with replay := f.replay.set i { e with counter := v, writes := e.writes + 1 } }
  else f

/-- The counters raised to what booted: firmware, factory record, management firmware. -/
def raiseCounters (s : State) : State :=
  { s with flash := raiseCounter 2 s.flash.mgmtSvn (raiseCounter 1 s.flash.record.version
      (raiseCounter 0 s.security.fwSvn s.flash)) }

/-- The events of 19 R403, 18 R379 and R381 at ready, in order. -/
def readyEvents (s : State) : State :=
  let none32 : W32 := BitVec.allOnes 32
  let s := raise evModuleReady (readyDetail s) s
  let s := (sortNat s.startup.bistCores).foldl (fun s c => raise evCoreRetired (coreRetiredDetail c 0 2 none32) s) s
  let s := (sortNat s.startup.bistGleaners).foldl (fun s c => raise evCoreRetired (coreRetiredDetail c 1 2 none32) s) s
  let s := (sortNat s.startup.bistRollers).foldl (fun s c => raise evCoreRetired (coreRetiredDetail c 2 5 none32) s) s
  let s := (sortNat s.startup.bistHarrows).foldl (fun s c => raise evHarrowRetired (harrowRetiredDetail c 2 none32) s) s
  let s := match s.security.refusedSvn with
    | some v => raise evRollbackRefused (pack [(32, v.toNat), (32, (rollback s.flash 0).toNat)]) s
    | none => s
  let s := match s.security.changedFrom with
    | some o => raise evAttestationStateChange (pack [(8, o), (8, s.security.state)]) s
    | none => s
  { s with security.changedFrom := none, security.refusedSvn := none }

/-- Phase 6 and ready: the ports train at the width of their surviving lanes, the counters are raised, then the events. -/
def lamioTraining (masks : List W16) (farOk : List Bool) (s : State) : State :=
  if inPhase s 6 then
    let s := (List.range 8).foldl (fun s p =>
      let m := masks.getD p 0
      setPort p (fun q => { q with width := widthOf m, mask := m, triedAt := s.clock.up }) s) s
    let s := notePorts s
    let s := { s with
      startup.elapsed := some ((s.clock.up - s.startup.startedAt) / 1000000)
      startup.phase := 7
      startup.ready := true }
    let s := readyEvents (raiseCounters s)
    (List.range 8).foldl (fun s p => if (port s p).width = 0 then s else holdLink p (farOk.getD p true) s) s
  else s

def execBootRom (bootSel : Bool) (s : State) : Answer := .next (bootRom bootSel s)

def execFirmwareVerify (s : State) : Answer := .next (firmwareVerify s)

def execPufRegenerate (correctable : Bool) (s : State) : Answer := .next (pufRegenerate correctable s)

def execHbmTraining (failed : List Nat) (s : State) : Answer := .next (memoryTraining 3 failed s)

def execLpddrTraining (failed : List Nat) (s : State) : Answer := .next (memoryTraining 4 failed s)

def execBuiltInSelfTest (cores harrows gleaners rollers : List Nat) (s : State) : Answer :=
  .next (selfTestAll cores harrows gleaners rollers s)

def execLamioTraining (laneMasks : List W16) (farOk : List Bool) (s : State) : Answer :=
  .next (lamioTraining laneMasks farOk s)

/-- The slot was refused at boot (18 R375). -/
def slotRefused (s : State) (n : Nat) : Bool :=
  let e := s.security.bootError
  e == 1 || e == 2 || e == 5 || (s.security.otherRefused && n != s.security.slot)

/-- In recovery, the management controller puts a new image into a refused slot; the next reset tries it (18 R375). Slot 2 is the
management firmware: a controller whose own image is refused takes a new one in its boot loader (R379). -/
def execRecoveryImageLoad (slot : Nat) (image : FirmwareImage) (s : State) : Answer :=
  .next (
    if slot = 2 then
      if s.power.aux && !mgmtRuns s.flash then { s with flash.mgmtSvn := image.svn, flash.mgmtImage := image.body } else s
    else if s.startup.recovery && s.power.aux && mgmtRuns s.flash && slotRefused s slot then
      { s with flash.slots := s.flash.slots.set slot image }
    else s)

/-- In the factory state, a slot or a Hexuk-signed factory record is written (18 R376, R380). -/
def execFactoryServiceWrite (item : ServiceItem) (s : State) : Answer :=
  .next (if s.security.state = 2 then
    match item with
    | .record r =>
      if r.pubKey == s.flash.rootKey && verifies s.flash r.pubKey (recordMessage r) r.sig then { s with flash.record := r } else s
    | .slot n image => { s with flash.slots := s.flash.slots.set n image }
  else s)

/-! ### The security mailbox (20 R425) -/

/-- A fresh nonce, withdrawing the previous one; its value is free (log entry 9). -/
def issueNonce (s : State) : State :=
  { s with
    security.nonce := Config.freshNonce s.security.nonceCount
    security.nonceIssued := true
    security.nonceAt := some s.clock.up
    security.nonceBefore := if s.security.nonceIssued then some s.security.nonce else none
    security.nonceCount := s.security.nonceCount + 1 }

/-- The message an authorisation signs: identity public key, target state, nonce (20 R425). -/
def authMessage (f : Flash) (target : Byte) (nonce : Bytes) : Bytes := f.dieKey ++ [target] ++ nonce

/-- The authorisation a transition needs (18 R381): none; the root key; the root key or the owner key. -/
def authGood (s : State) (target : Nat) (req : Bytes) : Bool :=
  let msg := authMessage s.flash (BitVec.ofNat 8 target) (slice req 8 32)
  let sig := slice req 64 29792
  let byRoot := verifies s.flash s.flash.rootKey msg sig
  let byOwner := s.flash.sigs.any fun g =>
    g.msg == msg && g.sig == sig && sha256 g.key == s.flash.record.ownerKeyHash
  if target = 0 then true
  else if target = 2 then byRoot
  else if target = 1 then
    if s.security.state = 0 then byRoot || (byOwner && s.flash.record.ownerKeyHash.any (· != 0)) else byRoot
  else false

/-- A nonce issued in the cycle of a request takes effect after it (20 R425): the request is judged by the nonce before. -/
def nonceNow (s : State) : Option (BitVec 256) :=
  if s.security.nonceAt = some s.clock.up then s.security.nonceBefore
  else if s.security.nonceIssued then some s.security.nonce else none

/-- The nonce a request uses up. -/
def useNonce (s : State) : State :=
  if s.security.nonceAt = some s.clock.up then { s with security.nonceBefore := none }
  else { s with security := withdrawNonce s.security }

/-- A security request submitted (18 R381, 20 R425): its nonce is used up; REQUEST_RESULT 1 accepted, 2 bad signature, 3
stale nonce. An accepted transition extends register 2 and waits for the next reset. -/
def securityRequest (req : Bytes) (s : State) : State :=
  let target := byteAt req 0
  let current := nonceNow s == some (digestBits (slice req 8 32))
  let s' := useNonce s
  if !current then { s' with security.result := 3 }
  else if target = s.security.state then { s' with security.result := 1, security.pending := 3 }
  else if authGood s target req then
    extendMeas 2 (sha256 (authMessage s.flash (BitVec.ofNat 8 target) (slice req 8 32)))
      { s' with security.result := 1, security.pending := target }
  else { s' with security.result := 2 }

/-- The request area of the mailbox, bytes 0 to 29,855. -/
def requestArea (s : State) : Bytes := tgetBytes s.security.area 0 29856

def execNonceRequest (s : State) : Answer := .next (if hostControls s then issueNonce s else s)

def execRequestGo (s : State) : Answer := .next (if hostControls s then securityRequest (requestArea s) s else s)

end Sys2Proof.Machine
end

