-- ==== Sys2Proof/Machine/Reserved.lean ====
section
/-!
DEFINITION. What the reserved area reads as (11 R221): the stop map, commit records, vote ring, graph directory, group
table, solve records, sheaf and local sample area, each at the offset its base register publishes (log entry 7).
-/
namespace Sys2Proof.Machine

open Sys2Proof

/-- The stop map, 256 bytes (02 R40). -/
def stopMapBytes (m : StopMap) : Bytes :=
  leBytes 64 (pack [(8, m.kind), (2, m.sourceKind), (10, m.sourceHolding), (12, 0), (32, m.aborted), (64, m.head.toNat),
    (64, m.target.toNat), (64, m.timestamp.toNat), (64, m.lastCommit.toNat), (64, m.seedbedHead.toNat)]) ++
  padTo 192 (m.streams.flatMap fun (p, t, a, sb) =>
    leBytes 32 (pack [(64, p.toNat), (32, t.toNat), (32, a), (1, b2n sb)]))

/-- Bits [63:0] of the stop map header, DETAIL of GLOBAL_STOP (13 R288). -/
def stopHeaderWord (m : StopMap) : Nat :=
  pack [(8, m.kind), (2, m.sourceKind), (10, m.sourceHolding), (12, 0), (32, m.aborted)]

/-- A vote record, 64 bytes (09 R179). -/
def voteRecordBytes (v : VoteMsg) (attempt : Nat) : Bytes :=
  leBytes 64 (pack [(64, v.step), (16, v.bits.toNat), (2, v.outcome), (1, b2n v.supplied), (1, b2n v.timedOut), (12, 0),
    (32, v.contributors), (128, leNat (padTo 16 (v.firstSetter.flatMap fun m => leBytes 2 m.toNat))),
    (64, v.timestamp.toNat), (64, attempt)])

/-- A commit record, 64 bytes (15 R322). -/
def commitRecordBytes (c : CommitRecord) : Bytes :=
  leBytes 64 (pack [(64, c.step), (32, c.entries), (32, c.flipped), (1, b2n c.foldDone), (1, b2n c.queuesDone),
    (1, b2n c.rootsDone), (1, b2n c.recordsDone), (1, b2n c.fingerprintDone), (1, b2n c.reported), (58, 0),
    (64, c.timestamp.toNat)])

/-- A graph-directory entry, 64 bytes (12 R244). -/
def dirEntryBytes (n : Nat) (e : DirEntry) : Bytes :=
  leBytes 64 (pack [(8, n), (3, e.state), (53, 0), (64, e.firstStep), (64, e.lastStep),
    (32, (e.segment.map fun g => g.bytes.length).getD 0), (32, 0), (256, e.digest.toNat)])

/-- A group-table entry, 64 bytes (20 R421). -/
def groupEntryBytes (g : Group) : Bytes :=
  padTo 48 g.def48 ++ leBytes 2 g.epoch ++ [0, 0] ++ leBytes 4 g.seqAtCommit ++ List.replicate 8 0

/-- A solve record, 64 bytes (07 R146). -/
def solveRecordBytes (r : SolveRecord) : Bytes :=
  leBytes 64 (pack [(4, r.status), (3, r.outcome), (1, b2n r.warmRejected), (1, b2n r.carried), (1, b2n r.fallback),
    (6, 0), (8, r.age), (8, satTo 255 r.lag), (16, r.iterations), (8, r.harrowCount), (8, r.harrowFirst),
    (64, r.statStep), (64, r.deadline.toNat), (64, r.residual.toNat), (32, r.boundary),
    (32, satTo (2 ^ 32 - 1) r.skippedBusy), (64, r.timestamp.toNat)])

/-- A trace entry, 32 bytes (17 R367). -/
def traceBytes (e : TraceEntry) : Bytes :=
  leBytes 32 (pack [(64, e.timestamp.toNat), (64, e.position.toNat), (4, e.source), (8, e.type), (1, b2n e.seedbed),
    (3, 0), (12, e.unit), (4, 0), (32, e.task.toNat), (64, e.data.toNat)])

/-- The part of `len`-byte records that holds offset `o` of a table, record `f i`. -/
def recordByte (len o : Nat) (f : Nat → Bytes) : Byte := (f (o / len)).getD (o % len) 0

/-- The gradient words of an entry of a fallow queue. -/
def fallowEntryByte (q : FallowQueue) (size o : Nat) : Option Byte :=
  (q.entries[o / size]?).bind fun e => (e.2.2[o % size / 4]?).map fun w => (leBytes 4 w.toNat).getD (o % 4) 0

/-- Local offset of export staging. -/
def stagingAt (s : State) : Nat := sheafAt s + 128 * 2 ^ 20

/-- Local offset of the fallow queues, after the least of export staging. -/
def fallowAt (s : State) : Nat := stagingAt s + 8 * gib

/-- The queue, its slot size and the offset in it that offset `o` of the queues falls into. -/
def fallowPlace : List (Nat × Nat × Nat) → Nat → Option (Nat × Nat × Nat × Nat)
  | [], _ => none
  | (master, delay, size) :: rest, o =>
    if o < delay * size then some (master, delay, size, o) else fallowPlace rest (o - delay * size)

/-- The range lies in the storage of one fallow queue. -/
def fallowRange (s : State) (off len : Nat) : Bool :=
  decide (fallowAt s ≤ off) && match fallowPlace (fallowSlots s) (off - fallowAt s) with
    | some (_, delay, size, o) => decide (o + len ≤ delay * size)
    | none => false

/-- A byte of the fallow queues; nothing is known of a place that holds no entry but what was written there last. -/
def fallowByte (s : State) (a : Nat) : Byte :=
  ((fallowPlace (fallowSlots s) (a - fallowAt s)).bind fun x =>
    (s.fallow.find? fun q => q.master == x.1).bind fun q => fallowEntryByte q x.2.2.1 x.2.2.2).getD (tget 0 s.mem.base a)

/-- Export staging lies before the fallow queues, and goes on after them (R222): the offset in it, if the address is in it. -/
def stagingPlace (s : State) (a : Nat) : Option Nat :=
  if stagingAt s ≤ a ∧ a < fallowAt s then some (a - stagingAt s)
  else if fallowAt s + queueBytes s ≤ a then some (8 * gib + (a - fallowAt s - queueBytes s))
  else none

/-- Size of export staging (16 R353): the least of it, and what the fallow queues leave of the remainder. -/
def stagingSize (s : State) : Nat := s.mem.reservedNow.toNat * gib - (3 * gib + 128 * 2 ^ 20) - queueBytes s

/-- The byte at an offset of the staging ring, of `size` bytes, if a record it holds covers it (16 R352). -/
def stagedByte (size : Nat) (rs : List RetainedRecord) (o : Nat) : Option Byte :=
  rs.findSome? fun r => r.bytes[(o + size - r.place % size) % size]?

/-- The task completions the tally holds: step, task ID and status. -/
def completions (s : State) : List (Nat × Nat × Nat) :=
  (s.sched.tasks.filter fun t => t.phase == .published).map fun t => (t.step, t.task.toNat, t.status)

/-- The fold journal slots that are valid: step and chunk. -/
def journals (s : State) : List (Nat × Nat) := s.mem.folds.filterMap fun j => j.slot.map fun x => (j.step, x.1)

/-- A byte of the reserved area at offset `a` of the local address space. -/
def reservedByte (s : State) (a : Nat) : Byte :=
  let o := a - reservedBase s
  if o < 0x100 then (s.run.stopMap.map fun m => (stopMapBytes m).getD o 0).getD 0
  else if 0x10000 ≤ o ∧ o < 0x14000 then
    recordByte 64 (o - 0x10000) fun i =>
      ((s.votes.commits.find? fun c => c.step % 256 == i).map commitRecordBytes).getD []
  else if 0x20000 ≤ o ∧ o < 0x24000 then
    recordByte 64 (o - 0x20000) fun i =>
      ((s.votes.ring.find? fun v => v.1 % 256 == i).map fun v => voteRecordBytes v.2.1 v.2.2).getD []
  else if 0x30000 ≤ o ∧ o < 0x34000 then
    recordByte 64 (o - 0x30000) fun i =>
      let e := tget {} s.graph.dir i
      if e.state = 0 ∧ e.lastStep = 0 then [] else dirEntryBytes i e
  else if 0x40000 ≤ o ∧ o < 0x80000 then
    recordByte 64 (o - 0x40000) fun i =>
      (((s.coll.groups.filterMap (·.2))[i]?).map groupEntryBytes).getD []
  else if 0x80000 ≤ o ∧ o < 0x10000000 then Config.tallyByte (completions s) (journals s) o
  else if 0x10000000 ≤ o ∧ o < 2 * gib then
    recordByte 64 (o - 0x10000000) fun i =>
      ((s.harrows.blocks.find? fun b => b.slot == i).map fun b => solveRecordBytes b.record).getD []
  else if 2 * gib ≤ o ∧ o < 3 * gib then
    Config.hopperDirByte (s.mem.hopper.map fun h => (h.step, h.page, h.far, h.frame)) (o - 2 * gib)
  else if sheafAt s ≤ a ∧ a < sheafTailAt s then
    recordByte 32 (a - sheafAt s) fun i => ((tget none s.sheaf.ring i).map traceBytes).getD []
  else if sheafTailAt s ≤ a ∧ a < sampleLocalAt s then
    recordByte 32 (a - sheafTailAt s) fun i => ((tget none s.sheaf.tail i).map traceBytes).getD []
  else if sampleLocalAt s ≤ a ∧ a < sampleLocalAt s + 63 * 2 ^ 20 then
    tget 0 s.counters.localArea (a - sampleLocalAt s)
  else if fallowAt s ≤ a ∧ a < fallowAt s + queueBytes s then fallowByte s a
  else ((stagingPlace s a).bind (stagedByte (stagingSize s) s.exporter.retained)).getD (tget 0 s.mem.base a)

/-- What a reader finds at local bytes, the reserved area included. -/
def localBytes (s : State) (r : Reader) (off len : Nat) : Bytes :=
  (List.range len).map fun i =>
    if touchesReserved s (off + i) 1 then reservedByte s (off + i) else readByte s.mem s.run.head r (off + i)

end Sys2Proof.Machine
end

