-- ==== Sys2Proof/Machine/Flags.lean ====
section
/-!
DEFINITION. The flags of the block: vote findings (09 R172, R173) and NaN events (04 R83 to R87).
-/
namespace Sys2Proof.Machine

open Sys2Proof

/-! ### Vote bits (09 R172) -/

def vbLoss : Nat := 0
def vbGrad : Nat := 1
def vbUpdate : Nat := 2
def vbRoot : Nat := 3
def vbGradNorm : Nat := 4
def vbRatio : Nat := 5
def vbMemberLost : Nat := 8
def vbReplayFailed : Nat := 9

/-- The numeric bits and the operational bits of a vote word. -/
def numericBits (w : W16) : W16 := w &&& 0x00FF
def operationalBits (w : W16) : W16 := w &&& 0xFF00

/-- The word with a bit set. -/
def withBit (w : W16) (b : Nat) : W16 := w ||| BitVec.twoPow 16 b

/-- A finding of a step: into the word of the open step, or held for the vote of the step after it (09 R173, R191). -/
def finding (step bit : Nat) (s : State) : State :=
  match s.votes.openStep with
  | none => s
  | some n =>
    if step = n then { s with votes.word := withBit s.votes.word bit }
    else if step = n + 1 then { s with votes.heldWord := withBit s.votes.heldWord bit }
    else s

/-- Every bit of a word found in a step. -/
def findings (step : Nat) (w : W16) (s : State) : State :=
  (List.range 16).foldl (fun s b => if w.getLsbD b then finding step b s else s) s

/-- A member loss is found in the earliest step whose vote is open (09 R173). -/
def findMemberLost (s : State) : State :=
  match s.votes.openStep with
  | none => s
  | some n => finding n vbMemberLost s

/-- The decision of 09 R175: 0 COMMIT, 1 SKIP, 2 RETRY. -/
def decideOutcome (w : W16) : Nat :=
  if operationalBits w != 0 then 2 else if numericBits w != 0 then 1 else 0

/-! ### NaN events -/

/-- Causes and stages of 04 R87. -/
def causeNanOperand : Nat := 1
def causeInfMinusInf : Nat := 2
def causeZeroTimesInf : Nat := 3
def causeNonFinite : Nat := 4
def causeDomain : Nat := 5
def stageProduct : Nat := 0
def stageAccumulate : Nat := 1
def stageWide : Nat := 2
def stagePreload : Nat := 3
def stageWrite : Nat := 4
def stageVector : Nat := 5
def stageHarrow : Nat := 6
def stageReduction : Nat := 7

/-- One NaN event counted by cause and stage, and against the last trap record; recorded in the sheaf (class 8). -/
def countNan (seedbed : Bool) (task : W32) (e : NanEvent) (s : State) : State :=
  let s := countWork seedbed (0x2C8 + e.stage) 1 (countWork seedbed (0x2C0 + e.cause) 1 s)
  let s := trace 8 0 seedbed e.unit task e.outIndex s
  if s.numerics.trap.valid then
    { s with numerics.trap.since := BitVec.ofNat 32 (satTo (2 ^ 32 - 1) (s.numerics.trap.since.toNat + 1)) }
  else s

/-- What NaN events add to the counts of their task's instance, by cause and by stage (17 R361, R362). -/
def nanSlots (es : List NanEvent) : List (Nat × Nat) := es.flatMap fun e => [(0x2C0 + e.cause, 1), (0x2C8 + e.stage, 1)]

/-- The first of a task's NaN events: the lowest output element, and in it the first (R84). The rule speaks of one output view; over
several views the indices are compared as they are, and at equal indices the earlier view's event is first (DESIGN CHOICE, log entry
22). -/
def firstEvent : List NanEvent → Option NanEvent
  | [] => none
  | e :: t =>
    match firstEvent t with
    | none => some e
    | some f => if f.outIndex < e.outIndex then some f else some e

/-- Commit order: step, then gate, then task ID (04 R84). -/
def commitBefore (a b : Nat × Pos × W32) : Bool :=
  decide (a.1 < b.1) || (a.1 == b.1 &&
    (decide (a.2.1.toNat < b.2.1.toNat) || (a.2.1 == b.2.1 && decide (a.2.2.toNat < b.2.2.toNat))))

end Sys2Proof.Machine
end

