-- ==== Sys2Proof/Machine/Tasks.lean ====
section
/-!
DEFINITION. Task runs as the scheduler, the furrow and the vote look at them (02 R26, 12 R258 to R261).
-/
namespace Sys2Proof.Machine

open Sys2Proof

def streamF : Nat := 0
def streamB : Nat := 1
def streamU : Nat := 2
def streamS : Nat := 3
def streamE : Nat := 4
def streamX : Nat := 5

/-- A task run that has published, or been discarded or abandoned, is no longer incomplete. -/
def TaskInst.incomplete (t : TaskInst) : Bool :=
  t.phase == .created || t.phase == .admitted || t.phase == .computed

/-- A task run that has started. -/
def TaskInst.started (t : TaskInst) : Bool := t.phase == .computed

/-- It holds one of the 16,384 slots (12 R260). -/
def TaskInst.slotted (t : TaskInst) : Bool := t.phase == .admitted || t.phase == .computed

/-- Commit work: tasks of stream U gated at pass C (12 R252). -/
def TaskInst.commitWork (t : TaskInst) : Bool := t.stream == streamU && passOf t.gate == passC

/-- The segment a task run belongs to. -/
def segmentOf (s : State) (seg : Nat) : Option Segment := (tget {} s.graph.dir seg).segment

/-- The record of a task run. -/
def taskRecOf (s : State) (t : TaskInst) : Option TaskRec :=
  (segmentOf s t.seg).bind fun g => g.tasks[t.index]?

/-! ### Units (12 R251) -/

/-- The class of unit that runs a kind (R251): 0 cores, 1 gleaners, 2 harrows, 3 copy engines, 4 SHA-256 engines, 5 routers. -/
def unitClass (kind : Nat) : Nat :=
  if kind = 0x0F then 1 else if kind = 0x0E then 2 else if kind = 0x10 ∨ kind = 0x11 then 3
  else if kind = 0x12 then 4 else if kind = 0x0B then 5 else 0

/-- Kinds that publish by a rule of their own: collectives with their operation, SOLVE with its solves. -/
def ownEnd (kind : Nat) : Bool := kind == 0x0B || kind == 0x13 || kind == 0x0E

/-- The kind of a task run. -/
def kindOf (s : State) (t : TaskInst) : Nat := ((taskRecOf s t).map (·.kind)).getD 0

/-- A PRECONDITION_APPLY in its precise form, which runs on a harrow (07 R123, 08 R160). -/
def preciseApply (s : State) (t : TaskInst) : Bool :=
  match segmentOf s t.seg, taskRecOf s t with
  | some g, some r => r.kind == 0x0C && (g.updates[r.record]?).any (·.precise)
  | _, _ => false

/-- The class of unit a task run takes. -/
def unitOf (s : State) (t : TaskInst) : Nat := if preciseApply s t then 2 else unitClass (kindOf s t)

/-- A harrow works on a tile of a precise apply, which takes precedence over any solve (07 R123). -/
def harrowTaken (s : State) (h : Nat) : Bool :=
  s.sched.tasks.any fun t => t.started && preciseApply s t && t.unit == h && decide (t.done < t.tiles)

/-- Another harrow for a tile of one that failed. -/
def otherHarrow (s : State) (failed : Nat) : Nat :=
  (((List.range 256).map fun i => (Config.harrowChoice failed + i) % 256).find? fun h =>
    h != failed && harrowEnabled s h && !harrowTaken s h).getD failed

/-- The run of a task in a step. -/
def findTask (s : State) (step : Nat) (task : W32) : Option TaskInst :=
  s.sched.tasks.find? fun t => t.step == step && t.task == task

def sameRun (step : Nat) (task : W32) (t : TaskInst) : Bool := t.step == step && t.task == task

/-- The run of a task replaced by its image. -/
def setTask (step : Nat) (task : W32) (f : TaskInst → TaskInst) (s : State) : State :=
  { s with sched.tasks := mapFirst (sameRun step task) f s.sched.tasks }

/-- The step's tasks that satisfy `p` are all complete; the step's runs exist (12 R258). -/
def allDone (s : State) (step : Nat) (p : TaskInst → Bool) : Bool :=
  (match s.run.created with
   | some c => decide (step ≤ c)
   | none => false) &&
  s.sched.tasks.all fun t => !(t.step == step && p t && t.incomplete)

/-- The local U stream of a step is complete (01 R16, 09 R174): the head has entered pass U of the step, and every task of
streams F, B and U gated before its pass C is complete (log entry 23). -/
def localUDone (s : State) (step : Nat) : Bool :=
  (match s.votes.openStep with
   | some n => decide (step < n)
   | none => false) ||
  (decide ((posOf step passU 0).toNat ≤ s.run.head.toNat) &&
    allDone s step fun t => (t.stream == streamF || t.stream == streamB || t.stream == streamU) &&
      decide (t.gate.toNat < (posOf step passC 0).toNat))

/-- Every work of the local U stream of a step is over, the audit of working pages among it (08 R163, 09 R174). -/
def localUEnded (s : State) (step : Nat) : Bool :=
  match s.votes.openStep with
  | some n => decide (step < n) || (step == n && s.votes.contributed)
  | none => false

/-- The lowest of a list of positions. -/
def lowestPos (l : List Pos) : Option Pos :=
  l.foldl (fun m p => match m with
    | none => some p
    | some q => if p.toNat < q.toNat then some p else some q) none

/-- Commit work of a step stands as a task gated at (n, C) until step 5 of R13 has completed (02 R26). -/
def commitPending (s : State) (n : Nat) : Bool :=
  match s.run.finished with
  | some f => decide (f < n)
  | none => true

/-- The local front: the lowest gate of the incomplete tasks of streams F, B, U and E, and the commit work of the open
step; while neither holds the head back, (n + 1, F, 0) of the open step (02 R26). -/
def localFront (s : State) : Pos :=
  let tasks := (s.sched.tasks.filter fun t =>
    t.incomplete && (t.stream == streamF || t.stream == streamB || t.stream == streamU || t.stream == streamE)).map
      (·.gate)
  let n := stepOf s.run.head
  let commits := if commitPending s n then [posOf n passC 0] else [posOf (n + 1) passF 0]
  (lowestPos (tasks ++ commits)).getD s.run.head

/-- The seedbed front: the lowest gate of the incomplete F and B tasks of step n + 1 (12 R256). -/
def seedbedFront (s : State) : Pos :=
  let n := stepOf s.run.head
  let tasks := (s.sched.tasks.filter fun t =>
    t.incomplete && t.step == n + 1 && (t.stream == streamF || t.stream == streamB)).map (·.gate)
  (lowestPos tasks).getD (posOf (n + 1) passU 0)

/-- The task ID of the lowest incomplete task, 0xFFFF_FFFF where none is incomplete (02 R33). -/
def lowestTask (s : State) : W32 :=
  let front := localFront s
  ((s.sched.tasks.find? fun t => t.incomplete && t.gate == front).map (·.task)).getD (BitVec.allOnes 32)

/-- Attempt number of a step's present run: the times it has been run, from 1 (09 R179). -/
def attemptOf (s : State) (step : Nat) : Nat := tget 0 s.run.attempts step

/-- A run of the step that is not its present one is listed. -/
def earlierRun (s : State) (step : Nat) (l : List (Nat × Nat)) : Bool :=
  l.any fun x => x.1 == step && x.2 != attemptOf s step

/-- Kind of the agreement message by which a module tells the lead master that the run is not to resume of its own accord
(log entry 15). -/
def agreeHold : Nat := 6

/-- The run is not to resume without a RESUME: the lead master notes it, any other module tells it (10 R212, 11 R224,
15 R327). -/
def holdRun (again : Bool) (s : State) : State :=
  if !again then s
  else if s.isLead then { s with run.holdResume := true }
  else sendHedge (leadId s) (.agreement agreeHold 0 s.run.head) s

/-- An address error of a task: bit 9 of its step, and no resume of its own accord the second time (11 R224). -/
def addressError (step : Nat) (s : State) : State :=
  let again := earlierRun s step s.run.addressRetry
  holdRun again (finding step vbReplayFailed
    { s with run.addressRetry := addNew s.run.addressRetry (step, attemptOf s step) })

/-- The whole step number a 24-bit field names: the one nearest the head's step. -/
def fullStep (s : State) (low : Nat) : Nat :=
  let h := stepOf s.run.head
  let base := h / 2 ^ 24 * 2 ^ 24 + low % 2 ^ 24
  if base + 2 ^ 23 < h then base + 2 ^ 24 else if h + 2 ^ 23 < base then base - 2 ^ 24 else base

end Sys2Proof.Machine
end

