-- ==== Sys2Proof/Machine/Packets.lean ====
section
/-!
DEFINITION. Packets (14 R302, R303): their bytes, their routes (R299, R300), their order (R301), the stones on the
transmit side (15 R336, R337), and how a request is issued and answered.
-/
namespace Sys2Proof.Machine

open Sys2Proof

/-! ### Types -/

def ptReadReq : Nat := 0x01
def ptWrite : Nat := 0x02
def ptAtomicAdd64 : Nat := 0x04
def ptAtomicAdd32 : Nat := 0x05
def ptAtomicSwap64 : Nat := 0x06
def ptAtomicCas64 : Nat := 0x07
def ptAtomicOr64 : Nat := 0x08
def ptAtomicAnd64 : Nat := 0x09
def ptBulkReq : Nat := 0x0A
def ptReadResp : Nat := 0x10
def ptWriteAck : Nat := 0x11
def ptAtomicResp : Nat := 0x12
def ptBulkDone : Nat := 0x13
def ptCollData : Nat := 0x20
def ptBulkData : Nat := 0x30

/-- The virtual channel of a type. -/
def ptVc (t : Nat) : Nat := if t < 0x10 then 0 else if t < 0x20 then 1 else if t < 0x30 then 2 else 3

/-- A type code of 14 R303. -/
def ptKnown (t : Nat) : Bool :=
  [0x01, 0x02, 0x04, 0x05, 0x06, 0x07, 0x08, 0x09, 0x0A, 0x10, 0x11, 0x12, 0x13, 0x20, 0x30].contains t

/-- Response statuses of 14 R302. -/
def psOk : Nat := 0
def psAddressError : Nat := 1
def psRefused : Nat := 2
def psUnreachable : Nat := 3
def psNoData : Nat := 4

/-! ### Bytes -/

/-- The 16-byte header (14 R302). -/
def packetHeader (t : Nat) (p : Packet) : Nat :=
  pack [(6, t), (2, ptVc t), (1, b2n p.seedbed), (1, b2n p.poison), (1, b2n p.detour), (1, b2n p.context.isSome),
    (4, p.status), (16, p.dest.toNat), (16, p.source.toNat), (16, p.tag.toNat), (44, p.offset.toNat), (5, p.len8),
    (3, 0), (12, p.orderSeq)]

/-- The context word (14 R302). -/
def contextWord : Option (W32 × Nat × Nat) → Bytes
  | none => []
  | some (task, step, attempt) => leBytes 8 (pack [(32, task.toNat), (24, step), (8, attempt)])

def packetBytes (t : Nat) (p : Packet) : Bytes :=
  leBytes 16 (packetHeader t p) ++ contextWord p.context ++ p.data

/-- A request carries no data when it reads, whatever its LEN8. -/
def carriesData (t : Nat) (status : Nat) : Bool :=
  t != ptReadReq && t != ptWriteAck && !(t == ptReadResp && status != 0)

/-- A packet read from the front of a byte string, with its type and its length in bytes. -/
def parsePacket (bs : Bytes) : Nat × Packet × Nat :=
  let h := field bs 0 16
  let t := bits h 0 6
  let ctx := bitOf h 11
  let status := bits h 12 4
  let len8 := bits h 108 5
  let start := if ctx then 24 else 16
  let n := if carriesData t status then 8 * len8 else 0
  let w := field bs 16 8
  (t,
   { source := BitVec.ofNat 16 (bits h 32 16), dest := BitVec.ofNat 16 (bits h 16 16),
     tag := BitVec.ofNat 16 (bits h 48 16), offset := BitVec.ofNat 44 (bits h 64 44), len8 := len8,
     orderSeq := bits h 116 12, seedbed := bitOf h 8, poison := bitOf h 9, detour := bitOf h 10, status := status,
     context := if ctx then some (BitVec.ofNat 32 w, bits w 32 24, bits w 56 8) else none,
     data := slice bs start n },
   start + n)

/-! ### Routing (14 R291, R299, R300) -/

/-- The port on axis i in a direction. -/
def axisPort (i : Nat) (plus : Bool) : Nat := 2 * i + (if plus then 0 else 1)

/-- The direction of travel on axis i, none when the coordinate agrees: the shorter way on a wrapped axis, + on a tie. -/
def axisWay (h : Holding) (me dest : ModId) (i : Nat) : Option Bool :=
  let c := coord me i
  let d := coord dest i
  if c = d then none
  else if wrapped h i then
    let n := coord h.hallM1 i + 1
    let fwd := (d + n - c) % n
    some (decide (2 * fwd ≤ n))
  else some (decide (c < d))

/-- The first axis of an order on which the packet still travels, with its direction. -/
def firstWay (h : Holding) (me dest : ModId) : List Nat → Option (Nat × Bool)
  | [] => none
  | i :: t =>
    match axisWay h me dest i with
    | some w => some (i, w)
    | none => firstWay h me dest t

/-- The port of the next hop and whether it is a detour: dimension order A, B, C, D, or the reverse for a resend; when the
link is down, one hop on the next axis of the cycle, + or else -; none when no link is up (14 R300, R309). -/
def nextHop (s : State) (dest : ModId) (reverse : Bool) : Option (Nat × Bool) :=
  let order := if reverse then [3, 2, 1, 0] else [0, 1, 2, 3]
  match firstWay s.holding s.holding.moduleId dest order with
  | none => none
  | some (i, w) =>
    let p := axisPort i w
    if portUp s p || (port s p).retraining then some (p, false)
    else
      let j := (i + 1) % 4
      if portUp s (axisPort j true) then some (axisPort j true, true)
      else if portUp s (axisPort j false) then some (axisPort j false, true)
      else none

/-- The port toward a module, for counting. -/
def portToward (s : State) (m : ModId) : Nat :=
  match firstWay s.holding s.holding.moduleId m [0, 1, 2, 3] with
  | some (i, w) => axisPort i w
  | none => 0

/-- Link event `e` of a port (17 R362). -/
def countLink (p e : Nat) (s : State) : State := count (0x280 + 8 * p + e) 1 s

/-! ### Sending: flits and stones (14 R294, R295, 15 R336, R337) -/

/-- A flit: header, 240 bytes of body, CRC. -/
def flitBytes (seq ack : Nat) (kind : Nat) (body : Bytes) : Bytes :=
  let head := leBytes 8 (pack [(12, seq), (12, ack), (1, 1), (1, 0), (2, 0), (2, kind), (2, 0), (10, 0)])
  let front := head ++ padTo 240 body
  front ++ leBytes 8 (crc64 front).toNat

/-- A byte of a string XORed with a mask (15 R336). -/
def corruptAt (bs : Bytes) (off : Nat) (mask : Byte) : Bytes :=
  bs.mapIdx fun i b => if i = off then b ^^^ mask else b

/-- At most this many flits of a lane class are unacknowledged (14 R295). -/
def retryFlits : Nat := 2048

/-- A new packet of a port waits: the port retrains, or its retry buffer is full (14 R295, R296). -/
def portBlocked (s : State) (p : Nat) : Bool := (port s p).retraining || decide (retryFlits ≤ (port s p).data.buffer.length)

/-- A packet put into a flit of a port's data class; a corruption before CRC alters the flit sent and not the one kept. -/
def sendFlit (p t : Nat) (q : Packet) (corrupt : Option (Nat × Byte)) (s : State) : State :=
  if portBlocked s p then setPort p (fun x => { x with data.blocked := x.data.blocked ++ [(t, q, corrupt)] }) s
  else
  let c := (port s p).data
  let body := packetBytes t q
  let f := flitBytes c.sendSeq ((c.recvSeq + 4095) % 4096) 0 body
  let sent := match corrupt with
    | some (off, mask) => corruptAt f (8 + off) mask
    | none => f
  let s := setPort p (fun x => { x with data := { x.data with
      sendSeq := (x.data.sendSeq + 1) % 4096
      buffer := x.data.buffer ++ [(x.data.sendSeq, f)]
      sentAt := if x.data.buffer.isEmpty then s.clock.up else x.data.sentAt } }) s
  count (0x240 + 8 * p + 2 * ptVc t) body.length
    { s with out.flits := s.out.flits ++ [(p, false, sent)], out.packets := s.out.packets ++ [(p, t, q)] }

/-- Packets that waited at a port are sent while it takes them. -/
def sendBlocked (p : Nat) : Nat → State → State
  | 0, s => s
  | n + 1, s =>
    match (port s p).data.blocked with
    | [] => s
    | (t, q, corrupt) :: rest =>
      if portBlocked s p then s
      else sendBlocked p n (sendFlit p t q corrupt (setPort p (fun x => { x with data.blocked := rest }) s))

/-- What a stone does to a packet: nothing, or its action with its entry. -/
def stoneChoice (head : Pos) (l : StoneLive) : Bool × Bool :=
  let byRate := l.stone.rateLog2 != 0 && (l.sent + 1) % 2 ^ l.stone.rateLog2 == 0
  let byTrigger := l.stone.trigger != 0 && !l.fired && decide (l.stone.trigger.toNat ≤ head.toNat)
  (byRate || byTrigger, byTrigger)

/-- Injection counter of a port, VC and action: 0 drop, 1 corrupt, 2 reorder (17 R362). -/
def stoneSlot (p vc a : Nat) : Nat := 0x400 + 12 * p + 3 * vc + a

/-- A packet leaves by a port: the stone of that port and VC, if any, counts it and acts on it. -/
def transmit (p t : Nat) (q : Packet) (s : State) : State :=
  let vc := ptVc t
  match s.stones.live.find? fun l => l.stone.port == p && l.stone.vc == vc with
  | none => sendFlit p t q none s
  | some l =>
    let (acts, trig) := stoneChoice s.run.head l
    let live := mapFirst (fun x => x.stone.port == p && x.stone.vc == vc)
      (fun x => { x with sent := x.sent + 1, fired := x.fired || trig }) s.stones.live
    let s := { s with stones.live := live }
    if !acts || l.stone.action == 0 then sendFlit p t q none s
    else if l.stone.action = 1 then countStone (stoneSlot p vc 0) s
    else if l.stone.action = 2 then
      sendFlit p t q (some (l.stone.offset, l.stone.mask)) (countStone (stoneSlot p vc 1) s)
    else if l.stone.action = 3 then
      let (t', q', _) := parsePacket (corruptAt (packetBytes t q) l.stone.offset l.stone.mask)
      sendFlit p t' q' none (countStone (stoneSlot p vc 1) s)
    else
      countStone (stoneSlot p vc 2)
        { s with stones.holding := s.stones.holding ++ [(p, vc, l.stone.depth, t, q, s.clock.up)] }

/-- A packet of a port and VC has passed: held packets count it, and one that has waited for its N leaves (15 R337). -/
def releaseHeld (p vc : Nat) (s : State) : State :=
  let passed := s.stones.holding.map fun (a, b, n, t, q, at_) =>
    if a = p ∧ b = vc then (a, b, n - 1, t, q, at_) else (a, b, n, t, q, at_)
  let due := passed.filter fun x => x.1 == p && x.2.1 == vc && x.2.2.1 == 0
  let s := { s with stones.holding := passed.filter fun x => !(x.1 == p && x.2.1 == vc && x.2.2.1 == 0) }
  due.foldl (fun s x => sendFlit p x.2.2.2.1 x.2.2.2.2.1 none s) s

/-- A packet sent toward its destination; one with no way out is dropped, and a request of this module's own is answered by its
router (14 R300; the header's one DETOUR bit does not count the detours, so a router cannot tell a third one: log entry 84). -/
def sendPacket (t : Nat) (reverse : Bool) (q : Packet) (s : State) : State :=
  match nextHop s q.dest reverse with
  | none =>
    if ptVc t = 0 ∧ q.source = s.holding.moduleId then { s with lamio.unreached := s.lamio.unreached ++ [(q.dest, q.tag)] }
    else s
  | some (p, detour) =>
    let q := { q with detour := q.detour || detour }
    let s := if detour then countLink p 3 s else s
    let held := s.stones.holding.any fun x => x.1 == p && x.2.1 == ptVc t
    let s := transmit p t q s
    if held then releaseHeld p (ptVc t) s else s

/-! ### Requests and responses -/

/-- The next ORDER_SEQ toward a module on a VC, modulo 4,096 (14 R301). -/
def orderKey (m : ModId) (vc : Nat) : Nat := 2 * m.toNat + vc

def takeOrder (m : ModId) (vc : Nat) (s : State) : Nat × State :=
  (tget 0 s.lamio.sendOrder (orderKey m vc),
   { s with lamio.sendOrder := tmod 0 s.lamio.sendOrder (orderKey m vc) fun n => (n + 1) % 4096 })

def isAtomic (t : Nat) : Bool := decide (ptAtomicAdd64 ≤ t) && decide (t ≤ ptAtomicAnd64)

/-- Requests of a kind outstanding to a module. -/
def outstanding (s : State) (m : ModId) (p : Txn → Bool) : Nat :=
  (s.lamio.txns.filter fun x => x.dest == m && !x.queued && p x).length

/-- A further request to a module may be sent (14 R301, R307). -/
def mayLaunch (s : State) (t : Nat) (m : ModId) : Bool :=
  decide (outstanding s m (fun _ => true) < 2048) && (!isAtomic t || decide (outstanding s m (fun x => isAtomic x.type) < 256))

/-- A request sent: its order taken, timed, traced (class 4). -/
def launch (x : Txn) (s : State) : State :=
  let (seq, s) := takeOrder x.dest 0 s
  let p := { x.p with orderSeq := seq }
  let txns := mapFirst (fun y => y.dest == x.dest && y.tag == x.tag)
    (fun y => { y with p := p, queued := false, sentAt := s.clock.up }) s.lamio.txns
  let s := { s with lamio.txns := txns }
  trace 4 0 p.seedbed 0 (BitVec.allOnes 32) (lamioAddr x.dest p.offset.toNat) (sendPacket x.type false p s)

/-- The next request that waits for a place toward a module. -/
def launchNext (m : ModId) (s : State) : State :=
  match s.lamio.txns.find? fun x => x.dest == m && x.queued && mayLaunch s x.type m with
  | some x => launch x s
  | none => s

/-- A request issued: tag taken, and sent when a place toward its destination is free. Its tag is returned. -/
def issue (t : Nat) (dest : ModId) (off len8 : Nat) (data : Bytes) (seedbed : Bool) (ctx : Option (W32 × Nat × Nat))
    (task : Option (Nat × W32)) (bar4 : Bool) (s : State) : W16 × State :=
  let tag := s.lamio.nextTag
  let p : Packet :=
    { source := s.holding.moduleId, dest := dest, tag := tag, offset := BitVec.ofNat 44 off, len8 := len8,
      orderSeq := 0, seedbed := seedbed, poison := false, detour := false, status := 0, context := ctx,
      data := data }
  let x : Txn := ⟨dest, tag, t, p, false, s.clock.up, task, bar4, true⟩
  let s := { s with lamio.nextTag := tag + 1, lamio.txns := s.lamio.txns ++ [x] }
  (tag, if mayLaunch s t dest then launch x s else s)

/-- A response to a request (14 R303): its type, status and data. -/
def respond (t : Nat) (req : Packet) (status : Nat) (poison : Bool) (data : Bytes) (s : State) : State :=
  let (seq, s) := takeOrder req.source 1 s
  let p : Packet :=
    { source := s.holding.moduleId, dest := req.source, tag := req.tag, offset := req.offset,
      len8 := data.length / 8, orderSeq := seq, seedbed := false, poison := poison, detour := false,
      status := status, context := none, data := data }
  sendPacket t false p s

/-- A BULK_REQ of `len` bytes from a source address to a destination address (14 R308). -/
def bulkData (src dst len : Nat) : Bytes := leBytes 8 src ++ leBytes 8 dst ++ leBytes 8 len

end Sys2Proof.Machine
end

