-- ==== Sys2Proof/Machine/Lamio.lean ====
section
/-!
DEFINITION. The Lamio link layer (14 R294 to R297), packets at their destination (R301 to R310), and transaction timeouts
(R309, 15 R324).
-/
namespace Sys2Proof.Machine

open Sys2Proof

/-! ### Requests performed (14 R303 to R308) -/

/-- An access of a packet lies in the address space (11 R224). -/
def packetRangeOk (s : State) (p : Packet) (len : Nat) : Bool := decide (p.offset.toNat + len ≤ s.mem.capacity)

/-- The reader a packet stands for: its task by its context word, else a plain reader (14 R304). -/
def packetReader (s : State) (p : Packet) : Reader :=
  match p.context with
  | some (_, low, _) => .task (fullStep s low) p.seedbed
  | none => .plain

/-- A seedbed-tagged read waits until the local U stream of the step before its own has completed (09 R187). -/
def readMustWait (s : State) (p : Packet) : Bool :=
  match p.context with
  | some (_, low, _) => p.seedbed && !localUEnded s (fullStep s low - 1)
  | none => false

/-- A read answered from the version its reader sees. -/
def answerRead (p : Packet) (s : State) : State :=
  let n := 8 * p.len8
  let off := p.offset.toNat
  respond ptReadResp p psOk (!(poisonedIn s off n).isEmpty) (localBytes s (packetReader s p) off n)
    (touch false off n s)

def doRead (p : Packet) (s : State) : State :=
  if !packetRangeOk s p (8 * p.len8) then
    respond ptReadResp p psAddressError false [] (countLink (portToward s p.source) 7 s)
  else if readMustWait s p then { s with lamio.readsHeld := s.lamio.readsHeld ++ [p] }
  else answerRead p s

/-- Data of a task's write lands in the version its task run makes on this module (14 R304; log entry 20). -/
def taskWrite (step : Nat) (task : W32) (seedbed : Bool) (off : Nat) (bs : Bytes) (s : State) : State :=
  touch true off bs.length
    { s with mem.layers := addLayer ⟨.output step task seedbed, cellsAt off bs⟩ s.mem.layers }

/-- A write of a packet: its status, and its effect (14 R304, R305). -/
def performWrite (p : Packet) (s : State) : Nat × State :=
  let off := p.offset.toNat
  let n := p.data.length
  if !packetRangeOk s p n then (psAddressError, countLink (portToward s p.source) 7 s)
  else if touchesReserved s off n then (psRefused, countLink (portToward s p.source) 6 s)
  else
    match p.context with
    | some (task, low, _) =>
      let step := fullStep s low
      -- a peer's task of a step before which the vote has not come out here is seedbed work (09 R188)
      let seedbed := s.run.isOn && decide (stepOf s.run.head < step) && s.votes.openStep.any fun n => decide (n < step)
      (psOk, taskWrite step task seedbed off p.data (writePoison off n p.poison s))
    | none =>
      if plainWriteAllowed s off n then (psOk, writeNow off p.data p.poison s)
      else (psRefused, countLink (portToward s p.source) 6 s)

def doWrite (p : Packet) (s : State) : State :=
  let (st, t) := performWrite p s
  respond ptWriteAck p st false [] t

/-- The new word of an atomic from the old word and the data (14 R307). -/
def atomicResult (t : Nat) (old : Nat) (data : Bytes) : Nat :=
  let x := field data 0 8
  if t = ptAtomicAdd64 then (old + x) % 2 ^ 64
  else if t = ptAtomicAdd32 then (old + x) % 2 ^ 32
  else if t = ptAtomicSwap64 then x
  else if t = ptAtomicCas64 then (if old = x then field data 8 8 else old)
  else if t = ptAtomicOr64 then old ||| x
  else old &&& x

/-- Atomic results kept: the last 256 of each issuer (14 R309). -/
def keepAtomic (m : ModId) (seq : Nat) (old : W64) (l : List (ModId × Nat × W64)) : List (ModId × Nat × W64) :=
  let mine := (l.filter fun x => x.1 == m) ++ [(m, seq, old)]
  (l.filter fun x => x.1 != m) ++ mine.drop (mine.length - 256)

/-- An atomic on one naturally aligned word, in one step; the old value is returned (14 R305, R307). -/
def doAtomic (t : Nat) (p : Packet) (s : State) : State :=
  let w := if t = ptAtomicAdd32 then 4 else 8
  let off := p.offset.toNat / w * w
  let poison := !(poisonedIn s off w).isEmpty
  if !packetRangeOk s p w then respond ptAtomicResp p psAddressError false [] (countLink (portToward s p.source) 7 s)
  else if touchesReserved s off w || !plainWriteAllowed s off w then
    respond ptAtomicResp p psRefused false [] (countLink (portToward s p.source) 6 s)
  else
    let old := leNat (localBytes s .plain off w)
    let s := writeNow off (leBytes w (atomicResult t old p.data)) false (touch false off w s)
    respond ptAtomicResp p psOk poison (leBytes 8 old)
      { s with lamio.atomics := keepAtomic p.source p.orderSeq (BitVec.ofNat 64 old) s.lamio.atomics }

/-- A bulk copy's data sent in packets of 224 bytes, a shorter last one, each marked poisoned where its source is (14 R308,
R310). -/
def sendBulk (dest : ModId) (tag : W16) (src : Option Nat) (off : Nat) : Nat → Bytes → State → State
  | 0, _, s => s
  | n + 1, bs, s =>
    if bs.isEmpty then s
    else
      let part := padMul 8 (bs.take 224)
      let poison := src.any fun a => !(poisonedIn s a (min 224 bs.length)).isEmpty
      let p : Packet :=
        { source := s.holding.moduleId, dest := dest, tag := tag, offset := BitVec.ofNat 44 off,
          len8 := part.length / 8, orderSeq := 0, seedbed := false, poison := poison, detour := false, status := 0,
          context := none, data := part }
      sendBulk dest tag (src.map (· + 224)) (off + 224) n (bs.drop 224) (sendPacket ptBulkData false p s)

/-- A bulk transfer to another module, with its end-of-data notice; what was sent is kept (14 R308, 15 R337). -/
def sendTransfer (x : BulkOut) (s : State) : State :=
  let s := sendBulk x.dest x.tag x.src x.off (ceilDiv x.data.length 224) x.data s
  let kept := s.lamio.bulkOut ++ [x]
  sendHedge x.dest (.endOfData (.bulk x.tag s.holding.moduleId) x.data.length)
    { s with lamio.bulkOut := kept.drop (kept.length - 2048) }

/-- The missing range of a transfer sent once more, and the notice with it; the record of the transfer is done with. -/
def resendTransfer (dest : ModId) (tag : W16) (first len : Nat) (s : State) : State :=
  let mine := fun (x : BulkOut) => x.dest == dest && x.tag == tag
  match s.lamio.bulkOut.find? mine with
  | none => s
  | some x =>
    let part := slice x.data first (min len (x.data.length - first))
    let s := { s with lamio.bulkOut := s.lamio.bulkOut.filter fun y => !mine y }
    let s := sendBulk dest tag (x.src.map (· + first)) (x.off + first) (ceilDiv part.length 224) part s
    sendHedge dest (.endOfData (.bulk tag s.holding.moduleId) x.data.length) s

/-- BULK_REQ: the source is read at its current version, or at its task's, sent to the destination, and answered with the
bytes moved (14 R308). -/
def doBulk (p : Packet) (s : State) : State :=
  let len := field p.data 16 8
  let fail := fun st s => respond ptBulkDone p st false (leBytes 8 0) s
  match lamioTarget s (field p.data 0 8), lamioTarget s (field p.data 8 8) with
  | some (m, off), some (d, dst) =>
    if m != s.holding.moduleId || decide (s.mem.capacity < off + len) || decide (2 ^ 32 < len) then
      fail psAddressError (countLink (portToward s p.source) 7 s)
    else if readMustWait s p then { s with lamio.readsHeld := s.lamio.readsHeld ++ [p] }
    else
      let bs := localBytes s (packetReader s p) off len
      let poison := !(poisonedIn s off len).isEmpty
      let s := touch false off len s
      if d = s.holding.moduleId then
        let (st, s) := performWrite
          { p with offset := BitVec.ofNat 44 dst, data := bs, poison := poison } s
        respond ptBulkDone p st false (leBytes 8 (if st = psOk then len else 0)) s
      else respond ptBulkDone p psOk false (leBytes 8 len) (sendTransfer ⟨d, p.tag, dst, some off, bs⟩ s)
  | _, _ => fail psAddressError (countLink (portToward s p.source) 7 s)

/-- A waiting request is a bulk copy: a READ_REQ carries no data. -/
def isBulk (p : Packet) : Bool := !p.data.isEmpty

/-- Reads that waited for the local U stream are answered once it has completed. -/
def releaseReads (s : State) : State :=
  let ready := s.lamio.readsHeld.filter fun p => !readMustWait s p
  let s := { s with lamio.readsHeld := s.lamio.readsHeld.filter fun p => readMustWait s p }
  ready.foldl (fun s p => if isBulk p then doBulk p s else answerRead p s) s

/-- Reads still waiting when the step before their own is decided SKIP or RETRY complete without data (09 R187). -/
def refuseReads (s : State) : State :=
  let held := s.lamio.readsHeld
  held.foldl (fun s p =>
    if isBulk p then respond ptBulkDone p psNoData false (leBytes 8 0) s else respond ptReadResp p psNoData false [] s)
    { s with lamio.readsHeld := [] }

/-! ### Responses (14 R303, R309, 15 R324) -/

/-- The completion status of a copy whose transaction answered with a packet status. -/
def copyStatus (st : Nat) : Nat := if st = psRefused then stStateConflict else stMalformed

/-- The job waits for the answer to a tag. -/
def awaitsTag (tag : W16) (j : Job) : Bool :=
  match j.kind with
  | .remote _ tags parts => tags.contains tag && !parts.any fun x => x.1 == tag
  | _ => false

/-- The lines of a COPY_OUT from a peer written to the host, a poisoned one in a TLP marked poisoned. -/
def remoteToHost (d : Desc) (tags : List W16) (parts : List (W16 × Bool × Bytes)) (s : State) : State :=
  ((lineParts (dAt d 24 8 % 64) d.count.toNat).zip tags).foldl (fun s x =>
    match parts.find? fun y => y.1 == x.2 with
    | some y => hostWrite (dAt d 16 8 + x.1.1) (y.2.2.take x.1.2) y.2.1 s
    | none => s) s

/-- A part of a copy on a peer's memory has been answered; the copy completes with its last part (13 R278). -/
def finishRemote (tag : W16) (st : Nat) (poison : Bool) (data : Bytes) (s : State) : State :=
  match s.run.jobs.find? (awaitsTag tag) with
  | none => s
  | some j =>
    match j.kind with
    | .remote out tags parts =>
      if st != psOk then finishJobs (awaitsTag tag) (copyStatus st) 0 s
      else
        let parts := parts ++ [(tag, poison, data)]
        if tags.all fun x => parts.any fun y => y.1 == x then
          let bad := (parts.filter (·.2.1)).length
          finishJobs (awaitsTag tag) stOk (if out then bad else 0) (if out then remoteToHost j.d tags parts s else s)
        else
          { s with run.jobs := mapFirst (awaitsTag tag) (fun j => { j with kind := .remote out tags parts }) s.run.jobs }
    | _ => s

/-- A task whose remote access met an address error fails and sets bit 9; one that found no data is discarded with the rest
of its step (09 R187, 11 R224). -/
def taskAnswered (st : Nat) (step : Nat) (task : W32) (s : State) : State :=
  if st = psAddressError ∨ st = psRefused ∨ st = psUnreachable then
    addressError step (setTask step task (fun t => { t with phase := .abandoned, cells := [] }) s)
  else s

/-- A response completes its request; a response to no request is a duplicate and is discarded (14 R309). -/
def doResponse (p : Packet) (s : State) : State :=
  let mine := fun (t : Txn) => t.dest == p.source && t.tag == p.tag
  match s.lamio.txns.find? mine with
  | none => countLink (portToward s p.source) 4 s
  | some t =>
    let s := { s with
      lamio.txns := s.lamio.txns.filter fun x => !mine x
      lamio.answers := s.lamio.answers ++ [(p.source, p.tag, p.status, p.data)] }
    let s := trace 4 1 false 0 (BitVec.allOnes 32) (lamioAddr p.source p.offset.toNat) s
    let s := if t.bar4 then
        (if t.type = ptReadReq then
          (if p.status = psOk then { s with out.loads := s.out.loads ++ [(p.data, p.poison)] }
           else { count 0x2E4 1 s with out.loads := s.out.loads ++ [(List.replicate (8 * t.p.len8) 0xFF, false)] })
        else if p.status = psOk then s
        else count (if p.status = psRefused then 0x2E5 else 0x2E4) 1 s)
      else s
    let s := launchNext p.source (finishRemote p.tag p.status p.poison p.data s)
    match t.task with
    | some (step, task) => taskAnswered p.status step task s
    | none => s

/-- The type of the response to a request (14 R303). -/
def responseTo (t : Nat) : Nat :=
  if t = ptReadReq then ptReadResp else if t = ptWrite then ptWriteAck else if t = ptBulkReq then ptBulkDone else ptAtomicResp

/-- The answer of this module's router to requests of its own that no route takes (14 R300). -/
def answerUnreachedN : Nat → State → State
  | 0, s => s
  | n + 1, s =>
    match s.lamio.unreached with
    | [] => s
    | (m, tag) :: rest =>
      let p : Packet :=
        { source := m, dest := s.holding.moduleId, tag := tag, offset := 0, len8 := 0, orderSeq := 0, seedbed := false,
          poison := false, detour := false, status := psUnreachable, context := none, data := [] }
      answerUnreachedN n (doResponse p { s with lamio.unreached := rest })

def answerUnreached (s : State) : State := answerUnreachedN (s.lamio.unreached.length + s.lamio.txns.length) s

/-! ### Order (14 R301, R309) -/

/-- A packet of a bulk transfer noted as arrived. -/
def noteBulk (p : Packet) (s : State) : State :=
  let mine := fun (x : BulkIn) => x.source == p.source && x.tag == p.tag
  let at_ := (p.offset.toNat, p.data.length)
  let l := s.lamio.bulkIn
  { s with lamio.bulkIn :=
      if l.any mine then mapFirst mine (fun x => { x with got := addNew x.got at_ }) l else l ++ [⟨p.source, p.tag, [at_], false⟩] }

/-- A packet acts. -/
def perform (t : Nat) (p : Packet) (s : State) : State :=
  if t = ptReadReq then doRead p s
  else if t = ptWrite then doWrite p s
  else if t = ptBulkReq then doBulk p s
  else if ptAtomicAdd64 ≤ t ∧ t ≤ ptAtomicAnd64 then doAtomic t p s
  else if ptVc t = 1 then doResponse p s
  else if t = ptBulkData then noteBulk p (performWrite { p with context := none } s).2
  else s

/-- A duplicate: a read is read again; a write or bulk request is acknowledged with no further effect; an atomic is answered
from the record; a response is discarded (14 R309). -/
def duplicate (t : Nat) (p : Packet) (s : State) : State :=
  let s := countLink (portToward s p.source) 4 s
  if t = ptReadReq then doRead p s
  else if t = ptWrite then respond ptWriteAck p psOk false [] s
  else if t = ptBulkReq then respond ptBulkDone p psOk false (leBytes 8 (field p.data 16 8)) s
  else if ptAtomicAdd64 ≤ t ∧ t ≤ ptAtomicAnd64 then
    match s.lamio.atomics.find? fun x => x.1 == p.source && x.2.1 == p.orderSeq with
    | some x => respond ptAtomicResp p psOk false (leBytes 8 x.2.2.toNat) s
    | none => s
  else s

/-- Packets of the reorder buffer whose turn has come are delivered. -/
def drainReorder : Nat → ModId → Nat → State → State
  | 0, _, _, s => s
  | n + 1, m, vc, s =>
    let want := tget 0 s.lamio.recvOrder (orderKey m vc)
    let next := fun (x : Nat × Packet) => x.2.source == m && ptVc x.1 == vc && x.2.orderSeq == want
    match s.lamio.reorder.find? next with
    | none => s
    | some x =>
      drainReorder n m vc (perform x.1 x.2 { s with
        lamio.reorder := s.lamio.reorder.filter fun y => !next y
        lamio.recvOrder := tset 0 s.lamio.recvOrder (orderKey m vc) ((want + 1) % 4096) })

/-- A packet of VC0 or VC1 in its turn, ahead of it, or a duplicate; VC2 and VC3 carry no sequence. -/
def arriveInOrder (t : Nat) (p : Packet) (s : State) : State :=
  let vc := ptVc t
  if 2 ≤ vc then perform t p s
  else
    let want := tget 0 s.lamio.recvOrder (orderKey p.source vc)
    let ahead := (p.orderSeq + 4096 - want) % 4096
    if ahead = 0 then
      drainReorder s.lamio.reorder.length p.source vc (perform t p { s with
        lamio.recvOrder := tset 0 s.lamio.recvOrder (orderKey p.source vc) ((want + 1) % 4096) })
    else if ahead < 2048 then { s with lamio.reorder := s.lamio.reorder ++ [(t, p)] }
    else duplicate t p s

/-- A packet that reaches this module: forwarded when it is for another (14 R299), else delivered. -/
def packetRow (t : Nat) (p : Packet) (s : State) : State :=
  if !s.assigned then s
  else if p.dest != s.holding.moduleId then
    (match nextHop s p.dest false with
     | some _ => sendPacket t false p s
     | none => if ptVc t = 0 then respond (responseTo t) p psUnreachable false [] s else s)
  else arriveInOrder t p s

def execReadReq (p : Packet) (s : State) : Answer := .next (packetRow ptReadReq p s)
def execWrite (p : Packet) (s : State) : Answer := .next (packetRow ptWrite p s)
def execAtomicAdd64 (p : Packet) (s : State) : Answer := .next (packetRow ptAtomicAdd64 p s)
def execAtomicAdd32 (p : Packet) (s : State) : Answer := .next (packetRow ptAtomicAdd32 p s)
def execAtomicSwap64 (p : Packet) (s : State) : Answer := .next (packetRow ptAtomicSwap64 p s)
def execAtomicCas64 (p : Packet) (s : State) : Answer := .next (packetRow ptAtomicCas64 p s)
def execAtomicOr64 (p : Packet) (s : State) : Answer := .next (packetRow ptAtomicOr64 p s)
def execAtomicAnd64 (p : Packet) (s : State) : Answer := .next (packetRow ptAtomicAnd64 p s)
def execBulkReq (p : Packet) (s : State) : Answer := .next (packetRow ptBulkReq p s)
def execReadResp (p : Packet) (s : State) : Answer := .next (packetRow ptReadResp p s)
def execWriteAck (p : Packet) (s : State) : Answer := .next (packetRow ptWriteAck p s)
def execAtomicResp (p : Packet) (s : State) : Answer := .next (packetRow ptAtomicResp p s)
def execBulkDone (p : Packet) (s : State) : Answer := .next (packetRow ptBulkDone p s)
def execBulkData (p : Packet) (s : State) : Answer := .next (packetRow ptBulkData p s)

/-! ### Transaction timeout (14 R309, 15 R324) -/

/-- DETAIL of TASK_REPLAYED (15 R326). -/
def replayedDetail (task : W32) (failed chosen cause : Nat) : Nat :=
  pack [(32, task.toNat), (12, failed), (12, chosen), (8, cause)]

/-- A tile run again from its beginning, under the task's next attempt number: event and replay counter, its work counted
again; cause 1 SRAM, 2 watchdog, 3 poison, 4 transaction (12 R257, R262, 15 R326, 17 R361, R362). -/
def replayTile (step : Nat) (task : W32) (failed chosen cause : Nat) (s : State) : State :=
  let s := match findTask s step task with
    | none => s
    | some t =>
      let again := if t.tiles ≤ 1 then t.counts else t.counts.map fun c => (c.1, min c.2 (Config.tileShare task c.1 c.2))
      let again : List (Nat × Nat) := again ++ [(0x2E8 + cause, 1)]
      let s := again.foldl (fun s c => countWork t.seedbed c.1 c.2 s) s
      let next := { t with
        unit := chosen, attempt := (t.attempt + 1) % 256, recounts := t.recounts ++ again }
      trace 0 2 t.seedbed chosen task t.gate.toNat (setTask step task (fun _ => next) s)
  let held := (findTask s step task).any fun t => t.seedbed
  raiseAt held evTaskReplayed s.run.head (replayedDetail task failed chosen cause) s

/-- A task's transaction has timed out: the tile is replayed once; a second time sets bit 9 (15 R324). -/
def taskTimedOut (step : Nat) (task : W32) (s : State) : State :=
  match findTask s step task with
  | none => s
  | some t =>
    let s := setTask step task (fun t => { t with txnFails := t.txnFails + 1 }) s
    if t.txnFails = 0 then replayTile step task t.unit (otherCore s t.unit) 4 s
    else finding step vbReplayFailed (setTask step task (fun t => { t with phase := .abandoned, cells := [] }) s)

/-- A transaction completes with TIMEOUT: a BAR4 load reads 0xFF, a descriptor ends, a task's tile is replayed with the request
issued again, the first time (14 R309, 15 R324). -/
def expireTxn (t : Txn) (s : State) : State :=
  let mine := fun (x : Txn) => x.dest == t.dest && x.tag == t.tag
  let s := { s with
    lamio.txns := s.lamio.txns.filter fun x => !mine x
    lamio.answers := s.lamio.answers ++ [(t.dest, t.tag, 15, [])] }
  let s := trace 4 3 false 0 (BitVec.allOnes 32) (lamioAddr t.dest t.p.offset.toNat) s
  let s := if t.bar4 then
      { count 0x2E4 1 s with
        out.loads := if t.type = ptReadReq then s.out.loads ++ [(List.replicate (8 * t.p.len8) 0xFF, false)]
          else s.out.loads }
    else s
  let s := launchNext t.dest (finishJobs (awaitsTag t.tag) stTimeout 0 s)
  match t.task with
  | some (step, task) =>
    let again := (findTask s step task).any fun (x : TaskInst) => x.txnFails == 0
    let s := taskTimedOut step task s
    if again then
      (issue t.type t.dest t.p.offset.toNat t.p.len8 t.p.data t.p.seedbed t.p.context (some (step, task)) false s).2
    else s
  | none => s

/-- The end of a bulk transfer's data: a short one has its missing bytes asked for once, all of them; short a second time it ends
with TIMEOUT for a requester that is this module (15 R337; log entry 85). -/
def bulkEnd (source : ModId) (tag : W16) (sent : Nat) (s : State) : State :=
  let mine := fun (x : BulkIn) => x.source == source && x.tag == tag
  let x := (s.lamio.bulkIn.find? mine).getD ⟨source, tag, [], false⟩
  let others := s.lamio.bulkIn.filter fun y => !mine y
  if sent ≤ (x.got.map (·.2)).foldl (· + ·) 0 then { s with lamio.bulkIn := others }
  else if x.asked then
    let s := { s with lamio.bulkIn := others }
    match s.lamio.txns.find? fun t => t.dest == source && t.tag == tag && t.type == ptBulkReq with
    | some t => expireTxn t s
    | none => s
  else
    sendHedge source (.missingRange (.bulk tag source) 0 sent)
      { s with lamio.bulkIn := others ++ [{ x with asked := true }] }

/-- A transaction that has waited TXN_TIMEOUT is sent once more on the reverse route with DETOUR set; when that too has
expired, it completes with TIMEOUT. -/
def txnTimeout (dest : ModId) (tag : W16) (s : State) : State :=
  let mine := fun (t : Txn) => t.dest == dest && t.tag == tag
  match s.lamio.txns.find? mine with
  | none => s
  | some t =>
    if t.queued || decide (s.clock.up < t.sentAt + us s.tmo.txn.toNat) then s
    else if !t.resent then
      let txns := mapFirst mine (fun t => { t with resent := true, sentAt := s.clock.up }) s.lamio.txns
      let s := { s with lamio.txns := txns }
      trace 4 2 false 0 (BitVec.allOnes 32) (lamioAddr dest t.p.offset.toNat)
        (sendPacket t.type true { t.p with detour := true } s)
    else expireTxn t s

def execTxnTimeout (dest : ModId) (tag : W16) (s : State) : Answer := .next (txnTimeout dest tag s)

/-- A packet a reorder stone holds leaves after 2 us when fewer than N packets followed it (15 R337). -/
def execReorderHoldExpiry (port vc : Nat) (s : State) : Answer :=
  .next (
    let due := s.stones.holding.filter fun x => x.1 == port && x.2.1 == vc && decide (x.2.2.2.2.2 + 2000 ≤ s.clock.up)
    let s := { s with stones.holding := s.stones.holding.filter fun x =>
      !(x.1 == port && x.2.1 == vc && decide (x.2.2.2.2.2 + 2000 ≤ s.clock.up)) }
    due.foldl (fun s x => sendFlit port x.2.2.2.1 x.2.2.2.2.1 none s) s)

/-! ### The link layer (14 R294 to R298) -/

def laneClass (hedge : Bool) (p : Port) : LaneClass := if hedge then p.hedge else p.data

def setClass (n : Nat) (hedge : Bool) (f : LaneClass → LaneClass) (s : State) : State :=
  setPort n (fun p => if hedge then { p with hedge := f p.hedge } else { p with data := f p.data }) s

/-- The link-level answer: an acknowledgement, or a NAK with the last good sequence. -/
def linkAnswer (p : Nat) (hedge : Bool) (seq : Nat) (nak : Bool) (s : State) : State :=
  { s with out.acks := s.out.acks ++ [(p, hedge, seq, nak)] }

/-- Flits up to a sequence leave the retry buffer; that is progress (14 R295). -/
def ackFlits (ack now : Nat) (c : LaneClass) : LaneClass :=
  let kept := c.buffer.filter fun f => !decide ((ack + 4096 - f.1) % 4096 < 2048)
  if kept.length = c.buffer.length then c else { c with buffer := kept, retries := 0, sentAt := now }

/-- Every flit of the retry buffer sent again. -/
def resendBuffer (p : Nat) (hedge : Bool) (s : State) : State :=
  { s with out.flits := s.out.flits ++ (laneClass hedge (port s p)).buffer.map fun f => (p, hedge, f.2) }

/-- The packets of a data flit's body, with their types; a zero header ends it. -/
def flitPackets : Nat → Bytes → List (Nat × Packet × Nat)
  | 0, _ => []
  | n + 1, bs =>
    let (t, p, len) := parsePacket bs
    if bs.length < 16 ∨ t = 0 then [] else (t, p, len) :: flitPackets n (bs.drop len)

/-- The ports a broadcast goes on from this module: along D, then C, then B, then A, from the root (14 R298). On the last
axis already travelled it keeps its direction to the far side of the ring or line; on the axes after it, both. -/
def broadcastPorts (s : State) (root : ModId) : List Nat :=
  let h := s.holding
  let me := h.moduleId
  let order := [3, 2, 1, 0]
  let travelled := order.filter fun i => coord root i != coord me i
  let last := travelled.getLast?
  let after := match last with
    | none => order
    | some i => (order.dropWhile (· != i)).drop 1
  let onward := match last with
    | none => []
    | some i =>
      match axisWay h root me i with
      | none => []
      | some w =>
        let n := coord h.hallM1 i + 1
        let dist := if w then (coord me i + n - coord root i) % n else (coord root i + n - coord me i) % n
        let reach := if wrapped h i then (if w then n / 2 else (n - 1) / 2)
          else (if w then coord h.hallM1 i - coord root i else coord root i)
        if dist < reach then [axisPort i w] else []
  onward ++ after.flatMap fun i => [axisPort i true, axisPort i false]

/-- A hedge message that is for another module, or for all of them, goes on (14 R298); a reserved kind is discarded and
counted. Messages for this module arrive as commands of their own. -/
def hedgeTransit (p : Nat) (m : Bytes) (s : State) : State :=
  let kind := byteAt m 0
  let dest : ModId := BitVec.ofNat 16 (field m 4 2)
  let known := [1, 2, 3, 4, 5, 6, 7, 8, 9, 0x0C, 0x0D, 0x0E, 0x0F, 0x10, 0x11, 0x12, 0x13, 0x14, 0x15, 0x18, 0x19, 0x1C,
    0x20, 0x21]
  if kind = 0 then s
  else if !known.contains kind then countLink p 5 s
  else if dest = everyone then
    let ports := (broadcastPorts s (BitVec.ofNat 16 (field m 2 2))).filter fun q => portUp s q
    { s with out.transit := s.out.transit ++ ports.map fun q => (q, m) }
  else if dest = s.holding.moduleId then s
  else
    match nextHop s dest false with
    | some (q, _) => { s with out.transit := s.out.transit ++ [(q, m)] }
    | none => s

/-- A packet of a received flit: counted; discarded when its type is reserved; forwarded when it is for another module.
Packets for this module arrive as commands of their own. -/
def packetTransit (p : Nat) (x : Nat × Packet × Nat) (s : State) : State :=
  let (t, q, len) := x
  if !ptKnown t then countLink p 5 s
  else
    let s := count (0x241 + 8 * p + 2 * ptVc t) len s
    if q.dest != s.holding.moduleId then sendPacket t false q s else s

/-- A flit received (14 R294, R295, R297). -/
def flitReceive (p : Nat) (hedge : Bool) (flit : Bytes) (s : State) : State :=
  if (port s p).width = 0 then s
  else
    let h := field flit 0 8
    let seq := bits h 0 12
    let ack := bits h 12 12
    let kind := bits h 28 2
    let c := laneClass hedge (port s p)
    let last := (c.recvSeq + 4095) % 4096
    if crc64 (flit.take 248) != BitVec.ofNat 64 (field flit 248 8) then
      linkAnswer p hedge last true (countLink p 0 s)
    else
      let s := if bitOf h 24 then setClass p hedge (ackFlits ack s.clock.up) s else s
      let s := if hedge then s else sendBlocked p (port s p).data.blocked.length s
      let s := if bitOf h 24 && bitOf h 25 then resendBuffer p hedge s else s
      let s := setPort p (fun q =>
        { q with credits := q.credits.set (bits h 30 2) (q.credits.getD (bits h 30 2) 0 + bits h 32 10) }) s
      if kind = 1 then s
      else if seq != c.recvSeq then
        (if (c.recvSeq + 4096 - seq) % 4096 ≤ 2048 then linkAnswer p hedge last false s
         else linkAnswer p hedge last true s)
      else
        let s := setClass p hedge (fun c => { c with recvSeq := (c.recvSeq + 1) % 4096 }) s
        let s := linkAnswer p hedge seq false s
        let body := slice flit 8 240
        if kind = 3 then countLink p 5 s
        else if kind = 2 then (chunksOf 32 7 body).foldl (fun s m => hedgeTransit p m s) s
        else (flitPackets 15 body).foldl (fun s x => packetTransit p x s) s

/-- No acknowledgement of the oldest flit within 2 us: every unacknowledged flit is resent; after 8 link retries without
progress the port retrains (14 R295, R296). -/
def linkRetry (p : Nat) (hedge : Bool) (s : State) : State :=
  let c := laneClass hedge (port s p)
  if (port s p).width = 0 || (port s p).retraining || c.buffer.isEmpty || decide (s.clock.up < c.sentAt + 2000) then s
  else
    let s := resendBuffer p hedge (countLink p 1 s)
    let s := setClass p hedge (fun c => { c with retries := c.retries + 1, sentAt := s.clock.up }) s
    if 8 ≤ c.retries + 1 then countLink p 2 (setPort p (fun q => { q with retraining := true }) s) else s

/-- The packets in the retry buffer of a port that went down take other routes, in their order (14 R317). -/
def detourBuffer (p : Nat) (s : State) : State :=
  let xs := (port s p).data.buffer.flatMap fun f => flitPackets 15 (slice f.2 8 240)
  let late := (port s p).data.blocked
  let s := setPort p (fun q => { q with data := { q.data with buffer := [], blocked := [] } }) s
  let s := xs.foldl (fun s x => sendPacket x.1 false x.2.1 s) s
  late.foldl (fun s x => sendPacket x.1 false x.2.1 s) s

/-- Retraining completes (14 R296): the port's width, or down; the retry buffers are resent, or their packets detoured. -/
def linkRetrain (p : Nat) (m : W16) (farOk : Bool) (s : State) : State :=
  if (port s p).retraining then
    let s := trainPort p m farOk s
    if (port s p).width = 0 then detourBuffer p s
    else
      let s := resendBuffer p true (resendBuffer p false s)
      sendBlocked p (port s p).data.blocked.length s
  else s

/-- A down port's retrain attempt, every 100 ms; a port its optical engine tripped waits until it has cooled (14 R296,
19 R400). -/
def linkRetrainAttempt (p : Nat) (m : W16) (farOk : Bool) (s : State) : State :=
  let q := port s p
  if q.width = 0 && !q.tripped && s.startup.ready && decide (q.triedAt + ms 100 ≤ s.clock.up) then
    trainPort p m farOk (countLink p 2 (setPort p (fun q => { q with triedAt := s.clock.up }) s))
  else s

def execFlitReceive (port : Nat) (hedge : Bool) (flit : Bytes) (s : State) : Answer :=
  .next (flitReceive port hedge flit s)
def execLinkRetry (port : Nat) (hedge : Bool) (s : State) : Answer := .next (linkRetry port hedge s)
def execLinkRetrain (port : Nat) (laneMask : W16) (farOk : Bool) (s : State) : Answer :=
  .next (linkRetrain port laneMask farOk s)
def execLinkRetrainAttempt (port : Nat) (laneMask : W16) (farOk : Bool) (s : State) : Answer :=
  .next (linkRetrainAttempt port laneMask farOk s)

end Sys2Proof.Machine
end

