-- ==== Sys2Proof/Machine/Operands.lean ====
section
/-!
DEFINITION. The operand forms of tasks: views of tensors (12 R246 to R248), how an element of a view is read, and how an
output view is written (03 R51 to R54, R58).
-/
namespace Sys2Proof.Machine

open Sys2Proof

/-- A view in its tensor. -/
structure Operand where
  index  : Nat
  tensor : TensorRec
  view   : ViewRec
  deriving DecidableEq, Repr

/-- An index or a tensor that names none. -/
def noneIndex : Nat := 0xFFFFFFFF

/-- View `i` of a segment, with its tensor. -/
def operandOf (s : State) (g : Segment) (i : Nat) : Option Operand :=
  match g.views[i]? with
  | none => none
  | some v => (findTensor s v.tensor).map fun t => ⟨v.tensor, t, v⟩

/-- A whole tensor as an operand. -/
def wholeOf (s : State) (i : Nat) : Option Operand :=
  (findTensor s i).map fun t => ⟨i, t, ⟨i, List.replicate 6 0, t.local⟩⟩

/-- Extent of a view along a dimension. -/
def Operand.span (o : Operand) (d : Nat) : Nat := o.view.span.getD d 1

/-- Elements of a row, rows, and elements in all. -/
def Operand.row (o : Operand) : Nat := o.span 0
def Operand.rows (o : Operand) : Nat := (o.view.span.drop 1).foldl (· * ·) 1
def Operand.elems (o : Operand) : Nat := o.row * o.rows

/-- Row-major index of coordinates in a view. -/
def Operand.linear (o : Operand) (c : List Nat) : Nat := rowIndex o.view.span c

/-- Coordinates of a row-major index. -/
def Operand.coords (o : Operand) (k : Nat) : List Nat := rowCoords o.view.span k

/-- The tensor's row and element within it of element `k` of a view. -/
def Operand.place (o : Operand) (k : Nat) : Nat × Nat :=
  let c := o.coords k
  (rowIndex (o.tensor.local.drop 1) (List.zipWith (· + ·) (o.view.start.drop 1) (c.drop 1)),
   o.view.start.getD 0 0 + c.headD 0)

/-- Element index within the whole tensor, not the shard (05 R103). -/
def Operand.wholeIndex (o : Operand) (k : Nat) : Nat :=
  let c := List.zipWith (· + ·) o.view.start (o.coords k)
  let c := if o.tensor.sharded then
      c.mapIdx fun d x => if d = o.tensor.shardDim then x + o.tensor.shard * (o.tensor.local.getD d 1) else x
    else c
  rowIndex o.tensor.extent c

/-- The bytes of an operand's tensor as a reader finds them, by offset from its home. -/
def tensorBytes (s : State) (r : Reader) (t : TensorRec) : Nat → Byte :=
  fun o => readByte s.mem s.run.head r (t.homeOffset + o)

/-- Element `k` of a view, exactly. -/
def Operand.value (o : Operand) (rd : Nat → Byte) (k : Nat) : Num :=
  let (r, i) := o.place k
  o.tensor.shape.value rd r i

/-- Element `k` of a view as its reader finds it. -/
def Operand.read (s : State) (r : Reader) (o : Operand) (k : Nat) : Num := o.value (tensorBytes s r o.tensor) k

/-- Every element of a view, row-major. -/
def Operand.values (s : State) (r : Reader) (o : Operand) : List Num := (List.range o.elems).map (o.read s r)

/-- Local byte ranges a view touches: its elements, row by row, and their scales. -/
def Operand.ranges (o : Operand) : List (Nat × Nat) :=
  let sh := o.tensor.shape
  let w := fmtWidth sh.fmt
  (List.range o.rows).flatMap fun r =>
    let (row, i) := o.place (r * o.row)
    let lo := (sh.slot row i) * w / 8
    let hi := ceilDiv ((sh.slot row i + o.row) * w) 8
    let elems := (o.tensor.homeOffset + lo, hi - lo)
    if fmtBlocked sh.fmt then
      let b := blockSize sh.block
      [elems, (o.tensor.homeOffset + sh.scaleBase + row * sh.rowBlocks + i / b, (i + o.row - 1) / b - i / b + 1)]
    else [elems]

/-- Poisoned lines of a view. -/
def Operand.poisoned (s : State) (o : Operand) : List Nat := o.ranges.flatMap fun x => poisonedIn s x.1 x.2

/-- Bytes of a view counted and heated as read or written. -/
def Operand.touched (write : Bool) (o : Operand) (s : State) : State :=
  o.ranges.foldl (fun s x => touch write x.1 x.2 s) s

/-! ### Writing a view -/

/-- What a write makes: its cells, the view elements it saturated, and those that met the event of 03 R60. -/
structure Written where
  cells : Cells := []
  sat   : List Nat := []
  bad   : List Nat := []
  deriving DecidableEq, Repr

def Written.join (a b : Written) : Written := ⟨a.cells ++ b.cells, a.sat ++ b.sat, a.bad ++ b.bad⟩

/-- One row of a view written from its exact values. -/
def Operand.writeRow (o : Operand) (r : Nat) (vs : List Num) : Written :=
  let sh := o.tensor.shape
  let (row, i) := o.place (r * o.row)
  let w := fmtWidth sh.fmt
  if fmtBlocked sh.fmt then
    let b := blockSize sh.block
    let blocks := chunksOf b (ceilDiv vs.length b) vs
    let done := blocks.map (writeBlock sh.fmt)
    let es := done.flatMap fun t => t.2.1 ++ List.replicate (b - t.2.1.length) 0
    let first := i / b
    { cells :=
        cellsAt (o.tensor.homeOffset + (sh.slot row (first * b)) * w / 8) (packElems w es) ++
        cellsAt (o.tensor.homeOffset + sh.scaleBase + row * sh.rowBlocks + first)
          (done.map fun t => BitVec.ofNat 8 t.1)
      sat := (done.mapIdx fun j t => t.2.2.map fun e => r * o.row + j * b + e).flatten
      bad := (blocks.mapIdx fun j vs =>
        (blockInfEvents sh.fmt vs).map fun e => r * o.row + j * b + e).flatten }
  else
    { cells := cellsAt (o.tensor.homeOffset + (sh.slot row i) * w / 8) (packElems w (vs.map (plainBits sh.fmt))) }

/-- A view written from the exact value of each of its elements. -/
def Operand.write (o : Operand) (v : Nat → Num) : Written :=
  (List.range o.rows).foldl (fun acc r =>
    acc.join (o.writeRow r ((List.range o.row).map fun i => v (r * o.row + i)))) {}

/-- A view of a format that is not block-scaled written from patterns. -/
def Operand.writePatterns (o : Operand) (v : Nat → Nat) : Cells :=
  let sh := o.tensor.shape
  let w := fmtWidth sh.fmt
  (List.range o.rows).flatMap fun r =>
    let (row, i) := o.place (r * o.row)
    cellsAt (o.tensor.homeOffset + (sh.slot row i) * w / 8)
      (packElems w ((List.range o.row).map fun k => v (r * o.row + k)))

/-- Slot of the saturations of a destination format (17 R362). -/
def satSlot (f : Nat) : Nat := 0x2D0 + f

end Sys2Proof.Machine
end

