-- ==== Sys2Proof/Machine/Groups.lean ====
section
/-!
DEFINITION. Groups (10 R194, R195): members, ranks, the group lead, from the definition bytes 16 to 63.
-/
namespace Sys2Proof.Machine

open Sys2Proof

/-- The axis word of axis i (0 is A). -/
def axisWord (b : Bytes) (i : Nat) : Nat := field b (4 + 2 * i) 2

def axisFirst (x : Nat) : Nat := bits x 0 4
def axisCount (x : Nat) : Nat := bits x 4 4 + 1
def axisStride (x : Nat) : Nat := bits x 8 4 + 1

/-- Member coordinates of an axis, by axis index. -/
def axisCoords (x : Nat) : List Nat := (List.range (axisCount x)).map fun i => axisFirst x + i * axisStride x

/-- The excluded IDs. -/
def excludedIds (b : Bytes) : List ModId :=
  ((List.range 16).map fun i => BitVec.ofNat 16 (field b (16 + 2 * i) 2)).filter (· != everyone)

/-- The coordinates of a definition that EXCLUDE does not name: the index on A varies fastest. -/
def groupMembers (b : Bytes) : List ModId :=
  let all := (axisCoords (axisWord b 3)).flatMap fun d => (axisCoords (axisWord b 2)).flatMap fun c =>
    (axisCoords (axisWord b 1)).flatMap fun bb => (axisCoords (axisWord b 0)).map fun a => modOf a bb c d
  let ex := excludedIds b
  all.filter fun m => !ex.contains m

/-- A module is of the run (R195): any module before a run or in a run of several holdings, whose extents this module does not
hold (log entry 27); in a run of one holding, its members. -/
def runMember (s : State) (m : ModId) : Bool := !(s.run.isOn && s.run.holdingCount == 1) || inHolding s.holding m

/-- The members of a definition, in rank order (R195). -/
def definedMembers (s : State) (b : Bytes) : List ModId := (groupMembers b).filter (runMember s)

/-- A definition breaks a field rule, or names a coordinate outside 0 to 15 or outside the hall (R196). -/
def groupBad (h : Holding) (b : Bytes) : Bool :=
  field b 0 2 == 0xFFFF || !zeroAt b 2 2 || decide (1 < byteAt b 12) || !zeroAt b 13 3 ||
  (List.range 4).any fun i =>
    bits (axisWord b i) 12 4 != 0 ||
    (axisCoords (axisWord b i)).any fun x => decide (15 < x) || decide (coord h.hallM1 i < x)

/-- The rank of a module. -/
def rankOf (ms : List ModId) (m : ModId) : Option Nat :=
  let i := ms.findIdx (· == m)
  if i < ms.length then some i else none

/-- The group held under a number. -/
def groupOf (s : State) (g : Nat) : Option Group := tget none s.coll.groups g

def membersOf (s : State) (g : Nat) : List ModId := ((groupOf s g).map fun x => definedMembers s x.def48).getD []

def mapGroups (f : Nat → Group → Group) (s : State) : State :=
  { s with coll.groups := s.coll.groups.map fun e => (e.1, e.2.map (f e.1)) }

/-- Index of a member on each axis, A first. -/
def axisIndex (b : Bytes) (m : ModId) : List Nat :=
  (List.range 4).map fun i => (axisCoords (axisWord b i)).findIdx (· == coord m i)

/-- The modules of the run: the members of this module's holding, and every module of another holding that has reported, less
those lost (log entry 27). -/
def runModules (s : State) : List ModId :=
  ((members s.holding ++ s.run.fronts.map (·.1)).eraseDups).filter fun m => !s.holding.lost.contains m

end Sys2Proof.Machine
end

