-- ==== Sys2Proof/Machine/Matrix.lean ====
section
/-!
DEFINITION. The matrix arrays (04): exact products, the reference order of an output element, its first NaN event, and the
write of results (R66 to R84).
-/
namespace Sys2Proof.Machine

open Sys2Proof

/-- An event before its element and unit are known: cause, stage, k. -/
abbrev RawEvent := Nat × Nat × Nat

/-- An output element in the making: wide buffer, accumulator, first event, whether the accumulator overflowed. -/
structure Cell where
  wide  : Num := .zero
  acc   : Num := .zero
  event : Option RawEvent := none
  overs  : Bool := false
  deriving DecidableEq, Repr

/-- Stint length of a resolved code (R72). -/
def stintLength (code : Nat) : Nat := 64 * 2 ^ code

/-- The first event stands; an element that is NaN already raises none (R83). -/
def Cell.raise (c : Cell) (e : RawEvent) : Cell :=
  if c.event.isSome || c.acc.isNan || c.wide.isNan then c else { c with event := some e }

/-- One product of a stint (R69, R70 step 3, R76, R77). `inner` marks an operand A that the task itself has made: its NaN
was an event where it arose and is none here (R83, 08 R159). -/
def Cell.product (inner : Bool) (k : Nat) (a b : Num) (c : Cell) : Cell :=
  let p := a.mul b
  let c := if (a.isNan && !inner) || b.isNan then c.raise (causeNanOperand, stageProduct, k)
    else if p.isNan && !a.isNan then c.raise (causeZeroTimesInf, stageProduct, k) else c
  let x := rnd32 (c.acc.add p)
  let c := if x.isNan && !p.isNan then c.raise (causeInfMinusInf, stageAccumulate, k) else c
  { c with acc := x, overs := c.overs || (c.acc.isFin && p.isFin && x.isInf) }

/-- The end of a stint (R70 step 4). A stint sum is never -0: R75 says so of the sum, against the sign that R57 gives to a
value rounded to zero (log entry 76). -/
def Cell.endStint (k : Nat) (c : Cell) : Cell :=
  let x := rnd64 (c.wide.add (if c.acc.isZero then .zero else c.acc))
  let c := if x.isNan && !c.acc.isNan then c.raise (causeInfMinusInf, stageWide, k) else c
  { c with wide := x, acc := .zero }

/-- Products k on, `n` of them, in stints of `s` (R70). -/
def refProducts (inner : Bool) (s last : Nat) (a b : Nat → Num) : Nat → Nat → Cell → Cell
  | 0, _, c => c
  | n + 1, k, c =>
    let c := c.product inner k (a k) (b k)
    let c := if (k + 1) % s = 0 ∨ k + 1 = last then c.endStint k else c
    refProducts inner s last a b n (k + 1) c

/-- An element before its first product (R70 step 1). `given` marks a preload whose NaN is an event (R74). -/
def startCell (pre : Num) (given : Bool) : Cell :=
  { wide := pre, event := if given && pre.isNan then some (causeNanOperand, stagePreload, 0xFFFFFFFF) else none }

/-- An output element by the reference order: preload, `len` products, stint length `s` (R70). -/
def refElement (s len : Nat) (pre : Num) (given : Bool) (a b : Nat → Num) : Cell :=
  refProducts false s len a b len 0 (startCell pre given)

/-- The same where operand A is the task's own (see `Cell.product`). -/
def innerElement (s len : Nat) (pre : Num) (given : Bool) (a b : Nat → Num) : Cell :=
  refProducts true s len a b len 0 (startCell pre given)

/-- A NaN event of a unit. -/
def nanEvent (unit out : Nat) (e : RawEvent) : NanEvent :=
  { outIndex := out, kIndex := e.2.2, cause := e.1, stage := e.2.1, unit := unit, gleaner := false }

/-- What a task run comes to before it publishes. -/
structure Work where
  cells    : Cells := []
  staged   : Bool := false
  events   : List NanEvent := []
  findings : W16 := 0
  counts   : List (Nat × Nat) := []
  status   : Nat := stOk
  contributions : List (Nat × List W32) := []
  /-- An address error of the task (11 R224). -/
  fail     : Bool := false
  /-- The first event where the order of 04 R84 is not that of the elements alone (08 R159). -/
  first    : Option NanEvent := none
  deriving DecidableEq, Repr

/-- Saturations of a destination format, counted (03 R55). -/
def satCount (fmt n : Nat) : List (Nat × Nat) := if n = 0 then [] else [(satSlot fmt, n)]

/-- Results written to output view `view`: cells, saturations, and the write events of 03 R60 on elements of the view that
raised none before (R83, R84: a write event lies after all k of its element). -/
def Work.written (unit kIndex view : Nat) (o : Operand) (w : Written) (x : Work) : Work :=
  let fresh := w.bad.filter fun i => !(x.events.any fun e => e.outIndex == i && e.view == view)
  { x with
    cells := x.cells ++ w.cells
    counts := x.counts ++ satCount o.tensor.format w.sat.length
    events := x.events ++ fresh.map fun i => { nanEvent unit i (causeNonFinite, stageWrite, kIndex) with view := view } }

/-- An exact value rounded once where the destination is not block-scaled is `Operand.write`; a binary64 result of the
arrays is written unchanged (R81). -/
def Work.put (unit kIndex view : Nat) (o : Operand) (v : Nat → Num) (x : Work) : Work :=
  x.written unit kIndex view o (o.write v)

def slotOverflow : Nat := 0x2E0

/-- The counter slot of products of two formats (17 R362). -/
def productSlot (fa fb : Nat) : Nat := 16 * fa + fb

/-- Elements whose accumulator overflowed, counted (R77). -/
def overCount (n : Nat) : List (Nat × Nat) := if n = 0 then [] else [(slotOverflow, n)]

/-- Elements of a matrix product in output view `view` computed: events on elements that raised none before, overflows and
products counted. -/
def Work.cellsDone (unit view : Nat) (fa fb len : Nat) (cs : List Cell) (x : Work) : Work :=
  let fresh := (cs.mapIdx fun i c => (c.event.map fun e => { nanEvent unit i e with view := view }).toList).flatten
  { x with
    events := x.events ++ fresh.filter fun n => !(x.events.any fun e => e.outIndex == n.outIndex && e.view == view)
    counts := x.counts ++ [(productSlot fa fb, len * cs.length)] ++ overCount (cs.filter (·.overs)).length }

/-! ### MATMUL (12 R252) -/

/-- The options of a MATMUL, PARAM byte 0. -/
structure MatmulForm where
  transA : Bool
  transB : Bool
  bias   : Bool
  deriving DecidableEq, Repr

def matmulForm (t : TaskRec) : MatmulForm :=
  let b := byteAt t.param 0
  ⟨bitOf b 0, bitOf b 1, bitOf b 2⟩

/-- The reduction extent K (04 R71). -/
def matmulK (f : MatmulForm) (a : Operand) : Nat := if f.transA then a.span 1 else a.span 0

/-- Coordinates in A and B of product k of output element (n, m, batch). -/
def coordsA (f : MatmulForm) (k : Nat) (c : List Nat) : List Nat :=
  let m := c.getD 1 0
  (if f.transA then [m, k] else [k, m]) ++ c.drop 2

def coordsB (f : MatmulForm) (k : Nat) (c : List Nat) : List Nat :=
  let n := c.getD 0 0
  (if f.transB then [k, n] else [n, k]) ++ c.drop 2

/-- Every output element of a MATMUL, row-major in C. -/
def matmulCells (s : State) (r : Reader) (f : MatmulForm) (stint : Nat) (a b : Operand) (pre : Option Operand)
    (c : Operand) : List Cell :=
  (List.range c.elems).map fun i =>
    let co := c.coords i
    let p := match pre with
      | none => Num.zero
      | some o => if f.bias then o.read s r (co.headD 0) else o.read s r i
    refElement (stintLength stint) (matmulK f a) p pre.isSome
      (fun k => a.read s r (a.linear (coordsA f k co))) (fun k => b.read s r (b.linear (coordsB f k co)))

end Sys2Proof.Machine
end

