-- ==== Sys2Proof/Machine/Transcendental.lean ====
section
/-!
DEFINITION. The functions of the vector engine (05 R97): 2^x, log2 x and erf x carried far beyond binary64 in fixed point,
the last bit sticky, then rounded once; and the reference decompositions over them.
-/
namespace Sys2Proof.Machine

open Sys2Proof

/-- Fraction bits of the fixed-point values. -/
def fixBits : Nat := 320

def fixOne : Nat := 2 ^ fixBits

/-- The sum of 1 / (k 2^k) for k from `k` on, `n` terms: ln 2 from k = 1. -/
def ln2From : Nat → Nat → Nat
  | 0, _ => 0
  | n + 1, k => fixOne / (k * 2 ^ k) + ln2From n (k + 1)

/-- ln 2. -/
def fixLn2 : Nat := ln2From 330 1

/-- The sum of term x^k / k! from a given term on. -/
def expFrom (x : Nat) : Nat → Nat → Nat → Nat
  | 0, _, _ => 0
  | n + 1, k, term => term + expFrom x n (k + 1) (term * x / (fixOne * (k + 1)))

/-- 2^f for a fraction f in fixed point. -/
def exp2Frac (f : Nat) : Nat := expFrom (f * fixLn2 / fixOne) 100 0 fixOne

/-- 2^v (05 R97: exact at an integer; -Inf gives +0; overflow gives +Inf). -/
def exp2Num : Num → Num
  | .nan => .nan
  | .inf n => if n then .zero else .inf false
  | .fin n m e =>
    if m = 0 then .ofNat 1
    else if 12 < (Nat.log2 m : Int) + e then (if n then .fin false 1 (-8192) else .fin false 1 8192)
    else
      let mag := shiftNat m (e + fixBits)
      let exact := decide (0 ≤ e + fixBits) || decide (m % 2 ^ (-(e + fixBits)).toNat = 0)
      let x : Int := if n then -(mag : Int) - (if exact then 0 else 1) else mag
      let i := x / fixOne
      let f := (x % fixOne).toNat
      if f = 0 ∧ exact then .fin false 1 i else .fin false (2 * exp2Frac f + 1) (i - fixBits - 1)

/-- The sum of t^(2k+1) / (2k+1), the powers of t from a given one on. -/
def atanhFrom (t2 : Nat) : Nat → Nat → Nat → Nat
  | 0, _, _ => 0
  | n + 1, k, p => p / (2 * k + 1) + atanhFrom t2 n (k + 1) (p * t2 / fixOne)

/-- log2 v (05 R97: exact at a power of 2; ±0 gives -Inf; below 0 is NaN). -/
def log2Num : Num → Num
  | .nan => .nan
  | .inf n => if n then .nan else .inf false
  | .fin n m e =>
    if m = 0 then .inf true
    else if n then .nan
    else
      let l := Nat.log2 m
      let i : Int := (l : Int) + e
      if 2 ^ l = m then .ofInt false i 0
      else
        let z := shiftNat m ((fixBits : Int) - l)
        let t := (z - fixOne) * fixOne / (z + fixOne)
        let lnz := 2 * atanhFrom (t * t / fixOne) 110 0 t
        let frac := lnz * fixOne / fixLn2
        .ofInt false (2 * (i * fixOne + frac) + 1) (-(fixBits : Int) - 1)

/-- arctan of 1/q by its series: alternating terms, the powers of 1/q from a given one on. -/
def atanFrom (q : Nat) : Nat → Nat → Nat → Int
  | 0, _, _ => 0
  | n + 1, k, p => (p / (2 * k + 1) : Nat) - atanFrom q n (k + 1) (p / (q * q))

/-- pi, as 16 arctan 1/5 - 4 arctan 1/239. -/
def fixPi : Nat := (16 * atanFrom 5 80 0 (fixOne / 5) - 4 * atanFrom 239 40 0 (fixOne / 239)).toNat

/-- The sum of (-u)^k / (k! (2k+1)), the terms u^k / k! from a given one on. -/
def erfFrom (u : Nat) : Nat → Nat → Nat → Int
  | 0, _, _ => 0
  | n + 1, k, term => (term / (2 * k + 1) : Nat) - erfFrom u n (k + 1) (term * u / (fixOne * (k + 1)))

/-- erf of a finite value below 4 in magnitude: x times its even series, and 2 / sqrt(pi). -/
def erfNum : Num → Num
  | .fin n m e =>
    if m = 0 then .fin n 0 0
    else
      let u := shiftNat (m * m) (2 * e + fixBits)
      let s := (erfFrom u 220 0 fixOne).toNat
      let root := isqrt (fixPi * fixOne)
      .fin n (2 * (m * (2 * s * fixOne / root)) + 1) (e - fixBits - 1)
  | v => v

/-! ### The reference decompositions (05 R97) -/

/-- L64 and N64: log2 e and ln 2 in binary64. -/
def numL64 : Num := ofB64 0x3FF71547652B82FE
def numN64 : Num := ofB64 0x3FE62E42FEFA39EF

/-- CR64(log2 x). -/
def cr64Log2 (v : Num) : Num := rnd64 (log2Num v)

def fnExp (v : Num) : Num := rnd32 (exp2Num (rnd64 (v.mul numL64)))

def fnLog (v : Num) : Num := rnd32 ((cr64Log2 v).mul numN64)

def fnSigmoid (v : Num) : Num :=
  rnd32 ((Num.ofNat 1).div (rnd64 ((Num.ofNat 1).add (rnd64 (exp2Num (rnd64 (v.neg.mul numL64)))))))

/-- Magnitude restored to the sign of its argument. -/
def withSign (n : Bool) (v : Num) : Num := if n then v.neg else v

def fnTanh (v : Num) : Num :=
  match v with
  | .nan => .nan
  | .inf n => withSign n (.ofNat 1)
  | .fin n _ _ =>
    if v.abs.lt (.fin false 1 (-12)) then v
    else
      let t := rnd64 (exp2Num (rnd64 ((Num.fin true 2 0).mul (v.abs.mul numL64))))
      withSign n (rnd32 ((rnd64 ((Num.ofNat 1).sub t)).div (rnd64 ((Num.ofNat 1).add t))))

def fnErf (v : Num) : Num :=
  match v with
  | .nan => .nan
  | .inf n => withSign n (.ofNat 1)
  | .fin n m _ =>
    if m = 0 then v
    else if (Num.ofNat 4).le v.abs then withSign n (.ofNat 1)
    else rnd32 (rnd64 (erfNum v))

/-- 1 / sqrt(v): one rounding of the exact value, the root carried beyond it. ±0 gives ±Inf; +Inf gives +0. -/
def fnRsqrt (v : Num) : Num :=
  match v with
  | .nan => .nan
  | .inf n => if n then .nan else .zero
  | .fin n m _ => if m = 0 then .inf n else if n then .nan else rnd32 ((Num.ofNat 1).div v.sqrt)

end Sys2Proof.Machine
end

