-- ==== Sys2Proof/Machine/Vector.lean ====
section
/-!
DEFINITION. The vector engine (05): the instruction word, each instruction on the lanes of a core, the lane-fold order, the
seed drill generator, and a whole vector program (R89 to R98, R103).
-/
namespace Sys2Proof.Machine

open Sys2Proof

/-! ### Opcodes (R93) -/

def vecCode : VecOp → Nat
  | .nop => 0x00 | .mov => 0x01 | .add => 0x02 | .sub => 0x03 | .mul => 0x04 | .fma => 0x05 | .min => 0x06
  | .max => 0x07 | .abs => 0x08 | .neg => 0x09 | .div => 0x0A | .rcp => 0x0B | .sqrt => 0x0C | .rsqrt => 0x0D
  | .exp2 => 0x0E | .log2 => 0x0F | .exp => 0x10 | .log => 0x11 | .tanh => 0x12 | .erf => 0x13 | .sigmoid => 0x14
  | .cmpeq => 0x18 | .cmplt => 0x19 | .cmple => 0x1A | .cmpgt => 0x1B | .cmpge => 0x1C | .cmpun => 0x1D
  | .mand => 0x1E | .mor => 0x1F | .mandn => 0x20 | .sel => 0x21 | .compress => 0x28 | .expand => 0x29
  | .redsum => 0x30 | .redmax => 0x31 | .redmin => 0x32 | .wacc => 0x34 | .wsum => 0x35 | .cvti => 0x38
  | .cvtf => 0x39 | .iadd => 0x3A | .iand => 0x3B | .ixor => 0x3C | .laneidx => 0x3D | .randu => 0x40
  | .randb => 0x41 | .load => 0x48 | .store => 0x49

def vecOps : List VecOp :=
  [.nop, .mov, .add, .sub, .mul, .fma, .min, .max, .abs, .neg, .div, .rcp, .sqrt, .rsqrt, .exp2, .log2, .exp, .log,
   .tanh, .erf, .sigmoid, .cmpeq, .cmplt, .cmple, .cmpgt, .cmpge, .cmpun, .mand, .mor, .mandn, .sel, .compress, .expand,
   .redsum, .redmax, .redmin, .wacc, .wsum, .cvti, .cvtf, .iadd, .iand, .ixor, .laneidx, .randu, .randb, .load, .store]

/-- The opcode of a code; every code not listed is reserved. -/
def vecOfCode (c : Nat) : Option VecOp := vecOps.find? fun o => vecCode o == c

/-- The fields of an instruction word (R92). -/
def vecArgs (w : Nat) : VecArgs :=
  { mask := bits w 8 3, zero := bitOf w 11, vd := bits w 12 5, va := bits w 17 5, vb := bits w 22 5, bsel := bits w 27 2,
    vc := bits w 32 5, imm := BitVec.ofNat 32 (bits w 32 32) }

/-- The reserved fields of an instruction word are 0. -/
def vecWordOk (w : Nat) : Bool := bits w 29 3 == 0 && bits w 27 2 != 3 && (bits w 27 2 == 2 || bits w 37 27 == 0)

/-- The operands of an instruction name what it may act on: `nin` operand and `nout` output views, and in the tail or not
(R94). -/
def vecFits (nin nout : Nat) (tail : Bool) (op : VecOp) (a : VecArgs) : Bool :=
  (match op with
   | .cmpeq | .cmplt | .cmple | .cmpgt | .cmpge | .cmpun | .mand | .mor | .mandn =>
     decide (1 ≤ a.vd) && decide (a.vd ≤ 7)
   | .wacc => decide (a.vd ≤ 3)
   | .wsum => decide (a.va ≤ 3)
   | .load | .randu | .randb => decide (a.va < nin) && !tail
   | .store => decide (a.vb < nout)
   | _ => true) && (a.bsel != 1 || decide (a.vb < 16)) && a.bsel != 3

/-! ### Lanes -/

def laneCount : Nat := 64

def vReg (c : VecCtx) (r : Nat) : List W32 := tget (List.replicate 64 0) c.v r
def mReg (c : VecCtx) (r : Nat) : BitVec 64 := if r = 0 then c.live else tget 0 c.m r
def dReg (c : VecCtx) (r : Nat) : List W64 := tget (List.replicate 64 0) c.d r
def zReg (c : VecCtx) (r : Nat) : W32 := tget 0 c.z r

def setV (r : Nat) (x : List W32) (c : VecCtx) : VecCtx := { c with v := tset (List.replicate 64 0) c.v r x }
def setM (r : Nat) (x : BitVec 64) (c : VecCtx) : VecCtx := { c with m := tset 0 c.m r x }
def setD (r : Nat) (x : List W64) (c : VecCtx) : VecCtx := { c with d := tset (List.replicate 64 0) c.d r x }

/-- A mask from its lanes. -/
def maskOf (f : Nat → Bool) : BitVec 64 := BitVec.ofNat 64 (pack ((List.range 64).map fun j => (1, b2n (f j))))

/-- The lanes an instruction acts on (R95): live, and set in M[MASK]; SEL is not predicated. -/
def acting (op : VecOp) (a : VecArgs) (c : VecCtx) : BitVec 64 :=
  if op = .sel then c.live else c.live &&& mReg c a.mask

/-- Operand B of lane j. -/
def operandB (a : VecArgs) (c : VecCtx) (j : Nat) : W32 :=
  if a.bsel = 2 then a.imm else if a.bsel = 1 then zReg c a.vb else (vReg c a.vb).getD j 0

/-- Operand C of lane j: VD where an immediate takes its place. -/
def operandC (a : VecArgs) (c : VecCtx) (j : Nat) : W32 :=
  if a.bsel = 2 then (vReg c a.vd).getD j 0 else (vReg c a.vc).getD j 0

/-- A V register written: acting lanes the result; live lanes predicated off +0 or unchanged; other lanes unchanged. -/
def writeLanes (act : BitVec 64) (a : VecArgs) (f : Nat → W32) (c : VecCtx) : VecCtx :=
  setV a.vd ((List.range 64).map fun j =>
    if act.getLsbD j then f j
    else if c.live.getLsbD j && a.zero then 0
    else (vReg c a.vd).getD j 0) c

/-- An event of lane j at the present instruction: the lane's first in its group (R96). -/
def raiseLane (stage j cause : Nat) (c : VecCtx) : VecCtx :=
  if c.raised.getLsbD j then c
  else { c with
    raised := c.raised ||| BitVec.twoPow 64 j
    events := c.events ++
      [{ outIndex := c.first + j, kIndex := c.pc, cause := cause, stage := stage, unit := 0, gleaner := false }] }

/-! ### Lane arithmetic (R93, R96, R97) -/

/-- A result, and the cause of a NaN it made from operands of which none is NaN. -/
abbrev Lane := W32 × Option Nat

/-- A rounded result with the cause of its NaN when no operand is NaN. -/
def made (operandNan : Bool) (cause : Nat) (v : Num) : Lane :=
  (toB32 v, if v.isNan && !operandNan then some cause else none)

/-- -0 lies below +0. -/
def numMin (x y : Num) : Num :=
  if x.isNan || y.isNan then .nan else if x.isZero && y.isZero then (if x.sign then x else y) else if y.lt x then y else x

def numMax (x y : Num) : Num :=
  if x.isNan || y.isNan then .nan else if x.isZero && y.isZero then (if x.sign then y else x) else if x.lt y then y else x

/-- The value instructions on operands A, B, C. MOV (and SEL) move the bits of B as they are, those of a NaN too: R96 gives
0x7FC0_0000 to the NaN results of arithmetic and does not say whether a move is arithmetic (DESIGN CHOICE, log entry 77). -/
def vecAlu (op : VecOp) (a b c : W32) : Lane :=
  let x := ofB32 a
  let y := ofB32 b
  let nan2 := x.isNan || y.isNan
  match op with
  | .mov => (b, none)
  | .add => made nan2 causeInfMinusInf (x.add y)
  | .sub => made nan2 causeInfMinusInf (x.sub y)
  | .mul => made nan2 causeZeroTimesInf (x.mul y)
  | .fma =>
    let z := ofB32 c
    let p := x.mul y
    made (nan2 || z.isNan) (if p.isNan then causeZeroTimesInf else causeInfMinusInf) (p.add z)
  | .min => (toB32 (numMin x y), none)
  | .max => (toB32 (numMax x y), none)
  | .abs => (toB32 x.abs, none)
  | .neg => (toB32 x.neg, none)
  | .div => made nan2 causeDomain (x.div y)
  | .rcp => made x.isNan causeDomain ((Num.ofNat 1).div x)
  | .sqrt => made x.isNan causeDomain x.sqrt
  | .rsqrt => made x.isNan causeDomain (fnRsqrt x)
  | .exp2 => made x.isNan causeDomain (exp2Num x)
  | .log2 => made x.isNan causeDomain (log2Num x)
  | .exp => made x.isNan causeDomain (fnExp x)
  | .log => made x.isNan causeDomain (fnLog x)
  | .tanh => made x.isNan causeDomain (fnTanh x)
  | .erf => made x.isNan causeDomain (fnErf x)
  | .sigmoid => made x.isNan causeDomain (fnSigmoid x)
  | .cvti => (BitVec.ofNat 32 (plainBits fINT32 x), if x.isFin then none else some causeNonFinite)
  | .cvtf => (toB32 (.ofInt false a.toInt 0), none)
  | .iadd => (a + b, none)
  | .iand => (a &&& b, none)
  | .ixor => (a ^^^ b, none)
  | _ => (a, none)

/-- The compares. -/
def vecCompare (op : VecOp) (a b : W32) : Bool :=
  let x := ofB32 a
  let y := ofB32 b
  match op with
  | .cmpeq => x.eq y
  | .cmplt => x.lt y
  | .cmple => x.le y
  | .cmpgt => y.lt x
  | .cmpge => y.le x
  | .cmpun => x.isNan || y.isNan
  | _ => false

/-! ### Sums (R98) -/

/-- A fold in binary64, each add rounded. -/
def fold64 (vs : List Num) : Num := vs.foldl (fun t v => rnd64 (t.add v)) .zero

/-- The lane-fold order over the values of a row. -/
def laneFold (vs : List Num) : Num :=
  fold64 ((List.range 64).map fun j =>
    fold64 ((List.range (ceilDiv (vs.length - j) 64)).map fun g => vs.getD (64 * g + j) .zero))

/-! ### The seed drill generator (R103) -/

def drillMix (x c : W64) : W64 :=
  let x := (x ^^^ (x >>> 32)) * c
  x ^^^ (x >>> 29)

def drillDraw (seed p : W64) (h i d : Nat) : W64 :=
  let w := BitVec.ofNat 64 (d * 2 ^ 59) ||| BitVec.ofNat 64 (h * 2 ^ 40) ||| BitVec.ofNat 64 i
  drillMix (drillMix (drillMix (drillMix (seed ^^^ p) 0xD3A56C1B27E94F85 ^^^ w) 0x8F1BC4D25A36E9C7)
    0xA6E30B579C2D8F13) 0xC97B25E14D803A6B

/-! ### One instruction -/

/-- What an instruction meets outside the engine: an operand view's element, a draw, the formats of the views, and the
elements of an output view whose STORE is an event (03 R60: Inf in a finite-only block that holds no NaN). -/
structure VecEnv where
  load     : Nat → Nat → Num
  draw     : Nat → Nat → Nat → W64
  inFmt    : Nat → Nat
  outFmt   : Nat → Nat
  badStore : Nat → Nat → Bool

/-- Lanes of a mask, ascending. -/
def lanesOf (m : BitVec 64) : List Nat := (List.range 64).filter fun j => m.getLsbD j

/-- Events raised on lanes, ascending. -/
def raiseLanes (stage : Nat) (f : Nat → Option Nat) (js : List Nat) (c : VecCtx) : VecCtx :=
  js.foldl (fun c j => match f j with
    | some cause => raiseLane stage j cause c
    | none => c) c

/-- A value instruction. -/
def vecValue (op : VecOp) (a : VecArgs) (c : VecCtx) : VecCtx :=
  let act := acting op a c
  let r := fun j => vecAlu op ((vReg c a.va).getD j 0) (operandB a c j) (operandC a c j)
  writeLanes act a (fun j => (r j).1) (raiseLanes stageVector (fun j => (r j).2) (lanesOf act) c)

/-- A compare writes 0 on every lane it does not act on. -/
def vecCmp (op : VecOp) (a : VecArgs) (c : VecCtx) : VecCtx :=
  let act := acting op a c
  setM a.vd (maskOf fun j =>
    act.getLsbD j && vecCompare op ((vReg c a.va).getD j 0) (operandB a c j)) c

/-- A mask operation. -/
def vecMask (op : VecOp) (a : VecArgs) (c : VecCtx) : VecCtx :=
  let act := acting op a c
  let x := mReg c (a.va % 8)
  let y := mReg c (a.vb % 8)
  let r := match op with
    | .mand => x &&& y
    | .mor => x ||| y
    | _ => x &&& ~~~y
  let old := mReg c a.vd
  setM a.vd (maskOf fun j =>
    if act.getLsbD j then r.getLsbD j
    else if c.live.getLsbD j && a.zero then false
    else old.getLsbD j) c

/-- SEL on every live lane. -/
def vecSel (a : VecArgs) (c : VecCtx) : VecCtx :=
  let m := mReg c a.mask
  writeLanes c.live a (fun j => if m.getLsbD j then (vReg c a.va).getD j 0 else operandB a c j) c

/-- COMPRESS: the acting lanes' values to lanes 0 up, +0 above, M7 over them. -/
def vecCompress (a : VecArgs) (c : VecCtx) : VecCtx :=
  let js := lanesOf (acting .compress a c)
  let vals := js.map fun j => (vReg c a.va).getD j 0
  setM 7 (maskOf fun j => decide (j < js.length)) (setV a.vd (vals ++ List.replicate (64 - vals.length) 0) c)

/-- EXPAND: the r-th acting lane takes lane r of A. -/
def vecExpand (a : VecArgs) (c : VecCtx) : VecCtx :=
  let act := acting .expand a c
  let js := lanesOf act
  writeLanes act a (fun j => (vReg c a.va).getD (js.filter (· < j)).length 0) c

/-- A value to every live lane. -/
def toLive (vd : Nat) (x : W32) (c : VecCtx) : VecCtx :=
  setV vd ((List.range 64).map fun j => if c.live.getLsbD j then x else (vReg c vd).getD j 0) c

/-- The cross-lane reductions. R98 says of REDSUM that it writes every live lane; REDMAX and REDMIN do so too here (DESIGN
CHOICE, log entry 77). -/
def vecReduce (op : VecOp) (a : VecArgs) (c : VecCtx) : VecCtx :=
  let vs := (lanesOf (acting op a c)).map fun j => ofB32 ((vReg c a.va).getD j 0)
  let r := match op with
    | .redmax => vs.foldl numMax (.inf true)
    | .redmin => vs.foldl numMin (.inf false)
    | _ => fold64 vs
  toLive a.vd (toB32 r) c

/-- WACC on the acting lanes. -/
def vecWacc (a : VecArgs) (c : VecCtx) : VecCtx :=
  let act := acting .wacc a c
  let d := dReg c a.vd
  let r := fun j =>
    let x := ofB64 (d.getD j 0)
    let y := ofB32 ((vReg c a.va).getD j 0)
    let z := rnd64 (x.add y)
    (toB64 z, if z.isNan && !x.isNan && !y.isNan then some causeInfMinusInf else none)
  let c := raiseLanes stageVector (fun j => (r j).2) (lanesOf act) c
  setD a.vd ((List.range 64).map fun j =>
    if act.getLsbD j then (r j).1
    else if c.live.getLsbD j && a.zero then 0
    else d.getD j 0) c

/-- WSUM: the fold of a D register's lanes to every live lane. -/
def vecWsum (a : VecArgs) (c : VecCtx) : VecCtx :=
  toLive a.vd (toB32 (fold64 ((dReg c a.va).map ofB64))) c

/-- LOAD: a NaN encoding or an element of a 0xFF block is an event. -/
def vecLoad (env : VecEnv) (a : VecArgs) (c : VecCtx) : VecCtx :=
  let act := acting .load a c
  let r := fun j => env.load a.va (c.first + j)
  writeLanes act a (fun j => toB32 (r j))
    (raiseLanes stageVector (fun j => if (r j).isNan then some causeNanOperand else none) (lanesOf act) c)

/-- The draws. -/
def vecDraw (env : VecEnv) (op : VecOp) (a : VecArgs) (c : VecCtx) : VecCtx :=
  writeLanes (acting op a c) a (fun j =>
    let x := env.draw a.va (c.first + j) a.vb
    if op = .randu then toB32 (.fin false (x.toNat / 2 ^ 40) (-24)) else BitVec.ofNat 32 (x.toNat / 2 ^ 32)) c

/-- STORE: every live element of the view; lanes predicated off store +0. The write event of a stored Inf is its lane's event
(R96). -/
def vecStore (env : VecEnv) (a : VecArgs) (c : VecCtx) : VecCtx :=
  let act := acting .store a c
  let bad := fun j => if env.badStore a.vb (c.first + j) then some causeNonFinite else none
  raiseLanes stageWrite bad (lanesOf act)
    { c with stores := c.stores ++ (lanesOf c.live).map fun j =>
        (a.vb, c.first + j, if act.getLsbD j then (vReg c a.va).getD j 0 else 0) }

/-- One instruction on a core's lanes; the index of the next instruction. -/
def vecInstr (env : VecEnv) (op : VecOp) (a : VecArgs) (c : VecCtx) : VecCtx :=
  let c' := match op with
    | .nop => c
    | .cmpeq | .cmplt | .cmple | .cmpgt | .cmpge | .cmpun => vecCmp op a c
    | .mand | .mor | .mandn => vecMask op a c
    | .sel => vecSel a c
    | .compress => vecCompress a c
    | .expand => vecExpand a c
    | .redsum | .redmax | .redmin => vecReduce op a c
    | .wacc => vecWacc a c
    | .wsum => vecWsum a c
    | .laneidx => writeLanes (acting op a c) a (fun j => BitVec.ofNat 32 (c.first + j)) c
    | .randu | .randb => vecDraw env op a c
    | .load => vecLoad env a c
    | .store => vecStore env a c
    | .mov | .add | .sub | .mul | .fma | .min | .max | .abs | .neg | .div | .rcp | .sqrt | .rsqrt | .exp2 | .log2
    | .exp | .log | .tanh | .erf | .sigmoid | .cvti | .cvtf | .iadd | .iand | .ixor => vecValue op a c
  { c' with pc := c.pc + 1 }

/-- What an instruction counts (17 R362): acting lanes by opcode, elements of LOAD and STORE by format. -/
def vecCounts (env : VecEnv) (op : VecOp) (a : VecArgs) (c : VecCtx) : List (Nat × Nat) :=
  let n := (lanesOf (acting op a c)).length
  [(0x100 + vecCode op, n)] ++
    (match op with
     | .load => [(0x200 + env.inFmt a.va, n)]
     | .store => [(0x210 + env.outFmt a.vb, (lanesOf c.live).length)]
     | _ => [])

/-! ### Programs (R90, R91) -/

/-- A program's header. -/
structure VecHeader where
  len        : Nat
  tailStart  : Nat
  level      : Nat
  seedSelect : Bool
  seed       : W64
  z          : List W32
  deriving DecidableEq, Repr

def vecHeader (img : Bytes) : VecHeader :=
  { len := bits (field img 0 4) 0 11, tailStart := bits (field img 0 4) 16 11, level := byteAt img 4,
    seedSelect := bitOf (byteAt img 5) 0, seed := BitVec.ofNat 64 (field img 8 8),
    z := (List.range 16).map fun i => BitVec.ofNat 32 (field img (32 + 4 * i) 4) }

/-- The reserved bits of the header are 0 and its fields in range (R90, R94). -/
def vecHeaderOk (img : Bytes) : Bool :=
  let h := vecHeader img
  let w := field img 0 8
  decide (128 ≤ img.length) && decide (1 ≤ h.len) && decide (h.len ≤ 1024) && decide (h.tailStart ≤ h.len) &&
    h.level == 1 && bits w 11 5 == 0 && bits w 27 5 == 0 && bits w 41 23 == 0 && zeroAt img 16 16 && zeroAt img 96 32

/-- Instruction i of an image. -/
def vecWord (img : Bytes) (i : Nat) : Nat := field img (128 + 8 * i) 8

/-- The registers at the start of a group (R89): D is kept from group to group of a row. -/
def groupStart (live : Nat) (first : Nat) (tail : Bool) (row group : Nat) (v0 : Option (List W32)) (c : VecCtx) : VecCtx :=
  let nan := fun j => match v0 with
    | some vs => (ofB32 (vs.getD j 0)).isNan
    | none => false
  { c with
    v := match v0 with
      | some vs => tset (List.replicate 64 0) [] 0 vs
      | none => []
    live := maskOf fun j => decide (j < live)
    m := []
    first := first
    tail := tail
    row := row
    group := group
    raised := maskOf nan }

/-- Instructions i to i + n - 1 of an image run in order. -/
def runInstrs (env : VecEnv) (img : Bytes) : Nat → Nat → VecCtx × List (Nat × Nat) → VecCtx × List (Nat × Nat)
  | 0, _, x => x
  | n + 1, i, (c, k) =>
    let w := vecWord img i
    match vecOfCode (bits w 0 8) with
    | none => (c, k)
    | some op =>
      let a := vecArgs w
      let c := { c with pc := i }
      runInstrs env img n (i + 1) (vecInstr env op a c, k ++ vecCounts env op a c)

/-- Group g of a row of `n` elements begins (R91); D is cleared at the first. -/
def bodyStart (n row g : Nat) (c : VecCtx) : VecCtx :=
  let first := row * n + 64 * g
  let v0 := c.input.map fun vs => (List.range 64).map fun j => if 64 * g + j < n then vs.getD (first + j) 0 else 0
  groupStart (min 64 (n - 64 * g)) first false row g v0 (if g = 0 then { c with d := [] } else c)

/-- The tail of a row begins: lane 0 alone is live, and the row's index is its element. R89 gives the state of the registers
at the start of a group; the tail starts with V and M cleared, V0 of an epilogue with them, and with no event raised (DESIGN
CHOICE, log entry 77). -/
def tailStart (row : Nat) (c : VecCtx) : VecCtx := groupStart 1 row true row 0 none c

/-- One row of the iteration space: its groups in ascending order, then the tail (R91). -/
def runRow (env : VecEnv) (img : Bytes) (n row : Nat) (x : VecCtx × List (Nat × Nat)) : VecCtx × List (Nat × Nat) :=
  let h := vecHeader img
  let x := (List.range (ceilDiv n 64)).foldl (fun x g => runInstrs env img h.tailStart 0 (bodyStart n row g x.1, x.2)) x
  if h.tailStart = h.len then x
  else runInstrs env img (h.len - h.tailStart) h.tailStart (tailStart row x.1, x.2)

/-- An engine loaded with a program's Z registers and its lane input (R89, 04 R82). -/
def loadEngine (img : Bytes) (input : Option (List W32)) : VecCtx :=
  { z := (List.range 16).foldl (fun z i => tset 0 z i ((vecHeader img).z.getD i 0)) [], input := input }

/-- A whole program over `rows` rows of `n` elements. -/
def runProgram (env : VecEnv) (img : Bytes) (rows n : Nat) (input : Option (List W32)) : VecCtx × List (Nat × Nat) :=
  (List.range rows).foldl (fun x r => runRow env img n r x) (loadEngine img input, [])

/-- An engine that stands at the end of a section goes on to the next group, the tail or the next row (R91); after the last
section it stays. -/
def nextSection (img : Bytes) (rows n : Nat) (c : VecCtx) : VecCtx :=
  let h := vecHeader img
  let nextRow := if c.row + 1 < rows then { bodyStart n (c.row + 1) 0 c with pc := 0 } else c
  if c.tail then (if c.pc < h.len then c else nextRow)
  else if c.pc < h.tailStart then c
  else if c.group + 1 < ceilDiv n 64 ∧ 0 < h.tailStart then { bodyStart n c.row (c.group + 1) c with pc := 0 }
  else if h.tailStart < h.len then { tailStart c.row c with pc := h.tailStart }
  else nextRow

/-- The pattern stored to an element of an output view; the last store stands. An element that no STORE of the program has
written is +0 (DESIGN CHOICE, log entry 77: R95 speaks of the elements that are stored). -/
def storedAt (c : VecCtx) (view k : Nat) : W32 :=
  match (c.stores.filter fun x => x.1 == view && x.2.1 == k).getLast? with
  | some x => x.2.2
  | none => 0

end Sys2Proof.Machine
end

