-- ==== Sys2Proof/Machine/RowKinds.lean ====
section
/-!
DEFINITION. What the task kinds of the cores compute, given their operands (12 R252): matrix products with an epilogue,
vector programs, NORM, SOFTMAX, LOSS (05 R99 to R101), attention (R102), GATHER, SCATTER and MOVE.
-/
namespace Sys2Proof.Machine

open Sys2Proof

/-! ### Programs of a task -/

/-- The image of a task's vector program. -/
def programImage (g : Segment) (off : Nat) : Bytes :=
  let len := (vecHeader (g.programs.drop off)).len
  slice g.programs off (128 + 8 * len)

/-- What a program of a task reads outside the engine. An operand view of extent 1 in a dimension serves every coordinate
of it (log entry 21). -/
def programEnv (s : State) (r : Reader) (gate : Pos) (img : Bytes) (ins outs : List Operand) : VecEnv :=
  let h := vecHeader img
  let seed := if h.seedSelect then h.seed else s.run.seed
  let space := outs.headD ⟨0, ⟨0, 0, 0, false, false, false, 0, 0, false, 0, 0, 0, [], 0xFFFF, 1, 0, true⟩, ⟨0, [], []⟩⟩
  let place := fun (o : Operand) (k : Nat) =>
    o.linear (List.zipWith (fun x n => if n = 1 then 0 else x) (space.coords k) o.view.span)
  { load := fun v k => match ins[v]? with
      | some o => o.read s r (place o k)
      | none => .zero
    draw := fun v k d => match ins[v]? with
      | some o => drillDraw seed gate o.index (o.wholeIndex (place o k)) d
      | none => 0
    inFmt := fun v => ((ins[v]?).map fun o => o.tensor.format).getD 0
    outFmt := fun v => ((outs[v]?).map fun o => o.tensor.format).getD 0
    badStore := fun _ _ => false }

/-- The environment once the values stored are known: an Inf in a finite-only block of an output view that holds no NaN is
the event of its STORE (03 R54, R60). -/
def withStores (outs : List Operand) (c : VecCtx) (env : VecEnv) : VecEnv :=
  let bads := (outs.zipIdx).map fun e => (e.1.write fun k => ofB32 (storedAt c e.2 k)).bad
  { env with badStore := fun v k => (bads.getD v []).contains k }

/-- A program over its output view 0, which is the iteration space where a task has several (DESIGN CHOICE, log entry 77: R91
names the task's output view). What a lane stores decides which STOREs are events, so the program is followed once for the
values and once for the events. -/
def programRun (s : State) (r : Reader) (gate : Pos) (img : Bytes) (ins outs : List Operand) (input : Option (List W32)) :
    VecCtx × List (Nat × Nat) :=
  match outs with
  | [] => ({}, [])
  | space :: _ =>
    let env := programEnv s r gate img ins outs
    let c := (runProgram env img space.rows space.row input).1
    runProgram (withStores outs c env) img space.rows space.row input

/-- The unit that runs a task put into the events its program raised. -/
def atUnit (unit : Nat) (es : List NanEvent) : List NanEvent := es.map fun e => { e with unit := unit }

/-- The views a program stored, written: binary32 lane values under 03 R53 or R57, INT32 patterns as they are. The write
events are the STOREs' own (05 R96). -/
def putStores (c : VecCtx) (outs : List Operand) (x : Work) : Work :=
  (outs.zipIdx).foldl (fun x e =>
    let (o, v) := e
    if o.tensor.format = fINT32 then
      { x with cells := x.cells ++ o.writePatterns fun k => (storedAt c v k).toNat }
    else
      let w := o.write fun k => ofB32 (storedAt c v k)
      { x with cells := x.cells ++ w.cells, counts := x.counts ++ satCount o.tensor.format w.sat.length }) x

/-- A vector program as the body of a task (05 R91). -/
def vectorWork (s : State) (r : Reader) (unit : Nat) (gate : Pos) (img : Bytes) (ins outs : List Operand) : Work :=
  let (c, k) := programRun s r gate img ins outs none
  putStores c outs { events := atUnit unit c.events, counts := k }

/-- The lane input of an epilogue: each wide buffer rounded once to binary32 (04 R82). -/
def laneInput (cs : List Cell) : List W32 := cs.map fun c => toB32 c.wide

/-- A MATMUL, its epilogue included (04 R81, R82; 12 R252). -/
def matmulWork (s : State) (r : Reader) (unit : Nat) (gate : Pos) (t : TaskRec) (img : Option Bytes)
    (a b : Operand) (pre : Option Operand) (c : Operand) : Work :=
  let f := matmulForm t
  let cs := matmulCells s r f t.stint a b pre c
  let x := ({} : Work).cellsDone unit 0 a.tensor.format b.tensor.format (matmulK f a) cs
  match img with
  | none => x.put unit (matmulK f a) 0 c fun k => (cs.getD k {}).wide
  | some img =>
    let (v, k) := programRun s r gate img ([a, b] ++ pre.toList) [c] (some (laneInput cs))
    putStores v [c] { x with events := x.events ++ atUnit unit v.events, counts := x.counts ++ k }

/-! ### Rows -/

/-- The values of row `i` of a view, widened to binary32 (05: rows of the fixed orders). -/
def rowValues (s : State) (r : Reader) (o : Operand) (i : Nat) : List Num :=
  (List.range o.row).map fun j => rnd32 (o.read s r (i * o.row + j))

/-- Events of a row's elements: the first cause found for each element, with its step (05 R96, R99). -/
def rowEvents (unit base : Nat) (es : List (Option (Nat × Nat))) : List NanEvent :=
  (es.mapIdx fun i e => (e.map fun (cause, step) => nanEvent unit (base + i) (cause, stageVector, step)).toList).flatten

/-- The first of two findings. -/
def firstOf (a b : Option (Nat × Nat)) : Option (Nat × Nat) := if a.isSome then a else b

/-- A row event charged to the row's lowest element when that element has none. -/
def headEvent (e : Option (Nat × Nat)) : List (Option (Nat × Nat)) → List (Option (Nat × Nat))
  | [] => []
  | x :: t => firstOf x e :: t

/-- NaN operands of a row: cause 1 in a step. -/
def nanOperands (step : Nat) (vs : List Num) : List (Option (Nat × Nat)) :=
  vs.map fun v => if v.isNan then some (causeNanOperand, step) else none

/-- One row of NORM (R99; the write of step 6 raises STAGE 4 with the step as K_INDEX, log entry 22): its results, and its events by element. -/
def normRow (layer : Bool) (eps : Num) (gain : Option (List Num × List Num)) (xs : List Num) :
    List Num × List (Option (Nat × Nat)) :=
  let n := Num.ofNat xs.length
  let anyNan := xs.any Num.isNan
  let s1 := laneFold xs
  let mu := if layer then rnd32 (s1.div n) else .zero
  let ds := xs.map fun x => rnd32 (x.sub mu)
  let s2 := laneFold (ds.map fun d => d.mul d)
  let v2 := rnd32 (s2.div n)
  let q := rnd32 (v2.add eps)
  let r := fnRsqrt q
  let ev1 := nanOperands 1 xs
  let ev1 := if layer && s1.isNan && !anyNan then headEvent (some (causeInfMinusInf, 1)) ev1 else ev1
  let ev2 := List.zipWith (fun x d => if d.isNan && !x.isNan && !mu.isNan then some (causeInfMinusInf, 2) else none) xs ds
  let ev4 := if q.isNan && !v2.isNan && !eps.isNan then some (causeInfMinusInf, 4)
    else if r.isNan && !q.isNan then some (causeDomain, 4) else none
  let ys := (List.range xs.length).map fun i =>
    let d := ds.getD i .zero
    let y := rnd32 (d.mul r)
    let e := if y.isNan && !d.isNan && !r.isNan then some (causeZeroTimesInf, 5) else none
    match gain with
    | none => (y, e)
    | some (g, b) =>
      let gi := g.getD i .zero
      let bi := b.getD i .zero
      let p := y.mul gi
      let z := rnd32 (p.add bi)
      let e' := if y.isNan then none
        else if gi.isNan || bi.isNan then some (causeNanOperand, 5)
        else if z.isNan then some (if p.isNan then causeZeroTimesInf else causeInfMinusInf, 5) else none
      (z, firstOf e e')
  (ys.map (·.1), List.zipWith firstOf (headEvent ev4 (List.zipWith firstOf ev1 ev2)) (ys.map (·.2)))

def normWork (s : State) (r : Reader) (unit : Nat) (layer : Bool) (eps : Num) (x : Operand)
    (gain : Option (Operand × Operand)) (y : Operand) : Work :=
  let g := gain.map fun (a, b) => (rowValues s r a 0, rowValues s r b 0)
  let rows := (List.range x.rows).map fun i => normRow layer eps g (rowValues s r x i)
  let vs := rows.flatMap (·.1)
  ({ events := (rows.mapIdx fun i e => rowEvents unit (i * x.row) e.2).flatten } : Work).put unit 6 0 y
    fun k => vs.getD k .zero

/-- The exponentials of a row and their sum (R100 steps 1 to 3): m, e, s, events. -/
def expRow (xs : List Num) : Num × List Num × Num × List (Option (Nat × Nat)) :=
  let m := xs.foldl numMax (.inf true)
  let ds := xs.map fun x => rnd32 (x.sub m)
  let es := ds.map fnExp
  let ev2 := List.zipWith (fun x d => if d.isNan && !x.isNan && !m.isNan then some (causeInfMinusInf, 2) else none) xs ds
  (m, es, laneFold es, List.zipWith firstOf (nanOperands 1 xs) ev2)

/-- One row of SOFTMAX (R100): exact quotients, rounded at the write. -/
def softmaxRow (xs : List Num) : List Num × List (Option (Nat × Nat)) :=
  let (m, es, sum, ev) := expRow xs
  if m = .inf true then (xs.map fun _ => .zero, []) else (es.map fun e => e.div sum, ev)

def softmaxWork (s : State) (r : Reader) (unit : Nat) (x y : Operand) : Work :=
  let rows := (List.range x.rows).map fun i => softmaxRow (rowValues s r x i)
  let vs := rows.flatMap (·.1)
  ({ events := (rows.mapIdx fun i e => rowEvents unit (i * x.row) e.2).flatten } : Work).put unit 4 0 y
    fun k => vs.getD k .zero

/-- A target of LOSS. -/
def targetOf (v : Num) : Int := v.toIntRne

/-- One row of LOSS (R101): the row loss, the quotients e/s less the target, and its events; none for padding. -/
def lossRow (t : Int) (xs : List Num) : Option (Num × List Num × List (Option (Nat × Nat))) :=
  if t = -1 then none
  else
    let (m, es, sum, ev) := expRow xs
    let valid := decide (0 ≤ t) && decide (t < xs.length)
    let lam := rnd64 ((cr64Log2 sum).mul numN64)
    let rho := if valid then rnd64 ((rnd64 (lam.add m)).sub (xs.getD t.toNat .zero)) else .nan
    let gs := (es.zipIdx).map fun (e, i) => (rnd64 (e.div sum)).sub (if (i : Int) = t then .ofNat 1 else .zero)
    some (rho, gs, if valid then ev else headEvent (some (causeDomain, 2)) ev)

def lossWork (s : State) (r : Reader) (unit : Nat) (x t loss grad : Operand) : Work :=
  let rows := (List.range x.rows).map fun i => lossRow (targetOf (t.read s r i)) (rowValues s r x i)
  let n := (rows.filter (·.isSome)).length
  let total := laneFold (rows.map fun e => match e with
    | some x => x.1
    | none => .zero)
  let l := if n = 0 then .zero else rnd32 (total.div (.ofNat n))
  let gs := rows.flatMap fun e => match e with
    | some y => y.2.1.map fun g => rnd32 (g.div (.ofNat n))
    | none => List.replicate x.row .zero
  let ev := (rows.mapIdx fun i e => match e with
    | some y => rowEvents unit (i * x.row) y.2.2
    | none => []).flatten
  let w : Work := { events := ev.map fun e => { e with view := 1 }, findings := if l.isFin then 0 else withBit 0 vbLoss }
  (w.put unit 4 0 loss fun _ => l).put unit 5 1 grad fun k => gs.getD k .zero

/-! ### Attention (R102) -/

/-- What both directions share: scale, block of keys, causal mask, formats of P and dS, stint. -/
structure AttnForm where
  sigma  : Num
  keys   : Nat
  causal : Bool
  pFmt   : Nat
  dsFmt  : Nat
  stint  : Nat
  deriving DecidableEq, Repr

def attnForm (t : TaskRec) : AttnForm :=
  { sigma := ofB32 (BitVec.ofNat 32 (field t.param 4 4)), keys := 2 ^ byteAt t.param 0,
    causal := bitOf (byteAt t.param 1) 0, pFmt := byteAt t.param 2, dsFmt := byteAt t.param 3,
    stint := stintLength t.stint }

/-- A tile written in a format: the values read back, how many elements saturated, and whether an Inf met a finite-only block
(03 R53 to R55, R60). The spec names no layout for the tiles P and dS: their scale blocks run along the keys of one query
row, from the first key of the tile, which is the key block's in ATTENTION_FWD and key 0 in ATTENTION_BWD (DESIGN CHOICE, log
entry 22; the block size is a free value). -/
structure Tile where
  vals : List Num := []
  sat  : Nat := 0
  bad  : Bool := false
  deriving DecidableEq, Repr

def attnTile (f : Nat) (vs : List Num) : Tile :=
  if fmtBlocked f then
    let b := blockSize (Config.attentionBlock f % 4)
    let blocks := chunksOf b (ceilDiv vs.length b) vs
    let done := blocks.map (writeBlock f)
    { vals := (done.map fun t => t.2.1.map (scaledValue f t.1)).flatten
      sat := (done.map fun t => t.2.2.length).foldl (· + ·) 0
      bad := blocks.any fun vs => !(blockInfEvents f vs).isEmpty }
  else { vals := vs.map fun v => elemValue f (plainBits f v) }

/-- The first of some events in their order. -/
def firstRaw (es : List (Option RawEvent)) : Option RawEvent := es.findSome? id

/-- The event of a result that is NaN although no operand is. -/
def madeRaw (cause step : Nat) (v : Num) (operands : List Num) : Option RawEvent :=
  if v.isNan && !(operands.any Num.isNan) then some (cause, stageVector, step) else none

/-- A score (step 1): its value, the first event of its product and scaling, whether its accumulator overflowed. -/
structure Score where
  t    : Num
  ev   : Option RawEvent := none
  overs : Bool := false
  deriving DecidableEq, Repr

/-- The score of a query and a key. -/
def score (f : AttnForm) (dim : Nat) (q k : Nat → Num) : Score :=
  let c := refElement f.stint dim .zero false q k
  let w := rnd32 c.wide
  let t := rnd32 (w.mul f.sigma)
  { t := t, ev := firstRaw [c.event, madeRaw causeZeroTimesInf 1 t [w, f.sigma]], overs := c.overs }

/-- What attention counts besides its events: products of scores and of values, overflowed elements, saturations. -/
structure AttnCount where
  dots  : Nat := 0
  sums  : Nat := 0
  overs : Nat := 0
  satP  : Nat := 0
  satDs : Nat := 0
  deriving DecidableEq, Repr

def AttnCount.join (a b : AttnCount) : AttnCount :=
  ⟨a.dots + b.dots, a.sums + b.sums, a.overs + b.overs, a.satP + b.satP, a.satDs + b.satDs⟩

/-- The counts of several rows. -/
def AttnCount.total (ns : List AttnCount) : AttnCount := ns.foldl AttnCount.join {}

/-- An output element of a query row: its value, its first event, whether an accumulator of it overflowed. -/
structure AttnElem where
  o    : Num := .zero
  ev   : Option RawEvent := none
  overs : Bool := false
  deriving DecidableEq, Repr

/-- The running state of a query row. -/
structure AttnRow where
  m  : Num := .inf true
  l  : Num := .zero
  es : List AttnElem := []
  n  : AttnCount := {}
  deriving DecidableEq, Repr

/-- One block of keys (steps 1 to 6). `ts` are its scores and whether each was computed, `vs k a` element a of value row k of
the block. The event of a score, of m, p or P is charged to the lowest element of the row (log entry 22); K_INDEX of a product
of P and V counts within the block (DESIGN CHOICE, log entry 22: the spec does not say from where k runs). -/
def attnBlock (f : AttnForm) (dim width : Nat) (ts : List (Score × Bool)) (vs : Nat → Nat → Num) (x : AttnRow) : AttnRow :=
  let m' := (ts.map (·.1.t)).foldl numMax x.m
  let scored := x.n.join
    { dots := dim * (ts.filter (·.2)).length, overs := (ts.filter (·.1.overs)).length }
  if m' = .inf true then { x with n := scored }
  else
    let am := rnd32 (x.m.sub m')
    let alpha := fnExp am
    let ds := ts.map fun t => rnd32 (t.1.t.sub m')
    let ps := ds.map fnExp
    let tile := attnTile f.pFmt ps
    let rowEv := firstRaw (ts.map (·.1.ev) ++ [madeRaw causeInfMinusInf 3 am [x.m, m']] ++
      List.zipWith (fun t d => madeRaw causeInfMinusInf 3 d [t.1.t, m']) ts ds ++
      [if tile.bad then some (causeNonFinite, stageWrite, ps.length) else none])
    { m := m'
      l := rnd64 ((rnd64 (x.l.mul alpha)).add (laneFold ps))
      es := (List.range width).map fun a =>
        let e := x.es.getD a {}
        let pre := rnd32 (e.o.mul alpha)
        let c := innerElement f.stint ps.length pre (!e.o.isNan && !alpha.isNan) (fun k => tile.vals.getD k .zero)
          (fun k => vs k a)
        { o := rnd32 c.wide
          ev := firstRaw [e.ev, if e.o.isNan then none else firstRaw [if a = 0 then rowEv else none, c.event]]
          overs := e.overs || c.overs }
      n := scored.join { sums := width * ps.length, satP := tile.sat } }

/-- Coordinates (i, j, batch) of a view. -/
def at2 (o : Operand) (i j : Nat) (batch : List Nat) : Nat := o.linear (i :: j :: batch)

/-- One query row over all its key blocks. -/
def attnRow (s : State) (r : Reader) (f : AttnForm) (q k v : Operand) (qi : Nat) (batch : List Nat) : AttnRow :=
  let nk := k.span 1
  let width := v.span 0
  let x := (List.range (ceilDiv nk f.keys)).foldl (fun x b =>
    let first := b * f.keys
    let n := min f.keys (nk - first)
    let ts : List (Score × Bool) := (List.range n).map fun j =>
      if f.causal && decide (qi < first + j) then ({ t := .inf true }, false)
      else (score f (q.span 0) (fun d => q.read s r (at2 q d qi batch)) (fun d => k.read s r (at2 k d (first + j) batch)), true)
    attnBlock f (q.span 0) width ts (fun j a => v.read s r (at2 v a (first + j) batch)) x)
    { es := List.replicate width {} }
  { x with n := x.n.join { overs := (x.es.filter (·.overs)).length } }

/-- The result of a row: outputs and lse. A row with l = +0 writes +0 and -Inf. -/
def attnResult (x : AttnRow) : List Num × Num :=
  if x.l.isZero then (x.es.map fun _ => .zero, .inf true)
  else (x.es.map fun e => e.o.div x.l, rnd32 (x.m.add (rnd64 ((cr64Log2 x.l).mul numN64))))

/-- Products counted by the formats of their operands, array formats alone (17 R362). -/
def productCount (fa fb n : Nat) : List (Nat × Nat) :=
  if fmtArray fa && fmtArray fb && n != 0 then [(productSlot fa fb, n)] else []

/-- ATTENTION_FWD. -/
def attentionFwdWork (s : State) (r : Reader) (unit : Nat) (f : AttnForm) (q k v o lse : Operand) : Work :=
  let rows := (List.range o.rows).map fun i =>
    let c := o.coords (i * o.row)
    attnRow s r f q k v (c.getD 1 0) (c.drop 2)
  let results := rows.map attnResult
  let os := results.flatMap (·.1)
  let n := AttnCount.total (rows.map (·.n))
  let w : Work :=
    { events := (rows.mapIdx fun i x =>
        (x.es.mapIdx fun a e => (e.ev.map (nanEvent unit (i * o.row + a))).toList).flatten).flatten
      counts := productCount q.tensor.format k.tensor.format n.dots ++ productCount f.pFmt v.tensor.format n.sums ++
        overCount n.overs ++ satCount f.pFmt n.satP }
  (w.put unit (k.span 1) 0 o fun i => os.getD i .zero).put unit (k.span 1) 1 lse
    fun i => (results.map (·.2)).getD i .zero

/-- What ATTENTION_BWD forms for one query row: the tiles P and dS over all keys, the row's first event, its counts. -/
structure BackRow where
  p  : List Num := []
  ds : List Num := []
  ev : Option RawEvent := none
  n  : AttnCount := {}
  deriving DecidableEq, Repr

/-- One key of a query row: p, ds, events in the order formed, whether an accumulator overflowed, whether it was scored. -/
structure BackPair where
  p     : Num
  ds    : Num
  evs   : List (Option RawEvent)
  overs : List Bool
  seen  : Bool
  deriving DecidableEq, Repr

/-- D of a row: the lane-fold sum of exact products, rounded (R102), and its event. -/
def backD (gs os : List Num) : Num × Option RawEvent :=
  let ps := List.zipWith Num.mul gs os
  let d := rnd32 (laneFold ps)
  (d, if (gs ++ os).any Num.isNan then some (causeNanOperand, stageVector, 0)
    else if ps.any Num.isNan then some (causeZeroTimesInf, stageVector, 0)
    else madeRaw causeInfMinusInf 0 d [])

/-- p, dp and ds of one query and key. The three steps of R102 are numbered 1 to 3 in K_INDEX, D 0 (DESIGN CHOICE, log entry
22: the spec does not number them). -/
def backPair (f : AttnForm) (width : Nat) (sc : Score × Bool) (stat d : Num) (grad value : Nat → Num) : BackPair :=
  let t := sc.1.t
  let x := rnd32 (t.sub stat)
  let p := fnExp x
  let c := refElement f.stint width .zero false grad value
  let dp := rnd32 c.wide
  let y := rnd32 (dp.sub d)
  let z := rnd32 (p.mul y)
  let ds := rnd32 (z.mul f.sigma)
  { p := p, ds := ds
    evs := [sc.1.ev, if stat.isNan then some (causeNanOperand, stageVector, 1) else none,
      madeRaw causeInfMinusInf 1 x [t, stat], c.event, madeRaw causeInfMinusInf 3 y [dp, d],
      madeRaw causeZeroTimesInf 3 z [p, y], madeRaw causeZeroTimesInf 3 ds [z, f.sigma]]
    overs := [sc.1.overs, c.overs], seen := sc.2 }

/-- The tiles P and dS of one query row in ATTENTION_BWD, over all keys. -/
def attnBackRow (s : State) (r : Reader) (f : AttnForm) (q k v o dO lse : Operand) (row qi : Nat) (batch : List Nat) :
    BackRow :=
  let width := v.span 0
  let nk := k.span 1
  let grad := fun a => dO.read s r (at2 dO a qi batch)
  let (d, dEv) := backD ((List.range width).map grad) ((List.range width).map fun a => o.read s r (at2 o a qi batch))
  let stat := lse.read s r row
  let pairs := (List.range nk).map fun j =>
    let sc : Score × Bool := if f.causal && decide (qi < j) then ({ t := .inf true }, false)
      else (score f (q.span 0) (fun i => q.read s r (at2 q i qi batch)) (fun i => k.read s r (at2 k i j batch)), true)
    backPair f width sc stat d grad (fun a => v.read s r (at2 v a j batch))
  let p := attnTile f.pFmt (pairs.map (·.p))
  let ds := attnTile f.dsFmt (pairs.map (·.ds))
  { p := p.vals, ds := ds.vals
    ev := firstRaw (dEv :: pairs.flatMap (·.evs) ++ [if p.bad || ds.bad then some (causeNonFinite, stageWrite, nk) else none])
    n := { dots := q.span 0 * (pairs.filter (·.seen)).length, sums := width * nk
           overs := ((pairs.flatMap (·.overs)).filter id).length, satP := p.sat, satDs := ds.sat } }

/-- ATTENTION_BWD: dQ, dK, dV as products in the reference order over the full index. The event of a row's D, p, dp or ds, or of
its tiles, is charged to the lowest element of the row of dQ (log entry 22). -/
def attentionBwdWork (s : State) (r : Reader) (unit : Nat) (f : AttnForm) (q k v o dO lse dQ dK dV : Operand) : Work :=
  let nq := q.span 1
  let nk := k.span 1
  let batches := (List.range (o.rows / nq)).map fun b => (o.coords (b * nq * o.row)).drop 2
  let rows := batches.mapIdx fun b batch =>
    (List.range nq).map fun i => attnBackRow s r f q k v o dO lse (b * nq + i) i batch
  let rowEv := (List.zipWith (fun batch rs => (rs.mapIdx fun i (x : BackRow) =>
    (x.ev.map (nanEvent unit (at2 dQ 0 i batch))).toList).flatten) batches rows).flatten
  let n := AttnCount.total (rows.flatten.map (·.n))
  let p := fun b i j => ((rows.getD b []).getD i {}).p.getD j Num.zero
  let ds := fun b i j => ((rows.getD b []).getD i {}).ds.getD j Num.zero
  let batchOf := fun (c : List Nat) => (batches.findIdx? fun x => x == c.drop 2).getD 0
  let cellsOf := fun (out : Operand) (len : Nat) (a b : List Nat → Nat → Num) =>
    (List.range out.elems).map fun x =>
      let c := out.coords x
      innerElement f.stint len .zero false (a c) (b c)
  let cq := cellsOf dQ nk (fun c j => ds (batchOf c) (c.getD 1 0) j)
    (fun c j => k.read s r (at2 k (c.headD 0) j (c.drop 2)))
  let ck := cellsOf dK nq (fun c i => ds (batchOf c) i (c.getD 1 0))
    (fun c i => q.read s r (at2 q (c.headD 0) i (c.drop 2)))
  let cv := cellsOf dV nq (fun c i => p (batchOf c) i (c.getD 1 0))
    (fun c i => dO.read s r (at2 dO (c.headD 0) i (c.drop 2)))
  let w : Work :=
    { events := rowEv
      counts := productCount q.tensor.format k.tensor.format n.dots ++
        productCount dO.tensor.format v.tensor.format n.sums ++ overCount n.overs ++ satCount f.pFmt n.satP ++
        satCount f.dsFmt n.satDs }
  let w := ((w.cellsDone unit 0 f.dsFmt k.tensor.format nk cq).cellsDone unit 1 f.dsFmt q.tensor.format nq ck).cellsDone
    unit 2 f.pFmt dO.tensor.format nq cv
  ((w.put unit nk 0 dQ fun i => (cq.getD i {}).wide).put unit nq 1 dK fun i => (ck.getD i {}).wide).put unit nq 2 dV
    fun i => (cv.getD i {}).wide

/-! ### GATHER, SCATTER, MOVE -/

/-- Coordinates with the one along dimension 1 replaced. -/
def withRow (c : List Nat) (i : Nat) : List Nat := c.headD 0 :: i :: c.drop 2

/-- GATHER: output row i is table row index[i]; -1 gives +0; any other index outside is an address error. -/
def gatherWork (s : State) (r : Reader) (unit : Nat) (table idx out : Operand) : Work :=
  let is := (List.range (out.span 1)).map fun i => targetOf (idx.read s r i)
  if is.any fun i => i != -1 && (decide (i < 0) || decide ((table.span 1 : Int) ≤ i)) then { fail := true }
  else
    ({} : Work).put unit 0 0 out fun k =>
      let c := out.coords k
      let i := is.getD (c.getD 1 0) (-1)
      if i = -1 then .zero else table.read s r (table.linear (withRow c i.toNat))

/-- The source rows aimed at a table row, ascending. -/
def aimedAt (is : List Int) (row : Nat) : List Nat :=
  (List.range is.length).filter fun i => is.getD i (-1) == (row : Int)

/-- The fold of an element with the sources aimed at it, each add rounded to binary32; its first event. -/
def scatterFold (x : Num) (vs : List (Nat × Num)) : Num × Option RawEvent :=
  vs.foldl (fun (acc : Num × Option RawEvent) e =>
    let z := rnd32 (acc.1.add e.2)
    let ev := if e.2.isNan && !acc.1.isNan then some (causeNanOperand, stageVector, e.1)
      else if z.isNan && !acc.1.isNan && !e.2.isNan then some (causeInfMinusInf, stageVector, e.1) else none
    (z, if acc.2.isSome then acc.2 else ev)) (x, if x.isNan then some (causeNanOperand, stageVector, 0) else none)

/-- SCATTER: only table rows that an index names are written. -/
def scatterWork (s : State) (r : Reader) (unit : Nat) (add : Bool) (src idx table : Operand) : Work :=
  let is := (List.range (src.span 1)).map fun i => targetOf (idx.read s r i)
  if is.any fun i => i != -1 && (decide (i < 0) || decide ((table.span 1 : Int) ≤ i)) then { fail := true }
  else
    (List.range table.rows).foldl (fun w row =>
      let c := table.coords (row * table.row)
      let hits := aimedAt is (c.getD 1 0)
      match hits.getLast? with
      | none => w
      | some last =>
        let elem := fun j i => src.read s r (src.linear (withRow (j :: c.tail) i))
        let res : List (Num × Option RawEvent) := (List.range table.row).map fun j =>
          if add then scatterFold (table.read s r (row * table.row + j)) (hits.map fun i => (i, elem j i))
          else (elem j last, none)
        let ev : List NanEvent := (res.mapIdx fun j (x : Num × Option RawEvent) =>
          (x.2.map (nanEvent unit (row * table.row + j))).toList).flatten
        ({ w with events := w.events ++ ev }).written unit 0 0 table (table.writeRow row (res.map fun (x : Num × Option RawEvent) => x.1))) {}

/-- MOVE: element by element under 03 R58 or R53; `rd` gives the source tensor's bytes, this module's or a peer's. -/
def moveWork (unit : Nat) (rd : Nat → Byte) (src dst : Operand) : Work :=
  ({} : Work).put unit 0 0 dst fun k => src.value rd k

end Sys2Proof.Machine
end

