-- ==== Sys2Proof/Machine/Stats.lean ====
section
/-!
DEFINITION. Curvature statistics (06): the blocks of a statistic and their storage (R105, R110, R111), the contributions of
MATMUL_STAT (R104, R112), the gleaner's adds (R113 to R116), sealing (R117) and the fold (R119).
-/
namespace Sys2Proof.Machine

open Sys2Proof

/-! ### Blocks (R105, R110) -/

/-- Block dimension b. -/
def StatRec.side (t : StatRec) : Nat := 2 ^ t.blockLog2

/-- Kinds 0 and 1 cut a matrix into tiles; 2 and 3 cut the features. -/
def StatRec.tiled (t : StatRec) : Bool := decide (t.kind ≤ 1)

/-- Tile columns of kinds 0 and 1. -/
def StatRec.tileCols (t : StatRec) : Nat := ceilDiv t.cols t.side

/-- Blocks in all. -/
def StatRec.blocks (t : StatRec) : Nat :=
  if t.tiled then ceilDiv t.rows t.side * t.tileCols else ceilDiv t.rows t.side

/-- First row and column, rows and columns of tile q. -/
def StatRec.tileRow (t : StatRec) (q : Nat) : Nat := q / t.tileCols * t.side
def StatRec.tileCol (t : StatRec) (q : Nat) : Nat := q % t.tileCols * t.side
def StatRec.tileHeight (t : StatRec) (q : Nat) : Nat := min t.side (t.rows - t.tileRow q)
def StatRec.tileWidth (t : StatRec) (q : Nat) : Nat := min t.side (t.cols - t.tileCol q)

/-- Dimension of block q. -/
def StatRec.dim (t : StatRec) (q : Nat) : Nat :=
  if t.kind = 0 then t.tileHeight q else if t.kind = 1 then t.tileWidth q else min t.side (t.rows - q * t.side)

def round64 (x : Nat) : Nat := (x + 63) / 64 * 64

/-- Offset of block q in a tensor of blocks, `head` bytes of headers each, elements of `width` bytes; with q the number of
blocks, the size of the tensor. -/
def StatRec.offset (t : StatRec) (head width q : Nat) : Nat :=
  round64 (head * t.blocks) + ((List.range q).map fun p => round64 (t.dim p * t.dim p * width)).foldl (· + ·) 0

/-- Offset of block q in a statistic tensor, and the size of that tensor. -/
def StatRec.at_ (t : StatRec) (q : Nat) : Nat := t.offset 32 4 q
def StatRec.size (t : StatRec) : Nat := t.offset 32 4 t.blocks

/-- Step n is a statistic step of the record (R109). -/
def StatRec.due (t : StatRec) (n : Nat) : Bool := n % t.interval == t.phase

/-! ### Headers (R111) -/

structure StatHeader where
  count     : Nat := 0
  state     : Nat := 0
  nonfinite : Bool := false
  unchanged : Bool := false
  step      : Nat := 0
  trace     : W64 := 0
  factor    : W64 := 0
  deriving DecidableEq, Repr

def statHeaderBytes (h : StatHeader) : Bytes :=
  leBytes 32 (pack [(32, h.count), (4, h.state), (1, b2n h.nonfinite), (1, b2n h.unchanged), (26, 0), (64, h.step),
    (64, h.trace.toNat), (64, h.factor.toNat)])

def statHeaderOf (bs : Bytes) : StatHeader :=
  let x := leNat bs
  { count := bits x 0 32, state := bits x 32 4, nonfinite := bitOf x 36, unchanged := bitOf x 37, step := bits x 64 64,
    trace := BitVec.ofNat 64 (bits x 128 64), factor := BitVec.ofNat 64 (bits x 192 64) }

/-- The home of a tensor on this module. -/
def homeOf (s : State) (tensor : Nat) : Nat := ((findTensor s tensor).map (·.homeOffset)).getD 0

/-- The header of block q of a statistic tensor, as a reader finds it. -/
def statHeader (s : State) (r : Reader) (tensor q : Nat) : StatHeader :=
  statHeaderOf (readBytes s r (homeOf s tensor + 32 * q) 32)

/-- The elements of block q of a statistic tensor. -/
def statElem (s : State) (r : Reader) (t : StatRec) (tensor q k : Nat) : W32 :=
  BitVec.ofNat 32 (leNat (readBytes s r (homeOf s tensor + t.at_ q + 4 * k) 4))

def statElems (s : State) (r : Reader) (t : StatRec) (tensor q : Nat) : List W32 :=
  (List.range (t.dim q * t.dim q)).map (statElem s r t tensor q)

/-- The cells of a block's header, with the padding after an odd number of headers; and of its elements (R110: padding bytes
are written 0). -/
def statHeaderCells (s : State) (t : StatRec) (tensor q : Nat) (h : StatHeader) : Cells :=
  cellsAt (homeOf s tensor + 32 * q)
    (padTo (if q + 1 = t.blocks then round64 (32 * t.blocks) - 32 * q else 32) (statHeaderBytes h))

def statElemCells (s : State) (t : StatRec) (tensor q : Nat) (es : List W32) : Cells :=
  cellsAt (homeOf s tensor + t.at_ q) (padTo (round64 (4 * es.length)) (es.flatMap fun e => leBytes 4 e.toNat))

/-! ### MATMUL_STAT (R104, R112) -/

/-- Reduction extent of block q of a source of `tokens` rows. -/
def StatRec.reduction (t : StatRec) (tokens q : Nat) : Nat :=
  if t.kind = 0 then t.tileWidth q else if t.kind = 1 then t.tileHeight q else tokens

/-- Index in the source of operand u of product k of block q. -/
def StatRec.source (t : StatRec) (width q u k : Nat) : Nat :=
  if t.kind = 0 then (t.tileRow q + u) * width + t.tileCol q + k
  else if t.kind = 1 then (t.tileRow q + k) * width + t.tileCol q + u
  else k * width + q * t.side + u

/-- Elements of a block by the reference order, row-major. -/
def statCells (s : State) (r : Reader) (t : StatRec) (stint : Nat) (src : Operand) (q : Nat) : List Cell :=
  let n := t.dim q
  (List.range (n * n)).map fun i =>
    refElement (stintLength stint) (t.reduction src.rows q) .zero false
      (fun k => src.read s r (t.source src.row q (i / n) k)) (fun k => src.read s r (t.source src.row q (i % n) k))

/-- A MATMUL_STAT: a contribution for each named block; output elements run through the blocks in turn. -/
def statWork (s : State) (r : Reader) (unit : Nat) (t : StatRec) (stint : Nat) (src : Operand) (first n : Nat) : Work :=
  (List.range n).foldl (fun w i =>
    let q := first + i
    let base := ((List.range i).map fun j => t.dim (first + j) * t.dim (first + j)).foldl (· + ·) 0
    let cs := statCells s r t stint src q
    let x := ({} : Work).cellsDone unit 0 src.tensor.format src.tensor.format (t.reduction src.rows q) cs
    { w with
      events := w.events ++ x.events.map fun (e : NanEvent) => { e with outIndex := base + e.outIndex }
      counts := w.counts ++ x.counts
      contributions := w.contributions ++ [(q, cs.map fun c => toB32 c.wide)] }) {}

/-! ### Accumulation (R113 to R117) -/

/-- A task record covers block q of a statistic record. -/
def coversBlock (record q : Nat) (t : TaskRec) : Bool :=
  t.kind == 0x02 && t.record == record && decide (t.blockFirst ≤ q) && decide (q < t.blockFirst + t.blockCount)

/-- Task indices in commit order (R84 within a step: gate, then task ID). -/
def commitSorted (g : Segment) : List Nat :=
  sortBy (fun a b =>
    let pa : Nat := ((g.tasks[a]?).map fun x => x.gate.toNat).getD 0
    let pb : Nat := ((g.tasks[b]?).map fun x => x.gate.toNat).getD 0
    decide (pa < pb) || (pa == pb && decide (a ≤ b))) (List.range g.tasks.length)

/-- The task indices that contribute to block q, in commit order; their number is E_q. -/
def contributors (g : Segment) (record q : Nat) : List Nat :=
  (commitSorted g).filter fun i => ((g.tasks[i]?).map (coversBlock record q)).getD false

/-- One add of an element: the sum, the cause of a new NaN, and whether it overflowed (R113, R116). -/
def gleanerAdd (p c : W32) : W32 × Option Nat × Bool :=
  let x := ofB32 p
  let y := ofB32 c
  let z := rnd32 (x.add y)
  (toB32 z, if z.isNan && !x.isNan && !y.isNan then some causeInfMinusInf else none, x.isFin && y.isFin && z.isInf)

/-- The region of a block's gleaner (01 R10). -/
def gleanerOf (q : Nat) : Nat := q % 32

/-- Any NaN or infinity among patterns. -/
def anyNonFinite (es : List W32) : Bool := es.any fun e => !(ofB32 e).isFin

/-- Cells made current for the readers of a step, as a task of the step publishes them. -/
def layCells (step : Nat) (task : W32) (seedbed : Bool) (cs : Cells) (s : State) : State :=
  { s with mem.layers := addLayer ⟨.output step task seedbed, cs⟩ s.mem.layers }

/-- The bytes of block q of a pending tensor, header included. -/
def blockRanges (s : State) (t : StatRec) (q : Nat) : List (Nat × Nat) :=
  [(homeOf s t.pendingT + 32 * q, 32), (homeOf s t.pendingT + t.at_ q, 4 * t.dim q * t.dim q)]

/-- A task run of pass B still to publish writes the block (R117). -/
def laterWriter (s : State) (t : StatRec) (step q : Nat) : Bool :=
  s.sched.tasks.any fun i =>
    i.step == step && i.stream == streamB && i.incomplete &&
    match segmentOf s i.seg, taskRecOf s i with
    | some g, some rec => rec.outView.any fun v =>
        match operandOf s g v with
        | some o => o.ranges.any fun x => (blockRanges s t q).any fun y => overlap x.1 x.2 y.1 y.2
        | none => false
    | _, _ => false

/-- A pending block sealed once its last writer of pass B has completed; NONFINITE sets the finding of 09 R172 bit 1. -/
def sealBlock (g : Segment) (record step q : Nat) (t : StatRec) (s : State) : State :=
  let r : Reader := .task step true
  let h := statHeader s r t.pendingT q
  if h.state = 1 ∧ h.step = step ∧ h.count = (contributors g record q).length ∧ laterWriter s t step q = false then
    let bad := anyNonFinite (statElems s r t t.pendingT q)
    let s := layCells step 0 (s.run.seedbedOpen && decide (stepOf s.run.head < step))
      (statHeaderCells s t t.pendingT q { h with state := 2, nonfinite := bad }) s
    if bad then finding step vbGrad s else s
  else s

/-- Every pending block of a segment that can be sealed. -/
def sealSegment (seg step : Nat) (s : State) : State :=
  match segmentOf s seg with
  | none => s
  | some g =>
    (g.stats.zipIdx).foldl (fun s e =>
      let (t, record) := e
      if t.due step then (List.range t.blocks).foldl (fun s q => sealBlock g record step q t s) s else s) s

/-! ### The fold (R119) -/

/-- What the fold of a block comes to. -/
structure Folded where
  elems     : Option (List W32)
  trace     : W64
  factor    : W64
  unchanged : Bool
  deriving DecidableEq, Repr

/-- The lane-fold sum of a diagonal of dimension n. -/
def diagonalFold (n : Nat) (es : List W32) : Num :=
  laneFold ((List.range n).map fun i => ofB32 (es.getD (i * n + i) 0))

/-- The factor f, none where the block is left unchanged (steps 1 and 2). -/
def foldFactor (t : StatRec) (n count : Nat) (pending : List W32) : Option Num :=
  let c := count * (t.multM1 + 1)
  if c = 0 then none
  else if t.norm = 0 then some (Num.ofNat 1)
  else if t.norm = 1 then some (rnd64 ((Num.ofNat 1).div (Num.ofNat c)))
  else
    let tau := diagonalFold n pending
    if tau.isZero then none else some (rnd64 ((Num.ofNat n).div tau))

/-- Steps 1 to 5 on one block; an element of a chunk that a resumed fold finds done is at home (R120). -/
def foldBlock (t : StatRec) (n count : Nat) (old : StatHeader) (atHome : Nat → Bool) (running pending : List W32) : Folded :=
  match foldFactor t n count pending with
  | none => ⟨none, old.trace, 0, true⟩
  | some f =>
    let beta := ofB32 t.beta
    let gamma := rnd32 ((Num.ofNat 1).sub beta)
    let new := (List.range (n * n)).map fun k =>
      let p := rnd32 ((ofB32 (pending.getD k 0)).mul f)
      if atHome k then running.getD k 0
      else if old.state = 0 ∧ t.firstFold = true then toB32 p
      else toB32 ((beta.mul (ofB32 (running.getD k 0))).add (gamma.mul p))
    ⟨some new, toB64 (diagonalFold n new), toB64 f, false⟩

/-- Bytes of a chunk of a fold (R120). -/
def foldChunk : Nat := 2 ^ 20

/-- The chunks of a record's fold: block and chunk within the block, in ascending address order (R120). -/
def foldChunks (t : StatRec) : List (Nat × Nat) :=
  (List.range t.blocks).flatMap fun q =>
    (List.range (ceilDiv (4 * t.dim q * t.dim q) foldChunk)).map fun j => (q, j)

/-- The cells of the i-th chunk. -/
def chunkCells (s : State) (t : StatRec) (i : Nat) (cs : Cells) : Cells :=
  match (foldChunks t)[i]? with
  | none => []
  | some (q, j) =>
    let start := homeOf s t.running + t.at_ q
    let stop := min (start + (j + 1) * foldChunk) (start + round64 (4 * t.dim q * t.dim q))
    cs.filter fun c => decide (start + j * foldChunk ≤ c.1) && decide (c.1 < stop)

/-- The cells of a block's fold, after `done` chunks of the record: running elements and header, and the pending header returned
to STATE 0. -/
def foldCells (s : State) (r : Reader) (t : StatRec) (done step q : Nat) : Cells :=
  let first := (foldChunks t).findIdx fun x => x.1 == q
  let atHome := fun (k : Nat) => decide (first + 4 * k / foldChunk < done)
  let n := t.dim q
  let h := statHeader s r t.pendingT q
  let old := statHeader s r t.running q
  let count := if h.state = 0 ∨ h.step ≠ step then 0 else h.count
  let x := foldBlock t n count old atHome (statElems s r t t.running q) (statElems s r t t.pendingT q)
  (match x.elems with
   | some es => statElemCells s t t.running q es
   | none => []) ++
  statHeaderCells s t t.running q
    { count := satTo 0xFFFFFFFF (old.count + 1), state := 1, nonfinite := false, unchanged := x.unchanged,
      step := step, trace := x.trace, factor := 0 } ++
  statHeaderCells s t t.pendingT q
    { h with count := 0, state := 0, nonfinite := false,
             trace := if t.norm = 2 ∧ count ≠ 0 then toB64 (diagonalFold n (statElems s r t t.pendingT q)) else 0,
             factor := x.factor }

/-- The fold of every block of a record, after `done` of its chunks (R118 to R120). -/
def foldWork (s : State) (r : Reader) (t : StatRec) (done step : Nat) : Work :=
  { cells := (List.range t.blocks).flatMap (foldCells s r t done step) }

/-- The journal of a fold, as the tally holds it. -/
def journalOf (s : State) (step : Nat) (task : W32) : FoldJournal :=
  (s.mem.folds.find? fun j => j.step == step && j.task == task).getD ⟨step, task, 0, none⟩

/-- The tally without the journal of a fold. -/
def dropJournal (step : Nat) (task : W32) (s : State) : State :=
  { s with mem.folds := s.mem.folds.filter fun x => !(x.step == step && x.task == task) }

/-- The journal of a fold put into the tally. -/
def setJournal (j : FoldJournal) (s : State) : State :=
  { s with mem.folds := (dropJournal j.step j.task s).mem.folds ++ [j] }

end Sys2Proof.Machine
end

