-- ==== Sys2Proof/Machine/Solve.lean ====
section
/-!
DEFINITION. The arithmetic of the harrows (07): the harrow order (R125), the assembler (R131), Cholesky, coupled Newton and
one-sided Jacobi boundary by boundary (R133 to R135), the acceptance test (R138), root tensors (R128, R129).
-/
namespace Sys2Proof.Machine

open Sys2Proof

/-! ### The harrow order -/

/-- A value rounded to the precision of a solve: binary64 when `w`, binary32 otherwise. -/
def rndW (w : Bool) (v : Num) : Num := if w then rnd64 v else rnd32 v

/-- A value in the making, with the cause of the first NaN made on its way from operands none of which was NaN (R139). -/
abbrev Chain := Num × Option Nat

/-- A result with the cause of a NaN it makes from operands none of which is NaN. -/
def made1 (ins : List Num) (cause : Nat) (v : Num) : Chain :=
  (v, if v.isNan && !ins.any Num.isNan then some cause else none)

/-- The cause of a NaN in a sum with the product p. -/
def sumCause (p : Num) : Nat := if p.isNan then causeZeroTimesInf else causeInfMinusInf

/-- One fused multiply-add. -/
def fusedStep (w : Bool) (a b : Num) (c : Chain) : Chain :=
  let p := a.mul b
  let r := made1 [c.1, a, b] (sumCause p) (rndW w (c.1.add p))
  (r.1, if c.2.isSome then c.2 else r.2)

/-- The chain of products f 0, f 1, ... on a preload. -/
def chainOf (w : Bool) (pre : Num) (ks : List Nat) (f : Nat → Num × Num) : Chain :=
  ks.foldl (fun c k => fusedStep w (f k).1 (f k).2 c) (pre, none)

/-- Element (i, j) of a row-major n x n matrix. -/
def el (l : List W64) (n i j : Nat) : Num := ofB64 (l.getD (i * n + j) 0)

/-- A matrix from its elements, and the NaN events of making it: index and cause. -/
structure Made where
  vals   : List W64 := []
  events : List (Nat × Nat) := []
  deriving DecidableEq, Repr

def madeFrom (cs : List Chain) : Made :=
  { vals := cs.map fun c => toB64 c.1
    events := (cs.mapIdx fun i (c : Chain) => (c.2.map fun x => (i, x)).toList).flatten }

/-- The n x n matrix of f (i, j). -/
def matrixOf (n : Nat) (f : Nat → Nat → Chain) : Made := madeFrom ((List.range (n * n)).map fun k => f (k / n) (k % n))

/-- C = A B in the harrow order (R125). -/
def harrowProduct (w : Bool) (n : Nat) (a b : List W64) : Made :=
  matrixOf n fun i j => chainOf w .zero (List.range n) fun k => (el a n i k, el b n k j)

/-- A symmetric matrix computed for i at most j and mirrored. -/
def mirrored (n : Nat) (f : Nat → Nat → Chain) : Made :=
  let m := matrixOf n fun i j => if i ≤ j then f i j else f j i
  { m with events := m.events.filter fun e => decide (e.1 / n ≤ e.1 % n) }

def allFinite (l : List W64) : Bool := l.all fun x => (ofB64 x).isFin

def delta (i j : Nat) : Num := if i = j then Num.ofNat 1 else .zero

/-! ### Scalars -/

/-- b^c in binary64 by left-to-right binary exponentiation over 16 bits (R131 step 1). -/
def powFrom (b : Num) (c : Nat) : Nat → Num → Num
  | 0, acc => acc
  | k + 1, acc =>
    let sq := rnd64 (acc.mul acc)
    powFrom b c k (if bitOf c k then rnd64 (sq.mul b) else sq)

def powBits (b : Num) (c : Nat) : Num := powFrom b (min c 65535) 16 (Num.ofNat 1)

/-- The harrow's rsqrt, one correct rounding to binary64 (R124). The exact value is 1/sqrt x: a quotient whose root is carried
far beyond 53 bits, so that rounding sees on which side of a midpoint it lies. -/
def rsqrt64 (x : Num) : Num :=
  match x with
  | .fin _ 0 _ => .inf x.sign
  | .fin false m e =>
    -- 1/sqrt (m 2^e) = sqrt (2^(4w) / m) 2^(-2w) 2^(-e/2), the quotient truncated with a sticky bit
    let w := m.log2 + 128
    let odd := e % 2 ≠ 0
    let den := if odd then 2 * m else m
    let q := 2 ^ (4 * w) / den
    let r := isqrt q
    let exact := r * r = q ∧ q * den = 2 ^ (4 * w)
    rnd64 (.fin false (2 * r + (if exact then 0 else 1)) (-2 * (w : Int) - 1 - (if odd then (e - 1) / 2 else e / 2)))
  | .fin true _ _ => .nan
  | .inf false => .zero
  | .inf true => .nan
  | .nan => .nan

/-- x^(-1/2^k) in binary64: 1/x, then rsqrt, then sqrt applied (R134). -/
def inverseRoot (k : Nat) (x : Num) : Num :=
  if k = 0 then rnd64 ((Num.ofNat 1).div x)
  else (List.range (k - 1)).foldl (fun s _ => rnd64 s.sqrt) (rsqrt64 x)

/-- v squared k times in binary64. -/
def squared (k : Nat) (v : Num) : Num := (List.range k).foldl (fun x _ => rnd64 (x.mul x)) v

/-- The root-mean-square distance of M from I in binary64 (R134, R138). -/
def distanceToI (n : Nat) (m : List W64) : Chain :=
  let d := fun k => rnd64 ((ofB64 (m.getD k 0)).sub (delta (k / n) (k % n)))
  let c := chainOf true .zero (List.range (n * n)) fun k => (d k, d k)
  (rnd64 (rnd64 (c.1.div (Num.ofNat n))).sqrt, c.2)

/-! ### Root tensors (R128, R129) -/

/-- Offset of block q in a root tensor of a statistic, elements of `width` bytes, and the size of the tensor. -/
def rootAt (t : StatRec) (width q : Nat) : Nat := t.offset 64 width q
def rootSize (t : StatRec) (width : Nat) : Nat := t.offset 64 width t.blocks

/-- Workspace bytes of a block (R137). -/
def workBytes (algorithm n width rootWidth : Nat) : Nat :=
  (if algorithm = 2 then 6 else 3) * n * n * width + n * n * rootWidth + 4096

/-- The structure signature of block q (R129). -/
def rootSignature (t : StatRec) (r : RootRec) (fmt q : Nat) : Nat :=
  pack [(15, t.dim q), (4, t.blockLog2), (2, r.pLog2), (3, t.kind), (1, b2n r.dampMode), (5, fmt), (2, 0), (32, q)]

structure RootHeader where
  signature   : Nat := 0
  statStep    : Nat := 0
  installStep : Nat := 0
  residual    : W64 := 0
  state       : Nat := 0
  iterations  : Nat := 0
  deriving DecidableEq, Repr

def rootHeaderBytes (h : RootHeader) : Bytes :=
  leBytes 64 (pack [(64, h.signature), (64, h.statStep), (64, h.installStep), (64, h.residual.toNat), (4, h.state),
    (16, h.iterations)])

def rootHeaderOf (bs : Bytes) : RootHeader :=
  let x := leNat bs
  { signature := bits x 0 64, statStep := bits x 64 64, installStep := bits x 128 64,
    residual := BitVec.ofNat 64 (bits x 192 64), state := bits x 256 4, iterations := bits x 260 16 }

/-! ### The records a solve works from -/

/-- A root record with the statistic it solves and the tensor it fills. -/
structure SolveForm where
  stat   : StatRec
  root   : RootRec
  tensor : TensorRec
  deriving DecidableEq, Repr

def solveForm (s : State) (seg record : Nat) : Option SolveForm :=
  match segmentOf s seg with
  | none => none
  | some g =>
    match g.roots[record]? with
    | none => none
    | some r =>
      match g.stats[r.stat]?, findTensor s r.root with
      | some t, some x => some ⟨t, r, x⟩
      | _, _ => none

/-- The deadline of the statistics of step s (07 R130). -/
def deadlineOf (f : SolveForm) (step : Nat) : Pos := posOf (step + f.root.deadlineM1 + 1) passU f.stat.layer

/-- A solve of the block is in flight: it waits for a harrow, runs or is paused (07 R146). -/
def solveInFlight (b : BlockSolve) : Bool := decide (1 ≤ b.record.status) && decide (b.record.status ≤ 3)

def SolveForm.rootWidth (f : SolveForm) : Nat := fmtWidth f.tensor.format / 8

/-- The installed header of block q. -/
def installedHeader (s : State) (f : SolveForm) (q : Nat) : RootHeader :=
  rootHeaderOf (readBytes s .plain (f.tensor.homeOffset + 64 * q) 64)

/-- A root is usable (R129). -/
def SolveForm.usable (f : SolveForm) (q : Nat) (h : RootHeader) : Bool :=
  (h.state == 1 || h.state == 2) && h.signature == rootSignature f.stat f.root f.tensor.format q

/-- Bytes of a root block in its format. -/
def SolveForm.blockBytes (f : SolveForm) (q : Nat) : Nat := f.stat.dim q * f.stat.dim q * f.rootWidth

/-- The installed block. -/
def installedBlock (s : State) (f : SolveForm) (q : Nat) : Bytes :=
  readBytes s .plain (f.tensor.homeOffset + rootAt f.stat f.rootWidth q) (f.blockBytes q)

/-- Element k of a root block. -/
def rootElem (f : SolveForm) (block : Bytes) (k : Nat) : Num :=
  elemValue f.tensor.format (field block (k * f.rootWidth) f.rootWidth)

/-- Effective limits (R126, 20 R419). -/
def effMaxAge (s : State) (r : RootRec) : Nat := if r.maxAge = 0 then s.harrows.maxAge.toNat else r.maxAge

def effLimit (s : State) (r : RootRec) : Nat :=
  if r.iterLimit ≠ 0 then r.iterLimit
  else if r.algorithm = 3 then s.harrows.jacobiLimit.toNat else s.harrows.newtonLimit.toNat

def effTol (s : State) (r : RootRec) : Num := if (ofB32 r.tol).isZero then ofB32 s.harrows.tol else ofB32 r.tol

/-! ### Boundary 0: assembly and start (R131, R134, R135, R145) -/

/-- What a boundary comes to: the solve's matrices, its events in order, a status that ends it (0: none), operations; whether
its column, iteration or sweep was completed (a rejected pivot ends its column before that). -/
structure Bound where
  work   : SolveWork
  whole  : Bool := true
  events : List (Nat × Nat) := []
  status : Nat := 0
  fmas   : Nat := 0
  divs   : Nat := 0
  deriving DecidableEq, Repr

def rejectedResidual : Nat := 5
def rejectedNonfinite : Nat := 6
def rejectedNotPositive : Nat := 7

/-- A boundary's check (R139). -/
def Bound.checked (b : Bound) (scalars : List Num) : Bound :=
  if allFinite b.work.a && allFinite b.work.x && allFinite b.work.m && scalars.all Num.isFin then b
  else { b with status := if b.status = 0 then rejectedNonfinite else b.status }

/-- The scalar event, charged to element 0. -/
def scalarEvent (c : Chain) : List (Nat × Nat) := (c.2.map fun x => (0, x)).toList

/-- The bias factor h (R131 step 1). -/
def biasFactor (beta : Num) (count : Nat) : Num :=
  rnd64 ((Num.ofNat 1).div (rnd64 ((Num.ofNat 1).sub (powBits beta count))))

/-- The assembled matrix, its trace and its scalars. -/
def assemble (f : SolveForm) (h : StatHeader) (q : Nat) (running : List W32) : Made × Num × List Num × List (Nat × Nat) :=
  let n := f.stat.dim q
  let w := f.root.precision
  let beta := ofB32 f.stat.beta
  let hb := if f.root.biasCorrect = false ∨ f.stat.firstFold = true ∨ beta.isZero = true then Num.ofNat 1
    else biasFactor beta h.count
  let eps := ofB32 f.root.epsilon
  let tr := ofB64 h.trace
  let ht := rnd64 (hb.mul tr)
  let mean := rnd64 (ht.div (Num.ofNat n))
  let eff : Chain := if f.root.dampMode = false then (eps, none)
    else made1 [hb, tr, eps] causeZeroTimesInf (rnd64 (eps.mul mean))
  let a := matrixOf n fun i j =>
    let r := ofB32 (running.getD (i * n + j) 0)
    let p := hb.mul r
    let e := eff.1.mul (delta i j)
    let v := rndW w (p.add e)
    if r.isNan then (v, some causeNanOperand)
    else made1 [hb, r, eff.1] (if p.isNan || e.isNan then causeZeroTimesInf else causeInfMinusInf) v
  let diag := (List.range n).map fun i => el a.vals n i i
  let tau := made1 diag causeInfMinusInf (laneFold diag)
  (a, tau.1, [hb, eff.1, tau.1], scalarEvent eff ++ scalarEvent tau)

/-- The start of a Newton solve: cold, or warm from a root. -/
def newtonStart (f : SolveForm) (n : Nat) (a : List W64) (tau : Num) (warm : Option (List Num)) :
    Made × Made × List Num × List (Nat × Nat) :=
  let w := f.root.precision
  match warm with
  | none =>
    let mu := rnd64 (tau.div (Num.ofNat n))
    let c := made1 [mu] causeDomain (inverseRoot f.root.pLog2 mu)
    let sigma := made1 [c.1] causeZeroTimesInf (squared f.root.pLog2 c.1)
    let x0 := rndW w c.1
    let m := matrixOf n fun i j =>
      made1 [sigma.1, el a n i j] causeZeroTimesInf (rndW w (sigma.1.mul (el a n i j)))
    ({ vals := (List.range (n * n)).map fun k => if k / n = k % n then toB64 x0 else 0 }, m, [mu, c.1, sigma.1],
     scalarEvent c ++ scalarEvent sigma)
  | some xs =>
    let x0 := matrixOf n fun i j =>
      let v := rndW w (xs.getD (i * n + j) .zero)
      (v, if v.isNan then some causeNanOperand else none)
    let y := (List.range (2 ^ f.root.pLog2)).foldl (fun (y : Made) _ =>
      let z := harrowProduct w n x0.vals y.vals
      ({ z with events := y.events ++ z.events } : Made)) ({ vals := a } : Made)
    (x0, y, [], [])

/-- What the assembler leaves at issue (R131, R145): the assembled matrix, and the root a warm start reads, with the
assembly's events. -/
def assembledWork (f : SolveForm) (h : StatHeader) (q : Nat) (running : List W32) (warm : Option (List Num))
    (limit foldStep : Nat) : SolveWork × List (Nat × Nat) :=
  let n := f.stat.dim q
  let (a, tau, sc, ev) := assemble f h q running
  ({ foldStep := foldStep, n := n, a := a.vals, tauA := toB64 tau, x := List.replicate (n * n) 0, limit := limit,
     started := true, bad := !sc.all Num.isFin, warm := warm.map fun l => l.map toB64 }, ev ++ a.events)

/-- The start of a solve on its harrows, which ends boundary 0 (R139): the check covers what the assembler made too. -/
def boundary0 (f : SolveForm) (k : SolveWork) : Bound :=
  let n := k.n
  let k := { k with begun := true }
  let doubt := if k.bad then [Num.nan] else []
  if f.root.algorithm = 2 then
    let (x, m, sc, ev) := newtonStart f n k.a (ofB64 k.tauA) (k.warm.map fun l => l.map ofB64)
    let p := 2 ^ f.root.pLog2
    ({ work := { k with x := x.vals, m := m.vals }, events := ev ++ x.events ++ m.events,
       fmas := (if k.warm.isSome then p * n * n * n else 0), divs := (if k.warm.isSome then 0 else 2) } : Bound).checked
      (doubt ++ sc)
  else if f.root.algorithm = 3 then
    ({ work := { k with x := k.a, m := (List.range (n * n)).map fun e => toB64 (delta (e / n) (e % n)) } } : Bound).checked
      doubt
  else ({ work := k } : Bound).checked doubt

/-! ### Cholesky (R133) -/

def upto (lo hi : Nat) : List Nat := (List.range (hi - lo)).map (lo + ·)

/-- rho_j = 1 / l_jj. -/
def rhoOf (w : Bool) (n : Nat) (l : List W64) (j : Nat) : Num := rndW w ((Num.ofNat 1).div (el l n j j))

/-- The factor's column j added to the columns before it. -/
def choleskyColumn (w : Bool) (n j : Nat) (k : SolveWork) : Bound :=
  let l := k.x
  let at_ := fun i => chainOf w (el k.a n i j) (List.range j) fun c => ((el l n i c).neg, el l n j c)
  let d := at_ j
  let ev := (d.2.map fun c => (j * n + j, c)).toList
  if !d.1.isFin then { work := k, whole := false, events := ev, status := rejectedNonfinite }
  else if !Num.zero.lt d.1 then { work := k, whole := false, status := rejectedNotPositive }
  else
    let ljj := rndW w d.1.sqrt
    let rho := rndW w ((Num.ofNat 1).div ljj)
    let col := (upto (j + 1) n).map fun i =>
      let t := at_ i
      let v := rndW w (t.1.mul rho)
      (i, v, if t.2.isSome then t.2 else (made1 [t.1, rho] causeZeroTimesInf v).2)
    let x := col.foldl (fun (x : List W64) e => x.set (e.1 * n + j) (toB64 e.2.1)) (l.set (j * n + j) (toB64 ljj))
    ({ work := { k with x := x },
       events := ev ++ (col.map fun e => (e.2.2.map fun c => (e.1 * n + j, c)).toList).flatten,
       fmas := j * (n - j), divs := 2 } : Bound).checked [ljj, rho]

/-- Code 0: W, the inverse of L, a column at a time; then X = W^T W. -/
def triangularInverse (w : Bool) (n : Nat) (l : List W64) : Made :=
  let col := fun j => (upto j n).foldl (fun (acc : List Chain) i =>
    let rho := rhoOf w n l i
    if i = j then acc ++ [(rho, none)]
    else
      let s := chainOf w .zero (upto j i) fun k => (el l n i k, (acc.getD (k - j) (.zero, none)).1)
      let v := rndW w (rho.neg.mul s.1)
      acc ++ [(v, if s.2.isSome then s.2 else (made1 [rho, s.1] causeZeroTimesInf v).2)]) []
  let cols := (List.range n).map col
  matrixOf n fun i j => if i < j then (.zero, none) else (cols.getD j []).getD (i - j) (.zero, none)

/-- Code 1: forward substitution against I, then back substitution; column j of X. -/
def substituted (w : Bool) (n : Nat) (l : List W64) (j : Nat) : List Chain × List Chain :=
  let y := (List.range n).foldl (fun (acc : List Chain) i =>
    let u := chainOf w (delta i j) (List.range i) fun k => ((el l n i k).neg, (acc.getD k (.zero, none)).1)
    let v := rndW w ((rhoOf w n l i).mul u.1)
    acc ++ [(v, if u.2.isSome then u.2 else (made1 [rhoOf w n l i, u.1] causeZeroTimesInf v).2)]) []
  let x := (List.range n).foldl (fun (acc : List Chain) t =>
    let i := n - 1 - t
    -- acc holds rows i + 1 to n - 1, row i + 1 first
    let u := chainOf w (y.getD i (.zero, none)).1 (upto (i + 1) n).reverse fun k =>
      ((el l n k i).neg, (acc.getD (k - i - 1) (.zero, none)).1)
    let v := rndW w ((rhoOf w n l i).mul u.1)
    (v, if u.2.isSome then u.2 else (made1 [rhoOf w n l i, u.1] causeZeroTimesInf v).2) :: acc) []
  (y, x)

/-- The candidate from a finished factor. -/
def choleskyResult (w : Bool) (code : Nat) (k : SolveWork) : Bound :=
  let n := k.n
  if code = 0 then
    let wi := triangularInverse w n k.x
    let x := mirrored n fun i j => chainOf w .zero (upto j n) fun c => (el wi.vals n c i, el wi.vals n c j)
    ({ work := { k with x := x.vals, m := wi.vals, ended := true }, events := wi.events ++ x.events,
       fmas := n * n * n / 2, divs := 0 } : Bound).checked []
  else
    let cols := (List.range n).map (substituted w n k.x)
    let y := matrixOf n fun i j => (cols.getD j ([], [])).1.getD i (.zero, none)
    let full := matrixOf n fun i j => (cols.getD j ([], [])).2.getD i (.zero, none)
    let x := (List.range (n * n)).map fun e =>
      if e % n ≤ e / n then full.vals.getD e 0 else full.vals.getD (e % n * n + e / n) 0
    ({ work := { k with x := x, m := y.vals, ended := true }, events := y.events ++ full.events,
       fmas := n * n * n, divs := 0 } : Bound).checked []

/-! ### Coupled Newton (R134) -/

/-- T^p by repeated squaring. -/
def matrixPower (w : Bool) (n : Nat) (pLog2 : Nat) (t : Made) : Made :=
  (List.range pLog2).foldl (fun (y : Made) _ =>
    let z := harrowProduct w n y.vals y.vals
    ({ z with events := y.events ++ z.events } : Made)) { t with events := [] }

/-- One iteration, `i` counted from 1. -/
def newtonIteration (w : Bool) (pLog2 : Nat) (tol : Num) (i : Nat) (k : SolveWork) : Bound :=
  let n := k.n
  let p := 2 ^ pLog2
  let t := matrixOf n fun r c =>
    let m := el k.m n r c
    let d := if r = c then Num.ofNat (p + 1) else Num.zero
    made1 [m] causeInfMinusInf (rndW w ((d.sub m).scale (-(pLog2 : Int))))
  let x := harrowProduct w n k.x t.vals
  let tp := matrixPower w n pLog2 t
  let m := harrowProduct w n tp.vals k.m
  let e := distanceToI n m.vals
  let done := e.1.le (tol.scale (-2)) || decide (k.limit ≤ i)
  ({ work := { k with x := x.vals, m := m.vals, ended := done },
     events := t.events ++ x.events ++ tp.events ++ m.events ++ scalarEvent e,
     fmas := (2 + pLog2) * n * n * n, divs := 2 } : Bound).checked [e.1]

/-! ### One-sided Jacobi (R135) -/

/-- The pairs of stage s for an even count n', lower column first; columns at or beyond n are padding. -/
def jacobiPairs (n stage : Nat) : List (Nat × Nat) :=
  let m := n + n % 2
  let col := fun q => if q = 0 then 0 else 1 + (q - 1 + stage) % (m - 1)
  ((List.range (m / 2)).map fun q => (min (col q) (col (m - 1 - q)), max (col q) (col (m - 1 - q)))).filter
    fun p => decide (p.2 < n)

/-- State of a sweep: G, V, whether a pair was rotated, events. -/
structure Sweep where
  g       : List W64
  v       : List W64
  rotated : Bool := false
  events  : List (Nat × Nat) := []
  /-- every scalar formed is finite (R139). -/
  finite  : Bool := true
  deriving DecidableEq, Repr

/-- Columns i and j of a matrix rotated, one rounding an element. -/
def rotate (w : Bool) (n i j : Nat) (c s : Num) (a : List W64) : Made :=
  madeFrom ((List.range (n * n)).map fun k =>
    let r := k / n
    let p := c.mul (el a n r i)
    let q := s.mul (el a n r j)
    let p' := s.mul (el a n r i)
    let q' := c.mul (el a n r j)
    let ins := [c, s, el a n r i, el a n r j]
    if k % n = i then made1 ins (if p.isNan || q.isNan then causeZeroTimesInf else causeInfMinusInf) (rndW w (p.sub q))
    else if k % n = j then
      made1 ins (if p'.isNan || q'.isNan then causeZeroTimesInf else causeInfMinusInf) (rndW w (p'.add q'))
    else (ofB64 (a.getD k 0), none))

/-- One pair of a sweep. -/
def jacobiPair (w : Bool) (n : Nat) (x : Sweep) (ij : Nat × Nat) : Sweep :=
  let (i, j) := ij
  let dot := fun a b => chainOf true .zero (List.range n) fun k => (el x.g n k a, el x.g n k b)
  let al := dot i i
  let be := dot j j
  let ga := dot i j
  let u : Int := if w then -106 else -48
  let finite := x.finite && [al.1, be.1, ga.1].all Num.isFin
  if (ga.1.mul ga.1).le ((al.1.mul be.1).scale u) then { x with finite := finite }
  else
    let zeta := rnd64 ((rnd64 (be.1.sub al.1)).div (rnd64 (ga.1.scale 1)))
    let root := rnd64 (rnd64 ((Num.ofNat 1).add (rnd64 (zeta.mul zeta)))).sqrt
    let one := if zeta.sign then (Num.ofNat 1).neg else Num.ofNat 1
    let t := rnd64 (one.div (rnd64 (zeta.abs.add root)))
    let c := rsqrt64 (rnd64 ((Num.ofNat 1).add (rnd64 (t.mul t))))
    let s := rnd64 (c.mul t)
    let d := rnd64 (be.1.sub al.1)
    let scalars : List (Option Nat) := [al.2, be.2, ga.2, (made1 [al.1, be.1] causeInfMinusInf d).2,
      (made1 [d, ga.1] causeDomain zeta).2, (made1 [zeta] causeDomain t).2, (made1 [c, t] causeZeroTimesInf s).2]
    let ev := match scalars.find? Option.isSome with
      | some (some z) => [(i * n + j, z)]
      | _ => []
    let g := rotate w n i j c s x.g
    let v := rotate w n i j c s x.v
    { g := g.vals, v := v.vals, rotated := true, events := x.events ++ ev ++ g.events ++ v.events,
      finite := finite && [d, zeta, t, c, s].all Num.isFin }

/-- The candidate from the columns of G and V, with the scalars lambda and g formed on the way. -/
def jacobiResult (w : Bool) (pLog2 n : Nat) (x : Sweep) : Made × List Num :=
  let lambda := (List.range n).map fun k =>
    rnd64 (chainOf true .zero (List.range n) fun i => (el x.g n i k, el x.g n i k)).1.sqrt
  let root := lambda.map (inverseRoot pLog2)
  let g := fun k => rndW w (root.getD k .zero)
  (mirrored n fun i j => (List.range n).foldl (fun (c : Chain) k =>
    let p := ((el x.v n i k).mul (g k)).mul (el x.v n j k)
    let r := made1 [c.1, el x.v n i k, g k, el x.v n j k] (sumCause p) (rndW w (c.1.add p))
    (r.1, if c.2.isSome then c.2 else r.2)) (.zero, none), lambda ++ root)

/-- One sweep, `i` counted from 1; the candidate when it is the last. -/
def jacobiSweep (w : Bool) (pLog2 i : Nat) (k : SolveWork) : Bound :=
  let n := k.n
  let x := (List.range (n + n % 2 - 1)).foldl (fun x stage => (jacobiPairs n stage).foldl (jacobiPair w n) x)
    ({ g := k.x, v := k.m } : Sweep)
  let b : Bound := ({ work := { k with x := x.g, m := x.v }, events := x.events, fmas := 4 * n * n * n,
                      divs := 0 } : Bound).checked (if x.finite then [] else [.nan])
  if b.status ≠ 0 ∨ (x.rotated = true ∧ i < k.limit) then b
  else
    let (r, sc) := jacobiResult w pLog2 n x
    ({ b with work := { b.work with x := r.vals, ended := true }, events := b.events ++ r.events } : Bound).checked sc

/-! ### A boundary, and the acceptance test -/

/-- Boundary i (from 1) of a solve: the next column, iteration or sweep. -/
def solveBoundary (f : SolveForm) (tol : Num) (i : Nat) (k : SolveWork) : Bound :=
  let w := f.root.precision
  if f.root.algorithm = 2 then newtonIteration w f.root.pLog2 tol i k
  else if f.root.algorithm = 3 then jacobiSweep w f.root.pLog2 i k
  else
    let b := choleskyColumn w k.n (i - 1) k
    if b.status ≠ 0 ∨ i < k.n then b
    else
      let r := choleskyResult w f.root.algorithm b.work
      { r with events := b.events ++ r.events, fmas := b.fmas + r.fmas, divs := b.divs + r.divs }

/-- The acceptance test (R138): the residual, its events, whether anything was non-finite. -/
def acceptance (f : SolveForm) (k : SolveWork) : Num × List (Nat × Nat) × Bool :=
  let y := (List.range (2 ^ f.root.pLog2)).foldl (fun (y : Made) _ =>
    let z := harrowProduct f.root.precision k.n k.x y.vals
    ({ z with events := y.events ++ z.events } : Made)) ({ vals := k.a } : Made)
  let e := distanceToI k.n y.vals
  (e.1, y.events ++ scalarEvent e, !(allFinite k.x && allFinite y.vals && e.1.isFin))

/-! ### The workspace (R137) -/

/-- Byte width of the solve precision. -/
def SolveForm.width (f : SolveForm) : Nat := if f.root.precision then 8 else 4

/-- Bytes of block q's area, and its offset in the workspace tensor. -/
def SolveForm.area (f : SolveForm) (q : Nat) : Nat :=
  workBytes f.root.algorithm (f.stat.dim q) f.width f.rootWidth

def SolveForm.areaAt (f : SolveForm) (q : Nat) : Nat :=
  ((List.range q).map fun p => round64 (f.area p)).foldl (· + ·) 0

/-- A matrix as its bytes in the solve precision. -/
def SolveForm.matrixBytes (f : SolveForm) (l : List W64) : Bytes :=
  l.flatMap fun v => if f.root.precision then leBytes 8 v.toNat else leBytes 4 (toB32 (ofB64 v)).toNat

/-- Block q's area at a boundary: the matrices, the candidate where one has been accepted, and the checkpoint. The spec gives
the area's parts and sizes and leaves their inner layout open: the model puts A, X and M first, in the order in which W(n)
lists the parts the candidate next, and takes the bytes of the checkpoint after the boundary as free (log entry 78). -/
def SolveForm.areaBytes (f : SolveForm) (q slot boundary : Nat) (k : SolveWork) (block : Bytes) : Bytes :=
  let n2 := f.stat.dim q * f.stat.dim q
  padTo (f.area q - 4096 - n2 * f.rootWidth) (f.matrixBytes (k.a ++ k.x ++ k.m)) ++ padTo (n2 * f.rootWidth) block ++
  leBytes 4 boundary ++ (List.range 28).map fun i => Config.checkpointByte k.foldStep slot boundary i

/-- A candidate's block rounded once to the root format. -/
def rootBlockBytes (fmt width : Nat) (x : List W64) : Bytes :=
  x.flatMap fun v => leBytes width (plainBits fmt (ofB64 v))

end Sys2Proof.Machine
end

