-- ==== Sys2Proof/Machine/Update.lean ====
section
/-!
DEFINITION. The preconditioner apply and the update (08): roots in use (07 R140), P (R158 to R160), the scalars (R154), the
elementwise order (R155, R156), grafting (R161), the working weight (R162), the ratio check (R157), fallow queues (R165),
the audit (R163).
-/
namespace Sys2Proof.Machine

open Sys2Proof

/-! ### Roots in use -/

/-- The solve of a block. -/
def findBlock (s : State) (k : SolveKey) : Option BlockSolve := s.harrows.blocks.find? fun b => b.key == k

/-- The decision of a block for a step. -/
def decisionOf (s : State) (k : SolveKey) (step : Nat) : Option Decision :=
  (findBlock s k).bind fun b => b.decisions.find? fun d => d.step == step

/-- The root a step uses for block q: none is the identity (07 R140, 08 R158). -/
def rootUsed (s : State) (seg record q step : Nat) : Option (Nat → Num) :=
  match solveForm s seg record, decisionOf s ⟨seg, record, q⟩ step with
  | some f, some d =>
    if d.diagonal then none
    else match d.selected with
      | some c => some (rootElem f c.block)
      | none =>
        if f.usable q (installedHeader s f q) then some (rootElem f (installedBlock s f q)) else none
  | _, _ => none

/-- The statistic of an update record's side. -/
def sideStat (g : Segment) (root : Nat) : Option StatRec :=
  if root = noneIndex then none else (g.roots[root]?).bind fun r => g.stats[r.stat]?

/-- The statistic whose tiles an update record shares (R158). -/
def tileStat (g : Segment) (u : UpdateRec) : Option StatRec :=
  match sideStat g u.leftRoot with
  | some t => some t
  | none => sideStat g u.rightRoot

def sideRoot (s : State) (seg root q step : Nat) : Option (Nat → Num) :=
  if root = noneIndex then none else rootUsed s seg root q step

/-- Elements of tile q, row-major: linear index in the shard's rows x cols view. -/
def tileElems (t : StatRec) (q : Nat) : List Nat :=
  (List.range (t.tileHeight q * t.tileWidth q)).map fun k =>
    (t.tileRow q + k / t.tileWidth q) * t.cols + t.tileCol q + k % t.tileWidth q

/-- The tile that holds a linear element. -/
def tileOf (t : StatRec) (k : Nat) : Nat := k / t.cols / t.side * t.tileCols + k % t.cols / t.side

/-! ### PRECONDITION_APPLY (R158 to R160) -/

/-- A matrix held as its values, rows of `w`. -/
def matAt (w : Nat) (l : List Num) (i j : Nat) : Num := l.getD (i * w + j) .zero

/-- What one product of a tile makes: values, events (element of the tile, cause, stage, k), products done. -/
structure TileProduct where
  vals   : List Num
  events : List (Nat × RawEvent) := []
  ops    : Nat := 0
  overs   : Nat := 0
  deriving DecidableEq, Repr

/-- A (h x k) times B (k x w): on the arrays in the reference order with stint S, or on the harrows (R125). `inner` marks an A
that the task has made: its NaN raises no further event (R159). -/
def tileProduct (inner precise : Bool) (stint h k w : Nat) (a b : Nat → Nat → Num) : TileProduct :=
  let ks := List.range (h * w)
  if precise then
    let cs := ks.map fun e => chainAt (fun c => (a (e / w) c, b c (e % w))) k
    { vals := cs.map (·.1), ops := h * k * w
      events := (cs.mapIdx fun e (c : Num × Option RawEvent) => (c.2.map fun x => (e, x)).toList).flatten }
  else
    let element := if inner then innerElement else refElement
    let cs := ks.map fun e => element (stintLength stint) k .zero false (fun c => a (e / w) c) (fun c => b c (e % w))
    { vals := cs.map (·.wide), ops := h * k * w, overs := (cs.filter (·.overs)).length
      events := (cs.mapIdx fun e (c : Cell) => (c.event.map fun x => (e, x)).toList).flatten }
where
  /-- A chain in binary32, with the k of its first NaN. -/
  chainAt (f : Nat → Num × Num) (k : Nat) : Num × Option RawEvent :=
    (List.range k).foldl (fun (c : Num × Option RawEvent) i =>
      let (a, b) := f i
      let p := a.mul b
      let v := rnd32 (c.1.add p)
      let ev : Option RawEvent :=
        if c.1.isNan then none
        else if (a.isNan && !inner) || b.isNan then some (causeNanOperand, stageHarrow, i)
        else if v.isNan && !a.isNan then some (sumCause p, stageHarrow, i) else none
      (v, if c.2.isSome then c.2 else ev)) (.zero, none)

/-- One tile: its P, the events of H and of P, roots found non-finite, and the products of each. -/
structure TileDone where
  p     : List Num
  hEv   : List (Nat × RawEvent) := []
  pEv   : List (Nat × RawEvent) := []
  ops   : Nat := 0
  overs  : Nat := 0
  badRoot : Bool := false
  deriving DecidableEq, Repr

def preconditionTile (precise : Bool) (stint h w : Nat) (g : List Num) (l r : Option (Nat → Num)) : TileDone :=
  let narrow := fun v => if precise then v else elemValue fBF16 (plainBits fBF16 v)
  let gb := g.map narrow
  let hp : TileProduct := match l with
    | none => { vals := gb }
    | some f => tileProduct false precise stint h h w (fun i k => rnd32 (f (i * h + k))) (matAt w gb)
  let hv := if l.isSome then hp.vals.map narrow else hp.vals
  let pp : TileProduct := match r with
    | none => { vals := hv }
    | some f => tileProduct l.isSome precise stint h w w (matAt w hv) (fun k j => rnd32 (f (k * w + j)))
  let bad := fun (o : Option (Nat → Num)) n => match o with
    | some f => (List.range (n * n)).any fun k => !(f k).isFin
    | none => false
  { p := pp.vals.map rnd32, hEv := hp.events, pEv := pp.events, ops := hp.ops + pp.ops, overs := hp.overs + pp.overs,
    badRoot := bad l h || bad r w }

/-- This module holds a shard of the record's master (R153). -/
def holdsMaster (s : State) (u : UpdateRec) : Bool := (findTensor s u.master).any (·.held)

/-- PRECONDITION_APPLY on tiles `first` to `first + n - 1` of an update record, on a module that holds a shard of the master. -/
def preconditionWork (s : State) (rd : Reader) (unit seg step : Nat) (g : Segment) (u : UpdateRec) (stint : Nat)
    (grad p : Operand) (first n : Nat) : Work :=
  match tileStat g u, holdsMaster s u with
  | none, _ => {}
  | _, false => {}
  | some t, true =>
    let tiles := (List.range n).map fun i =>
      let q := first + i
      let es := tileElems t q
      (es, preconditionTile u.precise stint (t.tileHeight q) (t.tileWidth q) (es.map fun k => grad.read s rd k)
        (sideRoot s seg u.leftRoot q step) (sideRoot s seg u.rightRoot q step))
    let values : List (Nat × Num) := tiles.flatMap fun (x : List Nat × TileDone) => x.1.zip x.2.p
    let place := fun (view : Nat) (es : List Nat) (ev : List (Nat × RawEvent)) =>
      ev.map fun e => { nanEvent unit (es.getD e.1 0) e.2 with view := view }
    let hEv : List NanEvent := tiles.flatMap fun (x : List Nat × TileDone) => place 0 x.1 x.2.hEv
    let pEv : List NanEvent := tiles.flatMap fun (x : List Nat × TileDone) => place 1 x.1 x.2.pEv
    let total := fun (f : TileDone → Nat) => (tiles.map fun (x : List Nat × TileDone) => f x.2).foldl (· + ·) 0
    let written := p.write fun k => ((values.find? fun e => e.1 == k).map (·.2)).getD (p.read s rd k)
    { cells := written.cells
      events := hEv ++ pEv
      first := match firstEvent hEv with
        | some e => some e
        | none => firstEvent pEv
      counts := (if u.precise then [(0x220, total (·.ops))]
        else [(productSlot fBF16 fBF16, total (·.ops))] ++ overCount (total (·.overs)))
      findings := if tiles.any fun (x : List Nat × TileDone) => x.2.badRoot then withBit 0 vbRoot else 0 }

/-! ### Scalars (R154) -/

structure Scalars where
  c  : Num
  h1 : Num
  h2 : Num
  k  : Num
  deriving DecidableEq, Repr

/-- The clipping factor of a sum of squares. -/
def clipFactor (u : UpdateRec) (sum : Num) : Num :=
  if !u.clip then Num.ofNat 1
  else if !sum.isFin then .nan
  else
    let n := rnd64 sum.sqrt
    if n.le (ofB32 u.clipNorm) then Num.ofNat 1 else rnd32 ((ofB32 u.clipNorm).div n)

/-- A moment's bias factor for update count t. -/
def momentFactor (u : UpdateRec) (beta : W32) (t : Nat) : Num :=
  if u.biasCorrect = false ∨ u.recipe = 0 then Num.ofNat 1
  else rnd32 ((Num.ofNat 1).div (rnd64 ((Num.ofNat 1).sub (powBits (ofB32 beta) t))))

def updateScalars (u : UpdateRec) (c : Num) (t : Nat) : Scalars :=
  { c := c, h1 := momentFactor u u.beta1 t, h2 := momentFactor u u.beta2 t
    k := if u.decay then rnd32 ((Num.ofNat 1).sub (rnd32 ((ofB32 u.lr).mul (ofB32 u.wd)))) else Num.ofNat 1 }

/-! ### Elements (R155, R156) -/

/-- An element on its way: its first event as cause and K_INDEX. -/
abbrev ElemEvent := Option (Nat × Nat)

/-- One assignment: number, operands read from memory, other operands, the cause of a NaN it makes, its value. -/
def assign (ev : ElemEvent) (n : Nat) (mem ops : List Num) (cause : Nat) (v : Num) : ElemEvent :=
  if ev.isSome then ev
  else if mem.any Num.isNan then some (causeNanOperand, n)
  else if v.isNan && !ops.any Num.isNan then some (cause, n) else none

/-- A result rounded to the format of the tensor that holds it. -/
def rndTo (wide : Bool) (v : Num) : Num := if wide then rnd64 v else rnd32 v

/-- Cause of a NaN in a sum of two products. -/
def sumCause2 (p q : Num) : Nat := if p.isNan || q.isNan then causeZeroTimesInf else causeInfMinusInf

/-- The assignments up to A (recipes 1 and 2) or to D (recipe 0). -/
structure Moments where
  m1 : Num
  v1 : Num
  d  : Num
  event : ElemEvent
  deriving DecidableEq, Repr

def moments (u : UpdateRec) (x : Scalars) (wide1 wide2 : Bool) (g m v : Num) : Moments :=
  let g1 := rnd32 (g.mul x.c)
  let e := assign none 1 [g] [x.c] causeZeroTimesInf g1
  let b1 := ofB32 u.beta1
  if u.recipe = 0 then
    let p := b1.mul m
    let m1 := rndTo wide1 (p.add g1)
    -- D is a binary32 value even where the first moment is binary64 (R150)
    ⟨m1, v, rnd32 m1, assign e 2 [m] [g1] (sumCause p) m1⟩
  else
    let one := Num.ofNat 1
    let b2 := ofB32 u.beta2
    let p := b1.mul m
    let q := (rnd32 (one.sub b1)).mul g1
    let m1 := rndTo wide1 (p.add q)
    let e := assign e 4 [m] [g1] (sumCause2 p q) m1
    let p2 := b2.mul v
    let q2 := ((rnd32 (one.sub b2)).mul g1).mul g1
    let v1 := rndTo wide2 (p2.add q2)
    let e := assign e 5 [v] [g1] (sumCause2 p2 q2) v1
    let mh := rnd32 (m1.mul x.h1)
    let e := assign e 6 [] [m1, x.h1] causeZeroTimesInf mh
    let vh := rnd32 (v1.mul x.h2)
    let e := assign e 7 [] [v1, x.h2] causeZeroTimesInf vh
    let root := rnd32 vh.sqrt
    let den := rnd32 (root.add (ofB32 u.eps))
    let e := assign e 8 [] [vh] causeDomain den
    let a := rnd32 (mh.div den)
    ⟨m1, v1, a, assign e 9 [] [mh, den] causeDomain a⟩

/-- The new master from the direction D. -/
def masterStep (u : UpdateRec) (x : Scalars) (wide : Bool) (w d : Num) (e : ElemEvent) : Num × ElemEvent :=
  let w1 := rndTo wide (w.mul x.k)
  let e := assign e 11 [w] [x.k] causeZeroTimesInf w1
  let p := (ofB32 u.lr).mul d
  let w2 := rndTo wide (w1.sub p)
  (w2, assign e 12 [] [w1, d] (sumCause p) w2)

/-! ### Grafting (R161) -/

/-- The correctly rounded binary32 square root of RNE64(n_a / n_p). -/
def graftFactor (as ps : List Num) : Option (Num × Bool) :=
  let na := laneFold (as.map fun a => a.mul a)
  let np := laneFold (ps.map fun p => p.mul p)
  if np.isZero then none
  else if na.isNan || np.isNan then some (.nan, false)
  else if na.isInf || np.isInf then some (.nan, true)
  else some (rnd32 (rnd64 (na.div np)).sqrt, false)

/-- The directions of a shard: for each element D and its event, and whether any P used is non-finite. -/
def grafted (s : State) (seg step : Nat) (g : Segment) (u : UpdateRec) (p : Option (List Num)) (ms : List Moments) :
    List (Num × ElemEvent) × Bool :=
  match tileStat g u, p with
  | some t, some ps =>
    let tiles : List (Option (Num × Bool)) := (List.range t.blocks).map fun q =>
      let identity := fun root => root != noneIndex && (sideRoot s seg root q step).isNone
      if identity u.leftRoot || identity u.rightRoot then none
      else
        let es := tileElems t q
        graftFactor (es.map fun k => ((ms[k]?).map (·.d)).getD .zero) (es.map fun k => ps.getD k .zero)
    let firstOf := fun q => (tileElems t q).foldl min (ms.length)
    let out := ms.mapIdx fun k (m : Moments) =>
      match tiles.getD (tileOf t k) none with
      | none => (m.d, m.event)
      | some (phi, charge) =>
        let pk := ps.getD k .zero
        let d := rnd32 (pk.mul phi)
        let e := assign m.event 10 [pk] [phi] causeZeroTimesInf d
        (d, if charge && k == firstOf (tileOf t k) && e.isNone then some (causeDomain, 10) else e)
    let bad := (List.range ms.length).any fun k =>
      (tiles.getD (tileOf t k) none).isSome && !(ps.getD k .zero).isFin
    (out, bad)
  | _, _ => (ms.map fun m => (m.d, m.event), false)

/-! ### UPDATE -/

/-- The operands of an update record. -/
structure UpdateOps where
  master  : Operand
  working : Option Operand
  m1      : Operand
  m2      : Option Operand
  grad    : Operand
  norm    : Option Operand
  deriving DecidableEq, Repr

def optWhole (s : State) (i : Nat) : Option Operand := if i = noneIndex then none else wholeOf s i

def updateOps (s : State) (u : UpdateRec) : Option UpdateOps :=
  match wholeOf s u.master, wholeOf s u.m1, wholeOf s u.grad with
  | some w, some m, some g => some ⟨w, optWhole s u.working, m, optWhole s u.m2, g, optWhole s u.normT⟩
  | _, _, _ => none

/-- The fallow queue of a master tensor. -/
def fallowOf (s : State) (master : Nat) : FallowQueue :=
  (s.fallow.find? fun q => q.master == master).getD ⟨master, [], false, none⟩

def setFallow (q : FallowQueue) (s : State) : State :=
  { s with fallow := (s.fallow.filter fun x => x.master != q.master) ++ [q] }

/-- The gradient and clipping factor an UPDATE applies in step n; none where the fallow queue is not yet full (R165). -/
def updateGrad (s : State) (rd : Reader) (u : UpdateRec) (o : UpdateOps) : Option (List Num × Num) :=
  if u.fallowDelay = 0 then
    some (o.grad.values s rd, clipFactor u ((o.norm.map fun x => x.read s rd 0).getD .zero))
  else
    let q := fallowOf s u.master
    if q.entries.length < u.fallowDelay then none
    else q.entries.head?.map fun e => (e.2.2.map ofB32, ofB32 e.2.1)

/-- The sums of the ratio check over the shard (R157). -/
def ratioExceeded (u : UpdateRec) (old new : List Num) : Bool :=
  let umax := ofB32 u.umax
  if !Num.zero.lt umax then false
  else
    let sd := laneFold ((old.zip new).map fun x =>
      let d := rnd64 (x.2.sub x.1)
      rnd64 (d.mul d))
    let sw := laneFold (old.map fun w => w.mul w)
    (rnd64 ((umax.mul umax).mul sw)).lt sd

/-- An UPDATE's results on a gradient (R153 to R157, R161, R162). -/
def updateWork (s : State) (rd : Reader) (unit seg step : Nat) (g : Segment) (u : UpdateRec) (o : UpdateOps)
    (p : Option (List Num)) (grad : List Num) (c : Num) : Work :=
  let x := updateScalars u c (step + 1 - u.t0)
  let wide := fun (o : Operand) => o.tensor.format == fB64
  let ws := o.master.values s rd
  let m1s := o.m1.values s rd
  let m2s := (o.m2.map fun t => t.values s rd).getD []
  let ms := grad.mapIdx fun k gk =>
    moments u x (wide o.m1) ((o.m2.map wide).getD false) gk (m1s.getD k .zero) (m2s.getD k .zero)
  let (ds, badP) := if u.recipe = 2 then grafted s seg step g u p ms else (ms.map fun m => (m.d, m.event), false)
  let fin := ds.mapIdx fun k (d : Num × ElemEvent) => masterStep u x (wide o.master) (ws.getD k .zero) d.1 d.2
  let w2s : List Num := fin.map fun (e : Num × ElemEvent) => e.1
  let events : List NanEvent := (fin.mapIdx fun k (e : Num × ElemEvent) =>
    (e.2.map fun z => nanEvent unit k (z.1, stageVector, z.2)).toList).flatten
  let base : Work :=
    { cells := (o.m1.write fun k => ((ms[k]?).map (·.m1)).getD .zero).cells ++
        (match o.m2 with
         | some t => (t.write fun k => ((ms[k]?).map (·.v1)).getD .zero).cells
         | none => []) ++ (o.master.write fun k => w2s.getD k .zero).cells
      staged := true, events := events }
  let w := match o.working with
    | some t => base.put unit 13 0 t fun k => w2s.getD k .zero
    | none => base
  let badG := grad.any fun v => !v.isFin
  let badU := badP || (w2s.any fun v => !v.isFin) ||
    (ms.any fun m => !m.m1.isFin || (u.recipe != 0 && !m.v1.isFin))
  { w with findings :=
      (if badG then withBit 0 vbGrad else 0) ||| (if badU then withBit 0 vbUpdate else 0) |||
      (if ratioExceeded u ws w2s then withBit 0 vbRatio else 0) }

/-- UPDATE of a record in step n: the work, and the queue as it is staged (R154, R165). -/
def updateTask (s : State) (rd : Reader) (unit seg step : Nat) (g : Segment) (u : UpdateRec) (p : Option (List Num)) :
    Work × Option FallowQueue :=
  match updateOps s u with
  | none => ({}, none)
  | some o =>
    if step < u.t0 || !o.master.tensor.held then ({ staged := true }, none)
    else
      let work := match updateGrad s rd u o with
        | some (grad, c) => updateWork s rd unit seg step g u o p grad c
        | none => { staged := true }
      if u.fallowDelay = 0 then (work, none)
      else
        let q := fallowOf s u.master
        let now := o.grad.values s rd
        let c := clipFactor u ((o.norm.map fun x => x.read s rd 0).getD .zero)
        let bad := now.any fun v => !v.isFin
        ({ work with findings := work.findings ||| (if bad then withBit 0 vbGrad else 0) },
         some { q with consume := decide (u.fallowDelay ≤ q.entries.length), append := some (step, toB32 c, now.map toB32) })

/-! ### The audit (R163) -/

/-- A staged working weight against its staged master: the working tensor's cells as they should be, none where they are so,
and the elements that count: those that differ, and every element of a block whose scale differs. -/
def auditRecord (s : State) (step : Nat) (u : UpdateRec) : Cells × Nat :=
  match updateOps s u with
  | none => ([], 0)
  | some o =>
    match o.working with
    | none => ([], 0)
    | some t =>
      let rd : Reader := .task (step + 1) true
      let should := (t.write fun k => o.master.read s rd k).cells
      let wrong := should.filter fun c => readByte s.mem s.run.head rd c.1 != c.2
      if wrong.isEmpty then ([], 0)
      else
        let sh := t.tensor.shape
        let now := tensorBytes s rd t.tensor
        let want := fun off => (cellAt should (t.tensor.homeOffset + off)).getD (now off)
        let count := ((List.range t.elems).filter fun k =>
          let (row, i) := t.place k
          let scale := sh.scaleBase + row * sh.rowBlocks + i / blockSize sh.block
          slotBits now sh.fmt (sh.slot row i) != slotBits want sh.fmt (sh.slot row i) ||
            (fmtBlocked sh.fmt && now scale != want scale)).length
        (should, count)

end Sys2Proof.Machine
end

