-- ==== Sys2Proof/Machine/Graph.lean ====
section
/-!
DEFINITION. Task graphs (12): the records of a segment, the rules that make one malformed (R248), and its acceptance (R243,
R244, R247, 04 R73, 08 R164).
-/
namespace Sys2Proof.Machine

open Sys2Proof

/-! ### Records (R107, R126, R151, R246, R248, R249) -/

/-- A limited binary32 field: -0 is +0 wherever it is used (03 R427). -/
def limited (x : Nat) : W32 := if x = 0x80000000 then 0 else BitVec.ofNat 32 x

def parseTensor (b : Bytes) : TensorRec :=
  let x := leNat b
  { format := bits x 0 5, block := bits x 5 2, cls := bits x 7 4, fallow := bitOf x 11, pinned := bitOf x 12,
    pinFar := bitOf x 13, rank := bits x 16 3, shardDim := bits x 19 3, sharded := bitOf x 22,
    shardGroup := bits x 32 16, homeModule := BitVec.ofNat 16 (bits x 48 16), homeOffset := bits x 64 64,
    extent := (List.range 6).map fun d => bits x (128 + 40 * d) 40 }

def parseView (b : Bytes) : ViewRec :=
  let x := leNat b
  { tensor := bits x 0 32, start := (List.range 6).map fun d => bits x (32 + 40 * d) 40,
    span := (List.range 6).map fun d => bits x (272 + 40 * d) 40 }

def parseTask (b : Bytes) : TaskRec :=
  let x := leNat b
  { kind := bits x 0 8, stream := bits x 8 3, stint := bits x 12 4, inCount := bits x 16 3, outCount := bits x 19 3,
    predCount := bits x 32 32, gate := BitVec.ofNat 64 (bits x 64 64), succOffset := bits x 128 32,
    succCount := bits x 160 32,
    inView := ((List.range 6).map fun i => bits x (192 + 32 * i) 32).take (bits x 16 3),
    outView := ((List.range 4).map fun i => bits x (384 + 32 * i) 32).take (bits x 19 3),
    program := bits x 512 32, record := bits x 544 32, blockFirst := bits x 576 32, blockCount := bits x 608 32,
    param := slice b 80 32 }

def parseStat (b : Bytes) : StatRec :=
  let x := leNat b
  { running := bits x 0 32, pendingT := bits x 32 32, kind := bits x 64 3, norm := bits x 67 2, firstFold := bitOf x 69,
    interval := bits x 72 7, phase := bits x 79 7, blockLog2 := bits x 88 5, beta := limited (bits x 96 32),
    layer := bits x 128 13, multM1 := bits x 144 16, rows := bits x 160 32, cols := bits x 192 32 }

def parseRoot (b : Bytes) : RootRec :=
  let x := leNat b
  { stat := bits x 0 32, root := bits x 32 32, work := bits x 64 32, algorithm := bits x 96 2, pLog2 := bits x 98 2,
    precision := bitOf x 100, dampMode := bitOf x 101, carry := bitOf x 102, ageAction := bitOf x 103,
    biasCorrect := bitOf x 104, strict := bitOf x 105, deadlineM1 := bits x 106 3, maxAge := bits x 112 4,
    iterLimit := bits x 116 12, epsilon := limited (bits x 128 32), tol := limited (bits x 160 32),
    harrows := bits x 192 7 }

def parseUpdate (b : Bytes) : UpdateRec :=
  let x := leNat b
  { master := bits x 0 32, working := bits x 32 32, m1 := bits x 64 32, m2 := bits x 96 32, grad := bits x 128 32,
    leftRoot := bits x 160 32, rightRoot := bits x 192 32, normT := bits x 224 32, recipe := bits x 256 2,
    decay := bitOf x 258, clip := bitOf x 259, precise := bitOf x 260, biasCorrect := bitOf x 261,
    fallowDelay := bits x 262 3, layer := bits x 272 13, lr := limited (bits x 288 32),
    beta1 := limited (bits x 320 32), beta2 := limited (bits x 352 32),
    eps := limited (bits x 384 32), wd := limited (bits x 416 32),
    clipNorm := limited (bits x 448 32), umax := limited (bits x 480 32), t0 := bits x 512 64 }

/-- Offset and count of section k of a segment's header (R241). -/
def sectionOf (b : Bytes) (k : Nat) : Nat × Nat := (field b (40 + 8 * k) 4, field b (44 + 8 * k) 4)

/-- Record length of section k. -/
def recordLength (k : Nat) : Nat := ([64, 64, 128, 4, 64, 64, 128, 1, 4] : List Nat).getD k 1

/-- The records of section k, as byte strings. -/
def sectionRecords (b : Bytes) (k : Nat) : List Bytes :=
  let (off, n) := sectionOf b k
  (List.range n).map fun i => slice b (off + recordLength k * i) (recordLength k)

/-- A segment's retained copy: stint code 15 replaced (04 R73). -/
def resolveStints (dflt : Nat) (b : Bytes) : Bytes :=
  let (off, n) := sectionOf b 2
  (List.range n).foldl (fun b i =>
    let at_ := off + 128 * i + 1
    let x := byteAt b at_
    if x / 16 = 15 then overlay b at_ [BitVec.ofNat 8 (dflt * 16 + x % 16)] else b) b

def parseSegment (b : Bytes) : Segment :=
  { standing := bitOf (byteAt b 5) 0, layers := bits (field b 6 2) 0 13, oneShot := field b 8 8,
    taskBase := field b 16 4, tensorBase := field b 20 4, evalInterval := bits (field b 24 8) 0 7,
    evalPhase := bits (field b 24 8) 7 7, group := bits (field b 24 8) 14 16, bytes := b,
    tensors := (sectionRecords b 0).map parseTensor, views := (sectionRecords b 1).map parseView,
    tasks := (sectionRecords b 2).map parseTask, edges := (sectionRecords b 3).map leNat,
    stats := (sectionRecords b 4).map parseStat, roots := (sectionRecords b 5).map parseRoot,
    updates := (sectionRecords b 6).map parseUpdate,
    programs := (let (off, n) := sectionOf b 7; slice b off n), order := (sectionRecords b 8).map leNat }

/-! ### Tensor records (R246, R247, 03 R44, R45, R64, 11 R221) -/

/-- A format a class may have (03 R64, 08 R149). -/
def classFormat (cls f : Nat) : Bool :=
  match cls with
  | 2 => fmtArray f
  | 3 | 4 | 5 => f == fB32 || f == fB64
  | 6 | 7 => f == fB32
  | 8 => f == fBF16 || f == fB32 || f == fB64
  | _ => true

/-- The record as its bytes stand alone. -/
def tensorBytesOk (b : Bytes) : Bool :=
  let x := leNat b
  let t := parseTensor b
  bits x 14 2 == 0 && bits x 23 9 == 0 && zeroAt b 46 18 && fmtKnown t.format && decide (t.cls ≤ 11) &&
    decide (1 ≤ t.rank) && decide (t.rank ≤ 6) && t.homeOffset % 64 == 0 && classFormat t.cls t.format &&
    (t.extent.zipIdx).all fun e => decide (1 ≤ e.1) && (decide (e.2 < t.rank) || e.1 == 1)

/-- A record against its shard group's size P (R247). -/
def tensorShardOk (p : Nat) (t : TensorRec) : Bool :=
  !t.sharded || (decide (t.shardDim < t.rank) && decide (0 < p) && t.extent.getD t.shardDim 1 % p == 0)

/-- The record with its shard fixed at acceptance (R247). -/
def placeTensor (s : State) (moduleGroup : Nat) (t : TensorRec) : TensorRec :=
  let me := s.holding.moduleId
  let t := { t with onGroup := moduleGroup }
  if t.sharded then
    let ms := membersOf s t.shardGroup
    { t with parts := max 1 ms.length, shard := (rankOf ms me).getD 0, held := (rankOf ms me).isSome }
  else
    { t with held := if t.homeModule = everyone then
        moduleGroup == 0xFFFF || (rankOf (membersOf s moduleGroup) me).isSome
      else t.homeModule == me }

/-- A home that overlaps the reserved area or runs past it (11 R221). -/
def homeBad (s : State) (t : TensorRec) : Bool := decide (reservedBase s < t.homeOffset + t.bytes)

/-! ### The segment being checked -/

/-- A segment with the tensors its views may name. -/
structure Draft where
  g       : Segment
  tensors : List (Nat × TensorRec)
  deriving DecidableEq, Repr

def Draft.tensor (d : Draft) (i : Nat) : Option TensorRec := (d.tensors.find? fun e => e.1 == i).map (·.2)

def Draft.operand (d : Draft) (i : Nat) : Option Operand :=
  (d.g.views[i]?).bind fun v => (d.tensor v.tensor).map fun t => ⟨v.tensor, t, v⟩

def Draft.ins (d : Draft) (t : TaskRec) : List Operand := t.inView.filterMap d.operand

def Draft.outs (d : Draft) (t : TaskRec) : List Operand := t.outView.filterMap d.operand

/-- A view lies in the shard-local extent of its tensor (R248); an unknown tensor is another row's matter (R243). -/
def Draft.viewOk (d : Draft) (v : ViewRec) : Bool :=
  v.span.all (1 ≤ ·) &&
  match d.tensor v.tensor with
  | none => true
  | some t => (List.range 6).all fun i => decide (v.start.getD i 0 + v.span.getD i 1 ≤ t.local.getD i 1)

/-! ### Task kinds (R251) -/

/-- What R251 allows a kind: streams, operand and output counts, program (0 none, 1 optional, 2 required), record (0 none,
1 statistic, 2 root, 3 update), blocks, the PARAM bytes it uses. -/
structure KindRow where
  streams : List Nat
  ins     : List Nat
  outs    : List Nat
  program : Nat := 0
  record  : Nat := 0
  blocks  : Bool := false
  param   : List Nat := []
  deriving DecidableEq, Repr

def upTo (a b : Nat) : List Nat := (List.range (b + 1 - a)).map (a + ·)

def kindRow (k : Nat) : Option KindRow :=
  match k with
  | 0x01 => some { streams := [0, 1, 2, 4], ins := [2, 3], outs := [1], program := 1, param := [0] }
  | 0x02 => some { streams := [1], ins := [1], outs := [0], record := 1, blocks := true }
  | 0x03 => some { streams := [0, 4], ins := [3], outs := [2], param := [0, 1, 2, 4, 5, 6, 7] }
  | 0x04 => some { streams := [1], ins := [6], outs := [3], param := upTo 0 7 }
  | 0x05 => some { streams := [0, 1, 2, 4, 5], ins := upTo 0 6, outs := upTo 1 4, program := 2 }
  | 0x06 => some { streams := [0, 1, 4], ins := [1, 3], outs := [1], param := [0, 4, 5, 6, 7] }
  | 0x07 => some { streams := [0, 1, 4], ins := [1], outs := [1] }
  | 0x08 => some { streams := [0, 1, 4], ins := [2], outs := [2] }
  | 0x09 => some { streams := [0, 1, 4], ins := [2], outs := [1] }
  | 0x0A => some { streams := [1, 2], ins := [2], outs := [1], param := [0] }
  | 0x0B => some { streams := [0, 1, 2, 4], ins := [0, 1], outs := [0, 1], param := upTo 0 15 }
  | 0x0C => some { streams := [2], ins := [1], outs := [1], record := 3, blocks := true }
  | 0x0D => some { streams := [2], ins := [0, 1], outs := [0], record := 3 }
  | 0x0E => some { streams := [3], ins := [0], outs := [0], record := 2, blocks := true }
  | 0x0F => some { streams := [2], ins := [0], outs := [0], record := 1 }
  | 0x10 => some { streams := [0, 1, 2, 4, 5], ins := [1], outs := [1], param := [0, 1] }
  | 0x11 => some { streams := [5], ins := [0], outs := [0] }
  | 0x12 => some { streams := [2], ins := [0], outs := [0] }
  | 0x13 => some { streams := [4], ins := [1], outs := [1], param := [0, 1, 2] }
  | _ => none

/-- The gate a stream and kind may carry (02 R23, R24, R252). -/
def gateOk (t : TaskRec) : Bool :=
  let p := passOf t.gate
  !posMalformed t.gate && stepOf t.gate == 0 &&
  (match t.stream with
   | 0 => p == passF
   | 1 => p == passB
   | 2 => if t.kind == 0x0F || t.kind == 0x12 then p == passC else p == passU || p == passC
   | 3 => p == passC
   | 4 => p == passE
   | _ => true)

/-- The record by its bytes and its kind's row. -/
def taskBytesOk (d : Draft) (b : Bytes) : Bool :=
  let x := leNat b
  let t := parseTask b
  match kindRow t.kind with
  | none => false
  | some k =>
    decide (t.stream ≤ 5) && bitOf x 11 == false && bits x 22 10 == 0 && zeroAt b 112 16 &&
    (decide (t.stint ≤ 6) || t.stint == 15) && k.streams.contains t.stream && k.ins.contains t.inCount &&
    k.outs.contains t.outCount && gateOk t &&
    ((List.range 6).all fun i => decide (i < t.inCount) || bits x (192 + 32 * i) 32 == noneIndex) &&
    ((List.range 4).all fun i => decide (i < t.outCount) || bits x (384 + 32 * i) 32 == noneIndex) &&
    ((t.inView ++ t.outView).all fun v => decide (v < d.g.views.length)) &&
    (if k.program = 0 then t.program == noneIndex else decide (k.program = 1) && t.program == noneIndex ||
      decide (t.program < d.g.programs.length)) &&
    (match k.record with
     | 0 => t.record == noneIndex
     | 1 => decide (t.record < d.g.stats.length)
     | 2 => decide (t.record < d.g.roots.length)
     | _ => decide (t.record < d.g.updates.length)) &&
    (k.blocks || (t.blockFirst == 0 && t.blockCount == 0)) &&
    (List.range 32).all fun i => k.param.contains i || byteAt t.param i == 0

/-! ### Programs (05 R90, R92 to R94) -/

/-- One instruction of a program with `nin` operand and `nout` output views, in the tail or not; `keys` says whether draws can
be keyed on an operand view's tensor (R103). -/
def vecWordFits (keys : Nat → Bool) (nin nout : Nat) (tail : Bool) (w : Nat) : Bool :=
  match vecOfCode (bits w 0 8) with
  | none => false
  | some op => vecWordOk w && vecFits nin nout tail op (vecArgs w) &&
      (!(op == .randu || op == .randb) || keys (vecArgs w).va)

/-- A tensor on which a program may draw: index below 2^19, every element index below 2^40 (R103). -/
def drawKeyed (o : Operand) : Bool := decide (o.index < 2 ^ 19) && decide (o.tensor.extent.foldl (· * ·) 1 ≤ 2 ^ 40)

/-- A whole program image. -/
def programOk (keys : Nat → Bool) (img : Bytes) (nin nout : Nat) : Bool :=
  let h := vecHeader img
  let words := fun lo hi => (upto lo hi).map fun i => vecWord img i
  let stores := fun ws : List Nat => (ws.filter fun w => bits w 0 8 == 0x49).map fun w => bits w 22 5
  let distinct := fun vs : List Nat => decide vs.Nodup
  vecHeaderOk img && decide (128 + 8 * h.len ≤ img.length) &&
    (words 0 h.tailStart).all (vecWordFits keys nin nout false) && (words h.tailStart h.len).all (vecWordFits keys nin nout true) &&
    distinct (stores (words 0 h.tailStart)) && distinct (stores (words h.tailStart h.len))

/-! ### Shapes of kinds (R252, 03 R52, R63, 04 R71, 05, 06 R112, 10 R198) -/

def batches (o : Operand) : List Nat := (List.range 4).map fun i => o.span (i + 2)

def sameSpans (a b : Operand) : Bool := (List.range 6).all fun i => a.span i == b.span i

/-- A block-scaled output view covers whole blocks (03 R52). -/
def wholeBlocks (o : Operand) : Bool :=
  !fmtBlocked o.tensor.format ||
  (let b := blockSize o.tensor.block
   let lo := o.view.start.getD 0 0
   let hi := lo + o.span 0
   lo % b == 0 && (hi % b == 0 || hi == o.tensor.local.getD 0 1))

/-- A conversion of 03 R58 leads from one format to another: none leads to INT32 outside a vector program, and INT32 widens to
binary32 and binary64 alone. -/
def converts (a b : Nat) : Bool := if b = fINT32 then a == fINT32 else a != fINT32 || b == fB32 || b == fB64

/-- No view of a floating-point kind holds INT32 (03 R49). -/
def noInt (os : List Operand) : Bool := os.all fun o => o.tensor.format != fINT32

/-- A reduction extent of a matrix product (04 R71). -/
def reductionOk (k : Nat) : Bool := decide (1 ≤ k) && decide (k ≤ 16777216)

/-- MATMUL: the extents of its views (04 R71, R74, 12 R252). -/
def matmulFits (t : TaskRec) (ins : List Operand) (c : Operand) : Bool :=
  let f := matmulForm t
  match ins with
  | a :: b :: rest =>
    let k := matmulK f a
    reductionOk k && (if f.transB then b.span 0 else b.span 1) == k &&
    (if f.transA then a.span 0 else a.span 1) == c.span 1 && (if f.transB then b.span 1 else b.span 0) == c.span 0 &&
    batches a == batches c && batches b == batches c &&
    (match rest with
     | p :: _ => if f.bias then p.span 0 == c.span 0 && (upTo 1 5).all fun i => p.span i == 1 else sameSpans p c
     | [] => true)
  | _ => false

def attentionParams (t : TaskRec) (back : Bool) : Bool :=
  decide (6 ≤ byteAt t.param 0) && decide (byteAt t.param 0 ≤ 10) && decide (byteAt t.param 1 ≤ 1) &&
  fmtArray (byteAt t.param 2) && (!back || fmtArray (byteAt t.param 3))

/-- The extents of attention; head dimension, queries and keys are reduction extents (04 R71, 05 R102). -/
def attentionFits (q k v o lse : Operand) : Bool :=
  q.span 0 == k.span 0 && k.span 1 == v.span 1 && o.span 0 == v.span 0 && o.span 1 == q.span 1 &&
  batches q == batches k && batches q == batches v && batches q == batches o && lse.elems == q.rows &&
  [q.span 0, v.span 0, q.span 1, k.span 1].all reductionOk

/-- The collective parameter block (10 R197, R198). -/
structure CollForm where
  op       : Nat
  operator : Nat
  mode     : Nat
  group    : Nat
  root     : Nat
  count    : Nat
  deriving DecidableEq, Repr

def collForm (t : TaskRec) : CollForm :=
  let x := leNat t.param
  { op := bits x 0 3, operator := bits x 3 2, mode := bits x 5 2, group := bits x 16 16, root := bits x 32 16,
    count := bits x 64 64 }

/-- A block-scaled view begins and ends on block boundaries, and so does every slice of `n` elements of it (10 R198). -/
def onBlocks (o : Operand) (n : Nat) : Bool :=
  !fmtBlocked o.tensor.format ||
  (wholeBlocks o && (List.range (o.elems / max 1 n)).all fun j => (o.place (j * n)).2 % blockSize o.tensor.block == 0)

/-- Two views whose bytes a collective copies: one format, and one block size where it has blocks (10 R198). -/
def sameStorage (i o : Operand) : Bool :=
  i.tensor.format == o.tensor.format && (!fmtBlocked i.tensor.format || i.tensor.block == o.tensor.block)

/-- The codes of a collective's parameter block. -/
def collectiveCodes (t : TaskRec) : Bool :=
  let f := collForm t
  let x := leNat t.param
  bits x 7 9 == 0 && bits x 48 16 == 0 && decide (f.mode ≤ 2) &&
  (match f.op with
   | 0 | 1 | 7 => decide (f.operator ≤ 2)
   | 6 => decide (f.operator ≤ 1)
   | _ => f.operator == 0) &&
  (f.op == 3 || f.root == 0) && (f.op != 5 || f.count == 0)

/-- The views of a COLLECTIVE, as far as they can be judged without the group's size, which the muster judges (10 R197, R198). -/
def collectiveFits (t : TaskRec) (ins outs : List Operand) : Bool :=
  let f := collForm t
  match f.op, ins, outs with
   | 5, [], [] => true
   | 0, [i], [o] => i.elems == f.count && o.elems == f.count
   | 1, [i], [o] => i.elems == f.count && o.elems != 0 && f.count % o.elems == 0 && onBlocks i o.elems
   | 2, [i], [o] => i.elems == f.count && o.elems % f.count == 0 && onBlocks i f.count && onBlocks o f.count && sameStorage i o
   | 3, [i], [o] => i.elems == f.count && o.elems == f.count && onBlocks i f.count && sameStorage i o
   | 4, [i], [o] => i.elems == o.elems && i.elems % f.count == 0 && onBlocks i f.count && onBlocks o f.count && sameStorage i o
   | 6, [i], [o] => i.elems == f.count && o.elems == f.count
   | 7, [i], [o] => i.elems == f.count && o.elems == 1
   | _, _, _ => false

/-- Blocks or tiles named lie in range. -/
def blocksIn (t : TaskRec) (n : Nat) : Bool := decide (1 ≤ t.blockCount) && decide (t.blockFirst + t.blockCount ≤ n)

/-- What a kind asks of its PARAM codes and blocks, whatever its views (R251). -/
def Draft.paramOk (d : Draft) (t : TaskRec) : Bool :=
  match t.kind with
  | 0x01 => decide (byteAt t.param 0 ≤ 7) && (!(matmulForm t).bias || t.inCount == 3)
  | 0x02 => (d.g.stats[t.record]?).any fun r => blocksIn t r.blocks
  | 0x03 => attentionParams t false
  | 0x04 => attentionParams t true
  | 0x06 => decide (byteAt t.param 0 ≤ 1)
  | 0x0A => decide (byteAt t.param 0 ≤ 1)
  | 0x0B => collectiveCodes t && (((collForm t).op == 5) == (t.inCount == 0)) && t.inCount == t.outCount
  | 0x0C => ((d.g.updates[t.record]?).bind (tileStat d.g)).any fun st => blocksIn t st.blocks
  | 0x0D => (d.g.updates[t.record]?).any fun u => t.inCount == b2n (u.recipe == 2)
  | 0x0E => ((d.g.roots[t.record]?).bind fun r => d.g.stats[r.stat]?).any fun st => blocksIn t st.blocks
  | 0x13 => decide (byteAt t.param 2 ≤ 2)
  | _ => true

/-- A format a kind takes in operand view i (03 R49, R63, R64, 12 R251). -/
def inFormatOk (t : TaskRec) (i f : Nat) : Bool :=
  match t.kind with
  | 0x01 => fmtArray f || (i == 2 && f == fB32)
  | 0x02 => fmtArray f
  | 0x03 => fmtArray f
  | 0x04 => if i ≤ 2 ∨ i = 4 then fmtArray f else f != fINT32
  | 0x06 | 0x07 | 0x13 => f != fINT32
  | 0x08 => (f == fINT32) == (i == 1)
  | 0x09 | 0x0A => i != 1 || f == fINT32
  | 0x0B => (match (collForm t).op with
     | 0 | 1 | 7 => f != fINT32
     | 6 => f == fINT32
     | _ => true)
  | 0x0C => f == fB32 || f == fB64
  | 0x0D => f == fB32
  | _ => true

/-- A format a kind writes in output view i. -/
def outFormatOk (t : TaskRec) (i f : Nat) : Bool :=
  match t.kind with
  | 0x01 | 0x03 | 0x04 | 0x06 | 0x07 | 0x13 => f != fINT32
  | 0x08 => if i = 0 then f == fB32 else f != fINT32
  | 0x0A => byteAt t.param 0 == 0 || f == fB32
  | 0x0B => (match (collForm t).op with
     | 0 | 1 => f != fINT32
     | 6 => f == fINT32
     | 7 => f == fB64
     | _ => true)
  | 0x0C => f == fB32
  | _ => true

/-- How the views of a kind must agree. -/
def Draft.viewsFit (d : Draft) (t : TaskRec) (ins outs : List Operand) : Bool :=
  match t.kind, ins, outs with
  | 0x01, _, [c] => matmulFits t ins c
  | 0x02, [x], _ => (d.g.stats[t.record]?).any fun r =>
      reductionOk x.rows && (if r.tiled then x.row == r.cols && x.rows == r.rows else x.row == r.rows)
  | 0x03, [q, k, v], [o, lse] => attentionFits q k v o lse
  | 0x04, [q, k, v, o, dO, lse], [dq, dk, dv] =>
    attentionFits q k v o lse && sameSpans dO o && sameSpans dq q && sameSpans dk k && sameSpans dv v
  | 0x06, x :: gain, [y] => sameSpans x y && gain.all fun g => g.elems == x.row
  | 0x07, [x], [y] => sameSpans x y
  | 0x08, [x, tg], [l, g] => tg.elems == x.rows && l.elems == 1 && sameSpans g x
  | 0x09, [tb, ix], [o] => o.span 1 == ix.elems && o.span 0 == tb.span 0 && batches o == batches tb &&
      converts tb.tensor.format o.tensor.format
  | 0x0A, [x, ix], [tb] => x.span 1 == ix.elems && x.span 0 == tb.span 0 && batches x == batches tb &&
      converts x.tensor.format tb.tensor.format
  | 0x0B, _, _ => collectiveFits t ins outs
  | 0x0C, [x], [p] => ((d.g.updates[t.record]?).bind (tileStat d.g)).any fun st =>
      x.elems == st.rows * st.cols && x.row == st.cols && sameSpans x p
  | 0x0D, _, _ => (d.g.updates[t.record]?).any fun u => ins.all fun p =>
      ((d.tensor u.master).map fun m => p.elems == m.shape.elems).getD true
  | 0x10, [x], [y] => sameSpans x y && converts x.tensor.format y.tensor.format
  | 0x13, [x], [y] => sameSpans x y
  | _, _, _ => true

/-- What a kind asks of its program, PARAM, formats and views. A view of a tensor defined nowhere is refused by a later row of
R243; what can be judged without that tensor is judged all the same. -/
def Draft.kindOk (d : Draft) (t : TaskRec) : Bool :=
  let ins := d.ins t
  let outs := d.outs t
  let each := fun (vs : List Nat) (p : Nat → Operand → Bool) =>
    (vs.zipIdx).all fun v => (d.operand v.1).all fun o => p v.2 o
  d.paramOk t && outs.all wholeBlocks && each t.inView (fun i o => inFormatOk t i o.tensor.format) &&
  each t.outView (fun i o => outFormatOk t i o.tensor.format) &&
  (t.program == noneIndex ||
    programOk (fun i => ((t.inView[i]?).bind d.operand).all drawKeyed) (d.g.programs.drop t.program) t.inCount t.outCount) &&
  (ins.length != t.inCount || outs.length != t.outCount || d.viewsFit t ins outs)

/-! ### Statistic, root and update records (06 R108, 07 R127, 08 R150, R152) -/

/-- A binary32 beta of a statistic or of a moment: in [0.5, 1), or, for a statistic, zero (R108; 03 R427 judges -0 as +0 and says
that a beta of -0 in a statistic record is accepted); finite. -/
def betaOk (allowZero : Bool) (b : W32) : Bool :=
  let v := ofB32 b
  v.isFin && (allowZero && v.isZero || (!v.lt (.fin false 1 (-1)) && v.lt (Num.ofNat 1)))

def Draft.statOk (d : Draft) (b : Bytes) (i : Nat) : Bool :=
  let x := leNat b
  let t := parseStat b
  bits x 70 2 == 0 && bits x 86 2 == 0 && bits x 93 3 == 0 && bits x 141 3 == 0 && zeroAt b 28 36 &&
  decide (t.kind ≤ 3) && decide (t.norm ≤ 2) && decide (1 ≤ t.interval) && decide (t.interval ≤ 64) &&
  decide (t.phase < t.interval) && decide (8 ≤ t.blockLog2) && decide (t.blockLog2 ≤ 14) && betaOk true t.beta &&
  decide (t.layer ≤ 8190) && decide (1 ≤ t.rows) && (if t.tiled then decide (1 ≤ t.cols) else t.cols == 0) &&
  ((d.g.tasks.filter fun k => k.kind == 0x0F && k.record == i).length == 1) &&
  (match d.tensor t.running, d.tensor t.pendingT with
   | some r, some p => r.cls == 7 && p.cls == 6 && r.bytes == t.size && p.bytes == t.size
   | _, _ => true)

def Draft.rootOk (d : Draft) (b : Bytes) (i : Nat) : Bool :=
  let x := leNat b
  let r := parseRoot b
  bits x 109 3 == 0 && bits x 199 57 == 0 && zeroAt b 32 32 && decide (r.harrows ≤ 64) &&
  nonNegFinite r.epsilon && nonNegFinite r.tol && (decide (2 ≤ r.algorithm) || r.pLog2 == 0) &&
  (match d.g.stats[r.stat]? with
   | none => false
   | some t =>
     decide (r.deadlineM1 + 1 ≤ t.interval) &&
     (r.algorithm != 3 || (List.range t.blocks).all fun q => decide (t.dim q ≤ 8192)) &&
     (match d.tensor r.root, d.tensor r.work with
      | some rt, some w =>
        rt.cls == 8 && w.cls == 9 && rt.bytes == rootSize t (fmtWidth rt.format / 8) &&
        decide (((List.range t.blocks).map fun q => round64 (workBytes r.algorithm (t.dim q)
          (if r.precision then 8 else 4) (fmtWidth rt.format / 8))).foldl (· + ·) 0 ≤ w.bytes)
      | _, _ => true)) &&
  (d.g.roots.zipIdx).all fun e => e.2 == i || (e.1.stat != r.stat && e.1.root != r.root)

/-- A side of recipe 2 belongs to the master (R152, R158). -/
def Draft.sideOk (d : Draft) (u : UpdateRec) (m : TensorRec) (kind root : Nat) : Bool :=
  root == noneIndex ||
  match sideStat d.g root with
  | none => false
  | some t => t.kind == kind && t.rows == m.shape.rows && t.cols == m.shape.row && t.layer == u.layer &&
      (u.precise || (((d.g.roots[root]?).bind fun r => d.tensor r.root).map fun x => x.format == fBF16).getD true)

def Draft.updateOk (d : Draft) (b : Bytes) (i : Nat) : Bool :=
  let x := leNat b
  let u := parseUpdate b
  let named := [u.master, u.working, u.m1, u.m2, u.grad].filter (· != noneIndex)
  bits x 265 7 == 0 && bits x 285 3 == 0 && zeroAt b 72 56 && decide (u.recipe ≤ 2) && decide (u.fallowDelay ≤ 4) &&
  decide (u.layer ≤ 8190) && ([u.lr, u.beta1, u.beta2, u.eps, u.wd, u.clipNorm, u.umax].all nonNegFinite) &&
  (u.recipe == 0 || (betaOk false u.beta1 && betaOk false u.beta2)) &&
  (!u.clip || (u.normT != noneIndex && positiveFinite u.clipNorm)) &&
  ((u.recipe == 0) == (u.m2 == noneIndex)) && u.master != noneIndex && u.m1 != noneIndex && u.grad != noneIndex &&
  (match d.tensor u.master with
   | none => true
   | some m =>
     named.all (fun n => match d.tensor n with
       | none => true
       | some t => t.local == m.local && t.sharded == m.sharded && t.shardDim == m.shardDim &&
           t.shardGroup == m.shardGroup && t.homeModule == m.homeModule) &&
     m.cls == 3 && m.fallow == decide (u.fallowDelay ≠ 0) &&
     (u.recipe != 2 || (u.fallowDelay == 0 && !(u.leftRoot == noneIndex && u.rightRoot == noneIndex) &&
       d.sideOk u m 0 u.leftRoot && d.sideOk u m 1 u.rightRoot &&
       (match sideStat d.g u.leftRoot, sideStat d.g u.rightRoot with
        | some l, some r => l.blockLog2 == r.blockLog2
        | _, _ => true)))) &&
  (match d.tensor u.m1 with | some t => t.cls == 4 | none => true) &&
  (match d.tensor u.m2 with | some t => t.cls == 5 | none => true) &&
  (match d.tensor u.working with | some t => t.cls == 2 | none => true) &&
  (match d.tensor u.grad with | some t => t.cls == 1 && t.format == fB32 | none => true) &&
  (match d.tensor u.normT with | some t => t.format == fB64 && t.shape.elems == 1 | none => true) &&
  ((d.g.updates.zipIdx).all fun e => e.2 == i ||
    ([e.1.master, e.1.working, e.1.m1, e.1.m2].filter (· != noneIndex)).all fun n =>
      !([u.master, u.working, u.m1, u.m2].contains n)) &&
  d.g.tasks.all fun t =>
    !((t.kind == 0x0C || (t.kind == 0x0D && u.recipe == 2)) && t.record == i) ||
      decide (passU < passOf t.gate) || (passOf t.gate == passU && decide (u.layer ≤ slotOf t.gate))

/-- The modules that hold a home of a tensor; none stands for every module. -/
def homesOf (s : State) (t : TensorRec) : Option (List ModId) :=
  if t.sharded then some (membersOf s t.shardGroup)
  else if t.homeModule != everyone then some [t.homeModule]
  else if t.onGroup = 0xFFFF then none else some (membersOf s t.onGroup)

/-- Two tensors have homes on one module. -/
def homesMeet (s : State) (a b : TensorRec) : Bool :=
  match homesOf s a, homesOf s b with
  | some x, some y => x.any y.contains
  | _, _ => true

/-- Classes 2 to 5, which stand alone on their pages (R150). -/
def TensorRec.paged (t : TensorRec) : Bool := decide (2 ≤ t.cls) && decide (t.cls ≤ 5)

/-- Tensors of classes 2 to 5 begin on a page boundary and stand alone on their pages, on whichever module they have homes
(R150). -/
def pagesAlone (s : State) (ts : List (Nat × TensorRec)) : Bool :=
  ts.all fun a => !a.2.paged ||
    (a.2.homeOffset % pageBytes == 0 &&
     ts.all fun b => b.1 == a.1 || !homesMeet s a.2 b.2 ||
       !overlap a.2.homeOffset (ceilDiv a.2.bytes pageBytes * pageBytes) b.2.homeOffset b.2.bytes)

/-! ### Edges and the order of accesses (R250, R254, R259) -/

/-- The edges of a task. -/
def successors (g : Segment) (t : TaskRec) : List Nat :=
  (List.range t.succCount).map fun i => g.edges.getD (t.succOffset + i) 0

def commitKeyLt (g : Segment) (a b : Nat) : Bool :=
  match g.tasks[a]?, g.tasks[b]? with
  | some x, some y => decide (x.gate.toNat < y.gate.toNat) || (x.gate == y.gate && decide (a < b))
  | _, _ => false

def edgesOk (g : Segment) : Bool :=
  let all := (g.tasks.zipIdx).flatMap fun e => (successors g e.1).map fun t => (e.2, t)
  decide (all.Nodup) && (g.edges.all fun e => decide (e < 2 ^ 20)) &&
  (all.all fun e => commitKeyLt g e.1 e.2) &&
  (g.tasks.all fun t => t.succCount == 0 || decide (t.succOffset + t.succCount ≤ g.edges.length)) &&
  (g.tasks.zipIdx).all fun e => e.1.predCount == (all.filter fun x => x.2 == e.2).length

/-- A path of edges leads from task a to task b, of at most `n` edges. -/
def reaches (g : Segment) : Nat → Nat → Nat → Bool
  | 0, a, b => a == b
  | n + 1, a, b => a == b || match g.tasks[a]? with
      | some t => (successors g t).any fun c => reaches g n c b
      | none => false

/-- Streams whose gates order by the head (R254). -/
def headStream (t : TaskRec) : Bool := t.stream == 0 || t.stream == 1 || t.stream == 2 || t.stream == 4

def gateOrdered (a b : TaskRec) : Bool :=
  (headStream a && decide (a.gate.toNat < b.gate.toNat)) || (headStream b && decide (b.gate.toNat < a.gate.toNat))

/-- A task's accesses: operand, whether it writes. -/
def Draft.accesses (d : Draft) (t : TaskRec) : List (Operand × Bool) :=
  ((d.ins t).map fun o => (o, false)) ++ ((d.outs t).map fun o => (o, true))

/-- Two accesses meet: one writes, and they share a byte of one tensor. -/
def accessesMeet (a b : Operand × Bool) : Bool :=
  (a.2 || b.2) && a.1.index == b.1.index &&
  a.1.ranges.any fun x => b.1.ranges.any fun y => overlap x.1 x.2 y.1 y.2

/-- Two one-shot segments of different steps have no step instance in common. -/
def neverTogether (a b : Segment) : Bool := !a.standing && !b.standing && a.oneShot != b.oneShot

/-- Every two tasks of the draft, and every task of it with one of a held segment, that meet are ordered (R254). -/
def orderedAccesses (d : Draft) (others : List Draft) : Bool :=
  ((d.g.tasks.zipIdx).all fun a => (d.g.tasks.zipIdx).all fun b =>
    !decide (a.2 < b.2) || !((d.accesses a.1).any fun x => (d.accesses b.1).any (accessesMeet x)) ||
      gateOrdered a.1 b.1 || reaches d.g d.g.tasks.length a.2 b.2 || reaches d.g d.g.tasks.length b.2 a.2) &&
  others.all fun o => neverTogether d.g o.g || d.g.tasks.all fun a => o.g.tasks.all fun b =>
    !((d.accesses a).any fun x => (o.accesses b).any (accessesMeet x)) || gateOrdered a b

/-- The order array (R259). -/
def orderOk (g : Segment) : Bool :=
  g.order.isEmpty ||
  (g.order.length == g.tasks.length && decide g.order.Nodup && (g.order.all fun i => decide (i < g.tasks.length)) &&
   ((g.tasks.zipIdx).all fun e => (successors g e.1).all fun t =>
     decide (g.order.findIdx (· == e.2) < g.order.findIdx (· == t))) &&
   ((g.order.zip g.order.tail).all fun e =>
     match g.tasks[e.1]?, g.tasks[e.2]? with
     | some a, some b => decide (a.gate.toNat ≤ b.gate.toNat)
     | _, _ => false))

/-! ### The whole segment (R241, R248) -/

/-- The header and its sections. -/
def segmentHeaderOk (b : Bytes) : Bool :=
  let w := field b 24 8
  let standing := bitOf (byteAt b 5) 0
  decide (256 ≤ b.length) && field b 0 4 == 0x53475848 && byteAt b 4 == 1 && bits (byteAt b 5) 1 7 == 0 &&
  decide (1 ≤ bits (field b 6 2) 0 13) && bits (field b 6 2) 13 3 == 0 && (!standing || field b 8 8 == 0) &&
  decide (bits w 0 7 ≤ 64) && (if bits w 0 7 = 0 then bits w 7 7 == 0 else decide (bits w 7 7 < bits w 0 7)) &&
  bits w 30 34 == 0 && field b 32 4 == b.length && decide (b.length ≤ 2 ^ 31) && zeroAt b 36 4 && zeroAt b 112 144 &&
  decide ((sectionOf b 2).2 ≤ 1048576) &&
  ((sectionOf b 8).2 == 0 || (sectionOf b 8).2 == (sectionOf b 2).2) &&
  decide (field b 20 4 + (sectionOf b 0).2 ≤ 524288) && decide (field b 16 4 + (sectionOf b 2).2 ≤ 2 ^ 32) &&
  (List.range 9).all fun k =>
    let (off, n) := sectionOf b k
    n == 0 || (off % 64 == 0 && decide (256 ≤ off) && decide (off + recordLength k * n ≤ b.length))

/-- The draft of a segment: its tensors placed, with every tensor already defined. -/
def draftOf (s : State) (g : Segment) : Draft :=
  let own := (g.tensors.map (placeTensor s g.group)).mapIdx fun i t => (g.tensorBase + i, t)
  { g := { g with tensors := own.map (·.2) }, tensors := own ++ definedTensors s }

def heldDrafts (s : State) : List Draft := (heldSegments s).map fun e => ⟨e.2, definedTensors s⟩

/-- A view or task reserved region of a view record has none; a segment is well-formed (R248). -/
def segmentOk (s : State) (b : Bytes) : Bool :=
  segmentHeaderOk b &&
  let g := parseSegment b
  let d := draftOf s g
  ((sectionRecords b 0).all tensorBytesOk) &&
  (g.tensors.all fun t => tensorShardOk (membersOf s t.shardGroup).length t) &&
  (d.g.tensors.all fun t => !homeBad s t) && (g.views.all d.viewOk) &&
  ((sectionRecords b 2).all (taskBytesOk d)) && (g.tasks.all (Draft.kindOk d)) && edgesOk g && orderOk g &&
  (((sectionRecords b 4).zipIdx).all fun e => d.statOk e.1 e.2) &&
  (((sectionRecords b 5).zipIdx).all fun e => d.rootOk e.1 e.2) &&
  (((sectionRecords b 6).zipIdx).all fun e => d.updateOk e.1 e.2) &&
  pagesAlone s d.tensors && orderedAccesses d (heldDrafts s)

/-! ### Acceptance (R243, R244) -/

/-- Task-ID ranges of two segments meet. -/
def rangesMeet (a n b m : Nat) : Bool := decide (a < b + m) && decide (b < a + n) && decide (0 < n) && decide (0 < m)

/-- Tensor indices a segment names. -/
def namedTensors (g : Segment) : List Nat :=
  (g.views.map (·.tensor)) ++ (g.stats.flatMap fun t => [t.running, t.pendingT]) ++
  (g.roots.flatMap fun r => [r.root, r.work]) ++
  (g.updates.flatMap fun u => [u.master, u.working, u.m1, u.m2, u.grad, u.normT].filter (· != noneIndex))

/-- Groups its COLLECTIVE and EVAL_REDUCE tasks name. -/
def namedGroups (g : Segment) : List Nat :=
  (g.tasks.filter fun t => t.kind == 0x0B).map (fun t => (collForm t).group) ++
  (g.tasks.filter fun t => t.kind == 0x13).map fun t => field t.param 0 2

/-- The modules that run a segment: MODULE_GROUP's members, or every module of the run. -/
def segmentModules (s : State) (g : Segment) : List ModId :=
  if g.group = 0xFFFF then runModules s else membersOf s g.group

/-- A MODULE_GROUP has members outside the holding: of a run of several holdings, the group of every module does. -/
def groupOutside (s : State) (g : Nat) : Bool :=
  if g = 0xFFFF then s.run.isOn && s.run.holdingCount != 1 else (membersOf s g).any fun m => !inHolding s.holding m

/-- The names a segment needs are free or defined (R243 row 4). -/
def segmentConflicts (s : State) (g : Segment) : Bool :=
  let held := heldSegments s
  let d := draftOf s g
  (g.group != 0xFFFF && (groupOf s g.group).isNone) ||
  (held.any fun e => rangesMeet g.taskBase g.tasks.length e.2.taskBase e.2.tasks.length ||
    rangesMeet g.tensorBase g.tensors.length e.2.tensorBase e.2.tensors.length) ||
  (s.graph.tensors.any fun e => e.2.isSome && decide (g.tensorBase ≤ e.1) &&
    decide (e.1 < g.tensorBase + g.tensors.length)) ||
  ((namedTensors g).any fun i => (d.tensor i).isNone) ||
  ((namedGroups g).any fun n => (groupOf s n).isNone ||
    (segmentModules s g).any fun m => !(membersOf s n).contains m) ||
  decide (256 ≤ held.length)

/-- Bytes of the fallow queues of a segment: d entries of the gradient's shard. -/
def fallowBytes (d : Draft) : Nat :=
  (d.g.updates.map fun u => u.fallowDelay * ((d.tensor u.grad).map (·.bytes)).getD 0).foldl (· + ·) 0

/-- The remainder of the reserved area less the 8 GiB kept for export (11 R222). -/
def fallowLimit (s : State) : Nat := s.mem.reservedNow.toNat * gib - (11 * gib + 128 * 2 ^ 20) - 8 * gib

def storeFull (s : State) (g : Segment) : Bool :=
  decide (gib < g.bytes.length + ((heldSegments s).map fun e => e.2.bytes.length).foldl (· + ·) 0) ||
  decide (fallowLimit s < fallowBytes (draftOf s g) + ((heldDrafts s).map fallowBytes).foldl (· + ·) 0)

/-- The lowest free entry of the directory. -/
def freeSegment (s : State) : Nat :=
  ((List.range 256).find? fun n => (tget {} s.graph.dir n).state == 0).getD 256

/-- A page pinned to a tier; a page in the other tier is selected to move (11 R231 to R233). -/
def pinPage (far : Bool) (p : Nat) (s : State) : State :=
  let e := pageOf s p
  let s := setPage p { e with pin := if far then 2 else 1 } s
  let goes := if e.state == 1 || e.state == 2 then e.otherFar else e.far
  if e.present && goes != far then
    { s with mem.selected := (s.mem.selected.filter fun x => x.page != p) ++ [⟨p, far, 1⟩] }
  else s

def pinTensor (far : Bool) (t : TensorRec) (s : State) : State :=
  if t.held then (pagesOf t.homeOffset t.bytes).foldl (fun s p => pinPage far p s) s else s

/-- A tensor pinned far, page by page, where no pin names the near tier (08 R164). -/
def pinDefault (t : TensorRec) (s : State) : State :=
  if t.held then
    (pagesOf t.homeOffset t.bytes).foldl (fun s p => if (pageOf s p).pin = 1 then s else pinPage true p s) s
  else s

/-- Pins that acceptance makes: PINNED tensors, and every tensor a fallow update record names, far by default (08 R164). -/
def acceptPins (g : Segment) (s : State) : State :=
  let fallow := (g.updates.filter fun u => u.fallowDelay != 0).flatMap fun u =>
    [u.master, u.working, u.m1, u.m2, u.grad, u.normT].filter (· != noneIndex)
  let s := fallow.foldl (fun s i => match findTensor s i with
    | some t => if t.pinned then s else pinDefault t s
    | none => s) s
  g.tensors.foldl (fun s t => if t.pinned then pinTensor t.pinFar t s else s) s

/-- Solve records of a new segment: one for each block of each root record, slots given out in order (20 R420). -/
def newBlocks (seg base : Nat) (g : Segment) : List BlockSolve :=
  let keys := (g.roots.zipIdx).flatMap fun e => match g.stats[e.1.stat]? with
    | some t => (List.range t.blocks).map fun q => SolveKey.mk seg e.2 q
    | none => []
  keys.mapIdx fun i k => { key := k, slot := base + i }

/-- The segment installed under its number. -/
def installSegment (b : Bytes) (s : State) : Nat × State :=
  let n := freeSegment s
  let kept := resolveStints s.numerics.stintDefault.toNat b
  let g := (draftOf s (parseSegment kept)).g
  let next := match s.run.created with
    | some c => c + 1
    | none => stepOf s.run.head
  let e : DirEntry :=
    { state := if g.standing then 1 else 2, firstStep := if g.standing then next else g.oneShot,
      digest := digestBits (sha256 kept), segment := some g, solveBase := s.graph.solveSlots }
  let blocks := newBlocks n s.graph.solveSlots g
  let s := { s with
    graph.dir := tset {} s.graph.dir n e
    graph.solveSlots := s.graph.solveSlots + blocks.length
    harrows.blocks := (s.harrows.blocks.filter fun x => x.key.seg != n) ++ blocks }
  (n, extendMeas 4 (digestBytes e.digest) (acceptPins g s))

/-- GRAPH_SUBMIT of a segment: the first row of R243 that matches. `mayNotPermit` is false on a member, whose master has
decided that row. -/
def submitGraph (mayNotPermit : Bool) (b : Bytes) (s : State) : State × Result :=
  let g := parseSegment b
  if segmentOk s b = false then refuse stMalformed s
  else if mayNotPermit && !s.isLead && groupOutside s g.group then
    refuse stNotPermitted s
  else if s.quiet = false then refuse stStateConflict s
  else if segmentConflicts s g || storeFull s g then refuse stStateConflict s
  else if !g.standing && (match s.run.created with | some c => decide (g.oneShot ≤ c) | none => false) then
    refuse stStateConflict s
  else
    let (n, s) := installSegment b s
    accept n s

end Sys2Proof.Machine
end

