-- ==== Sys2Proof/Machine/Sched.lean ====
section
/-!
DEFINITION. Task runs (12 R258 to R263): creation, admission, eligibility, dispatch, publication, discard; candidates of the
trap (04 R85).
-/
namespace Sys2Proof.Machine

open Sys2Proof

/-! ### Creation (R258, R242) -/

/-- The segment is instantiated in step n. -/
def DirEntry.activeIn (e : DirEntry) (n : Nat) : Bool :=
  match e.segment with
  | none => false
  | some g =>
    (e.state == 1 || (e.state == 3 && (e.lastStep == 0 || decide (n ≤ e.lastStep)))) && g.standing &&
      decide (e.firstStep ≤ n) ||
      (e.state == 2 || e.state == 3) && !g.standing && g.oneShot == n

/-- Evaluation of a segment falls in step n (R242). -/
def Segment.evalIn (g : Segment) (n : Nat) : Bool := g.evalInterval != 0 && n % g.evalInterval == g.evalPhase

/-- This module runs the segment. -/
def runsHere (s : State) (g : Segment) : Bool :=
  g.group == 0xFFFF || (membersOf s g.group).contains s.holding.moduleId

/-- The segments active in step n with their numbers. -/
def activeSegments (s : State) (n : Nat) : List (Nat × Segment) :=
  s.graph.dir.filterMap fun e =>
    if e.2.activeIn n then e.2.segment.bind fun g => if runsHere s g then some (e.1, g) else none else none

/-- Stream E of a segment runs after step n: its schedule says so and the module evaluates of its own accord (12 R242,
16 R357). -/
def evaluates (s : State) (g : Segment) (n : Nat) : Bool := g.evalIn n && !s.run.modes.getD 9 false

/-- Evaluation is scheduled for step n (01 R15, 12 R242). -/
def evalScheduled (s : State) (n : Nat) : Bool :=
  (activeSegments s n).any fun e => evaluates s e.2 n && e.2.tasks.any fun t => t.stream == streamE

/-- A task instance of step n. -/
def newInst (n seg i : Nat) (g : Segment) (t : TaskRec) : TaskInst :=
  { step := n, task := BitVec.ofNat 32 (g.taskBase + i), seg := seg, index := i, stream := t.stream,
    gate := gateAt n t.gate, phase := .created, seedbed := false, attempt := 0, unit := 0, tiles := 0, done := 0,
    overran := [], cells := [], staged := false, event := none, findings := 0, counts := [], status := stOk,
    contributions := [], boost := 0, eligibleAt := none, pubSeq := 0 }

/-- The group a COLLECTIVE task names. -/
def taskGroup (t : TaskRec) : Option Nat := if t.kind = 0x0B then some (collForm t).group else none

/-- A collective's sequence number: its group's counter, which is then incremented (10 R199). -/
def giveSeq (s : State) (t : TaskInst) : State × TaskInst :=
  match (taskRecOf s t).bind taskGroup with
  | none => (s, t)
  | some g =>
    match groupOf s g with
    | none => (s, t)
    | some x =>
      ({ s with coll.groups := tset none s.coll.groups g (some { x with seq := (x.seq + 1) % 2 ^ 32 }) },
       { t with seq := x.seq })

/-- Sequence numbers given in commit order. -/
def giveSeqs (ts : List TaskInst) (s : State) : State × List TaskInst :=
  ts.foldl (fun x t =>
    let (s, t) := giveSeq x.1 t
    (s, x.2 ++ [t])) (s, [])

/-- The counters as the collectives of step n leave them. -/
def markSeqs (n : Nat) (s : State) : State :=
  mapGroups (fun _ x => { x with marks := (x.marks.filter fun m => m.1 != n) ++ [(n, x.seq)] }) s

/-- The gates the copy of the head has reached are marked with the time (10 R214). -/
def markGates (s : State) : State :=
  let mark := fun (t : TaskInst) =>
    if t.gateAt.isNone && decide (t.gate.toNat ≤ s.run.head.toNat) then { t with gateAt := some s.clock.up } else t
  { s with sched.tasks := s.sched.tasks.map mark }

/-- Before in ascending (step, gate, task ID). -/
def instBefore (a b : TaskInst) : Bool := commitBefore (a.step, a.gate, a.task) (b.step, b.gate, b.task)

/-- The task runs that the records of a step's active segments become, in ascending (gate, task ID). -/
def stepInstances (s : State) (n : Nat) (p : Segment → TaskRec → Bool) : List TaskInst :=
  sortBy (fun a b => !instBefore b a) ((activeSegments s n).flatMap fun e =>
    ((e.2.tasks.zipIdx).filter fun t => p e.2 t.1).map fun t => newInst n e.1 t.2 e.2 t.1)

/-- Task runs added with their sequence numbers. -/
def addInstances (n : Nat) (new : List TaskInst) (s : State) : State :=
  let (s, new) := giveSeqs new s
  markGates (markSeqs n { s with sched.tasks := s.sched.tasks ++ new })

/-- The task runs of step n created, once; in host-assisted evaluation mode stream E has none (16 R357). -/
def createStep (n : Nat) (s : State) : State :=
  if (match s.run.created with | some c => decide (n ≤ c) | none => false) then s
  else
    addInstances n (stepInstances s n fun g t => t.stream != streamE || evaluates s g n) { s with
      run.created := some n
      run.attempts := tmod 0 s.run.attempts n (· + 1) }

/-- The task runs of stream E of a step created already, when evaluation is the module's again (16 R357). -/
def createEval (n : Nat) (s : State) : State :=
  addInstances n (stepInstances s n fun g t => t.stream == streamE && evaluates s g n) s

/-! ### Admission (R260) -/

def taskSlots : Nat := 16384

def usedSlots (s : State) : Nat := (s.sched.tasks.filter TaskInst.slotted).length

/-- The first instance in ascending order of those that satisfy `p`. -/
def firstInst (s : State) (p : TaskInst → Bool) : Option TaskInst :=
  (s.sched.tasks.filter p).foldl (fun m t =>
    match m with
    | some x => if instBefore t x then some t else some x
    | none => some t) none

/-- The next instance in ascending order, when the limits let it in. -/
def nextAdmission (s : State) : Option TaskInst :=
  match firstInst s fun t => t.phase == .created with
  | none => none
  | some t =>
    let free := taskSlots - usedSlots s
    let oldest := ((firstInst s TaskInst.incomplete).map (·.step)).getD t.step
    let oldIn := !s.sched.tasks.any fun x => x.step == oldest && x.phase == .created
    let side := fun x : TaskInst => x.stream == streamS || x.stream == streamX
    let sideUsed := (s.sched.tasks.filter fun x => x.slotted && side x).length
    if 1 ≤ free ∧ (t.step = oldest ∨ 4096 ≤ free ∨ oldIn = true) ∧ (side t = false ∨ sideUsed < 2048) then some t else none

/-! ### Eligibility (R255, R256, R261, 02 R24, 01 R16) -/

/-- The gate is met by the head, or by the seedbed head for F and B work of the step after it. -/
def gateMet (s : State) (t : TaskInst) : Bool :=
  decide (t.gate.toNat ≤ s.run.head.toNat) ||
  (match s.run.seedbedHead with
   | some p => t.step == stepOf s.run.head + 1 && (t.stream == streamF || t.stream == streamB) &&
       decide (t.gate.toNat ≤ p.toNat)
   | none => false)

/-- Below the target of a pending scheduled stop (R263, 02 R36). -/
def belowStop (s : State) (t : TaskInst) : Bool :=
  match s.run.stop with
  | some m => !m.scheduled || decide (t.gate.toNat < m.target.toNat)
  | none => true

/-- The predecessors of a task in its step are no longer incomplete. -/
def predecessorsDone (s : State) (t : TaskInst) : Bool :=
  match segmentOf s t.seg with
  | none => true
  | some g => s.sched.tasks.all fun x =>
      !(x.step == t.step && x.seg == t.seg && x.incomplete && x.index != t.index) ||
      !((g.tasks[x.index]?).map fun r => (successors g r).contains t.index).getD false

/-- Byte ranges a task run reads and writes. -/
def readRanges (s : State) (t : TaskInst) : List (Nat × Nat) :=
  match segmentOf s t.seg, taskRecOf s t with
  | some g, some r => (r.inView.filterMap (operandOf s g)).flatMap Operand.ranges
  | _, _ => []

def writeRanges (s : State) (t : TaskInst) : List (Nat × Nat) :=
  match segmentOf s t.seg, taskRecOf s t with
  | some g, some r => (r.outView.filterMap (operandOf s g)).flatMap Operand.ranges
  | _, _ => []

def rangesShare (a b : List (Nat × Nat)) : Bool := a.any fun x => b.any fun y => overlap x.1 x.2 y.1 y.2

/-- No writer of an earlier instance that the task reads after is still to publish (R255). -/
def entryReady (s : State) (t : TaskInst) : Bool :=
  s.sched.tasks.all fun x => !(decide (x.step < t.step) && x.incomplete) || !rangesShare (writeRanges s x) (readRanges s t)

/-- No COPY_IN held for the step or an earlier one is still to write bytes the task reads (13 R278). -/
def copiesReady (s : State) (t : TaskInst) : Bool :=
  s.mem.awaited.all fun c => !decide (c.step ≤ t.step) || !rangesShare [(c.off, c.len)] (readRanges s t)

/-- The gate is met against the seedbed head alone (R256). -/
def bySeedbed (s : State) (t : TaskInst) : Bool := decide (s.run.head.toNat < t.gate.toNat)

/-- Under a seedbed head: every writer ordered below by gate alone has published here, and every module of its segment has
a seedbed front, or the head, beyond the writer's gate (R256). -/
def seedbedOrdered (s : State) (t : TaskInst) : Bool :=
  !bySeedbed s t ||
  (activeSegments s t.step).all fun e =>
    (e.2.tasks.zipIdx).all fun w =>
      let gate := gateAt t.step w.1.gate
      let ranges := (w.1.outView.filterMap (operandOf s e.2)).flatMap Operand.ranges
      !(headStream w.1 && decide (gate.toNat < t.gate.toNat) &&
        rangesShare ranges (readRanges s t ++ writeRanges s t)) ||
      ((s.sched.tasks.all fun x => !(x.step == t.step && x.seg == e.1 && x.index == w.2 && x.incomplete)) &&
       (segmentModules s e.2).all fun m => m == s.holding.moduleId ||
         decide (gate.toNat < s.run.head.toNat) || s.run.fronts.any fun f => f.1 == m && decide (gate.toNat < f.2.2.1.toNat))

/-- Host-assisted ordering (01 R19 function 0): every instance before it in its step's order has started. -/
def hostOrdered (s : State) (t : TaskInst) : Bool :=
  s.run.modes.getD 0 false == false ||
  s.sched.tasks.all fun x =>
    !(x.step == t.step && (x.phase == .created || x.phase == .admitted) && !(x.seg == t.seg && x.index == t.index)) ||
    (match segmentOf s t.seg with
     | some g =>
       if x.seg == t.seg && !g.order.isEmpty then
         decide (g.order.findIdx (· == t.index) < g.order.findIdx (· == x.index))
       else instBefore t x
     | none => true)

/-- The commit record of the step is written: commit work may run (01 R13). -/
def committed (s : State) (n : Nat) : Bool := s.votes.commits.any fun c => c.step == n

/-- Decisions of 07 R140 exist for the blocks a PRECONDITION_APPLY or an UPDATE of recipe 2 uses. -/
def decisionsTaken (s : State) (t : TaskInst) (g : Segment) (r : TaskRec) : Bool :=
  match g.updates[r.record]? with
  | none => true
  | some u =>
    u.recipe != 2 ||
    match tileStat g u with
    | none => true
    | some st =>
      let qs := if r.kind = 0x0C then upto r.blockFirst (r.blockFirst + r.blockCount) else List.range st.blocks
      qs.all fun q => [u.leftRoot, u.rightRoot].all fun root =>
        root == noneIndex || (decisionOf s ⟨t.seg, root, q⟩ t.step).isSome

/-- The fold a SOLVE follows has completed, or is not due (07 R130). -/
def foldDone (s : State) (t : TaskInst) (g : Segment) (r : TaskRec) : Bool :=
  match g.roots[r.record]? with
  | none => true
  | some root => s.sched.tasks.all fun x =>
      !(x.step == t.step && x.seg == t.seg && x.incomplete) ||
      !((g.tasks[x.index]?).map fun k => k.kind == 0x0F && k.record == root.stat).getD false

/-- A SOLVE task of a step before n whose solves are still to be issued. A solve is issued when its fold has completed, so
before any deadline and any vote of a later step (07 R130; log entry 24). -/
def issuesWaiting (s : State) (n : Nat) (p : TaskInst → TaskRec → Bool) : Bool :=
  s.sched.tasks.any fun t => decide (t.step < n) && t.stream == streamS && t.incomplete && !t.started &&
    (taskRecOf s t).any fun r => r.kind == 0x0E && p t r

/-- While the seedbed is open, a task of the step after the head's writes seedbed destinations alone: classes 0, 1, 6 and 9
(09 R189). -/
def seedbedDestinations (s : State) (t : TaskInst) (g : Segment) (r : TaskRec) : Bool :=
  !(s.run.seedbedOpen && decide (stepOf s.run.head < t.step)) ||
  (r.outView.filterMap (operandOf s g)).all fun o => ([0, 1, 6, 9] : List Nat).contains o.tensor.cls

/-- Commit work that a rollback waits for (02 R42). -/
def completing (s : State) (t : TaskInst) : Bool :=
  s.run.isOn && s.run.halt == .running && t.commitWork && s.run.rollTo == some (t.step + 1)

/-- An admitted instance may be dispatched. -/
def eligible (s : State) (t : TaskInst) : Bool :=
  (s.moving || completing s t) && t.phase == .admitted && gateMet s t && belowStop s t && predecessorsDone s t && entryReady s t && copiesReady s t &&
  seedbedOrdered s t && hostOrdered s t && (!(passOf t.gate == passC) || t.stream == streamX || committed s t.step) &&
  match segmentOf s t.seg, taskRecOf s t with
  | some g, some r =>
    (!(r.kind == 0x0C || r.kind == 0x0D) || decisionsTaken s t g r) && (r.kind != 0x0E || foldDone s t g r) &&
    seedbedDestinations s t g r
  | _, _ => false

/-! ### NaN events of a task (04 R83 to R86) -/

/-- A task's first event joined by another. -/
def joinEvent (a b : Option NanEvent) : Option NanEvent :=
  match a, b with
  | none, x => x
  | x, none => x
  | some x, some y => if y.outIndex < x.outIndex then some y else some x

/-- Work of a step is held with the seedbed that is open (09 R191). -/
def heldBySeedbed (s : State) (step : Nat) : Bool := s.run.seedbedOpen && decide (stepOf s.run.head < step)

/-- The trap is armed (R85). -/
def trapArmed (s : State) : Bool := s.numerics.trapEnable && s.numerics.trapArmed

/-- A publishing task's first event becomes a candidate while the trap is armed; seedbed work counts as publishing when its
seedbed closes (09 R191). -/
def offerCandidate (t : TaskInst) (s : State) : State :=
  match t.event with
  | none => s
  | some e =>
    if trapArmed s && !(t.seedbed && heldBySeedbed s t.step) then
      { s with sched.candidates := s.sched.candidates ++ [(t.step, t.gate, t.task, t.stream, t.seedbed, e)] }
    else s

/-! ### Dispatch and publication (R253, R257, R262) -/

/-- DATA of a class-0 trace entry is the gate; types by 17 R368. -/
def traceTask (type : Nat) (t : TaskInst) (s : State) : State := trace 0 type t.seedbed t.unit t.task t.gate.toNat s

/-- Roots a task's records name. -/
def rootTensors (g : Segment) (t : TaskRec) : List Nat :=
  if t.kind = 0x0C then
    match g.updates[t.record]? with
    | some u => [u.leftRoot, u.rightRoot].filterMap fun r => if r = noneIndex then none else (g.roots[r]?).map (·.root)
    | none => []
  else []

/-- Byte ranges of whole tensors. -/
def tensorRanges (s : State) (is : List Nat) : List (Nat × Nat) :=
  is.filterMap fun i => (findTensor s i).bind fun t => if t.held then some (t.homeOffset, t.bytes) else none

/-- What a task run reads beside its views: the tensors of its update record, the pending block of a fold, the statistic a solve
is assembled from, the roots a precise or a plain apply uses (11 R225). -/
def recordReads (g : Segment) (r : TaskRec) : List Nat :=
  if r.kind = 0x0D then
    match g.updates[r.record]? with
    | some u => [u.master, u.m1, u.m2, u.grad, u.normT].filter (· != noneIndex)
    | none => []
  else if r.kind = 0x0F then ((g.stats[r.record]?).map fun t => [t.pendingT, t.running]).getD []
  else if r.kind = 0x0E then
    ((g.roots[r.record]?).bind fun x => (g.stats[x.stat]?).map fun t => [t.running]).getD []
  else rootTensors g r

/-- What an UPDATE writes into the hopper, and what a fold writes. -/
def recordStages (g : Segment) (r : TaskRec) : List Nat :=
  if r.kind = 0x0D then
    match g.updates[r.record]? with
    | some u => [u.master, u.m1, u.m2, u.working].filter (· != noneIndex)
    | none => []
  else []

def recordWrites (g : Segment) (r : TaskRec) : List Nat :=
  if r.kind = 0x0F then ((g.stats[r.record]?).map fun t => [t.pendingT, t.running]).getD [] else []

/-- The accesses of a task run; its outputs go to frames of their own until it publishes (R253). -/
def accessesOf (s : State) (t : TaskInst) : List (Access × Nat × Nat) :=
  let of := fun (what : Access) (l : List (Nat × Nat)) => l.map fun x => (what, x.1, x.2)
  of .read (readRanges s t) ++ of .stage (writeRanges s t) ++
    match segmentOf s t.seg, taskRecOf s t with
    | some g, some r =>
      of .read (tensorRanges s (recordReads g r)) ++ of .write (tensorRanges s (recordWrites g r)) ++
        of .stage (tensorRanges s (recordStages g r))
    | _, _ => []

/-- Operands counted as read and outputs as written. -/
def touchViews (seedbed : Bool) (t : TaskInst) (s : State) : State :=
  (accessesOf s t).foldl (fun s x => touchAs seedbed x.1 x.2.1 x.2.2 s) s

/-- Their bytes, for the counts of the run (17 R361). -/
def viewCounts (s : State) (t : TaskInst) : List (Nat × Nat) :=
  (accessesOf s t).flatMap fun x => touchCounts s (x.1 != .read) x.2.1 x.2.2

/-- The pages a run stages in the hopper. -/
def stagedPages (w : Work) : List Nat := if w.staged then (w.cells.map fun c => c.1 / pageBytes).eraseDups else []

/-- The pages a run's output views touch, which get fresh frames (R253). -/
def outputPages (s : State) (t : TaskInst) : List Nat :=
  ((writeRanges s t).flatMap fun x => pagesOf x.1 x.2).eraseDups

/-- The reader a run of a task is (R255). -/
def readerOf (s : State) (t : TaskInst) : Reader :=
  .task t.step (s.run.seedbedOpen && decide (stepOf s.run.head < t.step))

/-- The versions a run binds to, by page read: that of the last writer it sees there, or the committed home (R255, R257). -/
def boundVersions (s : State) (t : TaskInst) : List (Nat × Option LayerTag) :=
  (((readRanges s t).flatMap fun x => pagesOf x.1 x.2).eraseDups).map fun p =>
    (p, ((s.mem.layers.filter fun l =>
      sees s.run.head (readerOf s t) l.tag && l.cells.any fun c => c.1 / pageBytes == p).getLast?).map (·.tag))

/-- A run that started computed: it waits while a page that it stages or writes has no frame to be had (R253, 08 R166); its work
kept in the task until its tiles are complete, and counted as it is done (17 R361). -/
def startRun (r : TaskRun) (w : Work) (t : TaskInst) (s : State) : State :=
  let sb := s.run.seedbedOpen && decide (stepOf s.run.head < t.step)
  let t' := { t with
    phase := .computed, seedbed := sb, attempt := (t.attempt + 1) % 256, unit := r.unit, tiles := max 1 r.tiles,
    done := 0, cells := w.cells, staged := w.staged, findings := w.findings, counts := w.counts ++ nanSlots w.events,
    status := w.status,
    contributions := w.contributions, bound := boundVersions s t, event := if w.first.isSome then w.first else firstEvent w.events }
  match (stageFrames t.step (stagedPages w) s).bind (freshFrames t.step t.task (outputPages s t)) with
  | none => s
  | some s =>
  let s := touchViews sb t s
  let t' := { t' with counts := t'.counts ++ viewCounts s t }
  let s := w.counts.foldl (fun s c => countWork sb c.1 c.2 s) s
  let s := w.events.foldl (fun s e => countNan sb t.task e s) s
  let s := traceTask 1 t' (setTask t.step t.task (fun _ => t') s)
  (List.range t'.tiles).foldl (fun s _ => traceTask 2 t' s) s

/-- The fresh frames of task runs that have ended without publishing are free. -/
def freeFresh (p : TaskInst → Bool) (s : State) : State :=
  let gone := fun (h : FreshFrame) => s.sched.tasks.any fun t => p t && sameRun h.step h.task t
  { s with mem.fresh := s.mem.fresh.filter fun h => !gone h }

/-- A task that fails with an address error stops without publishing. -/
def failRun (t : TaskInst) (s : State) : State :=
  let s := freeFresh (sameRun t.step t.task) s
  addressError t.step (traceTask 6 t (setTask t.step t.task (fun t => { t with phase := .abandoned, cells := [] }) s))

/-- The pages cells lie on, each with a frame, heated by the lines written and marked where a move has copied them. -/
def touchCells (cs : Cells) (s : State) : State :=
  ((cs.map fun c => c.1 / lineBytes).eraseDups).foldl (fun s l => touch true (lineBytes * l) lineBytes s) s

/-- Cells made current in the committed memory at once (commit work). -/
def writeCells (cs : Cells) (s : State) : State :=
  { s with
    mem.base := applyCells s.mem.base cs
    mem.layers := s.mem.layers.map fun l =>
      if sees s.run.head .plain l.tag then { l with cells := l.cells.filter fun c => !(cs.any fun x => x.1 == c.1) } else l }

/-- The chunk in a fold's valid journal slot copied to the home and marked done, and the slot cleared (06 R120 steps 3 and 4). -/
def finishChunk (step : Nat) (task : W32) (s : State) : State :=
  let j := journalOf s step task
  match j.slot with
  | some x => setJournal { j with done := j.done + 1, slot := none } (writeCells x.2 s)
  | none => s

/-- The next chunk of a fold written to the journal slot, which is then valid (06 R120 step 2). -/
def journalChunk (t : StatRec) (step : Nat) (task : W32) (cs : Cells) (s : State) : State :=
  let j := journalOf s step task
  if j.done < (foldChunks t).length then setJournal { j with slot := some (j.done, chunkCells s t j.done cs) } s else s

/-- The outputs of a task made current: staged pages, commit work in place, any other output as its step's version. -/
def layOutput (t : TaskInst) (s : State) : State :=
  let s := if t.staged then s else (writeRanges s t).foldl (fun s x => writePoison x.1 x.2 false s) s
  if t.cells.isEmpty then s
  else if t.staged then { s with mem.layers := addLayer ⟨.staged t.step, t.cells⟩ s.mem.layers }
  else if t.commitWork then writeCells t.cells s
  else layCells t.step t.task (t.seedbed && s.run.seedbedOpen) t.cells s

/-- The status a task completes with: REPLAYED_OK where a tile was run again, or its step after a rollback (13 R286; log entry
83). -/
def endStatus (s : State) (t : TaskInst) : Nat :=
  if t.status = stOk ∧ (1 < t.attempt ∨ 1 < attemptOf s t.step) then stReplayedOk else t.status

/-- A task published: outputs current on their fresh frames, findings, candidate, counts, sealing (R253, 09 R173, 06 R117). What a
seedbed task writes keeps its fresh frames until the seedbed closes (09 R188). -/
def publish (t : TaskInst) (s : State) : State :=
  let s := layOutput t s
  let s := if t.seedbed && heldBySeedbed s t.step then s else flipFresh t.step t.task (dropJournal t.step t.task s)
  let n := s.sched.pubs + 1
  let status := endStatus s t
  let s := setTask t.step t.task (fun t => { t with phase := .published, cells := [], pubSeq := n, status := status }) s
  let s := { s with sched.pubs := n, sched.pubCount := s.sched.pubCount + 1 }
  let s := countWork t.seedbed (0x310 + t.stream) 1 s
  let s := findings t.step t.findings (offerCandidate t s)
  let s := if t.stream = streamB then (activeSegments s t.step).foldl (fun s e => sealSegment e.1 t.step s) s else s
  traceTask 4 t s

/-! ### The end of a SOLVE task (R146) -/

/-- The blocks a SOLVE task names, in ascending q. -/
def namedBlocks (s : State) (t : TaskInst) (r : TaskRec) : List BlockSolve :=
  (upto r.blockFirst (r.blockFirst + r.blockCount)).filterMap fun q => findBlock s ⟨t.seg, r.record, q⟩

/-- The task of its fold issued the block's present solve. -/
def issuedBy (t : TaskInst) (b : BlockSolve) : Bool := b.work.any fun w => w.foldStep == t.step && w.started

/-- A SOLVE task whose solves have all ended is complete; its first event is that of its lowest block. -/
def endSolve (t : TaskInst) (s : State) : State :=
  match taskRecOf s t with
  | none => s
  | some r =>
    let mine := (namedBlocks s t r).filter (issuedBy t)
    if t.phase != .computed || r.kind != 0x0E || mine.any solveInFlight then s
    else
      let warm := mine.any fun b => b.record.warmRejected
      let t' := { t with
        done := t.tiles, event := mine.findSome? fun b => b.work.bind (·.event),
        status := if warm then stWarmStartRejected else stOk }
      publish t' (setTask t.step t.task (fun _ => t') s)

/-- Every SOLVE task that has come to its end. -/
def endSolves (s : State) : State :=
  (s.sched.tasks.filter fun t => t.phase == .computed && kindOf s t == 0x0E).foldl (fun s t => endSolve t s) s

/-- An instance that completes at once with no effect and is counted as no work (06 R109); its attempt number stays 0. -/
def completeAtOnce (t : TaskInst) (s : State) : State :=
  let n := s.sched.pubs + 1
  setTask t.step t.task (fun t => { t with phase := .published, attempt := 0, pubSeq := n }) { s with sched.pubs := n }

/-- A task of a statistic record in a step that is not a statistic step of it, which has no effect (06 R109). -/
def notDue (s : State) (t : TaskInst) : Bool :=
  match segmentOf s t.seg, taskRecOf s t with
  | some g, some r => (r.kind == 0x02 || r.kind == 0x0F) && (g.stats[r.record]?).any fun st => !st.due t.step
  | _, _ => false

/-- Poisoned lines among a task's operands; a task that is not due reads nothing. -/
def poisonedOperands (s : State) (t : TaskInst) : List Nat :=
  if notDue s t then [] else (readRanges s t).flatMap fun x => poisonedIn s x.1 x.2

/-! ### Discard (R263, 01 R17, 17 R361) -/

/-- The counted work of a run added to status 2. -/
def countDiscarded (t : TaskInst) (s : State) : State :=
  let s := (t.counts ++ t.recounts).foldl (fun s c => countAs c.1 2 c.2 s) s
  if t.phase == .published && t.attempt != 0 then countAs (0x310 + t.stream) 2 1 s else s

/-- Task runs that satisfy `p` discarded: their counts go to status 2, once, those of a run that had failed among them; their
slots are released. -/
def discardRuns (p : TaskInst → Bool) (phase : Phase) (s : State) : State :=
  let gone := s.sched.tasks.filter fun t => p t && t.phase != .discarded
  let s := freeFresh p s
  let s := gone.foldl (fun s t =>
    let s := countDiscarded t s
    if t.phase == .abandoned then s else traceTask (if phase = .abandoned then 6 else 5) t s) s
  { s with
    sched.tasks := s.sched.tasks.map fun t =>
      if p t && t.phase != .discarded then
        if t.phase == .abandoned then { t with counts := [], recounts := [] }
        else
          { t with
            phase := phase, cells := [], contributions := [], status := stDiscarded, counts := [], recounts := [] }
      else t }

/-- The task runs of a step forgotten, so that they can be created again. -/
def forgetRuns (p : TaskInst → Bool) (s : State) : State :=
  { s with sched.tasks := s.sched.tasks.filter fun t => !p t }

/-! ### The trap (04 R85 to R87) -/

/-- The lowest candidate in commit order that may be delivered: seedbed work only once its own seedbed has closed. -/
def lowestCandidate (s : State) : Option (Nat × Pos × W32 × Nat × Bool × NanEvent) :=
  (s.sched.candidates.filter fun c => !(c.2.2.2.2.1 && heldBySeedbed s c.1)).foldl (fun m c =>
    match m with
    | none => some c
    | some x => if commitBefore (c.1, c.2.1, c.2.2.1) (x.1, x.2.1, x.2.2.1) then some c else some x) none

/-- Every task of the module that precedes a point in commit order has settled. -/
def settledBefore (s : State) (step : Nat) (gate : Pos) (task : W32) : Bool :=
  s.sched.tasks.all fun t => !(t.incomplete && commitBefore (t.step, t.gate, t.task) (step, gate, task))

end Sys2Proof.Machine
end

