-- ==== Sys2Proof/Machine/Place.lean ====
section
/-!
DEFINITION. Where pages live (11): heat decay and rotation (R225, R227), the sowing window (R234), what a stop does to moves
(R230), retirement of frames (R237, R238).
-/
namespace Sys2Proof.Machine

open Sys2Proof

/-! ### Frames and eligibility -/

/-- Frames of a tier and region in use or out of use. -/
def framesTaken (s : State) (far : Bool) (region : Nat) : Nat :=
  (s.mem.pages.filter fun e => pageRegion e.1 == region && e.2.present && e.2.far == far).length +
  (s.mem.pages.filter fun e => pageRegion e.1 == region && e.2.present && e.2.state != 0 && e.2.otherFar == far).length +
  (s.mem.hopper.filter fun h => pageRegion h.page == region && h.far == far).length +
  (s.mem.fresh.filter fun h => pageRegion h.page == region && h.far == far).length +
  (s.mem.oldHomes.filter fun (f : Bool × Nat × Nat) => f.1 == far && f.2.1 == region).length +
  reservedFrames s far region +
  ((s.mem.retired ++ s.flash.retired).eraseDups.filter fun f => f.1 == far && f.2.1 == region).length

/-- Free frames left once the moves already selected have theirs. -/
def framesLeft (s : State) (far : Bool) (region : Nat) : Nat :=
  tierFrames far - framesTaken s far region -
    (s.mem.selected.filter fun x => x.toFar == far && pageRegion x.page == region).length

/-- The page lies in the reserved area. -/
def pageReserved (s : State) (p : Nat) : Bool := decide (reservedBase s ≤ p * pageBytes)

/-- A staged pair of the page stands in the hopper. -/
def pageStaged (s : State) (p : Nat) : Bool :=
  s.mem.layers.any fun l => (match l.tag with | .staged _ => true | _ => false) &&
    l.cells.any fun c => c.1 / pageBytes == p

/-! ### The sowing window (R234) -/

/-- The sowing reference: the higher of the head and the seedbed head. -/
def sowingHead (s : State) : Pos :=
  match s.run.seedbedHead with
  | some p => if s.run.head.toNat < p.toNat then p else s.run.head
  | none => s.run.head

/-- Pair i of the window in a segment of n layers, as (steps after h's, pass, slot): h's own pair first, or in passes C and E, which
have no pair, the next; the slot sequence ends with the F slots of the next step. -/
def windowPair (n : Nat) (h : Pos) (i : Nat) : Option (Nat × Nat × Nat) :=
  let at_ := if passOf h ≤ passU then passOf h * n + min (slotOf h) (n - 1) + i else 3 * n + i - 1
  if passU < passOf h ∧ i = 0 then none
  else if 4 * n ≤ at_ then none
  else some (at_ / (3 * n), at_ % (3 * n) / n, at_ % n)

/-- Tasks of pair i of the window, in ascending task ID. -/
def windowTasks (s : State) (h : Pos) (i : Nat) : List (Nat × Segment × TaskRec) :=
  let of := fun (ahead : Nat) => (activeSegments s (stepOf h + ahead)).flatMap fun e =>
    match windowPair e.2.layers h i with
    | some (a, pass, slot) =>
      if a = ahead then
        (e.2.tasks.zipIdx.filter fun t => passOf t.1.gate == pass && slotOf t.1.gate == slot).map fun t =>
          (e.2.taskBase + t.2, e.2, t.1)
      else []
    | none => []
  sortBy (fun (a b : Nat × Segment × TaskRec) => decide (a.1 ≤ b.1)) (of 0 ++ of 1)

/-- The pages of the window, in the order of pairs, task IDs and pages. -/
def windowPages (s : State) : List Nat :=
  let h := sowingHead s
  ((List.range (s.mem.cfg.lookahead.toNat + 1)).flatMap fun i =>
    (windowTasks s h i).flatMap fun (x : Nat × Segment × TaskRec) =>
      let (_, g, t) := x
      sortNat (((t.inView.filterMap (operandOf s g) ++ t.outView.filterMap (operandOf s g)).flatMap fun o =>
          o.ranges.flatMap fun x => pagesOf x.1 x.2) ++
        (rootTensors g t).flatMap fun i => match findTensor s i with
          | some r => pagesOf r.homeOffset r.bytes
          | none => [])).eraseDups

/-- A page that rotation may move (R227). -/
def rotatable (s : State) (window : List Nat) (p : Nat) (e : PageEntry) : Bool :=
  e.present && e.pin == 0 && e.state == 0 && !pageReserved s p && !pageStaged s p && !pageRetained s p &&
  !window.contains p && !s.mem.selected.any fun x => x.page == p

/-- The hottest page of a list, or the coldest; equal heats by ascending page. -/
def hottest (l : List (Nat × PageEntry)) : Option (Nat × PageEntry) :=
  l.foldl (fun m e => match m with
    | none => some e
    | some x => if x.2.heat < e.2.heat then some e else some x) none

def coldest (l : List (Nat × PageEntry)) : Option (Nat × PageEntry) :=
  l.foldl (fun m e => match m with
    | none => some e
    | some x => if e.2.heat < x.2.heat then some e else some x) none

/-- Sows the window: far pages of it selected in order, with a demotion where the region has no free near frame. -/
def sow (s : State) : State :=
  if s.run.modes.getD 3 false || s.mem.cfg.lookahead = 0 || !s.run.isOn then s
  else
    let window := windowPages s
    let s := { s with mem.selected := s.mem.selected.filter fun x => x.cause != 3 }
    window.foldl (fun s p =>
      let e := pageOf s p
      -- a page on its way to the far tier is sown back once it has got there (R230)
      let leaving := (e.state == 1 || e.state == 2) && e.otherFar
      if !e.present || e.pin == 2 || pageReserved s p || s.mem.selected.any (fun x => x.page == p) then s
      else if leaving then selectMove p false 3 s
      else if !e.far then s
      else if 0 < framesLeft s false (pageRegion p) then selectMove p false 3 s
      else
        let near := s.mem.pages.filter fun x =>
          pageRegion x.1 == pageRegion p && !x.2.far && rotatable s window x.1 x.2
        match coldest near with
        | some c => selectMove p false 3 (selectMove c.1 true 3 s)
        | none => s) s

/-! ### Rotation (R225, R227) -/

/-- Every heat counter decays. -/
def decayHeat (s : State) : State :=
  { s with mem.pages := s.mem.pages.foldl (fun t e =>
      tset {} t e.1 { e.2 with heat := e.2.heat - e.2.heat / 2 ^ s.mem.cfg.decayShift.toNat }) s.mem.pages }

/-- One round of selection in a region: the moves it adds. -/
def rotateOnce (window : List Nat) (region budget : Nat) (s : State) : Option (List Selected) :=
  let here := s.mem.pages.filter fun e => pageRegion e.1 == region && rotatable s window e.1 e.2
  let far := here.filter fun e => e.2.far
  let near := here.filter fun e => !e.2.far
  let usable := 24576 - ((s.mem.retired ++ s.flash.retired).eraseDups.filter fun f => !f.1 && f.2.1 == region).length
  let used := usable - framesLeft s false region
  if used * 100 < s.mem.cfg.hbmTarget.toNat * usable then
    match hottest far with
    | some h => if 0 < h.2.heat ∧ 1 ≤ budget ∧ 0 < framesLeft s false region then some [⟨h.1, false, 0⟩] else none
    | none => none
  else
    match hottest far, coldest near with
    | some h, some c =>
      if c.2.heat + s.mem.cfg.hysteresis.toNat < h.2.heat ∧ 2 ≤ budget ∧ 0 < framesLeft s true region then
        some [⟨c.1, true, 0⟩, ⟨h.1, false, 0⟩]
      else none
    | _, _ => none

/-- Selection in a region until nothing applies. -/
def rotateRegion (window : List Nat) (region : Nat) : Nat → State → State
  | 0, s => s
  | n + 1, s =>
    match rotateOnce window region s.mem.budget s with
    | none => s
    | some ms => rotateRegion window region n
        { s with mem.selected := s.mem.selected ++ ms, mem.budget := s.mem.budget - ms.length }

/-- The moves of a step selected after a commit; those carried over count against the budget. -/
def rotationSelect (s : State) : State :=
  let carried := (s.mem.selected.filter fun x => x.cause == 0).length
  let s := { s with mem.budget := s.mem.cfg.rotationBudget.toNat - carried }
  if s.run.modes.getD 2 false then { s with mem.budget := 0 }
  else
    let window := windowPages s
    (List.range 32).foldl (fun s r => rotateRegion window r s.mem.budget s) s

/-! ### Stops and modes (R230) -/

/-- Moves still owed when one is abandoned: those of pins, hints and retirements. -/
def owed (cause : Nat) : Bool := cause == 1 || cause == 2 || cause == 4

/-- A move abandoned before its flip: its destination is free, and what is still owed, a pin of the page given during the move
among it, is selected again. -/
def abandonMove (p : Nat) (s : State) : State :=
  let e := pageOf s p
  let s := setPage p (settled e) s
  repin p (if owed e.cause then selectMove p e.otherFar e.cause s else s)

/-- An immediate stop: a move before its flip is abandoned, a flipped one frees its source. -/
def stopMoves (s : State) : State :=
  s.mem.pages.foldl (fun s e => if e.2.state = 3 then freeSource e.1 s
    else if e.2.state = 1 ∨ e.2.state = 2 then abandonMove e.1 s else s) s

/-- Host-assisted placement or prefetch takes effect: selections not started are dropped. -/
def dropSelected (cause : Nat) (s : State) : State :=
  { s with mem.selected := s.mem.selected.filter fun x => x.cause != cause }

/-! ### Retirement (R237, R238) -/

/-- A frame retired: listed, appended to flash, its page selected to move, reported. -/
def retireFrame (far : Bool) (region frame : Nat) (s : State) : State :=
  if s.mem.retired.contains (far, region, frame) || s.flash.retired.contains (far, region, frame) then s
  else
    let page := pageOn s far region frame
    let same := framesLeft s far region
    let other := framesLeft s (!far) region
    let s := { s with
      mem.retired := s.mem.retired ++ [(far, region, frame)]
      flash.retired := if s.flash.retired.length < 4096 then
          s.flash.retired ++ [(far, region, frame)] else s.flash.retired }
    let stuck := page.isSome && same == 0 && other == 0
    let s := match page with
      | some p =>
        let e := pageOf s p
        let s := if e.present then s else setPage p { e with present := true, far := far, frame := frame, gen := 1 } s
        -- a page on its way from the frame goes on as the retirement's own move (R230)
        if e.state == 1 || e.state == 2 then setPage p { pageOf s p with cause := 4 } s
        else if s.mem.selected.any (fun x => x.page == p && x.cause == 4) then s
        else selectMove p (if 0 < same then far else !far) 4 s
      | none => s
    -- a move towards the frame stays at its source
    let bound := s.mem.pages.filter fun e =>
      pageRegion e.1 == region && (e.2.state == 1 || e.2.state == 2) && e.2.otherFar == far && e.2.otherFrame == frame
    let s := bound.foldl (fun s e => abandonMove e.1 s) s
    let s := trace 5 3 false 0 (BitVec.allOnes 32) (page.getD 0 * pageBytes) s
    raise evPageRetired (pack [(5, region), (1, b2n far), (1, b2n stuck), (1, 0), (15, frame), (9, 0), (21, page.getD 0)]) s

end Sys2Proof.Machine
end

