-- ==== Sys2Proof/Machine/Head.lean ====
section
/-!
DEFINITION. The furrow head (02 R26 to R29), the seedbed head (01 R16), stops and stop maps (02 R35 to R40).
-/
namespace Sys2Proof.Machine

open Sys2Proof

/-! ### The head (R26, R28) -/

/-- The furrow-position trigger of the sheaf, against the head (17 R370). -/
def positionTrigger (s : State) : State :=
  if s.sheaf.state ≠ 0 ∧ s.sheaf.positionHit = false ∧ s.sheaf.triggers.testBit 2 = true ∧
      s.sheaf.position.toNat ≤ s.run.head.toNat then
    sheafTrigger 2 0 { s with sheaf.positionHit := true }
  else s

/-- The pair of pass and slot the sowing window follows (11 R234). -/
def pairOf (p : Pos) : Nat × Nat × Nat := (stepOf p, passOf p, slotOf p)

/-- Whether the copy of the head passes from below a position to it or beyond. -/
def crosses (old new at_ : Pos) : Bool := decide (old.toNat < at_.toNat) && decide (at_.toNat ≤ new.toNat)

/-- The copy of the head rises to `p`: gates open; the instances of the next step are created on entering pass C; the
seedbed head is cleared on leaving the step (02 R26, R28, 01 R16, 12 R258). -/
def setHead (p : Pos) (s : State) : State :=
  if p.toNat ≤ s.run.head.toNat then s
  else
    let old := s.run.head
    let oldPair := pairOf (sowingHead s)
    let n := stepOf p
    let left := decide (stepOf old < n)
    let s := { s with
      run.head := p
      run.headAt := s.clock.up
      run.stallRaised := false
      run.seedbedHead := if left then none else s.run.seedbedHead
      run.enteredC := if crosses old p (posOf n passC 0) then s.clock.up else s.run.enteredC
      run.enteredE := if crosses old p (posOf n passE 0) then s.clock.up else s.run.enteredE
      sched.tasks := if left then s.sched.tasks.filter fun t => t.incomplete || decide (n ≤ t.step) else s.sched.tasks }
    let s := if left then createStep n s else s
    let s := if passC ≤ passOf p then createStep (n + 1) s else s
    let s := positionTrigger (markGates s)
    if pairOf (sowingHead s) != oldPair then sow s else s

/-- A front that has risen, or whose lowest task is another, reported to the modules of the run. -/
def reportFront (s : State) : State :=
  if !s.moving then s
  else
    let f := localFront s
    let b := seedbedFront s
    let me := s.holding.moduleId
    let old := s.run.fronts.find? fun e => e.1 == me
    -- a report renews the lowest task too, which FURROW_STALL names (R33)
    let rose := match old with
      | none => true
      | some e => decide (e.2.1.toNat < f.toNat) || decide (e.2.2.1.toNat < b.toNat) || e.2.2.2 != lowestTask s
    if rose then
      sendHedge everyone (.localFront f b (lowestTask s)) { s with
        run.fronts := (s.run.fronts.filter fun e => e.1 != me) ++ [(me, f, b, lowestTask s)] }
    else s

/-- The front known of a module; one that has not reported stands at the start of the run. -/
def frontOf (s : State) (m : ModId) : Pos :=
  ((s.run.fronts.find? fun e => e.1 == m).map (·.2.1)).getD s.run.start

/-- Where the fronts and the caps let the head go (R26, R29, R36). -/
def headLimit (s : State) : Pos :=
  let lowest := (lowestPos ((runModules s).map (frontOf s))).getD s.run.head
  let a := match s.run.advanceLimit with
    | some l => if s.run.modes.getD 1 false then (if l.toNat < lowest.toNat then l else lowest) else lowest
    | none => lowest
  match s.run.stop with
  | some m => if m.scheduled ∧ m.target.toNat < a.toNat then m.target else a
  | none => a

/-- The lead master advances the head and broadcasts it. -/
def advanceHead (s : State) : State :=
  if s.isLead && s.moving && decide (s.run.head.toNat < (headLimit s).toNat) then
    let p := headLimit s
    sendHedge everyone (.furrowHead p) (setHead p s)
  else s

/-! ### The seedbed (01 R16, 09 R186) -/

/-- The seedbed head advances over this module's F and B tasks of the next step: never into pass U, to a pending stop's
target, or past the advance limit. -/
def advanceSeedbed (s : State) : State :=
  match s.run.seedbedHead with
  | none => s
  | some p =>
    let n := stepOf s.run.head
    let f := seedbedFront s
    let okStop := match s.run.stop with
      | some m => !m.scheduled || decide (f.toNat < m.target.toNat)
      | none => true
    let okLimit := match s.run.advanceLimit with
      | some l => !s.run.modes.getD 1 false || decide (f.toNat ≤ l.toNat)
      | none => true
    if decide (p.toNat < f.toNat) && decide (f.toNat < (posOf (n + 1) passU 0).toNat) && okStop && okLimit then
      let old := pairOf (sowingHead s)
      let s := { s with run.seedbedHead := some f }
      if pairOf (sowingHead s) != old then sow s else s
    else s

/-- The seedbed opens once the local U stream of the step is complete, its audit with it, while the vote is pending; what holds
the opening back, a stop's target or the advance limit, may pass later (R16). -/
def openSeedbed (s : State) : State :=
  let n := stepOf s.run.head
  let target := posOf (n + 1) passF 0
  let okStop := match s.run.stop with
    | some m => !m.scheduled || decide (target.toNat < m.target.toNat)
    | none => true
  let okLimit := match s.run.advanceLimit with
    | some l => !s.run.modes.getD 1 false || decide (target.toNat ≤ l.toNat)
    | none => true
  if s.moving && s.holding.specDepth == 1 && localUEnded s n && s.votes.openStep == some n && s.votes.outcome.isNone &&
      s.run.pendingModes.isEmpty && s.run.seedbedHead.isNone && okStop && okLimit then
    sow (createStep (n + 1) { s with run.seedbedHead := some target, run.seedbedOpen := true })
  else s

/-- Fronts reported, the head and the seedbed head advanced, until nothing moves. -/
def settleHead : Nat → State → State
  | 0, s => s
  | n + 1, s => settleHead n (advanceHead (reportFront (advanceSeedbed s)))

def settle (s : State) : State := settleHead 8 (openSeedbed s)

/-! ### Stop maps (R40) -/

/-- The last task of a stream to complete, in order of publication. -/
def lastPublished (s : State) (stream : Nat) : Option TaskInst :=
  let n := stepOf s.run.head
  (s.sched.tasks.filter fun t => t.stream == stream && t.phase == .published && (t.step == n || t.step == n + 1)).foldl
    (fun m t => match m with
      | none => some t
      | some x => if x.pubSeq < t.pubSeq then some t else some x) none

/-- The stop map of a halt (R40). LAST_COMMIT is 0 where the module holds no commit record, and the spec gives no value for it
(DESIGN CHOICE, log entry 88). -/
def stopMapOf (s : State) (kind : Nat) (m : StopMsg) (aborted : Nat) : StopMap :=
  { kind := kind, sourceKind := m.sourceKind, sourceHolding := if m.sourceKind = 0 then m.sourceHolding else 0,
    aborted := aborted, head := s.run.head, target := if kind = 1 then m.target else 0,
    timestamp := BitVec.ofNat 64 s.clock.now,
    lastCommit := match s.run.lastCommit with
      | some k => posOf k passC 0
      | none => 0
    seedbedHead := s.run.seedbedHead.getD 0,
    streams := (List.range 6).map fun st =>
      let gone := (s.sched.tasks.filter fun t => t.stream == st && t.started).length
      match lastPublished s st with
      | some t => (t.gate, t.task, gone, t.seedbed)
      | none => (0, 0, gone, false) }

/-- A halt: its map written and GLOBAL_STOP raised. -/
def writeStopMap (kind : Nat) (m : StopMsg) (aborted : Nat) (s : State) : State :=
  let x := stopMapOf s kind m aborted
  raise evGlobalStop (stopHeaderWord x) { s with run.stopMap := some x, run.haltAt := s.clock.up }

/-! ### Reaching a stop (R35, R36, R39) -/

def agreeGroup : Nat := 1
def agreeStop : Nat := 2
def agreeDiscard : Nat := 3
def agreeReform : Nat := 4
def agreeRestore : Nat := 5

/-- The step after this module's last commit record, carried by its acknowledgement of a stop. -/
def commitWord (s : State) : W64 := BitVec.ofNat 64 ((s.run.lastCommit.map (· + 1)).getD 0)

/-- An acknowledgement to the lead master; its own is taken at once. -/
def acknowledge (kind : Nat) (ident pos : W64) (s : State) : State :=
  if s.isLead then
    if kind = agreeStop then { s with run.stopAcks := addNew s.run.stopAcks s.holding.moduleId }
    else if kind = agreeDiscard then { s with run.discardAcks := addNew s.run.discardAcks s.holding.moduleId }
    else s
  else sendHedge (leadId s) (.agreement kind ident pos) s

/-- Every module of the run has reported the halt; the cut that RUN_BEGIN leaves was reached by no stop. -/
def haltKnown (s : State) : Bool :=
  s.run.stopMap.isNone || (runModules s).all fun m => s.run.stopAcks.contains m

/-- Every module of the run has reported the stop: the STOPs complete, with the number of modules halted. -/
def stopsComplete (s : State) : State :=
  if s.isLead && s.run.halt != .running && (runModules s).all fun m => s.run.stopAcks.contains m then
    let n := (runModules s).length
    let s := finishJobs (fun j => match j.kind with | .stop .. => true | _ => false) stOk n s
    sendHedge everyone (.agreement agreeStop 0 s.run.head) s
  else s

/-- A task run started and not complete, at an immediate stop: commit work and stream X of a committed step run again, its
solves stand at their last boundary, anything else is abandoned (R39, R42, 07 R144). -/
def abandonStarted (s : State) : State :=
  let again := fun t : TaskInst => (t.commitWork || t.stream == streamX) && committed s t.step
  let stays := fun t : TaskInst => t.stream == streamS && committed s t.step
  let s := discardRuns (fun t => t.started && !again t && !stays t) .abandoned s
  let restart := fun t : TaskInst =>
    if t.started && again t then { t with phase := .admitted, cells := [], done := 0, contributions := [] } else t
  { s with sched.tasks := s.sched.tasks.map restart }

/-- The vote record of the last committed step told to the lead master with the halt, for a module that missed the outcome
(R42, 09 R179, R183). -/
def shareVote (s : State) : State :=
  match s.run.lastCommit.bind fun m => s.votes.ring.find? fun e => e.1 == m with
  | some e => if s.isLead then s else sendHedge (leadId s) (.voteOutcome e.2.1) s
  | none => s

/-- The module halts in a smear. -/
def haltSmear (m : StopMsg) (s : State) : State :=
  if s.run.isOn && s.run.halt == .running then
    let aborted := s.coll.live.length
    let s := writeStopMap 2 m aborted s
    let s := abandonStarted s
    let txns := s.lamio.txns.filter fun (t : Txn) => t.task.isNone
    let s := { s with
      run.halt := .smear, run.stop := none, run.rollTo := none, coll.live := [], coll.bin := [], coll.left := [],
      coll.reserves := [], coll.musters := [], coll.decided := [], lamio.txns := txns }
    let s := shareVote (stopMoves s)
    let s := finishJobs (fun j => match j.kind with | .stop true _ => true | _ => false) stStateConflict 0 s
    stopsComplete (acknowledge agreeStop (commitWord s) s.run.head s)
  else s

/-- A collective key of one of these task runs. -/
def keyOfRuns (s : State) (hit : List TaskInst) (group seq : Nat) : Bool :=
  hit.any fun t => t.seq == seq && ((taskRecOf s t).bind taskGroup) == some group

/-- Seedbed work gated at or beyond a target is discarded and will run again (01 R16): its outputs, its findings held for the
next vote, its candidates, and what its collectives hold (10 R218). -/
def cutSeedbed (target : Pos) (s : State) : State :=
  let gone := fun t : TaskInst => t.seedbed && decide (target.toNat ≤ t.gate.toNat) &&
    (t.phase == .computed || t.phase == .published)
  let hit := s.sched.tasks.filter gone
  let stay := s.sched.tasks.filter fun t => t.seedbed && t.phase == .published && !gone t && heldBySeedbed s t.step
  let bits := fun (ts : List TaskInst) => ts.foldl (fun (w : W16) t => w ||| t.findings) 0
  let same := fun (n : Nat) (task : W32) => hit.any fun h => h.step == n && h.task == task
  let s := discardRuns gone .discarded s
  let again := fun t : TaskInst =>
    if same t.step t.task then
      { t with phase := .admitted, status := stOk, event := none, findings := 0, counts := [], recounts := [], done := 0 }
    else t
  { s with
    sched.tasks := s.sched.tasks.map again
    sched.candidates := s.sched.candidates.filter fun c => !same c.1 c.2.2.1
    votes.heldWord := s.votes.heldWord &&& ~~~(bits hit &&& ~~~(bits stay))
    coll.live := s.coll.live.filter fun c => !same c.step c.task
    coll.bin := s.coll.bin.filter fun r => !keyOfRuns s hit r.key.group r.key.seq
    coll.left := s.coll.left.filter fun k => !keyOfRuns s hit k.group k.seq
    coll.reserves := s.coll.reserves.filter fun r => !keyOfRuns s hit r.key.group r.key.seq
    coll.musters := s.coll.musters.filter fun x => !keyOfRuns s hit x.1 x.2.2.1
    mem.layers := s.mem.layers.filter fun l => match l.tag with
      | .output k t _ => !same k t
      | _ => true }

/-- A stop order at a module of the run (R36, R38). An immediate one comes to a module at the cut only while other modules have
not reached it; the run is then not halted, and the immediate stop occurs. Of two scheduled stops the one with the lower target is
pending, the newer one at equal targets, and the map's SOURCE_KIND and SOURCE_HOLDING are that order's (DESIGN CHOICE, log entry
88: R38 gives the target alone). -/
def applyStop (m : StopMsg) (s : State) : State :=
  if !s.run.isOn || !(s.run.halt == .running || (s.run.halt == .cut && !m.scheduled && s.run.stopMap.isSome)) then s
  else if !m.scheduled then haltSmear m { s with run.halt := .running }
  else
    let m := match s.run.stop with
      | some o => if o.scheduled ∧ o.target.toNat < m.target.toNat then o else m
      | none => m
    cutSeedbed m.target { s with run.stop := some m }

/-- A stop ordered by the lead master on every module; modules that have reached the cut of a pending stop stay counted when
another scheduled stop joins it. -/
def orderStop (m : StopMsg) (s : State) : State :=
  let joins := m.scheduled && (s.run.stop.isSome || s.run.halt == .cut)
  applyStop m (sendHedge everyone (.stop m) { s with run.stopAcks := if joins then s.run.stopAcks else [] })

/-- Every task of streams F, B, U, E and X gated before the target has completed, with its collectives and transactions,
and the head stands at the target (R36). -/
def cutReached (s : State) : Bool :=
  s.moving &&
  match s.run.stop with
  | none => false
  | some m =>
    m.scheduled && decide (m.target.toNat ≤ s.run.head.toNat) &&
    (s.sched.tasks.all fun t => !(t.incomplete && t.stream != streamS && decide (t.gate.toNat < m.target.toNat))) &&
    s.coll.live.all (fun c => c.phase == 2) && (s.lamio.txns.all fun t => t.task.isNone) &&
    s.mem.pages.all fun e => e.2.state == 0

end Sys2Proof.Machine
end

