-- ==== Sys2Proof/Machine/Regroup.lean ====
section
/-!
DEFINITION. Group definitions on their way and in force (10 R194 to R196, R216, R217), and the sequence numbers of collectives
(10 R199).
-/
namespace Sys2Proof.Machine

open Sys2Proof

/-! ### Sequence numbers (R199) -/

/-- The counters recorded at the commit of step n: each as the collectives of the steps up to n leave it, those of step n's E tasks
among them, since they come before step n + 1 in commit order (R199; DEDUCED, log entry 47). -/
def recordSeqs (n : Nat) (s : State) : State :=
  mapGroups (fun _ x =>
    { x with
      seqAtCommit := (((x.marks.filter fun m => decide (m.1 ≤ n)).getLast?).map (·.2)).getD x.seqAtCommit
      marks := x.marks.filter fun m => decide (n < m.1) }) s

/-- The counters back at their recorded values. -/
def restoreSeqs (s : State) : State := mapGroups (fun _ x => { x with seq := x.seqAtCommit, marks := [] }) s

/-- The collective is of the group. -/
def namesGroup (s : State) (g : Nat) (t : TaskInst) : Bool := ((taskRecOf s t).bind taskGroup) == some g

/-- The sequence numbers of a group's collectives that have not mustered, given anew from its counter in commit order. -/
def renumber (g : Nat) (s : State) : State :=
  let due := fun (t : TaskInst) => (t.phase == .created || t.phase == .admitted) && namesGroup s g t
  let steps := (s.sched.tasks.map (·.step)).eraseDups
  steps.foldl (fun s n =>
    let mine := sortBy (fun a b => !instBefore b a) (s.sched.tasks.filter fun t => due t && t.step == n)
    let (s, ts) := giveSeqs mine s
    let put := fun (t : TaskInst) => ((ts.find? fun x => sameRun t.step t.task x).map fun x => { t with seq := x.seq }).getD t
    let s := { s with sched.tasks := s.sched.tasks.map put }
    mapGroups (fun k x => if k = g then { x with marks := x.marks ++ [(n, x.seq)] } else x) s) s

/-! ### Definitions (R196, 14 R298) -/

/-- The definition put in force on this module: at an epoch, sequence 0. What the lead held of the group's musters is gone, and
a lost module that it no longer names, or that is lost no more, has been formed out (R217). -/
def installGroup (b : Bytes) (epoch : Nat) (s : State) : State :=
  let g := field b 0 2
  let names := definedMembers s b
  renumber g { s with
    coll.groups := tset none s.coll.groups g (some { def48 := b, epoch := epoch })
    coll.musters := s.coll.musters.filter fun x => x.1 != g
    coll.decided := s.coll.decided.filter fun x => x.1 != g
    coll.unformed := s.coll.unformed.filter fun x => x.1 != g || (names.contains x.2 && s.holding.lost.contains x.2) }

/-- The three messages of a definition sent to a module. -/
def sendDefinition (b : Bytes) (epoch : Nat) (m : ModId) (s : State) : State :=
  (List.range 3).foldl (fun s p => sendHedge m (.groupDefinition p epoch (slice b (16 * p) 16)) s) s

/-- A definition installed here and sent to the other members, of the old definition and of the new; the members of the new
one are to acknowledge it and are returned. -/
def spreadGroup (b : Bytes) (epoch : Nat) (s : State) : State × List ModId :=
  let other := fun m => m != s.holding.moduleId && !s.holding.lost.contains m
  let new := (definedMembers s b).filter other
  let all := ((definedMembers s b ++ membersOf s (field b 0 2)).eraseDups).filter other
  (all.foldl (fun s m => sendDefinition b epoch m s) (installGroup b epoch s), new)

/-- DETAIL of GROUP_REFORMED (13 R288). -/
def reformedDetail (g epoch : Nat) (m : ModId) (admitted byHost : Bool) : Nat :=
  pack [(16, g), (16, epoch), (16, m.toNat), (1, b2n admitted), (1, b2n byHost)]

/-! ### Re-forming (R216, R217) -/

/-- The definition with a module put into the first empty slot of EXCLUDE, or taken out of it. -/
def withExcluded (b : Bytes) (m : ModId) (excluded : Bool) : Option Bytes :=
  let want : ModId := if excluded then everyone else m
  let i := ((List.range 16).map fun i => BitVec.ofNat 16 (field b (16 + 2 * i) 2)).findIdx (· == want)
  if i < 16 then some (overlay b (16 + 2 * i) (leBytes 2 (if excluded then m else everyone).toNat)) else none

/-- One module excluded from, or admitted to, one group, on its lowest surviving rank. -/
def reformOne (excluded : Bool) (m : ModId) (g : Nat) (s : State) : State :=
  match groupOf s g with
  | none => s
  | some x =>
    let left := (definedMembers s x.def48).filter fun k => k != m && !s.holding.lost.contains k
    let named := if excluded then (definedMembers s x.def48).contains m else (excludedIds x.def48).contains m
    if named && left.head? == some s.holding.moduleId then
      match withExcluded x.def48 m excluded with
      | none => s
      | some b =>
        let epoch := (x.epoch + 1) % 2 ^ 16
        raise evGroupReformed (reformedDetail g epoch m (!excluded) false) (spreadGroup b epoch s).1
    else s

/-- Re-forming reported complete to the lead master once no group of this module names a lost module (14 R298). -/
def reportReformed (s : State) : State :=
  if !s.coll.reforming || !s.coll.unformed.isEmpty then s
  else if s.isLead then { s with coll.reformAcks := addNew s.coll.reformAcks s.holding.moduleId }
  else
    sendHedge (leadId s) (.agreement agreeReform (BitVec.ofNat 64 (stepOf s.run.head)) s.run.head)
      { s with coll.reforming := false }

/-- The halt of a RETRY, in which groups re-form (R216): it has come, or the outcome that brings it has. -/
def reformingHalt (s : State) : Bool :=
  s.run.halt == .smear || (match s.votes.outcome with | some (_, o) => o == 2 | none => false)

/-- Every group that names a lost module re-formed without it, in hardware re-forming mode. -/
def reformLost (s : State) : State :=
  if s.run.modes.getD 6 false || !reformingHalt s then s
  else reportReformed (s.coll.unformed.foldl (fun s x => reformOne true x.2 x.1 s) s)

/-- A loss noted: every group of this module that names the module is to be re-formed, and each module of the run reports when
none of its groups is left (log entry 27). -/
def noteUnformed (m : ModId) (s : State) : State :=
  let mine := s.coll.groups.filterMap fun e => e.2.bind fun x =>
    let ms := definedMembers s x.def48
    if ms.contains m && ms.contains s.holding.moduleId then some (e.1, m) else none
  { s with
    coll.unformed := mine.foldl addNew s.coll.unformed
    coll.reforming := s.run.isOn
    coll.reformAcks := [] }

/-- Groups that exclude a restored module re-formed with it admitted (15 R332). -/
def readmit (m : ModId) (s : State) : State :=
  if s.run.modes.getD 6 false then s
  else (s.coll.groups.map (·.1)).foldl (fun s g => reformOne false m g s) s

/-- Every module of the run has reported that no group in force names a lost module. -/
def reformed (s : State) : Bool :=
  !s.coll.reforming || (s.coll.unformed.isEmpty && (runModules s).all fun m => s.coll.reformAcks.contains m)

end Sys2Proof.Machine
end

