-- ==== Sys2Proof/Machine/Commit.lean ====
section
/-!
DEFINITION. The vote of a step and its outcomes (09): reduction and decision (R174 to R179), COMMIT, SKIP and RETRY (R180 to
R184), the rollback of 02 R42, and what takes effect at the end of pass C (01 R19, 12 R245, 15 R335, 16 R354).
-/
namespace Sys2Proof.Machine

open Sys2Proof

def outCommit : Nat := 0
def outSkip : Nat := 1
def outRetry : Nat := 2

/-! ### Step reports (13 R284) -/

/-- A step report put into the report buffer of REPORT_RING. -/
def queueReport (n status : Nat) (s : State) : State :=
  if s.holding.isMaster then
    let e : Entry :=
      { tag := 0xFFFF, status := status, halted := false, report := true, detail := 1, urgent := false,
        position := some (posOf n passC 0), ring := none, access := none, quiet := false }
    setCompl s.host.ctx.reportRing.toNat (fun c => { c with waiting := c.waiting ++ [e] }) s
  else s

/-- A happening of class 6 (17 R368): 0 vote contribution, 1 outcome, 2 a progress field of 15 R322. -/
def traceCommit (type data : Nat) (s : State) : State := trace 6 type false 0 (BitVec.allOnes 32) data s

/-- Progress fields recorded, each by the number of its lowest bit in the record (log entry 7). -/
def traceProgress (fields : List Nat) (s : State) : State := fields.foldl (fun s f => traceCommit 2 f s) s

/-! ### Vote records (R179) -/

/-- The vote record of a decided step kept in the tally ring of 256. -/
def keepVote (v : VoteMsg) (s : State) : State :=
  { s with votes.ring := (s.votes.ring.filter fun e => e.1 % 256 != v.step % 256) ++ [(v.step, v, attemptOf s v.step)] }

/-- The vote of the next step opens: held findings stand for it (R191). -/
def openVote (n : Nat) (word : W16) (s : State) : State :=
  { s with votes := { s.votes with
      word := word, heldWord := 0, openStep := some n, contributed := false, sent := 0, received := [], lost := [],
      decided := none, timeoutSent := false, outcome := none } }

/-! ### Segments that retire (12 R244, R245) -/

/-- A segment's tensors and records released. -/
def releaseSegment (n : Nat) (s : State) : State :=
  let e := tget {} s.graph.dir n
  let gone := (e.segment.map fun g => g.updates.map (·.master)).getD []
  { s with
    graph.dir := tset {} s.graph.dir n { e with state := 0, segment := none }
    harrows.blocks := s.harrows.blocks.filter fun b => b.key.seg != n
    fallow := s.fallow.filter fun q => !gone.contains q.master }

/-- Retiring segments none of whose instances is left incomplete are released. -/
def releaseRetired (s : State) : State :=
  s.graph.dir.foldl (fun s e =>
    if e.2.state == 3 && e.2.lastStep != 0 && s.sched.tasks.all (fun t => !(t.seg == e.1 && t.incomplete)) then
      releaseSegment e.1 s
    else s) s

/-- At the boundary: segments whose GRAPH_RETIRE had executed when pass C decided run in no step after those created, and a
one-shot segment whose step has committed retires; GRAPH_RETIRE completes. -/
def retireAt (n : Nat) (commit : Bool) (s : State) : State :=
  let last := max 1 (max n (s.run.created.getD n))
  let turn := fun (e : Nat × DirEntry) =>
    if e.2.state = 3 ∧ e.2.lastStep = 0 ∧ s.run.retireDue.contains e.1 = true then (e.1, { e.2 with lastStep := last })
    else if commit ∧ e.2.state = 2 ∧ (e.2.segment.any fun g => g.oneShot == n) then
      (e.1, { e.2 with state := 3, lastStep := max 1 n })
    else e
  let due := s.run.retireDue
  let s := releaseRetired { s with graph.dir := s.graph.dir.map turn }
  finishJobs (fun j => match j.kind with | .retire g => due.contains g | _ => false) stOk 0 s

/-! ### Modes (01 R19) -/

/-- Function 9 takes effect: in host-assisted mode no E instance is left and the head passes to the next step; in hardware mode
the steps created after step n get theirs (16 R357). -/
def applyEvaluation (n : Nat) (host : Bool) (s : State) : State :=
  if host then
    { s with sched.tasks := s.sched.tasks.filter fun t => !(t.stream == streamE && t.incomplete && !t.started) }
  else
    let missing := (upto (n + 1) ((s.run.created.getD n) + 1)).filter fun k =>
      !s.sched.tasks.any fun t => t.step == k && t.stream == streamE
    missing.foldl (fun s k => createEval k s) s

/-- A mode that takes effect at the boundary after step n (02 R29, 11 R227, R234, 07 R144). -/
def applyMode (n : Nat) (f : Nat) (host : Bool) (s : State) : State :=
  let s := { s with run.modes := s.run.modes.set f host }
  if f = 1 then { s with run.advanceLimit := if host then some (posOf (n + 1) passF 0) else none }
  else if f = 2 ∧ host = true then dropSelected 0 s
  else if f = 3 ∧ host = true then dropSelected 3 s
  else if f = 4 ∧ host = true then
    let stop := fun (b : BlockSolve) =>
      if solveInFlight b then
        { b with
          record := { b.record with status := 8, harrowCount := 0 }, harrows := []
          work := b.work.map fun w => { w with ended := true } }
      else b
    endSolves { s with harrows.blocks := s.harrows.blocks.map stop }
  else if f = 9 then applyEvaluation n host s
  else s

/-- MODE_SETs that had executed when pass C decided take effect in order-point order, the last one standing; measurement
register 6 records it (18 R383). -/
def applyModes (n : Nat) (s : State) : State :=
  let ms := s.run.pendingModes.take s.run.modesDue
  let stands := fun (e : (Nat × Bool) × Nat) => !(ms.drop (e.2 + 1)).any fun m => m.1 == e.1.1
  (ms.zipIdx.filter stands).foldl (fun s e =>
    extendMeas 6 (padTo 32 [BitVec.ofNat 8 e.1.1, BitVec.ofNat 8 (b2n e.1.2)]) (applyMode n e.1.1 e.1.2 s))
    { s with run.pendingModes := s.run.pendingModes.drop s.run.modesDue, run.modesDue := 0 }

/-! ### Configurations (15 R335, 16 R354, 15 R318, 11 R226) -/

/-- The head falls back to a position: a trigger beyond it acts again (15 R339). -/
def rearmStones (p : Pos) (s : State) : State :=
  { s with stones.live := s.stones.live.map fun x => if p.toNat < x.stone.trigger.toNat then { x with fired := false } else x }

/-- A stones configuration in force: its packet counters start at 0. -/
def installStones (xs : List Stone) (digest : BitVec 256) (reset : Bool) (s : State) : State :=
  let zero := fun (t : Sparse Nat) => (List.range 96).foldl (fun t i => tset 0 t (4 * (0x400 + i)) 0) t
  extendMeas 3 (digestBytes digest) { s with
    stones.live := xs.map fun x => ⟨x, 0, false⟩
    stones.digest := if xs.isEmpty then 0 else digest
    counters.values := if reset then zero s.counters.values else s.counters.values }

/-- An export configuration in force: retained records go to the new sink from the oldest unacknowledged; disabling discards
them, and the next record after that carries FIRST. -/
def installExport (c : ExportCfg) (s : State) : State :=
  let x := s.exporter
  let again := x.retained.map fun r => { r with at_ := none }
  if c.enable && !x.cfg.enable then
    { s with exporter := { x with
        cfg := c, first := true, keyed := [], nextSeq := 1, acked := 0, produced := 0, resends := 0,
        waits := 0, retained := [] } }
  else if c.enable then { s with exporter := { x with cfg := c, retained := again, produced := 0 } }
  else { s with exporter := { x with cfg := c, retained := [], first := true } }

/-- Pass C decides COMMIT or SKIP: what has executed at the order point by now takes effect at its end, and what executes later
at the end of the next (01 R19, 12 R245, 15 R335, 16 R354). -/
def markDue (s : State) : State :=
  { s with
    run.modesDue := s.run.pendingModes.length
    run.retireDue := (s.graph.dir.filter fun e => e.2.state == 3 && e.2.lastStep == 0).map (·.1)
    stones.due := s.stones.pending
    stones.pending := none
    exporter.due := s.exporter.pending
    exporter.pending := none }

/-- What takes effect at the end of a pass C that decided COMMIT or SKIP. -/
def boundaryEffects (n : Nat) (commit : Bool) (s : State) : State :=
  let s := applyModes n (retireAt n commit s)
  let s := match s.stones.due with
    | some (xs, d, r) => installStones xs d r s
    | none => s
  let s := match s.exporter.due with
    | some c => installExport c s
    | none => s
  { s with run.retireDue := [], stones.due := none, exporter.due := none }

/-- Pass C of step n is over on this module (01 R13 step 5, or the discard of R181). -/
def finishStep (n : Nat) (commit : Bool) (s : State) : State :=
  boundaryEffects n commit { s with run.finished := some n, mem.oldBase := none, mem.oldHomes := [], exporter.oldFallow := none }

/-! ### COMMIT (R180) -/

/-- A selected candidate written to its root home (07 R143). -/
def installRoot (n : Nat) (b : BlockSolve) (s : State) : State :=
  match b.decisions.find? (fun d => d.step == n), solveForm s b.key.seg b.key.record with
  | some d, some f =>
    (match d.selected with
     | none => s
     | some c =>
       let q := b.key.block
       let h : RootHeader :=
         { signature := rootSignature f.stat f.root f.tensor.format q, statStep := c.statStep, installStep := n,
           residual := c.residual, state := c.state, iterations := c.iterations }
       let cells := cellsAt (f.tensor.homeOffset + 64 * q) (rootHeaderBytes h) ++
         cellsAt (f.tensor.homeOffset + rootAt f.stat f.rootWidth q) c.block
       writeCells cells (touchCells cells s))
  | _, _ => s

/-- The commit of step n settles the deadlines its decisions covered: a solve still running is late, an ended one is done with
(07 R140, R141). -/
def coverDeadline (n : Nat) (s : State) (b : BlockSolve) : BlockSolve :=
  match b.work, solveForm s b.key.seg b.key.record with
  | some w, some f =>
    if (b.decisions.any fun d => d.step == n) &&
        decide ((deadlineOf f w.foldStep).toNat ≤ (posOf n passU f.stat.layer).toNat) then
      let next : SolveWork := if solveInFlight b then { w with covered := true }
        else { foldStep := w.foldStep, ended := true, covered := true }
      { b with work := some next }
    else b
  | _, _ => b

/-- The staged change of a fallow queue applied (08 R165). -/
def advanceFallow (q : FallowQueue) : FallowQueue :=
  { q with
    entries := (if q.consume then q.entries.drop 1 else q.entries) ++ q.append.toList
    consume := false
    append := none }

/-- The layers that step n's commit makes homes. -/
def committedBy (n : Nat) : LayerTag → Bool
  | .output k _ sb => !sb && decide (k ≤ n)
  | .staged k => decide (k ≤ n)
  | .held k => decide (k ≤ n)

/-- Entries of the hopper directory: staged pages of the step. -/
def hopperPages (s : State) (n : Nat) : List Nat :=
  ((s.mem.layers.filter fun l => l.tag == .staged n).flatMap fun l => (l.cells.map fun c => c.1 / pageBytes)).eraseDups

/-- The seedbed closes on COMMIT: its versions are ordinary, its tasks publish now, held triggers fire (01 R17, R191). -/
def closeSeedbed (n : Nat) (s : State) : State :=
  let plain := fun (l : Layer) => match l.tag with
    | .output k t _ => { l with tag := .output k t false }
    | _ => l
  let s := { s with mem.layers := s.mem.layers.map plain }
  if !s.run.seedbedOpen then s
  else
    let held := s.sheaf.held
    let s := { s with run.seedbedOpen := false, sheaf.held := [] }
    let s := (s.sched.tasks.filter fun t => t.step == n + 1 && t.seedbed && t.phase == .published).foldl
      (fun s t => flipFresh t.step t.task s) s
    let s := (s.sched.tasks.filter fun t => t.step == n + 1 && t.seedbed && t.phase == .published).foldl
      (fun s t => offerCandidate t s) s
    held.foldl (fun s h => sheafTrigger h.1 h.2 s) s

/-- No FOLD of the step is left. -/
def foldsDone (s : State) (n : Nat) : Bool :=
  s.sched.tasks.all fun t => !(t.step == n && t.incomplete && (taskRecOf s t).any fun r => r.kind == 0x0F)

/-- A page follows its pin once the apply has flipped it (08 R169). -/
def followPin (s : State) (p : Nat) : State :=
  let e := pageOf s p
  if e.pin != 0 && e.far != (e.pin == 2) && e.state == 0 && !s.mem.selected.any (fun x => x.page == p) then
    selectMove p (e.pin == 2) 1 s
  else s

/-- The commit record and the apply of a step: pages flipped, roots and queues in place, counters of groups recorded, the
memory and timeout fields that waited in force, heat decayed and moves selected (R167, R143, R165, 10 R199, 11 R225 to R227). -/
def applyCommit (v : VoteMsg) (s : State) : State :=
  let n := v.step
  let s := markDue (keepVote v s)
  if committed s n then s
  else
    let k := (hopperPages s n).length
    let rec' : CommitRecord :=
      { step := n, entries := k, flipped := k, foldDone := foldsDone s n, queuesDone := true, rootsDone := true,
        recordsDone := false, fingerprintDone := false, reported := false,
        timestamp := BitVec.ofNat 64 s.clock.now }
    let s := { s with
      votes.commits := (rec' :: s.votes.commits).take 256
      run.lastCommit := some n
      mem.oldBase := some s.mem.base
      exporter.oldFallow := some s.fallow }
    let pages := hopperPages s n
    let s := pages.foldl (fun s p => finishMove p s) s
    let s := { s with mem := mergeLayers (committedBy n) s.mem }
    let s := pages.foldl followPin s
    let s := s.harrows.blocks.foldl (fun s b => installRoot n b s) s
    let s := { s with harrows.blocks := s.harrows.blocks.map (coverDeadline n s) }
    let s := recordSeqs n { s with fallow := s.fallow.map advanceFallow }
    let s := closeSeedbed n s
    let s := { s with
      mem.cfg := s.mem.staged.getD s.mem.cfg
      mem.staged := none
      tmo := s.tmoNext.getD s.tmo
      tmoNext := none }
    let s := rotationSelect (decayHeat s)
    let s := traceProgress ((if rec'.foldDone then [96, 128] else [96]) ++ [129, 130]) s
    openVote (n + 1) s.votes.heldWord s

/-! ### SKIP (R181) -/

/-- Pending block headers of a step at STATE 0 (06 R118). -/
def releasePending (n : Nat) (s : State) : State :=
  (heldSegments s).foldl (fun s e => e.2.stats.foldl (fun s t =>
    if t.due n then (List.range t.blocks).foldl (fun s q =>
      let h := statHeader s (.task n false) t.pendingT q
      if h.step = n ∧ h.state ≠ 0 then
        let cells := statHeaderCells s t t.pendingT q { h with state := 0, count := 0, nonfinite := false }
        layCells n 0 false cells (touchCells cells s)
      else s) s
    else s) s) s

/-- A deadline decision of a skipped step undone (07 R143). -/
def undoDecision (n : Nat) (b : BlockSolve) : BlockSolve :=
  match b.decisions.find? fun d => d.step == n with
  | none => b
  | some d =>
    let r := { b.record with
      outcome := d.before.outcome, carried := d.before.carried, fallback := d.before.fallback, age := d.before.age,
      lag := d.before.lag, timestamp := d.before.timestamp }
    -- an abandoned solve is in flight again, on its harrows or waiting for one
    let again := d.abandoned && b.record.status == 8
    { b with
      record := if again then { r with status := if d.beforeHarrows.isEmpty then 1 else d.before.status } else r
      work := if again then d.beforeWork else b.work
      harrows := if again then d.beforeHarrows else b.harrows
      ageRaised := b.ageRaised || d.beforeRaised
      candidate := if b.candidate.isSome then b.candidate else d.beforeCandidate
      decisions := b.decisions.filter fun d => d.step != n }

/-- Work of steps n and later discarded, their versions and held items dropped. -/
def discardFrom (n : Nat) (s : State) : State :=
  let s := discardRuns (fun t => decide (n ≤ t.step)) .discarded s
  { s with
    sched.candidates := s.sched.candidates.filter fun c => !(c.2.2.2.2.1 && decide (n < c.1))
    sheaf.held := []
    run.seedbedOpen := false
    run.seedbedHead := none
    coll.live := s.coll.live.filter fun c => decide (c.step < n)
    coll.bin := []
    coll.left := []
    coll.reserves := []
    coll.musters := []
    coll.decided := []
    fallow := s.fallow.map fun q => { q with consume := false, append := none } }

/-- The staged pages of step n and every version of step n + 1 dropped. -/
def skipLayers (n : Nat) : LayerTag → Bool
  | .staged _ => true
  | .output k _ _ => decide (n < k)
  | .held _ => false

/-- The retained reduced gradient of a skipped step is discarded (R181): the gradient tensors of its update records read as
before the step. -/
def dropGradients (n : Nat) (s : State) : State :=
  let homes := (activeSegments s n).flatMap fun e => tensorRanges s (e.2.updates.map (·.grad))
  let inside := fun (a : Nat) => homes.any fun x => decide (x.1 ≤ a) && decide (a < x.1 + x.2)
  let drop := fun (l : Layer) => match l.tag with
    | .output k _ _ => if k = n then { l with cells := l.cells.filter fun c => !inside c.1 } else l
    | _ => l
  { s with mem.layers := s.mem.layers.map drop }

/-- Harrows that another solve was given in the meantime are not given back: a solve left with none waits for one. -/
def keepHarrows (bs : List BlockSolve) : List BlockSolve :=
  bs.mapIdx fun i b =>
    let left := b.harrows.filter fun h => (bs.zipIdx).all fun x => !(decide (x.2 < i) && solveInFlight x.1 && x.1.harrows.contains h)
    { b with
      harrows := left
      record := if b.record.status = 2 ∧ left.isEmpty = true then { b.record with status := 1 } else b.record }

/-- The effect of SKIP on a module. -/
def applySkip (v : VoteMsg) (s : State) : State :=
  let n := v.step
  let s := markDue (refuseReads (keepVote v s))
  let s := dropGradients n (discardFrom n s)
  let s := forgetRuns (fun t => decide (n < t.step)) s
  let s := releasePending n { s with mem := dropLayers (skipLayers n) s.mem }
  let s := restoreSeqs { s with
    harrows.blocks := keepHarrows (s.harrows.blocks.map (undoDecision n))
    run.created := some n
    run.attempts := tmod 0 s.run.attempts (n + 1) (· - 1) }
  let s := raise evVoteSkip (pack [(16, v.bits.toNat), (36, n)]) s
  let s := finishStep n false (queueReport n stSkipped (sow s))
  acknowledge agreeDiscard (BitVec.ofNat 64 n) s.run.head (openVote (n + 1) 0 s)

/-! ### RETRY (R182) -/

/-- The effect of RETRY on a module; the lead master orders the immediate stop. -/
def applyRetry (v : VoteMsg) (s : State) : State :=
  let n := v.step
  let s := refuseReads (keepVote v s)
  let s := { s with votes.outcome := some (n, outRetry) }
  let s := raise evVoteRetry (pack [(16, v.bits.toNat), (36, n), (1, b2n v.timedOut), (1, b2n v.supplied)]) s
  let s := queueReport n stRetryVoted s
  reformLost (if s.isLead && s.run.halt != .smear then orderStop ⟨false, 0, 2, 0⟩ s else s)

/-- An outcome at a module of the run whose vote it decides. -/
def applyOutcome (v : VoteMsg) (s : State) : State :=
  if s.votes.openStep == some v.step && s.votes.outcome.isNone &&
      (s.moving || (v.outcome == outRetry && s.run.halt == .smear)) then
    let s := traceCommit 1 v.bits.toNat s
    if v.outcome = outCommit then applyCommit v s
    else if v.outcome = outSkip then applySkip v s
    else applyRetry v s
  else s

/-! ### Reduction and decision (R174 to R178) -/

/-- The bits of a vote record's FIRST_SETTER, in its order (R179). -/
def voteBits : List Nat := [0, 1, 2, 3, 4, 5, 8, 9]

/-- One module's word as a contribution. -/
def ownWord (m : ModId) (w : W16) : VoteWord :=
  ⟨w, 1, voteBits.map fun b => if w.getLsbD b then m else everyone⟩

/-- The lower of two IDs. -/
def lowerId (a b : ModId) : ModId := if b.toNat < a.toNat then b else a

/-- Two contributions reduced: OR, count, lowest setters. -/
def joinWord (a b : VoteWord) : VoteWord :=
  ⟨a.bits ||| b.bits, a.count + b.count,
   (List.range 8).map fun i => lowerId (a.firstSetter.getD i everyone) (b.firstSetter.getD i everyone)⟩

/-- The masters of the other holdings, as far as known. -/
def otherMasters (s : State) : List ModId :=
  (s.run.masters.filter fun x => x.1 != s.holding.number.toNat).map (·.2)

/-- A lost member's contribution: bit 8 and nothing else. A member of another holding is counted by its own master, unless it is
that master. -/
def lostWord (s : State) (m : ModId) : VoteWord :=
  { ownWord m (withBit 0 vbMemberLost) with
    count := if inHolding s.holding m || (otherMasters s).contains m then 1 else 0 }

/-- What this module has reduced: the contributions of its holding, and at the lead master those of the other holdings' masters;
a lost member counts with bit 8 in the vote open at its loss. -/
def reducedWord (s : State) : VoteWord :=
  let got := (s.votes.received.filter fun c => !s.votes.lost.contains c.1).map (·.2)
  let lost := s.votes.lost.filter fun m => s.isLead || inHolding s.holding m
  (got ++ lost.map (lostWord s)).foldl joinWord ⟨0, 0, []⟩

/-- A member has contributed. -/
def hasContributed (s : State) (m : ModId) : Bool := s.votes.received.any fun c => c.1 == m

/-- Every member of this module's holding that is not lost has contributed. -/
def holdingReduced (s : State) : Bool :=
  ((members s.holding).filter fun m => !s.holding.lost.contains m).all (hasContributed s)

/-- Every member of the run has contributed: this holding's, the other holdings through their masters, and the members of a
holding whose master is lost directly (15 R329). The contributions count the modules known to run (log entry 27). -/
def reductionComplete (s : State) : Bool :=
  holdingReduced s &&
  ((otherMasters s).filter fun m => !s.holding.lost.contains m).all (hasContributed s) &&
  decide ((runModules s).length ≤
    ((s.votes.received.filter fun c => !s.holding.lost.contains c.1).map fun c => c.2.count).foldl (· + ·) 0)

/-- The vote record of the open step under an outcome. -/
def voteRecord (n outcome : Nat) (supplied timedOut : Bool) (s : State) : VoteMsg :=
  let w := reducedWord s
  let silent := if timedOut then (runModules s).filter fun m =>
      !hasContributed s m && (inHolding s.holding m || (otherMasters s).contains m) else []
  let w' := (silent.map fun m => { ownWord m (withBit 0 vbMemberLost) with count := 0 }).foldl joinWord w
  { step := n
    bits := w.bits ||| (if timedOut then withBit 0 vbMemberLost else 0)
    outcome := outcome, supplied := supplied, timedOut := timedOut, contributors := w.count,
    firstSetter := (List.range 8).map fun i =>
      let m := w'.firstSetter.getD i everyone
      if m = everyone then 0 else m
    timestamp := BitVec.ofNat 64 s.clock.now }

/-- The outcome of a step told to this module: one that it has missed and that another module of a halted run tells, it keeps
for the rollback (R183, 02 R42 step 1). -/
def takeOutcome (v : VoteMsg) (s : State) : State :=
  if s.run.halt == .smear && v.outcome == outCommit then
    if s.votes.ring.any fun e => e.1 == v.step && e.2.1.outcome == outCommit then s else keepVote v s
  else if s.isLead then s
  else applyOutcome v s

/-- The decision taken, written to the lead master's own tally before the broadcast. -/
def takeDecision (v : VoteMsg) (s : State) : State :=
  let s := keepVote v { s with votes.decided := some v }
  applyOutcome v (sendHedge everyone (.voteOutcome v) s)

/-- A complete reduction decides by R175; in host-assisted vote mode the record goes to the host (R178), whose address has its
bits [5:0] ignored (20 R415). -/
def reduceVote (s : State) : State :=
  match s.votes.openStep with
  | none => s
  | some n =>
    if !s.isLead || !s.moving || s.votes.decided.isSome || !reductionComplete s then s
    else
      let v := voteRecord n (decideOutcome (reducedWord s).bits) false false s
      if s.run.modes.getD 5 false then
        let bs := voteRecordBytes v (attemptOf s n)
        let at_ := s.holding.voteReport.toNat / 64 * 64
        hostWrite at_ (bs.take 8) false (hostWrite (at_ + 8) (bs.drop 8) false s)
      else takeDecision v s

/-- A holding master whose holding is reduced passes the reduction up, and again when a word of it changes. -/
def passReduced (s : State) : State :=
  match s.votes.openStep with
  | some n => if holdingReduced s then sendHedge (leadId s) (.voteContribution s.holding.moduleId n (reducedWord s)) s else s
  | none => s

/-- A contribution at a master: the latest word of each member stands, since a loss found after it still enters the open vote
(R173). The lead master decides, another holding master passes its reduction up. -/
def takeContribution (m : ModId) (step : Nat) (w : VoteWord) (s : State) : State :=
  if s.holding.isMaster && s.votes.openStep == some step && s.votes.decided.isNone && s.votes.outcome.isNone then
    let s := { s with votes.received := (s.votes.received.filter fun c => c.1 != m) ++ [(m, w)] }
    if s.isLead then reduceVote s else passReduced s
  else s

/-- This module contributes its word: to its master, or to the lead master while its own master is lost (15 R329). -/
def contribute (n : Nat) (s : State) : State :=
  let s := traceCommit 0 s.votes.word.toNat { s with votes.contributed := true, votes.sent := s.votes.word }
  let me := s.holding.moduleId
  let w := ownWord me s.votes.word
  if s.holding.isMaster then takeContribution me n w s
  else
    let up := if s.holding.lost.contains s.holding.masterId then leadId s else s.holding.masterId
    sendHedge up (.voteContribution me n w) s

/-- A finding made after the contribution and before the decision still enters the open vote (R173). -/
def lateFindings (s : State) : State :=
  match s.votes.openStep with
  | some n =>
    if s.moving && s.votes.contributed && s.votes.outcome.isNone && s.votes.decided.isNone && s.votes.word != s.votes.sent then
      contribute n s
    else s
  | none => s

/-- A member lost while the vote is open counts in it (R174); while its master is lost a member contributes to the lead
master directly (15 R329). -/
def countLostMember (m : ModId) (s : State) : State :=
  if s.run.isOn && s.votes.outcome.isNone then
    let s := { s with votes.lost := addNew s.votes.lost m }
    match s.votes.openStep with
    | some n =>
      if !s.holding.isMaster && m == s.holding.masterId && s.votes.contributed then contribute n s
      else if s.holding.isMaster && !s.isLead then passReduced s
      else s
    | none => s
  else s

/-- The expiry of a bound of R177 at the lead master. -/
def timedOutVote (s : State) : State :=
  match s.votes.openStep with
  | none => s
  | some n =>
    if s.isLead && s.moving && s.votes.decided.isNone && (!reductionComplete s || s.run.modes.getD 5 false) then
      takeDecision (voteRecord n outRetry false true s) s
    else s

/-! ### Resuming (02 R41, R42) -/

/-- The cut released: paused solves continue. -/
def releaseCut (s : State) : State :=
  let go := fun (b : BlockSolve) => if b.record.status = 3 then { b with record := { b.record with status := 2 } } else b
  { s with run.halt := .running, run.stop := none, harrows.blocks := s.harrows.blocks.map go }

/-- The vote record of a step whose outcome this module missed: as another module has told it; where none has reached this
module, COMMIT with nothing else known of it (R42 step 1; log entry 27). -/
def missedCommit (n : Nat) (s : State) : VoteMsg :=
  match s.votes.ring.find? fun e => e.1 == n && e.2.1.outcome == outCommit with
  | some e => e.2.1
  | none =>
    { step := n, bits := 0, outcome := outCommit, supplied := false, timedOut := false, contributors := 0,
      firstSetter := List.replicate 8 0, timestamp := BitVec.ofNat 64 s.clock.now }

/-- The layers of uncommitted steps. -/
def beyond (first : Nat) : LayerTag → Bool
  | .staged _ => true
  | .output k _ _ => decide (first ≤ k)
  | .held _ => false

/-- Versions of step `first` and later, and everything partial of it, discarded (R42 step 2). -/
def discardPartial (first : Nat) (s : State) : State :=
  let s := discardFrom first s
  let s := forgetRuns (fun t => decide (first ≤ t.step)) s
  let s := discardRuns (fun t => t.stream == streamE && t.incomplete) .abandoned s
  restoreSeqs { s with
    mem := dropLayers (beyond first) s.mem
    sched.candidates := s.sched.candidates.filter fun c => decide (c.1 < first)
    run.attempts := tmod 0 s.run.attempts (first + 1) (· - 1)
    run.created := if first = 0 then none else some (first - 1) }

/-- Steps 2 and 3 of R42: partial work of the step discarded, the copy of the head at (first, F, 0), the step created again. -/
def endRoll (first : Nat) (s : State) : State :=
  let p := posOf first passF 0
  let s := rearmStones p (discardPartial first s)
  let front := fun (f : ModId × Pos × Pos × W32) => (f.1, p, p, BitVec.allOnes 32)
  let s := { s with
    run.head := p
    run.headAt := s.clock.up
    run.halt := .running
    run.stop := none
    run.rollTo := none
    run.succession := none
    run.stopAcks := []
    run.fronts := s.run.fronts.map front
    coll.reforming := s.coll.reforming && !s.coll.unformed.isEmpty }
  let s := createStep first (openVote first 0 s)
  acknowledge agreeDiscard (BitVec.ofNat 64 first) p (sow s)

/-- Commit work of the step before a rollback's is not complete. -/
def commitWorkLeft (first : Nat) (s : State) : Bool :=
  decide (0 < first) && committed s (first - 1) && commitPending s (first - 1)

/-- The rollback of a module to (first, F, 0), where first is the step after the run's last committed one: a missing commit record
is written, and the commit work of that step completed, before anything is discarded (R42 step 1). -/
def rollBack (first : Nat) (s : State) : State :=
  let s := { s with run.halt := .running, run.discardAcks := [] }
  let s := if 0 < first ∧ s.votes.openStep = some (first - 1) ∧ stepOf s.run.start < first then
      applyCommit (missedCommit (first - 1) s) s
    else s
  if commitWorkLeft first s then
    let p := posOf (first - 1) passC 0
    markGates { s with
      run.stop := none
      run.rollTo := some first
      run.head := if s.run.head.toNat < p.toNat then p else s.run.head }
  else endRoll first s

/-- A rollback goes on once the commit work it waits for is complete. -/
def continueRoll (s : State) : State :=
  match s.run.rollTo with
  | some first => if s.run.halt == .running && !commitWorkLeft first s then endRoll first s else s
  | none => s

/-- The step after the last one that a module of the run is known to have committed. -/
def resumeStep (s : State) : Nat :=
  let own := match s.run.lastCommit with
    | some m => m + 1
    | none => stepOf s.run.start
  match s.run.knownCommit with
  | some m => max own (m + 1)
  | none => own

/-- A resume ordered: the cut released, or the run rolled back; true where it rolls back. -/
def applyResume (first : Nat) (s : State) : State :=
  if s.run.halt == .cut then releaseCut s
  else if s.run.halt == .smear then rollBack first s
  else s

/-- Every module of the run has reported its rollback. -/
def rolledBack (s : State) : Bool := (runModules s).all fun m => s.run.discardAcks.contains m

/-- Every module stands at (m + 1, F, 0): a RESUME after an immediate stop completes. -/
def resumeComplete (s : State) : State :=
  if s.isLead && s.run.rollTo.isNone && rolledBack s then
    finishJobs (fun j => match j.kind with | .resume => true | _ => false) stReplayedOk 0 s
  else s

end Sys2Proof.Machine
end

