-- ==== Sys2Proof/Machine/Export.lean ====
section
/-!
DEFINITION. State export (16): export pages and sections (R340 to R345), the step fingerprint (R346), records and the sink
(R351, R352), step reports (R347, R349) and SNAPSHOT (R358).
-/
namespace Sys2Proof.Machine

open Sys2Proof

/-! ### Words and bodies (R340, R342) -/

/-- 32-bit words of a byte array padded to a multiple of 4. -/
def wordsOf (bs : Bytes) : List Nat := (chunksOf 4 (ceilDiv bs.length 4) bs).map leNat

/-- Maximal runs of zero and of non-zero words. -/
def zeroRuns (ws : List Nat) : List (Bool × List Nat) :=
  ws.foldr (fun w acc =>
    match acc with
    | (z, r) :: t => if z == (w == 0) then (z, w :: r) :: t else (w == 0, [w]) :: acc
    | [] => [(w == 0, [w])]) []

/-- Zero runs of four words or more stand alone; everything between joins into one literal. -/
def tokens (ws : List Nat) : List (Bool × List Nat) :=
  (zeroRuns ws).foldr (fun r acc =>
    let long := r.1 && decide (4 ≤ r.2.length)
    match acc with
    | (z, t) :: rest => if !long && !z then (false, r.2 ++ t) :: rest else (long, r.2) :: acc
    | [] => [(long, r.2)]) []

/-- The canonical body of a sequence of words. -/
def encodeWords (ws : List Nat) : Bytes :=
  (tokens ws).flatMap fun t =>
    if t.1 then leBytes 4 t.2.length else leBytes 4 (2 ^ 31 + t.2.length) ++ t.2.flatMap fun w => leBytes 4 w

/-- Words of an export page. -/
def exportPageWords : Nat := 524288

/-! ### What is exported (R340) -/

/-- Something exported: tensor index, whether a queue, its tensor record, its bytes now and as they stood before the commit in progress. -/
structure Exported where
  index  : Nat
  queue  : Bool
  tensor : TensorRec
  bytes  : Bytes
  prior  : Bytes
  deriving DecidableEq, Repr

/-- The queue image: d slots, oldest entry first. -/
def queueImage (d elems : Nat) (q : FallowQueue) : Bytes :=
  (List.range d).flatMap fun i =>
    match q.entries[i]? with
    | some (step, c, g) =>
      leBytes 64 (pack [(64, step), (32, c.toNat), (1, 1)]) ++ g.flatMap fun x => leBytes 4 x.toNat
    | none => List.replicate (64 + 4 * elems) 0

/-- Every exported tensor shard and queue, in ascending (TENSOR, QUEUE). -/
def exports (s : State) : List Exported :=
  let ts := (definedTensors s).filter fun e => e.2.held && ([2, 3, 4, 5, 7, 8] : List Nat).contains e.2.cls
  let tensors := ts.map fun e => Exported.mk e.1 false e.2 (tgetBytes s.mem.base e.2.homeOffset e.2.bytes)
    (tgetBytes (s.mem.oldBase.getD s.mem.base) e.2.homeOffset e.2.bytes)
  let queues := (heldSegments s).flatMap fun e => (e.2.updates.filter fun u => u.fallowDelay != 0).filterMap fun u =>
    match findTensor s u.master, findTensor s u.grad with
    | some m, some g =>
      let before := ((s.exporter.oldFallow.getD s.fallow).find? fun q => q.master == u.master).getD ⟨u.master, [], false, none⟩
      some (Exported.mk u.master true m (queueImage u.fallowDelay g.shape.elems (fallowOf s u.master))
        (queueImage u.fallowDelay g.shape.elems before))
    | _, _ => none
  sortBy (fun a b => decide (2 * a.index + b2n a.queue ≤ 2 * b.index + b2n b.queue)) (tensors ++ queues)

/-- Its words at the previous commit; where it was not exported then, its words as loaded: a queue that nothing loaded is empty,
its image zeros (R342). -/
def previousBytes (s : State) (e : Exported) : Bytes :=
  ((s.exporter.images.find? fun i => i.1 == e.index && i.2.1 == e.queue).map (·.2.2)).getD e.prior

/-! ### Sections (R341, R343, R345) -/

/-- A section: kind, whether it enters the fingerprint under scope 0, header and body. -/
structure Section where
  kind   : Nat
  master : Bool
  header : Bytes
  body   : Bytes
  deriving DecidableEq, Repr

def Section.bytes (x : Section) : Bytes := x.header ++ x.body

/-- The section header. -/
def sectionHeader (tensor kind : Nat) (queue : Bool) (fmt cls page words encoded shard shards : Nat) : Bytes :=
  leBytes 32 (pack [(32, tensor), (2, kind), (1, b2n queue), (5, fmt), (4, cls), (20, 0), (32, page), (32, words),
    (32, encoded), (16, shard), (16, shards), (64, 0)])

def pageSection (e : Exported) (kind page : Nat) (ws : List Nat) : Section :=
  let body := encodeWords ws
  { kind := kind, master := e.tensor.cls == 3,
    header := sectionHeader e.index kind e.queue e.tensor.format e.tensor.cls page ws.length body.length
      (if e.tensor.sharded then e.tensor.shard else 0) (if e.tensor.sharded then e.tensor.parts else 1)
    body := body }

/-- Words of page j. -/
def pageWords (ws : List Nat) (j : Nat) : List Nat := (ws.drop (j * exportPageWords)).take exportPageWords

/-- The difference and keyframe sections of one exported array in step n. -/
def sectionsOf (n k : Nat) (allKeys : Bool) (e : Exported) (prev : Bytes) : List Section :=
  let new := wordsOf e.bytes
  let old := wordsOf (padTo e.bytes.length prev)
  (List.range (ceilDiv new.length exportPageWords)).flatMap fun j =>
    let ws := pageWords new j
    let diff := List.zipWith (fun a b => a ^^^ b) ws (pageWords old j)
    (if diff.all (· == 0) then [] else [pageSection e 0 j diff]) ++
    (if allKeys || (n + e.index + j) % k == 0 then [pageSection e 1 j ws] else [])

/-- The root tensor a block's decision is logged under. -/
def rootTensorOf (s : State) (b : BlockSolve) : Nat :=
  (((segmentOf s b.key.seg).bind fun g => g.roots[b.key.record]?).map (·.root)).getD 0

/-- An entry of the decision log. -/
def decisionBytes (root block : Nat) (d : Decision) : Bytes :=
  leBytes 16 (pack [(32, root), (32, block), (8, d.outcome), (1, b2n d.carried), (1, b2n d.fallback), (6, 0), (8, d.age),
    (8, satTo 255 d.lag)])

/-- The decision log section of step n. -/
def decisionLog (s : State) (n : Nat) : Section :=
  let ds := s.harrows.blocks.filterMap fun b =>
    (b.decisions.find? fun d => d.step == n).map fun d => (rootTensorOf s b, b.key.block, d)
  let sorted := sortBy (fun (a b : Nat × Nat × Decision) =>
    decide (a.1 < b.1) || (a.1 == b.1 && decide (a.2.1 ≤ b.2.1))) ds
  let body := sorted.flatMap fun e => decisionBytes e.1 e.2.1 e.2.2
  { kind := 2, master := false,
    header := sectionHeader 0xFFFFFFFF 2 false 0 0 0 (4 * sorted.length) body.length 0 1, body := body }

/-- The step header. -/
def stepHeader (s : State) (n seq sections bytes : Nat) (first snapshot : Bool) (f prev : BitVec 256) : Bytes :=
  leBytes 256 (pack [(32, 0x58455848), (8, 1), (1, b2n s.exporter.cfg.scope), (1, b2n (!s.stones.live.isEmpty)),
    (1, b2n first), (1, b2n snapshot), (4, 0), (16, s.holding.moduleId.toNat), (64, n), (64, seq), (32, sections), (32, 0),
    (64, bytes), (256, f.toNat), (256, prev.toNat), (256, s.stones.digest.toNat)])

/-! ### Staging (R352, 11 R222) -/

def retainedBytes (x : Exporter) : Nat := (x.retained.map fun r => r.bytes.length).foldl (· + ·) 0

/-! ### Fingerprint and record (01 R13 step 4, R346) -/

/-- Commit work of the step other than FINGERPRINT is complete. -/
def commitWorkDone (s : State) (n : Nat) : Bool :=
  s.sched.tasks.all fun t => !(t.step == n && t.commitWork && t.incomplete) ||
    (taskRecOf s t).any fun r => r.kind == 0x12

/-- The canonical difference records in scope. -/
def differenceRecords (scope : Bool) (xs : List Section) : Bytes :=
  ((xs.filter fun x => x.kind == 0 && (scope || x.master))).flatMap fun x => x.header ++ sha256 x.body

/-- The sections of step n as the exporter stands. -/
def formSections (n : Nat) (s : State) : List Section :=
  let x := s.exporter
  let pages := (exports s).flatMap fun e =>
    sectionsOf n x.cfg.k (x.first || !x.keyed.contains (e.index, e.queue)) e (previousBytes s e)
  pages ++ [decisionLog s n]

/-- Progress of the commit record of a step. -/
def markCommit (n : Nat) (f : CommitRecord → CommitRecord) (s : State) : State :=
  { s with votes.commits := s.votes.commits.map fun c => if c.step = n then f c else c }

/-- A step replayed after a restoration reproduces the fingerprint reported before; a different one halts the run, and the last
such step ends the replay (15 R332, R334). -/
def replayCompared (n : Nat) (f : BitVec 256) (s : State) : State :=
  let before := (s.exporter.prints.find? fun (p : Nat × BitVec 256) => p.1 == n).map (·.2)
  let others := s.exporter.prints.filter fun (p : Nat × BitVec 256) => p.1 != n
  let s := { s with exporter.prints := ((n, f) :: others).take 256 }
  if s.holding.restore != 3 then s
  else if before.any (· != f) then haltSmear ⟨false, 0, 2, 0⟩ { s with holding.restore := 6 }
  else if s.holding.restoreUpTo ≤ n then { s with holding.restore := 4 }
  else s

/-- The difference records and the fingerprint of step n formed, once; a record that finds no room in staging waits. -/
def formFingerprint (n : Nat) (s : State) : State :=
  match s.votes.commits.find? fun c => c.step == n with
  | none => s
  | some c =>
    if c.fingerprintDone || !commitWorkDone s n then s
    else
      let x := s.exporter
      let all := formSections n s
      let sections := if x.cfg.enable then all else all.filter fun y => y.kind != 1
      let f := digestBits (sha256 (digestBytes x.chain ++ differenceRecords x.cfg.scope sections))
      let len := 256 + (sections.map fun y => y.bytes.length).foldl (· + ·) 0
      let head := stepHeader s n x.nextSeq sections.length len x.first false f x.chain
      let kept : RetainedRecord :=
        { seq := x.nextSeq, step := n, bytes := head ++ sections.flatMap Section.bytes, at_ := none, head := s.run.head,
          time := s.clock.up, place := x.formed }
      if x.cfg.enable && decide (stagingSize s < retainedBytes x + len) then
        (if x.waiting = some n then s else { s with exporter.waits := satTo (2 ^ 64 - 1) (x.waits + 1), exporter.waiting := some n })
      else
        let es := exports s
        let x' := { x with
          chain := f, prevChain := x.chain, chainStep := some n,
          images := es.map fun e => (e.index, e.queue, e.bytes), oldFallow := none, waiting := none }
        let x' := if x.cfg.enable then
            { x' with nextSeq := x.nextSeq + 1, first := false, formed := x.formed + len,
                      retained := if x.nextSeq ≤ x.acked then x.retained else x.retained ++ [kept],
                      keyed := es.map fun e => (e.index, e.queue) }
          else x'
        let s := traceProgress ((if c.foldDone then [] else [128]) ++ [131, 132])
          (markCommit n (fun c => { c with foldDone := true, recordsDone := true, fingerprintDone := true })
            { s with exporter := x', mem.oldHomes := [], mem.oldBase := none })
        replayCompared n f s

/-! ### The sink (R351, R352) -/

/-- This module's rank in its holding. -/
def ownRank (s : State) : Nat := (rankOf (members s.holding) s.holding.moduleId).getD 0

/-- This module's sink area. -/
def sinkArea (s : State) : Nat := s.exporter.cfg.sinkBase + ownRank s * s.exporter.cfg.sinkStride

/-- Bytes sent to the sink: over the master's link or this module's own, or to a module's memory (R351). -/
def toSink (host : Bool) (addr : Nat) (bs : Bytes) (s : State) : State :=
  if host then (if s.exporter.cfg.viaOwn then hostWrite addr bs false s else masterWrite addr bs s)
  else
    match lamioTarget s addr with
    | none => s
    | some (m, off) =>
      if m = s.holding.moduleId then writeNow off bs false s
      else sendTransfer ⟨m, s.lamio.nextTag, off, none, bs⟩ { s with lamio.nextTag := s.lamio.nextTag + 1 }

/-- Bytes of a record from ring byte b, wrapping. -/
def toRing (b : Nat) (bs : Bytes) (s : State) : State :=
  let size := s.exporter.cfg.sinkSize
  let o := b % size
  let ring := sinkArea s + 4096
  let front := bs.take (size - o)
  let s := toSink s.exporter.cfg.sinkHost (ring + o) front s
  let rest := bs.drop (size - o)
  if rest.isEmpty then s else toSink s.exporter.cfg.sinkHost ring rest s

/-- PRODUCED and NEXT_SEQ of the control block. -/
def sinkControl (s : State) : State :=
  let sent := (s.exporter.retained.filter fun r => r.at_.isSome).getLast?
  let next := match sent with
    | some r => r.seq + 1
    | none => s.exporter.nextSeq
  toSink s.exporter.cfg.sinkHost (sinkArea s) (leBytes 8 s.exporter.produced ++ leBytes 8 next) s

/-- Bytes written and not acknowledged. -/
def unacknowledged (x : Exporter) : Nat :=
  ((x.retained.filter fun r => r.at_.isSome).map fun r => r.bytes.length).foldl (· + ·) 0

/-- Export pushes its records (hardware mode of function 8). -/
def pushes (s : State) : Bool := s.exporter.cfg.enable && !s.run.modes.getD 8 false

/-- The oldest record not yet written goes to the sink while its bytes fit. -/
def emitOne (s : State) : State :=
  match s.exporter.retained.find? fun r => r.at_.isNone with
  | none => s
  | some r =>
    if pushes s && decide (unacknowledged s.exporter + r.bytes.length ≤ s.exporter.cfg.sinkSize) then
      let b := s.exporter.produced
      let s := toRing b r.bytes s
      let put := fun (x : RetainedRecord) => { x with at_ := some b, head := s.run.head, time := s.clock.up }
      sinkControl { s with
        exporter.produced := b + r.bytes.length
        exporter.retained := mapFirst (fun x => x.seq == r.seq) put s.exporter.retained }
    else s

/-- Emission of what staging holds. -/
def emitAll : Nat → State → State
  | 0, s => s
  | n + 1, s => emitAll n (emitOne s)

def emit (s : State) : State := emitAll s.exporter.retained.length s

/-- Records up to a sequence acknowledged: a lower value than one already read is ignored. -/
def acknowledged (seq : Nat) (s : State) : State :=
  if seq ≤ s.exporter.acked then s
  else
    { s with
      exporter.acked := seq
      exporter.retained := s.exporter.retained.filter fun r => decide (seq < r.seq) }

/-- Every unacknowledged record written again, once ACK_DISTANCE or ACK_TIME has passed for the oldest. -/
def resend (s : State) : State :=
  let sent := s.exporter.retained.filter fun r => r.at_.isSome
  match sent with
  | [] => s
  | r :: _ =>
    let c := s.exporter.cfg
    if pushes s && (distanceReached s.run.head r.head c.ackDistance.toNat ||
        decide (r.time + ms c.ackTime ≤ s.clock.up)) then
      let s := sent.foldl (fun s r => toRing (r.at_.getD 0) r.bytes s) s
      let again := fun (x : RetainedRecord) =>
        if x.at_.isSome then { x with head := s.run.head, time := s.clock.up } else x
      let s := count 0x2EE 1 s
      { s with
        exporter.resends := s.exporter.resends + 1
        exporter.retained := s.exporter.retained.map again }
    else s

/-! ### The step report (R347, R349, 13 R284) -/

/-- The fingerprints of the holding's members, in member order, with the number of them. -/
def memberPrints (s : State) (n : Nat) : List Bytes :=
  ((members s.holding).filter fun m => !s.holding.lost.contains m).map fun m =>
    digestBytes (if m = s.holding.moduleId then s.exporter.chain else Config.memberFingerprint m.toNat n)

/-- The step of a sequence of this module's records that the sink has acknowledged. -/
def ackedStep (s : State) : Option Nat :=
  if !s.exporter.cfg.enable || s.exporter.acked == 0 then none
  else match s.exporter.retained with
    | r :: _ => some (r.step - 1)
    | [] => s.exporter.chainStep

/-- The lowest acknowledged step over the members; none where some member has none. -/
def ackedAll (s : State) (n : Nat) : Option Nat :=
  ((members s.holding).filter fun m => !s.holding.lost.contains m).foldl (fun (x : Option Nat) m =>
    let y := if m = s.holding.moduleId then ackedStep s else Config.memberAcked m.toNat n
    match x, y with
    | some a, some b => some (min a b)
    | _, _ => none) (some (2 ^ 64 - 1))

/-- The report slot of a committed step. -/
def reportSlot (s : State) (n : Nat) : Bytes :=
  let fs := memberPrints s n
  leBytes 8 n ++ leBytes 2 s.holding.number.toNat ++
    leBytes 1 (pack [(1, b2n s.exporter.cfg.scope), (1, b2n (!s.stones.live.isEmpty)), (1, b2n s.exporter.evalAbandoned)]) ++
    [0] ++ leBytes 4 fs.length ++ sha256 fs.flatten ++ leBytes 8 ((ackedAll s n).getD (2 ^ 64 - 1)) ++
    leBytes 8 s.clock.now

/-- Reports that wait in the buffer of REPORT_RING. -/
def reportsWaiting (s : State) : Nat :=
  ((complRing s s.host.ctx.reportRing.toNat).waiting.filter fun e => e.report).length

/-- Step 5 of R13: the report posted or placed in the buffer; a full buffer holds pass C. -/
def stepReport (s : State) : State :=
  let due := s.votes.commits.filter fun c => !c.reported && s.run.finished != some c.step
  match due.getLast? with
  | none => s
  | some c =>
    let s := formFingerprint c.step s
    let ready := s.votes.commits.any fun x => x.step == c.step && x.fingerprintDone
    if !ready || (s.holding.isMaster && decide (256 ≤ reportsWaiting s)) then s
    else
      let s := if s.holding.isMaster then
          queueReport c.step stOk
            { hostWrite (s.host.ctx.reportBase.toNat / 4096 * 4096 + 64 * (c.step % 256)) (reportSlot s c.step) false s with
              exporter.evalAbandoned := false }
        else s
      finishStep c.step true (traceCommit 2 133 (markCommit c.step (fun c => { c with reported := true }) s))

/-! ### SNAPSHOT (R358) -/

/-- The keyframe sections of a snapshot. -/
def snapshotSections (s : State) (all : Bool) : List Section :=
  ((exports s).filter fun e => all || (e.tensor.cls == 2 && !e.queue)).flatMap fun e =>
    let ws := wordsOf e.bytes
    (List.range (ceilDiv ws.length exportPageWords)).map fun j => pageSection e 1 j (pageWords ws j)

/-- The step record of a snapshot of the last committed step. -/
def snapshotRecord (s : State) (all : Bool) : Bytes × Nat :=
  let xs := snapshotSections s all
  let len := 256 + (xs.map fun y => y.bytes.length).foldl (· + ·) 0
  (stepHeader s (s.run.lastCommit.getD 0) 0 xs.length len false true s.exporter.chain s.exporter.prevChain ++
    xs.flatMap Section.bytes, xs.length)

end Sys2Proof.Machine
end

