-- ==== Sys2Proof/Machine/Coll.lean ====
section
/-!
DEFINITION. Collectives (10): the muster (R211 to R213), the canonical order carried by chains (R200 to R205), the bin and its
reservations (R207 to R209), member loss (R214, R215), missing ranges (15 R337).
-/
namespace Sys2Proof.Machine

open Sys2Proof

def opAllReduce : Nat := 0
def opReduceScatter : Nat := 1
def opAllGather : Nat := 2
def opBroadcast : Nat := 3
def opAllToAll : Nat := 4
def opBarrier : Nat := 5
def opVote : Nat := 6
def opNorm : Nat := 7
def opEval : Nat := 8

/-! ### Copied operands (R198: bytes unchanged, scales included) -/

def Operand.code (rd : Nat → Byte) (o : Operand) (k : Nat) : Nat :=
  let (row, i) := o.place k
  slotBits rd o.tensor.format (o.tensor.shape.slot row i)

def Operand.scaleCode (rd : Nat → Byte) (o : Operand) (k : Nat) : Nat :=
  let sh := o.tensor.shape
  let (row, i) := o.place k
  (rd (sh.scaleBase + row * sh.rowBlocks + i / blockSize sh.block)).toNat

/-- A view written from codes and scale bytes. -/
def Operand.writeCodes (o : Operand) (code scale : Nat → Nat) : Cells :=
  let sh := o.tensor.shape
  o.writePatterns code ++
  (if fmtBlocked sh.fmt then
    let b := blockSize sh.block
    (List.range o.rows).flatMap fun r =>
      let (row, i) := o.place (r * o.row)
      cellsAt (o.tensor.homeOffset + sh.scaleBase + row * sh.rowBlocks + i / b)
        ((List.range (ceilDiv o.row b)).map fun j => BitVec.ofNat 8 (scale (r * o.row + j * b)))
   else [])

/-- Elements `lo` to `hi - 1` of a view as codes, then their scale bytes, one for each block. -/
def copyBytes (rd : Nat → Byte) (o : Operand) (lo hi : Nat) : Bytes :=
  packElems (fmtWidth o.tensor.format) ((upto lo hi).map (o.code rd)) ++
  (if fmtBlocked o.tensor.format then
    (List.range (ceilDiv (hi - lo) (blockSize o.tensor.block))).map fun j =>
      BitVec.ofNat 8 (o.scaleCode rd (lo + j * blockSize o.tensor.block))
   else [])

/-- Code and scale of element k of such bytes of n elements. -/
def copiedCode (fmt : Nat) (bs : Bytes) (k : Nat) : Nat := slotBits (fun i => bs.getD i 0) fmt k

def copiedScale (fmt block n : Nat) (bs : Bytes) (k : Nat) : Nat :=
  byteAt bs (ceilDiv (n * fmtWidth fmt) 8 + k / blockSize block)

/-! ### Shape of a collective -/

/-- The operation copies. -/
def CollInst.copies (c : CollInst) : Bool := c.op == opAllGather || c.op == opBroadcast || c.op == opAllToAll

/-- The fold is in binary64. -/
def CollInst.wide (c : CollInst) : Bool := c.format == fB64 || c.op == opNorm || c.op == opEval

/-- Bytes of a widened element. -/
def CollInst.width (c : CollInst) : Nat :=
  if c.op = opVote then 4
  else if c.copies then max 1 (fmtWidth c.format / 8)
  else if c.wide then 8 else 4

/-- Elements a member sends or folds: a copy's own input, one value for NORM. -/
def CollInst.length (c : CollInst) (p : Nat) : Nat :=
  if c.op = opNorm then 1 else if c.op = opAllToAll then p * c.count else c.count

/-- Elements of a segment (R205). -/
def CollInst.segElems (c : CollInst) : Nat := 2 ^ 20 / c.width

def CollInst.segments (c : CollInst) (p : Nat) : Nat := ceilDiv (c.length p) c.segElems

/-- The group number and sequence number of its key; an EVAL_REDUCE, which takes no sequence number, is keyed by its
task ID above the group numbers. -/
def CollInst.key (c : CollInst) (i : Nat) : SegKey :=
  if c.op = opEval then ⟨0x10000 + c.group, c.task.toNat, i⟩ else ⟨c.group, c.seq, i⟩

def ofKey (k : SegKey) (c : CollInst) : Bool :=
  let x := c.key k.index
  x.group == k.group && x.seq == k.seq

def sameColl (a b : CollInst) : Bool := a.step == b.step && a.task == b.task

def setColl (c : CollInst) (s : State) : State :=
  { s with coll.live := mapFirst (sameColl c) (fun _ => c) s.coll.live }

def dropColl (c : CollInst) (s : State) : State :=
  { s with coll.live := s.coll.live.filter fun x => !sameColl c x }

/-! ### The canonical order on a grid of members (R200, R204) -/

/-- Two members agree on the axes from `a` on. -/
def agreeFrom (b : Bytes) (a : Nat) (x y : ModId) : Bool := (axisIndex b x).drop a == (axisIndex b y).drop a

/-- The members `ms` of a group with the definition whose bytes give their axis indices. -/
structure Grid where
  ms : List ModId
  b  : Bytes
  deriving DecidableEq, Repr

/-- The grid of a group. -/
def gridOf (s : State) (g : Group) : Grid := ⟨definedMembers s g.def48, g.def48⟩

/-- The index of a member on axis `a`. -/
def Grid.at (g : Grid) (a : Nat) (m : ModId) : Nat := (axisIndex g.b m).getD a 0

/-- The members folded before this chain into the value that `m` holds: those that agree with it on axes `a` and up. -/
def Grid.block (g : Grid) (a : Nat) (m : ModId) : List ModId := g.ms.filter fun x => agreeFrom g.b a x m

/-- The member that holds a block's value: its last in rank order. -/
def Grid.holds (g : Grid) (a : Nat) (m : ModId) : Bool := (g.block a m).getLast? == some m

/-- The members of the chain on axis `a` through `m`, before it and after it. -/
def Grid.before (g : Grid) (a : Nat) (m : ModId) : List ModId :=
  (g.block (a + 1) m).filter fun x => decide (g.at a x < g.at a m)

def Grid.after (g : Grid) (a : Nat) (m : ModId) : List ModId :=
  (g.block (a + 1) m).filter fun x => decide (g.at a m < g.at a x)

/-- The next holder on the chain, in the + direction. -/
def Grid.next (g : Grid) (a : Nat) (m : ModId) : Option ModId :=
  match g.after a m with
  | [] => none
  | x :: t =>
    let low := t.foldl (fun i y => min i (g.at a y)) (g.at a x)
    ((x :: t).filter fun y => g.at a y == low).getLast?

/-- The holder before it on the chain, to which the final value returns in the − direction. -/
def Grid.prev (g : Grid) (a : Nat) (m : ModId) : Option ModId :=
  let high := (g.before a m).foldl (fun i y => max i (g.at a y)) 0
  ((g.before a m).filter fun y => g.at a y == high).getLast?

/-! ### Fold steps (R201, R203) -/

/-- One fold step of an operator: the sum rounded once, the maximum or minimum, or the bitwise operation of VOTE. -/
def foldOp (op operator : Nat) (wide : Bool) (a b : W64) : W64 :=
  if op = opVote then (if operator = 1 then a &&& b else a ||| b)
  else
    let x := ofB64 a
    let y := ofB64 b
    if operator = 1 ∧ op ≠ opNorm then toB64 (numMax x y)
    else if operator = 2 ∧ op ≠ opNorm then toB64 (numMin x y)
    else toB64 (rndW wide (x.add y))

/-- What a fold of two partials makes: values, first events, and sums that overflowed binary32. -/
structure FoldStep where
  values : List W64
  events : List (Nat × Nat × Nat × Nat)
  overs   : Nat := 0
  deriving DecidableEq, Repr

/-- The partial folded with the value `mine` of members whose lowest rank is `low`, by the member of rank `me`. -/
def foldStep (c : CollInst) (first me low : Nat) (partial_ : List W64) (pe : List (Nat × Nat × Nat × Nat))
    (mine : List W64) (me' : List (Nat × Nat × Nat × Nat)) : FoldStep :=
  let vs := List.zipWith (foldOp c.op c.operator c.wide) partial_ mine
  let isNan := fun (x : W64) => c.op != opVote && (ofB64 x).isNan
  let fresh := ((List.zip partial_ (List.zip mine vs)).mapIdx fun i (x : W64 × W64 × W64) =>
    if isNan x.2.2 && !isNan x.1 && !isNan x.2.1 then [(first + i, me, low, causeInfMinusInf)] else []).flatten
  -- the one element of NORM is one element whichever input's square raised its event
  let had := fun (e : Nat × Nat × Nat × Nat) => if c.op = opNorm then !pe.isEmpty else pe.any fun x => x.1 == e.1
  let overs := ((List.zip partial_ (List.zip mine vs)).filter fun (x : W64 × W64 × W64) =>
    c.op != opVote && !c.wide && (ofB64 x.2.2).isInf && (ofB64 x.1).isFin && (ofB64 x.2.1).isFin).length
  { values := vs, events := pe ++ (me'.filter fun e => !had e) ++ fresh, overs := overs }

/-! ### A member's contribution -/

/-- Widened elements of the input: to binary32, an element of 2^128 or more to Inf (03 R58), unless the fold is in binary64. -/
def contribution (c : CollInst) (rd : Nat → Byte) (o : Operand) : List W64 :=
  if c.op = opVote then (List.range c.count).map fun k => BitVec.ofNat 64 (o.code rd k)
  else if c.op = opNorm then
    let vs := (List.range c.count).map fun k => o.value rd k
    [toB64 (laneFold (vs.map fun v => v.mul v))]
  else (List.range c.count).map fun k => toB64 (if c.wide then o.value rd k else rnd32 (o.value rd k))

/-- The events a member's own contribution raises, by element of the collective. -/
def ownEvents (c : CollInst) (rd : Nat → Byte) (o : Operand) (rank : Nat) : List (Nat × Nat × Nat × Nat) :=
  if c.op = opVote ∨ c.copies = true ∨ c.op = opBarrier then []
  else
    let bad := (List.range c.count).filter fun k => (o.value rd k).isNan
    if c.op = opNorm then (bad.take 1).map fun k => (k, rank, rank, causeNanOperand)
    else bad.map fun k => (k, rank, rank, causeNanOperand)

/-! ### Sending -/

def valueBytes (c : CollInst) (vs : List W64) : Bytes :=
  vs.flatMap fun v =>
    if c.op = opVote then leBytes 4 v.toNat
    else if c.wide then leBytes 8 v.toNat else leBytes 4 (toB32 (ofB64 v)).toNat

def valuesOf (c : CollInst) (bs : Bytes) : List W64 :=
  (chunksOf c.width (ceilDiv bs.length c.width) bs).map fun b =>
    if c.op = opVote then BitVec.ofNat 64 (leNat b)
    else if c.wide then BitVec.ofNat 64 (leNat b) else widen (BitVec.ofNat 32 (leNat b))

/-- Bytes of a collective on a port, counted with its task run (09 R192). -/
def countColl (c : CollInst) (slot n : Nat) (s : State) : State :=
  setTask c.step c.task (fun t => { t with counts := t.counts ++ [(slot, n)] }) (countWork c.seedbed slot n s)

/-- The packets of a part, of 224 bytes each, on their way out of a port: the stone of the port's VC2 counts each and acts on it
(15 R336, R337). None where one is lost: dropped, or altered in its header; a reordered one is placed by address all the same.
DEDUCED: the layout of COLL_DATA is not given, so the data of a packet follows its header (log entry 85). -/
def stoneParts (p : Nat) : Nat → Nat → Bytes → State → Option Bytes × State
  | 0, _, bs, s => (some bs, s)
  | n + 1, i, bs, s =>
    let mine := fun (x : StoneLive) => x.stone.port == p && x.stone.vc == 2
    match s.stones.live.find? mine with
    | none => (some bs, s)
    | some l =>
      let (acts, trig) := stoneChoice s.run.head l
      let live := mapFirst mine (fun x => { x with sent := x.sent + 1, fired := x.fired || trig }) s.stones.live
      let s := { s with stones.live := live }
      if !acts || l.stone.action == 0 then stoneParts p n (i + 1) bs s
      else if l.stone.action = 1 then (none, (stoneParts p n (i + 1) bs (countStone (stoneSlot p 2 0) s)).2)
      else if l.stone.action = 2 then stoneParts p n (i + 1) bs (countStone (stoneSlot p 2 1) s)
      else if l.stone.action = 3 then
        let s := countStone (stoneSlot p 2 1) s
        if l.stone.offset < 16 then (none, (stoneParts p n (i + 1) bs s).2)
        else stoneParts p n (i + 1) (if l.stone.offset < 240 then corruptAt bs (224 * i + l.stone.offset - 16) l.stone.mask else bs) s
      else stoneParts p n (i + 1) bs (countStone (stoneSlot p 2 2) s)

/-- A part on its way to a member, as far as the stones let it, with the end-of-data notice. -/
def passPart (dest : ModId) (m : CollMsg) (s : State) : State :=
  let (bs, s) := stoneParts (portToward s dest) (ceilDiv m.values.length 224) 0 m.values s
  let s := match bs with
    | some b => { s with out.coll := s.out.coll ++ [(dest, { m with values := b })] }
    | none => s
  sendHedge dest (.endOfData (.segment m.key) m.values.length) s

/-- A part sent to a member; what was sent is kept. -/
def sendPart (c : CollInst) (dest : ModId) (m : CollMsg) (s : State) : State :=
  let keep := fun (x : CollInst) => { x with sent := x.sent ++ [(dest, m)] }
  let s := { s with coll.live := mapFirst (sameColl c) keep s.coll.live }
  passPart dest m (countColl c (0x240 + 8 * portToward s dest + 4) m.values.length s)

/-! ### Completion -/

/-- Everything this module holds of a collective, but for its task: its instance, its slots and reservations. -/
def forgetColl (c : CollInst) (s : State) : State :=
  let s := dropColl c s
  { s with
    coll.bin := s.coll.bin.filter fun r => !ofKey r.key c
    coll.left := s.coll.left.filter fun k => !ofKey k c
    coll.reserves := s.coll.reserves.filter fun r => !ofKey r.key c }

/-- A collective's task ends with a status other than OK: nothing is written (R209, R212, R215). Requests that its slots kept
back are served by whoever looks at the bin next. -/
def endColl (c : CollInst) (status : Nat) (s : State) : State :=
  let s := forgetColl c s
  let bit : W16 := if c.op = opEval ∨ status = stMemberLost then 0 else withBit 0 vbReplayFailed
  let s := match findTask s c.step c.task with
    | none => s
    | some t =>
      let t' := { t with cells := [], event := none, status := status, findings := t.findings ||| bit }
      publish t' (setTask c.step c.task (fun _ => t') s)
  if c.op = opEval then s
  else if status = stMemberLost then findMemberLost s
  else if status = stCollMismatch then
    let again := s.coll.mismatches.contains (c.step, c.group, c.seq)
    holdRun again { s with coll.mismatches := addNew s.coll.mismatches (c.step, c.group, c.seq) }
  else s

/-- The final values of a collective's elements; zero for a segment whose final value this member does not need. -/
def CollInst.finals (c : CollInst) : List W64 :=
  (sortBy (fun (a b : SegState) => decide (a.index ≤ b.index)) c.segs).flatMap fun x =>
    x.final.getD (List.replicate x.value.length 0)

/-- The result of a collective on this member: the cells of its output, and its events. Elements are those of the ALL_REDUCE
output, from `off` on (R203). -/
def collResult (s : State) (c : CollInst) (ms : List ModId) (unit : Nat) (o : Operand) : Work :=
  let rank := (rankOf ms s.holding.moduleId).getD 0
  let final := c.finals
  let u := if c.mode = 1 then 0xFFF else unit
  let es := c.segs.flatMap (·.events)
  let mine := (es.filter fun e => e.2.1 == rank).map fun e => nanEvent u e.1 (e.2.2.2, stageReduction, e.2.2.1)
  let base : Work := { events := mine }
  let written := fun (off : Nat) (w : Written) =>
    let fresh := w.bad.filter fun i => !es.any fun e => e.1 == off + i
    { base with
      cells := w.cells
      counts := satCount o.tensor.format w.sat.length
      events := mine ++ fresh.map fun i => nanEvent u (off + i) (causeNonFinite, stageWrite, ms.length) }
  if c.op = opVote then { base with cells := o.writePatterns fun k => (final.getD k 0).toNat }
  else if c.op = opNorm then { base with cells := o.writePatterns fun _ => (final.getD 0 0).toNat }
  else if c.op = opReduceScatter then
    let off := rank * (c.count / ms.length)
    written off (o.write fun k => ofB64 (final.getD (off + k) 0))
  else if c.op = opEval then
    (if rank = 0 then written 0 (o.write fun k => ofB64 (final.getD k 0)) else base)
  else written 0 (o.write fun k => ofB64 (final.getD k 0))

/-- The bytes of a member's copied input, by element. -/
def copiedFrom (c : CollInst) (rank k : Nat) : Nat × Nat :=
  let e := c.segElems
  match c.blocks.find? fun x => x.1 == rank && x.2.1 == k / e with
  | none => (0, 0)
  | some x =>
    let n := min e (c.count - k / e * e)
    (copiedCode c.format x.2.2 (k % e), copiedScale c.format c.block n x.2.2 (k % e))

/-- The output of an operation that copies. -/
def copyResult (c : CollInst) (o : Operand) : Work :=
  let src := fun k =>
    if c.op = opBroadcast then copiedFrom c c.root k else copiedFrom c (k / c.count) (k % c.count)
  { cells := o.writeCodes (fun k => (src k).1) (fun k => (src k).2) }

/-- The output operand of a collective's task. -/
def collOutput (s : State) (c : CollInst) : Option Operand :=
  match findTask s c.step c.task with
  | none => none
  | some t =>
    match segmentOf s t.seg, taskRecOf s t with
    | some g, some r => r.outView.head?.bind (operandOf s g)
    | _, _ => none

/-- A collective that has completed: its result goes into its task, which publishes. -/
def completeColl (c : CollInst) (s : State) : State :=
  let ms := membersOf s c.group
  let s := dropColl c s
  let s := { s with coll.reserves := s.coll.reserves.filter fun r => !ofKey r.key c }
  match findTask s c.step c.task with
  | none => s
  | some t =>
    let w : Work := match collOutput s c with
      | none => {}
      | some o => if c.copies then copyResult c o else collResult s c ms t.unit o
    let w := if c.op = opEval then w else { w with counts := w.counts ++ [(0x320 + c.op, 1)] }
    let s := w.counts.foldl (fun s x => countWork t.seedbed x.1 x.2 s) s
    let s := w.events.foldl (fun s e => countNan t.seedbed t.task e s) s
    let t' := { t with
      cells := w.cells, counts := t.counts ++ w.counts ++ nanSlots w.events, done := t.tiles
      event := joinEvent t.event (firstEvent w.events) }
    let s := setTask t.step t.task (fun _ => t') s
    if t'.phase = .computed then publish t' s else s

/-! ### Bins (R207, R208) -/

/-- Keys compared: group, sequence, segment. -/
def keyLt (a b : SegKey) : Bool :=
  decide (a.group < b.group) || (a.group == b.group &&
    (decide (a.seq < b.seq) || (a.seq == b.seq && decide (a.index < b.index))))

/-- Keys that hold a slot of this bin. -/
def heldKeys (s : State) : List SegKey := ((s.coll.bin.filter fun r => r.state != 0).map (·.key)).eraseDups

def holdsTentative (s : State) (k : SegKey) : Bool :=
  s.coll.bin.any (fun r => r.key == k && r.state == 1) && !s.coll.bin.any fun r => r.key == k && r.state == 2

/-- The highest key above `k` that holds a slot tentatively. -/
def highestTentative (s : State) (k : SegKey) : Option SegKey :=
  ((heldKeys s).filter fun x => keyLt k x && holdsTentative s x).foldl (fun m x => match m with
    | none => some x
    | some y => if keyLt y x then some x else some y) none

/-- A key's requests all given the slot; this module's own are taken at once. -/
def grantKey (k : SegKey) (s : State) : State :=
  let due := s.coll.bin.filter fun r => r.key == k && r.state == 0 && r.source != s.holding.moduleId
  let put := fun (r : BinReq) => if r.key = k ∧ r.state = 0 then { r with state := 1 } else r
  due.foldl (fun s r => sendHedge r.source (.grant k) s) { s with coll.bin := s.coll.bin.map put }

/-- A tentative slot taken back from this module's own reservation, unless that is firm. -/
def takenBack (bin : ModId) (k : SegKey) (s : State) : State :=
  let put := fun (r : MyReserve) =>
    if r.key = k ∧ r.firm = false then { r with granted := r.granted.filter (· != bin) } else r
  { s with coll.reserves := s.coll.reserves.map put }

/-- A key's tentative slot taken back: its requests re-enter the queue. -/
def takeKey (k : SegKey) (s : State) : State :=
  let me := s.holding.moduleId
  let due := s.coll.bin.filter fun r => r.key == k && r.state == 1
  let put := fun (r : BinReq) => if r.key = k ∧ r.state = 1 then { r with state := 0 } else r
  due.foldl (fun s r => if r.source = me then takenBack me k s else sendHedge r.source (.takeBack k) s)
    { s with coll.bin := s.coll.bin.map put }

/-- The queue served in key order: a slot goes to a key only when every lower key in the queue holds its own. -/
def serveKeys : List SegKey → State → State
  | [], s => s
  | k :: t, s =>
    if (heldKeys s).contains k then serveKeys t (grantKey k s)
    else if (heldKeys s).length < 32 then serveKeys t (grantKey k s)
    else
      match highestTentative s k with
      | some x => serveKeys t (grantKey k (takeKey x s))
      | none => s

def serveBin (s : State) : State :=
  serveKeys (sortBy (fun a b => !keyLt b a) ((s.coll.bin.map (·.key)).eraseDups)) s

/-- The key's collective is over on this module: its requests are not served again. -/
def closedKey (s : State) (k : SegKey) : Bool :=
  s.sched.tasks.any fun t => t.seq == k.seq && !t.incomplete && ((taskRecOf s t).bind taskGroup) == some k.group

/-- A slot whose data has left is released once every member has confirmed its reservation (R208). -/
def clearLeft (k : SegKey) (s : State) : State :=
  let firm := fun m => s.coll.bin.any fun r => r.key == k && r.source == m && r.state == 2
  if s.coll.left.contains k && (membersOf s k.group).all firm then
    serveBin { s with
      coll.bin := s.coll.bin.filter fun r => r.key != k
      coll.left := s.coll.left.filter (· != k) }
  else s

/-- A request at this bin; a second request of a key that holds its slot says that the reservation is firm. -/
def binRequest (source : ModId) (k : SegKey) (s : State) : State :=
  match s.coll.bin.find? fun r => r.key == k && r.source == source with
  | some r =>
    if r.state = 1 then
      clearLeft k { s with
        coll.bin := mapFirst (fun x => x.key == k && x.source == source) (fun x => { x with state := 2 }) s.coll.bin }
    else s
  | none =>
    if closedKey s k && !s.coll.left.contains k then s
    else serveBin { s with coll.bin := s.coll.bin ++ [⟨k, source, 0⟩] }

/-- A segment's data has left this bin. -/
def leaveBin (k : SegKey) (s : State) : State :=
  if s.coll.bin.any fun r => r.key == k then clearLeft k { s with coll.left := addNew s.coll.left k } else s

/-- A hedge message to a member; one to itself acts at once. -/
def requestSlot (m : ModId) (k : SegKey) (s : State) : State :=
  if m = s.holding.moduleId then binRequest m k s else sendHedge m (.reserve k) s

/-! ### Chains (R204) -/

def segOf (c : CollInst) (i : Nat) : Option SegState := c.segs.find? fun x => x.index == i

def setSeg (c : CollInst) (x : SegState) (s : State) : State :=
  let put := fun (d : CollInst) => { d with segs := mapFirst (fun y => y.index == x.index) (fun _ => x) d.segs }
  { s with coll.live := mapFirst (sameColl c) put s.coll.live }

/-- The members that need the final value of a segment (R204). -/
def needFinal (c : CollInst) (ms : List ModId) (i : Nat) : List ModId :=
  if c.op = opReduceScatter then
    let slice := c.count / max 1 ms.length
    let lo := i * c.segElems
    let hi := min c.count (lo + c.segElems)
    (ms.zipIdx.filter fun x => decide (lo < (x.2 + 1) * slice) && decide (x.2 * slice < hi)).map (·.1)
  else if c.op = opEval then ms.take 1
  else ms

/-- The members whose final value comes through `m`: those before it on the last chain it is of, and its own block. -/
def Grid.subtree (g : Grid) (m : ModId) : List ModId :=
  let a := ((List.range 4).filter fun a => g.holds a m).foldl max 0
  g.before a m ++ g.block a m

/-- A member through which no final value comes is done with a segment that it has passed on. -/
def needsReturn (c : CollInst) (g : Grid) (i : Nat) (me : ModId) : Bool :=
  (needFinal c g.ms i).any fun m => (g.subtree me).contains m

/-- The part of a segment that is the slice of a rank of a REDUCE_SCATTER: first element within the segment, and length. -/
def slicePart (c : CollInst) (p i rank : Nat) : Nat × Nat :=
  let slice := c.count / max 1 p
  let lo := max (i * c.segElems) (rank * slice)
  let hi := min (min c.count ((i + 1) * c.segElems)) ((rank + 1) * slice)
  (lo - i * c.segElems, hi - lo)

/-- A final value sent back to the holder before this member on each of its chains, for the members it passes it to; of a
REDUCE_SCATTER only their slices go (R204). -/
def returnFinal (c : CollInst) (g : Grid) (x : SegState) (vs : List W64) (s : State) : State :=
  let me := s.holding.moduleId
  let need := needFinal c g.ms x.index
  ((List.range 4).filter fun a => g.holds a me).foldr (fun a s =>
    let due := (g.before a me).filter fun m => need.contains m
    match g.prev a me with
    | none => s
    | some d =>
      if due.isEmpty then s
      else
        let ranks := if c.op = opReduceScatter then due.filterMap (rankOf g.ms) else []
        let part := if c.op = opReduceScatter then
            ranks.flatMap fun r =>
              let p := slicePart c g.ms.length x.index r
              (vs.drop p.1).take p.2
          else vs
        sendPart c d
          { key := c.key x.index, phase := 4, ranks := ranks, source := me, values := valueBytes c part, events := x.events } s) s

/-- The values of a returned part in their places in the segment. -/
def returned (c : CollInst) (p : Nat) (x : SegState) (m : CollMsg) : List W64 :=
  let vs := valuesOf c m.values
  if c.op = opReduceScatter then
    let blank := List.replicate x.value.length (0 : W64)
    (m.ranks.foldl (fun (acc : List W64 × List W64) r =>
      let q := slicePart c p x.index r
      (acc.1.take q.1 ++ acc.2.take q.2 ++ acc.1.drop (q.1 + q.2), acc.2.drop q.2)) (blank, vs)).1
  else vs

/-- A segment's final value on this member goes on to those before it; its data has then left the bin. -/
def setFinal (c : CollInst) (g : Grid) (x : SegState) (vs : List W64) (es : List (Nat × Nat × Nat × Nat)) (s : State) :
    State :=
  let x := { x with final := some vs, events := es, phase := 4, passed := true }
  leaveBin (c.key x.index) (returnFinal c g x vs (setSeg c x s))

/-- The segment moves as far as this member can move it along the chains it holds a block of. -/
def advanceSegment (c : CollInst) (g : Grid) (i : Nat) : Nat → State → State
  | 0, s => s
  | n + 1, s =>
    match s.coll.live.find? (sameColl c) with
    | none => s
    | some c =>
      match segOf c i with
      | none => s
      | some x =>
        if x.passed then s
        else if 4 ≤ x.phase then setFinal c g x x.value x.events s
        else
          let a := x.phase
          let me := s.holding.moduleId
          let rank := (rankOf g.ms me).getD 0
          let low := ((g.block a me).head?.bind (rankOf g.ms)).getD rank
          let folded : Option FoldStep :=
            if (g.before a me).isEmpty then some ⟨x.value, x.events, 0⟩
            else (x.partials.find? fun m => m.phase == a).map fun m =>
              foldStep c (i * c.segElems) rank low (valuesOf c m.values) m.events x.value x.events
          match folded with
          | none => s
          | some f =>
            let s := if f.overs = 0 then s else
              setTask c.step c.task (fun t => { t with counts := t.counts ++ [(slotOverflow, f.overs)] })
                (countWork c.seedbed slotOverflow f.overs s)
            match g.next a me with
            | some d =>
              let m : CollMsg :=
                { key := c.key i, phase := a, ranks := (g.block (a + 1) me).filterMap (rankOf g.ms),
                  source := me, values := valueBytes c f.values, events := f.events }
              let s := sendPart c d m (setSeg c { x with value := f.values, events := f.events, passed := true } s)
              if needsReturn c g i me then s else leaveBin (c.key i) s
            | none =>
              advanceSegment c g i n
                (setSeg c { x with value := f.values, events := f.events, phase := a + 1 } s)

/-- Every segment of this member is final or passed on for good, or every copied input it needs is here. -/
def collDone (c : CollInst) (g : Grid) (me : ModId) : Bool :=
  if c.op = opBarrier then true
  else if c.copies then
    let n := ceilDiv c.count c.segElems
    let from_ := if c.op = opBroadcast then [c.root] else List.range g.ms.length
    from_.all fun r => (List.range n).all fun i => c.blocks.any fun x => x.1 == r && x.2.1 == i
  else
    c.segs.all fun x => x.final.isSome || (x.passed && !needsReturn c g x.index me)

/-- The collective completes when nothing more is awaited. -/
def tryComplete (step : Nat) (task : W32) (s : State) : State :=
  match s.coll.live.find? fun c => c.step == step && c.task == task with
  | none => s
  | some c =>
    match groupOf s c.group with
    | none => s
    | some g => if c.phase = 1 ∧ collDone c (gridOf s g) s.holding.moduleId = true then completeColl c s else s

/-- The part of this member's input that goes to rank j, of segment i. -/
def copyPart (s : State) (c : CollInst) (rd : Nat → Byte) (o : Operand) (j i : Nat) : CollMsg :=
  let lo := (if c.op = opAllToAll then j * c.count else 0) + i * c.segElems
  let hi := min (lo + c.segElems) ((if c.op = opAllToAll then j * c.count else 0) + c.count)
  { key := c.key i, phase := 4, ranks := [(rankOf (membersOf s c.group) s.holding.moduleId).getD 0],
    source := s.holding.moduleId, values := copyBytes rd o lo hi, events := [] }

/-- The data of a copying operation sent. -/
def sendCopies (c : CollInst) (s : State) : State :=
  let ms := membersOf s c.group
  let me := s.holding.moduleId
  let rank := (rankOf ms me).getD 0
  match findTask s c.step c.task with
  | none => s
  | some t =>
    match (segmentOf s t.seg).bind fun g => (taskRecOf s t).bind fun r => r.inView.head?.bind (operandOf s g) with
    | none => s
    | some o =>
      if c.op = opBroadcast ∧ rank ≠ c.root then s
      else
        let rd := tensorBytes s (readerOf s t) o.tensor
        (ms.zipIdx).foldl (fun s d => (List.range (ceilDiv c.count c.segElems)).foldl (fun s i =>
          let m := copyPart s c rd o d.2 i
          if d.1 = me then
            let keep := fun (x : CollInst) => { x with blocks := x.blocks ++ [(rank, i, m.values)] }
            { s with coll.live := mapFirst (sameColl c) keep s.coll.live }
          else sendPart c d.1 m s) s) s

/-- Data moves: copies are sent; a reduction's segments start on their chains, in bin mode once their slots are firm. -/
def moveData (c : CollInst) (s : State) : State :=
  match groupOf s c.group with
  | none => s
  | some g =>
    let s := setColl { c with phase := 1 } s
    let s :=
      if c.copies then sendCopies { c with phase := 1 } s
      else if c.op = opBarrier then s
      else if c.mode = 1 then
        let ms := definedMembers s g.def48
        (List.range (c.segments ms.length)).foldl (fun s i =>
          let k := c.key i
          ms.foldl (fun s m => requestSlot m k s)
            { s with coll.reserves := s.coll.reserves ++ [⟨k, [], false, s.clock.up⟩] }) s
      else (List.range (c.segments 1)).foldl (fun s i => advanceSegment c (gridOf s g) i 6 s) s
    tryComplete c.step c.task s

/-- A member has sent something for a collective (R214). -/
def hear (m : ModId) (c : CollInst) (s : State) : State :=
  let note := fun (x : CollInst) => { x with heard := (x.heard.filter fun (h : ModId × Nat) => h.1 != m) ++ [(m, s.clock.up)] }
  { s with coll.live := mapFirst (sameColl c) note s.coll.live }

/-- A slot granted; with the last of the chain the reservation is firm and the segment's data moves (R208). A bin that took a
slot back from a reservation already firm grants it again and is told so again. -/
def takeGrant (bin : ModId) (k : SegKey) (s : State) : State :=
  let put := fun (r : MyReserve) => if r.key = k ∧ r.firm = false then { r with granted := addNew r.granted bin } else r
  let s := { s with coll.reserves := s.coll.reserves.map put }
  match s.coll.reserves.find? fun r => r.key == k, s.coll.live.find? (ofKey k) with
  | some r, some c =>
    (match groupOf s c.group with
     | none => s
     | some g =>
       let ms := definedMembers s g.def48
       let s := hear bin c s
       if r.firm then requestSlot bin k s
       else if ms.all fun m => r.granted.contains m then
         let firm := fun (x : MyReserve) => if x.key = k then { x with firm := true } else x
         let s := { s with coll.reserves := s.coll.reserves.map firm }
         let s := ms.foldl (fun s m => requestSlot m k s) s
         tryComplete c.step c.task (advanceSegment c (gridOf s g) k.index 6 s)
       else s)
  | none, none => if closedKey s k then requestSlot bin k s else s
  | _, _ => s

/-- Grants that this module's own bin gave to itself and that it has not taken. -/
def ownGrants (s : State) : List SegKey :=
  let me := s.holding.moduleId
  (s.coll.bin.filter fun r => r.source == me && r.state == 1 &&
    s.coll.reserves.any fun x => x.key == r.key && !(x.granted.contains me && !x.firm)).map (·.key)

/-- They are taken at once, and those that this frees. -/
def takeOwnGrants : Nat → State → State
  | 0, s => s
  | n + 1, s =>
    match ownGrants s with
    | [] => s
    | k :: _ => takeOwnGrants n (takeGrant s.holding.moduleId k s)

/-- The bin served and this module's own grants taken, until nothing changes. -/
def serveOwn (s : State) : State :=
  let s := serveBin s
  takeOwnGrants (2 * s.coll.reserves.length + 1) s

/-! ### The muster (R211, R212) -/

/-- The signature of a muster block. -/
def musterSignature (c : CollInst) : W64 :=
  let block := leBytes 1 c.op ++ leBytes 1 c.operator ++ leBytes 1 c.format ++ leBytes 1 c.mode ++ [0, 0, 0, 0] ++
    leBytes 8 c.count ++ leBytes 2 c.group ++ leBytes 2 c.epoch ++ leBytes 4 c.seq ++ leBytes 2 c.root ++
    List.replicate 6 0
  BitVec.ofNat 64 (field (sha256 block) 0 8)

/-- Elements of a collective's input and output views. -/
def viewSizes (s : State) (c : CollInst) : Nat × Nat :=
  match findTask s c.step c.task with
  | none => (0, 0)
  | some t =>
    match segmentOf s t.seg, taskRecOf s t with
    | some g, some r =>
      (((r.inView.head?.bind (operandOf s g)).map (·.elems)).getD 0, ((r.outView.head?.bind (operandOf s g)).map (·.elems)).getD 0)
    | _, _ => (0, 0)

/-- P breaks a count of R198, or leaves the root of a BROADCAST without a rank. -/
def countBreaks (s : State) (c : CollInst) (p : Nat) : Bool :=
  let n := viewSizes s c
  (c.op == opReduceScatter && (c.count % max 1 p != 0 || n.2 * p != c.count)) || (c.op == opAllGather && n.2 != p * c.count) ||
  (c.op == opAllToAll && n.1 != p * c.count) || (c.op == opBroadcast && decide (p ≤ c.root))

/-- The decision of the lead reaches a member. -/
def goAhead (group epoch seq : Nat) (go : Bool) (s : State) : State :=
  match s.coll.live.find? fun c => c.op != opEval && c.group == group && c.epoch == epoch && c.seq == seq && c.phase == 0 with
  | none => s
  | some c => if go then moveData c s else endColl c stCollMismatch s

/-- The lead's answer to one member. -/
def answerMuster (m : ModId) (group epoch seq : Nat) (go : Bool) (s : State) : State :=
  if m = s.holding.moduleId then goAhead group epoch seq go s else sendHedge m (.goAhead group epoch seq go) s

/-- A muster that waits: group, epoch, sequence number, member, signature, seedbed tag. -/
abbrev Muster := Nat × Nat × Nat × ModId × W64 × Bool

/-- The collectives of a group decided as far as the musters held decide them: each member's musters stand in their order of
arrival, and the first of every member are those of one collective (R212). -/
def decideMusters (group epoch : Nat) : Nat → State → State
  | 0, s => s
  | n + 1, s =>
    let ms := membersOf s group
    let first := fun (m : ModId) => s.coll.musters.find? fun (x : Muster) => x.1 == group && x.2.1 == epoch && x.2.2.2.1 == m
    let here := ms.filterMap first
    let differ := here.any fun x => here.any fun y => x.2.2.2.2.1 != y.2.2.2.2.1
    let breaks := here.any fun x => s.coll.live.any fun c =>
      c.op != opEval && c.group == group && c.epoch == epoch && c.seq == x.2.2.1 && countBreaks s c ms.length
    let bad := differ || breaks
    if here.isEmpty || !(bad || here.length == ms.length) then s
    else
      let answered := here.map fun x => x.2.2.2.1
      let s := { s with
        coll.musters := s.coll.musters.filter fun x => !here.contains x
        coll.decided := if here.length = ms.length then s.coll.decided else s.coll.decided ++ [(group, epoch, answered)] }
      decideMusters group epoch n (here.foldl (fun s x => answerMuster x.2.2.2.1 group epoch x.2.2.1 (!bad) s) s)

/-- The first collective of a group decided without a member. -/
def decidedWithout (s : State) (group epoch : Nat) (m : ModId) : Option (Nat × Nat × List ModId) :=
  s.coll.decided.find? fun d => d.1 == group && d.2.1 == epoch && !d.2.2.contains m

/-- A muster at the group lead (R212); one of a collective already decided as a mismatch is answered so. -/
def takeMuster (m : ModId) (group epoch seq : Nat) (sig : W64) (seedbed : Bool) (s : State) : State :=
  match groupOf s group with
  | none => s
  | some g =>
    let ms := membersOf s group
    if ms.head? != some s.holding.moduleId then s
    else if epoch ≠ g.epoch then answerMuster m group epoch seq false s
    else
      let s := match s.coll.live.find? fun c => c.op != opEval && c.group == group && c.seq == seq with
        | some c => hear m c s
        | none => s
      match decidedWithout s group epoch m with
      | some d =>
        let d' := (d.1, d.2.1, d.2.2 ++ [m])
        let rest := s.coll.decided.map fun x => if x = d then d' else x
        answerMuster m group epoch seq false
          { s with coll.decided := rest.filter fun x => !(x == d' && ms.all fun k => d'.2.2.contains k) }
      | none =>
        let s := { s with coll.musters :=
          (s.coll.musters.filter fun (x : Muster) => !(x.1 == group && x.2.1 == epoch && x.2.2.1 == seq && x.2.2.2.1 == m)) ++
            [(group, epoch, seq, m, sig, seedbed)] }
        decideMusters group epoch s.coll.musters.length s

/-! ### Starting a collective (task kinds 0x0B and 0x13) -/

/-- Segment states of a member's contribution. -/
def startSegs (c : CollInst) (p : Nat) (es : List (Nat × Nat × Nat × Nat)) : List SegState :=
  if c.copies || c.op == opBarrier then []
  else (List.range (c.segments p)).map fun i =>
    let lo := i * c.segElems
    { index := i, value := (c.mine.drop lo).take c.segElems,
      events := if c.op = opNorm then es else es.filter fun e => decide (lo ≤ e.1) && decide (e.1 < lo + c.segElems) }

/-- The collective a task stands for, with the events of its own contribution. -/
def collOf (s : State) (t : TaskInst) (g : Segment) (r : TaskRec) : CollInst × List (Nat × Nat × Nat × Nat) :=
  let eval := r.kind == 0x13
  let f : CollForm := if eval then
      { op := opEval, operator := byteAt r.param 2, mode := 2, group := field r.param 0 2, root := 0,
        count := ((r.inView.head?.bind (operandOf s g)).map (·.elems)).getD 0 }
    else collForm r
  let x := groupOf s f.group
  let o := r.inView.head?.bind (operandOf s g)
  let def48 := (x.map (·.def48)).getD []
  let base : CollInst :=
    { step := t.step, task := t.task, group := f.group, epoch := (x.map (·.epoch)).getD 0,
      seq := t.seq, op := f.op, operator := f.operator,
      mode := if f.mode = 0 then byteAt def48 12 + 1 else f.mode, count := f.count, root := f.root,
      format := (o.map fun o => o.tensor.format).getD 0, block := (o.map fun o => o.tensor.block).getD 0,
      seedbed := s.run.seedbedOpen && decide (stepOf s.run.head < t.step), phase := 0, mine := [],
      startedAt := s.clock.up }
  match o with
  | none => (base, [])
  | some o =>
    let rd := tensorBytes s (readerOf s t) o.tensor
    let rank := (rankOf (definedMembers s def48) s.holding.moduleId).getD 0
    if base.copies then (base, [])
    else ({ base with mine := contribution base rd o }, ownEvents base rd o rank)

/-- A collective started: its task is running, its muster goes to the group lead; an EVAL_REDUCE moves its data at once; on
a module that is no member it ends with COLL_MISMATCH (R212 case 4), and with a member already lost with MEMBER_LOST
(R215). -/
def beginColl (unit : Nat) (t : TaskInst) (g : Segment) (r : TaskRec) (s : State) : State :=
  let (c, es) := collOf s t g r
  let ms := membersOf s c.group
  let run : TaskRun := ⟨t.step, t.task, unit, 1, []⟩
  let s := startRun run {} t s
  if !ms.contains s.holding.moduleId then endColl c stCollMismatch s
  else if c.op ≠ opEval ∧ ms.any (fun m => s.holding.lost.contains m) = true then endColl c stMemberLost s
  else
    let c := { c with segs := startSegs c ms.length es }
    let s := { s with coll.live := s.coll.live ++ [c] }
    if c.op = opEval then moveData c s
    else
      let sig := musterSignature c
      let lead := ms.headD 0
      if lead = s.holding.moduleId then takeMuster lead c.group c.epoch c.seq sig c.seedbed s
      else sendHedge lead (.muster c.group c.epoch c.seq sig c.seedbed) s

/-! ### Data arriving -/

/-- Collective data at a member. -/
def takeData (m : CollMsg) (s : State) : State :=
  match s.coll.live.find? (ofKey m.key) with
  | none => s
  | some c =>
    match groupOf s c.group with
    | none => s
    | some g =>
      let s := hear m.source c s
      let c := { c with heard := (c.heard.filter fun (h : ModId × Nat) => h.1 != m.source) ++ [(m.source, s.clock.up)] }
      let s := countColl c (0x241 + 8 * portToward s m.source + 4) m.values.length s
      if c.copies then
        let r := m.ranks.headD 0
        let keep := fun (x : CollInst) =>
          if x.blocks.any fun b => b.1 == r && b.2.1 == m.key.index then x
          else { x with blocks := x.blocks ++ [(r, m.key.index, m.values)] }
        tryComplete c.step c.task { s with coll.live := mapFirst (sameColl c) keep s.coll.live }
      else
        match segOf c m.key.index with
        | none => s
        | some x =>
          if m.phase = 4 then
            if x.final.isSome || !x.passed then s
            else
              let grid := gridOf s g
              tryComplete c.step c.task (setFinal c grid x (returned c grid.ms.length x m) m.events s)
          else if x.partials.any fun p => p.phase == m.phase then s
          else
            let s := setSeg c { x with partials := x.partials ++ [m] } s
            let firm := c.mode != 1 || s.coll.reserves.any fun r => r.key == m.key && r.firm
            if c.phase = 1 ∧ firm = true then
              tryComplete c.step c.task (advanceSegment c (gridOf s g) m.key.index 6 s)
            else s

/-- The end-of-data notice of a part that did not arrive: its range is requested once; a second loss ends the collective
with TIMEOUT (15 R337). -/
def endOfData (source : ModId) (k : SegKey) (sent : Nat) (s : State) : State :=
  match s.coll.live.find? (ofKey k) with
  | none => s
  | some c =>
    let ms := membersOf s c.group
    let rank := (rankOf ms source).getD 0
    -- the next holder on a chain returns a final value, any other source passes a partial on
    let returns := (groupOf s c.group).any fun g => (List.range 4).any fun a => (gridOf s g).next a s.holding.moduleId == some source
    let here := if c.copies then c.blocks.any (fun b => b.1 == rank && b.2.1 == k.index)
      else match segOf c k.index with
        | none => true
        | some x => if returns then x.final.isSome else x.partials.any fun m => m.source == source
    if here || c.phase != 1 || sent == 0 then s
    else if c.asked.contains k.index then endColl c stTimeout s
    else
      let mark := fun (x : CollInst) => { x with asked := x.asked ++ [k.index] }
      sendHedge source (.missingRange (.segment k) 0 sent) { s with coll.live := mapFirst (sameColl c) mark s.coll.live }

/-- A missing range sent again, once for each request. -/
def resendRange (source : ModId) (k : SegKey) (first : Nat) (s : State) : State :=
  match s.coll.live.find? (ofKey k) with
  | none => s
  | some c =>
    (c.sent.filter fun x => x.1 == source && x.2.key == k && decide (first < x.2.values.length)).foldl (fun s x => passPart source x.2 s) s

end Sys2Proof.Machine
end

