-- ==== Sys2Proof/Machine/Sahith.lean ====
section
/-!
DEFINITION. The Sahith exchange (18 R384 to R387): messages, the report, the transports.
-/
namespace Sys2Proof.Machine

open Sys2Proof

/-- A message: VERSION 1, CODE, reserved bytes, LENGTH, body (R385). -/
def sahithMessage (code : Nat) (body : Bytes) : Bytes :=
  [1, BitVec.ofNat 8 code, 0, 0] ++ leBytes 4 body.length ++ body

/-- ERROR: 1 malformed, 2 busy, 3 unsupported version, 4 identity not valid. -/
def sahithError (e : Nat) : Bytes := sahithMessage 0xFF [BitVec.ofNat 8 e]

def sahithIdentity : Nat := 0x01

def sahithChallenge : Nat := 0x02

/-- The highest step for which step 4 of 01 R13 has completed, with its fingerprint; none where no step has (R387). -/
def attestedStep (s : State) : Option Nat :=
  if s.run.isOn && s.run.lastCommit.isSome then s.exporter.chainStep else none

/-- Bits of FLAGS (R386). -/
def reportFlags (s : State) : Nat :=
  pack [(1, b2n (!s.stones.live.isEmpty)), (1, b2n s.run.isOn), (1, b2n (attestedStep s).isSome),
    (1, b2n (s.run.halt == .smear))]

/-- The 448 bytes of a report captured now (R386); its header counts the bytes of report and signature after it. -/
def reportBytes (nonce : Bytes) (s : State) : Bytes :=
  [1, 0x82, 0, 0] ++ leBytes 4 (448 - 8 + 7856) ++ leBytes 2 s.holding.moduleId.toNat ++
    leBytes 2 s.holding.number.toNat ++ leBytes 1 s.security.state ++ leBytes 1 s.security.pending ++
    leBytes 1 (reportFlags s) ++ [0] ++ padTo 32 nonce ++ (s.security.meas.flatMap digestBytes) ++
    digestBytes s.stones.digest ++ leBytes 8 ((attestedStep s).getD 0) ++
    (if (attestedStep s).isSome then digestBytes s.exporter.chain else List.replicate 32 0) ++
    leBytes 16 (holdingConfig s.holding) ++ leBytes 4 s.security.fwSvn.toNat ++ leBytes 4 (enabledCores s) ++
    leBytes 8 s.clock.now ++ leBytes 8 s.run.head.toNat ++ List.replicate 32 0

/-- The signature of a report under the identity key (log entry 10). -/
def reportSignature (s : State) (report : Bytes) : Bytes :=
  (List.range 7856).map fun i => Config.signatureByte s.flash.pufSeed report i

/-- The response to a request of the code its row names. -/
def sahithResponse (code : Nat) (req : Bytes) (s : State) : Bytes :=
  let want := if code = sahithChallenge then 32 else 0
  if req.length < 8 then sahithError 1
  else if byteAt req 0 ≠ 1 then sahithError 3
  else if byteAt req 1 ≠ code ∨ zeroAt req 2 2 = false ∨ field req 4 4 ≠ want ∨ req.length ≠ 8 + want then sahithError 1
  else if s.security.identityValid = false then sahithError 4
  else if code = sahithIdentity then sahithMessage 0x81 (padTo 32 s.flash.dieKey ++ s.flash.record.certChain)
  else
    let r := reportBytes (slice req 8 32) s
    r ++ reportSignature s r

/-- A request of either code, as an ATTEST descriptor carries it. -/
def sahithAny (req : Bytes) (s : State) : Bytes :=
  sahithResponse (if byteAt req 1 = sahithChallenge then sahithChallenge else sahithIdentity) req s

/-- A request on the mailbox (0) or the management port (1): held while its response is made; a second one meanwhile is
refused as busy (R384). -/
def sahithOn (transport code : Nat) (req : Bytes) (s : State) : State :=
  if s.power.pwrGood = false ∨ (transport = 0 ∧ s.power.linkUp = false) then s
  else if s.security.busy.any fun b => b.1 == transport then
    { s with out.sahith := s.out.sahith ++ [(transport, sahithError 2)] }
  else { s with security.busy := s.security.busy ++ [(transport, sahithResponse code req s)] }

end Sys2Proof.Machine
end

