-- ==== Sys2Proof/Machine/Sampling.lean ====
section
/-!
DEFINITION. Counters, sampling and trace (17): the COUNTER_CONFIGURE and TRACE_CONFIGURE blocks, sample areas and records, the
threshold test and the freeze of the sheaf.
-/
namespace Sys2Proof.Machine

open Sys2Proof

/-! ### COUNTER_CONFIGURE blocks (R363) -/

/-- The counter IDs of a block. -/
def blockIds (b : Bytes) : List Nat := (List.range (field b 2 2)).map fun i => field b (64 + 2 * i) 2

/-- The fields of OP 0; ranges are asked of an enabled sampler alone. -/
def sampleBlockOk (b : Bytes) : Bool :=
  let f := byteAt b 1
  let host := bitOf f 1
  let base := field b 16 8
  let size := field b 24 8
  let stride := field b 32 8
  let interval := field b 8 8
  bits f 4 4 == 0 && zeroAt b 40 24 &&
  (!bitOf f 0 ||
    ((!bitOf f 3 || (decide (1 ≤ field b 4 4) && decide (field b 4 4 ≤ 65535))) &&
     (if bitOf f 2 then decide (1 ≤ interval) else decide (1000 ≤ interval) && decide (interval ≤ 10 ^ 10)) &&
     (pow2Log size).isSome && decide (2 ^ 16 ≤ size) &&
     (if host then decide (size ≤ 2 ^ 40) && decide (size + 4096 ≤ stride)
      else decide (size ≤ 2 ^ 25) && base == 0 && stride == 0)))

/-- A block as it stands alone: its length, operation, IDs and reserved bytes. -/
def counterBlockOk (b : Bytes) : Bool :=
  let op := byteAt b 0
  decide (64 ≤ b.length) && decide (op ≤ 3) && decide (field b 2 2 ≤ 1024) && b.length == 64 + 2 * field b 2 2 &&
  !(blockIds b).any counterReserved &&
  (if op = 0 then sampleBlockOk b else byteAt b 1 == 0 && zeroAt b 4 60)

/-- The configuration of an OP 0 block. -/
def sampleCfgOf (b : Bytes) : SampleCfg :=
  let f := byteAt b 1
  { enable := bitOf f 0, host := bitOf f 1, furrow := bitOf f 2, pc := bitOf f 3, pcInterval := field b 4 4,
    interval := field b 8 8, base := field b 16 8, size := field b 24 8, stride := field b 32 8, ids := blockIds b }

/-! ### Records (R365, R366) -/

/-- The 64-byte header of a record. -/
def sampleHeader (s : State) (kind entries : Nat) : Bytes :=
  leBytes 64 (pack [(4, kind), (12, 0), (16, s.holding.moduleId.toNat), (32, entries), (64, s.counters.nextSeq),
    (64, s.clock.now), (64, s.run.head.toNat), (64, (s.run.seedbedHead.getD 0).toNat)])

/-- A counter record of listed IDs. -/
def counterRecord (s : State) (ids : List Nat) : Bytes :=
  padMul 64 (sampleHeader s 0 ids.length ++ ids.flatMap fun i => leBytes 8 (counterValue s i))

/-- The tile on a core: the run of a kind for cores that has started there. -/
def tileOn (s : State) (core : Nat) : Option TaskInst :=
  s.sched.tasks.find? fun t => t.started && t.unit == core && unitOf s t == 0

/-- A task waits with its contribution for a pending block that belongs to another step (06 R115). -/
def waitsForBlock (s : State) (t : TaskInst) : Bool :=
  match segmentOf s t.seg, taskRecOf s t with
  | some g, some r => (g.stats[r.record]?).any fun st => t.contributions.any fun c =>
      let h := statHeader s (.task t.step true) st.pendingT c.1
      h.state != 0 && h.step != t.step
  | _, _ => false

/-- Stall state of a core that holds a tile: seedbed hold or operand wait where its task waits for a pending block (06 R115); else
what was captured, or running, or running with the clock lowered. -/
def stallOf (s : State) (t : TaskInst) (seen : Option PcSeen) : Nat :=
  if waitsForBlock s t then (if heldBySeedbed s t.step then 7 else 1)
  else match seen with
  | some x => if 1 ≤ x.stall ∧ x.stall ≤ 8 then x.stall else if clockStep s.power = 0 then 0 else 9
  | none => if clockStep s.power = 0 then 0 else 9

/-- One program-counter entry. -/
def pcEntry (s : State) (seen : List PcSeen) (core : Nat) : Bytes :=
  let x := seen.find? fun x => x.core == core
  match tileOn s core with
  | some t =>
    leBytes 16 (pack [(32, t.task.toNat), (3, t.stream), (1, b2n t.seedbed), (4, stallOf s t x), (12, core),
      (11, (x.map (·.pc)).getD 0x7FF), (1, 0), (64, t.step)])
  | none => leBytes 16 (pack [(32, 0xFFFFFFFF), (3, 0), (1, 0), (4, 10), (12, core), (11, 0x7FF)])

/-- A program-counter batch: every enabled, unretired core in ascending ID. -/
def pcRecord (s : State) (seen : List PcSeen) : Bytes :=
  let cores := (List.range 4096).filter (coreEnabled s)
  padMul 64 (sampleHeader s 1 cores.length ++ cores.flatMap fun c => pcEntry s seen c)

/-! ### The sample area (R364) -/

/-- The host address of this module's area. -/
def sampleArea (s : State) : Nat := s.counters.cfg.base + ownRank s * s.counters.cfg.stride

/-- Bytes written at an offset of the area. -/
def toSamples (off : Nat) (bs : Bytes) (s : State) : State :=
  if s.counters.cfg.host then masterWrite (sampleArea s + off) bs s
  else { s with counters.localArea := tsetBytes s.counters.localArea off bs }

/-- PRODUCED and NEXT_SEQ in the control block. -/
def sampleControl (s : State) : State :=
  toSamples 0 (leBytes 8 s.counters.produced ++ leBytes 8 s.counters.nextSeq) s

/-- Records the ring no longer holds whole leave it; those that the reader has not consumed count as overwritten. -/
def trimRecords : Nat → Counters → Counters
  | 0, c => c
  | n + 1, c =>
    let total := (c.records.map (·.2)).foldl (· + ·) 0
    match c.records with
    | [] => c
    | r :: rest =>
      if total ≤ c.cfg.size then c
      else
        let lost := if c.consumed < c.produced - total + r.2 then 1 else 0
        trimRecords n { c with
          records := rest, overwritten := c.overwritten + lost, wrapCount := c.wrapCount + lost }

/-- SAMPLE_BUFFER_WRAP, at most once a second. -/
def wrapEvent (s : State) : State :=
  let due := match s.counters.wrapAt with
    | some t => decide (t + ms 1000 ≤ s.clock.up)
    | none => true
  if s.counters.wrapCount ≠ 0 ∧ due = true then
    let oldest := ((s.counters.records.head?).map (·.1)).getD s.counters.nextSeq
    raise evSampleBufferWrap (pack [(32, s.counters.wrapCount), (32, oldest)])
      { s with counters.wrapCount := 0, counters.wrapAt := some s.clock.up }
  else s

/-- A record written: its bytes, then the control block; while host writes are suspended it counts as overwritten
(R373). -/
def writeSample (bs : Bytes) (s : State) : State :=
  let c := s.counters
  if c.suspended && c.cfg.host then
    { s with counters := { c with nextSeq := c.nextSeq + 1, overwritten := c.overwritten + 1 } }
  else
    let o := c.produced % c.cfg.size
    let s := toSamples (4096 + o) (bs.take (c.cfg.size - o)) s
    let rest := bs.drop (c.cfg.size - o)
    let s := if rest.isEmpty then s else toSamples 4096 rest s
    let records := c.records ++ [(c.nextSeq, bs.length)]
    let c' := { s.counters with produced := c.produced + bs.length, nextSeq := c.nextSeq + 1, records := records }
    wrapEvent (sampleControl { s with counters := trimRecords records.length c' })

/-- CONSUMED as the reader has written it: in host memory, or in the local area. -/
def takeConsumed (v : W64) (s : State) : State :=
  { s with counters.consumed :=
      if s.counters.cfg.host then v.toNat else leNat (tgetBytes s.counters.localArea 16 8) }

/-- The counter record due now. -/
def takeCounterRecord (s : State) : State :=
  writeSample (counterRecord s s.counters.cfg.ids)
    { s with counters.lastAt := s.clock.up, counters.lastHead := s.run.head }

/-! ### Rows of the sampler -/

/-- A counter record every INTERVAL, in time or in furrow distance. The furrow form has no bound in time beside it: R31 says that
every such wait has one, and no rule of 17 gives this one (DESIGN CHOICE, log entry 39). -/
def counterSample (consumed : W64) (s : State) : State :=
  let c := s.counters
  let due := if c.cfg.furrow then distanceReached s.run.head c.lastHead c.cfg.interval
    else decide (c.lastAt + c.cfg.interval ≤ s.clock.up)
  if c.cfg.enable && due then takeCounterRecord (takeConsumed consumed s) else s

/-- A batch every PC_INTERVAL. -/
def pcSample (seen : List PcSeen) (consumed : W64) (s : State) : State :=
  let c := s.counters
  if c.cfg.enable && c.cfg.pc && decide (c.lastPcAt + us c.cfg.pcInterval ≤ s.clock.up) then
    let s := takeConsumed consumed { s with counters.lastPcAt := s.clock.up }
    writeSample (pcRecord s seen) s
  else s

def execCounterSample (consumed : W64) (s : State) : Answer := .next (counterSample consumed s)

def execPcSample (seen : List PcSeen) (consumed : W64) (s : State) : Answer := .next (pcSample seen consumed s)

/-! ### COUNTER_CONFIGURE applied -/

/-- Configure: a new area, records from 1; in furrow form the first record is taken at once (R365). -/
def configureCounters (b : Bytes) (s : State) : State :=
  let cfg := sampleCfgOf b
  let c := { s.counters with
    cfg := cfg, nextSeq := 1, produced := 0, overwritten := 0, consumed := 0, wrapCount := 0, wrapAt := none,
    records := [], lastAt := s.clock.up, lastHead := s.run.head, lastPcAt := s.clock.up }
  let s := { s with counters := c }
  if cfg.enable then
    let s := sampleControl s
    if cfg.furrow then takeCounterRecord s else s
  else s

/-- Listed counters cleared; with none listed, every counter but the stones counts. -/
def clearCounters (ids : List Nat) (s : State) : State :=
  if ids.isEmpty then
    { s with counters.values := s.counters.values.filter fun e =>
        decide (4 * 0x400 ≤ e.1) && decide (e.1 < 4 * 0x460) }
  else { s with counters.values := ids.foldl (fun t i => tset 0 t i 0) s.counters.values }

/-- The four words of the status. -/
def counterStatus (s : State) : Bytes :=
  leBytes 8 s.counters.nextSeq ++ leBytes 8 s.counters.produced ++ leBytes 8 s.counters.overwritten ++
    leBytes 8 (sampleLocalAt s)

/-- This module's part of a result area, by its place among the targets. -/
def resultAt (ms : List ModId) (d : Desc) (bs : Bytes) (s : State) : State :=
  if dAt d 24 8 = 0 then s
  else masterWrite (dAt d 24 8 + ((rankOf ms s.holding.moduleId).getD 0) * bs.length) bs s

/-- A block applied on a target. -/
def applyCounters (ms : List ModId) (d : Desc) (b : Bytes) (s : State) : State :=
  match byteAt b 0 with
  | 0 => configureCounters b s
  | 1 => resultAt ms d (counterRecord s (blockIds b)) s
  | 2 => clearCounters (blockIds b) s
  | _ => resultAt ms d (counterStatus s) s

/-! ### TRACE_CONFIGURE (R369) -/

/-- The event codes of 13 R287. -/
def eventCodes : List Nat :=
  [0x0001, 0x0101, 0x0102, 0x0103, 0x0104, 0x0201, 0x0202, 0x0203, 0x0204, 0x0301, 0x0302, 0x0303, 0x0304, 0x0401, 0x0402,
   0x0403, 0x0501, 0x0502, 0x0503, 0x0601, 0x0602, 0x0701, 0x0702, 0x0703, 0x0801, 0x0802, 0x0901]

def traceCodes (b : Bytes) : List Nat := (List.range 8).map fun i => field b (32 + 2 * i) 2

/-- A block as it stands alone. -/
def traceBlockOk (b : Bytes) : Bool :=
  b.length == 64 && decide (byteAt b 0 ≤ 3) &&
  (if byteAt b 0 = 0 then
    byteAt b 1 == 0 && bits (field b 2 2) 9 6 == 0 && decide (byteAt b 4 ≤ 7) && bits (byteAt b 5) 4 4 == 0 &&
    zeroAt b 6 2 && !posMalformed (BitVec.ofNat 64 (field b 8 8)) &&
    (!bitOf (byteAt b 5) 3 || !counterReserved (field b 16 2)) && zeroAt b 18 6 && zeroAt b 48 16 &&
    (traceCodes b).all fun c => c == 0 || eventCodes.contains c
  else zeroAt b 1 63)

/-- The sheaf armed: the entry index, the counts and the triggers restart; a position already reached does not fire. -/
def armSheaf (s : State) : State :=
  let h := s.sheaf
  { s with sheaf := { h with
      state := 1, writeIndex := 0, triggerIndex := 0, freezeIndex := 0, freezeAt := 0, tailIndex := 0, lost := 0,
      ignored := 0, dropped := 0, cause := (0, 0), held := [], counterHit := false,
      positionHit := decide (h.position.toNat ≤ s.run.head.toNat) } }

/-- The sheaf configured and armed. -/
def configureSheaf (b : Bytes) (s : State) : State :=
  let h := { s.sheaf with
    mask := BitVec.ofNat 16 (field b 2 2), preEighths := byteAt b 4, triggers := bits (byteAt b 5) 0 4,
    position := BitVec.ofNat 64 (field b 8 8), counter := field b 16 2,
    threshold := BitVec.ofNat 64 (field b 24 8), codes := (traceCodes b).filter (· != 0) }
  armSheaf { s with sheaf := h }

/-- The status, in words of eight bytes in the order R369 lists it (log entry 7). -/
def sheafStatus (s : State) : Bytes :=
  let h := s.sheaf
  [h.state, h.writeIndex, h.triggerIndex, h.freezeIndex, h.tailIndex, h.lost, h.ignored, sheafAt s].flatMap (leBytes 8)

/-- A block applied on a target. -/
def applyTrace (ms : List ModId) (d : Desc) (b : Bytes) (s : State) : State :=
  match byteAt b 0 with
  | 0 => configureSheaf b s
  | 1 => armSheaf s
  | 2 => { s with sheaf.state := 0 }
  | _ => resultAt ms d (sheafStatus s) s

/-! ### Rows of the sheaf -/

/-- The counter threshold tested every microsecond (R370). -/
def sheafThresholdTest (s : State) : State :=
  let h := s.sheaf
  if h.state ≠ 0 ∧ h.counterHit = false ∧ h.triggers.testBit 3 = true ∧ h.threshold.toNat ≤ counterValue s h.counter then
    -- a speculative counter's crossing is seedbed work's (09 R191)
    sheafTriggerOf (h.counter % 4 == 1) 3 h.counter { s with sheaf.counterHit := true }
  else s

/-- The ring freezes once the entries after the trigger are written (R371). -/
def sheafFreeze (s : State) : State :=
  let h := s.sheaf
  if h.state = 2 ∧ h.freezeAt ≤ h.writeIndex then
    raise evTraceFrozen (pack [(4, h.cause.1), (12, 0), (16, h.cause.2), (32, h.triggerIndex)])
      { s with sheaf := { h with state := 3, freezeIndex := h.writeIndex } }
  else s

def execSheafThresholdTest (s : State) : Answer := .next (sheafThresholdTest s)

def execSheafFreeze (s : State) : Answer := .next (sheafFreeze s)

end Sys2Proof.Machine
end

