-- ==== Sys2Proof/Machine/Setup.lean ====
section
/-!
DEFINITION. The register rows: plain writes, the fields whose write acts, forwarded writes, and the BAR4 window (13 R266
to R268, 20 R409 to R412, R416, R418).
-/
namespace Sys2Proof.Machine

open Sys2Proof

/-- A write of holding scope that had an effect at the master goes to every member (20 R411). -/
def forwardSetup (offset len : Nat) (value : W64) (before after : State) : State :=
  let changed := before.holding.specDepth != after.holding.specDepth || before.mem.staged != after.mem.staged ||
    before.mem.reservedSize != after.mem.reservedSize || before.numerics != after.numerics ||
    before.harrows != after.harrows || before.tmo != after.tmo || before.tmoNext != after.tmoNext
  if before.holding.isMaster && holdingScope (offset / 8 * 8) && changed then
    sendHedge everyone (.setupWrite offset len value) after
  else after

/-- A BAR0 write of 4 or 8 bytes (20 R410); on a module that does not control its setup, only the data-channel fields take
it (13 R268). -/
def execRegisterWrite (offset len : Nat) (value : W64) (s : State) : Answer :=
  .next (if accessOk offset len then
    if hostControls s then forwardSetup offset len value s (writeRegister offset len value.toNat s)
    else if offset / 8 * 8 = 0x10030 then
      let word := mergeWord (bar0Word s 0x10030) offset len value.toNat
      { s with host.ctx := writeDataChannel word s.host.ctx }
    else s
  else s)

/-- The bits of the word at `o` that a write of `len` bytes carries as 1. -/
def writtenBit (o len v i : Nat) : Bool := bitOf (mergeWord 0 o len v) i

/-- TRAP_ARMED written 1, in the cycle of the present time (00 R5; log entry 81). -/
def armTrap (s : State) : State := { s with numerics.trapArmed := true, numerics.armedAt := some s.clock.up }

/-- A write forwarded by the holding master (20 R411, R412): SETUP_LOCK, a holding reset, or a field of holding scope, with
TRAP_ARMED where the word carries it (log entry 15). -/
def execSetupWrite (offset len : Nat) (value : W64) (s : State) : Answer :=
  .next (if accessOk offset len && s.assigned && !s.holding.isMaster then
    let a := offset / 8 * 8
    if a = 0x18 then (if writtenBit offset len value.toNat 0 then lockRegisters s else s)
    else if a = 0x20010 then (if writtenBit offset len value.toNat 1 then holdingLevel s else s)
    else if holdingScope a then
      let s := writeRegister offset len value.toNat s
      if a = 0x40000 && writtenBit offset len value.toNat 5 then armTrap s else s
    else s
  else s)

/-- TRAP_ARMED is W1S and of holding scope (04 R85, 20 R418). -/
def execTrapArmed (s : State) : Answer :=
  .next (if hostControls s then
    let t := armTrap s
    -- a write that has no effect at the master is not sent (20 R411)
    if s.holding.isMaster && !s.numerics.trapArmed then sendHedge everyone (.setupWrite 0x40000 8 (BitVec.ofNat 64 (numericsWord t.numerics))) t else t
  else s)

/-- HOLDING_RESET, ignored on a module that is not the master: every module of the holding, and of every holding of its
run (19 R404, 20 R415). -/
def resetHolding (s : State) : State :=
  if s.holding.isMaster then holdingLevel (sendHedge everyone (.setupWrite 0x20010 8 2) s) else s

def execHoldingReset (s : State) : Answer := .next (if hostControls s then resetHolding s else s)

/-- TIME_OFFSET acts only on the run lead master; it adds to what is still slewing (20 R416). -/
def execTimeOffset (value : W64) (s : State) : Answer :=
  .next (if hostControls s && s.isLead then
    { s with clock.offset := s.clock.offset + value.toInt } else s)

/-- TIME_RATE acts only on the run lead master; beyond 200 ppm it is out of range (20 R415, R416). -/
def execTimeRate (value : W32) (s : State) : Answer :=
  .next (if hostControls s && s.isLead && decide (value.toInt.natAbs * 1000000 ≤ 200 * 2 ^ 32) then
    { s with holding.timeRate := value } else s)

/-- The module writes nothing to the host window where the manual counts an address error: 17 R362 slot 0x2E4. -/
def slotBar4Error : Nat := 0x2E4

/-- Refused BAR4 stores, 17 R362 slot 0x2E5. -/
def slotBar4Refused : Nat := 0x2E5

/-- A load completion. -/
def loadAnswer (bs : Bytes) (poison : Bool) (s : State) : State := { s with out.loads := s.out.loads ++ [(bs, poison)] }

/-- The Lamio target of a BAR4 range, when it names this module and lies in its address space. -/
def windowTarget (s : State) (offset len : Nat) : Option (ModId × Nat) :=
  match lamioTarget s (s.host.ctx.windowBase.toNat + offset) with
  | some (m, o) => if m = s.holding.moduleId ∧ s.mem.capacity < o + len then none else some (m, o)
  | none => none

/-- A BAR4 load: the current version; all bytes 0xFF, counted, on an address error; a poisoned line in a completion marked
poisoned (11 R224, 13 R267). A load from a peer is a read of each line without a context word, answered by READ_RESP
(14 R309). -/
def execBar4Load (offset len : Nat) (s : State) : Answer :=
  .next (match windowTarget s offset len with
    | none => loadAnswer (List.replicate len 0xFF) false (count slotBar4Error 1 s)
    | some (m, o) =>
      if m = s.holding.moduleId then
        loadAnswer (localBytes s .plain o len) (!(poisonedIn s o len).isEmpty) (touch false o len s)
      else
        (lineParts o len).foldl (fun s x =>
          (issue ptReadReq m (o + x.1) (ceilDiv x.2 8) [] false none none true s).2) s |> answerUnreached)

/-- A BAR4 store line by line in ascending address: effective before RUN_BEGIN, at a cut, or on bytes no tensor covers;
otherwise discarded and counted (11 R224, 13 R267). -/
def execBar4Store (offset : Nat) (data : Bytes) (s : State) : Answer :=
  .next (match windowTarget s offset data.length with
    | none => count slotBar4Error 1 s
    | some (m, o) =>
      (lineParts o data.length).foldl (fun s x =>
        let part := slice data x.1 x.2
        if m = s.holding.moduleId then
          if touchesReserved s (o + x.1) x.2 then count slotBar4Error 1 s
          else if plainWriteAllowed s (o + x.1) x.2 then writeNow (o + x.1) part false s
          else count slotBar4Refused 1 s
        else answerUnreached (issue ptWrite m (o + x.1) (ceilDiv x.2 8) (padMul 8 part) false none none true s).2) s)

end Sys2Proof.Machine
end

