-- ==== Sys2Proof/Machine/Descriptors.lean ====
section
/-!
DEFINITION. What each opcode of 13 R277 does at the order point: its checks in the order of R282 or of its own table, and its
effect; what a module does with an order that another module has accepted.
-/
namespace Sys2Proof.Machine

open Sys2Proof

/-! ### Shared checks -/

/-- The status of a host access that failed (13 R278). -/
def hostStatus : HostData → Nat
  | .ok _ => stOk
  | .timeout => stTimeout
  | _ => stMalformed

/-- Modules an order goes to beside this one. -/
def othersOf (s : State) (ms : List ModId) : List ModId :=
  ms.filter fun m => m != s.holding.moduleId && !s.holding.lost.contains m

/-- An order that acts on listed modules: sent to the others; it completes when each has answered (13 R280). -/
def toTargets (ms : List ModId) (op : DescOp) (d : Desc) (status detail : Nat) (s : State) : State × Result :=
  match othersOf s ms with
  | [] => (s, .done status detail)
  | l => (l.foldl (fun s m => sendHedge m (.orderForward (asOrder op d s)) s) s, .later (.targets l status detail))

/-- A descriptor without a COUNT (13 R276). -/
def noCount (d : Desc) : Bool := d.count == 0

/-- Tensors whose home on a module the range touches, as far as this module's records say. -/
def tensorsOn (s : State) (m : ModId) (off len : Nat) : List (Nat × TensorRec) :=
  if m = s.holding.moduleId then tensorsAt s off len
  else (definedTensors s).filter fun e =>
    (if e.2.sharded then (membersOf s e.2.shardGroup).contains m
     else e.2.homeModule == everyone || e.2.homeModule == m) && overlap off len e.2.homeOffset e.2.bytes

/-! ### Graphs and tensors (12 R243, R245, 13 R277) -/

/-- The segment a GRAPH_SUBMIT names; COUNT equals SEGMENT_BYTES. -/
def segmentBytes (d : Desc) : Except Nat Bytes :=
  if dAt d 16 8 % 64 ≠ 0 ∨ dZeroFrom d 24 = false then .error stMalformed
  else match d.data with
    | .ok b => if b.length < d.count.toNat ∨ field b 32 4 ≠ d.count.toNat then .error stMalformed
        else .ok (b.take d.count.toNat)
    | x => .error (hostStatus x)

def accepted (x : State × Result) : Bool :=
  match x.2 with
  | .done st _ => st == stOk
  | _ => true

/-- An accepted order goes to the modules it acts on. -/
def spreadIf (op : DescOp) (d : Desc) (x : State × Result) : State × Result :=
  if accepted x then (spread op d x.1, x.2) else x

def runGraphSubmit (d : Desc) (s : State) : State × Result :=
  match segmentBytes d with
  | .error e => refuse e s
  | .ok b => spreadIf .graphSubmit d (submitGraph true b s)

/-- Another held segment names one of this segment's tensors. -/
def namedElsewhere (s : State) (n : Nat) (g : Segment) : Bool :=
  (heldSegments s).any fun e => e.1 != n &&
    (namedTensors e.2).any fun i => decide (g.tensorBase ≤ i) && decide (i < g.tensorBase + g.tensors.length)

/-- GRAPH_RETIRE executed: the segment is retiring until the boundary. -/
def retireSegment (n : Nat) (s : State) : State :=
  { s with graph.dir := tmod {} s.graph.dir n fun e => { e with state := 3 } }

def runGraphRetire (d : Desc) (s : State) : State × Result :=
  let n := dAt d 16 1
  if !noCount d || !dZeroFrom d 17 then refuse stMalformed s
  else
    match (tget {} s.graph.dir n).segment with
    | none => refuse stStateConflict s
    | some g =>
      if namedElsewhere s n g then refuse stStateConflict s
      else if (tget {} s.graph.dir n).lastStep ≠ 0 then accept 0 s
      else (spread .graphRetire d (retireSegment n s), .later (.retire n))

/-- The tensor record of a TENSOR_DEFINE: well formed alone, and by 08 R150 alone on its pages among the tensors already
defined (log entry 79). -/
def tensorOf (s : State) (d : Desc) : Except Nat TensorRec :=
  if d.count ≠ 64 ∨ dZeroFrom d 30 = false ∨ 524288 ≤ dAt d 24 4 then .error stMalformed
  else match d.data with
    | .ok b =>
      let b := padTo 64 b
      let t := placeTensor s (dAt d 28 2) (parseTensor b)
      if !tensorBytesOk b || !tensorShardOk (membersOf s t.shardGroup).length t || homeBad s t ||
          !pagesAlone s ((dAt d 24 4, t) :: (definedTensors s).filter fun e => e.1 != dAt d 24 4) then .error stMalformed
      else .ok t
    | x => .error (hostStatus x)

/-- The tensor defined, and pinned where its record says so. -/
def defineTensor (i group : Nat) (t : TensorRec) (s : State) : State :=
  let s := { s with
    graph.tensors := tset none s.graph.tensors i (some t)
    graph.tensorGroups := tset 0xFFFF s.graph.tensorGroups i group
    -- its words at the last commit, and the keyframe it has had, are those of another tensor (16 R342, R343)
    exporter.images := s.exporter.images.filter fun x => x.1 != i
    exporter.keyed := s.exporter.keyed.filter fun x => x.1 != i }
  if t.pinned then pinTensor t.pinFar t s else s

def runTensorDefine (d : Desc) (s : State) : State × Result :=
  let i := dAt d 24 4
  let g := dAt d 28 2
  match tensorOf s d with
  | .error e => refuse e s
  | .ok t =>
    if groupOutside s g && !s.isLead then refuse stNotPermitted s
    else if !s.quiet || (g != 0xFFFF && (groupOf s g).isNone) || (findTensor s i).isSome then refuse stStateConflict s
    else (spread .tensorDefine d (defineTensor i g t s), .done stOk 0)

/-- The tensor no longer defined. -/
def releaseTensor (i : Nat) (s : State) : State :=
  { s with
    graph.tensors := tset none s.graph.tensors i none
    graph.tensorGroups := tset 0xFFFF s.graph.tensorGroups i 0xFFFF }

/-- The MODULE_GROUP of a defined tensor has members outside the holding. -/
def releaseOutside (s : State) (i : Nat) : Bool :=
  (tget none s.graph.tensors i).isSome && groupOutside s (tget 0xFFFF s.graph.tensorGroups i)

def runTensorRelease (d : Desc) (s : State) : State × Result :=
  let i := dAt d 24 4
  if !noCount d || !dZeroIn d 16 8 || !dZeroFrom d 28 then refuse stMalformed s
  else if releaseOutside s i && !s.isLead then refuse stNotPermitted s
  else if !s.quiet || (tget none s.graph.tensors i).isNone ||
      (heldSegments s).any fun e => (namedTensors e.2).contains i then
    refuse stStateConflict s
  else (spread .tensorRelease d (releaseTensor i s), .done stOk 0)

/-! ### The run (02 R29, R35 to R43, 13 R279, 01 R19) -/

/-- The advance limit raised to a target (02 R29). -/
def raiseLimit (t : Pos) (s : State) : State :=
  match s.run.advanceLimit with
  | some l => if l.toNat < t.toNat then { s with run.advanceLimit := some t } else s
  | none => s

def runFurrowAdvance (d : Desc) (s : State) : State × Result :=
  let t : Pos := BitVec.ofNat 64 (dAt d 16 8)
  if !noCount d || !dZeroFrom d 24 || posMalformed t then refuse stMalformed s
  else if s.run.isOn && !s.isLead then refuse stNotPermitted s
  else if !s.run.isOn || !s.run.modes.getD 1 false then refuse stStateConflict s
  else (spread .furrowAdvance d (raiseLimit t s), .done stOk 0)

/-- The halt stands. -/
def State.halted (s : State) : Bool := s.run.isOn && s.run.halt != .running

/-- The stop order of a STOP. -/
def stopOf (kind holding : Nat) (d : Desc) : StopMsg :=
  ⟨dAt d 24 1 == 0, BitVec.ofNat 64 (dAt d 16 8), kind, holding⟩

/-- A position is malformed wherever it is supplied (R23), as the target of an immediate stop too. -/
def stopMalformed (d : Desc) : Bool :=
  !noCount d || !dZeroFrom d 25 || decide (1 < dAt d 24 1) ||
    posMalformed (BitVec.ofNat 64 (dAt d 16 8))

/-- STOP at the lead master's order point (R36, R38): the run is halted once every module is. -/
def runStop (kind holding : Nat) (d : Desc) (s : State) : State × Result :=
  let m := stopOf kind holding d
  if stopMalformed d then refuse stMalformed s
  else if !s.run.isOn then refuse stStateConflict s
  else if s.halted && (haltKnown s || s.run.halt != .cut) then
    if m.scheduled then refuse stStateConflict s
    else if haltKnown s then accept (runModules s).length s
    else (s, .later (.stop false m.target))
  else if m.scheduled && decide (m.target.toNat ≤ s.run.head.toNat) then refuse stStateConflict s
  else
    let s := orderStop m s
    if s.run.halt == .smear && haltKnown s then (s, .done stOk (runModules s).length)
    else (s, .later (.stop m.scheduled m.target))

/-- The lead master's resume of a run halted in a smear: a module that missed the outcome of the last committed step is told its
record first (R42 step 1); the order's stamp is where the modules are to stand. -/
def orderRollBack (d : Desc) (s : State) : State :=
  let first := resumeStep s
  let s := match s.votes.ring.find? fun e => e.1 + 1 == first && e.2.1.outcome == outCommit with
    | some e => sendHedge everyone (.voteOutcome e.2.1) s
    | none => s
  let o := { asOrder .resume d s with stamp := posOf first passF 0 }
  sendHedge everyone (.orderForward o) (applyResume first s)

/-- RESUME at the lead master's order point (R41 to R43, 10 R217). -/
def runResume (d : Desc) (s : State) : State × Result :=
  if !noCount d || !dZeroFrom d 16 then refuse stMalformed s
  else if !s.halted || s.run.halt == .noLead || [1, 2, 5, 6].contains s.holding.restore || !haltKnown s || !reformed s then
    refuse stStateConflict s
  else if s.run.halt == .cut then (spread .resume d (releaseCut s), .done stOk 0)
  else
    let s := orderRollBack d { s with run.holdResume := false }
    if rolledBack s then (s, .done stReplayedOk 0) else (s, .later .resume)

def modeMalformed (d : Desc) : Bool :=
  !noCount d || !dZeroFrom d 18 || decide (9 < dAt d 16 1) || decide (1 < dAt d 17 1)

/-- MODE_SET waits for the boundary (01 R19). -/
def setMode (f : Nat) (host : Bool) (s : State) : State :=
  { s with run.pendingModes := s.run.pendingModes ++ [(f, host)] }

/-- MODE_SET at the module that orders it. Functions 1, 5 and 6 are the lead master's during a run (`issueWide`); before one there is
no lead master, and they act on this holding as the others do (R20; DEDUCED, log entry 89). -/
def runModeSet (d : Desc) (s : State) : State × Result :=
  if modeMalformed d then refuse stMalformed s
  else (spread .modeSet d (setMode (dAt d 16 1) (dAt d 17 1 == 1) s), .done stOk 0)

/-- The first three rows of R178. -/
def voteSupplyFirst (d : Desc) (s : State) : Option Nat :=
  if !noCount d || !dZeroFrom d 25 || decide (2 < dAt d 24 1) then some stMalformed
  else if s.run.isOn && !s.isLead then some stNotPermitted
  else if !s.run.isOn || !s.run.modes.getD 5 false then some stStateConflict
  else none

/-- VOTE_SUPPLY once the reduction is complete (R178). -/
def runVoteSupply (d : Desc) (s : State) : State × Result :=
  match voteSupplyFirst d s with
  | some st => refuse st s
  | none =>
    let step := dAt d 16 8
    let outcome := dAt d 24 1
    let v := voteRecord step outcome true false s
    if s.votes.openStep != some step || s.votes.decided.isSome || !reductionComplete s || s.halted then
      refuse stStateConflict s
    else if outcome ≠ outRetry ∧ operationalBits v.bits ≠ 0 then refuse stStateConflict s
    else (takeDecision v s, .done stOk 0)

/-! ### RUN_BEGIN (13 R279) -/

/-- Bytes 16 to 35, which every holding master's RUN_BEGIN shares. -/
def beginBytes (d : Desc) : Bytes := slice d.body 0 20

/-- Decisions of a replay log for the run's first step; a log for any other step is discarded (16 R355). -/
def keepReplay (n : Nat) (s : State) : State :=
  { s with harrows.replay := s.harrows.replay.filter fun r => r.1 == n }

/-- The run begins on a module: halted at a cut at START (R35). That cut is no halt of a stop: it writes no stop map and raises no
GLOBAL_STOP (DESIGN CHOICE, log entry 88: the spec is silent). -/
def beginRun (lead : ModId) (d : Desc) (s : State) : State :=
  let start : Pos := BitVec.ofNat 64 (dAt d 16 8)
  let n := stepOf start
  let first := fun (e : Nat × DirEntry) =>
    if e.2.state = 1 ∧ e.2.firstStep < n then (e.1, { e.2 with firstStep := n }) else e
  let r : Run :=
    { isOn := true, start := start, seed := BitVec.ofNat 64 (dAt d 24 8), firstHolding := dAt d 32 2,
      holdingCount := dAt d 34 2, leadHolding := dAt d 32 2, leadModule := lead, masters := s.run.masters, head := start, headAt := s.clock.up,
      halt := .cut, modes := s.run.modes, pendingModes := s.run.pendingModes, held := s.run.held, jobs := s.run.jobs,
      finished := if n = 0 then none else some (n - 1) }
  let s := { lockRegisters s with
    run := r
    graph.dir := s.graph.dir.map first
    exporter.chainStep := none
    exporter.images := [] }
  -- the one step of the timestamp (02 R34), forward only; what is left of a correction backward is slewed in
  let s := if s.isLead || s.clock.offset < 0 then s
    else { s with clock.now := s.clock.now + s.clock.offset.toNat, clock.frac := 0, clock.offset := 0 }
  sow (createStep n (openVote n 0 (keepReplay n s)))

/-- The holdings of the run whose masters have issued RUN_BEGIN. -/
def allBegun (d : Desc) (s : State) : Bool :=
  (List.range (dAt d 34 2)).all fun i => s.run.begun.any fun (b : Nat × Bytes) => b.1 == dAt d 32 2 + i

def isBegin (j : Job) : Bool :=
  match j.kind with
  | .runBegin => true
  | _ => false

/-- A holding master with a RUN_BEGIN of a holding: any difference ends them all; the lead master begins the run when it holds
one of every holding. -/
def takeBegin (holding : Nat) (d : Desc) (s : State) : State :=
  let s := { s with run.begun := (s.run.begun.filter fun (b : Nat × Bytes) => b.1 != holding) ++ [(holding, beginBytes d)] }
  let differ := s.run.begun.any fun (b : Nat × Bytes) => b.2 != beginBytes d
  if !s.run.jobs.any isBegin then s
  else if differ then finishJobs isBegin stStateConflict 0 { s with run.begun := [] }
  else if dAt d 32 2 = s.holding.number.toNat ∧ allBegun d s then
    let s := spread .runBegin d (sendHedge everyone (.timestampSync (BitVec.ofNat 64 s.clock.now)) s)
    finishJobs isBegin stOk (dAt d 34 2) (beginRun s.holding.moduleId d s)
  else s

def beginMalformed (d : Desc) (s : State) : Bool :=
  let p : Pos := BitVec.ofNat 64 (dAt d 16 8)
  let h := s.holding.number.toNat
  !noCount d || !dZeroFrom d 36 || posMalformed p || passOf p != passF || slotOf p != 0 || dAt d 34 2 == 0 ||
    decide (1024 < dAt d 34 2) || decide (1023 < dAt d 32 2) || decide (h < dAt d 32 2) ||
    decide (dAt d 32 2 + dAt d 34 2 ≤ h)

def runRunBegin (d : Desc) (s : State) : State × Result :=
  if beginMalformed d s then refuse stMalformed s
  else if s.run.isOn || s.security.state == 2 || s.holding.state != 2 || s.run.jobs.any isBegin then refuse stStateConflict s
  else if dAt d 32 2 = s.holding.number.toNat then
    -- the job is put in place first, so that the lead's own descriptor is among those that complete
    if dAt d 34 2 = 1 then
      let s := spread .runBegin d (sendHedge everyone (.timestampSync (BitVec.ofNat 64 s.clock.now)) s)
      accept 1 (beginRun s.holding.moduleId d s)
    else (s, .later (.runBegin))
  else (spread .runBegin d s, .later (.runBegin))

/-! ### Groups (10 R194 to R196, R217) -/

/-- The members of a definition reach outside the holding (10 R196). -/
def definitionOutside (s : State) (b : Bytes) : Bool :=
  (definedMembers s b).any fun m => !inHolding s.holding m

/-- A collective of the group is in flight here. -/
def groupBusy (s : State) (g : Nat) : Bool := s.coll.live.any fun c => c.group == g

/-- Halted, or before RUN_BEGIN. -/
def still (s : State) : Bool := !s.run.isOn || s.halted

/-- The definition sent out; it completes when every member holds it. -/
def defineGroup (b : Bytes) (epoch : Nat) (s : State) : State × Result :=
  match spreadGroup b epoch s with
  | (s, []) => (reportReformed s, .done stOk epoch)
  | (s, ms) => (reportReformed s, .later (.group (field b 0 2) epoch ms))

def runGroupDefine (d : Desc) (s : State) : State × Result :=
  let b := d.body
  let g := field b 0 2
  let held := (groupOf s g).isSome
  if !noCount d || groupBad s.holding b || (definedMembers s b).isEmpty then refuse stMalformed s
  else if definitionOutside s b && !s.isLead then refuse stNotPermitted s
  else if held && (groupBusy s g || !still s) then refuse stStateConflict s
  else if !held && decide (4096 ≤ (s.coll.groups.filter fun e => e.2.isSome).length) then refuse stStateConflict s
  else defineGroup b 0 s

/-- The modules that EXCLUDE names anew, and those it names no longer, in ascending ID. -/
def memberChanges (old new : Bytes) : List (ModId × Bool) :=
  let a := (excludedIds old).eraseDups
  let b := (excludedIds new).eraseDups
  let out := (b.filter fun m => !a.contains m).map fun m => (m, false)
  let in_ := (a.filter fun m => !b.contains m).map fun m => (m, true)
  sortBy (fun (x y : ModId × Bool) => decide (x.1.toNat ≤ y.1.toNat)) (out ++ in_)

def runGroupReform (d : Desc) (s : State) : State × Result :=
  let b := d.body
  let g := field b 0 2
  if !noCount d || groupBad s.holding b || (definedMembers s b).isEmpty then refuse stMalformed s
  else if definitionOutside s b && !s.isLead then refuse stNotPermitted s
  else
    match groupOf s g with
    | none => refuse stStateConflict s
    | some x =>
      if slice b 4 9 ≠ slice x.def48 4 9 then refuse stMalformed s
      else if !still s then refuse stStateConflict s
      else
        let epoch := (x.epoch + 1) % 2 ^ 16
        let r := defineGroup b epoch s
        ((memberChanges x.def48 b).foldl (fun s c =>
          raise evGroupReformed (reformedDetail g epoch c.1 c.2 true) s) r.1, r.2)

/-! ### COPY_IN and COPY_OUT (13 R278) -/

/-- The module and local offset a copy names, its range within the address space. -/
def copyTarget (s : State) (d : Desc) : Option (ModId × Nat) :=
  match lamioTarget s (dAt d 24 8) with
  | some (m, o) => if s.mem.capacity < o + d.count.toNat then none else some (m, o)
  | none => none

/-- VIA as a module. -/
def viaOf (s : State) (d : Desc) : ModId :=
  let v : ModId := BitVec.ofNat 16 (dAt d 32 2)
  if v = everyone then s.holding.moduleId else v

/-- The rows of R278 that both copies share. -/
def copyRefused (out : Bool) (d : Desc) (s : State) : Option Nat :=
  let v := viaOf s d
  if d.count = 0 ∨ dZeroIn d 34 6 = false ∨ dZeroFrom d 48 = false ∨ (out = true ∧ dAt d 40 8 ≠ 0) then some stMalformed
  else
    match copyTarget s d with
    | none => some stMalformed
    | some (m, o) =>
      if !inHall s.holding v ||
          (!out && touchesReserved s o d.count.toNat && !fallowRange s o d.count.toNat) then some stMalformed
      else if !inHolding s.holding v then some stNotPermitted
      else if v = s.holding.moduleId ∧ s.power.linkUp = false then some stStateConflict
      else if s.holding.lost.contains m then some stTimeout
      else none

/-- The classes a COPY_IN may not write but before RUN_BEGIN or at a cut: 2 to 8 (06 R111, 07 R128, 08 R169). -/
def guardedClass (c : Nat) : Bool := decide (2 ≤ c) && decide (c ≤ 8)

/-- A staged page of the hopper lies in the range. -/
def stagedIn (s : State) (off len : Nat) : Bool :=
  s.mem.layers.any fun l => (match l.tag with | .staged _ => true | _ => false) &&
    l.cells.any fun c => decide (off ≤ c.1) && decide (c.1 < off + len)

/-- The queue at an offset has a change staged. -/
def queueStaged (s : State) (off : Nat) : Bool :=
  match fallowPlace (fallowSlots s) (off - fallowAt s) with
  | some (master, _, _, _) => (fallowOf s master).consume || (fallowOf s master).append.isSome
  | none => false

/-- Bytes written into a queue's storage from an offset in it: entries up to the last one written hold a gradient, and an entry
that was not there has the step and the clipping factor that the load gives it (log entry 52). -/
def loadQueue (delay size o : Nat) (bs : Bytes) (q : FallowQueue) : FallowQueue :=
  let n := max q.entries.length (min delay (ceilDiv (o + bs.length) size))
  let entry := fun (i : Nat) =>
    let given := Config.loadedFallow q.master i
    let e := (q.entries[i]?).getD (given.1, given.2, List.replicate (size / 4) 0)
    let old := e.2.2.flatMap fun w => leBytes 4 w.toNat
    let new := (List.range size).map fun k =>
      if o ≤ i * size + k ∧ i * size + k < o + bs.length then bs.getD (i * size + k - o) 0 else old.getD k 0
    (e.1, e.2.1, (List.range (size / 4)).map fun j => BitVec.ofNat 32 (field new (4 * j) 4))
  { q with entries := (List.range n).map entry }

/-- COPY_IN data for the storage of a fallow queue. -/
def loadFallow (off : Nat) (bs : Bytes) (s : State) : State :=
  match fallowPlace (fallowSlots s) (off - fallowAt s) with
  | some (master, delay, size, o) => setFallow (loadQueue delay size o bs (fallowOf s master)) s
  | none => s

/-- The rows of R278 on a COPY_IN's destination. -/
def copyInConflict (m : ModId) (off : Nat) (d : Desc) (s : State) : Bool :=
  let ts := tensorsOn s m off d.count.toNat
  let step := dAt d 40 8
  -- the storage of a fallow queue (08 R169), and the pages of a retained reduced gradient (11 R222)
  (fallowRange s off d.count.toNat && (!s.quiet || queueStaged s off)) ||
  (m == s.holding.moduleId && touchesRetained s off d.count.toNat) ||
  !ts.isEmpty &&
  ((step == 0 && !s.quiet) ||
   (ts.any fun t => guardedClass t.2.cls && (!s.quiet || (decide (t.2.cls ≤ 5) && stagedIn s t.2.homeOffset t.2.bytes))) ||
   (step != 0 && (ts.any (fun t => !([0, 9, 10] : List Nat).contains t.2.cls) ||
     (match s.run.created with | some c => decide (step ≤ c) | none => false))))

/-- A COPY_IN for a step is awaited here from now on; one that was aborted before has been issued again (R290). -/
def awaitCopy (source : ModId) (off : Nat) (d : Desc) (s : State) : State :=
  let step := dAt d 40 8
  let len := d.count.toNat
  if step = 0 ∨ covered s off len = false then s
  else
    let same := fun (c : AwaitedCopy) => c.aborted && c.step == step && c.off == off && c.len == len
    { s with mem.awaited := (s.mem.awaited.filter fun c => !same c) ++ [⟨source, resultIdent d, step, off, len, [], false⟩] }

/-- The COPY_IN of an issuer that a descriptor names. -/
def isAwaited (source : ModId) (d : Desc) (c : AwaitedCopy) : Bool :=
  c.source == source && c.ident == resultIdent d && c.step == dAt d 40 8 && !c.aborted

/-- Removes the first entry that satisfies `p`. -/
def dropAwaited (p : AwaitedCopy → Bool) : List AwaitedCopy → List AwaitedCopy
  | [] => []
  | c :: t => if p c then t else c :: dropAwaited p t

/-- The entries before the first that satisfies `p` note what it has written: the later one at the order point wins. -/
def noteOver (p : AwaitedCopy → Bool) : List AwaitedCopy → List AwaitedCopy
  | [] => []
  | c :: t =>
    if p c then c :: t
    else (match t.find? p with
      | some x => if c.step = x.step then { c with newer := c.newer ++ [(x.off, x.len)] } else c
      | none => c) :: noteOver p t

/-- The source data of a COPY_IN is being read, over the link of this module; a peer that the data is for learns of it. -/
def beginCopyIn (reply : Option ModId) (m : ModId) (off : Nat) (d : Desc) (s : State) : State :=
  let id := s.host.nextAccess
  let s := { s with
    host.nextAccess := id + 1
    host.accesses := tset none s.host.accesses id (some (.copyIn d.ring d reply))
    out.reads := s.out.reads ++ [(id, dAt d 16 8, d.count.toNat)] }
  if m = s.holding.moduleId then awaitCopy s.holding.moduleId off d s
  else if dAt d 40 8 = 0 then s
  else sendHedge m (.orderForward (asOrder .copyIn { d with data := .ok [] } s)) s

/-- VIA names another module, whose link carries the data (R278). -/
def viaOther (s : State) (d : Desc) : Bool := viaOf s d != s.holding.moduleId

def runCopyIn (d : Desc) (s : State) : State × Result :=
  match copyRefused false d s, copyTarget s d with
  | some st, _ => refuse st s
  | none, none => refuse stMalformed s
  | none, some (m, off) =>
    if copyInConflict m off d s then refuse stStateConflict s
    else if viaOther s d then toTargets [viaOf s d] .copyIn d stOk 0 s
    else (beginCopyIn none m off d s, .reading)

/-- Data of a COPY_IN into this module's memory: published whole, or held for its step but where a later one for it has written. -/
def publishCopy (source : ModId) (d : Desc) (off : Nat) (bs : Bytes) (s : State) : State :=
  let step := dAt d 40 8
  if fallowRange s off bs.length then loadFallow off bs s
  else if step = 0 ∨ covered s off bs.length = false then writeNow off bs false s
  else
    let mine := isAwaited source d
    let newer := ((s.mem.awaited.find? mine).map (·.newer)).getD []
    let cells := (cellsAt off bs).filter fun c => !newer.any fun r => decide (r.1 ≤ c.1) && decide (c.1 < r.1 + r.2)
    let s := touch true off bs.length (writePoison off bs.length false s)
    { s with
      mem.layers := addLayer ⟨.held step, cells⟩ s.mem.layers
      mem.awaited := dropAwaited mine (noteOver mine s.mem.awaited) }

/-- Writes of 224 bytes to a peer's memory, with the tags they took. -/
def writeRemote (m : ModId) : Nat → Nat → Bytes → State → List W16 × State
  | 0, _, _, s => ([], s)
  | n + 1, off, bs, s =>
    if bs.isEmpty then ([], s)
    else
      let part := padMul 8 (bs.take 224)
      let (tag, s) := issue ptWrite m off (part.length / 8) part false none none false s
      let (tags, s) := writeRemote m n (off + 224) (bs.drop 224) s
      (tag :: tags, s)

/-- Reads of a range of a peer's memory line by line. -/
def readRemote (m : ModId) (off len : Nat) (s : State) : List W16 × State :=
  (lineParts off len).foldl (fun x p =>
    let (tag, s) := issue ptReadReq m (off + p.1) (ceilDiv p.2 8) [] false none none false x.2
    (x.1 ++ [tag], s)) ([], s)

/-- A copy at its end: its descriptor completes here, or its result goes to the module that named this one in VIA. -/
def endCopy (reply : Option ModId) (d : Desc) (status detail : Nat) (s : State) : State :=
  match reply with
  | some m => sendResult m d status detail s
  | none => completeLater .copyIn d status detail s

/-- The data of a COPY_IN has come. A packet's data is whole words of 8 bytes: any other length, data for a step and data of a
fallow queue go to a peer as an order (log entry 52). -/
def finishCopyIn (reply : Option ModId) (d : Desc) (bs : Bytes) (s : State) : State :=
  let bs := padTo d.count.toNat bs
  match copyTarget s d with
  | none => endCopy reply d stMalformed 0 s
  | some (m, off) =>
    if m = s.holding.moduleId then
      endCopy reply d stOk 0 (publishCopy (reply.elim s.holding.moduleId fun _ => s.holding.moduleId) d off bs s)
    else if dAt d 40 8 = 0 ∧ fallowRange s off bs.length = false ∧ bs.length % 8 = 0 then
      let (tags, s) := writeRemote m (ceilDiv bs.length 224) off bs s
      { s with run.jobs := s.run.jobs ++ [⟨d, .copyIn, .remote false tags [], reply, s.clock.up⟩] }
    else
      let s := sendHedge m (.orderForward (asOrder .copyIn { d with data := .ok bs } s)) s
      { s with run.jobs := s.run.jobs ++ [⟨d, .copyIn, .targets [m] stOk 0, reply, s.clock.up⟩] }

/-- The COPY_IN of an issuer is awaited here no longer. -/
def endAwait (source : ModId) (d : Desc) (s : State) : State :=
  { s with mem.awaited := dropAwaited (isAwaited source d) s.mem.awaited }

/-- The read of a COPY_IN's data has failed: nothing is published, here or at a peer that awaits it. -/
def failCopyIn (reply : Option ModId) (d : Desc) (status : Nat) (s : State) : State :=
  let s := match copyTarget s d with
    | some (m, _) =>
      if m = s.holding.moduleId then endAwait s.holding.moduleId d s
      else if dAt d 40 8 = 0 then s
      else sendHedge m (.orderForward (asOrder .copyIn { d with data := .timeout } s)) s
    | none => s
  endCopy reply d status 0 s

/-- Bytes of this module's memory written to the host line by line, a poisoned line in a TLP marked poisoned. -/
def copyToHost (d : Desc) (off : Nat) (s : State) : State :=
  let len := d.count.toNat
  let bs := localBytes s .plain off len
  (lineParts off len).foldl (fun s x =>
    hostWrite (dAt d 16 8 + x.1) (slice bs x.1 x.2) (!(poisonedIn s (off + x.1) x.2).isEmpty) s) (touch false off len s)

/-- A seedbed version lies in the range: the copy waits for the close (09 R188). -/
def seedbedIn (s : State) (off len : Nat) : Bool :=
  s.mem.layers.any fun l => (match l.tag with | .output _ _ sb => sb | _ => false) &&
    l.cells.any fun c => decide (off ≤ c.1) && decide (c.1 < off + len)

/-- The range on another module may hold a seedbed version: a task of streams F and B of the next step writes a tensor there while
this module's seedbed is open (log entry 20). -/
def seedbedThere (s : State) (m : ModId) (off len : Nat) : Bool :=
  s.run.seedbedOpen && (activeSegments s (stepOf s.run.head + 1)).any fun e =>
    (e.2.tasks.any fun t => decide (passOf t.gate ≤ passB) && t.outView.any fun v =>
      match e.2.views[v]? with
      | some w => (tensorsOn s m off len).any fun x => x.1 == w.tensor
      | none => false)

def runCopyOut (d : Desc) (s : State) : State × Result :=
  match copyRefused true d s, copyTarget s d with
  | some st, _ => refuse st s
  | none, none => refuse stMalformed s
  | none, some (m, off) =>
    let len := d.count.toNat
    if viaOther s d then toTargets [viaOf s d] .copyOut d stOk 0 s
    else if m = s.holding.moduleId then
      if seedbedIn s off len then (s, .later .copyOut)
      else (copyToHost d off s, .done stOk (poisonedIn s off len).length)
    else if seedbedThere s m off len then (s, .later .copyOut)
    else
      let (tags, s) := readRemote m off len s
      (s, .later (.remote true tags []))

/-- A COPY_OUT that waited is served once no seedbed version is left in its range. -/
def serveCopyOut (j : Job) (s : State) : State :=
  match copyTarget s j.d with
  | none => s
  | some (m, off) =>
    if m ≠ s.holding.moduleId then
      if seedbedThere s m off j.d.count.toNat then s
      else
        let (tags, s) := readRemote m off j.d.count.toNat s
        { s with run.jobs := mapFirst (fun x => x == j) (fun x => { x with kind := .remote true tags [] }) s.run.jobs }
    else if seedbedIn s off j.d.count.toNat then s
    else finishJobs (fun x => x == j) stOk (poisonedIn s off j.d.count.toNat).length (copyToHost j.d off s)

def serveCopyOuts (s : State) : State :=
  (s.run.jobs.filter fun j => j.kind == .copyOut).foldl (fun s j => serveCopyOut j s) s

/-! ### Parameter blocks (13 R280) -/

/-- A parameter-block descriptor: its block and its targets, or the status of a failed check. -/
def withBlock (ok : Bytes → Bool) (d : Desc) (s : State) : Except Nat (Bytes × List ModId) :=
  match paramBlock d with
  | .error e => .error e
  | .ok b =>
    if !ok b then .error stMalformed
    else match paramTarget s d with
      | none => .error stNotPermitted
      | some ms => .ok (b, ms)

/-- A block applied here when this module is a target, and sent to the other targets. -/
def onTargets (op : DescOp) (ms : List ModId) (d : Desc) (x : State × Nat × Nat) (s : State) : State × Result :=
  if targetsMe s d then
    if isError x.2.1 then refuse x.2.1 s else toTargets ms op d x.2.1 x.2.2 x.1
  else toTargets ms op d stOk 0 s

/-! #### EXPORT_CONFIGURE (16 R353, R354, R355) -/

/-- The sink areas of the holding's ranks lie in local addresses outside the reserved area (11 R224); every module's memory is taken
to be laid out as this one's (log entry 14). -/
def sinkFits (s : State) (o size stride : Nat) : Bool :=
  (List.range (members s.holding).length).all fun r => decide (o + r * stride + 4096 + size ≤ reservedBase s)

/-- A block as it stands alone; the fields that ENABLE 0 leaves in force are not checked. -/
def exportBlockOk (s : State) (b : Bytes) : Bool :=
  decide (64 ≤ b.length) &&
  match byteAt b 0 with
  | 0 =>
    let f := byteAt b 1
    b.length == 64 && bits f 4 4 == 0 && zeroAt b 44 4 && zeroAt b 56 8 &&
    (!bitOf f 0 ||
      (decide (1 ≤ field b 2 2) && decide (field b 2 2 ≤ 4096) && (pow2Log (field b 16 8)).isSome &&
       decide (2 ^ 30 ≤ field b 16 8) && decide (field b 16 8 ≤ 2 ^ 44) &&
       decide (field b 16 8 + 4096 ≤ field b 24 8) &&
       (bitOf f 1 || (match lamioTarget s (field b 8 8) with
         | none => false
         | some (_, o) => sinkFits s o (field b 16 8) (field b 24 8)))))
  | 1 => b.length == 64 && zeroAt b 1 7 && zeroAt b 16 48
  | 2 => b.length == 64 && zeroAt b 1 31
  | 3 => zeroAt b 1 7 && zeroAt b 32 32
  | _ => false

/-- The export configuration of an OP 0 block over the one in force. -/
def exportCfgOf (b : Bytes) (old : ExportCfg) : ExportCfg :=
  let f := byteAt b 1
  let c := { old with enable := bitOf f 0, scope := bitOf f 3, evalBudget := field b 4 4,
                      evalDistance := BitVec.ofNat 64 (field b 48 8) }
  if bitOf f 0 then
    { c with sinkHost := bitOf f 1, viaOwn := bitOf f 2, k := field b 2 2, sinkBase := field b 8 8,
             sinkSize := field b 16 8, sinkStride := field b 24 8, ackDistance := BitVec.ofNat 64 (field b 32 8),
             ackTime := field b 40 4 }
  else c

/-- The root tensor's form: the held segment and record that define it. -/
def rootFormOf (s : State) (tensor : Nat) : Option (Nat × Nat × SolveForm) :=
  (heldSegments s).findSome? fun e => (e.2.roots.zipIdx).findSome? fun r =>
    if r.1.root = tensor then (solveForm s e.1 r.2).map fun f => (e.1, r.2, f) else none

/-- A decision of a replay log from its 16-byte entry. -/
def replayDecision (step : Nat) (e : Bytes) (c : Option Candidate) : Decision :=
  { step := step, outcome := byteAt e 8, carried := bitOf (byteAt e 9) 0, fallback := bitOf (byteAt e 9) 1,
    age := byteAt e 10, lag := byteAt e 11, diagonal := byteAt e 8 == 3, selected := c, before := {},
    beforeCandidate := none }

/-- The entries of a replay log: none where it is cut short, names a root tensor no held segment defines, or a block
dimension other than its signature's. -/
def replayEntries (s : State) (step : Nat) : Nat → Bytes → Option (List (Nat × Nat × Nat × Decision × Bytes))
  | 0, b => if b.isEmpty then some [] else none
  | n + 1, b =>
    if b.isEmpty then some []
    else if b.length < 16 then none
    else
      let tensor := field b 0 4
      let q := field b 4 4
      match rootFormOf s tensor with
      | none => none
      | some (_, _, f) =>
        if f.stat.blocks ≤ q then none
        else if byteAt b 8 = 1 ∨ byteAt b 8 = 4 then
          let h := rootHeaderOf (slice b 16 64)
          let len := f.blockBytes q
          if b.length < 80 + len ∨ bits h.signature 0 15 ≠ f.stat.dim q then none
          else
            let c : Candidate :=
              { statStep := h.statStep, residual := h.residual, state := h.state, iterations := h.iterations,
                block := slice b 80 len }
            (replayEntries s step n (b.drop (80 + len))).map fun t =>
              (step, tensor, q, replayDecision step b (some c), slice b 16 (64 + len)) :: t
        else
          (replayEntries s step n (b.drop 16)).map fun t => (step, tensor, q, replayDecision step b none, []) :: t

/-- The eight words of export status. -/
def exportStatus (s : State) : Bytes :=
  let x := s.exporter
  [x.nextSeq, x.acked, ((x.retained.head?).map (·.seq)).getD 0, stagingAt s, stagingSize s, x.produced, x.resends,
    x.waits].flatMap (leBytes 8)

/-- A block on a target: the state after it, its status and the records retained. A configuration in force at once replaces one that
still waits for the boundary. The bytes after the 64 of an OP 3 block are
what host memory holds at its SOURCE. -/
def applyExport (ms : List ModId) (d : Desc) (b : Bytes) (s : State) : State × Nat × Nat :=
  let done := fun (t : State) => (resultAt ms d (exportStatus t) t, stOk, t.exporter.retained.length)
  match byteAt b 0 with
  | 0 =>
    let c := exportCfgOf b s.exporter.cfg
    done (if still s then installExport c { s with exporter.pending := none } else { s with exporter.pending := some c })
  | 1 =>
    if !s.run.modes.getD 8 false || decide (s.exporter.nextSeq ≤ field b 8 8) then (s, stStateConflict, 0)
    else done (acknowledged (field b 8 8) s)
  | 2 =>
    if s.run.isOn then (s, stStateConflict, 0)
    else done { s with exporter.chain := digestBits (slice b 32 32) }
  | _ =>
    if s.run.isOn then (s, stStateConflict, 0)
    else
      match replayEntries s (field b 24 8) b.length (slice b 64 (field b 16 8)) with
      | none => (s, stStateConflict, 0)
      | some es => done { s with harrows.replay := es }

/-- The block of an EXPORT_CONFIGURE: for OP 3, with the replay log after it. -/
def exportBlock (d : Desc) : Except Nat Bytes :=
  if dAt d 16 8 % 64 ≠ 0 ∨ d.count ≠ 64 ∨ dZeroFrom d 34 = false then .error stMalformed
  else match d.data with
    | .ok b => .ok (if b.length < 64 then padTo 64 b else b)
    | x => .error (hostStatus x)

def runExport (d : Desc) (s : State) : State × Result :=
  match exportBlock d with
  | .error e => refuse e s
  | .ok b =>
    let b := if byteAt b 0 = 3 then b else b.take 64
    if !exportBlockOk s b then refuse stMalformed s
    else match paramTarget s d with
      | none => refuse stNotPermitted s
      | some ms => onTargets .exportConfigure ms d (applyExport ms d b s) s

/-! #### INJECT_CONFIGURE (15 R335, R336, R338) -/

def stoneOf (e : Bytes) : Stone :=
  let x := leNat e
  { port := bits x 0 3, vc := bits x 3 2, action := bits x 5 3, rateLog2 := bits x 8 6, depth := bits x 14 8,
    offset := bits x 32 8, mask := BitVec.ofNat 8 (bits x 40 8), trigger := BitVec.ofNat 64 (bits x 64 64) }

/-- An entry as it stands alone. -/
def stoneOk (e : Bytes) : Bool :=
  let x := leNat e
  let t := stoneOf e
  bits x 22 10 == 0 && bits x 48 16 == 0 && zeroAt e 16 16 && decide (t.action ≤ 4) && decide (t.rateLog2 ≤ 40) &&
  (if t.action = 4 then decide (1 ≤ t.depth) else t.depth == 0) && decide (t.offset ≤ 239) &&
  (!(t.action == 2 || t.action == 3) || t.mask != 0) && !posMalformed t.trigger

def stoneEntries (b : Bytes) : List Bytes := (List.range (byteAt b 0)).map fun i => slice b (64 + 32 * i) 32

def injectBlockOk (b : Bytes) : Bool :=
  let es := stoneEntries b
  decide (64 ≤ b.length) && decide (byteAt b 0 ≤ 32) && bits (byteAt b 1) 1 7 == 0 && zeroAt b 2 62 &&
  b.length == 64 + 32 * byteAt b 0 && es.all stoneOk &&
  decide ((es.map fun e => ((stoneOf e).port, (stoneOf e).vc)).Nodup)

/-- The 96 injection counts. -/
def stoneCounts (s : State) : Bytes :=
  (List.range 96).flatMap fun i => leBytes 4 (counterValue s (4 * (0x400 + i)))

/-- A block on a target: the counts first, then the configuration, at once or at the boundary. -/
def applyInject (ms : List ModId) (d : Desc) (b : Bytes) (s : State) : State × Nat × Nat :=
  if s.security.state ≠ 1 then (s, stNotPermitted, 0)
  else
    let s := resultAt ms d (stoneCounts s) s
    let xs := (stoneEntries b).map stoneOf
    let dg := digestBits (sha256 b)
    (if still s then installStones xs dg (bitOf (byteAt b 1) 0) { s with stones.pending := none }
     else { s with stones.pending := some (xs, dg, bitOf (byteAt b 1) 0) }, stOk, 0)

def runInject (d : Desc) (s : State) : State × Result :=
  match withBlock injectBlockOk d s with
  | .error e => refuse e s
  | .ok (b, ms) => onTargets .injectConfigure ms d (applyInject ms d b s) s

/-! #### Counters, trace, ATTEST -/

def runCounters (d : Desc) (s : State) : State × Result :=
  match withBlock counterBlockOk d s with
  | .error e => refuse e s
  | .ok (b, ms) => onTargets .counterConfigure ms d (applyCounters ms d b s, stOk, 0) s

def runTrace (d : Desc) (s : State) : State × Result :=
  match withBlock traceBlockOk d s with
  | .error e => refuse e s
  | .ok (b, ms) => onTargets .traceConfigure ms d (applyTrace ms d b s, stOk, 0) s

/-- ATTEST: the response to the block's message goes to the result area; DETAIL is its length (18 R384). -/
def applyAttest (ms : List ModId) (d : Desc) (b : Bytes) (s : State) : State × Nat × Nat :=
  let r := sahithAny b s
  (resultAt ms d r s, stOk, r.length)

def runAttest (d : Desc) (s : State) : State × Result :=
  match withBlock (fun _ => true) d s with
  | .error e => refuse e s
  | .ok (b, ms) => onTargets .attest ms d (applyAttest ms d b s) s

/-! ### SNAPSHOT (16 R358) -/

/-- The bytes of one record at its sink. -/
def runSnapshot (d : Desc) (s : State) : State × Result :=
  let f := dAt d 24 1
  let host := bitOf f 0
  let sink := dAt d 16 8
  if !noCount d || bits f 2 6 != 0 || !dZeroFrom d 25 then refuse stMalformed s
  else
    let (bs, pages) := snapshotRecord s (bitOf f 1)
    let where_ := if host then none else lamioTarget s sink
    if !host && (match where_ with
        | none => true
        | some (_, o) => decide (reservedBase s < o + bs.length)) then
      refuse stMalformed s
    else if s.run.lastCommit.isNone || s.run.halt == .smear || s.run.halt == .noLead then refuse stStateConflict s
    else if (match where_ with
        | some (m, o) => !s.quiet && !(tensorsOn s m o bs.length).isEmpty
        | none => false) then
      refuse stStateConflict s
    else accept (satTo (2 ^ 32 - 1) pages) (toSink host sink bs s)

/-! ### ROOT_SUPPLY (07 R147, R148) -/

/-- The block a ROOT_SUPPLY names: root record index in bits [23:0] and segment number in [31:24] of ROOT_RECORD, as 13
R288 packs them. -/
def supplyKey (d : Desc) : SolveKey := ⟨dAt d 27 1, dAt d 24 3, dAt d 28 4⟩

/-- The record, block, length and signature agree. -/
def supplyForm (s : State) (d : Desc) : Option SolveForm :=
  let k := supplyKey d
  match solveForm s k.seg k.record with
  | none => none
  | some f =>
    if k.block < f.stat.blocks ∧ d.count.toNat = f.blockBytes k.block ∧
        dAt d 48 8 = rootSignature f.stat f.root f.tensor.format k.block then some f else none

/-- The step has committed: it is no later than the last commit record, and no vote record says that it was skipped; of a step older
than the 256 records kept, the commit record alone speaks (DEDUCED, log entry 89). -/
def stepCommitted (s : State) (n : Nat) : Bool :=
  (s.run.lastCommit.any fun m => decide (n ≤ m)) && !s.votes.ring.any fun e => e.1 == n && e.2.1.outcome != outCommit

/-- The rows on the target module: the root becomes the candidate. -/
def applySupply (d : Desc) (s : State) : State × Nat × Nat :=
  let k := supplyKey d
  let step := dAt d 32 8
  if !s.run.modes.getD 4 false then (s, stStateConflict, 0)
  else
    match supplyForm s d, d.data with
    | none, _ => (s, stMalformed, 0)
    | some f, .ok b =>
      let h := installedHeader s f k.block
      if !(f.stat.due step && stepCommitted s step) || (h.state != 0 && decide (step < h.statStep)) then (s, stStateConflict, 0)
      else
        let c : Candidate :=
          { statStep := step, residual := 0, state := 2, iterations := 0, block := padTo (f.blockBytes k.block) b }
        let bs := mapFirst (fun x => x.key == k) (fun x => { x with candidate := some c }) s.harrows.blocks
        let s := { s with harrows.blocks := bs }
        (s, if s.run.head.toNat < (deadlineOf f step).toNat then stOk else stDeadlineReused, 0)
    | some _, x => (s, hostStatus x, 0)

def runRootSupply (d : Desc) (s : State) : State × Result :=
  let m : ModId := BitVec.ofNat 16 (dAt d 40 2)
  -- function 4 is set for the whole holding (01 R20): the issuer's copy tells every member's mode
  if s.run.modes.getD 4 false = false then refuse stStateConflict s
  else if !inHolding s.holding m then refuse stNotPermitted s
  else if !dZeroIn d 42 6 || !dZeroFrom d 56 then refuse stMalformed s
  else if m = s.holding.moduleId then
    let x := applySupply d s
    (x.1, .done x.2.1 x.2.2)
  else toTargets [m] .rootSupply d stOk 0 s

/-! ### PLACEMENT_PIN (11 R231 to R233) -/

/-- The pages of a PLACEMENT_PIN. -/
def pinPages (d : Desc) : List Nat := pagesOf (dAt d 16 8) (dAt d 24 8)

/-- Usable frames of a tier and region less those that pages pinned there hold. -/
def framesForPin (s : State) (far : Bool) (region : Nat) (mine : List Nat) : Nat :=
  tierFrames far - ((s.mem.retired ++ s.flash.retired).eraseDups.filter fun f => f.1 == far && f.2.1 == region).length -
    (s.mem.pages.filter fun e => pageRegion e.1 == region && e.2.present && e.2.pin == (if far then 2 else 1) &&
      !mine.contains e.1).length

def pinFits (s : State) (far : Bool) (ps : List Nat) : Bool :=
  (List.range 32).all fun r => decide ((ps.filter fun p => pageRegion p == r).length ≤ framesForPin s far r ps)

def pinMalformed (s : State) (d : Desc) : Bool :=
  let start := dAt d 16 8
  let len := dAt d 24 8
  !noCount d || start % pageBytes != 0 || len % pageBytes != 0 || len == 0 || decide (s.mem.capacity < start + len) ||
    decide (2 < dAt d 32 1) || decide (1 < dAt d 33 1) || !dZeroIn d 34 6 || !dZeroFrom d 42

/-- A page moved to HBM3E once, without a pin; a move there that is under way is the hint's from now on, and a page that is leaving
comes back after its move. -/
def hintPage (p : Nat) (s : State) : State :=
  let e := pageOf s p
  let mid := e.state == 1 || e.state == 2
  if mid && !e.otherFar then setPage p { e with cause := if owed e.cause then e.cause else 2 } s
  else if e.present && (mid || e.far) then
    { s with mem.selected := (s.mem.selected.filter fun x => x.page != p || owed x.cause) ++
        (if s.mem.selected.any (fun x => x.page == p && owed x.cause) then [] else [⟨p, false, 2⟩]) }
  else s

/-- The rows on the target module. -/
def applyPin (d : Desc) (s : State) : State × Result :=
  let ps := pinPages d
  let tier := dAt d 32 1
  let far := tier == 2
  let hint := dAt d 33 1 == 1
  if s.mem.capacity < dAt d 16 8 + dAt d 24 8 then refuse stMalformed s
  else if touchesReserved s (dAt d 16 8) (dAt d 24 8) then refuse stStateConflict s
  else if tier ≠ 0 ∧ pinFits s far ps = false then refuse stStateConflict s
  else if hint && tier != 1 then refuse stMalformed s
  else if tier = 0 then
    accept 0 (ps.foldl (fun s p => setPage p { pageOf s p with pin := 0 } s) s)
  else
    let away := fun (p : Nat) =>
      let e := pageOf s p
      e.present && (e.far != far || e.state == 1 || e.state == 2)
    let moving := ps.filter away
    let s := ps.foldl (fun s p => if hint then hintPage p s else pinPage far p s) s
    if moving.isEmpty then accept 0 s else (s, .later (.pin moving far moving.length))

def runPlacementPin (d : Desc) (s : State) : State × Result :=
  let m : ModId := BitVec.ofNat 16 (dAt d 40 2)
  if pinMalformed s d then refuse stMalformed s
  else if !inHolding s.holding m then refuse stNotPermitted s
  else if m = s.holding.moduleId then applyPin d s
  else toTargets [m] .placementPin d stOk 0 s

/-- Pins all of whose pages stand in their tier complete. -/
def finishPins (s : State) : State :=
  let ready := fun (j : Job) => match j.kind with
    | .pin ps far _ => ps.all fun p => (pageOf s p).far == far && ((pageOf s p).state == 0 || (pageOf s p).state == 3)
    | _ => false
  (s.run.jobs.filter ready).foldl (fun s j => match j.kind with
    | .pin _ _ n => finishJobs (fun x => x == j) stOk n s
    | _ => s) s

/-! ### Every opcode -/

/-- A descriptor at the order point of this module: `kind` and `holding` are the source of a STOP (02 R40). -/
def runDesc (kind holding : Nat) (op : DescOp) (d : Desc) (s : State) : State × Result :=
  if headerBad d then refuse stMalformed s
  else match op with
    | .graphSubmit => runGraphSubmit d s
    | .graphRetire => runGraphRetire d s
    | .tensorDefine => runTensorDefine d s
    | .tensorRelease => runTensorRelease d s
    | .furrowAdvance => runFurrowAdvance d s
    | .runBegin => runRunBegin d s
    | .groupDefine => runGroupDefine d s
    | .groupReform => runGroupReform d s
    | .copyIn => runCopyIn d s
    | .copyOut => runCopyOut d s
    | .exportConfigure => runExport d s
    | .snapshot => runSnapshot d s
    | .stop => runStop kind holding d s
    | .resume => runResume d s
    | .modeSet => runModeSet d s
    | .rootSupply => runRootSupply d s
    | .voteSupply => runVoteSupply d s
    | .placementPin => runPlacementPin d s
    | .counterConfigure => runCounters d s
    | .traceConfigure => runTrace d s
    | .injectConfigure => runInject d s
    | .attest => runAttest d s
    | .fence => if !noCount d || decide (1 < dAt d 16 1) || !dZeroFrom d 17 then refuse stMalformed s else accept 0 s
    | .unknown _ => refuse stMalformed s

/-! ### Orders at a module that did not issue them (13 R280, R289, 20 R411; log entry 15) -/

/-- A parameter block at another target: its status and detail are returned. -/
def blockFor (o : FwdOrder) (ok : Bytes → Bool) (f : List ModId → Bytes → State → State × Nat × Nat) (s : State) : State :=
  match withBlock ok o.desc s with
  | .error e => sendResult o.source o.desc e 0 s
  | .ok (b, ms) =>
    let x := f ms b s
    sendResult o.source o.desc x.2.1 x.2.2 (if isError x.2.1 then s else x.1)

/-- An order of the run lead master that is not for its own holding alone (01 R20, R289). -/
def orderOfRun (o : FwdOrder) (s : State) : Bool :=
  match o.op with
  | .stop | .resume | .furrowAdvance | .voteSupply | .groupDefine | .groupReform | .graphSubmit | .tensorDefine => true
  | .modeSet => ([1, 5, 6] : List Nat).contains (dAt o.desc 16 1)
  | .tensorRelease => (tget none s.graph.tensors (dAt o.desc 24 4)).isSome
  | .graphRetire => (tget {} s.graph.dir (dAt o.desc 16 1)).segment.isSome
  | _ => false

/-- The order acts on this module: its own holding's, a copy to or from its memory, or a run-wide one of the run lead master's. -/
def orderForMe (o : FwdOrder) (s : State) : Bool :=
  o.op == .copyIn || o.holding == s.holding.number.toNat || (s.run.isOn && o.source == leadId s && orderOfRun o s)

/-- The effect of an accepted order of another module. -/
def applyOrder (o : FwdOrder) (s : State) : State :=
  let d := o.desc
  match o.op with
  | .graphSubmit =>
    (match segmentBytes d with
     | .error _ => s
     | .ok b => (submitGraph false b s).1)
  | .graphRetire => if (tget {} s.graph.dir (dAt d 16 1)).segment.isSome then retireSegment (dAt d 16 1) s else s
  | .tensorDefine =>
    (match tensorOf s d with
     | .error _ => s
     | .ok t => defineTensor (dAt d 24 4) (dAt d 28 2) t s)
  | .tensorRelease => releaseTensor (dAt d 24 4) s
  | .furrowAdvance => raiseLimit (BitVec.ofNat 64 (dAt d 16 8)) s
  | .resume => applyResume (stepOf o.stamp) s
  | .modeSet => setMode (dAt d 16 1) (dAt d 17 1 == 1) s
  | .exportConfigure =>
    (match exportBlock d, paramTarget s d with
     | .ok b, some ms =>
       let x := applyExport ms d b s
       sendResult o.source d x.2.1 x.2.2 (if isError x.2.1 then s else x.1)
     | _, _ => sendResult o.source d stMalformed 0 s)
  | .injectConfigure => blockFor o injectBlockOk (fun ms b s => applyInject ms d b s) s
  | .counterConfigure => blockFor o counterBlockOk (fun ms b s => (applyCounters ms d b s, stOk, 0)) s
  | .traceConfigure => blockFor o traceBlockOk (fun ms b s => (applyTrace ms d b s, stOk, 0)) s
  | .attest => blockFor o (fun _ => true) (fun ms b s => applyAttest ms d b s) s
  | .rootSupply =>
    let x := applySupply d s
    sendResult o.source d x.2.1 x.2.2 x.1
  | .placementPin => recordFor o.source .placementPin d (applyPin d s)
  | .copyIn =>
    if dAt d 32 2 = s.holding.moduleId.toNat then
      -- this module's link carries the data for the module that issued the copy
      (match copyTarget s d with
       | some (m, off) => if s.power.linkUp then beginCopyIn (some o.source) m off d s else sendResult o.source d stStateConflict 0 s
       | none => sendResult o.source d stMalformed 0 s)
    else
      (match d.data, copyTarget s d with
       | .ok [], some (_, off) => awaitCopy o.source off d s
       | .ok b, some (_, off) => sendResult o.source d stOk 0 (publishCopy o.source d off b s)
       | _, _ => endAwait o.source d s)
  | .copyOut => recordFor o.source .copyOut d (runCopyOut d s)
  | .runBegin | .groupDefine | .groupReform | .snapshot | .stop | .voteSupply | .fence | .unknown _ => s

end Sys2Proof.Machine
end

