-- ==== Sys2Proof/Machine/Rings.lean ====
section
/-!
DEFINITION. The poll engine (13 R266, R272 to R275), the order point (R281, R289), RING_ENABLE and RESUME of a ring (R282, R283),
posting and signalling (R284), host liveness (15 R330).
-/
namespace Sys2Proof.Machine

open Sys2Proof

/-- Only the holding master polls rings and executes descriptors (R268). -/
def serves (s : State) : Bool := s.ready && s.holding.isMaster

/-! ### Host reads (R275, R278) -/

/-- A read of host memory issued. -/
def hostRead (what : HostAccess) (addr len : Nat) (s : State) : State :=
  if s.power.linkUp then
    let id := s.host.nextAccess
    { s with
      host.nextAccess := id + 1
      host.accesses := tset none s.host.accesses id (some what)
      out.reads := s.out.reads ++ [(id, addr, len)] }
  else s

/-- The poll engine reads a doorbell word. -/
def readDoorbell (w : Nat) (s : State) : State :=
  hostRead (.doorbell w) (s.host.ctx.doorbellBase.toNat / 4096 * 4096 + 8 * w) 8 s

/-- The host address of descriptor i of a ring (R274). -/
def slotAddress (r : SubRing) (i : W32) : Nat := r.base.toNat / 4096 * 4096 + 64 * (i.toNat % 2 ^ r.sizeLog2.toNat)

def maxWaiting : Nat := 64

/-- Fewer than 64 descriptors of a ring are fetched and not executed; one that the lead master holds is among them. -/
def hasRoom (r : SubRing) : Bool := decide (max r.waiting.length (r.fetched - r.executed).toNat < maxWaiting)

/-- The next slot of a ring is fetched: one read of a ring at a time, at most 64 descriptors held. -/
def fetchNext (n : Nat) (s : State) : State :=
  let r := subRing s n
  if r.enable && r.state != 3 && r.reading == 0 && hasRoom r && r.fetched != r.producer &&
      s.power.linkUp then
    setSub n (fun r => { r with reading := 1 }) (hostRead (.descriptor n r.fetched 0) (slotAddress r r.fetched) 64 s)
  else s

def fetchAll (s : State) : State := (s.host.sub.map (·.1)).foldl (fun s n => fetchNext n s) s

/-! ### The order point (R281, R289) -/

/-- An order that the run lead master's order point takes. -/
def runWide (s : State) (op : DescOp) (d : Desc) : Bool :=
  s.run.isOn &&
  match op with
  | .stop | .resume | .furrowAdvance | .voteSupply => true
  | .modeSet => ([1, 5, 6] : List Nat).contains (dAt d 16 1)
  | .groupDefine | .groupReform => definitionOutside s d.body
  | .tensorDefine => groupOutside s (dAt d 28 2)
  | .tensorRelease => releaseOutside s (dAt d 24 4)
  | .graphSubmit => (match segmentBytes d with
      | .ok b => groupOutside s (parseSegment b).group
      | .error _ => false)
  | _ => false

/-- The check of a run-wide order that needs no state: what is malformed completes at the issuer. -/
def wideMalformed (op : DescOp) (d : Desc) : Bool :=
  headerBad d ||
  match op with
  | .stop => stopMalformed d
  | .resume => !noCount d || !dZeroFrom d 16
  | .modeSet => modeMalformed d
  | _ => false

/-- Every earlier descriptor of the ring, or of the holding, has completed (FENCE). -/
def earlierDone (s : State) (r : SubRing) (all : Bool) : Bool :=
  if all then s.host.sub.all fun e => e.2.inFlight == 0 else r.inFlight == 0

/-- A gate at or beyond the target of a pending scheduled stop opens when the cut has been reached (02 R36; log entry 25). -/
def waitsForCut (s : State) (gate : Pos) : Bool :=
  s.moving && (match s.run.stop with
    | some m => m.scheduled && decide (m.target.toNat ≤ gate.toNat)
    | none => false)

/-- The descriptor at the front of a ring still waits: for its gate (02 R25), as a FENCE, as a VOTE_SUPPLY (09 R178), or for a lead
master (14 R316). -/
def waitsStill (s : State) (r : SubRing) (op : DescOp) (d : Desc) : Bool :=
  (!posMalformed d.gate && (decide (s.run.head.toNat < d.gate.toNat) || waitsForCut s d.gate)) ||
  (runWide s op d && s.run.halt == .noLead) ||
  (op == .fence && !earlierDone s r (bitOf (dAt d 16 1) 0)) ||
  (op == .voteSupply && !headerBad d && (voteSupplyFirst d s).isNone && s.votes.openStep == some (dAt d 16 8) &&
    s.votes.decided.isNone && !reductionComplete s)

/-- A run-wide order of the ring is held by this lead master: its descriptor has not executed (R281, R289). -/
def holdsRing (s : State) (n : Nat) (h : HeldOrder) : Bool :=
  !h.order.mgmt && h.order.source == s.holding.moduleId && h.order.desc.ring == n

/-- The descriptor of a ring that may execute. -/
def frontOf? (s : State) (n : Nat) : Option (DescOp × Desc) :=
  let r := subRing s n
  if r.enable && r.state == 1 && !complFull (complRing s r.completionRing.toNat) && !s.run.held.any (holdsRing s n) then
    match r.waiting with
    | [] => none
    | x :: _ => if waitsStill s r x.1 x.2 then none else some x
  else none

/-- A run-wide order at the issuing master: held here by the lead master, forwarded to it by another (R289). -/
def issueWide (op : DescOp) (d : Desc) (s : State) : State :=
  let o := asOrder op d s
  if wideMalformed op d then record op d (refuse stMalformed s)
  else if s.isLead then
    match op, voteSupplyFirst d s with
    | .voteSupply, some st => record op d (refuse st s)
    | _, _ =>
      let s := setSub d.ring (fun r => { r with executed := r.executed - 1 }) s
      startJob none op d (.targets [leadId s] stOk 0) { s with run.held := s.run.held ++ [⟨o, s.clock.up⟩] }
  else if op = .modeSet then record op d (refuse stNotPermitted s)
  else if op = .stop ∨ op = .resume then
    startJob none op d (.targets [leadId s] stOk 0) (sendHedge (leadId s) (.orderForward o) s)
  else record op d (runDesc 0 s.holding.number.toNat op d s)

/-- A descriptor executed at the order point. -/
def executeOne (n : Nat) (op : DescOp) (d : Desc) (s : State) : State :=
  let s := setSub n (fun r => { r with waiting := r.waiting.drop 1, executed := r.executed + 1 }) s
  let s := trace 1 0 false 0 (BitVec.allOnes 32) (descData op d 0) s
  if runWide s op d then issueWide op d s
  else
    let s := record op d (runDesc 0 s.holding.number.toNat op d s)
    if op = .runBegin then
      if s.run.jobs.any (fun j => j.op == .runBegin && j.d == d) then takeBegin s.holding.number.toNat d s else s
    else s

/-- Descriptors execute while one may, the lowest ring first (R289: ascending key). -/
def drainRings : Nat → State → State
  | 0, s => s
  | n + 1, s =>
    match s.host.sub.findSome? fun e => (frontOf? s e.1).map fun x => (e.1, x) with
    | none => s
    | some (r, op, d) => drainRings n (executeOne r op d s)

/-- Descriptors that wait on all rings. -/
def waitingCount (s : State) : Nat := (s.host.sub.map fun e => e.2.waiting.length).foldl (· + ·) 0

/-- What a change of state lets happen at the order point: waiting copies and pins, then the rings, then their fetches. -/
def drain (s : State) : State :=
  if serves s then
    let s := serveCopyOuts (finishPins s)
    fetchAll (drainRings (waitingCount s) s)
  else finishPins s

/-- Since when each admitted task has stayed eligible (12 R261). -/
def stampEligible (s : State) : State :=
  { s with sched.tasks := s.sched.tasks.map fun t =>
      if t.phase == .admitted then
        { t with eligibleAt := if eligible s t then some (t.eligibleAt.getD s.clock.up) else none }
      else t }

/-- A new lead master whose run has halted: where a module holds the commit record of the step that was being voted on, that
decision stands; elsewhere the step votes RETRY (R176, R183, 14 R316). -/
def settleSuccession (s : State) : State :=
  match s.run.succession with
  | some (n, false) =>
    if s.isLead && s.run.halt == .smear && haltKnown s then
      if (s.run.lastCommit.any fun k => decide (n ≤ k)) || s.run.knownCommit.any fun k => decide (n ≤ k) then
        { s with run.succession := some (n, true) }
      else takeDecision (voteRecord n outRetry false false s) { s with run.succession := none }
    else s
  | _ => s

/-- The head, the vote, the seedbed and the rings brought to where they stand after a change. -/
def advance (s : State) : State :=
  stampEligible (settle (drain (settle (continueRoll (settleSuccession (lateFindings (answerUnreached s)))))))

/-- A ring may be given one more descriptor. -/
def takesDescriptor (s : State) (n : Nat) : Bool :=
  serves s && s.power.linkUp && decide (n < 256) && (subRing s n).enable && (subRing s n).state != 3 &&
    hasRoom (subRing s n)

/-- A descriptor at its ring's place at the order point, as a fetch delivers it (R275). -/
def fetched (op : DescOp) (d : Desc) (s : State) : State :=
  setSub d.ring (fun r => { r with fetched := r.fetched + 1, waiting := r.waiting ++ [(op, d)] }) s

/-- The descriptor at the front of a ring executes when it may. -/
def executeFront (n : Nat) (s : State) : State :=
  match frontOf? s n with
  | some (op, d) => executeOne n op d s
  | none => s

/-- A descriptor row: the descriptor is delivered, executes when it stands at the order point, and what that lets happen
follows. -/
def takeDescriptor (op : DescOp) (d : Desc) (s : State) : State :=
  if takesDescriptor s d.ring then advance (executeFront d.ring (fetched op d s)) else s

/-! ### Orders held at the lead master (R289) -/

/-- The class of an order. -/
def orderClass (s : State) (o : FwdOrder) : Nat := if o.mgmt then 1 else if o.holding = s.run.leadHolding then 2 else 3

/-- Ascending (stamp, class, holding, ring). -/
def orderBefore (s : State) (a b : HeldOrder) : Bool :=
  let key := fun (h : HeldOrder) =>
    ((h.order.stamp.toNat * 4 + orderClass s h.order) * 1024 + h.order.holding) * 256 + h.order.desc.ring
  decide (key a ≤ key b)

/-- The ranges of two segments of GRAPH_SUBMITs overlap. -/
def segmentsMeet (a b : Desc) : Bool :=
  match segmentBytes a, segmentBytes b with
  | .ok x, .ok y =>
    let g := parseSegment x
    let h := parseSegment y
    rangesMeet g.taskBase g.tasks.length h.taskBase h.tasks.length ||
      rangesMeet g.tensorBase g.tensors.length h.tensorBase h.tensors.length
  | _, _ => false

def isGroupOp (op : DescOp) : Bool := op == .groupDefine || op == .groupReform

/-- Two orders contradict each other by the table of R289. -/
def contradict (a b : FwdOrder) : Bool :=
  let x := a.desc
  let y := b.desc
  if isGroupOp a.op && isGroupOp b.op then field x.body 0 2 == field y.body 0 2 && x.body.drop 4 != y.body.drop 4
  else match a.op, b.op with
    | .modeSet, .modeSet => dAt x 16 1 == dAt y 16 1 && dAt x 17 1 != dAt y 17 1
    | .tensorDefine, .tensorDefine => dAt x 24 4 == dAt y 24 4 && x.data != y.data
    | .tensorDefine, .tensorRelease => dAt x 24 4 == dAt y 24 4
    | .tensorRelease, .tensorDefine => dAt x 24 4 == dAt y 24 4
    | .graphSubmit, .graphSubmit => segmentsMeet x y
    | .stop, .resume => true
    | .resume, .stop => true
    | .voteSupply, .voteSupply => dAt x 16 8 == dAt y 16 8 && dAt x 24 1 != dAt y 24 1
    | _, _ => false

/-- An order run in a state. -/
def tryOrder (o : FwdOrder) (s : State) : State × Result :=
  runDesc (if o.mgmt then 1 else 0) (if o.mgmt then 0 else o.holding) o.op o.desc s

/-- The error status of a result, if it is one. -/
def errorOf (x : State × Result) : Option Nat :=
  match x.2 with
  | .done st _ => if isError st then some st else none
  | _ => none

/-- The job of a held order of this master. -/
def heldJob (o : FwdOrder) (j : Job) : Bool :=
  j.reply.isNone && j.op == o.op && j.d == o.desc && (match j.kind with | .targets .. => true | _ => false)

/-- A held order of this master has left its place: its job is over. -/
def endHeld (o : FwdOrder) (s : State) : State :=
  setSub o.desc.ring (fun r => settleRing { r with inFlight := r.inFlight - 1 })
    { s with run.jobs := s.run.jobs.filter fun j => !heldJob o j }

/-- The result of a held order given to its issuer: a descriptor of this master, another master, or a management STOP. -/
def deliver (o : FwdOrder) (x : State × Result) : State :=
  if o.mgmt then x.1
  else if o.source = x.1.holding.moduleId then
    let s := setSub o.desc.ring (fun r => { r with executed := r.executed + 1 }) x.1
    match x.2 with
    | .done st dt => completeNow o.op o.desc st dt (endHeld o s)
    | .later k => { s with run.jobs := mapFirst (heldJob o) (fun j => { j with kind := k }) s.run.jobs }
    | .reading => s
  else recordFor o.source o.op o.desc x

/-- Held orders executed in their order. `done` holds those that took effect, each with the state before it. -/
def runHeld (done : List (FwdOrder × State)) : List HeldOrder → State → State
  | [], s => s
  | h :: t, s =>
    let o := h.order
    match done.find? fun e => e.1.stamp == o.stamp && contradict e.1 o with
    | some e =>
      let st := (errorOf (tryOrder o e.2)).getD stConflictLost
      runHeld done t (deliver o (s, .done st 0))
    | none =>
      let x := tryOrder o s
      let s' := deliver o x
      runHeld (if (errorOf x).isSome then done else done ++ [(o, s)]) t s'

/-- The hold of an order is over: the head has passed its stamp, or 8 us have passed. -/
def holdOver (s : State) (h : HeldOrder) : Bool :=
  decide (h.order.stamp.toNat < s.run.head.toNat) || decide (h.arrived + us 8 ≤ s.clock.up)

def releaseHolds (s : State) : State :=
  if s.isLead then
    let ready := s.run.held.filter (holdOver s)
    if ready.isEmpty then s
    else
      advance (runHeld [] (sortBy (orderBefore s) ready) { s with run.held := s.run.held.filter fun h => !holdOver s h })
  else s

def execOrderHoldRelease (s : State) : Answer := .next (releaseHolds s)

/-! ### Doorbells and the poll engine (R272, R273, R275) -/

/-- A ring enters STATE 3. -/
def ringError (completion : Bool) (ring code : Nat) (s : State) : State :=
  raise evRingError (pack [(8, ring), (1, b2n completion), (7, 0), (8, code)]) s

/-- A submission doorbell word. -/
def takeProducer (n : Nat) (v : Nat) (s : State) : State :=
  let r := subRing s n
  if !r.enable || r.state == 3 || bits v 32 32 != r.generation.toNat then s
  else
    let p : W32 := BitVec.ofNat 32 v
    if 2 ^ r.sizeLog2.toNat < (p - r.fetched).toNat then
      ringError false n 1 (setSub n (fun r => { r with state := 3, errorCode := 1 }) s)
    else fetchNext n (setSub n (fun r => { r with producer := p }) s)

/-- A completion ring's consumer word. -/
def takeConsumer (n : Nat) (v : Nat) (s : State) : State :=
  let c := complRing s n
  if !c.enable || c.state == 3 || bits v 32 32 != c.generation.toNat then s
  else
    let x : W32 := BitVec.ofNat 32 v
    if (c.posted - x).toInt < 0 then
      ringError true n 0 (setCompl n (fun c => { c with state := 3 }) s)
    else setCompl n (fun c => { c with consumer := x }) s

/-- LIVENESS: a change ends the safe hold (15 R330). -/
def takeLiveness (v : Nat) (s : State) : State :=
  let w : W64 := BitVec.ofNat 64 v
  if s.host.liveSeen && s.host.liveness == w then s
  else
    let held := s.host.safeHold
    let s := { s with host.liveness := w, host.liveSeen := true, host.liveAt := s.clock.up, host.safeHold := false }
    if held then raise evSafeHold (pack [(10, s.holding.number.toNat), (1, 1)]) s else s

/-- A doorbell word read. -/
def takeDoorbell (w v : Nat) (s : State) : State :=
  if w < 256 then takeProducer w v s
  else if w < 512 then takeConsumer (w - 256) v s
  else if w = 512 then { s with host.evConsumer := BitVec.ofNat 32 v }
  else if w = 513 then takeLiveness v s
  else s

/-- The progress word of a ring written when it has changed. -/
def showProgress (w value : Nat) (shown : Option Nat) (s : State) : State :=
  if shown = some value then s
  else hostWrite (s.host.ctx.progressBase.toNat / 4096 * 4096 + 8 * w) (leBytes 8 value) false s

def progressWord (count generation : W32) : Nat := count.toNat + 2 ^ 32 * generation.toNat

/-- Every progress word whose value has changed is written (R273). -/
def writeProgress (s : State) : State :=
  let s := s.host.sub.foldl (fun s e =>
    let v := progressWord e.2.fetched e.2.generation
    if e.2.enable then setSub e.1 (fun r => { r with shown := some v }) (showProgress e.1 v e.2.shown s) else s) s
  s.host.compl.foldl (fun s e =>
    let v := progressWord e.2.posted e.2.generation
    if e.2.enable then setCompl e.1 (fun c => { c with shown := some v }) (showProgress (256 + e.1) v e.2.shown s) else s) s

/-- One poll: progress words are written (R273), and while a submission ring is enabled, the words of every enabled ring, the event ring's and LIVENESS are read. -/
def poll (s : State) : State :=
  let subs := s.host.sub.filterMap fun e => if e.2.enable then some e.1 else none
  if !serves s then s
  else
    let compls := s.host.compl.filterMap fun e => if e.2.enable then some (256 + e.1) else none
    let s := writeProgress { s with host.lastPoll := s.clock.up }
    if subs.isEmpty then s else
    fetchAll ((subs ++ compls ++ [512, 513]).foldl (fun s w => readDoorbell w s) s)

def execPollTick (s : State) : Answer := .next (advance (poll s))

/-- A nudge register written: the doorbell word is read (R266); on a module that is not the master it is inert (R268). -/
def execNudge (ring : Nat) (s : State) : Answer :=
  .next (if serves s && decide (ring < 256) && (subRing s ring).enable then readDoorbell ring s else s)

def execNudgeAll (s : State) : Answer :=
  .next (if serves s then
    (s.host.sub.filterMap fun e => if e.2.enable then some e.1 else none).foldl (fun s n => readDoorbell n s) s
  else s)

/-! ### RING_ENABLE and RESUME (R274, R282, R283) -/

/-- ENABLE written 1. -/
def enableSub (r : SubRing) : SubRing :=
  if r.enable then r
  else { r with
    enable := true, state := 1, errorCode := 0, fetched := 0, executed := 0, producer := 0, waiting := [], reading := 0,
    draining := false, shown := none }

/-- ENABLE written 0: fetches stop, and what has not executed completes with DISCARDED. -/
def disableSub (n : Nat) (s : State) : State :=
  let r := subRing s n
  if !r.enable then s
  else
    let mine := fun (e : Nat × Option HostAccess) => match e.2 with
      | some (.descriptor k _ _) => k == n
      | _ => false
    let s := { s with host.accesses := s.host.accesses.filter fun e => !mine e }
    let s := setSub n (fun r => settleRing { r with enable := false, waiting := [], reading := 0, draining := true }) s
    let held := s.run.held.filter (holdsRing s n)
    let s := { s with run.held := s.run.held.filter fun h => !holdsRing s n h }
    let s := held.foldl (fun s h => completeNow h.order.op h.order.desc stDiscarded 0 (endHeld h.order s)) s
    r.waiting.foldl (fun s x => completeNow x.1 x.2 stDiscarded 0 s) s

def enableCompl (c : ComplRing) : ComplRing :=
  if c.enable then c
  else { c with enable := true, state := 1, posted := 0, consumer := 0, unsignalled := 0, firstAt := 0, shown := none }

def disableCompl (c : ComplRing) : ComplRing := if c.enable then { c with enable := false, state := 0 } else c

def execRingEnable (completion : Bool) (ring : Nat) (value : Bool) (s : State) : Answer :=
  .next (if !hostControls s || decide (256 ≤ ring) then s
  else if completion then advance (setCompl ring (if value then enableCompl else disableCompl) s)
  else if value then setSub ring enableSub s
  else disableSub ring s)

def execRingResume (ring : Nat) (s : State) : Answer :=
  .next (if hostControls s && decide (ring < 256) && (subRing s ring).state == 2 then
    advance (setSub ring (fun r => { r with state := 1 }) s)
  else s)

/-! ### Answers to host reads (R275, R278, 15 R319) -/

/-- The access is over. -/
def dropAccess (id : Nat) (s : State) : State := { s with host.accesses := tset none s.host.accesses id none }

/-- A descriptor read has failed for good. -/
def fetchFailed (n : Nat) (s : State) : State :=
  ringError false n 2 (setSub n (fun r => { r with state := 3, errorCode := 2, reading := 0 }) s)

/-- The descriptor of 64 bytes, with what host memory holds at the address it names. -/
def descOf (ring : Nat) (b : Bytes) (aux : HostData) : DescOp × Desc :=
  (opOf (BitVec.ofNat 8 (byteAt b 0)),
   { ring := ring, flags := BitVec.ofNat 8 (byteAt b 1), tag := BitVec.ofNat 16 (field b 2 2),
     count := BitVec.ofNat 32 (field b 4 4), gate := BitVec.ofNat 64 (field b 8 8), body := padTo 48 (b.drop 16),
     data := aux })

/-- An answered read: a doorbell word, a descriptor, or the source data of a COPY_IN. -/
def takeReply (r : HostReply) (s : State) : State :=
  match tget none s.host.accesses r.id with
  | none => s
  | some (.doorbell w) =>
    let s := dropAccess r.id s
    (match r.data with
     | .ok b => takeDoorbell w (field b 0 8) s
     | _ => s)
  | some (.descriptor n _ _) =>
    (match r.data with
     | .ok b =>
       let x := descOf n b r.aux
       fetchNext n (setSub n (fun q => { q with
         fetched := q.fetched + 1, waiting := q.waiting ++ [x], reading := 0 }) (dropAccess r.id s))
     | .timeout => s
     | _ => fetchFailed n (dropAccess r.id s))
  | some (.copyIn _ d reply) =>
    let s := dropAccess r.id s
    (match r.data with
     | .ok b => finishCopyIn reply d b s
     | x => failCopyIn reply d (hostStatus x) s)

def execHostAccessCompletion (r : HostReply) (s : State) : Answer := .next (advance (takeReply r s))

/-- A descriptor fetch has met a completion timeout: retried RING_RETRY times, then the ring enters STATE 3 (15 R319). -/
def execRingFetchRetry (id : Nat) (s : State) : Answer :=
  .next (
    match tget none s.host.accesses id with
    | some (.descriptor n i k) =>
      let s := dropAccess id s
      if k < s.tmo.ringRetry.toNat then hostRead (.descriptor n i (k + 1)) (slotAddress (subRing s n) i) 64 s
      else fetchFailed n s
    | _ => s)

/-- The entry of a copy whose host access has met a completion timeout: TIMEOUT, and its ring may halt. -/
def timedOutEntry (s : State) (id : Nat) (e : Entry) : Entry :=
  match e.access with
  | some (k, ring) =>
    if k = id then
      { e with status := stTimeout, detail := 0, access := none, ring := some ring, halted := (subRing s ring).haltOnError }
    else e
  | none => e

/-- A completion timeout of COPY_IN, COPY_OUT or SNAPSHOT: nothing is published, and the descriptor completes with TIMEOUT
(R278). -/
def hostTimeout (id : Nat) (s : State) : State :=
  match tget none s.host.accesses id with
  | some (.copyIn _ d reply) => failCopyIn reply d stTimeout (dropAccess id s)
  | _ =>
    { s with host.compl := s.host.compl.map fun e =>
        (e.1, { e.2 with waiting := e.2.waiting.map (timedOutEntry s id) }) }

def execHostCompletionTimeout (id : Nat) (s : State) : Answer := .next (advance (hostTimeout id s))

/-! ### Posting and signalling (R284) -/

/-- A completion entry's 16 bytes. -/
def entryBytes (c : ComplRing) (e : Entry) (pos : Pos) : Bytes :=
  leBytes 2 e.tag.toNat ++ leBytes 1 e.status ++
    leBytes 1 (pack [(1, ringPhase c.sizeLog2.toNat c.posted.toNat), (1, b2n e.halted), (1, b2n e.report)]) ++
    leBytes 4 e.detail ++ leBytes 8 pos.toNat

/-- The ring's vector, at once when COALESCE is 0 or the entry is URGENT, else once its time has passed. -/
def signalEntry (n : Nat) (urgent : Bool) (s : State) : State :=
  let c := complRing s n
  if c.coalesce = 0 ∨ urgent = true then
    signal c.vector.toNat (setCompl n (fun c => { c with unsignalled := 0 }) s)
  else
    setCompl n (fun c => { c with
      firstAt := if c.unsignalled = 0 then s.clock.up else c.firstAt
      unsignalled := c.unsignalled + 1 }) s

/-- The oldest waiting entry of a ring posted when there is room; an error decided after execution halts its ring now (R282). -/
def postEntry (n : Nat) (s : State) : State :=
  let c := complRing s n
  if !c.enable || c.state != 1 || complFull c then s
  else
    match c.waiting with
    | [] => s
    | e :: rest =>
      if e.quiet && e.status == stOk then setCompl n (fun c => { c with waiting := rest }) s
      else
        let slot := c.base.toNat / 4096 * 4096 + 16 * (c.posted.toNat % 2 ^ c.sizeLog2.toNat)
        let s := hostWrite slot (entryBytes c e (e.position.getD s.run.head)) false s
        let s := setCompl n (fun c => { c with waiting := rest, posted := c.posted + 1 }) s
        let s := match e.halted, e.ring with
          | true, some r => if (subRing s r).state = 1 then setSub r (fun r => { r with state := 2 }) s else s
          | _, _ => s
        signalEntry n e.urgent s

def execCompletionPost (ring : Nat) (s : State) : Answer :=
  .next (if serves s then advance (postEntry ring s) else s)

/-- COALESCE us after the first entry not yet signalled, the vector of a completion ring, or of the event ring. -/
def execCoalesceExpiry (ring : Option Nat) (s : State) : Answer :=
  .next (
    match ring with
    | some n =>
      let c := complRing s n
      if c.unsignalled != 0 && decide (c.firstAt + us c.coalesce.toNat ≤ s.clock.up) then
        signal c.vector.toNat (setCompl n (fun c => { c with unsignalled := 0 }) s)
      else s
    | none =>
      if s.host.evUnsig != 0 && decide (s.host.evFirstAt + us s.host.ctx.eventCoalesce.toNat ≤ s.clock.up) then
        signal s.host.ctx.eventVector.toNat { s with host.evUnsig := 0 }
      else s)

/-- A vector unmasked: its pending message is sent (R284). -/
def execMsixVectorUnmask (vector : Nat) (s : State) : Answer :=
  .next (if vector < 2048 ∧ s.host.msixPending.getLsbD vector = true then
    signal vector { s with
      host.msixMasked := s.host.msixMasked &&& ~~~ (BitVec.twoPow 2048 vector)
      host.msixPending := s.host.msixPending &&& ~~~ (BitVec.twoPow 2048 vector) }
  else { s with host.msixMasked := s.host.msixMasked &&& ~~~ (BitVec.twoPow 2048 vector) })

def execStepReportPost (s : State) : Answer := .next (advance (stepReport s))

/-! ### Safe hold (15 R330) -/

/-- The target of a stop that a safe hold orders. -/
def safeTarget (h : Pos) : Pos :=
  if passC ≤ passOf h then posOf (stepOf h + 1) passF 0 else BitVec.ofNat 64 ((h.toNat / 2 ^ 12 + 1) * 2 ^ 12)

/-- LIVENESS has not changed for its timeout: a stop order to the lead master, and SAFE_HOLD. -/
def safeHoldNow (s : State) : State :=
  let s := raise evSafeHold (pack [(10, s.holding.number.toNat), (1, 0)]) { s with host.safeHold := true }
  if !s.run.isOn then s
  else if s.isLead then orderStop ⟨true, safeTarget s.run.head, 2, 0⟩ s
  else sendHedge (leadId s) (.stop ⟨true, 0, 2, 0⟩) s

def execLivenessTimeout (s : State) : Answer :=
  .next (if serves s && s.host.liveSeen && !s.host.safeHold && s.tmo.liveness != 0 && decide (s.host.liveAt + ms s.tmo.liveness.toNat ≤ s.clock.up) then
    advance (safeHoldNow s)
  else s)

end Sys2Proof.Machine
end

