-- ==== Sys2Proof/Machine/Watch.lean ====
section
/-!
DEFINITION. The furrow's hedge messages (02 R26 to R34), stops reached (02 R36), heartbeats, loss and succession (15 R328, R329,
14 R316), hedge agreements (15 R318, R319), orders forwarded (13 R289).
-/
namespace Sys2Proof.Machine

open Sys2Proof

/-! ### The head and the fronts (02 R26, R28, R33) -/

/-- A furrow-head broadcast: a copy only increases (R28). The lead master owns the head. -/
def takeHead (p : Pos) (s : State) : State :=
  if s.run.isOn && !s.isLead && s.moving then advance (setHead p (traceReceive (leadId s) 0x01 s)) else s

def execFurrowHead (head : Pos) (s : State) : Answer := .next (takeHead head s)

/-- A local-front report of another module. -/
def takeFront (m : ModId) (f b : Pos) (low : W32) (s : State) : State :=
  if s.run.isOn && m != s.holding.moduleId then
    let others := s.run.fronts.filter fun (e : ModId × Pos × Pos × W32) => e.1 != m
    advance (traceReceive m 0x02 { s with run.fronts := others ++ [(m, f, b, low)] })
  else s

def execLocalFront (module : ModId) (front seedbedFront : Pos) (lowestTask : W32) (s : State) : Answer :=
  .next (takeFront module front seedbedFront lowestTask s)

/-- The module whose local front is lowest; of equal fronts, the first. -/
def lowestFront (s : State) : ModId :=
  ((runModules s).foldl (fun (m : Option ModId) x => match m with
    | none => some x
    | some y => if (frontOf s x).toNat < (frontOf s y).toNat then some x else some y) none).getD s.holding.moduleId

/-- FURROW_STALL, once for each stall (R33). -/
def execFurrowStall (s : State) : Answer :=
  .next (
    if s.isLead && s.moving && !s.run.stallRaised && decide (s.run.headAt + ms s.tmo.stall.toNat ≤ s.clock.up) then
      let m := lowestFront s
      let task := ((s.run.fronts.find? fun e => e.1 == m).map (·.2.2.2)).getD (BitVec.allOnes 32)
      raise evFurrowStall (pack [(16, m.toNat), (32, task.toNat)]) { s with run.stallRaised := true }
    else s)

/-- The lead master's timestamp, slewed to; the one step is RUN_BEGIN's (R34, 13 R279). -/
def execTimestampSync (lead : W64) (s : State) : Answer :=
  .next (
    if s.isLead || !s.assigned then s
    else
      let s := traceReceive (leadId s) 0x03 s
      { s with clock.offset := (lead.toNat : Int) - (s.clock.now : Int) })

/-! ### Stops (02 R35 to R39) -/

/-- A stop message: at the lead master one that a master asks for, with the target of R330 for a safe hold; elsewhere the
order of the lead master. -/
def takeStop (m : StopMsg) (s : State) : State :=
  let s := traceReceive (leadId s) 0x19 s
  if s.isLead then
    if s.run.halt == .running || (s.run.halt == .cut && !haltKnown s) then
      let m := if m.scheduled then { m with target := safeTarget s.run.head } else m
      orderStop m { s with run.holdResume := s.run.holdResume || !m.scheduled }
    else s
  else applyStop m s

def execHedgeStop (m : StopMsg) (s : State) : Answer := .next (if s.run.isOn then advance (takeStop m s) else s)

/-- The cut is reached: solves pause at their boundary, the stop map is written, and the lead master is told (R36, R37,
R40). -/
def reachCut (s : State) : State :=
  match s.run.stop with
  | none => s
  | some m =>
    let pause := fun (b : BlockSolve) => if b.record.status = 2 then { b with record := { b.record with status := 3 } } else b
    let s := { s with harrows.blocks := s.harrows.blocks.map pause }
    let s := writeStopMap 1 m 0 s
    stopsComplete (acknowledge agreeStop (commitWord s) s.run.head { s with run.halt := .cut })

def execStopCutReached (s : State) : Answer := .next (if cutReached s then advance (reachCut s) else s)

/-! ### Loss (15 R328, R329, 14 R316) -/

/-- Continuing work that awaits a lost module goes on without it; an order sent to it ends with TIMEOUT. -/
def withoutModule (m : ModId) (s : State) : State :=
  let drop := fun (j : Job) => match j.kind with
    | .targets ms st dt =>
      if ms.contains m then { j with kind := .targets (ms.filter (· != m)) (if st = stOk then stTimeout else st) dt } else j
    | .group g e ms => { j with kind := .group g e (ms.filter (· != m)) }
    | _ => j
  let s := { s with run.jobs := s.run.jobs.map drop }
  let ended := s.run.jobs.filter fun j => match j.kind with
    | .targets [] _ _ => true
    | .group _ _ [] => true
    | _ => false
  ended.foldl (fun s j => match j.kind with
    | .targets _ st dt => finishJobs (fun x => x == j) st dt s
    | .group _ e _ => finishJobs (fun x => x == j) stOk e s
    | _ => s) s

/-- The master known of a holding. -/
def masterOf (s : State) (h : Nat) : Option ModId :=
  if h = s.holding.number.toNat then some s.holding.masterId else (s.run.masters.find? fun x => x.1 == h).map (·.2)

/-- The holdings of the run that come after the lead's, in ascending order and then from the first. -/
def nextHoldings (s : State) : List Nat :=
  let all := (List.range s.run.holdingCount).map fun i => s.run.firstHolding + i
  (all.filter fun h => decide (s.run.leadHolding < h)) ++ all.filter fun h => decide (h < s.run.leadHolding)

/-- What this module of a halted run has reported, reported again to a new lead master. -/
def reportAgain (s : State) : State :=
  let s := if s.halted && s.run.stopMap.isSome then acknowledge agreeStop (commitWord s) s.run.head (shareVote s) else s
  reportReformed s

/-- The lead master is lost: the master of the next holding leads; it halts the run, and the step votes RETRY unless a module turns
out to hold its commit record (R176, R183). With no master left the run halts with no lead (R316). -/
def succeed (s : State) : State :=
  let live := (nextHoldings s).findSome? fun h => (masterOf s h).bind fun m =>
    if s.holding.lost.contains m then none else some (h, m)
  match live with
  | some (h, m) =>
    let s := reportAgain { s with run.leadHolding := h, run.leadModule := m }
    if s.isLead && s.run.halt == .running && s.votes.decided.isNone then
      orderStop ⟨false, 0, 2, 0⟩ { s with run.succession := s.votes.openStep.map fun n => (n, false) }
    else s
  | none =>
    let s := haltSmear ⟨false, 0, 2, 0⟩ s
    { s with run.halt := .noLead }

/-- The module holds the home of a defined tensor. -/
def holdsHome (s : State) (m : ModId) : Bool :=
  (definedTensors s).any fun e =>
    if e.2.sharded then (membersOf s e.2.shardGroup).contains m else e.2.homeModule == everyone || e.2.homeModule == m

/-- The step up to which the sink has acknowledged a module's records, as far as this module knows. -/
def ackedOf (s : State) (m : ModId) : Option Nat :=
  if m = s.holding.moduleId then ackedStep s else Config.memberAcked m.toNat ((s.run.lastCommit.getD 0))

/-- The restoration target (15 R331): m where the sink holds the records of every module that needs restoration up to m, else
the lowest step it holds for every module of the run; none where the sink holds none. -/
def restoreTargetOf (s : State) (need : List ModId) (m : Nat) : Option Nat :=
  if need.all fun x => (ackedOf s x).any fun a => decide (m ≤ a) then some m
  else (runModules s).foldl (fun (t : Option Nat) x => match t, ackedOf s x with
    | some a, some b => some (min a b)
    | _, _ => none) (some m)

/-- A module needs restoration: the run waits for it; without a sink or a committed step restoration fails (15 R331, R334). -/
def needRestoration (m : ModId) (s : State) : State :=
  if !s.run.isOn || s.holding.restoring.contains m || !holdsHome s m then s
  else
    let need := s.holding.restoring ++ [m]
    let s := { s with holding.restoring := need }
    match resumeStep s with
    | 0 => { s with holding.restore := 5 }
    | k + 1 =>
      match (if s.exporter.cfg.enable then restoreTargetOf s need k else none) with
      | none => { s with holding.restore := 5 }
      | some t =>
        -- of a restoration under way T never rises (15 R339)
        let t := if s.holding.restore = 1 ∨ s.holding.restore = 2 then min t s.holding.restoreTarget else t
        { s with
          holding.restore := if s.holding.restore = 2 then 2 else 1
          holding.restoreTarget := t
          holding.restoreUpTo := k
          holding.restoreHost := decide (t < k)
          holding.restoring := if t < k then (runModules s).foldl addNew need else need }

/-- Collectives that have the lost module as a member end with MEMBER_LOST (10 R215). -/
def endLostColls (m : ModId) (s : State) : State :=
  let has := fun (c : CollInst) => c.op != opEval && (membersOf s c.group).contains m
  serveOwn ((s.coll.live.filter has).foldl (fun s c => endColl c stMemberLost s) s)

/-- A module is lost: what awaits it goes on or ends without it, its collectives end, its groups are to be re-formed, the open vote
counts it, and a lead master that is lost has its successor. -/
def noteLost (m : ModId) (s : State) : State :=
  if s.holding.lost.contains m then s
  else
    let led := s.run.isOn && m == leadId s
    let s := needRestoration m s
    let s := withoutModule m { s with holding.lost := s.holding.lost ++ [m] }
    let s := countLostMember m (endLostColls m (noteUnformed m s))
    let s := reformLost s
    if led then succeed s else resumeComplete (stopsComplete (reduceVote s))

/-- The module isolates itself: it halts, discards its hopper and its seedbed, and rejoins only through restoration (R328). -/
def isolate (cause : Nat) (s : State) : State :=
  if s.holding.isolated then s
  else
    let me := s.holding.moduleId
    let s := raise evMemberLost (pack [(16, me.toNat), (2, cause), (14, 0), (16, me.toNat)]) s
    let s := sendHedge everyone (.memberLost me cause s.run.head) s
    let n := s.votes.openStep.getD (stepOf s.run.head)
    let s := needRestoration me s
    let s := discardFrom n (haltSmear ⟨false, 0, 2, 0⟩ s)
    { s with mem := dropLayers (beyond n) s.mem, holding.isolated := true }

/-- A watcher declares a module lost: bit 8, the broadcast, the event (R328, 09 R173). CAUSE is 0 for a member that a collective
has lost too (DEDUCED, log entry 50: 13 R288 lists no other). -/
def declareLost (m : ModId) (s : State) : State :=
  if s.holding.lost.contains m then s
  else
    let s := sendHedge everyone (.memberLost m 0 s.run.head) (findMemberLost s)
    let s := raise evMemberLost (pack [(16, m.toNat), (2, 0), (14, 0), (16, s.holding.moduleId.toNat)]) s
    noteLost m s

/-- This module watches another: the master its members, a member its master, the lead master the modules of the run. -/
def watches (s : State) (m : ModId) : Bool :=
  m != s.holding.moduleId && s.assigned &&
  ((s.holding.isMaster && inHolding s.holding m) || (!s.holding.isMaster && m == s.holding.masterId) ||
   (s.isLead && (s.run.masters.any (fun x => x.2 == m) || s.run.fronts.any fun f => f.1 == m)))

/-- Silent for HEARTBEAT_LOSS since a time. -/
def silentSince (s : State) (t : Nat) : Bool := decide (t + ms s.tmo.heartbeat.toNat ≤ s.clock.up)

/-- When a module's heartbeat last came. -/
def lastBeatOf (s : State) (m : ModId) : Nat := ((s.holding.beats.find? fun b => b.1 == m).map (·.2.1)).getD s.holding.discoverAt

/-- No heartbeat of the master and no hedge message on any port. -/
def cutOff (s : State) : Bool :=
  s.assigned && !s.holding.isMaster && silentSince s (lastBeatOf s s.holding.masterId) &&
    silentSince s (max s.holding.lastHedge s.holding.discoverAt)

/-- Every 1 ms the module sends its heartbeat; the lead master its timestamp with it; a module cut off isolates itself. -/
def execHeartbeatTick (s : State) : Answer :=
  .next (
    if !s.ready || !s.assigned || s.holding.isolated then s
    else
      let s := sendHedge everyone (.heartbeat s.sched.pubCount) { s with holding.lastBeat := s.clock.up }
      let s := if s.isLead then sendHedge everyone (.timestampSync (BitVec.ofNat 64 s.clock.now)) s else s
      if cutOff s then isolate 2 s else s)

/-- A heartbeat received, with the sender's count of published tasks (10 R214). -/
def takeHeartbeat (m : ModId) (published : Nat) (s : State) : State :=
  let old := s.holding.beats.find? fun b => b.1 == m
  let since := match old with
    | some (_, _, n, t) => if n = published then t else s.clock.up
    | none => s.clock.up
  let others := s.holding.beats.filter fun (b : ModId × Nat × Nat × Nat) => b.1 != m
  traceReceive m 0x04 { s with holding.beats := others ++ [(m, s.clock.up, published, since)] }

def execHeartbeat (module : ModId) (published : Nat) (s : State) : Answer := .next (takeHeartbeat module published s)

/-- A watched module has been silent for HEARTBEAT_LOSS: declared lost, or the watcher is itself cut off. -/
def execHeartbeatLoss (module : ModId) (s : State) : Answer :=
  .next (
    if watches s module && !s.holding.isolated && !s.holding.lost.contains module && silentSince s (lastBeatOf s module) then
      advance (if cutOff s then isolate 2 s else declareLost module s)
    else s)

/-- A member-lost broadcast; a module that learns that it has been declared lost isolates itself (R328). -/
def execHedgeMemberLost (source lost : ModId) (cause : Nat) (head : Pos) (s : State) : Answer :=
  .next (
    if !s.assigned || posMalformed head || decide (2 < cause) then s
    else
      let s := traceReceive source 0x06 s
      advance (if lost = s.holding.moduleId then (if source = lost then s else isolate 2 s) else noteLost lost s))

/-- A member's event at its holding master (13 R285). -/
def execHedgeEvent (module : ModId) (code : W16) (position : Pos) (timestamp detail : W64) (s : State) : Answer :=
  .next (
    let s := traceReceive module 0x05 s
    if s.holding.isMaster then postEvent code.toNat module position timestamp detail s else s)

/-! ### Orders forwarded (13 R279, R289) -/

/-- A RUN_BEGIN on its way: the lead master's own begins the run, another master's is collected. -/
def takeRunBegin (o : FwdOrder) (s : State) : State :=
  let d := o.desc
  let h := s.holding.number.toNat
  let s := { s with run.masters :=
    (s.run.masters.filter fun (x : Nat × ModId) => x.1 != o.holding) ++ [(o.holding, o.source)] }
  if s.run.isOn || h < dAt d 32 2 || dAt d 32 2 + dAt d 34 2 ≤ h then s
  else if o.holding = dAt d 32 2 then
    (if o.source = s.holding.moduleId then s else finishJobs isBegin stOk (dAt d 34 2) (beginRun o.source d s))
  else takeBegin o.holding d s

/-- An order for the run lead master's order point. -/
def forLead (s : State) (o : FwdOrder) : Bool :=
  s.isLead && o.source != s.holding.moduleId && (o.mgmt || o.op == .stop || o.op == .resume || o.op == .modeSet)

def takeForward (o : FwdOrder) (s : State) : State :=
  let s := traceReceive o.source 0x18 s
  if o.op = .runBegin then takeRunBegin o s
  else if forLead s o then { s with run.held := s.run.held ++ [⟨o, s.clock.up⟩] }
  else if o.source != s.holding.moduleId && orderForMe o s && !(o.op == .resume && s.holding.isolated) then applyOrder o s
  else s

def execOrderForward (o : FwdOrder) (s : State) : Answer := .next (if s.assigned then advance (takeForward o s) else s)

/-! ### Agreements (14 R298, 15 R318) -/

/-- The result of an order from one of its targets: the first status other than OK stands, and the details add up. -/
def takeResult (source : ModId) (ident pos : W64) (s : State) : State :=
  let mine := fun (j : Job) => resultIdent j.d == ident && match j.kind with
    | .targets ms _ _ => ms.contains source
    | _ => false
  match s.run.jobs.find? mine with
  | none => s
  | some j =>
    match j.kind with
    | .targets ms st dt =>
      let st' := bits pos.toNat 0 8
      let kind : JobKind :=
        .targets (ms.filter (· != source)) (if st = stOk then st' else st) (satTo (2 ^ 32 - 1) (dt + bits pos.toNat 8 32))
      let s := { s with run.jobs := mapFirst mine (fun x => { x with kind := kind }) s.run.jobs }
      (match kind with
       | .targets [] a b => finishJobs (fun x => x == { j with kind := kind }) a b s
       | _ => s)
    | _ => s

/-- A member holds a definition (10 R196). -/
def takeGroupHeld (source : ModId) (ident pos : W64) (s : State) : State :=
  let mark := fun (j : Job) => match j.kind with
    | .group g e ms => if g = ident.toNat ∧ e = pos.toNat then { j with kind := .group g e (ms.filter (· != source)) } else j
    | _ => j
  let s := { s with run.jobs := s.run.jobs.map mark }
  finishJobs (fun j => match j.kind with
    | .group g e [] => g == ident.toNat && e == pos.toNat
    | _ => false) stOk pos.toNat s

/-- A module has reached the stop; its word tells the last step it has committed (02 R42). -/
def takeStopReached (source : ModId) (ident : W64) (s : State) : State :=
  -- kept by a module that is about to take the lead, too (14 R316)
  if s.run.isOn then
    let known := if ident = 0 then s.run.knownCommit
      else match s.run.knownCommit with
        | some m => some (max m (ident.toNat - 1))
        | none => some (ident.toNat - 1)
    stopsComplete { s with run.stopAcks := addNew s.run.stopAcks source, run.knownCommit := known }
  else s

/-- A module has completed the discard of the step the head stands in. -/
def takeDiscarded (source : ModId) (ident : W64) (s : State) : State :=
  if s.isLead && ident.toNat == s.run.rollTo.getD (stepOf s.run.head) then
    resumeComplete { s with run.discardAcks := addNew s.run.discardAcks source }
  else s

/-- A module has been restored: it is no longer lost; once every module has been, the groups that exclude one of them admit
it again (15 R332). -/
def takeRestored (source : ModId) (s : State) : State :=
  let waiting := s.holding.restoring.contains source
  let s := { s with
    holding.lost := s.holding.lost.filter (· != source)
    holding.restoring := s.holding.restoring.filter (· != source)
    holding.restored := if waiting then addNew s.holding.restored source else s.holding.restored }
  if waiting && s.holding.restoring.isEmpty then
    let back := s.holding.restored
    let s := { s with
      holding.restored := []
      holding.restore := if s.holding.restore = 5 ∨ s.holding.restore = 6 then s.holding.restore
        else if s.holding.restoreHost then 3 else 4 }
    back.foldl (fun s m => readmit m s) s
  else s

def takeAgreement (source : ModId) (kind : Nat) (ident pos : W64) (s : State) : State :=
  let s := traceReceive source 0x15 s
  if kind = agreeResult then takeResult source ident pos s
  else if kind = agreeGroup then takeGroupHeld source ident pos s
  else if kind = agreeStop then takeStopReached source ident s
  else if kind = agreeDiscard then takeDiscarded source ident s
  else if kind = agreeRestore then takeRestored source s
  else if kind = agreeReform then { s with coll.reformAcks := addNew s.coll.reformAcks source }
  else if kind = agreeHold && s.isLead then { s with run.holdResume := true }
  else s

def execAgreementAck (source : ModId) (kind : Nat) (ident pos : W64) (s : State) : Answer :=
  .next (advance (takeAgreement source kind ident pos s))

/-- A definition whose number this module does not hold when it holds 4,096 is not applied and not acknowledged, so that its
issuer ends with TIMEOUT (10 R196; DEDUCED, log entry 47). -/
def definitionFits (s : State) (g : Nat) : Bool :=
  (groupOf s g).isSome || decide ((s.coll.groups.filter fun e => e.2.isSome).length < 4096)

/-- A part of a group definition: with all three parts of one epoch the member applies it and acknowledges (R298). -/
def takeDefinition (source : ModId) (part epoch : Nat) (bytes : Bytes) (s : State) : State :=
  let s := traceReceive source 0x14 s
  let mine := fun (p : ModId × Nat × Nat × Bytes) => p.1 == source && p.2.1 == epoch
  let kept := s.coll.parts.filter fun (p : ModId × Nat × Nat × Bytes) =>
    !(mine p && (p.2.2.1 == part || part == 0))
  let parts := kept ++ [(source, epoch, part, padTo 16 bytes)]
  let find := fun i => (parts.find? fun (p : ModId × Nat × Nat × Bytes) => mine p && p.2.2.1 == i).map (·.2.2.2)
  match find 0, find 1, find 2 with
  | some a, some b, some c =>
    let d := a ++ b ++ c
    let rest := parts.filter fun (p : ModId × Nat × Nat × Bytes) => !mine p
    if !definitionFits s (field d 0 2) then { s with coll.parts := rest }
    else
    let s := reportReformed (installGroup d epoch { s with coll.parts := rest })
    sendHedge source (.agreement agreeGroup (BitVec.ofNat 64 (field d 0 2)) (BitVec.ofNat 64 epoch)) s
  | _, _, _ => { s with coll.parts := parts }

def execGroupDefinition (source : ModId) (part epoch : Nat) (bytes : Bytes) (s : State) : Answer :=
  .next (if s.assigned && decide (part < 3) && decide (epoch < 2 ^ 16) then advance (takeDefinition source part epoch bytes s)
    else s)

/-- A hedge agreement of a kind is still awaited, past HEDGE_TIMEOUT (15 R318). -/
def agreementLate (s : State) (kind : Nat) : Bool :=
  let late := fun t => decide (t + ms s.tmo.hedge.toNat ≤ s.clock.up)
  let jobs := fun (p : JobKind → Bool) => s.run.jobs.any fun j => p j.kind && late j.at_
  if kind = agreeGroup then jobs fun k => match k with | .group .. => true | _ => false
  else if kind = agreeStop then
    s.isLead && s.halted && late s.run.haltAt && !(runModules s).all fun m => s.run.stopAcks.contains m
  else if kind = agreeDiscard then jobs fun k => match k with | .resume => true | _ => false
  else if kind = agreeReform then
    s.isLead && s.run.halt == .smear && late s.run.haltAt && !s.run.modes.getD 6 false && !reformed s
  else false

/-- The waiting module reports to the lead master, which stops the run; it then stays halted until a RESUME (15 R319). -/
def agreementTimeout (kind : Nat) (s : State) : State :=
  let s := if kind = agreeGroup then
      finishJobs (fun j => match j.kind with | .group .. => true | _ => false) stTimeout 0 s
    else s
  if !s.run.isOn then s
  else if s.isLead then
    let s := { s with run.holdResume := true }
    if s.run.halt == .running then orderStop ⟨false, 0, 2, 0⟩ s else s
  else sendHedge (leadId s) (.stop ⟨false, 0, 2, 0⟩) s

def execHedgeTimeout (kind : Nat) (s : State) : Answer :=
  .next (if agreementLate s kind then advance (agreementTimeout kind s) else s)

end Sys2Proof.Machine
end

