-- ==== Sys2Proof/Machine/Voting.lean ====
section
/-!
DEFINITION. The rows of the vote (09): the audit of working pages and the contribution (08 R163, 09 R173, R174), the bounds
(R177), the outcome (R180 to R182) and the automatic resume (R182).
-/
namespace Sys2Proof.Machine

open Sys2Proof

/-! ### The audit (08 R163) -/

/-- The update records of the segments active in a step, with their segments. -/
def recordsIn (s : State) (n : Nat) : List (Nat × Segment × UpdateRec × Nat) :=
  (activeSegments s n).flatMap fun e => (e.2.updates.zipIdx).map fun u => (e.1, e.2, u.1, u.2)

/-- The unit that ran the UPDATE of a record in a step. -/
def updaterOf (s : State) (n seg record : Nat) : Nat :=
  ((s.sched.tasks.find? fun t => t.step == n && t.seg == seg &&
    (taskRecOf s t).any fun r => r.kind == 0x0D && r.record == record).map (·.unit)).getD 0

/-- The working tensor of a record was staged in the hopper. -/
def workingStaged (s : State) (u : UpdateRec) : Option TensorRec :=
  match findTensor s u.working with
  | some t => if u.working != noneIndex && stagedIn s t.homeOffset t.bytes then some t else none
  | none => none

/-- DETAIL of DRIFT_AUDIT (13 R288). -/
def driftDetail (tensor core page counted : Nat) : Nat :=
  pack [(19, tensor), (12, core), (21, page), (12, satTo 0xFFF counted)]

/-- One working tensor audited; `seen` counts the tensors of the step found wrong so far. -/
def auditOne (n : Nat) (s : State) (seen : Nat) (e : Nat × Segment × UpdateRec × Nat) : State × Nat :=
  let (seg, _, u, i) := e
  match workingStaged s u with
  | none => (s, seen)
  | some t =>
    let (cells, bad) := auditRecord s n u
    let differs := fun (c : Nat × Byte) => readByte s.mem s.run.head (.task (n + 1) true) c.1 != c.2
    match cells.find? differs with
    | none => (s, seen)
    | some first =>
      let core := updaterOf s n seg i
      let s := count 0x2ED bad s
      let s := if seen = 0 then
          raise evDriftAudit (driftDetail u.working core ((first.1 - t.homeOffset) / pageBytes) bad) s
        else s
      ({ s with
        mem.layers := addLayer ⟨.staged n, cells⟩ s.mem.layers
        sched.suspects := if s.sched.retiredCores.contains core then s.sched.suspects else addNew s.sched.suspects core },
       seen + 1)

def auditStep (n : Nat) (s : State) : State :=
  ((recordsIn s n).foldl (fun (x : State × Nat) e => auditOne n x.1 x.2 e) (s, 0)).1

/-! ### The rollers' test mode (08 R170) -/

/-- The staged pages of a region that its roller repeats: one in every 2^ROLLER_CHECK, from the lowest on. -/
def rollerPages (s : State) (n region : Nat) : List Nat :=
  let pages := sortNat ((s.mem.hopper.filter fun h => h.step == n && pageRegion h.page == region).map (·.page)).eraseDups
  (pages.zipIdx.filter fun e => e.2 % 2 ^ s.numerics.rollerCheck.toNat == 0).map (·.1)

/-- Each roller in service repeats its pages; one that differs sets bit 9 and is retired (15 R326). -/
def rollerChecks (n : Nat) (s : State) : State :=
  if s.numerics.rollerCheck = 0 then s
  else
    (List.range 32).foldl (fun s region =>
      if s.sched.retiredRollers.contains region || !((rollerPages s n region).any (Config.rollerDiffers n)) then s
      else
        finding n vbReplayFailed (raise evCoreRetired (coreRetiredDetail region 2 5 (BitVec.allOnes 32))
          { s with sched.retiredRollers := s.sched.retiredRollers ++ [region] })) s

/-! ### Findings on the gradient norm (R173, bits 1 and 4) -/

/-- The bits a NORM_TENSOR sets. -/
def normBits (s : State) (n : Nat) (tensor : Nat) : W16 :=
  match wholeOf s tensor with
  | none => 0
  | some o =>
    let x := o.read s (.task n false) 0
    let g := ofB32 s.numerics.gMax
    (if x.isFin then 0 else withBit 0 vbGrad) |||
      (if Num.zero.lt g && g.lt (rnd64 x.sqrt) then withBit 0 vbGradNorm else 0)

def normFindings (n : Nat) (s : State) : State :=
  (recordsIn s n).foldl (fun s e =>
    if e.2.2.1.normT = noneIndex then s else findings n (normBits s n e.2.2.1.normT) s) s

/-! ### The contribution and the seedbed (R174, 01 R16) -/

/-- The commit work of a step is gated below the target of a pending scheduled stop (01 R13, 02 R26, R36). -/
def commitBelowStop (s : State) (n : Nat) : Bool :=
  match s.run.stop with
  | some m => !m.scheduled || decide ((posOf n passC 0).toNat < m.target.toNat)
  | none => true

/-- The last work of the local U stream: the audit, the contribution, the seedbed, and the reads that waited for it. -/
def endLocalU (s : State) : State :=
  match s.votes.openStep with
  | none => s
  | some n =>
    if s.moving && !s.votes.contributed && n == stepOf s.run.head && localUDone s n && commitBelowStop s n &&
        !issuesWaiting s n (fun _ _ => true) then
      let s := normFindings n (rollerChecks n (auditStep n (settle s)))
      -- the local U stream ends with its audit; the seedbed opens while the vote is pending (01 R16)
      let s := openSeedbed { s with votes.contributed := true }
      advance (releaseReads (contribute n s))
    else s

def execWorkingPageAudit (s : State) : Answer := .next (endLocalU s)

/-! ### Bounds (R177) -/

/-- The bounds that have expired: bit 0 time, bit 1 distance. -/
def voteBounds (s : State) (n : Nat) : Nat :=
  let time := decide ((posOf n passC 0).toNat ≤ s.run.head.toNat) &&
    decide (s.run.enteredC + ms s.tmo.vote.toNat ≤ s.clock.up)
  let distance := s.tmo.voteDistance != 0 && decide ((posOf n passC 0).toNat ≤ s.run.head.toNat) && (match s.run.seedbedHead with
    | some p => distanceReached p (posOf (n + 1) passF 0) s.tmo.voteDistance.toNat
    | none => false)
  b2n time + 2 * b2n distance

/-- A RUN_BEGIN that some holding master has not joined within the bound (13 R279). -/
def beginLate (s : State) (j : Job) : Bool := isBegin j && decide (j.at_ + ms s.tmo.vote.toNat ≤ s.clock.up)

def voteTimeout (s : State) : State :=
  let late := s.run.jobs.any (beginLate s)
  let s := if late then finishJobs (beginLate s) stTimeout 0 { s with run.begun := [] } else s
  match s.votes.openStep with
  | none => s
  | some n =>
    let b := voteBounds s n
    if !s.moving || s.votes.timeoutSent || s.votes.outcome.isSome || b == 0 then s
    else
      let s := { s with votes.timeoutSent := true }
      if s.isLead then timedOutVote s else sendHedge (leadId s) (.voteTimeout n b) s

def execVoteTimeout (s : State) : Answer := .next (advance (voteTimeout s))

/-- A vote-timeout report at the lead master. -/
def execVoteTimeoutReport (module : ModId) (step bounds : Nat) (s : State) : Answer :=
  .next (
    let s := traceReceive module 0x07 s
    if s.votes.openStep == some step && bounds != 0 then advance (timedOutVote s) else s)

/-! ### Contributions and outcomes -/

def execVoteContribution (module : ModId) (step : Nat) (word : VoteWord) (s : State) : Answer :=
  .next (advance (takeContribution module step word (traceReceive module 0x08 s)))

/-- An outcome broadcast by the lead master. -/
def execVoteOutcome (v : VoteMsg) (s : State) : Answer :=
  .next (advance (takeOutcome v (traceReceive (leadId s) 0x09 s)))

/-- The run may resume of its own accord after a RETRY (R182, 15 R332). -/
def mayResume (s : State) : Bool :=
  s.isLead && s.run.halt == .smear && !s.run.modes.getD 7 false && !s.run.holdResume && !s.host.safeHold &&
  ((match s.votes.outcome, s.run.stopMap with
    | some (_, o), some m => o == outRetry && m.sourceKind == 2
    | _, _ => false) || s.run.succession.any (·.2)) &&
  haltKnown s && reformed s && (s.holding.restore == 0 || s.holding.restore == 4)

/-- The order with which the lead master resumes the run. -/
def resumeDesc : Desc := ⟨0, 0, 0, 0, 0, List.replicate 48 0, .ok []⟩

def execAutoResume (s : State) : Answer :=
  .next (if mayResume s then advance (orderRollBack resumeDesc s) else s)

end Sys2Proof.Machine
end

