-- ==== Sys2Proof/Machine/CollRows.lean ====
section
/-!
DEFINITION. The rows of the collectives (10): data, musters, reservations of bin slots, and the timeouts (R209, R214).
-/
namespace Sys2Proof.Machine

open Sys2Proof

def execCollData (m : CollMsg) (s : State) : Answer := .next (advance (serveOwn (takeData m s)))

def execMuster (module : ModId) (group epoch seq : Nat) (signature : W64) (seedbed : Bool) (s : State) : Answer :=
  .next (advance (serveOwn (takeMuster module group epoch seq signature seedbed (traceReceive module 0x0C s))))

def execGoAhead (group epoch seq : Nat) (go : Bool) (s : State) : Answer :=
  .next (advance (serveOwn (goAhead group epoch seq go (traceReceive ((membersOf s group).headD 0) 0x0D s))))

/-- The end of a segment's or a transfer's data (15 R337). -/
def noticeEnd (source : ModId) (key : DataKey) (sent : Nat) (s : State) : State :=
  match key with
  | .segment k => endOfData source k sent s
  | .bulk tag m => bulkEnd m tag sent s

def execEndOfDataNotice (source : ModId) (key : DataKey) (sent : Nat) (s : State) : Answer :=
  .next (advance (serveOwn (noticeEnd source key sent (traceReceive source 0x0E s))))

/-- A missing range is sent again (15 R337). -/
def sendMissing (source : ModId) (key : DataKey) (first len : Nat) (s : State) : State :=
  match key with
  | .segment k => resendRange source k first s
  | .bulk tag _ => resendTransfer source tag first len s

def execMissingRangeRequest (source : ModId) (key : DataKey) (first len : Nat) (s : State) : Answer :=
  .next (if len = 0 then s else sendMissing source key first len (traceReceive source 0x0F s))

def execReservationRequest (source : ModId) (key : SegKey) (s : State) : Answer :=
  .next (advance (serveOwn (binRequest source key (traceReceive source 0x10 s))))

def execGrant (bin : ModId) (key : SegKey) (s : State) : Answer :=
  .next (advance (serveOwn (takeGrant bin key (traceReceive bin 0x11 s))))

def execTakeBack (bin : ModId) (key : SegKey) (s : State) : Answer :=
  .next (takenBack bin key (traceReceive bin 0x12 s))

/-- A member has withdrawn its request of a segment: the segment has waited too long for a firm reservation, and its collective
ends with TIMEOUT on every member (R209). -/
def takeRelease (key : SegKey) (s : State) : State :=
  match s.coll.live.find? (ofKey key) with
  | some c => endColl c stTimeout s
  | none => { s with
      coll.bin := s.coll.bin.filter fun r => r.key != key
      coll.left := s.coll.left.filter (· != key) }

def execRelease (key : SegKey) (s : State) : Answer := .next (advance (serveOwn (takeRelease key s)))

/-- The requests of a collective's segments withdrawn at the other members' bins (R209). -/
def withdraw (c : CollInst) (s : State) : State :=
  let others := (membersOf s c.group).filter fun m => m != s.holding.moduleId
  others.foldl (fun s m => (List.range (c.segments 1)).foldl (fun s i => sendHedge m (.release (c.key i)) s) s) s

/-- A segment that has waited for a firm reservation for longer than the collective timeout ends its collective with TIMEOUT
and sets bit 9; its requests are withdrawn (R209). -/
def reservationTimeout (key : SegKey) (s : State) : State :=
  match s.coll.reserves.find? fun r => r.key == key && !r.firm, s.coll.live.find? (ofKey key) with
  | some r, some c =>
    if s.clock.up < r.since + ms s.tmo.coll.toNat then s else endColl c stTimeout (withdraw c s)
  | _, _ => s

def execReservationTimeout (key : SegKey) (s : State) : Answer := .next (advance (serveOwn (reservationTimeout key s)))

/-- When this module's copy of the head reached the gate of the collective's task (R214). -/
def collGateAt (s : State) (c : CollInst) : Option Nat := (findTask s c.step c.task).bind (·.gateAt)

/-- When a member last sent something for the collective, or published a task; the gate's time at the earliest (R214). -/
def lastSign (s : State) (c : CollInst) (m : ModId) : Nat :=
  let heard := ((c.heard.find? fun h => h.1 == m).map (·.2)).getD 0
  let published := ((s.holding.beats.find? fun b => b.1 == m).map (·.2.2.2)).getD 0
  max ((collGateAt s c).getD s.clock.up) (max heard published)

/-- The collective awaits something from a member: before the go-ahead its muster, and its data after that. DEDUCED: what is
awaited is the muster or data that R204, R208 and R211 make the member send (log entry 27). -/
def awaitsFrom (s : State) (c : CollInst) (m : ModId) : Bool :=
  !(c.phase == 0 && s.coll.musters.any fun x => x.1 == c.group && x.2.1 == c.epoch && x.2.2.1 == c.seq && x.2.2.2.1 == m)

/-- The module that watches a member for a collective: the group lead, or the lowest surviving rank in the lead's place when the
lead is the silent one or is lost (R214). -/
def watchesColl (s : State) (group : Nat) (member : ModId) : Bool :=
  (membersOf s group).find? (fun m => m != member && !s.holding.lost.contains m) == some s.holding.moduleId

/-- A member that has sent nothing awaited and published nothing for a full timeout after the head reached the gate is lost:
its collectives end with MEMBER_LOST here and, as the broadcast of its loss arrives, on every other member (R214, R215). -/
def collTimeout (group seq : Nat) (member : ModId) (s : State) : State :=
  match s.coll.live.find? fun c => c.op != opEval && c.group == group && c.seq == seq with
  | some c =>
    if (collGateAt s c).isNone || decide (s.clock.up < lastSign s c member + ms s.tmo.coll.toNat) || !awaitsFrom s c member ||
        !(membersOf s group).contains member || !watchesColl s group member then s
    else declareLost member s
  | none => s

def execCollTimeout (group seq : Nat) (member : ModId) (s : State) : Answer :=
  .next (advance (serveOwn (collTimeout group seq member s)))

end Sys2Proof.Machine
end

