-- ==== Sys2Proof/Machine/DescRows.lean ====
section
/-!
DEFINITION. The descriptor rows (13 R277): a descriptor reaches its place at the order point, and executes once its gate is met
and the descriptors before it on its ring have (R281). Rows that name a sub-operation fix its byte.
-/
namespace Sys2Proof.Machine

open Sys2Proof

/-- A parameter-block descriptor whose block names an operation in its first byte. -/
def withBlockOp (k : Nat) (d : Desc) : Desc :=
  match d.data with
  | .ok (_ :: t) => { d with data := .ok (BitVec.ofNat 8 k :: t) }
  | _ => d

/-- A STOP of a kind (02 R35: byte 24). -/
def withStopKind (k : Nat) (d : Desc) : Desc := { d with body := overlay (padTo 48 d.body) 8 [BitVec.ofNat 8 k] }

/-- 12 R243. -/
def execGraphSubmit (d : Desc) (s : State) : Answer := .next (takeDescriptor .graphSubmit d s)

/-- 12 R245. -/
def execGraphRetire (d : Desc) (s : State) : Answer := .next (takeDescriptor .graphRetire d s)

/-- 13 R277. -/
def execTensorDefine (d : Desc) (s : State) : Answer := .next (takeDescriptor .tensorDefine d s)

/-- 13 R277. -/
def execTensorRelease (d : Desc) (s : State) : Answer := .next (takeDescriptor .tensorRelease d s)

/-- 02 R29. -/
def execFurrowAdvance (d : Desc) (s : State) : Answer := .next (takeDescriptor .furrowAdvance d s)

/-- 13 R279. -/
def execRunBegin (d : Desc) (s : State) : Answer := .next (takeDescriptor .runBegin d s)

/-- 10 R196. -/
def execGroupDefine (d : Desc) (s : State) : Answer := .next (takeDescriptor .groupDefine d s)

/-- 10 R217. -/
def execGroupReform (d : Desc) (s : State) : Answer := .next (takeDescriptor .groupReform d s)

/-- 13 R278. -/
def execCopyIn (d : Desc) (s : State) : Answer := .next (takeDescriptor .copyIn d s)

/-- 13 R278. -/
def execCopyOut (d : Desc) (s : State) : Answer := .next (takeDescriptor .copyOut d s)

/-- 16 R353. -/
def execExportConfig (d : Desc) (s : State) : Answer := .next (takeDescriptor .exportConfigure (withBlockOp 0 d) s)

/-- 16 R353. -/
def execExportAcknowledge (d : Desc) (s : State) : Answer := .next (takeDescriptor .exportConfigure (withBlockOp 1 d) s)

/-- 16 R353. -/
def execExportChainBase (d : Desc) (s : State) : Answer := .next (takeDescriptor .exportConfigure (withBlockOp 2 d) s)

/-- 16 R353. -/
def execExportReplayImport (d : Desc) (s : State) : Answer := .next (takeDescriptor .exportConfigure (withBlockOp 3 d) s)

/-- 16 R358. -/
def execSnapshot (d : Desc) (s : State) : Answer := .next (takeDescriptor .snapshot d s)

/-- 02 R35. -/
def execStopScheduled (d : Desc) (s : State) : Answer := .next (takeDescriptor .stop (withStopKind 0 d) s)

/-- 02 R35. -/
def execStopImmediate (d : Desc) (s : State) : Answer := .next (takeDescriptor .stop (withStopKind 1 d) s)

/-- 02 R41, R42. -/
def execResume (d : Desc) (s : State) : Answer := .next (takeDescriptor .resume d s)

/-- 01 R19. -/
def execModeSet (d : Desc) (s : State) : Answer := .next (takeDescriptor .modeSet d s)

/-- 07 R148. -/
def execRootSupply (d : Desc) (s : State) : Answer := .next (takeDescriptor .rootSupply d s)

/-- 09 R178. -/
def execVoteSupply (d : Desc) (s : State) : Answer := .next (takeDescriptor .voteSupply d s)

/-- 11 R232. -/
def execPlacementPin (d : Desc) (s : State) : Answer := .next (takeDescriptor .placementPin d s)

/-- 17 R363. -/
def execCounterConfig (d : Desc) (s : State) : Answer := .next (takeDescriptor .counterConfigure (withBlockOp 0 d) s)

/-- 17 R363. -/
def execCounterReadNow (d : Desc) (s : State) : Answer := .next (takeDescriptor .counterConfigure (withBlockOp 1 d) s)

/-- 17 R363. -/
def execCounterClear (d : Desc) (s : State) : Answer := .next (takeDescriptor .counterConfigure (withBlockOp 2 d) s)

/-- 17 R363. -/
def execCounterStatus (d : Desc) (s : State) : Answer := .next (takeDescriptor .counterConfigure (withBlockOp 3 d) s)

/-- 17 R369. -/
def execTraceConfigArm (d : Desc) (s : State) : Answer := .next (takeDescriptor .traceConfigure (withBlockOp 0 d) s)

/-- 17 R369. -/
def execTraceRearm (d : Desc) (s : State) : Answer := .next (takeDescriptor .traceConfigure (withBlockOp 1 d) s)

/-- 17 R369. -/
def execTraceDisable (d : Desc) (s : State) : Answer := .next (takeDescriptor .traceConfigure (withBlockOp 2 d) s)

/-- 17 R369. -/
def execTraceStatus (d : Desc) (s : State) : Answer := .next (takeDescriptor .traceConfigure (withBlockOp 3 d) s)

/-- 15 R335. -/
def execInjectConfigure (d : Desc) (s : State) : Answer := .next (takeDescriptor .injectConfigure d s)

/-- 13 R281. -/
def execFence (d : Desc) (s : State) : Answer := .next (takeDescriptor .fence d s)

/-! ### Sahith requests (18 R384 to R386) -/

/-- A request by its transport: the DOE mailbox, the management port, or an ATTEST descriptor's block. -/
def takeSahith (t : Transport) (code : Nat) (request : Bytes) (s : State) : State :=
  match t with
  | .doe => sahithOn 0 code request s
  | .mctp => sahithOn 1 code request s
  | .attest d => takeDescriptor .attest { d with data := .ok request } s

def execGetIdentity (t : Transport) (request : Bytes) (s : State) : Answer :=
  .next (takeSahith t sahithIdentity request s)

def execChallenge (t : Transport) (request : Bytes) (s : State) : Answer :=
  .next (takeSahith t sahithChallenge request s)

end Sys2Proof.Machine
end

