-- ==== Sys2Proof/Machine/Faults.lean ====
section
/-!
DEFINITION. The scheduler's rows (12 R260 to R262), the trap's delivery (04 R85), the gleaner's adds (06 R113 to R117), and
the failures of units and of operands (06 R122, 15 R320, R325 to R327, 04 R88).
-/
namespace Sys2Proof.Machine

open Sys2Proof

/-! ### Admission and ageing (12 R260, R261) -/

/-- Instances admitted in their order until a limit holds the next one back. -/
def admitAll : Nat → State → State
  | 0, s => s
  | n + 1, s =>
    match nextAdmission s with
    | none => s
    | some t =>
      let t' := { t with phase := .admitted }
      admitAll n (traceTask 0 t' (setTask t.step t.task (fun _ => t') s))

def execTaskAdmit (s : State) : Answer :=
  .next (if s.run.isOn then advance (admitAll s.sched.tasks.length s) else s)

/-- An instance that has stayed eligible for an ageing interval rises one class. -/
def ageTask (step : Nat) (task : W32) (s : State) : State :=
  match findTask s step task with
  | none => s
  | some t =>
    match t.eligibleAt with
    | none => s
    | some since =>
      if eligible s t && decide (since + ms s.tmo.ageing.toNat ≤ s.clock.up) then
        setTask step task (fun t =>
          { t with boost := t.boost + 1, eligibleAt := some (since + ms s.tmo.ageing.toNat) }) s
      else s

def execAgeingTick (step : Nat) (task : W32) (s : State) : Answer := .next (ageTask step task s)

/-! ### Tiles (12 R257, R262) -/

/-- A task whose tiles and contributions are complete publishes. -/
def tryPublish (t : TaskInst) (s : State) : State :=
  if t.phase == .computed && t.done == t.tiles && t.contributions.isEmpty then publish t s else s

/-- A tile of a FOLD is a chunk of it: the journalled one goes home, and the next is journalled (06 R120). -/
def foldTile (t : TaskInst) (s : State) : State :=
  match segmentOf s t.seg, taskRecOf s t with
  | some g, some r =>
    match g.stats[r.record]? with
    | some st => journalChunk st t.step t.task t.cells (finishChunk t.step t.task s)
    | none => s
  | _, _ => s

/-- A tile completes; a completion of a superseded run is discarded. A tile on a halted core, or one that waits for a Lamio
transaction, does not complete. -/
def tileComplete (step : Nat) (task : W32) (attempt : Nat) (s : State) : State :=
  match findTask s step task with
  | none => s
  | some t =>
    let k := kindOf s t
    if t.phase != .computed || t.attempt != attempt || decide (t.tiles ≤ t.done) || ownEnd k ||
        (unitOf s t == 0 && s.sched.halted.contains t.unit) || s.lamio.txns.any (fun x => x.task == some (step, task)) then s
    else
      let t' := { t with done := t.done + 1 }
      let s := if k = 0x0F then foldTile t s else s
      tryPublish t' (traceTask 3 t' (setTask step task (fun _ => t') s))

def execTileComplete (step : Nat) (task : W32) (attempt : Nat) (s : State) : Answer :=
  .next (advance (tileComplete step task attempt s))

/-! ### The trap (04 R85 to R87) -/

/-- The trap record of a candidate. -/
def trapOf (now : Nat) (c : Nat × Pos × W32 × Nat × Bool × NanEvent) : TrapRecord :=
  let (_, gate, task, stream, seedbed, e) := c
  { taskId := task, stream := stream, cause := e.cause, stage := e.stage, seedbed := seedbed, valid := true,
    gleaner := e.gleaner, unit := e.unit, position := gate, outIndex := BitVec.ofNat 64 e.outIndex,
    kIndex := BitVec.ofNat 32 e.kIndex, since := 0, timestamp := BitVec.ofNat 64 now }

/-- The lowest candidate delivered once every earlier task of the module has settled; the others are dropped. -/
def deliverTrap (s : State) : State :=
  match lowestCandidate s with
  | none => s
  | some c =>
    if trapArmed s && settledBefore s c.1 c.2.1 c.2.2.1 then
      let r := trapOf s.clock.now c
      -- a write of TRAP_ARMED in this cycle leaves the bit set (00 R5, 20 R418)
      let kept := s.numerics.armedAt == some s.clock.up
      let s := { s with sched.candidates := [], numerics.trap := r, numerics.trapArmed := kept }
      -- the task's record in the tally says that it holds the event (13 R286)
      let s := setTask c.1 c.2.2.1 (fun t => { t with status := stNanTrap }) s
      sheafTrigger 0 0 (raise evNanTrap (trapWord r % 2 ^ 64) s)
    else s

def execTrapDeliver (s : State) : Answer := .next (deliverTrap s)

/-! ### The gleaners (06 R113 to R117, R122) -/

/-- The sums of a contribution: patterns, causes of new NaNs by element, overflows. -/
def gleanerSums (old new : List W32) : List W32 × List (Nat × Nat) × Nat :=
  let sums := List.zipWith gleanerAdd old new
  (sums.map (·.1), (sums.mapIdx fun i (x : W32 × Option Nat × Bool) => (x.2.1.map fun c => (i, c)).toList).flatten,
   (sums.filter fun (x : W32 × Option Nat × Bool) => x.2.2).length)

/-- The event of an add (R116): K + 1 as its index, the gleaner's region as its unit. -/
def gleanerEvent (region k : Nat) (e : Nat × Nat) : NanEvent :=
  { outIndex := e.1, kIndex := k + 1, cause := e.2, stage := stageAccumulate, unit := region, gleaner := true }

/-- A task loses a contribution that has been added or discarded, and publishes when it was the last. -/
def dropContribution (t : TaskInst) (q : Nat) (s : State) : State :=
  let t' := { t with contributions := t.contributions.filter fun (c : Nat × List W32) => c.1 != q }
  tryPublish t' (setTask t.step t.task (fun _ => t') s)

/-- A contribution added to its pending block in index order: a duplicate is discarded, one ahead of its turn waits, and so
does one whose block still belongs to another step (R113 to R115). -/
def gleanerAddOne (seg record q step : Nat) (task : W32) (s : State) : State :=
  match findTask s step task, segmentOf s seg with
  | some t, some g =>
    match g.stats[record]?, t.contributions.find? (fun (c : Nat × List W32) => c.1 == q), taskRecOf s t with
    | some stat, some (_, new), some r =>
      let index := (contributors g record q).findIdx (· == t.index)
      let h := statHeader s (.task step true) stat.pendingT q
      let count := if h.state = 0 then 0 else h.count
      if t.phase != .computed || t.seg != seg || r.record != record || (h.state != 0 && h.step != step) then s
      else if index < count then dropContribution t q s
      else if count < index then s
      else
        let n := stat.dim q
        let old := if count = 0 then List.replicate (n * n) 0 else statElems s (.task step true) stat stat.pendingT q
        let (sums, bad, overs) := gleanerSums old new
        let k := match r.inView.head?.bind (operandOf s g) with
          | some src => stat.reduction src.rows q
          | none => 0
        let es := bad.map (gleanerEvent (gleanerOf q) k)
        let sb := s.run.seedbedOpen && decide (stepOf s.run.head < step)
        let cells := statElemCells s stat stat.pendingT q sums ++
          statHeaderCells s stat stat.pendingT q
            { h with count := count + 1, state := 1, step := step, nonfinite := false }
        let s := layCells step 0 sb cells (touchCells cells s)
        let s := if overs = 0 then s else countWork sb slotOverflow overs s
        let s := es.foldl (fun s e => countNan sb task e s) s
        let t' := { t with
          event := joinEvent t.event (firstEvent es)
          counts := t.counts ++ (if overs = 0 then [] else [(slotOverflow, overs)]) ++ nanSlots es }
        sealBlock g record step q stat (dropContribution t' q s)
    | _, _, _ => s
  | _, _ => s

def execGleanerAdd (seg record block : Nat) (step : Nat) (task : W32) (s : State) : Answer :=
  .next (advance (gleanerAddOne seg record block step task s))

/-- The open step whose vote is not yet decided. -/
def voteUndecided (s : State) (n : Nat) : Bool :=
  s.votes.openStep == some n && s.votes.decided.isNone && !(s.votes.outcome.any fun o => o.1 == n)

/-- Steps that own a pending block of a gleaner's region in STATE 1 or 2. -/
def pendingOwners (s : State) (region : Nat) : List Nat :=
  let n := stepOf s.run.head
  ((heldSegments s).flatMap fun e => e.2.stats.flatMap fun t =>
    (List.range t.blocks).filterMap fun q =>
      let h := statHeader s (.task (n + 1) true) t.pendingT q
      if gleanerOf q = region ∧ (h.state = 1 ∨ h.state = 2) then some h.step else none).eraseDups

/-- Bit 9 follows the gleaner's pending blocks (R122). -/
def gleanerLoss (region : Nat) (s : State) : State :=
  match s.votes.openStep with
  | none => s
  | some n =>
    let open_ := fun k => k = n + 1 || (k = n && voteUndecided s n)
    let owners := (pendingOwners s region).filter open_
    if owners.isEmpty then finding (if voteUndecided s n then n else n + 1) vbReplayFailed s
    else owners.foldl (fun s k => finding k vbReplayFailed s) s

/-- A gleaner with an uncorrectable internal error is retired; the cores of its region take its work. -/
def gleanerFailure (region : Nat) (s : State) : State :=
  if 32 ≤ region ∨ s.sched.retiredGleaners.contains region = true then s
  else
    let s := gleanerLoss region { s with sched.retiredGleaners := s.sched.retiredGleaners ++ [region] }
    raise evCoreRetired (coreRetiredDetail region 1 4 (BitVec.allOnes 32)) s

def execGleanerFailure (region : Nat) (s : State) : Answer := .next (gleanerFailure region s)

/-! ### Cores (15 R320, R325) -/

/-- The core for a replayed tile: the one named, when it can take it. -/
def chooseCore (s : State) (failed other : Nat) : Nat :=
  if coreUsable s other && other != failed then other else otherCore s failed

/-- The tasks with a tile in progress on a core, in the order of the list. -/
def runningOn (s : State) (core : Nat) : List TaskInst :=
  s.sched.tasks.filter fun t =>
    t.phase == .computed && t.unit == core && unitOf s t == 0 && decide (t.done < t.tiles)

/-- A core retired until module reset, reported with the task in progress on it. -/
def retireCore (core cause : Nat) (task : W32) (s : State) : State :=
  raise evCoreRetired (coreRetiredDetail core 0 cause task)
    { s with
      sched.retiredCores := addNew s.sched.retiredCores core
      sched.suspects := s.sched.suspects.filter (· != core)
      sched.halted := s.sched.halted.filter (· != core)
      sched.frozen := s.sched.frozen.filter fun (f : Nat × List CellView) => f.1 != core }

/-- A run of a task that fails with no further replay: bit 9 of its step (15 R319, R324, R327). -/
def failTask (t : TaskInst) (s : State) : State :=
  finding t.step vbReplayFailed
    (traceTask 6 t (setTask t.step t.task (fun t => { t with phase := .abandoned, cells := [], contributions := [] }) s))

/-- The core has overrun in the step already. -/
def overranBefore (s : State) (step core : Nat) : Bool :=
  s.sched.tasks.any fun t => t.step == step && t.overran.any fun o => o.1 == core

/-- A tile exceeds its watchdog: it is replayed on another core, and its core becomes suspect, or is retired the second time
in a step; a tile that overruns on two cores makes the task suspect (R325). -/
def watchdogExpiry (step : Nat) (task : W32) (core other : Nat) (s : State) : State :=
  match findTask s step task with
  | none => s
  | some t =>
    -- a tile that an immediate stop abandons is not replayed; its core takes its self-test all the same (15 R339)
    if t.phase == .abandoned && s.run.halt == .smear && t.unit == core && unitOf s t == 0 && coreEnabled s core then
      { s with sched.suspects := addNew s.sched.suspects core }
    else if t.phase != .computed || t.unit != core || unitOf s t != 0 || decide (t.tiles ≤ t.done) ||
        ownEnd (kindOf s t) || !coreEnabled s core then s
    else
      let s := if overranBefore s step core then retireCore core 3 task s
        else { s with sched.suspects := addNew s.sched.suspects core }
      let s := setTask step task (fun t => { t with overran := t.overran ++ [(core, t.done)] }) s
      if !(t.overran.any fun o => o.2 == t.done) then replayTile step task core (chooseCore s core other) 2 s else failTask t s

def execWatchdogExpiry (step : Nat) (task : W32) (core other : Nat) (s : State) : Answer :=
  .next (advance (watchdogExpiry step task core other s))

/-- An uncorrectable SRAM error: the core is retired at once and its tiles are replayed. -/
def coreSramError (core other : Nat) (s : State) : State :=
  if 4096 ≤ core ∨ coreEnabled s core = false then s
  else
    let hit := runningOn s core
    let s := retireCore core 1 ((hit.head?.map (·.task)).getD (BitVec.allOnes 32)) s
    let dst := chooseCore s core other
    hit.foldl (fun s t => replayTile t.step t.task core dst 1 s) s

def execCoreSramError (core other : Nat) (s : State) : Answer := .next (coreSramError core other s)

/-- A suspect core's self-test ends. -/
def selfTestDone (core : Nat) (passed : Bool) (s : State) : State :=
  if s.sched.suspects.contains core then
    if passed then { s with sched.suspects := s.sched.suspects.filter (· != core) }
    else retireCore core 2 (((runningOn s core).head?.map (·.task)).getD (BitVec.allOnes 32)) s
  else s

def execSelfTestDone (core : Nat) (passed : Bool) (s : State) : Answer := .next (selfTestDone core passed s)

/-! ### Harrows (15 R326, 07 R144) -/

/-- A harrow is retired; its solves go on from their last checkpoint on other harrows, or wait for one, and the tile of a
precise apply on it is replayed on another harrow (15 R323). TASK_REPLAYED names cause 1 for it: its causes list no other
failure of a unit (log entry 66). -/
def harrowFault (harrow cause : Nat) (s : State) : State :=
  if 256 ≤ harrow ∨ harrowEnabled s harrow = false ∨ cause = 0 ∨ 3 < cause then s
  else
    let uses := fun (b : BlockSolve) => solveInFlight b && b.harrows.contains harrow
    let record : W32 := match s.harrows.blocks.find? uses with
      | some b => BitVec.ofNat 32 b.key.record
      | none => BitVec.allOnes 32
    let cut := fun (b : BlockSolve) =>
      if uses b then
        let left := b.harrows.filter (· != harrow)
        { b with harrows := left, record := { b.record with status := if left.isEmpty then 1 else b.record.status } }
      else b
    let hit := s.sched.tasks.filter fun t => t.started && preciseApply s t && t.unit == harrow && decide (t.done < t.tiles)
    let s := raise evHarrowRetired (harrowRetiredDetail harrow cause record)
      { s with
        sched.retiredHarrows := s.sched.retiredHarrows ++ [harrow]
        harrows.blocks := s.harrows.blocks.map cut }
    hit.foldl (fun s t => replayTile t.step t.task harrow (otherHarrow s harrow) 1 s) s

def execHarrowFault (harrow cause : Nat) (s : State) : Answer := .next (advance (harrowFault harrow cause s))

/-! ### Poison (15 R327) -/

/-- Lines of a list of ranges. -/
def rangeLines (l : List (Nat × Nat)) : List Nat := l.flatMap fun x => linesOf x.1 x.2

/-- The line belongs to a tensor of a class that has an intact source: neither persistent nor staged. -/
def lineSourced (s : State) (g : Segment) (r : TaskRec) (line : Nat) : Bool :=
  (r.outView.filterMap (operandOf s g)).any fun o =>
    (rangeLines o.ranges).contains line && !([2, 3, 4, 5, 7, 8, 10] : List Nat).contains o.tensor.cls

/-- The task of the step instance that last published a line. -/
def publisherOf (s : State) (step line : Nat) : Option TaskInst :=
  (s.sched.tasks.filter fun t =>
    t.step == step && t.phase == .published && (rangeLines (writeRanges s t)).contains line).foldl
    (fun m t => match m with
      | none => some t
      | some x => if x.pubSeq < t.pubSeq then some t else some x) none

/-- The poisoned lines that running producers again would repair, back to the start of the step; none where a version has no
intact source. -/
def intactSource (s : State) (step : Nat) : Nat → Nat → Option (List Nat)
  | 0, _ => none
  | n + 1, line =>
    match publisherOf s step line with
    | none => none
    | some p =>
      match segmentOf s p.seg, taskRecOf s p with
      | some g, some r =>
        if lineSourced s g r line && p.gate.toNat < (posOf step passC 0).toNat then
          (poisonedOperands s p).foldl (fun acc x => match acc, intactSource s step n x with
            | some l, some m => some (l ++ m)
            | _, _ => none) (some [line])
        else none
      | _, _ => none

/-- Pages whose poisoned version the task reads is persistent state, the committed home of a tensor of classes 2 to 5, 7 or 8: they
are damaged (08 R149, 15 R327 item 3). -/
def damagedPages (s : State) (t : TaskInst) : List Nat :=
  let bound := boundVersions s t
  let persistent := fun (line : Nat) => (definedTensors s).any fun e =>
    e.2.held && ([2, 3, 4, 5, 7, 8] : List Nat).contains e.2.cls && overlap e.2.homeOffset e.2.bytes (64 * line) 64
  (((poisonedOperands s t).filter fun l => persistent l && bound.any fun b => b.1 == l / 32768 && b.2.isNone).map (· / 32768)).eraseDups

/-- Damaged pages noted: the module needs their restoration (15 R331). -/
def noteDamage (ps : List Nat) (s : State) : State :=
  if ps.isEmpty then s else needRestoration s.holding.moduleId { s with mem.damaged := ps.foldl addNew s.mem.damaged }

/-- A task reads a poisoned line: its run fails; with an intact source the producer repairs the line and the task is
replayed; with none bit 9 is set, pages of persistent state are damaged, and a second RETRY for poison holds the run. -/
def poisonedRead (step : Nat) (task : W32) (line other : Nat) (s : State) : State :=
  match findTask s step task with
  | none => s
  | some t =>
    if !(t.phase == .admitted || t.phase == .computed) || !(poisonedOperands s t).contains line then s
    else
      let s := count 0x2E3 1 s
      match intactSource s step (s.sched.tasks.length + 1) line with
      | some lines =>
        let s := lines.foldl (fun s l => writePoison (64 * l) 64 false s) s
        replayTile step task t.unit (if coreUsable s other then other else t.unit) 3 s
      | none =>
        let again := earlierRun s step s.run.poisonRetry
        let s := noteDamage (damagedPages s t) s
        holdRun again (failTask t { s with run.poisonRetry := addNew s.run.poisonRetry (step, attemptOf s step) })

def execPoisonedRead (step : Nat) (task : W32) (line other : Nat) (s : State) : Answer :=
  .next (advance (poisonedRead step task line other s))

/-! ### Debug (04 R88) -/

/-- The output elements of a matrix task as R70 computes them: how many, reduction extent, stint length, preload, operands. -/
structure ElementForm where
  elems : Nat
  len   : Nat
  stint : Nat
  pre   : Nat → Num
  a     : Nat → Nat → Num
  b     : Nat → Nat → Num

/-- The elements of a MATMUL, or of a MATMUL_STAT on its first block. The products of attention are those of scores that no
view holds, and are left free. -/
def elementForm (s : State) (t : TaskInst) : Option ElementForm :=
  match segmentOf s t.seg, taskRecOf s t with
  | some g, some r =>
    let rd := readerOf s t
    match r.kind, r.inView.filterMap (operandOf s g), r.outView.filterMap (operandOf s g), g.stats[r.record]? with
    | 0x01, a :: b :: rest, c :: _, _ =>
      let f := matmulForm r
      some {
        elems := c.elems, len := matmulK f a, stint := stintLength r.stint
        pre := fun e => match rest.head? with
          | none => .zero
          | some o => if f.bias then o.read s rd ((c.coords e).headD 0) else o.read s rd e
        a := fun e k => a.read s rd (a.linear (coordsA f k (c.coords e)))
        b := fun e k => b.read s rd (b.linear (coordsB f k (c.coords e))) }
    | 0x02, src :: _, _, some st =>
      let q := r.blockFirst
      let n := st.dim q
      some {
        elems := n * n, len := st.reduction src.rows q, stint := stintLength r.stint, pre := fun _ => .zero
        a := fun e k => src.read s rd (st.source src.row q (e / n) k)
        b := fun e k => src.read s rd (st.source src.row q (e % n) k) }
    | _, _, _, _ => none
  | _, _ => none

/-- A cell that has done `done` products of element `e`: its registers by R70, the grains of the product it takes next (of the
last one when all are done). -/
def cellView (f : ElementForm) (e done : Nat) : CellView :=
  let c := refProducts false f.stint f.len (f.a e) (f.b e) done 0 (startCell (f.pre e) false)
  let k := min done (f.len - 1)
  { acc := toB32 c.acc, wide := toB64 c.wide, grainA := grain (f.a e k), grainB := grain (f.b e k)
    k := BitVec.ofNat 32 k, stint := BitVec.ofNat 32 (k / f.stint) }

/-- The cells of a core at a halt. Which element a cell holds and how far it has got are free (timing); what it then holds is
R70's. The cells of a core that runs no task of known products are free. -/
def haltedCells (s : State) (core halt : Nat) : List CellView :=
  let form := (s.sched.tasks.find? fun t => t.started && t.unit == core && unitOf s t == 0).bind (elementForm s)
  (List.range 2048).map fun i =>
    let v := Config.cellAtHalt halt i
    match form with
    | some f => cellView f ((v 4).toNat % f.elems) ((v 5).toNat % (f.len + 1))
    | none =>
      { acc := (v 0).truncate 32, wide := v 1, grainA := (v 2).truncate 24, grainB := (v 3).truncate 24,
        k := (v 4).truncate 32, stint := (v 5).truncate 32 }

/-- A request to read the cells of a core (R88). No command of the table carries the request; this is what it answers. -/
def readCells (core : Nat) (s : State) : Except Nat (List CellView) :=
  if s.security.state = 1 ∧ s.sched.halted.contains core = true then
    match s.sched.frozen.find? fun f => f.1 == core with
    | some f => .ok f.2
    | none => .error stNotPermitted
  else .error stNotPermitted

/-- In the open state a core is halted, its cells frozen for reading. -/
def coreHalt (core : Nat) (s : State) : State :=
  if s.security.state = 1 ∧ core < 4096 ∧ coreEnabled s core = true ∧ s.sched.halted.contains core = false then
    { s with
      sched.halted := s.sched.halted ++ [core]
      sched.frozen := s.sched.frozen ++ [(core, haltedCells s core s.sched.halts)]
      sched.halts := s.sched.halts + 1 }
  else s

def execCoreHalt (core : Nat) (s : State) : Answer := .next (coreHalt core s)

/-- A halted core continues its tiles from the values at the halt. -/
def coreResume (core : Nat) (s : State) : State :=
  if s.security.state = 1 ∧ s.sched.halted.contains core = true then
    { s with
      sched.halted := s.sched.halted.filter (· != core)
      sched.frozen := s.sched.frozen.filter fun (f : Nat × List CellView) => f.1 != core }
  else s

def execCoreResume (core : Nat) (s : State) : Answer := .next (coreResume core s)

end Sys2Proof.Machine
end

