-- ==== Sys2Proof/Machine/TaskRows.lean ====
section
/-!
DEFINITION. The rows of the task kinds (12 R251, R252): which instance a row starts and when, and what each kind's run does.
The rows of SOLVE stand with the harrows.
-/
namespace Sys2Proof.Machine

open Sys2Proof

/-! ### Dispatch (12 R261, R262) -/

/-- The dispatch class: commit work, U, B, F, S, E, X; ageing raises an instance, never into the class of commit work. -/
def dispatchClass (t : TaskInst) : Nat :=
  let base := if t.stream = streamU then 1 else if t.stream = streamB then 2 else if t.stream = streamF then 3
    else if t.stream = streamS then 4 else if t.stream = streamE then 5 else 6
  if t.commitWork then 0 else max 1 (base - t.boost)

/-- Before in the order of dispatch: class, then step, gate, task ID. -/
def dispatchBefore (a b : TaskInst) : Bool :=
  decide (dispatchClass a < dispatchClass b) || (dispatchClass a == dispatchClass b && instBefore a b)

/-- No eligible instance that competes for the same units goes first. -/
def firstInLine (s : State) (t : TaskInst) : Bool :=
  s.run.modes.getD 0 false ||
  s.sched.tasks.all fun x =>
    !(dispatchBefore x t && unitOf s x == unitOf s t && eligible s x && (poisonedOperands s x).isEmpty)

/-- The unit named may run the task: a usable core, a region's gleaner, a harrow free of precise work, or one of the engines. -/
def unitOk (s : State) (t : TaskInst) (unit : Nat) : Bool :=
  if preciseApply s t then decide (unit < 256) && harrowEnabled s unit && !harrowTaken s unit
  else
    match unitOf s t with
    | 0 => coreUsable s unit
    | 1 => decide (unit < 32)
    | _ => decide (unit < 4096)

/-- What a row of a kind starts: the instance named, when it is of the kind, eligible, first in line, its operands unpoisoned,
its unit can take it, and every page of its output views has a fresh frame to be had (R253). -/
def startable (s : State) (kind : Nat) (r : TaskRun) : Option (TaskInst × Segment × TaskRec) :=
  match findTask s r.step r.task with
  | none => none
  | some t =>
    match segmentOf s t.seg, taskRecOf s t with
    | some g, some k =>
      if k.kind == kind && eligible s t && unitOk s t r.unit && (poisonedOperands s t).isEmpty && firstInLine s t &&
          (freshFrames t.step t.task (outputPages s t) s).isSome then
        some (t, g, k)
      else none
    | _, _ => none

/-- A run of a kind that computes a `Work`. -/
def startKind (kind : Nat) (r : TaskRun) (f : TaskInst → Segment → TaskRec → Work) (s : State) : State :=
  match startable s kind r with
  | none => s
  | some (t, g, k) =>
    let w := f t g k
    if w.fail then failRun t s else startRun r w t s

/-- Operand views of a record. -/
def insOf (s : State) (g : Segment) (k : TaskRec) : List Operand := k.inView.filterMap (operandOf s g)

def outsOf (s : State) (g : Segment) (k : TaskRec) : List Operand := k.outView.filterMap (operandOf s g)

/-- The image of a record's program. -/
def imageOf (g : Segment) (k : TaskRec) : Option Bytes := if k.program = noneIndex then none else some (programImage g k.program)

/-- What a task's program runs on: its lane input where it is an epilogue (04 R82), and the engine after the whole of it. -/
def taskProgram (s : State) (t : TaskInst) (g : Segment) (k : TaskRec) (img : Bytes) : Option (List W32) × VecCtx :=
  let r := readerOf s t
  let ins := insOf s g k
  let outs := outsOf s g k
  let input := match ins, outs with
    | a :: b :: pre, c :: _ =>
      if k.kind = 0x01 then some (laneInput (matmulCells s r (matmulForm k) k.stint a b pre.head? c)) else none
    | _, _ => none
  (input, (programRun s r t.gate img ins outs input).1)

/-- The vector engine of a core at the first group of a task's program (05 R89, R91), with the values the program delivers to
its output views. -/
def bindVector (unit : Nat) (t : TaskInst) (g : Segment) (k : TaskRec) (img : Bytes) (s : State) : State :=
  let h := vecHeader img
  let (input, done) := taskProgram s t g k img
  let n := ((outsOf s g k).head?.map Operand.row).getD 0
  let e : VecCtx :=
    { bodyStart n 0 0 (loadEngine img input) with
      seed := if h.seedSelect then h.seed else s.run.seed
      gate := t.gate, stores := done.stores, task := some (t.step, t.task) }
  { s with vec := tset {} s.vec unit e }

/-- A run of a kind whose program engages the core's vector engine. -/
def startProgram (kind : Nat) (r : TaskRun) (f : TaskInst → Segment → TaskRec → Work) (s : State) : State :=
  match startable s kind r with
  | none => s
  | some (t, g, k) =>
    let w := f t g k
    let s := match imageOf g k with
      | some img => bindVector r.unit t g k img s
      | none => s
    if w.fail then failRun t s else startRun r w t s

/-! ### The matrix and vector kinds -/

def matmulRun (s : State) (unit : Nat) (t : TaskInst) (g : Segment) (k : TaskRec) : Work :=
  match insOf s g k, outsOf s g k with
  | a :: b :: pre, c :: _ => matmulWork s (readerOf s t) unit t.gate k (imageOf g k) a b pre.head? c
  | _, _ => {}

def execMatmul (r : TaskRun) (s : State) : Answer := .next (advance (startProgram 0x01 r (matmulRun s r.unit) s))

def matmulStatRun (s : State) (unit : Nat) (t : TaskInst) (g : Segment) (k : TaskRec) : Work :=
  match insOf s g k, g.stats[k.record]? with
  | src :: _, some st => statWork s (readerOf s t) unit st k.stint src k.blockFirst k.blockCount
  | _, _ => {}

/-- A run of a statistic kind; in a step that is not due its instance completes at once, on no unit (06 R109). -/
def statKind (kind : Nat) (r : TaskRun) (f : TaskInst → Segment → TaskRec → Work) (s : State) : State :=
  match findTask s r.step r.task with
  | none => s
  | some t =>
    if notDue s t && kindOf s t == kind then (if eligible s t then completeAtOnce t s else s)
    else
      match startable s kind r with
      | none => s
      | some (t, g, k) => startRun r (f t g k) t s

def execMatmulStat (r : TaskRun) (s : State) : Answer := .next (advance (statKind 0x02 r (matmulStatRun s r.unit) s))

def attentionFwdRun (s : State) (unit : Nat) (t : TaskInst) (g : Segment) (k : TaskRec) : Work :=
  match insOf s g k, outsOf s g k with
  | [q, kk, v], [o, lse] => attentionFwdWork s (readerOf s t) unit (attnForm k) q kk v o lse
  | _, _ => {}

def execAttentionFwd (r : TaskRun) (s : State) : Answer := .next (advance (startKind 0x03 r (attentionFwdRun s r.unit) s))

def attentionBwdRun (s : State) (unit : Nat) (t : TaskInst) (g : Segment) (k : TaskRec) : Work :=
  match insOf s g k, outsOf s g k with
  | [q, kk, v, o, dO, lse], [dQ, dK, dV] => attentionBwdWork s (readerOf s t) unit (attnForm k) q kk v o dO lse dQ dK dV
  | _, _ => {}

def execAttentionBwd (r : TaskRun) (s : State) : Answer := .next (advance (startKind 0x04 r (attentionBwdRun s r.unit) s))

def vectorProgramRun (s : State) (unit : Nat) (t : TaskInst) (g : Segment) (k : TaskRec) : Work :=
  match imageOf g k with
  | some img => vectorWork s (readerOf s t) unit t.gate img (insOf s g k) (outsOf s g k)
  | none => {}

def execVectorProgram (r : TaskRun) (s : State) : Answer := .next (advance (startProgram 0x05 r (vectorProgramRun s r.unit) s))

/-- PARAM bytes 4 to 7 as binary32. -/
def param32 (k : TaskRec) : Num := ofB32 (BitVec.ofNat 32 (field k.param 4 4))

def normRun (s : State) (unit : Nat) (t : TaskInst) (g : Segment) (k : TaskRec) : Work :=
  match insOf s g k, outsOf s g k with
  | x :: rest, y :: _ =>
    let gain := match rest with
      | a :: b :: _ => some (a, b)
      | _ => none
    normWork s (readerOf s t) unit (byteAt k.param 0 == 0) (param32 k) x gain y
  | _, _ => {}

def execNorm (r : TaskRun) (s : State) : Answer := .next (advance (startKind 0x06 r (normRun s r.unit) s))

def softmaxRun (s : State) (unit : Nat) (t : TaskInst) (g : Segment) (k : TaskRec) : Work :=
  match insOf s g k, outsOf s g k with
  | x :: _, y :: _ => softmaxWork s (readerOf s t) unit x y
  | _, _ => {}

def execSoftmax (r : TaskRun) (s : State) : Answer := .next (advance (startKind 0x07 r (softmaxRun s r.unit) s))

def lossRun (s : State) (unit : Nat) (t : TaskInst) (g : Segment) (k : TaskRec) : Work :=
  match insOf s g k, outsOf s g k with
  | x :: y :: _, l :: d :: _ => lossWork s (readerOf s t) unit x y l d
  | _, _ => {}

def execLoss (r : TaskRun) (s : State) : Answer := .next (advance (startKind 0x08 r (lossRun s r.unit) s))

def gatherRun (s : State) (unit : Nat) (t : TaskInst) (g : Segment) (k : TaskRec) : Work :=
  match insOf s g k, outsOf s g k with
  | a :: i :: _, o :: _ => gatherWork s (readerOf s t) unit a i o
  | _, _ => {}

def execGather (r : TaskRun) (s : State) : Answer := .next (advance (startKind 0x09 r (gatherRun s r.unit) s))

def scatterRun (s : State) (unit : Nat) (t : TaskInst) (g : Segment) (k : TaskRec) : Work :=
  match insOf s g k, outsOf s g k with
  | a :: i :: _, o :: _ => scatterWork s (readerOf s t) unit (byteAt k.param 0 == 1) a i o
  | _, _ => {}

def execScatter (r : TaskRun) (s : State) : Answer := .next (advance (startKind 0x0A r (scatterRun s r.unit) s))

/-! ### The update (08 R153) -/

def preconditionRun (s : State) (unit : Nat) (t : TaskInst) (g : Segment) (k : TaskRec) : Work :=
  match insOf s g k, outsOf s g k, g.updates[k.record]? with
  | d :: _, p :: _, some u => preconditionWork s (readerOf s t) unit t.seg t.step g u k.stint d p k.blockFirst k.blockCount
  | _, _, _ => {}

def execPreconditionApply (r : TaskRun) (s : State) : Answer :=
  .next (advance (startKind 0x0C r (preconditionRun s r.unit) s))

/-- UPDATE: its results are staged in the hopper, and so is the change of its fallow queue. -/
def startUpdate (r : TaskRun) (s : State) : State :=
  match startable s 0x0D r with
  | none => s
  | some (t, g, k) =>
    match g.updates[k.record]? with
    | none => startRun r {} t s
    | some u =>
      let p := (insOf s g k).head?.map fun o => o.values s (readerOf s t)
      let (w, q) := updateTask s (readerOf s t) r.unit t.seg t.step g u p
      if ((stageFrames t.step (stagedPages w) s).bind (freshFrames t.step t.task (outputPages s t))).isNone then s
      else
        let s := match q with
          | some q => setFallow q s
          | none => s
        startRun r w t s

def execUpdate (r : TaskRun) (s : State) : Answer := .next (advance (startUpdate r s))

/-! ### Commit work and copies -/

/-- A FOLD begun, or resumed after an interruption: a chunk in a valid journal slot is copied home again, chunks that are done are
passed over, and the others, each a tile, are computed; the first of them is journalled (06 R118 to R120). -/
def startFold (r : TaskRun) (s : State) : State :=
  match startable s 0x0F r with
  | none => s
  | some (t, g, k) =>
    match g.stats[k.record]? with
    | none => startRun r {} t s
    | some st =>
      let total := (foldChunks st).length
      let s := finishChunk t.step t.task s
      let done := (journalOf s t.step t.task).done
      let w := foldWork s (readerOf s t) st done t.step
      journalChunk st t.step t.task w.cells (startRun { r with tiles := total - done } w t s)

/-- FOLD; in a step that is not a statistic step of its record it completes at once, on no unit (06 R109). -/
def execFold (r : TaskRun) (s : State) : Answer :=
  .next (advance (match findTask s r.step r.task with
    | some t => if notDue s t && kindOf s t == 0x0F then (if eligible s t then completeAtOnce t s else s) else startFold r s
    | none => s))

/-- FINGERPRINT forms the records of its step, or waits for room in staging (16 R346, R352); a fingerprint that differs from the one
of the step before a restoration halts the run first (15 R334). -/
def startFingerprint (r : TaskRun) (s : State) : State :=
  match startable s 0x12 r with
  | none => s
  | some (t, _, _) =>
    let s := formFingerprint t.step s
    if (s.votes.commits.any fun c => c.step == t.step && c.fingerprintDone) && s.run.halt == .running then startRun r {} t s else s

def execFingerprint (r : TaskRun) (s : State) : Answer := .next (advance (startFingerprint r s))

/-- EXPORT emits the records formed, as far as the sink has space (16 R351). -/
def startExport (r : TaskRun) (s : State) : State :=
  match startable s 0x11 r with
  | none => s
  | some (t, _, _) => emit (startRun r {} t s)

def execExportRecord (r : TaskRun) (s : State) : Answer := .next (advance (startExport r s))

/-- Reads of a task on a peer's memory (14 R303, R304), 224 bytes at most each. -/
def readFor (m : ModId) (t : TaskInst) (off len : Nat) (s : State) : State :=
  let ctx : W32 × Nat × Nat := (t.task, t.step % 2 ^ 24, (t.attempt + 1) % 256)
  (List.range (ceilDiv len 224)).foldl (fun s i =>
    (issue ptReadReq m (off + 224 * i) (ceilDiv (min 224 (len - 224 * i)) 8) [] (bySeedbed s t) (some ctx)
      (some (t.step, t.task)) false s).2) s

/-- MOVE from this module's memory or a peer's shard of the same tensor (R252). -/
def startMove (r : TaskRun) (s : State) : State :=
  match startable s 0x10 r with
  | none => s
  | some (t, g, k) =>
    match insOf s g k, outsOf s g k with
    | src :: _, dst :: _ =>
      let m : ModId := BitVec.ofNat 16 (field k.param 0 2)
      if m = 0xFFFF ∨ m = s.holding.moduleId then
        startRun r (moveWork r.unit (tensorBytes s (readerOf s t) src.tensor) src dst) t s
      else
        let s := startRun r (moveWork r.unit (fun o => r.remote.getD o 0) src dst) t s
        src.ranges.foldl (fun s x => readFor m t x.1 x.2 s) s
    | _, _ => startRun r {} t s

def execMove (r : TaskRun) (s : State) : Answer := .next (advance (startMove r s))

/-! ### Collectives (10 R198, 12 R252) -/

/-- A COLLECTIVE of the row's operation starts. -/
def startCollective (op : Nat) (r : TaskRun) (s : State) : State :=
  match startable s 0x0B r with
  | none => s
  | some (t, g, k) => if (collForm k).op = op then beginColl r.unit t g k s else s

def execAllReduce (r : TaskRun) (s : State) : Answer := .next (advance (startCollective opAllReduce r s))
def execReduceScatter (r : TaskRun) (s : State) : Answer := .next (advance (startCollective opReduceScatter r s))
def execAllGather (r : TaskRun) (s : State) : Answer := .next (advance (startCollective opAllGather r s))
def execBroadcast (r : TaskRun) (s : State) : Answer := .next (advance (startCollective opBroadcast r s))
def execAllToAll (r : TaskRun) (s : State) : Answer := .next (advance (startCollective opAllToAll r s))
def execBarrier (r : TaskRun) (s : State) : Answer := .next (advance (startCollective opBarrier r s))
def execCollectiveVote (r : TaskRun) (s : State) : Answer := .next (advance (startCollective opVote r s))
def execCollectiveNorm (r : TaskRun) (s : State) : Answer := .next (advance (startCollective opNorm r s))

def startEvalReduce (r : TaskRun) (s : State) : State :=
  match startable s 0x13 r with
  | none => s
  | some (t, g, k) => beginColl r.unit t g k s

def execEvalReduce (r : TaskRun) (s : State) : Answer := .next (advance (startEvalReduce r s))

end Sys2Proof.Machine
end

