-- ==== Sys2Proof/Machine/SolveRows.lean ====
section
/-!
DEFINITION. The rows of the harrows (07): SOLVE issues the solves of a fold (R130, R131, R145), harrows are assigned (R136), a
solve passes its boundaries (R133 to R135, R139) and its acceptance test (R138), and deadlines are decided (R140 to R142).
-/
namespace Sys2Proof.Machine

open Sys2Proof

/-! ### Blocks -/

def setBlock (k : SolveKey) (f : BlockSolve → BlockSolve) (s : State) : State :=
  { s with harrows.blocks := mapFirst (fun b => b.key == k) f s.harrows.blocks }

/-- DETAIL of ROOT_REUSED, ROOT_AGE_LIMIT and WARM_START_REJECTED (13 R288). -/
def rootDetail (k : SolveKey) (age : Nat) : Nat := pack [(24, k.record), (8, k.seg), (24, k.block), (8, age)]

/-- A happening of class 7 traced (17 R368): 0 boundary, 1 acceptance, 2 rejection, 3 deadline decision. -/
def traceSolve (type : Nat) (b : BlockSolve) (s : State) : State :=
  trace 7 type false b.record.harrowFirst (BitVec.allOnes 32) (pack [(32, b.key.block), (32, b.record.boundary)]) s

/-- The NaN events of a boundary, with the unit that made them and the boundary's index (R139). -/
def solveEvents (unit k : Nat) (es : List (Nat × Nat)) : List NanEvent :=
  es.map fun e => nanEvent unit e.1 (e.2, stageHarrow, k)

/-- The work of a boundary counted: FMA and divide or square-root operations in the solve precision (17 R362). -/
def countHarrow (precise : Bool) (fmas divs : Nat) (s : State) : State :=
  let s := if fmas = 0 then s else countWork false (0x220 + b2n precise) fmas s
  if divs = 0 then s else countWork false (0x222 + b2n precise) divs s

/-- The SOLVE task of a block's present solve. -/
def solveTask (s : State) (b : BlockSolve) : Option TaskInst :=
  match b.work with
  | none => none
  | some w => s.sched.tasks.find? fun t =>
      t.step == w.foldStep && t.seg == b.key.seg && (taskRecOf s t).any fun r =>
        r.kind == 0x0E && r.record == b.key.record && decide (r.blockFirst ≤ b.key.block) &&
          decide (b.key.block < r.blockFirst + r.blockCount)

/-- The NaN events of a block's solve counted against its task. -/
def countSolveNans (b : BlockSolve) (es : List NanEvent) (s : State) : State :=
  let task := ((solveTask s b).map (·.task)).getD (BitVec.allOnes 32)
  es.foldl (fun s e => countNan false task e s) s

/-- A block's workspace area written as its solve stands, with the candidate it keeps until that is installed (R137). -/
def writeArea (k : SolveKey) (f : SolveForm) (s : State) : State :=
  match findBlock s k, findTensor s f.root.work with
  | some b, some t =>
    let kept : Option Candidate := match b.candidate with
      | some c => some c
      | none => b.decisions.findSome? fun (d : Decision) => d.selected
    if t.held then
      writeCells (cellsAt (t.homeOffset + f.areaAt k.block)
        (f.areaBytes k.block b.slot b.record.boundary (b.work.getD {}) ((kept.map (·.block)).getD []))) s
    else s
  | _, _ => s

/-- A boundary's result put into the block: the record renewed with the harrows of the boundary, the first event of the solve
(that of the lowest element within boundary 0, to which the assembly belongs), the workspace. -/
def applyBound (k : SolveKey) (f : SolveForm) (i : Nat) (x : Bound) (es : List NanEvent) (s : State) : State :=
  let put := fun (b : BlockSolve) =>
    let prior := b.work.bind (·.event)
    let done := if x.whole then i else b.record.boundary
    let r := { b.record with
      boundary := done, iterations := if 2 ≤ f.root.algorithm then done else 0
      harrowCount := b.harrows.length, harrowFirst := b.harrows.foldl min (b.harrows.headD 0) }
    { b with
      work := some { x.work with
        event := if i = 0 then joinEvent prior (firstEvent es) else if prior.isSome then prior else firstEvent es
        ended := x.work.ended || x.status != 0 }
      record := if x.status = 0 then r else { r with status := x.status }
      harrows := if x.status = 0 then b.harrows else [] }
  let s := writeArea k f (countHarrow f.root.precision x.fmas x.divs (setBlock k put s))
  match findBlock s k with
  | none => s
  | some b =>
    let s := traceSolve 0 b (countSolveNans b es s)
    if x.status = 0 then s else traceSolve 2 b s

/-! ### SOLVE (R130, R131, R145) -/

/-- The region whose assembler takes a block, and the unit its events name: its lowest harrow. -/
def assemblerUnit (q : Nat) : Nat := 8 * (q % 32)

/-- A solve of a block issued at the fold of a step: assembled, waiting for a harrow. A warm start reads the root as it is now
installed. -/
def issueSolve (f : SolveForm) (k : SolveKey) (step : Nat) (s : State) : State :=
  let q := k.block
  let h := installedHeader s f q
  let newton := f.root.algorithm == 2
  let hasRoot := h.state == 1 || h.state == 2
  let warmRejected := newton && hasRoot && !f.usable q h
  let warm := if newton && f.usable q h then
      some ((List.range (f.stat.dim q * f.stat.dim q)).map (rootElem f (installedBlock s f q)))
    else none
  let limit := effLimit s f.root * (if warmRejected then 2 else 1)
  let hdr := statHeader s .plain f.stat.running q
  let (w, ev) := assembledWork f hdr q (statElems s .plain f.stat f.stat.running q) warm limit step
  let es := solveEvents (assemblerUnit q) 0 ev
  let start := fun (b : BlockSolve) =>
    let r := { b.record with
      status := 1, warmRejected := newton && warmRejected, iterations := 0,
      harrowCount := 0, harrowFirst := 0, statStep := step, deadline := deadlineOf f step, boundary := 0 }
    { b with record := r, work := some { w with event := firstEvent es }, harrows := [] }
  let s := writeArea k f (setBlock k start s)
  match findBlock s k with
  | none => s
  | some b =>
    let s := countSolveNans b es s
    if warmRejected then raise evWarmStartRejected (rootDetail k b.record.age) s else s

/-- One named block at the fold: a solve, or a fold skipped while one is in flight. In host-assisted mode the fold awaits
ROOT_SUPPLY under the same deadline. -/
def foldBlockSolve (seg record step : Nat) (f : SolveForm) (s : State) (q : Nat) : State :=
  let k : SolveKey := ⟨seg, record, q⟩
  match findBlock s k with
  | none => s
  | some b =>
    if s.run.modes.getD 4 false then
      setBlock k (fun b => { b with work := some { foldStep := step, ended := true } }) s
    else if solveInFlight b then
      setBlock k (fun b => { b with record := { b.record with
        skippedBusy := satTo (2 ^ 32 - 1) (b.record.skippedBusy + 1) } }) s
    else issueSolve f k step s

def startSolve (r : TaskRun) (s : State) : State :=
  match startable s 0x0E r with
  | none => s
  | some (t, _, k) =>
    let s := startRun { r with tiles := 1 } {} t s
    let s := match solveForm s t.seg k.record with
      | some f =>
        if f.stat.due t.step then
          (upto k.blockFirst (k.blockFirst + k.blockCount)).foldl (foldBlockSolve t.seg k.record t.step f) s
        else s
      | none => s
    endSolves s

def execSolve (r : TaskRun) (s : State) : Answer := .next (advance (startSolve r s))

/-! ### Harrows (R136) -/

/-- The most harrows on a block's solve. -/
def harrowLimit (r : RootRec) : Nat := if r.harrows = 0 then 64 else min 64 r.harrows

/-- A harrow serves another solve, or a precise apply. -/
def harrowBusy (s : State) (k : SolveKey) (h : Nat) : Bool :=
  harrowTaken s h || s.harrows.blocks.any fun b => b.key != k && solveInFlight b && b.harrows.contains h

/-- The algorithm of a solve started on its harrows, which ends boundary 0 (R139). -/
def beginSolve (k : SolveKey) (f : SolveForm) (s : State) : State :=
  match findBlock s k with
  | some b =>
    match b.work with
    | some w =>
      if w.begun || w.ended then s
      else
        let x := boundary0 f w
        endSolves (applyBound k f 0 x (solveEvents (b.harrows.headD 0) 0 x.events) s)
    | none => s
  | none => s

/-- Harrows assigned to a solve that waits, which it then starts, or at a boundary of one that runs. -/
def assignHarrows (k : SolveKey) (hs : List Nat) (s : State) : State :=
  match findBlock s k, solveForm s k.seg k.record with
  | some b, some f =>
    let ok := !hs.isEmpty && decide (hs.length ≤ harrowLimit f.root) && hs.eraseDups.length == hs.length &&
      hs.all fun h => decide (h < 256) && harrowEnabled s h && !harrowBusy s k h
    if s.moving && ok && (b.record.status == 1 || b.record.status == 2) then
      beginSolve k f (setBlock k (fun b => { b with
        harrows := hs
        record := { b.record with status := 2, harrowCount := hs.length, harrowFirst := hs.foldl min (hs.headD 0) } }) s)
    else s
  | _, _ => s

def execSolveHarrowAssign (k : SolveKey) (harrows : List Nat) (s : State) : Answer := .next (assignHarrows k harrows s)

/-- The next boundary of a running solve: a column, an iteration or a sweep. A solve waits while a precise apply has one of its
harrows. -/
def passBoundary (k : SolveKey) (s : State) : State :=
  match findBlock s k, solveForm s k.seg k.record with
  | some b, some f =>
    match b.work with
    | none => s
    | some w =>
      if !s.moving || b.record.status != 2 || w.ended || !w.begun || b.harrows.isEmpty || b.harrows.any (harrowTaken s) then s
      else
        let i := b.record.boundary + 1
        let x := solveBoundary f (effTol s f.root) i w
        endSolves (applyBound k f i x (solveEvents (b.harrows.headD 0) i x.events) s)
  | _, _ => s

def execSolveBoundary (k : SolveKey) (s : State) : Answer := .next (advance (passBoundary k s))

/-- The acceptance test of a solve whose algorithm has ended: an accepted root becomes the block's candidate. -/
def acceptSolve (k : SolveKey) (s : State) : State :=
  match findBlock s k, solveForm s k.seg k.record with
  | some b, some f =>
    match b.work with
    | none => s
    | some w =>
      if !s.moving || b.record.status != 2 || !w.ended || b.harrows.isEmpty || b.harrows.any (harrowTaken s) then s
      else
        let (rho, ev, bad) := acceptance f w
        let es := solveEvents (b.harrows.headD 0) 0xFFFFFFFF ev
        let good := rho.le (effTol s f.root) && !bad
        let status := if bad then rejectedNonfinite else if good then 4 else rejectedResidual
        let n := w.n
        let root : Candidate :=
          { statStep := w.foldStep, residual := toB64 rho, state := 1, iterations := b.record.iterations,
            block := rootBlockBytes f.tensor.format f.rootWidth w.x }
        let put := fun (b : BlockSolve) => { b with
          harrows := []
          candidate := if good then some root else b.candidate
          work := some { w with event := if w.event.isSome then w.event else firstEvent es }
          record := { b.record with status := status, residual := toB64 rho } }
        let s := writeArea k f (countHarrow f.root.precision (2 ^ f.root.pLog2 * n * n * n) 2 (setBlock k put s))
        let s := countSolveNans b es s
        endSolves (traceSolve (if good then 1 else 2) b s)
  | _, _ => s

def execSolveAcceptance (k : SolveKey) (s : State) : Answer := .next (advance (acceptSolve k s))

/-! ### Deadlines (R140 to R142) -/

/-- The deadline of the block's outstanding solve, or of the fold that awaits a supplied root, is reached at step m and no
committed step has decided it. -/
def deadlineReached (f : SolveForm) (b : BlockSolve) (m : Nat) : Bool :=
  b.work.any fun w => !w.covered && decide ((deadlineOf f w.foldStep).toNat ≤ (posOf m passU f.stat.layer).toNat)

/-- The candidate was accepted after its deadline had been decided. -/
def candidateLate (b : BlockSolve) (c : Candidate) : Bool :=
  b.work.any fun w => decide (c.statStep < w.foldStep) || (c.statStep == w.foldStep && w.covered)

/-- LAG of a root answering step s, used in step m. -/
def lagOf (m s : Nat) : Nat := satTo 255 (m - 1 - s)

/-- The decision of the table of R140 for step m, with whether it is one at a deadline or with a candidate. -/
def decideRoot (s : State) (f : SolveForm) (b : BlockSolve) (m : Nat) : Decision × Bool :=
  let r := b.record
  let h := installedHeader s f b.key.block
  let usable := f.usable b.key.block h
  let base : Decision :=
    { step := m, outcome := r.outcome, carried := r.carried, fallback := r.fallback, age := r.age, lag := r.lag,
      diagonal := false, selected := none, before := r, beforeCandidate := b.candidate, beforeRaised := b.ageRaised }
  match b.candidate with
  | some c =>
    ({ base with
       outcome := if c.state = 2 then 4 else 1, carried := candidateLate b c, fallback := false, age := 0,
       lag := lagOf m c.statStep, selected := some c }, true)
  | none =>
    if !deadlineReached f b m then
      (if usable then { base with lag := lagOf m h.statStep } else { base with diagonal := true }, false)
    else if !usable then ({ base with outcome := 3, fallback := true, diagonal := true }, true)
    else if f.root.ageAction && decide (effMaxAge s f.root ≤ r.age) then
      ({ base with outcome := 3, fallback := true, diagonal := true }, true)
    else
      let age := satTo 255 (r.age + 1)
      ({ base with outcome := 2, fallback := false, age := age, lag := lagOf m h.statStep }, true)

/-- A decision recorded in the block: the solve record, the candidate selected, a late solve abandoned without CARRY. -/
def recordDecision (now : Nat) (f : SolveForm) (d : Decision) (taken : Bool) (b : BlockSolve) : BlockSolve :=
  let late := taken && deadlineReached f b d.step && solveInFlight b && !f.root.carry
  let r := { b.record with
    outcome := d.outcome, carried := d.carried, fallback := d.fallback, age := d.age, lag := d.lag,
    timestamp := if taken then BitVec.ofNat 64 now else b.record.timestamp,
    status := if late then 8 else b.record.status }
  { b with
    record := r
    candidate := if d.selected.isSome then none else b.candidate
    harrows := if late then [] else b.harrows
    work := if late then b.work.map (fun (w : SolveWork) => { w with ended := true }) else b.work
    decisions := [if late then { d with abandoned := true, beforeWork := b.work, beforeHarrows := b.harrows } else d]
    ageRaised := if d.selected.isSome then false else b.ageRaised }

/-- The recorded decision of a replay log for a block in a step (16 R355). -/
def loggedDecision (s : State) (b : BlockSolve) (m : Nat) : Option Decision :=
  (s.harrows.replay.find? fun r => r.1 == m && r.2.1 == rootTensorOf s b && r.2.2.1 == b.key.block).map fun r =>
    { r.2.2.2.1 with before := b.record, beforeCandidate := b.candidate, beforeRaised := b.ageRaised }

/-- A STRICT block whose deadline falls in step m waits for its solve to end (R142). -/
def strictWaits (f : SolveForm) (b : BlockSolve) (m : Nat) : Bool :=
  f.root.strict && solveInFlight b && deadlineReached f b m

/-- The decision for a block once the head has reached (m, U, l), taken once in the step. -/
def decideDeadline (k : SolveKey) (s : State) : State :=
  match findBlock s k, solveForm s k.seg k.record with
  | some b, some f =>
    let m := stepOf s.run.head
    if !s.run.isOn || s.votes.openStep != some m || decide (s.run.head.toNat < (posOf m passU f.stat.layer).toNat) ||
        (b.decisions.any fun d => d.step == m) then s
    else
      let logged := loggedDecision s b m
      let issuing := issuesWaiting s m fun t r =>
        t.seg == k.seg && r.record == k.record && decide (r.blockFirst ≤ k.block) && decide (k.block < r.blockFirst + r.blockCount)
      if issuing || (logged.isNone && strictWaits f b m) then s
      else
        let (d, taken) := match logged with
          | some d => (d, d.selected.isSome || deadlineReached f b m)
          | none => decideRoot s f b m
        let limit := d.outcome == 2 && taken && decide (effMaxAge s f.root ≤ d.age) && !b.ageRaised
        let put := fun (b : BlockSolve) =>
          let b := recordDecision s.clock.now f d taken b
          if limit then { b with ageRaised := true } else b
        let s := setBlock k put s
        let s := if taken then count (0x318 + d.outcome) 1 s else s
        let s := traceSolve 3 b s
        let s := if taken && d.outcome == 2 then raise evRootReused (rootDetail k d.age) s else s
        let s := if limit then raise evRootAgeLimit (rootDetail k d.age) s else s
        endSolves s
  | _, _ => s

def execDeadlineDecision (k : SolveKey) (s : State) : Answer := .next (advance (decideDeadline k s))

end Sys2Proof.Machine
end

