-- ==== Sys2Proof/Machine/Moves.lean ====
section
/-!
DEFINITION. The memory rows: migration (11 R228 to R230, R233, R234), patrol scrubbing and retirement of frames (R235 to
R238), and requests of the memory controllers that expire (15 R319, R324).
-/
namespace Sys2Proof.Machine

open Sys2Proof

/-! ### Migration -/

/-- A move of a pin, a hint or a retirement that could start in a region: they go ahead of rotation and sowing (R233). -/
def owedFirst (s : State) (region : Nat) : Bool :=
  s.mem.selected.any fun x =>
    owed x.cause && pageRegion x.page == region && (pageOf s x.page).state == 0 && (freeFrame s x.toFar region).isSome

/-- A selected move is the next of its kind in its region: rotation and sowing go in the order of selection (R227, R234). -/
def nextMove (s : State) (x : Selected) : Bool :=
  let region := pageRegion x.page
  owed x.cause || (!owedFirst s region &&
    (s.mem.selected.find? fun y => y.cause == x.cause && pageRegion y.page == region) == some x)

/-- The destination of a move: for a retirement the same tier if it has a free frame, else the other (R237). -/
def moveTarget (s : State) (x : Selected) (e : PageEntry) : Option (Bool × Nat) :=
  let region := pageRegion x.page
  let frameIn := fun (far : Bool) => (freeFrame s far region).map fun f => (far, f)
  if x.cause = 4 then (frameIn e.far).orElse fun _ => frameIn (!e.far) else frameIn x.toFar

/-- The selection has nothing left to do: its page has no frame, or stands in the tier it was to move to, or, for a retirement, on
another frame. -/
def movedAlready (s : State) (x : Selected) (e : PageEntry) : Bool :=
  !e.present || (if x.cause = 4 then !s.mem.retired.contains (e.far, pageRegion x.page, e.frame) else e.far == x.toFar)

def dropMove (x : Selected) (s : State) : State := { s with mem.selected := s.mem.selected.filter (· != x) }

/-- A selected move starts: the destination is allocated and the entry is MOVING. While the run is halted no move starts, and
a page with a staged pair waits for its flip, a page on a move for its end. -/
def beginMove (page : Nat) (s : State) : State :=
  match s.mem.selected.find? fun x => x.page == page with
  | none => s
  | some x =>
    let e := pageOf s page
    if e.state != 0 then s
    else if movedAlready s x e then dropMove x s
    else if (s.run.isOn && s.run.halt != .running) || pageStaged s page || !nextMove s x then s
    else
      match moveTarget s x e with
      | none => s
      | some (far, frame) =>
        traceMemory 0 (page * pageBytes) (setPage page
          { e with state := 1, otherFar := far, otherFrame := frame, dirty := [], cause := x.cause } (dropMove x s))

def execMigrationStart (page : Nat) (s : State) : Answer := .next (beginMove page s)

def execMigrationSeal (page : Nat) (s : State) : Answer := .next (sealMove page s)

def execMigrationFlip (page : Nat) (s : State) : Answer := .next (advance (flipMove page s))

/-- A source frame freed, which the sowing window may have waited for (R234). -/
def execMigrationSourceFree (page : Nat) (s : State) : Answer := .next (advance (sow (freeSource page s)))

/-! ### Errors of lines -/

/-- A line is poisoned, counted and traced (R236). -/
def poisonLine (line : Nat) (s : State) : State :=
  let s := count 0x2E2 1 { s with mem.poison := addNew s.mem.poison line }
  traceMemory 2 (lineBytes * line) s

def healthOf (s : State) (far : Bool) (region frame : Nat) : FrameHealth :=
  (s.mem.health.find? fun h => h.far == far && h.region == region && h.frame == frame).getD
    ⟨far, region, frame, s.clock.up, [], 0, [], []⟩

def setHealth (h : FrameHealth) (s : State) : State :=
  { s with mem.health :=
      (s.mem.health.filter fun x => !(x.far == h.far && x.region == h.region && x.frame == h.frame)) ++ [h] }

/-- SCRUB_PERIOD in nanoseconds. -/
def scrubPeriod (s : State) : Nat := s.mem.cfg.scrubPeriod.toNat * 3600000 * 1000000

/-- Corrected errors of a frame found by a scrub, by line in it; a new period starts when the old one is over. -/
def noteCorrected (now period : Nat) (lines : List Nat) (h : FrameHealth) : FrameHealth :=
  let h := if h.since + period ≤ now then { h with since := now, lines := [] } else h
  { h with lines := lines.foldl addNew h.lines, corrected := h.corrected + lines.length }

/-- Uncorrectable errors of a frame: the lines are poisoned where a page stands on it, and a page whose move has the frame as
its destination stays at its source. -/
def uncorrectableIn (far : Bool) (region frame : Nat) (lines : List Nat) (s : State) : State :=
  let s := match pageOn s far region frame with
    | some p => lines.foldl (fun s k => poisonLine (32768 * p + k) s) s
    | none => count 0x2E2 lines.length s
  let bound := s.mem.pages.filter fun e =>
    pageRegion e.1 == region && (e.2.state == 1 || e.2.state == 2) && e.2.otherFar == far && e.2.otherFrame == frame
  if lines.isEmpty then s else bound.foldl (fun s e => abandonMove e.1 s) s

/-- A patrol scrub of a frame: what it corrected and what it could not, and the retirement of the frame. -/
def scrubFrame (far : Bool) (region frame : Nat) (corrected uncorrectable : List Nat) (s : State) : State :=
  if !s.ready || tierFrames far ≤ frame || 32 ≤ region then s
  else
    let bad := (uncorrectable.filter (· < 32768)).eraseDups
    let fixed := (corrected.filter fun k => k < 32768 && !bad.contains k).eraseDups
    let h := noteCorrected s.clock.up (scrubPeriod s) fixed (healthOf s far region frame)
    let recurs := bad.any fun k => h.rewritten.contains k
    let h := { h with failed := bad.foldl addNew h.failed }
    let s := count 0x2E6 1 (count 0x2E1 fixed.length (setHealth h s))
    let s := { s with mem := answered far region [] s.mem }
    let s := uncorrectableIn far region frame bad s
    if recurs || decide (64 < h.lines.length) then retireFrame far region frame s else s

def execPatrolScrub (far : Bool) (region frame : Nat) (corrected uncorrectable : List Nat) (s : State) : Answer :=
  .next (scrubFrame far region frame corrected uncorrectable s)

/-! ### Devices (15 R319, R324) -/

/-- A module that loses a memory device declares itself lost and halts. -/
def loseDevice (s : State) : State := isolate 1 { s with mem.deviceLost := true }

/-- Consecutive expiries of a device. -/
def expiriesOf (s : State) (far : Bool) (region : Nat) : Nat :=
  ((s.mem.expiries.find? fun (x : Bool × Nat × Nat) => x.1 == far && x.2.1 == region).map (·.2.2)).getD 0

/-- A line of a page is treated as uncorrectable; one that was rewritten after it failed before retires its frame (11 R237). -/
def lineUncorrectable (far : Bool) (region frame line : Nat) (s : State) : State :=
  let h := healthOf s far region frame
  let k := line % 32768
  let s := poisonLine line (setHealth { h with failed := addNew h.failed k } s)
  if h.rewritten.contains k then retireFrame far region frame s else s

/-- A request of a line expires: it is reissued once, and then the line is poisoned; with sixteen expiries in a row the device
is lost. -/
def requestExpired (far : Bool) (line : Nat) (s : State) : State :=
  let p := line / 32768
  let region := pageRegion p
  let e := pageOf s p
  if !s.ready || !e.present || e.far != far || s.mem.deviceLost then s
  else
    let n := expiriesOf s far region + 1
    let others := s.mem.expiries.filter fun (x : Bool × Nat × Nat) => !(x.1 == far && x.2.1 == region)
    let again := s.mem.reissued.contains (far, line)
    let s := { s with mem.expiries := others ++ [(far, region, n)] }
    let s := if again then
        lineUncorrectable far region e.frame line { s with mem.reissued := s.mem.reissued.filter (· != (far, line)) }
      else { s with mem.reissued := s.mem.reissued ++ [(far, line)] }
    if 16 ≤ n then loseDevice s else s

def execMemTimeout (far : Bool) (line : Nat) (s : State) : Answer := .next (requestExpired far line s)

/-- A memory controller fails. -/
def controllerFailed (region : Nat) (s : State) : State :=
  if !s.ready || 32 ≤ region || s.mem.deviceLost then s else loseDevice s

def execMemoryControllerFailure (_far : Bool) (region : Nat) (s : State) : Answer := .next (controllerFailed region s)

end Sys2Proof.Machine
end

