-- ==== Sys2Proof/Machine/VecRows.lean ====
section
/-!
DEFINITION. The rows of the vector instructions (05 R92 to R98, R103): one instruction executed by the vector engine of a
core, in the context that a task of a kind with a program binds.
-/
namespace Sys2Proof.Machine

open Sys2Proof

/-! ### The context of a core -/

/-- The engine of a core. -/
def vecOf (s : State) (core : Nat) : VecCtx := tget {} s.vec core

def setVec (core : Nat) (c : VecCtx) (s : State) : State := { s with vec := tset {} s.vec core c }

/-- The task an engine serves, with its graph, its record and its program; none once the task runs no more. -/
def servedTask (s : State) (c : VecCtx) : Option (TaskInst × Segment × TaskRec × Bytes) :=
  match c.task.bind fun k => findTask s k.1 k.2 with
  | none => none
  | some t =>
    if t.phase != .computed then none
    else match segmentOf s t.seg, taskRecOf s t with
      | some g, some k => (imageOf g k).map fun img => (t, g, k, img)
      | _, _ => none

/-- What an instruction reads outside an engine that serves no task: nothing. -/
def idleEnv : VecEnv := ⟨fun _ _ => .zero, fun _ _ _ => 0, fun _ => 0, fun _ => 0, fun _ _ => false⟩

/-- The views a program names, in its order (R94). -/
def vecEnvOf (s : State) (x : TaskInst × Segment × TaskRec × Bytes) : VecEnv :=
  programEnv s (readerOf s x.1) x.1.gate x.2.2.2 (insOf s x.2.1 x.2.2.1) (outsOf s x.2.1 x.2.2.1)

/-- The engine of a core as its next instruction finds it: moved on where its section has ended (R91). -/
def engineOf (s : State) (core : Nat) : VecCtx :=
  let c := vecOf s core
  match servedTask s c with
  | none => c
  | some x =>
    match outsOf s x.2.1 x.2.2.1 with
    | [] => c
    | o :: _ => nextSection x.2.2.2 o.rows o.row c

/-! ### STORE (R95) -/

/-- The elements `es` of output view `v` written: the rows they lie in, from the values the program has stored to each of their
elements (03 R53: a block's scale and its one rounding come from the values delivered), with the saturations of `es` alone. -/
def storeElems (v : Nat) (o : Operand) (es : List Nat) (c : VecCtx) : Work :=
  let es := es.filter fun k => decide (k < o.elems)
  if o.tensor.format = fINT32 then
    { cells := es.flatMap fun k => cellsAt (o.tensor.homeOffset +
        (let (r, i) := o.place k; (o.tensor.shape.slot r i) * 4)) (leBytes 4 (storedAt c v k).toNat) }
  else
    let rows := (es.map fun k => k / o.row).eraseDups
    rows.foldl (fun x r =>
      let w := o.writeRow r ((List.range o.row).map fun i => ofB32 (storedAt c v (r * o.row + i)))
      { x with
        cells := x.cells ++ w.cells
        counts := x.counts ++ satCount o.tensor.format (w.sat.filter fun k => es.contains k).length }) {}

/-- What a STORE adds to the output of the task served. -/
def storeWork (s : State) (a : VecArgs) (c c' : VecCtx) (x : TaskInst × Segment × TaskRec × Bytes) : Work :=
  match (outsOf s x.2.1 x.2.2.1)[a.vb]? with
  | some o => storeElems a.vb o ((c'.stores.drop c.stores.length).map fun e => e.2.1) c'
  | none => {}

/-! ### One instruction -/

/-- Events and counts of an instruction, and what it stores, put to the task served. -/
def chargeTask (core : Nat) (k : List (Nat × Nat)) (es : List NanEvent) (w : Work) (t : TaskInst) (s : State) : State :=
  let s := setTask t.step t.task (fun t =>
    { t with
      cells := w.cells ++ t.cells
      counts := t.counts ++ k ++ w.counts ++ nanSlots (atUnit core es)
      event := firstEvent (t.event.toList ++ es) }) s
  let s := (k ++ w.counts).foldl (fun s c => countWork t.seedbed c.1 c.2 s) s
  (atUnit core es).foldl (fun s e => countNan t.seedbed t.task e s) s

/-- An instruction on the engine of a core, at its place in the context the core stands in. An engine that serves no task has
no views. -/
def vecStep (op : VecOp) (core : Nat) (a : VecArgs) (s : State) : State :=
  let c := engineOf s core
  if !s.ready || 4096 ≤ core || !coreEnabled s core || s.sched.halted.contains core then s
  else match servedTask s c with
  | none =>
    if vecFits 0 0 c.tail op a then
      let c' := vecInstr idleEnv op a c
      let s := setVec core c' s
      let s := (vecCounts idleEnv op a c).foldl (fun s k => countWork false k.1 k.2 s) s
      (atUnit core (c'.events.drop c.events.length)).foldl (fun s e => countNan false (BitVec.allOnes 32) e s) s
    else s
  | some x =>
    let nin := (insOf s x.2.1 x.2.2.1).length
    let nout := (outsOf s x.2.1 x.2.2.1).length
    if vecFits nin nout c.tail op a then
      let env := vecEnvOf s x
      let env := if op = .store then withStores (outsOf s x.2.1 x.2.2.1) (vecInstr env op a c) env else env
      let c' := vecInstr env op a c
      let w := if op = .store then storeWork s a c c' x else {}
      chargeTask core (vecCounts env op a c) (atUnit core (c'.events.drop c.events.length)) w x.1 (setVec core c' s)
    else s

/-! ### The rows, in the order of the opcodes -/

def execVNop (core : Nat) (a : VecArgs) (s : State) : Answer := .next (vecStep .nop core a s)

def execVMov (core : Nat) (a : VecArgs) (s : State) : Answer := .next (vecStep .mov core a s)

def execVAdd (core : Nat) (a : VecArgs) (s : State) : Answer := .next (vecStep .add core a s)

def execVSub (core : Nat) (a : VecArgs) (s : State) : Answer := .next (vecStep .sub core a s)

def execVMul (core : Nat) (a : VecArgs) (s : State) : Answer := .next (vecStep .mul core a s)

def execVFma (core : Nat) (a : VecArgs) (s : State) : Answer := .next (vecStep .fma core a s)

def execVMin (core : Nat) (a : VecArgs) (s : State) : Answer := .next (vecStep .min core a s)

def execVMax (core : Nat) (a : VecArgs) (s : State) : Answer := .next (vecStep .max core a s)

def execVAbs (core : Nat) (a : VecArgs) (s : State) : Answer := .next (vecStep .abs core a s)

def execVNeg (core : Nat) (a : VecArgs) (s : State) : Answer := .next (vecStep .neg core a s)

def execVDiv (core : Nat) (a : VecArgs) (s : State) : Answer := .next (vecStep .div core a s)

def execVRcp (core : Nat) (a : VecArgs) (s : State) : Answer := .next (vecStep .rcp core a s)

def execVSqrt (core : Nat) (a : VecArgs) (s : State) : Answer := .next (vecStep .sqrt core a s)

def execVRsqrt (core : Nat) (a : VecArgs) (s : State) : Answer := .next (vecStep .rsqrt core a s)

def execVExp2 (core : Nat) (a : VecArgs) (s : State) : Answer := .next (vecStep .exp2 core a s)

def execVLog2 (core : Nat) (a : VecArgs) (s : State) : Answer := .next (vecStep .log2 core a s)

def execVExp (core : Nat) (a : VecArgs) (s : State) : Answer := .next (vecStep .exp core a s)

def execVLog (core : Nat) (a : VecArgs) (s : State) : Answer := .next (vecStep .log core a s)

def execVTanh (core : Nat) (a : VecArgs) (s : State) : Answer := .next (vecStep .tanh core a s)

def execVErf (core : Nat) (a : VecArgs) (s : State) : Answer := .next (vecStep .erf core a s)

def execVSigmoid (core : Nat) (a : VecArgs) (s : State) : Answer := .next (vecStep .sigmoid core a s)

def execVCmpeq (core : Nat) (a : VecArgs) (s : State) : Answer := .next (vecStep .cmpeq core a s)

def execVCmplt (core : Nat) (a : VecArgs) (s : State) : Answer := .next (vecStep .cmplt core a s)

def execVCmple (core : Nat) (a : VecArgs) (s : State) : Answer := .next (vecStep .cmple core a s)

def execVCmpgt (core : Nat) (a : VecArgs) (s : State) : Answer := .next (vecStep .cmpgt core a s)

def execVCmpge (core : Nat) (a : VecArgs) (s : State) : Answer := .next (vecStep .cmpge core a s)

def execVCmpun (core : Nat) (a : VecArgs) (s : State) : Answer := .next (vecStep .cmpun core a s)

def execVMand (core : Nat) (a : VecArgs) (s : State) : Answer := .next (vecStep .mand core a s)

def execVMor (core : Nat) (a : VecArgs) (s : State) : Answer := .next (vecStep .mor core a s)

def execVMandn (core : Nat) (a : VecArgs) (s : State) : Answer := .next (vecStep .mandn core a s)

def execVSel (core : Nat) (a : VecArgs) (s : State) : Answer := .next (vecStep .sel core a s)

def execVCompress (core : Nat) (a : VecArgs) (s : State) : Answer := .next (vecStep .compress core a s)

def execVExpand (core : Nat) (a : VecArgs) (s : State) : Answer := .next (vecStep .expand core a s)

def execVRedsum (core : Nat) (a : VecArgs) (s : State) : Answer := .next (vecStep .redsum core a s)

def execVRedmax (core : Nat) (a : VecArgs) (s : State) : Answer := .next (vecStep .redmax core a s)

def execVRedmin (core : Nat) (a : VecArgs) (s : State) : Answer := .next (vecStep .redmin core a s)

def execVWacc (core : Nat) (a : VecArgs) (s : State) : Answer := .next (vecStep .wacc core a s)

def execVWsum (core : Nat) (a : VecArgs) (s : State) : Answer := .next (vecStep .wsum core a s)

def execVCvti (core : Nat) (a : VecArgs) (s : State) : Answer := .next (vecStep .cvti core a s)

def execVCvtf (core : Nat) (a : VecArgs) (s : State) : Answer := .next (vecStep .cvtf core a s)

def execVIadd (core : Nat) (a : VecArgs) (s : State) : Answer := .next (vecStep .iadd core a s)

def execVIand (core : Nat) (a : VecArgs) (s : State) : Answer := .next (vecStep .iand core a s)

def execVIxor (core : Nat) (a : VecArgs) (s : State) : Answer := .next (vecStep .ixor core a s)

def execVLaneidx (core : Nat) (a : VecArgs) (s : State) : Answer := .next (vecStep .laneidx core a s)

def execVRandu (core : Nat) (a : VecArgs) (s : State) : Answer := .next (vecStep .randu core a s)

def execVRandb (core : Nat) (a : VecArgs) (s : State) : Answer := .next (vecStep .randb core a s)

def execVLoad (core : Nat) (a : VecArgs) (s : State) : Answer := .next (vecStep .load core a s)

def execVStore (core : Nat) (a : VecArgs) (s : State) : Answer := .next (vecStep .store core a s)

end Sys2Proof.Machine
end

