-- ==== Sys2Proof/Machine/Discovery.lean ====
section
/-!
DEFINITION. Discovery of a holding (14 R311 to R313) and the offers repeated toward vacant positions (15 R328).
-/
namespace Sys2Proof.Machine

open Sys2Proof

/-! ### Neighbours and offers (14 R291, R312) -/

/-- The position that a port of a module is cabled to; none on the open end of an unwrapped axis. -/
def neighbour (h : Holding) (m : ModId) (p : Nat) : Option ModId :=
  let i := p / 2
  let n := coord h.hallM1 i + 1
  let x := coord m i
  let moved : Option Nat :=
    if p % 2 = 0 then (if x + 1 < n then some (x + 1) else if wrapped h i then some 0 else none)
    else if 0 < x then some (x - 1) else if wrapped h i then some (n - 1) else none
  moved.map fun y =>
    let at' := fun j => if j = i then y else coord m j
    modOf (at' 0) (at' 1) (at' 2) (at' 3)

/-- The holding configuration of R311 taken from an offer. -/
def withConfig (c : BitVec 128) (h : Holding) : Holding :=
  let f := fun i n => bits c.toNat i n
  { h with
    number := BitVec.ofNat 10 (f 0 10), origin := BitVec.ofNat 16 (f 16 16), masterId := BitVec.ofNat 16 (f 32 16),
    extentM1 := BitVec.ofNat 16 (f 48 16), hallM1 := BitVec.ofNat 16 (f 64 16), wrap := BitVec.ofNat 4 (f 80 4),
    axisRole := BitVec.ofNat 8 (f 84 8) }

/-- Offers over every port whose neighbour position lies in the holding. -/
def offerNeighbours (hops : Nat) (s : State) : State :=
  (List.range 8).foldl (fun s p =>
    match neighbour s.holding s.holding.moduleId p with
    | some m =>
      if m != s.holding.moduleId && inHolding s.holding m && portUp s p then
        sendHedge m (.discoveryOffer ⟨m, BitVec.ofNat 128 (holdingConfig s.holding), hops, p⟩) s
      else s
    | none => s) s

/-- Register 5 is extended with the holding configuration at each discovery (18 R383). -/
def measureHolding (s : State) : State := extendMeas 5 (padTo 32 (leBytes 16 (holdingConfig s.holding))) s

/-- A module is a master candidate. -/
def masterCandidate (s : State) : Bool := s.power.masterSel && s.power.linkUp

/-! ### At the master -/

/-- Most hops over which a position may be reached. -/
def maxHops : Nat := 9

/-- Time in which every position must answer. -/
def discoveryBound : Nat := ms 100

def answeredIn (h : Holding) (m : ModId) : Bool := h.answered.any fun a => a.1 == m

/-- Every position has answered, and within the hops allowed. -/
def allReached (h : Holding) : Bool :=
  (members h).all fun m => h.answered.any fun a => a.1 == m && decide (a.2 ≤ maxHops)

/-- A holding found complete. -/
def completeHolding (s : State) : State :=
  if allReached s.holding then { s with holding.state := 2 } else s

/-- Discovery refuses the holding, and no member is assigned. -/
def refuseHolding (st : Nat) (offender : ModId) (s : State) : State :=
  { s with holding.state := st, holding.offender := offender, holding.moduleId := 0xFFFF }

/-- DISCOVER on a master candidate: the master takes its ID and offers its neighbours theirs. -/
def discover (s : State) : State :=
  if s.ready && hostControls s && masterCandidate s then
    let s := { s with
      holding.state := 1
      holding.isMaster := true
      holding.moduleId := s.holding.masterId
      holding.members := 1
      holding.offender := 0
      holding.answered := [(s.holding.masterId, 0)]
      holding.discoverAt := s.clock.up
      holding.reoffered := []
      holding.hops := 0 }
    completeHolding (flushEvents (offerNeighbours 1 (measureHolding s)))
  else s

def execDiscover (s : State) : Answer := .next (discover s)

/-- An answer noted with the least hop count of its position. -/
def noteAnswer (m : ModId) (hops : Nat) (s : State) : State :=
  let least := ((s.holding.answered.filter fun a => a.1 == m).map (·.2)).foldl min hops
  let all := (s.holding.answered.filter fun (a : ModId × Nat) => a.1 != m) ++ [(m, least)]
  { s with holding.answered := all, holding.members := satTo 64 all.length }

/-- A position without a module: it has not answered, or its module has been lost. -/
def vacant (s : State) (m : ModId) : Bool :=
  inHolding s.holding m && m != s.holding.moduleId && (!answeredIn s.holding m || s.holding.lost.contains m)

/-- An answer: a master candidate, or a module that holds another ID, refuses the holding. -/
def takeAnswer (position held : ModId) (hops : Nat) (candidate : Bool) (s : State) : State :=
  if !s.ready || !s.holding.isMaster || !s.assigned || !inHolding s.holding position then s
  else
    let s := traceReceive held 0x21 s
    if s.holding.state = 1 then
      if candidate then refuseHolding 4 position s
      else if held != position then refuseHolding 5 position s
      else completeHolding (noteAnswer position hops s)
    else if vacant s position && !candidate && held == position then
      let s := noteAnswer position hops s
      if s.holding.state = 3 then completeHolding s else s
    else s

def execDiscoveryAnswer (position held : ModId) (hops : Nat) (masterCandidate : Bool) (s : State) : Answer :=
  .next (takeAnswer position held hops masterCandidate s)

/-- After 100 ms: refused for distance when a position answered only over more than 9 hops, and else incomplete. -/
def judgeHolding (s : State) : State :=
  if s.holding.isMaster && s.holding.state == 1 && decide (s.holding.discoverAt + discoveryBound ≤ s.clock.up) then
    match s.holding.answered.find? fun a => decide (maxHops < a.2) with
    | some a => refuseHolding 6 a.1 s
    | none => { s with holding.state := if allReached s.holding then 2 else 3 }
  else s

def execDiscoveryTimeout (s : State) : Answer := .next (judgeHolding s)

/-- Every 100 ms the master repeats the offer toward a vacant position. -/
def reoffer (position : ModId) (s : State) : State :=
  let last := ((s.holding.reoffered.find? fun r => r.1 == position).map (·.2)).getD s.holding.discoverAt
  if s.ready && s.holding.isMaster && s.assigned && (s.holding.state == 2 || s.holding.state == 3) && vacant s position &&
      decide (last + discoveryBound ≤ s.clock.up) then
    let others := s.holding.reoffered.filter fun (r : ModId × Nat) => r.1 != position
    let s := { s with holding.reoffered := others ++ [(position, s.clock.up)] }
    sendHedge position (.discoveryOffer ⟨position, BitVec.ofNat 128 (holdingConfig s.holding), 1, 0⟩) s
  else s

def execDiscoveryReoffer (position : ModId) (s : State) : Answer := .next (reoffer position s)

/-! ### At a member -/

def answerOffer (o : OfferMsg) (held : ModId) (candidate : Bool) (s : State) : State :=
  sendHedge (BitVec.ofNat 16 (bits o.config.toNat 32 16)) (.discoveryAnswer o.position held o.hops candidate) s

/-- The ID and the configuration of an offer taken: the module answers, and offers its own neighbours theirs when this is
its first offer of the discovery or one over fewer hops (log entry 41). -/
def takeOffer (o : OfferMsg) (s : State) : State :=
  let again := s.assigned && s.holding.moduleId == o.position &&
    holdingConfig s.holding == holdingConfig (withConfig o.config s.holding) &&
    decide (s.clock.up < s.holding.discoverAt + discoveryBound)
  if again then
    let nearer := decide (o.hops < s.holding.hops)
    let s := answerOffer o o.position false { s with holding.hops := min s.holding.hops o.hops }
    if nearer && decide (o.hops ≤ maxHops) then offerNeighbours (o.hops + 1) s else s
  else
    let s := { s with
      holding := { withConfig o.config s.holding with
        moduleId := o.position, hops := o.hops, discoverAt := s.clock.up, lastHedge := s.clock.up } }
    let s := answerOffer o o.position false (measureHolding s)
    let s := if o.hops ≤ maxHops then offerNeighbours (o.hops + 1) s else s
    flushEvents s

/-- An offer received. A candidate answers as one and takes no ID; a module that holds another ID of the same holding
answers with it; a locked configuration is not replaced. The master that is offered another ID than its own refuses. -/
def receiveOffer (o : OfferMsg) (s : State) : State :=
  if !s.ready then s
  else
    let s := traceReceive (BitVec.ofNat 16 (bits o.config.toNat 32 16)) 0x20 s
    let same := holdingConfig s.holding == holdingConfig (withConfig o.config s.holding)
    if s.holding.isMaster && same then
      if s.holding.state = 1 ∧ o.position ≠ s.holding.moduleId then refuseHolding 5 o.position s else s
    else if s.holding.isMaster || masterCandidate s then answerOffer o o.position true s
    else if s.assigned && same && s.holding.moduleId != o.position then answerOffer o s.holding.moduleId false s
    else if s.holding.setupLock && !same then s
    else takeOffer o s

def execDiscoveryOffer (o : OfferMsg) (s : State) : Answer := .next (receiveOffer o s)

end Sys2Proof.Machine
end

