-- ==== Sys2Proof/Machine/Power.lean ====
section
/-!
DEFINITION. Supplies, pins and resets (19 R388 to R392, R404, R405), and power and thermal control (19 R393 to R400).
-/
namespace Sys2Proof.Machine

open Sys2Proof

/-! ### Supplies and pins -/

/-- INPUT_LOW: the running module's input lies between 38 V and 40 V (19 R391). -/
def withInputLow (s : State) : State :=
  withAlert { s with
    power.inputLow := s.power.pwrGood && decide (3800 ≤ s.power.volts) && decide (s.power.volts < 4000) }

/-- The conversion stages start when PWR_EN is asserted, the input is at least 40 V and AUX_3V3 is present; a thermal trip
and POWER_OFF hold them (19 R391, R400, R407). -/
def startPower (s : State) : State :=
  let p := s.power
  if p.pwrEn && decide (4000 ≤ p.volts) && p.aux && !p.tripLow && !p.offByMgmt && !p.pwrGood then
    withInputLow { s with power.pwrGood := true, startup.startedAt := s.clock.up }
  else withInputLow s

/-- A running module shuts down; one that is off stays off (19 R392). -/
def shutdown (s : State) : State := if s.power.pwrGood then withInputLow (coldLoss s) else withInputLow s

def execPwrEnAssert (s : State) : Answer :=
  .next (startPower { s with power.pwrEn := true, power.pwrEnLowAt := none })

def execPwrEnDeassert (s : State) : Answer :=
  .next (shutdown { s with power.pwrEn := false, power.pwrEnLowAt := some s.clock.up })

/-- The 48 V has been removed: THERM_TRIP_N is released (19 R400). -/
def releaseOnRemoval (s : State) : State :=
  if s.power.volts = 0 then { s with power.tripLow := false } else s

/-- The input stayed at `volts` for longer than the hold-up; below 38 V the module shuts down (19 R390). -/
def execInputUndervoltage (volts : Nat) (s : State) : Answer :=
  .next (let s := { s with power.volts := volts }
    releaseOnRemoval (if volts < 3800 then shutdown s else withInputLow s))

/-- The input stayed at `volts` for longer than 100 us; above 63 V the module shuts down (19 R390). -/
def execInputOvervoltage (volts : Nat) (s : State) : Answer :=
  .next (let s := { s with power.volts := volts }
    if 6300 < volts then shutdown s else withInputLow s)

def execInputPowerApplied (volts : Nat) (s : State) : Answer := .next (startPower { s with power.volts := volts })

def execAux3v3Applied (s : State) : Answer := .next (startPower { s with power.aux := true })

/-- AUX_3V3 removed: the management controller stops and its trip record is lost (19 R388, R406, 20 R426). -/
def execAux3v3Removed (s : State) : Answer :=
  .next { s with power.aux := false, power.tripSensor := none, power.alert := false }

/-- THERM_TRIP_N is released once PWR_EN has been deasserted for at least 100 ms, or the 48 V removed (19 R400). -/
def execThermTripNRelease (s : State) : Answer :=
  .next (
    let longLow := match s.power.pwrEnLowAt with
      | some t => decide (t + ms 100 ≤ s.clock.up)
      | none => false
    if s.power.tripLow && ((!s.power.pwrEn && longLow) || s.power.volts == 0) then
      { s with power.tripLow := false }
    else s)

def execMasterSel (level : Bool) (s : State) : Answer := .next { s with power.masterSel := level }

/-- MOD_RESET_N low for at least 1 us is a module reset (19 R388). -/
def execModResetN (lowNs : Nat) (s : State) : Answer :=
  .next (if 1000 ≤ lowNs && s.power.pwrGood then moduleLevel s else s)

/-- PERST_N asserted: a function-level reset (19 R404, R405); the link is down while it is asserted. -/
def execPerstN (s : State) : Answer :=
  .next { functionLevel s with power.perst := true, power.linkUp := false }

def execFunctionLevelReset (s : State) : Answer := .next (functionLevel s)

/-- A link that goes down unannounced is treated as a function-level reset (13 R290). -/
def execHostLinkDown (s : State) : Answer := .next { functionLevel s with power.linkUp := false }

/-- The link comes up (19 R401: from PERST_N deassertion); host samples may be written again (17 R373). -/
def execHostLinkUp (s : State) : Answer :=
  .next (if s.power.pwrGood then
    { s with power.linkUp := true, power.perst := false, counters.suspended := false } else s)

/-- The holding reset is complete: MODULE_READY (19 R404). -/
def execHoldingResetDone (s : State) : Answer :=
  .next (if s.holding.resetting then
    let s := { s with holding.resetting := false }
    raise evModuleReady
      (pack [(16, s.startup.elapsed.getD 0), (8, s.startup.portsUp.toNat), (8, 0), (13, enabledCores s), (3, 0),
        (9, enabledHarrows s)]) s
  else s)

/-! ### The cap (19 R393 to R397) -/

/-- The step in force decided by a cause: above 0 and equal to the cause's own step. -/
def decides (own : Nat) (p : Power) : Bool := clockStep p != 0 && own == clockStep p

/-- When each cause last decided the step. -/
def noteDeciders (s : State) : State :=
  { s with
    power.capDecidedAt := if decides s.power.capStep s.power then s.clock.up else s.power.capDecidedAt
    power.thermDecidedAt := if decides s.power.thermalStep s.power then s.clock.up else s.power.thermDecidedAt }

/-- Input power, voltage and current measured every 10 us; INPUT_W is the average of the last 1 ms (19 R395, R396). -/
def execPowerSample (watts volts amps : Nat) (s : State) : Answer :=
  .next (if s.power.pwrGood then
    let samples := (watts :: s.power.samples).take 100
    withInputLow { s with
      power.samples := samples
      power.watts := samples.foldl (· + ·) 0 / samples.length
      power.volts := volts
      power.amps := amps
      power.windowCount := s.power.windowCount + 1
      power.windowSum := s.power.windowSum + watts }
  else s)

/-- DETAIL of POWER_CAP (19 R397). -/
def powerCapDetail (p : Power) : Nat := pack [(6, clockStep p), (10, 0), (16, p.capW), (16, p.watts)]

/-- A 50 us boundary: the cap step rises by 1 when the average since the last change of step exceeds CAP_W; at 48 the
floor holds and CAP_UNMET is set, and an average within the cap clears it (log entry 86). An episode begins when the cap comes to decide the step (19 R395, R397). -/
def execCapStepRaise (s : State) : Answer :=
  .next (
    let p := s.power
    if p.pwrGood && decide (p.capW * p.windowCount < p.windowSum) then
      if p.capStep < 48 then
        let s := noteDeciders s
        let s := noteDeciders { s with
          power.capStep := p.capStep + 1
          power.windowCount := 0
          power.windowSum := 0 }
        if !p.capEpisode && decides s.power.capStep s.power then
          raise evPowerCap (powerCapDetail s.power) { s with power.capEpisode := true }
        else s
      else { s with power.capUnmet := true }
    else if p.pwrGood && p.windowCount != 0 then { s with power.capUnmet := false }
    else s)

/-- A 1 ms boundary: the cap step falls by 1 when the 1 ms average is below 98 % of CAP_W. -/
def execCapStepLower (s : State) : Answer :=
  .next (
    let p := s.power
    let total := p.samples.foldl (· + ·) 0
    if p.pwrGood && decide (0 < p.capStep) && decide (100 * total < 98 * p.capW * p.samples.length) then
      let s := noteDeciders s
      noteDeciders { s with
        power.capStep := p.capStep - 1
        power.capUnmet := false
        power.windowCount := 0
        power.windowSum := 0 }
    else s)

/-- An episode ends when its cause has not decided the step for 1 s (19 R397). -/
def execEpisodeEnd (thermal : Bool) (s : State) : Answer :=
  .next (
    let s := noteDeciders s
    if thermal then
      if s.power.thermEpisode && decide (s.power.thermDecidedAt + ms 1000 ≤ s.clock.up) then
        { s with power.thermEpisode := false }
      else s
    else if s.power.capEpisode && decide (s.power.capDecidedAt + ms 1000 ≤ s.clock.up) then
      { s with power.capEpisode := false }
    else s)

/-! ### Sensors (19 R399, R400) -/

/-- Near, throttle and trip limits of a sensor in degrees; none where the table gives none. -/
def nearLimit (i : Nat) : Option Nat :=
  if i ≤ 31 then some 95 else if i ≤ 95 then some 85 else if i ≤ 103 then some 70 else if i = 104 then some 35
  else if i = 105 then some 50 else if i = 106 then some 100 else if i = 107 then some 90 else none

def throttleLimit (p : Power) (i : Nat) : Option Nat :=
  if i ≤ 31 then some p.dieThrottle else if i ≤ 63 then some p.hbmThrottle else if i ≤ 95 then some 95
  else if i = 105 then some 55 else if i = 106 then some 105 else none

def tripLimit (i : Nat) : Option Nat :=
  if i ≤ 31 then some 110 else if i ≤ 63 then some 100 else if i ≤ 95 then some 105 else if i ≤ 103 then some 80
  else if i = 106 then some 115 else if i = 107 then some 105 else none

/-- A reading at or above a limit; 0x8000 marks an absent or failed sensor. -/
def atLeast (x : W16) (limit : Option Nat) : Bool :=
  match limit with
  | none => false
  | some t => x != 0x8000 && decide ((16 * t : Int) ≤ x.toInt)

/-- A reading below a limit by `margin` degrees; a sensor with no limit or no reading does not hold the step up. -/
def clearOf (x : W16) (limit : Option Nat) (margin : Nat) : Bool :=
  match limit with
  | none => true
  | some t => x == 0x8000 || decide (x.toInt ≤ (16 * t : Int) - 16 * margin)

/-- DETAIL of THROTTLE and THERMAL_TRIP_NEAR (19 R397). -/
def sensorDetail (step i : Nat) (x : W16) : Nat := pack [(6, step), (2, 0), (8, i), (16, x.toNat)]

/-- THERMAL_TRIP_NEAR for a sensor that crosses its near threshold. -/
def nearCrossing (i : Nat) (s : State) : State :=
  let x := s.power.sensors.getD i 0x8000
  if atLeast x (nearLimit i) then
    if s.power.nearSensors.contains i then s
    else raise evThermalTripNear (sensorDetail (clockStep s.power) i x)
      { s with power.nearSensors := s.power.nearSensors ++ [i] }
  else { s with power.nearSensors := s.power.nearSensors.filter (· != i) }

/-- An optical engine at its trip temperature takes its port down; the port may retrain below 70 degrees (19 R400). -/
def opticalTrip (p : Nat) (s : State) : State :=
  let x := s.power.sensors.getD (96 + p) 0x8000
  if atLeast x (tripLimit (96 + p)) then
    let up := (port s p).width != 0
    let s := setPort p (fun q => { q with tripped := true }) (takeDown p (port s p).mask s)
    if up then detourBuffer p s else s
  else if x != 0x8000 && decide (x.toInt < 16 * 70) then setPort p (fun q => { q with tripped := false }) s
  else s

/-- The lowest sensor, optical engines apart, at its trip temperature. -/
def trippedSensor (readings : List W16) : Option Nat :=
  (List.range 108).find? fun i =>
    !(decide (96 ≤ i) && decide (i ≤ 103)) && atLeast (readings.getD i 0x8000) (tripLimit i)

/-- Every sensor read into the array; near crossings; trips (19 R399, R400). -/
def execSensorRead (readings : List W16) (s : State) : Answer :=
  .next (if s.power.pwrGood then
    let s := { s with power.sensors := padSensors readings }
    let s := (List.range 108).foldl (fun s i => nearCrossing i s) s
    let s := (List.range 8).foldl (fun s p => opticalTrip p s) s
    match trippedSensor s.power.sensors with
    | some i => withAlert (shutdown { s with power.tripLow := true, power.tripSensor := some i })
    | none => withAlert s
  else s)
where
  padSensors (r : List W16) : List W16 := r.take 128 ++ List.replicate (128 - r.length) 0x8000

/-- While a reading is at or above its throttle limit, the thermal step rises by 1 every 100 us (19 R399). -/
def execThermalStepRaise (s : State) : Answer :=
  .next (
    let p := s.power
    match (List.range 108).find? fun i => atLeast (p.sensors.getD i 0x8000) (throttleLimit p i) with
    | none => s
    | some i =>
      if p.pwrGood && decide (p.thermalStep < 48) then
        let s := noteDeciders s
        let s := noteDeciders { s with power.thermalStep := p.thermalStep + 1 }
        if !p.thermEpisode && decides s.power.thermalStep s.power then
          raise evThrottle (sensorDetail (clockStep s.power) i (p.sensors.getD i 0x8000))
            { s with power.thermEpisode := true }
        else s
      else s)

/-- While every sensor reads at least 3 K below its throttle limit, the thermal step falls by 1 every 10 ms. -/
def execThermalStepLower (s : State) : Answer :=
  .next (
    let p := s.power
    if p.pwrGood && decide (0 < p.thermalStep) &&
        (List.range 108).all fun i => clearOf (p.sensors.getD i 0x8000) (throttleLimit p i) 3 then
      let s := noteDeciders s
      noteDeciders { s with power.thermalStep := p.thermalStep - 1 }
    else s)

/-! ### Power control (19 R394) -/

/-- The fields of power control written, a field out of range kept. -/
def writePowerControl (v : Nat) (f : FactoryRecord) (p : Power) : Power :=
  { p with
    capW := inRange 3000 f.powerLimit (bits v 0 13) p.capW
    clockLimit := inRange 0 48 (bits v 16 6) p.clockLimit
    dieThrottle := inRange 0 f.dieThrottle (bits v 32 8) p.dieThrottle
    hbmThrottle := inRange 0 f.hbmThrottle (bits v 40 8) p.hbmThrottle }

def execPowerControl (value : W64) (s : State) : Answer :=
  .next (if hostControls s then
    let p := writePowerControl value.toNat s.flash.record s.power
    let taken := p.capW == bits value.toNat 0 13
    { s with power := { p with capWrittenAt := if taken then some s.clock.up else p.capWrittenAt } } else s)

end Sys2Proof.Machine
end

