-- ==== Sys2Proof/Machine/Mgmt.lean ====
section
/-!
DEFINITION. The management port (19 R406 to R408): each message is answered with its code plus 0x80 and a body whose byte 0
is the status.
-/
namespace Sys2Proof.Machine

open Sys2Proof

/-- Statuses of a management response (19 R407). -/
def mgDone : Nat := 0
def mgMalformed : Nat := 1
def mgNotMaster : Nat := 2
def mgNoRun : Nat := 3
def mgPowerOff : Nat := 4

/-- A response sent. -/
def mgmtRespond (code status : Nat) (body : Bytes) (s : State) : State :=
  { s with out.mgmt := s.out.mgmt ++ [(code + 0x80, BitVec.ofNat 8 status :: body)] }

/-- A message reaches the management controller: it runs whenever AUX_3V3 is present (R406) and its firmware was not
refused (18 R379). -/
def mgmtTakes (s : State) : Bool := s.power.aux && mgmtRuns s.flash

/-- A message that needs main power and a body of `n` bytes. -/
def withPower (code n : Nat) (body : Bytes) (f : State → State) (s : State) : State :=
  if !mgmtTakes s then s
  else if body.length ≠ n then mgmtRespond code mgMalformed [] s
  else if !s.power.pwrGood then mgmtRespond code mgPowerOff [] s
  else f s

/-- The body of a status answer: READY, power status, security status, sensor array (R407). -/
def statusBody (s : State) : Bytes :=
  leBytes 8 (readyWord s) ++ leBytes 8 (powerStatusWord s.power) ++ leBytes 8 (securityWord s.security) ++
    s.power.sensors.flatMap fun x => leBytes 2 x.toNat

/-- GET_STATUS: answered with main power off too; ALERT_N is released when its causes have cleared (R406; log entry 17). -/
def execGetStatus (body : Bytes) (s : State) : Answer :=
  .next (
    if !mgmtTakes s then s
    else if body.length ≠ 0 then mgmtRespond 0x20 mgMalformed [] s
    else
      let t := mgmtRespond 0x20 mgDone (statusBody s) s
      { t with power.alert := t.power.alert && alertCause t })

/-- SET_POWER_CAP writes CAP_W under R394: a value out of range leaves the field as it stands, and so does a host write of the same
cycle (R408). -/
def execSetPowerCap (body : Bytes) (s : State) : Answer :=
  .next (withPower 0x21 2 body (fun s => mgmtRespond 0x21 mgDone []
    (if s.power.capWrittenAt = some s.clock.up then s
     else { s with power.capW := inRange 3000 s.flash.record.powerLimit (leNat body) s.power.capW })) s)

/-- The descriptor form of a management STOP: an immediate stop, from no ring. -/
def mgmtStopDesc : Desc :=
  ⟨0, 0, 0, 0, 0, List.replicate 8 0 ++ [1] ++ List.replicate 39 0, .ok []⟩

/-- A management STOP is forwarded to the run lead master as a run-wide order (R408). -/
def execMgmtStop (body : Bytes) (s : State) : Answer :=
  .next (withPower 0x22 0 body (fun s =>
    if !s.run.isOn then mgmtRespond 0x22 mgNoRun [] s
    else
      let o : FwdOrder :=
        { source := s.holding.moduleId, holding := s.holding.number.toNat, stamp := s.run.head, mgmt := true,
          op := .stop, desc := mgmtStopDesc }
      mgmtRespond 0x22 mgDone []
        (if s.isLead then { s with run.held := s.run.held ++ [⟨o, s.clock.up⟩] }
         else sendHedge (leadId s) (.orderForward o) s)) s)

def execMgmtHoldingReset (body : Bytes) (s : State) : Answer :=
  .next (withPower 0x23 0 body (fun s =>
    if s.holding.isMaster then mgmtRespond 0x23 mgDone [] (resetHolding s) else mgmtRespond 0x23 mgNotMaster [] s) s)

def execModuleReset (body : Bytes) (s : State) : Answer :=
  .next (withPower 0x24 0 body (fun s => mgmtRespond 0x24 mgDone [] (moduleLevel s)) s)

/-- POWER_OFF: a cold loss, as a deassertion of PWR_EN; the state holds until POWER_ON. -/
def execPowerOff (body : Bytes) (s : State) : Answer :=
  .next (
    if !mgmtTakes s then s
    else if body.length ≠ 0 then mgmtRespond 0x25 mgMalformed [] s
    else mgmtRespond 0x25 mgDone [] (shutdown { s with power.offByMgmt := true }))

/-- POWER_ON releases that state; R391 then applies. -/
def execPowerOn (body : Bytes) (s : State) : Answer :=
  .next (
    if !mgmtTakes s then s
    else if body.length ≠ 0 then mgmtRespond 0x26 mgMalformed [] s
    else mgmtRespond 0x26 mgDone [] (startPower { s with power.offByMgmt := false }))

/-- GET_NONCE issues a fresh nonce and returns it in bytes 1 to 32. -/
def execGetNonce (body : Bytes) (s : State) : Answer :=
  .next (withPower 0x27 0 body (fun s =>
    let t := issueNonce s
    mgmtRespond 0x27 mgDone (digestBytes t.security.nonce) t) s)

/-- SECURITY_REQUEST submits the request it carries as REQUEST_GO does; byte 1 is REQUEST_RESULT. -/
def execSecurityRequest (body : Bytes) (s : State) : Answer :=
  .next (withPower 0x28 29856 body (fun s =>
    let t := securityRequest body s
    mgmtRespond 0x28 mgDone [BitVec.ofNat 8 t.security.result] t) s)

end Sys2Proof.Machine
end

