-- ==== Sys2Proof/Machine/Restore.lean ====
section
/-!
DEFINITION. Restoration of a shard (15 R331 to R334), acknowledgement and resending of export records (16 R351, R352), and the
budget of evaluation (16 R356).
-/
namespace Sys2Proof.Machine

open Sys2Proof

/-! ### Reinstatement (15 R333) -/

/-- A segment copied from a survivor, its stint codes as retained; none where the copy fails its DIGEST. -/
def installCopy (c : SegmentCopy) (s : State) : Option State :=
  if digestBits (sha256 c.bytes) != c.digest then none
  else
    let g := (draftOf s (parseSegment c.bytes)).g
    let e : DirEntry :=
      { state := c.state, firstStep := c.firstStep, lastStep := c.lastStep, digest := c.digest, segment := some g,
        solveBase := s.graph.solveSlots }
    let blocks := newBlocks c.number s.graph.solveSlots g
    let s := { s with
      graph.dir := tset {} s.graph.dir c.number e
      graph.solveSlots := s.graph.solveSlots + blocks.length
      harrows.blocks := (s.harrows.blocks.filter fun x => x.key.seg != c.number) ++ blocks }
    some (extendMeas 4 (digestBytes c.digest) (acceptPins g s))

def installCopies : List SegmentCopy → State → Option State
  | [], s => some s
  | c :: cs, s => (installCopy c s).bind (installCopies cs)

/-- The run as the lead master gives it to a module that lost it: halted, its head at (T + 1, F, 0). -/
def joinRun (r : RunCopy) (s : State) : State :=
  let p := posOf (r.target + 1) passF 0
  let run : Run :=
    { isOn := true, start := p, seed := r.seed, firstHolding := r.firstHolding, holdingCount := r.holdingCount,
      leadHolding := r.leadHolding, leadModule := r.lead, head := p, headAt := s.clock.up, halt := .smear,
      modes := r.modes, haltAt := s.clock.up }
  { lockRegisters s with
    run := run
    clock.now := max s.clock.now r.timestamp.toNat
    clock.frac := 0
    clock.offset := 0
    holding.restoreTarget := r.target
    holding.restoreUpTo := r.committed
    holding.restoreHost := decide (r.target < r.committed) }

/-- This module reinstated: it takes the segments, the tensors and the run where it had lost them. -/
def reinstateSelf (run : Option RunCopy) (s : State) : State :=
  let me := s.holding.moduleId
  let known := { s with holding.restore := 2, holding.restoring := addNew s.holding.restoring me }
  match run with
  | none => if s.run.isOn then known else s
  | some r =>
    if s.run.isOn then known
    else match installCopies r.segments known with
      | none => { s with holding.restore := 5 }
      | some s =>
        let s := r.tensors.foldl (fun s (t : Nat × Nat × Bytes) =>
          defineTensor t.1 t.2.1 (placeTensor s t.2.1 (parseTensor (padTo 64 t.2.2))) s) s
        joinRun r s

/-- Words of the setup fields of holding scope (20 R415 to R422). -/
def holdingWords : List Nat :=
  [0x20020, 0x30000, 0x30008, 0x40000, 0x40008, 0x50000] ++ (List.range 7).map fun i => 0x70000 + 8 * i

/-- A survivor's part in a reinstatement: the holding master writes the setup fields and the lock, and the lead of every group
that names the module sends the definition in force. -/
def reinstateOther (m : ModId) (s : State) : State :=
  let s := { s with holding.restore := 2 }
  let s := if s.holding.isMaster && inHolding s.holding m then
      let s := holdingWords.foldl (fun s o => sendHedge m (.setupWrite o 8 (BitVec.ofNat 64 (heldWord s o))) s) s
      sendHedge m (.setupWrite 0x18 8 1) s
    else s
  s.coll.groups.foldl (fun s e => match e.2 with
    | some x =>
      if (excludedIds x.def48 ++ definedMembers s x.def48).contains m &&
          (definedMembers s x.def48).head? == some s.holding.moduleId then sendDefinition x.def48 x.epoch m s
      else s
    | none => s) s

def reinstated (m : ModId) (run : Option RunCopy) (s : State) : State :=
  if !s.ready || !s.assigned then s
  else if m = s.holding.moduleId then reinstateSelf run s
  else if s.holding.restoring.contains m && (s.holding.restore == 1 || s.holding.restore == 2) then reinstateOther m s
  else s

/-! ### Rebuilding (15 R332) -/

/-- A fallow queue from its image: the valid slots, oldest first. -/
def queueOf (master delay : Nat) (img : Bytes) : FallowQueue :=
  let slot := img.length / (max 1 delay)
  let entries := (List.range delay).filterMap fun i =>
    let b := slice img (i * slot) slot
    if bitOf (field b 12 4) 0 then
      some (field b 0 8, BitVec.ofNat 32 (field b 8 4),
        (List.range ((slot - 64) / 4)).map fun j => BitVec.ofNat 32 (field b (64 + 4 * j) 4))
    else none
  ⟨master, entries, false, none⟩

/-- The delay of the fallow queue of a master. -/
def delayOf (s : State) (master : Nat) : Nat :=
  (((heldSegments s).flatMap (·.2.updates)).find? fun u => u.master == master && u.fallowDelay != 0).elim 0 (·.fallowDelay)

/-- A shard put in place: its pages written whole, every version over them gone, its queues as their images have them. -/
def placeShard (x : ShardImage) (s : State) : State :=
  let s := { s with mem := { s.mem with layers := [], hopper := [], awaited := [] } }
  let put := fun (s : State) (p : Nat × Bytes) =>
    let off := p.1 * pageBytes
    let bs := padTo pageBytes (p.2.take pageBytes)
    let s := writePoison off pageBytes false (ensureFrame p.1 s)
    { s with mem.base := tsetBytes s.mem.base off bs }
  let s := x.pages.foldl put s
  x.queues.foldl (fun s q => setFallow (queueOf q.1 (delayOf s q.1) q.2) s) s

/-- The exported words of a state, as the next difference is taken against them. -/
def imagesOf (s : State) : List (Nat × Bool × Bytes) := (exports s).map fun e => (e.index, e.queue, e.bytes)

/-- The fingerprint of step T of a rebuilt shard: its chain value before, and the differences from the step before. -/
def rebuiltPrint (t : Nat) (shard prior : ShardImage) (previous : BitVec 256) (s : State) : BitVec 256 :=
  let before := placeShard prior s
  let after := placeShard shard before
  let after := { after with exporter.images := imagesOf before }
  digestBits (sha256 (digestBytes previous ++ differenceRecords s.exporter.cfg.scope (formSections t after)))

/-- The decisions that the sink's logs hold of the steps after T, for the replay of those steps; a log that does not fit a held
segment gives none (15 R333, 16 R355). -/
def replayedLogs (logs : List (Nat × Bytes)) (s : State) : State :=
  { s with harrows.replay := s.harrows.replay ++ logs.flatMap fun x => (replayEntries s x.1 x.2.length x.2).getD [] }

/-- The module stands restored at step T, halted at (T + 1, F, 0), and says so. -/
def restoredAt (t : Nat) (previous recorded : BitVec 256) (nextSeq produced : Nat) (s : State) : State :=
  let p := posOf (t + 1) passF 0
  let kept := s.exporter.retained.filter fun r => decide (r.seq < nextSeq)
  let s := rearmStones p { s with
    holding.isolated := false
    mem.damaged := []
    run.head := p
    run.headAt := s.clock.up
    run.halt := .smear
    run.lastCommit := some t
    run.knownCommit := some t
    run.finished := some t
    run.created := some t
    votes.openStep := none
    exporter := { s.exporter with
      chain := recorded, prevChain := previous, chainStep := some t, images := imagesOf s, nextSeq := nextSeq,
      produced := produced, retained := kept, acked := max s.exporter.acked (nextSeq - 1),
      first := s.exporter.first && nextSeq == 1 } }
  let s := sendHedge everyone (.agreement agreeRestore (BitVec.ofNat 64 t) p) s
  takeRestored s.holding.moduleId s

/-- The survivor's own homes serve where its last commit record is of step T with the fingerprint the sink recorded, and no page
is damaged. -/
def survived (t : Nat) (recorded : BitVec 256) (s : State) : Bool :=
  s.mem.damaged.isEmpty && s.run.lastCommit == some t && s.exporter.chainStep == some t && s.exporter.chain == recorded

/-- What of a rebuilt shard is put in place: of a module that stands at step T with damaged pages alone, those pages (15 R327,
R331). -/
def neededShard (t : Nat) (shard : ShardImage) (s : State) : ShardImage :=
  if s.mem.damaged.isEmpty || s.holding.isolated || s.holding.lost.contains s.holding.moduleId || s.run.lastCommit != some t then shard
  else { shard with pages := shard.pages.filter fun p => s.mem.damaged.contains p.1, queues := [] }

/-- A rebuilt shard: checked against the fingerprint recorded in the sink. -/
def rebuildShard (t : Nat) (shard prior : ShardImage) (previous recorded : BitVec 256) (nextSeq produced : Nat)
    (logs : List (Nat × Bytes)) (s : State) : State :=
  let due := s.run.isOn && s.holding.restoring.contains s.holding.moduleId &&
    (s.holding.restore == 1 || s.holding.restore == 2) && t == s.holding.restoreTarget && s.run.halt != .running
  if !due then s
  else if survived t recorded s then
    restoredAt t s.exporter.prevChain recorded s.exporter.nextSeq s.exporter.produced
      { s with mem := dropLayers (beyond (t + 1)) s.mem }
  else if rebuiltPrint t shard prior previous s != recorded then { s with holding.restore := 6 }
  else replayedLogs logs (restoredAt t previous recorded nextSeq produced (placeShard (neededShard t shard s) s))

/-- SHARD_RESTORATION by its stage. -/
def restoreStage (x : RestoreStage) (s : State) : State :=
  match x with
  | .waiting m => if s.ready && (runModules s).contains m then needRestoration m s else s
  | .reinstate m run => reinstated m run s
  | .rebuilt t shard prior previous recorded nextSeq produced logs =>
    rebuildShard t shard prior previous recorded nextSeq produced logs s
  | .failed => if s.holding.restore = 1 ∨ s.holding.restore = 2 then { s with holding.restore := 5 } else s

def execShardRestoration (stage : RestoreStage) (s : State) : Answer := .next (advance (restoreStage stage s))

/-! ### Export records (16 R351, R352) -/

/-- The sink's ACKED_SEQ read. -/
def execExportAckPoll (acked : W64) (s : State) : Answer :=
  .next (if s.ready && pushes s then advance (emit (acknowledged acked.toNat s)) else s)

def execExportResend (s : State) : Answer := .next (if s.ready then resend s else s)

/-! ### Evaluation (16 R356) -/

/-- A bound of the evaluation budget has expired at (n, E). -/
def budgetExpired (s : State) : Bool :=
  let c := s.exporter.cfg
  let n := stepOf s.run.head
  s.moving && passOf s.run.head == passE &&
  ((c.evalBudget != 0 && decide (s.run.enteredE + ms c.evalBudget ≤ s.clock.up)) ||
   (c.evalDistance != 0 && s.run.seedbedHead.any fun p => distanceReached p (posOf (n + 1) passF 0) c.evalDistance.toNat))

/-- Incomplete E instances of the step are abandoned, and an EVAL_REDUCE of theirs writes nothing. -/
def abandonEval (s : State) : State :=
  let n := stepOf s.run.head
  let late := fun (t : TaskInst) => t.stream == streamE && t.step == n && t.incomplete
  let gone := s.sched.tasks.filter late
  if gone.isEmpty then s
  else
    let s := discardRuns late .abandoned s
    { s with
      coll.live := s.coll.live.filter fun c => !(c.step == n && gone.any fun t => t.task == c.task)
      exporter.evalAbandoned := true }

def execEvalBudgetExpiry (s : State) : Answer := .next (if budgetExpired s then advance (abandonEval s) else s)

end Sys2Proof.Machine
end

