-- ==== Sys2Proof/Machine/Dispatch.lean ====
section
/-!
DEFINITION. One arm for each constructor of `Instr`: the meaning of its row of the opcode table.
-/
namespace Sys2Proof.Machine

open Sys2Proof

def exec (i : Instr) (s : State) : Host.Outcome State Fault Refusal :=
  match i with
  | .graphSubmit d => Sys2Proof.Machine.execGraphSubmit d s
  | .graphRetire d => Sys2Proof.Machine.execGraphRetire d s
  | .tensorDefine d => Sys2Proof.Machine.execTensorDefine d s
  | .tensorRelease d => Sys2Proof.Machine.execTensorRelease d s
  | .furrowAdvance d => Sys2Proof.Machine.execFurrowAdvance d s
  | .runBegin d => Sys2Proof.Machine.execRunBegin d s
  | .groupDefine d => Sys2Proof.Machine.execGroupDefine d s
  | .groupReform d => Sys2Proof.Machine.execGroupReform d s
  | .copyIn d => Sys2Proof.Machine.execCopyIn d s
  | .copyOut d => Sys2Proof.Machine.execCopyOut d s
  | .exportConfig d => Sys2Proof.Machine.execExportConfig d s
  | .exportAcknowledge d => Sys2Proof.Machine.execExportAcknowledge d s
  | .exportChainBase d => Sys2Proof.Machine.execExportChainBase d s
  | .exportReplayImport d => Sys2Proof.Machine.execExportReplayImport d s
  | .snapshot d => Sys2Proof.Machine.execSnapshot d s
  | .stopScheduled d => Sys2Proof.Machine.execStopScheduled d s
  | .stopImmediate d => Sys2Proof.Machine.execStopImmediate d s
  | .resume d => Sys2Proof.Machine.execResume d s
  | .modeSet d => Sys2Proof.Machine.execModeSet d s
  | .rootSupply d => Sys2Proof.Machine.execRootSupply d s
  | .voteSupply d => Sys2Proof.Machine.execVoteSupply d s
  | .placementPin d => Sys2Proof.Machine.execPlacementPin d s
  | .counterConfig d => Sys2Proof.Machine.execCounterConfig d s
  | .counterReadNow d => Sys2Proof.Machine.execCounterReadNow d s
  | .counterClear d => Sys2Proof.Machine.execCounterClear d s
  | .counterStatus d => Sys2Proof.Machine.execCounterStatus d s
  | .traceConfigArm d => Sys2Proof.Machine.execTraceConfigArm d s
  | .traceRearm d => Sys2Proof.Machine.execTraceRearm d s
  | .traceDisable d => Sys2Proof.Machine.execTraceDisable d s
  | .traceStatus d => Sys2Proof.Machine.execTraceStatus d s
  | .injectConfigure d => Sys2Proof.Machine.execInjectConfigure d s
  | .getIdentity t request => Sys2Proof.Machine.execGetIdentity t request s
  | .challenge t request => Sys2Proof.Machine.execChallenge t request s
  | .fence d => Sys2Proof.Machine.execFence d s
  | .nudge ring => Sys2Proof.Machine.execNudge ring s
  | .nudgeAll => Sys2Proof.Machine.execNudgeAll s
  | .ringEnable completion ring value => Sys2Proof.Machine.execRingEnable completion ring value s
  | .ringResume ring => Sys2Proof.Machine.execRingResume ring s
  | .discover => Sys2Proof.Machine.execDiscover s
  | .holdingReset => Sys2Proof.Machine.execHoldingReset s
  | .timeOffset value => Sys2Proof.Machine.execTimeOffset value s
  | .timeRate value => Sys2Proof.Machine.execTimeRate value s
  | .trapArmed => Sys2Proof.Machine.execTrapArmed s
  | .nonceRequest => Sys2Proof.Machine.execNonceRequest s
  | .requestGo => Sys2Proof.Machine.execRequestGo s
  | .powerControl value => Sys2Proof.Machine.execPowerControl value s
  | .registerWrite offset len value => Sys2Proof.Machine.execRegisterWrite offset len value s
  | .bar4Load offset len => Sys2Proof.Machine.execBar4Load offset len s
  | .bar4Store offset data => Sys2Proof.Machine.execBar4Store offset data s
  | .getStatus body => Sys2Proof.Machine.execGetStatus body s
  | .setPowerCap body => Sys2Proof.Machine.execSetPowerCap body s
  | .mgmtStop body => Sys2Proof.Machine.execMgmtStop body s
  | .mgmtHoldingReset body => Sys2Proof.Machine.execMgmtHoldingReset body s
  | .moduleReset body => Sys2Proof.Machine.execModuleReset body s
  | .powerOff body => Sys2Proof.Machine.execPowerOff body s
  | .powerOn body => Sys2Proof.Machine.execPowerOn body s
  | .getNonce body => Sys2Proof.Machine.execGetNonce body s
  | .securityRequest body => Sys2Proof.Machine.execSecurityRequest body s
  | .recoveryImageLoad slot image => Sys2Proof.Machine.execRecoveryImageLoad slot image s
  | .pwrEnAssert => Sys2Proof.Machine.execPwrEnAssert s
  | .pwrEnDeassert => Sys2Proof.Machine.execPwrEnDeassert s
  | .inputUndervoltage volts => Sys2Proof.Machine.execInputUndervoltage volts s
  | .inputOvervoltage volts => Sys2Proof.Machine.execInputOvervoltage volts s
  | .modResetN lowNs => Sys2Proof.Machine.execModResetN lowNs s
  | .perstN => Sys2Proof.Machine.execPerstN s
  | .functionLevelReset => Sys2Proof.Machine.execFunctionLevelReset s
  | .hostLinkDown => Sys2Proof.Machine.execHostLinkDown s
  | .masterSel level => Sys2Proof.Machine.execMasterSel level s
  | .bootRom bootSel => Sys2Proof.Machine.execBootRom bootSel s
  | .firmwareVerify => Sys2Proof.Machine.execFirmwareVerify s
  | .pufRegenerate correctable => Sys2Proof.Machine.execPufRegenerate correctable s
  | .hbmTraining failed => Sys2Proof.Machine.execHbmTraining failed s
  | .lpddrTraining failed => Sys2Proof.Machine.execLpddrTraining failed s
  | .builtInSelfTest cores harrows gleaners rollers => Sys2Proof.Machine.execBuiltInSelfTest cores harrows gleaners rollers s
  | .lamioTraining laneMasks farOk => Sys2Proof.Machine.execLamioTraining laneMasks farOk s
  | .powerSample watts volts amps => Sys2Proof.Machine.execPowerSample watts volts amps s
  | .capStepRaise => Sys2Proof.Machine.execCapStepRaise s
  | .capStepLower => Sys2Proof.Machine.execCapStepLower s
  | .sensorRead readings => Sys2Proof.Machine.execSensorRead readings s
  | .thermalStepRaise => Sys2Proof.Machine.execThermalStepRaise s
  | .thermalStepLower => Sys2Proof.Machine.execThermalStepLower s
  | .episodeEnd thermal => Sys2Proof.Machine.execEpisodeEnd thermal s
  | .pollTick => Sys2Proof.Machine.execPollTick s
  | .ringFetchRetry id => Sys2Proof.Machine.execRingFetchRetry id s
  | .livenessTimeout => Sys2Proof.Machine.execLivenessTimeout s
  | .orderHoldRelease => Sys2Proof.Machine.execOrderHoldRelease s
  | .completionPost ring => Sys2Proof.Machine.execCompletionPost ring s
  | .coalesceExpiry ring => Sys2Proof.Machine.execCoalesceExpiry ring s
  | .stepReportPost => Sys2Proof.Machine.execStepReportPost s
  | .flitReceive port hedge flit => Sys2Proof.Machine.execFlitReceive port hedge flit s
  | .linkRetry port hedge => Sys2Proof.Machine.execLinkRetry port hedge s
  | .linkRetrain port laneMask farOk => Sys2Proof.Machine.execLinkRetrain port laneMask farOk s
  | .linkRetrainAttempt port laneMask farOk => Sys2Proof.Machine.execLinkRetrainAttempt port laneMask farOk s
  | .readReq p => Sys2Proof.Machine.execReadReq p s
  | .write p => Sys2Proof.Machine.execWrite p s
  | .atomicAdd64 p => Sys2Proof.Machine.execAtomicAdd64 p s
  | .atomicAdd32 p => Sys2Proof.Machine.execAtomicAdd32 p s
  | .atomicSwap64 p => Sys2Proof.Machine.execAtomicSwap64 p s
  | .atomicCas64 p => Sys2Proof.Machine.execAtomicCas64 p s
  | .atomicOr64 p => Sys2Proof.Machine.execAtomicOr64 p s
  | .atomicAnd64 p => Sys2Proof.Machine.execAtomicAnd64 p s
  | .bulkReq p => Sys2Proof.Machine.execBulkReq p s
  | .readResp p => Sys2Proof.Machine.execReadResp p s
  | .writeAck p => Sys2Proof.Machine.execWriteAck p s
  | .atomicResp p => Sys2Proof.Machine.execAtomicResp p s
  | .bulkDone p => Sys2Proof.Machine.execBulkDone p s
  | .collData m => Sys2Proof.Machine.execCollData m s
  | .bulkData p => Sys2Proof.Machine.execBulkData p s
  | .txnTimeout dest tag => Sys2Proof.Machine.execTxnTimeout dest tag s
  | .furrowHead head => Sys2Proof.Machine.execFurrowHead head s
  | .localFront module front seedbedFront lowestTask => Sys2Proof.Machine.execLocalFront module front seedbedFront lowestTask s
  | .furrowStall => Sys2Proof.Machine.execFurrowStall s
  | .timestampSync lead => Sys2Proof.Machine.execTimestampSync lead s
  | .heartbeatTick => Sys2Proof.Machine.execHeartbeatTick s
  | .heartbeat module published => Sys2Proof.Machine.execHeartbeat module published s
  | .heartbeatLoss module => Sys2Proof.Machine.execHeartbeatLoss module s
  | .hedgeMemberLost source lost cause head => Sys2Proof.Machine.execHedgeMemberLost source lost cause head s
  | .hedgeEvent module code position timestamp detail => Sys2Proof.Machine.execHedgeEvent module code position timestamp detail s
  | .voteTimeoutReport module step bounds => Sys2Proof.Machine.execVoteTimeoutReport module step bounds s
  | .voteContribution module step word => Sys2Proof.Machine.execVoteContribution module step word s
  | .voteOutcome v => Sys2Proof.Machine.execVoteOutcome v s
  | .autoResume => Sys2Proof.Machine.execAutoResume s
  | .voteTimeout => Sys2Proof.Machine.execVoteTimeout s
  | .muster module group epoch seq signature seedbed => Sys2Proof.Machine.execMuster module group epoch seq signature seedbed s
  | .goAhead group epoch seq go => Sys2Proof.Machine.execGoAhead group epoch seq go s
  | .endOfDataNotice source key sent => Sys2Proof.Machine.execEndOfDataNotice source key sent s
  | .missingRangeRequest source key first len => Sys2Proof.Machine.execMissingRangeRequest source key first len s
  | .reservationRequest source key => Sys2Proof.Machine.execReservationRequest source key s
  | .grant bin key => Sys2Proof.Machine.execGrant bin key s
  | .takeBack bin key => Sys2Proof.Machine.execTakeBack bin key s
  | .release key => Sys2Proof.Machine.execRelease key s
  | .reservationTimeout key => Sys2Proof.Machine.execReservationTimeout key s
  | .collTimeout group seq member => Sys2Proof.Machine.execCollTimeout group seq member s
  | .groupDefinition source part epoch bytes => Sys2Proof.Machine.execGroupDefinition source part epoch bytes s
  | .agreementAck source kind ident pos => Sys2Proof.Machine.execAgreementAck source kind ident pos s
  | .hedgeTimeout kind => Sys2Proof.Machine.execHedgeTimeout kind s
  | .orderForward o => Sys2Proof.Machine.execOrderForward o s
  | .hedgeStop m => Sys2Proof.Machine.execHedgeStop m s
  | .stopCutReached => Sys2Proof.Machine.execStopCutReached s
  | .setupWrite offset len value => Sys2Proof.Machine.execSetupWrite offset len value s
  | .discoveryOffer o => Sys2Proof.Machine.execDiscoveryOffer o s
  | .discoveryAnswer position held hops masterCandidate => Sys2Proof.Machine.execDiscoveryAnswer position held hops masterCandidate s
  | .discoveryTimeout => Sys2Proof.Machine.execDiscoveryTimeout s
  | .discoveryReoffer position => Sys2Proof.Machine.execDiscoveryReoffer position s
  | .taskAdmit => Sys2Proof.Machine.execTaskAdmit s
  | .ageingTick step task => Sys2Proof.Machine.execAgeingTick step task s
  | .tileComplete step task attempt => Sys2Proof.Machine.execTileComplete step task attempt s
  | .trapDeliver => Sys2Proof.Machine.execTrapDeliver s
  | .watchdogExpiry step task core other => Sys2Proof.Machine.execWatchdogExpiry step task core other s
  | .coreSramError core other => Sys2Proof.Machine.execCoreSramError core other s
  | .selfTestDone core passed => Sys2Proof.Machine.execSelfTestDone core passed s
  | .harrowFault harrow cause => Sys2Proof.Machine.execHarrowFault harrow cause s
  | .gleanerFailure region => Sys2Proof.Machine.execGleanerFailure region s
  | .poisonedRead step task line other => Sys2Proof.Machine.execPoisonedRead step task line other s
  | .memTimeout far line => Sys2Proof.Machine.execMemTimeout far line s
  | .patrolScrub far region frame corrected uncorrectable => Sys2Proof.Machine.execPatrolScrub far region frame corrected uncorrectable s
  | .migrationStart page => Sys2Proof.Machine.execMigrationStart page s
  | .migrationSeal page => Sys2Proof.Machine.execMigrationSeal page s
  | .migrationFlip page => Sys2Proof.Machine.execMigrationFlip page s
  | .migrationSourceFree page => Sys2Proof.Machine.execMigrationSourceFree page s
  | .gleanerAdd seg record block step task => Sys2Proof.Machine.execGleanerAdd seg record block step task s
  | .solveHarrowAssign k harrows => Sys2Proof.Machine.execSolveHarrowAssign k harrows s
  | .solveBoundary k => Sys2Proof.Machine.execSolveBoundary k s
  | .solveAcceptance k => Sys2Proof.Machine.execSolveAcceptance k s
  | .deadlineDecision k => Sys2Proof.Machine.execDeadlineDecision k s
  | .workingPageAudit => Sys2Proof.Machine.execWorkingPageAudit s
  | .matmul r => Sys2Proof.Machine.execMatmul r s
  | .matmulStat r => Sys2Proof.Machine.execMatmulStat r s
  | .attentionFwd r => Sys2Proof.Machine.execAttentionFwd r s
  | .attentionBwd r => Sys2Proof.Machine.execAttentionBwd r s
  | .vectorProgram r => Sys2Proof.Machine.execVectorProgram r s
  | .norm r => Sys2Proof.Machine.execNorm r s
  | .softmax r => Sys2Proof.Machine.execSoftmax r s
  | .loss r => Sys2Proof.Machine.execLoss r s
  | .gather r => Sys2Proof.Machine.execGather r s
  | .scatter r => Sys2Proof.Machine.execScatter r s
  | .preconditionApply r => Sys2Proof.Machine.execPreconditionApply r s
  | .update r => Sys2Proof.Machine.execUpdate r s
  | .solve r => Sys2Proof.Machine.execSolve r s
  | .fold r => Sys2Proof.Machine.execFold r s
  | .move r => Sys2Proof.Machine.execMove r s
  | .exportRecord r => Sys2Proof.Machine.execExportRecord r s
  | .fingerprint r => Sys2Proof.Machine.execFingerprint r s
  | .evalReduce r => Sys2Proof.Machine.execEvalReduce r s
  | .allReduce r => Sys2Proof.Machine.execAllReduce r s
  | .reduceScatter r => Sys2Proof.Machine.execReduceScatter r s
  | .allGather r => Sys2Proof.Machine.execAllGather r s
  | .broadcast r => Sys2Proof.Machine.execBroadcast r s
  | .allToAll r => Sys2Proof.Machine.execAllToAll r s
  | .barrier r => Sys2Proof.Machine.execBarrier r s
  | .collectiveVote r => Sys2Proof.Machine.execCollectiveVote r s
  | .collectiveNorm r => Sys2Proof.Machine.execCollectiveNorm r s
  | .vNop core a => Sys2Proof.Machine.execVNop core a s
  | .vMov core a => Sys2Proof.Machine.execVMov core a s
  | .vAdd core a => Sys2Proof.Machine.execVAdd core a s
  | .vSub core a => Sys2Proof.Machine.execVSub core a s
  | .vMul core a => Sys2Proof.Machine.execVMul core a s
  | .vFma core a => Sys2Proof.Machine.execVFma core a s
  | .vMin core a => Sys2Proof.Machine.execVMin core a s
  | .vMax core a => Sys2Proof.Machine.execVMax core a s
  | .vAbs core a => Sys2Proof.Machine.execVAbs core a s
  | .vNeg core a => Sys2Proof.Machine.execVNeg core a s
  | .vDiv core a => Sys2Proof.Machine.execVDiv core a s
  | .vRcp core a => Sys2Proof.Machine.execVRcp core a s
  | .vSqrt core a => Sys2Proof.Machine.execVSqrt core a s
  | .vRsqrt core a => Sys2Proof.Machine.execVRsqrt core a s
  | .vExp2 core a => Sys2Proof.Machine.execVExp2 core a s
  | .vLog2 core a => Sys2Proof.Machine.execVLog2 core a s
  | .vExp core a => Sys2Proof.Machine.execVExp core a s
  | .vLog core a => Sys2Proof.Machine.execVLog core a s
  | .vTanh core a => Sys2Proof.Machine.execVTanh core a s
  | .vErf core a => Sys2Proof.Machine.execVErf core a s
  | .vSigmoid core a => Sys2Proof.Machine.execVSigmoid core a s
  | .vCmpeq core a => Sys2Proof.Machine.execVCmpeq core a s
  | .vCmplt core a => Sys2Proof.Machine.execVCmplt core a s
  | .vCmple core a => Sys2Proof.Machine.execVCmple core a s
  | .vCmpgt core a => Sys2Proof.Machine.execVCmpgt core a s
  | .vCmpge core a => Sys2Proof.Machine.execVCmpge core a s
  | .vCmpun core a => Sys2Proof.Machine.execVCmpun core a s
  | .vMand core a => Sys2Proof.Machine.execVMand core a s
  | .vMor core a => Sys2Proof.Machine.execVMor core a s
  | .vMandn core a => Sys2Proof.Machine.execVMandn core a s
  | .vSel core a => Sys2Proof.Machine.execVSel core a s
  | .vCompress core a => Sys2Proof.Machine.execVCompress core a s
  | .vExpand core a => Sys2Proof.Machine.execVExpand core a s
  | .vRedsum core a => Sys2Proof.Machine.execVRedsum core a s
  | .vRedmax core a => Sys2Proof.Machine.execVRedmax core a s
  | .vRedmin core a => Sys2Proof.Machine.execVRedmin core a s
  | .vWacc core a => Sys2Proof.Machine.execVWacc core a s
  | .vWsum core a => Sys2Proof.Machine.execVWsum core a s
  | .vCvti core a => Sys2Proof.Machine.execVCvti core a s
  | .vCvtf core a => Sys2Proof.Machine.execVCvtf core a s
  | .vIadd core a => Sys2Proof.Machine.execVIadd core a s
  | .vIand core a => Sys2Proof.Machine.execVIand core a s
  | .vIxor core a => Sys2Proof.Machine.execVIxor core a s
  | .vLaneidx core a => Sys2Proof.Machine.execVLaneidx core a s
  | .vRandu core a => Sys2Proof.Machine.execVRandu core a s
  | .vRandb core a => Sys2Proof.Machine.execVRandb core a s
  | .vLoad core a => Sys2Proof.Machine.execVLoad core a s
  | .vStore core a => Sys2Proof.Machine.execVStore core a s
  | .exportAckPoll acked => Sys2Proof.Machine.execExportAckPoll acked s
  | .exportResend => Sys2Proof.Machine.execExportResend s
  | .evalBudgetExpiry => Sys2Proof.Machine.execEvalBudgetExpiry s
  | .shardRestoration stage => Sys2Proof.Machine.execShardRestoration stage s
  | .counterSample consumed => Sys2Proof.Machine.execCounterSample consumed s
  | .pcSample seen consumed => Sys2Proof.Machine.execPcSample seen consumed s
  | .sheafThresholdTest => Sys2Proof.Machine.execSheafThresholdTest s
  | .sheafFreeze => Sys2Proof.Machine.execSheafFreeze s
  | .inputPowerApplied volts => Sys2Proof.Machine.execInputPowerApplied volts s
  | .aux3v3Applied => Sys2Proof.Machine.execAux3v3Applied s
  | .aux3v3Removed => Sys2Proof.Machine.execAux3v3Removed s
  | .thermTripNRelease => Sys2Proof.Machine.execThermTripNRelease s
  | .hostLinkUp => Sys2Proof.Machine.execHostLinkUp s
  | .holdingResetDone => Sys2Proof.Machine.execHoldingResetDone s
  | .memoryControllerFailure far region => Sys2Proof.Machine.execMemoryControllerFailure far region s
  | .coreHalt core => Sys2Proof.Machine.execCoreHalt core s
  | .coreResume core => Sys2Proof.Machine.execCoreResume core s
  | .reorderHoldExpiry port vc => Sys2Proof.Machine.execReorderHoldExpiry port vc s
  | .hostAccessCompletion r => Sys2Proof.Machine.execHostAccessCompletion r s
  | .hostCompletionTimeout id => Sys2Proof.Machine.execHostCompletionTimeout id s
  | .msixVectorUnmask vector => Sys2Proof.Machine.execMsixVectorUnmask vector s
  | .factoryServiceWrite item => Sys2Proof.Machine.execFactoryServiceWrite item s

end Sys2Proof.Machine
end

