-- ==== Sys2Proof/Safety.lean ====
section
/-!
DEFINITION. What a safe state is, in the terms the statements use.
-/
namespace Sys2Proof.Safety

open Sys2Proof Sys2Proof.Machine

/-- The committed memory is in its canonical form (11 R219: one home for each byte). -/
def memoryCanonical (s : State) : Prop := twf (0 : Byte) s.mem.base = true

/-- A command that sends start-up to recovery with a BOOT_ERROR (18 R375): ALERT_N is asserted, the time of start-up stands
in the status, and flash, memory and every unit but power and security are left as they were. -/
def Recovers (c : Instr) (error : Nat) (s : State) : Prop :=
  ∃ t, exec c s = .next t ∧ t.startup.recovery = true ∧ t.startup.ready = s.startup.ready ∧
    t.security.bootError = error ∧ t.security.identityValid = s.security.identityValid ∧
    t.power = { s.power with alert := true } ∧
    { t with startup := s.startup, security := s.security, power := s.power } = s

/-- Module reset (19 R404, 18 R381, 11 R220, 20 R413): from `s` to `t`, what is kept, what is computed, and reset values for
the rest. `t.out` is not spoken of. -/
def IsModuleReset (s t : State) : Prop :=
  t.flash = s.flash ∧
  t.security.state = (if s.security.pending = 3 then s.security.state else s.security.pending) ∧
  t.security.changedFrom = (if s.security.pending = 3 then none else some s.security.state) ∧
  t.security.pending = 3 ∧ t.security.identityValid = false ∧ t.security.nonceIssued = false ∧
  t.startup = { State.reset.startup with startedAt := s.clock.up } ∧
  t.power.pwrGood = s.power.pwrGood ∧ t.power.pwrEn = s.power.pwrEn ∧ t.power.aux = s.power.aux ∧
  t.power.volts = s.power.volts ∧ t.power.masterSel = s.power.masterSel ∧ t.power.linkUp = s.power.linkUp ∧
  t.power.capW = s.flash.record.powerLimit ∧ t.power.dieThrottle = s.flash.record.dieThrottle ∧
  t.power.hbmThrottle = s.flash.record.hbmThrottle ∧ t.power.capStep = 0 ∧ t.power.thermalStep = 0 ∧
  t.power.tripSensor = none ∧ t.mem.capacity = capacityOf s.flash ∧ t.clock.up = s.clock.up ∧
  { t with
    flash := State.reset.flash, security := State.reset.security, startup := State.reset.startup
    power := State.reset.power, mem.capacity := State.reset.mem.capacity, clock.up := State.reset.clock.up
    out := State.reset.out, pending := State.reset.pending } = State.reset ∧
  t.pending = s.pending

/-- A shutdown (19 R392): main power is off, and but for the supplies and the pins the module stands as after reset. -/
def ShutsDown (c : Instr) (s : State) : Prop :=
  ∃ t, exec c s = .next t ∧ t.power.pwrGood = false ∧ t.power.linkUp = false ∧ t.flash = s.flash ∧
    t.startup.ready = false ∧ t.mem.capacity = capacityOf s.flash ∧
    { t with
      flash := State.reset.flash, security := State.reset.security, startup := State.reset.startup
      power := State.reset.power, mem.capacity := State.reset.mem.capacity, clock.up := State.reset.clock.up
      out := State.reset.out, pending := State.reset.pending } = State.reset ∧
    t.out = s.out ∧ t.pending = s.pending

/-- Function-level reset (13 R290): every ring is disabled and empty, no access is outstanding, no vector is masked off but by
its reset value, no event waits; what is not the host interface's is kept. -/
def HostForgotten (s t : State) : Prop :=
  t.host.sub = [] ∧ t.host.compl = [] ∧ t.host.accesses = [] ∧ t.host.evWaiting = [] ∧ t.host.evPosted = 0 ∧
  t.host.evConsumer = 0 ∧ t.host.msixPending = 0 ∧ t.host.ctx.eventEnable = false ∧ t.host.ctx.pollInterval = 2 ∧
  t.host.ctx.eventLost.toNat = min s.host.evWaiting.length (2 ^ 32 - 1) ∧
  t.host.safeHold = s.host.safeHold ∧
  { t with
    host := s.host, power := s.power, run.jobs := s.run.jobs, run.held := s.run.held, mem.awaited := s.mem.awaited
    counters.suspended := s.counters.suspended, holding.restore := s.holding.restore } = s

/-- Holding reset of a module (19 R404, 20 R413): what it loses, what it keeps; bytes below the reserved area keep their
homes. -/
def IsHoldingReset (s t : State) : Prop :=
  t.run = {} ∧ t.votes = {} ∧ t.graph = {} ∧ t.harrows = {} ∧ t.coll = {} ∧ t.sheaf = {} ∧ t.stones = {} ∧
  t.exporter = {} ∧ t.host = {} ∧ t.fallow = [] ∧ t.vec = [] ∧ t.sched.tasks = [] ∧
  t.sched.retiredCores = s.sched.retiredCores ∧ t.sched.retiredHarrows = s.sched.retiredHarrows ∧
  t.counters.values = s.counters.values ∧ t.lamio.ports = s.lamio.ports ∧
  t.holding.moduleId = s.holding.moduleId ∧ t.holding.isMaster = s.holding.isMaster ∧
  t.holding.number = s.holding.number ∧ t.holding.setupLock = false ∧ t.holding.resetting = true ∧
  t.security.state = s.security.state ∧ t.security.meas = s.security.meas ∧ t.security.nonceIssued = false ∧
  t.clock.now = 0 ∧ t.clock.up = s.clock.up ∧ t.mem.layers = [] ∧ t.mem.capacity = s.mem.capacity ∧
  (∀ a, a < reservedBase s → tget 0 t.mem.base a = tget 0 s.mem.base a) ∧
  (∀ a, reservedBase s ≤ a → tget 0 t.mem.base a = 0) ∧
  t.flash = s.flash ∧ t.startup = s.startup ∧ t.power = s.power ∧ t.pending = s.pending

/-- A packet of type `ty` is next in its order from its source (14 R301), with no packet of that order waiting behind it in
the reorder buffer. -/
abbrev InTurn (s : State) (ty : Nat) (p : Packet) : Prop :=
  p.orderSeq = tget 0 s.lamio.recvOrder (orderKey p.source (ptVc ty)) ∧ p.orderSeq < 4096 ∧
    (s.lamio.reorder.all fun x => x.2.source != p.source || ptVc x.1 != ptVc ty) = true

/-- A request of this module's own to `m` leaves by a port, and none waits for its router's answer (14 R300). -/
def Reachable (s : State) (m : ModId) : Prop := (nextHop s m false).isSome = true ∧ s.lamio.unreached = []

/-- The data of `p` stand where it says for every plain reader; every other byte, for every reader, is as before; nothing but
memory, counters and the order of arrival has changed. -/
def PlainBytes (s : State) (p : Packet) (u : State) : Prop :=
  (∀ i, i < p.data.length → readByte u.mem u.run.head .plain (p.offset.toNat + i) = p.data.getD i 0) ∧
  (∀ r a, a < p.offset.toNat ∨ p.offset.toNat + p.data.length ≤ a →
    readByte u.mem u.run.head r a = readByte s.mem s.run.head r a) ∧
  { u with mem := s.mem, counters.values := s.counters.values, lamio.recvOrder := s.lamio.recvOrder } = s

/-- The atomics of 14 R307: the row, its packet type, the bytes of its word, and the new word from the old one and the two
words of data. -/
def atomicRows : List ((Packet → Instr) × Nat × Nat × (Nat → Nat → Nat → Nat)) :=
  [(.atomicAdd64, ptAtomicAdd64, 8, fun old x _ => old + x),
   (.atomicAdd32, ptAtomicAdd32, 4, fun old x _ => old + x),
   (.atomicSwap64, ptAtomicSwap64, 8, fun _ x _ => x),
   (.atomicCas64, ptAtomicCas64, 8, fun old x y => if old = x then y else old),
   (.atomicOr64, ptAtomicOr64, 8, fun old x _ => old ||| x),
   (.atomicAnd64, ptAtomicAnd64, 8, fun old x _ => old &&& x)]

/-- The messages of the management port (19 R407): the row, its code, the length of its body, whether it needs main power. -/
def mgmtRows : List ((Bytes → Instr) × Nat × Nat × Bool) :=
  [(.getStatus, 0x20, 0, false), (.setPowerCap, 0x21, 2, true), (.mgmtStop, 0x22, 0, true),
   (.mgmtHoldingReset, 0x23, 0, true), (.moduleReset, 0x24, 0, true), (.powerOff, 0x25, 0, false),
   (.powerOn, 0x26, 0, false), (.getNonce, 0x27, 0, true), (.securityRequest, 0x28, 29856, true)]

/-! ### Descriptors -/

/-- The words one poll reads: those of the enabled rings, of the event ring, and LIVENESS (13 R272). -/
def pollWords (s : State) : List Nat :=
  (s.host.sub.filterMap fun e => if e.2.enable then some e.1 else none) ++
    (s.host.compl.filterMap fun e => if e.2.enable then some (256 + e.1) else none) ++ [512, 513]

/-- The progress words of the enabled rings that have changed, as one poll writes them: the number of the last descriptor fetched
or of the entry posted, with the ring's generation (13 R273). -/
def progressWrites (s : State) : List (Nat × Bytes × Bool) :=
  let at_ := fun (w : Nat) => s.host.ctx.progressBase.toNat / 4096 * 4096 + 8 * w
  let word := fun (w : Nat) (count generation : W32) (shown : Option Nat) =>
    let v := count.toNat + 2 ^ 32 * generation.toNat
    if shown = some v then none else some (at_ w, leBytes 8 v, false)
  (s.host.sub.filterMap fun e => if e.2.enable then word e.1 e.2.fetched e.2.generation e.2.shown else none) ++
    s.host.compl.filterMap fun e => if e.2.enable then word (256 + e.1) e.2.posted e.2.generation e.2.shown else none

/-- The descriptor rows: each row, its opcode, and the sub-operation its block or body is given (13 R277, 02 R35). -/
def descRows : List ((Desc → Instr) × DescOp × (Desc → Desc)) :=
  [(.graphSubmit, .graphSubmit, id), (.graphRetire, .graphRetire, id), (.tensorDefine, .tensorDefine, id),
   (.tensorRelease, .tensorRelease, id), (.furrowAdvance, .furrowAdvance, id), (.runBegin, .runBegin, id),
   (.groupDefine, .groupDefine, id), (.groupReform, .groupReform, id), (.copyIn, .copyIn, id), (.copyOut, .copyOut, id),
   (.exportConfig, .exportConfigure, withBlockOp 0), (.exportAcknowledge, .exportConfigure, withBlockOp 1),
   (.exportChainBase, .exportConfigure, withBlockOp 2), (.exportReplayImport, .exportConfigure, withBlockOp 3),
   (.snapshot, .snapshot, id), (.stopScheduled, .stop, withStopKind 0), (.stopImmediate, .stop, withStopKind 1),
   (.resume, .resume, id), (.modeSet, .modeSet, id), (.rootSupply, .rootSupply, id), (.voteSupply, .voteSupply, id),
   (.placementPin, .placementPin, id), (.counterConfig, .counterConfigure, withBlockOp 0),
   (.counterReadNow, .counterConfigure, withBlockOp 1), (.counterClear, .counterConfigure, withBlockOp 2),
   (.counterStatus, .counterConfigure, withBlockOp 3), (.traceConfigArm, .traceConfigure, withBlockOp 0),
   (.traceRearm, .traceConfigure, withBlockOp 1), (.traceDisable, .traceConfigure, withBlockOp 2),
   (.traceStatus, .traceConfigure, withBlockOp 3), (.injectConfigure, .injectConfigure, id), (.fence, .fence, id)]

/-- The state in which a descriptor that has just been delivered executes: it has left its ring's waiting list, EXECUTED
counts it, and its trace entry is made (13 R281, 17 R368). -/
def atOrderPoint (op : DescOp) (d : Desc) (s : State) : State :=
  trace 1 0 false 0 (BitVec.allOnes 32) (descData op d 0)
    (setSub d.ring (fun r => { r with waiting := r.waiting.drop 1, executed := r.executed + 1 }) (fetched op d s))

/-- The descriptor is taken and stands at the front of its ring at the order point (13 R275, R281). -/
structure Reaches (op : DescOp) (d : Desc) (s : State) : Prop where
  takes : takesDescriptor s d.ring = true
  front : frontOf? (fetched op d s) d.ring = some (op, d)

/-- It executes here, and its header is well formed (13 R276, R289). -/
structure Executes (op : DescOp) (d : Desc) (s : State) : Prop extends Reaches op d s where
  here   : runWide (atOrderPoint op d s) op d = false
  header : headerBad d = false

/-- The row `c` delivers `d`, which executes with the result `r`; `P` relates the state at the order point and the state
after the descriptor's own effect. -/
def Yields (c : Instr) (op : DescOp) (d : Desc) (s : State) (r : Result) (P : State → State → Prop) : Prop :=
  ∃ u, exec c s = .next (advance (record op d (u, r))) ∧ P (atOrderPoint op d s) u

/-- The order `d` becomes, sent to every other module of the hall (13 R289; log entry 15). -/
def orderOut (op : DescOp) (d : Desc) (s : State) : ModId × Hedge :=
  (everyone, .orderForward ⟨s.holding.moduleId, s.holding.number.toNat, s.run.head, false, op, d⟩)

/-- The lead master holds one order only, of a descriptor of its own, and the hold is over (13 R289). -/
structure HoldsOne (o : FwdOrder) (s : State) : Prop where
  lead   : s.isLead = true
  held   : ∃ at_, s.run.held = [⟨o, at_⟩] ∧ holdOver s ⟨o, at_⟩ = true
  ours   : o.mgmt = false ∧ o.source = s.holding.moduleId
  header : headerBad o.desc = false

/-- ORDER_HOLD_RELEASE lets the one order held take effect: `P` holds of the state before the clock of the block moves on,
whose host rings, jobs, sheaf and messages sent alone may differ otherwise. -/
def Releases (s : State) (P : State → Prop) : Prop :=
  ∃ v, exec .orderHoldRelease s = .next (advance v) ∧ v.run.held = [] ∧ P v

/-- The block of a parameter-block descriptor reaches this module, and no other (13 R280). -/
structure BlockHere (ok : Bytes → Bool) (d : Desc) (s : State) (b : Bytes) (ms : List ModId) : Prop where
  block : paramBlock d = .ok b
  good  : ok b = true
  all   : paramTarget s d = some ms
  me    : targetsMe s d = true
  alone : othersOf s ms = []

/-- Where a target writes its part of RESULT: at its rank (13 R280). -/
def resultWrite (d : Desc) (ms : List ModId) (bs : Bytes) (s : State) : List (Nat × Bytes × Bool) :=
  if dAt d 24 8 = 0 then [] else [(dAt d 24 8 + ((rankOf ms s.holding.moduleId).getD 0) * bs.length, bs, false)]

/-- An EXPORT_CONFIGURE whose block has the operation `k` reaches this module, and no other (16 R353). -/
structure ExportHere (k : Nat) (d : Desc) (s : State) (b : Bytes) (ms : List ModId) : Prop where
  block : ∃ b0, exportBlock d = .ok b0 ∧ b = (if byteAt b0 0 = 3 then b0 else b0.take 64)
  good  : exportBlockOk s b = true
  op    : byteAt b 0 = k
  all   : paramTarget s d = some ms
  me    : targetsMe s d = true
  alone : othersOf s ms = []

/-- An event raised between `s` and `t` (13 R285): a holding master whose event queue is not enabled keeps it waiting, a member
sends it to its master. -/
def Announces (s t : State) (code detail : Nat) : Prop :=
  (s.holding.isMaster = true → s.host.ctx.eventEnable = false →
    (BitVec.ofNat 16 code, s.holding.moduleId, s.run.head, BitVec.ofNat 64 s.clock.now, BitVec.ofNat 64 detail) ∈
      t.host.evWaiting) ∧
  (s.holding.isMaster = false → s.assigned = true →
    (s.holding.masterId, .event (BitVec.ofNat 16 code) s.run.head (BitVec.ofNat 64 s.clock.now) (BitVec.ofNat 64 detail)) ∈
      t.out.hedge)

/-! ### Discovery and the export sink -/

/-- The holding is refused for what stands at a position, and no member is assigned (14 R312). -/
def Refused (st : Nat) (position : ModId) (s t : State) : Prop :=
  t.holding.state = st ∧ t.holding.offender = position ∧ t.holding.moduleId = 0xFFFF ∧
  { t with
    holding.state := s.holding.state, holding.offender := s.holding.offender, holding.moduleId := s.holding.moduleId
    holding.lastHedge := s.holding.lastHedge, sheaf := s.sheaf } = s

/-- Every neighbour of the holding over a port that is up has been offered its ID, over `hops` hops (14 R312). -/
def OffersNeighbours (hops : Nat) (t : State) : Prop :=
  ∀ p m, p < 8 → neighbour t.holding t.holding.moduleId p = some m → m ≠ t.holding.moduleId →
    inHolding t.holding m = true → portUp t p = true →
    (m, Hedge.discoveryOffer ⟨m, BitVec.ofNat 128 (holdingConfig t.holding), hops, p⟩) ∈ t.out.hedge

/-- Bytes of a record from byte `b` of the sink's ring on, as written to the host (16 R351). -/
def ringWrites (s : State) (b : Nat) (bs : Bytes) : List (Nat × Bytes × Bool) :=
  let size := s.exporter.cfg.sinkSize
  let ring := sinkArea s + 4096
  let rest := bs.drop (size - b % size)
  (ring + b % size, bs.take (size - b % size), false) :: if rest = [] then [] else [(ring, rest, false)]

/-- The sink lies in host memory, and this module's bytes get there (16 R351). -/
def HostSink (s : State) : Prop :=
  s.exporter.cfg.sinkHost = true ∧
  (s.power.linkUp = true ∨ (s.exporter.cfg.viaOwn = false ∧ s.holding.isMaster = false))

/-- The exporter once an acknowledgement has been read (16 R351). -/
def ackedTo (seq : Nat) (x : Exporter) : Exporter :=
  if seq ≤ x.acked then x else { x with acked := seq, retained := x.retained.filter fun r => decide (seq < r.seq) }

/-! ### Task instances -/

/-- Every other task instance is as it was. -/
def OthersStay (step : Nat) (task : W32) (s u : State) : Prop :=
  ∀ x ∈ s.sched.tasks, (x.step, x.task) ≠ (step, task) → x ∈ u.sched.tasks

/-- No two task instances have one step and task ID. -/
def OneEach (s : State) : Prop := (s.sched.tasks.map fun t => (t.step, t.task)).Nodup

/-- A tile of the task runs again, as the task's next attempt (12 R257). -/
def Replayed (t : TaskInst) (u : State) (unit : Nat → Prop) : Prop :=
  ∃ x, findTask u t.step t.task = some x ∧ x.attempt = (t.attempt + 1) % 256 ∧ unit x.unit ∧ x.phase = t.phase ∧
    x.cells = t.cells ∧ x.done = t.done

/-- A task has failed: nothing of it is published, and bit 9 of the vote of its step is found (15 R327). -/
def Failed (t : TaskInst) (s u : State) : Prop :=
  (∃ x, findTask u t.step t.task = some x ∧ x.phase = .abandoned ∧ x.cells = [] ∧ x.contributions = []) ∧
  (s.votes.openStep = some t.step → u.votes.word.getLsbD vbReplayFailed = true)

/-! ### Collectives -/

/-- The one collective that a key names on this module is `c`, of the group `g`. -/
structure CollAt (s : State) (k : SegKey) (c : CollInst) (g : Group) : Prop where
  named : s.coll.live.find? (ofKey k) = some c
  one   : s.coll.live.filter (sameColl c) = [c]
  group : groupOf s c.group = some g

/-- The collective as this module holds it, if it still does. -/
def liveColl (s : State) (c : CollInst) : Option CollInst := s.coll.live.find? (sameColl c)

/-- The musters the group lead holds once it has taken one more (10 R212). -/
def mustersWith (s : State) (x : Muster) : List Muster :=
  (s.coll.musters.filter fun y => !(y.1 == x.1 && y.2.1 == x.2.1 && y.2.2.1 == x.2.2.1 && y.2.2.2.1 == x.2.2.2.1)) ++ [x]

/-- The muster of a member that is first in its order of arrival (10 R212). -/
def firstMuster (xs : List Muster) (group epoch : Nat) (m : ModId) : Option Muster :=
  xs.find? fun x => x.1 == group && x.2.1 == epoch && x.2.2.2.1 == m

/-! ### The vector engine -/

/-- The rows of the vector instructions (05 R93): each row, its opcode, and the registers its VD names: none, V, M or D. -/
def vecRows : List ((Nat → VecArgs → Instr) × VecOp × Nat) :=
  [(.vNop, .nop, 0), (.vMov, .mov, 1), (.vAdd, .add, 1), (.vSub, .sub, 1), (.vMul, .mul, 1), (.vFma, .fma, 1),
   (.vMin, .min, 1), (.vMax, .max, 1), (.vAbs, .abs, 1), (.vNeg, .neg, 1), (.vDiv, .div, 1), (.vRcp, .rcp, 1),
   (.vSqrt, .sqrt, 1), (.vRsqrt, .rsqrt, 1), (.vExp2, .exp2, 1), (.vLog2, .log2, 1), (.vExp, .exp, 1),
   (.vLog, .log, 1), (.vTanh, .tanh, 1), (.vErf, .erf, 1), (.vSigmoid, .sigmoid, 1), (.vCmpeq, .cmpeq, 2),
   (.vCmplt, .cmplt, 2), (.vCmple, .cmple, 2), (.vCmpgt, .cmpgt, 2), (.vCmpge, .cmpge, 2), (.vCmpun, .cmpun, 2),
   (.vMand, .mand, 2), (.vMor, .mor, 2), (.vMandn, .mandn, 2), (.vSel, .sel, 1), (.vCompress, .compress, 1),
   (.vExpand, .expand, 1), (.vRedsum, .redsum, 1), (.vRedmax, .redmax, 1), (.vRedmin, .redmin, 1),
   (.vWacc, .wacc, 3), (.vWsum, .wsum, 1), (.vCvti, .cvti, 1), (.vCvtf, .cvtf, 1), (.vIadd, .iadd, 1),
   (.vIand, .iand, 1), (.vIxor, .ixor, 1), (.vLaneidx, .laneidx, 1), (.vRandu, .randu, 1), (.vRandb, .randb, 1),
   (.vLoad, .load, 1), (.vStore, .store, 0)]

/-- The operand and output views of the task that the core's engine serves; none when it serves none. -/
def viewCount (s : State) (core : Nat) : Nat × Nat :=
  match servedTask s (engineOf s core) with
  | none => (0, 0)
  | some x => ((insOf s x.2.1 x.2.2.1).length, (outsOf s x.2.1 x.2.2.1).length)

/-- What an instruction reads outside the core's registers: a STORE, also which of its elements are events (05 R96). -/
def engineEnv (op : VecOp) (a : VecArgs) (s : State) (core : Nat) : VecEnv :=
  match servedTask s (engineOf s core) with
  | none => idleEnv
  | some x =>
    let env := vecEnvOf s x
    if op = .store then withStores (outsOf s x.2.1 x.2.2.1) (vecInstr env op a (engineOf s core)) env else env

/-- The core can execute the instruction: the module is ready, the core is enabled and not halted, and the instruction's
operands name what it may act on at its place in the program (05 R91, R93, R94). -/
structure Engaged (op : VecOp) (core : Nat) (a : VecArgs) (s : State) : Prop where
  ready   : s.ready = true
  known   : core < 4096
  enabled : coreEnabled s core = true
  going   : s.sched.halted.contains core = false
  fits    : vecFits (viewCount s core).1 (viewCount s core).2 (engineOf s core).tail op a = true

/-- Lane j of operand A. -/
def laneA (a : VecArgs) (c : VecCtx) (j : Nat) : W32 := (vReg c a.va).getD j 0

/-- V[VD] after an instruction that acts on the lanes `act` with the results `g` (05 R95). -/
def LanesAre (act : BitVec 64) (a : VecArgs) (g : Nat → W32) (c c' : VecCtx) : Prop :=
  ∀ j, j < 64 → (vReg c' a.vd).getD j 0 =
    if act.getLsbD j then g j else if c.live.getLsbD j && a.zero then 0 else (vReg c a.vd).getD j 0

/-- V[VD] after an instruction that gives every live lane one value. -/
def LiveLanesAre (a : VecArgs) (x : W32) (c c' : VecCtx) : Prop :=
  ∀ j, j < 64 → (vReg c' a.vd).getD j 0 = if c.live.getLsbD j then x else (vReg c a.vd).getD j 0

/-- The value instructions of 05 R93: each row with its result on a lane, from operands A, B and C. -/
def laneRows : List ((Nat → VecArgs → Instr) × VecOp × (W32 → W32 → W32 → W32)) :=
  [(.vMov, .mov, fun _ b _ => b),
   (.vAdd, .add, fun a b _ => toB32 ((ofB32 a).add (ofB32 b))), (.vSub, .sub, fun a b _ => toB32 ((ofB32 a).sub (ofB32 b))),
   (.vMul, .mul, fun a b _ => toB32 ((ofB32 a).mul (ofB32 b))),
   (.vFma, .fma, fun a b c => toB32 (((ofB32 a).mul (ofB32 b)).add (ofB32 c))),
   (.vMin, .min, fun a b _ => toB32 (numMin (ofB32 a) (ofB32 b))),
   (.vMax, .max, fun a b _ => toB32 (numMax (ofB32 a) (ofB32 b))),
   (.vAbs, .abs, fun a _ _ => toB32 (ofB32 a).abs), (.vNeg, .neg, fun a _ _ => toB32 (ofB32 a).neg),
   (.vDiv, .div, fun a b _ => toB32 ((ofB32 a).div (ofB32 b))),
   (.vRcp, .rcp, fun a _ _ => toB32 ((Machine.Num.ofNat 1).div (ofB32 a))), (.vSqrt, .sqrt, fun a _ _ => toB32 (ofB32 a).sqrt),
   (.vRsqrt, .rsqrt, fun a _ _ => toB32 (fnRsqrt (ofB32 a))), (.vExp2, .exp2, fun a _ _ => toB32 (exp2Num (ofB32 a))),
   (.vLog2, .log2, fun a _ _ => toB32 (log2Num (ofB32 a))), (.vExp, .exp, fun a _ _ => toB32 (fnExp (ofB32 a))),
   (.vLog, .log, fun a _ _ => toB32 (fnLog (ofB32 a))), (.vTanh, .tanh, fun a _ _ => toB32 (fnTanh (ofB32 a))),
   (.vErf, .erf, fun a _ _ => toB32 (fnErf (ofB32 a))), (.vSigmoid, .sigmoid, fun a _ _ => toB32 (fnSigmoid (ofB32 a))),
   (.vCvti, .cvti, fun a _ _ => BitVec.ofNat 32 (plainBits fINT32 (ofB32 a))),
   (.vCvtf, .cvtf, fun a _ _ => toB32 (.ofInt false a.toInt 0)), (.vIadd, .iadd, fun a b _ => a + b),
   (.vIand, .iand, fun a b _ => a &&& b), (.vIxor, .ixor, fun a b _ => a ^^^ b)]

/-- The compares of 05 R93: each row with its relation. -/
def cmpRows : List ((Nat → VecArgs → Instr) × VecOp × (Machine.Num → Machine.Num → Bool)) :=
  [(.vCmpeq, .cmpeq, fun x y => x.eq y), (.vCmplt, .cmplt, fun x y => x.lt y), (.vCmple, .cmple, fun x y => x.le y),
   (.vCmpgt, .cmpgt, fun x y => y.lt x), (.vCmpge, .cmpge, fun x y => y.le x),
   (.vCmpun, .cmpun, fun x y => x.isNan || y.isNan)]

/-- The mask operations of 05 R93: each row with its bit. -/
def maskRows : List ((Nat → VecArgs → Instr) × VecOp × (Bool → Bool → Bool)) :=
  [(.vMand, .mand, fun x y => x && y), (.vMor, .mor, fun x y => x || y), (.vMandn, .mandn, fun x y => x && !y)]

/-- The reductions of 05 R98: each row with its value over the acting lanes in ascending order. -/
def reduceRows : List ((Nat → VecArgs → Instr) × VecOp × (List Machine.Num → Machine.Num)) :=
  [(.vRedsum, .redsum, fold64), (.vRedmax, .redmax, fun vs => vs.foldl numMax (.inf true)),
   (.vRedmin, .redmin, fun vs => vs.foldl numMin (.inf false))]

/-! ### The task kinds -/

/-- The kinds whose run a unit computes from the operands it is bound to (12 R252): each row, its kind, and its work. -/
def taskRows : List ((TaskRun → Instr) × Nat × (State → Nat → TaskInst → Segment → TaskRec → Work)) :=
  [(.matmul, 0x01, matmulRun), (.attentionFwd, 0x03, attentionFwdRun), (.attentionBwd, 0x04, attentionBwdRun),
   (.vectorProgram, 0x05, vectorProgramRun), (.norm, 0x06, normRun), (.softmax, 0x07, softmaxRun), (.loss, 0x08, lossRun),
   (.gather, 0x09, gatherRun), (.scatter, 0x0A, scatterRun), (.preconditionApply, 0x0C, preconditionRun)]

/-- The statistic kinds (06 R109, R112, R113). -/
def statRows : List ((TaskRun → Instr) × Nat) := [(.matmulStat, 0x02), (.fold, 0x0F)]

/-- The collectives of 10 R198: each row and its operation. -/
def collRows : List ((TaskRun → Instr) × Nat) :=
  [(.allReduce, opAllReduce), (.reduceScatter, opReduceScatter), (.allGather, opAllGather), (.broadcast, opBroadcast),
   (.allToAll, opAllToAll), (.barrier, opBarrier), (.collectiveVote, opVote), (.collectiveNorm, opNorm)]

/-- The instance has started on the unit the row names, its results computed and not yet published; every other instance,
every byte every reader sees, and everything but pages, counters, the trap count, the trace and a vector engine stay. -/
def Started (r : TaskRun) (w : Work) (t : TaskInst) (s v : State) : Prop :=
  (∃ u, findTask v r.step r.task = some u ∧ u.phase = .computed ∧ u.attempt = (t.attempt + 1) % 256 ∧ u.unit = r.unit ∧
    u.tiles = max 1 r.tiles ∧ u.done = 0 ∧ u.cells = w.cells ∧ u.staged = w.staged ∧ u.findings = w.findings ∧
    u.status = w.status ∧ u.contributions = w.contributions) ∧
  OthersStay r.step r.task s v ∧
  (∀ rd a, readByte v.mem v.run.head rd a = readByte s.mem s.run.head rd a) ∧ v.mem.base = s.mem.base ∧
  { v with
    sched.tasks := s.sched.tasks, mem := s.mem, vec := s.vec, counters.values := s.counters.values
    numerics.trap := s.numerics.trap, sheaf := s.sheaf } = s

/-- The instance has ended as abandoned, its results dropped, and bit 9 of the vote of its step is found (11 R224). -/
def AddressFault (r : TaskRun) (s v : State) : Prop :=
  (∃ u, findTask v r.step r.task = some u ∧ u.phase = .abandoned ∧ u.cells = []) ∧
  (s.votes.openStep = some r.step → v.votes.word.getLsbD 9 = true) ∧
  OthersStay r.step r.task s v ∧
  { v.mem with fresh := s.mem.fresh } = s.mem

/-- A block `b` on its harrows has passed boundary `i` of its solve with the result `x` (07 R133 to R135, R139, R146). -/
def PassedBound (f : SolveForm) (i : Nat) (x : Bound) (b b' : BlockSolve) : Prop :=
  (∃ e, b'.work = some { x.work with event := e, ended := x.work.ended || x.status != 0 }) ∧
  b'.record.boundary = (if x.whole then i else b.record.boundary) ∧
  b'.record.iterations = (if 2 ≤ f.root.algorithm then b'.record.boundary else 0) ∧
  b'.record.status = (if x.status = 0 then b.record.status else x.status) ∧
  b'.record.harrowCount = b.harrows.length ∧ b'.harrows = (if x.status = 0 then b.harrows else []) ∧
  b'.candidate = b.candidate ∧ b'.decisions = b.decisions

/-- Every block but the one of the key is as it was. -/
def OtherBlocksStay (k : SolveKey) (s t : State) : Prop := ∀ k', k' ≠ k → findBlock t k' = findBlock s k'

/-- The results of one row of SOFTMAX (05 R100). -/
def softmaxOf (xs : List Machine.Num) : List Machine.Num :=
  let m := xs.foldl numMax (.inf true)
  if m = .inf true then xs.map fun _ => .zero
  else
    let es := xs.map fun x => fnExp (rnd32 (x.sub m))
    es.map fun e => e.div (laneFold es)

/-- The results of one row of NORM (05 R99): `layer` subtracts the mean; `gain` scales and shifts. -/
def normOf (layer : Bool) (eps : Machine.Num) (gain : Option (List Machine.Num × List Machine.Num)) (xs : List Machine.Num) : List Machine.Num :=
  let n := Machine.Num.ofNat xs.length
  let mu := if layer then rnd32 ((laneFold xs).div n) else .zero
  let ds := xs.map fun x => rnd32 (x.sub mu)
  let r := fnRsqrt (rnd32 ((rnd32 ((laneFold (ds.map fun d => d.mul d)).div n)).add eps))
  (List.range xs.length).map fun i =>
    let y := rnd32 ((ds.getD i .zero).mul r)
    match gain with
    | none => y
    | some (g, b) => rnd32 ((y.mul (g.getD i .zero)).add (b.getD i .zero))

end Sys2Proof.Safety
end

