-- ==== Sys2Proof/Certificates/Slice0/Obligations.lean ====
section
/-!
DEFINITION. The statements for the provers.
-/
section
open Sys2Proof Sys2Proof.Machine Sys2Proof.Safety

/-! ### The block: its queue, its clock, its reset -/

/-- Log entry 2: a step takes the command at the front of the queue and runs it on the state with the queue's rest. -/
def Obligations.StepRunsFrontCommand : Prop :=
  ∀ (c : Instr) (rest : List Instr) (s : State),
    step { s with pending := c :: rest } = exec c { s with pending := rest }

/-- Log entry 2 (the model's choice): on an empty queue the clock ticks once, and responses that were being made are sent;
nothing else changes; the timestamp never steps backward (02 R34). -/
def Obligations.IdleStepTicks : Prop :=
  ∀ s : State, s.pending = [] → ∃ t, step s = .next t ∧ t.clock.up = s.clock.up + 1 ∧ t.pending = [] ∧
    t.out.sahith = s.out.sahith ++ s.security.busy ∧ t.security.busy = [] ∧ s.clock.now ≤ t.clock.now ∧
    { t with clock := s.clock, out.sahith := s.out.sahith, security.busy := s.security.busy } = s

/-- Log entry 2: whatever the command, one step takes exactly the front command from the queue, and puts none there. -/
def Obligations.StepConsumesOneCommand : Prop :=
  ∀ s t : State, step s = .next t → t.pending = s.pending.tail

/-- 11 R219: the home of every byte is one: a step keeps the memory in its canonical form, whatever the command. -/
def Obligations.StepKeepsMemoryCanonical : Prop :=
  ∀ s t : State, Safety.memoryCanonical s → step s = .next t → Safety.memoryCanonical t

/-- 18 R379: no rollback counter ever decreases, whatever the command. -/
def Obligations.RollbackCountersNeverDecrease : Prop :=
  ∀ s t : State, step s = .next t → ∀ i, (rollback s.flash i).toNat ≤ (rollback t.flash i).toNat

/-- 11 R220, 18 R374, R377: a frame once on the retirement list in flash stays there, and the root key, the PUF seed and the
die's identity key are what they were, whatever the command. -/
def Obligations.FlashKeepsRetirementsAndKeys : Prop :=
  ∀ s t : State, step s = .next t →
    (∀ x ∈ s.flash.retired, x ∈ t.flash.retired) ∧ t.flash.rootKey = s.flash.rootKey ∧
      t.flash.pufSeed = s.flash.pufSeed ∧ t.flash.dieKey = s.flash.dieKey


/-! ### Reset -/

/-- 20 R413, R417 to R422, 11 R220, 19 R402, 17 R369: the values the spec's maps give for reset; memory lists nothing, in its
canonical form. -/
def Obligations.ResetValues : Prop :=
  Safety.memoryCanonical State.reset ∧ State.reset.mem.base = [] ∧ State.reset.mem.layers = [] ∧ State.reset.pending = [] ∧
  bar0Word State.reset 0x30000 = 0x18210100005A0400 ∧ State.reset.mem.capacity = 3584 * 2 ^ 30 ∧
  State.reset.mem.reservedSize = 96 ∧
  State.reset.numerics.stintDefault = 3 ∧ State.reset.numerics.trapEnable = false ∧
  State.reset.numerics.trapArmed = false ∧ State.reset.numerics.gMax = 0 ∧
  State.reset.harrows.maxAge = 8 ∧ State.reset.harrows.newtonLimit = 16 ∧ State.reset.harrows.jacobiLimit = 24 ∧
  State.reset.harrows.tol = 0x3A800000 ∧
  State.reset.tmo.txn = 50 ∧ State.reset.tmo.mem = 100 ∧ State.reset.tmo.hedge = 1000 ∧ State.reset.tmo.coll = 100 ∧
  State.reset.tmo.watchdogFloor = 10 ∧ State.reset.tmo.watchdogFactor = 16 ∧ State.reset.tmo.ringRetry = 3 ∧
  State.reset.tmo.vote = 30000 ∧ State.reset.tmo.voteDistance = 0 ∧ State.reset.tmo.heartbeat = 50 ∧
  State.reset.tmo.liveness = 10000 ∧ State.reset.tmo.stall = 10000 ∧ State.reset.tmo.ageing = 5 ∧
  (∀ r, (tget {} State.reset.host.sub r).state = 0) ∧ State.reset.host.ctx.pollInterval = 2 ∧
  State.reset.startup.ready = false ∧ State.reset.sheaf.state = 0 ∧ State.reset.run.isOn = false ∧
  State.reset.holding.setupLock = false ∧ State.reset.assigned = false ∧
  (∀ k, tget 0 State.reset.counters.values k = 0)
/-! ### Start-up, security -/

/-- 18 R375 to R379, 19 R401: the actions of start-up phases 0 to 4 in their order, on their good way: the mask ROM samples
BOOT_SEL, the verified slot is the first or else the other, the limits come from the factory record, the identity key becomes
valid, each memory tier trains. What sends start-up to recovery, and with which BOOT_ERROR: no slot's key (1), no slot accepted
(2), the factory record (3), a seed that cannot be corrected (4), a replay entry whose tag fails (5), a key that is not the
record's (6). Flash, memory and every unit but power's ALERT_N stay as they were.
Readings of the model it rests on: log entry 5. -/
def Obligations.StartUpPhases : Prop :=
  (∀ s : State,
     (∀ sel : Bool, inPhase s 0 = true → s.startup.romDone = false → (s.flash.slots.any (keyAccepted s.flash)) = true →
       exec (.bootRom sel) s = .next { s with startup := { s.startup with
         startedAt := s.clock.up, firstSlot := b2n sel, romDone := true, phase := 1 } }) ∧
     (∀ (n : Nat) (i : FirmwareImage), inPhase s 1 = true → (s.flash.replay.all fun e => e.tagOk) = true →
       n = (if slotAccepted s.flash s.startup.firstSlot then s.startup.firstSlot else 1 - s.startup.firstSlot) →
       slotAccepted s.flash n = true → s.flash.slots[n]? = some i → recordAccepted s.flash s.flash.record = true →
       ∃ t, exec .firmwareVerify s = .next t ∧
         t.startup = { s.startup with phase := 2 } ∧
         t.security.slot = n ∧ t.security.otherRefused = (n != s.startup.firstSlot) ∧ t.security.fwSvn = i.svn ∧
         t.security.bootError = s.security.bootError ∧ t.security.identityValid = s.security.identityValid ∧
         t.power = { s.power with
           capW := s.flash.record.powerLimit
           dieThrottle := s.flash.record.dieThrottle
           hbmThrottle := s.flash.record.hbmThrottle } ∧
         { t with security := s.security, startup := s.startup, power := s.power } = s) ∧
     (inPhase s 2 = true → s.flash.record.identityKey = s.flash.dieKey →
       exec (.pufRegenerate true) s = .next { s with security.identityValid := true, startup.phase := 3 }) ∧
     (inPhase s 3 = true → exec (.hbmTraining []) s = .next { s with startup.phase := 4 }) ∧
     (inPhase s 4 = true → exec (.lpddrTraining []) s = .next { s with startup.phase := 5 })) ∧
  (∀ s : State,
     (∀ sel : Bool, inPhase s 0 = true → s.startup.romDone = false → (s.flash.slots.any (keyAccepted s.flash)) = false →
       Recovers (.bootRom sel) 1 s) ∧
     (inPhase s 1 = true → (s.flash.replay.all fun e => e.tagOk) = false → Recovers .firmwareVerify 5 s) ∧
     (inPhase s 1 = true → (s.flash.replay.all fun e => e.tagOk) = true → slotAccepted s.flash s.startup.firstSlot = false →
       slotAccepted s.flash (1 - s.startup.firstSlot) = false → Recovers .firmwareVerify 2 s) ∧
     (inPhase s 1 = true → (s.flash.replay.all fun e => e.tagOk) = true →
       (slotAccepted s.flash s.startup.firstSlot || slotAccepted s.flash (1 - s.startup.firstSlot)) = true →
       recordAccepted s.flash s.flash.record = false → Recovers .firmwareVerify 3 s) ∧
     (inPhase s 2 = true → Recovers (.pufRegenerate false) 4 s) ∧
     (inPhase s 2 = true → s.flash.record.identityKey ≠ s.flash.dieKey → Recovers (.pufRegenerate true) 6 s))

/-- 15 R326, 19 R401, R403: the self-test retires the failing units that were enabled and start-up goes on; the training of
the Lamio ports makes the module ready, with the port widths its lanes give, and raises each rollback counter that lies below
the version booted (18 R379). Neither touches memory, the run or the graph. -/
def Obligations.SelfTestAndReady : Prop :=
  ∀ s : State,
    (∀ cores harrows gleaners rollers : List Nat, inPhase s 5 = true →
      ∃ t, exec (.builtInSelfTest cores harrows gleaners rollers) s = .next t ∧ t.startup.phase = 6 ∧
        t.sched.retiredCores = s.sched.retiredCores ++ cores.filter (coreEnabled s) ∧
        t.sched.retiredHarrows = s.sched.retiredHarrows ++ harrows.filter (harrowEnabled s) ∧
        t.sched.retiredGleaners = s.sched.retiredGleaners ++ gleaners ∧
        t.sched.retiredRollers = s.sched.retiredRollers ++ rollers ∧
        t.sched.tasks = s.sched.tasks ∧ { t with sched := s.sched, startup := s.startup } = s) ∧
    (∀ (masks : List W16) (farOk : List Bool), inPhase s 6 = true →
      ∃ t, exec (.lamioTraining masks farOk) s = .next t ∧ t.startup.ready = true ∧ t.startup.phase = 7 ∧
        t.startup.elapsed = some ((s.clock.up - s.startup.startedAt) / 1000000) ∧
        (∀ p, p < 8 → (port t p).width = widthOf (masks.getD p 0) ∧ (port t p).mask = masks.getD p 0) ∧
        t.flash = raiseCounter 2 s.flash.mgmtSvn (raiseCounter 1 s.flash.record.version
          (raiseCounter 0 s.security.fwSvn s.flash)) ∧
        { t with startup := s.startup, flash := s.flash, security := s.security, lamio := s.lamio, host := s.host,
                 sheaf := s.sheaf, out := s.out } = s)

/-- 18 R375, R379, R380, R381, 20 R425: the mailbox's nonce is issued fresh (its value is free, log entry 9); a request is answered
3 on a stale nonce, 1 on the present state, 1 with the transition pending on a good authorisation and 2 on a bad one, and
uses the nonce up; recovery and the factory state write a slot, and a signed record replaces the record.
Readings of the model it rests on: log entries 10 and 45. -/
def Obligations.SecurityCommands : Prop :=
  ∀ s : State,
    (hostControls s = true → exec .nonceRequest s = .next { s with
      security.nonce := Config.freshNonce s.security.nonceCount
      security.nonceIssued := true
      security.nonceAt := some s.clock.up
      security.nonceBefore := if s.security.nonceIssued then some s.security.nonce else none
      security.nonceCount := s.security.nonceCount + 1 }) ∧
    (hostControls s = true →
      let req := requestArea s
      let target := byteAt req 0
      let current := nonceNow s == some (digestBits (slice req 8 32))
      ∃ t, exec .requestGo s = .next t ∧ nonceNow t = none ∧
        (s.security.nonceAt ≠ some s.clock.up → t.security.nonceIssued = false) ∧ t.security.state = s.security.state ∧
        (current = false → t.security.result = 3 ∧ t.security.pending = s.security.pending ∧
          t.security.meas = s.security.meas) ∧
        (current = true → target = s.security.state → t.security.result = 1 ∧ t.security.pending = 3 ∧
          t.security.meas = s.security.meas) ∧
        (current = true → target ≠ s.security.state → authGood s target req = true →
          t.security.result = 1 ∧ t.security.pending = target) ∧
        (current = true → target ≠ s.security.state → authGood s target req = false →
          t.security.result = 2 ∧ t.security.pending = s.security.pending ∧ t.security.meas = s.security.meas) ∧
        { t with security := s.security } = s) ∧
    (∀ (n : Nat) (i : FirmwareImage), n < 2 → s.startup.recovery = true → s.power.aux = true → mgmtRuns s.flash = true →
      slotRefused s n = true →
      exec (.recoveryImageLoad n i) s = .next { s with flash.slots := s.flash.slots.set n i }) ∧
    (∀ i : FirmwareImage, s.power.aux = true → mgmtRuns s.flash = false →
      exec (.recoveryImageLoad 2 i) s = .next { s with flash.mgmtSvn := i.svn, flash.mgmtImage := i.body }) ∧
    (∀ (n : Nat) (i : FirmwareImage), s.security.state = 2 →
      exec (.factoryServiceWrite (.slot n i)) s = .next { s with flash.slots := s.flash.slots.set n i }) ∧
    (∀ r : FactoryRecord, s.security.state = 2 → r.pubKey = s.flash.rootKey →
      verifies s.flash r.pubKey (recordMessage r) r.sig = true →
      exec (.factoryServiceWrite (.record r)) s = .next { s with flash.record := r }) ∧
    (∀ x : ServiceItem, s.security.state ≠ 2 → exec (.factoryServiceWrite x) s = .next s)

/-! ### Supplies, pins, resets -/

/-- 19 R388, R390 to R392, R400: the conversion stages start exactly when PWR_EN is asserted, the input is at least 40 V and
AUX_3V3 is present, and neither a thermal trip nor POWER_OFF holds them; MASTER_SEL, AUX_3V3 removal and the release of
THERM_TRIP_N change their own pins alone. A running module shuts down when PWR_EN is deasserted, when its input stays below
38 V beyond the hold-up, and when it stays above 63 V for longer than 100 us; inside those limits it runs on. -/
def Obligations.SuppliesAndPins : Prop :=
  (∀ s : State,
     (∃ t, exec .pwrEnAssert s = .next t ∧ t.power.pwrEn = true ∧ t.power.pwrEnLowAt = none ∧
       t.power.pwrGood = (s.power.pwrGood ||
         (decide (4000 ≤ s.power.volts) && s.power.aux && !s.power.tripLow && !s.power.offByMgmt)) ∧
       { t with power := s.power, startup.startedAt := s.startup.startedAt } = s) ∧
     (∀ volts : Nat, ∃ t, exec (.inputPowerApplied volts) s = .next t ∧ t.power.volts = volts ∧
       t.power.pwrGood = (s.power.pwrGood ||
         (s.power.pwrEn && decide (4000 ≤ volts) && s.power.aux && !s.power.tripLow && !s.power.offByMgmt)) ∧
       { t with power := s.power, startup.startedAt := s.startup.startedAt } = s) ∧
     (∃ t, exec .aux3v3Applied s = .next t ∧ t.power.aux = true ∧
       t.power.pwrGood = (s.power.pwrGood ||
         (s.power.pwrEn && decide (4000 ≤ s.power.volts) && !s.power.tripLow && !s.power.offByMgmt)) ∧
       { t with power := s.power, startup.startedAt := s.startup.startedAt } = s) ∧
     (exec .aux3v3Removed s = .next { s with power.aux := false, power.tripSensor := none, power.alert := false }) ∧
     (∀ level : Bool, exec (.masterSel level) s = .next { s with power.masterSel := level }) ∧
     (s.power.pwrGood = true →
       exec .hostLinkUp s = .next { s with power.linkUp := true, power.perst := false, counters.suspended := false }) ∧
     (∀ since : Nat, s.power.pwrEn = false → s.power.pwrEnLowAt = some since → since + ms 100 ≤ s.clock.up →
       exec .thermTripNRelease s = .next { s with power.tripLow := false }) ∧
     (s.power.volts = 0 → exec .thermTripNRelease s = .next { s with power.tripLow := false })) ∧
  (∀ s : State, s.power.pwrGood = true →
     ShutsDown .pwrEnDeassert s ∧
     (∀ volts : Nat, volts < 3800 → ShutsDown (.inputUndervoltage volts) s) ∧
     (∀ volts : Nat, 6300 < volts → ShutsDown (.inputOvervoltage volts) s) ∧
     (∀ volts : Nat, 3800 ≤ volts → ∃ t, exec (.inputUndervoltage volts) s = .next t ∧ t.power.pwrGood = true ∧
       t.power.volts = volts ∧ t.power.inputLow = decide (volts < 4000) ∧ { t with power := s.power } = s) ∧
     (∀ volts : Nat, 3800 ≤ volts → volts ≤ 6300 → ∃ t, exec (.inputOvervoltage volts) s = .next t ∧
       t.power.pwrGood = true ∧ t.power.volts = volts ∧ { t with power := s.power } = s))

/-- 13 R290, 18 R381, 19 R401, R404, 20 R413, R415: MOD_RESET_N low for at least 1 us, and MODULE_RESET on the management port,
reset the module. A function-level reset, PERST_N and a link that goes down disable every ring and forget the host interface's
state, and leave the run, the graph, the memory and the power. HOLDING_RESET on the holding master sends the reset to every
module and loses the run, the graphs, the groups and the reserved area, and is ignored on a module that is not the master; the
same level on a member follows the master's write. HOLDING_RESET_DONE raises MODULE_READY.
Readings of the model it rests on: log entry 15. -/
def Obligations.ResetLevels : Prop :=
  (∀ s : State, s.power.pwrGood = true →
     (∀ n : Nat, 1000 ≤ n → ∃ t, exec (.modResetN n) s = .next t ∧ IsModuleReset s t ∧ t.out = s.out) ∧
     (∀ n : Nat, n < 1000 → exec (.modResetN n) s = .next s) ∧
     (mgmtTakes s = true → ∃ t, exec (.moduleReset []) s = .next t ∧ IsModuleReset s t ∧
       t.out = { s.out with mgmt := s.out.mgmt ++ [(0xA4, [0])] })) ∧
  (∀ s : State,
     (∃ t, exec .functionLevelReset s = .next t ∧ HostForgotten s t ∧ t.power = s.power) ∧
     (∃ t, exec .perstN s = .next t ∧ HostForgotten s t ∧ t.power = { s.power with perst := true, linkUp := false }) ∧
     (∃ t, exec .hostLinkDown s = .next t ∧ HostForgotten s t ∧ t.power = { s.power with linkUp := false })) ∧
  (∀ s : State,
     (s.holding.isMaster = true → ∃ t, exec .holdingReset s = .next t ∧ IsHoldingReset s t ∧
       t.out.hedge = s.out.hedge ++ [(everyone, .setupWrite 0x20010 8 2)]) ∧
     (s.holding.isMaster = false → exec .holdingReset s = .next s) ∧
     (s.assigned = true → s.holding.isMaster = false →
       ∃ t, exec (.setupWrite 0x20010 8 2) s = .next t ∧ IsHoldingReset s t ∧ t.out = s.out) ∧
     (s.holding.resetting = true → ∃ t, exec .holdingResetDone s = .next t ∧ t.holding = { s.holding with resetting := false } ∧
       Announces s t evModuleReady (pack [(16, s.startup.elapsed.getD 0), (8, s.startup.portsUp.toNat), (8, 0),
         (13, enabledCores s), (3, 0), (9, enabledHarrows s)]) ∧
       { t with holding := s.holding, host := s.host, sheaf := s.sheaf, out := s.out } = s))

/-- 19 R393 to R400: the power-control register takes each field in range, the clock-step causes move by one, and an episode ends.
A power sample enters the averages; the sensor array is read whole; the thermal step rises by one while a reading is at or
above its throttle limit and falls by one while every sensor is at least 3 K below. A reading at its trip temperature drives
THERM_TRIP_N low and shuts the module down.
Readings of the model it rests on: log entry 18. -/
def Obligations.PowerAndThermalSteps : Prop :=
  (∀ s : State,
     (∀ v : W64, hostControls s = true → exec (.powerControl v) s = .next { s with power := { s.power with
       capW := if 3000 ≤ bits v.toNat 0 13 ∧ bits v.toNat 0 13 ≤ s.flash.record.powerLimit then bits v.toNat 0 13
         else s.power.capW
       clockLimit := if bits v.toNat 16 6 ≤ 48 then bits v.toNat 16 6 else s.power.clockLimit
       dieThrottle := if bits v.toNat 32 8 ≤ s.flash.record.dieThrottle then bits v.toNat 32 8 else s.power.dieThrottle
       hbmThrottle := if bits v.toNat 40 8 ≤ s.flash.record.hbmThrottle then bits v.toNat 40 8
         else s.power.hbmThrottle
       capWrittenAt := if (if 3000 ≤ bits v.toNat 0 13 ∧ bits v.toNat 0 13 ≤ s.flash.record.powerLimit then bits v.toNat 0 13
         else s.power.capW) = bits v.toNat 0 13 then some s.clock.up else s.power.capWrittenAt } }) ∧
     (s.power.pwrGood = true → s.power.capW * s.power.windowCount < s.power.windowSum →
       ∃ t, exec .capStepRaise s = .next t ∧
         t.power.capStep = min (s.power.capStep + 1) (max 48 s.power.capStep) ∧
         (48 ≤ s.power.capStep → t.power.capUnmet = true) ∧ t.power.thermalStep = s.power.thermalStep ∧
         { t with power := s.power, host := s.host, sheaf := s.sheaf, out := s.out } = s) ∧
     (s.power.pwrGood = true → 0 < s.power.capStep →
       100 * s.power.samples.foldl (· + ·) 0 < 98 * s.power.capW * s.power.samples.length →
       ∃ t, exec .capStepLower s = .next t ∧ t.power.capStep = s.power.capStep - 1 ∧ t.power.capUnmet = false ∧
         t.power.thermalStep = s.power.thermalStep ∧ { t with power := s.power } = s) ∧
     (clockStep s.power = 0 → s.power.capDecidedAt + 1000000000 ≤ s.clock.up →
       exec (.episodeEnd false) s = .next { s with power.capEpisode := false }) ∧
     (clockStep s.power = 0 → s.power.thermDecidedAt + 1000000000 ≤ s.clock.up →
       exec (.episodeEnd true) s = .next { s with power.thermEpisode := false })) ∧
  (∀ s : State, s.power.pwrGood = true →
     (∀ w v a : Nat, ∃ t, exec (.powerSample w v a) s = .next t ∧
       t.power.samples = (w :: s.power.samples).take 100 ∧
       t.power.watts = t.power.samples.foldl (· + ·) 0 / t.power.samples.length ∧
       t.power.volts = v ∧ t.power.amps = a ∧ t.power.windowCount = s.power.windowCount + 1 ∧
       t.power.windowSum = s.power.windowSum + w ∧ t.power.inputLow = (decide (3800 ≤ v) && decide (v < 4000)) ∧
       { t with power := s.power } = s) ∧
     (∀ r : List W16, r.length = 128 → trippedSensor r = none →
       ∃ t, exec (.sensorRead r) s = .next t ∧ t.power.sensors = r ∧ t.power.pwrGood = true ∧
         { t with power := s.power, lamio := s.lamio, stones := s.stones, counters.values := s.counters.values
                  startup.portsUp := s.startup.portsUp, host := s.host, sheaf := s.sheaf, out := s.out } = s) ∧
     (∀ (r : List W16) (i : Nat), r.length = 128 → trippedSensor r = some i →
       ∃ t, exec (.sensorRead r) s = .next t ∧ t.power.tripLow = true ∧ t.power.pwrGood = false ∧
         t.power.alert = true ∧ t.power.tripSensor = (if s.power.aux then some i else none) ∧ t.flash = s.flash) ∧
     (∀ i : Nat, i < 108 → atLeast (s.power.sensors.getD i 0x8000) (throttleLimit s.power i) = true →
       s.power.thermalStep < 48 →
       ∃ t, exec .thermalStepRaise s = .next t ∧ t.power.thermalStep = s.power.thermalStep + 1 ∧
         t.power.capStep = s.power.capStep ∧
         { t with power := s.power, host := s.host, sheaf := s.sheaf, out := s.out } = s) ∧
     ((∀ i : Nat, i < 108 → clearOf (s.power.sensors.getD i 0x8000) (throttleLimit s.power i) 3 = true) →
       0 < s.power.thermalStep →
       ∃ t, exec .thermalStepLower s = .next t ∧ t.power.thermalStep = s.power.thermalStep - 1 ∧
         t.power.capStep = s.power.capStep ∧ { t with power := s.power } = s))

/-! ### Registers and the BAR4 window -/

/-- 20 R410 to R412, 13 R266, R268: an aligned 8-byte write by the host that controls the module's setup puts the value into
the field of its word, a field out of range kept; SPEC_DEPTH is kept while SETUP_LOCK is set; the memory word is staged until
the next commit (11 R226); the RWL fields are kept as they stood before the first write of the cycle (R412; log entry 81). A
write that is not 4 or 8 aligned bytes does nothing, and a member's own host writes the
data-channel fields alone. -/
def Obligations.RegisterWrites : Prop :=
  ∀ (s : State) (v : W64),
    (hostControls s = true →
      let k := keepFields s
      { k with holding.before := s.holding.before } = s ∧
      exec (.registerWrite 0x10000 8 v) s = .next { k with host.ctx.doorbellBase := v } ∧
      exec (.registerWrite 0x10020 8 v) s = .next { k with host.ctx.windowBase := v } ∧
      exec (.registerWrite 0x80010 8 v) s = .next { k with counters.select := BitVec.ofNat 16 v.toNat } ∧
      (s.holding.setupLock = true → exec (.registerWrite 0x20030 8 v) s = .next k) ∧
      (s.holding.setupLock = false →
        exec (.registerWrite 0x20030 8 v) s = .next { k with holding.voteReport := v }) ∧
      (∃ t, exec (.registerWrite 0x30000 8 v) s = .next t ∧ t.mem.cfg = s.mem.cfg ∧
        t.mem.staged = some (writeMemWord v.toNat (s.mem.staged.getD s.mem.cfg)) ∧
        { t with mem.staged := s.mem.staged, holding.before := s.holding.before, sheaf := s.sheaf, out := s.out } = s) ∧
      (∃ t, exec (.registerWrite 0x40000 8 v) s = .next t ∧ t.numerics = { s.numerics with
          stintDefault := if bits v.toNat 0 4 ≤ 6 then BitVec.ofNat 4 (bits v.toNat 0 4) else s.numerics.stintDefault
          trapEnable := bitOf v.toNat 4
          rollerCheck := BitVec.ofNat 4 (bits v.toNat 8 4) } ∧
        { t with numerics := s.numerics, holding.before := s.holding.before, sheaf := s.sheaf, out := s.out } = s)) ∧
    (∀ offset len : Nat, accessOk offset len = false → exec (.registerWrite offset len v) s = .next s) ∧
    (hostControls s = false →
      exec (.registerWrite 0x10030 8 v) s = .next { s with
        host.ctx.dataPasid := BitVec.ofNat 20 (bits v.toNat 40 20), host.ctx.dataPasidEnable := bitOf v.toNat 60 } ∧
      (∀ offset len : Nat, offset / 8 * 8 ≠ 0x10030 → exec (.registerWrite offset len v) s = .next s))

/-- 20 R416: TIME_OFFSET and TIME_RATE act only on the run lead master, whose timestamp the other modules take; anywhere else a
write to them is ignored. An offset written while an earlier one still slews is added to its remainder. -/
def Obligations.TimeFieldsActOnTheLead : Prop :=
  ∀ s : State,
    (∀ v : W64, s.isLead = true → exec (.timeOffset v) s = .next { s with clock.offset := s.clock.offset + v.toInt }) ∧
    (∀ v : W32, s.isLead = true → v.toInt.natAbs * 1000000 ≤ 200 * 2 ^ 32 →
      exec (.timeRate v) s = .next { s with holding.timeRate := v }) ∧
    (∀ v : W32, s.isLead = true → 200 * 2 ^ 32 < v.toInt.natAbs * 1000000 → exec (.timeRate v) s = .next s) ∧
    (∀ v : W64, s.isLead = false → exec (.timeOffset v) s = .next s) ∧
    (∀ v : W32, s.isLead = false → exec (.timeRate v) s = .next s) ∧
    (∀ lead : W64, s.isLead = false → s.assigned = true → ∃ t, exec (.timestampSync lead) s = .next t ∧
      (t.clock.now : Int) + t.clock.offset = lead.toNat)

/-- 04 R85, 20 R411, R412, R415: the fields whose write acts: TRAP_ARMED is set, and the master's write goes to every member
unless it was set before;
SETUP_LOCK and a staged word forwarded by the master act on a member, and the lock wins over an RWL write of the same cycle.
Readings of the model it rests on: log entries 15 and 81. -/
def Obligations.ActingFields : Prop :=
  ∀ s : State,
    (hostControls s = true → s.holding.isMaster = false →
      exec .trapArmed s = .next { s with numerics.trapArmed := true, numerics.armedAt := some s.clock.up }) ∧
    (s.holding.isMaster = true → ∃ t, exec .trapArmed s = .next t ∧
      t.numerics = { s.numerics with trapArmed := true, armedAt := some s.clock.up } ∧
      t.out.hedge = s.out.hedge ++ (if s.numerics.trapArmed then []
        else [(everyone, .setupWrite 0x40000 8 (BitVec.ofNat 64 (numericsWord t.numerics)))]) ∧
      { t with numerics := s.numerics, sheaf := s.sheaf, out := s.out } = s) ∧
    (s.assigned = true → s.holding.isMaster = false →
      ((∀ b, s.holding.before = some b → b.at_ ≠ s.clock.up) →
        exec (.setupWrite 0x18 8 1) s =
          .next { s with holding.setupLock := true, mem.reservedNow := s.mem.reservedSize }) ∧
      (∀ b, s.holding.before = some b → b.at_ = s.clock.up → ∃ t, exec (.setupWrite 0x18 8 1) s = .next t ∧
        t.holding.setupLock = true ∧ t.holding.specDepth = b.depth ∧ t.holding.voteReport = b.report ∧
        t.mem.reservedSize = b.reserved ∧ t.mem.reservedNow = b.reserved ∧ t.numerics.gMax = b.gMax ∧
        { t with holding := s.holding, mem.reservedSize := s.mem.reservedSize, mem.reservedNow := s.mem.reservedNow
                 numerics.gMax := s.numerics.gMax, harrows := s.harrows } = s) ∧
      ∀ v : W64, exec (.setupWrite 0x30000 8 v) s = .next { keepFields s with
        mem.staged := some (writeMemWord v.toNat (s.mem.staged.getD s.mem.cfg)) })

/-- 11 R224, 13 R267: a BAR4 load of this module's memory answers the current version and changes no byte; a load of another
module's memory that a route leads to sends one read for each line; one of no module's memory answers 0xFF and is counted. A BAR4 store is taken line
by line: on every line of this module's memory that a plain write may change, plain readers find the data; on every other line,
and outside the range, nobody finds a change; a store to another module's memory that a route leads to sends one request for each line and changes
no memory here; one to no module's memory is counted. -/
def Obligations.Bar4Accesses : Prop :=
  (∀ (s : State) (offset len o : Nat),
     (windowTarget s offset len = some (s.holding.moduleId, o) → ∃ t, exec (.bar4Load offset len) s = .next t ∧
       t.out = { s.out with loads := s.out.loads ++ [(localBytes s .plain o len, !(poisonedIn s o len).isEmpty)] } ∧
       (∀ r a, readByte t.mem t.run.head r a = readByte s.mem s.run.head r a) ∧ t.mem.base = s.mem.base ∧
       t.mem.layers = s.mem.layers ∧ t.mem.poison = s.mem.poison ∧
       { t with mem := s.mem, counters.values := s.counters.values, out := s.out } = s) ∧
     (∀ m : ModId, m ≠ s.holding.moduleId → windowTarget s offset len = some (m, o) → Reachable s m →
       ∃ t, exec (.bar4Load offset len) s = .next t ∧ t.mem = s.mem ∧ t.out.loads = s.out.loads ∧
         t.lamio.txns.length = s.lamio.txns.length + (lineParts o len).length) ∧
     (windowTarget s offset len = none → ∃ t, exec (.bar4Load offset len) s = .next t ∧
       t.out = { s.out with loads := s.out.loads ++ [(List.replicate len 0xFF, false)] } ∧
       tget 0 t.counters.values (4 * 0x2E4) = (tget 0 s.counters.values (4 * 0x2E4) + 1) % 2 ^ 64 ∧
       { t with counters.values := s.counters.values, out := s.out } = s)) ∧
  (∀ (s : State) (offset o : Nat) (data : Bytes),
     (windowTarget s offset data.length = some (s.holding.moduleId, o) →
       ∃ t, exec (.bar4Store offset data) s = .next t ∧
         (∀ x ∈ lineParts o data.length, ∀ i, x.1 ≤ i → i < x.1 + x.2 →
           if plainWriteAllowed s (o + x.1) x.2 then readByte t.mem t.run.head .plain (o + i) = data.getD i 0
           else ∀ r, readByte t.mem t.run.head r (o + i) = readByte s.mem s.run.head r (o + i)) ∧
         (∀ r a, a < o ∨ o + data.length ≤ a → readByte t.mem t.run.head r a = readByte s.mem s.run.head r a) ∧
         { t with mem := s.mem, counters.values := s.counters.values } = s) ∧
     (∀ m : ModId, m ≠ s.holding.moduleId → windowTarget s offset data.length = some (m, o) → Reachable s m →
       ∃ t, exec (.bar4Store offset data) s = .next t ∧ t.mem = s.mem ∧
         t.lamio.txns.length = s.lamio.txns.length + (lineParts o data.length).length) ∧
     (windowTarget s offset data.length = none → ∃ t, exec (.bar4Store offset data) s = .next t ∧
       tget 0 t.counters.values (4 * 0x2E4) = (tget 0 s.counters.values (4 * 0x2E4) + 1) % 2 ^ 64 ∧
       { t with counters.values := s.counters.values } = s))

/-! ### Lamio: requests, responses, links -/

/-- 14 R303, R304, R305, R308, 11 R224, 09 R187: a WRITE in its turn without a context word puts its data where it says, for every
plain reader, where a plain write is allowed; one with a context word puts it into the newest version of its task's step; every other
byte, for every reader, stays; each is answered by WRITE_ACK. BULK_DATA does the same without an answer, and the transfer notes it (15 R337). A write that is not
allowed changes no byte and is answered so. READ_REQ is answered with the version its reader sees, and BULK_REQ sends its
source's bytes to another module, with the notice of their end, and answers with their number. A read that must wait for the local U stream is kept.
Readings of the model it rests on: log entry 20. -/
def Obligations.RemoteWritesAndReads : Prop :=
  (∀ (s : State) (p : Packet), p.dest = s.holding.moduleId → s.assigned = true → p.offset.toNat + p.data.length ≤ s.mem.capacity →
     (InTurn s ptWrite p → p.context = none → plainWriteAllowed s p.offset.toNat p.data.length = true →
       ∃ u, exec (.write p) s = .next (respond ptWriteAck p psOk false [] u) ∧ PlainBytes s p u) ∧
     (plainWriteAllowed s p.offset.toNat p.data.length = true →
       ∃ u, exec (.bulkData p) s = .next (noteBulk p u) ∧ PlainBytes s p u) ∧
     (∀ (task : W32) (low k : Nat), InTurn s ptWrite p → p.context = some (task, low, k) →
       touchesReserved s p.offset.toNat p.data.length = false →
       (∀ l ∈ s.mem.layers, layerKey l.tag ≤ 2 * fullStep s low + 1) →
       ∃ u, exec (.write p) s = .next (respond ptWriteAck p psOk false [] u) ∧ u.mem.base = s.mem.base ∧
         (∀ i, i < p.data.length →
           readByte u.mem u.run.head (.task (fullStep s low) true) (p.offset.toNat + i) = p.data.getD i 0) ∧
         (fullStep s low ≤ stepOf s.run.head → ∀ i, i < p.data.length →
           readByte u.mem u.run.head (.task (fullStep s low) false) (p.offset.toNat + i) = p.data.getD i 0) ∧
         (∀ r a, a < p.offset.toNat ∨ p.offset.toNat + p.data.length ≤ a →
           readByte u.mem u.run.head r a = readByte s.mem s.run.head r a) ∧
         { u with mem := s.mem, counters.values := s.counters.values, lamio.recvOrder := s.lamio.recvOrder } = s) ∧
     (InTurn s ptWrite p → p.context = none → plainWriteAllowed s p.offset.toNat p.data.length = false →
       ∃ u, exec (.write p) s = .next (respond ptWriteAck p psRefused false [] u) ∧
         { u with counters.values := s.counters.values, lamio.recvOrder := s.lamio.recvOrder } = s)) ∧
  (∀ (s : State) (p : Packet), p.dest = s.holding.moduleId → s.assigned = true →
     (InTurn s ptReadReq p → p.offset.toNat + 8 * p.len8 ≤ s.mem.capacity → readMustWait s p = false →
       ∃ u, exec (.readReq p) s = .next (respond ptReadResp p psOk (!(poisonedIn s p.offset.toNat (8 * p.len8)).isEmpty)
           (localBytes s (packetReader s p) p.offset.toNat (8 * p.len8)) u) ∧
         (∀ r a, readByte u.mem u.run.head r a = readByte s.mem s.run.head r a) ∧ u.mem.base = s.mem.base ∧
         { u with mem := s.mem, counters.values := s.counters.values, lamio.recvOrder := s.lamio.recvOrder } = s) ∧
     (InTurn s ptReadReq p → p.offset.toNat + 8 * p.len8 ≤ s.mem.capacity → readMustWait s p = true →
       ∃ t, exec (.readReq p) s = .next t ∧ t.lamio.readsHeld = s.lamio.readsHeld ++ [p] ∧
         { t with lamio.readsHeld := s.lamio.readsHeld, lamio.recvOrder := s.lamio.recvOrder } = s) ∧
     (∀ (o dst : Nat) (d : ModId), InTurn s ptBulkReq p → lamioTarget s (field p.data 0 8) = some (s.holding.moduleId, o) →
       lamioTarget s (field p.data 8 8) = some (d, dst) → d ≠ s.holding.moduleId →
       o + field p.data 16 8 ≤ s.mem.capacity → field p.data 16 8 ≤ 2 ^ 32 → readMustWait s p = false →
       ∃ u, exec (.bulkReq p) s = .next (respond ptBulkDone p psOk false (leBytes 8 (field p.data 16 8))
           (sendTransfer ⟨d, p.tag, dst, some o, localBytes s (packetReader s p) o (field p.data 16 8)⟩ u)) ∧
         (∀ r a, readByte u.mem u.run.head r a = readByte s.mem s.run.head r a) ∧ u.mem.base = s.mem.base ∧
         { u with mem := s.mem, counters.values := s.counters.values, lamio.recvOrder := s.lamio.recvOrder } = s))

/-- 14 R305, R307, R309: the six atomics replace one naturally aligned word by the word the row gives, answer the old word, keep
it against a duplicate, and change no other byte. -/
def Obligations.Atomics : Prop :=
  ∀ (s : State) (p : Packet) (row : Packet → Instr) (t w : Nat) (f : Nat → Nat → Nat → Nat),
    (row, t, w, f) ∈ atomicRows → p.dest = s.holding.moduleId → s.assigned = true → InTurn s t p →
    p.offset.toNat % w = 0 → p.offset.toNat + w ≤ s.mem.capacity → plainWriteAllowed s p.offset.toNat w = true →
    let old := leNat (localBytes s .plain p.offset.toNat w)
    ∃ u, exec (row p) s = .next (respond ptAtomicResp p psOk (!(poisonedIn s p.offset.toNat w).isEmpty) (leBytes 8 old) u) ∧
      leNat (readBytes u .plain p.offset.toNat w) = f old (field p.data 0 8) (field p.data 8 8) % 2 ^ (8 * w) ∧
      (∀ r a, a < p.offset.toNat ∨ p.offset.toNat + w ≤ a →
        readByte u.mem u.run.head r a = readByte s.mem s.run.head r a) ∧
      (p.source, p.orderSeq, BitVec.ofNat 64 old) ∈ u.lamio.atomics ∧
      { u with mem := s.mem, counters.values := s.counters.values, lamio.recvOrder := s.lamio.recvOrder
               lamio.atomics := s.lamio.atomics } = s

/-- 14 R295, R296, R303, R309, 15 R324: a response takes the next sequence toward its requester and leaves by the port toward it,
or waits at the port while that retrains or has no room. READ_RESP,
WRITE_ACK, ATOMIC_RESP and BULK_DONE in their turn complete the one request they answer: the transaction is over and its answer
stands; a response to no request is discarded and counted. -/
def Obligations.Responses : Prop :=
  (∀ (s : State) (ty st : Nat) (req : Packet) (poison : Bool) (data : Bytes),
     { respond ty req st poison data s with
       lamio := s.lamio, stones := s.stones, counters.values := s.counters.values, out := s.out } = s ∧
     (respond ty req st poison data s).lamio.txns = s.lamio.txns ∧
     (∀ (p : Nat) (detour : Bool), nextHop s req.source false = some (p, detour) → s.stones.live = [] →
       s.stones.holding = [] →
       ∃ q, (if portBlocked s p then
             (port (respond ty req st poison data s) p).data.blocked = (port s p).data.blocked ++ [(ty, q, none)] ∧
               (respond ty req st poison data s).out.packets = s.out.packets
           else (respond ty req st poison data s).out.packets = s.out.packets ++ [(p, ty, q)]) ∧
         q.source = s.holding.moduleId ∧ q.dest = req.source ∧ q.tag = req.tag ∧ q.status = st ∧ q.data = data ∧
         q.poison = poison ∧ q.orderSeq = tget 0 s.lamio.sendOrder (orderKey req.source 1))) ∧
  (∀ (s : State) (p : Packet) (row : Packet → Instr) (ty : Nat),
     (row, ty) ∈ [(Instr.readResp, ptReadResp), (Instr.writeAck, ptWriteAck), (Instr.atomicResp, ptAtomicResp),
       (Instr.bulkDone, ptBulkDone)] →
     p.dest = s.holding.moduleId → s.assigned = true → InTurn s ty p →
     (∀ x, s.lamio.txns.find? (fun t => t.dest == p.source && t.tag == p.tag) = some x → x.task = none → s.run.jobs = [] →
       (∀ y ∈ s.lamio.txns, y.queued = false) →
       ∃ t, exec (row p) s = .next t ∧
         t.lamio.txns = s.lamio.txns.filter (fun t => !(t.dest == p.source && t.tag == p.tag)) ∧
         t.lamio.answers = s.lamio.answers ++ [(p.source, p.tag, p.status, p.data)] ∧
         t.out.loads = (if x.bar4 && x.type == ptReadReq then
           s.out.loads ++ [if p.status = psOk then (p.data, p.poison) else (List.replicate (8 * x.p.len8) 0xFF, false)]
           else s.out.loads) ∧
         { t with lamio := s.lamio, counters.values := s.counters.values, sheaf := s.sheaf, out := s.out } = s) ∧
     (s.lamio.txns.find? (fun t => t.dest == p.source && t.tag == p.tag) = none →
       ∃ t, exec (row p) s = .next t ∧
         { t with lamio.recvOrder := s.lamio.recvOrder, counters.values := s.counters.values } = s))

/-- 14 R294 to R297, R309, 15 R324, R337, 19 R400: a flit received: a bad CRC is answered by a NAK and counted; a good flit of the
data class in sequence, its body holding no packet, is acknowledged and moves the sequence on; an acknowledgement clears the
retry buffer up to it. The timers of a link: the retry buffer is sent again and the eighth retry starts a retraining; a
retraining and a down port's attempt set the width the lanes give; a transaction that has waited is sent once more, and then
completes with TIMEOUT; a packet a stone holds leaves after 2 us.
Readings of the model it rests on: log entries 12 and 19. -/
def Obligations.FlitsAndLinkTimers : Prop :=
  (∀ (s : State) (p : Nat) (hedge : Bool) (flit : Bytes), (port s p).width ≠ 0 →
     let h := field flit 0 8
     let c := laneClass hedge (port s p)
     (crc64 (flit.take 248) ≠ BitVec.ofNat 64 (field flit 248 8) →
       ∃ t, exec (.flitReceive p hedge flit) s = .next t ∧
         t.out = { s.out with acks := s.out.acks ++ [(p, hedge, (c.recvSeq + 4095) % 4096, true)] } ∧
         { t with counters.values := s.counters.values, out := s.out } = s) ∧
     (crc64 (flit.take 248) = BitVec.ofNat 64 (field flit 248 8) → bits h 28 2 = 0 → bitOf h 24 = false →
       bits h 0 12 = c.recvSeq → byteAt flit 8 = 0 → (hedge = false → (port s p).data.blocked = []) →
       ∃ t, exec (.flitReceive p hedge flit) s = .next t ∧
         (laneClass hedge (port t p)).recvSeq = (c.recvSeq + 1) % 4096 ∧
         (laneClass hedge (port t p)).buffer = c.buffer ∧
         t.out = { s.out with acks := s.out.acks ++ [(p, hedge, bits h 0 12, false)] } ∧
         { t with lamio.ports := s.lamio.ports, out := s.out } = s) ∧
     (crc64 (flit.take 248) = BitVec.ofNat 64 (field flit 248 8) → bits h 28 2 = 1 → bitOf h 24 = true → bitOf h 25 = false →
       (hedge = false → (port s p).data.blocked = []) →
       ∃ t, exec (.flitReceive p hedge flit) s = .next t ∧
         (laneClass hedge (port t p)).buffer =
           c.buffer.filter (fun f => !decide ((bits h 12 12 + 4096 - f.1) % 4096 < 2048)) ∧
         (laneClass hedge (port t p)).recvSeq = c.recvSeq ∧ t.out = s.out ∧
         { t with lamio.ports := s.lamio.ports } = s)) ∧
  (∀ (s : State) (p : Nat),
     (∀ hedge : Bool, let c := laneClass hedge (port s p)
       (port s p).width ≠ 0 → (port s p).retraining = false → c.buffer ≠ [] → c.sentAt + 2000 ≤ s.clock.up →
       ∃ t, exec (.linkRetry p hedge) s = .next t ∧
         t.out = { s.out with flits := s.out.flits ++ c.buffer.map fun f => (p, hedge, f.2) } ∧
         (laneClass hedge (port t p)).retries = c.retries + 1 ∧ (laneClass hedge (port t p)).buffer = c.buffer ∧
         (port t p).retraining = decide (8 ≤ c.retries + 1) ∧
         { t with lamio.ports := s.lamio.ports, counters.values := s.counters.values, out := s.out } = s) ∧
     (∀ (m : W16) (far : Bool), (port s p).retraining = true → widthOf m ≠ 0 →
       ∃ t, exec (.linkRetrain p m far) s = .next t ∧ (port t p).width = widthOf m ∧ (port t p).mask = m ∧
         (port t p).retraining = false ∧
         { t with lamio.ports := s.lamio.ports, startup.portsUp := s.startup.portsUp, counters.values := s.counters.values
                  host := s.host, sheaf := s.sheaf, out := s.out } = s) ∧
     (∀ (m : W16) (far : Bool), (port s p).retraining = true → widthOf m = 0 →
       ∃ t, exec (.linkRetrain p m far) s = .next t ∧ (port t p).width = 0 ∧ t.mem = s.mem ∧ t.run = s.run ∧
         t.sched = s.sched) ∧
     (∀ (m : W16) (far : Bool), (port s p).width = 0 → (port s p).tripped = false → s.startup.ready = true →
       (port s p).triedAt + ms 100 ≤ s.clock.up →
       ∃ t, exec (.linkRetrainAttempt p m far) s = .next t ∧ (port t p).width = widthOf m ∧ (port t p).mask = m ∧
         { t with lamio.ports := s.lamio.ports, startup.portsUp := s.startup.portsUp, counters.values := s.counters.values
                  host := s.host, sheaf := s.sheaf, out := s.out } = s) ∧
     (∀ (dest : ModId) (tag : W16) (x : Txn),
       s.lamio.txns.find? (fun t => t.dest == dest && t.tag == tag) = some x → x.sentAt + us s.tmo.txn.toNat ≤ s.clock.up →
       x.task = none → s.run.jobs = [] → (∀ y ∈ s.lamio.txns, y.queued = false) →
       ∃ t, exec (.txnTimeout dest tag) s = .next t ∧ t.mem = s.mem ∧ t.run = s.run ∧ t.sched = s.sched ∧
         (x.resent = false → t.lamio.answers = s.lamio.answers ∧
           t.lamio.txns.find? (fun t => t.dest == dest && t.tag == tag) =
             some { x with resent := true, sentAt := s.clock.up }) ∧
         (x.resent = true → t.lamio.answers = s.lamio.answers ++ [(dest, tag, 15, [])] ∧
           t.lamio.txns = s.lamio.txns.filter (fun t => !(t.dest == dest && t.tag == tag)))) ∧
     (∀ vc : Nat, (port s p).retraining = false →
       (port s p).data.buffer.length + s.stones.holding.length ≤ retryFlits →
       ∃ t, exec (.reorderHoldExpiry p vc) s = .next t ∧
       t.stones.holding = s.stones.holding.filter (fun x =>
         !(x.1 == p && x.2.1 == vc && decide (x.2.2.2.2.2 + 2000 ≤ s.clock.up))) ∧
       t.out.packets = s.out.packets ++ (s.stones.holding.filter (fun x =>
         x.1 == p && x.2.1 == vc && decide (x.2.2.2.2.2 + 2000 ≤ s.clock.up))).map
           (fun x => (p, x.2.2.2.1, x.2.2.2.2.1)) ∧
       { t with stones := s.stones, lamio.ports := s.lamio.ports, counters.values := s.counters.values, out := s.out } = s))

/-! ### The management port -/

/-- 19 R392, R394, R404, R406, R407, 18 R381: every message the management controller takes is answered with its code plus 0x80 and
a status: a body of the wrong length is MALFORMED, a message that needs main power is turned away while it is off; POWER_ON releases the
hold of POWER_OFF, and main power starts where the supplies allow it. With main
power on: the cap is set in range, but not over a host write of the same cycle (R408), a stop order goes to the run lead master, a holding reset acts on the holding master, main
power goes off, a nonce is issued, a security request is submitted as through the mailbox.
Readings of the model it rests on: log entries 9, 15, 17, 46 and 81. -/
def Obligations.ManagementMessages : Prop :=
  (∀ (s : State), mgmtTakes s = true →
     (∀ (row : Bytes → Instr) (code n : Nat) (power : Bool), (row, code, n, power) ∈ mgmtRows → ∀ body : Bytes,
       (body.length ≠ n → exec (row body) s = .next { s with out.mgmt := s.out.mgmt ++ [(code + 0x80, [1])] }) ∧
       (body.length = n → power = true → s.power.pwrGood = false →
         exec (row body) s = .next { s with out.mgmt := s.out.mgmt ++ [(code + 0x80, [4])] })) ∧
     (∃ t, exec (.getStatus []) s = .next t ∧
       t.out = { s.out with mgmt := s.out.mgmt ++ [(0xA0, (0 : Byte) :: statusBody s)] } ∧
       t.power = { s.power with alert := s.power.alert && alertCause s } ∧
       { t with out := s.out, power := s.power } = s) ∧
     (∃ t, exec (.powerOn []) s = .next t ∧ t.power.offByMgmt = false ∧
       t.power.pwrGood = (s.power.pwrGood ||
         (s.power.pwrEn && decide (4000 ≤ s.power.volts) && s.power.aux && !s.power.tripLow)) ∧
       t.out = { s.out with mgmt := s.out.mgmt ++ [(0xA6, [0])] } ∧
       { t with power := s.power, startup.startedAt := s.startup.startedAt, out := s.out } = s)) ∧
  (∀ (s : State), mgmtTakes s = true → s.power.pwrGood = true →
     (∀ body : Bytes, body.length = 2 → s.power.capWrittenAt = some s.clock.up →
       exec (.setPowerCap body) s = .next { s with out.mgmt := s.out.mgmt ++ [(0xA1, [0])] }) ∧
     (∀ body : Bytes, body.length = 2 → s.power.capWrittenAt ≠ some s.clock.up → exec (.setPowerCap body) s = .next { s with
       power.capW := if 3000 ≤ leNat body ∧ leNat body ≤ s.flash.record.powerLimit then leNat body else s.power.capW
       out.mgmt := s.out.mgmt ++ [(0xA1, [0])] }) ∧
     (s.run.isOn = false → exec (.mgmtStop []) s = .next { s with out.mgmt := s.out.mgmt ++ [(0xA2, [3])] }) ∧
     (s.isLead = true → ∃ t o, exec (.mgmtStop []) s = .next t ∧ t.run = { s.run with held := s.run.held ++ [⟨o, s.clock.up⟩] } ∧
       o.op = .stop ∧ o.mgmt = true ∧ o.source = s.holding.moduleId ∧ o.stamp = s.run.head ∧
       t.out = { s.out with mgmt := s.out.mgmt ++ [(0xA2, [0])] } ∧ { t with run := s.run, out := s.out } = s) ∧
     (s.run.isOn = true → s.isLead = false → ∃ t o, exec (.mgmtStop []) s = .next t ∧
       t.out = { s.out with hedge := s.out.hedge ++ [(leadId s, .orderForward o)]
                            mgmt := s.out.mgmt ++ [(0xA2, [0])] } ∧
       o.op = .stop ∧ o.mgmt = true ∧ o.source = s.holding.moduleId ∧ { t with sheaf := s.sheaf, out := s.out } = s) ∧
     (s.holding.isMaster = false → exec (.mgmtHoldingReset []) s = .next { s with out.mgmt := s.out.mgmt ++ [(0xA3, [2])] }) ∧
     (s.holding.isMaster = true → ∃ t, exec (.mgmtHoldingReset []) s = .next t ∧ IsHoldingReset s t ∧
       t.out = { s.out with hedge := s.out.hedge ++ [(everyone, .setupWrite 0x20010 8 2)]
                            mgmt := s.out.mgmt ++ [(0xA3, [0])] }) ∧
     (∃ t, exec (.powerOff []) s = .next t ∧ t.power.pwrGood = false ∧ t.power.offByMgmt = true ∧ t.flash = s.flash ∧
       t.mem.base = [] ∧ t.run = {} ∧ t.out = { s.out with mgmt := s.out.mgmt ++ [(0xA5, [0])] }) ∧
     (∃ t, exec (.getNonce []) s = .next t ∧ t.security.nonce = Config.freshNonce s.security.nonceCount ∧
       t.security.nonceIssued = true ∧
       t.out = { s.out with mgmt := s.out.mgmt ++ [(0xA7, 0 :: digestBytes (Config.freshNonce s.security.nonceCount))] } ∧
       { t with security := s.security, out := s.out } = s) ∧
     (∀ body : Bytes, body.length = 29856 → ∃ t, exec (.securityRequest body) s = .next t ∧
       t.security = (securityRequest body s).security ∧ nonceNow t = none ∧
       t.out = { s.out with mgmt := s.out.mgmt ++ [(0xA8, [0, BitVec.ofNat 8 t.security.result])] } ∧
       { t with security := s.security, out := s.out } = s))

/-! ### Rings and host accesses -/

/-- 13 R266, R268, R272, R282, R283: the ring controls: a nudge on the holding master reads that ring's doorbell word, NUDGE_ALL
that of every enabled ring; ENABLE starts a ring at zero; RESUME starts a halted one. On a module that does not serve rings
they are inert. -/
def Obligations.RingControls : Prop :=
  ∀ (s : State) (n : Nat), n < 256 →
    (serves s = true → (subRing s n).enable = true → s.power.linkUp = true →
      ∃ t, exec (.nudge n) s = .next t ∧
        t.out.reads = s.out.reads ++ [(s.host.nextAccess, s.host.ctx.doorbellBase.toNat / 4096 * 4096 + 8 * n, 8)] ∧
        t.host.accesses = tset none s.host.accesses s.host.nextAccess (some (.doorbell n)) ∧
        { t with host.accesses := s.host.accesses, host.nextAccess := s.host.nextAccess, out := s.out } = s) ∧
    (serves s = true → s.power.linkUp = true →
      let rings := s.host.sub.filterMap fun e => if e.2.enable then some e.1 else none
      ∃ t, exec .nudgeAll s = .next t ∧ t.host.nextAccess = s.host.nextAccess + rings.length ∧
        t.out.reads = s.out.reads ++ rings.mapIdx fun i n =>
          (s.host.nextAccess + i, s.host.ctx.doorbellBase.toNat / 4096 * 4096 + 8 * n, 8)) ∧
    (serves s = false → exec (.nudge n) s = .next s ∧ exec .nudgeAll s = .next s) ∧
    (hostControls s = true → (subRing s n).enable = false → ∃ t, exec (.ringEnable false n true) s = .next t ∧
      subRing t n = { subRing s n with
        enable := true, state := 1, errorCode := 0, fetched := 0, executed := 0
        producer := 0, waiting := [], reading := 0, draining := false, shown := none } ∧
      (∀ k, k ≠ n → subRing t k = subRing s k) ∧ { t with host.sub := s.host.sub } = s) ∧
    (hostControls s = true → (subRing s n).enable = true → (subRing s n).waiting = [] →
      s.run.held.any (holdsRing s n) = false → ∃ t, exec (.ringEnable false n false) s = .next t ∧
      (subRing t n).enable = false ∧ (∀ k, k ≠ n → subRing t k = subRing s k) ∧
      { t with host.sub := s.host.sub, host.accesses := s.host.accesses, run.held := s.run.held } = s) ∧
    (hostControls s = true → (complRing s n).enable = false → ∃ u, exec (.ringEnable true n true) s = .next (advance u) ∧
      complRing u n = { complRing s n with
        enable := true, state := 1, posted := 0, consumer := 0, unsignalled := 0
        firstAt := 0, shown := none } ∧ { u with host.compl := s.host.compl } = s) ∧
    (hostControls s = true → (subRing s n).state = 2 → ∃ u, exec (.ringResume n) s = .next (advance u) ∧
      subRing u n = { subRing s n with state := 1 } ∧ (∀ k, k ≠ n → subRing u k = subRing s k) ∧
      { u with host.sub := s.host.sub } = s) ∧
    (hostControls s = true → (subRing s n).state ≠ 2 → exec (.ringResume n) s = .next s)

/-- 13 R272, R273, R275, 15 R319, R330: a poll writes the progress words that have changed and, while a submission ring is
enabled, reads the words of every enabled ring, the event ring's and LIVENESS; a module that serves no rings only goes on; an
answered doorbell word moves the producer of its ring, which then fetches its next descriptor, and one past the ring's size puts it
into its error state; a descriptor fetch that has met a timeout is read again until RING_RETRY is used up; LIVENESS that stands
still places the run in safe hold.
Readings of the model it rests on: log entries 43 and 62. -/
def Obligations.PollEngine : Prop :=
  ∀ (s : State),
    (serves s = true → s.power.linkUp = true → (s.host.sub.any fun e => e.2.enable) = true →
      ∃ u more, exec .pollTick s = .next (advance u) ∧ u.host.lastPoll = s.clock.up ∧
        u.out.host = s.out.host ++ progressWrites s ∧
        u.out.reads = s.out.reads ++ ((pollWords s).mapIdx fun i w =>
          (s.host.nextAccess + i, s.host.ctx.doorbellBase.toNat / 4096 * 4096 + 8 * w, 8)) ++ more ∧
        (∀ x ∈ more, x.2.2 = 64) ∧
        (∀ i w, (pollWords s)[i]? = some w → tget none u.host.accesses (s.host.nextAccess + i) = some (.doorbell w)) ∧
        { u with host := s.host, out := s.out } = s) ∧
    (serves s = true → s.power.linkUp = true → (s.host.sub.any fun e => e.2.enable) = false →
      ∃ u, exec .pollTick s = .next (advance u) ∧ u.host.lastPoll = s.clock.up ∧
        u.out.host = s.out.host ++ progressWrites s ∧ u.out.reads = s.out.reads ∧
        { u with host.lastPoll := s.host.lastPoll, host.compl := s.host.compl, out := s.out } = s) ∧
    (serves s = false → exec .pollTick s = .next (advance s)) ∧
    (∀ (r : HostReply) (n : Nat) (b : Bytes), n < 256 → tget none s.host.accesses r.id = some (.doorbell n) → r.data = .ok b →
      (subRing s n).enable = true → (subRing s n).state ≠ 3 → field b 4 4 = (subRing s n).generation.toNat →
      let p : W32 := BitVec.ofNat 32 (field b 0 4)
      ((p - (subRing s n).fetched).toNat ≤ 2 ^ (subRing s n).sizeLog2.toNat →
        let fetches := (subRing s n).reading == 0 && hasRoom (subRing s n) && (subRing s n).fetched != p && s.power.linkUp
        ∃ u, exec (.hostAccessCompletion r) s = .next (advance u) ∧
          subRing u n = { subRing s n with producer := p, reading := if fetches then 1 else (subRing s n).reading } ∧
          (∀ k, k ≠ n → subRing u k = subRing s k) ∧
          u.out.reads = s.out.reads ++ (if fetches then
            [(s.host.nextAccess, slotAddress (subRing s n) (subRing s n).fetched, 64)] else []) ∧
          (fetches = true → tget none u.host.accesses s.host.nextAccess = some (.descriptor n (subRing s n).fetched 0)) ∧
          { u with
            host.sub := s.host.sub, host.accesses := s.host.accesses, host.nextAccess := s.host.nextAccess
            out.reads := s.out.reads } = s) ∧
      (2 ^ (subRing s n).sizeLog2.toNat < (p - (subRing s n).fetched).toNat →
        ∃ u, exec (.hostAccessCompletion r) s = .next (advance u) ∧ (subRing u n).state = 3 ∧ (subRing u n).errorCode = 1 ∧
          { u with host := s.host, sheaf := s.sheaf, out := s.out } = s)) ∧
    (∀ (id n k : Nat) (i : W32), tget none s.host.accesses id = some (.descriptor n i k) → s.power.linkUp = true →
      k < s.tmo.ringRetry.toNat → ∃ t, exec (.ringFetchRetry id) s = .next t ∧
        tget none t.host.accesses s.host.nextAccess = some (.descriptor n i (k + 1)) ∧
        t.out.reads = s.out.reads ++ [(s.host.nextAccess, slotAddress (subRing s n) i, 64)] ∧
        { t with
          host.accesses := s.host.accesses, host.nextAccess := s.host.nextAccess, out.reads := s.out.reads } = s) ∧
    (∀ (id n k : Nat) (i : W32), tget none s.host.accesses id = some (.descriptor n i k) → s.tmo.ringRetry.toNat ≤ k →
      ∃ t, exec (.ringFetchRetry id) s = .next t ∧ (subRing t n).state = 3 ∧ (subRing t n).errorCode = 2 ∧
        { t with host := s.host, sheaf := s.sheaf, out := s.out } = s) ∧
    (serves s = true → s.host.liveSeen = true → s.host.safeHold = false → s.tmo.liveness ≠ 0 →
      s.host.liveAt + ms s.tmo.liveness.toNat ≤ s.clock.up →
      (s.run.isOn = true → s.isLead = false →
        ∃ u, exec .livenessTimeout s = .next (advance u) ∧ u.host.safeHold = true ∧
          (leadId s, Hedge.stop ⟨true, 0, 2, 0⟩) ∈ u.out.hedge ∧
          { u with host := s.host, sheaf := s.sheaf, out := s.out } = s) ∧
      (s.run.isOn = false →
        ∃ u, exec .livenessTimeout s = .next (advance u) ∧ u.host.safeHold = true ∧
          { u with host := s.host, sheaf := s.sheaf, out := s.out } = s))

/-- 13 R284, R285: the oldest waiting entry is written to its slot of the completion ring, with its PHASE and its HALTED bit, an entry
that halts its ring puts the ring into STATE 2, and the vector is signalled at once when COALESCE is 0 or the entry is URGENT, else
when its time has passed; a QUIET entry that stayed OK is dropped; an unmasked vector sends its pending message; a step report
ends its step. -/
def Obligations.PostingAndSignalling : Prop :=
  ∀ (s : State) (n : Nat),
    (∀ (e : Entry) (rest : List Entry), serves s = true → s.power.linkUp = true → (complRing s n).enable = true →
      (complRing s n).state = 1 → complFull (complRing s n) = false → (complRing s n).waiting = e :: rest →
      ((e.quiet && e.status == stOk) = false →
        let now := (complRing s n).coalesce = 0 ∨ e.urgent = true
        (now → s.host.msixMasked.getLsbD (complRing s n).vector.toNat = false) →
        ∃ u, exec (.completionPost n) s = .next (advance u) ∧
          u.out.host = s.out.host ++ [((complRing s n).base.toNat / 4096 * 4096 +
            16 * ((complRing s n).posted.toNat % 2 ^ (complRing s n).sizeLog2.toNat),
            leBytes 2 e.tag.toNat ++ leBytes 1 e.status ++ leBytes 1 (pack
              [(1, ringPhase (complRing s n).sizeLog2.toNat (complRing s n).posted.toNat), (1, b2n e.halted),
               (1, b2n e.report)]) ++
              leBytes 4 e.detail ++ leBytes 8 (e.position.getD s.run.head).toNat, false)] ∧
          (∀ k, subRing u k = if e.halted = true ∧ e.ring = some k ∧ (subRing s k).state = 1 then
            { subRing s k with state := 2 } else subRing s k) ∧
          (now → u.out.msix = s.out.msix ++ [(complRing s n).vector.toNat] ∧ complRing u n = { complRing s n with
            waiting := rest, posted := (complRing s n).posted + 1, unsignalled := 0 }) ∧
          (¬ now → u.out.msix = s.out.msix ∧ complRing u n = { complRing s n with
            waiting := rest, posted := (complRing s n).posted + 1, unsignalled := (complRing s n).unsignalled + 1
            firstAt := if (complRing s n).unsignalled = 0 then s.clock.up else (complRing s n).firstAt }) ∧
          { u with
            host.compl := s.host.compl, host.sub := s.host.sub, out.host := s.out.host, out.msix := s.out.msix } = s) ∧
      ((e.quiet && e.status == stOk) = true →
        ∃ u, exec (.completionPost n) s = .next (advance u) ∧ complRing u n = { complRing s n with waiting := rest } ∧
          { u with host.compl := s.host.compl } = s)) ∧
    (s.host.msixMasked.getLsbD (complRing s n).vector.toNat = false → s.power.linkUp = true →
      (complRing s n).unsignalled ≠ 0 → (complRing s n).firstAt + us (complRing s n).coalesce.toNat ≤ s.clock.up →
      ∃ t, exec (.coalesceExpiry (some n)) s = .next t ∧ (complRing t n).unsignalled = 0 ∧
        t.out = { s.out with msix := s.out.msix ++ [(complRing s n).vector.toNat] } ∧
        { t with host.compl := s.host.compl, out := s.out } = s) ∧
    (s.host.msixMasked.getLsbD s.host.ctx.eventVector.toNat = false → s.power.linkUp = true → s.host.evUnsig ≠ 0 →
      s.host.evFirstAt + us s.host.ctx.eventCoalesce.toNat ≤ s.clock.up →
      exec (.coalesceExpiry none) s = .next { s with
        host.evUnsig := 0, out.msix := s.out.msix ++ [s.host.ctx.eventVector.toNat] }) ∧
    (∀ v : Nat, v < 2048 → s.host.msixPending.getLsbD v = true → s.power.linkUp = true →
      ∃ t, exec (.msixVectorUnmask v) s = .next t ∧ t.host.msixMasked.getLsbD v = false ∧
        t.host.msixPending.getLsbD v = false ∧ t.out = { s.out with msix := s.out.msix ++ [v] } ∧
        (∀ w, w ≠ v → t.host.msixMasked.getLsbD w = s.host.msixMasked.getLsbD w ∧
          t.host.msixPending.getLsbD w = s.host.msixPending.getLsbD w) ∧
        { t with host.msixMasked := s.host.msixMasked, host.msixPending := s.host.msixPending, out := s.out } = s) ∧
    (∀ v : Nat, s.host.msixPending.getLsbD v = false → ∃ t, exec (.msixVectorUnmask v) s = .next t ∧
      t.host.msixMasked.getLsbD v = false ∧ t.out = s.out ∧ { t with host.msixMasked := s.host.msixMasked } = s) ∧
    (∀ c : CommitRecord, s.votes.commits = [c] → c.reported = false → s.run.finished ≠ some c.step →
      c.fingerprintDone = true → s.run.pendingModes = [] → s.stones.due = none →
      s.exporter.due = none → s.graph.dir = [] → s.run.jobs = [] →
      (s.holding.isMaster = false →
        ∃ u, exec .stepReportPost s = .next (advance u) ∧ u.run.finished = some c.step ∧
          u.votes.commits = [{ c with reported := true }] ∧
          { u with
            votes.commits := s.votes.commits, run.finished := s.run.finished, run.modesDue := s.run.modesDue
            run.retireDue := s.run.retireDue, mem.oldBase := s.mem.oldBase, mem.oldHomes := s.mem.oldHomes
            exporter.oldFallow := s.exporter.oldFallow, sheaf := s.sheaf } = s) ∧
      (s.holding.isMaster = true → reportsWaiting s < 256 → s.power.linkUp = true →
        ∃ u, exec .stepReportPost s = .next (advance u) ∧ u.run.finished = some c.step ∧
          u.votes.commits = [{ c with reported := true }] ∧
          u.out.host = s.out.host ++
            [(s.host.ctx.reportBase.toNat / 4096 * 4096 + 64 * (c.step % 256), reportSlot s c.step, false)] ∧
          (complRing u s.host.ctx.reportRing.toNat).waiting = (complRing s s.host.ctx.reportRing.toNat).waiting ++
            [{ tag := 0xFFFF, status := stOk, halted := false, report := true, detail := 1, urgent := false
               position := some (posOf c.step passC 0), ring := none, access := none, quiet := false }] ∧
          { u with
            votes.commits := s.votes.commits, run.finished := s.run.finished, run.modesDue := s.run.modesDue
            run.retireDue := s.run.retireDue, mem.oldBase := s.mem.oldBase, mem.oldHomes := s.mem.oldHomes
            exporter.oldFallow := s.exporter.oldFallow, exporter.evalAbandoned := s.exporter.evalAbandoned
            host.compl := s.host.compl, sheaf := s.sheaf, out := s.out } = s))

/-- 13 R278, 15 R319: the data of a COPY_IN without FOR_STEP stand in this module's memory for every plain reader when its host
read is answered, no other byte has changed, and the descriptor completes OK; into the fallow queues of the reserved area they
load queues and touch no other memory; a host access that has met a completion timeout publishes nothing and completes its
descriptor with TIMEOUT.
Readings of the model it rests on: log entries 43 and 52. -/
def Obligations.CopyInData : Prop :=
  ∀ (s : State) (ring o : Nat) (d : Desc), dAt d 40 8 = 0 → copyTarget s d = some (s.holding.moduleId, o) →
    (∀ (r : HostReply) (b : Bytes), tget none s.host.accesses r.id = some (.copyIn ring d none) → r.data = .ok b →
      (fallowRange s o d.count.toNat = false →
        ∃ u, exec (.hostAccessCompletion r) s = .next (advance (completeLater .copyIn d stOk 0 u)) ∧
          (∀ i, i < d.count.toNat → readByte u.mem u.run.head .plain (o + i) = b.getD i 0) ∧
          (∀ q a, a < o ∨ o + d.count.toNat ≤ a → readByte u.mem u.run.head q a = readByte s.mem s.run.head q a) ∧
          { u with mem := s.mem, counters.values := s.counters.values, host.accesses := s.host.accesses } = s) ∧
      (fallowRange s o d.count.toNat = true →
        ∃ u, exec (.hostAccessCompletion r) s = .next (advance (completeLater .copyIn d stOk 0 u)) ∧
          { u with fallow := s.fallow, host.accesses := s.host.accesses } = s)) ∧
    (∀ id : Nat, tget none s.host.accesses id = some (.copyIn ring d none) →
      ∃ u, exec (.hostCompletionTimeout id) s = .next (advance (completeLater .copyIn d stTimeout 0 u)) ∧
        u.mem.base = s.mem.base ∧ u.mem.layers = s.mem.layers ∧
        { u with mem.awaited := s.mem.awaited, host.accesses := s.host.accesses } = s)

/-! ### Descriptors at the order point -/

/-- 13 R275, R276, R281, R282: a descriptor row on a ring that takes no descriptor changes nothing; otherwise the descriptor
takes its place on its ring, waits while it must, and executes in its turn; one whose header is malformed completes with
MALFORMED and no other effect.
Readings of the model it rests on: log entry 60. -/
def Obligations.DescriptorsReachOrderPoint : Prop :=
  ∀ row ∈ descRows, ∀ (d0 : Desc) (s : State),
    let c := row.1 d0
    let op := row.2.1
    let d := row.2.2 d0
    let r := subRing s d.ring
    (takesDescriptor s d.ring = false → exec c s = .next s) ∧
    (takesDescriptor s d.ring = true → frontOf? (fetched op d s) d.ring = none →
      exec c s = .next (advance (fetched op d s))) ∧
    (Reaches op d s → runWide (atOrderPoint op d s) op d = false → headerBad d = true →
      (s.run.jobs.any fun j => j.op == .runBegin) = false →
      exec c s = .next (advance (record op d (atOrderPoint op d s, .done stMalformed 0)))) ∧
    subRing (fetched op d s) d.ring = { r with fetched := r.fetched + 1, waiting := r.waiting ++ [(op, d)] } ∧
    subRing (atOrderPoint op d s) d.ring =
      { r with fetched := r.fetched + 1, executed := r.executed + 1, waiting := (r.waiting ++ [(op, d)]).drop 1 } ∧
    (∀ k, k ≠ d.ring → subRing (atOrderPoint op d s) k = subRing s k) ∧
    { fetched op d s with host.sub := s.host.sub } = s ∧
    { atOrderPoint op d s with host.sub := s.host.sub, sheaf := s.sheaf } = s

/-- 13 R276, R281, R282, R284: a descriptor that completes at its execution leaves one entry waiting for its completion ring, none when it is QUIET
and OK; an error on a HALT_ON_ERROR ring halts the ring and marks the entry. One whose work goes on leaves a job and stands
in flight.
Readings of the model it rests on: log entry 61. -/
def Obligations.CompletionEntries : Prop :=
  ∀ (op : DescOp) (d : Desc) (u : State) (st dt : Nat), op ≠ .copyOut → op ≠ .snapshot →
    let k := (subRing u d.ring).completionRing.toNat
    let v := record op d (u, .done st dt)
    let halts := isError st && (subRing u d.ring).haltOnError
    let e : Entry :=
      { tag := d.tag, status := st, halted := halts, report := false, detail := dt, urgent := d.flags.getLsbD 1
        position := none, ring := none, access := none, quiet := d.flags.getLsbD 0 }
    (complRing v k = { complRing u k with
        waiting := (complRing u k).waiting ++ (if d.flags.getLsbD 0 && st == 0 then [] else [e]) }) ∧
    (∀ j, j ≠ k → complRing v j = complRing u j) ∧
    (subRing v d.ring = { subRing u d.ring with state := if halts then 2 else (subRing u d.ring).state }) ∧
    (∀ j, j ≠ d.ring → subRing v j = subRing u j) ∧
    { v with host.sub := u.host.sub, host.compl := u.host.compl, sheaf := u.sheaf } = u ∧
    (∀ kind : JobKind, ∃ w, record op d (u, .later kind) = w ∧
      w.run.jobs = u.run.jobs ++ [⟨d, op, kind, none, u.clock.up⟩] ∧
      (subRing w d.ring).inFlight = (subRing u d.ring).inFlight + 1 ∧
      { w with run.jobs := u.run.jobs, host.sub := u.host.sub } = u)

/-- 12 R243, R245, 13 R277, 20 R413: an accepted segment takes a free number, active from the next step or for its one step, with
its digest extended into the measurements; a retired one retires at the boundary; a tensor is defined, or no longer
defined. Each accepted order goes out to the other modules.
Readings of the model it rests on: log entries 15 and 57. -/
def Obligations.GraphAndTensorOrders : Prop :=
  ∀ (d : Desc) (s : State),
    (∀ b : Bytes, Executes .graphSubmit d s → segmentBytes d = .ok b →
      let p := atOrderPoint .graphSubmit d s
      let g := parseSegment b
      let n := freeSegment p
      let kept := resolveStints p.numerics.stintDefault.toNat b
      segmentOk p b = true → (p.isLead = true ∨ groupOutside p g.group = false) → p.quiet = true →
      segmentConflicts p g = false → storeFull p g = false →
      (g.standing = true ∨ ∀ c, p.run.created = some c → c < g.oneShot) →
      Yields (.graphSubmit d) .graphSubmit d s (.done stOk n) fun p u =>
        (tget {} u.graph.dir n).digest = digestBits (sha256 kept) ∧
        (tget {} u.graph.dir n).segment = some (draftOf p (parseSegment kept)).g ∧
        ((draftOf p (parseSegment kept)).g.standing = true → (tget {} u.graph.dir n).state = 1) ∧
        ((draftOf p (parseSegment kept)).g.standing = false → (tget {} u.graph.dir n).state = 2) ∧
        (∀ k, k ≠ n → tget {} u.graph.dir k = tget {} p.graph.dir k) ∧
        u.out.hedge = p.out.hedge ++ [orderOut .graphSubmit d p] ∧
        u.security.meas = p.security.meas.set 4 (digestBits (sha256
          (digestBytes (p.security.meas.getD 4 0) ++ digestBytes (digestBits (sha256 kept))))) ∧
        { u with
          graph := p.graph, harrows.blocks := p.harrows.blocks, security.meas := p.security.meas
          mem.pages := p.mem.pages, mem.selected := p.mem.selected, sheaf := p.sheaf, out := p.out } = p) ∧
    (∀ g : Segment, Executes .graphRetire d s →
      let n := dAt d 16 1
      noCount d = true → dZeroFrom d 17 = true → (tget {} s.graph.dir n).segment = some g →
      namedElsewhere s n g = false → (tget {} s.graph.dir n).lastStep = 0 →
      Yields (.graphRetire d) .graphRetire d s (.later (.retire n)) fun p u =>
        tget {} u.graph.dir n = { tget {} p.graph.dir n with state := 3 } ∧
        (∀ k, k ≠ n → tget {} u.graph.dir k = tget {} p.graph.dir k) ∧
        u.out.hedge = p.out.hedge ++ [orderOut .graphRetire d p] ∧
        { u with graph.dir := p.graph.dir, sheaf := p.sheaf, out := p.out } = p) ∧
    (∀ t : TensorRec, Executes .tensorDefine d s → tensorOf (atOrderPoint .tensorDefine d s) d = .ok t →
      (s.isLead = true ∨ groupOutside s (dAt d 28 2) = false) → s.quiet = true →
      (dAt d 28 2 = 0xFFFF ∨ (groupOf s (dAt d 28 2)).isSome = true) → findTensor s (dAt d 24 4) = none →
      Yields (.tensorDefine d) .tensorDefine d s (.done stOk 0) fun p u =>
        tget none u.graph.tensors (dAt d 24 4) = some t ∧
        (∀ k, k ≠ dAt d 24 4 → tget none u.graph.tensors k = tget none p.graph.tensors k) ∧
        tget 0xFFFF u.graph.tensorGroups (dAt d 24 4) = dAt d 28 2 ∧
        u.out.hedge = p.out.hedge ++ [orderOut .tensorDefine d p] ∧
        { u with
          graph.tensors := p.graph.tensors, graph.tensorGroups := p.graph.tensorGroups, mem.pages := p.mem.pages
          mem.selected := p.mem.selected, exporter.images := p.exporter.images, exporter.keyed := p.exporter.keyed
          sheaf := p.sheaf, out := p.out } = p) ∧
    (Executes .tensorRelease d s → noCount d = true → dZeroIn d 16 8 = true → dZeroFrom d 28 = true →
      (s.isLead = true ∨ groupOutside s (tget 0xFFFF s.graph.tensorGroups (dAt d 24 4)) = false) → s.quiet = true →
      (tget none s.graph.tensors (dAt d 24 4)).isSome = true →
      ((heldSegments s).any fun e => (namedTensors e.2).contains (dAt d 24 4)) = false →
      Yields (.tensorRelease d) .tensorRelease d s (.done stOk 0) fun p u =>
        tget none u.graph.tensors (dAt d 24 4) = none ∧
        (∀ k, k ≠ dAt d 24 4 → tget none u.graph.tensors k = tget none p.graph.tensors k) ∧
        u.out.hedge = p.out.hedge ++ [orderOut .tensorRelease d p] ∧
        { u with
          graph.tensors := p.graph.tensors, graph.tensorGroups := p.graph.tensorGroups, sheaf := p.sheaf
          out := p.out } = p)

/-- 13 R279, R281, R289, 01 R19, R20, 15 R321: RUN_BEGIN of the one holding of a run begins it at START, halted at a cut, with the
setup registers locked; MODE_SET waits for the boundary; an order that the run lead master's order point takes is held there; of a
master that is not the lead a STOP or a RESUME is sent to it, and a MODE_SET of function 1, 5 or 6 is NOT_PERMITTED; a FENCE
completes with no other effect.
Readings of the model it rests on: log entries 15 and 57. -/
def Obligations.RunOrders : Prop :=
  (∀ (d : Desc) (s : State), Executes .runBegin d s → beginMalformed d s = false → s.run.isOn = false →
    s.security.state ≠ 2 → s.holding.state = 2 → s.run.jobs.any isBegin = false →
    (s.run.jobs.any fun j => j.op == .runBegin) = false → dAt d 32 2 = s.holding.number.toNat → dAt d 34 2 = 1 →
    (s.holding.before.any fun b => b.at_ == s.clock.up) = false →
    let start : Pos := BitVec.ofNat 64 (dAt d 16 8)
    Yields (.runBegin d) .runBegin d s (.done stOk 1) fun p u =>
      u.run.isOn = true ∧ u.run.start = start ∧ u.run.head = start ∧ u.run.halt = .cut ∧
      u.run.seed = BitVec.ofNat 64 (dAt d 24 8) ∧ u.run.leadHolding = s.holding.number.toNat ∧
      u.run.modes = p.run.modes ∧ u.exporter.chainStep = none ∧ u.exporter.images = [] ∧
      u.run.created = some (stepOf start) ∧ u.run.lastCommit = none ∧ u.votes.openStep = some (stepOf start) ∧
      u.holding.setupLock = true ∧ u.mem.reservedNow = p.mem.reservedSize ∧
      u.out.hedge = p.out.hedge ++
        [(everyone, .timestampSync (BitVec.ofNat 64 s.clock.now)), orderOut .runBegin d p] ∧
      { u with
        run := p.run, votes := p.votes, sched.tasks := p.sched.tasks, graph.dir := p.graph.dir
        coll.groups := p.coll.groups, holding.setupLock := p.holding.setupLock, mem.reservedNow := p.mem.reservedNow
        mem.selected := p.mem.selected, harrows.replay := p.harrows.replay
        exporter.chainStep := p.exporter.chainStep, exporter.images := p.exporter.images
        sheaf := p.sheaf, out := p.out } = p) ∧
  (∀ (d : Desc) (s : State), Executes .modeSet d s → modeMalformed d = false →
    Yields (.modeSet d) .modeSet d s (.done stOk 0) fun p u =>
      u.run.pendingModes = p.run.pendingModes ++ [(dAt d 16 1, dAt d 17 1 == 1)] ∧
      u.out.hedge = p.out.hedge ++ [orderOut .modeSet d p] ∧
      { u with run.pendingModes := p.run.pendingModes, sheaf := p.sheaf, out := p.out } = p) ∧
  (∀ row ∈ descRows, ∀ (d0 : Desc) (s : State),
    let op := row.2.1
    let d := row.2.2 d0
    let o : FwdOrder := ⟨s.holding.moduleId, s.holding.number.toNat, s.run.head, false, op, d⟩
    Reaches op d s → runWide (atOrderPoint op d s) op d = true → wideMalformed op d = false →
    (s.isLead = true → (op = .voteSupply → voteSupplyFirst d s = none) →
      ∃ u, exec (row.1 d0) s = .next (advance u) ∧ u.run.held = s.run.held ++ [⟨o, s.clock.up⟩] ∧
        u.run.jobs = s.run.jobs ++ [⟨d, op, .targets [leadId s] stOk 0, none, s.clock.up⟩] ∧
        { u with run.held := s.run.held, run.jobs := s.run.jobs, host.sub := s.host.sub, sheaf := s.sheaf } = s) ∧
    (s.isLead = false → op = .modeSet →
      exec (row.1 d0) s = .next (advance (record op d (atOrderPoint op d s, .done stNotPermitted 0)))) ∧
    (s.isLead = false → (op = .stop ∨ op = .resume) →
      ∃ u, exec (row.1 d0) s = .next (advance u) ∧ u.out.hedge = s.out.hedge ++ [(leadId s, .orderForward o)] ∧
        u.run.jobs = s.run.jobs ++ [⟨d, op, .targets [leadId s] stOk 0, none, s.clock.up⟩] ∧
        { u with run.jobs := s.run.jobs, host.sub := s.host.sub, sheaf := s.sheaf, out := s.out } = s)) ∧
  (∀ (d : Desc) (s : State), Executes .fence d s → noCount d = true → dAt d 16 1 ≤ 1 → dZeroFrom d 17 = true →
    exec (.fence d) s = .next (advance (record .fence d (atOrderPoint .fence d s, .done stOk 0))))

/-- 13 R289, 02 R29, R35, R36, R41, 01 R19, 09 R178: an order held at the run lead master takes effect when its hold is over: the
advance limit is raised, a mode waits for the boundary, a scheduled stop is pending at its target, an immediate stop halts
the module, RESUME at a cut lets the run go on, VOTE_SUPPLY decides the open vote. While no hold is over nothing changes.
Readings of the model it rests on: log entries 15 and 57. -/
def Obligations.HeldOrdersTakeEffect : Prop :=
  ∀ s : State,
    ((s.run.held.any (holdOver s)) = false → exec .orderHoldRelease s = .next s) ∧
    (∀ o : FwdOrder, HoldsOne o s → o.op = .furrowAdvance →
      let t : Pos := BitVec.ofNat 64 (dAt o.desc 16 8)
      ∀ l : Pos, noCount o.desc = true → dZeroFrom o.desc 24 = true → posMalformed t = false →
        s.run.modes.getD 1 false = true → s.run.advanceLimit = some l →
        Releases s fun v => v.run.advanceLimit = some (if l.toNat < t.toNat then t else l) ∧
          { v with run.advanceLimit := s.run.advanceLimit, run.held := s.run.held, run.jobs := s.run.jobs
                   host := s.host, sheaf := s.sheaf, out := s.out } = s) ∧
    (∀ o : FwdOrder, HoldsOne o s → o.op = .modeSet → modeMalformed o.desc = false →
      Releases s fun v => v.run.pendingModes = s.run.pendingModes ++ [(dAt o.desc 16 1, dAt o.desc 17 1 == 1)] ∧
        { v with run.pendingModes := s.run.pendingModes, run.held := s.run.held, run.jobs := s.run.jobs
                 host := s.host, sheaf := s.sheaf, out := s.out } = s) ∧
    (∀ o : FwdOrder, HoldsOne o s → o.op = .stop → stopMalformed o.desc = false → s.run.halt = .running →
      dAt o.desc 24 1 = 0 → s.run.stop = none →
      let t : Pos := BitVec.ofNat 64 (dAt o.desc 16 8)
      s.run.head.toNat < t.toNat → (s.sched.tasks.any fun x => x.seedbed) = false →
      Releases s fun v => v.run.stop = some ⟨true, t, 0, o.holding⟩ ∧ v.run.stopAcks = [] ∧ v.run.halt = .running ∧
        (everyone, Hedge.stop ⟨true, t, 0, o.holding⟩) ∈ v.out.hedge ∧
        v.mem.base = s.mem.base ∧ v.mem.layers = s.mem.layers) ∧
    (∀ o : FwdOrder, HoldsOne o s → o.op = .stop → stopMalformed o.desc = false → s.run.halt = .running →
      dAt o.desc 24 1 = 1 →
      Releases s fun v => v.run.halt = .smear ∧ v.coll.live = [] ∧ v.run.stop = none ∧
        (everyone, Hedge.stop ⟨false, BitVec.ofNat 64 (dAt o.desc 16 8), 0, o.holding⟩) ∈ v.out.hedge) ∧
    (∀ o : FwdOrder, HoldsOne o s → o.op = .resume → noCount o.desc = true → dZeroFrom o.desc 16 = true →
      s.run.halt = .cut → haltKnown s = true → ([1, 2, 5, 6].contains s.holding.restore) = false → reformed s = true →
      Releases s fun v => v.run.halt = .running ∧ v.run.stop = none ∧ v.mem = s.mem ∧ v.sched = s.sched ∧
        v.votes = s.votes ∧ v.run.head = s.run.head) ∧
    (∀ o : FwdOrder, HoldsOne o s → o.op = .voteSupply → noCount o.desc = true → dZeroFrom o.desc 25 = true →
      dAt o.desc 24 1 ≤ 2 → s.run.modes.getD 5 false = true → s.run.halt = .running →
      let n := dAt o.desc 16 8
      let vote := voteRecord n (dAt o.desc 24 1) true false s
      s.votes.openStep = some n → s.votes.decided = none → reductionComplete s = true →
      (dAt o.desc 24 1 = outRetry ∨ operationalBits vote.bits = 0) →
      Releases s fun v => v.votes.ring.any (fun e => e.2.1 == vote) = true ∧
        (everyone, Hedge.voteOutcome vote) ∈ v.out.hedge)

/-- 10 R194 to R196, R217, 13 R278: a group defined or reformed is installed, a reformed one in its next epoch, and goes in three
parts to each other module that is a member or was one; a COPY_IN reads its source and awaits the data; a COPY_OUT of this
module's memory writes the bytes a plain reader finds to host memory line by line, a poisoned line marked; one of a peer's memory
reads it line by line; either goes as an order to the module that VIA names.
Readings of the model it rests on: log entry 58. -/
def Obligations.GroupsAndCopies : Prop :=
  ∀ (d : Desc) (s : State),
    let b := d.body
    let g := field b 0 2
    let new := (definedMembers s b).filter fun m => m != s.holding.moduleId && !s.holding.lost.contains m
    let all := ((definedMembers s b ++ membersOf s g).eraseDups).filter fun m =>
      m != s.holding.moduleId && !s.holding.lost.contains m
    let parts := fun (epoch : Nat) => all.flatMap fun m =>
      (List.range 3).map fun q => (m, Hedge.groupDefinition q epoch (slice b (16 * q) 16))
    let result := fun (epoch : Nat) => if new = [] then Result.done stOk epoch else Result.later (.group g epoch new)
    let installed := fun (epoch : Nat) (p u : State) =>
      (∃ x, groupOf u g = some x ∧ x.def48 = b ∧ x.epoch = epoch ∧
        ((p.sched.tasks.all fun t => t.phase != .created && t.phase != .admitted) = true → x.seq = 0)) ∧
      (∀ k, k ≠ g → groupOf u k = groupOf p k) ∧
      (u.sched.tasks.map fun t => { t with seq := 0 }) = (p.sched.tasks.map fun t => { t with seq := 0 }) ∧
      u.out.hedge = p.out.hedge ++ parts epoch ∧
      (∀ x ∈ u.coll.musters, x.1 ≠ g) ∧ (∀ x ∈ u.coll.decided, x.1 ≠ g)
    (Executes .groupDefine d s → noCount d = true → groupBad s.holding b = false → (definedMembers s b).isEmpty = false →
      (s.isLead = true ∨ definitionOutside s b = false) → s.coll.reforming = false →
      ((groupOf s g = none ∧ (s.coll.groups.filter fun e => e.2.isSome).length < 4096) ∨
        ((groupOf s g).isSome = true ∧ groupBusy s g = false ∧ still s = true)) →
      Yields (.groupDefine d) .groupDefine d s (result 0) fun p u =>
        installed 0 p u ∧
        { u with
          coll.groups := p.coll.groups, coll.musters := p.coll.musters, coll.decided := p.coll.decided
          coll.unformed := p.coll.unformed, sched.tasks := p.sched.tasks, sheaf := p.sheaf, out := p.out } = p) ∧
    (∀ x : Group, Executes .groupReform d s → noCount d = true → groupBad s.holding b = false →
      (definedMembers s b).isEmpty = false → (s.isLead = true ∨ definitionOutside s b = false) → s.coll.reforming = false →
      groupOf s g = some x → slice b 4 9 = slice x.def48 4 9 → still s = true →
      let epoch := (x.epoch + 1) % 2 ^ 16
      Yields (.groupReform d) .groupReform d s (result epoch) fun p u =>
        installed epoch p u ∧
        { u with
          coll.groups := p.coll.groups, coll.musters := p.coll.musters, coll.decided := p.coll.decided
          coll.unformed := p.coll.unformed, sched.tasks := p.sched.tasks, host := p.host, sheaf := p.sheaf
          out := p.out } = p) ∧
    (∀ (m : ModId) (off : Nat), Executes .copyIn d s → copyRefused false d s = none → copyTarget s d = some (m, off) →
      copyInConflict m off d s = false → viaOther s d = false →
      Yields (.copyIn d) .copyIn d s .reading fun p u =>
        tget none u.host.accesses p.host.nextAccess = some (.copyIn d.ring d none) ∧
        u.out.reads = p.out.reads ++ [(p.host.nextAccess, dAt d 16 8, d.count.toNat)] ∧
        u.out.hedge = p.out.hedge ++ (if m = p.holding.moduleId ∨ dAt d 40 8 = 0 then [] else
          [(m, .orderForward (asOrder .copyIn { d with data := .ok [] } p))]) ∧
        { u with
          host.accesses := p.host.accesses, host.nextAccess := p.host.nextAccess, sheaf := p.sheaf, out := p.out
          mem.awaited := p.mem.awaited } = p) ∧
    (∀ off : Nat, Executes .copyOut d s → copyRefused true d s = none → copyTarget s d = some (s.holding.moduleId, off) →
      viaOther s d = false → seedbedIn s off d.count.toNat = false →
      Yields (.copyOut d) .copyOut d s (.done stOk (poisonedIn s off d.count.toNat).length) fun p u =>
        u.out.host = p.out.host ++ (lineParts off d.count.toNat).map (fun x =>
          (dAt d 16 8 + x.1, slice (localBytes p .plain off d.count.toNat) x.1 x.2,
            !(poisonedIn p (off + x.1) x.2).isEmpty)) ∧
        u.mem.base = p.mem.base ∧ u.mem.layers = p.mem.layers ∧ u.mem.poison = p.mem.poison ∧
        { u with mem := p.mem, counters.values := p.counters.values, out := p.out } = p) ∧
    (∀ (m : ModId) (off : Nat), Executes .copyOut d s → copyRefused true d s = none → copyTarget s d = some (m, off) →
      viaOther s d = false → m ≠ s.holding.moduleId → seedbedThere s m off d.count.toNat = false →
      ∃ tags, Yields (.copyOut d) .copyOut d s (.later (.remote true tags [])) fun p u =>
        ((u.lamio.txns.drop p.lamio.txns.length).map fun x => (x.dest, x.type, x.p.offset, x.p.len8, x.tag)) =
          (List.zip (lineParts off d.count.toNat) tags).map fun x =>
            (m, ptReadReq, BitVec.ofNat 44 (off + x.1.1), ceilDiv x.1.2 8, x.2)) ∧
    (∀ row ∈ [(Instr.copyIn, DescOp.copyIn, false), (Instr.copyOut, DescOp.copyOut, true)], ∀ (m : ModId) (off : Nat),
      Executes row.2.1 d s → copyRefused row.2.2 d s = none → copyTarget s d = some (m, off) →
      (row.2.2 = false → copyInConflict m off d s = false) → viaOther s d = true →
      s.holding.lost.contains (viaOf s d) = false →
      Yields (row.1 d) row.2.1 d s (.later (.targets [viaOf s d] stOk 0)) fun p u =>
        u.out.hedge = p.out.hedge ++ [(viaOf s d, .orderForward (asOrder row.2.1 d p))] ∧
        { u with sheaf := p.sheaf, out := p.out } = p)

/-- 16 R353 to R355: EXPORT_CONFIGURE by its operations, on the one module it reaches: a configuration, in force at once while the
module is still and at the boundary otherwise; an acknowledgement, which lets go of the records up to it; the chain base; the
decisions of a replay log. Each writes the export status to its result area. -/
def Obligations.ExportOrders : Prop :=
  ∀ (d0 : Desc) (s : State) (b : Bytes) (ms : List ModId),
    (let d := withBlockOp 0 d0
     Executes .exportConfigure d s → ExportHere 0 d (atOrderPoint .exportConfigure d s) b ms →
      let c := exportCfgOf b s.exporter.cfg
      let on := { s.exporter with cfg := c, pending := none }
      let x := if c.enable = true ∧ s.exporter.cfg.enable = false then
          { on with first := true, keyed := [], nextSeq := 1, acked := 0, produced := 0, resends := 0, waits := 0, retained := [] }
        else if c.enable = true then
          { on with retained := s.exporter.retained.map (fun r => { r with at_ := none }), produced := 0 }
        else { on with retained := [], first := true }
      (still s = true →
        Yields (.exportConfig d0) .exportConfigure d s (.done stOk x.retained.length) fun p u =>
          u.exporter = x ∧
          u.out = { p.out with host := p.out.host ++ resultWrite d ms (exportStatus u) p } ∧
          { u with exporter := p.exporter, out := p.out } = p) ∧
      (still s = false →
        Yields (.exportConfig d0) .exportConfigure d s (.done stOk s.exporter.retained.length) fun p u =>
          u.exporter = { p.exporter with pending := some c } ∧
          u.out = { p.out with host := p.out.host ++ resultWrite d ms (exportStatus u) p } ∧
          { u with exporter := p.exporter, out := p.out } = p)) ∧
    (let d := withBlockOp 1 d0
     Executes .exportConfigure d s → ExportHere 1 d (atOrderPoint .exportConfigure d s) b ms →
      s.run.modes.getD 8 false = true → field b 8 8 < s.exporter.nextSeq →
      let kept := s.exporter.retained.filter fun r => decide (max s.exporter.acked (field b 8 8) < r.seq)
      (∀ r ∈ s.exporter.retained, s.exporter.acked < r.seq) →
      Yields (.exportAcknowledge d0) .exportConfigure d s (.done stOk kept.length) fun p u =>
        u.exporter = { p.exporter with acked := max p.exporter.acked (field b 8 8), retained := kept } ∧
        u.out = { p.out with host := p.out.host ++ resultWrite d ms (exportStatus u) p } ∧
        { u with exporter := p.exporter, out := p.out } = p) ∧
    (let d := withBlockOp 2 d0
     Executes .exportConfigure d s → ExportHere 2 d (atOrderPoint .exportConfigure d s) b ms → s.run.isOn = false →
      Yields (.exportChainBase d0) .exportConfigure d s (.done stOk s.exporter.retained.length) fun p u =>
        u.exporter = { p.exporter with chain := digestBits (slice b 32 32) } ∧
        u.out = { p.out with host := p.out.host ++ resultWrite d ms (exportStatus u) p } ∧
        { u with exporter := p.exporter, out := p.out } = p) ∧
    (let d := withBlockOp 3 d0
     ∀ es, Executes .exportConfigure d s → ExportHere 3 d (atOrderPoint .exportConfigure d s) b ms → s.run.isOn = false →
      replayEntries s (field b 24 8) b.length (slice b 64 (field b 16 8)) = some es →
      Yields (.exportReplayImport d0) .exportConfigure d s (.done stOk s.exporter.retained.length) fun p u =>
        u.harrows.replay = es ∧
        u.out = { p.out with host := p.out.host ++ resultWrite d ms (exportStatus u) p } ∧
        { u with harrows.replay := p.harrows.replay, out := p.out } = p)

/-- 16 R358, 07 R147, R148, 11 R231 to R233: a SNAPSHOT writes the record of the last commit to its sink, in host memory, in this
module's memory or in a peer's; a root supplied to this module becomes its block's candidate; pages are pinned to a tier, or no
longer pinned, those that stand elsewhere being selected to move; a hint moves pages to HBM3E once and pins none; a root or a pin
for another member of the holding goes there as an order.
Readings of the model it rests on: log entries 56 and 59. -/
def Obligations.SnapshotSupplyAndPin : Prop :=
  ∀ (d : Desc) (s : State),
    (Executes .snapshot d s →
      let p := atOrderPoint .snapshot d s
      let f := dAt d 24 1
      let bs := (snapshotRecord p (bitOf f 1)).1
      let n := satTo (2 ^ 32 - 1) (snapshotRecord p (bitOf f 1)).2
      noCount d = true → bits f 2 6 = 0 → dZeroFrom d 25 = true → s.run.lastCommit.isSome = true → s.run.halt ≠ .smear →
      s.run.halt ≠ .noLead →
      (bitOf f 0 = true →
        Yields (.snapshot d) .snapshot d s (.done stOk n) fun p u =>
          u = { p with out.host := p.out.host ++ [(dAt d 16 8, bs, false)] }) ∧
      (∀ (m : ModId) (o : Nat), bitOf f 0 = false → lamioTarget p (dAt d 16 8) = some (m, o) →
        o + bs.length ≤ reservedBase p → (p.quiet = true ∨ (tensorsOn p m o bs.length).isEmpty = true) →
        (m = s.holding.moduleId →
          Yields (.snapshot d) .snapshot d s (.done stOk n) fun p u =>
            (∀ i, i < bs.length → readByte u.mem u.run.head .plain (o + i) = bs.getD i 0) ∧
            (∀ q a, a < o ∨ o + bs.length ≤ a → readByte u.mem u.run.head q a = readByte p.mem p.run.head q a) ∧
            { u with mem := p.mem, counters.values := p.counters.values } = p) ∧
        (m ≠ s.holding.moduleId →
          Yields (.snapshot d) .snapshot d s (.done stOk n) fun p u =>
            u = sendTransfer ⟨m, p.lamio.nextTag, o, none, bs⟩ { p with lamio.nextTag := p.lamio.nextTag + 1 }))) ∧
    (∀ (f : SolveForm) (b : Bytes), Executes .rootSupply d s → BitVec.ofNat 16 (dAt d 40 2) = s.holding.moduleId →
      s.run.modes.getD 4 false = true → inHolding s.holding s.holding.moduleId = true → dZeroIn d 42 6 = true →
      dZeroFrom d 56 = true → supplyForm s d = some f → d.data = .ok b → f.stat.due (dAt d 32 8) = true →
      stepCommitted s (dAt d 32 8) = true →
      let h := installedHeader s f (supplyKey d).block
      (h.state = 0 ∨ h.statStep ≤ dAt d 32 8) →
      let st := if s.run.head.toNat < (deadlineOf f (dAt d 32 8)).toNat then stOk else stDeadlineReused
      let c : Candidate :=
        { statStep := dAt d 32 8, residual := 0, state := 2, iterations := 0
          block := padTo (f.blockBytes (supplyKey d).block) b }
      Yields (.rootSupply d) .rootSupply d s (.done st 0) fun p u =>
        (∀ x, p.harrows.blocks.find? (fun x => x.key == supplyKey d) = some x →
          u.harrows.blocks.find? (fun x => x.key == supplyKey d) = some { x with candidate := some c }) ∧
        (∀ k, k ≠ supplyKey d → u.harrows.blocks.find? (fun x => x.key == k) = p.harrows.blocks.find? (fun x => x.key == k)) ∧
        { u with harrows.blocks := p.harrows.blocks } = p) ∧
    (let m : ModId := BitVec.ofNat 16 (dAt d 40 2)
     Executes .rootSupply d s → s.run.modes.getD 4 false = true → inHolding s.holding m = true → dZeroIn d 42 6 = true →
      dZeroFrom d 56 = true → m ≠ s.holding.moduleId → s.holding.lost.contains m = false →
      Yields (.rootSupply d) .rootSupply d s (.later (.targets [m] stOk 0)) fun p u =>
        u.out.hedge = p.out.hedge ++ [(m, .orderForward (asOrder .rootSupply d p))] ∧
        { u with sheaf := p.sheaf, out := p.out } = p) ∧
    (let m : ModId := BitVec.ofNat 16 (dAt d 40 2)
     Executes .placementPin d s → pinMalformed s d = false → inHolding s.holding m = true → m ≠ s.holding.moduleId →
      s.holding.lost.contains m = false →
      Yields (.placementPin d) .placementPin d s (.later (.targets [m] stOk 0)) fun p u =>
        u.out.hedge = p.out.hedge ++ [(m, .orderForward (asOrder .placementPin d p))] ∧
        { u with sheaf := p.sheaf, out := p.out } = p) ∧
    (Executes .placementPin d s → pinMalformed s d = false → BitVec.ofNat 16 (dAt d 40 2) = s.holding.moduleId →
      inHolding s.holding s.holding.moduleId = true → touchesReserved s (dAt d 16 8) (dAt d 24 8) = false →
      (dAt d 32 1 = 0 ∨ pinFits s (dAt d 32 1 == 2) (pinPages d) = true) →
      let far := dAt d 32 1 == 2
      let mid := fun (e : PageEntry) => e.state == 1 || e.state == 2
      let goes := fun (e : PageEntry) => if mid e then e.otherFar else e.far
      let moving := if dAt d 32 1 = 0 then [] else (pinPages d).filter fun q =>
        (pageOf s q).present && ((pageOf s q).far != far || mid (pageOf s q))
      let result := if moving = [] then Result.done stOk 0 else .later (.pin moving far moving.length)
      (dAt d 33 1 = 0 →
        Yields (.placementPin d) .placementPin d s result fun p u =>
          (∀ q ∈ pinPages d, pageOf u q = { pageOf p q with pin := dAt d 32 1 }) ∧
          (∀ q, q ∉ pinPages d → pageOf u q = pageOf p q) ∧
          (∀ q ∈ pinPages d, dAt d 32 1 ≠ 0 → (pageOf p q).present = true → goes (pageOf p q) ≠ far →
            ⟨q, far, 1⟩ ∈ u.mem.selected) ∧
          (∀ x ∈ u.mem.selected, x ∈ p.mem.selected ∨ (x.page ∈ moving ∧ x.toFar = far ∧ x.cause = 1)) ∧
          { u with mem.pages := p.mem.pages, mem.selected := p.mem.selected } = p) ∧
      (dAt d 33 1 = 1 → dAt d 32 1 = 1 →
        Yields (.placementPin d) .placementPin d s result fun p u =>
          (∀ q, pageOf u q = if q ∈ pinPages d ∧ mid (pageOf p q) = true ∧ (pageOf p q).otherFar = false then
            { pageOf p q with cause := if owed (pageOf p q).cause then (pageOf p q).cause else 2 } else pageOf p q) ∧
          (∀ q ∈ pinPages d, (pageOf p q).present = true → goes (pageOf p q) = true →
            ∃ x ∈ u.mem.selected, x.page = q) ∧
          (∀ x ∈ u.mem.selected, x ∈ p.mem.selected ∨ (x.page ∈ moving ∧ x.toFar = false ∧ x.cause = 2)) ∧
          { u with mem.pages := p.mem.pages, mem.selected := p.mem.selected } = p))

/-- 17 R363, R369, 15 R335, R336, 13 R280: the parameter-block orders of the counters, the sheaf and the stumbling stones, on the one
module each reaches: a counter configuration restarts its area, whose control block is written at once, and with a sampling
distance takes a first record; a read writes the counters named; a clear leaves those named
at 0, all but the injection counts when none is; arming empties the sheaf, disabling stops it; the stones are in force at once
while the module is still, and at the boundary otherwise.
Readings of the model it rests on: log entries 54 and 55. -/
def Obligations.DiagnosticOrders : Prop :=
  ∀ (d0 : Desc) (s : State) (b : Bytes) (ms : List ModId),
    (let d := withBlockOp 0 d0
     Executes .counterConfigure d s → BlockHere counterBlockOk d (atOrderPoint .counterConfigure d s) b ms → byteAt b 0 = 0 →
      Yields (.counterConfig d0) .counterConfigure d s (.done stOk 0) fun p u =>
        let cfg := sampleCfgOf b
        let fresh : Counters := { p.counters with
          cfg := cfg, nextSeq := 1, produced := 0, overwritten := 0, consumed := 0, wrapCount := 0
          wrapAt := none, records := [], lastAt := p.clock.up, lastHead := p.run.head, lastPcAt := p.clock.up }
        let control := leBytes 8 0 ++ leBytes 8 1
        (cfg.enable = false → u = { p with counters := fresh }) ∧
        (cfg.enable = true → cfg.furrow = false → cfg.host = true → u = { p with
          counters := fresh, out.host := p.out.host ++ [(cfg.base + ownRank p * cfg.stride, control, false)] }) ∧
        (cfg.enable = true → cfg.furrow = false → cfg.host = false → ∃ area,
          (∀ i, tget 0 area i = if i < 16 then control.getD i 0 else tget 0 p.counters.localArea i) ∧
          u = { p with counters := { fresh with localArea := area } }) ∧
        (cfg.enable = true → cfg.furrow = true → u.counters.cfg = cfg ∧ u.counters.nextSeq = 2 ∧
          u.counters.lastHead = p.run.head ∧ u.counters.values = p.counters.values)) ∧
    (let d := withBlockOp 1 d0
     Executes .counterConfigure d s → BlockHere counterBlockOk d (atOrderPoint .counterConfigure d s) b ms → byteAt b 0 = 1 →
      Yields (.counterReadNow d0) .counterConfigure d s (.done stOk 0) fun p u =>
        u = { p with out.host := p.out.host ++ resultWrite d ms (counterRecord p (blockIds b)) p }) ∧
    (let d := withBlockOp 2 d0
     Executes .counterConfigure d s → BlockHere counterBlockOk d (atOrderPoint .counterConfigure d s) b ms → byteAt b 0 = 2 →
      Yields (.counterClear d0) .counterConfigure d s (.done stOk 0) fun p u =>
        (∀ i, tget 0 u.counters.values i =
          if (blockIds b = [] ∧ ¬ (4 * 0x400 ≤ i ∧ i < 4 * 0x460)) ∨ i ∈ blockIds b then 0
          else tget 0 p.counters.values i) ∧
        { u with counters.values := p.counters.values } = p) ∧
    (let d := withBlockOp 3 d0
     Executes .counterConfigure d s → BlockHere counterBlockOk d (atOrderPoint .counterConfigure d s) b ms → byteAt b 0 = 3 →
      Yields (.counterStatus d0) .counterConfigure d s (.done stOk 0) fun p u =>
        u = { p with out.host := p.out.host ++ resultWrite d ms (counterStatus p) p }) ∧
    (let d := withBlockOp 0 d0
     Executes .traceConfigure d s → BlockHere traceBlockOk d (atOrderPoint .traceConfigure d s) b ms → byteAt b 0 = 0 →
      Yields (.traceConfigArm d0) .traceConfigure d s (.done stOk 0) fun p u =>
        u.sheaf.state = 1 ∧ u.sheaf.mask = BitVec.ofNat 16 (field b 2 2) ∧ u.sheaf.preEighths = byteAt b 4 ∧
        u.sheaf.triggers = bits (byteAt b 5) 0 4 ∧ u.sheaf.position = BitVec.ofNat 64 (field b 8 8) ∧
        u.sheaf.codes = (traceCodes b).filter (· != 0) ∧ u.sheaf.counter = field b 16 2 ∧ u.sheaf.threshold = BitVec.ofNat 64 (field b 24 8) ∧
        u.sheaf.writeIndex = 0 ∧ u.sheaf.lost = 0 ∧ u.sheaf.ignored = 0 ∧ { u with sheaf := p.sheaf } = p) ∧
    (let d := withBlockOp 1 d0
     Executes .traceConfigure d s → BlockHere traceBlockOk d (atOrderPoint .traceConfigure d s) b ms → byteAt b 0 = 1 →
      Yields (.traceRearm d0) .traceConfigure d s (.done stOk 0) fun p u =>
        u.sheaf.state = 1 ∧ u.sheaf.writeIndex = 0 ∧ u.sheaf.lost = 0 ∧ u.sheaf.ignored = 0 ∧
        u.sheaf.mask = p.sheaf.mask ∧ u.sheaf.triggers = p.sheaf.triggers ∧ { u with sheaf := p.sheaf } = p) ∧
    (let d := withBlockOp 2 d0
     Executes .traceConfigure d s → BlockHere traceBlockOk d (atOrderPoint .traceConfigure d s) b ms → byteAt b 0 = 2 →
      Yields (.traceDisable d0) .traceConfigure d s (.done stOk 0) fun p u => u = { p with sheaf.state := 0 }) ∧
    (let d := withBlockOp 3 d0
     Executes .traceConfigure d s → BlockHere traceBlockOk d (atOrderPoint .traceConfigure d s) b ms → byteAt b 0 = 3 →
      Yields (.traceStatus d0) .traceConfigure d s (.done stOk 0) fun p u =>
        u = { p with out.host := p.out.host ++ resultWrite d ms (sheafStatus p) p }) ∧
    (Executes .injectConfigure d0 s → BlockHere injectBlockOk d0 (atOrderPoint .injectConfigure d0 s) b ms →
      s.security.state = 1 →
      let xs := (stoneEntries b).map stoneOf
      let clears := bitOf (byteAt b 1) 0
      (still s = true →
        Yields (.injectConfigure d0) .injectConfigure d0 s (.done stOk 0) fun p u =>
          u.stones = { p.stones with
            live := xs.map (fun x => ⟨x, 0, false⟩), pending := none
            digest := if xs = [] then 0 else digestBits (sha256 b) } ∧
          u.security.meas = p.security.meas.set 3 (digestBits (sha256
            (digestBytes (p.security.meas.getD 3 0) ++ digestBytes (digestBits (sha256 b))))) ∧
          u.out = { p.out with host := p.out.host ++ resultWrite d0 ms (stoneCounts p) p } ∧
          (∀ i, tget 0 u.counters.values i =
            if clears ∧ i % 4 = 0 ∧ 4 * 0x400 ≤ i ∧ i < 4 * 0x460 then 0 else tget 0 p.counters.values i) ∧
          { u with
            stones := p.stones, counters.values := p.counters.values, security.meas := p.security.meas
            out := p.out } = p) ∧
      (still s = false →
        Yields (.injectConfigure d0) .injectConfigure d0 s (.done stOk 0) fun p u =>
          u = { p with
            stones.pending := some (xs, digestBits (sha256 b), clears)
            out.host := p.out.host ++ resultWrite d0 ms (stoneCounts p) p }))

/-- 18 R384 to R387: GET_IDENTITY and CHALLENGE on the DOE mailbox or the management port: the response is made at once and sent when
the clock next moves on; a second request on a transport before the response has error 2; without main power, or without the host
link on the mailbox, nothing answers. An ATTEST descriptor has its response at its result area. A request that is too short, or of
another code, length or reserved byte, has error 1; one of another version error 3; one before the identity key is valid error 4.
An identity is the die's key and the certificate chain; a report names the module, its state, the nonce, the measurements, the step
and the head, and its signature follows it.
Readings of the model it rests on: log entries 10 and 53. -/
def Obligations.AttestationCommands : Prop :=
  (∀ (s : State) (req : Bytes),
    ∀ row ∈ [(Instr.getIdentity, sahithIdentity), (Instr.challenge, sahithChallenge)],
      (∀ way ∈ [(Transport.doe, 0), (Transport.mctp, 1)], s.power.pwrGood = true →
        (way.2 = 0 → s.power.linkUp = true) →
        ((s.security.busy.any fun b => b.1 == way.2) = false →
          exec (row.1 way.1 req) s = .next { s with
            security.busy := s.security.busy ++ [(way.2, sahithResponse row.2 req s)] }) ∧
        ((s.security.busy.any fun b => b.1 == way.2) = true →
          exec (row.1 way.1 req) s = .next { s with out.sahith := s.out.sahith ++ [(way.2, sahithError 2)] })) ∧
      (s.power.pwrGood = false → exec (row.1 .doe req) s = .next s ∧ exec (row.1 .mctp req) s = .next s) ∧
      (s.power.linkUp = false → exec (row.1 .doe req) s = .next s) ∧
      (∀ (d0 : Desc) (b : Bytes) (ms : List ModId),
        let d := { d0 with data := HostData.ok req }
        Executes .attest d s → BlockHere (fun _ => true) d (atOrderPoint .attest d s) b ms →
        Yields (row.1 (.attest d0) req) .attest d s (.done stOk (sahithAny b s).length) fun p u =>
          u = { p with out.host := p.out.host ++ resultWrite d ms (sahithAny b s) p })) ∧
  (∀ s : State, s.pending = [] → ∃ t, Machine.step s = .next t ∧ t.security.busy = [] ∧
    t.out.sahith = s.out.sahith ++ s.security.busy) ∧
  (∀ (s : State) (req : Bytes) (code : Nat), code = sahithIdentity ∨ code = sahithChallenge →
    let want := if code = sahithChallenge then 32 else 0
    let formed := byteAt req 1 = code ∧ zeroAt req 2 2 = true ∧ field req 4 4 = want ∧ req.length = 8 + want
    (req.length < 8 → sahithResponse code req s = sahithError 1) ∧
    (8 ≤ req.length → byteAt req 0 ≠ 1 → sahithResponse code req s = sahithError 3) ∧
    (8 ≤ req.length → byteAt req 0 = 1 → ¬ formed → sahithResponse code req s = sahithError 1) ∧
    (byteAt req 0 = 1 → formed → s.security.identityValid = false → sahithResponse code req s = sahithError 4) ∧
    (byteAt req 0 = 1 → formed → s.security.identityValid = true → code = sahithIdentity →
      sahithResponse code req s = sahithMessage 0x81 (padTo 32 s.flash.dieKey ++ s.flash.record.certChain)) ∧
    (byteAt req 0 = 1 → formed → s.security.identityValid = true → code = sahithChallenge → s.security.meas.length = 8 →
      ∃ report sig, sahithResponse code req s = report ++ sig ∧ report.length = 448 ∧ sig.length = 7856 ∧
        report.take 8 = [1, 0x82, 0, 0] ++ leBytes 4 8296 ∧
        field report 8 2 = s.holding.moduleId.toNat ∧ field report 10 2 = s.holding.number.toNat ∧
        byteAt report 12 = s.security.state % 256 ∧ byteAt report 13 = s.security.pending % 256 ∧
        slice report 16 32 = slice req 8 32 ∧
        (∀ i, i < 8 → slice report (48 + 32 * i) 32 = digestBytes (s.security.meas.getD i 0)) ∧
        slice report 304 32 = digestBytes s.stones.digest ∧
        field report 336 8 = (attestedStep s).getD 0 % 2 ^ 64 ∧ field report 408 8 = s.run.head.toNat ∧
        (∀ i, i < 7856 → sig.getD i 0 = Config.signatureByte s.flash.pufSeed report i)))
/-! ### Sampling and the sheaf -/

/-- 17 R364, R365, R370, R371, R373: a counter record or a batch of program counters that is due is written to the local area or to
the host's at its place in the ring, going on at the ring's start, and counted, with the control block after it; suspended records
are counted only; what is not due changes nothing; the threshold trigger fires once, and one of a speculative counter is held while
a seedbed is open; a triggered ring freezes once the entries after its trigger are written, and the event is raised.
Readings of the model it rests on: log entry 54. -/
def Obligations.SamplingRows : Prop :=
  ∀ (s : State) (consumed : W64) (seen : List PcSeen),
    let c := s.counters
    let o := c.produced % c.cfg.size
    let area := c.cfg.base + ownRank s * c.cfg.stride
    let due := if c.cfg.furrow then distanceReached s.run.head c.lastHead c.cfg.interval
      else decide (c.lastAt + c.cfg.interval ≤ s.clock.up)
    let duePc := c.cfg.pc && decide (c.lastPcAt + us c.cfg.pcInterval ≤ s.clock.up)
    let control := fun (bs : Bytes) => leBytes 8 (c.produced + bs.length) ++ leBytes 8 (c.nextSeq + 1)
    let written := fun (bs : Bytes) (u : State) =>
      (c.cfg.host = false →
        (∀ i, i < bs.length → tget 0 u.counters.localArea (4096 + (o + i) % c.cfg.size) = bs.getD i 0) ∧
        (∀ i, i < 16 → tget 0 u.counters.localArea i = (control bs).getD i 0)) ∧
      (c.cfg.host = true → u.counters.localArea = c.localArea ∧ ∃ more, u.out.host = s.out.host ++
        [(area + 4096 + o, bs.take (c.cfg.size - o), false)] ++
        (if bs.length ≤ c.cfg.size - o then [] else [(area + 4096, bs.drop (c.cfg.size - o), false)]) ++
        [(area, control bs, false)] ++ more) ∧
      u.counters.nextSeq = c.nextSeq + 1 ∧ u.counters.produced = c.produced + bs.length ∧
      u.counters.values = c.values ∧ u.counters.cfg = c.cfg ∧
      { u with counters := s.counters, host := s.host, sheaf := s.sheaf, out := s.out } = s
    let reachable := c.cfg.host = true → c.suspended = false ∧ (s.holding.isMaster = true → s.power.linkUp = true)
    (c.cfg.enable = true → due = true → reachable → (counterRecord s c.cfg.ids).length ≤ c.cfg.size →
      ∃ u, exec (.counterSample consumed) s = .next u ∧ u.counters.lastAt = s.clock.up ∧ u.counters.lastHead = s.run.head ∧
        written (counterRecord s c.cfg.ids) u) ∧
    (c.cfg.enable = true → due = true → c.cfg.host = true → c.suspended = true →
      exec (.counterSample consumed) s = .next { s with counters := { c with
        consumed := consumed.toNat, lastAt := s.clock.up, lastHead := s.run.head
        nextSeq := c.nextSeq + 1, overwritten := c.overwritten + 1 } }) ∧
    ((c.cfg.enable = false ∨ due = false) → exec (.counterSample consumed) s = .next s) ∧
    (c.cfg.enable = true → duePc = true → reachable → (pcRecord s seen).length ≤ c.cfg.size →
      ∃ u, exec (.pcSample seen consumed) s = .next u ∧ u.counters.lastPcAt = s.clock.up ∧ written (pcRecord s seen) u) ∧
    (c.cfg.enable = true → duePc = true → c.cfg.host = true → c.suspended = true →
      exec (.pcSample seen consumed) s = .next { s with counters := { c with
        consumed := consumed.toNat, lastPcAt := s.clock.up, nextSeq := c.nextSeq + 1, overwritten := c.overwritten + 1 } }) ∧
    ((c.cfg.enable = false ∨ duePc = false) → exec (.pcSample seen consumed) s = .next s) ∧
    (s.sheaf.counterHit = false → s.sheaf.triggers.testBit 3 = true →
      s.sheaf.threshold.toNat ≤ counterValue s s.sheaf.counter → (s.sheaf.counter % 4 = 1 → s.run.seedbedOpen = false) →
      (s.sheaf.state = 1 → exec .sheafThresholdTest s = .next { s with sheaf := { s.sheaf with
        counterHit := true, state := 2
        triggerIndex := if s.sheaf.writeIndex = 0 then (Config.noEntryIndex 0).toNat else s.sheaf.writeIndex - 1
        freezeAt := s.sheaf.writeIndex + sheafEntries * (8 - s.sheaf.preEighths) / 8
        cause := (3, s.sheaf.counter) } }) ∧
      (2 ≤ s.sheaf.state → exec .sheafThresholdTest s = .next { s with sheaf := { s.sheaf with
        counterHit := true, ignored := s.sheaf.ignored + 1 } })) ∧
    (s.sheaf.counterHit = false → s.sheaf.triggers.testBit 3 = true → s.sheaf.state ≠ 0 →
      s.sheaf.threshold.toNat ≤ counterValue s s.sheaf.counter → s.sheaf.counter % 4 = 1 → s.run.seedbedOpen = true →
      exec .sheafThresholdTest s = .next { s with sheaf := { s.sheaf with
        counterHit := true, held := s.sheaf.held ++ [(3, s.sheaf.counter)] } }) ∧
    ((counterValue s s.sheaf.counter < s.sheaf.threshold.toNat ∨ s.sheaf.counterHit = true ∨ s.sheaf.state = 0 ∨
      s.sheaf.triggers.testBit 3 = false) → exec .sheafThresholdTest s = .next s) ∧
    (s.sheaf.state = 2 → s.sheaf.freezeAt ≤ s.sheaf.writeIndex →
      ∃ t, exec .sheafFreeze s = .next t ∧ t.sheaf.state = 3 ∧ t.sheaf.freezeIndex = s.sheaf.writeIndex ∧
        t.sheaf.ring = s.sheaf.ring ∧
        Announces s t evTraceFrozen (pack [(4, s.sheaf.cause.1), (12, 0), (16, s.sheaf.cause.2), (32, s.sheaf.triggerIndex)]) ∧
        { t with host := s.host, sheaf := s.sheaf, out := s.out } = s) ∧
    ((s.sheaf.writeIndex < s.sheaf.freezeAt ∨ s.sheaf.state ≠ 2) → exec .sheafFreeze s = .next s)

/-! ### The furrow, the clock and stops -/

/-- 02 R30: a wait of a furrow distance from a position expires when its head reaches their unsigned 64-bit sum, and never
where the sum overflows; a step is the distance 0x1000_0000 and a layer slot 0x1000. So for the counter samples taken by distance
and for the distance bound of the vote. -/
def Obligations.FurrowDistances : Prop :=
  (∀ (head p : Pos) (d : Nat), distanceReached head p d = true ↔ p.toNat + d < 2 ^ 64 ∧ p.toNat + d ≤ head.toNat) ∧
  (∀ n pass slot : Nat, n + 1 < 2 ^ 36 → pass < 8 → slot + 1 < 2 ^ 13 →
     (posOf (n + 1) pass slot).toNat = (posOf n pass slot).toNat + 0x10000000 ∧
     (posOf n pass (slot + 1)).toNat = (posOf n pass slot).toNat + 0x1000) ∧
  (∀ (s : State) (consumed : W64), s.counters.cfg.enable = true → s.counters.cfg.furrow = true →
     (2 ^ 64 ≤ s.counters.lastHead.toNat + s.counters.cfg.interval ∨
       s.run.head.toNat < s.counters.lastHead.toNat + s.counters.cfg.interval) →
     exec (.counterSample consumed) s = .next s) ∧
  (∀ (s : State) (n : Nat), (voteBounds s n).testBit 1 = true ↔ s.tmo.voteDistance ≠ 0 ∧
     (posOf n passC 0).toNat ≤ s.run.head.toNat ∧ ∃ p, s.run.seedbedHead = some p ∧
     (posOf (n + 1) passF 0).toNat + s.tmo.voteDistance.toNat < 2 ^ 64 ∧
     (posOf (n + 1) passF 0).toNat + s.tmo.voteDistance.toNat ≤ p.toNat)

/-- 02 R26, R28, R33, R34, R36 to R38, 15 R330: a module's copy of the furrow head only increases; a front report replaces that
module's last; FURROW_STALL is raised once for each stall; the timestamp is slewed to the lead's and never goes backward; an
immediate stop halts a module of the run, one at the cut of a stop that is not yet complete too, a scheduled one is pending at the
lower target; the lead master asked for a stop orders it of every module; a module that has reached the cut stands there and
tells the lead master.
Readings of the model it rests on: log entries 63 and 88. -/
def Obligations.FurrowMessages : Prop :=
  ∀ s : State,
    (∀ p : Pos, s.isLead = false → s.moving = true →
      ∃ u, exec (.furrowHead p) s = .next (advance u) ∧
        u.run.head = (if s.run.head.toNat < p.toNat then p else s.run.head) ∧
        u.mem.base = s.mem.base ∧ u.mem.layers = s.mem.layers ∧ u.votes = s.votes) ∧
    (∀ p : Pos, (s.moving = false ∨ s.isLead = true) → exec (.furrowHead p) s = .next s) ∧
    (∀ (m : ModId) (f b : Pos) (low : W32), s.run.isOn = true → m ≠ s.holding.moduleId →
      ∃ u, exec (.localFront m f b low) s = .next (advance u) ∧
        u.run.fronts = (s.run.fronts.filter fun e => e.1 != m) ++ [(m, f, b, low)] ∧
        { u with run.fronts := s.run.fronts, holding.lastHedge := s.holding.lastHedge, sheaf := s.sheaf } = s) ∧
    (s.isLead = true → s.moving = true → s.run.stallRaised = false → s.run.headAt + ms s.tmo.stall.toNat ≤ s.clock.up →
      let task := ((s.run.fronts.find? fun e => e.1 == lowestFront s).map (·.2.2.2)).getD (BitVec.allOnes 32)
      ∃ t, exec .furrowStall s = .next t ∧ t.run.stallRaised = true ∧
        Announces s t evFurrowStall (pack [(16, (lowestFront s).toNat), (32, task.toNat)]) ∧
        { t with run.stallRaised := s.run.stallRaised, host := s.host, sheaf := s.sheaf, out := s.out } = s) ∧
    ((s.run.stallRaised = true ∨ s.isLead = false ∨ s.clock.up < s.run.headAt + ms s.tmo.stall.toNat) →
      exec .furrowStall s = .next s) ∧
    (∀ lead : W64, s.assigned = true → s.isLead = false →
      ∃ t, exec (.timestampSync lead) s = .next t ∧
        t.clock = { s.clock with offset := (lead.toNat : Int) - (s.clock.now : Int) } ∧
        { t with clock := s.clock, holding.lastHedge := s.holding.lastHedge, sheaf := s.sheaf } = s) ∧
    (∀ lead : W64, (s.assigned = false ∨ s.isLead = true) → exec (.timestampSync lead) s = .next s) ∧
    (s.pending = [] → ∃ t, Machine.step s = .next t ∧ t.clock.up = s.clock.up + 1 ∧ s.clock.now ≤ t.clock.now) ∧
    (∀ m : StopMsg, s.run.isOn = true → s.isLead = false →
      (m.scheduled = false → (s.run.halt = .running ∨ (s.run.halt = .cut ∧ s.run.stopMap.isSome = true)) →
        ∃ u, exec (.hedgeStop m) s = .next (advance u) ∧ u.run.halt = .smear ∧ u.run.stop = none ∧
          u.coll.live = [] ∧ (u.lamio.txns.all fun t => t.task.isNone) = true ∧ u.votes = s.votes) ∧
      (m.scheduled = true → s.run.halt = .running → (s.sched.tasks.any fun x => x.seedbed) = false →
        ∃ u, exec (.hedgeStop m) s = .next (advance u) ∧ u.run.halt = .running ∧ u.mem = s.mem ∧ u.votes = s.votes ∧
          u.run.stop = some (match s.run.stop with
            | some o => if o.scheduled ∧ o.target.toNat < m.target.toNat then o else m
            | none => m))) ∧
    (∀ m : StopMsg, s.isLead = true → s.run.halt = .running → m.scheduled = false →
      ∃ u, exec (.hedgeStop m) s = .next (advance u) ∧ u.run.halt = .smear ∧ u.run.holdResume = true ∧
        (everyone, Hedge.stop m) ∈ u.out.hedge) ∧
    (∀ m : StopMsg, s.run.isOn = false → exec (.hedgeStop m) s = .next s) ∧
    (cutReached s = true →
      ∃ u, exec .stopCutReached s = .next (advance u) ∧ u.run.halt = .cut ∧ u.run.head = s.run.head ∧
        (∀ b ∈ u.harrows.blocks, b.record.status ≠ 2) ∧
        (s.isLead = false → (leadId s, Hedge.agreement agreeStop (commitWord s) s.run.head) ∈ u.out.hedge) ∧
        { u with run := s.run, harrows.blocks := s.harrows.blocks, host := s.host, sheaf := s.sheaf, out := s.out } = s) ∧
    (cutReached s = false → exec .stopCutReached s = .next s)

/-! ### Heartbeats, loss, agreements, orders of others -/

/-- 15 R328, 13 R285, R289, 10 R196, 14 R298, 15 R318, R319: heartbeats sent and kept; a watched module silent for HEARTBEAT_LOSS
is declared lost, unless the watcher is itself cut off and isolates itself, as one does that learns that it has been declared lost;
the events of members wait at their master or are written to its event ring; a group definition in three parts is applied and
acknowledged, one that does not fit is not; agreements are counted; an agreement that is late asks the lead master for a stop; an
order of another module is held by the lead master, or applied.
Readings of the model it rests on: log entries 15, 36, 47, 62 and 63. -/
def Obligations.HoldingMessages : Prop :=
  ∀ s : State,
    (s.ready = true → s.assigned = true → s.holding.isolated = false →
      let sent := s.out.hedge ++ ((everyone, .heartbeat s.sched.pubCount) ::
        if s.isLead then [(everyone, .timestampSync (BitVec.ofNat 64 s.clock.now))] else [])
      (cutOff s = false → ∃ t, exec .heartbeatTick s = .next t ∧ t.holding.lastBeat = s.clock.up ∧ t.out.hedge = sent ∧
        { t with holding.lastBeat := s.holding.lastBeat, sheaf := s.sheaf, out := s.out } = s) ∧
      (cutOff s = true → ∃ t, exec .heartbeatTick s = .next t ∧ t.holding.isolated = true ∧ sent <+: t.out.hedge ∧
        (everyone, Hedge.memberLost s.holding.moduleId 2 s.run.head) ∈ t.out.hedge)) ∧
    ((s.ready = false ∨ s.assigned = false ∨ s.holding.isolated = true) → exec .heartbeatTick s = .next s) ∧
    (∀ (m : ModId) (n : Nat), ∃ t since, exec (.heartbeat m n) s = .next t ∧
      t.holding.beats = (s.holding.beats.filter fun b => b.1 != m) ++ [(m, s.clock.up, n, since)] ∧
      (since = match s.holding.beats.find? (fun b => b.1 == m) with
        | some x => if x.2.2.1 = n then x.2.2.2 else s.clock.up
        | none => s.clock.up) ∧
      { t with holding.beats := s.holding.beats, holding.lastHedge := s.holding.lastHedge, sheaf := s.sheaf } = s) ∧
    (∀ m : ModId, watches s m = true → s.holding.isolated = false → m ∉ s.holding.lost →
      silentSince s (lastBeatOf s m) = true →
      (cutOff s = false → ∃ u, exec (.heartbeatLoss m) s = .next (advance u) ∧ m ∈ u.holding.lost ∧
        (everyone, Hedge.memberLost m 0 s.run.head) ∈ u.out.hedge ∧
        Announces s u evMemberLost (pack [(16, m.toNat), (2, 0), (14, 0), (16, s.holding.moduleId.toNat)])) ∧
      (cutOff s = true → ∃ u, exec (.heartbeatLoss m) s = .next (advance u) ∧ u.holding.isolated = true ∧
        (everyone, Hedge.memberLost s.holding.moduleId 2 s.run.head) ∈ u.out.hedge)) ∧
    (∀ m : ModId, (silentSince s (lastBeatOf s m) = false ∨ watches s m = false ∨ m ∈ s.holding.lost) →
      exec (.heartbeatLoss m) s = .next s) ∧
    (∀ (src m : ModId) (cause : Nat) (head : Pos), s.assigned = true → posMalformed head = false → cause ≤ 2 →
      (m ≠ s.holding.moduleId → ∃ u, exec (.hedgeMemberLost src m cause head) s = .next (advance u) ∧
        m ∈ u.holding.lost) ∧
      (m = s.holding.moduleId → src ≠ m → s.holding.isolated = false →
        ∃ u, exec (.hedgeMemberLost src m cause head) s = .next (advance u) ∧ u.holding.isolated = true ∧
          (everyone, Hedge.memberLost m 2 s.run.head) ∈ u.out.hedge ∧
          (∀ l ∈ u.mem.layers, ∀ k, l.tag ≠ .staged k) ∧ u.mem.base = s.mem.base)) ∧
    (∀ (m : ModId) (code : W16) (p : Pos) (ts detail : W64),
      (s.holding.isMaster = true → s.host.ctx.eventEnable = false →
        ∃ t, exec (.hedgeEvent m code p ts detail) s = .next t ∧
          t.host.evWaiting = s.host.evWaiting ++ [(code, m, p, ts, detail)] ∧
          { t with host.evWaiting := s.host.evWaiting, holding.lastHedge := s.holding.lastHedge, sheaf := s.sheaf } = s) ∧
      (s.holding.isMaster = true → s.host.ctx.eventEnable = true → s.power.linkUp = true →
        (s.host.evPosted - s.host.evConsumer).toNat < 2 ^ s.host.ctx.eventSizeLog2.toNat →
        let i := s.host.evPosted.toNat
        let log2 := s.host.ctx.eventSizeLog2.toNat
        ∃ t, exec (.hedgeEvent m code p ts detail) s = .next t ∧ t.host.evPosted = s.host.evPosted + 1 ∧
          t.out.host = s.out.host ++ [(s.host.ctx.eventBase.toNat / 4096 * 4096 + 32 * (i % 2 ^ log2),
            leBytes 2 code.toNat ++ leBytes 1 (ringPhase log2 i + 2 * b2n s.host.evLostFlag) ++ [0] ++
              leBytes 2 m.toNat ++ [0, 0] ++ leBytes 8 p.toNat ++ leBytes 8 ts.toNat ++ leBytes 8 detail.toNat, false)] ∧
          { t with host := s.host, holding.lastHedge := s.holding.lastHedge, sheaf := s.sheaf, out := s.out } = s) ∧
      (s.holding.isMaster = false → ∃ t, exec (.hedgeEvent m code p ts detail) s = .next t ∧
        { t with holding.lastHedge := s.holding.lastHedge, sheaf := s.sheaf } = s)) ∧
    (∀ (src : ModId) (epoch : Nat) (a b c : Bytes), s.assigned = true → epoch < 2 ^ 16 →
      s.coll.parts = [(src, epoch, 0, a), (src, epoch, 1, b)] → s.coll.reforming = false →
      let d := a ++ b ++ padTo 16 c
      (definitionFits s (field d 0 2) = true →
        ∃ u, exec (.groupDefinition src 2 epoch c) s = .next (advance u) ∧ u.coll.parts = [] ∧
          (∃ x, groupOf u (field d 0 2) = some x ∧ x.def48 = d ∧ x.epoch = epoch) ∧
          (∀ g, g ≠ field d 0 2 → groupOf u g = groupOf s g) ∧
          u.out.hedge = s.out.hedge ++
            [(src, .agreement agreeGroup (BitVec.ofNat 64 (field d 0 2)) (BitVec.ofNat 64 epoch))] ∧
          (u.sched.tasks.map fun t => { t with seq := 0 }) = (s.sched.tasks.map fun t => { t with seq := 0 }) ∧
          { u with
            coll := s.coll, sched.tasks := s.sched.tasks, holding.lastHedge := s.holding.lastHedge, sheaf := s.sheaf
            out := s.out } = s) ∧
      (definitionFits s (field d 0 2) = false →
        ∃ u, exec (.groupDefinition src 2 epoch c) s = .next (advance u) ∧ u.coll.parts = [] ∧
          { u with coll.parts := s.coll.parts, holding.lastHedge := s.holding.lastHedge, sheaf := s.sheaf } = s)) ∧
    (∀ (src : ModId) (part epoch : Nat) (a : Bytes), s.assigned = true → part < 3 → epoch < 2 ^ 16 → s.coll.parts = [] →
      ∃ u, exec (.groupDefinition src part epoch a) s = .next (advance u) ∧
        u.coll.parts = [(src, epoch, part, padTo 16 a)] ∧
        { u with coll.parts := s.coll.parts, holding.lastHedge := s.holding.lastHedge, sheaf := s.sheaf } = s) ∧
    (∀ (src : ModId) (ident pos : W64),
      (s.isLead = true → ∃ u, exec (.agreementAck src agreeHold ident pos) s = .next (advance u) ∧ u.run.holdResume = true ∧
        { u with run.holdResume := s.run.holdResume, holding.lastHedge := s.holding.lastHedge, sheaf := s.sheaf } = s) ∧
      (s.run.isOn = true → ∃ u, exec (.agreementAck src agreeStop ident pos) s = .next (advance u) ∧ src ∈ u.run.stopAcks ∧
        { u with run := s.run, host := s.host, holding.lastHedge := s.holding.lastHedge, sheaf := s.sheaf, out := s.out } = s) ∧
      (s.isLead = true → ident.toNat = s.run.rollTo.getD (stepOf s.run.head) →
        ∃ u, exec (.agreementAck src agreeDiscard ident pos) s = .next (advance u) ∧ src ∈ u.run.discardAcks ∧
          { u with run := s.run, host := s.host, holding.lastHedge := s.holding.lastHedge, sheaf := s.sheaf, out := s.out } = s) ∧
      (∃ u, exec (.agreementAck src agreeReform ident pos) s = .next (advance u) ∧ src ∈ u.coll.reformAcks ∧
        { u with coll.reformAcks := s.coll.reformAcks, holding.lastHedge := s.holding.lastHedge, sheaf := s.sheaf } = s) ∧
      (src ∉ s.holding.restoring → ∃ u, exec (.agreementAck src agreeRestore ident pos) s = .next (advance u) ∧
        u.holding.lost = s.holding.lost.filter (· != src) ∧
        { u with holding := s.holding, sheaf := s.sheaf } = s) ∧
      (∀ (j : Job) (more : List ModId), s.run.jobs = [j] → src ∉ more →
        j.kind = .group ident.toNat pos.toNat (src :: more) →
        ∃ u, exec (.agreementAck src agreeGroup ident pos) s = .next (advance u) ∧
          u.run.jobs = (if more = [] then [] else [{ j with kind := .group ident.toNat pos.toNat more }]) ∧
          { u with
            run.jobs := s.run.jobs, host := s.host, holding.lastHedge := s.holding.lastHedge, sheaf := s.sheaf
            out := s.out } = s) ∧
      (∀ (j : Job) (more : List ModId) (st dt : Nat), s.run.jobs = [j] → resultIdent j.d = ident →
        j.kind = .targets (src :: more) st dt → src ∉ more →
        let first := if st = stOk then bits pos.toNat 0 8 else st
        ∃ u, exec (.agreementAck src agreeResult ident pos) s = .next (advance u) ∧
          u.run.jobs = (if more = [] then [] else
            [{ j with kind := .targets more first (satTo (2 ^ 32 - 1) (dt + bits pos.toNat 8 32)) }]) ∧
          { u with
            run.jobs := s.run.jobs, host := s.host, holding.lastHedge := s.holding.lastHedge, sheaf := s.sheaf
            out := s.out } = s)) ∧
    (∀ kind : Nat, agreementLate s kind = true → s.run.isOn = true → kind ≠ agreeGroup →
      (s.isLead = false → ∃ u, exec (.hedgeTimeout kind) s = .next (advance u) ∧
        u.out.hedge = s.out.hedge ++ [(leadId s, .stop ⟨false, 0, 2, 0⟩)] ∧
        { u with sheaf := s.sheaf, out := s.out } = s) ∧
      (s.isLead = true → s.run.halt ≠ .running → exec (.hedgeTimeout kind) s = .next (advance { s with run.holdResume := true })) ∧
      (s.isLead = true → s.run.halt = .running → ∃ u, exec (.hedgeTimeout kind) s = .next (advance u) ∧
        u.run.holdResume = true ∧ u.run.halt = .smear ∧ (everyone, Hedge.stop ⟨false, 0, 2, 0⟩) ∈ u.out.hedge)) ∧
    (agreementLate s agreeGroup = true →
      ∃ u, exec (.hedgeTimeout agreeGroup) s = .next (advance u) ∧
        (∀ j ∈ u.run.jobs, ∀ g e ms, j.kind ≠ .group g e ms) ∧
        (s.run.isOn = true → s.isLead = false → (leadId s, Hedge.stop ⟨false, 0, 2, 0⟩) ∈ u.out.hedge)) ∧
    (∀ kind : Nat, agreementLate s kind = false → exec (.hedgeTimeout kind) s = .next s) ∧
    (∀ o : FwdOrder, s.assigned = true → o.op ≠ .runBegin → forLead s o = true →
      ∃ u, exec (.orderForward o) s = .next (advance u) ∧ u.run.held = s.run.held ++ [⟨o, s.clock.up⟩] ∧
        { u with run.held := s.run.held, holding.lastHedge := s.holding.lastHedge, sheaf := s.sheaf } = s) ∧
    (∀ o : FwdOrder, s.assigned = true → o.source ≠ s.holding.moduleId → s.isLead = false → orderForMe o s = true →
      (o.op = .modeSet → ∃ u, exec (.orderForward o) s = .next (advance u) ∧
        u.run.pendingModes = s.run.pendingModes ++ [(dAt o.desc 16 1, dAt o.desc 17 1 == 1)] ∧
        { u with run.pendingModes := s.run.pendingModes, holding.lastHedge := s.holding.lastHedge, sheaf := s.sheaf } = s) ∧
      (o.op = .furrowAdvance → ∀ l : Pos, s.run.advanceLimit = some l →
        let t : Pos := BitVec.ofNat 64 (dAt o.desc 16 8)
        ∃ u, exec (.orderForward o) s = .next (advance u) ∧
          u.run.advanceLimit = some (if l.toNat < t.toNat then t else l) ∧
          { u with run.advanceLimit := s.run.advanceLimit, holding.lastHedge := s.holding.lastHedge, sheaf := s.sheaf } = s) ∧
      (o.op = .resume → s.holding.isolated = false → s.run.halt = .cut →
        ∃ u, exec (.orderForward o) s = .next (advance u) ∧ u.run.halt = .running ∧ u.run.stop = none ∧
          { u with
            run.halt := s.run.halt, run.stop := s.run.stop, harrows.blocks := s.harrows.blocks
            holding.lastHedge := s.holding.lastHedge, sheaf := s.sheaf } = s))

/-! ### The vote -/

/-- 09 R174, R175, R177, R178, R180 to R182, 02 R42: contributions gather at the lead master; another holding's master passes the
reduction of its holding up; a complete reduction decides and is broadcast, or in host-assisted vote mode goes to the host; COMMIT
makes the staged bytes of the step the memory's; SKIP drops them and the next step's vote opens; RETRY keeps the step open and the
memory as it was; an expired bound decides RETRY, or is reported to the lead master; the run resumes at the step after the last
committed one; a module that has ended its local U stream contributes.
Readings of the model it rests on: log entries 15, 23, 27 and 51. -/
def Obligations.VoteRows : Prop :=
  ∀ s : State,
    (∀ (m : ModId) (n : Nat) (w : VoteWord), s.holding.isMaster = true → s.votes.openStep = some n →
      s.votes.decided = none → s.votes.outcome = none →
      let got := { s with votes.received := (s.votes.received.filter fun c => c.1 != m) ++ [(m, w)] }
      (s.isLead = true → reductionComplete got = false → ∃ u, exec (.voteContribution m n w) s = .next (advance u) ∧
        u.votes.received = got.votes.received ∧
        { u with votes.received := s.votes.received, holding.lastHedge := s.holding.lastHedge, sheaf := s.sheaf } = s) ∧
      (s.isLead = true → reductionComplete got = true → s.run.halt = .running → s.run.modes.getD 5 false = false →
        let vote := voteRecord n (decideOutcome (reducedWord got).bits) false false got
        ∃ u, exec (.voteContribution m n w) s = .next (advance u) ∧ (u.votes.ring.any fun e => e.2.1 == vote) = true ∧
          (everyone, Hedge.voteOutcome vote) ∈ u.out.hedge) ∧
      (s.isLead = true → reductionComplete got = true → s.run.halt = .running → s.run.modes.getD 5 false = true →
        s.power.linkUp = true →
        let vote := voteRecord n (decideOutcome (reducedWord got).bits) false false got
        let bs := voteRecordBytes vote (attemptOf s n)
        let at_ := s.holding.voteReport.toNat / 64 * 64
        ∃ u, exec (.voteContribution m n w) s = .next (advance u) ∧
          u.out.host = s.out.host ++ [(at_ + 8, bs.drop 8, false), (at_, bs.take 8, false)] ∧
          u.votes.received = got.votes.received ∧
          { u with
            votes.received := s.votes.received, holding.lastHedge := s.holding.lastHedge, sheaf := s.sheaf
            out := s.out } = s) ∧
      (s.isLead = false → ∃ u, exec (.voteContribution m n w) s = .next (advance u) ∧
        u.votes.received = got.votes.received ∧
        u.out.hedge = s.out.hedge ++ (if holdingReduced got then
          [(leadId s, .voteContribution s.holding.moduleId n (reducedWord got))] else []) ∧
        { u with
          votes.received := s.votes.received, holding.lastHedge := s.holding.lastHedge, sheaf := s.sheaf
          out := s.out } = s)) ∧
    (∀ (m : ModId) (n : Nat) (w : VoteWord),
      (s.holding.isMaster = false ∨ s.votes.openStep ≠ some n ∨ s.votes.decided.isSome = true ∨ s.votes.outcome.isSome = true) →
      ∃ u, exec (.voteContribution m n w) s = .next (advance u) ∧
        { u with holding.lastHedge := s.holding.lastHedge, sheaf := s.sheaf } = s) ∧
    (∀ v : VoteMsg, s.isLead = false → s.votes.openStep = some v.step → s.votes.outcome = none →
      (v.outcome = outCommit → s.moving = true → committed s v.step = false →
        ∃ u, exec (.voteOutcome v) s = .next (advance u) ∧ u.run.lastCommit = some v.step ∧
          u.votes.openStep = some (v.step + 1) ∧ (u.votes.commits.head?).map (·.step) = some v.step ∧
          (∀ cells : Cells, s.mem.layers = [⟨.staged v.step, cells⟩] → s.harrows.blocks = [] →
            (∀ a, tget 0 u.mem.base a = (cellAt cells a).getD (tget 0 s.mem.base a)) ∧ u.mem.layers = [])) ∧
      (v.outcome = outSkip → s.moving = true → s.run.pendingModes = [] →
        ∃ u, exec (.voteOutcome v) s = .next (advance u) ∧ u.run.lastCommit = s.run.lastCommit ∧
          u.run.finished = some v.step ∧ u.votes.openStep = some (v.step + 1) ∧ u.mem.base = s.mem.base ∧
          (∀ l ∈ u.mem.layers, ∀ k, l.tag ≠ .staged k)) ∧
      (v.outcome = outRetry → (s.moving = true ∨ s.run.halt = .smear) →
        ∃ u, exec (.voteOutcome v) s = .next (advance u) ∧ u.run.lastCommit = s.run.lastCommit ∧
          u.votes.outcome = some (v.step, outRetry) ∧ u.votes.openStep = some v.step ∧ u.mem.base = s.mem.base ∧
          u.mem.layers = s.mem.layers ∧
          Announces s u evVoteRetry (pack [(16, v.bits.toNat), (36, v.step), (1, b2n v.timedOut), (1, b2n v.supplied)]))) ∧
    (∀ v : VoteMsg, s.run.halt = .smear → v.outcome = outCommit →
      ∃ u, exec (.voteOutcome v) s = .next (advance u) ∧
        (u.votes.ring.any fun e => e.1 == v.step && e.2.1.outcome == outCommit) = true ∧
        { u with votes.ring := s.votes.ring, holding.lastHedge := s.holding.lastHedge, sheaf := s.sheaf } = s) ∧
    (∀ v : VoteMsg, s.isLead = true → (s.run.halt ≠ .smear ∨ v.outcome ≠ outCommit) →
      ∃ u, exec (.voteOutcome v) s = .next (advance u) ∧
        { u with holding.lastHedge := s.holding.lastHedge, sheaf := s.sheaf } = s) ∧
    (∀ n : Nat, s.votes.openStep = some n → s.moving = true → (s.run.jobs.any (beginLate s)) = false →
      s.votes.timeoutSent = false → s.votes.outcome = none → voteBounds s n ≠ 0 →
      let vote := voteRecord n outRetry false true s
      (s.isLead = true → s.votes.decided = none → (reductionComplete s = false ∨ s.run.modes.getD 5 false = true) →
        (∃ u, exec .voteTimeout s = .next (advance u) ∧ (u.votes.ring.any fun e => e.2.1 == vote) = true ∧
          (everyone, Hedge.voteOutcome vote) ∈ u.out.hedge)) ∧
      (s.isLead = false → ∃ u, exec .voteTimeout s = .next (advance u) ∧ u.votes.timeoutSent = true ∧
        u.out.hedge = s.out.hedge ++ [(leadId s, .voteTimeout n (voteBounds s n))] ∧
        { u with votes.timeoutSent := s.votes.timeoutSent, sheaf := s.sheaf, out := s.out } = s)) ∧
    (∀ n : Nat, s.votes.openStep = some n → (s.run.jobs.any (beginLate s)) = false →
      (voteBounds s n = 0 ∨ s.moving = false ∨ s.votes.timeoutSent = true ∨ s.votes.outcome.isSome = true) →
      exec .voteTimeout s = .next (advance s)) ∧
    (∀ j : Job, s.votes.openStep = none → s.run.jobs = [j] → beginLate s j = true →
      ∃ u, exec .voteTimeout s = .next (advance u) ∧ u.run.jobs = [] ∧ u.run.begun = [] ∧
        { u with
          run.jobs := s.run.jobs, run.begun := s.run.begun, host := s.host, sheaf := s.sheaf, out := s.out } = s) ∧
    (∀ (m : ModId) (n bounds : Nat), s.isLead = true → s.moving = true → s.votes.openStep = some n →
      s.votes.decided = none → (reductionComplete s = false ∨ s.run.modes.getD 5 false = true) → bounds ≠ 0 →
      let vote := voteRecord n outRetry false true s
      ∃ u, exec (.voteTimeoutReport m n bounds) s = .next (advance u) ∧
        (u.votes.ring.any fun e => e.2.1 == vote) = true ∧ (everyone, Hedge.voteOutcome vote) ∈ u.out.hedge) ∧
    (∀ (m : ModId) (n bounds : Nat), (s.votes.openStep ≠ some n ∨ bounds = 0) →
      ∃ t, exec (.voteTimeoutReport m n bounds) s = .next t ∧
        { t with holding.lastHedge := s.holding.lastHedge, sheaf := s.sheaf } = s) ∧
    (mayResume s = true →
      let n := resumeStep s
      let missed := decide (0 < n) && s.votes.openStep == some (n - 1) && decide (stepOf s.run.start < n)
      ∃ u, exec .autoResume s = .next (advance u) ∧ u.run.halt = .running ∧ u.run.stop = none ∧
        (everyone, Hedge.orderForward ⟨s.holding.moduleId, s.holding.number.toNat, posOf n passF 0, false, .resume, resumeDesc⟩)
          ∈ u.out.hedge ∧
        (missed = false → commitWorkLeft n s = false →
          u.run.head = posOf n passF 0 ∧ u.votes.openStep = some n ∧ u.run.rollTo = none) ∧
        (missed = false → commitWorkLeft n s = true → u.run.rollTo = some n)) ∧
    (mayResume s = false → exec .autoResume s = .next s) ∧
    (∀ n : Nat, s.votes.openStep = some n → s.moving = true → s.votes.contributed = false → n = stepOf s.run.head →
      localUDone s n = true → commitBelowStop s n = true → issuesWaiting s n (fun _ _ => true) = false →
      (s.holding.isMaster = false → s.holding.masterId ∉ s.holding.lost →
        ∃ u w, exec .workingPageAudit s = .next (advance u) ∧ u.votes.contributed = true ∧ w.count = 1 ∧
          (s.holding.masterId, Hedge.voteContribution s.holding.moduleId n w) ∈ u.out.hedge ∧ u.mem.base = s.mem.base) ∧
      (s.holding.isMaster = true → s.isLead = false → s.votes.decided = none → s.votes.outcome = none →
        ∃ u w, exec .workingPageAudit s = .next (advance u) ∧ u.votes.contributed = true ∧ w.count = 1 ∧
          (s.holding.moduleId, w) ∈ u.votes.received ∧ u.mem.base = s.mem.base)) ∧
    ((s.votes.openStep = none ∨ s.moving = false ∨ s.votes.contributed = true) → exec .workingPageAudit s = .next s)

/-- 09 R175: the outcome the lead master decides and broadcasts when the last word of a step is in: COMMIT where no bit is set,
SKIP where only numeric bits are, RETRY where an operational bit is, by the OR of the words alone. -/
def Obligations.VoteOutcomeTable : Prop :=
  ∀ (s : State) (m : ModId) (n : Nat) (w : VoteWord), s.isLead = true → s.votes.openStep = some n →
    s.votes.decided = none → s.votes.outcome = none → s.run.halt = .running → s.run.modes.getD 5 false = false →
    let got := { s with votes.received := (s.votes.received.filter fun c => c.1 != m) ++ [(m, w)] }
    reductionComplete got = true →
    let all := (reducedWord got).bits
    ∃ u v, exec (.voteContribution m n w) s = .next (advance u) ∧
      (everyone, Hedge.voteOutcome v) ∈ u.out.hedge.drop s.out.hedge.length ∧ v.step = n ∧ v.bits = all ∧
      (∀ i, i < 16 → all.getLsbD i = ((decide (i = 8) && s.votes.lost.any fun l => s.isLead || inHolding s.holding l) ||
        got.votes.received.any fun c => !s.votes.lost.contains c.1 && c.2.bits.getLsbD i)) ∧
      (all.extractLsb' 8 8 = 0 → all.extractLsb' 0 8 = 0 → v.outcome = outCommit) ∧
      (all.extractLsb' 8 8 = 0 → all.extractLsb' 0 8 ≠ 0 → v.outcome = outSkip) ∧
      (all.extractLsb' 8 8 ≠ 0 → v.outcome = outRetry)

/-! ### Collectives -/

/-- 10 R204, R207 to R209, R211, R212, R214, R215, 15 R337: the data of a member is kept with its collective, and passed on
folded once the chain may move; the group lead keeps each muster, tells every member to go ahead once all have mustered alike, and
ends the collective as soon as two differ; a refused collective ends its task, one that may go moves its data; an end-of-data
notice of a range that did not arrive asks for it, and a second one ends what it belongs to; what is asked for is sent again; a bin
with a free slot grants it, one without takes the highest tentative slot above it back, and a second request makes the slot firm; a
grant is kept, and the reservation is firm with the last; one that has waited for the collective timeout ends its collective and
withdraws its requests, and a withdrawn request leaves the bin; a member from which nothing came for that timeout is lost.
Readings of the model it rests on: log entries 27, 49, 50 and 85. -/
def Obligations.CollectiveMessages : Prop :=
  ∀ s : State,
    (∀ (m : CollMsg) (c : CollInst) (g : Group), CollAt s m.key c g → s.coll.bin = [] →
      let grid := gridOf s g
      let me := s.holding.moduleId
      (c.copies = true → c.phase = 0 →
        ∃ u, exec (.collData m) s = .next (advance u) ∧
          (liveColl u c).map (·.blocks) = some (if c.blocks.any fun b => b.1 == m.ranks.headD 0 && b.2.1 == m.key.index
            then c.blocks else c.blocks ++ [(m.ranks.headD 0, m.key.index, m.values)]) ∧
          { u with
            coll.live := s.coll.live, sched.tasks := s.sched.tasks, counters.values := s.counters.values
            sheaf := s.sheaf } = s) ∧
      (∀ x : SegState, c.copies = false → segOf c m.key.index = some x →
        (m.phase = 4 → x.final = none → x.passed = true → c.phase = 0 →
          ∃ u, exec (.collData m) s = .next (advance u) ∧
            ((liveColl u c).bind (segOf · m.key.index)).map (·.final) = some (some (returned c grid.ms.length x m))) ∧
        (m.phase ≠ 4 → (x.partials.any fun p => p.phase == m.phase) = false →
          (c.phase = 0 → ∃ u, exec (.collData m) s = .next (advance u) ∧
            (liveColl u c).bind (segOf · m.key.index) = some { x with partials := x.partials ++ [m] } ∧
            { u with
              coll.live := s.coll.live, sched.tasks := s.sched.tasks, counters.values := s.counters.values
              sheaf := s.sheaf } = s) ∧
          (∀ d : ModId, c.phase = 1 → c.mode ≠ 1 → x.passed = false → x.phase = m.phase → m.phase < 4 →
            grid.before m.phase me ≠ [] → grid.next m.phase me = some d → s.stones.live = [] →
            let rank := (rankOf grid.ms me).getD 0
            let low := ((grid.block m.phase me).head?.bind (rankOf grid.ms)).getD rank
            let f := foldStep c (m.key.index * c.segElems) rank low (valuesOf c m.values) m.events x.value x.events
            ∃ u, exec (.collData m) s = .next (advance u) ∧
              (d, ({ key := c.key m.key.index, phase := m.phase, ranks := (grid.block (m.phase + 1) me).filterMap (rankOf grid.ms),
                     source := me, values := valueBytes c f.values, events := f.events } : CollMsg)) ∈ u.out.coll)))) ∧
    (∀ m : CollMsg, s.coll.live.find? (ofKey m.key) = none → s.coll.bin = [] →
      exec (.collData m) s = .next (advance s)) ∧
    (∀ (m : ModId) (group epoch seq : Nat) (sig : W64) (sb : Bool) (g : Group), groupOf s group = some g →
      let ms := membersOf s group
      let me := s.holding.moduleId
      let held := mustersWith s (group, epoch, seq, m, sig, sb)
      let first := firstMuster held group epoch
      ms.head? = some me →
      (epoch ≠ g.epoch → m ≠ me → ∃ u, exec (.muster m group epoch seq sig sb) s = .next (advance u) ∧
        (m, Hedge.goAhead group epoch seq false) ∈ u.out.hedge) ∧
      (epoch = g.epoch → decidedWithout s group epoch m = none →
        ((∃ j ∈ ms, ∃ k ∈ ms, ∃ x y, first j = some x ∧ first k = some y ∧ x.2.2.2.2.1 ≠ y.2.2.2.2.1) →
          ∃ u, exec (.muster m group epoch seq sig sb) s = .next (advance u) ∧
            ∀ k ∈ ms, k ≠ me → ∀ x, first k = some x → (k, Hedge.goAhead group epoch x.2.2.1 false) ∈ u.out.hedge) ∧
        ((∀ j ∈ ms, ∀ k ∈ ms, ∀ x y, first j = some x → first k = some y → x.2.2.2.2.1 = y.2.2.2.2.1) →
          (∀ c ∈ s.coll.live, c.group = group → countBreaks s c ms.length = false) →
          ((∃ k ∈ ms, first k = none) → s.coll.bin = [] → ∃ u, exec (.muster m group epoch seq sig sb) s = .next (advance u) ∧
            u.coll.musters = held ∧ u.coll.decided = s.coll.decided ∧
            { u with coll := s.coll, holding.lastHedge := s.holding.lastHedge, sheaf := s.sheaf } = s) ∧
          ((∀ k ∈ ms, first k ≠ none) → ∃ u, exec (.muster m group epoch seq sig sb) s = .next (advance u) ∧
            ∀ k ∈ ms, k ≠ me → ∀ x, first k = some x → (k, Hedge.goAhead group epoch x.2.2.1 true) ∈ u.out.hedge)))) ∧
    (∀ (m : ModId) (group epoch seq : Nat) (sig : W64) (sb : Bool), (membersOf s group).head? ≠ some s.holding.moduleId →
      s.coll.bin = [] → ∃ u, exec (.muster m group epoch seq sig sb) s = .next (advance u) ∧
        { u with holding.lastHedge := s.holding.lastHedge, sheaf := s.sheaf } = s) ∧
    (∀ (group epoch seq : Nat) (go : Bool),
      let waits := fun (c : CollInst) => c.op != opEval && c.group == group && c.epoch == epoch && c.seq == seq && c.phase == 0
      (∀ c : CollInst, s.coll.live.find? waits = some c → s.coll.live.filter (sameColl c) = [c] →
        (go = false → ∃ u, exec (.goAhead group epoch seq go) s = .next (advance u) ∧ liveColl u c = none ∧
          ∀ t, findTask s c.step c.task = some t → ∃ x, findTask u c.step c.task = some x ∧ x.phase = .published ∧
            x.status = stCollMismatch ∧ x.cells = []) ∧
        (go = true → (groupOf s group).isSome = true → ∃ u, exec (.goAhead group epoch seq go) s = .next (advance u) ∧
          (∀ y, liveColl u c = some y → y.phase = 1) ∧ (c.op = opBarrier → liveColl u c = none))) ∧
      (s.coll.live.find? waits = none → s.coll.bin = [] → ∃ u, exec (.goAhead group epoch seq go) s = .next (advance u) ∧
        { u with holding.lastHedge := s.holding.lastHedge, sheaf := s.sheaf } = s)) ∧
    (∀ (src : ModId) (key : SegKey) (n : Nat) (c : CollInst) (g : Group), CollAt s key c g → c.phase = 1 → n ≠ 0 →
      s.coll.bin = [] →
      (c.copies = true →
        (c.blocks.any fun b => b.1 == (rankOf (membersOf s c.group) src).getD 0 && b.2.1 == key.index) = false) →
      (c.copies = false → ∃ x, segOf c key.index = some x ∧ x.final = none ∧
        (x.partials.any fun p => p.source == src) = false) →
      (key.index ∉ c.asked → ∃ u, exec (.endOfDataNotice src (.segment key) n) s = .next (advance u) ∧
        (liveColl u c).map (·.asked) = some (c.asked ++ [key.index]) ∧
        u.out.hedge = s.out.hedge ++ [(src, .missingRange (.segment key) 0 n)] ∧
        { u with
          coll.live := s.coll.live, holding.lastHedge := s.holding.lastHedge, sheaf := s.sheaf, out := s.out } = s) ∧
      (key.index ∈ c.asked → ∃ u, exec (.endOfDataNotice src (.segment key) n) s = .next (advance u) ∧
        liveColl u c = none ∧ ∀ t, findTask s c.step c.task = some t →
          ∃ x, findTask u c.step c.task = some x ∧ x.phase = .published ∧ x.status = stTimeout ∧ x.cells = [])) ∧
    (∀ (src m : ModId) (tag : W16) (n : Nat), s.coll.bin = [] →
      let mine := fun (x : BulkIn) => x.source == m && x.tag == tag
      let x := (s.lamio.bulkIn.find? mine).getD ⟨m, tag, [], false⟩
      let others := s.lamio.bulkIn.filter fun y => !mine y
      let here := n ≤ (x.got.map (·.2)).foldl (· + ·) 0
      (here → ∃ u, exec (.endOfDataNotice src (.bulk tag m) n) s = .next (advance u) ∧ u.lamio.bulkIn = others ∧
        { u with lamio.bulkIn := s.lamio.bulkIn, holding.lastHedge := s.holding.lastHedge, sheaf := s.sheaf } = s) ∧
      (¬ here → x.asked = false → ∃ u, exec (.endOfDataNotice src (.bulk tag m) n) s = .next (advance u) ∧
        u.lamio.bulkIn = others ++ [{ x with asked := true }] ∧
        u.out.hedge = s.out.hedge ++ [(m, .missingRange (.bulk tag m) 0 n)] ∧
        { u with
          lamio.bulkIn := s.lamio.bulkIn, holding.lastHedge := s.holding.lastHedge, sheaf := s.sheaf, out := s.out } = s) ∧
      (¬ here → x.asked = true → ∃ u, exec (.endOfDataNotice src (.bulk tag m) n) s = .next (advance u) ∧
        ∀ t, s.lamio.txns.find? (fun t => t.dest == m && t.tag == tag && t.type == ptBulkReq) = some t →
          (m, tag, 15, []) ∈ u.lamio.answers)) ∧
    (∀ (src : ModId) (key : SegKey) (first len : Nat) (c : CollInst), len ≠ 0 → s.coll.live.find? (ofKey key) = some c →
      s.stones.live = [] →
      let parts := c.sent.filter fun x => x.1 == src && x.2.key == key && decide (first < x.2.values.length)
      ∃ t, exec (.missingRangeRequest src (.segment key) first len) s = .next t ∧
        t.out.coll = s.out.coll ++ parts.map (fun x => (src, x.2)) ∧
        t.out.hedge = s.out.hedge ++ parts.map (fun x => (src, .endOfData (.segment x.2.key) x.2.values.length)) ∧
        { t with holding.lastHedge := s.holding.lastHedge, sheaf := s.sheaf, out := s.out } = s) ∧
    (∀ (src m : ModId) (tag : W16) (first len : Nat) (x : BulkOut), len ≠ 0 →
      s.lamio.bulkOut.find? (fun y => y.dest == src && y.tag == tag) = some x →
      ∃ t, exec (.missingRangeRequest src (.bulk tag m) first len) s = .next t ∧
        (src, Hedge.endOfData (.bulk tag s.holding.moduleId) x.data.length) ∈ t.out.hedge ∧ t.mem = s.mem) ∧
    (∀ (src : ModId) (key : DataKey) (first : Nat), exec (.missingRangeRequest src key first 0) s = .next s) ∧
    (∀ (src : ModId) (key : SegKey), s.coll.reserves = [] →
      ((s.coll.bin.any fun r => r.key == key && r.source == src) = false → closedKey s key = false →
        (((s.coll.bin.map (·.key)) ++ [key]).eraseDups.length ≤ 32 →
          ∃ u, exec (.reservationRequest src key) s = .next (advance u) ∧ (∀ r ∈ u.coll.bin, r.state ≠ 0) ∧
            (u.coll.bin.map fun r => (r.key, r.source)) = (s.coll.bin.map fun r => (r.key, r.source)) ++ [(key, src)] ∧
            (src ≠ s.holding.moduleId → (src, Hedge.grant key) ∈ u.out.hedge) ∧
            { u with coll.bin := s.coll.bin, holding.lastHedge := s.holding.lastHedge, sheaf := s.sheaf, out := s.out } = s) ∧
        (∀ x : SegKey, (∀ r ∈ s.coll.bin, r.state = 1 ∨ r.state = 2) → (heldKeys s).length = 32 → key ∉ heldKeys s →
          highestTentative s key = some x →
          ∃ u, exec (.reservationRequest src key) s = .next (advance u) ∧
            u.coll.bin = (s.coll.bin.map fun r => if r.key = x then { r with state := 0 } else r) ++ [⟨key, src, 1⟩] ∧
            (src ≠ s.holding.moduleId → (src, Hedge.grant key) ∈ u.out.hedge) ∧
            (∀ r ∈ s.coll.bin, r.key = x → r.source ≠ s.holding.moduleId → (r.source, Hedge.takeBack x) ∈ u.out.hedge) ∧
            { u with coll.bin := s.coll.bin, holding.lastHedge := s.holding.lastHedge, sheaf := s.sheaf, out := s.out } = s)) ∧
      (∀ before after : List BinReq, s.coll.bin = before ++ ⟨key, src, 1⟩ :: after →
        (before.any fun r => r.key == key && r.source == src) = false → key ∉ s.coll.left → (∀ r ∈ s.coll.bin, r.state ≠ 0) →
        ∃ u, exec (.reservationRequest src key) s = .next (advance u) ∧ u.coll.bin = before ++ ⟨key, src, 2⟩ :: after ∧
          { u with coll.bin := s.coll.bin, holding.lastHedge := s.holding.lastHedge, sheaf := s.sheaf } = s)) ∧
    (∀ (bin : ModId) (key : SegKey) (r : MyReserve) (c : CollInst) (g : Group), CollAt s key c g →
      s.coll.reserves.find? (fun r => r.key == key) = some r → r.firm = false →
      let ms := definedMembers s g.def48
      ((∃ k ∈ ms, k ∉ addNew r.granted bin) → s.coll.bin = [] → ∃ u, exec (.grant bin key) s = .next (advance u) ∧
        u.coll.reserves.find? (fun r => r.key == key) = some { r with granted := addNew r.granted bin } ∧
        { u with
          coll.reserves := s.coll.reserves, coll.live := s.coll.live, holding.lastHedge := s.holding.lastHedge
          sheaf := s.sheaf } = s) ∧
      ((∀ k ∈ ms, k ∈ addNew r.granted bin) → ∃ u, exec (.grant bin key) s = .next (advance u) ∧
        ∀ k ∈ ms, k ≠ s.holding.moduleId → (k, Hedge.reserve key) ∈ u.out.hedge)) ∧
    (∀ (bin : ModId) (key : SegKey), ∃ t, exec (.takeBack bin key) s = .next t ∧
      t.coll.reserves = (s.coll.reserves.map fun r =>
        if r.key = key ∧ r.firm = false then { r with granted := r.granted.filter (· != bin) } else r) ∧
      { t with coll.reserves := s.coll.reserves, holding.lastHedge := s.holding.lastHedge, sheaf := s.sheaf } = s) ∧
    (∀ (key : SegKey) (r : MyReserve) (c : CollInst) (g : Group), CollAt s key c g →
      s.coll.reserves.find? (fun r => r.key == key && !r.firm) = some r →
      (s.clock.up < r.since + ms s.tmo.coll.toNat → s.coll.bin = [] →
        exec (.reservationTimeout key) s = .next (advance s)) ∧
      (r.since + ms s.tmo.coll.toNat ≤ s.clock.up → ∃ u, exec (.reservationTimeout key) s = .next (advance u) ∧
        liveColl u c = none ∧
        (∀ t, findTask s c.step c.task = some t → ∃ x, findTask u c.step c.task = some x ∧ x.phase = .published ∧
          x.status = stTimeout ∧ x.cells = [] ∧ (s.votes.openStep = some c.step → u.votes.word.getLsbD vbReplayFailed = true)) ∧
        ∀ k ∈ membersOf s c.group, k ≠ s.holding.moduleId → ∀ i, i < c.segments 1 →
          (k, Hedge.release (c.key i)) ∈ u.out.hedge)) ∧
    (∀ key : SegKey,
      (∀ (c : CollInst) (g : Group), CollAt s key c g → ∃ u, exec (.release key) s = .next (advance u) ∧ liveColl u c = none ∧
        ∀ t, findTask s c.step c.task = some t → ∃ x, findTask u c.step c.task = some x ∧ x.phase = .published ∧
          x.status = stTimeout ∧ x.cells = []) ∧
      (s.coll.live.find? (ofKey key) = none → s.coll.reserves = [] → ∃ u, exec (.release key) s = .next (advance u) ∧
        (∀ r ∈ u.coll.bin, r.key ≠ key) ∧ key ∉ u.coll.left ∧
        { u with
          coll.bin := s.coll.bin, coll.left := s.coll.left, holding.lastHedge := s.holding.lastHedge, sheaf := s.sheaf
          out := s.out } = s)) ∧
    (∀ (group seq : Nat) (m : ModId) (c : CollInst),
      s.coll.live.find? (fun c => c.op != opEval && c.group == group && c.seq == seq) = some c →
      let due := (collGateAt s c).isSome = true ∧ lastSign s c m + ms s.tmo.coll.toNat ≤ s.clock.up ∧ awaitsFrom s c m = true ∧
        m ∈ membersOf s group ∧ watchesColl s group m = true ∧ m ∉ s.holding.lost
      (due → ∃ u, exec (.collTimeout group seq m) s = .next (advance u) ∧ m ∈ u.holding.lost ∧
        (∀ y ∈ u.coll.live, y.op = opEval ∨ y.group ≠ group) ∧
        (everyone, Hedge.memberLost m 0 s.run.head) ∈ u.out.hedge ∧
        Announces s u evMemberLost (pack [(16, m.toNat), (2, 0), (14, 0), (16, s.holding.moduleId.toNat)])) ∧
      (¬ due → s.coll.bin = [] → exec (.collTimeout group seq m) s = .next (advance s)))

/-! ### Tasks in the scheduler, faults of units -/

/-- 12 R253, R257, R260 to R262, 06 R113, R120, R122, 04 R85, R88, 15 R320, R325 to R327: instances are admitted in their order
until a limit holds the next one back; one that stays eligible for an ageing interval rises a class; a task with its last tile
publishes its output where it belongs, a tile of a FOLD brings a chunk home; the lowest candidate is trapped once all before it have
settled; a tile that overruns is replayed and its core suspect, the second time in a step retired, and a tile that overruns on two
cores fails its task; a core with an uncorrectable error, and a suspect one that fails its self-test, is retired; harrows and
gleaners are retired; a poisoned operand is repaired from its producer and the task replayed, without an intact source the task
fails and its persistent pages are damaged; a core is halted, its cells frozen, and resumes.
Readings of the model it rests on: log entries 65, 66, 68, 69 and 83. -/
def Obligations.SchedulerAndFaultRows : Prop :=
  ∀ s : State,
    (s.run.isOn = true → OneEach s → ∃ u, exec .taskAdmit s = .next (advance u) ∧ nextAdmission u = none ∧
      (∀ t, nextAdmission s = some t → ∃ x, findTask u t.step t.task = some x ∧ x.phase = .admitted) ∧
      (∀ x ∈ u.sched.tasks, x ∈ s.sched.tasks ∨ (x.phase = .admitted ∧ { x with phase := .created } ∈ s.sched.tasks)) ∧
      u.sched.tasks.map (fun t => (t.step, t.task)) = s.sched.tasks.map (fun t => (t.step, t.task)) ∧
      { u with sched.tasks := s.sched.tasks, sheaf := s.sheaf } = s) ∧
    (s.run.isOn = false → exec .taskAdmit s = .next s) ∧
    (∀ (t : TaskInst), findTask s t.step t.task = some t →
      (∀ since, t.eligibleAt = some since → eligible s t = true → since + ms s.tmo.ageing.toNat ≤ s.clock.up →
        ∃ u, exec (.ageingTick t.step t.task) s = .next u ∧
          findTask u t.step t.task = some
            { t with boost := t.boost + 1, eligibleAt := some (since + ms s.tmo.ageing.toNat) } ∧
          OthersStay t.step t.task s u ∧ { u with sched.tasks := s.sched.tasks } = s) ∧
      ((eligible s t = false ∨ ∀ since, t.eligibleAt = some since → s.clock.up < since + ms s.tmo.ageing.toNat) →
        exec (.ageingTick t.step t.task) s = .next s)) ∧
    (∀ t : TaskInst, findTask s t.step t.task = some t →
      let goes := t.phase = .computed ∧ t.done < t.tiles ∧ ownEnd (kindOf s t) = false ∧
        ¬ (unitOf s t = 0 ∧ t.unit ∈ s.sched.halted) ∧ (s.lamio.txns.any fun x => x.task == some (t.step, t.task)) = false
      (goes → (t.done + 1 < t.tiles ∨ t.contributions ≠ []) →
        (kindOf s t ≠ 0x0F → ∃ u, exec (.tileComplete t.step t.task t.attempt) s = .next (advance u) ∧
          findTask u t.step t.task = some { t with done := t.done + 1 } ∧ OthersStay t.step t.task s u ∧
          { u with sched.tasks := s.sched.tasks, sheaf := s.sheaf } = s) ∧
        (∀ (g : Segment) (r : TaskRec) (st : StatRec) (i : Nat) (cs : Cells), kindOf s t = 0x0F →
          segmentOf s t.seg = some g → taskRecOf s t = some r → g.stats[r.record]? = some st →
          (journalOf s t.step t.task).slot = some (i, cs) →
          let done := (journalOf s t.step t.task).done + 1
          ∃ u, exec (.tileComplete t.step t.task t.attempt) s = .next (advance u) ∧
            findTask u t.step t.task = some { t with done := t.done + 1 } ∧
            (∀ a, tget 0 u.mem.base a = (cellAt cs a).getD (tget 0 s.mem.base a)) ∧
            journalOf u t.step t.task = ⟨t.step, t.task, done,
              if done < (foldChunks st).length then some (done, chunkCells s st done t.cells) else none⟩ ∧
            { u with sched.tasks := s.sched.tasks, mem := s.mem, sheaf := s.sheaf } = s)) ∧
      (goes → t.done + 1 = t.tiles → t.contributions = [] → kindOf s t ≠ 0x0F → t.cells ≠ [] →
        (t.stream = streamB → ∀ e ∈ activeSegments s t.step, ∀ x ∈ e.2.stats, x.due t.step = false) →
        ∃ u, exec (.tileComplete t.step t.task t.attempt) s = .next (advance u) ∧
          (∃ x, findTask u t.step t.task = some x ∧ x.phase = .published ∧ x.cells = [] ∧ x.pubSeq = s.sched.pubs + 1 ∧
            x.done = t.tiles ∧ x.status = endStatus s t) ∧
          OthersStay t.step t.task s u ∧ u.sched.pubs = s.sched.pubs + 1 ∧ u.sched.pubCount = s.sched.pubCount + 1 ∧
          (t.staged = true → u.mem.base = s.mem.base ∧
            u.mem.layers = addLayer ⟨.staged t.step, t.cells⟩ s.mem.layers) ∧
          (t.staged = false → t.commitWork = true →
            ∀ a, tget 0 u.mem.base a = (cellAt t.cells a).getD (tget 0 s.mem.base a)) ∧
          (t.staged = false → t.commitWork = false → u.mem.base = s.mem.base ∧
            u.mem.layers = addLayer ⟨.output t.step t.task (t.seedbed && s.run.seedbedOpen), t.cells⟩ s.mem.layers) ∧
          { u with
            mem := s.mem, sched := s.sched, counters.values := s.counters.values, votes.word := s.votes.word
            votes.heldWord := s.votes.heldWord, sheaf := s.sheaf } = s) ∧
      (∀ a, ¬ (goes ∧ a = t.attempt) → exec (.tileComplete t.step t.task a) s = .next (advance s))) ∧
    (∀ c, lowestCandidate s = some c →
      (trapArmed s = true → settledBefore s c.1 c.2.1 c.2.2.1 = true →
        ∃ u, exec .trapDeliver s = .next u ∧ u.numerics.trap = trapOf s.clock.now c ∧
          u.numerics.trapArmed = (s.numerics.armedAt == some s.clock.up) ∧ u.sched.candidates = [] ∧
          (∀ t, findTask s c.1 c.2.2.1 = some t → findTask u c.1 c.2.2.1 = some { t with status := stNanTrap }) ∧
          OthersStay c.1 c.2.2.1 s u ∧ Announces s u evNanTrap (trapWord (trapOf s.clock.now c) % 2 ^ 64) ∧
          { u with
            numerics.trap := s.numerics.trap, numerics.trapArmed := s.numerics.trapArmed
            sched.candidates := s.sched.candidates, sched.tasks := s.sched.tasks, host := s.host, sheaf := s.sheaf
            out := s.out } = s) ∧
      ((trapArmed s = false ∨ settledBefore s c.1 c.2.1 c.2.2.1 = false) → exec .trapDeliver s = .next s)) ∧
    (lowestCandidate s = none → exec .trapDeliver s = .next s) ∧
    (∀ (t : TaskInst) (core other : Nat), findTask s t.step t.task = some t → t.unit = core → unitOf s t = 0 →
      coreEnabled s core = true →
      (t.phase = .computed → t.done < t.tiles → ownEnd (kindOf s t) = false →
        ∃ u, exec (.watchdogExpiry t.step t.task core other) s = .next (advance u) ∧
          (overranBefore s t.step core = false → core ∈ u.sched.suspects ∧ u.sched.retiredCores = s.sched.retiredCores) ∧
          (overranBefore s t.step core = true → core ∈ u.sched.retiredCores ∧
            Announces s u evCoreRetired (coreRetiredDetail core 0 3 t.task)) ∧
          ((t.overran.any fun o => o.2 == t.done) = false →
            Replayed t u fun x => coreUsable s other = true → other ≠ core → x = other) ∧
          ((t.overran.any fun o => o.2 == t.done) = true → Failed t s u) ∧ OthersStay t.step t.task s u ∧ u.mem = s.mem) ∧
      (t.phase = .abandoned → s.run.halt = .smear → exec (.watchdogExpiry t.step t.task core other) s =
        .next (advance { s with sched.suspects := addNew s.sched.suspects core }))) ∧
    (∀ (t : TaskInst) (core other : Nat), findTask s t.step t.task = some t →
      (t.unit ≠ core ∨ unitOf s t ≠ 0 ∨ coreEnabled s core = false ∨ t.phase = .published) →
      exec (.watchdogExpiry t.step t.task core other) s = .next (advance s)) ∧
    (∀ core other : Nat, core < 4096 → coreEnabled s core = true → OneEach s →
      ∃ u, exec (.coreSramError core other) s = .next u ∧ core ∈ u.sched.retiredCores ∧ core ∉ u.sched.suspects ∧
        core ∉ u.sched.halted ∧
        Announces s u evCoreRetired
          (coreRetiredDetail core 0 1 (((runningOn s core).head?.map (·.task)).getD (BitVec.allOnes 32))) ∧
        (∀ t ∈ runningOn s core, Replayed t u fun x => coreUsable s other = true → other ≠ core → x = other) ∧
        (∀ x ∈ s.sched.tasks, x ∉ runningOn s core → x ∈ u.sched.tasks) ∧
        { u with
          sched := s.sched, counters.values := s.counters.values, host := s.host, sheaf := s.sheaf, out := s.out } = s) ∧
    (∀ core other : Nat, (4096 ≤ core ∨ coreEnabled s core = false) → exec (.coreSramError core other) s = .next s) ∧
    (∀ core : Nat, core ∈ s.sched.suspects →
      exec (.selfTestDone core true) s = .next { s with sched.suspects := s.sched.suspects.filter (· != core) } ∧
      ∃ u, exec (.selfTestDone core false) s = .next u ∧ core ∈ u.sched.retiredCores ∧ core ∉ u.sched.suspects ∧
        Announces s u evCoreRetired
          (coreRetiredDetail core 0 2 (((runningOn s core).head?.map (·.task)).getD (BitVec.allOnes 32))) ∧
        { u with
          sched.retiredCores := s.sched.retiredCores, sched.suspects := s.sched.suspects, sched.halted := s.sched.halted
          sched.frozen := s.sched.frozen, host := s.host, sheaf := s.sheaf, out := s.out } = s) ∧
    (∀ (core : Nat) (ok : Bool), core ∉ s.sched.suspects → exec (.selfTestDone core ok) s = .next s) ∧
    (∀ harrow cause : Nat, harrow < 256 → harrowEnabled s harrow = true → 1 ≤ cause → cause ≤ 3 → OneEach s →
      let uses := fun (b : BlockSolve) => solveInFlight b && b.harrows.contains harrow
      let on := fun (t : TaskInst) => t.started && preciseApply s t && t.unit == harrow && decide (t.done < t.tiles)
      let left := fun (b : BlockSolve) => b.harrows.filter (· != harrow)
      ∃ u, exec (.harrowFault harrow cause) s = .next (advance u) ∧
        u.sched.retiredHarrows = s.sched.retiredHarrows ++ [harrow] ∧
        u.harrows.blocks = s.harrows.blocks.map (fun b => if uses b then
          { b with
            harrows := left b, record := { b.record with status := if left b = [] then 1 else b.record.status } } else b) ∧
        (∀ t ∈ s.sched.tasks, on t = true → Replayed t u fun _ => True) ∧
        (∀ x ∈ s.sched.tasks, on x = false → x ∈ u.sched.tasks) ∧
        { u with
          sched.retiredHarrows := s.sched.retiredHarrows, sched.tasks := s.sched.tasks, harrows.blocks := s.harrows.blocks
          counters.values := s.counters.values, host := s.host, sheaf := s.sheaf, out := s.out } = s) ∧
    (∀ harrow cause : Nat, (256 ≤ harrow ∨ harrowEnabled s harrow = false ∨ cause = 0 ∨ 3 < cause) →
      exec (.harrowFault harrow cause) s = .next (advance s)) ∧
    (∀ region : Nat, region < 32 → region ∉ s.sched.retiredGleaners →
      ∃ u, exec (.gleanerFailure region) s = .next u ∧ u.sched.retiredGleaners = s.sched.retiredGleaners ++ [region] ∧
        Announces s u evCoreRetired (coreRetiredDetail region 1 4 (BitVec.allOnes 32)) ∧
        (∀ n, s.votes.openStep = some n →
          (voteUndecided s n = true → n ∈ pendingOwners s region → u.votes.word.getLsbD vbReplayFailed = true) ∧
          (n + 1 ∈ pendingOwners s region → u.votes.heldWord.getLsbD vbReplayFailed = true) ∧
          (pendingOwners s region = [] → voteUndecided s n = true → u.votes.word.getLsbD vbReplayFailed = true) ∧
          (pendingOwners s region = [] → voteUndecided s n = false → u.votes.heldWord.getLsbD vbReplayFailed = true)) ∧
        { u with
          sched.retiredGleaners := s.sched.retiredGleaners, votes.word := s.votes.word, votes.heldWord := s.votes.heldWord
          host := s.host, sheaf := s.sheaf, out := s.out } = s) ∧
    (∀ region : Nat, (32 ≤ region ∨ region ∈ s.sched.retiredGleaners) → exec (.gleanerFailure region) s = .next s) ∧
    (∀ (t : TaskInst) (line other : Nat), findTask s t.step t.task = some t →
      let reads := (t.phase = .admitted ∨ t.phase = .computed) ∧ line ∈ poisonedOperands s t
      let source := intactSource s t.step (s.sched.tasks.length + 1) line
      (reads → source = none → ∃ u, exec (.poisonedRead t.step t.task line other) s = .next (advance u) ∧ Failed t s u ∧
        OthersStay t.step t.task s u ∧ (∀ p ∈ damagedPages s t, p ∈ u.mem.damaged) ∧
        (earlierRun s t.step s.run.poisonRetry = true →
          (s.isLead = true → u.run.holdResume = true) ∧
          (s.isLead = false → (leadId s, Hedge.agreement agreeHold 0 s.run.head) ∈ u.out.hedge)) ∧
        { u.mem with damaged := s.mem.damaged } = s.mem) ∧
      (∀ lines, reads → source = some lines → ∃ u, exec (.poisonedRead t.step t.task line other) s = .next (advance u) ∧
        Replayed t u (fun x => x = if coreUsable s other then other else t.unit) ∧ OthersStay t.step t.task s u ∧
        (∀ l ∈ lines, l ∉ u.mem.poison) ∧ u.mem.base = s.mem.base ∧ u.mem.layers = s.mem.layers ∧ u.votes = s.votes) ∧
      (¬ reads → exec (.poisonedRead t.step t.task line other) s = .next (advance s))) ∧
    (∀ core : Nat, s.security.state = 1 → core < 4096 → coreEnabled s core = true → core ∉ s.sched.halted →
      ∃ u, exec (.coreHalt core) s = .next u ∧ u.sched.halted = s.sched.halted ++ [core] ∧
        u.sched.frozen = s.sched.frozen ++ [(core, haltedCells s core s.sched.halts)] ∧
        { u with sched.halted := s.sched.halted, sched.frozen := s.sched.frozen, sched.halts := s.sched.halts } = s) ∧
    (∀ core : Nat, (s.security.state ≠ 1 ∨ 4096 ≤ core ∨ coreEnabled s core = false ∨ core ∈ s.sched.halted) →
      exec (.coreHalt core) s = .next s) ∧
    (∀ core : Nat, s.security.state = 1 → core ∈ s.sched.halted →
      exec (.coreResume core) s = .next { s with
        sched.halted := s.sched.halted.filter (· != core), sched.frozen := s.sched.frozen.filter fun f => f.1 != core }) ∧
    (∀ core : Nat, (s.security.state ≠ 1 ∨ core ∉ s.sched.halted) → exec (.coreResume core) s = .next s)

/-- 06 R113 to R117: a contribution whose turn it is is added to its pending block, element by element, each sum rounded once, with
the block's count one higher, and the block is sealed once it is complete; a duplicate is dropped; one ahead of its turn, or for a
block of another step, waits; with its last contribution a task whose tiles are complete publishes. -/
def Obligations.GleanerAdds : Prop :=
  ∀ (s : State) (seg record q : Nat) (t : TaskInst) (g : Segment) (stat : StatRec) (r : TaskRec) (new : List W32),
    findTask s t.step t.task = some t → segmentOf s seg = some g → g.stats[record]? = some stat →
    t.contributions.find? (fun c => c.1 == q) = some (q, new) → taskRecOf s t = some r →
    let h := statHeader s (.task t.step true) stat.pendingT q
    let n := stat.dim q
    let index := (contributors g record q).findIdx (· == t.index)
    let count := if h.state = 0 then 0 else h.count
    let old := if count = 0 then List.replicate (n * n) 0 else statElems s (.task t.step true) stat stat.pendingT q
    let sums := List.zipWith (fun a b => toB32 (rnd32 ((ofB32 a).add (ofB32 b)))) old new
    let sb := s.run.seedbedOpen && decide (stepOf s.run.head < t.step)
    let left := t.contributions.filter fun c => c.1 != q
    let ours := t.phase = .computed ∧ t.seg = seg ∧ r.record = record ∧ (h.state = 0 ∨ h.step = t.step)
    let more := t.done ≠ t.tiles ∨ left ≠ []
    let c := Instr.gleanerAdd seg record q t.step t.task
    (ours → index = count → more → ∃ u, exec c s = .next (advance (sealBlock g record t.step q stat u)) ∧
      u.mem.layers = addLayer ⟨.output t.step 0 sb, statElemCells s stat stat.pendingT q sums ++
        statHeaderCells s stat stat.pendingT q { h with count := count + 1, state := 1, step := t.step, nonfinite := false }⟩
        s.mem.layers ∧
      u.mem.base = s.mem.base ∧ (∃ x, findTask u t.step t.task = some x ∧ x.contributions = left ∧ x.phase = .computed) ∧
      OthersStay t.step t.task s u ∧
      (let reader := Reader.task t.step true
       let h' := statHeader u reader stat.pendingT q
       let bad := anyNonFinite (statElems u reader stat stat.pendingT q)
       h'.state = 1 → h'.step = t.step → h'.count = (contributors g record q).length → laterWriter u stat t.step q = false →
         (sealBlock g record t.step q stat u).mem.layers = addLayer ⟨.output t.step 0
           (u.run.seedbedOpen && decide (stepOf u.run.head < t.step)), statHeaderCells u stat stat.pendingT q
             { h' with state := 2, nonfinite := bad }⟩ u.mem.layers ∧
         (bad = true → u.votes.openStep = some t.step →
           (sealBlock g record t.step q stat u).votes.word.getLsbD vbGrad = true))) ∧
    (ours → index < count → more → ∃ u, exec c s = .next (advance u) ∧
      findTask u t.step t.task = some { t with contributions := left } ∧ OthersStay t.step t.task s u ∧
      { u with sched.tasks := s.sched.tasks } = s) ∧
    (ours → index ≤ count → ¬ more → ∃ u, exec c s = .next (advance u) ∧
      ∃ x, findTask u t.step t.task = some x ∧ x.phase = .published ∧ x.contributions = []) ∧
    (ours → count < index → exec c s = .next (advance s)) ∧
    (¬ ours → exec c s = .next (advance s))

/-! ### Memory: migration, scrubbing, lost requests -/

/-- 11 R227 to R230, R233 to R238, 15 R319, R324: a selected move starts with its destination frame, is sealed when its copy is
complete, and flips to its destination with the next generation; the source frame is then free; no byte changes; a move that has
nothing left to do is dropped, one that may not start waits, and a page that its flip takes away from its pin's tier is selected
again. A scrub counts and records what it corrected, poisons what it could not, and retires a frame with too many errors or one
that fails again; a request that expires is reissued once and then poisons its line; sixteen in a row, or a failed controller, lose
the device, and the module isolates itself.
Readings of the model it rests on: log entries 13, 70 and 71. -/
def Obligations.MemoryRows : Prop :=
  ∀ s : State,
    (∀ (page : Nat),
      let e := pageOf s page
      (∀ x : Selected, s.mem.selected.find? (fun x => x.page == page) = some x → e.state = 0 →
        let may := (s.run.isOn = false ∨ s.run.halt = .running) ∧ pageStaged s page = false ∧ nextMove s x = true
        (movedAlready s x e = true →
          exec (.migrationStart page) s = .next { s with mem.selected := s.mem.selected.filter (· != x) }) ∧
        (∀ (far : Bool) (frame : Nat), movedAlready s x e = false → may → moveTarget s x e = some (far, frame) →
          ∃ t, exec (.migrationStart page) s = .next t ∧
            pageOf t page = { e with state := 1, otherFar := far, otherFrame := frame, dirty := [], cause := x.cause } ∧
            (∀ p, p ≠ page → pageOf t p = pageOf s p) ∧ t.mem.selected = s.mem.selected.filter (· != x) ∧
            { t with mem.pages := s.mem.pages, mem.selected := s.mem.selected, sheaf := s.sheaf } = s) ∧
        (movedAlready s x e = false → (¬ may ∨ moveTarget s x e = none) → exec (.migrationStart page) s = .next s)) ∧
      ((e.state ≠ 0 ∨ s.mem.selected.find? (fun x => x.page == page) = none) → exec (.migrationStart page) s = .next s) ∧
      (e.state = 1 → ∃ t, exec (.migrationSeal page) s = .next t ∧ pageOf t page = { e with state := 2 } ∧
        (∀ p, p ≠ page → pageOf t p = pageOf s p) ∧
        { t with mem.pages := s.mem.pages, counters.values := s.counters.values } = s) ∧
      (e.state ≠ 1 → exec (.migrationSeal page) s = .next s) ∧
      (e.state = 2 → ∃ u, exec (.migrationFlip page) s = .next (advance u) ∧
        pageOf u page = { e with
          far := e.otherFar, frame := e.otherFrame, otherFar := e.far, otherFrame := e.frame, gen := e.gen + 1
          present := true, state := 3, dirty := [] } ∧
        (∀ p, p ≠ page → pageOf u p = pageOf s p) ∧
        u.mem.selected = s.mem.selected ++ (if e.pin ≠ 0 ∧ e.otherFar ≠ (e.pin == 2) ∧
          (s.mem.selected.any fun x => x.page == page) = false then [⟨page, e.pin == 2, 1⟩] else []) ∧
        { u with
          mem.pages := s.mem.pages, mem.selected := s.mem.selected, counters.values := s.counters.values
          sheaf := s.sheaf } = s) ∧
      (e.state ≠ 2 → exec (.migrationFlip page) s = .next (advance s)) ∧
      (∃ u, exec (.migrationSourceFree page) s = .next (advance u) ∧
        pageOf u page = (if e.state = 3 then
          { e with state := 0, dirty := [], otherFar := false, otherFrame := 0, cause := 0 } else e) ∧
        (∀ p, p ≠ page → pageOf u p = pageOf s p) ∧
        (∀ x ∈ s.mem.selected, x.cause ≠ 3 → x ∈ u.mem.selected) ∧ (∀ x ∈ u.mem.selected, x ∈ s.mem.selected ∨ x.cause = 3) ∧
        { u with mem.pages := s.mem.pages, mem.selected := s.mem.selected } = s)) ∧
    (∀ (far : Bool) (region frame : Nat) (corrected uncorrectable : List Nat),
      let bad := (uncorrectable.filter (· < 32768)).eraseDups
      let fixed := (corrected.filter fun k => k < 32768 && !bad.contains k).eraseDups
      let h := noteCorrected s.clock.up (scrubPeriod s) fixed (healthOf s far region frame)
      let c := Instr.patrolScrub far region frame corrected uncorrectable
      (s.ready = true → frame < tierFrames far → region < 32 → ∃ t, exec c s = .next t ∧
        healthOf t far region frame = { h with failed := bad.foldl addNew h.failed } ∧
        (∀ page, pageOn s far region frame = some page → ∀ k ∈ bad, 32768 * page + k ∈ t.mem.poison) ∧
        (((bad.any fun k => h.rewritten.contains k) = true ∨ 64 < h.lines.length) →
          (far, region, frame) ∈ t.mem.retired ++ t.flash.retired) ∧
        ((bad.any fun k => h.rewritten.contains k) = false → h.lines.length ≤ 64 →
          t.mem.retired = s.mem.retired ∧ t.flash = s.flash) ∧
        (bad = [] → t.mem.poison = s.mem.poison) ∧ t.mem.base = s.mem.base ∧ t.mem.layers = s.mem.layers ∧
        { t with
          mem := s.mem, flash.retired := s.flash.retired, counters.values := s.counters.values, host := s.host
          sheaf := s.sheaf, out := s.out } = s) ∧
      ((s.ready = false ∨ tierFrames far ≤ frame ∨ 32 ≤ region) → exec c s = .next s)) ∧
    (∀ (far : Bool) (line : Nat),
      let p := line / 32768
      let e := pageOf s p
      let n := expiriesOf s far (pageRegion p) + 1
      let live := s.ready = true ∧ e.present = true ∧ e.far = far ∧ s.mem.deviceLost = false
      (live → n < 16 → (far, line) ∉ s.mem.reissued → ∃ t, exec (.memTimeout far line) s = .next t ∧
        (far, line) ∈ t.mem.reissued ∧ expiriesOf t far (pageRegion p) = n ∧
        { t with mem.reissued := s.mem.reissued, mem.expiries := s.mem.expiries } = s) ∧
      (live → n < 16 → (far, line) ∈ s.mem.reissued → ∃ t, exec (.memTimeout far line) s = .next t ∧
        line ∈ t.mem.poison ∧ (far, line) ∉ t.mem.reissued ∧ expiriesOf t far (pageRegion p) = n ∧
        (line % 32768 ∈ (healthOf s far (pageRegion p) e.frame).rewritten →
          (far, pageRegion p, e.frame) ∈ t.mem.retired ++ t.flash.retired) ∧
        t.mem.base = s.mem.base ∧ t.mem.layers = s.mem.layers ∧
        { t with
          mem := s.mem, flash.retired := s.flash.retired, counters.values := s.counters.values, host := s.host
          sheaf := s.sheaf, out := s.out } = s) ∧
      (live → 16 ≤ n → s.holding.isolated = false → ∃ t, exec (.memTimeout far line) s = .next t ∧
        t.mem.deviceLost = true ∧ t.holding.isolated = true ∧
        (everyone, Hedge.memberLost s.holding.moduleId 1 s.run.head) ∈ t.out.hedge ∧ t.mem.base = s.mem.base) ∧
      (¬ live → exec (.memTimeout far line) s = .next s)) ∧
    (∀ (far : Bool) (region : Nat),
      (s.ready = true → region < 32 → s.mem.deviceLost = false → s.holding.isolated = false →
        ∃ t, exec (.memoryControllerFailure far region) s = .next t ∧ t.mem.deviceLost = true ∧
          t.holding.isolated = true ∧ (everyone, Hedge.memberLost s.holding.moduleId 1 s.run.head) ∈ t.out.hedge ∧
          t.mem.base = s.mem.base) ∧
      ((s.ready = false ∨ 32 ≤ region ∨ s.mem.deviceLost = true) → exec (.memoryControllerFailure far region) s = .next s))

/-! ### Discovery, restoration, export -/

/-- 14 R311 to R313, 15 R328, 18 R383: DISCOVER makes a candidate the master of its holding and offers its neighbours their IDs; a
module takes the one it is offered, answers, measures the configuration and offers its own neighbours theirs; a candidate, a module
of another ID, and a module whose configuration is locked do not take it; the master counts the answers with their least hop
counts, refuses a candidate or a module of another ID, and judges the holding after 100 ms; it repeats its offer to a vacant
position every 100 ms. Readings of the model it rests on: log entry 41. -/
def Obligations.DiscoveryRows : Prop :=
  ∀ s : State,
    (s.ready = true → hostControls s = true → masterCandidate s = true → ∃ t, exec .discover s = .next t ∧
      t.holding = { s.holding with
        isMaster := true, moduleId := s.holding.masterId, members := 1, offender := 0
        answered := [(s.holding.masterId, 0)], discoverAt := s.clock.up, reoffered := [], hops := 0
        state := if allReached t.holding then 2 else 1 } ∧
      OffersNeighbours 1 t ∧
      t.security.meas = (extendMeas 5 (padTo 32 (leBytes 16 (holdingConfig s.holding))) s).security.meas ∧
      { t with holding := s.holding, security.meas := s.security.meas, host := s.host, sheaf := s.sheaf, out := s.out } = s) ∧
    ((s.ready = false ∨ hostControls s = false ∨ masterCandidate s = false) → exec .discover s = .next s) ∧
    (s.ready = true → ∀ o : OfferMsg,
      let master : ModId := BitVec.ofNat 16 (bits o.config.toNat 32 16)
      let offered := withConfig o.config s.holding
      let same := holdingConfig s.holding = holdingConfig offered
      let answers := fun (t : State) (held : ModId) (candidate : Bool) =>
        t.out.hedge = s.out.hedge ++ [(master, .discoveryAnswer o.position held o.hops candidate)] ∧
        { t with holding.lastHedge := s.holding.lastHedge, sheaf := s.sheaf, out := s.out } = s
      let refuses := s.holding.state = 1 ∧ o.position ≠ s.holding.moduleId
      let locked := s.holding.setupLock = true ∧ ¬ same
      let again := s.assigned = true ∧ s.holding.moduleId = o.position ∧ same ∧ s.clock.up < s.holding.discoverAt + discoveryBound
      let takes := s.holding.isMaster = false ∧ masterCandidate s = false ∧
        ¬ (s.assigned = true ∧ same ∧ s.holding.moduleId ≠ o.position)
      (s.holding.isMaster = true → same →
        ∃ t, exec (.discoveryOffer o) s = .next t ∧ (refuses → Refused 5 o.position s t) ∧
          (¬ refuses → { t with holding.lastHedge := s.holding.lastHedge, sheaf := s.sheaf } = s)) ∧
      (((s.holding.isMaster = true ∧ ¬ same) ∨ (s.holding.isMaster = false ∧ masterCandidate s = true)) →
        ∃ t, exec (.discoveryOffer o) s = .next t ∧ answers t o.position true) ∧
      (s.holding.isMaster = false → masterCandidate s = false → s.assigned = true → same → s.holding.moduleId ≠ o.position →
        ∃ t, exec (.discoveryOffer o) s = .next t ∧ answers t s.holding.moduleId false) ∧
      (takes → locked → ∃ t, exec (.discoveryOffer o) s = .next t ∧
        { t with holding.lastHedge := s.holding.lastHedge, sheaf := s.sheaf } = s) ∧
      (takes → ¬ locked → ¬ again → ∃ t, exec (.discoveryOffer o) s = .next t ∧
        t.holding = { offered with
          moduleId := o.position, hops := o.hops, discoverAt := s.clock.up, lastHedge := s.clock.up } ∧
        (master, Hedge.discoveryAnswer o.position o.position o.hops false) ∈ t.out.hedge ∧
        (o.hops ≤ 9 → OffersNeighbours (o.hops + 1) t) ∧
        t.security.meas = (extendMeas 5 (padTo 32 (leBytes 16 (holdingConfig offered))) s).security.meas ∧
        { t with
          holding := s.holding, security.meas := s.security.meas, host := s.host, sheaf := s.sheaf, out := s.out } = s) ∧
      (takes → ¬ locked → again → ∃ t, exec (.discoveryOffer o) s = .next t ∧
        t.holding.hops = min s.holding.hops o.hops ∧
        (master, Hedge.discoveryAnswer o.position o.position o.hops false) ∈ t.out.hedge ∧
        (o.hops < s.holding.hops → o.hops ≤ 9 → OffersNeighbours (o.hops + 1) t) ∧
        { t with
          holding.hops := s.holding.hops, holding.lastHedge := s.holding.lastHedge, sheaf := s.sheaf, out := s.out } = s)) ∧
    (s.ready = false → ∀ o : OfferMsg, exec (.discoveryOffer o) s = .next s) ∧
    (∀ (position held : ModId) (hops : Nat) (candidate : Bool),
      let c := Instr.discoveryAnswer position held hops candidate
      let mine := s.ready = true ∧ s.holding.isMaster = true ∧ s.assigned = true ∧ inHolding s.holding position = true
      let least := ((s.holding.answered.filter fun a => a.1 == position).map (·.2)).foldl min hops
      let all := (s.holding.answered.filter fun a => a.1 != position) ++ [(position, least)]
      let noted := fun (t : State) =>
        t.holding.answered = all ∧ t.holding.members = satTo 64 all.length ∧
        t.holding.state = (if (s.holding.state = 1 ∨ s.holding.state = 3) ∧ allReached t.holding then 2 else s.holding.state) ∧
        { t with
          holding.answered := s.holding.answered, holding.members := s.holding.members, holding.state := s.holding.state
          holding.lastHedge := s.holding.lastHedge, sheaf := s.sheaf } = s
      let fits := candidate = false ∧ held = position
      (¬ mine → exec c s = .next s) ∧
      (mine → s.holding.state = 1 → ∃ t, exec c s = .next t ∧
        (candidate = true → Refused 4 position s t) ∧ (candidate = false → held ≠ position → Refused 5 position s t) ∧
        (fits → noted t)) ∧
      (mine → s.holding.state ≠ 1 → ∃ t, exec c s = .next t ∧
        (vacant s position = true → fits → noted t) ∧
        (¬ (vacant s position = true ∧ fits) → { t with holding.lastHedge := s.holding.lastHedge, sheaf := s.sheaf } = s))) ∧
    (let due := s.holding.isMaster = true ∧ s.holding.state = 1 ∧ s.holding.discoverAt + discoveryBound ≤ s.clock.up;
      (due → (∀ a, s.holding.answered.find? (fun a => decide (9 < a.2)) = some a →
          exec .discoveryTimeout s = .next { s with
            holding.state := 6, holding.offender := a.1, holding.moduleId := 0xFFFF }) ∧
        (s.holding.answered.find? (fun a => decide (9 < a.2)) = none →
          exec .discoveryTimeout s = .next { s with holding.state := if allReached s.holding then 2 else 3 })) ∧
      (¬ due → exec .discoveryTimeout s = .next s)) ∧
    (∀ position : ModId,
      let last := ((s.holding.reoffered.find? fun r => r.1 == position).map (·.2)).getD s.holding.discoverAt
      let due := s.ready = true ∧ s.holding.isMaster = true ∧ s.assigned = true ∧ (s.holding.state = 2 ∨ s.holding.state = 3) ∧
        vacant s position = true ∧ last + discoveryBound ≤ s.clock.up
      (due → ∃ t, exec (.discoveryReoffer position) s = .next t ∧
        t.holding.reoffered = (s.holding.reoffered.filter fun r => r.1 != position) ++ [(position, s.clock.up)] ∧
        t.out.hedge = s.out.hedge ++
          [(position, .discoveryOffer ⟨position, BitVec.ofNat 128 (holdingConfig s.holding), 1, 0⟩)] ∧
        { t with holding.reoffered := s.holding.reoffered, sheaf := s.sheaf, out := s.out } = s) ∧
      (¬ due → exec (.discoveryReoffer position) s = .next s))

/-- 15 R331 to R334, 16 R351, R352, R356: an acknowledgement lets records go, and a waiting record that fits goes to the sink's ring,
the control words after it; unacknowledged records are written again when their time or distance has passed; the budget of
evaluation abandons what is left of it; a module of the run whose shard is lost stands in need of restoration, to the step that the
sink vouches for; it takes the run and the segments of a survivor; a rebuilt shard that agrees with the recorded fingerprint, or a
survivor whose own shard is the one recorded, stands restored, and one that disagrees does not; one that fails stays so.
Readings of the model it rests on: log entry 73. -/
def Obligations.ExportAndRestorationRows : Prop :=
  ∀ s : State,
    let x := s.exporter
    let size := x.cfg.sinkSize
    let control := fun (produced seq : Nat) => (sinkArea s, leBytes 8 produced ++ leBytes 8 (seq + 1), false)
    (∀ acked : W64,
      let y := ackedTo acked.toNat x
      (s.ready = true → pushes s = true → (∀ r ∈ y.retained, r.at_.isSome = true) →
        exec (.exportAckPoll acked) s = .next (advance { s with exporter := y })) ∧
      (∀ (sent : List RetainedRecord) (r : RetainedRecord), s.ready = true → pushes s = true → y.retained = sent ++ [r] →
        (∀ e ∈ sent, e.at_.isSome = true ∧ e.seq ≠ r.seq) → r.at_ = none →
        (unacknowledged y + r.bytes.length ≤ size → ∃ u, exec (.exportAckPoll acked) s = .next (advance u) ∧
          u.exporter = { y with
            produced := y.produced + r.bytes.length
            retained := sent ++ [{ r with at_ := some y.produced, head := s.run.head, time := s.clock.up }] } ∧
          (HostSink s → u.out.host = s.out.host ++ ringWrites s y.produced r.bytes ++
              [control (y.produced + r.bytes.length) r.seq] ∧
            { u with exporter := s.exporter, out := s.out } = s)) ∧
        (size < unacknowledged y + r.bytes.length →
          exec (.exportAckPoll acked) s = .next (advance { s with exporter := y }))) ∧
      ((s.ready = false ∨ pushes s = false) → exec (.exportAckPoll acked) s = .next s)) ∧
    (let sent := x.retained.filter fun r => r.at_.isSome
      let due := fun (r : RetainedRecord) => pushes s = true ∧
        (distanceReached s.run.head r.head x.cfg.ackDistance.toNat = true ∨ r.time + ms x.cfg.ackTime ≤ s.clock.up);
      (∀ r more, s.ready = true → sent = r :: more → due r → ∃ t, exec .exportResend s = .next t ∧
        t.exporter = { x with
          resends := x.resends + 1
          retained := x.retained.map fun e => if e.at_.isSome then { e with head := s.run.head, time := s.clock.up } else e } ∧
        (HostSink s → t.out.host = s.out.host ++ sent.flatMap (fun e => ringWrites s (e.at_.getD 0) e.bytes) ∧
          { t with exporter := s.exporter, counters.values := s.counters.values, out := s.out } = s)) ∧
      ((s.ready = false ∨ sent = [] ∨ ∀ r more, sent = r :: more → ¬ due r) → exec .exportResend s = .next s)) ∧
    (let late := fun (t : TaskInst) => t.stream == streamE && t.step == stepOf s.run.head && t.incomplete;
      (budgetExpired s = true → s.sched.tasks.any late = true →
        ∃ u, exec .evalBudgetExpiry s = .next (advance u) ∧ u.exporter.evalAbandoned = true ∧
          (∀ t ∈ s.sched.tasks, late t = true → ∃ t' ∈ u.sched.tasks, t'.step = t.step ∧ t'.task = t.task ∧
            t'.phase = .abandoned ∧ t'.cells = []) ∧
          (∀ t ∈ s.sched.tasks, late t = false → t ∈ u.sched.tasks) ∧ u.mem.base = s.mem.base ∧ u.mem.layers = s.mem.layers ∧
          u.votes = s.votes) ∧
      ((budgetExpired s = false) → exec .evalBudgetExpiry s = .next s) ∧
      (budgetExpired s = true → s.sched.tasks.any late = false → exec .evalBudgetExpiry s = .next (advance s))) ∧
    (exec (.shardRestoration .failed) s = .next (advance (if s.holding.restore = 1 ∨ s.holding.restore = 2 then
      { s with holding.restore := 5 } else s))) ∧
    (∀ m : ModId,
      let needs := s.ready = true ∧ m ∈ runModules s ∧ s.run.isOn = true ∧ m ∉ s.holding.restoring ∧ holdsHome s m = true
      let need := s.holding.restoring ++ [m]
      let c := Instr.shardRestoration (.waiting m)
      (needs → ∃ u, exec c s = .next (advance u) ∧ m ∈ u.holding.restoring ∧
        { u with
          holding.restore := s.holding.restore, holding.restoring := s.holding.restoring
          holding.restoreTarget := s.holding.restoreTarget, holding.restoreUpTo := s.holding.restoreUpTo
          holding.restoreHost := s.holding.restoreHost } = s ∧
        ((resumeStep s = 0 ∨ x.cfg.enable = false) → u.holding.restore = 5) ∧
        (∀ k, resumeStep s = k + 1 → x.cfg.enable = true →
          (restoreTargetOf { s with holding.restoring := need } need k = none → u.holding.restore = 5) ∧
          (∀ t, restoreTargetOf { s with holding.restoring := need } need k = some t → s.holding.restore ≠ 1 →
            s.holding.restore ≠ 2 → u.holding.restore = 1 ∧ u.holding.restoreTarget = t ∧ u.holding.restoreUpTo = k ∧
              u.holding.restoreHost = decide (t < k) ∧
              (t < k → ∀ y ∈ runModules s, y ∈ u.holding.restoring)))) ∧
      (¬ needs → exec c s = .next (advance s))) ∧
    (∀ run : Option RunCopy, s.ready = true → s.assigned = true →
      let c := Instr.shardRestoration (.reinstate s.holding.moduleId run)
      (s.run.isOn = true → exec c s = .next (advance { s with
        holding.restore := 2, holding.restoring := addNew s.holding.restoring s.holding.moduleId })) ∧
      (s.run.isOn = false → run = none → exec c s = .next (advance s)) ∧
      (∀ r, s.run.isOn = false → run = some r →
        let known := { s with
          holding.restore := 2, holding.restoring := addNew s.holding.restoring s.holding.moduleId }
        (installCopies r.segments known = none → exec c s = .next (advance { s with holding.restore := 5 })) ∧
        ((installCopies r.segments known).isSome = true → ∃ u, exec c s = .next (advance u) ∧ u.run.isOn = true ∧
          u.run.halt = .smear ∧ u.run.head = posOf (r.target + 1) passF 0 ∧ u.run.leadModule = r.lead ∧
          u.run.seed = r.seed ∧ u.run.modes = r.modes ∧ u.holding.setupLock = true ∧ u.holding.restore = 2 ∧
          u.holding.restoreTarget = r.target ∧ s.clock.now ≤ u.clock.now))) ∧
    (∀ (m : ModId) (run : Option RunCopy), s.ready = true → s.assigned = true → m ≠ s.holding.moduleId →
      let helps := m ∈ s.holding.restoring ∧ (s.holding.restore = 1 ∨ s.holding.restore = 2)
      let c := Instr.shardRestoration (.reinstate m run)
      (helps → ∃ u, exec c s = .next (advance u) ∧ u.holding.restore = 2 ∧
        (s.holding.isMaster = true → inHolding s.holding m = true → (m, Hedge.setupWrite 0x18 8 1) ∈ u.out.hedge) ∧
        (∀ e ∈ s.coll.groups, ∀ g, e.2 = some g → m ∈ excludedIds g.def48 ++ definedMembers s g.def48 →
          (definedMembers s g.def48).head? = some s.holding.moduleId →
          ∀ p, p < 3 → (m, Hedge.groupDefinition p g.epoch (slice g.def48 (16 * p) 16)) ∈ u.out.hedge) ∧
        { u with holding.restore := s.holding.restore, sheaf := s.sheaf, out := s.out } = s) ∧
      (¬ helps → exec c s = .next (advance s))) ∧
    (∀ (t : Nat) (shard prior : ShardImage) (previous recorded : BitVec 256) (nextSeq produced : Nat) (logs : List (Nat × Bytes)),
      let due := s.run.isOn = true ∧ s.holding.moduleId ∈ s.holding.restoring ∧
        (s.holding.restore = 1 ∨ s.holding.restore = 2) ∧ t = s.holding.restoreTarget ∧ s.run.halt ≠ .running
      let c := Instr.shardRestoration (.rebuilt t shard prior previous recorded nextSeq produced logs)
      let restored := fun (u : State) =>
        u.run.head = posOf (t + 1) passF 0 ∧ u.run.halt = .smear ∧ u.run.lastCommit = some t ∧ u.mem.damaged = [] ∧
        u.exporter.chain = recorded ∧ u.votes.openStep = none ∧ u.holding.isolated = false ∧
        s.holding.moduleId ∉ u.holding.lost ∧ s.holding.moduleId ∉ u.holding.restoring ∧
        (everyone, Hedge.agreement agreeRestore (BitVec.ofNat 64 t) (posOf (t + 1) passF 0)) ∈ u.out.hedge
      (due → survived t recorded s = true → ∃ u, exec c s = .next (advance u) ∧ restored u ∧ u.mem.base = s.mem.base ∧
        u.exporter.nextSeq = x.nextSeq ∧ u.exporter.produced = x.produced) ∧
      (due → survived t recorded s = false → rebuiltPrint t shard prior previous s = recorded →
        ∃ u, exec c s = .next (advance u) ∧ restored u ∧ u.exporter.nextSeq = nextSeq ∧ u.exporter.produced = produced ∧
          (∀ page bs, (neededShard t shard s).pages = [(page, bs)] → ∀ i, i < pageBytes →
            tget 0 u.mem.base (page * pageBytes + i) = bs.getD i 0)) ∧
      (due → survived t recorded s = false → rebuiltPrint t shard prior previous s ≠ recorded →
        exec c s = .next (advance { s with holding.restore := 6 })) ∧
      (¬ due → exec c s = .next (advance s)))


/-! ### The vector engine -/

/-- 05 R89, R92 to R95: a vector instruction on a core that can execute it moves that core's engine to its next instruction and
writes only the register its VD names (COMPRESS writes M7 too); the live mask, the scalars, the place in the row, and every other
core's engine, stay; nothing else changes but the served task, counters, the trap count and the trace. An engine that stands at the
end of a group, of the body or of a row has first moved on to the next. On a core that cannot, the instruction has no effect
(log entry 1).
Readings of the model it rests on: log entry 67. -/
def Obligations.VectorRowsKeepTheRest : Prop :=
  ∀ (row : Nat → VecArgs → Instr) (op : VecOp) (bank core : Nat) (a : VecArgs) (s : State), (row, op, bank) ∈ vecRows →
    (¬ Engaged op core a s → exec (row core a) s = .next s) ∧
    (Engaged op core a s → ∃ t, exec (row core a) s = .next t ∧
      (let c := engineOf s core
       let c' := vecOf t core
       c'.pc = c.pc + 1 ∧
       { c' with
         pc := c.pc, v := c.v, m := c.m, d := c.d, stores := c.stores, raised := c.raised, events := c.events } = c ∧
       (op ≠ .store → c'.stores = c.stores) ∧
       (∀ r, r ≠ a.vd ∨ bank ≠ 1 → vReg c' r = vReg c r) ∧
       (∀ r, r ≠ a.vd ∨ bank ≠ 2 → ¬(op = .compress ∧ r = 7) → mReg c' r = mReg c r) ∧
       (∀ r, r ≠ a.vd ∨ bank ≠ 3 → dReg c' r = dReg c r)) ∧
      (∀ k, k ≠ core → vecOf t k = vecOf s k) ∧
      (∀ x ∈ s.sched.tasks, (x.step, x.task) ≠ (((engineOf s core).task).getD (0, 0)) → x ∈ t.sched.tasks) ∧
      { t with
        vec := s.vec, sched.tasks := s.sched.tasks, counters.values := s.counters.values
        numerics.trap := s.numerics.trap, sheaf := s.sheaf } = s)

/-- 05 R93, R95, R97, R103: what the instructions that write V[VD] lane by lane give: an acting lane the instruction's result, a
live lane predicated off +0 or what it held, every other lane what it held.
Readings of the model it rests on: log entries 40 and 67. -/
def Obligations.VectorLaneResults : Prop :=
  ∀ (core : Nat) (a : VecArgs) (s : State),
    let c := engineOf s core
    (∀ (row : Nat → VecArgs → Instr) (op : VecOp) (f : W32 → W32 → W32 → W32), (row, op, f) ∈ laneRows → Engaged op core a s →
      ∃ t, exec (row core a) s = .next t ∧
        LanesAre (c.live &&& mReg c a.mask) a (fun j => f (laneA a c j) (operandB a c j) (operandC a c j)) c (vecOf t core)) ∧
    (Engaged .sel core a s → ∃ t, exec (.vSel core a) s = .next t ∧
      LanesAre c.live a (fun j => if (mReg c a.mask).getLsbD j then laneA a c j else operandB a c j) c (vecOf t core)) ∧
    (Engaged .laneidx core a s → ∃ t, exec (.vLaneidx core a) s = .next t ∧
      LanesAre (c.live &&& mReg c a.mask) a (fun j => BitVec.ofNat 32 (c.first + j)) c (vecOf t core)) ∧
    (Engaged .randu core a s → ∃ t, exec (.vRandu core a) s = .next t ∧
      LanesAre (c.live &&& mReg c a.mask) a (fun j =>
        toB32 (.fin false (((engineEnv .randu a s core).draw a.va (c.first + j) a.vb).toNat / 2 ^ 40) (-24))) c (vecOf t core)) ∧
    (Engaged .randb core a s → ∃ t, exec (.vRandb core a) s = .next t ∧
      LanesAre (c.live &&& mReg c a.mask) a (fun j =>
        ((engineEnv .randb a s core).draw a.va (c.first + j) a.vb).extractLsb' 32 32) c (vecOf t core)) ∧
    (Engaged .load core a s → ∃ t, exec (.vLoad core a) s = .next t ∧
      LanesAre (c.live &&& mReg c a.mask) a (fun j => toB32 ((engineEnv .load a s core).load a.va (c.first + j))) c (vecOf t core)) ∧
    (Engaged .expand core a s → ∃ t, exec (.vExpand core a) s = .next t ∧
      LanesAre (c.live &&& mReg c a.mask) a (fun j =>
        (vReg c a.va).getD ((lanesOf (c.live &&& mReg c a.mask)).filter (· < j)).length 0) c (vecOf t core))

/-- 05 R93, R95, R98: compares and mask operations on M[VD], COMPRESS, the reductions, the wide accumulators and STORE.
Readings of the model it rests on: log entries 67, 72 and 77. -/
def Obligations.VectorMasksSumsAndStores : Prop :=
  ∀ (core : Nat) (a : VecArgs) (s : State),
    let c := engineOf s core
    let act := c.live &&& mReg c a.mask
    (∀ (row : Nat → VecArgs → Instr) (op : VecOp) (rel : Machine.Num → Machine.Num → Bool), (row, op, rel) ∈ cmpRows → Engaged op core a s →
      ∃ t, exec (row core a) s = .next t ∧ ∀ j, j < 64 → (mReg (vecOf t core) a.vd).getLsbD j =
        (act.getLsbD j && rel (ofB32 (laneA a c j)) (ofB32 (operandB a c j)))) ∧
    (∀ (row : Nat → VecArgs → Instr) (op : VecOp) (f : Bool → Bool → Bool), (row, op, f) ∈ maskRows → Engaged op core a s →
      ∃ t, exec (row core a) s = .next t ∧ ∀ j, j < 64 → (mReg (vecOf t core) a.vd).getLsbD j =
        if act.getLsbD j then f ((mReg c (a.va % 8)).getLsbD j) ((mReg c (a.vb % 8)).getLsbD j)
        else if c.live.getLsbD j && a.zero then false else (mReg c a.vd).getLsbD j) ∧
    (Engaged .compress core a s → ∃ t, exec (.vCompress core a) s = .next t ∧ ∀ j, j < 64 →
      (vReg (vecOf t core) a.vd).getD j 0 = (((lanesOf act).map (laneA a c)).getD j 0) ∧
      (mReg (vecOf t core) 7).getLsbD j = decide (j < (lanesOf act).length)) ∧
    (∀ (row : Nat → VecArgs → Instr) (op : VecOp) (f : List Machine.Num → Machine.Num), (row, op, f) ∈ reduceRows → Engaged op core a s →
      ∃ t, exec (row core a) s = .next t ∧
        LiveLanesAre a (toB32 (f ((lanesOf act).map fun j => ofB32 (laneA a c j)))) c (vecOf t core)) ∧
    (Engaged .wsum core a s → ∃ t, exec (.vWsum core a) s = .next t ∧
      LiveLanesAre a (toB32 (fold64 ((dReg c a.va).map ofB64))) c (vecOf t core)) ∧
    (Engaged .wacc core a s → ∃ t, exec (.vWacc core a) s = .next t ∧ ∀ j, j < 64 →
      (dReg (vecOf t core) a.vd).getD j 0 =
        if act.getLsbD j then toB64 (rnd64 ((ofB64 ((dReg c a.vd).getD j 0)).add (ofB32 (laneA a c j))))
        else if c.live.getLsbD j && a.zero then 0 else (dReg c a.vd).getD j 0) ∧
    (Engaged .store core a s → ∃ t, exec (.vStore core a) s = .next t ∧
      (let es := (lanesOf c.live).map fun j => (c.first + j, if act.getLsbD j then laneA a c j else 0)
       (vecOf t core).stores = c.stores ++ es.map (fun e => (a.vb, e)) ∧
       ∀ x o, servedTask s c = some x → (outsOf s x.2.1 x.2.2.1)[a.vb]? = some o →
         ∃ u, findTask t x.1.step x.1.task = some u ∧ u.cells = (storeElems a.vb o (es.map fun e => e.1) (vecOf t core)).cells ++ x.1.cells)) ∧
    (Engaged .nop core a s → ∃ t, exec (.vNop core a) s = .next t ∧ vecOf t core = { c with pc := c.pc + 1 })

/-! ### The task kinds -/

/-- 12 R252, R253, R261, R262, 05 R89, R91, 06 R109, R112, R120, 11 R224: a kind's row starts the instance it names when that is
eligible, of the kind, first in line, its unit can take it and its pages have frames, with the work of the kind as its results, not
yet published; a program engages the core's vector engine at the first group of its first row; an address formed at run time
outside its table ends the instance as an address error; an instance of a statistic kind in a step that is not due completes at
once; a FOLD brings a journalled chunk home, passes the chunks that are done over and journals the next. An instance that cannot
start stays as it is. Readings of the model it rests on: log entry 66. -/
def Obligations.TaskKindsStart : Prop :=
  ∀ (r : TaskRun) (s : State),
    (∀ (row : TaskRun → Instr) (kind : Nat) (work : State → Nat → TaskInst → Segment → TaskRec → Work),
      (row, kind, work) ∈ taskRows →
      (startable s kind r = none → exec (row r) s = .next (advance s)) ∧
      (∀ t g k, startable s kind r = some (t, g, k) →
        ∃ v, exec (row r) s = .next (advance v) ∧
          ((work s r.unit t g k).fail = true → AddressFault r s v) ∧
          ((work s r.unit t g k).fail = false → Started r (work s r.unit t g k) t s v) ∧
          ((imageOf g k = none ∨ (kind ≠ 1 ∧ kind ≠ 5)) → v.vec = s.vec) ∧
          (∀ img, kind = 1 ∨ kind = 5 → imageOf g k = some img →
            let c := vecOf v r.unit
            let n := ((outsOf s g k).head?.map Operand.row).getD 0
            c.task = some (r.step, r.task) ∧ c.gate = t.gate ∧ c.pc = 0 ∧ c.first = 0 ∧ c.row = 0 ∧ c.group = 0 ∧
            c.tail = false ∧ c.m = [] ∧ c.d = [] ∧ (∀ j, j < 64 → c.live.getLsbD j = decide (j < n)) ∧
            (∀ core, core ≠ r.unit → vecOf v core = vecOf s core)))) ∧
    (∀ (row : TaskRun → Instr) (kind : Nat), (row, kind) ∈ statRows →
      (findTask s r.step r.task = none → exec (row r) s = .next (advance s)) ∧
      (∀ t, findTask s r.step r.task = some t →
        let atOnce := notDue s t = true ∧ kindOf s t = kind
        (atOnce → eligible s t = true → ∃ v, exec (row r) s = .next (advance v) ∧
          findTask v r.step r.task = some { t with phase := .published, attempt := 0, pubSeq := s.sched.pubs + 1 } ∧
          OthersStay r.step r.task s v ∧ { v with sched.tasks := s.sched.tasks, sched.pubs := s.sched.pubs } = s) ∧
        (atOnce → eligible s t = false → exec (row r) s = .next (advance s)) ∧
        (¬ atOnce → startable s kind r = none → exec (row r) s = .next (advance s)))) ∧
    (∀ t g k, startable s 0x02 r = some (t, g, k) → notDue s t = false →
      ∃ v, exec (.matmulStat r) s = .next (advance v) ∧ Started r (matmulStatRun s r.unit t g k) t s v) ∧
    (∀ t g k st, startable s 0x0F r = some (t, g, k) → notDue s t = false → g.stats[k.record]? = some st →
      let j := journalOf s r.step r.task
      let total := (foldChunks st).length
      let done := j.done + (if j.slot.isSome then 1 else 0)
      ∃ v u, exec (.fold r) s = .next (advance v) ∧ findTask v r.step r.task = some u ∧ u.phase = .computed ∧
        u.attempt = (t.attempt + 1) % 256 ∧ u.unit = r.unit ∧ u.tiles = max 1 (total - done) ∧ u.done = 0 ∧
        (j.slot = none → u.cells = (foldWork s (readerOf s t) st done r.step).cells) ∧
        (∀ a, tget 0 v.mem.base a = ((j.slot.bind fun x => cellAt x.2 a)).getD (tget 0 s.mem.base a)) ∧
        journalOf v r.step r.task = ⟨r.step, r.task, done,
          if done < total then some (done, chunkCells s st done u.cells) else none⟩ ∧
        OthersStay r.step r.task s v ∧
        { v with
          sched.tasks := s.sched.tasks, mem := s.mem, counters.values := s.counters.values, sheaf := s.sheaf } = s)

/-- 12 R252, 05 R99, R100, 04 R71, R81: what MATMUL without an epilogue, NORM, SOFTMAX, GATHER and a MOVE within the module
compute, element by element of the output view, before it is published.
Readings of the model it rests on: log entry 40. -/
def Obligations.TaskResults : Prop :=
  ∀ (r : TaskRun) (s : State) (t : TaskInst) (g : Segment) (k : TaskRec),
    (∀ a b c, startable s 0x01 r = some (t, g, k) → k.program = noneIndex → insOf s g k = [a, b] → outsOf s g k = [c] →
      ∃ v u, exec (.matmul r) s = .next (advance v) ∧ findTask v r.step r.task = some u ∧
        u.cells = (c.write fun i =>
          let f := matmulForm k
          let rd := readerOf s t
          (refElement (stintLength k.stint) (matmulK f a) .zero false
            (fun n => a.read s rd (a.linear (coordsA f n (c.coords i))))
            (fun n => b.read s rd (b.linear (coordsB f n (c.coords i))))).wide).cells) ∧
    (∀ x y, startable s 0x06 r = some (t, g, k) → insOf s g k = [x] → outsOf s g k = [y] →
      ∃ v u, exec (.norm r) s = .next (advance v) ∧ findTask v r.step r.task = some u ∧
        u.cells = (y.write fun i => ((List.range x.rows).flatMap fun j =>
          normOf (byteAt k.param 0 == 0) (param32 k) none (rowValues s (readerOf s t) x j)).getD i .zero).cells) ∧
    (∀ x a b y, startable s 0x06 r = some (t, g, k) → insOf s g k = [x, a, b] → outsOf s g k = [y] →
      ∃ v u, exec (.norm r) s = .next (advance v) ∧ findTask v r.step r.task = some u ∧
        u.cells = (y.write fun i => ((List.range x.rows).flatMap fun j =>
          normOf (byteAt k.param 0 == 0) (param32 k)
            (some (rowValues s (readerOf s t) a 0, rowValues s (readerOf s t) b 0))
            (rowValues s (readerOf s t) x j)).getD i .zero).cells) ∧
    (∀ x y, startable s 0x07 r = some (t, g, k) → insOf s g k = [x] → outsOf s g k = [y] →
      ∃ v u, exec (.softmax r) s = .next (advance v) ∧ findTask v r.step r.task = some u ∧
        u.cells = (y.write fun i => ((List.range x.rows).flatMap fun j =>
          softmaxOf (rowValues s (readerOf s t) x j)).getD i .zero).cells) ∧
    (∀ tb ix o, startable s 0x09 r = some (t, g, k) → insOf s g k = [tb, ix] → outsOf s g k = [o] →
      let index := fun i => targetOf (ix.read s (readerOf s t) i)
      (∀ i, i < o.span 1 → index i = -1 ∨ (0 ≤ index i ∧ index i < tb.span 1)) →
      ∃ v u, exec (.gather r) s = .next (advance v) ∧ findTask v r.step r.task = some u ∧
        u.cells = (o.write fun i =>
          let c := o.coords i
          if c.getD 1 0 < o.span 1 ∧ index (c.getD 1 0) ≠ -1 then
            tb.read s (readerOf s t) (tb.linear (withRow c (index (c.getD 1 0)).toNat))
          else .zero).cells) ∧
    (∀ src dst, startable s 0x10 r = some (t, g, k) → insOf s g k = [src] → outsOf s g k = [dst] →
      BitVec.ofNat 16 (field k.param 0 2) = (0xFFFF : W16) →
      ∃ v u, exec (.move r) s = .next (advance v) ∧ findTask v r.step r.task = some u ∧
        u.cells = (dst.write fun i => src.value (tensorBytes s (readerOf s t) src.tensor) i).cells)

/-- 08 R153, R165, R166: UPDATE starts once the hopper has a frame for every page it writes; its results are staged, and so is
the change of its fallow queue; before the update's first step, and on a module that holds no shard of the master, it writes
nothing; until then it waits.
Readings of the model it rests on: log entry 70. -/
def Obligations.UpdatesAreStaged : Prop :=
  ∀ (r : TaskRun) (s : State),
    (startable s 0x0D r = none → exec (.update r) s = .next (advance s)) ∧
    (∀ (t : TaskInst) (g : Segment) (k : TaskRec) (u : UpdateRec),
      startable s 0x0D r = some (t, g, k) → g.updates[k.record]? = some u →
      let p := (insOf s g k).head?.map fun o => o.values s (readerOf s t)
      let x := updateTask s (readerOf s t) r.unit t.seg t.step g u p
      let frames := (stageFrames r.step (stagedPages x.1) s).bind (freshFrames r.step r.task (outputPages s t))
      (frames = none → exec (.update r) s = .next (advance s)) ∧
      (frames.isSome = true → ∃ v y, exec (.update r) s = .next (advance v) ∧
        findTask v r.step r.task = some y ∧ y.phase = .computed ∧ y.unit = r.unit ∧ y.cells = x.1.cells ∧
        y.staged = x.1.staged ∧ y.findings = x.1.findings ∧
        (∀ q ∈ stagedPages x.1, v.mem.hopper.any (fun h => h.step == r.step && h.page == q) = true) ∧
        v.fallow = (match x.2 with
          | some q => (s.fallow.filter fun z => z.master != q.master) ++ [q]
          | none => s.fallow) ∧
        v.mem.base = s.mem.base ∧ v.mem.layers = s.mem.layers ∧ OthersStay r.step r.task s v ∧
        (∀ o, updateOps s u = some o → (r.step < u.t0 ∨ o.master.tensor.held = false) →
          y.cells = [] ∧ y.staged = true ∧ v.fallow = s.fallow)))

/-- 10 R198, R199, R204, R212, R215, 12 R252: a COLLECTIVE starts with the muster of its group: the member sends its signature and
its sequence number to the group's lead, which takes its own; EVAL_REDUCE moves its data without one; a module outside the group
ends it with COLL_MISMATCH, a member of a group that has lost a module with MEMBER_LOST. A row whose operation is not the record's
has no effect.
Readings of the model it rests on: log entries 29 and 48. -/
def Obligations.CollectivesStart : Prop :=
  ∀ (r : TaskRun) (s : State),
    (∀ (row : TaskRun → Instr) (op : Nat), (row, op) ∈ collRows → startable s 0x0B r = none →
      exec (row r) s = .next (advance s)) ∧
    (startable s 0x13 r = none → exec (.evalReduce r) s = .next (advance s)) ∧
    (∀ (t : TaskInst) (g : Segment) (k : TaskRec),
      let c := (collOf s t g k).1
      let ms := membersOf s c.group
      let member := ms.contains s.holding.moduleId
      let ends := fun (v : State) (status : Nat) => ∃ u, findTask v r.step r.task = some u ∧ u.phase = .published ∧
        u.status = status ∧ u.cells = []
      (∀ (row : TaskRun → Instr) (op : Nat), (row, op) ∈ collRows → startable s 0x0B r = some (t, g, k) →
        ((collForm k).op ≠ op → exec (row r) s = .next (advance s)) ∧
        ((collForm k).op = op → member = true → ms.any (fun m => s.holding.lost.contains m) = false →
          ∃ w c', { c' with segs := c.segs } = c ∧ c'.op = op ∧ c'.group = (collForm k).group ∧ c'.seq = t.seq ∧
            Started { r with tiles := 1 } {} t { s with coll.live := s.coll.live ++ [c'] } w ∧
            exec (row r) s = .next (advance (
              if ms.headD 0 = s.holding.moduleId then
                takeMuster s.holding.moduleId c.group c.epoch c.seq (musterSignature c') c.seedbed w
              else sendHedge (ms.headD 0) (.muster c.group c.epoch c.seq (musterSignature c') c.seedbed) w))) ∧
        ((collForm k).op = op → member = true → ms.any (fun m => s.holding.lost.contains m) = true →
          ∃ v, exec (row r) s = .next (advance v) ∧ ends v stMemberLost ∧
            (s.votes.openStep.isSome = true → v.votes.word.getLsbD vbMemberLost = true)) ∧
        ((collForm k).op = op → member = false →
          ∃ v, exec (row r) s = .next (advance v) ∧ ends v stCollMismatch ∧
            (s.votes.openStep = some r.step → v.votes.word.getLsbD 9 = true))) ∧
      (startable s 0x13 r = some (t, g, k) →
        (member = true → ∃ w c', { c' with segs := c.segs } = c ∧ c'.op = opEval ∧
          Started { r with tiles := 1 } {} t { s with coll.live := s.coll.live ++ [c'] } w ∧
          exec (.evalReduce r) s = .next (advance (moveData c' w))) ∧
        (member = false → ∃ v, exec (.evalReduce r) s = .next (advance v) ∧ ends v stCollMismatch)))

/-- 16 R346, R351, R352, 12 R252, 14 R303: FINGERPRINT forms the records of its step as soon as its commit work is done and there is
room, the fingerprint chained from the last, and keeps the record for the sink while export is enabled; without room it waits; EXPORT
emits the records kept as far as the sink has space; MOVE from a peer asks that peer for every range of its source, 224 bytes at
most in a request.
Readings of the model it rests on: log entry 35. -/
def Obligations.CommitAndMoveKinds : Prop :=
  ∀ (r : TaskRun) (s : State),
    (∀ (row : TaskRun → Instr) (kind : Nat), (row, kind) ∈ ([(.fingerprint, 0x12), (.exportRecord, 0x11), (.move, 0x10)] :
      List ((TaskRun → Instr) × Nat)) → startable s kind r = none → exec (row r) s = .next (advance s)) ∧
    (∀ (t : TaskInst) (g : Segment) (k : TaskRec),
      (startable s 0x12 r = some (t, g, k) → k.outView = [] →
        (∀ c, s.votes.commits.find? (fun c => c.step == r.step) = some c →
          let x := s.exporter
          let sections := (formSections r.step s).filter fun y => x.cfg.enable || y.kind != 1
          let len := 256 + (sections.map fun y => y.bytes.length).foldl (· + ·) 0
          let room := x.cfg.enable = false ∨ retainedBytes x + len ≤ stagingSize s
          let ready := (∀ c ∈ s.votes.commits, c.step = r.step → c.fingerprintDone = false) ∧ commitWorkDone s r.step = true
          (c.fingerprintDone = true → ∃ v, exec (.fingerprint r) s = .next (advance v) ∧ Started r {} t s v) ∧
          ((∀ x ∈ s.votes.commits, x.step = r.step → x.fingerprintDone = false) → commitWorkDone s r.step = false →
            exec (.fingerprint r) s = .next (advance s)) ∧
          (ready → room → s.holding.restore ≠ 3 →
            ∃ v, exec (.fingerprint r) s = .next (advance v) ∧
              v.exporter.chain = digestBits (sha256 (digestBytes x.chain ++ differenceRecords x.cfg.scope sections)) ∧
              v.exporter.prevChain = x.chain ∧ v.exporter.chainStep = some r.step ∧ v.mem.oldHomes = [] ∧
              (x.cfg.enable = true → x.acked < x.nextSeq → v.exporter.nextSeq = x.nextSeq + 1 ∧
                ∃ e, v.exporter.retained = x.retained ++ [e] ∧ e.seq = x.nextSeq ∧ e.step = r.step ∧ e.at_ = none ∧
                  e.bytes = stepHeader s r.step x.nextSeq sections.length len x.first false v.exporter.chain x.chain ++
                    sections.flatMap Section.bytes) ∧
              (x.cfg.enable = false → v.exporter.nextSeq = x.nextSeq ∧ v.exporter.retained = x.retained) ∧
              ∃ u, findTask v r.step r.task = some u ∧ u.phase = .computed ∧ u.unit = r.unit) ∧
          (ready → ¬ room → x.waiting ≠ some r.step → exec (.fingerprint r) s = .next (advance { s with
            exporter.waits := satTo (2 ^ 64 - 1) (x.waits + 1), exporter.waiting := some r.step })))) ∧
      (startable s 0x11 r = some (t, g, k) →
        ∃ w, exec (.exportRecord r) s = .next (advance (emit w)) ∧ Started r {} t s w) ∧
      (∀ src dst (m : ModId), startable s 0x10 r = some (t, g, k) → insOf s g k = [src] → outsOf s g k = [dst] →
        m = BitVec.ofNat 16 (field k.param 0 2) → m ≠ 0xFFFF → m ≠ s.holding.moduleId →
        ∃ v u, exec (.move r) s = .next (advance v) ∧ findTask v r.step r.task = some u ∧ u.phase = .computed ∧
          u.cells = (dst.write fun i => src.value (fun o => r.remote.getD o 0) i).cells ∧
          (v.lamio.txns.drop s.lamio.txns.length).map (fun x => (x.dest, x.type, x.p.offset, x.p.len8, x.task)) =
            src.ranges.flatMap fun x => (List.range (ceilDiv x.2 224)).map fun i =>
              (m, ptReadReq, BitVec.ofNat 44 (x.1 + 224 * i), ceilDiv (min 224 (x.2 - 224 * i)) 8,
                some (r.step, r.task))))

/-! ### Harrows -/

/-- 07 R136, R139: harrows assigned to a solve that waits or stands at a boundary serve it, and a solve that has not begun passes its
boundary 0 on them; an assignment outside the limits, of a harrow that is not enabled, has a precise apply or serves another solve,
or while the run does not move, has no effect. -/
def Obligations.HarrowsServeSolves : Prop :=
  ∀ (k : SolveKey) (hs : List Nat) (s : State),
    ((findBlock s k = none ∨ solveForm s k.seg k.record = none) → exec (.solveHarrowAssign k hs) s = .next s) ∧
    (∀ (b : BlockSolve) (f : SolveForm), findBlock s k = some b → solveForm s k.seg k.record = some f →
      let fits := s.moving = true ∧ (b.record.status = 1 ∨ b.record.status = 2) ∧ hs ≠ [] ∧
        hs.length ≤ (if f.root.harrows = 0 then 64 else min 64 f.root.harrows) ∧ hs.eraseDups.length = hs.length ∧
        ∀ h ∈ hs, h < 256 ∧ harrowEnabled s h = true ∧ harrowTaken s h = false ∧
          ∀ x ∈ s.harrows.blocks, x.key ≠ k → solveInFlight x = true → h ∉ x.harrows
      (¬ fits → exec (.solveHarrowAssign k hs) s = .next s) ∧
      (fits → ∃ low, low ∈ hs ∧ (∀ h ∈ hs, low ≤ h) ∧
        let b1 := { b with
          harrows := hs, record := { b.record with status := 2, harrowCount := hs.length, harrowFirst := low } }
        ((∀ w, b.work = some w → w.begun = true ∨ w.ended = true) → ∃ t, exec (.solveHarrowAssign k hs) s = .next t ∧
          findBlock t k = some b1 ∧ OtherBlocksStay k s t ∧ { t with harrows.blocks := s.harrows.blocks } = s) ∧
        (∀ w, b.work = some w → w.begun = false → w.ended = false → ∃ t b', exec (.solveHarrowAssign k hs) s = .next t ∧
          findBlock t k = some b' ∧ PassedBound f 0 (boundary0 f w) b1 b' ∧ b'.record.harrowFirst = low ∧
          OtherBlocksStay k s t)))

/-- 07 R133 to R135, R138, R139: the next boundary of a running solve takes the algorithm's next step; a boundary that rejects
ends the solve with its status and releases its harrows. The acceptance test of a solve whose algorithm has ended makes its
root the block's candidate where the residual is within the tolerance and all is finite, and rejects it otherwise. Every other
block stays. Where the run does not move, the solve has no harrow or does not run, or a precise apply has one of its harrows,
neither has an effect. -/
def Obligations.SolveBoundariesAndAcceptance : Prop :=
  ∀ (k : SolveKey) (s : State),
    ((findBlock s k = none ∨ solveForm s k.seg k.record = none) →
      exec (.solveBoundary k) s = .next (advance s) ∧ exec (.solveAcceptance k) s = .next (advance s)) ∧
    (∀ (b : BlockSolve) (f : SolveForm), findBlock s k = some b → solveForm s k.seg k.record = some f →
      let runs := s.moving = true ∧ b.record.status = 2 ∧ b.harrows ≠ [] ∧ b.harrows.any (harrowTaken s) = false
      ((¬ runs ∨ b.work = none) →
        exec (.solveBoundary k) s = .next (advance s) ∧ exec (.solveAcceptance k) s = .next (advance s)) ∧
      (∀ w : SolveWork, runs → b.work = some w →
        ((w.ended = true ∨ w.begun = false) → exec (.solveBoundary k) s = .next (advance s)) ∧
        (w.ended = false → exec (.solveAcceptance k) s = .next (advance s)) ∧
        (w.ended = false → w.begun = true →
          let i := b.record.boundary + 1
          ∃ v b', exec (.solveBoundary k) s = .next (advance v) ∧ findBlock v k = some b' ∧
            PassedBound f i (solveBoundary f (effTol s f.root) i w) b b' ∧ OtherBlocksStay k s v) ∧
        (w.ended = true →
          let rho := (acceptance f w).1
          let bad := (acceptance f w).2.2
          ∃ v b', exec (.solveAcceptance k) s = .next (advance v) ∧ findBlock v k = some b' ∧ b'.harrows = [] ∧
            b'.record.residual = toB64 rho ∧ b'.record.boundary = b.record.boundary ∧ b'.decisions = b.decisions ∧
            (bad = true → b'.record.status = rejectedNonfinite ∧ b'.candidate = b.candidate) ∧
            (bad = false → rho.le (effTol s f.root) = false →
              b'.record.status = rejectedResidual ∧ b'.candidate = b.candidate) ∧
            (bad = false → rho.le (effTol s f.root) = true → b'.record.status = 4 ∧
              b'.candidate = some ⟨w.foldStep, toB64 rho, 1, b.record.iterations,
                rootBlockBytes f.tensor.format f.rootWidth w.x⟩) ∧
            OtherBlocksStay k s v)))

/-- 07 R140 to R142, 16 R355: the decision for a block once the head stands at (m, U, l): a candidate is used and its age is 0;
with none, a deadline reached reuses the installed root, its age one more, or falls back to the diagonal where there is no usable
root or the age limit says so; before a deadline the installed root serves on. It is taken once in a step; a STRICT block waits for
its solve; a decision recorded in a replay log is taken as recorded; a late solve without CARRY is abandoned.
Readings of the model it rests on: log entries 24, 26 and 32. -/
def Obligations.DeadlineDecisions : Prop :=
  ∀ (k : SolveKey) (s : State),
    ((findBlock s k = none ∨ solveForm s k.seg k.record = none) → exec (.deadlineDecision k) s = .next (advance s)) ∧
    (∀ (b : BlockSolve) (f : SolveForm), findBlock s k = some b → solveForm s k.seg k.record = some f →
      let m := stepOf s.run.head
      let h := installedHeader s f k.block
      let usable := f.usable k.block h
      let due := deadlineReached f b m
      let here := s.run.isOn = true ∧ s.votes.openStep = some m ∧ (posOf m passU f.stat.layer).toNat ≤ s.run.head.toNat ∧
        (∀ d ∈ b.decisions, d.step ≠ m)
      let issuing := issuesWaiting s m fun t r => t.seg == k.seg && r.record == k.record && decide (r.blockFirst ≤ k.block) &&
          decide (k.block < r.blockFirst + r.blockCount)
      let recorded := fun (b' : BlockSolve) (d : Decision) => b'.decisions = [d] ∧ b'.record.outcome = d.outcome ∧
        b'.record.fallback = d.fallback ∧ b'.record.age = d.age ∧ b'.record.lag = d.lag ∧ b'.record.carried = d.carried ∧
        b'.candidate = (if d.selected.isSome then none else b.candidate)
      ((¬ here ∨ issuing = true) → exec (.deadlineDecision k) s = .next (advance s)) ∧
      (here → loggedDecision s b m = none → strictWaits f b m = true → exec (.deadlineDecision k) s = .next (advance s)) ∧
      (∀ d0, here → issuing = false → loggedDecision s b m = some d0 →
        ∃ v b' d, exec (.deadlineDecision k) s = .next (advance v) ∧ findBlock v k = some b' ∧ recorded b' d ∧
          d.outcome = d0.outcome ∧ d.age = d0.age ∧ d.carried = d0.carried ∧ d.fallback = d0.fallback ∧ d.lag = d0.lag ∧
          OtherBlocksStay k s v) ∧
      (here → issuing = false → loggedDecision s b m = none → strictWaits f b m = false →
        ∃ v b' d, exec (.deadlineDecision k) s = .next (advance v) ∧ findBlock v k = some b' ∧ recorded b' d ∧
          d.step = m ∧ d.before = b.record ∧ d.beforeCandidate = b.candidate ∧ OtherBlocksStay k s v ∧
          (∀ c, b.candidate = some c → d.selected = some c ∧ d.diagonal = false ∧
            d.outcome = (if c.state = 2 then 4 else 1) ∧ d.fallback = false ∧ d.age = 0 ∧
            d.lag = min 255 (m - 1 - c.statStep) ∧ d.carried = candidateLate b c) ∧
          (b.candidate = none → d.selected = none) ∧
          (b.candidate = none → due = false → d.outcome = b.record.outcome ∧ d.fallback = b.record.fallback ∧
            d.age = b.record.age ∧ d.diagonal = !usable ∧
            d.lag = (if usable then min 255 (m - 1 - h.statStep) else b.record.lag) ∧
            b'.record.timestamp = b.record.timestamp) ∧
          (b.candidate = none → due = true → (usable = false ∨ (f.root.ageAction = true ∧ effMaxAge s f.root ≤ b.record.age)) →
            d.outcome = 3 ∧ d.fallback = true ∧ d.diagonal = true ∧ d.age = b.record.age) ∧
          (b.candidate = none → due = true → usable = true → (f.root.ageAction = false ∨ b.record.age < effMaxAge s f.root) →
            d.outcome = 2 ∧ d.fallback = false ∧ d.diagonal = false ∧ d.age = min 255 (b.record.age + 1) ∧
            d.lag = min 255 (m - 1 - h.statStep) ∧ Announces s v evRootReused (rootDetail k d.age) ∧
            (effMaxAge s f.root ≤ d.age → b.ageRaised = false →
              b'.ageRaised = true ∧ Announces s v evRootAgeLimit (rootDetail k d.age))) ∧
          (due = true → solveInFlight b = true → f.root.carry = false → b'.record.status = 8 ∧ b'.harrows = [])))

/-- 07 R130, R131, R145: SOLVE at a fold that is due issues the solve of each block it names, which waits for a harrow with its
deadline set; a block whose solve is still in flight counts the fold as skipped and goes on; in host-assisted mode the fold
awaits a supplied root. At a fold that is not due nothing is issued.
Readings of the model it rests on: log entry 32. -/
def Obligations.SolvesAreIssued : Prop :=
  ∀ (r : TaskRun) (s : State),
    (startable s 0x0E r = none → exec (.solve r) s = .next (advance s)) ∧
    (∀ (t : TaskInst) (g : Segment) (kr : TaskRec), startable s 0x0E r = some (t, g, kr) → OneEach s →
      ∃ v, exec (.solve r) s = .next (advance v) ∧
        (∃ u, findTask v r.step r.task = some u ∧ (u.phase = .computed ∨ u.phase = .published) ∧ u.unit = r.unit ∧
          u.tiles = 1) ∧
        ∀ f, solveForm s t.seg kr.record = some f →
          (f.stat.due r.step = false → v.harrows = s.harrows) ∧
          (f.stat.due r.step = true → ∀ q b, kr.blockFirst ≤ q → q < kr.blockFirst + kr.blockCount →
            findBlock s ⟨t.seg, kr.record, q⟩ = some b →
            ∃ b', findBlock v ⟨t.seg, kr.record, q⟩ = some b' ∧ b'.candidate = b.candidate ∧ b'.decisions = b.decisions ∧
              (s.run.modes.getD 4 false = true → b' = { b with work := some { foldStep := r.step, ended := true } }) ∧
              (s.run.modes.getD 4 false = false → solveInFlight b = true →
                b' = { b with record.skippedBusy := min (2 ^ 32 - 1) (b.record.skippedBusy + 1) }) ∧
              (s.run.modes.getD 4 false = false → solveInFlight b = false →
                b'.harrows = [] ∧ b'.record.status = 1 ∧ b'.record.statStep = r.step ∧ b'.record.boundary = 0 ∧
                b'.record.iterations = 0 ∧ b'.record.harrowCount = 0 ∧
                b'.record.deadline = posOf (r.step + f.root.deadlineM1 + 1) passU f.stat.layer ∧
                b'.record.age = b.record.age ∧ b'.record.outcome = b.record.outcome ∧
                ∃ w, b'.work = some w ∧ w.foldStep = r.step ∧ w.started = true ∧ w.n = f.stat.dim q)))
end
end

