-- ==== Sys2Proof/Laws/Frames.lean ====
section
/-!
SUPPORT. What each shared operation can change: putting back the named parts of the state gives the state it started from.
-/
namespace Sys2Proof.Laws

open Sys2Proof Sys2Proof.Machine

/-! ### Notices: traces, hedge messages, events -/

theorem trace_frame (a b : Nat) (c : Bool) (d : Nat) (e : W32) (f : Nat) (s : State) :
    { trace a b c d e f s with sheaf := s.sheaf } = s := by
  unfold trace; split <;> rfl

theorem trace_eq (a b : Nat) (c : Bool) (d : Nat) (e : W32) (f : Nat) (s : State) :
    trace a b c d e f s = { s with sheaf := (trace a b c d e f s).sheaf } := by
  unfold trace; split <;> rfl

theorem sheafTrigger_eq (k c : Nat) (s : State) : sheafTrigger k c s = { s with sheaf := (sheafTrigger k c s).sheaf } := by
  unfold sheafTrigger; dsimp only; split <;> (try split) <;> (try split) <;> rfl

theorem sheafTriggerOf_eq (b : Bool) (k c : Nat) (s : State) :
    sheafTriggerOf b k c s = { s with sheaf := (sheafTriggerOf b k c s).sheaf } := by
  unfold sheafTriggerOf; split
  · rfl
  · exact sheafTrigger_eq k c s

theorem hostWrite_eq (a : Nat) (b : Bytes) (p : Bool) (s : State) : hostWrite a b p s = { s with out := (hostWrite a b p s).out } := by
  unfold hostWrite; split <;> rfl

theorem signal_eq (v : Nat) (s : State) :
    signal v s = { s with host := (signal v s).host, out := (signal v s).out } := by
  unfold signal; split <;> (try split) <;> rfl

theorem sendHedge_eq (d : ModId) (m : Hedge) (s : State) :
    sendHedge d m s = { s with
      sheaf := (sendHedge d m s).sheaf
      out := { s.out with
        hedge := s.out.hedge ++ [(d, m)], hedgeBytes := s.out.hedgeBytes ++ hedgeMessage s.holding.moduleId d m } } := by
  unfold sendHedge; rw [trace_eq]

theorem traceReceive_eq (m : ModId) (k : Nat) (s : State) :
    traceReceive m k s =
      { s with sheaf := (traceReceive m k s).sheaf, holding := { s.holding with lastHedge := s.clock.up } } := by
  unfold traceReceive; rw [trace_eq]

theorem eventSignal_eq (s : State) :
    eventSignal s = { s with host := (eventSignal s).host, out := (eventSignal s).out } := by
  unfold eventSignal; split
  · rw [signal_eq]
  · rfl

theorem postEvent_eq (c : Nat) (m : ModId) (p : Pos) (a b : W64) (s : State) :
    postEvent c m p a b s = { s with host := (postEvent c m p a b s).host, out := (postEvent c m p a b s).out } := by
  unfold postEvent; dsimp only; split
  · rfl
  · split
    · rfl
    · rw [eventSignal_eq, hostWrite_eq]

theorem deliverEvent_eq (c : Nat) (p : Pos) (d : W64) (s : State) :
    deliverEvent c p d s = { s with
      host := (deliverEvent c p d s).host, sheaf := (deliverEvent c p d s).sheaf, out := (deliverEvent c p d s).out } := by
  unfold deliverEvent; dsimp only; split
  · rw [postEvent_eq]
  · split
    · rw [sendHedge_eq]
    · rfl

theorem raiseAt_eq (b : Bool) (c : Nat) (p : Pos) (d : Nat) (s : State) :
    raiseAt b c p d s = { s with
      host := (raiseAt b c p d s).host, sheaf := (raiseAt b c p d s).sheaf, out := (raiseAt b c p d s).out } := by
  unfold raiseAt; dsimp only; rw [deliverEvent_eq]; split
  · rw [sheafTriggerOf_eq, trace_eq]
  · rw [trace_eq]

/-- Raising an event touches the host's rings, the sheaf and what is sent, and nothing else. -/
theorem raise_eq (c d : Nat) (s : State) :
    raise c d s = { s with host := (raise c d s).host, sheaf := (raise c d s).sheaf, out := (raise c d s).out } :=
  raiseAt_eq false c s.run.head d s

/-- From `s` to `t` only the host's rings, the sheaf and what is sent have changed. -/
def Noted (s t : State) : Prop := t = { s with host := t.host, sheaf := t.sheaf, out := t.out }

theorem Noted.refl (s : State) : Noted s s := rfl

theorem Noted.trans {s t u : State} (a : Noted s t) (b : Noted t u) : Noted s u := by
  unfold Noted at *; rw [b, a]

theorem Noted.foldl {α : Type} {g : State → α → State} (hg : ∀ t x, Noted t (g t x)) (l : List α) (s : State) :
    Noted s (l.foldl g s) := by
  induction l generalizing s with
  | nil => exact rfl
  | cons x l ih => exact (hg s x).trans (ih _)

theorem noted_trace (a b : Nat) (c : Bool) (d : Nat) (e : W32) (f : Nat) (s : State) : Noted s (trace a b c d e f s) := by
  unfold Noted; rw [trace_eq]

theorem noted_sendHedge (d : ModId) (m : Hedge) (s : State) : Noted s (sendHedge d m s) := by
  unfold Noted; rw [sendHedge_eq]

theorem noted_hostWrite (a : Nat) (b : Bytes) (p : Bool) (s : State) : Noted s (hostWrite a b p s) := by
  unfold Noted; rw [hostWrite_eq]

theorem noted_signal (v : Nat) (s : State) : Noted s (signal v s) := by
  unfold Noted; rw [signal_eq]

theorem noted_postEvent (c : Nat) (m : ModId) (p : Pos) (a b : W64) (s : State) : Noted s (postEvent c m p a b s) := by
  unfold Noted; rw [postEvent_eq]

theorem noted_raise (c d : Nat) (s : State) : Noted s (raise c d s) := raise_eq c d s

theorem noted_raiseAt (b : Bool) (c : Nat) (p : Pos) (d : Nat) (s : State) : Noted s (raiseAt b c p d s) := raiseAt_eq b c p d s

end Sys2Proof.Laws
end

