-- ==== Sys2Proof/Laws/Table.lean ====
section
/-!
SUPPORT. Laws of the tables: what a read finds after a write, and that every operation keeps the canonical form.
-/
namespace Sys2Proof.Laws

open Sys2Proof Sys2Proof.Machine

variable {α : Type}

/-! ### Reading after writing -/

theorem tget_tdrop_same (d : α) (t : Sparse α) (k : Nat) : tget d (tdrop t k) k = d := by
  induction t with
  | nil => rfl
  | cons e t ih =>
    obtain ⟨j, v⟩ := e
    by_cases h : j = k
    · simp [tdrop, h, ih]
    · simp [tdrop, tget, h, ih]

theorem tget_tdrop_other (d : α) (t : Sparse α) {k i : Nat} (h : i ≠ k) : tget d (tdrop t k) i = tget d t i := by
  induction t with
  | nil => rfl
  | cons e t ih =>
    obtain ⟨j, v⟩ := e
    by_cases hj : j = k
    · have : ¬ j = i := fun e => h (e.symm.trans hj)
      simp [tdrop, tget, hj, ih]
      intro e
      exact absurd e.symm h
    · simp [tdrop, tget, hj, ih]

theorem tget_tinsert_other (d : α) (k : Nat) (v : α) (t : Sparse α) {i : Nat} (h : i ≠ k) :
    tget d (tinsert k v t) i = tget d t i := by
  induction t with
  | nil => simp [tinsert, tget, Ne.symm h]
  | cons e t ih =>
    obtain ⟨j, w⟩ := e
    by_cases hj : k < j
    · simp [tinsert, hj, tget, Ne.symm h]
    · simp [tinsert, hj, tget, ih]

theorem tget_tinsert_same (d : α) (k : Nat) (v : α) (t : Sparse α) (h : ∀ e ∈ t, e.1 ≠ k) :
    tget d (tinsert k v t) k = v := by
  induction t with
  | nil => simp [tinsert, tget]
  | cons e t ih =>
    obtain ⟨j, w⟩ := e
    by_cases hj : k < j
    · simp [tinsert, hj, tget]
    · have := h (j, w) (by simp)
      simp [tinsert, hj, tget, this, ih (fun e he => h e (by simp [he]))]

theorem tdrop_keys (t : Sparse α) (k : Nat) : ∀ e ∈ tdrop t k, e.1 ≠ k := by
  induction t with
  | nil => simp [tdrop]
  | cons e t ih =>
    obtain ⟨j, v⟩ := e
    by_cases h : j = k
    · simpa [tdrop, h] using ih
    · simpa [tdrop, h] using ih

/-- A read finds what was written there last. -/
theorem tget_tset_same [DecidableEq α] (d : α) (t : Sparse α) (k : Nat) (v : α) : tget d (tset d t k v) k = v := by
  unfold tset
  split
  · next h => rw [h]; exact tget_tdrop_same d t k
  · exact tget_tinsert_same d k v _ (tdrop_keys t k)

/-- A write leaves every other place alone. -/
theorem tget_tset_other [DecidableEq α] (d : α) (t : Sparse α) (v : α) {k i : Nat} (h : i ≠ k) :
    tget d (tset d t k v) i = tget d t i := by
  unfold tset
  split
  · exact tget_tdrop_other d t h
  · rw [tget_tinsert_other d k v _ h, tget_tdrop_other d t h]

theorem tget_tset [DecidableEq α] (d : α) (t : Sparse α) (k i : Nat) (v : α) :
    tget d (tset d t k v) i = if i = k then v else tget d t i := by
  split
  · next h => rw [h]; exact tget_tset_same d t k v
  · next h => exact tget_tset_other d t v h

theorem tget_tmod_same [DecidableEq α] (d : α) (t : Sparse α) (k : Nat) (f : α → α) :
    tget d (tmod d t k f) k = f (tget d t k) := tget_tset_same d t k _

theorem tget_tmod_other [DecidableEq α] (d : α) (t : Sparse α) (f : α → α) {k i : Nat} (h : i ≠ k) :
    tget d (tmod d t k f) i = tget d t i := tget_tset_other d t _ h

/-- Bytes written reach no address outside them. -/
theorem tget_tsetBytes_other (bs : Bytes) (t : Sparse Byte) {k a : Nat} (h : a < k ∨ k + bs.length ≤ a) :
    tget 0 (tsetBytes t k bs) a = tget 0 t a := by
  induction bs generalizing t k with
  | nil => rfl
  | cons b bs ih =>
    simp only [List.length_cons] at h
    rw [tsetBytes, ih _ (by omega), tget_tset_other 0 t b (by omega)]

/-- Each byte written is read back. -/
theorem tget_tsetBytes_same (bs : Bytes) (t : Sparse Byte) (k i : Nat) (h : i < bs.length) :
    tget 0 (tsetBytes t k bs) (k + i) = bs[i] := by
  induction bs generalizing t k i with
  | nil => simp at h
  | cons b bs ih =>
    rw [tsetBytes]
    cases i with
    | zero => rw [tget_tsetBytes_other bs _ (by omega)]; simpa using tget_tset_same 0 t k b
    | succ i =>
      have := ih (tset 0 t k b) (k + 1) i (by simpa using h)
      rw [show k + (i + 1) = k + 1 + i by omega, this]
      rfl

/-! ### The canonical form -/

theorem twfFrom_mono [DecidableEq α] (d : α) {a b : Option Nat} (t : Sparse α) (h : twfFrom d b t = true)
    (hab : ∀ x, a = some x → ∃ y, b = some y ∧ x ≤ y) : twfFrom d a t = true := by
  cases t with
  | nil => rfl
  | cons e t =>
    obtain ⟨j, v⟩ := e
    simp only [twfFrom, Bool.and_eq_true] at h ⊢
    refine ⟨⟨?_, h.1.2⟩, h.2⟩
    cases a with
    | none => rfl
    | some x =>
      obtain ⟨y, rfl, hy⟩ := hab x rfl
      have h1 := of_decide_eq_true h.1.1
      exact decide_eq_true (by omega)

theorem twfFrom_tdrop [DecidableEq α] (d : α) (k : Nat) (t : Sparse α) (lo : Option Nat) (h : twfFrom d lo t = true) :
    twfFrom d lo (tdrop t k) = true := by
  induction t generalizing lo with
  | nil => rfl
  | cons e t ih =>
    obtain ⟨j, v⟩ := e
    simp only [twfFrom, Bool.and_eq_true] at h
    by_cases hj : j = k
    · simp only [tdrop, hj, if_true]
      refine ih lo (twfFrom_mono d t h.2 ?_)
      intro x hx
      subst hx
      exact ⟨j, rfl, Nat.le_of_lt (of_decide_eq_true h.1.1)⟩
    · simp only [tdrop, hj, if_false, twfFrom, Bool.and_eq_true]
      exact ⟨h.1, ih (some j) h.2⟩

/-- The first key of a table stands above the bound. -/
def above (lo : Option Nat) (k : Nat) : Bool := match lo with | none => true | some l => decide (l < k)

theorem twfFrom_cons [DecidableEq α] (d : α) (lo : Option Nat) (k : Nat) (v : α) (t : Sparse α) :
    twfFrom d lo ((k, v) :: t) = true ↔ above lo k = true ∧ v ≠ d ∧ twfFrom d (some k) t = true := by
  show ((above lo k && decide (v ≠ d)) && twfFrom d (some k) t) = true ↔ _
  rw [Bool.and_eq_true, Bool.and_eq_true, decide_eq_true_iff, and_assoc]

theorem twfFrom_tinsert [DecidableEq α] (d : α) (k : Nat) (v : α) (hv : v ≠ d) (t : Sparse α) (lo : Option Nat)
    (h : twfFrom d lo t = true) (hlo : above lo k = true) (hk : ∀ e ∈ t, e.1 ≠ k) :
    twfFrom d lo (tinsert k v t) = true := by
  induction t generalizing lo with
  | nil => exact (twfFrom_cons d lo k v []).2 ⟨hlo, hv, rfl⟩
  | cons e t ih =>
    obtain ⟨j, w⟩ := e
    have hs := (twfFrom_cons d lo j w t).1 h
    by_cases hj : k < j
    · rw [tinsert, if_pos hj]
      exact (twfFrom_cons d lo k v _).2 ⟨hlo, hv, (twfFrom_cons d (some k) j w t).2 ⟨decide_eq_true hj, hs.2⟩⟩
    · rw [tinsert, if_neg hj]
      have hne : j ≠ k := hk (j, w) (by simp)
      exact (twfFrom_cons d lo j w _).2 ⟨hs.1, hs.2.1, ih (some j) hs.2.2 (decide_eq_true (by omega))
        (fun e he => hk e (by simp [he]))⟩

/-- A write keeps the canonical form. -/
theorem twf_tset [DecidableEq α] (d : α) (t : Sparse α) (k : Nat) (v : α) (h : twf d t = true) :
    twf d (tset d t k v) = true := by
  unfold tset
  split
  · exact twfFrom_tdrop d k t none h
  · next hv => exact twfFrom_tinsert d k v hv _ none (twfFrom_tdrop d k t none h) rfl (tdrop_keys t k)

theorem twf_tmod [DecidableEq α] (d : α) (t : Sparse α) (k : Nat) (f : α → α) (h : twf d t = true) :
    twf d (tmod d t k f) = true := twf_tset d t k _ h

theorem twf_tsetBytes (bs : Bytes) (t : Sparse Byte) (k : Nat) (h : twf 0 t = true) : twf 0 (tsetBytes t k bs) = true := by
  induction bs generalizing t k with
  | nil => exact h
  | cons b bs ih => exact ih _ _ (twf_tset 0 t k b h)

/-- Entries left out leave the form as it is. -/
theorem twfFrom_filter [DecidableEq α] (d : α) (p : Nat × α → Bool) (t : Sparse α) (lo : Option Nat)
    (h : twfFrom d lo t = true) : twfFrom d lo (t.filter p) = true := by
  induction t generalizing lo with
  | nil => rfl
  | cons e t ih =>
    obtain ⟨j, v⟩ := e
    simp only [twfFrom, Bool.and_eq_true] at h
    by_cases hp : p (j, v) = true
    · simp only [List.filter_cons, hp, if_true, twfFrom, Bool.and_eq_true]
      exact ⟨h.1, ih (some j) h.2⟩
    · simp only [List.filter_cons, hp, Bool.false_eq_true, if_false]
      refine ih lo (twfFrom_mono d t h.2 ?_)
      intro x hx
      subst hx
      exact ⟨j, rfl, Nat.le_of_lt (of_decide_eq_true h.1.1)⟩

theorem twf_filter [DecidableEq α] (d : α) (p : Nat × α → Bool) (t : Sparse α) (h : twf d t = true) :
    twf d (t.filter p) = true := twfFrom_filter d p t none h

end Sys2Proof.Laws
end

