-- ==== Sys2Proof/Laws/Keeps.lean ====
section
/-!
SUPPORT. What no command does: it never touches the queue, never takes the committed memory out of its canonical form, never
lowers a rollback counter, never frees a retired frame and never changes the die's keys. `Keeps` says so of one state and the
next; the files beside this one prove it of every operation, so that a statement about all commands needs no unfolding.
-/
namespace Sys2Proof.Laws

open Sys2Proof Sys2Proof.Machine

/-- What every command leaves as it is in the flash: the keys; the retired frames; the rollback counters, which only rise
(11 R237, 18 R374, R377, R379). -/
def FlashKeeps (f g : Flash) : Prop :=
  g.rootKey = f.rootKey ∧ g.pufSeed = f.pufSeed ∧ g.dieKey = f.dieKey ∧ (∀ x, x ∈ f.retired → x ∈ g.retired) ∧
  ∀ i, (rollback f i).toNat ≤ (rollback g i).toNat

/-- `Keeps` in its parts: the queue, the committed memory and the flash of the later state. -/
def KeepsParts (s : State) (p : List Instr) (b : Sparse Byte) (f : Flash) : Prop :=
  p = s.pending ∧ (twf 0 s.mem.base = true → twf 0 b = true) ∧ FlashKeeps s.flash f

/-- From `s` to `t` the queue is the same, the memory stays canonical, the flash keeps what it keeps. -/
abbrev Keeps (s t : State) : Prop := KeepsParts s t.pending t.mem.base t.flash

theorem FlashKeeps.refl (f : Flash) : FlashKeeps f f := ⟨rfl, rfl, rfl, fun _ h => h, fun _ => Nat.le_refl _⟩

theorem FlashKeeps.trans {f g k : Flash} (a : FlashKeeps f g) (b : FlashKeeps g k) : FlashKeeps f k :=
  ⟨b.1.trans a.1, b.2.1.trans a.2.1, b.2.2.1.trans a.2.2.1, fun x h => b.2.2.2.1 x (a.2.2.2.1 x h),
    fun i => Nat.le_trans (a.2.2.2.2 i) (b.2.2.2.2 i)⟩

theorem Keeps.refl (s : State) : Keeps s s := ⟨rfl, id, FlashKeeps.refl _⟩

theorem Keeps.trans {s t u : State} (a : Keeps s t) (b : Keeps t u) : Keeps s u :=
  ⟨b.1.trans a.1, fun h => b.2.1 (a.2.1 h), a.2.2.trans b.2.2⟩

theorem Keeps.ite {s a b : State} {c : Prop} [Decidable c] (ha : Keeps s a) (hb : Keeps s b) :
    Keeps s (if c then a else b) := by
  split
  · exact ha
  · exact hb

theorem Keeps.cut {s x : State} {p : Prop} (h : Keeps s x) (k : Keeps s x → p) : p := k h

theorem Keeps.foldl {α : Type} {s i : State} {l : List α} {g : State → α → State} (hi : Keeps s i)
    (hg : ∀ t x, Keeps s t → Keeps s (g t x)) : Keeps s (l.foldl g i) := by
  induction l generalizing i with
  | nil => exact hi
  | cons x l ih => exact ih (hg i x hi)

theorem Keeps.foldr {α : Type} {s i : State} {l : List α} {g : α → State → State} (hi : Keeps s i)
    (hg : ∀ t x, Keeps s t → Keeps s (g x t)) : Keeps s (l.foldr g i) := by
  induction l with
  | nil => exact hi
  | cons x l ih => exact hg _ x ih

theorem Keeps.foldlFst {α β : Type} {s : State} {i : State × β} {l : List α} {g : State × β → α → State × β}
    (hi : Keeps s i.1) (hg : ∀ t x, Keeps s t.1 → Keeps s (g t x).1) : Keeps s (l.foldl g i).1 := by
  induction l generalizing i with
  | nil => exact hi
  | cons x l ih => exact ih (hg i x hi)

theorem Keeps.foldlSnd {α β : Type} {s : State} {i : β × State} {l : List α} {g : β × State → α → β × State}
    (hi : Keeps s i.2) (hg : ∀ t x, Keeps s t.2 → Keeps s (g t x).2) : Keeps s (l.foldl g i).2 := by
  induction l generalizing i with
  | nil => exact hi
  | cons x l ih => exact ih (hg i x hi)

theorem KeepsParts.tsetBytes {s : State} {p : List Instr} {b : Sparse Byte} {f : Flash} {k : Nat} {bs : Bytes}
    (h : KeepsParts s p b f) : KeepsParts s p (tsetBytes b k bs) f :=
  ⟨h.1, fun c => twf_tsetBytes bs b k (h.2.1 c), h.2.2⟩

theorem KeepsParts.filter {s : State} {p : List Instr} {b : Sparse Byte} {f : Flash} {q : Nat × Byte → Bool}
    (h : KeepsParts s p b f) : KeepsParts s p (b.filter q) f :=
  ⟨h.1, fun c => twf_filter 0 q b (h.2.1 c), h.2.2⟩

theorem KeepsParts.flash {s : State} {p : List Instr} {b : Sparse Byte} {f g : Flash} (h : KeepsParts s p b f)
    (k : FlashKeeps f g) : KeepsParts s p b g := ⟨h.1, h.2.1, h.2.2.trans k⟩

end Sys2Proof.Laws
end

