-- ==== Sys2Proof/Laws/KeepsOps.lean ====
section
/-!
SUPPORT. `Keeps` for the operations of Machine/Ops.lean.
-/
namespace Sys2Proof.Laws

open Sys2Proof Sys2Proof.Machine

theorem countAs_keeps {s0 s : State} {a0 a1 a2} (h : Keeps s0 s) : Keeps s0 (countAs a0 a1 a2 s) := by
  unfold countAs
  repeat' first
    | with_reducible assumption
    | with_reducible apply Keeps.ite
    | dsimp only [Keeps]
    | split

theorem count_keeps {s0 s : State} {a0 a1} (h : Keeps s0 s) : Keeps s0 (count a0 a1 s) := by
  unfold count
  repeat' first
    | with_reducible assumption
    | with_reducible apply countAs_keeps
    | with_reducible apply Keeps.ite
    | dsimp only [Keeps]
    | split

theorem countWork_keeps {s0 s : State} {a0 a1 a2} (h : Keeps s0 s) : Keeps s0 (countWork a0 a1 a2 s) := by
  unfold countWork
  repeat' first
    | with_reducible assumption
    | with_reducible apply countAs_keeps
    | with_reducible apply Keeps.ite
    | dsimp only [Keeps]
    | split

theorem countStone_keeps {s0 s : State} {a0} (h : Keeps s0 s) : Keeps s0 (countStone a0 s) := by
  unfold countStone
  repeat' first
    | with_reducible assumption
    | with_reducible apply Keeps.ite
    | dsimp only [Keeps]
    | split

theorem trace_keeps {s0 s : State} {a0 a1 a2 a3 a4 a5} (h : Keeps s0 s) : Keeps s0 (trace a0 a1 a2 a3 a4 a5 s) := by
  unfold trace
  repeat' first
    | with_reducible assumption
    | with_reducible apply Keeps.ite
    | (lift_lets; intro x; refine Keeps.cut (s := s0) (x := x) ?_ ?_; rotate_left; intro hx; clear_value x; rotate_left; subst x)
    | (lift_lets; intro (x : Memory); subst x)
    | (lift_lets; intro (x : Flash); subst x)
    | (lift_lets; intro (x : State → State × Nat × Nat); subst x)
    | (lift_lets; intro (x : State → State); subst x)
    | (lift_lets; intro (x : State → State × Result); subst x)
    | (lift_lets; intro x; clear_value x)
    | dsimp only [Keeps]
    | split

theorem sheafTrigger_keeps {s0 s : State} {a0 a1} (h : Keeps s0 s) : Keeps s0 (sheafTrigger a0 a1 s) := by
  unfold sheafTrigger
  repeat' first
    | with_reducible assumption
    | with_reducible apply Keeps.ite
    | (lift_lets; intro x; refine Keeps.cut (s := s0) (x := x) ?_ ?_; rotate_left; intro hx; clear_value x; rotate_left; subst x)
    | (lift_lets; intro (x : Memory); subst x)
    | (lift_lets; intro (x : Flash); subst x)
    | (lift_lets; intro (x : State → State × Nat × Nat); subst x)
    | (lift_lets; intro (x : State → State); subst x)
    | (lift_lets; intro (x : State → State × Result); subst x)
    | (lift_lets; intro x; clear_value x)
    | dsimp only [Keeps]
    | split

theorem sheafTriggerOf_keeps {s0 s : State} {a0 a1 a2} (h : Keeps s0 s) : Keeps s0 (sheafTriggerOf a0 a1 a2 s) := by
  unfold sheafTriggerOf
  repeat' first
    | with_reducible assumption
    | with_reducible apply sheafTrigger_keeps
    | with_reducible apply Keeps.ite
    | dsimp only [Keeps]
    | split

theorem hostWrite_keeps {s0 s : State} {a0 a1 a2} (h : Keeps s0 s) : Keeps s0 (hostWrite a0 a1 a2 s) := by
  unfold hostWrite
  repeat' first
    | with_reducible assumption
    | with_reducible apply Keeps.ite
    | dsimp only [Keeps]
    | split

theorem masterWrite_keeps {s0 s : State} {a0 a1} (h : Keeps s0 s) : Keeps s0 (masterWrite a0 a1 s) := by
  unfold masterWrite
  repeat' first
    | with_reducible assumption
    | with_reducible apply hostWrite_keeps
    | with_reducible apply Keeps.ite
    | dsimp only [Keeps]
    | split

theorem signal_keeps {s0 s : State} {a0} (h : Keeps s0 s) : Keeps s0 (signal a0 s) := by
  unfold signal
  repeat' first
    | with_reducible assumption
    | with_reducible apply Keeps.ite
    | dsimp only [Keeps]
    | split

theorem sendHedge_keeps {s0 s : State} {a0 a1} (h : Keeps s0 s) : Keeps s0 (sendHedge a0 a1 s) := by
  unfold sendHedge
  repeat' first
    | with_reducible assumption
    | with_reducible apply trace_keeps
    | with_reducible apply Keeps.ite
    | dsimp only [Keeps]
    | split

theorem traceReceive_keeps {s0 s : State} {a0 a1} (h : Keeps s0 s) : Keeps s0 (traceReceive a0 a1 s) := by
  unfold traceReceive
  repeat' first
    | with_reducible assumption
    | with_reducible apply trace_keeps
    | with_reducible apply Keeps.ite
    | dsimp only [Keeps]
    | split

theorem eventSignal_keeps {s0 s : State} (h : Keeps s0 s) : Keeps s0 (eventSignal s) := by
  unfold eventSignal
  repeat' first
    | with_reducible assumption
    | with_reducible apply signal_keeps
    | with_reducible apply Keeps.ite
    | dsimp only [Keeps]
    | split

theorem countLost_keeps {s0 s : State} (h : Keeps s0 s) : Keeps s0 (countLost s) := by
  unfold countLost
  repeat' first
    | with_reducible assumption
    | with_reducible apply Keeps.ite
    | dsimp only [Keeps]
    | split

theorem postEvent_keeps {s0 s : State} {a0 a1 a2 a3 a4} (h : Keeps s0 s) : Keeps s0 (postEvent a0 a1 a2 a3 a4 s) := by
  unfold postEvent
  repeat' first
    | with_reducible assumption
    | with_reducible apply countLost_keeps
    | with_reducible apply eventSignal_keeps
    | with_reducible apply hostWrite_keeps
    | with_reducible apply Keeps.ite
    | (lift_lets; intro x; refine Keeps.cut (s := s0) (x := x) ?_ ?_; rotate_left; intro hx; clear_value x; rotate_left; subst x)
    | (lift_lets; intro (x : Memory); subst x)
    | (lift_lets; intro (x : Flash); subst x)
    | (lift_lets; intro (x : State → State × Nat × Nat); subst x)
    | (lift_lets; intro (x : State → State); subst x)
    | (lift_lets; intro (x : State → State × Result); subst x)
    | (lift_lets; intro x; clear_value x)
    | dsimp only [Keeps]
    | split

theorem deliverEvent_keeps {s0 s : State} {a0 a1 a2} (h : Keeps s0 s) : Keeps s0 (deliverEvent a0 a1 a2 s) := by
  unfold deliverEvent
  repeat' first
    | with_reducible assumption
    | with_reducible apply postEvent_keeps
    | with_reducible apply sendHedge_keeps
    | with_reducible apply Keeps.ite
    | (lift_lets; intro x; refine Keeps.cut (s := s0) (x := x) ?_ ?_; rotate_left; intro hx; clear_value x; rotate_left; subst x)
    | (lift_lets; intro (x : Memory); subst x)
    | (lift_lets; intro (x : Flash); subst x)
    | (lift_lets; intro (x : State → State × Nat × Nat); subst x)
    | (lift_lets; intro (x : State → State); subst x)
    | (lift_lets; intro (x : State → State × Result); subst x)
    | (lift_lets; intro x; clear_value x)
    | dsimp only [Keeps]
    | split

theorem raiseAt_keeps {s0 s : State} {a0 a1 a2 a3} (h : Keeps s0 s) : Keeps s0 (raiseAt a0 a1 a2 a3 s) := by
  unfold raiseAt
  repeat' first
    | with_reducible assumption
    | with_reducible apply trace_keeps
    | with_reducible apply sheafTriggerOf_keeps
    | with_reducible apply deliverEvent_keeps
    | with_reducible apply Keeps.ite
    | (lift_lets; intro x; refine Keeps.cut (s := s0) (x := x) ?_ ?_; rotate_left; intro hx; clear_value x; rotate_left; subst x)
    | (lift_lets; intro (x : Memory); subst x)
    | (lift_lets; intro (x : Flash); subst x)
    | (lift_lets; intro (x : State → State × Nat × Nat); subst x)
    | (lift_lets; intro (x : State → State); subst x)
    | (lift_lets; intro (x : State → State × Result); subst x)
    | (lift_lets; intro x; clear_value x)
    | dsimp only [Keeps]
    | split

theorem raise_keeps {s0 s : State} {a0 a1} (h : Keeps s0 s) : Keeps s0 (raise a0 a1 s) := by
  unfold raise
  repeat' first
    | with_reducible assumption
    | with_reducible apply raiseAt_keeps
    | with_reducible apply Keeps.ite
    | dsimp only [Keeps]
    | split

theorem flushEvents_keeps {s0 s : State} (h : Keeps s0 s) : Keeps s0 (flushEvents s) := by
  unfold flushEvents
  repeat' first
    | with_reducible assumption
    | with_reducible apply postEvent_keeps
    | with_reducible apply sendHedge_keeps
    | (with_reducible refine Keeps.foldl ?_ (fun t x h => ?_))
    | (with_reducible refine Keeps.foldlFst ?_ (fun t x h => ?_))
    | (with_reducible refine Keeps.foldlSnd ?_ (fun t x h => ?_))
    | with_reducible apply Keeps.ite
    | (lift_lets; intro x; refine Keeps.cut (s := s0) (x := x) ?_ ?_; rotate_left; intro hx; clear_value x; rotate_left; subst x)
    | (lift_lets; intro (x : Memory); subst x)
    | (lift_lets; intro (x : Flash); subst x)
    | (lift_lets; intro (x : State → State × Nat × Nat); subst x)
    | (lift_lets; intro (x : State → State); subst x)
    | (lift_lets; intro (x : State → State × Result); subst x)
    | (lift_lets; intro x; clear_value x)
    | dsimp only [Keeps]
    | split

theorem tick_keeps {s0 s : State} (h : Keeps s0 s) : Keeps s0 (tick s) := by
  unfold tick
  repeat' first
    | with_reducible assumption
    | with_reducible apply Keeps.ite
    | (lift_lets; intro x; refine Keeps.cut (s := s0) (x := x) ?_ ?_; rotate_left; intro hx; clear_value x; rotate_left; subst x)
    | (lift_lets; intro (x : Memory); subst x)
    | (lift_lets; intro (x : Flash); subst x)
    | (lift_lets; intro (x : State → State × Nat × Nat); subst x)
    | (lift_lets; intro (x : State → State); subst x)
    | (lift_lets; intro (x : State → State × Result); subst x)
    | (lift_lets; intro x; clear_value x)
    | dsimp only [Keeps]
    | split

theorem extendMeas_keeps {s0 s : State} {a0 a1} (h : Keeps s0 s) : Keeps s0 (extendMeas a0 a1 s) := by
  unfold extendMeas
  repeat' first
    | with_reducible assumption
    | with_reducible apply Keeps.ite
    | (lift_lets; intro x; refine Keeps.cut (s := s0) (x := x) ?_ ?_; rotate_left; intro hx; clear_value x; rotate_left; subst x)
    | (lift_lets; intro (x : Memory); subst x)
    | (lift_lets; intro (x : Flash); subst x)
    | (lift_lets; intro (x : State → State × Nat × Nat); subst x)
    | (lift_lets; intro (x : State → State); subst x)
    | (lift_lets; intro (x : State → State × Result); subst x)
    | (lift_lets; intro x; clear_value x)
    | dsimp only [Keeps]
    | split

theorem answerSahith_keeps {s0 s : State} (h : Keeps s0 s) : Keeps s0 (answerSahith s) := by
  unfold answerSahith
  repeat' first
    | with_reducible assumption
    | with_reducible apply Keeps.ite
    | dsimp only [Keeps]
    | split

end Sys2Proof.Laws
end

