-- ==== Sys2Proof/Laws/KeepsMem.lean ====
section
/-!
SUPPORT. `Keeps` for the operations of Machine/Mem.lean.
-/
namespace Sys2Proof.Laws

open Sys2Proof Sys2Proof.Machine

theorem twf_applyCells (cs : Cells) (b : Sparse Byte) (h : twf 0 b = true) : twf 0 (applyCells b cs) = true := by
  induction cs with
  | nil => exact h
  | cons c cs ih => exact twf_tset 0 _ c.1 c.2 ih

theorem KeepsParts.applyCells {s : State} {p : List Instr} {b : Sparse Byte} {f : Flash} {cs : Cells}
    (h : KeepsParts s p b f) : KeepsParts s p (applyCells b cs) f := ⟨h.1, fun c => twf_applyCells cs b (h.2.1 c), h.2.2⟩

theorem answered_base (far : Bool) (r : Nat) (l : List Nat) (m : Memory) : (answered far r l m).base = m.base := rfl

theorem dropLayers_base (p : LayerTag → Bool) (m : Memory) : (dropLayers p m).base = m.base := rfl

theorem flips_base (l : List HopperEntry) (m : Memory) : (l.foldl flipHome m).base = m.base := by
  induction l generalizing m with
  | nil => rfl
  | cons e l ih => rw [List.foldl_cons, ih]; rfl

theorem twf_mergeLayers (p : LayerTag → Bool) (m : Memory) (h : twf 0 m.base = true) :
    twf 0 (mergeLayers p m).base = true := by
  have go : ∀ (ls : List Layer) (b : Sparse Byte), twf 0 b = true →
      twf 0 (ls.foldl (fun b l => Machine.applyCells b l.cells) b) = true := by
    intro ls
    induction ls with
    | nil => exact fun _ h => h
    | cons l ls ih => exact fun b hb => ih _ (twf_applyCells l.cells b hb)
  exact go _ _ (by rw [flips_base]; exact h)

theorem KeepsParts.mergeLayers {s : State} {p : List Instr} {m : Memory} {f : Flash} {q : LayerTag → Bool}
    (h : KeepsParts s p m.base f) : KeepsParts s p (mergeLayers q m).base f :=
  ⟨h.1, fun c => twf_mergeLayers q m (h.2.1 c), h.2.2⟩

theorem lockSetup_keeps {s0 s : State} (h : Keeps s0 s) : Keeps s0 (lockSetup s) := by
  unfold lockSetup
  repeat' first
    | with_reducible assumption
    | with_reducible apply Keeps.ite
    | dsimp only [Keeps]
    | split

theorem noteRewrite_keeps {s0 s : State} {a0 a1} (h : Keeps s0 s) : Keeps s0 (noteRewrite a0 a1 s) := by
  unfold noteRewrite
  repeat' first
    | with_reducible assumption
    | (with_reducible refine Keeps.foldl ?_ (fun t x h => ?_))
    | (with_reducible refine Keeps.foldlFst ?_ (fun t x h => ?_))
    | (with_reducible refine Keeps.foldlSnd ?_ (fun t x h => ?_))
    | with_reducible apply Keeps.ite
    | (lift_lets; intro x; refine Keeps.cut (s := s0) (x := x) ?_ ?_; rotate_left; intro hx; clear_value x; rotate_left; subst x)
    | (lift_lets; intro (x : Memory); subst x)
    | (lift_lets; intro (x : Flash); subst x)
    | (lift_lets; intro (x : State → State × Nat × Nat); subst x)
    | (lift_lets; intro (x : State → State); subst x)
    | (lift_lets; intro (x : State → State × Result); subst x)
    | (lift_lets; intro x; clear_value x)
    | dsimp only [Keeps]
    | split

theorem writePoison_keeps {s0 s : State} {a0 a1 a2} (h : Keeps s0 s) : Keeps s0 (writePoison a0 a1 a2 s) := by
  unfold writePoison
  repeat' first
    | with_reducible assumption
    | with_reducible apply noteRewrite_keeps
    | (with_reducible refine Keeps.foldl ?_ (fun t x h => ?_))
    | (with_reducible refine Keeps.foldlFst ?_ (fun t x h => ?_))
    | (with_reducible refine Keeps.foldlSnd ?_ (fun t x h => ?_))
    | with_reducible apply Keeps.ite
    | (lift_lets; intro x; refine Keeps.cut (s := s0) (x := x) ?_ ?_; rotate_left; intro hx; clear_value x; rotate_left; subst x)
    | (lift_lets; intro (x : Memory); subst x)
    | (lift_lets; intro (x : Flash); subst x)
    | (lift_lets; intro (x : State → State × Nat × Nat); subst x)
    | (lift_lets; intro (x : State → State); subst x)
    | (lift_lets; intro (x : State → State × Result); subst x)
    | (lift_lets; intro x; clear_value x)
    | dsimp only [Keeps]
    | split

theorem setPage_keeps {s0 s : State} {a0 a1} (h : Keeps s0 s) : Keeps s0 (setPage a0 a1 s) := by
  unfold setPage
  repeat' first
    | with_reducible assumption
    | with_reducible apply Keeps.ite
    | dsimp only [Keeps]
    | split

theorem ensureFrame_keeps {s0 s : State} {a0} (h : Keeps s0 s) : Keeps s0 (ensureFrame a0 s) := by
  unfold ensureFrame
  repeat' first
    | with_reducible assumption
    | with_reducible apply setPage_keeps
    | with_reducible apply Keeps.ite
    | (lift_lets; intro x; refine Keeps.cut (s := s0) (x := x) ?_ ?_; rotate_left; intro hx; clear_value x; rotate_left; subst x)
    | (lift_lets; intro (x : Memory); subst x)
    | (lift_lets; intro (x : Flash); subst x)
    | (lift_lets; intro (x : State → State × Nat × Nat); subst x)
    | (lift_lets; intro (x : State → State); subst x)
    | (lift_lets; intro (x : State → State × Result); subst x)
    | (lift_lets; intro x; clear_value x)
    | dsimp only [Keeps]
    | split

theorem stageFrame_keeps {s0 s : State} {a0 a1} (h : Keeps s0 s) {t} (e : stageFrame a0 a1 s = some t) : Keeps s0 t := by
  unfold stageFrame at e
  split at e
  · cases e; exact h
  · obtain ⟨f, -, rfl⟩ := Option.map_eq_some_iff.mp e
    exact h

theorem freshFrames_keeps {s0 s : State} {a0 a1 a2} (h : Keeps s0 s) {t} (e : freshFrames a0 a1 a2 s = some t) : Keeps s0 t := by
  induction a2 generalizing s with
  | nil => cases e; exact h
  | cons y l ih =>
    rw [freshFrames] at e
    split at e
    · exact ih h e
    · obtain ⟨f, -, he⟩ := Option.bind_eq_some_iff.mp e
      refine ih ?_ he
      exact h

theorem stageFrames_keeps {s0 s : State} {a0 a1} (h : Keeps s0 s) {t} (e : stageFrames a0 a1 s = some t) : Keeps s0 t := by
  induction a1 generalizing s with
  | nil => cases e; exact h
  | cons p ps ih =>
    obtain ⟨u, hu, he⟩ := Option.bind_eq_some_iff.mp e
    exact ih (stageFrame_keeps h hu) he

theorem touchAs_keeps {s0 s : State} {a0 a1 a2 a3} (h : Keeps s0 s) : Keeps s0 (touchAs a0 a1 a2 a3 s) := by
  unfold touchAs
  repeat' first
    | with_reducible assumption
    | with_reducible apply ensureFrame_keeps
    | with_reducible apply countWork_keeps
    | with_reducible apply setPage_keeps
    | (with_reducible refine Keeps.foldl ?_ (fun t x h => ?_))
    | (with_reducible refine Keeps.foldlFst ?_ (fun t x h => ?_))
    | (with_reducible refine Keeps.foldlSnd ?_ (fun t x h => ?_))
    | with_reducible apply Keeps.ite
    | (lift_lets; intro x; refine Keeps.cut (s := s0) (x := x) ?_ ?_; rotate_left; intro hx; clear_value x; rotate_left; subst x)
    | (lift_lets; intro (x : Memory); subst x)
    | (lift_lets; intro (x : Flash); subst x)
    | (lift_lets; intro (x : State → State × Nat × Nat); subst x)
    | (lift_lets; intro (x : State → State); subst x)
    | (lift_lets; intro (x : State → State × Result); subst x)
    | (lift_lets; intro x; clear_value x)
    | rw [answered_base]
    | dsimp only [Keeps]
    | split

theorem touch_keeps {s0 s : State} {a0 a1 a2} (h : Keeps s0 s) : Keeps s0 (touch a0 a1 a2 s) := by
  unfold touch
  repeat' first
    | with_reducible assumption
    | with_reducible apply touchAs_keeps
    | with_reducible apply Keeps.ite
    | dsimp only [Keeps]
    | split

theorem selectMove_keeps {s0 s : State} {a0 a1 a2} (h : Keeps s0 s) : Keeps s0 (selectMove a0 a1 a2 s) := by
  unfold selectMove
  repeat' first
    | with_reducible assumption
    | with_reducible apply Keeps.ite
    | dsimp only [Keeps]
    | split

theorem traceMemory_keeps {s0 s : State} {a0 a1} (h : Keeps s0 s) : Keeps s0 (traceMemory a0 a1 s) := by
  unfold traceMemory
  repeat' first
    | with_reducible assumption
    | with_reducible apply trace_keeps
    | with_reducible apply Keeps.ite
    | dsimp only [Keeps]
    | split

theorem sealMove_keeps {s0 s : State} {a0} (h : Keeps s0 s) : Keeps s0 (sealMove a0 s) := by
  unfold sealMove
  repeat' first
    | with_reducible assumption
    | with_reducible apply count_keeps
    | with_reducible apply setPage_keeps
    | with_reducible apply Keeps.ite
    | (lift_lets; intro x; refine Keeps.cut (s := s0) (x := x) ?_ ?_; rotate_left; intro hx; clear_value x; rotate_left; subst x)
    | (lift_lets; intro (x : Memory); subst x)
    | (lift_lets; intro (x : Flash); subst x)
    | (lift_lets; intro (x : State → State × Nat × Nat); subst x)
    | (lift_lets; intro (x : State → State); subst x)
    | (lift_lets; intro (x : State → State × Result); subst x)
    | (lift_lets; intro x; clear_value x)
    | dsimp only [Keeps]
    | split

theorem countMove_keeps {s0 s : State} {a0} (h : Keeps s0 s) : Keeps s0 (countMove a0 s) := by
  unfold countMove
  repeat' first
    | with_reducible assumption
    | with_reducible apply count_keeps
    | with_reducible apply Keeps.ite
    | dsimp only [Keeps]
    | split

theorem repin_keeps {s0 s : State} {a0} (h : Keeps s0 s) : Keeps s0 (repin a0 s) := by
  unfold repin
  repeat' first
    | with_reducible assumption
    | with_reducible apply selectMove_keeps
    | with_reducible apply Keeps.ite
    | (lift_lets; intro x; refine Keeps.cut (s := s0) (x := x) ?_ ?_; rotate_left; intro hx; clear_value x; rotate_left; subst x)
    | (lift_lets; intro (x : Memory); subst x)
    | (lift_lets; intro (x : Flash); subst x)
    | (lift_lets; intro (x : State → State × Nat × Nat); subst x)
    | (lift_lets; intro (x : State → State); subst x)
    | (lift_lets; intro (x : State → State × Result); subst x)
    | (lift_lets; intro x; clear_value x)
    | dsimp only [Keeps]
    | split

theorem flipMove_keeps {s0 s : State} {a0} (h : Keeps s0 s) : Keeps s0 (flipMove a0 s) := by
  unfold flipMove
  repeat' first
    | with_reducible assumption
    | with_reducible apply setPage_keeps
    | with_reducible apply countMove_keeps
    | with_reducible apply count_keeps
    | with_reducible apply repin_keeps
    | with_reducible apply traceMemory_keeps
    | with_reducible apply Keeps.ite
    | (lift_lets; intro x; refine Keeps.cut (s := s0) (x := x) ?_ ?_; rotate_left; intro hx; clear_value x; rotate_left; subst x)
    | (lift_lets; intro (x : Memory); subst x)
    | (lift_lets; intro (x : Flash); subst x)
    | (lift_lets; intro (x : State → State × Nat × Nat); subst x)
    | (lift_lets; intro (x : State → State); subst x)
    | (lift_lets; intro (x : State → State × Result); subst x)
    | (lift_lets; intro x; clear_value x)
    | dsimp only [Keeps]
    | split

theorem freeSource_keeps {s0 s : State} {a0} (h : Keeps s0 s) : Keeps s0 (freeSource a0 s) := by
  unfold freeSource
  repeat' first
    | with_reducible assumption
    | with_reducible apply setPage_keeps
    | with_reducible apply Keeps.ite
    | (lift_lets; intro x; refine Keeps.cut (s := s0) (x := x) ?_ ?_; rotate_left; intro hx; clear_value x; rotate_left; subst x)
    | (lift_lets; intro (x : Memory); subst x)
    | (lift_lets; intro (x : Flash); subst x)
    | (lift_lets; intro (x : State → State × Nat × Nat); subst x)
    | (lift_lets; intro (x : State → State); subst x)
    | (lift_lets; intro (x : State → State × Result); subst x)
    | (lift_lets; intro x; clear_value x)
    | dsimp only [Keeps]
    | split

theorem finishMove_keeps {s0 s : State} {a0} (h : Keeps s0 s) : Keeps s0 (finishMove a0 s) := by
  unfold finishMove
  repeat' first
    | with_reducible assumption
    | with_reducible apply freeSource_keeps
    | with_reducible apply flipMove_keeps
    | with_reducible apply sealMove_keeps
    | with_reducible apply Keeps.ite
    | (lift_lets; intro x; refine Keeps.cut (s := s0) (x := x) ?_ ?_; rotate_left; intro hx; clear_value x; rotate_left; subst x)
    | (lift_lets; intro (x : Memory); subst x)
    | (lift_lets; intro (x : Flash); subst x)
    | (lift_lets; intro (x : State → State × Nat × Nat); subst x)
    | (lift_lets; intro (x : State → State); subst x)
    | (lift_lets; intro (x : State → State × Result); subst x)
    | (lift_lets; intro x; clear_value x)
    | dsimp only [Keeps]
    | split

theorem flipFresh_keeps {s0 s : State} {a0 a1} (h : Keeps s0 s) : Keeps s0 (flipFresh a0 a1 s) := by
  unfold flipFresh
  repeat' first
    | with_reducible assumption
    | with_reducible apply finishMove_keeps
    | with_reducible apply setPage_keeps
    | (with_reducible refine Keeps.foldl ?_ (fun t x h => ?_))
    | (with_reducible refine Keeps.foldlFst ?_ (fun t x h => ?_))
    | (with_reducible refine Keeps.foldlSnd ?_ (fun t x h => ?_))
    | with_reducible apply Keeps.ite
    | (lift_lets; intro x; refine Keeps.cut (s := s0) (x := x) ?_ ?_; rotate_left; intro hx; clear_value x; rotate_left; subst x)
    | (lift_lets; intro (x : Memory); subst x)
    | (lift_lets; intro (x : Flash); subst x)
    | (lift_lets; intro (x : State → State × Nat × Nat); subst x)
    | (lift_lets; intro (x : State → State); subst x)
    | (lift_lets; intro (x : State → State × Result); subst x)
    | (lift_lets; intro x; clear_value x)
    | dsimp only [Keeps]
    | split

theorem writeNow_keeps {s0 s : State} {a0 a1 a2} (h : Keeps s0 s) : Keeps s0 (writeNow a0 a1 a2 s) := by
  unfold writeNow
  repeat' first
    | with_reducible assumption
    | with_reducible apply touch_keeps
    | with_reducible apply writePoison_keeps
    | with_reducible apply Keeps.ite
    | (lift_lets; intro x; refine Keeps.cut (s := s0) (x := x) ?_ ?_; rotate_left; intro hx; clear_value x; rotate_left; subst x)
    | (lift_lets; intro (x : Memory); subst x)
    | (lift_lets; intro (x : Flash); subst x)
    | (lift_lets; intro (x : State → State × Nat × Nat); subst x)
    | (lift_lets; intro (x : State → State); subst x)
    | (lift_lets; intro (x : State → State × Result); subst x)
    | (lift_lets; intro x; clear_value x)
    | with_reducible apply KeepsParts.tsetBytes
    | dsimp only [Keeps]
    | split

end Sys2Proof.Laws
end

