-- ==== Sys2Proof/Laws/KeepsRegisters.lean ====
section
/-!
SUPPORT. `Keeps` for the operations of Machine/Registers.lean.
-/
namespace Sys2Proof.Laws

open Sys2Proof Sys2Proof.Machine

theorem writeHoldingWord_keeps {s0 s : State} {a0 a1} (h : Keeps s0 s) : Keeps s0 (writeHoldingWord a0 a1 s) := by
  unfold writeHoldingWord
  repeat' first
    | with_reducible assumption
    | with_reducible apply Keeps.ite
    | (lift_lets; intro x; refine Keeps.cut (s := s0) (x := x) ?_ ?_; rotate_left; intro hx; clear_value x; rotate_left; subst x)
    | (lift_lets; intro (x : Memory); subst x)
    | (lift_lets; intro (x : Flash); subst x)
    | (lift_lets; intro (x : State → State × Nat × Nat); subst x)
    | (lift_lets; intro (x : State → State); subst x)
    | (lift_lets; intro (x : State → State × Result); subst x)
    | (lift_lets; intro x; clear_value x)
    | dsimp only [Keeps]
    | split

theorem enableEvents_keeps {s0 s : State} {a0} (h : Keeps s0 s) : Keeps s0 (enableEvents a0 s) := by
  unfold enableEvents
  repeat' first
    | with_reducible assumption
    | with_reducible apply flushEvents_keeps
    | with_reducible apply Keeps.ite
    | dsimp only [Keeps]
    | split

theorem writeOtherWord_keeps {s0 s : State} {a0 a1} (h : Keeps s0 s) : Keeps s0 (writeOtherWord a0 a1 s) := by
  unfold writeOtherWord
  repeat' first
    | with_reducible assumption
    | with_reducible apply enableEvents_keeps
    | with_reducible apply Keeps.ite
    | (lift_lets; intro x; refine Keeps.cut (s := s0) (x := x) ?_ ?_; rotate_left; intro hx; clear_value x; rotate_left; subst x)
    | (lift_lets; intro (x : Memory); subst x)
    | (lift_lets; intro (x : Flash); subst x)
    | (lift_lets; intro (x : State → State × Nat × Nat); subst x)
    | (lift_lets; intro (x : State → State); subst x)
    | (lift_lets; intro (x : State → State × Result); subst x)
    | (lift_lets; intro x; clear_value x)
    | with_reducible apply KeepsParts.tsetBytes
    | dsimp only [Keeps]
    | split

theorem keepFields_keeps {s0 s : State} (h : Keeps s0 s) : Keeps s0 (keepFields s) := by
  unfold keepFields
  repeat' first
    | with_reducible assumption
    | with_reducible apply Keeps.ite
    | dsimp only [Keeps]
    | split

theorem restoreFields_keeps {s0 s : State} {a0} (h : Keeps s0 s) : Keeps s0 (restoreFields a0 s) := by
  unfold restoreFields
  repeat' first
    | with_reducible assumption
    | with_reducible apply Keeps.ite
    | dsimp only [Keeps]
    | split

theorem lockRegisters_keeps {s0 s : State} (h : Keeps s0 s) : Keeps s0 (lockRegisters s) := by
  unfold lockRegisters
  repeat' first
    | with_reducible assumption
    | with_reducible apply lockSetup_keeps
    | with_reducible apply restoreFields_keeps
    | with_reducible apply sendHedge_keeps
    | (with_reducible refine Keeps.foldl ?_ (fun t x h => ?_))
    | (with_reducible refine Keeps.foldlFst ?_ (fun t x h => ?_))
    | (with_reducible refine Keeps.foldlSnd ?_ (fun t x h => ?_))
    | with_reducible apply Keeps.ite
    | (lift_lets; intro x; refine Keeps.cut (s := s0) (x := x) ?_ ?_; rotate_left; intro hx; clear_value x; rotate_left; subst x)
    | (lift_lets; intro (x : Memory); subst x)
    | (lift_lets; intro (x : Flash); subst x)
    | (lift_lets; intro (x : State → State × Nat × Nat); subst x)
    | (lift_lets; intro (x : State → State); subst x)
    | (lift_lets; intro (x : State → State × Result); subst x)
    | (lift_lets; intro x; clear_value x)
    | dsimp only [Keeps]
    | split

theorem writeRegister_keeps {s0 s : State} {a0 a1 a2} (h : Keeps s0 s) : Keeps s0 (writeRegister a0 a1 a2 s) := by
  unfold writeRegister
  repeat' first
    | with_reducible assumption
    | with_reducible apply keepFields_keeps
    | with_reducible apply writeHoldingWord_keeps
    | with_reducible apply writeOtherWord_keeps
    | with_reducible apply Keeps.ite
    | (lift_lets; intro x; refine Keeps.cut (s := s0) (x := x) ?_ ?_; rotate_left; intro hx; clear_value x; rotate_left; subst x)
    | (lift_lets; intro (x : Memory); subst x)
    | (lift_lets; intro (x : Flash); subst x)
    | (lift_lets; intro (x : State → State × Nat × Nat); subst x)
    | (lift_lets; intro (x : State → State); subst x)
    | (lift_lets; intro (x : State → State × Result); subst x)
    | (lift_lets; intro x; clear_value x)
    | dsimp only [Keeps]
    | split

end Sys2Proof.Laws
end

