-- ==== Sys2Proof/Laws/KeepsEntries.lean ====
section
/-!
SUPPORT. `Keeps` for the operations of Machine/Entries.lean.
-/
namespace Sys2Proof.Laws

open Sys2Proof Sys2Proof.Machine

theorem spread_keeps {s0 s : State} {a0 a1} (h : Keeps s0 s) : Keeps s0 (spread a0 a1 s) := by
  unfold spread
  repeat' first
    | with_reducible assumption
    | with_reducible apply sendHedge_keeps
    | with_reducible apply Keeps.ite
    | dsimp only [Keeps]
    | split

theorem setSub_keeps {s0 s : State} {a0 a1} (h : Keeps s0 s) : Keeps s0 (setSub a0 a1 s) := by
  unfold setSub
  repeat' first
    | with_reducible assumption
    | with_reducible apply Keeps.ite
    | dsimp only [Keeps]
    | split

theorem setCompl_keeps {s0 s : State} {a0 a1} (h : Keeps s0 s) : Keeps s0 (setCompl a0 a1 s) := by
  unfold setCompl
  repeat' first
    | with_reducible assumption
    | with_reducible apply Keeps.ite
    | dsimp only [Keeps]
    | split

theorem accessFor_keeps {s0 s : State} {a0 a1 a2} (h : Keeps s0 s) : Keeps s0 (accessFor a0 a1 a2 s).2 := by
  unfold accessFor
  repeat' first
    | with_reducible assumption
    | with_reducible apply Keeps.ite
    | dsimp only [Keeps]
    | split

theorem accessFor_keeps_eq {s0 s : State} {a0 a1 a2} (h : Keeps s0 s) {t u} (e : accessFor a0 a1 a2 s = (u, t)) : Keeps s0 t := by
  have k : Keeps s0 (accessFor a0 a1 a2 s).2 := accessFor_keeps h 
  rw [e] at k; exact k

theorem completeWith_keeps {s0 s : State} {a0 a1 a2 a3 a4 a5} (h : Keeps s0 s) : Keeps s0 (completeWith a0 a1 a2 a3 a4 a5 s) := by
  unfold completeWith
  repeat' first
    | with_reducible assumption
    | with_reducible apply accessFor_keeps
    | (with_reducible refine accessFor_keeps_eq ?_ (by with_reducible assumption))
    | with_reducible apply setCompl_keeps
    | with_reducible apply Keeps.ite
    | (lift_lets; intro x; refine Keeps.cut (s := s0) (x := x) ?_ ?_; rotate_left; intro hx; clear_value x; rotate_left; subst x)
    | (lift_lets; intro (x : Memory); subst x)
    | (lift_lets; intro (x : Flash); subst x)
    | (lift_lets; intro (x : State → State × Nat × Nat); subst x)
    | (lift_lets; intro (x : State → State); subst x)
    | (lift_lets; intro (x : State → State × Result); subst x)
    | (lift_lets; intro x; clear_value x)
    | dsimp only [Keeps]
    | split

theorem completeNow_keeps {s0 s : State} {a0 a1 a2 a3} (h : Keeps s0 s) : Keeps s0 (completeNow a0 a1 a2 a3 s) := by
  unfold completeNow
  repeat' first
    | with_reducible assumption
    | with_reducible apply setSub_keeps
    | with_reducible apply trace_keeps
    | with_reducible apply completeWith_keeps
    | with_reducible apply Keeps.ite
    | (lift_lets; intro x; refine Keeps.cut (s := s0) (x := x) ?_ ?_; rotate_left; intro hx; clear_value x; rotate_left; subst x)
    | (lift_lets; intro (x : Memory); subst x)
    | (lift_lets; intro (x : Flash); subst x)
    | (lift_lets; intro (x : State → State × Nat × Nat); subst x)
    | (lift_lets; intro (x : State → State); subst x)
    | (lift_lets; intro (x : State → State × Result); subst x)
    | (lift_lets; intro x; clear_value x)
    | dsimp only [Keeps]
    | split

theorem completeLater_keeps {s0 s : State} {a0 a1 a2 a3} (h : Keeps s0 s) : Keeps s0 (completeLater a0 a1 a2 a3 s) := by
  unfold completeLater
  repeat' first
    | with_reducible assumption
    | with_reducible apply setSub_keeps
    | with_reducible apply trace_keeps
    | with_reducible apply completeWith_keeps
    | with_reducible apply Keeps.ite
    | (lift_lets; intro x; refine Keeps.cut (s := s0) (x := x) ?_ ?_; rotate_left; intro hx; clear_value x; rotate_left; subst x)
    | (lift_lets; intro (x : Memory); subst x)
    | (lift_lets; intro (x : Flash); subst x)
    | (lift_lets; intro (x : State → State × Nat × Nat); subst x)
    | (lift_lets; intro (x : State → State); subst x)
    | (lift_lets; intro (x : State → State × Result); subst x)
    | (lift_lets; intro x; clear_value x)
    | dsimp only [Keeps]
    | split

theorem sendResult_keeps {s0 s : State} {a0 a1 a2 a3} (h : Keeps s0 s) : Keeps s0 (sendResult a0 a1 a2 a3 s) := by
  unfold sendResult
  repeat' first
    | with_reducible assumption
    | with_reducible apply sendHedge_keeps
    | with_reducible apply Keeps.ite
    | dsimp only [Keeps]
    | split

theorem startJob_keeps {s0 s : State} {a0 a1 a2 a3} (h : Keeps s0 s) : Keeps s0 (startJob a0 a1 a2 a3 s) := by
  unfold startJob
  repeat' first
    | with_reducible assumption
    | with_reducible apply setSub_keeps
    | with_reducible apply Keeps.ite
    | (lift_lets; intro x; refine Keeps.cut (s := s0) (x := x) ?_ ?_; rotate_left; intro hx; clear_value x; rotate_left; subst x)
    | (lift_lets; intro (x : Memory); subst x)
    | (lift_lets; intro (x : Flash); subst x)
    | (lift_lets; intro (x : State → State × Nat × Nat); subst x)
    | (lift_lets; intro (x : State → State); subst x)
    | (lift_lets; intro (x : State → State × Result); subst x)
    | (lift_lets; intro x; clear_value x)
    | dsimp only [Keeps]
    | split

theorem finishJobs_keeps {s0 s : State} {a0 a1 a2} (h : Keeps s0 s) : Keeps s0 (finishJobs a0 a1 a2 s) := by
  unfold finishJobs
  repeat' first
    | with_reducible assumption
    | with_reducible apply sendResult_keeps
    | with_reducible apply completeLater_keeps
    | (with_reducible refine Keeps.foldl ?_ (fun t x h => ?_))
    | (with_reducible refine Keeps.foldlFst ?_ (fun t x h => ?_))
    | (with_reducible refine Keeps.foldlSnd ?_ (fun t x h => ?_))
    | with_reducible apply Keeps.ite
    | (lift_lets; intro x; refine Keeps.cut (s := s0) (x := x) ?_ ?_; rotate_left; intro hx; clear_value x; rotate_left; subst x)
    | (lift_lets; intro (x : Memory); subst x)
    | (lift_lets; intro (x : Flash); subst x)
    | (lift_lets; intro (x : State → State × Nat × Nat); subst x)
    | (lift_lets; intro (x : State → State); subst x)
    | (lift_lets; intro (x : State → State × Result); subst x)
    | (lift_lets; intro x; clear_value x)
    | dsimp only [Keeps]
    | split

theorem record_keeps {s0 : State} {a0 a1 a2} (k_a2 : Keeps s0 a2.1) : Keeps s0 (record a0 a1 a2) := by
  unfold record
  repeat' first
    | with_reducible assumption
    | with_reducible apply k_a2
    | with_reducible apply completeNow_keeps
    | with_reducible apply startJob_keeps
    | with_reducible apply setSub_keeps
    | with_reducible apply Keeps.ite
    | dsimp only [Keeps]
    | split

theorem recordFor_keeps {s0 : State} {a0 a1 a2 a3} (k_a3 : Keeps s0 a3.1) : Keeps s0 (recordFor a0 a1 a2 a3) := by
  unfold recordFor
  repeat' first
    | with_reducible assumption
    | with_reducible apply k_a3
    | with_reducible apply sendResult_keeps
    | with_reducible apply startJob_keeps
    | with_reducible apply Keeps.ite
    | dsimp only [Keeps]
    | split

theorem refuse_keeps {s0 s : State} {a0} (h : Keeps s0 s) : Keeps s0 (refuse a0 s).1 := by
  unfold refuse
  repeat' first
    | with_reducible assumption
    | with_reducible apply Keeps.ite
    | dsimp only [Keeps]
    | split

theorem refuse_keeps_eq {s0 s : State} {a0} (h : Keeps s0 s) {t u} (e : refuse a0 s = (t, u)) : Keeps s0 t := by
  have k : Keeps s0 (refuse a0 s).1 := refuse_keeps h 
  rw [e] at k; exact k

theorem accept_keeps {s0 s : State} {a0} (h : Keeps s0 s) : Keeps s0 (accept a0 s).1 := by
  unfold accept
  repeat' first
    | with_reducible assumption
    | with_reducible apply Keeps.ite
    | dsimp only [Keeps]
    | split

theorem accept_keeps_eq {s0 s : State} {a0} (h : Keeps s0 s) {t u} (e : accept a0 s = (t, u)) : Keeps s0 t := by
  have k : Keeps s0 (accept a0 s).1 := accept_keeps h 
  rw [e] at k; exact k

theorem writeResult_keeps {s0 s : State} {a0 a1} (h : Keeps s0 s) : Keeps s0 (writeResult a0 a1 s) := by
  unfold writeResult
  repeat' first
    | with_reducible assumption
    | with_reducible apply hostWrite_keeps
    | with_reducible apply Keeps.ite
    | dsimp only [Keeps]
    | split

end Sys2Proof.Laws
end

