-- ==== Sys2Proof/Laws/KeepsPorts.lean ====
section
/-!
SUPPORT. `Keeps` for the operations of Machine/Ports.lean.
-/
namespace Sys2Proof.Laws

open Sys2Proof Sys2Proof.Machine

theorem setPort_keeps {s0 s : State} {a0 a1} (h : Keeps s0 s) : Keeps s0 (setPort a0 a1 s) := by
  unfold setPort
  repeat' first
    | with_reducible assumption
    | with_reducible apply Keeps.ite
    | dsimp only [Keeps]
    | split

theorem notePorts_keeps {s0 s : State} (h : Keeps s0 s) : Keeps s0 (notePorts s) := by
  unfold notePorts
  repeat' first
    | with_reducible assumption
    | (with_reducible refine Keeps.foldl ?_ (fun t x h => ?_))
    | (with_reducible refine Keeps.foldlFst ?_ (fun t x h => ?_))
    | (with_reducible refine Keeps.foldlSnd ?_ (fun t x h => ?_))
    | with_reducible apply Keeps.ite
    | dsimp only [Keeps]
    | split

theorem takeDown_keeps {s0 s : State} {a0 a1} (h : Keeps s0 s) : Keeps s0 (takeDown a0 a1 s) := by
  unfold takeDown
  repeat' first
    | with_reducible assumption
    | with_reducible apply notePorts_keeps
    | with_reducible apply setPort_keeps
    | with_reducible apply raise_keeps
    | with_reducible apply Keeps.ite
    | (lift_lets; intro x; refine Keeps.cut (s := s0) (x := x) ?_ ?_; rotate_left; intro hx; clear_value x; rotate_left; subst x)
    | (lift_lets; intro (x : Memory); subst x)
    | (lift_lets; intro (x : Flash); subst x)
    | (lift_lets; intro (x : State → State × Nat × Nat); subst x)
    | (lift_lets; intro (x : State → State); subst x)
    | (lift_lets; intro (x : State → State × Result); subst x)
    | (lift_lets; intro x; clear_value x)
    | dsimp only [Keeps]
    | split

theorem trainWidth_keeps {s0 s : State} {a0 a1} (h : Keeps s0 s) : Keeps s0 (trainWidth a0 a1 s) := by
  unfold trainWidth
  repeat' first
    | with_reducible assumption
    | with_reducible apply takeDown_keeps
    | with_reducible apply notePorts_keeps
    | with_reducible apply setPort_keeps
    | with_reducible apply raise_keeps
    | with_reducible apply Keeps.ite
    | (lift_lets; intro x; refine Keeps.cut (s := s0) (x := x) ?_ ?_; rotate_left; intro hx; clear_value x; rotate_left; subst x)
    | (lift_lets; intro (x : Memory); subst x)
    | (lift_lets; intro (x : Flash); subst x)
    | (lift_lets; intro (x : State → State × Nat × Nat); subst x)
    | (lift_lets; intro (x : State → State); subst x)
    | (lift_lets; intro (x : State → State × Result); subst x)
    | (lift_lets; intro x; clear_value x)
    | dsimp only [Keeps]
    | split

theorem holdLink_keeps {s0 s : State} {a0 a1} (h : Keeps s0 s) : Keeps s0 (holdLink a0 a1 s) := by
  unfold holdLink
  repeat' first
    | with_reducible assumption
    | with_reducible apply setPort_keeps
    | with_reducible apply raise_keeps
    | with_reducible apply Keeps.ite
    | (lift_lets; intro x; refine Keeps.cut (s := s0) (x := x) ?_ ?_; rotate_left; intro hx; clear_value x; rotate_left; subst x)
    | (lift_lets; intro (x : Memory); subst x)
    | (lift_lets; intro (x : Flash); subst x)
    | (lift_lets; intro (x : State → State × Nat × Nat); subst x)
    | (lift_lets; intro (x : State → State); subst x)
    | (lift_lets; intro (x : State → State × Result); subst x)
    | (lift_lets; intro x; clear_value x)
    | dsimp only [Keeps]
    | split

theorem trainPort_keeps {s0 s : State} {a0 a1 a2} (h : Keeps s0 s) : Keeps s0 (trainPort a0 a1 a2 s) := by
  unfold trainPort
  repeat' first
    | with_reducible assumption
    | with_reducible apply holdLink_keeps
    | with_reducible apply trainWidth_keeps
    | with_reducible apply Keeps.ite
    | dsimp only [Keeps]
    | split

end Sys2Proof.Laws
end

