-- ==== Sys2Proof/Laws/KeepsReset.lean ====
section
/-!
SUPPORT. `Keeps` for the operations of Machine/Reset.lean.
-/
namespace Sys2Proof.Laws

open Sys2Proof Sys2Proof.Machine

theorem functionLevel_keeps {s0 s : State} (h : Keeps s0 s) : Keeps s0 (functionLevel s) := by
  unfold functionLevel
  repeat' first
    | with_reducible assumption
    | with_reducible apply Keeps.ite
    | (lift_lets; intro x; refine Keeps.cut (s := s0) (x := x) ?_ ?_; rotate_left; intro hx; clear_value x; rotate_left; subst x)
    | (lift_lets; intro (x : Memory); subst x)
    | (lift_lets; intro (x : Flash); subst x)
    | (lift_lets; intro (x : State → State × Nat × Nat); subst x)
    | (lift_lets; intro (x : State → State); subst x)
    | (lift_lets; intro (x : State → State × Result); subst x)
    | (lift_lets; intro x; clear_value x)
    | dsimp only [Keeps]
    | split

theorem holdingLevel_keeps {s0 s : State} (h : Keeps s0 s) : Keeps s0 (holdingLevel s) := by
  unfold holdingLevel
  repeat' first
    | with_reducible assumption
    | (with_reducible refine Keeps.foldl ?_ (fun t x h => ?_))
    | (with_reducible refine Keeps.foldlFst ?_ (fun t x h => ?_))
    | (with_reducible refine Keeps.foldlSnd ?_ (fun t x h => ?_))
    | with_reducible apply Keeps.ite
    | with_reducible apply KeepsParts.filter
    | dsimp only [Keeps]
    | split

theorem moduleLevel_keeps {s0 s : State} (h : Keeps s0 s) : Keeps s0 (moduleLevel s) := ⟨h.1, fun _ => rfl, h.2.2⟩

theorem coldLoss_keeps {s0 s : State} (h : Keeps s0 s) : Keeps s0 (coldLoss s) := by
  unfold coldLoss
  repeat' first
    | with_reducible assumption
    | with_reducible apply moduleLevel_keeps
    | with_reducible apply Keeps.ite
    | (lift_lets; intro x; refine Keeps.cut (s := s0) (x := x) ?_ ?_; rotate_left; intro hx; clear_value x; rotate_left; subst x)
    | (lift_lets; intro (x : Memory); subst x)
    | (lift_lets; intro (x : Flash); subst x)
    | (lift_lets; intro (x : State → State × Nat × Nat); subst x)
    | (lift_lets; intro (x : State → State); subst x)
    | (lift_lets; intro (x : State → State × Result); subst x)
    | (lift_lets; intro x; clear_value x)
    | dsimp only [Keeps]
    | split

theorem withAlert_keeps {s0 s : State} (h : Keeps s0 s) : Keeps s0 (withAlert s) := by
  unfold withAlert
  repeat' first
    | with_reducible assumption
    | with_reducible apply Keeps.ite
    | dsimp only [Keeps]
    | split

end Sys2Proof.Laws
end

