-- ==== Sys2Proof/Laws/KeepsBoot.lean ====
section
/-!
SUPPORT. `Keeps` for the operations of Machine/Boot.lean.
-/
namespace Sys2Proof.Laws

open Sys2Proof Sys2Proof.Machine

theorem FlashKeeps.raiseCounter (i : Nat) (v : W32) (f : Flash) : FlashKeeps f (raiseCounter i v f) := by
  unfold Machine.raiseCounter
  dsimp only
  split
  · next h =>
    refine ⟨rfl, rfl, rfl, fun _ k => k, fun j => ?_⟩
    unfold rollback
    rw [List.getD_eq_getElem?_getD, List.getD_eq_getElem?_getD, List.getElem?_set]
    rw [List.getD_eq_getElem?_getD] at h
    split
    · next e =>
      subst e
      split
      · exact Nat.le_of_lt h
      · next n => simp [List.getElem?_eq_none (show f.replay.length ≤ i by omega)]
    · exact Nat.le_refl _
  · exact FlashKeeps.refl f

theorem recover_keeps {s0 s : State} {a0} (h : Keeps s0 s) : Keeps s0 (recover a0 s) := by
  unfold recover
  repeat' first
    | with_reducible assumption
    | with_reducible apply withAlert_keeps
    | with_reducible apply Keeps.ite
    | dsimp only [Keeps]
    | split

theorem bootRom_keeps {s0 s : State} {a0} (h : Keeps s0 s) : Keeps s0 (bootRom a0 s) := by
  unfold bootRom
  repeat' first
    | with_reducible assumption
    | with_reducible apply recover_keeps
    | with_reducible apply Keeps.ite
    | (lift_lets; intro x; refine Keeps.cut (s := s0) (x := x) ?_ ?_; rotate_left; intro hx; clear_value x; rotate_left; subst x)
    | (lift_lets; intro (x : Memory); subst x)
    | (lift_lets; intro (x : Flash); subst x)
    | (lift_lets; intro (x : State → State × Nat × Nat); subst x)
    | (lift_lets; intro (x : State → State); subst x)
    | (lift_lets; intro (x : State → State × Result); subst x)
    | (lift_lets; intro x; clear_value x)
    | dsimp only [Keeps]
    | split

theorem firmwareVerify_keeps {s0 s : State} (h : Keeps s0 s) : Keeps s0 (firmwareVerify s) := by
  unfold firmwareVerify
  repeat' first
    | with_reducible assumption
    | with_reducible apply recover_keeps
    | with_reducible apply extendMeas_keeps
    | with_reducible apply Keeps.ite
    | (lift_lets; intro x; refine Keeps.cut (s := s0) (x := x) ?_ ?_; rotate_left; intro hx; clear_value x; rotate_left; subst x)
    | (lift_lets; intro (x : Memory); subst x)
    | (lift_lets; intro (x : Flash); subst x)
    | (lift_lets; intro (x : State → State × Nat × Nat); subst x)
    | (lift_lets; intro (x : State → State); subst x)
    | (lift_lets; intro (x : State → State × Result); subst x)
    | (lift_lets; intro x; clear_value x)
    | dsimp only [Keeps]
    | split

theorem pufRegenerate_keeps {s0 s : State} {a0} (h : Keeps s0 s) : Keeps s0 (pufRegenerate a0 s) := by
  unfold pufRegenerate
  repeat' first
    | with_reducible assumption
    | with_reducible apply recover_keeps
    | with_reducible apply Keeps.ite
    | dsimp only [Keeps]
    | split

theorem memoryTraining_keeps {s0 s : State} {a0 a1} (h : Keeps s0 s) : Keeps s0 (memoryTraining a0 a1 s) := by
  unfold memoryTraining
  repeat' first
    | with_reducible assumption
    | with_reducible apply withAlert_keeps
    | (with_reducible refine Keeps.foldl ?_ (fun t x h => ?_))
    | (with_reducible refine Keeps.foldlFst ?_ (fun t x h => ?_))
    | (with_reducible refine Keeps.foldlSnd ?_ (fun t x h => ?_))
    | with_reducible apply Keeps.ite
    | dsimp only [Keeps]
    | split

theorem selfTestAll_keeps {s0 s : State} {a0 a1 a2 a3} (h : Keeps s0 s) : Keeps s0 (selfTestAll a0 a1 a2 a3 s) := by
  unfold selfTestAll
  repeat' first
    | with_reducible assumption
    | with_reducible apply Keeps.ite
    | (lift_lets; intro x; refine Keeps.cut (s := s0) (x := x) ?_ ?_; rotate_left; intro hx; clear_value x; rotate_left; subst x)
    | (lift_lets; intro (x : Memory); subst x)
    | (lift_lets; intro (x : Flash); subst x)
    | (lift_lets; intro (x : State → State × Nat × Nat); subst x)
    | (lift_lets; intro (x : State → State); subst x)
    | (lift_lets; intro (x : State → State × Result); subst x)
    | (lift_lets; intro x; clear_value x)
    | dsimp only [Keeps]
    | split

theorem raiseCounters_keeps {s0 s : State} (h : Keeps s0 s) : Keeps s0 (raiseCounters s) :=
  h.flash (((FlashKeeps.raiseCounter 0 _ _).trans (FlashKeeps.raiseCounter 1 _ _)).trans (FlashKeeps.raiseCounter 2 _ _))

theorem readyEvents_keeps {s0 s : State} (h : Keeps s0 s) : Keeps s0 (readyEvents s) := by
  unfold readyEvents
  repeat' first
    | with_reducible assumption
    | with_reducible apply raise_keeps
    | (with_reducible refine Keeps.foldl ?_ (fun t x h => ?_))
    | (with_reducible refine Keeps.foldlFst ?_ (fun t x h => ?_))
    | (with_reducible refine Keeps.foldlSnd ?_ (fun t x h => ?_))
    | with_reducible apply Keeps.ite
    | (lift_lets; intro x; refine Keeps.cut (s := s0) (x := x) ?_ ?_; rotate_left; intro hx; clear_value x; rotate_left; subst x)
    | (lift_lets; intro (x : Memory); subst x)
    | (lift_lets; intro (x : Flash); subst x)
    | (lift_lets; intro (x : State → State × Nat × Nat); subst x)
    | (lift_lets; intro (x : State → State); subst x)
    | (lift_lets; intro (x : State → State × Result); subst x)
    | (lift_lets; intro x; clear_value x)
    | dsimp only [Keeps]
    | split

theorem lamioTraining_keeps {s0 s : State} {a0 a1} (h : Keeps s0 s) : Keeps s0 (lamioTraining a0 a1 s) := by
  unfold lamioTraining
  repeat' first
    | with_reducible assumption
    | with_reducible apply setPort_keeps
    | with_reducible apply notePorts_keeps
    | with_reducible apply readyEvents_keeps
    | with_reducible apply raiseCounters_keeps
    | with_reducible apply holdLink_keeps
    | (with_reducible refine Keeps.foldl ?_ (fun t x h => ?_))
    | (with_reducible refine Keeps.foldlFst ?_ (fun t x h => ?_))
    | (with_reducible refine Keeps.foldlSnd ?_ (fun t x h => ?_))
    | with_reducible apply Keeps.ite
    | (lift_lets; intro x; refine Keeps.cut (s := s0) (x := x) ?_ ?_; rotate_left; intro hx; clear_value x; rotate_left; subst x)
    | (lift_lets; intro (x : Memory); subst x)
    | (lift_lets; intro (x : Flash); subst x)
    | (lift_lets; intro (x : State → State × Nat × Nat); subst x)
    | (lift_lets; intro (x : State → State); subst x)
    | (lift_lets; intro (x : State → State × Result); subst x)
    | (lift_lets; intro x; clear_value x)
    | dsimp only [Keeps]
    | split

theorem execBootRom_keeps {s0 s : State} {a0} (h : Keeps s0 s) {t} (e : execBootRom a0 s = .next t) : Keeps s0 t := by
  unfold execBootRom at e
  first
    | (replace e := Host.Outcome.next.inj e; subst e)
    | cases e
  repeat' first
    | with_reducible assumption
    | with_reducible apply bootRom_keeps
    | with_reducible apply Keeps.ite
    | dsimp only [Keeps]
    | split

theorem execFirmwareVerify_keeps {s0 s : State} (h : Keeps s0 s) {t} (e : execFirmwareVerify s = .next t) : Keeps s0 t := by
  unfold execFirmwareVerify at e
  first
    | (replace e := Host.Outcome.next.inj e; subst e)
    | cases e
  repeat' first
    | with_reducible assumption
    | with_reducible apply firmwareVerify_keeps
    | with_reducible apply Keeps.ite
    | dsimp only [Keeps]
    | split

theorem execPufRegenerate_keeps {s0 s : State} {a0} (h : Keeps s0 s) {t} (e : execPufRegenerate a0 s = .next t) : Keeps s0 t := by
  unfold execPufRegenerate at e
  first
    | (replace e := Host.Outcome.next.inj e; subst e)
    | cases e
  repeat' first
    | with_reducible assumption
    | with_reducible apply pufRegenerate_keeps
    | with_reducible apply Keeps.ite
    | dsimp only [Keeps]
    | split

theorem execHbmTraining_keeps {s0 s : State} {a0} (h : Keeps s0 s) {t} (e : execHbmTraining a0 s = .next t) : Keeps s0 t := by
  unfold execHbmTraining at e
  first
    | (replace e := Host.Outcome.next.inj e; subst e)
    | cases e
  repeat' first
    | with_reducible assumption
    | with_reducible apply memoryTraining_keeps
    | with_reducible apply Keeps.ite
    | dsimp only [Keeps]
    | split

theorem execLpddrTraining_keeps {s0 s : State} {a0} (h : Keeps s0 s) {t} (e : execLpddrTraining a0 s = .next t) : Keeps s0 t := by
  unfold execLpddrTraining at e
  first
    | (replace e := Host.Outcome.next.inj e; subst e)
    | cases e
  repeat' first
    | with_reducible assumption
    | with_reducible apply memoryTraining_keeps
    | with_reducible apply Keeps.ite
    | dsimp only [Keeps]
    | split

theorem execBuiltInSelfTest_keeps {s0 s : State} {a0 a1 a2 a3} (h : Keeps s0 s) {t} (e : execBuiltInSelfTest a0 a1 a2 a3 s = .next t) : Keeps s0 t := by
  unfold execBuiltInSelfTest at e
  first
    | (replace e := Host.Outcome.next.inj e; subst e)
    | cases e
  repeat' first
    | with_reducible assumption
    | with_reducible apply selfTestAll_keeps
    | with_reducible apply Keeps.ite
    | dsimp only [Keeps]
    | split

theorem execLamioTraining_keeps {s0 s : State} {a0 a1} (h : Keeps s0 s) {t} (e : execLamioTraining a0 a1 s = .next t) : Keeps s0 t := by
  unfold execLamioTraining at e
  first
    | (replace e := Host.Outcome.next.inj e; subst e)
    | cases e
  repeat' first
    | with_reducible assumption
    | with_reducible apply lamioTraining_keeps
    | with_reducible apply Keeps.ite
    | dsimp only [Keeps]
    | split

theorem execRecoveryImageLoad_keeps {s0 s : State} {a0 a1} (h : Keeps s0 s) {t} (e : execRecoveryImageLoad a0 a1 s = .next t) : Keeps s0 t := by
  unfold execRecoveryImageLoad at e
  first
    | (replace e := Host.Outcome.next.inj e; subst e)
    | cases e
  repeat' first
    | with_reducible assumption
    | with_reducible apply Keeps.ite
    | exact KeepsParts.flash h ⟨rfl, rfl, rfl, fun _ k => k, fun _ => Nat.le_refl _⟩
    | dsimp only [Keeps]
    | split

theorem execFactoryServiceWrite_keeps {s0 s : State} {a0} (h : Keeps s0 s) {t} (e : execFactoryServiceWrite a0 s = .next t) : Keeps s0 t := by
  unfold execFactoryServiceWrite at e
  first
    | (replace e := Host.Outcome.next.inj e; subst e)
    | cases e
  repeat' first
    | with_reducible assumption
    | with_reducible apply record_keeps
    | intro t h
    | with_reducible apply Keeps.ite
    | exact KeepsParts.flash h ⟨rfl, rfl, rfl, fun _ k => k, fun _ => Nat.le_refl _⟩
    | dsimp only [Keeps]
    | split

theorem issueNonce_keeps {s0 s : State} (h : Keeps s0 s) : Keeps s0 (issueNonce s) := by
  unfold issueNonce
  repeat' first
    | with_reducible assumption
    | with_reducible apply Keeps.ite
    | dsimp only [Keeps]
    | split

theorem useNonce_keeps {s0 s : State} (h : Keeps s0 s) : Keeps s0 (useNonce s) := by
  unfold useNonce
  repeat' first
    | with_reducible assumption
    | with_reducible apply Keeps.ite
    | dsimp only [Keeps]
    | split

theorem securityRequest_keeps {s0 s : State} {a0} (h : Keeps s0 s) : Keeps s0 (securityRequest a0 s) := by
  unfold securityRequest
  repeat' first
    | with_reducible assumption
    | with_reducible apply useNonce_keeps
    | with_reducible apply extendMeas_keeps
    | with_reducible apply Keeps.ite
    | (lift_lets; intro x; refine Keeps.cut (s := s0) (x := x) ?_ ?_; rotate_left; intro hx; clear_value x; rotate_left; subst x)
    | (lift_lets; intro (x : Memory); subst x)
    | (lift_lets; intro (x : Flash); subst x)
    | (lift_lets; intro (x : State → State × Nat × Nat); subst x)
    | (lift_lets; intro (x : State → State); subst x)
    | (lift_lets; intro (x : State → State × Result); subst x)
    | (lift_lets; intro x; clear_value x)
    | dsimp only [Keeps]
    | split

theorem execNonceRequest_keeps {s0 s : State} (h : Keeps s0 s) {t} (e : execNonceRequest s = .next t) : Keeps s0 t := by
  unfold execNonceRequest at e
  first
    | (replace e := Host.Outcome.next.inj e; subst e)
    | cases e
  repeat' first
    | with_reducible assumption
    | with_reducible apply issueNonce_keeps
    | with_reducible apply Keeps.ite
    | dsimp only [Keeps]
    | split

theorem execRequestGo_keeps {s0 s : State} (h : Keeps s0 s) {t} (e : execRequestGo s = .next t) : Keeps s0 t := by
  unfold execRequestGo at e
  first
    | (replace e := Host.Outcome.next.inj e; subst e)
    | cases e
  repeat' first
    | with_reducible assumption
    | with_reducible apply securityRequest_keeps
    | with_reducible apply Keeps.ite
    | dsimp only [Keeps]
    | split

end Sys2Proof.Laws
end

