-- ==== Sys2Proof/Laws/KeepsFlags.lean ====
section
/-!
SUPPORT. `Keeps` for the operations of Machine/Flags.lean.
-/
namespace Sys2Proof.Laws

open Sys2Proof Sys2Proof.Machine

theorem finding_keeps {s0 s : State} {a0 a1} (h : Keeps s0 s) : Keeps s0 (finding a0 a1 s) := by
  unfold finding
  repeat' first
    | with_reducible assumption
    | with_reducible apply Keeps.ite
    | dsimp only [Keeps]
    | split

theorem findings_keeps {s0 s : State} {a0 a1} (h : Keeps s0 s) : Keeps s0 (findings a0 a1 s) := by
  unfold findings
  repeat' first
    | with_reducible assumption
    | with_reducible apply finding_keeps
    | (with_reducible refine Keeps.foldl ?_ (fun t x h => ?_))
    | (with_reducible refine Keeps.foldlFst ?_ (fun t x h => ?_))
    | (with_reducible refine Keeps.foldlSnd ?_ (fun t x h => ?_))
    | with_reducible apply Keeps.ite
    | dsimp only [Keeps]
    | split

theorem findMemberLost_keeps {s0 s : State} (h : Keeps s0 s) : Keeps s0 (findMemberLost s) := by
  unfold findMemberLost
  repeat' first
    | with_reducible assumption
    | with_reducible apply finding_keeps
    | with_reducible apply Keeps.ite
    | dsimp only [Keeps]
    | split

theorem countNan_keeps {s0 s : State} {a0 a1 a2} (h : Keeps s0 s) : Keeps s0 (countNan a0 a1 a2 s) := by
  unfold countNan
  repeat' first
    | with_reducible assumption
    | with_reducible apply countWork_keeps
    | with_reducible apply trace_keeps
    | with_reducible apply Keeps.ite
    | (lift_lets; intro x; refine Keeps.cut (s := s0) (x := x) ?_ ?_; rotate_left; intro hx; clear_value x; rotate_left; subst x)
    | (lift_lets; intro (x : Memory); subst x)
    | (lift_lets; intro (x : Flash); subst x)
    | (lift_lets; intro (x : State → State × Nat × Nat); subst x)
    | (lift_lets; intro (x : State → State); subst x)
    | (lift_lets; intro (x : State → State × Result); subst x)
    | (lift_lets; intro x; clear_value x)
    | dsimp only [Keeps]
    | split

end Sys2Proof.Laws
end

