-- ==== Sys2Proof/Laws/KeepsTasks.lean ====
section
/-!
SUPPORT. `Keeps` for the operations of Machine/Tasks.lean.
-/
namespace Sys2Proof.Laws

open Sys2Proof Sys2Proof.Machine

theorem setTask_keeps {s0 s : State} {a0 a1 a2} (h : Keeps s0 s) : Keeps s0 (setTask a0 a1 a2 s) := by
  unfold setTask
  repeat' first
    | with_reducible assumption
    | with_reducible apply Keeps.ite
    | dsimp only [Keeps]
    | split

theorem holdRun_keeps {s0 s : State} {a0} (h : Keeps s0 s) : Keeps s0 (holdRun a0 s) := by
  unfold holdRun
  repeat' first
    | with_reducible assumption
    | with_reducible apply sendHedge_keeps
    | with_reducible apply Keeps.ite
    | dsimp only [Keeps]
    | split

theorem addressError_keeps {s0 s : State} {a0} (h : Keeps s0 s) : Keeps s0 (addressError a0 s) := by
  unfold addressError
  repeat' first
    | with_reducible assumption
    | with_reducible apply holdRun_keeps
    | with_reducible apply finding_keeps
    | with_reducible apply Keeps.ite
    | (lift_lets; intro x; refine Keeps.cut (s := s0) (x := x) ?_ ?_; rotate_left; intro hx; clear_value x; rotate_left; subst x)
    | (lift_lets; intro (x : Memory); subst x)
    | (lift_lets; intro (x : Flash); subst x)
    | (lift_lets; intro (x : State → State × Nat × Nat); subst x)
    | (lift_lets; intro (x : State → State); subst x)
    | (lift_lets; intro (x : State → State × Result); subst x)
    | (lift_lets; intro x; clear_value x)
    | dsimp only [Keeps]
    | split

end Sys2Proof.Laws
end

