-- ==== Sys2Proof/Laws/KeepsPackets.lean ====
section
/-!
SUPPORT. `Keeps` for the operations of Machine/Packets.lean.
-/
namespace Sys2Proof.Laws

open Sys2Proof Sys2Proof.Machine

theorem countLink_keeps {s0 s : State} {a0 a1} (h : Keeps s0 s) : Keeps s0 (countLink a0 a1 s) := by
  unfold countLink
  repeat' first
    | with_reducible assumption
    | with_reducible apply count_keeps
    | with_reducible apply Keeps.ite
    | dsimp only [Keeps]
    | split

theorem sendFlit_keeps {s0 s : State} {a0 a1 a2 a3} (h : Keeps s0 s) : Keeps s0 (sendFlit a0 a1 a2 a3 s) := by
  unfold sendFlit
  repeat' first
    | with_reducible assumption
    | with_reducible apply setPort_keeps
    | with_reducible apply count_keeps
    | with_reducible apply Keeps.ite
    | (lift_lets; intro x; refine Keeps.cut (s := s0) (x := x) ?_ ?_; rotate_left; intro hx; clear_value x; rotate_left; subst x)
    | (lift_lets; intro (x : Memory); subst x)
    | (lift_lets; intro (x : Flash); subst x)
    | (lift_lets; intro (x : State → State × Nat × Nat); subst x)
    | (lift_lets; intro (x : State → State); subst x)
    | (lift_lets; intro (x : State → State × Result); subst x)
    | (lift_lets; intro x; clear_value x)
    | dsimp only [Keeps]
    | split

theorem sendBlocked_keeps {s0 s : State} {a0 a1} (h : Keeps s0 s) : Keeps s0 (sendBlocked a0 a1 s) := by
  induction a1 generalizing s a0 with
  | zero =>
    rw [sendBlocked]
    repeat' first
      | with_reducible assumption
      | with_reducible apply ih
      | with_reducible apply sendFlit_keeps
      | with_reducible apply setPort_keeps
      | with_reducible apply Keeps.ite
      | dsimp only [Keeps]
      | split
  | succ n ih =>
    rw [sendBlocked]
    repeat' first
      | with_reducible assumption
      | with_reducible apply ih
      | with_reducible apply sendFlit_keeps
      | with_reducible apply setPort_keeps
      | with_reducible apply Keeps.ite
      | dsimp only [Keeps]
      | split

theorem transmit_keeps {s0 s : State} {a0 a1 a2} (h : Keeps s0 s) : Keeps s0 (transmit a0 a1 a2 s) := by
  unfold transmit
  repeat' first
    | with_reducible assumption
    | with_reducible apply sendFlit_keeps
    | with_reducible apply countStone_keeps
    | with_reducible apply Keeps.ite
    | (lift_lets; intro x; refine Keeps.cut (s := s0) (x := x) ?_ ?_; rotate_left; intro hx; clear_value x; rotate_left; subst x)
    | (lift_lets; intro (x : Memory); subst x)
    | (lift_lets; intro (x : Flash); subst x)
    | (lift_lets; intro (x : State → State × Nat × Nat); subst x)
    | (lift_lets; intro (x : State → State); subst x)
    | (lift_lets; intro (x : State → State × Result); subst x)
    | (lift_lets; intro x; clear_value x)
    | dsimp only [Keeps]
    | split

theorem releaseHeld_keeps {s0 s : State} {a0 a1} (h : Keeps s0 s) : Keeps s0 (releaseHeld a0 a1 s) := by
  unfold releaseHeld
  repeat' first
    | with_reducible assumption
    | with_reducible apply sendFlit_keeps
    | (with_reducible refine Keeps.foldl ?_ (fun t x h => ?_))
    | (with_reducible refine Keeps.foldlFst ?_ (fun t x h => ?_))
    | (with_reducible refine Keeps.foldlSnd ?_ (fun t x h => ?_))
    | with_reducible apply Keeps.ite
    | (lift_lets; intro x; refine Keeps.cut (s := s0) (x := x) ?_ ?_; rotate_left; intro hx; clear_value x; rotate_left; subst x)
    | (lift_lets; intro (x : Memory); subst x)
    | (lift_lets; intro (x : Flash); subst x)
    | (lift_lets; intro (x : State → State × Nat × Nat); subst x)
    | (lift_lets; intro (x : State → State); subst x)
    | (lift_lets; intro (x : State → State × Result); subst x)
    | (lift_lets; intro x; clear_value x)
    | dsimp only [Keeps]
    | split

theorem sendPacket_keeps {s0 s : State} {a0 a1 a2} (h : Keeps s0 s) : Keeps s0 (sendPacket a0 a1 a2 s) := by
  unfold sendPacket
  repeat' first
    | with_reducible assumption
    | with_reducible apply countLink_keeps
    | with_reducible apply transmit_keeps
    | with_reducible apply releaseHeld_keeps
    | with_reducible apply Keeps.ite
    | (lift_lets; intro x; refine Keeps.cut (s := s0) (x := x) ?_ ?_; rotate_left; intro hx; clear_value x; rotate_left; subst x)
    | (lift_lets; intro (x : Memory); subst x)
    | (lift_lets; intro (x : Flash); subst x)
    | (lift_lets; intro (x : State → State × Nat × Nat); subst x)
    | (lift_lets; intro (x : State → State); subst x)
    | (lift_lets; intro (x : State → State × Result); subst x)
    | (lift_lets; intro x; clear_value x)
    | dsimp only [Keeps]
    | split

theorem takeOrder_keeps {s0 s : State} {a0 a1} (h : Keeps s0 s) : Keeps s0 (takeOrder a0 a1 s).2 := by
  unfold takeOrder
  repeat' first
    | with_reducible assumption
    | with_reducible apply Keeps.ite
    | dsimp only [Keeps]
    | split

theorem takeOrder_keeps_eq {s0 s : State} {a0 a1} (h : Keeps s0 s) {t u} (e : takeOrder a0 a1 s = (u, t)) : Keeps s0 t := by
  have k : Keeps s0 (takeOrder a0 a1 s).2 := takeOrder_keeps h 
  rw [e] at k; exact k

theorem launch_keeps {s0 s : State} {a0} (h : Keeps s0 s) : Keeps s0 (launch a0 s) := by
  unfold launch
  repeat' first
    | with_reducible assumption
    | with_reducible apply takeOrder_keeps
    | (with_reducible refine takeOrder_keeps_eq ?_ (by with_reducible assumption))
    | with_reducible apply trace_keeps
    | with_reducible apply sendPacket_keeps
    | with_reducible apply Keeps.ite
    | (lift_lets; intro x; refine Keeps.cut (s := s0) (x := x) ?_ ?_; rotate_left; intro hx; clear_value x; rotate_left; subst x)
    | (lift_lets; intro (x : Memory); subst x)
    | (lift_lets; intro (x : Flash); subst x)
    | (lift_lets; intro (x : State → State × Nat × Nat); subst x)
    | (lift_lets; intro (x : State → State); subst x)
    | (lift_lets; intro (x : State → State × Result); subst x)
    | (lift_lets; intro x; clear_value x)
    | dsimp only [Keeps]
    | split

theorem launchNext_keeps {s0 s : State} {a0} (h : Keeps s0 s) : Keeps s0 (launchNext a0 s) := by
  unfold launchNext
  repeat' first
    | with_reducible assumption
    | with_reducible apply launch_keeps
    | with_reducible apply Keeps.ite
    | dsimp only [Keeps]
    | split

theorem issue_keeps {s0 s : State} {a0 a1 a2 a3 a4 a5 a6 a7 a8} (h : Keeps s0 s) : Keeps s0 (issue a0 a1 a2 a3 a4 a5 a6 a7 a8 s).2 := by
  unfold issue
  repeat' first
    | with_reducible assumption
    | with_reducible apply launch_keeps
    | with_reducible apply Keeps.ite
    | (lift_lets; intro x; refine Keeps.cut (s := s0) (x := x) ?_ ?_; rotate_left; intro hx; clear_value x; rotate_left; subst x)
    | (lift_lets; intro (x : Memory); subst x)
    | (lift_lets; intro (x : Flash); subst x)
    | (lift_lets; intro (x : State → State × Nat × Nat); subst x)
    | (lift_lets; intro (x : State → State); subst x)
    | (lift_lets; intro (x : State → State × Result); subst x)
    | (lift_lets; intro x; clear_value x)
    | dsimp only [Keeps]
    | split

theorem issue_keeps_eq {s0 s : State} {a0 a1 a2 a3 a4 a5 a6 a7 a8} (h : Keeps s0 s) {t u} (e : issue a0 a1 a2 a3 a4 a5 a6 a7 a8 s = (u, t)) : Keeps s0 t := by
  have k : Keeps s0 (issue a0 a1 a2 a3 a4 a5 a6 a7 a8 s).2 := issue_keeps h 
  rw [e] at k; exact k

theorem respond_keeps {s0 s : State} {a0 a1 a2 a3 a4} (h : Keeps s0 s) : Keeps s0 (respond a0 a1 a2 a3 a4 s) := by
  unfold respond
  repeat' first
    | with_reducible assumption
    | with_reducible apply takeOrder_keeps
    | (with_reducible refine takeOrder_keeps_eq ?_ (by with_reducible assumption))
    | with_reducible apply sendPacket_keeps
    | with_reducible apply Keeps.ite
    | (lift_lets; intro x; refine Keeps.cut (s := s0) (x := x) ?_ ?_; rotate_left; intro hx; clear_value x; rotate_left; subst x)
    | (lift_lets; intro (x : Memory); subst x)
    | (lift_lets; intro (x : Flash); subst x)
    | (lift_lets; intro (x : State → State × Nat × Nat); subst x)
    | (lift_lets; intro (x : State → State); subst x)
    | (lift_lets; intro (x : State → State × Result); subst x)
    | (lift_lets; intro x; clear_value x)
    | dsimp only [Keeps]
    | split

end Sys2Proof.Laws
end

