-- ==== Sys2Proof/Laws/KeepsLamio.lean ====
section
/-!
SUPPORT. `Keeps` for the operations of Machine/Lamio.lean.
-/
namespace Sys2Proof.Laws

open Sys2Proof Sys2Proof.Machine

theorem answerRead_keeps {s0 s : State} {a0} (h : Keeps s0 s) : Keeps s0 (answerRead a0 s) := by
  unfold answerRead
  repeat' first
    | with_reducible assumption
    | with_reducible apply respond_keeps
    | with_reducible apply touch_keeps
    | with_reducible apply Keeps.ite
    | (lift_lets; intro x; refine Keeps.cut (s := s0) (x := x) ?_ ?_; rotate_left; intro hx; clear_value x; rotate_left; subst x)
    | (lift_lets; intro (x : Memory); subst x)
    | (lift_lets; intro (x : Flash); subst x)
    | (lift_lets; intro (x : State → State × Nat × Nat); subst x)
    | (lift_lets; intro (x : State → State); subst x)
    | (lift_lets; intro (x : State → State × Result); subst x)
    | (lift_lets; intro x; clear_value x)
    | dsimp only [Keeps]
    | split

theorem doRead_keeps {s0 s : State} {a0} (h : Keeps s0 s) : Keeps s0 (doRead a0 s) := by
  unfold doRead
  repeat' first
    | with_reducible assumption
    | with_reducible apply respond_keeps
    | with_reducible apply countLink_keeps
    | with_reducible apply answerRead_keeps
    | with_reducible apply Keeps.ite
    | dsimp only [Keeps]
    | split

theorem taskWrite_keeps {s0 s : State} {a0 a1 a2 a3 a4} (h : Keeps s0 s) : Keeps s0 (taskWrite a0 a1 a2 a3 a4 s) := by
  unfold taskWrite
  repeat' first
    | with_reducible assumption
    | with_reducible apply touch_keeps
    | with_reducible apply Keeps.ite
    | dsimp only [Keeps]
    | split

theorem performWrite_keeps {s0 s : State} {a0} (h : Keeps s0 s) : Keeps s0 (performWrite a0 s).2 := by
  unfold performWrite
  repeat' first
    | with_reducible assumption
    | with_reducible apply countLink_keeps
    | with_reducible apply taskWrite_keeps
    | with_reducible apply writePoison_keeps
    | with_reducible apply writeNow_keeps
    | with_reducible apply Keeps.ite
    | (lift_lets; intro x; refine Keeps.cut (s := s0) (x := x) ?_ ?_; rotate_left; intro hx; clear_value x; rotate_left; subst x)
    | (lift_lets; intro (x : Memory); subst x)
    | (lift_lets; intro (x : Flash); subst x)
    | (lift_lets; intro (x : State → State × Nat × Nat); subst x)
    | (lift_lets; intro (x : State → State); subst x)
    | (lift_lets; intro (x : State → State × Result); subst x)
    | (lift_lets; intro x; clear_value x)
    | dsimp only [Keeps]
    | split

theorem performWrite_keeps_eq {s0 s : State} {a0} (h : Keeps s0 s) {t u} (e : performWrite a0 s = (u, t)) : Keeps s0 t := by
  have k : Keeps s0 (performWrite a0 s).2 := performWrite_keeps h 
  rw [e] at k; exact k

theorem doWrite_keeps {s0 s : State} {a0} (h : Keeps s0 s) : Keeps s0 (doWrite a0 s) := by
  unfold doWrite
  repeat' first
    | with_reducible assumption
    | with_reducible apply performWrite_keeps
    | (with_reducible refine performWrite_keeps_eq ?_ (by with_reducible assumption))
    | with_reducible apply respond_keeps
    | with_reducible apply Keeps.ite
    | (lift_lets; intro x; refine Keeps.cut (s := s0) (x := x) ?_ ?_; rotate_left; intro hx; clear_value x; rotate_left; subst x)
    | (lift_lets; intro (x : Memory); subst x)
    | (lift_lets; intro (x : Flash); subst x)
    | (lift_lets; intro (x : State → State × Nat × Nat); subst x)
    | (lift_lets; intro (x : State → State); subst x)
    | (lift_lets; intro (x : State → State × Result); subst x)
    | (lift_lets; intro x; clear_value x)
    | dsimp only [Keeps]
    | split

theorem doAtomic_keeps {s0 s : State} {a0 a1} (h : Keeps s0 s) : Keeps s0 (doAtomic a0 a1 s) := by
  unfold doAtomic
  repeat' first
    | with_reducible assumption
    | with_reducible apply respond_keeps
    | with_reducible apply countLink_keeps
    | with_reducible apply writeNow_keeps
    | with_reducible apply touch_keeps
    | with_reducible apply Keeps.ite
    | (lift_lets; intro x; refine Keeps.cut (s := s0) (x := x) ?_ ?_; rotate_left; intro hx; clear_value x; rotate_left; subst x)
    | (lift_lets; intro (x : Memory); subst x)
    | (lift_lets; intro (x : Flash); subst x)
    | (lift_lets; intro (x : State → State × Nat × Nat); subst x)
    | (lift_lets; intro (x : State → State); subst x)
    | (lift_lets; intro (x : State → State × Result); subst x)
    | (lift_lets; intro x; clear_value x)
    | dsimp only [Keeps]
    | split

theorem sendBulk_keeps {s0 s : State} {a0 a1 a2 a3 a4 a5} (h : Keeps s0 s) : Keeps s0 (sendBulk a0 a1 a2 a3 a4 a5 s) := by
  induction a4 generalizing s a0 a1 a2 a3 a5 with
  | zero =>
    rw [sendBulk]
    repeat' first
      | with_reducible assumption
      | with_reducible apply ih
      | with_reducible apply sendPacket_keeps
      | with_reducible apply Keeps.ite
      | (lift_lets; intro x; refine Keeps.cut (s := s0) (x := x) ?_ ?_; rotate_left; intro hx; clear_value x; rotate_left; subst x)
      | (lift_lets; intro (x : Memory); subst x)
      | (lift_lets; intro (x : Flash); subst x)
      | (lift_lets; intro (x : State → State × Nat × Nat); subst x)
      | (lift_lets; intro (x : State → State); subst x)
      | (lift_lets; intro (x : State → State × Result); subst x)
      | (lift_lets; intro x; clear_value x)
      | dsimp only [Keeps]
      | split
  | succ n ih =>
    rw [sendBulk]
    repeat' first
      | with_reducible assumption
      | with_reducible apply ih
      | with_reducible apply sendPacket_keeps
      | with_reducible apply Keeps.ite
      | (lift_lets; intro x; refine Keeps.cut (s := s0) (x := x) ?_ ?_; rotate_left; intro hx; clear_value x; rotate_left; subst x)
      | (lift_lets; intro (x : Memory); subst x)
      | (lift_lets; intro (x : Flash); subst x)
      | (lift_lets; intro (x : State → State × Nat × Nat); subst x)
      | (lift_lets; intro (x : State → State); subst x)
      | (lift_lets; intro (x : State → State × Result); subst x)
      | (lift_lets; intro x; clear_value x)
      | dsimp only [Keeps]
      | split

theorem sendTransfer_keeps {s0 s : State} {a0} (h : Keeps s0 s) : Keeps s0 (sendTransfer a0 s) := by
  unfold sendTransfer
  repeat' first
    | with_reducible assumption
    | with_reducible apply sendBulk_keeps
    | with_reducible apply sendHedge_keeps
    | with_reducible apply endOfData_keeps
    | with_reducible apply Keeps.ite
    | (lift_lets; intro x; refine Keeps.cut (s := s0) (x := x) ?_ ?_; rotate_left; intro hx; clear_value x; rotate_left; subst x)
    | (lift_lets; intro (x : Memory); subst x)
    | (lift_lets; intro (x : Flash); subst x)
    | (lift_lets; intro (x : State → State × Nat × Nat); subst x)
    | (lift_lets; intro (x : State → State); subst x)
    | (lift_lets; intro (x : State → State × Result); subst x)
    | (lift_lets; intro x; clear_value x)
    | dsimp only [Keeps]
    | split

theorem resendTransfer_keeps {s0 s : State} {a0 a1 a2 a3} (h : Keeps s0 s) : Keeps s0 (resendTransfer a0 a1 a2 a3 s) := by
  unfold resendTransfer
  repeat' first
    | with_reducible assumption
    | with_reducible apply sendBulk_keeps
    | with_reducible apply sendHedge_keeps
    | with_reducible apply endOfData_keeps
    | with_reducible apply Keeps.ite
    | (lift_lets; intro x; refine Keeps.cut (s := s0) (x := x) ?_ ?_; rotate_left; intro hx; clear_value x; rotate_left; subst x)
    | (lift_lets; intro (x : Memory); subst x)
    | (lift_lets; intro (x : Flash); subst x)
    | (lift_lets; intro (x : State → State × Nat × Nat); subst x)
    | (lift_lets; intro (x : State → State); subst x)
    | (lift_lets; intro (x : State → State × Result); subst x)
    | (lift_lets; intro x; clear_value x)
    | dsimp only [Keeps]
    | split

theorem doBulk_keeps {s0 s : State} {a0} (h : Keeps s0 s) : Keeps s0 (doBulk a0 s) := by
  unfold doBulk
  repeat' first
    | with_reducible assumption
    | with_reducible apply respond_keeps
    | with_reducible apply countLink_keeps
    | with_reducible apply touch_keeps
    | with_reducible apply performWrite_keeps
    | (with_reducible refine performWrite_keeps_eq ?_ (by with_reducible assumption))
    | with_reducible apply sendTransfer_keeps
    | with_reducible apply Keeps.ite
    | (lift_lets; intro x; refine Keeps.cut (s := s0) (x := x) ?_ ?_; rotate_left; intro hx; clear_value x; rotate_left; subst x)
    | (lift_lets; intro (x : Memory); subst x)
    | (lift_lets; intro (x : Flash); subst x)
    | (lift_lets; intro (x : State → State × Nat × Nat); subst x)
    | (lift_lets; intro (x : State → State); subst x)
    | (lift_lets; intro (x : State → State × Result); subst x)
    | (lift_lets; intro x; clear_value x)
    | dsimp only [Keeps]
    | split

theorem releaseReads_keeps {s0 s : State} (h : Keeps s0 s) : Keeps s0 (releaseReads s) := by
  unfold releaseReads
  repeat' first
    | with_reducible assumption
    | with_reducible apply doBulk_keeps
    | with_reducible apply answerRead_keeps
    | (with_reducible refine Keeps.foldl ?_ (fun t x h => ?_))
    | (with_reducible refine Keeps.foldlFst ?_ (fun t x h => ?_))
    | (with_reducible refine Keeps.foldlSnd ?_ (fun t x h => ?_))
    | with_reducible apply Keeps.ite
    | (lift_lets; intro x; refine Keeps.cut (s := s0) (x := x) ?_ ?_; rotate_left; intro hx; clear_value x; rotate_left; subst x)
    | (lift_lets; intro (x : Memory); subst x)
    | (lift_lets; intro (x : Flash); subst x)
    | (lift_lets; intro (x : State → State × Nat × Nat); subst x)
    | (lift_lets; intro (x : State → State); subst x)
    | (lift_lets; intro (x : State → State × Result); subst x)
    | (lift_lets; intro x; clear_value x)
    | dsimp only [Keeps]
    | split

theorem refuseReads_keeps {s0 s : State} (h : Keeps s0 s) : Keeps s0 (refuseReads s) := by
  unfold refuseReads
  repeat' first
    | with_reducible assumption
    | with_reducible apply respond_keeps
    | (with_reducible refine Keeps.foldl ?_ (fun t x h => ?_))
    | (with_reducible refine Keeps.foldlFst ?_ (fun t x h => ?_))
    | (with_reducible refine Keeps.foldlSnd ?_ (fun t x h => ?_))
    | with_reducible apply Keeps.ite
    | (lift_lets; intro x; refine Keeps.cut (s := s0) (x := x) ?_ ?_; rotate_left; intro hx; clear_value x; rotate_left; subst x)
    | (lift_lets; intro (x : Memory); subst x)
    | (lift_lets; intro (x : Flash); subst x)
    | (lift_lets; intro (x : State → State × Nat × Nat); subst x)
    | (lift_lets; intro (x : State → State); subst x)
    | (lift_lets; intro (x : State → State × Result); subst x)
    | (lift_lets; intro x; clear_value x)
    | dsimp only [Keeps]
    | split

theorem remoteToHost_keeps {s0 s : State} {a0 a1 a2} (h : Keeps s0 s) : Keeps s0 (remoteToHost a0 a1 a2 s) := by
  unfold remoteToHost
  repeat' first
    | with_reducible assumption
    | with_reducible apply hostWrite_keeps
    | (with_reducible refine Keeps.foldl ?_ (fun t x h => ?_))
    | (with_reducible refine Keeps.foldlFst ?_ (fun t x h => ?_))
    | (with_reducible refine Keeps.foldlSnd ?_ (fun t x h => ?_))
    | with_reducible apply Keeps.ite
    | dsimp only [Keeps]
    | split

theorem finishRemote_keeps {s0 s : State} {a0 a1 a2 a3} (h : Keeps s0 s) : Keeps s0 (finishRemote a0 a1 a2 a3 s) := by
  unfold finishRemote
  repeat' first
    | with_reducible assumption
    | with_reducible apply finishJobs_keeps
    | with_reducible apply remoteToHost_keeps
    | with_reducible apply Keeps.ite
    | (lift_lets; intro x; refine Keeps.cut (s := s0) (x := x) ?_ ?_; rotate_left; intro hx; clear_value x; rotate_left; subst x)
    | (lift_lets; intro (x : Memory); subst x)
    | (lift_lets; intro (x : Flash); subst x)
    | (lift_lets; intro (x : State → State × Nat × Nat); subst x)
    | (lift_lets; intro (x : State → State); subst x)
    | (lift_lets; intro (x : State → State × Result); subst x)
    | (lift_lets; intro x; clear_value x)
    | dsimp only [Keeps]
    | split

theorem taskAnswered_keeps {s0 s : State} {a0 a1 a2} (h : Keeps s0 s) : Keeps s0 (taskAnswered a0 a1 a2 s) := by
  unfold taskAnswered
  repeat' first
    | with_reducible assumption
    | with_reducible apply addressError_keeps
    | with_reducible apply setTask_keeps
    | with_reducible apply Keeps.ite
    | dsimp only [Keeps]
    | split

theorem doResponse_keeps {s0 s : State} {a0} (h : Keeps s0 s) : Keeps s0 (doResponse a0 s) := by
  unfold doResponse
  repeat' first
    | with_reducible assumption
    | with_reducible apply countLink_keeps
    | with_reducible apply trace_keeps
    | with_reducible apply count_keeps
    | with_reducible apply launchNext_keeps
    | with_reducible apply finishRemote_keeps
    | with_reducible apply taskAnswered_keeps
    | with_reducible apply Keeps.ite
    | (lift_lets; intro x; refine Keeps.cut (s := s0) (x := x) ?_ ?_; rotate_left; intro hx; clear_value x; rotate_left; subst x)
    | (lift_lets; intro (x : Memory); subst x)
    | (lift_lets; intro (x : Flash); subst x)
    | (lift_lets; intro (x : State → State × Nat × Nat); subst x)
    | (lift_lets; intro (x : State → State); subst x)
    | (lift_lets; intro (x : State → State × Result); subst x)
    | (lift_lets; intro x; clear_value x)
    | dsimp only [Keeps]
    | split

theorem answerUnreachedN_keeps {s0 s : State} {a0} (h : Keeps s0 s) : Keeps s0 (answerUnreachedN a0 s) := by
  induction a0 generalizing s with
  | zero =>
    rw [answerUnreachedN]
    repeat' first
      | with_reducible assumption
      | with_reducible apply ih
      | with_reducible apply doResponse_keeps
      | with_reducible apply Keeps.ite
      | (lift_lets; intro x; refine Keeps.cut (s := s0) (x := x) ?_ ?_; rotate_left; intro hx; clear_value x; rotate_left; subst x)
      | (lift_lets; intro (x : Memory); subst x)
      | (lift_lets; intro (x : Flash); subst x)
      | (lift_lets; intro (x : State → State × Nat × Nat); subst x)
      | (lift_lets; intro (x : State → State); subst x)
      | (lift_lets; intro (x : State → State × Result); subst x)
      | (lift_lets; intro x; clear_value x)
      | dsimp only [Keeps]
      | split
  | succ n ih =>
    rw [answerUnreachedN]
    repeat' first
      | with_reducible assumption
      | with_reducible apply ih
      | with_reducible apply doResponse_keeps
      | with_reducible apply Keeps.ite
      | (lift_lets; intro x; refine Keeps.cut (s := s0) (x := x) ?_ ?_; rotate_left; intro hx; clear_value x; rotate_left; subst x)
      | (lift_lets; intro (x : Memory); subst x)
      | (lift_lets; intro (x : Flash); subst x)
      | (lift_lets; intro (x : State → State × Nat × Nat); subst x)
      | (lift_lets; intro (x : State → State); subst x)
      | (lift_lets; intro (x : State → State × Result); subst x)
      | (lift_lets; intro x; clear_value x)
      | dsimp only [Keeps]
      | split

theorem answerUnreached_keeps {s0 s : State} (h : Keeps s0 s) : Keeps s0 (answerUnreached s) := by
  unfold answerUnreached
  repeat' first
    | with_reducible assumption
    | with_reducible apply answerUnreachedN_keeps
    | with_reducible apply Keeps.ite
    | dsimp only [Keeps]
    | split

theorem noteBulk_keeps {s0 s : State} {a0} (h : Keeps s0 s) : Keeps s0 (noteBulk a0 s) := by
  unfold noteBulk
  repeat' first
    | with_reducible assumption
    | with_reducible apply Keeps.ite
    | (lift_lets; intro x; refine Keeps.cut (s := s0) (x := x) ?_ ?_; rotate_left; intro hx; clear_value x; rotate_left; subst x)
    | (lift_lets; intro (x : Memory); subst x)
    | (lift_lets; intro (x : Flash); subst x)
    | (lift_lets; intro (x : State → State × Nat × Nat); subst x)
    | (lift_lets; intro (x : State → State); subst x)
    | (lift_lets; intro (x : State → State × Result); subst x)
    | (lift_lets; intro x; clear_value x)
    | dsimp only [Keeps]
    | split

theorem perform_keeps {s0 s : State} {a0 a1} (h : Keeps s0 s) : Keeps s0 (perform a0 a1 s) := by
  unfold perform
  repeat' first
    | with_reducible assumption
    | with_reducible apply doRead_keeps
    | with_reducible apply doWrite_keeps
    | with_reducible apply doBulk_keeps
    | with_reducible apply doAtomic_keeps
    | with_reducible apply doResponse_keeps
    | with_reducible apply noteBulk_keeps
    | with_reducible apply performWrite_keeps
    | (with_reducible refine performWrite_keeps_eq ?_ (by with_reducible assumption))
    | with_reducible apply Keeps.ite
    | dsimp only [Keeps]
    | split

theorem duplicate_keeps {s0 s : State} {a0 a1} (h : Keeps s0 s) : Keeps s0 (duplicate a0 a1 s) := by
  unfold duplicate
  repeat' first
    | with_reducible assumption
    | with_reducible apply countLink_keeps
    | with_reducible apply doRead_keeps
    | with_reducible apply respond_keeps
    | with_reducible apply Keeps.ite
    | (lift_lets; intro x; refine Keeps.cut (s := s0) (x := x) ?_ ?_; rotate_left; intro hx; clear_value x; rotate_left; subst x)
    | (lift_lets; intro (x : Memory); subst x)
    | (lift_lets; intro (x : Flash); subst x)
    | (lift_lets; intro (x : State → State × Nat × Nat); subst x)
    | (lift_lets; intro (x : State → State); subst x)
    | (lift_lets; intro (x : State → State × Result); subst x)
    | (lift_lets; intro x; clear_value x)
    | dsimp only [Keeps]
    | split

theorem drainReorder_keeps {s0 s : State} {a0 a1 a2} (h : Keeps s0 s) : Keeps s0 (drainReorder a0 a1 a2 s) := by
  induction a0 generalizing s a1 a2 with
  | zero =>
    rw [drainReorder]
    repeat' first
      | with_reducible assumption
      | with_reducible apply ih
      | with_reducible apply perform_keeps
      | with_reducible apply Keeps.ite
      | (lift_lets; intro x; refine Keeps.cut (s := s0) (x := x) ?_ ?_; rotate_left; intro hx; clear_value x; rotate_left; subst x)
      | (lift_lets; intro (x : Memory); subst x)
      | (lift_lets; intro (x : Flash); subst x)
      | (lift_lets; intro (x : State → State × Nat × Nat); subst x)
      | (lift_lets; intro (x : State → State); subst x)
      | (lift_lets; intro (x : State → State × Result); subst x)
      | (lift_lets; intro x; clear_value x)
      | dsimp only [Keeps]
      | split
  | succ n ih =>
    rw [drainReorder]
    repeat' first
      | with_reducible assumption
      | with_reducible apply ih
      | with_reducible apply perform_keeps
      | with_reducible apply Keeps.ite
      | (lift_lets; intro x; refine Keeps.cut (s := s0) (x := x) ?_ ?_; rotate_left; intro hx; clear_value x; rotate_left; subst x)
      | (lift_lets; intro (x : Memory); subst x)
      | (lift_lets; intro (x : Flash); subst x)
      | (lift_lets; intro (x : State → State × Nat × Nat); subst x)
      | (lift_lets; intro (x : State → State); subst x)
      | (lift_lets; intro (x : State → State × Result); subst x)
      | (lift_lets; intro x; clear_value x)
      | dsimp only [Keeps]
      | split

theorem arriveInOrder_keeps {s0 s : State} {a0 a1} (h : Keeps s0 s) : Keeps s0 (arriveInOrder a0 a1 s) := by
  unfold arriveInOrder
  repeat' first
    | with_reducible assumption
    | with_reducible apply perform_keeps
    | with_reducible apply drainReorder_keeps
    | with_reducible apply duplicate_keeps
    | with_reducible apply Keeps.ite
    | (lift_lets; intro x; refine Keeps.cut (s := s0) (x := x) ?_ ?_; rotate_left; intro hx; clear_value x; rotate_left; subst x)
    | (lift_lets; intro (x : Memory); subst x)
    | (lift_lets; intro (x : Flash); subst x)
    | (lift_lets; intro (x : State → State × Nat × Nat); subst x)
    | (lift_lets; intro (x : State → State); subst x)
    | (lift_lets; intro (x : State → State × Result); subst x)
    | (lift_lets; intro x; clear_value x)
    | dsimp only [Keeps]
    | split

theorem packetRow_keeps {s0 s : State} {a0 a1} (h : Keeps s0 s) : Keeps s0 (packetRow a0 a1 s) := by
  unfold packetRow
  repeat' first
    | with_reducible assumption
    | with_reducible apply sendPacket_keeps
    | with_reducible apply respond_keeps
    | with_reducible apply arriveInOrder_keeps
    | with_reducible apply Keeps.ite
    | dsimp only [Keeps]
    | split

theorem execReadReq_keeps {s0 s : State} {a0} (h : Keeps s0 s) {t} (e : execReadReq a0 s = .next t) : Keeps s0 t := by
  unfold execReadReq at e
  first
    | (replace e := Host.Outcome.next.inj e; subst e)
    | cases e
  repeat' first
    | with_reducible assumption
    | with_reducible apply packetRow_keeps
    | with_reducible apply Keeps.ite
    | dsimp only [Keeps]
    | split

theorem execWrite_keeps {s0 s : State} {a0} (h : Keeps s0 s) {t} (e : execWrite a0 s = .next t) : Keeps s0 t := by
  unfold execWrite at e
  first
    | (replace e := Host.Outcome.next.inj e; subst e)
    | cases e
  repeat' first
    | with_reducible assumption
    | with_reducible apply packetRow_keeps
    | with_reducible apply Keeps.ite
    | dsimp only [Keeps]
    | split

theorem execAtomicAdd64_keeps {s0 s : State} {a0} (h : Keeps s0 s) {t} (e : execAtomicAdd64 a0 s = .next t) : Keeps s0 t := by
  unfold execAtomicAdd64 at e
  first
    | (replace e := Host.Outcome.next.inj e; subst e)
    | cases e
  repeat' first
    | with_reducible assumption
    | with_reducible apply packetRow_keeps
    | with_reducible apply Keeps.ite
    | dsimp only [Keeps]
    | split

theorem execAtomicAdd32_keeps {s0 s : State} {a0} (h : Keeps s0 s) {t} (e : execAtomicAdd32 a0 s = .next t) : Keeps s0 t := by
  unfold execAtomicAdd32 at e
  first
    | (replace e := Host.Outcome.next.inj e; subst e)
    | cases e
  repeat' first
    | with_reducible assumption
    | with_reducible apply packetRow_keeps
    | with_reducible apply Keeps.ite
    | dsimp only [Keeps]
    | split

theorem execAtomicSwap64_keeps {s0 s : State} {a0} (h : Keeps s0 s) {t} (e : execAtomicSwap64 a0 s = .next t) : Keeps s0 t := by
  unfold execAtomicSwap64 at e
  first
    | (replace e := Host.Outcome.next.inj e; subst e)
    | cases e
  repeat' first
    | with_reducible assumption
    | with_reducible apply packetRow_keeps
    | with_reducible apply Keeps.ite
    | dsimp only [Keeps]
    | split

theorem execAtomicCas64_keeps {s0 s : State} {a0} (h : Keeps s0 s) {t} (e : execAtomicCas64 a0 s = .next t) : Keeps s0 t := by
  unfold execAtomicCas64 at e
  first
    | (replace e := Host.Outcome.next.inj e; subst e)
    | cases e
  repeat' first
    | with_reducible assumption
    | with_reducible apply packetRow_keeps
    | with_reducible apply Keeps.ite
    | dsimp only [Keeps]
    | split

theorem execAtomicOr64_keeps {s0 s : State} {a0} (h : Keeps s0 s) {t} (e : execAtomicOr64 a0 s = .next t) : Keeps s0 t := by
  unfold execAtomicOr64 at e
  first
    | (replace e := Host.Outcome.next.inj e; subst e)
    | cases e
  repeat' first
    | with_reducible assumption
    | with_reducible apply packetRow_keeps
    | with_reducible apply Keeps.ite
    | dsimp only [Keeps]
    | split

theorem execAtomicAnd64_keeps {s0 s : State} {a0} (h : Keeps s0 s) {t} (e : execAtomicAnd64 a0 s = .next t) : Keeps s0 t := by
  unfold execAtomicAnd64 at e
  first
    | (replace e := Host.Outcome.next.inj e; subst e)
    | cases e
  repeat' first
    | with_reducible assumption
    | with_reducible apply packetRow_keeps
    | with_reducible apply Keeps.ite
    | dsimp only [Keeps]
    | split

theorem execBulkReq_keeps {s0 s : State} {a0} (h : Keeps s0 s) {t} (e : execBulkReq a0 s = .next t) : Keeps s0 t := by
  unfold execBulkReq at e
  first
    | (replace e := Host.Outcome.next.inj e; subst e)
    | cases e
  repeat' first
    | with_reducible assumption
    | with_reducible apply packetRow_keeps
    | with_reducible apply Keeps.ite
    | dsimp only [Keeps]
    | split

theorem execReadResp_keeps {s0 s : State} {a0} (h : Keeps s0 s) {t} (e : execReadResp a0 s = .next t) : Keeps s0 t := by
  unfold execReadResp at e
  first
    | (replace e := Host.Outcome.next.inj e; subst e)
    | cases e
  repeat' first
    | with_reducible assumption
    | with_reducible apply packetRow_keeps
    | with_reducible apply Keeps.ite
    | dsimp only [Keeps]
    | split

theorem execWriteAck_keeps {s0 s : State} {a0} (h : Keeps s0 s) {t} (e : execWriteAck a0 s = .next t) : Keeps s0 t := by
  unfold execWriteAck at e
  first
    | (replace e := Host.Outcome.next.inj e; subst e)
    | cases e
  repeat' first
    | with_reducible assumption
    | with_reducible apply packetRow_keeps
    | with_reducible apply Keeps.ite
    | dsimp only [Keeps]
    | split

theorem execAtomicResp_keeps {s0 s : State} {a0} (h : Keeps s0 s) {t} (e : execAtomicResp a0 s = .next t) : Keeps s0 t := by
  unfold execAtomicResp at e
  first
    | (replace e := Host.Outcome.next.inj e; subst e)
    | cases e
  repeat' first
    | with_reducible assumption
    | with_reducible apply packetRow_keeps
    | with_reducible apply Keeps.ite
    | dsimp only [Keeps]
    | split

theorem execBulkDone_keeps {s0 s : State} {a0} (h : Keeps s0 s) {t} (e : execBulkDone a0 s = .next t) : Keeps s0 t := by
  unfold execBulkDone at e
  first
    | (replace e := Host.Outcome.next.inj e; subst e)
    | cases e
  repeat' first
    | with_reducible assumption
    | with_reducible apply packetRow_keeps
    | with_reducible apply Keeps.ite
    | dsimp only [Keeps]
    | split

theorem execBulkData_keeps {s0 s : State} {a0} (h : Keeps s0 s) {t} (e : execBulkData a0 s = .next t) : Keeps s0 t := by
  unfold execBulkData at e
  first
    | (replace e := Host.Outcome.next.inj e; subst e)
    | cases e
  repeat' first
    | with_reducible assumption
    | with_reducible apply packetRow_keeps
    | with_reducible apply Keeps.ite
    | dsimp only [Keeps]
    | split

theorem replayTile_keeps {s0 s : State} {a0 a1 a2 a3 a4} (h : Keeps s0 s) : Keeps s0 (replayTile a0 a1 a2 a3 a4 s) := by
  unfold replayTile
  repeat' first
    | with_reducible assumption
    | with_reducible apply countWork_keeps
    | with_reducible apply trace_keeps
    | with_reducible apply setTask_keeps
    | with_reducible apply raiseAt_keeps
    | (with_reducible refine Keeps.foldl ?_ (fun t x h => ?_))
    | (with_reducible refine Keeps.foldlFst ?_ (fun t x h => ?_))
    | (with_reducible refine Keeps.foldlSnd ?_ (fun t x h => ?_))
    | with_reducible apply Keeps.ite
    | (lift_lets; intro x; refine Keeps.cut (s := s0) (x := x) ?_ ?_; rotate_left; intro hx; clear_value x; rotate_left; subst x)
    | (lift_lets; intro (x : Memory); subst x)
    | (lift_lets; intro (x : Flash); subst x)
    | (lift_lets; intro (x : State → State × Nat × Nat); subst x)
    | (lift_lets; intro (x : State → State); subst x)
    | (lift_lets; intro (x : State → State × Result); subst x)
    | (lift_lets; intro x; clear_value x)
    | dsimp only [Keeps]
    | split

theorem taskTimedOut_keeps {s0 s : State} {a0 a1} (h : Keeps s0 s) : Keeps s0 (taskTimedOut a0 a1 s) := by
  unfold taskTimedOut
  repeat' first
    | with_reducible assumption
    | with_reducible apply setTask_keeps
    | with_reducible apply replayTile_keeps
    | with_reducible apply finding_keeps
    | with_reducible apply Keeps.ite
    | (lift_lets; intro x; refine Keeps.cut (s := s0) (x := x) ?_ ?_; rotate_left; intro hx; clear_value x; rotate_left; subst x)
    | (lift_lets; intro (x : Memory); subst x)
    | (lift_lets; intro (x : Flash); subst x)
    | (lift_lets; intro (x : State → State × Nat × Nat); subst x)
    | (lift_lets; intro (x : State → State); subst x)
    | (lift_lets; intro (x : State → State × Result); subst x)
    | (lift_lets; intro x; clear_value x)
    | dsimp only [Keeps]
    | split

theorem expireTxn_keeps {s0 s : State} {a0} (h : Keeps s0 s) : Keeps s0 (expireTxn a0 s) := by
  unfold expireTxn
  repeat' first
    | with_reducible assumption
    | with_reducible apply trace_keeps
    | with_reducible apply count_keeps
    | with_reducible apply launchNext_keeps
    | with_reducible apply finishJobs_keeps
    | with_reducible apply taskTimedOut_keeps
    | with_reducible apply issue_keeps
    | (with_reducible refine issue_keeps_eq ?_ (by with_reducible assumption))
    | with_reducible apply Keeps.ite
    | (lift_lets; intro x; refine Keeps.cut (s := s0) (x := x) ?_ ?_; rotate_left; intro hx; clear_value x; rotate_left; subst x)
    | (lift_lets; intro (x : Memory); subst x)
    | (lift_lets; intro (x : Flash); subst x)
    | (lift_lets; intro (x : State → State × Nat × Nat); subst x)
    | (lift_lets; intro (x : State → State); subst x)
    | (lift_lets; intro (x : State → State × Result); subst x)
    | (lift_lets; intro x; clear_value x)
    | dsimp only [Keeps]
    | split

theorem bulkEnd_keeps {s0 s : State} {a0 a1 a2} (h : Keeps s0 s) : Keeps s0 (bulkEnd a0 a1 a2 s) := by
  unfold bulkEnd
  repeat' first
    | with_reducible assumption
    | with_reducible apply expireTxn_keeps
    | with_reducible apply sendHedge_keeps
    | (with_reducible refine Keeps.foldl ?_ (fun t x h => ?_))
    | (with_reducible refine Keeps.foldlFst ?_ (fun t x h => ?_))
    | (with_reducible refine Keeps.foldlSnd ?_ (fun t x h => ?_))
    | with_reducible apply Keeps.ite
    | (lift_lets; intro x; refine Keeps.cut (s := s0) (x := x) ?_ ?_; rotate_left; intro hx; clear_value x; rotate_left; subst x)
    | (lift_lets; intro (x : Memory); subst x)
    | (lift_lets; intro (x : Flash); subst x)
    | (lift_lets; intro (x : State → State × Nat × Nat); subst x)
    | (lift_lets; intro (x : State → State); subst x)
    | (lift_lets; intro (x : State → State × Result); subst x)
    | (lift_lets; intro x; clear_value x)
    | dsimp only [Keeps]
    | split

theorem txnTimeout_keeps {s0 s : State} {a0 a1} (h : Keeps s0 s) : Keeps s0 (txnTimeout a0 a1 s) := by
  unfold txnTimeout
  repeat' first
    | with_reducible assumption
    | with_reducible apply trace_keeps
    | with_reducible apply sendPacket_keeps
    | with_reducible apply expireTxn_keeps
    | with_reducible apply Keeps.ite
    | (lift_lets; intro x; refine Keeps.cut (s := s0) (x := x) ?_ ?_; rotate_left; intro hx; clear_value x; rotate_left; subst x)
    | (lift_lets; intro (x : Memory); subst x)
    | (lift_lets; intro (x : Flash); subst x)
    | (lift_lets; intro (x : State → State × Nat × Nat); subst x)
    | (lift_lets; intro (x : State → State); subst x)
    | (lift_lets; intro (x : State → State × Result); subst x)
    | (lift_lets; intro x; clear_value x)
    | dsimp only [Keeps]
    | split

theorem execTxnTimeout_keeps {s0 s : State} {a0 a1} (h : Keeps s0 s) {t} (e : execTxnTimeout a0 a1 s = .next t) : Keeps s0 t := by
  unfold execTxnTimeout at e
  first
    | (replace e := Host.Outcome.next.inj e; subst e)
    | cases e
  repeat' first
    | with_reducible assumption
    | with_reducible apply txnTimeout_keeps
    | with_reducible apply Keeps.ite
    | dsimp only [Keeps]
    | split

theorem execReorderHoldExpiry_keeps {s0 s : State} {a0 a1} (h : Keeps s0 s) {t} (e : execReorderHoldExpiry a0 a1 s = .next t) : Keeps s0 t := by
  unfold execReorderHoldExpiry at e
  first
    | (replace e := Host.Outcome.next.inj e; subst e)
    | cases e
  repeat' first
    | with_reducible assumption
    | with_reducible apply sendFlit_keeps
    | (with_reducible refine Keeps.foldl ?_ (fun t x h => ?_))
    | (with_reducible refine Keeps.foldlFst ?_ (fun t x h => ?_))
    | (with_reducible refine Keeps.foldlSnd ?_ (fun t x h => ?_))
    | with_reducible apply Keeps.ite
    | (lift_lets; intro x; refine Keeps.cut (s := s0) (x := x) ?_ ?_; rotate_left; intro hx; clear_value x; rotate_left; subst x)
    | (lift_lets; intro (x : Memory); subst x)
    | (lift_lets; intro (x : Flash); subst x)
    | (lift_lets; intro (x : State → State × Nat × Nat); subst x)
    | (lift_lets; intro (x : State → State); subst x)
    | (lift_lets; intro (x : State → State × Result); subst x)
    | (lift_lets; intro x; clear_value x)
    | dsimp only [Keeps]
    | split

theorem setClass_keeps {s0 s : State} {a0 a1 a2} (h : Keeps s0 s) : Keeps s0 (setClass a0 a1 a2 s) := by
  unfold setClass
  repeat' first
    | with_reducible assumption
    | with_reducible apply setPort_keeps
    | with_reducible apply Keeps.ite
    | dsimp only [Keeps]
    | split

theorem linkAnswer_keeps {s0 s : State} {a0 a1 a2 a3} (h : Keeps s0 s) : Keeps s0 (linkAnswer a0 a1 a2 a3 s) := by
  unfold linkAnswer
  repeat' first
    | with_reducible assumption
    | with_reducible apply Keeps.ite
    | dsimp only [Keeps]
    | split

theorem resendBuffer_keeps {s0 s : State} {a0 a1} (h : Keeps s0 s) : Keeps s0 (resendBuffer a0 a1 s) := by
  unfold resendBuffer
  repeat' first
    | with_reducible assumption
    | with_reducible apply Keeps.ite
    | dsimp only [Keeps]
    | split

theorem hedgeTransit_keeps {s0 s : State} {a0 a1} (h : Keeps s0 s) : Keeps s0 (hedgeTransit a0 a1 s) := by
  unfold hedgeTransit
  repeat' first
    | with_reducible assumption
    | with_reducible apply countLink_keeps
    | with_reducible apply Keeps.ite
    | (lift_lets; intro x; refine Keeps.cut (s := s0) (x := x) ?_ ?_; rotate_left; intro hx; clear_value x; rotate_left; subst x)
    | (lift_lets; intro (x : Memory); subst x)
    | (lift_lets; intro (x : Flash); subst x)
    | (lift_lets; intro (x : State → State × Nat × Nat); subst x)
    | (lift_lets; intro (x : State → State); subst x)
    | (lift_lets; intro (x : State → State × Result); subst x)
    | (lift_lets; intro x; clear_value x)
    | dsimp only [Keeps]
    | split

theorem packetTransit_keeps {s0 s : State} {a0 a1} (h : Keeps s0 s) : Keeps s0 (packetTransit a0 a1 s) := by
  unfold packetTransit
  repeat' first
    | with_reducible assumption
    | with_reducible apply countLink_keeps
    | with_reducible apply count_keeps
    | with_reducible apply sendPacket_keeps
    | with_reducible apply Keeps.ite
    | (lift_lets; intro x; refine Keeps.cut (s := s0) (x := x) ?_ ?_; rotate_left; intro hx; clear_value x; rotate_left; subst x)
    | (lift_lets; intro (x : Memory); subst x)
    | (lift_lets; intro (x : Flash); subst x)
    | (lift_lets; intro (x : State → State × Nat × Nat); subst x)
    | (lift_lets; intro (x : State → State); subst x)
    | (lift_lets; intro (x : State → State × Result); subst x)
    | (lift_lets; intro x; clear_value x)
    | dsimp only [Keeps]
    | split

theorem flitReceive_keeps {s0 s : State} {a0 a1 a2} (h : Keeps s0 s) : Keeps s0 (flitReceive a0 a1 a2 s) := by
  unfold flitReceive
  repeat' first
    | with_reducible assumption
    | with_reducible apply linkAnswer_keeps
    | with_reducible apply countLink_keeps
    | with_reducible apply setClass_keeps
    | with_reducible apply sendBlocked_keeps
    | with_reducible apply resendBuffer_keeps
    | with_reducible apply setPort_keeps
    | with_reducible apply hedgeTransit_keeps
    | with_reducible apply packetTransit_keeps
    | (with_reducible refine Keeps.foldl ?_ (fun t x h => ?_))
    | (with_reducible refine Keeps.foldlFst ?_ (fun t x h => ?_))
    | (with_reducible refine Keeps.foldlSnd ?_ (fun t x h => ?_))
    | with_reducible apply Keeps.ite
    | (lift_lets; intro x; refine Keeps.cut (s := s0) (x := x) ?_ ?_; rotate_left; intro hx; clear_value x; rotate_left; subst x)
    | (lift_lets; intro (x : Memory); subst x)
    | (lift_lets; intro (x : Flash); subst x)
    | (lift_lets; intro (x : State → State × Nat × Nat); subst x)
    | (lift_lets; intro (x : State → State); subst x)
    | (lift_lets; intro (x : State → State × Result); subst x)
    | (lift_lets; intro x; clear_value x)
    | dsimp only [Keeps]
    | split

theorem linkRetry_keeps {s0 s : State} {a0 a1} (h : Keeps s0 s) : Keeps s0 (linkRetry a0 a1 s) := by
  unfold linkRetry
  repeat' first
    | with_reducible assumption
    | with_reducible apply resendBuffer_keeps
    | with_reducible apply countLink_keeps
    | with_reducible apply setClass_keeps
    | with_reducible apply setPort_keeps
    | with_reducible apply Keeps.ite
    | (lift_lets; intro x; refine Keeps.cut (s := s0) (x := x) ?_ ?_; rotate_left; intro hx; clear_value x; rotate_left; subst x)
    | (lift_lets; intro (x : Memory); subst x)
    | (lift_lets; intro (x : Flash); subst x)
    | (lift_lets; intro (x : State → State × Nat × Nat); subst x)
    | (lift_lets; intro (x : State → State); subst x)
    | (lift_lets; intro (x : State → State × Result); subst x)
    | (lift_lets; intro x; clear_value x)
    | dsimp only [Keeps]
    | split

theorem detourBuffer_keeps {s0 s : State} {a0} (h : Keeps s0 s) : Keeps s0 (detourBuffer a0 s) := by
  unfold detourBuffer
  repeat' first
    | with_reducible assumption
    | with_reducible apply setPort_keeps
    | with_reducible apply sendPacket_keeps
    | (with_reducible refine Keeps.foldl ?_ (fun t x h => ?_))
    | (with_reducible refine Keeps.foldlFst ?_ (fun t x h => ?_))
    | (with_reducible refine Keeps.foldlSnd ?_ (fun t x h => ?_))
    | with_reducible apply Keeps.ite
    | (lift_lets; intro x; refine Keeps.cut (s := s0) (x := x) ?_ ?_; rotate_left; intro hx; clear_value x; rotate_left; subst x)
    | (lift_lets; intro (x : Memory); subst x)
    | (lift_lets; intro (x : Flash); subst x)
    | (lift_lets; intro (x : State → State × Nat × Nat); subst x)
    | (lift_lets; intro (x : State → State); subst x)
    | (lift_lets; intro (x : State → State × Result); subst x)
    | (lift_lets; intro x; clear_value x)
    | dsimp only [Keeps]
    | split

theorem linkRetrain_keeps {s0 s : State} {a0 a1 a2} (h : Keeps s0 s) : Keeps s0 (linkRetrain a0 a1 a2 s) := by
  unfold linkRetrain
  repeat' first
    | with_reducible assumption
    | with_reducible apply trainPort_keeps
    | with_reducible apply detourBuffer_keeps
    | with_reducible apply resendBuffer_keeps
    | with_reducible apply sendBlocked_keeps
    | with_reducible apply Keeps.ite
    | (lift_lets; intro x; refine Keeps.cut (s := s0) (x := x) ?_ ?_; rotate_left; intro hx; clear_value x; rotate_left; subst x)
    | (lift_lets; intro (x : Memory); subst x)
    | (lift_lets; intro (x : Flash); subst x)
    | (lift_lets; intro (x : State → State × Nat × Nat); subst x)
    | (lift_lets; intro (x : State → State); subst x)
    | (lift_lets; intro (x : State → State × Result); subst x)
    | (lift_lets; intro x; clear_value x)
    | dsimp only [Keeps]
    | split

theorem linkRetrainAttempt_keeps {s0 s : State} {a0 a1 a2} (h : Keeps s0 s) : Keeps s0 (linkRetrainAttempt a0 a1 a2 s) := by
  unfold linkRetrainAttempt
  repeat' first
    | with_reducible assumption
    | with_reducible apply trainPort_keeps
    | with_reducible apply countLink_keeps
    | with_reducible apply setPort_keeps
    | with_reducible apply Keeps.ite
    | (lift_lets; intro x; refine Keeps.cut (s := s0) (x := x) ?_ ?_; rotate_left; intro hx; clear_value x; rotate_left; subst x)
    | (lift_lets; intro (x : Memory); subst x)
    | (lift_lets; intro (x : Flash); subst x)
    | (lift_lets; intro (x : State → State × Nat × Nat); subst x)
    | (lift_lets; intro (x : State → State); subst x)
    | (lift_lets; intro (x : State → State × Result); subst x)
    | (lift_lets; intro x; clear_value x)
    | dsimp only [Keeps]
    | split

theorem execFlitReceive_keeps {s0 s : State} {a0 a1 a2} (h : Keeps s0 s) {t} (e : execFlitReceive a0 a1 a2 s = .next t) : Keeps s0 t := by
  unfold execFlitReceive at e
  first
    | (replace e := Host.Outcome.next.inj e; subst e)
    | cases e
  repeat' first
    | with_reducible assumption
    | with_reducible apply flitReceive_keeps
    | with_reducible apply Keeps.ite
    | dsimp only [Keeps]
    | split

theorem execLinkRetry_keeps {s0 s : State} {a0 a1} (h : Keeps s0 s) {t} (e : execLinkRetry a0 a1 s = .next t) : Keeps s0 t := by
  unfold execLinkRetry at e
  first
    | (replace e := Host.Outcome.next.inj e; subst e)
    | cases e
  repeat' first
    | with_reducible assumption
    | with_reducible apply linkRetry_keeps
    | with_reducible apply Keeps.ite
    | dsimp only [Keeps]
    | split

theorem execLinkRetrain_keeps {s0 s : State} {a0 a1 a2} (h : Keeps s0 s) {t} (e : execLinkRetrain a0 a1 a2 s = .next t) : Keeps s0 t := by
  unfold execLinkRetrain at e
  first
    | (replace e := Host.Outcome.next.inj e; subst e)
    | cases e
  repeat' first
    | with_reducible assumption
    | with_reducible apply linkRetrain_keeps
    | with_reducible apply Keeps.ite
    | dsimp only [Keeps]
    | split

theorem execLinkRetrainAttempt_keeps {s0 s : State} {a0 a1 a2} (h : Keeps s0 s) {t} (e : execLinkRetrainAttempt a0 a1 a2 s = .next t) : Keeps s0 t := by
  unfold execLinkRetrainAttempt at e
  first
    | (replace e := Host.Outcome.next.inj e; subst e)
    | cases e
  repeat' first
    | with_reducible assumption
    | with_reducible apply linkRetrainAttempt_keeps
    | with_reducible apply Keeps.ite
    | dsimp only [Keeps]
    | split

end Sys2Proof.Laws
end

