-- ==== Sys2Proof/Laws/KeepsPower.lean ====
section
/-!
SUPPORT. `Keeps` for the operations of Machine/Power.lean.
-/
namespace Sys2Proof.Laws

open Sys2Proof Sys2Proof.Machine

theorem withInputLow_keeps {s0 s : State} (h : Keeps s0 s) : Keeps s0 (withInputLow s) := by
  unfold withInputLow
  repeat' first
    | with_reducible assumption
    | with_reducible apply withAlert_keeps
    | with_reducible apply Keeps.ite
    | dsimp only [Keeps]
    | split

theorem startPower_keeps {s0 s : State} (h : Keeps s0 s) : Keeps s0 (startPower s) := by
  unfold startPower
  repeat' first
    | with_reducible assumption
    | with_reducible apply withInputLow_keeps
    | with_reducible apply Keeps.ite
    | (lift_lets; intro x; refine Keeps.cut (s := s0) (x := x) ?_ ?_; rotate_left; intro hx; clear_value x; rotate_left; subst x)
    | (lift_lets; intro (x : Memory); subst x)
    | (lift_lets; intro (x : Flash); subst x)
    | (lift_lets; intro (x : State → State × Nat × Nat); subst x)
    | (lift_lets; intro (x : State → State); subst x)
    | (lift_lets; intro (x : State → State × Result); subst x)
    | (lift_lets; intro x; clear_value x)
    | dsimp only [Keeps]
    | split

theorem shutdown_keeps {s0 s : State} (h : Keeps s0 s) : Keeps s0 (shutdown s) := by
  unfold shutdown
  repeat' first
    | with_reducible assumption
    | with_reducible apply withInputLow_keeps
    | with_reducible apply coldLoss_keeps
    | with_reducible apply Keeps.ite
    | dsimp only [Keeps]
    | split

theorem execPwrEnAssert_keeps {s0 s : State} (h : Keeps s0 s) {t} (e : execPwrEnAssert s = .next t) : Keeps s0 t := by
  unfold execPwrEnAssert at e
  first
    | (replace e := Host.Outcome.next.inj e; subst e)
    | cases e
  repeat' first
    | with_reducible assumption
    | with_reducible apply startPower_keeps
    | with_reducible apply Keeps.ite
    | dsimp only [Keeps]
    | split

theorem execPwrEnDeassert_keeps {s0 s : State} (h : Keeps s0 s) {t} (e : execPwrEnDeassert s = .next t) : Keeps s0 t := by
  unfold execPwrEnDeassert at e
  first
    | (replace e := Host.Outcome.next.inj e; subst e)
    | cases e
  repeat' first
    | with_reducible assumption
    | with_reducible apply shutdown_keeps
    | with_reducible apply Keeps.ite
    | dsimp only [Keeps]
    | split

theorem releaseOnRemoval_keeps {s0 s : State} (h : Keeps s0 s) : Keeps s0 (releaseOnRemoval s) := by
  unfold releaseOnRemoval
  repeat' first
    | with_reducible assumption
    | with_reducible apply Keeps.ite
    | dsimp only [Keeps]
    | split

theorem execInputUndervoltage_keeps {s0 s : State} {a0} (h : Keeps s0 s) {t} (e : execInputUndervoltage a0 s = .next t) : Keeps s0 t := by
  unfold execInputUndervoltage at e
  first
    | (replace e := Host.Outcome.next.inj e; subst e)
    | cases e
  repeat' first
    | with_reducible assumption
    | with_reducible apply releaseOnRemoval_keeps
    | with_reducible apply shutdown_keeps
    | with_reducible apply withInputLow_keeps
    | with_reducible apply Keeps.ite
    | (lift_lets; intro x; refine Keeps.cut (s := s0) (x := x) ?_ ?_; rotate_left; intro hx; clear_value x; rotate_left; subst x)
    | (lift_lets; intro (x : Memory); subst x)
    | (lift_lets; intro (x : Flash); subst x)
    | (lift_lets; intro (x : State → State × Nat × Nat); subst x)
    | (lift_lets; intro (x : State → State); subst x)
    | (lift_lets; intro (x : State → State × Result); subst x)
    | (lift_lets; intro x; clear_value x)
    | dsimp only [Keeps]
    | split

theorem execInputOvervoltage_keeps {s0 s : State} {a0} (h : Keeps s0 s) {t} (e : execInputOvervoltage a0 s = .next t) : Keeps s0 t := by
  unfold execInputOvervoltage at e
  first
    | (replace e := Host.Outcome.next.inj e; subst e)
    | cases e
  repeat' first
    | with_reducible assumption
    | with_reducible apply shutdown_keeps
    | with_reducible apply withInputLow_keeps
    | with_reducible apply Keeps.ite
    | (lift_lets; intro x; refine Keeps.cut (s := s0) (x := x) ?_ ?_; rotate_left; intro hx; clear_value x; rotate_left; subst x)
    | (lift_lets; intro (x : Memory); subst x)
    | (lift_lets; intro (x : Flash); subst x)
    | (lift_lets; intro (x : State → State × Nat × Nat); subst x)
    | (lift_lets; intro (x : State → State); subst x)
    | (lift_lets; intro (x : State → State × Result); subst x)
    | (lift_lets; intro x; clear_value x)
    | dsimp only [Keeps]
    | split

theorem execInputPowerApplied_keeps {s0 s : State} {a0} (h : Keeps s0 s) {t} (e : execInputPowerApplied a0 s = .next t) : Keeps s0 t := by
  unfold execInputPowerApplied at e
  first
    | (replace e := Host.Outcome.next.inj e; subst e)
    | cases e
  repeat' first
    | with_reducible assumption
    | with_reducible apply startPower_keeps
    | with_reducible apply Keeps.ite
    | dsimp only [Keeps]
    | split

theorem execAux3v3Applied_keeps {s0 s : State} (h : Keeps s0 s) {t} (e : execAux3v3Applied s = .next t) : Keeps s0 t := by
  unfold execAux3v3Applied at e
  first
    | (replace e := Host.Outcome.next.inj e; subst e)
    | cases e
  repeat' first
    | with_reducible assumption
    | with_reducible apply startPower_keeps
    | with_reducible apply Keeps.ite
    | dsimp only [Keeps]
    | split

theorem execAux3v3Removed_keeps {s0 s : State} (h : Keeps s0 s) {t} (e : execAux3v3Removed s = .next t) : Keeps s0 t := by
  unfold execAux3v3Removed at e
  first
    | (replace e := Host.Outcome.next.inj e; subst e)
    | cases e
  repeat' first
    | with_reducible assumption
    | with_reducible apply Keeps.ite
    | dsimp only [Keeps]
    | split

theorem execThermTripNRelease_keeps {s0 s : State} (h : Keeps s0 s) {t} (e : execThermTripNRelease s = .next t) : Keeps s0 t := by
  unfold execThermTripNRelease at e
  first
    | (replace e := Host.Outcome.next.inj e; subst e)
    | cases e
  repeat' first
    | with_reducible assumption
    | with_reducible apply Keeps.ite
    | (lift_lets; intro x; refine Keeps.cut (s := s0) (x := x) ?_ ?_; rotate_left; intro hx; clear_value x; rotate_left; subst x)
    | (lift_lets; intro (x : Memory); subst x)
    | (lift_lets; intro (x : Flash); subst x)
    | (lift_lets; intro (x : State → State × Nat × Nat); subst x)
    | (lift_lets; intro (x : State → State); subst x)
    | (lift_lets; intro (x : State → State × Result); subst x)
    | (lift_lets; intro x; clear_value x)
    | dsimp only [Keeps]
    | split

theorem execMasterSel_keeps {s0 s : State} {a0} (h : Keeps s0 s) {t} (e : execMasterSel a0 s = .next t) : Keeps s0 t := by
  unfold execMasterSel at e
  first
    | (replace e := Host.Outcome.next.inj e; subst e)
    | cases e
  repeat' first
    | with_reducible assumption
    | with_reducible apply Keeps.ite
    | dsimp only [Keeps]
    | split

theorem execModResetN_keeps {s0 s : State} {a0} (h : Keeps s0 s) {t} (e : execModResetN a0 s = .next t) : Keeps s0 t := by
  unfold execModResetN at e
  first
    | (replace e := Host.Outcome.next.inj e; subst e)
    | cases e
  repeat' first
    | with_reducible assumption
    | with_reducible apply moduleLevel_keeps
    | with_reducible apply Keeps.ite
    | dsimp only [Keeps]
    | split

theorem execPerstN_keeps {s0 s : State} (h : Keeps s0 s) {t} (e : execPerstN s = .next t) : Keeps s0 t := by
  unfold execPerstN at e
  first
    | (replace e := Host.Outcome.next.inj e; subst e)
    | cases e
  repeat' first
    | with_reducible assumption
    | with_reducible apply functionLevel_keeps
    | with_reducible apply Keeps.ite
    | dsimp only [Keeps]
    | split

theorem execFunctionLevelReset_keeps {s0 s : State} (h : Keeps s0 s) {t} (e : execFunctionLevelReset s = .next t) : Keeps s0 t := by
  unfold execFunctionLevelReset at e
  first
    | (replace e := Host.Outcome.next.inj e; subst e)
    | cases e
  repeat' first
    | with_reducible assumption
    | with_reducible apply functionLevel_keeps
    | with_reducible apply Keeps.ite
    | dsimp only [Keeps]
    | split

theorem execHostLinkDown_keeps {s0 s : State} (h : Keeps s0 s) {t} (e : execHostLinkDown s = .next t) : Keeps s0 t := by
  unfold execHostLinkDown at e
  first
    | (replace e := Host.Outcome.next.inj e; subst e)
    | cases e
  repeat' first
    | with_reducible assumption
    | with_reducible apply functionLevel_keeps
    | with_reducible apply Keeps.ite
    | dsimp only [Keeps]
    | split

theorem execHostLinkUp_keeps {s0 s : State} (h : Keeps s0 s) {t} (e : execHostLinkUp s = .next t) : Keeps s0 t := by
  unfold execHostLinkUp at e
  first
    | (replace e := Host.Outcome.next.inj e; subst e)
    | cases e
  repeat' first
    | with_reducible assumption
    | with_reducible apply Keeps.ite
    | dsimp only [Keeps]
    | split

theorem execHoldingResetDone_keeps {s0 s : State} (h : Keeps s0 s) {t} (e : execHoldingResetDone s = .next t) : Keeps s0 t := by
  unfold execHoldingResetDone at e
  first
    | (replace e := Host.Outcome.next.inj e; subst e)
    | cases e
  repeat' first
    | with_reducible assumption
    | with_reducible apply raise_keeps
    | with_reducible apply Keeps.ite
    | (lift_lets; intro x; refine Keeps.cut (s := s0) (x := x) ?_ ?_; rotate_left; intro hx; clear_value x; rotate_left; subst x)
    | (lift_lets; intro (x : Memory); subst x)
    | (lift_lets; intro (x : Flash); subst x)
    | (lift_lets; intro (x : State → State × Nat × Nat); subst x)
    | (lift_lets; intro (x : State → State); subst x)
    | (lift_lets; intro (x : State → State × Result); subst x)
    | (lift_lets; intro x; clear_value x)
    | dsimp only [Keeps]
    | split

theorem noteDeciders_keeps {s0 s : State} (h : Keeps s0 s) : Keeps s0 (noteDeciders s) := by
  unfold noteDeciders
  repeat' first
    | with_reducible assumption
    | with_reducible apply Keeps.ite
    | dsimp only [Keeps]
    | split

theorem execPowerSample_keeps {s0 s : State} {a0 a1 a2} (h : Keeps s0 s) {t} (e : execPowerSample a0 a1 a2 s = .next t) : Keeps s0 t := by
  unfold execPowerSample at e
  first
    | (replace e := Host.Outcome.next.inj e; subst e)
    | cases e
  repeat' first
    | with_reducible assumption
    | with_reducible apply withInputLow_keeps
    | (with_reducible refine Keeps.foldl ?_ (fun t x h => ?_))
    | (with_reducible refine Keeps.foldlFst ?_ (fun t x h => ?_))
    | (with_reducible refine Keeps.foldlSnd ?_ (fun t x h => ?_))
    | with_reducible apply Keeps.ite
    | (lift_lets; intro x; refine Keeps.cut (s := s0) (x := x) ?_ ?_; rotate_left; intro hx; clear_value x; rotate_left; subst x)
    | (lift_lets; intro (x : Memory); subst x)
    | (lift_lets; intro (x : Flash); subst x)
    | (lift_lets; intro (x : State → State × Nat × Nat); subst x)
    | (lift_lets; intro (x : State → State); subst x)
    | (lift_lets; intro (x : State → State × Result); subst x)
    | (lift_lets; intro x; clear_value x)
    | dsimp only [Keeps]
    | split

theorem execCapStepRaise_keeps {s0 s : State} (h : Keeps s0 s) {t} (e : execCapStepRaise s = .next t) : Keeps s0 t := by
  unfold execCapStepRaise at e
  first
    | (replace e := Host.Outcome.next.inj e; subst e)
    | cases e
  repeat' first
    | with_reducible assumption
    | with_reducible apply noteDeciders_keeps
    | with_reducible apply raise_keeps
    | with_reducible apply Keeps.ite
    | (lift_lets; intro x; refine Keeps.cut (s := s0) (x := x) ?_ ?_; rotate_left; intro hx; clear_value x; rotate_left; subst x)
    | (lift_lets; intro (x : Memory); subst x)
    | (lift_lets; intro (x : Flash); subst x)
    | (lift_lets; intro (x : State → State × Nat × Nat); subst x)
    | (lift_lets; intro (x : State → State); subst x)
    | (lift_lets; intro (x : State → State × Result); subst x)
    | (lift_lets; intro x; clear_value x)
    | dsimp only [Keeps]
    | split

theorem execCapStepLower_keeps {s0 s : State} (h : Keeps s0 s) {t} (e : execCapStepLower s = .next t) : Keeps s0 t := by
  unfold execCapStepLower at e
  first
    | (replace e := Host.Outcome.next.inj e; subst e)
    | cases e
  repeat' first
    | with_reducible assumption
    | with_reducible apply noteDeciders_keeps
    | (with_reducible refine Keeps.foldl ?_ (fun t x h => ?_))
    | (with_reducible refine Keeps.foldlFst ?_ (fun t x h => ?_))
    | (with_reducible refine Keeps.foldlSnd ?_ (fun t x h => ?_))
    | with_reducible apply Keeps.ite
    | (lift_lets; intro x; refine Keeps.cut (s := s0) (x := x) ?_ ?_; rotate_left; intro hx; clear_value x; rotate_left; subst x)
    | (lift_lets; intro (x : Memory); subst x)
    | (lift_lets; intro (x : Flash); subst x)
    | (lift_lets; intro (x : State → State × Nat × Nat); subst x)
    | (lift_lets; intro (x : State → State); subst x)
    | (lift_lets; intro (x : State → State × Result); subst x)
    | (lift_lets; intro x; clear_value x)
    | dsimp only [Keeps]
    | split

theorem execEpisodeEnd_keeps {s0 s : State} {a0} (h : Keeps s0 s) {t} (e : execEpisodeEnd a0 s = .next t) : Keeps s0 t := by
  unfold execEpisodeEnd at e
  first
    | (replace e := Host.Outcome.next.inj e; subst e)
    | cases e
  repeat' first
    | with_reducible assumption
    | with_reducible apply noteDeciders_keeps
    | with_reducible apply Keeps.ite
    | (lift_lets; intro x; refine Keeps.cut (s := s0) (x := x) ?_ ?_; rotate_left; intro hx; clear_value x; rotate_left; subst x)
    | (lift_lets; intro (x : Memory); subst x)
    | (lift_lets; intro (x : Flash); subst x)
    | (lift_lets; intro (x : State → State × Nat × Nat); subst x)
    | (lift_lets; intro (x : State → State); subst x)
    | (lift_lets; intro (x : State → State × Result); subst x)
    | (lift_lets; intro x; clear_value x)
    | dsimp only [Keeps]
    | split

theorem nearCrossing_keeps {s0 s : State} {a0} (h : Keeps s0 s) : Keeps s0 (nearCrossing a0 s) := by
  unfold nearCrossing
  repeat' first
    | with_reducible assumption
    | with_reducible apply raise_keeps
    | with_reducible apply Keeps.ite
    | (lift_lets; intro x; refine Keeps.cut (s := s0) (x := x) ?_ ?_; rotate_left; intro hx; clear_value x; rotate_left; subst x)
    | (lift_lets; intro (x : Memory); subst x)
    | (lift_lets; intro (x : Flash); subst x)
    | (lift_lets; intro (x : State → State × Nat × Nat); subst x)
    | (lift_lets; intro (x : State → State); subst x)
    | (lift_lets; intro (x : State → State × Result); subst x)
    | (lift_lets; intro x; clear_value x)
    | dsimp only [Keeps]
    | split

theorem opticalTrip_keeps {s0 s : State} {a0} (h : Keeps s0 s) : Keeps s0 (opticalTrip a0 s) := by
  unfold opticalTrip
  repeat' first
    | with_reducible assumption
    | with_reducible apply setPort_keeps
    | with_reducible apply takeDown_keeps
    | with_reducible apply detourBuffer_keeps
    | with_reducible apply Keeps.ite
    | (lift_lets; intro x; refine Keeps.cut (s := s0) (x := x) ?_ ?_; rotate_left; intro hx; clear_value x; rotate_left; subst x)
    | (lift_lets; intro (x : Memory); subst x)
    | (lift_lets; intro (x : Flash); subst x)
    | (lift_lets; intro (x : State → State × Nat × Nat); subst x)
    | (lift_lets; intro (x : State → State); subst x)
    | (lift_lets; intro (x : State → State × Result); subst x)
    | (lift_lets; intro x; clear_value x)
    | dsimp only [Keeps]
    | split

theorem execSensorRead_keeps {s0 s : State} {a0} (h : Keeps s0 s) {t} (e : execSensorRead a0 s = .next t) : Keeps s0 t := by
  unfold execSensorRead at e
  first
    | (replace e := Host.Outcome.next.inj e; subst e)
    | cases e
  repeat' first
    | with_reducible assumption
    | with_reducible apply nearCrossing_keeps
    | with_reducible apply opticalTrip_keeps
    | with_reducible apply withAlert_keeps
    | with_reducible apply shutdown_keeps
    | (with_reducible refine Keeps.foldl ?_ (fun t x h => ?_))
    | (with_reducible refine Keeps.foldlFst ?_ (fun t x h => ?_))
    | (with_reducible refine Keeps.foldlSnd ?_ (fun t x h => ?_))
    | with_reducible apply Keeps.ite
    | (lift_lets; intro x; refine Keeps.cut (s := s0) (x := x) ?_ ?_; rotate_left; intro hx; clear_value x; rotate_left; subst x)
    | (lift_lets; intro (x : Memory); subst x)
    | (lift_lets; intro (x : Flash); subst x)
    | (lift_lets; intro (x : State → State × Nat × Nat); subst x)
    | (lift_lets; intro (x : State → State); subst x)
    | (lift_lets; intro (x : State → State × Result); subst x)
    | (lift_lets; intro x; clear_value x)
    | dsimp only [Keeps]
    | split

theorem execThermalStepRaise_keeps {s0 s : State} (h : Keeps s0 s) {t} (e : execThermalStepRaise s = .next t) : Keeps s0 t := by
  unfold execThermalStepRaise at e
  first
    | (replace e := Host.Outcome.next.inj e; subst e)
    | cases e
  repeat' first
    | with_reducible assumption
    | with_reducible apply noteDeciders_keeps
    | with_reducible apply raise_keeps
    | with_reducible apply Keeps.ite
    | (lift_lets; intro x; refine Keeps.cut (s := s0) (x := x) ?_ ?_; rotate_left; intro hx; clear_value x; rotate_left; subst x)
    | (lift_lets; intro (x : Memory); subst x)
    | (lift_lets; intro (x : Flash); subst x)
    | (lift_lets; intro (x : State → State × Nat × Nat); subst x)
    | (lift_lets; intro (x : State → State); subst x)
    | (lift_lets; intro (x : State → State × Result); subst x)
    | (lift_lets; intro x; clear_value x)
    | dsimp only [Keeps]
    | split

theorem execThermalStepLower_keeps {s0 s : State} (h : Keeps s0 s) {t} (e : execThermalStepLower s = .next t) : Keeps s0 t := by
  unfold execThermalStepLower at e
  first
    | (replace e := Host.Outcome.next.inj e; subst e)
    | cases e
  repeat' first
    | with_reducible assumption
    | with_reducible apply noteDeciders_keeps
    | with_reducible apply Keeps.ite
    | (lift_lets; intro x; refine Keeps.cut (s := s0) (x := x) ?_ ?_; rotate_left; intro hx; clear_value x; rotate_left; subst x)
    | (lift_lets; intro (x : Memory); subst x)
    | (lift_lets; intro (x : Flash); subst x)
    | (lift_lets; intro (x : State → State × Nat × Nat); subst x)
    | (lift_lets; intro (x : State → State); subst x)
    | (lift_lets; intro (x : State → State × Result); subst x)
    | (lift_lets; intro x; clear_value x)
    | dsimp only [Keeps]
    | split

theorem execPowerControl_keeps {s0 s : State} {a0} (h : Keeps s0 s) {t} (e : execPowerControl a0 s = .next t) : Keeps s0 t := by
  unfold execPowerControl at e
  first
    | (replace e := Host.Outcome.next.inj e; subst e)
    | cases e
  repeat' first
    | with_reducible assumption
    | with_reducible apply Keeps.ite
    | (lift_lets; intro x; refine Keeps.cut (s := s0) (x := x) ?_ ?_; rotate_left; intro hx; clear_value x; rotate_left; subst x)
    | (lift_lets; intro (x : Memory); subst x)
    | (lift_lets; intro (x : Flash); subst x)
    | (lift_lets; intro (x : State → State × Nat × Nat); subst x)
    | (lift_lets; intro (x : State → State); subst x)
    | (lift_lets; intro (x : State → State × Result); subst x)
    | (lift_lets; intro x; clear_value x)
    | dsimp only [Keeps]
    | split

end Sys2Proof.Laws
end

