-- ==== Sys2Proof/Laws/KeepsSetup.lean ====
section
/-!
SUPPORT. `Keeps` for the operations of Machine/Setup.lean.
-/
namespace Sys2Proof.Laws

open Sys2Proof Sys2Proof.Machine

theorem forwardSetup_keeps {s0 s : State} {a0 a1 a2 a3} (h : Keeps s0 s) : Keeps s0 (forwardSetup a0 a1 a2 a3 s) := by
  unfold forwardSetup
  repeat' first
    | with_reducible assumption
    | with_reducible apply sendHedge_keeps
    | with_reducible apply Keeps.ite
    | (lift_lets; intro x; refine Keeps.cut (s := s0) (x := x) ?_ ?_; rotate_left; intro hx; clear_value x; rotate_left; subst x)
    | (lift_lets; intro (x : Memory); subst x)
    | (lift_lets; intro (x : Flash); subst x)
    | (lift_lets; intro (x : State → State × Nat × Nat); subst x)
    | (lift_lets; intro (x : State → State); subst x)
    | (lift_lets; intro (x : State → State × Result); subst x)
    | (lift_lets; intro x; clear_value x)
    | dsimp only [Keeps]
    | split

theorem execRegisterWrite_keeps {s0 s : State} {a0 a1 a2} (h : Keeps s0 s) {t} (e : execRegisterWrite a0 a1 a2 s = .next t) : Keeps s0 t := by
  unfold execRegisterWrite at e
  first
    | (replace e := Host.Outcome.next.inj e; subst e)
    | cases e
  repeat' first
    | with_reducible assumption
    | with_reducible apply forwardSetup_keeps
    | with_reducible apply writeRegister_keeps
    | with_reducible apply Keeps.ite
    | (lift_lets; intro x; refine Keeps.cut (s := s0) (x := x) ?_ ?_; rotate_left; intro hx; clear_value x; rotate_left; subst x)
    | (lift_lets; intro (x : Memory); subst x)
    | (lift_lets; intro (x : Flash); subst x)
    | (lift_lets; intro (x : State → State × Nat × Nat); subst x)
    | (lift_lets; intro (x : State → State); subst x)
    | (lift_lets; intro (x : State → State × Result); subst x)
    | (lift_lets; intro x; clear_value x)
    | dsimp only [Keeps]
    | split

theorem armTrap_keeps {s0 s : State} (h : Keeps s0 s) : Keeps s0 (armTrap s) := by
  unfold armTrap
  repeat' first
    | with_reducible assumption
    | with_reducible apply Keeps.ite
    | dsimp only [Keeps]
    | split

theorem execSetupWrite_keeps {s0 s : State} {a0 a1 a2} (h : Keeps s0 s) {t} (e : execSetupWrite a0 a1 a2 s = .next t) : Keeps s0 t := by
  unfold execSetupWrite at e
  first
    | (replace e := Host.Outcome.next.inj e; subst e)
    | cases e
  repeat' first
    | with_reducible assumption
    | with_reducible apply lockRegisters_keeps
    | with_reducible apply holdingLevel_keeps
    | with_reducible apply writeRegister_keeps
    | with_reducible apply armTrap_keeps
    | with_reducible apply Keeps.ite
    | (lift_lets; intro x; refine Keeps.cut (s := s0) (x := x) ?_ ?_; rotate_left; intro hx; clear_value x; rotate_left; subst x)
    | (lift_lets; intro (x : Memory); subst x)
    | (lift_lets; intro (x : Flash); subst x)
    | (lift_lets; intro (x : State → State × Nat × Nat); subst x)
    | (lift_lets; intro (x : State → State); subst x)
    | (lift_lets; intro (x : State → State × Result); subst x)
    | (lift_lets; intro x; clear_value x)
    | dsimp only [Keeps]
    | split

theorem execTrapArmed_keeps {s0 s : State} (h : Keeps s0 s) {t} (e : execTrapArmed s = .next t) : Keeps s0 t := by
  unfold execTrapArmed at e
  first
    | (replace e := Host.Outcome.next.inj e; subst e)
    | cases e
  repeat' first
    | with_reducible assumption
    | with_reducible apply armTrap_keeps
    | with_reducible apply sendHedge_keeps
    | with_reducible apply Keeps.ite
    | (lift_lets; intro x; refine Keeps.cut (s := s0) (x := x) ?_ ?_; rotate_left; intro hx; clear_value x; rotate_left; subst x)
    | (lift_lets; intro (x : Memory); subst x)
    | (lift_lets; intro (x : Flash); subst x)
    | (lift_lets; intro (x : State → State × Nat × Nat); subst x)
    | (lift_lets; intro (x : State → State); subst x)
    | (lift_lets; intro (x : State → State × Result); subst x)
    | (lift_lets; intro x; clear_value x)
    | dsimp only [Keeps]
    | split

theorem resetHolding_keeps {s0 s : State} (h : Keeps s0 s) : Keeps s0 (resetHolding s) := by
  unfold resetHolding
  repeat' first
    | with_reducible assumption
    | with_reducible apply holdingLevel_keeps
    | with_reducible apply sendHedge_keeps
    | with_reducible apply Keeps.ite
    | dsimp only [Keeps]
    | split

theorem execHoldingReset_keeps {s0 s : State} (h : Keeps s0 s) {t} (e : execHoldingReset s = .next t) : Keeps s0 t := by
  unfold execHoldingReset at e
  first
    | (replace e := Host.Outcome.next.inj e; subst e)
    | cases e
  repeat' first
    | with_reducible assumption
    | with_reducible apply resetHolding_keeps
    | with_reducible apply Keeps.ite
    | dsimp only [Keeps]
    | split

theorem execTimeOffset_keeps {s0 s : State} {a0} (h : Keeps s0 s) {t} (e : execTimeOffset a0 s = .next t) : Keeps s0 t := by
  unfold execTimeOffset at e
  first
    | (replace e := Host.Outcome.next.inj e; subst e)
    | cases e
  repeat' first
    | with_reducible assumption
    | with_reducible apply Keeps.ite
    | dsimp only [Keeps]
    | split

theorem execTimeRate_keeps {s0 s : State} {a0} (h : Keeps s0 s) {t} (e : execTimeRate a0 s = .next t) : Keeps s0 t := by
  unfold execTimeRate at e
  first
    | (replace e := Host.Outcome.next.inj e; subst e)
    | cases e
  repeat' first
    | with_reducible assumption
    | with_reducible apply Keeps.ite
    | dsimp only [Keeps]
    | split

theorem loadAnswer_keeps {s0 s : State} {a0 a1} (h : Keeps s0 s) : Keeps s0 (loadAnswer a0 a1 s) := by
  unfold loadAnswer
  repeat' first
    | with_reducible assumption
    | with_reducible apply Keeps.ite
    | dsimp only [Keeps]
    | split

theorem execBar4Load_keeps {s0 s : State} {a0 a1} (h : Keeps s0 s) {t} (e : execBar4Load a0 a1 s = .next t) : Keeps s0 t := by
  unfold execBar4Load at e
  first
    | (replace e := Host.Outcome.next.inj e; subst e)
    | cases e
  repeat' first
    | with_reducible assumption
    | with_reducible apply loadAnswer_keeps
    | with_reducible apply count_keeps
    | with_reducible apply touch_keeps
    | with_reducible apply issue_keeps
    | (with_reducible refine issue_keeps_eq ?_ (by with_reducible assumption))
    | with_reducible apply answerUnreached_keeps
    | (with_reducible refine Keeps.foldl ?_ (fun t x h => ?_))
    | (with_reducible refine Keeps.foldlFst ?_ (fun t x h => ?_))
    | (with_reducible refine Keeps.foldlSnd ?_ (fun t x h => ?_))
    | with_reducible apply Keeps.ite
    | dsimp only [Keeps]
    | split

theorem execBar4Store_keeps {s0 s : State} {a0 a1} (h : Keeps s0 s) {t} (e : execBar4Store a0 a1 s = .next t) : Keeps s0 t := by
  unfold execBar4Store at e
  first
    | (replace e := Host.Outcome.next.inj e; subst e)
    | cases e
  repeat' first
    | with_reducible assumption
    | with_reducible apply count_keeps
    | with_reducible apply writeNow_keeps
    | with_reducible apply answerUnreached_keeps
    | with_reducible apply issue_keeps
    | (with_reducible refine issue_keeps_eq ?_ (by with_reducible assumption))
    | (with_reducible refine Keeps.foldl ?_ (fun t x h => ?_))
    | (with_reducible refine Keeps.foldlFst ?_ (fun t x h => ?_))
    | (with_reducible refine Keeps.foldlSnd ?_ (fun t x h => ?_))
    | with_reducible apply Keeps.ite
    | (lift_lets; intro x; refine Keeps.cut (s := s0) (x := x) ?_ ?_; rotate_left; intro hx; clear_value x; rotate_left; subst x)
    | (lift_lets; intro (x : Memory); subst x)
    | (lift_lets; intro (x : Flash); subst x)
    | (lift_lets; intro (x : State → State × Nat × Nat); subst x)
    | (lift_lets; intro (x : State → State); subst x)
    | (lift_lets; intro (x : State → State × Result); subst x)
    | (lift_lets; intro x; clear_value x)
    | dsimp only [Keeps]
    | split

end Sys2Proof.Laws
end

