-- ==== Sys2Proof/Laws/KeepsMgmt.lean ====
section
/-!
SUPPORT. `Keeps` for the operations of Machine/Mgmt.lean.
-/
namespace Sys2Proof.Laws

open Sys2Proof Sys2Proof.Machine

theorem mgmtRespond_keeps {s0 s : State} {a0 a1 a2} (h : Keeps s0 s) : Keeps s0 (mgmtRespond a0 a1 a2 s) := by
  unfold mgmtRespond
  repeat' first
    | with_reducible assumption
    | with_reducible apply Keeps.ite
    | dsimp only [Keeps]
    | split

theorem withPower_keeps {s0 s : State} {a0 a1 a2 a3} (h : Keeps s0 s) (k_a3 : ∀ t, Keeps s0 t → Keeps s0 (a3 t)) : Keeps s0 (withPower a0 a1 a2 a3 s) := by
  unfold withPower
  repeat' first
    | with_reducible assumption
    | with_reducible apply k_a3
    | with_reducible apply mgmtRespond_keeps
    | with_reducible apply Keeps.ite
    | dsimp only [Keeps]
    | split

theorem execGetStatus_keeps {s0 s : State} {a0} (h : Keeps s0 s) {t} (e : execGetStatus a0 s = .next t) : Keeps s0 t := by
  unfold execGetStatus at e
  first
    | (replace e := Host.Outcome.next.inj e; subst e)
    | cases e
  repeat' first
    | with_reducible assumption
    | with_reducible apply mgmtRespond_keeps
    | with_reducible apply Keeps.ite
    | (lift_lets; intro x; refine Keeps.cut (s := s0) (x := x) ?_ ?_; rotate_left; intro hx; clear_value x; rotate_left; subst x)
    | (lift_lets; intro (x : Memory); subst x)
    | (lift_lets; intro (x : Flash); subst x)
    | (lift_lets; intro (x : State → State × Nat × Nat); subst x)
    | (lift_lets; intro (x : State → State); subst x)
    | (lift_lets; intro (x : State → State × Result); subst x)
    | (lift_lets; intro x; clear_value x)
    | dsimp only [Keeps]
    | split

theorem execSetPowerCap_keeps {s0 s : State} {a0} (h : Keeps s0 s) {t} (e : execSetPowerCap a0 s = .next t) : Keeps s0 t := by
  unfold execSetPowerCap at e
  first
    | (replace e := Host.Outcome.next.inj e; subst e)
    | cases e
  repeat' first
    | with_reducible assumption
    | with_reducible apply withPower_keeps
    | with_reducible apply mgmtRespond_keeps
    | intro t h
    | with_reducible apply Keeps.ite
    | dsimp only [Keeps]
    | split

theorem execMgmtStop_keeps {s0 s : State} {a0} (h : Keeps s0 s) {t} (e : execMgmtStop a0 s = .next t) : Keeps s0 t := by
  unfold execMgmtStop at e
  first
    | (replace e := Host.Outcome.next.inj e; subst e)
    | cases e
  repeat' first
    | with_reducible assumption
    | with_reducible apply withPower_keeps
    | with_reducible apply mgmtRespond_keeps
    | with_reducible apply sendHedge_keeps
    | intro t h
    | with_reducible apply Keeps.ite
    | (lift_lets; intro x; refine Keeps.cut (s := s0) (x := x) ?_ ?_; rotate_left; intro hx; clear_value x; rotate_left; subst x)
    | (lift_lets; intro (x : Memory); subst x)
    | (lift_lets; intro (x : Flash); subst x)
    | (lift_lets; intro (x : State → State × Nat × Nat); subst x)
    | (lift_lets; intro (x : State → State); subst x)
    | (lift_lets; intro (x : State → State × Result); subst x)
    | (lift_lets; intro x; clear_value x)
    | dsimp only [Keeps]
    | split

theorem execMgmtHoldingReset_keeps {s0 s : State} {a0} (h : Keeps s0 s) {t} (e : execMgmtHoldingReset a0 s = .next t) : Keeps s0 t := by
  unfold execMgmtHoldingReset at e
  first
    | (replace e := Host.Outcome.next.inj e; subst e)
    | cases e
  repeat' first
    | with_reducible assumption
    | with_reducible apply withPower_keeps
    | with_reducible apply mgmtRespond_keeps
    | with_reducible apply resetHolding_keeps
    | intro t h
    | with_reducible apply Keeps.ite
    | dsimp only [Keeps]
    | split

theorem execModuleReset_keeps {s0 s : State} {a0} (h : Keeps s0 s) {t} (e : execModuleReset a0 s = .next t) : Keeps s0 t := by
  unfold execModuleReset at e
  first
    | (replace e := Host.Outcome.next.inj e; subst e)
    | cases e
  repeat' first
    | with_reducible assumption
    | with_reducible apply withPower_keeps
    | with_reducible apply mgmtRespond_keeps
    | with_reducible apply moduleLevel_keeps
    | intro t h
    | with_reducible apply Keeps.ite
    | dsimp only [Keeps]
    | split

theorem execPowerOff_keeps {s0 s : State} {a0} (h : Keeps s0 s) {t} (e : execPowerOff a0 s = .next t) : Keeps s0 t := by
  unfold execPowerOff at e
  first
    | (replace e := Host.Outcome.next.inj e; subst e)
    | cases e
  repeat' first
    | with_reducible assumption
    | with_reducible apply mgmtRespond_keeps
    | with_reducible apply shutdown_keeps
    | with_reducible apply Keeps.ite
    | dsimp only [Keeps]
    | split

theorem execPowerOn_keeps {s0 s : State} {a0} (h : Keeps s0 s) {t} (e : execPowerOn a0 s = .next t) : Keeps s0 t := by
  unfold execPowerOn at e
  first
    | (replace e := Host.Outcome.next.inj e; subst e)
    | cases e
  repeat' first
    | with_reducible assumption
    | with_reducible apply mgmtRespond_keeps
    | with_reducible apply startPower_keeps
    | with_reducible apply Keeps.ite
    | dsimp only [Keeps]
    | split

theorem execGetNonce_keeps {s0 s : State} {a0} (h : Keeps s0 s) {t} (e : execGetNonce a0 s = .next t) : Keeps s0 t := by
  unfold execGetNonce at e
  first
    | (replace e := Host.Outcome.next.inj e; subst e)
    | cases e
  repeat' first
    | with_reducible assumption
    | with_reducible apply withPower_keeps
    | with_reducible apply issueNonce_keeps
    | with_reducible apply mgmtRespond_keeps
    | intro t h
    | with_reducible apply Keeps.ite
    | (lift_lets; intro x; refine Keeps.cut (s := s0) (x := x) ?_ ?_; rotate_left; intro hx; clear_value x; rotate_left; subst x)
    | (lift_lets; intro (x : Memory); subst x)
    | (lift_lets; intro (x : Flash); subst x)
    | (lift_lets; intro (x : State → State × Nat × Nat); subst x)
    | (lift_lets; intro (x : State → State); subst x)
    | (lift_lets; intro (x : State → State × Result); subst x)
    | (lift_lets; intro x; clear_value x)
    | dsimp only [Keeps]
    | split

theorem execSecurityRequest_keeps {s0 s : State} {a0} (h : Keeps s0 s) {t} (e : execSecurityRequest a0 s = .next t) : Keeps s0 t := by
  unfold execSecurityRequest at e
  first
    | (replace e := Host.Outcome.next.inj e; subst e)
    | cases e
  repeat' first
    | with_reducible assumption
    | with_reducible apply withPower_keeps
    | with_reducible apply securityRequest_keeps
    | with_reducible apply mgmtRespond_keeps
    | intro t h
    | with_reducible apply Keeps.ite
    | (lift_lets; intro x; refine Keeps.cut (s := s0) (x := x) ?_ ?_; rotate_left; intro hx; clear_value x; rotate_left; subst x)
    | (lift_lets; intro (x : Memory); subst x)
    | (lift_lets; intro (x : Flash); subst x)
    | (lift_lets; intro (x : State → State × Nat × Nat); subst x)
    | (lift_lets; intro (x : State → State); subst x)
    | (lift_lets; intro (x : State → State × Result); subst x)
    | (lift_lets; intro x; clear_value x)
    | dsimp only [Keeps]
    | split

end Sys2Proof.Laws
end

