-- ==== Sys2Proof/Laws/KeepsOperands.lean ====
section
/-!
SUPPORT. `Keeps` for the operations of Machine/Operands.lean.
-/
namespace Sys2Proof.Laws

open Sys2Proof Sys2Proof.Machine

theorem Operand_touched_keeps {s0 s : State} {a0 a1} (h : Keeps s0 s) : Keeps s0 (Operand.touched a0 a1 s) := by
  unfold Operand.touched
  repeat' first
    | with_reducible assumption
    | with_reducible apply touch_keeps
    | (with_reducible refine Keeps.foldl ?_ (fun t x h => ?_))
    | (with_reducible refine Keeps.foldlFst ?_ (fun t x h => ?_))
    | (with_reducible refine Keeps.foldlSnd ?_ (fun t x h => ?_))
    | with_reducible apply Keeps.ite
    | dsimp only [Keeps]
    | split

end Sys2Proof.Laws
end

