-- ==== Sys2Proof/Laws/KeepsStats.lean ====
section
/-!
SUPPORT. `Keeps` for the operations of Machine/Stats.lean.
-/
namespace Sys2Proof.Laws

open Sys2Proof Sys2Proof.Machine

theorem layCells_keeps {s0 s : State} {a0 a1 a2 a3} (h : Keeps s0 s) : Keeps s0 (layCells a0 a1 a2 a3 s) := by
  unfold layCells
  repeat' first
    | with_reducible assumption
    | with_reducible apply Keeps.ite
    | dsimp only [Keeps]
    | split

theorem sealBlock_keeps {s0 s : State} {a0 a1 a2 a3 a4} (h : Keeps s0 s) : Keeps s0 (sealBlock a0 a1 a2 a3 a4 s) := by
  unfold sealBlock
  repeat' first
    | with_reducible assumption
    | with_reducible apply record_keeps
    | with_reducible apply layCells_keeps
    | with_reducible apply finding_keeps
    | intro t h
    | with_reducible apply Keeps.ite
    | (lift_lets; intro x; refine Keeps.cut (s := s0) (x := x) ?_ ?_; rotate_left; intro hx; clear_value x; rotate_left; subst x)
    | (lift_lets; intro (x : Memory); subst x)
    | (lift_lets; intro (x : Flash); subst x)
    | (lift_lets; intro (x : State → State × Nat × Nat); subst x)
    | (lift_lets; intro (x : State → State); subst x)
    | (lift_lets; intro (x : State → State × Result); subst x)
    | (lift_lets; intro x; clear_value x)
    | dsimp only [Keeps]
    | split

theorem sealSegment_keeps {s0 s : State} {a0 a1} (h : Keeps s0 s) : Keeps s0 (sealSegment a0 a1 s) := by
  unfold sealSegment
  repeat' first
    | with_reducible assumption
    | with_reducible apply record_keeps
    | with_reducible apply sealBlock_keeps
    | intro t h
    | (with_reducible refine Keeps.foldl ?_ (fun t x h => ?_))
    | (with_reducible refine Keeps.foldlFst ?_ (fun t x h => ?_))
    | (with_reducible refine Keeps.foldlSnd ?_ (fun t x h => ?_))
    | with_reducible apply Keeps.ite
    | (lift_lets; intro x; refine Keeps.cut (s := s0) (x := x) ?_ ?_; rotate_left; intro hx; clear_value x; rotate_left; subst x)
    | (lift_lets; intro (x : Memory); subst x)
    | (lift_lets; intro (x : Flash); subst x)
    | (lift_lets; intro (x : State → State × Nat × Nat); subst x)
    | (lift_lets; intro (x : State → State); subst x)
    | (lift_lets; intro (x : State → State × Result); subst x)
    | (lift_lets; intro x; clear_value x)
    | dsimp only [Keeps]
    | split

theorem dropJournal_keeps {s0 s : State} {a0 a1} (h : Keeps s0 s) : Keeps s0 (dropJournal a0 a1 s) := by
  unfold dropJournal
  repeat' first
    | with_reducible assumption
    | with_reducible apply Keeps.ite
    | dsimp only [Keeps]
    | split

theorem setJournal_keeps {s0 s : State} {a0} (h : Keeps s0 s) : Keeps s0 (setJournal a0 s) := by
  unfold setJournal
  repeat' first
    | with_reducible assumption
    | with_reducible apply dropJournal_keeps
    | with_reducible apply Keeps.ite
    | dsimp only [Keeps]
    | split

end Sys2Proof.Laws
end

