-- ==== Sys2Proof/Laws/KeepsUpdate.lean ====
section
/-!
SUPPORT. `Keeps` for the operations of Machine/Update.lean.
-/
namespace Sys2Proof.Laws

open Sys2Proof Sys2Proof.Machine

theorem setFallow_keeps {s0 s : State} {a0} (h : Keeps s0 s) : Keeps s0 (setFallow a0 s) := by
  unfold setFallow
  repeat' first
    | with_reducible assumption
    | with_reducible apply Keeps.ite
    | dsimp only [Keeps]
    | split

end Sys2Proof.Laws
end

