-- ==== Sys2Proof/Laws/KeepsGroups.lean ====
section
/-!
SUPPORT. `Keeps` for the operations of Machine/Groups.lean.
-/
namespace Sys2Proof.Laws

open Sys2Proof Sys2Proof.Machine

theorem mapGroups_keeps {s0 s : State} {a0} (h : Keeps s0 s) : Keeps s0 (mapGroups a0 s) := by
  unfold mapGroups
  repeat' first
    | with_reducible assumption
    | with_reducible apply Keeps.ite
    | dsimp only [Keeps]
    | split

end Sys2Proof.Laws
end

