-- ==== Sys2Proof/Laws/KeepsGraph.lean ====
section
/-!
SUPPORT. `Keeps` for the operations of Machine/Graph.lean.
-/
namespace Sys2Proof.Laws

open Sys2Proof Sys2Proof.Machine

theorem pinPage_keeps {s0 s : State} {a0 a1} (h : Keeps s0 s) : Keeps s0 (pinPage a0 a1 s) := by
  unfold pinPage
  repeat' first
    | with_reducible assumption
    | with_reducible apply setPage_keeps
    | with_reducible apply Keeps.ite
    | (lift_lets; intro x; refine Keeps.cut (s := s0) (x := x) ?_ ?_; rotate_left; intro hx; clear_value x; rotate_left; subst x)
    | (lift_lets; intro (x : Memory); subst x)
    | (lift_lets; intro (x : Flash); subst x)
    | (lift_lets; intro (x : State → State × Nat × Nat); subst x)
    | (lift_lets; intro (x : State → State); subst x)
    | (lift_lets; intro (x : State → State × Result); subst x)
    | (lift_lets; intro x; clear_value x)
    | dsimp only [Keeps]
    | split

theorem pinTensor_keeps {s0 s : State} {a0 a1} (h : Keeps s0 s) : Keeps s0 (pinTensor a0 a1 s) := by
  unfold pinTensor
  repeat' first
    | with_reducible assumption
    | with_reducible apply pinPage_keeps
    | (with_reducible refine Keeps.foldl ?_ (fun t x h => ?_))
    | (with_reducible refine Keeps.foldlFst ?_ (fun t x h => ?_))
    | (with_reducible refine Keeps.foldlSnd ?_ (fun t x h => ?_))
    | with_reducible apply Keeps.ite
    | dsimp only [Keeps]
    | split

theorem pinDefault_keeps {s0 s : State} {a0} (h : Keeps s0 s) : Keeps s0 (pinDefault a0 s) := by
  unfold pinDefault
  repeat' first
    | with_reducible assumption
    | with_reducible apply pinPage_keeps
    | (with_reducible refine Keeps.foldl ?_ (fun t x h => ?_))
    | (with_reducible refine Keeps.foldlFst ?_ (fun t x h => ?_))
    | (with_reducible refine Keeps.foldlSnd ?_ (fun t x h => ?_))
    | with_reducible apply Keeps.ite
    | dsimp only [Keeps]
    | split

theorem acceptPins_keeps {s0 s : State} {a0} (h : Keeps s0 s) : Keeps s0 (acceptPins a0 s) := by
  unfold acceptPins
  repeat' first
    | with_reducible assumption
    | with_reducible apply pinDefault_keeps
    | with_reducible apply pinTensor_keeps
    | (with_reducible refine Keeps.foldl ?_ (fun t x h => ?_))
    | (with_reducible refine Keeps.foldlFst ?_ (fun t x h => ?_))
    | (with_reducible refine Keeps.foldlSnd ?_ (fun t x h => ?_))
    | with_reducible apply Keeps.ite
    | (lift_lets; intro x; refine Keeps.cut (s := s0) (x := x) ?_ ?_; rotate_left; intro hx; clear_value x; rotate_left; subst x)
    | (lift_lets; intro (x : Memory); subst x)
    | (lift_lets; intro (x : Flash); subst x)
    | (lift_lets; intro (x : State → State × Nat × Nat); subst x)
    | (lift_lets; intro (x : State → State); subst x)
    | (lift_lets; intro (x : State → State × Result); subst x)
    | (lift_lets; intro x; clear_value x)
    | dsimp only [Keeps]
    | split

theorem installSegment_keeps {s0 s : State} {a0} (h : Keeps s0 s) : Keeps s0 (installSegment a0 s).2 := by
  unfold installSegment
  repeat' first
    | with_reducible assumption
    | with_reducible apply extendMeas_keeps
    | with_reducible apply acceptPins_keeps
    | with_reducible apply Keeps.ite
    | (lift_lets; intro x; refine Keeps.cut (s := s0) (x := x) ?_ ?_; rotate_left; intro hx; clear_value x; rotate_left; subst x)
    | (lift_lets; intro (x : Memory); subst x)
    | (lift_lets; intro (x : Flash); subst x)
    | (lift_lets; intro (x : State → State × Nat × Nat); subst x)
    | (lift_lets; intro (x : State → State); subst x)
    | (lift_lets; intro (x : State → State × Result); subst x)
    | (lift_lets; intro x; clear_value x)
    | dsimp only [Keeps]
    | split

theorem installSegment_keeps_eq {s0 s : State} {a0} (h : Keeps s0 s) {t u} (e : installSegment a0 s = (u, t)) : Keeps s0 t := by
  have k : Keeps s0 (installSegment a0 s).2 := installSegment_keeps h 
  rw [e] at k; exact k

theorem submitGraph_keeps {s0 s : State} {a0 a1} (h : Keeps s0 s) : Keeps s0 (submitGraph a0 a1 s).1 := by
  unfold submitGraph
  repeat' first
    | with_reducible assumption
    | with_reducible apply refuse_keeps
    | (with_reducible refine refuse_keeps_eq ?_ (by with_reducible assumption))
    | with_reducible apply installSegment_keeps
    | (with_reducible refine installSegment_keeps_eq ?_ (by with_reducible assumption))
    | with_reducible apply accept_keeps
    | (with_reducible refine accept_keeps_eq ?_ (by with_reducible assumption))
    | with_reducible apply Keeps.ite
    | (lift_lets; intro x; refine Keeps.cut (s := s0) (x := x) ?_ ?_; rotate_left; intro hx; clear_value x; rotate_left; subst x)
    | (lift_lets; intro (x : Memory); subst x)
    | (lift_lets; intro (x : Flash); subst x)
    | (lift_lets; intro (x : State → State × Nat × Nat); subst x)
    | (lift_lets; intro (x : State → State); subst x)
    | (lift_lets; intro (x : State → State × Result); subst x)
    | (lift_lets; intro x; clear_value x)
    | dsimp only [Keeps]
    | split

theorem submitGraph_keeps_eq {s0 s : State} {a0 a1} (h : Keeps s0 s) {t u} (e : submitGraph a0 a1 s = (t, u)) : Keeps s0 t := by
  have k : Keeps s0 (submitGraph a0 a1 s).1 := submitGraph_keeps h 
  rw [e] at k; exact k

end Sys2Proof.Laws
end

