-- ==== Sys2Proof/Laws/KeepsSched.lean ====
section
/-!
SUPPORT. `Keeps` for the operations of Machine/Sched.lean.
-/
namespace Sys2Proof.Laws

open Sys2Proof Sys2Proof.Machine

theorem giveSeq_keeps {s0 s : State} {a0} (h : Keeps s0 s) : Keeps s0 (giveSeq s a0).1 := by
  unfold giveSeq
  repeat' first
    | with_reducible assumption
    | with_reducible apply Keeps.ite
    | dsimp only [Keeps]
    | split

theorem giveSeq_keeps_eq {s0 s : State} {a0} (h : Keeps s0 s) {t u} (e : giveSeq s a0 = (t, u)) : Keeps s0 t := by
  have k : Keeps s0 (giveSeq s a0).1 := giveSeq_keeps h 
  rw [e] at k; exact k

theorem giveSeqs_keeps {s0 s : State} {a0} (h : Keeps s0 s) : Keeps s0 (giveSeqs a0 s).1 := by
  unfold giveSeqs
  repeat' first
    | with_reducible assumption
    | with_reducible apply giveSeq_keeps
    | (with_reducible refine giveSeq_keeps_eq ?_ (by with_reducible assumption))
    | (with_reducible refine Keeps.foldl ?_ (fun t x h => ?_))
    | (with_reducible refine Keeps.foldlFst ?_ (fun t x h => ?_))
    | (with_reducible refine Keeps.foldlSnd ?_ (fun t x h => ?_))
    | with_reducible apply Keeps.ite
    | (lift_lets; intro x; refine Keeps.cut (s := s0) (x := x) ?_ ?_; rotate_left; intro hx; clear_value x; rotate_left; subst x)
    | (lift_lets; intro (x : Memory); subst x)
    | (lift_lets; intro (x : Flash); subst x)
    | (lift_lets; intro (x : State → State × Nat × Nat); subst x)
    | (lift_lets; intro (x : State → State); subst x)
    | (lift_lets; intro (x : State → State × Result); subst x)
    | (lift_lets; intro x; clear_value x)
    | dsimp only [Keeps]
    | split

theorem giveSeqs_keeps_eq {s0 s : State} {a0} (h : Keeps s0 s) {t u} (e : giveSeqs a0 s = (t, u)) : Keeps s0 t := by
  have k : Keeps s0 (giveSeqs a0 s).1 := giveSeqs_keeps h 
  rw [e] at k; exact k

theorem markSeqs_keeps {s0 s : State} {a0} (h : Keeps s0 s) : Keeps s0 (markSeqs a0 s) := by
  unfold markSeqs
  repeat' first
    | with_reducible assumption
    | with_reducible apply mapGroups_keeps
    | with_reducible apply Keeps.ite
    | dsimp only [Keeps]
    | split

theorem markGates_keeps {s0 s : State} (h : Keeps s0 s) : Keeps s0 (markGates s) := by
  unfold markGates
  repeat' first
    | with_reducible assumption
    | with_reducible apply Keeps.ite
    | (lift_lets; intro x; refine Keeps.cut (s := s0) (x := x) ?_ ?_; rotate_left; intro hx; clear_value x; rotate_left; subst x)
    | (lift_lets; intro (x : Memory); subst x)
    | (lift_lets; intro (x : Flash); subst x)
    | (lift_lets; intro (x : State → State × Nat × Nat); subst x)
    | (lift_lets; intro (x : State → State); subst x)
    | (lift_lets; intro (x : State → State × Result); subst x)
    | (lift_lets; intro x; clear_value x)
    | dsimp only [Keeps]
    | split

theorem addInstances_keeps {s0 s : State} {a0 a1} (h : Keeps s0 s) : Keeps s0 (addInstances a0 a1 s) := by
  unfold addInstances
  repeat' first
    | with_reducible assumption
    | with_reducible apply giveSeqs_keeps
    | (with_reducible refine giveSeqs_keeps_eq ?_ (by with_reducible assumption))
    | with_reducible apply markGates_keeps
    | with_reducible apply markSeqs_keeps
    | with_reducible apply Keeps.ite
    | (lift_lets; intro x; refine Keeps.cut (s := s0) (x := x) ?_ ?_; rotate_left; intro hx; clear_value x; rotate_left; subst x)
    | (lift_lets; intro (x : Memory); subst x)
    | (lift_lets; intro (x : Flash); subst x)
    | (lift_lets; intro (x : State → State × Nat × Nat); subst x)
    | (lift_lets; intro (x : State → State); subst x)
    | (lift_lets; intro (x : State → State × Result); subst x)
    | (lift_lets; intro x; clear_value x)
    | dsimp only [Keeps]
    | split

theorem createStep_keeps {s0 s : State} {a0} (h : Keeps s0 s) : Keeps s0 (createStep a0 s) := by
  unfold createStep
  repeat' first
    | with_reducible assumption
    | with_reducible apply addInstances_keeps
    | with_reducible apply Keeps.ite
    | dsimp only [Keeps]
    | split

theorem createEval_keeps {s0 s : State} {a0} (h : Keeps s0 s) : Keeps s0 (createEval a0 s) := by
  unfold createEval
  repeat' first
    | with_reducible assumption
    | with_reducible apply addInstances_keeps
    | with_reducible apply Keeps.ite
    | dsimp only [Keeps]
    | split

theorem offerCandidate_keeps {s0 s : State} {a0} (h : Keeps s0 s) : Keeps s0 (offerCandidate a0 s) := by
  unfold offerCandidate
  repeat' first
    | with_reducible assumption
    | with_reducible apply Keeps.ite
    | dsimp only [Keeps]
    | split

theorem traceTask_keeps {s0 s : State} {a0 a1} (h : Keeps s0 s) : Keeps s0 (traceTask a0 a1 s) := by
  unfold traceTask
  repeat' first
    | with_reducible assumption
    | with_reducible apply trace_keeps
    | with_reducible apply Keeps.ite
    | dsimp only [Keeps]
    | split

theorem touchViews_keeps {s0 s : State} {a0 a1} (h : Keeps s0 s) : Keeps s0 (touchViews a0 a1 s) := by
  unfold touchViews
  repeat' first
    | with_reducible assumption
    | with_reducible apply touchAs_keeps
    | (with_reducible refine Keeps.foldl ?_ (fun t x h => ?_))
    | (with_reducible refine Keeps.foldlFst ?_ (fun t x h => ?_))
    | (with_reducible refine Keeps.foldlSnd ?_ (fun t x h => ?_))
    | with_reducible apply Keeps.ite
    | dsimp only [Keeps]
    | split

theorem startRun_keeps {s0 s : State} {a0 a1 a2} (h : Keeps s0 s) : Keeps s0 (startRun a0 a1 a2 s) := by
  unfold startRun
  repeat' first
    | with_reducible assumption
    | with_reducible apply findings_keeps
    | (with_reducible refine stageFrames_keeps ?_ (by with_reducible assumption))
    | (with_reducible refine freshFrames_keeps ?_ (by with_reducible assumption))
    | with_reducible apply touchViews_keeps
    | with_reducible apply countWork_keeps
    | with_reducible apply countNan_keeps
    | with_reducible apply traceTask_keeps
    | with_reducible apply setTask_keeps
    | (with_reducible refine Keeps.foldl ?_ (fun t x h => ?_))
    | (with_reducible refine Keeps.foldlFst ?_ (fun t x h => ?_))
    | (with_reducible refine Keeps.foldlSnd ?_ (fun t x h => ?_))
    | with_reducible apply Keeps.ite
    | (lift_lets; intro x; refine Keeps.cut (s := s0) (x := x) ?_ ?_; rotate_left; intro hx; clear_value x; rotate_left; subst x)
    | (lift_lets; intro (x : Memory); subst x)
    | (lift_lets; intro (x : Flash); subst x)
    | (lift_lets; intro (x : State → State × Nat × Nat); subst x)
    | (lift_lets; intro (x : State → State); subst x)
    | (lift_lets; intro (x : State → State × Result); subst x)
    | (lift_lets; intro x; clear_value x)
    | (obtain ⟨f, h1, h2⟩ := Option.bind_eq_some_iff.mp ‹Option.bind _ _ = some _›; exact freshFrames_keeps (stageFrames_keeps h h1) h2)
    | dsimp only [Keeps]
    | split

theorem freeFresh_keeps {s0 s : State} {a0} (h : Keeps s0 s) : Keeps s0 (freeFresh a0 s) := by
  unfold freeFresh
  repeat' first
    | with_reducible assumption
    | with_reducible apply Keeps.ite
    | (lift_lets; intro x; refine Keeps.cut (s := s0) (x := x) ?_ ?_; rotate_left; intro hx; clear_value x; rotate_left; subst x)
    | (lift_lets; intro (x : Memory); subst x)
    | (lift_lets; intro (x : Flash); subst x)
    | (lift_lets; intro (x : State → State × Nat × Nat); subst x)
    | (lift_lets; intro (x : State → State); subst x)
    | (lift_lets; intro (x : State → State × Result); subst x)
    | (lift_lets; intro x; clear_value x)
    | dsimp only [Keeps]
    | split

theorem failRun_keeps {s0 s : State} {a0} (h : Keeps s0 s) : Keeps s0 (failRun a0 s) := by
  unfold failRun
  repeat' first
    | with_reducible assumption
    | with_reducible apply freeFresh_keeps
    | with_reducible apply addressError_keeps
    | with_reducible apply traceTask_keeps
    | with_reducible apply setTask_keeps
    | with_reducible apply Keeps.ite
    | (lift_lets; intro x; refine Keeps.cut (s := s0) (x := x) ?_ ?_; rotate_left; intro hx; clear_value x; rotate_left; subst x)
    | (lift_lets; intro (x : Memory); subst x)
    | (lift_lets; intro (x : Flash); subst x)
    | (lift_lets; intro (x : State → State × Nat × Nat); subst x)
    | (lift_lets; intro (x : State → State); subst x)
    | (lift_lets; intro (x : State → State × Result); subst x)
    | (lift_lets; intro x; clear_value x)
    | dsimp only [Keeps]
    | split

theorem touchCells_keeps {s0 s : State} {a0} (h : Keeps s0 s) : Keeps s0 (touchCells a0 s) := by
  unfold touchCells
  repeat' first
    | with_reducible assumption
    | with_reducible apply touch_keeps
    | (with_reducible refine Keeps.foldl ?_ (fun t x h => ?_))
    | (with_reducible refine Keeps.foldlFst ?_ (fun t x h => ?_))
    | (with_reducible refine Keeps.foldlSnd ?_ (fun t x h => ?_))
    | with_reducible apply Keeps.ite
    | dsimp only [Keeps]
    | split

theorem writeCells_keeps {s0 s : State} {a0} (h : Keeps s0 s) : Keeps s0 (writeCells a0 s) := by
  unfold writeCells
  repeat' first
    | with_reducible assumption
    | with_reducible apply Keeps.ite
    | with_reducible apply KeepsParts.applyCells
    | dsimp only [Keeps]
    | split

theorem finishChunk_keeps {s0 s : State} {a0 a1} (h : Keeps s0 s) : Keeps s0 (finishChunk a0 a1 s) := by
  unfold finishChunk
  repeat' first
    | with_reducible assumption
    | with_reducible apply setJournal_keeps
    | with_reducible apply writeCells_keeps
    | with_reducible apply Keeps.ite
    | (lift_lets; intro x; refine Keeps.cut (s := s0) (x := x) ?_ ?_; rotate_left; intro hx; clear_value x; rotate_left; subst x)
    | (lift_lets; intro (x : Memory); subst x)
    | (lift_lets; intro (x : Flash); subst x)
    | (lift_lets; intro (x : State → State × Nat × Nat); subst x)
    | (lift_lets; intro (x : State → State); subst x)
    | (lift_lets; intro (x : State → State × Result); subst x)
    | (lift_lets; intro x; clear_value x)
    | dsimp only [Keeps]
    | split

theorem journalChunk_keeps {s0 s : State} {a0 a1 a2 a3} (h : Keeps s0 s) : Keeps s0 (journalChunk a0 a1 a2 a3 s) := by
  unfold journalChunk
  repeat' first
    | with_reducible assumption
    | with_reducible apply setJournal_keeps
    | with_reducible apply Keeps.ite
    | (lift_lets; intro x; refine Keeps.cut (s := s0) (x := x) ?_ ?_; rotate_left; intro hx; clear_value x; rotate_left; subst x)
    | (lift_lets; intro (x : Memory); subst x)
    | (lift_lets; intro (x : Flash); subst x)
    | (lift_lets; intro (x : State → State × Nat × Nat); subst x)
    | (lift_lets; intro (x : State → State); subst x)
    | (lift_lets; intro (x : State → State × Result); subst x)
    | (lift_lets; intro x; clear_value x)
    | dsimp only [Keeps]
    | split

theorem layOutput_keeps {s0 s : State} {a0} (h : Keeps s0 s) : Keeps s0 (layOutput a0 s) := by
  unfold layOutput
  repeat' first
    | with_reducible assumption
    | with_reducible apply writePoison_keeps
    | with_reducible apply writeCells_keeps
    | with_reducible apply layCells_keeps
    | (with_reducible refine Keeps.foldl ?_ (fun t x h => ?_))
    | (with_reducible refine Keeps.foldlFst ?_ (fun t x h => ?_))
    | (with_reducible refine Keeps.foldlSnd ?_ (fun t x h => ?_))
    | with_reducible apply Keeps.ite
    | (lift_lets; intro x; refine Keeps.cut (s := s0) (x := x) ?_ ?_; rotate_left; intro hx; clear_value x; rotate_left; subst x)
    | (lift_lets; intro (x : Memory); subst x)
    | (lift_lets; intro (x : Flash); subst x)
    | (lift_lets; intro (x : State → State × Nat × Nat); subst x)
    | (lift_lets; intro (x : State → State); subst x)
    | (lift_lets; intro (x : State → State × Result); subst x)
    | (lift_lets; intro x; clear_value x)
    | dsimp only [Keeps]
    | split

theorem publish_keeps {s0 s : State} {a0} (h : Keeps s0 s) : Keeps s0 (publish a0 s) := by
  unfold publish
  repeat' first
    | with_reducible assumption
    | with_reducible apply layOutput_keeps
    | with_reducible apply flipFresh_keeps
    | with_reducible apply dropJournal_keeps
    | with_reducible apply setTask_keeps
    | with_reducible apply countWork_keeps
    | with_reducible apply findings_keeps
    | with_reducible apply offerCandidate_keeps
    | with_reducible apply sealSegment_keeps
    | with_reducible apply traceTask_keeps
    | (with_reducible refine Keeps.foldl ?_ (fun t x h => ?_))
    | (with_reducible refine Keeps.foldlFst ?_ (fun t x h => ?_))
    | (with_reducible refine Keeps.foldlSnd ?_ (fun t x h => ?_))
    | with_reducible apply Keeps.ite
    | (lift_lets; intro x; refine Keeps.cut (s := s0) (x := x) ?_ ?_; rotate_left; intro hx; clear_value x; rotate_left; subst x)
    | (lift_lets; intro (x : Memory); subst x)
    | (lift_lets; intro (x : Flash); subst x)
    | (lift_lets; intro (x : State → State × Nat × Nat); subst x)
    | (lift_lets; intro (x : State → State); subst x)
    | (lift_lets; intro (x : State → State × Result); subst x)
    | (lift_lets; intro x; clear_value x)
    | dsimp only [Keeps]
    | split

theorem endSolve_keeps {s0 s : State} {a0} (h : Keeps s0 s) : Keeps s0 (endSolve a0 s) := by
  unfold endSolve
  repeat' first
    | with_reducible assumption
    | with_reducible apply publish_keeps
    | with_reducible apply setTask_keeps
    | with_reducible apply Keeps.ite
    | (lift_lets; intro x; refine Keeps.cut (s := s0) (x := x) ?_ ?_; rotate_left; intro hx; clear_value x; rotate_left; subst x)
    | (lift_lets; intro (x : Memory); subst x)
    | (lift_lets; intro (x : Flash); subst x)
    | (lift_lets; intro (x : State → State × Nat × Nat); subst x)
    | (lift_lets; intro (x : State → State); subst x)
    | (lift_lets; intro (x : State → State × Result); subst x)
    | (lift_lets; intro x; clear_value x)
    | dsimp only [Keeps]
    | split

theorem endSolves_keeps {s0 s : State} (h : Keeps s0 s) : Keeps s0 (endSolves s) := by
  unfold endSolves
  repeat' first
    | with_reducible assumption
    | with_reducible apply endSolve_keeps
    | (with_reducible refine Keeps.foldl ?_ (fun t x h => ?_))
    | (with_reducible refine Keeps.foldlFst ?_ (fun t x h => ?_))
    | (with_reducible refine Keeps.foldlSnd ?_ (fun t x h => ?_))
    | with_reducible apply Keeps.ite
    | dsimp only [Keeps]
    | split

theorem completeAtOnce_keeps {s0 s : State} {a0} (h : Keeps s0 s) : Keeps s0 (completeAtOnce a0 s) := by
  unfold completeAtOnce
  repeat' first
    | with_reducible assumption
    | with_reducible apply setTask_keeps
    | with_reducible apply Keeps.ite
    | (lift_lets; intro x; refine Keeps.cut (s := s0) (x := x) ?_ ?_; rotate_left; intro hx; clear_value x; rotate_left; subst x)
    | (lift_lets; intro (x : Memory); subst x)
    | (lift_lets; intro (x : Flash); subst x)
    | (lift_lets; intro (x : State → State × Nat × Nat); subst x)
    | (lift_lets; intro (x : State → State); subst x)
    | (lift_lets; intro (x : State → State × Result); subst x)
    | (lift_lets; intro x; clear_value x)
    | dsimp only [Keeps]
    | split

theorem countDiscarded_keeps {s0 s : State} {a0} (h : Keeps s0 s) : Keeps s0 (countDiscarded a0 s) := by
  unfold countDiscarded
  repeat' first
    | with_reducible assumption
    | with_reducible apply countAs_keeps
    | (with_reducible refine Keeps.foldl ?_ (fun t x h => ?_))
    | (with_reducible refine Keeps.foldlFst ?_ (fun t x h => ?_))
    | (with_reducible refine Keeps.foldlSnd ?_ (fun t x h => ?_))
    | with_reducible apply Keeps.ite
    | (lift_lets; intro x; refine Keeps.cut (s := s0) (x := x) ?_ ?_; rotate_left; intro hx; clear_value x; rotate_left; subst x)
    | (lift_lets; intro (x : Memory); subst x)
    | (lift_lets; intro (x : Flash); subst x)
    | (lift_lets; intro (x : State → State × Nat × Nat); subst x)
    | (lift_lets; intro (x : State → State); subst x)
    | (lift_lets; intro (x : State → State × Result); subst x)
    | (lift_lets; intro x; clear_value x)
    | dsimp only [Keeps]
    | split

theorem discardRuns_keeps {s0 s : State} {a0 a1} (h : Keeps s0 s) : Keeps s0 (discardRuns a0 a1 s) := by
  unfold discardRuns
  repeat' first
    | with_reducible assumption
    | with_reducible apply freeFresh_keeps
    | with_reducible apply countDiscarded_keeps
    | with_reducible apply traceTask_keeps
    | (with_reducible refine Keeps.foldl ?_ (fun t x h => ?_))
    | (with_reducible refine Keeps.foldlFst ?_ (fun t x h => ?_))
    | (with_reducible refine Keeps.foldlSnd ?_ (fun t x h => ?_))
    | with_reducible apply Keeps.ite
    | (lift_lets; intro x; refine Keeps.cut (s := s0) (x := x) ?_ ?_; rotate_left; intro hx; clear_value x; rotate_left; subst x)
    | (lift_lets; intro (x : Memory); subst x)
    | (lift_lets; intro (x : Flash); subst x)
    | (lift_lets; intro (x : State → State × Nat × Nat); subst x)
    | (lift_lets; intro (x : State → State); subst x)
    | (lift_lets; intro (x : State → State × Result); subst x)
    | (lift_lets; intro x; clear_value x)
    | dsimp only [Keeps]
    | split

theorem forgetRuns_keeps {s0 s : State} {a0} (h : Keeps s0 s) : Keeps s0 (forgetRuns a0 s) := by
  unfold forgetRuns
  repeat' first
    | with_reducible assumption
    | with_reducible apply Keeps.ite
    | dsimp only [Keeps]
    | split

end Sys2Proof.Laws
end

