-- ==== Sys2Proof/Laws/KeepsPlace.lean ====
section
/-!
SUPPORT. `Keeps` for the operations of Machine/Place.lean.
-/
namespace Sys2Proof.Laws

open Sys2Proof Sys2Proof.Machine

theorem sow_keeps {s0 s : State} (h : Keeps s0 s) : Keeps s0 (sow s) := by
  unfold sow
  repeat' first
    | with_reducible assumption
    | with_reducible apply selectMove_keeps
    | (with_reducible refine Keeps.foldl ?_ (fun t x h => ?_))
    | (with_reducible refine Keeps.foldlFst ?_ (fun t x h => ?_))
    | (with_reducible refine Keeps.foldlSnd ?_ (fun t x h => ?_))
    | with_reducible apply Keeps.ite
    | (lift_lets; intro x; refine Keeps.cut (s := s0) (x := x) ?_ ?_; rotate_left; intro hx; clear_value x; rotate_left; subst x)
    | (lift_lets; intro (x : Memory); subst x)
    | (lift_lets; intro (x : Flash); subst x)
    | (lift_lets; intro (x : State → State × Nat × Nat); subst x)
    | (lift_lets; intro (x : State → State); subst x)
    | (lift_lets; intro (x : State → State × Result); subst x)
    | (lift_lets; intro x; clear_value x)
    | dsimp only [Keeps]
    | split

theorem decayHeat_keeps {s0 s : State} (h : Keeps s0 s) : Keeps s0 (decayHeat s) := by
  unfold decayHeat
  repeat' first
    | with_reducible assumption
    | (with_reducible refine Keeps.foldl ?_ (fun t x h => ?_))
    | (with_reducible refine Keeps.foldlFst ?_ (fun t x h => ?_))
    | (with_reducible refine Keeps.foldlSnd ?_ (fun t x h => ?_))
    | with_reducible apply Keeps.ite
    | dsimp only [Keeps]
    | split

theorem rotateRegion_keeps {s0 s : State} {a0 a1 a2} (h : Keeps s0 s) : Keeps s0 (rotateRegion a0 a1 a2 s) := by
  induction a2 generalizing s a0 a1 with
  | zero =>
    rw [rotateRegion]
    repeat' first
      | with_reducible assumption
      | with_reducible apply ih
      | with_reducible apply Keeps.ite
      | dsimp only [Keeps]
      | split
  | succ n ih =>
    rw [rotateRegion]
    repeat' first
      | with_reducible assumption
      | with_reducible apply ih
      | with_reducible apply Keeps.ite
      | dsimp only [Keeps]
      | split

theorem rotationSelect_keeps {s0 s : State} (h : Keeps s0 s) : Keeps s0 (rotationSelect s) := by
  unfold rotationSelect
  repeat' first
    | with_reducible assumption
    | with_reducible apply rotateRegion_keeps
    | (with_reducible refine Keeps.foldl ?_ (fun t x h => ?_))
    | (with_reducible refine Keeps.foldlFst ?_ (fun t x h => ?_))
    | (with_reducible refine Keeps.foldlSnd ?_ (fun t x h => ?_))
    | with_reducible apply Keeps.ite
    | (lift_lets; intro x; refine Keeps.cut (s := s0) (x := x) ?_ ?_; rotate_left; intro hx; clear_value x; rotate_left; subst x)
    | (lift_lets; intro (x : Memory); subst x)
    | (lift_lets; intro (x : Flash); subst x)
    | (lift_lets; intro (x : State → State × Nat × Nat); subst x)
    | (lift_lets; intro (x : State → State); subst x)
    | (lift_lets; intro (x : State → State × Result); subst x)
    | (lift_lets; intro x; clear_value x)
    | dsimp only [Keeps]
    | split

theorem abandonMove_keeps {s0 s : State} {a0} (h : Keeps s0 s) : Keeps s0 (abandonMove a0 s) := by
  unfold abandonMove
  repeat' first
    | with_reducible assumption
    | with_reducible apply setPage_keeps
    | with_reducible apply repin_keeps
    | with_reducible apply selectMove_keeps
    | with_reducible apply Keeps.ite
    | (lift_lets; intro x; refine Keeps.cut (s := s0) (x := x) ?_ ?_; rotate_left; intro hx; clear_value x; rotate_left; subst x)
    | (lift_lets; intro (x : Memory); subst x)
    | (lift_lets; intro (x : Flash); subst x)
    | (lift_lets; intro (x : State → State × Nat × Nat); subst x)
    | (lift_lets; intro (x : State → State); subst x)
    | (lift_lets; intro (x : State → State × Result); subst x)
    | (lift_lets; intro x; clear_value x)
    | dsimp only [Keeps]
    | split

theorem stopMoves_keeps {s0 s : State} (h : Keeps s0 s) : Keeps s0 (stopMoves s) := by
  unfold stopMoves
  repeat' first
    | with_reducible assumption
    | with_reducible apply freeSource_keeps
    | with_reducible apply abandonMove_keeps
    | (with_reducible refine Keeps.foldl ?_ (fun t x h => ?_))
    | (with_reducible refine Keeps.foldlFst ?_ (fun t x h => ?_))
    | (with_reducible refine Keeps.foldlSnd ?_ (fun t x h => ?_))
    | with_reducible apply Keeps.ite
    | dsimp only [Keeps]
    | split

theorem dropSelected_keeps {s0 s : State} {a0} (h : Keeps s0 s) : Keeps s0 (dropSelected a0 s) := by
  unfold dropSelected
  repeat' first
    | with_reducible assumption
    | with_reducible apply Keeps.ite
    | dsimp only [Keeps]
    | split

theorem retireFrame_keeps {s0 s : State} {a0 a1 a2} (h : Keeps s0 s) : Keeps s0 (retireFrame a0 a1 a2 s) := by
  unfold retireFrame
  split
  · exact h
  · lift_lets
    intro page same other f m u stuck
    have hu : Keeps s0 u := by
      refine ⟨h.1, h.2.1, h.2.2.trans ⟨rfl, rfl, rfl, fun x hx => ?_, fun _ => Nat.le_refl _⟩⟩
      show x ∈ (if _ then _ else _)
      split
      · exact List.mem_append_left _ hx
      · exact hx
    clear_value u f m stuck
    clear_value page same other
    intro v
    have hv : Keeps s0 v := by
      dsimp only [v]
      repeat' first
        | with_reducible assumption
        | with_reducible apply selectMove_keeps
        | with_reducible apply setPage_keeps
        | with_reducible apply Keeps.ite
        | split
    clear_value v
    intro bound w
    exact raise_keeps (trace_keeps (Keeps.foldl hv fun t x h => abandonMove_keeps h))

end Sys2Proof.Laws
end

