-- ==== Sys2Proof/Laws/KeepsHead.lean ====
section
/-!
SUPPORT. `Keeps` for the operations of Machine/Head.lean.
-/
namespace Sys2Proof.Laws

open Sys2Proof Sys2Proof.Machine

theorem positionTrigger_keeps {s0 s : State} (h : Keeps s0 s) : Keeps s0 (positionTrigger s) := by
  unfold positionTrigger
  repeat' first
    | with_reducible assumption
    | with_reducible apply sheafTrigger_keeps
    | with_reducible apply Keeps.ite
    | dsimp only [Keeps]
    | split

theorem setHead_keeps {s0 s : State} {a0} (h : Keeps s0 s) : Keeps s0 (setHead a0 s) := by
  unfold setHead
  repeat' first
    | with_reducible assumption
    | with_reducible apply createStep_keeps
    | with_reducible apply positionTrigger_keeps
    | with_reducible apply markGates_keeps
    | with_reducible apply sow_keeps
    | with_reducible apply Keeps.ite
    | (lift_lets; intro x; refine Keeps.cut (s := s0) (x := x) ?_ ?_; rotate_left; intro hx; clear_value x; rotate_left; subst x)
    | (lift_lets; intro (x : Memory); subst x)
    | (lift_lets; intro (x : Flash); subst x)
    | (lift_lets; intro (x : State → State × Nat × Nat); subst x)
    | (lift_lets; intro (x : State → State); subst x)
    | (lift_lets; intro (x : State → State × Result); subst x)
    | (lift_lets; intro x; clear_value x)
    | dsimp only [Keeps]
    | split

theorem reportFront_keeps {s0 s : State} (h : Keeps s0 s) : Keeps s0 (reportFront s) := by
  unfold reportFront
  repeat' first
    | with_reducible assumption
    | with_reducible apply sendHedge_keeps
    | with_reducible apply Keeps.ite
    | (lift_lets; intro x; refine Keeps.cut (s := s0) (x := x) ?_ ?_; rotate_left; intro hx; clear_value x; rotate_left; subst x)
    | (lift_lets; intro (x : Memory); subst x)
    | (lift_lets; intro (x : Flash); subst x)
    | (lift_lets; intro (x : State → State × Nat × Nat); subst x)
    | (lift_lets; intro (x : State → State); subst x)
    | (lift_lets; intro (x : State → State × Result); subst x)
    | (lift_lets; intro x; clear_value x)
    | dsimp only [Keeps]
    | split

theorem advanceHead_keeps {s0 s : State} (h : Keeps s0 s) : Keeps s0 (advanceHead s) := by
  unfold advanceHead
  repeat' first
    | with_reducible assumption
    | with_reducible apply sendHedge_keeps
    | with_reducible apply setHead_keeps
    | with_reducible apply Keeps.ite
    | (lift_lets; intro x; refine Keeps.cut (s := s0) (x := x) ?_ ?_; rotate_left; intro hx; clear_value x; rotate_left; subst x)
    | (lift_lets; intro (x : Memory); subst x)
    | (lift_lets; intro (x : Flash); subst x)
    | (lift_lets; intro (x : State → State × Nat × Nat); subst x)
    | (lift_lets; intro (x : State → State); subst x)
    | (lift_lets; intro (x : State → State × Result); subst x)
    | (lift_lets; intro x; clear_value x)
    | dsimp only [Keeps]
    | split

theorem advanceSeedbed_keeps {s0 s : State} (h : Keeps s0 s) : Keeps s0 (advanceSeedbed s) := by
  unfold advanceSeedbed
  repeat' first
    | with_reducible assumption
    | with_reducible apply sow_keeps
    | with_reducible apply Keeps.ite
    | (lift_lets; intro x; refine Keeps.cut (s := s0) (x := x) ?_ ?_; rotate_left; intro hx; clear_value x; rotate_left; subst x)
    | (lift_lets; intro (x : Memory); subst x)
    | (lift_lets; intro (x : Flash); subst x)
    | (lift_lets; intro (x : State → State × Nat × Nat); subst x)
    | (lift_lets; intro (x : State → State); subst x)
    | (lift_lets; intro (x : State → State × Result); subst x)
    | (lift_lets; intro x; clear_value x)
    | dsimp only [Keeps]
    | split

theorem openSeedbed_keeps {s0 s : State} (h : Keeps s0 s) : Keeps s0 (openSeedbed s) := by
  unfold openSeedbed
  repeat' first
    | with_reducible assumption
    | with_reducible apply sow_keeps
    | with_reducible apply createStep_keeps
    | with_reducible apply Keeps.ite
    | (lift_lets; intro x; refine Keeps.cut (s := s0) (x := x) ?_ ?_; rotate_left; intro hx; clear_value x; rotate_left; subst x)
    | (lift_lets; intro (x : Memory); subst x)
    | (lift_lets; intro (x : Flash); subst x)
    | (lift_lets; intro (x : State → State × Nat × Nat); subst x)
    | (lift_lets; intro (x : State → State); subst x)
    | (lift_lets; intro (x : State → State × Result); subst x)
    | (lift_lets; intro x; clear_value x)
    | dsimp only [Keeps]
    | split

theorem settleHead_keeps {s0 s : State} {a0} (h : Keeps s0 s) : Keeps s0 (settleHead a0 s) := by
  induction a0 generalizing s with
  | zero =>
    rw [settleHead]
    repeat' first
      | with_reducible assumption
      | with_reducible apply ih
      | with_reducible apply advanceHead_keeps
      | with_reducible apply reportFront_keeps
      | with_reducible apply advanceSeedbed_keeps
      | with_reducible apply Keeps.ite
      | dsimp only [Keeps]
      | split
  | succ n ih =>
    rw [settleHead]
    repeat' first
      | with_reducible assumption
      | with_reducible apply ih
      | with_reducible apply advanceHead_keeps
      | with_reducible apply reportFront_keeps
      | with_reducible apply advanceSeedbed_keeps
      | with_reducible apply Keeps.ite
      | dsimp only [Keeps]
      | split

theorem settle_keeps {s0 s : State} (h : Keeps s0 s) : Keeps s0 (settle s) := by
  unfold settle
  repeat' first
    | with_reducible assumption
    | with_reducible apply settleHead_keeps
    | with_reducible apply openSeedbed_keeps
    | with_reducible apply Keeps.ite
    | dsimp only [Keeps]
    | split

theorem writeStopMap_keeps {s0 s : State} {a0 a1 a2} (h : Keeps s0 s) : Keeps s0 (writeStopMap a0 a1 a2 s) := by
  unfold writeStopMap
  repeat' first
    | with_reducible assumption
    | with_reducible apply raise_keeps
    | with_reducible apply Keeps.ite
    | (lift_lets; intro x; refine Keeps.cut (s := s0) (x := x) ?_ ?_; rotate_left; intro hx; clear_value x; rotate_left; subst x)
    | (lift_lets; intro (x : Memory); subst x)
    | (lift_lets; intro (x : Flash); subst x)
    | (lift_lets; intro (x : State → State × Nat × Nat); subst x)
    | (lift_lets; intro (x : State → State); subst x)
    | (lift_lets; intro (x : State → State × Result); subst x)
    | (lift_lets; intro x; clear_value x)
    | dsimp only [Keeps]
    | split

theorem acknowledge_keeps {s0 s : State} {a0 a1 a2} (h : Keeps s0 s) : Keeps s0 (acknowledge a0 a1 a2 s) := by
  unfold acknowledge
  repeat' first
    | with_reducible assumption
    | with_reducible apply sendHedge_keeps
    | with_reducible apply Keeps.ite
    | dsimp only [Keeps]
    | split

theorem stopsComplete_keeps {s0 s : State} (h : Keeps s0 s) : Keeps s0 (stopsComplete s) := by
  unfold stopsComplete
  repeat' first
    | with_reducible assumption
    | with_reducible apply finishJobs_keeps
    | with_reducible apply sendHedge_keeps
    | with_reducible apply Keeps.ite
    | (lift_lets; intro x; refine Keeps.cut (s := s0) (x := x) ?_ ?_; rotate_left; intro hx; clear_value x; rotate_left; subst x)
    | (lift_lets; intro (x : Memory); subst x)
    | (lift_lets; intro (x : Flash); subst x)
    | (lift_lets; intro (x : State → State × Nat × Nat); subst x)
    | (lift_lets; intro (x : State → State); subst x)
    | (lift_lets; intro (x : State → State × Result); subst x)
    | (lift_lets; intro x; clear_value x)
    | dsimp only [Keeps]
    | split

theorem abandonStarted_keeps {s0 s : State} (h : Keeps s0 s) : Keeps s0 (abandonStarted s) := by
  unfold abandonStarted
  repeat' first
    | with_reducible assumption
    | with_reducible apply discardRuns_keeps
    | with_reducible apply Keeps.ite
    | (lift_lets; intro x; refine Keeps.cut (s := s0) (x := x) ?_ ?_; rotate_left; intro hx; clear_value x; rotate_left; subst x)
    | (lift_lets; intro (x : Memory); subst x)
    | (lift_lets; intro (x : Flash); subst x)
    | (lift_lets; intro (x : State → State × Nat × Nat); subst x)
    | (lift_lets; intro (x : State → State); subst x)
    | (lift_lets; intro (x : State → State × Result); subst x)
    | (lift_lets; intro x; clear_value x)
    | dsimp only [Keeps]
    | split

theorem shareVote_keeps {s0 s : State} (h : Keeps s0 s) : Keeps s0 (shareVote s) := by
  unfold shareVote
  repeat' first
    | with_reducible assumption
    | with_reducible apply sendHedge_keeps
    | with_reducible apply Keeps.ite
    | dsimp only [Keeps]
    | split

theorem haltSmear_keeps {s0 s : State} {a0} (h : Keeps s0 s) : Keeps s0 (haltSmear a0 s) := by
  unfold haltSmear
  repeat' first
    | with_reducible assumption
    | with_reducible apply writeStopMap_keeps
    | with_reducible apply abandonStarted_keeps
    | with_reducible apply shareVote_keeps
    | with_reducible apply stopMoves_keeps
    | with_reducible apply finishJobs_keeps
    | with_reducible apply stopsComplete_keeps
    | with_reducible apply acknowledge_keeps
    | with_reducible apply Keeps.ite
    | (lift_lets; intro x; refine Keeps.cut (s := s0) (x := x) ?_ ?_; rotate_left; intro hx; clear_value x; rotate_left; subst x)
    | (lift_lets; intro (x : Memory); subst x)
    | (lift_lets; intro (x : Flash); subst x)
    | (lift_lets; intro (x : State → State × Nat × Nat); subst x)
    | (lift_lets; intro (x : State → State); subst x)
    | (lift_lets; intro (x : State → State × Result); subst x)
    | (lift_lets; intro x; clear_value x)
    | dsimp only [Keeps]
    | split

theorem cutSeedbed_keeps {s0 s : State} {a0} (h : Keeps s0 s) : Keeps s0 (cutSeedbed a0 s) := by
  unfold cutSeedbed
  repeat' first
    | with_reducible assumption
    | with_reducible apply discardRuns_keeps
    | with_reducible apply findings_keeps
    | (with_reducible refine Keeps.foldl ?_ (fun t x h => ?_))
    | (with_reducible refine Keeps.foldlFst ?_ (fun t x h => ?_))
    | (with_reducible refine Keeps.foldlSnd ?_ (fun t x h => ?_))
    | with_reducible apply Keeps.ite
    | (lift_lets; intro x; refine Keeps.cut (s := s0) (x := x) ?_ ?_; rotate_left; intro hx; clear_value x; rotate_left; subst x)
    | (lift_lets; intro (x : Memory); subst x)
    | (lift_lets; intro (x : Flash); subst x)
    | (lift_lets; intro (x : State → State × Nat × Nat); subst x)
    | (lift_lets; intro (x : State → State); subst x)
    | (lift_lets; intro (x : State → State × Result); subst x)
    | (lift_lets; intro x; clear_value x)
    | dsimp only [Keeps]
    | split

theorem applyStop_keeps {s0 s : State} {a0} (h : Keeps s0 s) : Keeps s0 (applyStop a0 s) := by
  unfold applyStop
  repeat' first
    | with_reducible assumption
    | with_reducible apply haltSmear_keeps
    | with_reducible apply cutSeedbed_keeps
    | with_reducible apply Keeps.ite
    | (lift_lets; intro x; refine Keeps.cut (s := s0) (x := x) ?_ ?_; rotate_left; intro hx; clear_value x; rotate_left; subst x)
    | (lift_lets; intro (x : Memory); subst x)
    | (lift_lets; intro (x : Flash); subst x)
    | (lift_lets; intro (x : State → State × Nat × Nat); subst x)
    | (lift_lets; intro (x : State → State); subst x)
    | (lift_lets; intro (x : State → State × Result); subst x)
    | (lift_lets; intro x; clear_value x)
    | dsimp only [Keeps]
    | split

theorem orderStop_keeps {s0 s : State} {a0} (h : Keeps s0 s) : Keeps s0 (orderStop a0 s) := by
  unfold orderStop
  repeat' first
    | with_reducible assumption
    | with_reducible apply applyStop_keeps
    | with_reducible apply sendHedge_keeps
    | with_reducible apply Keeps.ite
    | (lift_lets; intro x; refine Keeps.cut (s := s0) (x := x) ?_ ?_; rotate_left; intro hx; clear_value x; rotate_left; subst x)
    | (lift_lets; intro (x : Memory); subst x)
    | (lift_lets; intro (x : Flash); subst x)
    | (lift_lets; intro (x : State → State × Nat × Nat); subst x)
    | (lift_lets; intro (x : State → State); subst x)
    | (lift_lets; intro (x : State → State × Result); subst x)
    | (lift_lets; intro x; clear_value x)
    | dsimp only [Keeps]
    | split

end Sys2Proof.Laws
end

