-- ==== Sys2Proof/Laws/KeepsRegroup.lean ====
section
/-!
SUPPORT. `Keeps` for the operations of Machine/Regroup.lean.
-/
namespace Sys2Proof.Laws

open Sys2Proof Sys2Proof.Machine

theorem recordSeqs_keeps {s0 s : State} {a0} (h : Keeps s0 s) : Keeps s0 (recordSeqs a0 s) := by
  unfold recordSeqs
  repeat' first
    | with_reducible assumption
    | with_reducible apply mapGroups_keeps
    | with_reducible apply Keeps.ite
    | dsimp only [Keeps]
    | split

theorem restoreSeqs_keeps {s0 s : State} (h : Keeps s0 s) : Keeps s0 (restoreSeqs s) := by
  unfold restoreSeqs
  repeat' first
    | with_reducible assumption
    | with_reducible apply mapGroups_keeps
    | with_reducible apply Keeps.ite
    | dsimp only [Keeps]
    | split

theorem renumber_keeps {s0 s : State} {a0} (h : Keeps s0 s) : Keeps s0 (renumber a0 s) := by
  unfold renumber
  repeat' first
    | with_reducible assumption
    | with_reducible apply giveSeqs_keeps
    | (with_reducible refine giveSeqs_keeps_eq ?_ (by with_reducible assumption))
    | with_reducible apply mapGroups_keeps
    | (with_reducible refine Keeps.foldl ?_ (fun t x h => ?_))
    | (with_reducible refine Keeps.foldlFst ?_ (fun t x h => ?_))
    | (with_reducible refine Keeps.foldlSnd ?_ (fun t x h => ?_))
    | with_reducible apply Keeps.ite
    | (lift_lets; intro x; refine Keeps.cut (s := s0) (x := x) ?_ ?_; rotate_left; intro hx; clear_value x; rotate_left; subst x)
    | (lift_lets; intro (x : Memory); subst x)
    | (lift_lets; intro (x : Flash); subst x)
    | (lift_lets; intro (x : State → State × Nat × Nat); subst x)
    | (lift_lets; intro (x : State → State); subst x)
    | (lift_lets; intro (x : State → State × Result); subst x)
    | (lift_lets; intro x; clear_value x)
    | dsimp only [Keeps]
    | split

theorem installGroup_keeps {s0 s : State} {a0 a1} (h : Keeps s0 s) : Keeps s0 (installGroup a0 a1 s) := by
  unfold installGroup
  repeat' first
    | with_reducible assumption
    | with_reducible apply renumber_keeps
    | with_reducible apply Keeps.ite
    | (lift_lets; intro x; refine Keeps.cut (s := s0) (x := x) ?_ ?_; rotate_left; intro hx; clear_value x; rotate_left; subst x)
    | (lift_lets; intro (x : Memory); subst x)
    | (lift_lets; intro (x : Flash); subst x)
    | (lift_lets; intro (x : State → State × Nat × Nat); subst x)
    | (lift_lets; intro (x : State → State); subst x)
    | (lift_lets; intro (x : State → State × Result); subst x)
    | (lift_lets; intro x; clear_value x)
    | dsimp only [Keeps]
    | split

theorem sendDefinition_keeps {s0 s : State} {a0 a1 a2} (h : Keeps s0 s) : Keeps s0 (sendDefinition a0 a1 a2 s) := by
  unfold sendDefinition
  repeat' first
    | with_reducible assumption
    | with_reducible apply sendHedge_keeps
    | (with_reducible refine Keeps.foldl ?_ (fun t x h => ?_))
    | (with_reducible refine Keeps.foldlFst ?_ (fun t x h => ?_))
    | (with_reducible refine Keeps.foldlSnd ?_ (fun t x h => ?_))
    | with_reducible apply Keeps.ite
    | dsimp only [Keeps]
    | split

theorem spreadGroup_keeps {s0 s : State} {a0 a1} (h : Keeps s0 s) : Keeps s0 (spreadGroup a0 a1 s).1 := by
  unfold spreadGroup
  repeat' first
    | with_reducible assumption
    | with_reducible apply sendDefinition_keeps
    | with_reducible apply installGroup_keeps
    | (with_reducible refine Keeps.foldl ?_ (fun t x h => ?_))
    | (with_reducible refine Keeps.foldlFst ?_ (fun t x h => ?_))
    | (with_reducible refine Keeps.foldlSnd ?_ (fun t x h => ?_))
    | with_reducible apply Keeps.ite
    | (lift_lets; intro x; refine Keeps.cut (s := s0) (x := x) ?_ ?_; rotate_left; intro hx; clear_value x; rotate_left; subst x)
    | (lift_lets; intro (x : Memory); subst x)
    | (lift_lets; intro (x : Flash); subst x)
    | (lift_lets; intro (x : State → State × Nat × Nat); subst x)
    | (lift_lets; intro (x : State → State); subst x)
    | (lift_lets; intro (x : State → State × Result); subst x)
    | (lift_lets; intro x; clear_value x)
    | dsimp only [Keeps]
    | split

theorem spreadGroup_keeps_eq {s0 s : State} {a0 a1} (h : Keeps s0 s) {t u} (e : spreadGroup a0 a1 s = (t, u)) : Keeps s0 t := by
  have k : Keeps s0 (spreadGroup a0 a1 s).1 := spreadGroup_keeps h 
  rw [e] at k; exact k

theorem reformOne_keeps {s0 s : State} {a0 a1 a2} (h : Keeps s0 s) : Keeps s0 (reformOne a0 a1 a2 s) := by
  unfold reformOne
  repeat' first
    | with_reducible assumption
    | with_reducible apply raise_keeps
    | with_reducible apply spreadGroup_keeps
    | (with_reducible refine spreadGroup_keeps_eq ?_ (by with_reducible assumption))
    | with_reducible apply Keeps.ite
    | (lift_lets; intro x; refine Keeps.cut (s := s0) (x := x) ?_ ?_; rotate_left; intro hx; clear_value x; rotate_left; subst x)
    | (lift_lets; intro (x : Memory); subst x)
    | (lift_lets; intro (x : Flash); subst x)
    | (lift_lets; intro (x : State → State × Nat × Nat); subst x)
    | (lift_lets; intro (x : State → State); subst x)
    | (lift_lets; intro (x : State → State × Result); subst x)
    | (lift_lets; intro x; clear_value x)
    | dsimp only [Keeps]
    | split

theorem reportReformed_keeps {s0 s : State} (h : Keeps s0 s) : Keeps s0 (reportReformed s) := by
  unfold reportReformed
  repeat' first
    | with_reducible assumption
    | with_reducible apply sendHedge_keeps
    | with_reducible apply Keeps.ite
    | dsimp only [Keeps]
    | split

theorem reformLost_keeps {s0 s : State} (h : Keeps s0 s) : Keeps s0 (reformLost s) := by
  unfold reformLost
  repeat' first
    | with_reducible assumption
    | with_reducible apply reportReformed_keeps
    | with_reducible apply reformOne_keeps
    | (with_reducible refine Keeps.foldl ?_ (fun t x h => ?_))
    | (with_reducible refine Keeps.foldlFst ?_ (fun t x h => ?_))
    | (with_reducible refine Keeps.foldlSnd ?_ (fun t x h => ?_))
    | with_reducible apply Keeps.ite
    | dsimp only [Keeps]
    | split

theorem noteUnformed_keeps {s0 s : State} {a0} (h : Keeps s0 s) : Keeps s0 (noteUnformed a0 s) := by
  unfold noteUnformed
  repeat' first
    | with_reducible assumption
    | (with_reducible refine Keeps.foldl ?_ (fun t x h => ?_))
    | (with_reducible refine Keeps.foldlFst ?_ (fun t x h => ?_))
    | (with_reducible refine Keeps.foldlSnd ?_ (fun t x h => ?_))
    | with_reducible apply Keeps.ite
    | (lift_lets; intro x; refine Keeps.cut (s := s0) (x := x) ?_ ?_; rotate_left; intro hx; clear_value x; rotate_left; subst x)
    | (lift_lets; intro (x : Memory); subst x)
    | (lift_lets; intro (x : Flash); subst x)
    | (lift_lets; intro (x : State → State × Nat × Nat); subst x)
    | (lift_lets; intro (x : State → State); subst x)
    | (lift_lets; intro (x : State → State × Result); subst x)
    | (lift_lets; intro x; clear_value x)
    | dsimp only [Keeps]
    | split

theorem readmit_keeps {s0 s : State} {a0} (h : Keeps s0 s) : Keeps s0 (readmit a0 s) := by
  unfold readmit
  repeat' first
    | with_reducible assumption
    | with_reducible apply reformOne_keeps
    | (with_reducible refine Keeps.foldl ?_ (fun t x h => ?_))
    | (with_reducible refine Keeps.foldlFst ?_ (fun t x h => ?_))
    | (with_reducible refine Keeps.foldlSnd ?_ (fun t x h => ?_))
    | with_reducible apply Keeps.ite
    | dsimp only [Keeps]
    | split

end Sys2Proof.Laws
end

