-- ==== Sys2Proof/Laws/KeepsCommit.lean ====
section
/-!
SUPPORT. `Keeps` for the operations of Machine/Commit.lean.
-/
namespace Sys2Proof.Laws

open Sys2Proof Sys2Proof.Machine

theorem queueReport_keeps {s0 s : State} {a0 a1} (h : Keeps s0 s) : Keeps s0 (queueReport a0 a1 s) := by
  unfold queueReport
  repeat' first
    | with_reducible assumption
    | with_reducible apply setCompl_keeps
    | with_reducible apply Keeps.ite
    | (lift_lets; intro x; refine Keeps.cut (s := s0) (x := x) ?_ ?_; rotate_left; intro hx; clear_value x; rotate_left; subst x)
    | (lift_lets; intro (x : Memory); subst x)
    | (lift_lets; intro (x : Flash); subst x)
    | (lift_lets; intro (x : State → State × Nat × Nat); subst x)
    | (lift_lets; intro (x : State → State); subst x)
    | (lift_lets; intro (x : State → State × Result); subst x)
    | (lift_lets; intro x; clear_value x)
    | dsimp only [Keeps]
    | split

theorem traceCommit_keeps {s0 s : State} {a0 a1} (h : Keeps s0 s) : Keeps s0 (traceCommit a0 a1 s) := by
  unfold traceCommit
  repeat' first
    | with_reducible assumption
    | with_reducible apply trace_keeps
    | with_reducible apply Keeps.ite
    | dsimp only [Keeps]
    | split

theorem traceProgress_keeps {s0 s : State} {a0} (h : Keeps s0 s) : Keeps s0 (traceProgress a0 s) := by
  unfold traceProgress
  repeat' first
    | with_reducible assumption
    | with_reducible apply traceCommit_keeps
    | (with_reducible refine Keeps.foldl ?_ (fun t x h => ?_))
    | (with_reducible refine Keeps.foldlFst ?_ (fun t x h => ?_))
    | (with_reducible refine Keeps.foldlSnd ?_ (fun t x h => ?_))
    | with_reducible apply Keeps.ite
    | dsimp only [Keeps]
    | split

theorem keepVote_keeps {s0 s : State} {a0} (h : Keeps s0 s) : Keeps s0 (keepVote a0 s) := by
  unfold keepVote
  repeat' first
    | with_reducible assumption
    | with_reducible apply Keeps.ite
    | dsimp only [Keeps]
    | split

theorem openVote_keeps {s0 s : State} {a0 a1} (h : Keeps s0 s) : Keeps s0 (openVote a0 a1 s) := by
  unfold openVote
  repeat' first
    | with_reducible assumption
    | with_reducible apply Keeps.ite
    | dsimp only [Keeps]
    | split

theorem releaseSegment_keeps {s0 s : State} {a0} (h : Keeps s0 s) : Keeps s0 (releaseSegment a0 s) := by
  unfold releaseSegment
  repeat' first
    | with_reducible assumption
    | with_reducible apply Keeps.ite
    | (lift_lets; intro x; refine Keeps.cut (s := s0) (x := x) ?_ ?_; rotate_left; intro hx; clear_value x; rotate_left; subst x)
    | (lift_lets; intro (x : Memory); subst x)
    | (lift_lets; intro (x : Flash); subst x)
    | (lift_lets; intro (x : State → State × Nat × Nat); subst x)
    | (lift_lets; intro (x : State → State); subst x)
    | (lift_lets; intro (x : State → State × Result); subst x)
    | (lift_lets; intro x; clear_value x)
    | dsimp only [Keeps]
    | split

theorem releaseRetired_keeps {s0 s : State} (h : Keeps s0 s) : Keeps s0 (releaseRetired s) := by
  unfold releaseRetired
  repeat' first
    | with_reducible assumption
    | with_reducible apply releaseSegment_keeps
    | (with_reducible refine Keeps.foldl ?_ (fun t x h => ?_))
    | (with_reducible refine Keeps.foldlFst ?_ (fun t x h => ?_))
    | (with_reducible refine Keeps.foldlSnd ?_ (fun t x h => ?_))
    | with_reducible apply Keeps.ite
    | dsimp only [Keeps]
    | split

theorem retireAt_keeps {s0 s : State} {a0 a1} (h : Keeps s0 s) : Keeps s0 (retireAt a0 a1 s) := by
  unfold retireAt
  repeat' first
    | with_reducible assumption
    | with_reducible apply releaseRetired_keeps
    | with_reducible apply finishJobs_keeps
    | with_reducible apply Keeps.ite
    | (lift_lets; intro x; refine Keeps.cut (s := s0) (x := x) ?_ ?_; rotate_left; intro hx; clear_value x; rotate_left; subst x)
    | (lift_lets; intro (x : Memory); subst x)
    | (lift_lets; intro (x : Flash); subst x)
    | (lift_lets; intro (x : State → State × Nat × Nat); subst x)
    | (lift_lets; intro (x : State → State); subst x)
    | (lift_lets; intro (x : State → State × Result); subst x)
    | (lift_lets; intro x; clear_value x)
    | dsimp only [Keeps]
    | split

theorem applyEvaluation_keeps {s0 s : State} {a0 a1} (h : Keeps s0 s) : Keeps s0 (applyEvaluation a0 a1 s) := by
  unfold applyEvaluation
  repeat' first
    | with_reducible assumption
    | with_reducible apply createEval_keeps
    | (with_reducible refine Keeps.foldl ?_ (fun t x h => ?_))
    | (with_reducible refine Keeps.foldlFst ?_ (fun t x h => ?_))
    | (with_reducible refine Keeps.foldlSnd ?_ (fun t x h => ?_))
    | with_reducible apply Keeps.ite
    | (lift_lets; intro x; refine Keeps.cut (s := s0) (x := x) ?_ ?_; rotate_left; intro hx; clear_value x; rotate_left; subst x)
    | (lift_lets; intro (x : Memory); subst x)
    | (lift_lets; intro (x : Flash); subst x)
    | (lift_lets; intro (x : State → State × Nat × Nat); subst x)
    | (lift_lets; intro (x : State → State); subst x)
    | (lift_lets; intro (x : State → State × Result); subst x)
    | (lift_lets; intro x; clear_value x)
    | dsimp only [Keeps]
    | split

theorem applyMode_keeps {s0 s : State} {a0 a1 a2} (h : Keeps s0 s) : Keeps s0 (applyMode a0 a1 a2 s) := by
  unfold applyMode
  repeat' first
    | with_reducible assumption
    | with_reducible apply dropSelected_keeps
    | with_reducible apply record_keeps
    | with_reducible apply endSolves_keeps
    | with_reducible apply applyEvaluation_keeps
    | intro t h
    | with_reducible apply Keeps.ite
    | (lift_lets; intro x; refine Keeps.cut (s := s0) (x := x) ?_ ?_; rotate_left; intro hx; clear_value x; rotate_left; subst x)
    | (lift_lets; intro (x : Memory); subst x)
    | (lift_lets; intro (x : Flash); subst x)
    | (lift_lets; intro (x : State → State × Nat × Nat); subst x)
    | (lift_lets; intro (x : State → State); subst x)
    | (lift_lets; intro (x : State → State × Result); subst x)
    | (lift_lets; intro x; clear_value x)
    | dsimp only [Keeps]
    | split

theorem applyModes_keeps {s0 s : State} {a0} (h : Keeps s0 s) : Keeps s0 (applyModes a0 s) := by
  unfold applyModes
  repeat' first
    | with_reducible assumption
    | with_reducible apply extendMeas_keeps
    | with_reducible apply applyMode_keeps
    | (with_reducible refine Keeps.foldl ?_ (fun t x h => ?_))
    | (with_reducible refine Keeps.foldlFst ?_ (fun t x h => ?_))
    | (with_reducible refine Keeps.foldlSnd ?_ (fun t x h => ?_))
    | with_reducible apply Keeps.ite
    | (lift_lets; intro x; refine Keeps.cut (s := s0) (x := x) ?_ ?_; rotate_left; intro hx; clear_value x; rotate_left; subst x)
    | (lift_lets; intro (x : Memory); subst x)
    | (lift_lets; intro (x : Flash); subst x)
    | (lift_lets; intro (x : State → State × Nat × Nat); subst x)
    | (lift_lets; intro (x : State → State); subst x)
    | (lift_lets; intro (x : State → State × Result); subst x)
    | (lift_lets; intro x; clear_value x)
    | dsimp only [Keeps]
    | split

theorem rearmStones_keeps {s0 s : State} {a0} (h : Keeps s0 s) : Keeps s0 (rearmStones a0 s) := by
  unfold rearmStones
  repeat' first
    | with_reducible assumption
    | with_reducible apply Keeps.ite
    | dsimp only [Keeps]
    | split

theorem installStones_keeps {s0 s : State} {a0 a1 a2} (h : Keeps s0 s) : Keeps s0 (installStones a0 a1 a2 s) := by
  unfold installStones
  repeat' first
    | with_reducible assumption
    | with_reducible apply extendMeas_keeps
    | (with_reducible refine Keeps.foldl ?_ (fun t x h => ?_))
    | (with_reducible refine Keeps.foldlFst ?_ (fun t x h => ?_))
    | (with_reducible refine Keeps.foldlSnd ?_ (fun t x h => ?_))
    | with_reducible apply Keeps.ite
    | (lift_lets; intro x; refine Keeps.cut (s := s0) (x := x) ?_ ?_; rotate_left; intro hx; clear_value x; rotate_left; subst x)
    | (lift_lets; intro (x : Memory); subst x)
    | (lift_lets; intro (x : Flash); subst x)
    | (lift_lets; intro (x : State → State × Nat × Nat); subst x)
    | (lift_lets; intro (x : State → State); subst x)
    | (lift_lets; intro (x : State → State × Result); subst x)
    | (lift_lets; intro x; clear_value x)
    | dsimp only [Keeps]
    | split

theorem installExport_keeps {s0 s : State} {a0} (h : Keeps s0 s) : Keeps s0 (installExport a0 s) := by
  unfold installExport
  repeat' first
    | with_reducible assumption
    | with_reducible apply Keeps.ite
    | (lift_lets; intro x; refine Keeps.cut (s := s0) (x := x) ?_ ?_; rotate_left; intro hx; clear_value x; rotate_left; subst x)
    | (lift_lets; intro (x : Memory); subst x)
    | (lift_lets; intro (x : Flash); subst x)
    | (lift_lets; intro (x : State → State × Nat × Nat); subst x)
    | (lift_lets; intro (x : State → State); subst x)
    | (lift_lets; intro (x : State → State × Result); subst x)
    | (lift_lets; intro x; clear_value x)
    | dsimp only [Keeps]
    | split

theorem markDue_keeps {s0 s : State} (h : Keeps s0 s) : Keeps s0 (markDue s) := by
  unfold markDue
  repeat' first
    | with_reducible assumption
    | with_reducible apply Keeps.ite
    | dsimp only [Keeps]
    | split

theorem boundaryEffects_keeps {s0 s : State} {a0 a1} (h : Keeps s0 s) : Keeps s0 (boundaryEffects a0 a1 s) := by
  unfold boundaryEffects
  repeat' first
    | with_reducible assumption
    | with_reducible apply applyModes_keeps
    | with_reducible apply retireAt_keeps
    | with_reducible apply installStones_keeps
    | with_reducible apply installExport_keeps
    | with_reducible apply Keeps.ite
    | (lift_lets; intro x; refine Keeps.cut (s := s0) (x := x) ?_ ?_; rotate_left; intro hx; clear_value x; rotate_left; subst x)
    | (lift_lets; intro (x : Memory); subst x)
    | (lift_lets; intro (x : Flash); subst x)
    | (lift_lets; intro (x : State → State × Nat × Nat); subst x)
    | (lift_lets; intro (x : State → State); subst x)
    | (lift_lets; intro (x : State → State × Result); subst x)
    | (lift_lets; intro x; clear_value x)
    | dsimp only [Keeps]
    | split

theorem finishStep_keeps {s0 s : State} {a0 a1} (h : Keeps s0 s) : Keeps s0 (finishStep a0 a1 s) := by
  unfold finishStep
  repeat' first
    | with_reducible assumption
    | with_reducible apply boundaryEffects_keeps
    | with_reducible apply Keeps.ite
    | dsimp only [Keeps]
    | split

theorem installRoot_keeps {s0 s : State} {a0 a1} (h : Keeps s0 s) : Keeps s0 (installRoot a0 a1 s) := by
  unfold installRoot
  repeat' first
    | with_reducible assumption
    | with_reducible apply writeCells_keeps
    | with_reducible apply touchCells_keeps
    | with_reducible apply Keeps.ite
    | (lift_lets; intro x; refine Keeps.cut (s := s0) (x := x) ?_ ?_; rotate_left; intro hx; clear_value x; rotate_left; subst x)
    | (lift_lets; intro (x : Memory); subst x)
    | (lift_lets; intro (x : Flash); subst x)
    | (lift_lets; intro (x : State → State × Nat × Nat); subst x)
    | (lift_lets; intro (x : State → State); subst x)
    | (lift_lets; intro (x : State → State × Result); subst x)
    | (lift_lets; intro x; clear_value x)
    | dsimp only [Keeps]
    | split

theorem closeSeedbed_keeps {s0 s : State} {a0} (h : Keeps s0 s) : Keeps s0 (closeSeedbed a0 s) := by
  unfold closeSeedbed
  repeat' first
    | with_reducible assumption
    | with_reducible apply flipFresh_keeps
    | with_reducible apply offerCandidate_keeps
    | with_reducible apply sheafTrigger_keeps
    | (with_reducible refine Keeps.foldl ?_ (fun t x h => ?_))
    | (with_reducible refine Keeps.foldlFst ?_ (fun t x h => ?_))
    | (with_reducible refine Keeps.foldlSnd ?_ (fun t x h => ?_))
    | with_reducible apply Keeps.ite
    | (lift_lets; intro x; refine Keeps.cut (s := s0) (x := x) ?_ ?_; rotate_left; intro hx; clear_value x; rotate_left; subst x)
    | (lift_lets; intro (x : Memory); subst x)
    | (lift_lets; intro (x : Flash); subst x)
    | (lift_lets; intro (x : State → State × Nat × Nat); subst x)
    | (lift_lets; intro (x : State → State); subst x)
    | (lift_lets; intro (x : State → State × Result); subst x)
    | (lift_lets; intro x; clear_value x)
    | dsimp only [Keeps]
    | split

theorem followPin_keeps {s0 s : State} {a0} (h : Keeps s0 s) : Keeps s0 (followPin s a0) := by
  unfold followPin
  repeat' first
    | with_reducible assumption
    | with_reducible apply selectMove_keeps
    | with_reducible apply Keeps.ite
    | (lift_lets; intro x; refine Keeps.cut (s := s0) (x := x) ?_ ?_; rotate_left; intro hx; clear_value x; rotate_left; subst x)
    | (lift_lets; intro (x : Memory); subst x)
    | (lift_lets; intro (x : Flash); subst x)
    | (lift_lets; intro (x : State → State × Nat × Nat); subst x)
    | (lift_lets; intro (x : State → State); subst x)
    | (lift_lets; intro (x : State → State × Result); subst x)
    | (lift_lets; intro x; clear_value x)
    | dsimp only [Keeps]
    | split

theorem applyCommit_keeps {s0 s : State} {a0} (h : Keeps s0 s) : Keeps s0 (applyCommit a0 s) := by
  unfold applyCommit
  repeat' first
    | with_reducible assumption
    | with_reducible apply markDue_keeps
    | with_reducible apply keepVote_keeps
    | with_reducible apply finishMove_keeps
    | with_reducible apply followPin_keeps
    | with_reducible apply installRoot_keeps
    | with_reducible apply recordSeqs_keeps
    | with_reducible apply closeSeedbed_keeps
    | with_reducible apply rotationSelect_keeps
    | with_reducible apply decayHeat_keeps
    | with_reducible apply traceProgress_keeps
    | with_reducible apply openVote_keeps
    | (with_reducible refine Keeps.foldl ?_ (fun t x h => ?_))
    | (with_reducible refine Keeps.foldlFst ?_ (fun t x h => ?_))
    | (with_reducible refine Keeps.foldlSnd ?_ (fun t x h => ?_))
    | with_reducible apply Keeps.ite
    | (lift_lets; intro x; refine Keeps.cut (s := s0) (x := x) ?_ ?_; rotate_left; intro hx; clear_value x; rotate_left; subst x)
    | (lift_lets; intro (x : Memory); subst x)
    | (lift_lets; intro (x : Flash); subst x)
    | (lift_lets; intro (x : State → State × Nat × Nat); subst x)
    | (lift_lets; intro (x : State → State); subst x)
    | (lift_lets; intro (x : State → State × Result); subst x)
    | (lift_lets; intro x; clear_value x)
    | with_reducible apply KeepsParts.mergeLayers
    | dsimp only [Keeps]
    | split

theorem releasePending_keeps {s0 s : State} {a0} (h : Keeps s0 s) : Keeps s0 (releasePending a0 s) := by
  unfold releasePending
  repeat' first
    | with_reducible assumption
    | with_reducible apply count_keeps
    | with_reducible apply layCells_keeps
    | with_reducible apply touchCells_keeps
    | (with_reducible refine Keeps.foldl ?_ (fun t x h => ?_))
    | (with_reducible refine Keeps.foldlFst ?_ (fun t x h => ?_))
    | (with_reducible refine Keeps.foldlSnd ?_ (fun t x h => ?_))
    | with_reducible apply Keeps.ite
    | (lift_lets; intro x; refine Keeps.cut (s := s0) (x := x) ?_ ?_; rotate_left; intro hx; clear_value x; rotate_left; subst x)
    | (lift_lets; intro (x : Memory); subst x)
    | (lift_lets; intro (x : Flash); subst x)
    | (lift_lets; intro (x : State → State × Nat × Nat); subst x)
    | (lift_lets; intro (x : State → State); subst x)
    | (lift_lets; intro (x : State → State × Result); subst x)
    | (lift_lets; intro x; clear_value x)
    | dsimp only [Keeps]
    | split

theorem discardFrom_keeps {s0 s : State} {a0} (h : Keeps s0 s) : Keeps s0 (discardFrom a0 s) := by
  unfold discardFrom
  repeat' first
    | with_reducible assumption
    | with_reducible apply discardRuns_keeps
    | with_reducible apply Keeps.ite
    | (lift_lets; intro x; refine Keeps.cut (s := s0) (x := x) ?_ ?_; rotate_left; intro hx; clear_value x; rotate_left; subst x)
    | (lift_lets; intro (x : Memory); subst x)
    | (lift_lets; intro (x : Flash); subst x)
    | (lift_lets; intro (x : State → State × Nat × Nat); subst x)
    | (lift_lets; intro (x : State → State); subst x)
    | (lift_lets; intro (x : State → State × Result); subst x)
    | (lift_lets; intro x; clear_value x)
    | dsimp only [Keeps]
    | split

theorem dropGradients_keeps {s0 s : State} {a0} (h : Keeps s0 s) : Keeps s0 (dropGradients a0 s) := by
  unfold dropGradients
  repeat' first
    | with_reducible assumption
    | with_reducible apply Keeps.ite
    | (lift_lets; intro x; refine Keeps.cut (s := s0) (x := x) ?_ ?_; rotate_left; intro hx; clear_value x; rotate_left; subst x)
    | (lift_lets; intro (x : Memory); subst x)
    | (lift_lets; intro (x : Flash); subst x)
    | (lift_lets; intro (x : State → State × Nat × Nat); subst x)
    | (lift_lets; intro (x : State → State); subst x)
    | (lift_lets; intro (x : State → State × Result); subst x)
    | (lift_lets; intro x; clear_value x)
    | dsimp only [Keeps]
    | split

theorem applySkip_keeps {s0 s : State} {a0} (h : Keeps s0 s) : Keeps s0 (applySkip a0 s) := by
  unfold applySkip
  repeat' first
    | with_reducible assumption
    | with_reducible apply markDue_keeps
    | with_reducible apply refuseReads_keeps
    | with_reducible apply keepVote_keeps
    | with_reducible apply dropGradients_keeps
    | with_reducible apply discardFrom_keeps
    | with_reducible apply forgetRuns_keeps
    | with_reducible apply releasePending_keeps
    | with_reducible apply restoreSeqs_keeps
    | with_reducible apply raise_keeps
    | with_reducible apply finishStep_keeps
    | with_reducible apply queueReport_keeps
    | with_reducible apply sow_keeps
    | with_reducible apply acknowledge_keeps
    | with_reducible apply openVote_keeps
    | with_reducible apply Keeps.ite
    | (lift_lets; intro x; refine Keeps.cut (s := s0) (x := x) ?_ ?_; rotate_left; intro hx; clear_value x; rotate_left; subst x)
    | (lift_lets; intro (x : Memory); subst x)
    | (lift_lets; intro (x : Flash); subst x)
    | (lift_lets; intro (x : State → State × Nat × Nat); subst x)
    | (lift_lets; intro (x : State → State); subst x)
    | (lift_lets; intro (x : State → State × Result); subst x)
    | (lift_lets; intro x; clear_value x)
    | rw [dropLayers_base]
    | dsimp only [Keeps]
    | split

theorem applyRetry_keeps {s0 s : State} {a0} (h : Keeps s0 s) : Keeps s0 (applyRetry a0 s) := by
  unfold applyRetry
  repeat' first
    | with_reducible assumption
    | with_reducible apply refuseReads_keeps
    | with_reducible apply keepVote_keeps
    | with_reducible apply raise_keeps
    | with_reducible apply queueReport_keeps
    | with_reducible apply reformLost_keeps
    | with_reducible apply orderStop_keeps
    | with_reducible apply Keeps.ite
    | (lift_lets; intro x; refine Keeps.cut (s := s0) (x := x) ?_ ?_; rotate_left; intro hx; clear_value x; rotate_left; subst x)
    | (lift_lets; intro (x : Memory); subst x)
    | (lift_lets; intro (x : Flash); subst x)
    | (lift_lets; intro (x : State → State × Nat × Nat); subst x)
    | (lift_lets; intro (x : State → State); subst x)
    | (lift_lets; intro (x : State → State × Result); subst x)
    | (lift_lets; intro x; clear_value x)
    | dsimp only [Keeps]
    | split

theorem applyOutcome_keeps {s0 s : State} {a0} (h : Keeps s0 s) : Keeps s0 (applyOutcome a0 s) := by
  unfold applyOutcome
  repeat' first
    | with_reducible assumption
    | with_reducible apply traceCommit_keeps
    | with_reducible apply applyCommit_keeps
    | with_reducible apply applySkip_keeps
    | with_reducible apply applyRetry_keeps
    | with_reducible apply Keeps.ite
    | (lift_lets; intro x; refine Keeps.cut (s := s0) (x := x) ?_ ?_; rotate_left; intro hx; clear_value x; rotate_left; subst x)
    | (lift_lets; intro (x : Memory); subst x)
    | (lift_lets; intro (x : Flash); subst x)
    | (lift_lets; intro (x : State → State × Nat × Nat); subst x)
    | (lift_lets; intro (x : State → State); subst x)
    | (lift_lets; intro (x : State → State × Result); subst x)
    | (lift_lets; intro x; clear_value x)
    | dsimp only [Keeps]
    | split

theorem takeOutcome_keeps {s0 s : State} {a0} (h : Keeps s0 s) : Keeps s0 (takeOutcome a0 s) := by
  unfold takeOutcome
  repeat' first
    | with_reducible assumption
    | with_reducible apply keepVote_keeps
    | with_reducible apply applyOutcome_keeps
    | with_reducible apply Keeps.ite
    | dsimp only [Keeps]
    | split

theorem takeDecision_keeps {s0 s : State} {a0} (h : Keeps s0 s) : Keeps s0 (takeDecision a0 s) := by
  unfold takeDecision
  repeat' first
    | with_reducible assumption
    | with_reducible apply keepVote_keeps
    | with_reducible apply applyOutcome_keeps
    | with_reducible apply sendHedge_keeps
    | with_reducible apply Keeps.ite
    | (lift_lets; intro x; refine Keeps.cut (s := s0) (x := x) ?_ ?_; rotate_left; intro hx; clear_value x; rotate_left; subst x)
    | (lift_lets; intro (x : Memory); subst x)
    | (lift_lets; intro (x : Flash); subst x)
    | (lift_lets; intro (x : State → State × Nat × Nat); subst x)
    | (lift_lets; intro (x : State → State); subst x)
    | (lift_lets; intro (x : State → State × Result); subst x)
    | (lift_lets; intro x; clear_value x)
    | dsimp only [Keeps]
    | split

theorem reduceVote_keeps {s0 s : State} (h : Keeps s0 s) : Keeps s0 (reduceVote s) := by
  unfold reduceVote
  repeat' first
    | with_reducible assumption
    | with_reducible apply hostWrite_keeps
    | with_reducible apply takeDecision_keeps
    | with_reducible apply Keeps.ite
    | (lift_lets; intro x; refine Keeps.cut (s := s0) (x := x) ?_ ?_; rotate_left; intro hx; clear_value x; rotate_left; subst x)
    | (lift_lets; intro (x : Memory); subst x)
    | (lift_lets; intro (x : Flash); subst x)
    | (lift_lets; intro (x : State → State × Nat × Nat); subst x)
    | (lift_lets; intro (x : State → State); subst x)
    | (lift_lets; intro (x : State → State × Result); subst x)
    | (lift_lets; intro x; clear_value x)
    | dsimp only [Keeps]
    | split

theorem passReduced_keeps {s0 s : State} (h : Keeps s0 s) : Keeps s0 (passReduced s) := by
  unfold passReduced
  repeat' first
    | with_reducible assumption
    | with_reducible apply sendHedge_keeps
    | with_reducible apply Keeps.ite
    | dsimp only [Keeps]
    | split

theorem takeContribution_keeps {s0 s : State} {a0 a1 a2} (h : Keeps s0 s) : Keeps s0 (takeContribution a0 a1 a2 s) := by
  unfold takeContribution
  repeat' first
    | with_reducible assumption
    | with_reducible apply reduceVote_keeps
    | with_reducible apply passReduced_keeps
    | with_reducible apply Keeps.ite
    | (lift_lets; intro x; refine Keeps.cut (s := s0) (x := x) ?_ ?_; rotate_left; intro hx; clear_value x; rotate_left; subst x)
    | (lift_lets; intro (x : Memory); subst x)
    | (lift_lets; intro (x : Flash); subst x)
    | (lift_lets; intro (x : State → State × Nat × Nat); subst x)
    | (lift_lets; intro (x : State → State); subst x)
    | (lift_lets; intro (x : State → State × Result); subst x)
    | (lift_lets; intro x; clear_value x)
    | dsimp only [Keeps]
    | split

theorem contribute_keeps {s0 s : State} {a0} (h : Keeps s0 s) : Keeps s0 (contribute a0 s) := by
  unfold contribute
  repeat' first
    | with_reducible assumption
    | with_reducible apply traceCommit_keeps
    | with_reducible apply takeContribution_keeps
    | with_reducible apply sendHedge_keeps
    | with_reducible apply Keeps.ite
    | (lift_lets; intro x; refine Keeps.cut (s := s0) (x := x) ?_ ?_; rotate_left; intro hx; clear_value x; rotate_left; subst x)
    | (lift_lets; intro (x : Memory); subst x)
    | (lift_lets; intro (x : Flash); subst x)
    | (lift_lets; intro (x : State → State × Nat × Nat); subst x)
    | (lift_lets; intro (x : State → State); subst x)
    | (lift_lets; intro (x : State → State × Result); subst x)
    | (lift_lets; intro x; clear_value x)
    | dsimp only [Keeps]
    | split

theorem lateFindings_keeps {s0 s : State} (h : Keeps s0 s) : Keeps s0 (lateFindings s) := by
  unfold lateFindings
  repeat' first
    | with_reducible assumption
    | with_reducible apply contribute_keeps
    | with_reducible apply Keeps.ite
    | dsimp only [Keeps]
    | split

theorem countLostMember_keeps {s0 s : State} {a0} (h : Keeps s0 s) : Keeps s0 (countLostMember a0 s) := by
  unfold countLostMember
  repeat' first
    | with_reducible assumption
    | with_reducible apply contribute_keeps
    | with_reducible apply passReduced_keeps
    | with_reducible apply Keeps.ite
    | (lift_lets; intro x; refine Keeps.cut (s := s0) (x := x) ?_ ?_; rotate_left; intro hx; clear_value x; rotate_left; subst x)
    | (lift_lets; intro (x : Memory); subst x)
    | (lift_lets; intro (x : Flash); subst x)
    | (lift_lets; intro (x : State → State × Nat × Nat); subst x)
    | (lift_lets; intro (x : State → State); subst x)
    | (lift_lets; intro (x : State → State × Result); subst x)
    | (lift_lets; intro x; clear_value x)
    | dsimp only [Keeps]
    | split

theorem timedOutVote_keeps {s0 s : State} (h : Keeps s0 s) : Keeps s0 (timedOutVote s) := by
  unfold timedOutVote
  repeat' first
    | with_reducible assumption
    | with_reducible apply takeDecision_keeps
    | with_reducible apply Keeps.ite
    | dsimp only [Keeps]
    | split

theorem releaseCut_keeps {s0 s : State} (h : Keeps s0 s) : Keeps s0 (releaseCut s) := by
  unfold releaseCut
  repeat' first
    | with_reducible assumption
    | with_reducible apply record_keeps
    | intro t h
    | with_reducible apply Keeps.ite
    | (lift_lets; intro x; refine Keeps.cut (s := s0) (x := x) ?_ ?_; rotate_left; intro hx; clear_value x; rotate_left; subst x)
    | (lift_lets; intro (x : Memory); subst x)
    | (lift_lets; intro (x : Flash); subst x)
    | (lift_lets; intro (x : State → State × Nat × Nat); subst x)
    | (lift_lets; intro (x : State → State); subst x)
    | (lift_lets; intro (x : State → State × Result); subst x)
    | (lift_lets; intro x; clear_value x)
    | dsimp only [Keeps]
    | split

theorem discardPartial_keeps {s0 s : State} {a0} (h : Keeps s0 s) : Keeps s0 (discardPartial a0 s) := by
  unfold discardPartial
  repeat' first
    | with_reducible assumption
    | with_reducible apply discardFrom_keeps
    | with_reducible apply forgetRuns_keeps
    | with_reducible apply discardRuns_keeps
    | with_reducible apply restoreSeqs_keeps
    | with_reducible apply Keeps.ite
    | (lift_lets; intro x; refine Keeps.cut (s := s0) (x := x) ?_ ?_; rotate_left; intro hx; clear_value x; rotate_left; subst x)
    | (lift_lets; intro (x : Memory); subst x)
    | (lift_lets; intro (x : Flash); subst x)
    | (lift_lets; intro (x : State → State × Nat × Nat); subst x)
    | (lift_lets; intro (x : State → State); subst x)
    | (lift_lets; intro (x : State → State × Result); subst x)
    | (lift_lets; intro x; clear_value x)
    | rw [dropLayers_base]
    | dsimp only [Keeps]
    | split

theorem endRoll_keeps {s0 s : State} {a0} (h : Keeps s0 s) : Keeps s0 (endRoll a0 s) := by
  unfold endRoll
  repeat' first
    | with_reducible assumption
    | with_reducible apply rearmStones_keeps
    | with_reducible apply discardPartial_keeps
    | with_reducible apply createStep_keeps
    | with_reducible apply openVote_keeps
    | with_reducible apply acknowledge_keeps
    | with_reducible apply sow_keeps
    | with_reducible apply Keeps.ite
    | (lift_lets; intro x; refine Keeps.cut (s := s0) (x := x) ?_ ?_; rotate_left; intro hx; clear_value x; rotate_left; subst x)
    | (lift_lets; intro (x : Memory); subst x)
    | (lift_lets; intro (x : Flash); subst x)
    | (lift_lets; intro (x : State → State × Nat × Nat); subst x)
    | (lift_lets; intro (x : State → State); subst x)
    | (lift_lets; intro (x : State → State × Result); subst x)
    | (lift_lets; intro x; clear_value x)
    | dsimp only [Keeps]
    | split

theorem rollBack_keeps {s0 s : State} {a0} (h : Keeps s0 s) : Keeps s0 (rollBack a0 s) := by
  unfold rollBack
  repeat' first
    | with_reducible assumption
    | with_reducible apply applyCommit_keeps
    | with_reducible apply markGates_keeps
    | with_reducible apply endRoll_keeps
    | with_reducible apply Keeps.ite
    | (lift_lets; intro x; refine Keeps.cut (s := s0) (x := x) ?_ ?_; rotate_left; intro hx; clear_value x; rotate_left; subst x)
    | (lift_lets; intro (x : Memory); subst x)
    | (lift_lets; intro (x : Flash); subst x)
    | (lift_lets; intro (x : State → State × Nat × Nat); subst x)
    | (lift_lets; intro (x : State → State); subst x)
    | (lift_lets; intro (x : State → State × Result); subst x)
    | (lift_lets; intro x; clear_value x)
    | dsimp only [Keeps]
    | split

theorem continueRoll_keeps {s0 s : State} (h : Keeps s0 s) : Keeps s0 (continueRoll s) := by
  unfold continueRoll
  repeat' first
    | with_reducible assumption
    | with_reducible apply endRoll_keeps
    | with_reducible apply Keeps.ite
    | dsimp only [Keeps]
    | split

theorem applyResume_keeps {s0 s : State} {a0} (h : Keeps s0 s) : Keeps s0 (applyResume a0 s) := by
  unfold applyResume
  repeat' first
    | with_reducible assumption
    | with_reducible apply releaseCut_keeps
    | with_reducible apply rollBack_keeps
    | with_reducible apply Keeps.ite
    | dsimp only [Keeps]
    | split

theorem resumeComplete_keeps {s0 s : State} (h : Keeps s0 s) : Keeps s0 (resumeComplete s) := by
  unfold resumeComplete
  repeat' first
    | with_reducible assumption
    | with_reducible apply finishJobs_keeps
    | with_reducible apply Keeps.ite
    | dsimp only [Keeps]
    | split

end Sys2Proof.Laws
end

