-- ==== Sys2Proof/Laws/KeepsExport.lean ====
section
/-!
SUPPORT. `Keeps` for the operations of Machine/Export.lean.
-/
namespace Sys2Proof.Laws

open Sys2Proof Sys2Proof.Machine

theorem markCommit_keeps {s0 s : State} {a0 a1} (h : Keeps s0 s) : Keeps s0 (markCommit a0 a1 s) := by
  unfold markCommit
  repeat' first
    | with_reducible assumption
    | with_reducible apply Keeps.ite
    | dsimp only [Keeps]
    | split

theorem replayCompared_keeps {s0 s : State} {a0 a1} (h : Keeps s0 s) : Keeps s0 (replayCompared a0 a1 s) := by
  unfold replayCompared
  repeat' first
    | with_reducible assumption
    | with_reducible apply haltSmear_keeps
    | with_reducible apply Keeps.ite
    | (lift_lets; intro x; refine Keeps.cut (s := s0) (x := x) ?_ ?_; rotate_left; intro hx; clear_value x; rotate_left; subst x)
    | (lift_lets; intro (x : Memory); subst x)
    | (lift_lets; intro (x : Flash); subst x)
    | (lift_lets; intro (x : State → State × Nat × Nat); subst x)
    | (lift_lets; intro (x : State → State); subst x)
    | (lift_lets; intro (x : State → State × Result); subst x)
    | (lift_lets; intro x; clear_value x)
    | dsimp only [Keeps]
    | split

theorem formFingerprint_keeps {s0 s : State} {a0} (h : Keeps s0 s) : Keeps s0 (formFingerprint a0 s) := by
  unfold formFingerprint
  repeat' first
    | with_reducible assumption
    | with_reducible apply traceProgress_keeps
    | with_reducible apply markCommit_keeps
    | with_reducible apply replayCompared_keeps
    | (with_reducible refine Keeps.foldl ?_ (fun t x h => ?_))
    | (with_reducible refine Keeps.foldlFst ?_ (fun t x h => ?_))
    | (with_reducible refine Keeps.foldlSnd ?_ (fun t x h => ?_))
    | with_reducible apply Keeps.ite
    | (lift_lets; intro x; refine Keeps.cut (s := s0) (x := x) ?_ ?_; rotate_left; intro hx; clear_value x; rotate_left; subst x)
    | (lift_lets; intro (x : Memory); subst x)
    | (lift_lets; intro (x : Flash); subst x)
    | (lift_lets; intro (x : State → State × Nat × Nat); subst x)
    | (lift_lets; intro (x : State → State); subst x)
    | (lift_lets; intro (x : State → State × Result); subst x)
    | (lift_lets; intro x; clear_value x)
    | dsimp only [Keeps]
    | split

theorem toSink_keeps {s0 s : State} {a0 a1 a2} (h : Keeps s0 s) : Keeps s0 (toSink a0 a1 a2 s) := by
  unfold toSink
  repeat' first
    | with_reducible assumption
    | with_reducible apply hostWrite_keeps
    | with_reducible apply masterWrite_keeps
    | with_reducible apply writeNow_keeps
    | with_reducible apply sendTransfer_keeps
    | with_reducible apply Keeps.ite
    | dsimp only [Keeps]
    | split

theorem toRing_keeps {s0 s : State} {a0 a1} (h : Keeps s0 s) : Keeps s0 (toRing a0 a1 s) := by
  unfold toRing
  repeat' first
    | with_reducible assumption
    | with_reducible apply toSink_keeps
    | with_reducible apply Keeps.ite
    | (lift_lets; intro x; refine Keeps.cut (s := s0) (x := x) ?_ ?_; rotate_left; intro hx; clear_value x; rotate_left; subst x)
    | (lift_lets; intro (x : Memory); subst x)
    | (lift_lets; intro (x : Flash); subst x)
    | (lift_lets; intro (x : State → State × Nat × Nat); subst x)
    | (lift_lets; intro (x : State → State); subst x)
    | (lift_lets; intro (x : State → State × Result); subst x)
    | (lift_lets; intro x; clear_value x)
    | dsimp only [Keeps]
    | split

theorem sinkControl_keeps {s0 s : State} (h : Keeps s0 s) : Keeps s0 (sinkControl s) := by
  unfold sinkControl
  repeat' first
    | with_reducible assumption
    | with_reducible apply toSink_keeps
    | with_reducible apply Keeps.ite
    | (lift_lets; intro x; refine Keeps.cut (s := s0) (x := x) ?_ ?_; rotate_left; intro hx; clear_value x; rotate_left; subst x)
    | (lift_lets; intro (x : Memory); subst x)
    | (lift_lets; intro (x : Flash); subst x)
    | (lift_lets; intro (x : State → State × Nat × Nat); subst x)
    | (lift_lets; intro (x : State → State); subst x)
    | (lift_lets; intro (x : State → State × Result); subst x)
    | (lift_lets; intro x; clear_value x)
    | dsimp only [Keeps]
    | split

theorem emitOne_keeps {s0 s : State} (h : Keeps s0 s) : Keeps s0 (emitOne s) := by
  unfold emitOne
  repeat' first
    | with_reducible assumption
    | with_reducible apply toRing_keeps
    | with_reducible apply sinkControl_keeps
    | with_reducible apply Keeps.ite
    | (lift_lets; intro x; refine Keeps.cut (s := s0) (x := x) ?_ ?_; rotate_left; intro hx; clear_value x; rotate_left; subst x)
    | (lift_lets; intro (x : Memory); subst x)
    | (lift_lets; intro (x : Flash); subst x)
    | (lift_lets; intro (x : State → State × Nat × Nat); subst x)
    | (lift_lets; intro (x : State → State); subst x)
    | (lift_lets; intro (x : State → State × Result); subst x)
    | (lift_lets; intro x; clear_value x)
    | dsimp only [Keeps]
    | split

theorem emitAll_keeps {s0 s : State} {a0} (h : Keeps s0 s) : Keeps s0 (emitAll a0 s) := by
  induction a0 generalizing s with
  | zero =>
    rw [emitAll]
    repeat' first
      | with_reducible assumption
      | with_reducible apply ih
      | with_reducible apply emitOne_keeps
      | with_reducible apply Keeps.ite
      | dsimp only [Keeps]
      | split
  | succ n ih =>
    rw [emitAll]
    repeat' first
      | with_reducible assumption
      | with_reducible apply ih
      | with_reducible apply emitOne_keeps
      | with_reducible apply Keeps.ite
      | dsimp only [Keeps]
      | split

theorem emit_keeps {s0 s : State} (h : Keeps s0 s) : Keeps s0 (emit s) := by
  unfold emit
  repeat' first
    | with_reducible assumption
    | with_reducible apply emitAll_keeps
    | with_reducible apply Keeps.ite
    | dsimp only [Keeps]
    | split

theorem acknowledged_keeps {s0 s : State} {a0} (h : Keeps s0 s) : Keeps s0 (acknowledged a0 s) := by
  unfold acknowledged
  repeat' first
    | with_reducible assumption
    | with_reducible apply Keeps.ite
    | dsimp only [Keeps]
    | split

theorem resend_keeps {s0 s : State} (h : Keeps s0 s) : Keeps s0 (resend s) := by
  unfold resend
  repeat' first
    | with_reducible assumption
    | with_reducible apply toRing_keeps
    | with_reducible apply count_keeps
    | (with_reducible refine Keeps.foldl ?_ (fun t x h => ?_))
    | (with_reducible refine Keeps.foldlFst ?_ (fun t x h => ?_))
    | (with_reducible refine Keeps.foldlSnd ?_ (fun t x h => ?_))
    | with_reducible apply Keeps.ite
    | (lift_lets; intro x; refine Keeps.cut (s := s0) (x := x) ?_ ?_; rotate_left; intro hx; clear_value x; rotate_left; subst x)
    | (lift_lets; intro (x : Memory); subst x)
    | (lift_lets; intro (x : Flash); subst x)
    | (lift_lets; intro (x : State → State × Nat × Nat); subst x)
    | (lift_lets; intro (x : State → State); subst x)
    | (lift_lets; intro (x : State → State × Result); subst x)
    | (lift_lets; intro x; clear_value x)
    | dsimp only [Keeps]
    | split

theorem stepReport_keeps {s0 s : State} (h : Keeps s0 s) : Keeps s0 (stepReport s) := by
  unfold stepReport
  repeat' first
    | with_reducible assumption
    | with_reducible apply formFingerprint_keeps
    | with_reducible apply queueReport_keeps
    | with_reducible apply hostWrite_keeps
    | with_reducible apply finishStep_keeps
    | with_reducible apply traceCommit_keeps
    | with_reducible apply markCommit_keeps
    | with_reducible apply Keeps.ite
    | (lift_lets; intro x; refine Keeps.cut (s := s0) (x := x) ?_ ?_; rotate_left; intro hx; clear_value x; rotate_left; subst x)
    | (lift_lets; intro (x : Memory); subst x)
    | (lift_lets; intro (x : Flash); subst x)
    | (lift_lets; intro (x : State → State × Nat × Nat); subst x)
    | (lift_lets; intro (x : State → State); subst x)
    | (lift_lets; intro (x : State → State × Result); subst x)
    | (lift_lets; intro x; clear_value x)
    | dsimp only [Keeps]
    | split

end Sys2Proof.Laws
end

