-- ==== Sys2Proof/Laws/KeepsColl.lean ====
section
/-!
SUPPORT. `Keeps` for the operations of Machine/Coll.lean.
-/
namespace Sys2Proof.Laws

open Sys2Proof Sys2Proof.Machine

theorem setColl_keeps {s0 s : State} {a0} (h : Keeps s0 s) : Keeps s0 (setColl a0 s) := by
  unfold setColl
  repeat' first
    | with_reducible assumption
    | with_reducible apply Keeps.ite
    | dsimp only [Keeps]
    | split

theorem dropColl_keeps {s0 s : State} {a0} (h : Keeps s0 s) : Keeps s0 (dropColl a0 s) := by
  unfold dropColl
  repeat' first
    | with_reducible assumption
    | with_reducible apply Keeps.ite
    | dsimp only [Keeps]
    | split

theorem countColl_keeps {s0 s : State} {a0 a1 a2} (h : Keeps s0 s) : Keeps s0 (countColl a0 a1 a2 s) := by
  unfold countColl
  repeat' first
    | with_reducible assumption
    | with_reducible apply setTask_keeps
    | with_reducible apply countWork_keeps
    | with_reducible apply Keeps.ite
    | dsimp only [Keeps]
    | split

theorem stoneParts_keeps {s0 s : State} {a0 a1 a2 a3} (h : Keeps s0 s) : Keeps s0 (stoneParts a0 a1 a2 a3 s).2 := by
  induction a1 generalizing s a0 a2 a3 with
  | zero =>
    rw [stoneParts]
    repeat' first
      | with_reducible assumption
      | with_reducible apply ih
      | with_reducible apply countStone_keeps
      | with_reducible apply Keeps.ite
      | (lift_lets; intro x; refine Keeps.cut (s := s0) (x := x) ?_ ?_; rotate_left; intro hx; clear_value x; rotate_left; subst x)
      | (lift_lets; intro (x : Memory); subst x)
      | (lift_lets; intro (x : Flash); subst x)
      | (lift_lets; intro (x : State → State × Nat × Nat); subst x)
      | (lift_lets; intro (x : State → State); subst x)
      | (lift_lets; intro (x : State → State × Result); subst x)
      | (lift_lets; intro x; clear_value x)
      | dsimp only [Keeps]
      | split
  | succ n ih =>
    rw [stoneParts]
    repeat' first
      | with_reducible assumption
      | with_reducible apply ih
      | with_reducible apply countStone_keeps
      | with_reducible apply Keeps.ite
      | (lift_lets; intro x; refine Keeps.cut (s := s0) (x := x) ?_ ?_; rotate_left; intro hx; clear_value x; rotate_left; subst x)
      | (lift_lets; intro (x : Memory); subst x)
      | (lift_lets; intro (x : Flash); subst x)
      | (lift_lets; intro (x : State → State × Nat × Nat); subst x)
      | (lift_lets; intro (x : State → State); subst x)
      | (lift_lets; intro (x : State → State × Result); subst x)
      | (lift_lets; intro x; clear_value x)
      | dsimp only [Keeps]
      | split

theorem stoneParts_keeps_eq {s0 s : State} {a0 a1 a2 a3} (h : Keeps s0 s) {t u} (e : stoneParts a0 a1 a2 a3 s = (u, t)) : Keeps s0 t := by
  have k : Keeps s0 (stoneParts a0 a1 a2 a3 s).2 := stoneParts_keeps h 
  rw [e] at k; exact k

theorem passPart_keeps {s0 s : State} {a0 a1} (h : Keeps s0 s) : Keeps s0 (passPart a0 a1 s) := by
  unfold passPart
  repeat' first
    | with_reducible assumption
    | with_reducible apply stoneParts_keeps
    | (with_reducible refine stoneParts_keeps_eq ?_ (by with_reducible assumption))
    | with_reducible apply sendHedge_keeps
    | with_reducible apply endOfData_keeps
    | with_reducible apply Keeps.ite
    | (lift_lets; intro x; refine Keeps.cut (s := s0) (x := x) ?_ ?_; rotate_left; intro hx; clear_value x; rotate_left; subst x)
    | (lift_lets; intro (x : Memory); subst x)
    | (lift_lets; intro (x : Flash); subst x)
    | (lift_lets; intro (x : State → State × Nat × Nat); subst x)
    | (lift_lets; intro (x : State → State); subst x)
    | (lift_lets; intro (x : State → State × Result); subst x)
    | (lift_lets; intro x; clear_value x)
    | dsimp only [Keeps]
    | split

theorem sendPart_keeps {s0 s : State} {a0 a1 a2} (h : Keeps s0 s) : Keeps s0 (sendPart a0 a1 a2 s) := by
  unfold sendPart
  repeat' first
    | with_reducible assumption
    | with_reducible apply passPart_keeps
    | with_reducible apply countColl_keeps
    | with_reducible apply Keeps.ite
    | (lift_lets; intro x; refine Keeps.cut (s := s0) (x := x) ?_ ?_; rotate_left; intro hx; clear_value x; rotate_left; subst x)
    | (lift_lets; intro (x : Memory); subst x)
    | (lift_lets; intro (x : Flash); subst x)
    | (lift_lets; intro (x : State → State × Nat × Nat); subst x)
    | (lift_lets; intro (x : State → State); subst x)
    | (lift_lets; intro (x : State → State × Result); subst x)
    | (lift_lets; intro x; clear_value x)
    | dsimp only [Keeps]
    | split

theorem forgetColl_keeps {s0 s : State} {a0} (h : Keeps s0 s) : Keeps s0 (forgetColl a0 s) := by
  unfold forgetColl
  repeat' first
    | with_reducible assumption
    | with_reducible apply dropColl_keeps
    | with_reducible apply Keeps.ite
    | (lift_lets; intro x; refine Keeps.cut (s := s0) (x := x) ?_ ?_; rotate_left; intro hx; clear_value x; rotate_left; subst x)
    | (lift_lets; intro (x : Memory); subst x)
    | (lift_lets; intro (x : Flash); subst x)
    | (lift_lets; intro (x : State → State × Nat × Nat); subst x)
    | (lift_lets; intro (x : State → State); subst x)
    | (lift_lets; intro (x : State → State × Result); subst x)
    | (lift_lets; intro x; clear_value x)
    | dsimp only [Keeps]
    | split

theorem endColl_keeps {s0 s : State} {a0 a1} (h : Keeps s0 s) : Keeps s0 (endColl a0 a1 s) := by
  unfold endColl
  repeat' first
    | with_reducible assumption
    | with_reducible apply forgetColl_keeps
    | with_reducible apply findings_keeps
    | with_reducible apply publish_keeps
    | with_reducible apply setTask_keeps
    | with_reducible apply findMemberLost_keeps
    | with_reducible apply holdRun_keeps
    | with_reducible apply Keeps.ite
    | (lift_lets; intro x; refine Keeps.cut (s := s0) (x := x) ?_ ?_; rotate_left; intro hx; clear_value x; rotate_left; subst x)
    | (lift_lets; intro (x : Memory); subst x)
    | (lift_lets; intro (x : Flash); subst x)
    | (lift_lets; intro (x : State → State × Nat × Nat); subst x)
    | (lift_lets; intro (x : State → State); subst x)
    | (lift_lets; intro (x : State → State × Result); subst x)
    | (lift_lets; intro x; clear_value x)
    | dsimp only [Keeps]
    | split

theorem completeColl_keeps {s0 s : State} {a0} (h : Keeps s0 s) : Keeps s0 (completeColl a0 s) := by
  unfold completeColl
  repeat' first
    | with_reducible assumption
    | with_reducible apply dropColl_keeps
    | with_reducible apply countWork_keeps
    | with_reducible apply countNan_keeps
    | with_reducible apply setTask_keeps
    | with_reducible apply publish_keeps
    | (with_reducible refine Keeps.foldl ?_ (fun t x h => ?_))
    | (with_reducible refine Keeps.foldlFst ?_ (fun t x h => ?_))
    | (with_reducible refine Keeps.foldlSnd ?_ (fun t x h => ?_))
    | with_reducible apply Keeps.ite
    | (lift_lets; intro x; refine Keeps.cut (s := s0) (x := x) ?_ ?_; rotate_left; intro hx; clear_value x; rotate_left; subst x)
    | (lift_lets; intro (x : Memory); subst x)
    | (lift_lets; intro (x : Flash); subst x)
    | (lift_lets; intro (x : State → State × Nat × Nat); subst x)
    | (lift_lets; intro (x : State → State); subst x)
    | (lift_lets; intro (x : State → State × Result); subst x)
    | (lift_lets; intro x; clear_value x)
    | dsimp only [Keeps]
    | split

theorem grantKey_keeps {s0 s : State} {a0} (h : Keeps s0 s) : Keeps s0 (grantKey a0 s) := by
  unfold grantKey
  repeat' first
    | with_reducible assumption
    | with_reducible apply sendHedge_keeps
    | (with_reducible refine Keeps.foldl ?_ (fun t x h => ?_))
    | (with_reducible refine Keeps.foldlFst ?_ (fun t x h => ?_))
    | (with_reducible refine Keeps.foldlSnd ?_ (fun t x h => ?_))
    | with_reducible apply Keeps.ite
    | (lift_lets; intro x; refine Keeps.cut (s := s0) (x := x) ?_ ?_; rotate_left; intro hx; clear_value x; rotate_left; subst x)
    | (lift_lets; intro (x : Memory); subst x)
    | (lift_lets; intro (x : Flash); subst x)
    | (lift_lets; intro (x : State → State × Nat × Nat); subst x)
    | (lift_lets; intro (x : State → State); subst x)
    | (lift_lets; intro (x : State → State × Result); subst x)
    | (lift_lets; intro x; clear_value x)
    | dsimp only [Keeps]
    | split

theorem takenBack_keeps {s0 s : State} {a0 a1} (h : Keeps s0 s) : Keeps s0 (takenBack a0 a1 s) := by
  unfold takenBack
  repeat' first
    | with_reducible assumption
    | with_reducible apply Keeps.ite
    | (lift_lets; intro x; refine Keeps.cut (s := s0) (x := x) ?_ ?_; rotate_left; intro hx; clear_value x; rotate_left; subst x)
    | (lift_lets; intro (x : Memory); subst x)
    | (lift_lets; intro (x : Flash); subst x)
    | (lift_lets; intro (x : State → State × Nat × Nat); subst x)
    | (lift_lets; intro (x : State → State); subst x)
    | (lift_lets; intro (x : State → State × Result); subst x)
    | (lift_lets; intro x; clear_value x)
    | dsimp only [Keeps]
    | split

theorem takeKey_keeps {s0 s : State} {a0} (h : Keeps s0 s) : Keeps s0 (takeKey a0 s) := by
  unfold takeKey
  repeat' first
    | with_reducible assumption
    | with_reducible apply takenBack_keeps
    | with_reducible apply sendHedge_keeps
    | (with_reducible refine Keeps.foldl ?_ (fun t x h => ?_))
    | (with_reducible refine Keeps.foldlFst ?_ (fun t x h => ?_))
    | (with_reducible refine Keeps.foldlSnd ?_ (fun t x h => ?_))
    | with_reducible apply Keeps.ite
    | (lift_lets; intro x; refine Keeps.cut (s := s0) (x := x) ?_ ?_; rotate_left; intro hx; clear_value x; rotate_left; subst x)
    | (lift_lets; intro (x : Memory); subst x)
    | (lift_lets; intro (x : Flash); subst x)
    | (lift_lets; intro (x : State → State × Nat × Nat); subst x)
    | (lift_lets; intro (x : State → State); subst x)
    | (lift_lets; intro (x : State → State × Result); subst x)
    | (lift_lets; intro x; clear_value x)
    | dsimp only [Keeps]
    | split

theorem serveKeys_keeps {s0 s : State} {a0} (h : Keeps s0 s) : Keeps s0 (serveKeys a0 s) := by
  induction a0 generalizing s with
  | nil =>
    rw [serveKeys]
    repeat' first
      | with_reducible assumption
      | with_reducible apply ih
      | with_reducible apply grantKey_keeps
      | with_reducible apply takeKey_keeps
      | with_reducible apply Keeps.ite
      | dsimp only [Keeps]
      | split
  | cons y l ih =>
    rw [serveKeys]
    repeat' first
      | with_reducible assumption
      | with_reducible apply ih
      | with_reducible apply grantKey_keeps
      | with_reducible apply takeKey_keeps
      | with_reducible apply Keeps.ite
      | dsimp only [Keeps]
      | split

theorem serveBin_keeps {s0 s : State} (h : Keeps s0 s) : Keeps s0 (serveBin s) := by
  unfold serveBin
  repeat' first
    | with_reducible assumption
    | with_reducible apply serveKeys_keeps
    | with_reducible apply Keeps.ite
    | dsimp only [Keeps]
    | split

theorem clearLeft_keeps {s0 s : State} {a0} (h : Keeps s0 s) : Keeps s0 (clearLeft a0 s) := by
  unfold clearLeft
  repeat' first
    | with_reducible assumption
    | with_reducible apply serveBin_keeps
    | with_reducible apply Keeps.ite
    | (lift_lets; intro x; refine Keeps.cut (s := s0) (x := x) ?_ ?_; rotate_left; intro hx; clear_value x; rotate_left; subst x)
    | (lift_lets; intro (x : Memory); subst x)
    | (lift_lets; intro (x : Flash); subst x)
    | (lift_lets; intro (x : State → State × Nat × Nat); subst x)
    | (lift_lets; intro (x : State → State); subst x)
    | (lift_lets; intro (x : State → State × Result); subst x)
    | (lift_lets; intro x; clear_value x)
    | dsimp only [Keeps]
    | split

theorem binRequest_keeps {s0 s : State} {a0 a1} (h : Keeps s0 s) : Keeps s0 (binRequest a0 a1 s) := by
  unfold binRequest
  repeat' first
    | with_reducible assumption
    | with_reducible apply clearLeft_keeps
    | with_reducible apply serveBin_keeps
    | with_reducible apply Keeps.ite
    | dsimp only [Keeps]
    | split

theorem leaveBin_keeps {s0 s : State} {a0} (h : Keeps s0 s) : Keeps s0 (leaveBin a0 s) := by
  unfold leaveBin
  repeat' first
    | with_reducible assumption
    | with_reducible apply clearLeft_keeps
    | with_reducible apply Keeps.ite
    | dsimp only [Keeps]
    | split

theorem requestSlot_keeps {s0 s : State} {a0 a1} (h : Keeps s0 s) : Keeps s0 (requestSlot a0 a1 s) := by
  unfold requestSlot
  repeat' first
    | with_reducible assumption
    | with_reducible apply binRequest_keeps
    | with_reducible apply sendHedge_keeps
    | with_reducible apply Keeps.ite
    | dsimp only [Keeps]
    | split

theorem setSeg_keeps {s0 s : State} {a0 a1} (h : Keeps s0 s) : Keeps s0 (setSeg a0 a1 s) := by
  unfold setSeg
  repeat' first
    | with_reducible assumption
    | with_reducible apply Keeps.ite
    | (lift_lets; intro x; refine Keeps.cut (s := s0) (x := x) ?_ ?_; rotate_left; intro hx; clear_value x; rotate_left; subst x)
    | (lift_lets; intro (x : Memory); subst x)
    | (lift_lets; intro (x : Flash); subst x)
    | (lift_lets; intro (x : State → State × Nat × Nat); subst x)
    | (lift_lets; intro (x : State → State); subst x)
    | (lift_lets; intro (x : State → State × Result); subst x)
    | (lift_lets; intro x; clear_value x)
    | dsimp only [Keeps]
    | split

theorem returnFinal_keeps {s0 s : State} {a0 a1 a2 a3} (h : Keeps s0 s) : Keeps s0 (returnFinal a0 a1 a2 a3 s) := by
  unfold returnFinal
  repeat' first
    | with_reducible assumption
    | with_reducible apply sendPart_keeps
    | (with_reducible refine Keeps.foldr ?_ (fun t x h => ?_))
    | with_reducible apply Keeps.ite
    | (lift_lets; intro x; refine Keeps.cut (s := s0) (x := x) ?_ ?_; rotate_left; intro hx; clear_value x; rotate_left; subst x)
    | (lift_lets; intro (x : Memory); subst x)
    | (lift_lets; intro (x : Flash); subst x)
    | (lift_lets; intro (x : State → State × Nat × Nat); subst x)
    | (lift_lets; intro (x : State → State); subst x)
    | (lift_lets; intro (x : State → State × Result); subst x)
    | (lift_lets; intro x; clear_value x)
    | dsimp only [Keeps]
    | split

theorem setFinal_keeps {s0 s : State} {a0 a1 a2 a3 a4} (h : Keeps s0 s) : Keeps s0 (setFinal a0 a1 a2 a3 a4 s) := by
  unfold setFinal
  repeat' first
    | with_reducible assumption
    | with_reducible apply leaveBin_keeps
    | with_reducible apply returnFinal_keeps
    | with_reducible apply setSeg_keeps
    | with_reducible apply Keeps.ite
    | (lift_lets; intro x; refine Keeps.cut (s := s0) (x := x) ?_ ?_; rotate_left; intro hx; clear_value x; rotate_left; subst x)
    | (lift_lets; intro (x : Memory); subst x)
    | (lift_lets; intro (x : Flash); subst x)
    | (lift_lets; intro (x : State → State × Nat × Nat); subst x)
    | (lift_lets; intro (x : State → State); subst x)
    | (lift_lets; intro (x : State → State × Result); subst x)
    | (lift_lets; intro x; clear_value x)
    | dsimp only [Keeps]
    | split

theorem advanceSegment_keeps {s0 s : State} {a0 a1 a2 a3} (h : Keeps s0 s) : Keeps s0 (advanceSegment a0 a1 a2 a3 s) := by
  induction a3 generalizing s a0 a1 a2 with
  | zero =>
    rw [advanceSegment]
    repeat' first
      | with_reducible assumption
      | with_reducible apply ih
      | with_reducible apply setFinal_keeps
      | with_reducible apply setTask_keeps
      | with_reducible apply countWork_keeps
      | with_reducible apply sendPart_keeps
      | with_reducible apply setSeg_keeps
      | with_reducible apply leaveBin_keeps
      | with_reducible apply Keeps.ite
      | (lift_lets; intro x; refine Keeps.cut (s := s0) (x := x) ?_ ?_; rotate_left; intro hx; clear_value x; rotate_left; subst x)
      | (lift_lets; intro (x : Memory); subst x)
      | (lift_lets; intro (x : Flash); subst x)
      | (lift_lets; intro (x : State → State × Nat × Nat); subst x)
      | (lift_lets; intro (x : State → State); subst x)
      | (lift_lets; intro (x : State → State × Result); subst x)
      | (lift_lets; intro x; clear_value x)
      | dsimp only [Keeps]
      | split
  | succ n ih =>
    rw [advanceSegment]
    repeat' first
      | with_reducible assumption
      | with_reducible apply ih
      | with_reducible apply setFinal_keeps
      | with_reducible apply setTask_keeps
      | with_reducible apply countWork_keeps
      | with_reducible apply sendPart_keeps
      | with_reducible apply setSeg_keeps
      | with_reducible apply leaveBin_keeps
      | with_reducible apply Keeps.ite
      | (lift_lets; intro x; refine Keeps.cut (s := s0) (x := x) ?_ ?_; rotate_left; intro hx; clear_value x; rotate_left; subst x)
      | (lift_lets; intro (x : Memory); subst x)
      | (lift_lets; intro (x : Flash); subst x)
      | (lift_lets; intro (x : State → State × Nat × Nat); subst x)
      | (lift_lets; intro (x : State → State); subst x)
      | (lift_lets; intro (x : State → State × Result); subst x)
      | (lift_lets; intro x; clear_value x)
      | dsimp only [Keeps]
      | split

theorem tryComplete_keeps {s0 s : State} {a0 a1} (h : Keeps s0 s) : Keeps s0 (tryComplete a0 a1 s) := by
  unfold tryComplete
  repeat' first
    | with_reducible assumption
    | with_reducible apply completeColl_keeps
    | with_reducible apply Keeps.ite
    | dsimp only [Keeps]
    | split

theorem sendCopies_keeps {s0 s : State} {a0} (h : Keeps s0 s) : Keeps s0 (sendCopies a0 s) := by
  unfold sendCopies
  repeat' first
    | with_reducible assumption
    | with_reducible apply sendPart_keeps
    | (with_reducible refine Keeps.foldl ?_ (fun t x h => ?_))
    | (with_reducible refine Keeps.foldlFst ?_ (fun t x h => ?_))
    | (with_reducible refine Keeps.foldlSnd ?_ (fun t x h => ?_))
    | with_reducible apply Keeps.ite
    | (lift_lets; intro x; refine Keeps.cut (s := s0) (x := x) ?_ ?_; rotate_left; intro hx; clear_value x; rotate_left; subst x)
    | (lift_lets; intro (x : Memory); subst x)
    | (lift_lets; intro (x : Flash); subst x)
    | (lift_lets; intro (x : State → State × Nat × Nat); subst x)
    | (lift_lets; intro (x : State → State); subst x)
    | (lift_lets; intro (x : State → State × Result); subst x)
    | (lift_lets; intro x; clear_value x)
    | dsimp only [Keeps]
    | split

theorem moveData_keeps {s0 s : State} {a0} (h : Keeps s0 s) : Keeps s0 (moveData a0 s) := by
  unfold moveData
  repeat' first
    | with_reducible assumption
    | with_reducible apply setColl_keeps
    | with_reducible apply sendCopies_keeps
    | with_reducible apply requestSlot_keeps
    | with_reducible apply advanceSegment_keeps
    | with_reducible apply tryComplete_keeps
    | (with_reducible refine Keeps.foldl ?_ (fun t x h => ?_))
    | (with_reducible refine Keeps.foldlFst ?_ (fun t x h => ?_))
    | (with_reducible refine Keeps.foldlSnd ?_ (fun t x h => ?_))
    | with_reducible apply Keeps.ite
    | (lift_lets; intro x; refine Keeps.cut (s := s0) (x := x) ?_ ?_; rotate_left; intro hx; clear_value x; rotate_left; subst x)
    | (lift_lets; intro (x : Memory); subst x)
    | (lift_lets; intro (x : Flash); subst x)
    | (lift_lets; intro (x : State → State × Nat × Nat); subst x)
    | (lift_lets; intro (x : State → State); subst x)
    | (lift_lets; intro (x : State → State × Result); subst x)
    | (lift_lets; intro x; clear_value x)
    | dsimp only [Keeps]
    | split

theorem hear_keeps {s0 s : State} {a0 a1} (h : Keeps s0 s) : Keeps s0 (hear a0 a1 s) := by
  unfold hear
  repeat' first
    | with_reducible assumption
    | with_reducible apply Keeps.ite
    | (lift_lets; intro x; refine Keeps.cut (s := s0) (x := x) ?_ ?_; rotate_left; intro hx; clear_value x; rotate_left; subst x)
    | (lift_lets; intro (x : Memory); subst x)
    | (lift_lets; intro (x : Flash); subst x)
    | (lift_lets; intro (x : State → State × Nat × Nat); subst x)
    | (lift_lets; intro (x : State → State); subst x)
    | (lift_lets; intro (x : State → State × Result); subst x)
    | (lift_lets; intro x; clear_value x)
    | dsimp only [Keeps]
    | split

theorem takeGrant_keeps {s0 s : State} {a0 a1} (h : Keeps s0 s) : Keeps s0 (takeGrant a0 a1 s) := by
  unfold takeGrant
  repeat' first
    | with_reducible assumption
    | with_reducible apply hear_keeps
    | with_reducible apply requestSlot_keeps
    | with_reducible apply tryComplete_keeps
    | with_reducible apply advanceSegment_keeps
    | (with_reducible refine Keeps.foldl ?_ (fun t x h => ?_))
    | (with_reducible refine Keeps.foldlFst ?_ (fun t x h => ?_))
    | (with_reducible refine Keeps.foldlSnd ?_ (fun t x h => ?_))
    | with_reducible apply Keeps.ite
    | (lift_lets; intro x; refine Keeps.cut (s := s0) (x := x) ?_ ?_; rotate_left; intro hx; clear_value x; rotate_left; subst x)
    | (lift_lets; intro (x : Memory); subst x)
    | (lift_lets; intro (x : Flash); subst x)
    | (lift_lets; intro (x : State → State × Nat × Nat); subst x)
    | (lift_lets; intro (x : State → State); subst x)
    | (lift_lets; intro (x : State → State × Result); subst x)
    | (lift_lets; intro x; clear_value x)
    | dsimp only [Keeps]
    | split

theorem takeOwnGrants_keeps {s0 s : State} {a0} (h : Keeps s0 s) : Keeps s0 (takeOwnGrants a0 s) := by
  induction a0 generalizing s with
  | zero =>
    rw [takeOwnGrants]
    repeat' first
      | with_reducible assumption
      | with_reducible apply ih
      | with_reducible apply takeGrant_keeps
      | with_reducible apply Keeps.ite
      | dsimp only [Keeps]
      | split
  | succ n ih =>
    rw [takeOwnGrants]
    repeat' first
      | with_reducible assumption
      | with_reducible apply ih
      | with_reducible apply takeGrant_keeps
      | with_reducible apply Keeps.ite
      | dsimp only [Keeps]
      | split

theorem serveOwn_keeps {s0 s : State} (h : Keeps s0 s) : Keeps s0 (serveOwn s) := by
  unfold serveOwn
  repeat' first
    | with_reducible assumption
    | with_reducible apply serveBin_keeps
    | with_reducible apply takeOwnGrants_keeps
    | with_reducible apply Keeps.ite
    | (lift_lets; intro x; refine Keeps.cut (s := s0) (x := x) ?_ ?_; rotate_left; intro hx; clear_value x; rotate_left; subst x)
    | (lift_lets; intro (x : Memory); subst x)
    | (lift_lets; intro (x : Flash); subst x)
    | (lift_lets; intro (x : State → State × Nat × Nat); subst x)
    | (lift_lets; intro (x : State → State); subst x)
    | (lift_lets; intro (x : State → State × Result); subst x)
    | (lift_lets; intro x; clear_value x)
    | dsimp only [Keeps]
    | split

theorem goAhead_keeps {s0 s : State} {a0 a1 a2 a3} (h : Keeps s0 s) : Keeps s0 (goAhead a0 a1 a2 a3 s) := by
  unfold goAhead
  repeat' first
    | with_reducible assumption
    | with_reducible apply moveData_keeps
    | with_reducible apply endColl_keeps
    | with_reducible apply Keeps.ite
    | dsimp only [Keeps]
    | split

theorem answerMuster_keeps {s0 s : State} {a0 a1 a2 a3 a4} (h : Keeps s0 s) : Keeps s0 (answerMuster a0 a1 a2 a3 a4 s) := by
  unfold answerMuster
  repeat' first
    | with_reducible assumption
    | with_reducible apply goAhead_keeps
    | with_reducible apply sendHedge_keeps
    | with_reducible apply Keeps.ite
    | dsimp only [Keeps]
    | split

theorem decideMusters_keeps {s0 s : State} {a0 a1 a2} (h : Keeps s0 s) : Keeps s0 (decideMusters a0 a1 a2 s) := by
  induction a2 generalizing s a0 a1 with
  | zero =>
    rw [decideMusters]
    repeat' first
      | with_reducible assumption
      | with_reducible apply ih
      | with_reducible apply answerMuster_keeps
      | (with_reducible refine Keeps.foldl ?_ (fun t x h => ?_))
      | (with_reducible refine Keeps.foldlFst ?_ (fun t x h => ?_))
      | (with_reducible refine Keeps.foldlSnd ?_ (fun t x h => ?_))
      | with_reducible apply Keeps.ite
      | (lift_lets; intro x; refine Keeps.cut (s := s0) (x := x) ?_ ?_; rotate_left; intro hx; clear_value x; rotate_left; subst x)
      | (lift_lets; intro (x : Memory); subst x)
      | (lift_lets; intro (x : Flash); subst x)
      | (lift_lets; intro (x : State → State × Nat × Nat); subst x)
      | (lift_lets; intro (x : State → State); subst x)
      | (lift_lets; intro (x : State → State × Result); subst x)
      | (lift_lets; intro x; clear_value x)
      | rw [answered_base]
      | dsimp only [Keeps]
      | split
  | succ n ih =>
    rw [decideMusters]
    repeat' first
      | with_reducible assumption
      | with_reducible apply ih
      | with_reducible apply answerMuster_keeps
      | (with_reducible refine Keeps.foldl ?_ (fun t x h => ?_))
      | (with_reducible refine Keeps.foldlFst ?_ (fun t x h => ?_))
      | (with_reducible refine Keeps.foldlSnd ?_ (fun t x h => ?_))
      | with_reducible apply Keeps.ite
      | (lift_lets; intro x; refine Keeps.cut (s := s0) (x := x) ?_ ?_; rotate_left; intro hx; clear_value x; rotate_left; subst x)
      | (lift_lets; intro (x : Memory); subst x)
      | (lift_lets; intro (x : Flash); subst x)
      | (lift_lets; intro (x : State → State × Nat × Nat); subst x)
      | (lift_lets; intro (x : State → State); subst x)
      | (lift_lets; intro (x : State → State × Result); subst x)
      | (lift_lets; intro x; clear_value x)
      | rw [answered_base]
      | dsimp only [Keeps]
      | split

theorem takeMuster_keeps {s0 s : State} {a0 a1 a2 a3 a4 a5} (h : Keeps s0 s) : Keeps s0 (takeMuster a0 a1 a2 a3 a4 a5 s) := by
  unfold takeMuster
  repeat' first
    | with_reducible assumption
    | with_reducible apply answerMuster_keeps
    | with_reducible apply hear_keeps
    | with_reducible apply decideMusters_keeps
    | with_reducible apply Keeps.ite
    | (lift_lets; intro x; refine Keeps.cut (s := s0) (x := x) ?_ ?_; rotate_left; intro hx; clear_value x; rotate_left; subst x)
    | (lift_lets; intro (x : Memory); subst x)
    | (lift_lets; intro (x : Flash); subst x)
    | (lift_lets; intro (x : State → State × Nat × Nat); subst x)
    | (lift_lets; intro (x : State → State); subst x)
    | (lift_lets; intro (x : State → State × Result); subst x)
    | (lift_lets; intro x; clear_value x)
    | dsimp only [Keeps]
    | split

theorem beginColl_keeps {s0 s : State} {a0 a1 a2 a3} (h : Keeps s0 s) : Keeps s0 (beginColl a0 a1 a2 a3 s) := by
  unfold beginColl
  repeat' first
    | with_reducible assumption
    | with_reducible apply startRun_keeps
    | with_reducible apply endColl_keeps
    | with_reducible apply moveData_keeps
    | with_reducible apply takeMuster_keeps
    | with_reducible apply sendHedge_keeps
    | with_reducible apply Keeps.ite
    | (lift_lets; intro x; refine Keeps.cut (s := s0) (x := x) ?_ ?_; rotate_left; intro hx; clear_value x; rotate_left; subst x)
    | (lift_lets; intro (x : Memory); subst x)
    | (lift_lets; intro (x : Flash); subst x)
    | (lift_lets; intro (x : State → State × Nat × Nat); subst x)
    | (lift_lets; intro (x : State → State); subst x)
    | (lift_lets; intro (x : State → State × Result); subst x)
    | (lift_lets; intro x; clear_value x)
    | dsimp only [Keeps]
    | split

theorem takeData_keeps {s0 s : State} {a0} (h : Keeps s0 s) : Keeps s0 (takeData a0 s) := by
  unfold takeData
  repeat' first
    | with_reducible assumption
    | with_reducible apply hear_keeps
    | with_reducible apply countColl_keeps
    | with_reducible apply tryComplete_keeps
    | with_reducible apply setFinal_keeps
    | with_reducible apply setSeg_keeps
    | with_reducible apply advanceSegment_keeps
    | with_reducible apply Keeps.ite
    | (lift_lets; intro x; refine Keeps.cut (s := s0) (x := x) ?_ ?_; rotate_left; intro hx; clear_value x; rotate_left; subst x)
    | (lift_lets; intro (x : Memory); subst x)
    | (lift_lets; intro (x : Flash); subst x)
    | (lift_lets; intro (x : State → State × Nat × Nat); subst x)
    | (lift_lets; intro (x : State → State); subst x)
    | (lift_lets; intro (x : State → State × Result); subst x)
    | (lift_lets; intro x; clear_value x)
    | dsimp only [Keeps]
    | split

theorem endOfData_keeps {s0 s : State} {a0 a1 a2} (h : Keeps s0 s) : Keeps s0 (endOfData a0 a1 a2 s) := by
  unfold endOfData
  repeat' first
    | with_reducible assumption
    | with_reducible apply endColl_keeps
    | with_reducible apply sendHedge_keeps
    | with_reducible apply Keeps.ite
    | (lift_lets; intro x; refine Keeps.cut (s := s0) (x := x) ?_ ?_; rotate_left; intro hx; clear_value x; rotate_left; subst x)
    | (lift_lets; intro (x : Memory); subst x)
    | (lift_lets; intro (x : Flash); subst x)
    | (lift_lets; intro (x : State → State × Nat × Nat); subst x)
    | (lift_lets; intro (x : State → State); subst x)
    | (lift_lets; intro (x : State → State × Result); subst x)
    | (lift_lets; intro x; clear_value x)
    | dsimp only [Keeps]
    | split

theorem resendRange_keeps {s0 s : State} {a0 a1 a2} (h : Keeps s0 s) : Keeps s0 (resendRange a0 a1 a2 s) := by
  unfold resendRange
  repeat' first
    | with_reducible assumption
    | with_reducible apply passPart_keeps
    | (with_reducible refine Keeps.foldl ?_ (fun t x h => ?_))
    | (with_reducible refine Keeps.foldlFst ?_ (fun t x h => ?_))
    | (with_reducible refine Keeps.foldlSnd ?_ (fun t x h => ?_))
    | with_reducible apply Keeps.ite
    | dsimp only [Keeps]
    | split

end Sys2Proof.Laws
end

