-- ==== Sys2Proof/Laws/KeepsSahith.lean ====
section
/-!
SUPPORT. `Keeps` for the operations of Machine/Sahith.lean.
-/
namespace Sys2Proof.Laws

open Sys2Proof Sys2Proof.Machine

theorem sahithOn_keeps {s0 s : State} {a0 a1 a2} (h : Keeps s0 s) : Keeps s0 (sahithOn a0 a1 a2 s) := by
  unfold sahithOn
  repeat' first
    | with_reducible assumption
    | with_reducible apply Keeps.ite
    | dsimp only [Keeps]
    | split

end Sys2Proof.Laws
end

