-- ==== Sys2Proof/Laws/KeepsSampling.lean ====
section
/-!
SUPPORT. `Keeps` for the operations of Machine/Sampling.lean.
-/
namespace Sys2Proof.Laws

open Sys2Proof Sys2Proof.Machine

theorem toSamples_keeps {s0 s : State} {a0 a1} (h : Keeps s0 s) : Keeps s0 (toSamples a0 a1 s) := by
  unfold toSamples
  repeat' first
    | with_reducible assumption
    | with_reducible apply masterWrite_keeps
    | with_reducible apply Keeps.ite
    | with_reducible apply KeepsParts.tsetBytes
    | dsimp only [Keeps]
    | split

theorem sampleControl_keeps {s0 s : State} (h : Keeps s0 s) : Keeps s0 (sampleControl s) := by
  unfold sampleControl
  repeat' first
    | with_reducible assumption
    | with_reducible apply toSamples_keeps
    | with_reducible apply Keeps.ite
    | dsimp only [Keeps]
    | split

theorem wrapEvent_keeps {s0 s : State} (h : Keeps s0 s) : Keeps s0 (wrapEvent s) := by
  unfold wrapEvent
  repeat' first
    | with_reducible assumption
    | with_reducible apply raise_keeps
    | with_reducible apply Keeps.ite
    | (lift_lets; intro x; refine Keeps.cut (s := s0) (x := x) ?_ ?_; rotate_left; intro hx; clear_value x; rotate_left; subst x)
    | (lift_lets; intro (x : Memory); subst x)
    | (lift_lets; intro (x : Flash); subst x)
    | (lift_lets; intro (x : State → State × Nat × Nat); subst x)
    | (lift_lets; intro (x : State → State); subst x)
    | (lift_lets; intro (x : State → State × Result); subst x)
    | (lift_lets; intro x; clear_value x)
    | dsimp only [Keeps]
    | split

theorem writeSample_keeps {s0 s : State} {a0} (h : Keeps s0 s) : Keeps s0 (writeSample a0 s) := by
  unfold writeSample
  repeat' first
    | with_reducible assumption
    | with_reducible apply toSamples_keeps
    | with_reducible apply wrapEvent_keeps
    | with_reducible apply sampleControl_keeps
    | with_reducible apply Keeps.ite
    | (lift_lets; intro x; refine Keeps.cut (s := s0) (x := x) ?_ ?_; rotate_left; intro hx; clear_value x; rotate_left; subst x)
    | (lift_lets; intro (x : Memory); subst x)
    | (lift_lets; intro (x : Flash); subst x)
    | (lift_lets; intro (x : State → State × Nat × Nat); subst x)
    | (lift_lets; intro (x : State → State); subst x)
    | (lift_lets; intro (x : State → State × Result); subst x)
    | (lift_lets; intro x; clear_value x)
    | dsimp only [Keeps]
    | split

theorem takeConsumed_keeps {s0 s : State} {a0} (h : Keeps s0 s) : Keeps s0 (takeConsumed a0 s) := by
  unfold takeConsumed
  repeat' first
    | with_reducible assumption
    | with_reducible apply Keeps.ite
    | dsimp only [Keeps]
    | split

theorem takeCounterRecord_keeps {s0 s : State} (h : Keeps s0 s) : Keeps s0 (takeCounterRecord s) := by
  unfold takeCounterRecord
  repeat' first
    | with_reducible assumption
    | with_reducible apply writeSample_keeps
    | with_reducible apply Keeps.ite
    | dsimp only [Keeps]
    | split

theorem counterSample_keeps {s0 s : State} {a0} (h : Keeps s0 s) : Keeps s0 (counterSample a0 s) := by
  unfold counterSample
  repeat' first
    | with_reducible assumption
    | with_reducible apply takeCounterRecord_keeps
    | with_reducible apply takeConsumed_keeps
    | with_reducible apply Keeps.ite
    | (lift_lets; intro x; refine Keeps.cut (s := s0) (x := x) ?_ ?_; rotate_left; intro hx; clear_value x; rotate_left; subst x)
    | (lift_lets; intro (x : Memory); subst x)
    | (lift_lets; intro (x : Flash); subst x)
    | (lift_lets; intro (x : State → State × Nat × Nat); subst x)
    | (lift_lets; intro (x : State → State); subst x)
    | (lift_lets; intro (x : State → State × Result); subst x)
    | (lift_lets; intro x; clear_value x)
    | dsimp only [Keeps]
    | split

theorem pcSample_keeps {s0 s : State} {a0 a1} (h : Keeps s0 s) : Keeps s0 (pcSample a0 a1 s) := by
  unfold pcSample
  repeat' first
    | with_reducible assumption
    | with_reducible apply takeConsumed_keeps
    | with_reducible apply writeSample_keeps
    | with_reducible apply Keeps.ite
    | (lift_lets; intro x; refine Keeps.cut (s := s0) (x := x) ?_ ?_; rotate_left; intro hx; clear_value x; rotate_left; subst x)
    | (lift_lets; intro (x : Memory); subst x)
    | (lift_lets; intro (x : Flash); subst x)
    | (lift_lets; intro (x : State → State × Nat × Nat); subst x)
    | (lift_lets; intro (x : State → State); subst x)
    | (lift_lets; intro (x : State → State × Result); subst x)
    | (lift_lets; intro x; clear_value x)
    | dsimp only [Keeps]
    | split

theorem execCounterSample_keeps {s0 s : State} {a0} (h : Keeps s0 s) {t} (e : execCounterSample a0 s = .next t) : Keeps s0 t := by
  unfold execCounterSample at e
  first
    | (replace e := Host.Outcome.next.inj e; subst e)
    | cases e
  repeat' first
    | with_reducible assumption
    | with_reducible apply counterSample_keeps
    | with_reducible apply Keeps.ite
    | dsimp only [Keeps]
    | split

theorem execPcSample_keeps {s0 s : State} {a0 a1} (h : Keeps s0 s) {t} (e : execPcSample a0 a1 s = .next t) : Keeps s0 t := by
  unfold execPcSample at e
  first
    | (replace e := Host.Outcome.next.inj e; subst e)
    | cases e
  repeat' first
    | with_reducible assumption
    | with_reducible apply pcSample_keeps
    | with_reducible apply Keeps.ite
    | dsimp only [Keeps]
    | split

theorem configureCounters_keeps {s0 s : State} {a0} (h : Keeps s0 s) : Keeps s0 (configureCounters a0 s) := by
  unfold configureCounters
  repeat' first
    | with_reducible assumption
    | with_reducible apply sampleControl_keeps
    | with_reducible apply takeCounterRecord_keeps
    | with_reducible apply Keeps.ite
    | (lift_lets; intro x; refine Keeps.cut (s := s0) (x := x) ?_ ?_; rotate_left; intro hx; clear_value x; rotate_left; subst x)
    | (lift_lets; intro (x : Memory); subst x)
    | (lift_lets; intro (x : Flash); subst x)
    | (lift_lets; intro (x : State → State × Nat × Nat); subst x)
    | (lift_lets; intro (x : State → State); subst x)
    | (lift_lets; intro (x : State → State × Result); subst x)
    | (lift_lets; intro x; clear_value x)
    | dsimp only [Keeps]
    | split

theorem clearCounters_keeps {s0 s : State} {a0} (h : Keeps s0 s) : Keeps s0 (clearCounters a0 s) := by
  unfold clearCounters
  repeat' first
    | with_reducible assumption
    | (with_reducible refine Keeps.foldl ?_ (fun t x h => ?_))
    | (with_reducible refine Keeps.foldlFst ?_ (fun t x h => ?_))
    | (with_reducible refine Keeps.foldlSnd ?_ (fun t x h => ?_))
    | with_reducible apply Keeps.ite
    | dsimp only [Keeps]
    | split

theorem resultAt_keeps {s0 s : State} {a0 a1 a2} (h : Keeps s0 s) : Keeps s0 (resultAt a0 a1 a2 s) := by
  unfold resultAt
  repeat' first
    | with_reducible assumption
    | with_reducible apply masterWrite_keeps
    | with_reducible apply Keeps.ite
    | dsimp only [Keeps]
    | split

theorem applyCounters_keeps {s0 s : State} {a0 a1 a2} (h : Keeps s0 s) : Keeps s0 (applyCounters a0 a1 a2 s) := by
  unfold applyCounters
  repeat' first
    | with_reducible assumption
    | with_reducible apply configureCounters_keeps
    | with_reducible apply resultAt_keeps
    | with_reducible apply clearCounters_keeps
    | with_reducible apply Keeps.ite
    | dsimp only [Keeps]
    | split

theorem armSheaf_keeps {s0 s : State} (h : Keeps s0 s) : Keeps s0 (armSheaf s) := by
  unfold armSheaf
  repeat' first
    | with_reducible assumption
    | with_reducible apply Keeps.ite
    | (lift_lets; intro x; refine Keeps.cut (s := s0) (x := x) ?_ ?_; rotate_left; intro hx; clear_value x; rotate_left; subst x)
    | (lift_lets; intro (x : Memory); subst x)
    | (lift_lets; intro (x : Flash); subst x)
    | (lift_lets; intro (x : State → State × Nat × Nat); subst x)
    | (lift_lets; intro (x : State → State); subst x)
    | (lift_lets; intro (x : State → State × Result); subst x)
    | (lift_lets; intro x; clear_value x)
    | dsimp only [Keeps]
    | split

theorem configureSheaf_keeps {s0 s : State} {a0} (h : Keeps s0 s) : Keeps s0 (configureSheaf a0 s) := by
  unfold configureSheaf
  repeat' first
    | with_reducible assumption
    | with_reducible apply armSheaf_keeps
    | with_reducible apply Keeps.ite
    | (lift_lets; intro x; refine Keeps.cut (s := s0) (x := x) ?_ ?_; rotate_left; intro hx; clear_value x; rotate_left; subst x)
    | (lift_lets; intro (x : Memory); subst x)
    | (lift_lets; intro (x : Flash); subst x)
    | (lift_lets; intro (x : State → State × Nat × Nat); subst x)
    | (lift_lets; intro (x : State → State); subst x)
    | (lift_lets; intro (x : State → State × Result); subst x)
    | (lift_lets; intro x; clear_value x)
    | dsimp only [Keeps]
    | split

theorem applyTrace_keeps {s0 s : State} {a0 a1 a2} (h : Keeps s0 s) : Keeps s0 (applyTrace a0 a1 a2 s) := by
  unfold applyTrace
  repeat' first
    | with_reducible assumption
    | with_reducible apply configureSheaf_keeps
    | with_reducible apply armSheaf_keeps
    | with_reducible apply resultAt_keeps
    | with_reducible apply Keeps.ite
    | dsimp only [Keeps]
    | split

theorem sheafThresholdTest_keeps {s0 s : State} (h : Keeps s0 s) : Keeps s0 (sheafThresholdTest s) := by
  unfold sheafThresholdTest
  repeat' first
    | with_reducible assumption
    | with_reducible apply sheafTriggerOf_keeps
    | with_reducible apply Keeps.ite
    | (lift_lets; intro x; refine Keeps.cut (s := s0) (x := x) ?_ ?_; rotate_left; intro hx; clear_value x; rotate_left; subst x)
    | (lift_lets; intro (x : Memory); subst x)
    | (lift_lets; intro (x : Flash); subst x)
    | (lift_lets; intro (x : State → State × Nat × Nat); subst x)
    | (lift_lets; intro (x : State → State); subst x)
    | (lift_lets; intro (x : State → State × Result); subst x)
    | (lift_lets; intro x; clear_value x)
    | dsimp only [Keeps]
    | split

theorem sheafFreeze_keeps {s0 s : State} (h : Keeps s0 s) : Keeps s0 (sheafFreeze s) := by
  unfold sheafFreeze
  repeat' first
    | with_reducible assumption
    | with_reducible apply raise_keeps
    | with_reducible apply Keeps.ite
    | (lift_lets; intro x; refine Keeps.cut (s := s0) (x := x) ?_ ?_; rotate_left; intro hx; clear_value x; rotate_left; subst x)
    | (lift_lets; intro (x : Memory); subst x)
    | (lift_lets; intro (x : Flash); subst x)
    | (lift_lets; intro (x : State → State × Nat × Nat); subst x)
    | (lift_lets; intro (x : State → State); subst x)
    | (lift_lets; intro (x : State → State × Result); subst x)
    | (lift_lets; intro x; clear_value x)
    | dsimp only [Keeps]
    | split

theorem execSheafThresholdTest_keeps {s0 s : State} (h : Keeps s0 s) {t} (e : execSheafThresholdTest s = .next t) : Keeps s0 t := by
  unfold execSheafThresholdTest at e
  first
    | (replace e := Host.Outcome.next.inj e; subst e)
    | cases e
  repeat' first
    | with_reducible assumption
    | with_reducible apply sheafThresholdTest_keeps
    | with_reducible apply Keeps.ite
    | dsimp only [Keeps]
    | split

theorem execSheafFreeze_keeps {s0 s : State} (h : Keeps s0 s) {t} (e : execSheafFreeze s = .next t) : Keeps s0 t := by
  unfold execSheafFreeze at e
  first
    | (replace e := Host.Outcome.next.inj e; subst e)
    | cases e
  repeat' first
    | with_reducible assumption
    | with_reducible apply sheafFreeze_keeps
    | with_reducible apply Keeps.ite
    | dsimp only [Keeps]
    | split

end Sys2Proof.Laws
end

