-- ==== Sys2Proof/Laws/KeepsDescriptors.lean ====
section
/-!
SUPPORT. `Keeps` for the operations of Machine/Descriptors.lean.
-/
namespace Sys2Proof.Laws

open Sys2Proof Sys2Proof.Machine

theorem toTargets_keeps {s0 s : State} {a0 a1 a2 a3 a4} (h : Keeps s0 s) : Keeps s0 (toTargets a0 a1 a2 a3 a4 s).1 := by
  unfold toTargets
  repeat' first
    | with_reducible assumption
    | with_reducible apply sendHedge_keeps
    | (with_reducible refine Keeps.foldl ?_ (fun t x h => ?_))
    | (with_reducible refine Keeps.foldlFst ?_ (fun t x h => ?_))
    | (with_reducible refine Keeps.foldlSnd ?_ (fun t x h => ?_))
    | with_reducible apply Keeps.ite
    | dsimp only [Keeps]
    | split

theorem toTargets_keeps_eq {s0 s : State} {a0 a1 a2 a3 a4} (h : Keeps s0 s) {t u} (e : toTargets a0 a1 a2 a3 a4 s = (t, u)) : Keeps s0 t := by
  have k : Keeps s0 (toTargets a0 a1 a2 a3 a4 s).1 := toTargets_keeps h 
  rw [e] at k; exact k

theorem spreadIf_keeps {s0 : State} {a0 a1 a2} (k_a2 : Keeps s0 a2.1) : Keeps s0 (spreadIf a0 a1 a2).1 := by
  unfold spreadIf
  repeat' first
    | with_reducible assumption
    | with_reducible apply k_a2
    | with_reducible apply spread_keeps
    | with_reducible apply Keeps.ite
    | dsimp only [Keeps]
    | split

theorem spreadIf_keeps_eq {s0 : State} {a0 a1 a2} (k_a2 : Keeps s0 a2.1) {t u} (e : spreadIf a0 a1 a2 = (t, u)) : Keeps s0 t := by
  have k : Keeps s0 (spreadIf a0 a1 a2).1 := spreadIf_keeps k_a2
  rw [e] at k; exact k

theorem runGraphSubmit_keeps {s0 s : State} {a0} (h : Keeps s0 s) : Keeps s0 (runGraphSubmit a0 s).1 := by
  unfold runGraphSubmit
  repeat' first
    | with_reducible assumption
    | with_reducible apply refuse_keeps
    | (with_reducible refine refuse_keeps_eq ?_ (by with_reducible assumption))
    | with_reducible apply spreadIf_keeps
    | (with_reducible refine spreadIf_keeps_eq ?_ (by with_reducible assumption))
    | with_reducible apply submitGraph_keeps
    | (with_reducible refine submitGraph_keeps_eq ?_ (by with_reducible assumption))
    | intro t h
    | with_reducible apply Keeps.ite
    | dsimp only [Keeps]
    | split

theorem runGraphSubmit_keeps_eq {s0 s : State} {a0} (h : Keeps s0 s) {t u} (e : runGraphSubmit a0 s = (t, u)) : Keeps s0 t := by
  have k : Keeps s0 (runGraphSubmit a0 s).1 := runGraphSubmit_keeps h 
  rw [e] at k; exact k

theorem retireSegment_keeps {s0 s : State} {a0} (h : Keeps s0 s) : Keeps s0 (retireSegment a0 s) := by
  unfold retireSegment
  repeat' first
    | with_reducible assumption
    | with_reducible apply Keeps.ite
    | dsimp only [Keeps]
    | split

theorem runGraphRetire_keeps {s0 s : State} {a0} (h : Keeps s0 s) : Keeps s0 (runGraphRetire a0 s).1 := by
  unfold runGraphRetire
  repeat' first
    | with_reducible assumption
    | with_reducible apply refuse_keeps
    | (with_reducible refine refuse_keeps_eq ?_ (by with_reducible assumption))
    | with_reducible apply accept_keeps
    | (with_reducible refine accept_keeps_eq ?_ (by with_reducible assumption))
    | with_reducible apply spread_keeps
    | with_reducible apply retireSegment_keeps
    | with_reducible apply Keeps.ite
    | (lift_lets; intro x; refine Keeps.cut (s := s0) (x := x) ?_ ?_; rotate_left; intro hx; clear_value x; rotate_left; subst x)
    | (lift_lets; intro (x : Memory); subst x)
    | (lift_lets; intro (x : Flash); subst x)
    | (lift_lets; intro (x : State → State × Nat × Nat); subst x)
    | (lift_lets; intro (x : State → State); subst x)
    | (lift_lets; intro (x : State → State × Result); subst x)
    | (lift_lets; intro x; clear_value x)
    | dsimp only [Keeps]
    | split

theorem runGraphRetire_keeps_eq {s0 s : State} {a0} (h : Keeps s0 s) {t u} (e : runGraphRetire a0 s = (t, u)) : Keeps s0 t := by
  have k : Keeps s0 (runGraphRetire a0 s).1 := runGraphRetire_keeps h 
  rw [e] at k; exact k

theorem defineTensor_keeps {s0 s : State} {a0 a1 a2} (h : Keeps s0 s) : Keeps s0 (defineTensor a0 a1 a2 s) := by
  unfold defineTensor
  repeat' first
    | with_reducible assumption
    | with_reducible apply pinTensor_keeps
    | with_reducible apply Keeps.ite
    | (lift_lets; intro x; refine Keeps.cut (s := s0) (x := x) ?_ ?_; rotate_left; intro hx; clear_value x; rotate_left; subst x)
    | (lift_lets; intro (x : Memory); subst x)
    | (lift_lets; intro (x : Flash); subst x)
    | (lift_lets; intro (x : State → State × Nat × Nat); subst x)
    | (lift_lets; intro (x : State → State); subst x)
    | (lift_lets; intro (x : State → State × Result); subst x)
    | (lift_lets; intro x; clear_value x)
    | dsimp only [Keeps]
    | split

theorem runTensorDefine_keeps {s0 s : State} {a0} (h : Keeps s0 s) : Keeps s0 (runTensorDefine a0 s).1 := by
  unfold runTensorDefine
  repeat' first
    | with_reducible assumption
    | with_reducible apply refuse_keeps
    | (with_reducible refine refuse_keeps_eq ?_ (by with_reducible assumption))
    | with_reducible apply spread_keeps
    | with_reducible apply defineTensor_keeps
    | with_reducible apply Keeps.ite
    | (lift_lets; intro x; refine Keeps.cut (s := s0) (x := x) ?_ ?_; rotate_left; intro hx; clear_value x; rotate_left; subst x)
    | (lift_lets; intro (x : Memory); subst x)
    | (lift_lets; intro (x : Flash); subst x)
    | (lift_lets; intro (x : State → State × Nat × Nat); subst x)
    | (lift_lets; intro (x : State → State); subst x)
    | (lift_lets; intro (x : State → State × Result); subst x)
    | (lift_lets; intro x; clear_value x)
    | dsimp only [Keeps]
    | split

theorem runTensorDefine_keeps_eq {s0 s : State} {a0} (h : Keeps s0 s) {t u} (e : runTensorDefine a0 s = (t, u)) : Keeps s0 t := by
  have k : Keeps s0 (runTensorDefine a0 s).1 := runTensorDefine_keeps h 
  rw [e] at k; exact k

theorem releaseTensor_keeps {s0 s : State} {a0} (h : Keeps s0 s) : Keeps s0 (releaseTensor a0 s) := by
  unfold releaseTensor
  repeat' first
    | with_reducible assumption
    | with_reducible apply Keeps.ite
    | dsimp only [Keeps]
    | split

theorem runTensorRelease_keeps {s0 s : State} {a0} (h : Keeps s0 s) : Keeps s0 (runTensorRelease a0 s).1 := by
  unfold runTensorRelease
  repeat' first
    | with_reducible assumption
    | with_reducible apply refuse_keeps
    | (with_reducible refine refuse_keeps_eq ?_ (by with_reducible assumption))
    | with_reducible apply spread_keeps
    | with_reducible apply releaseTensor_keeps
    | with_reducible apply Keeps.ite
    | (lift_lets; intro x; refine Keeps.cut (s := s0) (x := x) ?_ ?_; rotate_left; intro hx; clear_value x; rotate_left; subst x)
    | (lift_lets; intro (x : Memory); subst x)
    | (lift_lets; intro (x : Flash); subst x)
    | (lift_lets; intro (x : State → State × Nat × Nat); subst x)
    | (lift_lets; intro (x : State → State); subst x)
    | (lift_lets; intro (x : State → State × Result); subst x)
    | (lift_lets; intro x; clear_value x)
    | dsimp only [Keeps]
    | split

theorem runTensorRelease_keeps_eq {s0 s : State} {a0} (h : Keeps s0 s) {t u} (e : runTensorRelease a0 s = (t, u)) : Keeps s0 t := by
  have k : Keeps s0 (runTensorRelease a0 s).1 := runTensorRelease_keeps h 
  rw [e] at k; exact k

theorem raiseLimit_keeps {s0 s : State} {a0} (h : Keeps s0 s) : Keeps s0 (raiseLimit a0 s) := by
  unfold raiseLimit
  repeat' first
    | with_reducible assumption
    | with_reducible apply Keeps.ite
    | dsimp only [Keeps]
    | split

theorem runFurrowAdvance_keeps {s0 s : State} {a0} (h : Keeps s0 s) : Keeps s0 (runFurrowAdvance a0 s).1 := by
  unfold runFurrowAdvance
  repeat' first
    | with_reducible assumption
    | with_reducible apply refuse_keeps
    | (with_reducible refine refuse_keeps_eq ?_ (by with_reducible assumption))
    | with_reducible apply spread_keeps
    | with_reducible apply raiseLimit_keeps
    | with_reducible apply Keeps.ite
    | (lift_lets; intro x; refine Keeps.cut (s := s0) (x := x) ?_ ?_; rotate_left; intro hx; clear_value x; rotate_left; subst x)
    | (lift_lets; intro (x : Memory); subst x)
    | (lift_lets; intro (x : Flash); subst x)
    | (lift_lets; intro (x : State → State × Nat × Nat); subst x)
    | (lift_lets; intro (x : State → State); subst x)
    | (lift_lets; intro (x : State → State × Result); subst x)
    | (lift_lets; intro x; clear_value x)
    | dsimp only [Keeps]
    | split

theorem runFurrowAdvance_keeps_eq {s0 s : State} {a0} (h : Keeps s0 s) {t u} (e : runFurrowAdvance a0 s = (t, u)) : Keeps s0 t := by
  have k : Keeps s0 (runFurrowAdvance a0 s).1 := runFurrowAdvance_keeps h 
  rw [e] at k; exact k

theorem runStop_keeps {s0 s : State} {a0 a1 a2} (h : Keeps s0 s) : Keeps s0 (runStop a0 a1 a2 s).1 := by
  unfold runStop
  repeat' first
    | with_reducible assumption
    | with_reducible apply refuse_keeps
    | (with_reducible refine refuse_keeps_eq ?_ (by with_reducible assumption))
    | with_reducible apply accept_keeps
    | (with_reducible refine accept_keeps_eq ?_ (by with_reducible assumption))
    | with_reducible apply orderStop_keeps
    | with_reducible apply Keeps.ite
    | (lift_lets; intro x; refine Keeps.cut (s := s0) (x := x) ?_ ?_; rotate_left; intro hx; clear_value x; rotate_left; subst x)
    | (lift_lets; intro (x : Memory); subst x)
    | (lift_lets; intro (x : Flash); subst x)
    | (lift_lets; intro (x : State → State × Nat × Nat); subst x)
    | (lift_lets; intro (x : State → State); subst x)
    | (lift_lets; intro (x : State → State × Result); subst x)
    | (lift_lets; intro x; clear_value x)
    | dsimp only [Keeps]
    | split

theorem runStop_keeps_eq {s0 s : State} {a0 a1 a2} (h : Keeps s0 s) {t u} (e : runStop a0 a1 a2 s = (t, u)) : Keeps s0 t := by
  have k : Keeps s0 (runStop a0 a1 a2 s).1 := runStop_keeps h 
  rw [e] at k; exact k

theorem orderRollBack_keeps {s0 s : State} {a0} (h : Keeps s0 s) : Keeps s0 (orderRollBack a0 s) := by
  unfold orderRollBack
  repeat' first
    | with_reducible assumption
    | with_reducible apply sendHedge_keeps
    | with_reducible apply applyResume_keeps
    | with_reducible apply Keeps.ite
    | (lift_lets; intro x; refine Keeps.cut (s := s0) (x := x) ?_ ?_; rotate_left; intro hx; clear_value x; rotate_left; subst x)
    | (lift_lets; intro (x : Memory); subst x)
    | (lift_lets; intro (x : Flash); subst x)
    | (lift_lets; intro (x : State → State × Nat × Nat); subst x)
    | (lift_lets; intro (x : State → State); subst x)
    | (lift_lets; intro (x : State → State × Result); subst x)
    | (lift_lets; intro x; clear_value x)
    | dsimp only [Keeps]
    | split

theorem runResume_keeps {s0 s : State} {a0} (h : Keeps s0 s) : Keeps s0 (runResume a0 s).1 := by
  unfold runResume
  repeat' first
    | with_reducible assumption
    | with_reducible apply refuse_keeps
    | (with_reducible refine refuse_keeps_eq ?_ (by with_reducible assumption))
    | with_reducible apply spread_keeps
    | with_reducible apply releaseCut_keeps
    | with_reducible apply orderRollBack_keeps
    | with_reducible apply Keeps.ite
    | (lift_lets; intro x; refine Keeps.cut (s := s0) (x := x) ?_ ?_; rotate_left; intro hx; clear_value x; rotate_left; subst x)
    | (lift_lets; intro (x : Memory); subst x)
    | (lift_lets; intro (x : Flash); subst x)
    | (lift_lets; intro (x : State → State × Nat × Nat); subst x)
    | (lift_lets; intro (x : State → State); subst x)
    | (lift_lets; intro (x : State → State × Result); subst x)
    | (lift_lets; intro x; clear_value x)
    | dsimp only [Keeps]
    | split

theorem runResume_keeps_eq {s0 s : State} {a0} (h : Keeps s0 s) {t u} (e : runResume a0 s = (t, u)) : Keeps s0 t := by
  have k : Keeps s0 (runResume a0 s).1 := runResume_keeps h 
  rw [e] at k; exact k

theorem setMode_keeps {s0 s : State} {a0 a1} (h : Keeps s0 s) : Keeps s0 (setMode a0 a1 s) := by
  unfold setMode
  repeat' first
    | with_reducible assumption
    | with_reducible apply Keeps.ite
    | dsimp only [Keeps]
    | split

theorem runModeSet_keeps {s0 s : State} {a0} (h : Keeps s0 s) : Keeps s0 (runModeSet a0 s).1 := by
  unfold runModeSet
  repeat' first
    | with_reducible assumption
    | with_reducible apply refuse_keeps
    | (with_reducible refine refuse_keeps_eq ?_ (by with_reducible assumption))
    | with_reducible apply spread_keeps
    | with_reducible apply setMode_keeps
    | with_reducible apply Keeps.ite
    | dsimp only [Keeps]
    | split

theorem runModeSet_keeps_eq {s0 s : State} {a0} (h : Keeps s0 s) {t u} (e : runModeSet a0 s = (t, u)) : Keeps s0 t := by
  have k : Keeps s0 (runModeSet a0 s).1 := runModeSet_keeps h 
  rw [e] at k; exact k

theorem runVoteSupply_keeps {s0 s : State} {a0} (h : Keeps s0 s) : Keeps s0 (runVoteSupply a0 s).1 := by
  unfold runVoteSupply
  repeat' first
    | with_reducible assumption
    | with_reducible apply refuse_keeps
    | (with_reducible refine refuse_keeps_eq ?_ (by with_reducible assumption))
    | with_reducible apply takeDecision_keeps
    | with_reducible apply Keeps.ite
    | (lift_lets; intro x; refine Keeps.cut (s := s0) (x := x) ?_ ?_; rotate_left; intro hx; clear_value x; rotate_left; subst x)
    | (lift_lets; intro (x : Memory); subst x)
    | (lift_lets; intro (x : Flash); subst x)
    | (lift_lets; intro (x : State → State × Nat × Nat); subst x)
    | (lift_lets; intro (x : State → State); subst x)
    | (lift_lets; intro (x : State → State × Result); subst x)
    | (lift_lets; intro x; clear_value x)
    | dsimp only [Keeps]
    | split

theorem runVoteSupply_keeps_eq {s0 s : State} {a0} (h : Keeps s0 s) {t u} (e : runVoteSupply a0 s = (t, u)) : Keeps s0 t := by
  have k : Keeps s0 (runVoteSupply a0 s).1 := runVoteSupply_keeps h 
  rw [e] at k; exact k

theorem keepReplay_keeps {s0 s : State} {a0} (h : Keeps s0 s) : Keeps s0 (keepReplay a0 s) := by
  unfold keepReplay
  repeat' first
    | with_reducible assumption
    | with_reducible apply Keeps.ite
    | dsimp only [Keeps]
    | split

theorem beginRun_keeps {s0 s : State} {a0 a1} (h : Keeps s0 s) : Keeps s0 (beginRun a0 a1 s) := by
  unfold beginRun
  repeat' first
    | with_reducible assumption
    | with_reducible apply lockRegisters_keeps
    | with_reducible apply sow_keeps
    | with_reducible apply createStep_keeps
    | with_reducible apply openVote_keeps
    | with_reducible apply keepReplay_keeps
    | with_reducible apply Keeps.ite
    | (lift_lets; intro x; refine Keeps.cut (s := s0) (x := x) ?_ ?_; rotate_left; intro hx; clear_value x; rotate_left; subst x)
    | (lift_lets; intro (x : Memory); subst x)
    | (lift_lets; intro (x : Flash); subst x)
    | (lift_lets; intro (x : State → State × Nat × Nat); subst x)
    | (lift_lets; intro (x : State → State); subst x)
    | (lift_lets; intro (x : State → State × Result); subst x)
    | (lift_lets; intro x; clear_value x)
    | dsimp only [Keeps]
    | split

theorem takeBegin_keeps {s0 s : State} {a0 a1} (h : Keeps s0 s) : Keeps s0 (takeBegin a0 a1 s) := by
  unfold takeBegin
  repeat' first
    | with_reducible assumption
    | with_reducible apply finishJobs_keeps
    | with_reducible apply spread_keeps
    | with_reducible apply sendHedge_keeps
    | with_reducible apply beginRun_keeps
    | with_reducible apply Keeps.ite
    | (lift_lets; intro x; refine Keeps.cut (s := s0) (x := x) ?_ ?_; rotate_left; intro hx; clear_value x; rotate_left; subst x)
    | (lift_lets; intro (x : Memory); subst x)
    | (lift_lets; intro (x : Flash); subst x)
    | (lift_lets; intro (x : State → State × Nat × Nat); subst x)
    | (lift_lets; intro (x : State → State); subst x)
    | (lift_lets; intro (x : State → State × Result); subst x)
    | (lift_lets; intro x; clear_value x)
    | dsimp only [Keeps]
    | split

theorem runRunBegin_keeps {s0 s : State} {a0} (h : Keeps s0 s) : Keeps s0 (runRunBegin a0 s).1 := by
  unfold runRunBegin
  repeat' first
    | with_reducible assumption
    | with_reducible apply refuse_keeps
    | (with_reducible refine refuse_keeps_eq ?_ (by with_reducible assumption))
    | with_reducible apply spread_keeps
    | with_reducible apply sendHedge_keeps
    | with_reducible apply accept_keeps
    | (with_reducible refine accept_keeps_eq ?_ (by with_reducible assumption))
    | with_reducible apply beginRun_keeps
    | with_reducible apply Keeps.ite
    | (lift_lets; intro x; refine Keeps.cut (s := s0) (x := x) ?_ ?_; rotate_left; intro hx; clear_value x; rotate_left; subst x)
    | (lift_lets; intro (x : Memory); subst x)
    | (lift_lets; intro (x : Flash); subst x)
    | (lift_lets; intro (x : State → State × Nat × Nat); subst x)
    | (lift_lets; intro (x : State → State); subst x)
    | (lift_lets; intro (x : State → State × Result); subst x)
    | (lift_lets; intro x; clear_value x)
    | dsimp only [Keeps]
    | split

theorem runRunBegin_keeps_eq {s0 s : State} {a0} (h : Keeps s0 s) {t u} (e : runRunBegin a0 s = (t, u)) : Keeps s0 t := by
  have k : Keeps s0 (runRunBegin a0 s).1 := runRunBegin_keeps h 
  rw [e] at k; exact k

theorem defineGroup_keeps {s0 s : State} {a0 a1} (h : Keeps s0 s) : Keeps s0 (defineGroup a0 a1 s).1 := by
  unfold defineGroup
  repeat' first
    | with_reducible assumption
    | with_reducible apply spreadGroup_keeps
    | (with_reducible refine spreadGroup_keeps_eq ?_ (by with_reducible assumption))
    | with_reducible apply reportReformed_keeps
    | with_reducible apply Keeps.ite
    | dsimp only [Keeps]
    | split

theorem defineGroup_keeps_eq {s0 s : State} {a0 a1} (h : Keeps s0 s) {t u} (e : defineGroup a0 a1 s = (t, u)) : Keeps s0 t := by
  have k : Keeps s0 (defineGroup a0 a1 s).1 := defineGroup_keeps h 
  rw [e] at k; exact k

theorem runGroupDefine_keeps {s0 s : State} {a0} (h : Keeps s0 s) : Keeps s0 (runGroupDefine a0 s).1 := by
  unfold runGroupDefine
  repeat' first
    | with_reducible assumption
    | with_reducible apply refuse_keeps
    | (with_reducible refine refuse_keeps_eq ?_ (by with_reducible assumption))
    | with_reducible apply defineGroup_keeps
    | (with_reducible refine defineGroup_keeps_eq ?_ (by with_reducible assumption))
    | with_reducible apply Keeps.ite
    | (lift_lets; intro x; refine Keeps.cut (s := s0) (x := x) ?_ ?_; rotate_left; intro hx; clear_value x; rotate_left; subst x)
    | (lift_lets; intro (x : Memory); subst x)
    | (lift_lets; intro (x : Flash); subst x)
    | (lift_lets; intro (x : State → State × Nat × Nat); subst x)
    | (lift_lets; intro (x : State → State); subst x)
    | (lift_lets; intro (x : State → State × Result); subst x)
    | (lift_lets; intro x; clear_value x)
    | dsimp only [Keeps]
    | split

theorem runGroupDefine_keeps_eq {s0 s : State} {a0} (h : Keeps s0 s) {t u} (e : runGroupDefine a0 s = (t, u)) : Keeps s0 t := by
  have k : Keeps s0 (runGroupDefine a0 s).1 := runGroupDefine_keeps h 
  rw [e] at k; exact k

theorem runGroupReform_keeps {s0 s : State} {a0} (h : Keeps s0 s) : Keeps s0 (runGroupReform a0 s).1 := by
  unfold runGroupReform
  repeat' first
    | with_reducible assumption
    | with_reducible apply refuse_keeps
    | (with_reducible refine refuse_keeps_eq ?_ (by with_reducible assumption))
    | with_reducible apply defineGroup_keeps
    | (with_reducible refine defineGroup_keeps_eq ?_ (by with_reducible assumption))
    | with_reducible apply raise_keeps
    | (with_reducible refine Keeps.foldl ?_ (fun t x h => ?_))
    | (with_reducible refine Keeps.foldlFst ?_ (fun t x h => ?_))
    | (with_reducible refine Keeps.foldlSnd ?_ (fun t x h => ?_))
    | with_reducible apply Keeps.ite
    | (lift_lets; intro x; refine Keeps.cut (s := s0) (x := x) ?_ ?_; rotate_left; intro hx; clear_value x; rotate_left; subst x)
    | (lift_lets; intro (x : Memory); subst x)
    | (lift_lets; intro (x : Flash); subst x)
    | (lift_lets; intro (x : State → State × Nat × Nat); subst x)
    | (lift_lets; intro (x : State → State); subst x)
    | (lift_lets; intro (x : State → State × Result); subst x)
    | (lift_lets; intro x; clear_value x)
    | dsimp only [Keeps]
    | split

theorem runGroupReform_keeps_eq {s0 s : State} {a0} (h : Keeps s0 s) {t u} (e : runGroupReform a0 s = (t, u)) : Keeps s0 t := by
  have k : Keeps s0 (runGroupReform a0 s).1 := runGroupReform_keeps h 
  rw [e] at k; exact k

theorem loadFallow_keeps {s0 s : State} {a0 a1} (h : Keeps s0 s) : Keeps s0 (loadFallow a0 a1 s) := by
  unfold loadFallow
  repeat' first
    | with_reducible assumption
    | with_reducible apply setFallow_keeps
    | with_reducible apply Keeps.ite
    | dsimp only [Keeps]
    | split

theorem awaitCopy_keeps {s0 s : State} {a0 a1 a2} (h : Keeps s0 s) : Keeps s0 (awaitCopy a0 a1 a2 s) := by
  unfold awaitCopy
  repeat' first
    | with_reducible assumption
    | with_reducible apply Keeps.ite
    | (lift_lets; intro x; refine Keeps.cut (s := s0) (x := x) ?_ ?_; rotate_left; intro hx; clear_value x; rotate_left; subst x)
    | (lift_lets; intro (x : Memory); subst x)
    | (lift_lets; intro (x : Flash); subst x)
    | (lift_lets; intro (x : State → State × Nat × Nat); subst x)
    | (lift_lets; intro (x : State → State); subst x)
    | (lift_lets; intro (x : State → State × Result); subst x)
    | (lift_lets; intro x; clear_value x)
    | dsimp only [Keeps]
    | split

theorem beginCopyIn_keeps {s0 s : State} {a0 a1 a2 a3} (h : Keeps s0 s) : Keeps s0 (beginCopyIn a0 a1 a2 a3 s) := by
  unfold beginCopyIn
  repeat' first
    | with_reducible assumption
    | with_reducible apply awaitCopy_keeps
    | with_reducible apply sendHedge_keeps
    | with_reducible apply Keeps.ite
    | (lift_lets; intro x; refine Keeps.cut (s := s0) (x := x) ?_ ?_; rotate_left; intro hx; clear_value x; rotate_left; subst x)
    | (lift_lets; intro (x : Memory); subst x)
    | (lift_lets; intro (x : Flash); subst x)
    | (lift_lets; intro (x : State → State × Nat × Nat); subst x)
    | (lift_lets; intro (x : State → State); subst x)
    | (lift_lets; intro (x : State → State × Result); subst x)
    | (lift_lets; intro x; clear_value x)
    | dsimp only [Keeps]
    | split

theorem runCopyIn_keeps {s0 s : State} {a0} (h : Keeps s0 s) : Keeps s0 (runCopyIn a0 s).1 := by
  unfold runCopyIn
  repeat' first
    | with_reducible assumption
    | with_reducible apply refuse_keeps
    | (with_reducible refine refuse_keeps_eq ?_ (by with_reducible assumption))
    | with_reducible apply toTargets_keeps
    | (with_reducible refine toTargets_keeps_eq ?_ (by with_reducible assumption))
    | with_reducible apply beginCopyIn_keeps
    | with_reducible apply Keeps.ite
    | dsimp only [Keeps]
    | split

theorem runCopyIn_keeps_eq {s0 s : State} {a0} (h : Keeps s0 s) {t u} (e : runCopyIn a0 s = (t, u)) : Keeps s0 t := by
  have k : Keeps s0 (runCopyIn a0 s).1 := runCopyIn_keeps h 
  rw [e] at k; exact k

theorem publishCopy_keeps {s0 s : State} {a0 a1 a2 a3} (h : Keeps s0 s) : Keeps s0 (publishCopy a0 a1 a2 a3 s) := by
  unfold publishCopy
  repeat' first
    | with_reducible assumption
    | with_reducible apply loadFallow_keeps
    | with_reducible apply writeNow_keeps
    | with_reducible apply touch_keeps
    | with_reducible apply writePoison_keeps
    | with_reducible apply Keeps.ite
    | (lift_lets; intro x; refine Keeps.cut (s := s0) (x := x) ?_ ?_; rotate_left; intro hx; clear_value x; rotate_left; subst x)
    | (lift_lets; intro (x : Memory); subst x)
    | (lift_lets; intro (x : Flash); subst x)
    | (lift_lets; intro (x : State → State × Nat × Nat); subst x)
    | (lift_lets; intro (x : State → State); subst x)
    | (lift_lets; intro (x : State → State × Result); subst x)
    | (lift_lets; intro x; clear_value x)
    | dsimp only [Keeps]
    | split

theorem writeRemote_keeps {s0 s : State} {a0 a1 a2 a3} (h : Keeps s0 s) : Keeps s0 (writeRemote a0 a1 a2 a3 s).2 := by
  induction a1 generalizing s a0 a2 a3 with
  | zero =>
    rw [writeRemote]
    repeat' first
      | with_reducible assumption
      | with_reducible apply ih
      | with_reducible apply issue_keeps
      | (with_reducible refine issue_keeps_eq ?_ (by with_reducible assumption))
      | with_reducible apply Keeps.ite
      | (lift_lets; intro x; refine Keeps.cut (s := s0) (x := x) ?_ ?_; rotate_left; intro hx; clear_value x; rotate_left; subst x)
      | (lift_lets; intro (x : Memory); subst x)
      | (lift_lets; intro (x : Flash); subst x)
      | (lift_lets; intro (x : State → State × Nat × Nat); subst x)
      | (lift_lets; intro (x : State → State); subst x)
      | (lift_lets; intro (x : State → State × Result); subst x)
      | (lift_lets; intro x; clear_value x)
      | dsimp only [Keeps]
      | split
  | succ n ih =>
    rw [writeRemote]
    repeat' first
      | with_reducible assumption
      | with_reducible apply ih
      | with_reducible apply issue_keeps
      | (with_reducible refine issue_keeps_eq ?_ (by with_reducible assumption))
      | with_reducible apply Keeps.ite
      | (lift_lets; intro x; refine Keeps.cut (s := s0) (x := x) ?_ ?_; rotate_left; intro hx; clear_value x; rotate_left; subst x)
      | (lift_lets; intro (x : Memory); subst x)
      | (lift_lets; intro (x : Flash); subst x)
      | (lift_lets; intro (x : State → State × Nat × Nat); subst x)
      | (lift_lets; intro (x : State → State); subst x)
      | (lift_lets; intro (x : State → State × Result); subst x)
      | (lift_lets; intro x; clear_value x)
      | dsimp only [Keeps]
      | split

theorem writeRemote_keeps_eq {s0 s : State} {a0 a1 a2 a3} (h : Keeps s0 s) {t u} (e : writeRemote a0 a1 a2 a3 s = (u, t)) : Keeps s0 t := by
  have k : Keeps s0 (writeRemote a0 a1 a2 a3 s).2 := writeRemote_keeps h 
  rw [e] at k; exact k

theorem readRemote_keeps {s0 s : State} {a0 a1 a2} (h : Keeps s0 s) : Keeps s0 (readRemote a0 a1 a2 s).2 := by
  unfold readRemote
  repeat' first
    | with_reducible assumption
    | with_reducible apply issue_keeps
    | (with_reducible refine issue_keeps_eq ?_ (by with_reducible assumption))
    | (with_reducible refine Keeps.foldl ?_ (fun t x h => ?_))
    | (with_reducible refine Keeps.foldlFst ?_ (fun t x h => ?_))
    | (with_reducible refine Keeps.foldlSnd ?_ (fun t x h => ?_))
    | with_reducible apply Keeps.ite
    | (lift_lets; intro x; refine Keeps.cut (s := s0) (x := x) ?_ ?_; rotate_left; intro hx; clear_value x; rotate_left; subst x)
    | (lift_lets; intro (x : Memory); subst x)
    | (lift_lets; intro (x : Flash); subst x)
    | (lift_lets; intro (x : State → State × Nat × Nat); subst x)
    | (lift_lets; intro (x : State → State); subst x)
    | (lift_lets; intro (x : State → State × Result); subst x)
    | (lift_lets; intro x; clear_value x)
    | dsimp only [Keeps]
    | split

theorem readRemote_keeps_eq {s0 s : State} {a0 a1 a2} (h : Keeps s0 s) {t u} (e : readRemote a0 a1 a2 s = (u, t)) : Keeps s0 t := by
  have k : Keeps s0 (readRemote a0 a1 a2 s).2 := readRemote_keeps h 
  rw [e] at k; exact k

theorem endCopy_keeps {s0 s : State} {a0 a1 a2 a3} (h : Keeps s0 s) : Keeps s0 (endCopy a0 a1 a2 a3 s) := by
  unfold endCopy
  repeat' first
    | with_reducible assumption
    | with_reducible apply sendResult_keeps
    | with_reducible apply completeLater_keeps
    | with_reducible apply Keeps.ite
    | dsimp only [Keeps]
    | split

theorem finishCopyIn_keeps {s0 s : State} {a0 a1 a2} (h : Keeps s0 s) : Keeps s0 (finishCopyIn a0 a1 a2 s) := by
  unfold finishCopyIn
  repeat' first
    | with_reducible assumption
    | with_reducible apply endCopy_keeps
    | with_reducible apply publishCopy_keeps
    | with_reducible apply writeRemote_keeps
    | (with_reducible refine writeRemote_keeps_eq ?_ (by with_reducible assumption))
    | with_reducible apply sendHedge_keeps
    | with_reducible apply Keeps.ite
    | (lift_lets; intro x; refine Keeps.cut (s := s0) (x := x) ?_ ?_; rotate_left; intro hx; clear_value x; rotate_left; subst x)
    | (lift_lets; intro (x : Memory); subst x)
    | (lift_lets; intro (x : Flash); subst x)
    | (lift_lets; intro (x : State → State × Nat × Nat); subst x)
    | (lift_lets; intro (x : State → State); subst x)
    | (lift_lets; intro (x : State → State × Result); subst x)
    | (lift_lets; intro x; clear_value x)
    | dsimp only [Keeps]
    | split

theorem endAwait_keeps {s0 s : State} {a0 a1} (h : Keeps s0 s) : Keeps s0 (endAwait a0 a1 s) := by
  unfold endAwait
  repeat' first
    | with_reducible assumption
    | with_reducible apply Keeps.ite
    | dsimp only [Keeps]
    | split

theorem failCopyIn_keeps {s0 s : State} {a0 a1 a2} (h : Keeps s0 s) : Keeps s0 (failCopyIn a0 a1 a2 s) := by
  unfold failCopyIn
  repeat' first
    | with_reducible assumption
    | with_reducible apply endAwait_keeps
    | with_reducible apply sendHedge_keeps
    | with_reducible apply endCopy_keeps
    | with_reducible apply Keeps.ite
    | (lift_lets; intro x; refine Keeps.cut (s := s0) (x := x) ?_ ?_; rotate_left; intro hx; clear_value x; rotate_left; subst x)
    | (lift_lets; intro (x : Memory); subst x)
    | (lift_lets; intro (x : Flash); subst x)
    | (lift_lets; intro (x : State → State × Nat × Nat); subst x)
    | (lift_lets; intro (x : State → State); subst x)
    | (lift_lets; intro (x : State → State × Result); subst x)
    | (lift_lets; intro x; clear_value x)
    | dsimp only [Keeps]
    | split

theorem copyToHost_keeps {s0 s : State} {a0 a1} (h : Keeps s0 s) : Keeps s0 (copyToHost a0 a1 s) := by
  unfold copyToHost
  repeat' first
    | with_reducible assumption
    | with_reducible apply hostWrite_keeps
    | with_reducible apply touch_keeps
    | (with_reducible refine Keeps.foldl ?_ (fun t x h => ?_))
    | (with_reducible refine Keeps.foldlFst ?_ (fun t x h => ?_))
    | (with_reducible refine Keeps.foldlSnd ?_ (fun t x h => ?_))
    | with_reducible apply Keeps.ite
    | (lift_lets; intro x; refine Keeps.cut (s := s0) (x := x) ?_ ?_; rotate_left; intro hx; clear_value x; rotate_left; subst x)
    | (lift_lets; intro (x : Memory); subst x)
    | (lift_lets; intro (x : Flash); subst x)
    | (lift_lets; intro (x : State → State × Nat × Nat); subst x)
    | (lift_lets; intro (x : State → State); subst x)
    | (lift_lets; intro (x : State → State × Result); subst x)
    | (lift_lets; intro x; clear_value x)
    | dsimp only [Keeps]
    | split

theorem runCopyOut_keeps {s0 s : State} {a0} (h : Keeps s0 s) : Keeps s0 (runCopyOut a0 s).1 := by
  unfold runCopyOut
  repeat' first
    | with_reducible assumption
    | with_reducible apply refuse_keeps
    | (with_reducible refine refuse_keeps_eq ?_ (by with_reducible assumption))
    | with_reducible apply toTargets_keeps
    | (with_reducible refine toTargets_keeps_eq ?_ (by with_reducible assumption))
    | with_reducible apply copyToHost_keeps
    | with_reducible apply readRemote_keeps
    | (with_reducible refine readRemote_keeps_eq ?_ (by with_reducible assumption))
    | with_reducible apply Keeps.ite
    | (lift_lets; intro x; refine Keeps.cut (s := s0) (x := x) ?_ ?_; rotate_left; intro hx; clear_value x; rotate_left; subst x)
    | (lift_lets; intro (x : Memory); subst x)
    | (lift_lets; intro (x : Flash); subst x)
    | (lift_lets; intro (x : State → State × Nat × Nat); subst x)
    | (lift_lets; intro (x : State → State); subst x)
    | (lift_lets; intro (x : State → State × Result); subst x)
    | (lift_lets; intro x; clear_value x)
    | dsimp only [Keeps]
    | split

theorem runCopyOut_keeps_eq {s0 s : State} {a0} (h : Keeps s0 s) {t u} (e : runCopyOut a0 s = (t, u)) : Keeps s0 t := by
  have k : Keeps s0 (runCopyOut a0 s).1 := runCopyOut_keeps h 
  rw [e] at k; exact k

theorem serveCopyOut_keeps {s0 s : State} {a0} (h : Keeps s0 s) : Keeps s0 (serveCopyOut a0 s) := by
  unfold serveCopyOut
  repeat' first
    | with_reducible assumption
    | with_reducible apply readRemote_keeps
    | (with_reducible refine readRemote_keeps_eq ?_ (by with_reducible assumption))
    | with_reducible apply finishJobs_keeps
    | with_reducible apply copyToHost_keeps
    | with_reducible apply Keeps.ite
    | (lift_lets; intro x; refine Keeps.cut (s := s0) (x := x) ?_ ?_; rotate_left; intro hx; clear_value x; rotate_left; subst x)
    | (lift_lets; intro (x : Memory); subst x)
    | (lift_lets; intro (x : Flash); subst x)
    | (lift_lets; intro (x : State → State × Nat × Nat); subst x)
    | (lift_lets; intro (x : State → State); subst x)
    | (lift_lets; intro (x : State → State × Result); subst x)
    | (lift_lets; intro x; clear_value x)
    | dsimp only [Keeps]
    | split

theorem serveCopyOuts_keeps {s0 s : State} (h : Keeps s0 s) : Keeps s0 (serveCopyOuts s) := by
  unfold serveCopyOuts
  repeat' first
    | with_reducible assumption
    | with_reducible apply serveCopyOut_keeps
    | (with_reducible refine Keeps.foldl ?_ (fun t x h => ?_))
    | (with_reducible refine Keeps.foldlFst ?_ (fun t x h => ?_))
    | (with_reducible refine Keeps.foldlSnd ?_ (fun t x h => ?_))
    | with_reducible apply Keeps.ite
    | dsimp only [Keeps]
    | split

theorem onTargets_keeps {s0 s : State} {a0 a1 a2 a3} (h : Keeps s0 s) (k_a3 : Keeps s0 a3.1) : Keeps s0 (onTargets a0 a1 a2 a3 s).1 := by
  unfold onTargets
  repeat' first
    | with_reducible assumption
    | with_reducible apply k_a3
    | with_reducible apply refuse_keeps
    | (with_reducible refine refuse_keeps_eq ?_ (by with_reducible assumption))
    | with_reducible apply toTargets_keeps
    | (with_reducible refine toTargets_keeps_eq ?_ (by with_reducible assumption))
    | with_reducible apply Keeps.ite
    | dsimp only [Keeps]
    | split

theorem onTargets_keeps_eq {s0 s : State} {a0 a1 a2 a3} (h : Keeps s0 s) (k_a3 : Keeps s0 a3.1) {t u} (e : onTargets a0 a1 a2 a3 s = (t, u)) : Keeps s0 t := by
  have k : Keeps s0 (onTargets a0 a1 a2 a3 s).1 := onTargets_keeps h k_a3
  rw [e] at k; exact k

theorem applyExport_keeps {s0 s : State} {a0 a1 a2} (h : Keeps s0 s) : Keeps s0 (applyExport a0 a1 a2 s).1 := by
  unfold applyExport
  repeat' first
    | with_reducible assumption
    | with_reducible apply resultAt_keeps
    | with_reducible apply installExport_keeps
    | with_reducible apply acknowledged_keeps
    | with_reducible apply Keeps.ite
    | (lift_lets; intro x; refine Keeps.cut (s := s0) (x := x) ?_ ?_; rotate_left; intro hx; clear_value x; rotate_left; subst x)
    | (lift_lets; intro (x : Memory); subst x)
    | (lift_lets; intro (x : Flash); subst x)
    | (lift_lets; intro (x : State → State × Nat × Nat); subst x)
    | (lift_lets; intro (x : State → State); subst x)
    | (lift_lets; intro (x : State → State × Result); subst x)
    | (lift_lets; intro x; clear_value x)
    | dsimp only [Keeps]
    | split

theorem applyExport_keeps_eq {s0 s : State} {a0 a1 a2} (h : Keeps s0 s) {t u} (e : applyExport a0 a1 a2 s = (t, u)) : Keeps s0 t := by
  have k : Keeps s0 (applyExport a0 a1 a2 s).1 := applyExport_keeps h 
  rw [e] at k; exact k

theorem runExport_keeps {s0 s : State} {a0} (h : Keeps s0 s) : Keeps s0 (runExport a0 s).1 := by
  unfold runExport
  repeat' first
    | with_reducible assumption
    | with_reducible apply refuse_keeps
    | (with_reducible refine refuse_keeps_eq ?_ (by with_reducible assumption))
    | with_reducible apply onTargets_keeps
    | (with_reducible refine onTargets_keeps_eq ?_ (by with_reducible assumption))
    | with_reducible apply applyExport_keeps
    | (with_reducible refine applyExport_keeps_eq ?_ (by with_reducible assumption))
    | intro t h
    | with_reducible apply Keeps.ite
    | (lift_lets; intro x; refine Keeps.cut (s := s0) (x := x) ?_ ?_; rotate_left; intro hx; clear_value x; rotate_left; subst x)
    | (lift_lets; intro (x : Memory); subst x)
    | (lift_lets; intro (x : Flash); subst x)
    | (lift_lets; intro (x : State → State × Nat × Nat); subst x)
    | (lift_lets; intro (x : State → State); subst x)
    | (lift_lets; intro (x : State → State × Result); subst x)
    | (lift_lets; intro x; clear_value x)
    | dsimp only [Keeps]
    | split

theorem runExport_keeps_eq {s0 s : State} {a0} (h : Keeps s0 s) {t u} (e : runExport a0 s = (t, u)) : Keeps s0 t := by
  have k : Keeps s0 (runExport a0 s).1 := runExport_keeps h 
  rw [e] at k; exact k

theorem applyInject_keeps {s0 s : State} {a0 a1 a2} (h : Keeps s0 s) : Keeps s0 (applyInject a0 a1 a2 s).1 := by
  unfold applyInject
  repeat' first
    | with_reducible assumption
    | with_reducible apply resultAt_keeps
    | with_reducible apply installStones_keeps
    | with_reducible apply Keeps.ite
    | (lift_lets; intro x; refine Keeps.cut (s := s0) (x := x) ?_ ?_; rotate_left; intro hx; clear_value x; rotate_left; subst x)
    | (lift_lets; intro (x : Memory); subst x)
    | (lift_lets; intro (x : Flash); subst x)
    | (lift_lets; intro (x : State → State × Nat × Nat); subst x)
    | (lift_lets; intro (x : State → State); subst x)
    | (lift_lets; intro (x : State → State × Result); subst x)
    | (lift_lets; intro x; clear_value x)
    | dsimp only [Keeps]
    | split

theorem applyInject_keeps_eq {s0 s : State} {a0 a1 a2} (h : Keeps s0 s) {t u} (e : applyInject a0 a1 a2 s = (t, u)) : Keeps s0 t := by
  have k : Keeps s0 (applyInject a0 a1 a2 s).1 := applyInject_keeps h 
  rw [e] at k; exact k

theorem runInject_keeps {s0 s : State} {a0} (h : Keeps s0 s) : Keeps s0 (runInject a0 s).1 := by
  unfold runInject
  repeat' first
    | with_reducible assumption
    | with_reducible apply refuse_keeps
    | (with_reducible refine refuse_keeps_eq ?_ (by with_reducible assumption))
    | with_reducible apply onTargets_keeps
    | (with_reducible refine onTargets_keeps_eq ?_ (by with_reducible assumption))
    | with_reducible apply applyInject_keeps
    | (with_reducible refine applyInject_keeps_eq ?_ (by with_reducible assumption))
    | intro t h
    | with_reducible apply Keeps.ite
    | dsimp only [Keeps]
    | split

theorem runInject_keeps_eq {s0 s : State} {a0} (h : Keeps s0 s) {t u} (e : runInject a0 s = (t, u)) : Keeps s0 t := by
  have k : Keeps s0 (runInject a0 s).1 := runInject_keeps h 
  rw [e] at k; exact k

theorem runCounters_keeps {s0 s : State} {a0} (h : Keeps s0 s) : Keeps s0 (runCounters a0 s).1 := by
  unfold runCounters
  repeat' first
    | with_reducible assumption
    | with_reducible apply refuse_keeps
    | (with_reducible refine refuse_keeps_eq ?_ (by with_reducible assumption))
    | with_reducible apply onTargets_keeps
    | (with_reducible refine onTargets_keeps_eq ?_ (by with_reducible assumption))
    | with_reducible apply applyCounters_keeps
    | intro t h
    | with_reducible apply Keeps.ite
    | dsimp only [Keeps]
    | split

theorem runCounters_keeps_eq {s0 s : State} {a0} (h : Keeps s0 s) {t u} (e : runCounters a0 s = (t, u)) : Keeps s0 t := by
  have k : Keeps s0 (runCounters a0 s).1 := runCounters_keeps h 
  rw [e] at k; exact k

theorem runTrace_keeps {s0 s : State} {a0} (h : Keeps s0 s) : Keeps s0 (runTrace a0 s).1 := by
  unfold runTrace
  repeat' first
    | with_reducible assumption
    | with_reducible apply refuse_keeps
    | (with_reducible refine refuse_keeps_eq ?_ (by with_reducible assumption))
    | with_reducible apply onTargets_keeps
    | (with_reducible refine onTargets_keeps_eq ?_ (by with_reducible assumption))
    | with_reducible apply applyTrace_keeps
    | intro t h
    | with_reducible apply Keeps.ite
    | dsimp only [Keeps]
    | split

theorem runTrace_keeps_eq {s0 s : State} {a0} (h : Keeps s0 s) {t u} (e : runTrace a0 s = (t, u)) : Keeps s0 t := by
  have k : Keeps s0 (runTrace a0 s).1 := runTrace_keeps h 
  rw [e] at k; exact k

theorem applyAttest_keeps {s0 s : State} {a0 a1 a2} (h : Keeps s0 s) : Keeps s0 (applyAttest a0 a1 a2 s).1 := by
  unfold applyAttest
  repeat' first
    | with_reducible assumption
    | with_reducible apply resultAt_keeps
    | with_reducible apply Keeps.ite
    | (lift_lets; intro x; refine Keeps.cut (s := s0) (x := x) ?_ ?_; rotate_left; intro hx; clear_value x; rotate_left; subst x)
    | (lift_lets; intro (x : Memory); subst x)
    | (lift_lets; intro (x : Flash); subst x)
    | (lift_lets; intro (x : State → State × Nat × Nat); subst x)
    | (lift_lets; intro (x : State → State); subst x)
    | (lift_lets; intro (x : State → State × Result); subst x)
    | (lift_lets; intro x; clear_value x)
    | dsimp only [Keeps]
    | split

theorem applyAttest_keeps_eq {s0 s : State} {a0 a1 a2} (h : Keeps s0 s) {t u} (e : applyAttest a0 a1 a2 s = (t, u)) : Keeps s0 t := by
  have k : Keeps s0 (applyAttest a0 a1 a2 s).1 := applyAttest_keeps h 
  rw [e] at k; exact k

theorem runAttest_keeps {s0 s : State} {a0} (h : Keeps s0 s) : Keeps s0 (runAttest a0 s).1 := by
  unfold runAttest
  repeat' first
    | with_reducible assumption
    | with_reducible apply refuse_keeps
    | (with_reducible refine refuse_keeps_eq ?_ (by with_reducible assumption))
    | with_reducible apply onTargets_keeps
    | (with_reducible refine onTargets_keeps_eq ?_ (by with_reducible assumption))
    | with_reducible apply applyAttest_keeps
    | (with_reducible refine applyAttest_keeps_eq ?_ (by with_reducible assumption))
    | intro t h
    | with_reducible apply Keeps.ite
    | dsimp only [Keeps]
    | split

theorem runAttest_keeps_eq {s0 s : State} {a0} (h : Keeps s0 s) {t u} (e : runAttest a0 s = (t, u)) : Keeps s0 t := by
  have k : Keeps s0 (runAttest a0 s).1 := runAttest_keeps h 
  rw [e] at k; exact k

theorem runSnapshot_keeps {s0 s : State} {a0} (h : Keeps s0 s) : Keeps s0 (runSnapshot a0 s).1 := by
  unfold runSnapshot
  repeat' first
    | with_reducible assumption
    | with_reducible apply refuse_keeps
    | (with_reducible refine refuse_keeps_eq ?_ (by with_reducible assumption))
    | with_reducible apply accept_keeps
    | (with_reducible refine accept_keeps_eq ?_ (by with_reducible assumption))
    | with_reducible apply toSink_keeps
    | with_reducible apply Keeps.ite
    | (lift_lets; intro x; refine Keeps.cut (s := s0) (x := x) ?_ ?_; rotate_left; intro hx; clear_value x; rotate_left; subst x)
    | (lift_lets; intro (x : Memory); subst x)
    | (lift_lets; intro (x : Flash); subst x)
    | (lift_lets; intro (x : State → State × Nat × Nat); subst x)
    | (lift_lets; intro (x : State → State); subst x)
    | (lift_lets; intro (x : State → State × Result); subst x)
    | (lift_lets; intro x; clear_value x)
    | dsimp only [Keeps]
    | split

theorem runSnapshot_keeps_eq {s0 s : State} {a0} (h : Keeps s0 s) {t u} (e : runSnapshot a0 s = (t, u)) : Keeps s0 t := by
  have k : Keeps s0 (runSnapshot a0 s).1 := runSnapshot_keeps h 
  rw [e] at k; exact k

theorem applySupply_keeps {s0 s : State} {a0} (h : Keeps s0 s) : Keeps s0 (applySupply a0 s).1 := by
  unfold applySupply
  repeat' first
    | with_reducible assumption
    | with_reducible apply Keeps.ite
    | (lift_lets; intro x; refine Keeps.cut (s := s0) (x := x) ?_ ?_; rotate_left; intro hx; clear_value x; rotate_left; subst x)
    | (lift_lets; intro (x : Memory); subst x)
    | (lift_lets; intro (x : Flash); subst x)
    | (lift_lets; intro (x : State → State × Nat × Nat); subst x)
    | (lift_lets; intro (x : State → State); subst x)
    | (lift_lets; intro (x : State → State × Result); subst x)
    | (lift_lets; intro x; clear_value x)
    | dsimp only [Keeps]
    | split

theorem applySupply_keeps_eq {s0 s : State} {a0} (h : Keeps s0 s) {t u} (e : applySupply a0 s = (t, u)) : Keeps s0 t := by
  have k : Keeps s0 (applySupply a0 s).1 := applySupply_keeps h 
  rw [e] at k; exact k

theorem runRootSupply_keeps {s0 s : State} {a0} (h : Keeps s0 s) : Keeps s0 (runRootSupply a0 s).1 := by
  unfold runRootSupply
  repeat' first
    | with_reducible assumption
    | with_reducible apply refuse_keeps
    | (with_reducible refine refuse_keeps_eq ?_ (by with_reducible assumption))
    | with_reducible apply applySupply_keeps
    | (with_reducible refine applySupply_keeps_eq ?_ (by with_reducible assumption))
    | with_reducible apply toTargets_keeps
    | (with_reducible refine toTargets_keeps_eq ?_ (by with_reducible assumption))
    | with_reducible apply Keeps.ite
    | (lift_lets; intro x; refine Keeps.cut (s := s0) (x := x) ?_ ?_; rotate_left; intro hx; clear_value x; rotate_left; subst x)
    | (lift_lets; intro (x : Memory); subst x)
    | (lift_lets; intro (x : Flash); subst x)
    | (lift_lets; intro (x : State → State × Nat × Nat); subst x)
    | (lift_lets; intro (x : State → State); subst x)
    | (lift_lets; intro (x : State → State × Result); subst x)
    | (lift_lets; intro x; clear_value x)
    | dsimp only [Keeps]
    | split

theorem runRootSupply_keeps_eq {s0 s : State} {a0} (h : Keeps s0 s) {t u} (e : runRootSupply a0 s = (t, u)) : Keeps s0 t := by
  have k : Keeps s0 (runRootSupply a0 s).1 := runRootSupply_keeps h 
  rw [e] at k; exact k

theorem hintPage_keeps {s0 s : State} {a0} (h : Keeps s0 s) : Keeps s0 (hintPage a0 s) := by
  unfold hintPage
  repeat' first
    | with_reducible assumption
    | with_reducible apply setPage_keeps
    | with_reducible apply Keeps.ite
    | (lift_lets; intro x; refine Keeps.cut (s := s0) (x := x) ?_ ?_; rotate_left; intro hx; clear_value x; rotate_left; subst x)
    | (lift_lets; intro (x : Memory); subst x)
    | (lift_lets; intro (x : Flash); subst x)
    | (lift_lets; intro (x : State → State × Nat × Nat); subst x)
    | (lift_lets; intro (x : State → State); subst x)
    | (lift_lets; intro (x : State → State × Result); subst x)
    | (lift_lets; intro x; clear_value x)
    | dsimp only [Keeps]
    | split

theorem applyPin_keeps {s0 s : State} {a0} (h : Keeps s0 s) : Keeps s0 (applyPin a0 s).1 := by
  unfold applyPin
  extract_lets ps tier far hint away moving t
  split
  · exact h
  split
  · exact h
  split
  · exact h
  split
  · exact h
  split
  · refine accept_keeps (Keeps.foldl h fun t x h => ?_)
    exact setPage_keeps h
  · have ht : Keeps s0 t := by
      refine Keeps.foldl h fun t x h => ?_
      split
      · exact hintPage_keeps h
      · exact pinPage_keeps h
    clear_value t
    split
    · exact accept_keeps ht
    · exact ht

theorem applyPin_keeps_eq {s0 s : State} {a0} (h : Keeps s0 s) {t u} (e : applyPin a0 s = (t, u)) : Keeps s0 t := by
  have k : Keeps s0 (applyPin a0 s).1 := applyPin_keeps h 
  rw [e] at k; exact k

theorem runPlacementPin_keeps {s0 s : State} {a0} (h : Keeps s0 s) : Keeps s0 (runPlacementPin a0 s).1 := by
  unfold runPlacementPin
  repeat' first
    | with_reducible assumption
    | with_reducible apply refuse_keeps
    | (with_reducible refine refuse_keeps_eq ?_ (by with_reducible assumption))
    | with_reducible apply applyPin_keeps
    | (with_reducible refine applyPin_keeps_eq ?_ (by with_reducible assumption))
    | with_reducible apply toTargets_keeps
    | (with_reducible refine toTargets_keeps_eq ?_ (by with_reducible assumption))
    | with_reducible apply Keeps.ite
    | (lift_lets; intro x; refine Keeps.cut (s := s0) (x := x) ?_ ?_; rotate_left; intro hx; clear_value x; rotate_left; subst x)
    | (lift_lets; intro (x : Memory); subst x)
    | (lift_lets; intro (x : Flash); subst x)
    | (lift_lets; intro (x : State → State × Nat × Nat); subst x)
    | (lift_lets; intro (x : State → State); subst x)
    | (lift_lets; intro (x : State → State × Result); subst x)
    | (lift_lets; intro x; clear_value x)
    | dsimp only [Keeps]
    | split

theorem runPlacementPin_keeps_eq {s0 s : State} {a0} (h : Keeps s0 s) {t u} (e : runPlacementPin a0 s = (t, u)) : Keeps s0 t := by
  have k : Keeps s0 (runPlacementPin a0 s).1 := runPlacementPin_keeps h 
  rw [e] at k; exact k

theorem finishPins_keeps {s0 s : State} (h : Keeps s0 s) : Keeps s0 (finishPins s) := by
  unfold finishPins
  repeat' first
    | with_reducible assumption
    | with_reducible apply finishJobs_keeps
    | (with_reducible refine Keeps.foldl ?_ (fun t x h => ?_))
    | (with_reducible refine Keeps.foldlFst ?_ (fun t x h => ?_))
    | (with_reducible refine Keeps.foldlSnd ?_ (fun t x h => ?_))
    | with_reducible apply Keeps.ite
    | (lift_lets; intro x; refine Keeps.cut (s := s0) (x := x) ?_ ?_; rotate_left; intro hx; clear_value x; rotate_left; subst x)
    | (lift_lets; intro (x : Memory); subst x)
    | (lift_lets; intro (x : Flash); subst x)
    | (lift_lets; intro (x : State → State × Nat × Nat); subst x)
    | (lift_lets; intro (x : State → State); subst x)
    | (lift_lets; intro (x : State → State × Result); subst x)
    | (lift_lets; intro x; clear_value x)
    | dsimp only [Keeps]
    | split

theorem runDesc_keeps {s0 s : State} {a0 a1 a2 a3} (h : Keeps s0 s) : Keeps s0 (runDesc a0 a1 a2 a3 s).1 := by
  unfold runDesc
  repeat' first
    | with_reducible assumption
    | with_reducible apply refuse_keeps
    | (with_reducible refine refuse_keeps_eq ?_ (by with_reducible assumption))
    | with_reducible apply runGraphSubmit_keeps
    | (with_reducible refine runGraphSubmit_keeps_eq ?_ (by with_reducible assumption))
    | with_reducible apply runGraphRetire_keeps
    | (with_reducible refine runGraphRetire_keeps_eq ?_ (by with_reducible assumption))
    | with_reducible apply runTensorDefine_keeps
    | (with_reducible refine runTensorDefine_keeps_eq ?_ (by with_reducible assumption))
    | with_reducible apply runTensorRelease_keeps
    | (with_reducible refine runTensorRelease_keeps_eq ?_ (by with_reducible assumption))
    | with_reducible apply runFurrowAdvance_keeps
    | (with_reducible refine runFurrowAdvance_keeps_eq ?_ (by with_reducible assumption))
    | with_reducible apply runRunBegin_keeps
    | (with_reducible refine runRunBegin_keeps_eq ?_ (by with_reducible assumption))
    | with_reducible apply runGroupDefine_keeps
    | (with_reducible refine runGroupDefine_keeps_eq ?_ (by with_reducible assumption))
    | with_reducible apply runGroupReform_keeps
    | (with_reducible refine runGroupReform_keeps_eq ?_ (by with_reducible assumption))
    | with_reducible apply runCopyIn_keeps
    | (with_reducible refine runCopyIn_keeps_eq ?_ (by with_reducible assumption))
    | with_reducible apply runCopyOut_keeps
    | (with_reducible refine runCopyOut_keeps_eq ?_ (by with_reducible assumption))
    | with_reducible apply runExport_keeps
    | (with_reducible refine runExport_keeps_eq ?_ (by with_reducible assumption))
    | with_reducible apply runSnapshot_keeps
    | (with_reducible refine runSnapshot_keeps_eq ?_ (by with_reducible assumption))
    | with_reducible apply runStop_keeps
    | (with_reducible refine runStop_keeps_eq ?_ (by with_reducible assumption))
    | with_reducible apply runResume_keeps
    | (with_reducible refine runResume_keeps_eq ?_ (by with_reducible assumption))
    | with_reducible apply runModeSet_keeps
    | (with_reducible refine runModeSet_keeps_eq ?_ (by with_reducible assumption))
    | with_reducible apply runRootSupply_keeps
    | (with_reducible refine runRootSupply_keeps_eq ?_ (by with_reducible assumption))
    | with_reducible apply runVoteSupply_keeps
    | (with_reducible refine runVoteSupply_keeps_eq ?_ (by with_reducible assumption))
    | with_reducible apply runPlacementPin_keeps
    | (with_reducible refine runPlacementPin_keeps_eq ?_ (by with_reducible assumption))
    | with_reducible apply runCounters_keeps
    | (with_reducible refine runCounters_keeps_eq ?_ (by with_reducible assumption))
    | with_reducible apply runTrace_keeps
    | (with_reducible refine runTrace_keeps_eq ?_ (by with_reducible assumption))
    | with_reducible apply runInject_keeps
    | (with_reducible refine runInject_keeps_eq ?_ (by with_reducible assumption))
    | with_reducible apply runAttest_keeps
    | (with_reducible refine runAttest_keeps_eq ?_ (by with_reducible assumption))
    | with_reducible apply accept_keeps
    | (with_reducible refine accept_keeps_eq ?_ (by with_reducible assumption))
    | with_reducible apply Keeps.ite
    | dsimp only [Keeps]
    | split

theorem runDesc_keeps_eq {s0 s : State} {a0 a1 a2 a3} (h : Keeps s0 s) {t u} (e : runDesc a0 a1 a2 a3 s = (t, u)) : Keeps s0 t := by
  have k : Keeps s0 (runDesc a0 a1 a2 a3 s).1 := runDesc_keeps h 
  rw [e] at k; exact k

theorem blockFor_keeps {s0 s : State} {a0 a1 a2} (h : Keeps s0 s) (k_a2 : ∀ y0 y1 t, Keeps s0 t → Keeps s0 (a2 y0 y1 t).1) : Keeps s0 (blockFor a0 a1 a2 s) := by
  unfold blockFor
  repeat' first
    | with_reducible assumption
    | with_reducible apply k_a2
    | with_reducible apply sendResult_keeps
    | with_reducible apply Keeps.ite
    | (lift_lets; intro x; refine Keeps.cut (s := s0) (x := x) ?_ ?_; rotate_left; intro hx; clear_value x; rotate_left; subst x)
    | (lift_lets; intro (x : Memory); subst x)
    | (lift_lets; intro (x : Flash); subst x)
    | (lift_lets; intro (x : State → State × Nat × Nat); subst x)
    | (lift_lets; intro (x : State → State); subst x)
    | (lift_lets; intro (x : State → State × Result); subst x)
    | (lift_lets; intro x; clear_value x)
    | dsimp only [Keeps]
    | split

theorem applyOrder_keeps {s0 s : State} {a0} (h : Keeps s0 s) : Keeps s0 (applyOrder a0 s) := by
  unfold applyOrder
  repeat' first
    | with_reducible assumption
    | with_reducible apply submitGraph_keeps
    | (with_reducible refine submitGraph_keeps_eq ?_ (by with_reducible assumption))
    | with_reducible apply retireSegment_keeps
    | with_reducible apply defineTensor_keeps
    | with_reducible apply releaseTensor_keeps
    | with_reducible apply raiseLimit_keeps
    | with_reducible apply applyResume_keeps
    | with_reducible apply setMode_keeps
    | with_reducible apply applyExport_keeps
    | (with_reducible refine applyExport_keeps_eq ?_ (by with_reducible assumption))
    | with_reducible apply sendResult_keeps
    | with_reducible apply blockFor_keeps
    | with_reducible apply applyInject_keeps
    | (with_reducible refine applyInject_keeps_eq ?_ (by with_reducible assumption))
    | with_reducible apply applyCounters_keeps
    | with_reducible apply applyTrace_keeps
    | with_reducible apply applyAttest_keeps
    | (with_reducible refine applyAttest_keeps_eq ?_ (by with_reducible assumption))
    | with_reducible apply applySupply_keeps
    | (with_reducible refine applySupply_keeps_eq ?_ (by with_reducible assumption))
    | with_reducible apply recordFor_keeps
    | with_reducible apply applyPin_keeps
    | (with_reducible refine applyPin_keeps_eq ?_ (by with_reducible assumption))
    | with_reducible apply beginCopyIn_keeps
    | with_reducible apply awaitCopy_keeps
    | with_reducible apply publishCopy_keeps
    | with_reducible apply endAwait_keeps
    | with_reducible apply runCopyOut_keeps
    | (with_reducible refine runCopyOut_keeps_eq ?_ (by with_reducible assumption))
    | intro t h
    | with_reducible apply Keeps.ite
    | (lift_lets; intro x; refine Keeps.cut (s := s0) (x := x) ?_ ?_; rotate_left; intro hx; clear_value x; rotate_left; subst x)
    | (lift_lets; intro (x : Memory); subst x)
    | (lift_lets; intro (x : Flash); subst x)
    | (lift_lets; intro (x : State → State × Nat × Nat); subst x)
    | (lift_lets; intro (x : State → State); subst x)
    | (lift_lets; intro (x : State → State × Result); subst x)
    | (lift_lets; intro x; clear_value x)
    | dsimp only [Keeps]
    | split

end Sys2Proof.Laws
end

