-- ==== Sys2Proof/Laws/KeepsRings.lean ====
section
/-!
SUPPORT. `Keeps` for the operations of Machine/Rings.lean.
-/
namespace Sys2Proof.Laws

open Sys2Proof Sys2Proof.Machine

theorem hostRead_keeps {s0 s : State} {a0 a1 a2} (h : Keeps s0 s) : Keeps s0 (hostRead a0 a1 a2 s) := by
  unfold hostRead
  repeat' first
    | with_reducible assumption
    | with_reducible apply Keeps.ite
    | (lift_lets; intro x; refine Keeps.cut (s := s0) (x := x) ?_ ?_; rotate_left; intro hx; clear_value x; rotate_left; subst x)
    | (lift_lets; intro (x : Memory); subst x)
    | (lift_lets; intro (x : Flash); subst x)
    | (lift_lets; intro (x : State → State × Nat × Nat); subst x)
    | (lift_lets; intro (x : State → State); subst x)
    | (lift_lets; intro (x : State → State × Result); subst x)
    | (lift_lets; intro x; clear_value x)
    | dsimp only [Keeps]
    | split

theorem readDoorbell_keeps {s0 s : State} {a0} (h : Keeps s0 s) : Keeps s0 (readDoorbell a0 s) := by
  unfold readDoorbell
  repeat' first
    | with_reducible assumption
    | with_reducible apply hostRead_keeps
    | with_reducible apply Keeps.ite
    | dsimp only [Keeps]
    | split

theorem fetchNext_keeps {s0 s : State} {a0} (h : Keeps s0 s) : Keeps s0 (fetchNext a0 s) := by
  unfold fetchNext
  repeat' first
    | with_reducible assumption
    | with_reducible apply setSub_keeps
    | with_reducible apply hostRead_keeps
    | with_reducible apply Keeps.ite
    | (lift_lets; intro x; refine Keeps.cut (s := s0) (x := x) ?_ ?_; rotate_left; intro hx; clear_value x; rotate_left; subst x)
    | (lift_lets; intro (x : Memory); subst x)
    | (lift_lets; intro (x : Flash); subst x)
    | (lift_lets; intro (x : State → State × Nat × Nat); subst x)
    | (lift_lets; intro (x : State → State); subst x)
    | (lift_lets; intro (x : State → State × Result); subst x)
    | (lift_lets; intro x; clear_value x)
    | dsimp only [Keeps]
    | split

theorem fetchAll_keeps {s0 s : State} (h : Keeps s0 s) : Keeps s0 (fetchAll s) := by
  unfold fetchAll
  repeat' first
    | with_reducible assumption
    | with_reducible apply fetchNext_keeps
    | (with_reducible refine Keeps.foldl ?_ (fun t x h => ?_))
    | (with_reducible refine Keeps.foldlFst ?_ (fun t x h => ?_))
    | (with_reducible refine Keeps.foldlSnd ?_ (fun t x h => ?_))
    | with_reducible apply Keeps.ite
    | dsimp only [Keeps]
    | split

theorem issueWide_keeps {s0 s : State} {a0 a1} (h : Keeps s0 s) : Keeps s0 (issueWide a0 a1 s) := by
  unfold issueWide
  repeat' first
    | with_reducible assumption
    | with_reducible apply record_keeps
    | with_reducible apply refuse_keeps
    | (with_reducible refine refuse_keeps_eq ?_ (by with_reducible assumption))
    | with_reducible apply setSub_keeps
    | with_reducible apply startJob_keeps
    | with_reducible apply sendHedge_keeps
    | with_reducible apply runDesc_keeps
    | (with_reducible refine runDesc_keeps_eq ?_ (by with_reducible assumption))
    | intro t h
    | with_reducible apply Keeps.ite
    | (lift_lets; intro x; refine Keeps.cut (s := s0) (x := x) ?_ ?_; rotate_left; intro hx; clear_value x; rotate_left; subst x)
    | (lift_lets; intro (x : Memory); subst x)
    | (lift_lets; intro (x : Flash); subst x)
    | (lift_lets; intro (x : State → State × Nat × Nat); subst x)
    | (lift_lets; intro (x : State → State); subst x)
    | (lift_lets; intro (x : State → State × Result); subst x)
    | (lift_lets; intro x; clear_value x)
    | dsimp only [Keeps]
    | split

theorem executeOne_keeps {s0 s : State} {a0 a1 a2} (h : Keeps s0 s) : Keeps s0 (executeOne a0 a1 a2 s) := by
  unfold executeOne
  repeat' first
    | with_reducible assumption
    | with_reducible apply setSub_keeps
    | with_reducible apply trace_keeps
    | with_reducible apply issueWide_keeps
    | with_reducible apply record_keeps
    | with_reducible apply runDesc_keeps
    | (with_reducible refine runDesc_keeps_eq ?_ (by with_reducible assumption))
    | with_reducible apply takeBegin_keeps
    | intro t h
    | with_reducible apply Keeps.ite
    | (lift_lets; intro x; refine Keeps.cut (s := s0) (x := x) ?_ ?_; rotate_left; intro hx; clear_value x; rotate_left; subst x)
    | (lift_lets; intro (x : Memory); subst x)
    | (lift_lets; intro (x : Flash); subst x)
    | (lift_lets; intro (x : State → State × Nat × Nat); subst x)
    | (lift_lets; intro (x : State → State); subst x)
    | (lift_lets; intro (x : State → State × Result); subst x)
    | (lift_lets; intro x; clear_value x)
    | dsimp only [Keeps]
    | split

theorem drainRings_keeps {s0 s : State} {a0} (h : Keeps s0 s) : Keeps s0 (drainRings a0 s) := by
  induction a0 generalizing s with
  | zero =>
    rw [drainRings]
    repeat' first
      | with_reducible assumption
      | with_reducible apply ih
      | with_reducible apply executeOne_keeps
      | with_reducible apply Keeps.ite
      | dsimp only [Keeps]
      | split
  | succ n ih =>
    rw [drainRings]
    repeat' first
      | with_reducible assumption
      | with_reducible apply ih
      | with_reducible apply executeOne_keeps
      | with_reducible apply Keeps.ite
      | dsimp only [Keeps]
      | split

theorem drain_keeps {s0 s : State} (h : Keeps s0 s) : Keeps s0 (drain s) := by
  unfold drain
  repeat' first
    | with_reducible assumption
    | with_reducible apply serveCopyOuts_keeps
    | with_reducible apply finishPins_keeps
    | with_reducible apply fetchAll_keeps
    | with_reducible apply drainRings_keeps
    | with_reducible apply Keeps.ite
    | (lift_lets; intro x; refine Keeps.cut (s := s0) (x := x) ?_ ?_; rotate_left; intro hx; clear_value x; rotate_left; subst x)
    | (lift_lets; intro (x : Memory); subst x)
    | (lift_lets; intro (x : Flash); subst x)
    | (lift_lets; intro (x : State → State × Nat × Nat); subst x)
    | (lift_lets; intro (x : State → State); subst x)
    | (lift_lets; intro (x : State → State × Result); subst x)
    | (lift_lets; intro x; clear_value x)
    | dsimp only [Keeps]
    | split

theorem stampEligible_keeps {s0 s : State} (h : Keeps s0 s) : Keeps s0 (stampEligible s) := by
  unfold stampEligible
  repeat' first
    | with_reducible assumption
    | with_reducible apply Keeps.ite
    | dsimp only [Keeps]
    | split

theorem settleSuccession_keeps {s0 s : State} (h : Keeps s0 s) : Keeps s0 (settleSuccession s) := by
  unfold settleSuccession
  repeat' first
    | with_reducible assumption
    | with_reducible apply takeDecision_keeps
    | with_reducible apply Keeps.ite
    | dsimp only [Keeps]
    | split

theorem advance_keeps {s0 s : State} (h : Keeps s0 s) : Keeps s0 (advance s) := by
  unfold advance
  repeat' first
    | with_reducible assumption
    | with_reducible apply stampEligible_keeps
    | with_reducible apply settle_keeps
    | with_reducible apply drain_keeps
    | with_reducible apply continueRoll_keeps
    | with_reducible apply settleSuccession_keeps
    | with_reducible apply lateFindings_keeps
    | with_reducible apply answerUnreached_keeps
    | with_reducible apply Keeps.ite
    | dsimp only [Keeps]
    | split

theorem fetched_keeps {s0 s : State} {a0 a1} (h : Keeps s0 s) : Keeps s0 (fetched a0 a1 s) := by
  unfold fetched
  repeat' first
    | with_reducible assumption
    | with_reducible apply setSub_keeps
    | with_reducible apply Keeps.ite
    | dsimp only [Keeps]
    | split

theorem executeFront_keeps {s0 s : State} {a0} (h : Keeps s0 s) : Keeps s0 (executeFront a0 s) := by
  unfold executeFront
  repeat' first
    | with_reducible assumption
    | with_reducible apply executeOne_keeps
    | with_reducible apply Keeps.ite
    | dsimp only [Keeps]
    | split

theorem takeDescriptor_keeps {s0 s : State} {a0 a1} (h : Keeps s0 s) : Keeps s0 (takeDescriptor a0 a1 s) := by
  unfold takeDescriptor
  repeat' first
    | with_reducible assumption
    | with_reducible apply advance_keeps
    | with_reducible apply executeFront_keeps
    | with_reducible apply fetched_keeps
    | with_reducible apply Keeps.ite
    | dsimp only [Keeps]
    | split

theorem tryOrder_keeps {s0 s : State} {a0} (h : Keeps s0 s) : Keeps s0 (tryOrder a0 s).1 := by
  unfold tryOrder
  repeat' first
    | with_reducible assumption
    | with_reducible apply runDesc_keeps
    | (with_reducible refine runDesc_keeps_eq ?_ (by with_reducible assumption))
    | with_reducible apply Keeps.ite
    | dsimp only [Keeps]
    | split

theorem tryOrder_keeps_eq {s0 s : State} {a0} (h : Keeps s0 s) {t u} (e : tryOrder a0 s = (t, u)) : Keeps s0 t := by
  have k : Keeps s0 (tryOrder a0 s).1 := tryOrder_keeps h 
  rw [e] at k; exact k

theorem endHeld_keeps {s0 s : State} {a0} (h : Keeps s0 s) : Keeps s0 (endHeld a0 s) := by
  unfold endHeld
  repeat' first
    | with_reducible assumption
    | with_reducible apply setSub_keeps
    | with_reducible apply Keeps.ite
    | dsimp only [Keeps]
    | split

theorem deliver_keeps {s0 : State} {a0 a1} (k_a1 : Keeps s0 a1.1) : Keeps s0 (deliver a0 a1) := by
  unfold deliver
  repeat' first
    | with_reducible assumption
    | with_reducible apply k_a1
    | with_reducible apply setSub_keeps
    | with_reducible apply completeNow_keeps
    | with_reducible apply endHeld_keeps
    | with_reducible apply recordFor_keeps
    | intro t h
    | with_reducible apply Keeps.ite
    | (lift_lets; intro x; refine Keeps.cut (s := s0) (x := x) ?_ ?_; rotate_left; intro hx; clear_value x; rotate_left; subst x)
    | (lift_lets; intro (x : Memory); subst x)
    | (lift_lets; intro (x : Flash); subst x)
    | (lift_lets; intro (x : State → State × Nat × Nat); subst x)
    | (lift_lets; intro (x : State → State); subst x)
    | (lift_lets; intro (x : State → State × Result); subst x)
    | (lift_lets; intro x; clear_value x)
    | dsimp only [Keeps]
    | split

theorem runHeld_keeps {s0 s : State} {a0 a1} (h : Keeps s0 s) : Keeps s0 (runHeld a0 a1 s) := by
  induction a1 generalizing s a0 with
  | nil => exact h
  | cons y l ih =>
    rw [runHeld]
    dsimp only
    split
    · exact ih (deliver_keeps h)
    · exact ih (deliver_keeps (tryOrder_keeps h))

theorem releaseHolds_keeps {s0 s : State} (h : Keeps s0 s) : Keeps s0 (releaseHolds s) := by
  unfold releaseHolds
  repeat' first
    | with_reducible assumption
    | with_reducible apply advance_keeps
    | with_reducible apply runHeld_keeps
    | with_reducible apply Keeps.ite
    | (lift_lets; intro x; refine Keeps.cut (s := s0) (x := x) ?_ ?_; rotate_left; intro hx; clear_value x; rotate_left; subst x)
    | (lift_lets; intro (x : Memory); subst x)
    | (lift_lets; intro (x : Flash); subst x)
    | (lift_lets; intro (x : State → State × Nat × Nat); subst x)
    | (lift_lets; intro (x : State → State); subst x)
    | (lift_lets; intro (x : State → State × Result); subst x)
    | (lift_lets; intro x; clear_value x)
    | dsimp only [Keeps]
    | split

theorem execOrderHoldRelease_keeps {s0 s : State} (h : Keeps s0 s) {t} (e : execOrderHoldRelease s = .next t) : Keeps s0 t := by
  unfold execOrderHoldRelease at e
  first
    | (replace e := Host.Outcome.next.inj e; subst e)
    | cases e
  repeat' first
    | with_reducible assumption
    | with_reducible apply releaseHolds_keeps
    | with_reducible apply Keeps.ite
    | dsimp only [Keeps]
    | split

theorem ringError_keeps {s0 s : State} {a0 a1 a2} (h : Keeps s0 s) : Keeps s0 (ringError a0 a1 a2 s) := by
  unfold ringError
  repeat' first
    | with_reducible assumption
    | with_reducible apply raise_keeps
    | with_reducible apply Keeps.ite
    | dsimp only [Keeps]
    | split

theorem takeProducer_keeps {s0 s : State} {a0 a1} (h : Keeps s0 s) : Keeps s0 (takeProducer a0 a1 s) := by
  unfold takeProducer
  repeat' first
    | with_reducible assumption
    | with_reducible apply ringError_keeps
    | with_reducible apply setSub_keeps
    | with_reducible apply fetchNext_keeps
    | with_reducible apply Keeps.ite
    | (lift_lets; intro x; refine Keeps.cut (s := s0) (x := x) ?_ ?_; rotate_left; intro hx; clear_value x; rotate_left; subst x)
    | (lift_lets; intro (x : Memory); subst x)
    | (lift_lets; intro (x : Flash); subst x)
    | (lift_lets; intro (x : State → State × Nat × Nat); subst x)
    | (lift_lets; intro (x : State → State); subst x)
    | (lift_lets; intro (x : State → State × Result); subst x)
    | (lift_lets; intro x; clear_value x)
    | dsimp only [Keeps]
    | split

theorem takeConsumer_keeps {s0 s : State} {a0 a1} (h : Keeps s0 s) : Keeps s0 (takeConsumer a0 a1 s) := by
  unfold takeConsumer
  repeat' first
    | with_reducible assumption
    | with_reducible apply ringError_keeps
    | with_reducible apply setCompl_keeps
    | with_reducible apply Keeps.ite
    | (lift_lets; intro x; refine Keeps.cut (s := s0) (x := x) ?_ ?_; rotate_left; intro hx; clear_value x; rotate_left; subst x)
    | (lift_lets; intro (x : Memory); subst x)
    | (lift_lets; intro (x : Flash); subst x)
    | (lift_lets; intro (x : State → State × Nat × Nat); subst x)
    | (lift_lets; intro (x : State → State); subst x)
    | (lift_lets; intro (x : State → State × Result); subst x)
    | (lift_lets; intro x; clear_value x)
    | dsimp only [Keeps]
    | split

theorem takeLiveness_keeps {s0 s : State} {a0} (h : Keeps s0 s) : Keeps s0 (takeLiveness a0 s) := by
  unfold takeLiveness
  repeat' first
    | with_reducible assumption
    | with_reducible apply raise_keeps
    | with_reducible apply Keeps.ite
    | (lift_lets; intro x; refine Keeps.cut (s := s0) (x := x) ?_ ?_; rotate_left; intro hx; clear_value x; rotate_left; subst x)
    | (lift_lets; intro (x : Memory); subst x)
    | (lift_lets; intro (x : Flash); subst x)
    | (lift_lets; intro (x : State → State × Nat × Nat); subst x)
    | (lift_lets; intro (x : State → State); subst x)
    | (lift_lets; intro (x : State → State × Result); subst x)
    | (lift_lets; intro x; clear_value x)
    | dsimp only [Keeps]
    | split

theorem takeDoorbell_keeps {s0 s : State} {a0 a1} (h : Keeps s0 s) : Keeps s0 (takeDoorbell a0 a1 s) := by
  unfold takeDoorbell
  repeat' first
    | with_reducible assumption
    | with_reducible apply takeProducer_keeps
    | with_reducible apply takeConsumer_keeps
    | with_reducible apply takeLiveness_keeps
    | with_reducible apply Keeps.ite
    | dsimp only [Keeps]
    | split

theorem showProgress_keeps {s0 s : State} {a0 a1 a2} (h : Keeps s0 s) : Keeps s0 (showProgress a0 a1 a2 s) := by
  unfold showProgress
  repeat' first
    | with_reducible assumption
    | with_reducible apply hostWrite_keeps
    | with_reducible apply Keeps.ite
    | dsimp only [Keeps]
    | split

theorem writeProgress_keeps {s0 s : State} (h : Keeps s0 s) : Keeps s0 (writeProgress s) := by
  unfold writeProgress
  repeat' first
    | with_reducible assumption
    | with_reducible apply setSub_keeps
    | with_reducible apply showProgress_keeps
    | with_reducible apply setCompl_keeps
    | (with_reducible refine Keeps.foldl ?_ (fun t x h => ?_))
    | (with_reducible refine Keeps.foldlFst ?_ (fun t x h => ?_))
    | (with_reducible refine Keeps.foldlSnd ?_ (fun t x h => ?_))
    | with_reducible apply Keeps.ite
    | (lift_lets; intro x; refine Keeps.cut (s := s0) (x := x) ?_ ?_; rotate_left; intro hx; clear_value x; rotate_left; subst x)
    | (lift_lets; intro (x : Memory); subst x)
    | (lift_lets; intro (x : Flash); subst x)
    | (lift_lets; intro (x : State → State × Nat × Nat); subst x)
    | (lift_lets; intro (x : State → State); subst x)
    | (lift_lets; intro (x : State → State × Result); subst x)
    | (lift_lets; intro x; clear_value x)
    | dsimp only [Keeps]
    | split

theorem poll_keeps {s0 s : State} (h : Keeps s0 s) : Keeps s0 (poll s) := by
  unfold poll
  repeat' first
    | with_reducible assumption
    | with_reducible apply writeProgress_keeps
    | with_reducible apply fetchAll_keeps
    | with_reducible apply readDoorbell_keeps
    | (with_reducible refine Keeps.foldl ?_ (fun t x h => ?_))
    | (with_reducible refine Keeps.foldlFst ?_ (fun t x h => ?_))
    | (with_reducible refine Keeps.foldlSnd ?_ (fun t x h => ?_))
    | with_reducible apply Keeps.ite
    | (lift_lets; intro x; refine Keeps.cut (s := s0) (x := x) ?_ ?_; rotate_left; intro hx; clear_value x; rotate_left; subst x)
    | (lift_lets; intro (x : Memory); subst x)
    | (lift_lets; intro (x : Flash); subst x)
    | (lift_lets; intro (x : State → State × Nat × Nat); subst x)
    | (lift_lets; intro (x : State → State); subst x)
    | (lift_lets; intro (x : State → State × Result); subst x)
    | (lift_lets; intro x; clear_value x)
    | dsimp only [Keeps]
    | split

theorem execPollTick_keeps {s0 s : State} (h : Keeps s0 s) {t} (e : execPollTick s = .next t) : Keeps s0 t := by
  unfold execPollTick at e
  first
    | (replace e := Host.Outcome.next.inj e; subst e)
    | cases e
  repeat' first
    | with_reducible assumption
    | with_reducible apply advance_keeps
    | with_reducible apply poll_keeps
    | with_reducible apply Keeps.ite
    | dsimp only [Keeps]
    | split

theorem execNudge_keeps {s0 s : State} {a0} (h : Keeps s0 s) {t} (e : execNudge a0 s = .next t) : Keeps s0 t := by
  unfold execNudge at e
  first
    | (replace e := Host.Outcome.next.inj e; subst e)
    | cases e
  repeat' first
    | with_reducible assumption
    | with_reducible apply readDoorbell_keeps
    | with_reducible apply Keeps.ite
    | dsimp only [Keeps]
    | split

theorem execNudgeAll_keeps {s0 s : State} (h : Keeps s0 s) {t} (e : execNudgeAll s = .next t) : Keeps s0 t := by
  unfold execNudgeAll at e
  first
    | (replace e := Host.Outcome.next.inj e; subst e)
    | cases e
  repeat' first
    | with_reducible assumption
    | with_reducible apply readDoorbell_keeps
    | (with_reducible refine Keeps.foldl ?_ (fun t x h => ?_))
    | (with_reducible refine Keeps.foldlFst ?_ (fun t x h => ?_))
    | (with_reducible refine Keeps.foldlSnd ?_ (fun t x h => ?_))
    | with_reducible apply Keeps.ite
    | dsimp only [Keeps]
    | split

theorem disableSub_keeps {s0 s : State} {a0} (h : Keeps s0 s) : Keeps s0 (disableSub a0 s) := by
  unfold disableSub
  repeat' first
    | with_reducible assumption
    | with_reducible apply setSub_keeps
    | with_reducible apply completeNow_keeps
    | with_reducible apply endHeld_keeps
    | (with_reducible refine Keeps.foldl ?_ (fun t x h => ?_))
    | (with_reducible refine Keeps.foldlFst ?_ (fun t x h => ?_))
    | (with_reducible refine Keeps.foldlSnd ?_ (fun t x h => ?_))
    | with_reducible apply Keeps.ite
    | (lift_lets; intro x; refine Keeps.cut (s := s0) (x := x) ?_ ?_; rotate_left; intro hx; clear_value x; rotate_left; subst x)
    | (lift_lets; intro (x : Memory); subst x)
    | (lift_lets; intro (x : Flash); subst x)
    | (lift_lets; intro (x : State → State × Nat × Nat); subst x)
    | (lift_lets; intro (x : State → State); subst x)
    | (lift_lets; intro (x : State → State × Result); subst x)
    | (lift_lets; intro x; clear_value x)
    | dsimp only [Keeps]
    | split

theorem execRingEnable_keeps {s0 s : State} {a0 a1 a2} (h : Keeps s0 s) {t} (e : execRingEnable a0 a1 a2 s = .next t) : Keeps s0 t := by
  unfold execRingEnable at e
  first
    | (replace e := Host.Outcome.next.inj e; subst e)
    | cases e
  repeat' first
    | with_reducible assumption
    | with_reducible apply advance_keeps
    | with_reducible apply setCompl_keeps
    | with_reducible apply setSub_keeps
    | with_reducible apply disableSub_keeps
    | with_reducible apply Keeps.ite
    | dsimp only [Keeps]
    | split

theorem execRingResume_keeps {s0 s : State} {a0} (h : Keeps s0 s) {t} (e : execRingResume a0 s = .next t) : Keeps s0 t := by
  unfold execRingResume at e
  first
    | (replace e := Host.Outcome.next.inj e; subst e)
    | cases e
  repeat' first
    | with_reducible assumption
    | with_reducible apply advance_keeps
    | with_reducible apply setSub_keeps
    | with_reducible apply Keeps.ite
    | dsimp only [Keeps]
    | split

theorem dropAccess_keeps {s0 s : State} {a0} (h : Keeps s0 s) : Keeps s0 (dropAccess a0 s) := by
  unfold dropAccess
  repeat' first
    | with_reducible assumption
    | with_reducible apply Keeps.ite
    | dsimp only [Keeps]
    | split

theorem fetchFailed_keeps {s0 s : State} {a0} (h : Keeps s0 s) : Keeps s0 (fetchFailed a0 s) := by
  unfold fetchFailed
  repeat' first
    | with_reducible assumption
    | with_reducible apply ringError_keeps
    | with_reducible apply setSub_keeps
    | with_reducible apply Keeps.ite
    | dsimp only [Keeps]
    | split

theorem takeReply_keeps {s0 s : State} {a0} (h : Keeps s0 s) : Keeps s0 (takeReply a0 s) := by
  unfold takeReply
  repeat' first
    | with_reducible assumption
    | with_reducible apply dropAccess_keeps
    | with_reducible apply takeDoorbell_keeps
    | with_reducible apply fetchNext_keeps
    | with_reducible apply setSub_keeps
    | with_reducible apply fetched_keeps
    | with_reducible apply fetchFailed_keeps
    | with_reducible apply finishCopyIn_keeps
    | with_reducible apply failCopyIn_keeps
    | with_reducible apply Keeps.ite
    | (lift_lets; intro x; refine Keeps.cut (s := s0) (x := x) ?_ ?_; rotate_left; intro hx; clear_value x; rotate_left; subst x)
    | (lift_lets; intro (x : Memory); subst x)
    | (lift_lets; intro (x : Flash); subst x)
    | (lift_lets; intro (x : State → State × Nat × Nat); subst x)
    | (lift_lets; intro (x : State → State); subst x)
    | (lift_lets; intro (x : State → State × Result); subst x)
    | (lift_lets; intro x; clear_value x)
    | dsimp only [Keeps]
    | split

theorem execHostAccessCompletion_keeps {s0 s : State} {a0} (h : Keeps s0 s) {t} (e : execHostAccessCompletion a0 s = .next t) : Keeps s0 t := by
  unfold execHostAccessCompletion at e
  first
    | (replace e := Host.Outcome.next.inj e; subst e)
    | cases e
  repeat' first
    | with_reducible assumption
    | with_reducible apply advance_keeps
    | with_reducible apply takeReply_keeps
    | with_reducible apply Keeps.ite
    | dsimp only [Keeps]
    | split

theorem execRingFetchRetry_keeps {s0 s : State} {a0} (h : Keeps s0 s) {t} (e : execRingFetchRetry a0 s = .next t) : Keeps s0 t := by
  unfold execRingFetchRetry at e
  first
    | (replace e := Host.Outcome.next.inj e; subst e)
    | cases e
  repeat' first
    | with_reducible assumption
    | with_reducible apply dropAccess_keeps
    | with_reducible apply hostRead_keeps
    | with_reducible apply fetchFailed_keeps
    | with_reducible apply Keeps.ite
    | (lift_lets; intro x; refine Keeps.cut (s := s0) (x := x) ?_ ?_; rotate_left; intro hx; clear_value x; rotate_left; subst x)
    | (lift_lets; intro (x : Memory); subst x)
    | (lift_lets; intro (x : Flash); subst x)
    | (lift_lets; intro (x : State → State × Nat × Nat); subst x)
    | (lift_lets; intro (x : State → State); subst x)
    | (lift_lets; intro (x : State → State × Result); subst x)
    | (lift_lets; intro x; clear_value x)
    | dsimp only [Keeps]
    | split

theorem hostTimeout_keeps {s0 s : State} {a0} (h : Keeps s0 s) : Keeps s0 (hostTimeout a0 s) := by
  unfold hostTimeout
  repeat' first
    | with_reducible assumption
    | with_reducible apply failCopyIn_keeps
    | with_reducible apply dropAccess_keeps
    | with_reducible apply Keeps.ite
    | dsimp only [Keeps]
    | split

theorem execHostCompletionTimeout_keeps {s0 s : State} {a0} (h : Keeps s0 s) {t} (e : execHostCompletionTimeout a0 s = .next t) : Keeps s0 t := by
  unfold execHostCompletionTimeout at e
  first
    | (replace e := Host.Outcome.next.inj e; subst e)
    | cases e
  repeat' first
    | with_reducible assumption
    | with_reducible apply advance_keeps
    | with_reducible apply hostTimeout_keeps
    | with_reducible apply Keeps.ite
    | dsimp only [Keeps]
    | split

theorem signalEntry_keeps {s0 s : State} {a0 a1} (h : Keeps s0 s) : Keeps s0 (signalEntry a0 a1 s) := by
  unfold signalEntry
  repeat' first
    | with_reducible assumption
    | with_reducible apply signal_keeps
    | with_reducible apply setCompl_keeps
    | with_reducible apply Keeps.ite
    | (lift_lets; intro x; refine Keeps.cut (s := s0) (x := x) ?_ ?_; rotate_left; intro hx; clear_value x; rotate_left; subst x)
    | (lift_lets; intro (x : Memory); subst x)
    | (lift_lets; intro (x : Flash); subst x)
    | (lift_lets; intro (x : State → State × Nat × Nat); subst x)
    | (lift_lets; intro (x : State → State); subst x)
    | (lift_lets; intro (x : State → State × Result); subst x)
    | (lift_lets; intro x; clear_value x)
    | dsimp only [Keeps]
    | split

theorem postEntry_keeps {s0 s : State} {a0} (h : Keeps s0 s) : Keeps s0 (postEntry a0 s) := by
  unfold postEntry
  repeat' first
    | with_reducible assumption
    | with_reducible apply setCompl_keeps
    | with_reducible apply hostWrite_keeps
    | with_reducible apply setSub_keeps
    | with_reducible apply signalEntry_keeps
    | with_reducible apply Keeps.ite
    | (lift_lets; intro x; refine Keeps.cut (s := s0) (x := x) ?_ ?_; rotate_left; intro hx; clear_value x; rotate_left; subst x)
    | (lift_lets; intro (x : Memory); subst x)
    | (lift_lets; intro (x : Flash); subst x)
    | (lift_lets; intro (x : State → State × Nat × Nat); subst x)
    | (lift_lets; intro (x : State → State); subst x)
    | (lift_lets; intro (x : State → State × Result); subst x)
    | (lift_lets; intro x; clear_value x)
    | dsimp only [Keeps]
    | split

theorem execCompletionPost_keeps {s0 s : State} {a0} (h : Keeps s0 s) {t} (e : execCompletionPost a0 s = .next t) : Keeps s0 t := by
  unfold execCompletionPost at e
  first
    | (replace e := Host.Outcome.next.inj e; subst e)
    | cases e
  repeat' first
    | with_reducible assumption
    | with_reducible apply advance_keeps
    | with_reducible apply postEntry_keeps
    | with_reducible apply Keeps.ite
    | dsimp only [Keeps]
    | split

theorem execCoalesceExpiry_keeps {s0 s : State} {a0} (h : Keeps s0 s) {t} (e : execCoalesceExpiry a0 s = .next t) : Keeps s0 t := by
  unfold execCoalesceExpiry at e
  first
    | (replace e := Host.Outcome.next.inj e; subst e)
    | cases e
  repeat' first
    | with_reducible assumption
    | with_reducible apply signal_keeps
    | with_reducible apply setCompl_keeps
    | with_reducible apply Keeps.ite
    | (lift_lets; intro x; refine Keeps.cut (s := s0) (x := x) ?_ ?_; rotate_left; intro hx; clear_value x; rotate_left; subst x)
    | (lift_lets; intro (x : Memory); subst x)
    | (lift_lets; intro (x : Flash); subst x)
    | (lift_lets; intro (x : State → State × Nat × Nat); subst x)
    | (lift_lets; intro (x : State → State); subst x)
    | (lift_lets; intro (x : State → State × Result); subst x)
    | (lift_lets; intro x; clear_value x)
    | dsimp only [Keeps]
    | split

theorem execMsixVectorUnmask_keeps {s0 s : State} {a0} (h : Keeps s0 s) {t} (e : execMsixVectorUnmask a0 s = .next t) : Keeps s0 t := by
  unfold execMsixVectorUnmask at e
  first
    | (replace e := Host.Outcome.next.inj e; subst e)
    | cases e
  repeat' first
    | with_reducible assumption
    | with_reducible apply signal_keeps
    | with_reducible apply Keeps.ite
    | dsimp only [Keeps]
    | split

theorem execStepReportPost_keeps {s0 s : State} (h : Keeps s0 s) {t} (e : execStepReportPost s = .next t) : Keeps s0 t := by
  unfold execStepReportPost at e
  first
    | (replace e := Host.Outcome.next.inj e; subst e)
    | cases e
  repeat' first
    | with_reducible assumption
    | with_reducible apply advance_keeps
    | with_reducible apply stepReport_keeps
    | with_reducible apply Keeps.ite
    | dsimp only [Keeps]
    | split

theorem safeHoldNow_keeps {s0 s : State} (h : Keeps s0 s) : Keeps s0 (safeHoldNow s) := by
  unfold safeHoldNow
  repeat' first
    | with_reducible assumption
    | with_reducible apply raise_keeps
    | with_reducible apply orderStop_keeps
    | with_reducible apply sendHedge_keeps
    | with_reducible apply Keeps.ite
    | (lift_lets; intro x; refine Keeps.cut (s := s0) (x := x) ?_ ?_; rotate_left; intro hx; clear_value x; rotate_left; subst x)
    | (lift_lets; intro (x : Memory); subst x)
    | (lift_lets; intro (x : Flash); subst x)
    | (lift_lets; intro (x : State → State × Nat × Nat); subst x)
    | (lift_lets; intro (x : State → State); subst x)
    | (lift_lets; intro (x : State → State × Result); subst x)
    | (lift_lets; intro x; clear_value x)
    | dsimp only [Keeps]
    | split

theorem execLivenessTimeout_keeps {s0 s : State} (h : Keeps s0 s) {t} (e : execLivenessTimeout s = .next t) : Keeps s0 t := by
  unfold execLivenessTimeout at e
  first
    | (replace e := Host.Outcome.next.inj e; subst e)
    | cases e
  repeat' first
    | with_reducible assumption
    | with_reducible apply advance_keeps
    | with_reducible apply safeHoldNow_keeps
    | with_reducible apply Keeps.ite
    | dsimp only [Keeps]
    | split

end Sys2Proof.Laws
end

