-- ==== Sys2Proof/Laws/KeepsDescRows.lean ====
section
/-!
SUPPORT. `Keeps` for the operations of Machine/DescRows.lean.
-/
namespace Sys2Proof.Laws

open Sys2Proof Sys2Proof.Machine

theorem execGraphSubmit_keeps {s0 s : State} {a0} (h : Keeps s0 s) {t} (e : execGraphSubmit a0 s = .next t) : Keeps s0 t := by
  unfold execGraphSubmit at e
  first
    | (replace e := Host.Outcome.next.inj e; subst e)
    | cases e
  repeat' first
    | with_reducible assumption
    | with_reducible apply takeDescriptor_keeps
    | with_reducible apply Keeps.ite
    | dsimp only [Keeps]
    | split

theorem execGraphRetire_keeps {s0 s : State} {a0} (h : Keeps s0 s) {t} (e : execGraphRetire a0 s = .next t) : Keeps s0 t := by
  unfold execGraphRetire at e
  first
    | (replace e := Host.Outcome.next.inj e; subst e)
    | cases e
  repeat' first
    | with_reducible assumption
    | with_reducible apply takeDescriptor_keeps
    | with_reducible apply Keeps.ite
    | dsimp only [Keeps]
    | split

theorem execTensorDefine_keeps {s0 s : State} {a0} (h : Keeps s0 s) {t} (e : execTensorDefine a0 s = .next t) : Keeps s0 t := by
  unfold execTensorDefine at e
  first
    | (replace e := Host.Outcome.next.inj e; subst e)
    | cases e
  repeat' first
    | with_reducible assumption
    | with_reducible apply takeDescriptor_keeps
    | with_reducible apply Keeps.ite
    | dsimp only [Keeps]
    | split

theorem execTensorRelease_keeps {s0 s : State} {a0} (h : Keeps s0 s) {t} (e : execTensorRelease a0 s = .next t) : Keeps s0 t := by
  unfold execTensorRelease at e
  first
    | (replace e := Host.Outcome.next.inj e; subst e)
    | cases e
  repeat' first
    | with_reducible assumption
    | with_reducible apply takeDescriptor_keeps
    | with_reducible apply Keeps.ite
    | dsimp only [Keeps]
    | split

theorem execFurrowAdvance_keeps {s0 s : State} {a0} (h : Keeps s0 s) {t} (e : execFurrowAdvance a0 s = .next t) : Keeps s0 t := by
  unfold execFurrowAdvance at e
  first
    | (replace e := Host.Outcome.next.inj e; subst e)
    | cases e
  repeat' first
    | with_reducible assumption
    | with_reducible apply takeDescriptor_keeps
    | with_reducible apply Keeps.ite
    | dsimp only [Keeps]
    | split

theorem execRunBegin_keeps {s0 s : State} {a0} (h : Keeps s0 s) {t} (e : execRunBegin a0 s = .next t) : Keeps s0 t := by
  unfold execRunBegin at e
  first
    | (replace e := Host.Outcome.next.inj e; subst e)
    | cases e
  repeat' first
    | with_reducible assumption
    | with_reducible apply takeDescriptor_keeps
    | with_reducible apply Keeps.ite
    | dsimp only [Keeps]
    | split

theorem execGroupDefine_keeps {s0 s : State} {a0} (h : Keeps s0 s) {t} (e : execGroupDefine a0 s = .next t) : Keeps s0 t := by
  unfold execGroupDefine at e
  first
    | (replace e := Host.Outcome.next.inj e; subst e)
    | cases e
  repeat' first
    | with_reducible assumption
    | with_reducible apply takeDescriptor_keeps
    | with_reducible apply Keeps.ite
    | dsimp only [Keeps]
    | split

theorem execGroupReform_keeps {s0 s : State} {a0} (h : Keeps s0 s) {t} (e : execGroupReform a0 s = .next t) : Keeps s0 t := by
  unfold execGroupReform at e
  first
    | (replace e := Host.Outcome.next.inj e; subst e)
    | cases e
  repeat' first
    | with_reducible assumption
    | with_reducible apply takeDescriptor_keeps
    | with_reducible apply Keeps.ite
    | dsimp only [Keeps]
    | split

theorem execCopyIn_keeps {s0 s : State} {a0} (h : Keeps s0 s) {t} (e : execCopyIn a0 s = .next t) : Keeps s0 t := by
  unfold execCopyIn at e
  first
    | (replace e := Host.Outcome.next.inj e; subst e)
    | cases e
  repeat' first
    | with_reducible assumption
    | with_reducible apply takeDescriptor_keeps
    | with_reducible apply Keeps.ite
    | dsimp only [Keeps]
    | split

theorem execCopyOut_keeps {s0 s : State} {a0} (h : Keeps s0 s) {t} (e : execCopyOut a0 s = .next t) : Keeps s0 t := by
  unfold execCopyOut at e
  first
    | (replace e := Host.Outcome.next.inj e; subst e)
    | cases e
  repeat' first
    | with_reducible assumption
    | with_reducible apply takeDescriptor_keeps
    | with_reducible apply Keeps.ite
    | dsimp only [Keeps]
    | split

theorem execExportConfig_keeps {s0 s : State} {a0} (h : Keeps s0 s) {t} (e : execExportConfig a0 s = .next t) : Keeps s0 t := by
  unfold execExportConfig at e
  first
    | (replace e := Host.Outcome.next.inj e; subst e)
    | cases e
  repeat' first
    | with_reducible assumption
    | with_reducible apply takeDescriptor_keeps
    | with_reducible apply Keeps.ite
    | dsimp only [Keeps]
    | split

theorem execExportAcknowledge_keeps {s0 s : State} {a0} (h : Keeps s0 s) {t} (e : execExportAcknowledge a0 s = .next t) : Keeps s0 t := by
  unfold execExportAcknowledge at e
  first
    | (replace e := Host.Outcome.next.inj e; subst e)
    | cases e
  repeat' first
    | with_reducible assumption
    | with_reducible apply takeDescriptor_keeps
    | with_reducible apply Keeps.ite
    | dsimp only [Keeps]
    | split

theorem execExportChainBase_keeps {s0 s : State} {a0} (h : Keeps s0 s) {t} (e : execExportChainBase a0 s = .next t) : Keeps s0 t := by
  unfold execExportChainBase at e
  first
    | (replace e := Host.Outcome.next.inj e; subst e)
    | cases e
  repeat' first
    | with_reducible assumption
    | with_reducible apply takeDescriptor_keeps
    | with_reducible apply Keeps.ite
    | dsimp only [Keeps]
    | split

theorem execExportReplayImport_keeps {s0 s : State} {a0} (h : Keeps s0 s) {t} (e : execExportReplayImport a0 s = .next t) : Keeps s0 t := by
  unfold execExportReplayImport at e
  first
    | (replace e := Host.Outcome.next.inj e; subst e)
    | cases e
  repeat' first
    | with_reducible assumption
    | with_reducible apply takeDescriptor_keeps
    | with_reducible apply Keeps.ite
    | dsimp only [Keeps]
    | split

theorem execSnapshot_keeps {s0 s : State} {a0} (h : Keeps s0 s) {t} (e : execSnapshot a0 s = .next t) : Keeps s0 t := by
  unfold execSnapshot at e
  first
    | (replace e := Host.Outcome.next.inj e; subst e)
    | cases e
  repeat' first
    | with_reducible assumption
    | with_reducible apply takeDescriptor_keeps
    | with_reducible apply Keeps.ite
    | dsimp only [Keeps]
    | split

theorem execStopScheduled_keeps {s0 s : State} {a0} (h : Keeps s0 s) {t} (e : execStopScheduled a0 s = .next t) : Keeps s0 t := by
  unfold execStopScheduled at e
  first
    | (replace e := Host.Outcome.next.inj e; subst e)
    | cases e
  repeat' first
    | with_reducible assumption
    | with_reducible apply takeDescriptor_keeps
    | with_reducible apply Keeps.ite
    | dsimp only [Keeps]
    | split

theorem execStopImmediate_keeps {s0 s : State} {a0} (h : Keeps s0 s) {t} (e : execStopImmediate a0 s = .next t) : Keeps s0 t := by
  unfold execStopImmediate at e
  first
    | (replace e := Host.Outcome.next.inj e; subst e)
    | cases e
  repeat' first
    | with_reducible assumption
    | with_reducible apply takeDescriptor_keeps
    | with_reducible apply Keeps.ite
    | dsimp only [Keeps]
    | split

theorem execResume_keeps {s0 s : State} {a0} (h : Keeps s0 s) {t} (e : execResume a0 s = .next t) : Keeps s0 t := by
  unfold execResume at e
  first
    | (replace e := Host.Outcome.next.inj e; subst e)
    | cases e
  repeat' first
    | with_reducible assumption
    | with_reducible apply takeDescriptor_keeps
    | with_reducible apply Keeps.ite
    | dsimp only [Keeps]
    | split

theorem execModeSet_keeps {s0 s : State} {a0} (h : Keeps s0 s) {t} (e : execModeSet a0 s = .next t) : Keeps s0 t := by
  unfold execModeSet at e
  first
    | (replace e := Host.Outcome.next.inj e; subst e)
    | cases e
  repeat' first
    | with_reducible assumption
    | with_reducible apply takeDescriptor_keeps
    | with_reducible apply Keeps.ite
    | dsimp only [Keeps]
    | split

theorem execRootSupply_keeps {s0 s : State} {a0} (h : Keeps s0 s) {t} (e : execRootSupply a0 s = .next t) : Keeps s0 t := by
  unfold execRootSupply at e
  first
    | (replace e := Host.Outcome.next.inj e; subst e)
    | cases e
  repeat' first
    | with_reducible assumption
    | with_reducible apply takeDescriptor_keeps
    | with_reducible apply Keeps.ite
    | dsimp only [Keeps]
    | split

theorem execVoteSupply_keeps {s0 s : State} {a0} (h : Keeps s0 s) {t} (e : execVoteSupply a0 s = .next t) : Keeps s0 t := by
  unfold execVoteSupply at e
  first
    | (replace e := Host.Outcome.next.inj e; subst e)
    | cases e
  repeat' first
    | with_reducible assumption
    | with_reducible apply takeDescriptor_keeps
    | with_reducible apply Keeps.ite
    | dsimp only [Keeps]
    | split

theorem execPlacementPin_keeps {s0 s : State} {a0} (h : Keeps s0 s) {t} (e : execPlacementPin a0 s = .next t) : Keeps s0 t := by
  unfold execPlacementPin at e
  first
    | (replace e := Host.Outcome.next.inj e; subst e)
    | cases e
  repeat' first
    | with_reducible assumption
    | with_reducible apply takeDescriptor_keeps
    | with_reducible apply Keeps.ite
    | dsimp only [Keeps]
    | split

theorem execCounterConfig_keeps {s0 s : State} {a0} (h : Keeps s0 s) {t} (e : execCounterConfig a0 s = .next t) : Keeps s0 t := by
  unfold execCounterConfig at e
  first
    | (replace e := Host.Outcome.next.inj e; subst e)
    | cases e
  repeat' first
    | with_reducible assumption
    | with_reducible apply takeDescriptor_keeps
    | with_reducible apply Keeps.ite
    | dsimp only [Keeps]
    | split

theorem execCounterReadNow_keeps {s0 s : State} {a0} (h : Keeps s0 s) {t} (e : execCounterReadNow a0 s = .next t) : Keeps s0 t := by
  unfold execCounterReadNow at e
  first
    | (replace e := Host.Outcome.next.inj e; subst e)
    | cases e
  repeat' first
    | with_reducible assumption
    | with_reducible apply takeDescriptor_keeps
    | with_reducible apply Keeps.ite
    | dsimp only [Keeps]
    | split

theorem execCounterClear_keeps {s0 s : State} {a0} (h : Keeps s0 s) {t} (e : execCounterClear a0 s = .next t) : Keeps s0 t := by
  unfold execCounterClear at e
  first
    | (replace e := Host.Outcome.next.inj e; subst e)
    | cases e
  repeat' first
    | with_reducible assumption
    | with_reducible apply takeDescriptor_keeps
    | with_reducible apply Keeps.ite
    | dsimp only [Keeps]
    | split

theorem execCounterStatus_keeps {s0 s : State} {a0} (h : Keeps s0 s) {t} (e : execCounterStatus a0 s = .next t) : Keeps s0 t := by
  unfold execCounterStatus at e
  first
    | (replace e := Host.Outcome.next.inj e; subst e)
    | cases e
  repeat' first
    | with_reducible assumption
    | with_reducible apply takeDescriptor_keeps
    | with_reducible apply Keeps.ite
    | dsimp only [Keeps]
    | split

theorem execTraceConfigArm_keeps {s0 s : State} {a0} (h : Keeps s0 s) {t} (e : execTraceConfigArm a0 s = .next t) : Keeps s0 t := by
  unfold execTraceConfigArm at e
  first
    | (replace e := Host.Outcome.next.inj e; subst e)
    | cases e
  repeat' first
    | with_reducible assumption
    | with_reducible apply takeDescriptor_keeps
    | with_reducible apply Keeps.ite
    | dsimp only [Keeps]
    | split

theorem execTraceRearm_keeps {s0 s : State} {a0} (h : Keeps s0 s) {t} (e : execTraceRearm a0 s = .next t) : Keeps s0 t := by
  unfold execTraceRearm at e
  first
    | (replace e := Host.Outcome.next.inj e; subst e)
    | cases e
  repeat' first
    | with_reducible assumption
    | with_reducible apply takeDescriptor_keeps
    | with_reducible apply Keeps.ite
    | dsimp only [Keeps]
    | split

theorem execTraceDisable_keeps {s0 s : State} {a0} (h : Keeps s0 s) {t} (e : execTraceDisable a0 s = .next t) : Keeps s0 t := by
  unfold execTraceDisable at e
  first
    | (replace e := Host.Outcome.next.inj e; subst e)
    | cases e
  repeat' first
    | with_reducible assumption
    | with_reducible apply takeDescriptor_keeps
    | with_reducible apply Keeps.ite
    | dsimp only [Keeps]
    | split

theorem execTraceStatus_keeps {s0 s : State} {a0} (h : Keeps s0 s) {t} (e : execTraceStatus a0 s = .next t) : Keeps s0 t := by
  unfold execTraceStatus at e
  first
    | (replace e := Host.Outcome.next.inj e; subst e)
    | cases e
  repeat' first
    | with_reducible assumption
    | with_reducible apply takeDescriptor_keeps
    | with_reducible apply Keeps.ite
    | dsimp only [Keeps]
    | split

theorem execInjectConfigure_keeps {s0 s : State} {a0} (h : Keeps s0 s) {t} (e : execInjectConfigure a0 s = .next t) : Keeps s0 t := by
  unfold execInjectConfigure at e
  first
    | (replace e := Host.Outcome.next.inj e; subst e)
    | cases e
  repeat' first
    | with_reducible assumption
    | with_reducible apply takeDescriptor_keeps
    | with_reducible apply Keeps.ite
    | dsimp only [Keeps]
    | split

theorem execFence_keeps {s0 s : State} {a0} (h : Keeps s0 s) {t} (e : execFence a0 s = .next t) : Keeps s0 t := by
  unfold execFence at e
  first
    | (replace e := Host.Outcome.next.inj e; subst e)
    | cases e
  repeat' first
    | with_reducible assumption
    | with_reducible apply takeDescriptor_keeps
    | with_reducible apply Keeps.ite
    | dsimp only [Keeps]
    | split

theorem takeSahith_keeps {s0 s : State} {a0 a1 a2} (h : Keeps s0 s) : Keeps s0 (takeSahith a0 a1 a2 s) := by
  unfold takeSahith
  repeat' first
    | with_reducible assumption
    | with_reducible apply sahithOn_keeps
    | with_reducible apply takeDescriptor_keeps
    | with_reducible apply Keeps.ite
    | dsimp only [Keeps]
    | split

theorem execGetIdentity_keeps {s0 s : State} {a0 a1} (h : Keeps s0 s) {t} (e : execGetIdentity a0 a1 s = .next t) : Keeps s0 t := by
  unfold execGetIdentity at e
  first
    | (replace e := Host.Outcome.next.inj e; subst e)
    | cases e
  repeat' first
    | with_reducible assumption
    | with_reducible apply takeSahith_keeps
    | with_reducible apply Keeps.ite
    | dsimp only [Keeps]
    | split

theorem execChallenge_keeps {s0 s : State} {a0 a1} (h : Keeps s0 s) {t} (e : execChallenge a0 a1 s = .next t) : Keeps s0 t := by
  unfold execChallenge at e
  first
    | (replace e := Host.Outcome.next.inj e; subst e)
    | cases e
  repeat' first
    | with_reducible assumption
    | with_reducible apply takeSahith_keeps
    | with_reducible apply Keeps.ite
    | dsimp only [Keeps]
    | split

end Sys2Proof.Laws
end

