-- ==== Sys2Proof/Laws/KeepsWatch.lean ====
section
/-!
SUPPORT. `Keeps` for the operations of Machine/Watch.lean.
-/
namespace Sys2Proof.Laws

open Sys2Proof Sys2Proof.Machine

theorem takeHead_keeps {s0 s : State} {a0} (h : Keeps s0 s) : Keeps s0 (takeHead a0 s) := by
  unfold takeHead
  repeat' first
    | with_reducible assumption
    | with_reducible apply advance_keeps
    | with_reducible apply setHead_keeps
    | with_reducible apply traceReceive_keeps
    | with_reducible apply Keeps.ite
    | dsimp only [Keeps]
    | split

theorem execFurrowHead_keeps {s0 s : State} {a0} (h : Keeps s0 s) {t} (e : execFurrowHead a0 s = .next t) : Keeps s0 t := by
  unfold execFurrowHead at e
  first
    | (replace e := Host.Outcome.next.inj e; subst e)
    | cases e
  repeat' first
    | with_reducible assumption
    | with_reducible apply takeHead_keeps
    | with_reducible apply Keeps.ite
    | dsimp only [Keeps]
    | split

theorem takeFront_keeps {s0 s : State} {a0 a1 a2 a3} (h : Keeps s0 s) : Keeps s0 (takeFront a0 a1 a2 a3 s) := by
  unfold takeFront
  repeat' first
    | with_reducible assumption
    | with_reducible apply advance_keeps
    | with_reducible apply traceReceive_keeps
    | with_reducible apply Keeps.ite
    | (lift_lets; intro x; refine Keeps.cut (s := s0) (x := x) ?_ ?_; rotate_left; intro hx; clear_value x; rotate_left; subst x)
    | (lift_lets; intro (x : Memory); subst x)
    | (lift_lets; intro (x : Flash); subst x)
    | (lift_lets; intro (x : State → State × Nat × Nat); subst x)
    | (lift_lets; intro (x : State → State); subst x)
    | (lift_lets; intro (x : State → State × Result); subst x)
    | (lift_lets; intro x; clear_value x)
    | dsimp only [Keeps]
    | split

theorem execLocalFront_keeps {s0 s : State} {a0 a1 a2 a3} (h : Keeps s0 s) {t} (e : execLocalFront a0 a1 a2 a3 s = .next t) : Keeps s0 t := by
  unfold execLocalFront at e
  first
    | (replace e := Host.Outcome.next.inj e; subst e)
    | cases e
  repeat' first
    | with_reducible assumption
    | with_reducible apply takeFront_keeps
    | with_reducible apply Keeps.ite
    | dsimp only [Keeps]
    | split

theorem execFurrowStall_keeps {s0 s : State} (h : Keeps s0 s) {t} (e : execFurrowStall s = .next t) : Keeps s0 t := by
  unfold execFurrowStall at e
  first
    | (replace e := Host.Outcome.next.inj e; subst e)
    | cases e
  repeat' first
    | with_reducible assumption
    | with_reducible apply raise_keeps
    | with_reducible apply Keeps.ite
    | (lift_lets; intro x; refine Keeps.cut (s := s0) (x := x) ?_ ?_; rotate_left; intro hx; clear_value x; rotate_left; subst x)
    | (lift_lets; intro (x : Memory); subst x)
    | (lift_lets; intro (x : Flash); subst x)
    | (lift_lets; intro (x : State → State × Nat × Nat); subst x)
    | (lift_lets; intro (x : State → State); subst x)
    | (lift_lets; intro (x : State → State × Result); subst x)
    | (lift_lets; intro x; clear_value x)
    | dsimp only [Keeps]
    | split

theorem execTimestampSync_keeps {s0 s : State} {a0} (h : Keeps s0 s) {t} (e : execTimestampSync a0 s = .next t) : Keeps s0 t := by
  unfold execTimestampSync at e
  first
    | (replace e := Host.Outcome.next.inj e; subst e)
    | cases e
  repeat' first
    | with_reducible assumption
    | with_reducible apply traceReceive_keeps
    | with_reducible apply Keeps.ite
    | (lift_lets; intro x; refine Keeps.cut (s := s0) (x := x) ?_ ?_; rotate_left; intro hx; clear_value x; rotate_left; subst x)
    | (lift_lets; intro (x : Memory); subst x)
    | (lift_lets; intro (x : Flash); subst x)
    | (lift_lets; intro (x : State → State × Nat × Nat); subst x)
    | (lift_lets; intro (x : State → State); subst x)
    | (lift_lets; intro (x : State → State × Result); subst x)
    | (lift_lets; intro x; clear_value x)
    | dsimp only [Keeps]
    | split

theorem takeStop_keeps {s0 s : State} {a0} (h : Keeps s0 s) : Keeps s0 (takeStop a0 s) := by
  unfold takeStop
  repeat' first
    | with_reducible assumption
    | with_reducible apply traceReceive_keeps
    | with_reducible apply orderStop_keeps
    | with_reducible apply applyStop_keeps
    | with_reducible apply Keeps.ite
    | (lift_lets; intro x; refine Keeps.cut (s := s0) (x := x) ?_ ?_; rotate_left; intro hx; clear_value x; rotate_left; subst x)
    | (lift_lets; intro (x : Memory); subst x)
    | (lift_lets; intro (x : Flash); subst x)
    | (lift_lets; intro (x : State → State × Nat × Nat); subst x)
    | (lift_lets; intro (x : State → State); subst x)
    | (lift_lets; intro (x : State → State × Result); subst x)
    | (lift_lets; intro x; clear_value x)
    | dsimp only [Keeps]
    | split

theorem execHedgeStop_keeps {s0 s : State} {a0} (h : Keeps s0 s) {t} (e : execHedgeStop a0 s = .next t) : Keeps s0 t := by
  unfold execHedgeStop at e
  first
    | (replace e := Host.Outcome.next.inj e; subst e)
    | cases e
  repeat' first
    | with_reducible assumption
    | with_reducible apply advance_keeps
    | with_reducible apply takeStop_keeps
    | with_reducible apply Keeps.ite
    | dsimp only [Keeps]
    | split

theorem reachCut_keeps {s0 s : State} (h : Keeps s0 s) : Keeps s0 (reachCut s) := by
  unfold reachCut
  repeat' first
    | with_reducible assumption
    | with_reducible apply record_keeps
    | with_reducible apply writeStopMap_keeps
    | with_reducible apply stopsComplete_keeps
    | with_reducible apply acknowledge_keeps
    | intro t h
    | with_reducible apply Keeps.ite
    | (lift_lets; intro x; refine Keeps.cut (s := s0) (x := x) ?_ ?_; rotate_left; intro hx; clear_value x; rotate_left; subst x)
    | (lift_lets; intro (x : Memory); subst x)
    | (lift_lets; intro (x : Flash); subst x)
    | (lift_lets; intro (x : State → State × Nat × Nat); subst x)
    | (lift_lets; intro (x : State → State); subst x)
    | (lift_lets; intro (x : State → State × Result); subst x)
    | (lift_lets; intro x; clear_value x)
    | dsimp only [Keeps]
    | split

theorem execStopCutReached_keeps {s0 s : State} (h : Keeps s0 s) {t} (e : execStopCutReached s = .next t) : Keeps s0 t := by
  unfold execStopCutReached at e
  first
    | (replace e := Host.Outcome.next.inj e; subst e)
    | cases e
  repeat' first
    | with_reducible assumption
    | with_reducible apply advance_keeps
    | with_reducible apply reachCut_keeps
    | with_reducible apply Keeps.ite
    | dsimp only [Keeps]
    | split

theorem withoutModule_keeps {s0 s : State} {a0} (h : Keeps s0 s) : Keeps s0 (withoutModule a0 s) := by
  unfold withoutModule
  repeat' first
    | with_reducible assumption
    | with_reducible apply finishJobs_keeps
    | (with_reducible refine Keeps.foldl ?_ (fun t x h => ?_))
    | (with_reducible refine Keeps.foldlFst ?_ (fun t x h => ?_))
    | (with_reducible refine Keeps.foldlSnd ?_ (fun t x h => ?_))
    | with_reducible apply Keeps.ite
    | (lift_lets; intro x; refine Keeps.cut (s := s0) (x := x) ?_ ?_; rotate_left; intro hx; clear_value x; rotate_left; subst x)
    | (lift_lets; intro (x : Memory); subst x)
    | (lift_lets; intro (x : Flash); subst x)
    | (lift_lets; intro (x : State → State × Nat × Nat); subst x)
    | (lift_lets; intro (x : State → State); subst x)
    | (lift_lets; intro (x : State → State × Result); subst x)
    | (lift_lets; intro x; clear_value x)
    | dsimp only [Keeps]
    | split

theorem reportAgain_keeps {s0 s : State} (h : Keeps s0 s) : Keeps s0 (reportAgain s) := by
  unfold reportAgain
  repeat' first
    | with_reducible assumption
    | with_reducible apply acknowledge_keeps
    | with_reducible apply shareVote_keeps
    | with_reducible apply reportReformed_keeps
    | with_reducible apply Keeps.ite
    | (lift_lets; intro x; refine Keeps.cut (s := s0) (x := x) ?_ ?_; rotate_left; intro hx; clear_value x; rotate_left; subst x)
    | (lift_lets; intro (x : Memory); subst x)
    | (lift_lets; intro (x : Flash); subst x)
    | (lift_lets; intro (x : State → State × Nat × Nat); subst x)
    | (lift_lets; intro (x : State → State); subst x)
    | (lift_lets; intro (x : State → State × Result); subst x)
    | (lift_lets; intro x; clear_value x)
    | dsimp only [Keeps]
    | split

theorem succeed_keeps {s0 s : State} (h : Keeps s0 s) : Keeps s0 (succeed s) := by
  unfold succeed
  repeat' first
    | with_reducible assumption
    | with_reducible apply reportAgain_keeps
    | with_reducible apply orderStop_keeps
    | with_reducible apply haltSmear_keeps
    | with_reducible apply Keeps.ite
    | (lift_lets; intro x; refine Keeps.cut (s := s0) (x := x) ?_ ?_; rotate_left; intro hx; clear_value x; rotate_left; subst x)
    | (lift_lets; intro (x : Memory); subst x)
    | (lift_lets; intro (x : Flash); subst x)
    | (lift_lets; intro (x : State → State × Nat × Nat); subst x)
    | (lift_lets; intro (x : State → State); subst x)
    | (lift_lets; intro (x : State → State × Result); subst x)
    | (lift_lets; intro x; clear_value x)
    | dsimp only [Keeps]
    | split

theorem needRestoration_keeps {s0 s : State} {a0} (h : Keeps s0 s) : Keeps s0 (needRestoration a0 s) := by
  unfold needRestoration
  repeat' first
    | with_reducible assumption
    | (with_reducible refine Keeps.foldl ?_ (fun t x h => ?_))
    | (with_reducible refine Keeps.foldlFst ?_ (fun t x h => ?_))
    | (with_reducible refine Keeps.foldlSnd ?_ (fun t x h => ?_))
    | with_reducible apply Keeps.ite
    | (lift_lets; intro x; refine Keeps.cut (s := s0) (x := x) ?_ ?_; rotate_left; intro hx; clear_value x; rotate_left; subst x)
    | (lift_lets; intro (x : Memory); subst x)
    | (lift_lets; intro (x : Flash); subst x)
    | (lift_lets; intro (x : State → State × Nat × Nat); subst x)
    | (lift_lets; intro (x : State → State); subst x)
    | (lift_lets; intro (x : State → State × Result); subst x)
    | (lift_lets; intro x; clear_value x)
    | dsimp only [Keeps]
    | split

theorem endLostColls_keeps {s0 s : State} {a0} (h : Keeps s0 s) : Keeps s0 (endLostColls a0 s) := by
  unfold endLostColls
  repeat' first
    | with_reducible assumption
    | with_reducible apply serveOwn_keeps
    | with_reducible apply endColl_keeps
    | (with_reducible refine Keeps.foldl ?_ (fun t x h => ?_))
    | (with_reducible refine Keeps.foldlFst ?_ (fun t x h => ?_))
    | (with_reducible refine Keeps.foldlSnd ?_ (fun t x h => ?_))
    | with_reducible apply Keeps.ite
    | (lift_lets; intro x; refine Keeps.cut (s := s0) (x := x) ?_ ?_; rotate_left; intro hx; clear_value x; rotate_left; subst x)
    | (lift_lets; intro (x : Memory); subst x)
    | (lift_lets; intro (x : Flash); subst x)
    | (lift_lets; intro (x : State → State × Nat × Nat); subst x)
    | (lift_lets; intro (x : State → State); subst x)
    | (lift_lets; intro (x : State → State × Result); subst x)
    | (lift_lets; intro x; clear_value x)
    | dsimp only [Keeps]
    | split

theorem noteLost_keeps {s0 s : State} {a0} (h : Keeps s0 s) : Keeps s0 (noteLost a0 s) := by
  unfold noteLost
  repeat' first
    | with_reducible assumption
    | with_reducible apply needRestoration_keeps
    | with_reducible apply withoutModule_keeps
    | with_reducible apply countLostMember_keeps
    | with_reducible apply endLostColls_keeps
    | with_reducible apply noteUnformed_keeps
    | with_reducible apply reformLost_keeps
    | with_reducible apply succeed_keeps
    | with_reducible apply resumeComplete_keeps
    | with_reducible apply stopsComplete_keeps
    | with_reducible apply reduceVote_keeps
    | with_reducible apply Keeps.ite
    | (lift_lets; intro x; refine Keeps.cut (s := s0) (x := x) ?_ ?_; rotate_left; intro hx; clear_value x; rotate_left; subst x)
    | (lift_lets; intro (x : Memory); subst x)
    | (lift_lets; intro (x : Flash); subst x)
    | (lift_lets; intro (x : State → State × Nat × Nat); subst x)
    | (lift_lets; intro (x : State → State); subst x)
    | (lift_lets; intro (x : State → State × Result); subst x)
    | (lift_lets; intro x; clear_value x)
    | dsimp only [Keeps]
    | split

theorem isolate_keeps {s0 s : State} {a0} (h : Keeps s0 s) : Keeps s0 (isolate a0 s) := by
  unfold isolate
  repeat' first
    | with_reducible assumption
    | with_reducible apply raise_keeps
    | with_reducible apply sendHedge_keeps
    | with_reducible apply needRestoration_keeps
    | with_reducible apply discardFrom_keeps
    | with_reducible apply haltSmear_keeps
    | with_reducible apply Keeps.ite
    | (lift_lets; intro x; refine Keeps.cut (s := s0) (x := x) ?_ ?_; rotate_left; intro hx; clear_value x; rotate_left; subst x)
    | (lift_lets; intro (x : Memory); subst x)
    | (lift_lets; intro (x : Flash); subst x)
    | (lift_lets; intro (x : State → State × Nat × Nat); subst x)
    | (lift_lets; intro (x : State → State); subst x)
    | (lift_lets; intro (x : State → State × Result); subst x)
    | (lift_lets; intro x; clear_value x)
    | rw [dropLayers_base]
    | dsimp only [Keeps]
    | split

theorem declareLost_keeps {s0 s : State} {a0} (h : Keeps s0 s) : Keeps s0 (declareLost a0 s) := by
  unfold declareLost
  repeat' first
    | with_reducible assumption
    | with_reducible apply sendHedge_keeps
    | with_reducible apply findMemberLost_keeps
    | with_reducible apply raise_keeps
    | with_reducible apply noteLost_keeps
    | with_reducible apply Keeps.ite
    | (lift_lets; intro x; refine Keeps.cut (s := s0) (x := x) ?_ ?_; rotate_left; intro hx; clear_value x; rotate_left; subst x)
    | (lift_lets; intro (x : Memory); subst x)
    | (lift_lets; intro (x : Flash); subst x)
    | (lift_lets; intro (x : State → State × Nat × Nat); subst x)
    | (lift_lets; intro (x : State → State); subst x)
    | (lift_lets; intro (x : State → State × Result); subst x)
    | (lift_lets; intro x; clear_value x)
    | dsimp only [Keeps]
    | split

theorem execHeartbeatTick_keeps {s0 s : State} (h : Keeps s0 s) {t} (e : execHeartbeatTick s = .next t) : Keeps s0 t := by
  unfold execHeartbeatTick at e
  first
    | (replace e := Host.Outcome.next.inj e; subst e)
    | cases e
  repeat' first
    | with_reducible assumption
    | with_reducible apply sendHedge_keeps
    | with_reducible apply isolate_keeps
    | with_reducible apply Keeps.ite
    | (lift_lets; intro x; refine Keeps.cut (s := s0) (x := x) ?_ ?_; rotate_left; intro hx; clear_value x; rotate_left; subst x)
    | (lift_lets; intro (x : Memory); subst x)
    | (lift_lets; intro (x : Flash); subst x)
    | (lift_lets; intro (x : State → State × Nat × Nat); subst x)
    | (lift_lets; intro (x : State → State); subst x)
    | (lift_lets; intro (x : State → State × Result); subst x)
    | (lift_lets; intro x; clear_value x)
    | dsimp only [Keeps]
    | split

theorem takeHeartbeat_keeps {s0 s : State} {a0 a1} (h : Keeps s0 s) : Keeps s0 (takeHeartbeat a0 a1 s) := by
  unfold takeHeartbeat
  repeat' first
    | with_reducible assumption
    | with_reducible apply traceReceive_keeps
    | with_reducible apply Keeps.ite
    | (lift_lets; intro x; refine Keeps.cut (s := s0) (x := x) ?_ ?_; rotate_left; intro hx; clear_value x; rotate_left; subst x)
    | (lift_lets; intro (x : Memory); subst x)
    | (lift_lets; intro (x : Flash); subst x)
    | (lift_lets; intro (x : State → State × Nat × Nat); subst x)
    | (lift_lets; intro (x : State → State); subst x)
    | (lift_lets; intro (x : State → State × Result); subst x)
    | (lift_lets; intro x; clear_value x)
    | dsimp only [Keeps]
    | split

theorem execHeartbeat_keeps {s0 s : State} {a0 a1} (h : Keeps s0 s) {t} (e : execHeartbeat a0 a1 s = .next t) : Keeps s0 t := by
  unfold execHeartbeat at e
  first
    | (replace e := Host.Outcome.next.inj e; subst e)
    | cases e
  repeat' first
    | with_reducible assumption
    | with_reducible apply takeHeartbeat_keeps
    | with_reducible apply Keeps.ite
    | dsimp only [Keeps]
    | split

theorem execHeartbeatLoss_keeps {s0 s : State} {a0} (h : Keeps s0 s) {t} (e : execHeartbeatLoss a0 s = .next t) : Keeps s0 t := by
  unfold execHeartbeatLoss at e
  first
    | (replace e := Host.Outcome.next.inj e; subst e)
    | cases e
  repeat' first
    | with_reducible assumption
    | with_reducible apply advance_keeps
    | with_reducible apply isolate_keeps
    | with_reducible apply declareLost_keeps
    | with_reducible apply Keeps.ite
    | dsimp only [Keeps]
    | split

theorem execHedgeMemberLost_keeps {s0 s : State} {a0 a1 a2 a3} (h : Keeps s0 s) {t} (e : execHedgeMemberLost a0 a1 a2 a3 s = .next t) : Keeps s0 t := by
  unfold execHedgeMemberLost at e
  first
    | (replace e := Host.Outcome.next.inj e; subst e)
    | cases e
  repeat' first
    | with_reducible assumption
    | with_reducible apply traceReceive_keeps
    | with_reducible apply advance_keeps
    | with_reducible apply isolate_keeps
    | with_reducible apply noteLost_keeps
    | with_reducible apply Keeps.ite
    | (lift_lets; intro x; refine Keeps.cut (s := s0) (x := x) ?_ ?_; rotate_left; intro hx; clear_value x; rotate_left; subst x)
    | (lift_lets; intro (x : Memory); subst x)
    | (lift_lets; intro (x : Flash); subst x)
    | (lift_lets; intro (x : State → State × Nat × Nat); subst x)
    | (lift_lets; intro (x : State → State); subst x)
    | (lift_lets; intro (x : State → State × Result); subst x)
    | (lift_lets; intro x; clear_value x)
    | dsimp only [Keeps]
    | split

theorem execHedgeEvent_keeps {s0 s : State} {a0 a1 a2 a3 a4} (h : Keeps s0 s) {t} (e : execHedgeEvent a0 a1 a2 a3 a4 s = .next t) : Keeps s0 t := by
  unfold execHedgeEvent at e
  first
    | (replace e := Host.Outcome.next.inj e; subst e)
    | cases e
  repeat' first
    | with_reducible assumption
    | with_reducible apply traceReceive_keeps
    | with_reducible apply postEvent_keeps
    | with_reducible apply Keeps.ite
    | (lift_lets; intro x; refine Keeps.cut (s := s0) (x := x) ?_ ?_; rotate_left; intro hx; clear_value x; rotate_left; subst x)
    | (lift_lets; intro (x : Memory); subst x)
    | (lift_lets; intro (x : Flash); subst x)
    | (lift_lets; intro (x : State → State × Nat × Nat); subst x)
    | (lift_lets; intro (x : State → State); subst x)
    | (lift_lets; intro (x : State → State × Result); subst x)
    | (lift_lets; intro x; clear_value x)
    | dsimp only [Keeps]
    | split

theorem takeRunBegin_keeps {s0 s : State} {a0} (h : Keeps s0 s) : Keeps s0 (takeRunBegin a0 s) := by
  unfold takeRunBegin
  repeat' first
    | with_reducible assumption
    | with_reducible apply finishJobs_keeps
    | with_reducible apply beginRun_keeps
    | with_reducible apply takeBegin_keeps
    | with_reducible apply Keeps.ite
    | (lift_lets; intro x; refine Keeps.cut (s := s0) (x := x) ?_ ?_; rotate_left; intro hx; clear_value x; rotate_left; subst x)
    | (lift_lets; intro (x : Memory); subst x)
    | (lift_lets; intro (x : Flash); subst x)
    | (lift_lets; intro (x : State → State × Nat × Nat); subst x)
    | (lift_lets; intro (x : State → State); subst x)
    | (lift_lets; intro (x : State → State × Result); subst x)
    | (lift_lets; intro x; clear_value x)
    | dsimp only [Keeps]
    | split

theorem takeForward_keeps {s0 s : State} {a0} (h : Keeps s0 s) : Keeps s0 (takeForward a0 s) := by
  unfold takeForward
  repeat' first
    | with_reducible assumption
    | with_reducible apply traceReceive_keeps
    | with_reducible apply takeRunBegin_keeps
    | with_reducible apply applyOrder_keeps
    | with_reducible apply Keeps.ite
    | (lift_lets; intro x; refine Keeps.cut (s := s0) (x := x) ?_ ?_; rotate_left; intro hx; clear_value x; rotate_left; subst x)
    | (lift_lets; intro (x : Memory); subst x)
    | (lift_lets; intro (x : Flash); subst x)
    | (lift_lets; intro (x : State → State × Nat × Nat); subst x)
    | (lift_lets; intro (x : State → State); subst x)
    | (lift_lets; intro (x : State → State × Result); subst x)
    | (lift_lets; intro x; clear_value x)
    | dsimp only [Keeps]
    | split

theorem execOrderForward_keeps {s0 s : State} {a0} (h : Keeps s0 s) {t} (e : execOrderForward a0 s = .next t) : Keeps s0 t := by
  unfold execOrderForward at e
  first
    | (replace e := Host.Outcome.next.inj e; subst e)
    | cases e
  repeat' first
    | with_reducible assumption
    | with_reducible apply advance_keeps
    | with_reducible apply takeForward_keeps
    | with_reducible apply Keeps.ite
    | dsimp only [Keeps]
    | split

theorem takeResult_keeps {s0 s : State} {a0 a1 a2} (h : Keeps s0 s) : Keeps s0 (takeResult a0 a1 a2 s) := by
  unfold takeResult
  repeat' first
    | with_reducible assumption
    | with_reducible apply finishJobs_keeps
    | with_reducible apply Keeps.ite
    | (lift_lets; intro x; refine Keeps.cut (s := s0) (x := x) ?_ ?_; rotate_left; intro hx; clear_value x; rotate_left; subst x)
    | (lift_lets; intro (x : Memory); subst x)
    | (lift_lets; intro (x : Flash); subst x)
    | (lift_lets; intro (x : State → State × Nat × Nat); subst x)
    | (lift_lets; intro (x : State → State); subst x)
    | (lift_lets; intro (x : State → State × Result); subst x)
    | (lift_lets; intro x; clear_value x)
    | dsimp only [Keeps]
    | split

theorem takeGroupHeld_keeps {s0 s : State} {a0 a1 a2} (h : Keeps s0 s) : Keeps s0 (takeGroupHeld a0 a1 a2 s) := by
  unfold takeGroupHeld
  repeat' first
    | with_reducible assumption
    | with_reducible apply finishJobs_keeps
    | with_reducible apply Keeps.ite
    | (lift_lets; intro x; refine Keeps.cut (s := s0) (x := x) ?_ ?_; rotate_left; intro hx; clear_value x; rotate_left; subst x)
    | (lift_lets; intro (x : Memory); subst x)
    | (lift_lets; intro (x : Flash); subst x)
    | (lift_lets; intro (x : State → State × Nat × Nat); subst x)
    | (lift_lets; intro (x : State → State); subst x)
    | (lift_lets; intro (x : State → State × Result); subst x)
    | (lift_lets; intro x; clear_value x)
    | dsimp only [Keeps]
    | split

theorem takeStopReached_keeps {s0 s : State} {a0 a1} (h : Keeps s0 s) : Keeps s0 (takeStopReached a0 a1 s) := by
  unfold takeStopReached
  repeat' first
    | with_reducible assumption
    | with_reducible apply stopsComplete_keeps
    | with_reducible apply Keeps.ite
    | (lift_lets; intro x; refine Keeps.cut (s := s0) (x := x) ?_ ?_; rotate_left; intro hx; clear_value x; rotate_left; subst x)
    | (lift_lets; intro (x : Memory); subst x)
    | (lift_lets; intro (x : Flash); subst x)
    | (lift_lets; intro (x : State → State × Nat × Nat); subst x)
    | (lift_lets; intro (x : State → State); subst x)
    | (lift_lets; intro (x : State → State × Result); subst x)
    | (lift_lets; intro x; clear_value x)
    | dsimp only [Keeps]
    | split

theorem takeDiscarded_keeps {s0 s : State} {a0 a1} (h : Keeps s0 s) : Keeps s0 (takeDiscarded a0 a1 s) := by
  unfold takeDiscarded
  repeat' first
    | with_reducible assumption
    | with_reducible apply resumeComplete_keeps
    | with_reducible apply Keeps.ite
    | dsimp only [Keeps]
    | split

theorem takeRestored_keeps {s0 s : State} {a0} (h : Keeps s0 s) : Keeps s0 (takeRestored a0 s) := by
  unfold takeRestored
  repeat' first
    | with_reducible assumption
    | with_reducible apply readmit_keeps
    | (with_reducible refine Keeps.foldl ?_ (fun t x h => ?_))
    | (with_reducible refine Keeps.foldlFst ?_ (fun t x h => ?_))
    | (with_reducible refine Keeps.foldlSnd ?_ (fun t x h => ?_))
    | with_reducible apply Keeps.ite
    | (lift_lets; intro x; refine Keeps.cut (s := s0) (x := x) ?_ ?_; rotate_left; intro hx; clear_value x; rotate_left; subst x)
    | (lift_lets; intro (x : Memory); subst x)
    | (lift_lets; intro (x : Flash); subst x)
    | (lift_lets; intro (x : State → State × Nat × Nat); subst x)
    | (lift_lets; intro (x : State → State); subst x)
    | (lift_lets; intro (x : State → State × Result); subst x)
    | (lift_lets; intro x; clear_value x)
    | dsimp only [Keeps]
    | split

theorem takeAgreement_keeps {s0 s : State} {a0 a1 a2 a3} (h : Keeps s0 s) : Keeps s0 (takeAgreement a0 a1 a2 a3 s) := by
  unfold takeAgreement
  repeat' first
    | with_reducible assumption
    | with_reducible apply traceReceive_keeps
    | with_reducible apply takeResult_keeps
    | with_reducible apply takeGroupHeld_keeps
    | with_reducible apply takeStopReached_keeps
    | with_reducible apply takeDiscarded_keeps
    | with_reducible apply takeRestored_keeps
    | with_reducible apply Keeps.ite
    | (lift_lets; intro x; refine Keeps.cut (s := s0) (x := x) ?_ ?_; rotate_left; intro hx; clear_value x; rotate_left; subst x)
    | (lift_lets; intro (x : Memory); subst x)
    | (lift_lets; intro (x : Flash); subst x)
    | (lift_lets; intro (x : State → State × Nat × Nat); subst x)
    | (lift_lets; intro (x : State → State); subst x)
    | (lift_lets; intro (x : State → State × Result); subst x)
    | (lift_lets; intro x; clear_value x)
    | dsimp only [Keeps]
    | split

theorem execAgreementAck_keeps {s0 s : State} {a0 a1 a2 a3} (h : Keeps s0 s) {t} (e : execAgreementAck a0 a1 a2 a3 s = .next t) : Keeps s0 t := by
  unfold execAgreementAck at e
  first
    | (replace e := Host.Outcome.next.inj e; subst e)
    | cases e
  repeat' first
    | with_reducible assumption
    | with_reducible apply advance_keeps
    | with_reducible apply takeAgreement_keeps
    | with_reducible apply Keeps.ite
    | dsimp only [Keeps]
    | split

theorem takeDefinition_keeps {s0 s : State} {a0 a1 a2 a3} (h : Keeps s0 s) : Keeps s0 (takeDefinition a0 a1 a2 a3 s) := by
  unfold takeDefinition
  repeat' first
    | with_reducible assumption
    | with_reducible apply traceReceive_keeps
    | with_reducible apply reportReformed_keeps
    | with_reducible apply installGroup_keeps
    | with_reducible apply sendHedge_keeps
    | with_reducible apply Keeps.ite
    | (lift_lets; intro x; refine Keeps.cut (s := s0) (x := x) ?_ ?_; rotate_left; intro hx; clear_value x; rotate_left; subst x)
    | (lift_lets; intro (x : Memory); subst x)
    | (lift_lets; intro (x : Flash); subst x)
    | (lift_lets; intro (x : State → State × Nat × Nat); subst x)
    | (lift_lets; intro (x : State → State); subst x)
    | (lift_lets; intro (x : State → State × Result); subst x)
    | (lift_lets; intro x; clear_value x)
    | dsimp only [Keeps]
    | split

theorem execGroupDefinition_keeps {s0 s : State} {a0 a1 a2 a3} (h : Keeps s0 s) {t} (e : execGroupDefinition a0 a1 a2 a3 s = .next t) : Keeps s0 t := by
  unfold execGroupDefinition at e
  first
    | (replace e := Host.Outcome.next.inj e; subst e)
    | cases e
  repeat' first
    | with_reducible assumption
    | with_reducible apply advance_keeps
    | with_reducible apply takeDefinition_keeps
    | with_reducible apply Keeps.ite
    | dsimp only [Keeps]
    | split

theorem agreementTimeout_keeps {s0 s : State} {a0} (h : Keeps s0 s) : Keeps s0 (agreementTimeout a0 s) := by
  unfold agreementTimeout
  repeat' first
    | with_reducible assumption
    | with_reducible apply finishJobs_keeps
    | with_reducible apply orderStop_keeps
    | with_reducible apply sendHedge_keeps
    | with_reducible apply Keeps.ite
    | (lift_lets; intro x; refine Keeps.cut (s := s0) (x := x) ?_ ?_; rotate_left; intro hx; clear_value x; rotate_left; subst x)
    | (lift_lets; intro (x : Memory); subst x)
    | (lift_lets; intro (x : Flash); subst x)
    | (lift_lets; intro (x : State → State × Nat × Nat); subst x)
    | (lift_lets; intro (x : State → State); subst x)
    | (lift_lets; intro (x : State → State × Result); subst x)
    | (lift_lets; intro x; clear_value x)
    | dsimp only [Keeps]
    | split

theorem execHedgeTimeout_keeps {s0 s : State} {a0} (h : Keeps s0 s) {t} (e : execHedgeTimeout a0 s = .next t) : Keeps s0 t := by
  unfold execHedgeTimeout at e
  first
    | (replace e := Host.Outcome.next.inj e; subst e)
    | cases e
  repeat' first
    | with_reducible assumption
    | with_reducible apply advance_keeps
    | with_reducible apply agreementTimeout_keeps
    | with_reducible apply Keeps.ite
    | dsimp only [Keeps]
    | split

end Sys2Proof.Laws
end

