-- ==== Sys2Proof/Laws/KeepsVoting.lean ====
section
/-!
SUPPORT. `Keeps` for the operations of Machine/Voting.lean.
-/
namespace Sys2Proof.Laws

open Sys2Proof Sys2Proof.Machine

theorem auditOne_keeps {s0 s : State} {a0 a1 a2} (h : Keeps s0 s) : Keeps s0 (auditOne a0 s a1 a2).1 := by
  unfold auditOne
  repeat' first
    | with_reducible assumption
    | with_reducible apply count_keeps
    | with_reducible apply raise_keeps
    | with_reducible apply Keeps.ite
    | (lift_lets; intro x; refine Keeps.cut (s := s0) (x := x) ?_ ?_; rotate_left; intro hx; clear_value x; rotate_left; subst x)
    | (lift_lets; intro (x : Memory); subst x)
    | (lift_lets; intro (x : Flash); subst x)
    | (lift_lets; intro (x : State → State × Nat × Nat); subst x)
    | (lift_lets; intro (x : State → State); subst x)
    | (lift_lets; intro (x : State → State × Result); subst x)
    | (lift_lets; intro x; clear_value x)
    | dsimp only [Keeps]
    | split

theorem auditOne_keeps_eq {s0 s : State} {a0 a1 a2} (h : Keeps s0 s) {t u} (e : auditOne a0 s a1 a2 = (t, u)) : Keeps s0 t := by
  have k : Keeps s0 (auditOne a0 s a1 a2).1 := auditOne_keeps h 
  rw [e] at k; exact k

theorem auditStep_keeps {s0 s : State} {a0} (h : Keeps s0 s) : Keeps s0 (auditStep a0 s) := by
  unfold auditStep
  repeat' first
    | with_reducible assumption
    | with_reducible apply auditOne_keeps
    | (with_reducible refine auditOne_keeps_eq ?_ (by with_reducible assumption))
    | (with_reducible refine Keeps.foldl ?_ (fun t x h => ?_))
    | (with_reducible refine Keeps.foldlFst ?_ (fun t x h => ?_))
    | (with_reducible refine Keeps.foldlSnd ?_ (fun t x h => ?_))
    | with_reducible apply Keeps.ite
    | dsimp only [Keeps]
    | split

theorem rollerChecks_keeps {s0 s : State} {a0} (h : Keeps s0 s) : Keeps s0 (rollerChecks a0 s) := by
  unfold rollerChecks
  repeat' first
    | with_reducible assumption
    | with_reducible apply finding_keeps
    | with_reducible apply raise_keeps
    | (with_reducible refine Keeps.foldl ?_ (fun t x h => ?_))
    | (with_reducible refine Keeps.foldlFst ?_ (fun t x h => ?_))
    | (with_reducible refine Keeps.foldlSnd ?_ (fun t x h => ?_))
    | with_reducible apply Keeps.ite
    | dsimp only [Keeps]
    | split

theorem normFindings_keeps {s0 s : State} {a0} (h : Keeps s0 s) : Keeps s0 (normFindings a0 s) := by
  unfold normFindings
  repeat' first
    | with_reducible assumption
    | with_reducible apply findings_keeps
    | (with_reducible refine Keeps.foldl ?_ (fun t x h => ?_))
    | (with_reducible refine Keeps.foldlFst ?_ (fun t x h => ?_))
    | (with_reducible refine Keeps.foldlSnd ?_ (fun t x h => ?_))
    | with_reducible apply Keeps.ite
    | dsimp only [Keeps]
    | split

theorem endLocalU_keeps {s0 s : State} (h : Keeps s0 s) : Keeps s0 (endLocalU s) := by
  unfold endLocalU
  repeat' first
    | with_reducible assumption
    | with_reducible apply normFindings_keeps
    | with_reducible apply rollerChecks_keeps
    | with_reducible apply auditStep_keeps
    | with_reducible apply settle_keeps
    | with_reducible apply openSeedbed_keeps
    | with_reducible apply advance_keeps
    | with_reducible apply releaseReads_keeps
    | with_reducible apply contribute_keeps
    | with_reducible apply Keeps.ite
    | (lift_lets; intro x; refine Keeps.cut (s := s0) (x := x) ?_ ?_; rotate_left; intro hx; clear_value x; rotate_left; subst x)
    | (lift_lets; intro (x : Memory); subst x)
    | (lift_lets; intro (x : Flash); subst x)
    | (lift_lets; intro (x : State → State × Nat × Nat); subst x)
    | (lift_lets; intro (x : State → State); subst x)
    | (lift_lets; intro (x : State → State × Result); subst x)
    | (lift_lets; intro x; clear_value x)
    | dsimp only [Keeps]
    | split

theorem execWorkingPageAudit_keeps {s0 s : State} (h : Keeps s0 s) {t} (e : execWorkingPageAudit s = .next t) : Keeps s0 t := by
  unfold execWorkingPageAudit at e
  first
    | (replace e := Host.Outcome.next.inj e; subst e)
    | cases e
  repeat' first
    | with_reducible assumption
    | with_reducible apply endLocalU_keeps
    | with_reducible apply Keeps.ite
    | dsimp only [Keeps]
    | split

theorem voteTimeout_keeps {s0 s : State} (h : Keeps s0 s) : Keeps s0 (voteTimeout s) := by
  unfold voteTimeout
  repeat' first
    | with_reducible assumption
    | with_reducible apply finishJobs_keeps
    | with_reducible apply timedOutVote_keeps
    | with_reducible apply sendHedge_keeps
    | with_reducible apply Keeps.ite
    | (lift_lets; intro x; refine Keeps.cut (s := s0) (x := x) ?_ ?_; rotate_left; intro hx; clear_value x; rotate_left; subst x)
    | (lift_lets; intro (x : Memory); subst x)
    | (lift_lets; intro (x : Flash); subst x)
    | (lift_lets; intro (x : State → State × Nat × Nat); subst x)
    | (lift_lets; intro (x : State → State); subst x)
    | (lift_lets; intro (x : State → State × Result); subst x)
    | (lift_lets; intro x; clear_value x)
    | dsimp only [Keeps]
    | split

theorem execVoteTimeout_keeps {s0 s : State} (h : Keeps s0 s) {t} (e : execVoteTimeout s = .next t) : Keeps s0 t := by
  unfold execVoteTimeout at e
  first
    | (replace e := Host.Outcome.next.inj e; subst e)
    | cases e
  repeat' first
    | with_reducible assumption
    | with_reducible apply advance_keeps
    | with_reducible apply voteTimeout_keeps
    | with_reducible apply Keeps.ite
    | dsimp only [Keeps]
    | split

theorem execVoteTimeoutReport_keeps {s0 s : State} {a0 a1 a2} (h : Keeps s0 s) {t} (e : execVoteTimeoutReport a0 a1 a2 s = .next t) : Keeps s0 t := by
  unfold execVoteTimeoutReport at e
  first
    | (replace e := Host.Outcome.next.inj e; subst e)
    | cases e
  repeat' first
    | with_reducible assumption
    | with_reducible apply traceReceive_keeps
    | with_reducible apply advance_keeps
    | with_reducible apply timedOutVote_keeps
    | with_reducible apply Keeps.ite
    | (lift_lets; intro x; refine Keeps.cut (s := s0) (x := x) ?_ ?_; rotate_left; intro hx; clear_value x; rotate_left; subst x)
    | (lift_lets; intro (x : Memory); subst x)
    | (lift_lets; intro (x : Flash); subst x)
    | (lift_lets; intro (x : State → State × Nat × Nat); subst x)
    | (lift_lets; intro (x : State → State); subst x)
    | (lift_lets; intro (x : State → State × Result); subst x)
    | (lift_lets; intro x; clear_value x)
    | dsimp only [Keeps]
    | split

theorem execVoteContribution_keeps {s0 s : State} {a0 a1 a2} (h : Keeps s0 s) {t} (e : execVoteContribution a0 a1 a2 s = .next t) : Keeps s0 t := by
  unfold execVoteContribution at e
  first
    | (replace e := Host.Outcome.next.inj e; subst e)
    | cases e
  repeat' first
    | with_reducible assumption
    | with_reducible apply advance_keeps
    | with_reducible apply takeContribution_keeps
    | with_reducible apply traceReceive_keeps
    | with_reducible apply Keeps.ite
    | dsimp only [Keeps]
    | split

theorem execVoteOutcome_keeps {s0 s : State} {a0} (h : Keeps s0 s) {t} (e : execVoteOutcome a0 s = .next t) : Keeps s0 t := by
  unfold execVoteOutcome at e
  first
    | (replace e := Host.Outcome.next.inj e; subst e)
    | cases e
  repeat' first
    | with_reducible assumption
    | with_reducible apply advance_keeps
    | with_reducible apply takeOutcome_keeps
    | with_reducible apply traceReceive_keeps
    | with_reducible apply Keeps.ite
    | dsimp only [Keeps]
    | split

theorem execAutoResume_keeps {s0 s : State} (h : Keeps s0 s) {t} (e : execAutoResume s = .next t) : Keeps s0 t := by
  unfold execAutoResume at e
  first
    | (replace e := Host.Outcome.next.inj e; subst e)
    | cases e
  repeat' first
    | with_reducible assumption
    | with_reducible apply advance_keeps
    | with_reducible apply orderRollBack_keeps
    | with_reducible apply Keeps.ite
    | dsimp only [Keeps]
    | split

end Sys2Proof.Laws
end

