-- ==== Sys2Proof/Laws/KeepsCollRows.lean ====
section
/-!
SUPPORT. `Keeps` for the operations of Machine/CollRows.lean.
-/
namespace Sys2Proof.Laws

open Sys2Proof Sys2Proof.Machine

theorem execCollData_keeps {s0 s : State} {a0} (h : Keeps s0 s) {t} (e : execCollData a0 s = .next t) : Keeps s0 t := by
  unfold execCollData at e
  first
    | (replace e := Host.Outcome.next.inj e; subst e)
    | cases e
  repeat' first
    | with_reducible assumption
    | with_reducible apply advance_keeps
    | with_reducible apply serveOwn_keeps
    | with_reducible apply takeData_keeps
    | with_reducible apply Keeps.ite
    | dsimp only [Keeps]
    | split

theorem execMuster_keeps {s0 s : State} {a0 a1 a2 a3 a4 a5} (h : Keeps s0 s) {t} (e : execMuster a0 a1 a2 a3 a4 a5 s = .next t) : Keeps s0 t := by
  unfold execMuster at e
  first
    | (replace e := Host.Outcome.next.inj e; subst e)
    | cases e
  repeat' first
    | with_reducible assumption
    | with_reducible apply advance_keeps
    | with_reducible apply serveOwn_keeps
    | with_reducible apply takeMuster_keeps
    | with_reducible apply traceReceive_keeps
    | with_reducible apply Keeps.ite
    | dsimp only [Keeps]
    | split

theorem execGoAhead_keeps {s0 s : State} {a0 a1 a2 a3} (h : Keeps s0 s) {t} (e : execGoAhead a0 a1 a2 a3 s = .next t) : Keeps s0 t := by
  unfold execGoAhead at e
  first
    | (replace e := Host.Outcome.next.inj e; subst e)
    | cases e
  repeat' first
    | with_reducible assumption
    | with_reducible apply advance_keeps
    | with_reducible apply serveOwn_keeps
    | with_reducible apply goAhead_keeps
    | with_reducible apply traceReceive_keeps
    | with_reducible apply Keeps.ite
    | dsimp only [Keeps]
    | split

theorem noticeEnd_keeps {s0 s : State} {a0 a1 a2} (h : Keeps s0 s) : Keeps s0 (noticeEnd a0 a1 a2 s) := by
  unfold noticeEnd
  repeat' first
    | with_reducible assumption
    | with_reducible apply endOfData_keeps
    | with_reducible apply bulkEnd_keeps
    | with_reducible apply Keeps.ite
    | dsimp only [Keeps]
    | split

theorem execEndOfDataNotice_keeps {s0 s : State} {a0 a1 a2} (h : Keeps s0 s) {t} (e : execEndOfDataNotice a0 a1 a2 s = .next t) : Keeps s0 t := by
  unfold execEndOfDataNotice at e
  first
    | (replace e := Host.Outcome.next.inj e; subst e)
    | cases e
  repeat' first
    | with_reducible assumption
    | with_reducible apply advance_keeps
    | with_reducible apply serveOwn_keeps
    | with_reducible apply noticeEnd_keeps
    | with_reducible apply traceReceive_keeps
    | with_reducible apply Keeps.ite
    | dsimp only [Keeps]
    | split

theorem sendMissing_keeps {s0 s : State} {a0 a1 a2 a3} (h : Keeps s0 s) : Keeps s0 (sendMissing a0 a1 a2 a3 s) := by
  unfold sendMissing
  repeat' first
    | with_reducible assumption
    | with_reducible apply resendRange_keeps
    | with_reducible apply resendTransfer_keeps
    | with_reducible apply Keeps.ite
    | dsimp only [Keeps]
    | split

theorem execMissingRangeRequest_keeps {s0 s : State} {a0 a1 a2 a3} (h : Keeps s0 s) {t} (e : execMissingRangeRequest a0 a1 a2 a3 s = .next t) : Keeps s0 t := by
  unfold execMissingRangeRequest at e
  first
    | (replace e := Host.Outcome.next.inj e; subst e)
    | cases e
  repeat' first
    | with_reducible assumption
    | with_reducible apply sendMissing_keeps
    | with_reducible apply traceReceive_keeps
    | with_reducible apply Keeps.ite
    | dsimp only [Keeps]
    | split

theorem execReservationRequest_keeps {s0 s : State} {a0 a1} (h : Keeps s0 s) {t} (e : execReservationRequest a0 a1 s = .next t) : Keeps s0 t := by
  unfold execReservationRequest at e
  first
    | (replace e := Host.Outcome.next.inj e; subst e)
    | cases e
  repeat' first
    | with_reducible assumption
    | with_reducible apply advance_keeps
    | with_reducible apply serveOwn_keeps
    | with_reducible apply binRequest_keeps
    | with_reducible apply traceReceive_keeps
    | with_reducible apply Keeps.ite
    | dsimp only [Keeps]
    | split

theorem execGrant_keeps {s0 s : State} {a0 a1} (h : Keeps s0 s) {t} (e : execGrant a0 a1 s = .next t) : Keeps s0 t := by
  unfold execGrant at e
  first
    | (replace e := Host.Outcome.next.inj e; subst e)
    | cases e
  repeat' first
    | with_reducible assumption
    | with_reducible apply advance_keeps
    | with_reducible apply serveOwn_keeps
    | with_reducible apply takeGrant_keeps
    | with_reducible apply traceReceive_keeps
    | with_reducible apply Keeps.ite
    | dsimp only [Keeps]
    | split

theorem execTakeBack_keeps {s0 s : State} {a0 a1} (h : Keeps s0 s) {t} (e : execTakeBack a0 a1 s = .next t) : Keeps s0 t := by
  unfold execTakeBack at e
  first
    | (replace e := Host.Outcome.next.inj e; subst e)
    | cases e
  repeat' first
    | with_reducible assumption
    | with_reducible apply takenBack_keeps
    | with_reducible apply traceReceive_keeps
    | with_reducible apply Keeps.ite
    | dsimp only [Keeps]
    | split

theorem takeRelease_keeps {s0 s : State} {a0} (h : Keeps s0 s) : Keeps s0 (takeRelease a0 s) := by
  unfold takeRelease
  repeat' first
    | with_reducible assumption
    | with_reducible apply endColl_keeps
    | with_reducible apply Keeps.ite
    | dsimp only [Keeps]
    | split

theorem execRelease_keeps {s0 s : State} {a0} (h : Keeps s0 s) {t} (e : execRelease a0 s = .next t) : Keeps s0 t := by
  unfold execRelease at e
  first
    | (replace e := Host.Outcome.next.inj e; subst e)
    | cases e
  repeat' first
    | with_reducible assumption
    | with_reducible apply advance_keeps
    | with_reducible apply serveOwn_keeps
    | with_reducible apply takeRelease_keeps
    | with_reducible apply Keeps.ite
    | dsimp only [Keeps]
    | split

theorem withdraw_keeps {s0 s : State} {a0} (h : Keeps s0 s) : Keeps s0 (withdraw a0 s) := by
  unfold withdraw
  repeat' first
    | with_reducible assumption
    | with_reducible apply sendHedge_keeps
    | (with_reducible refine Keeps.foldl ?_ (fun t x h => ?_))
    | (with_reducible refine Keeps.foldlFst ?_ (fun t x h => ?_))
    | (with_reducible refine Keeps.foldlSnd ?_ (fun t x h => ?_))
    | with_reducible apply Keeps.ite
    | (lift_lets; intro x; refine Keeps.cut (s := s0) (x := x) ?_ ?_; rotate_left; intro hx; clear_value x; rotate_left; subst x)
    | (lift_lets; intro (x : Memory); subst x)
    | (lift_lets; intro (x : Flash); subst x)
    | (lift_lets; intro (x : State → State × Nat × Nat); subst x)
    | (lift_lets; intro (x : State → State); subst x)
    | (lift_lets; intro (x : State → State × Result); subst x)
    | (lift_lets; intro x; clear_value x)
    | dsimp only [Keeps]
    | split

theorem reservationTimeout_keeps {s0 s : State} {a0} (h : Keeps s0 s) : Keeps s0 (reservationTimeout a0 s) := by
  unfold reservationTimeout
  repeat' first
    | with_reducible assumption
    | with_reducible apply endColl_keeps
    | with_reducible apply withdraw_keeps
    | with_reducible apply Keeps.ite
    | dsimp only [Keeps]
    | split

theorem execReservationTimeout_keeps {s0 s : State} {a0} (h : Keeps s0 s) {t} (e : execReservationTimeout a0 s = .next t) : Keeps s0 t := by
  unfold execReservationTimeout at e
  first
    | (replace e := Host.Outcome.next.inj e; subst e)
    | cases e
  repeat' first
    | with_reducible assumption
    | with_reducible apply advance_keeps
    | with_reducible apply serveOwn_keeps
    | with_reducible apply reservationTimeout_keeps
    | with_reducible apply Keeps.ite
    | dsimp only [Keeps]
    | split

theorem collTimeout_keeps {s0 s : State} {a0 a1 a2} (h : Keeps s0 s) : Keeps s0 (collTimeout a0 a1 a2 s) := by
  unfold collTimeout
  repeat' first
    | with_reducible assumption
    | with_reducible apply declareLost_keeps
    | with_reducible apply Keeps.ite
    | dsimp only [Keeps]
    | split

theorem execCollTimeout_keeps {s0 s : State} {a0 a1 a2} (h : Keeps s0 s) {t} (e : execCollTimeout a0 a1 a2 s = .next t) : Keeps s0 t := by
  unfold execCollTimeout at e
  first
    | (replace e := Host.Outcome.next.inj e; subst e)
    | cases e
  repeat' first
    | with_reducible assumption
    | with_reducible apply advance_keeps
    | with_reducible apply serveOwn_keeps
    | with_reducible apply collTimeout_keeps
    | with_reducible apply Keeps.ite
    | dsimp only [Keeps]
    | split

end Sys2Proof.Laws
end

