-- ==== Sys2Proof/Laws/KeepsFaults.lean ====
section
/-!
SUPPORT. `Keeps` for the operations of Machine/Faults.lean.
-/
namespace Sys2Proof.Laws

open Sys2Proof Sys2Proof.Machine

theorem admitAll_keeps {s0 s : State} {a0} (h : Keeps s0 s) : Keeps s0 (admitAll a0 s) := by
  induction a0 generalizing s with
  | zero =>
    rw [admitAll]
    repeat' first
      | with_reducible assumption
      | with_reducible apply ih
      | with_reducible apply traceTask_keeps
      | with_reducible apply setTask_keeps
      | with_reducible apply Keeps.ite
      | (lift_lets; intro x; refine Keeps.cut (s := s0) (x := x) ?_ ?_; rotate_left; intro hx; clear_value x; rotate_left; subst x)
      | (lift_lets; intro (x : Memory); subst x)
      | (lift_lets; intro (x : Flash); subst x)
      | (lift_lets; intro (x : State → State × Nat × Nat); subst x)
      | (lift_lets; intro (x : State → State); subst x)
      | (lift_lets; intro (x : State → State × Result); subst x)
      | (lift_lets; intro x; clear_value x)
      | dsimp only [Keeps]
      | split
  | succ n ih =>
    rw [admitAll]
    repeat' first
      | with_reducible assumption
      | with_reducible apply ih
      | with_reducible apply traceTask_keeps
      | with_reducible apply setTask_keeps
      | with_reducible apply Keeps.ite
      | (lift_lets; intro x; refine Keeps.cut (s := s0) (x := x) ?_ ?_; rotate_left; intro hx; clear_value x; rotate_left; subst x)
      | (lift_lets; intro (x : Memory); subst x)
      | (lift_lets; intro (x : Flash); subst x)
      | (lift_lets; intro (x : State → State × Nat × Nat); subst x)
      | (lift_lets; intro (x : State → State); subst x)
      | (lift_lets; intro (x : State → State × Result); subst x)
      | (lift_lets; intro x; clear_value x)
      | dsimp only [Keeps]
      | split

theorem execTaskAdmit_keeps {s0 s : State} (h : Keeps s0 s) {t} (e : execTaskAdmit s = .next t) : Keeps s0 t := by
  unfold execTaskAdmit at e
  first
    | (replace e := Host.Outcome.next.inj e; subst e)
    | cases e
  repeat' first
    | with_reducible assumption
    | with_reducible apply advance_keeps
    | with_reducible apply admitAll_keeps
    | with_reducible apply Keeps.ite
    | dsimp only [Keeps]
    | split

theorem ageTask_keeps {s0 s : State} {a0 a1} (h : Keeps s0 s) : Keeps s0 (ageTask a0 a1 s) := by
  unfold ageTask
  repeat' first
    | with_reducible assumption
    | with_reducible apply setTask_keeps
    | with_reducible apply Keeps.ite
    | dsimp only [Keeps]
    | split

theorem execAgeingTick_keeps {s0 s : State} {a0 a1} (h : Keeps s0 s) {t} (e : execAgeingTick a0 a1 s = .next t) : Keeps s0 t := by
  unfold execAgeingTick at e
  first
    | (replace e := Host.Outcome.next.inj e; subst e)
    | cases e
  repeat' first
    | with_reducible assumption
    | with_reducible apply ageTask_keeps
    | with_reducible apply Keeps.ite
    | dsimp only [Keeps]
    | split

theorem tryPublish_keeps {s0 s : State} {a0} (h : Keeps s0 s) : Keeps s0 (tryPublish a0 s) := by
  unfold tryPublish
  repeat' first
    | with_reducible assumption
    | with_reducible apply publish_keeps
    | with_reducible apply Keeps.ite
    | dsimp only [Keeps]
    | split

theorem foldTile_keeps {s0 s : State} {a0} (h : Keeps s0 s) : Keeps s0 (foldTile a0 s) := by
  unfold foldTile
  repeat' first
    | with_reducible assumption
    | with_reducible apply journalChunk_keeps
    | with_reducible apply finishChunk_keeps
    | with_reducible apply Keeps.ite
    | dsimp only [Keeps]
    | split

theorem tileComplete_keeps {s0 s : State} {a0 a1 a2} (h : Keeps s0 s) : Keeps s0 (tileComplete a0 a1 a2 s) := by
  unfold tileComplete
  repeat' first
    | with_reducible assumption
    | with_reducible apply foldTile_keeps
    | with_reducible apply tryPublish_keeps
    | with_reducible apply traceTask_keeps
    | with_reducible apply setTask_keeps
    | with_reducible apply Keeps.ite
    | (lift_lets; intro x; refine Keeps.cut (s := s0) (x := x) ?_ ?_; rotate_left; intro hx; clear_value x; rotate_left; subst x)
    | (lift_lets; intro (x : Memory); subst x)
    | (lift_lets; intro (x : Flash); subst x)
    | (lift_lets; intro (x : State → State × Nat × Nat); subst x)
    | (lift_lets; intro (x : State → State); subst x)
    | (lift_lets; intro (x : State → State × Result); subst x)
    | (lift_lets; intro x; clear_value x)
    | dsimp only [Keeps]
    | split

theorem execTileComplete_keeps {s0 s : State} {a0 a1 a2} (h : Keeps s0 s) {t} (e : execTileComplete a0 a1 a2 s = .next t) : Keeps s0 t := by
  unfold execTileComplete at e
  first
    | (replace e := Host.Outcome.next.inj e; subst e)
    | cases e
  repeat' first
    | with_reducible assumption
    | with_reducible apply advance_keeps
    | with_reducible apply tileComplete_keeps
    | with_reducible apply Keeps.ite
    | dsimp only [Keeps]
    | split

theorem deliverTrap_keeps {s0 s : State} (h : Keeps s0 s) : Keeps s0 (deliverTrap s) := by
  unfold deliverTrap
  repeat' first
    | with_reducible assumption
    | with_reducible apply record_keeps
    | with_reducible apply setTask_keeps
    | with_reducible apply sheafTrigger_keeps
    | with_reducible apply raise_keeps
    | intro t h
    | with_reducible apply Keeps.ite
    | (lift_lets; intro x; refine Keeps.cut (s := s0) (x := x) ?_ ?_; rotate_left; intro hx; clear_value x; rotate_left; subst x)
    | (lift_lets; intro (x : Memory); subst x)
    | (lift_lets; intro (x : Flash); subst x)
    | (lift_lets; intro (x : State → State × Nat × Nat); subst x)
    | (lift_lets; intro (x : State → State); subst x)
    | (lift_lets; intro (x : State → State × Result); subst x)
    | (lift_lets; intro x; clear_value x)
    | dsimp only [Keeps]
    | split

theorem execTrapDeliver_keeps {s0 s : State} (h : Keeps s0 s) {t} (e : execTrapDeliver s = .next t) : Keeps s0 t := by
  unfold execTrapDeliver at e
  first
    | (replace e := Host.Outcome.next.inj e; subst e)
    | cases e
  repeat' first
    | with_reducible assumption
    | with_reducible apply deliverTrap_keeps
    | with_reducible apply Keeps.ite
    | dsimp only [Keeps]
    | split

theorem dropContribution_keeps {s0 s : State} {a0 a1} (h : Keeps s0 s) : Keeps s0 (dropContribution a0 a1 s) := by
  unfold dropContribution
  repeat' first
    | with_reducible assumption
    | with_reducible apply tryPublish_keeps
    | with_reducible apply setTask_keeps
    | with_reducible apply Keeps.ite
    | (lift_lets; intro x; refine Keeps.cut (s := s0) (x := x) ?_ ?_; rotate_left; intro hx; clear_value x; rotate_left; subst x)
    | (lift_lets; intro (x : Memory); subst x)
    | (lift_lets; intro (x : Flash); subst x)
    | (lift_lets; intro (x : State → State × Nat × Nat); subst x)
    | (lift_lets; intro (x : State → State); subst x)
    | (lift_lets; intro (x : State → State × Result); subst x)
    | (lift_lets; intro x; clear_value x)
    | dsimp only [Keeps]
    | split

theorem gleanerAddOne_keeps {s0 s : State} {a0 a1 a2 a3 a4} (h : Keeps s0 s) : Keeps s0 (gleanerAddOne a0 a1 a2 a3 a4 s) := by
  unfold gleanerAddOne
  repeat' first
    | with_reducible assumption
    | with_reducible apply record_keeps
    | with_reducible apply count_keeps
    | with_reducible apply dropContribution_keeps
    | with_reducible apply layCells_keeps
    | with_reducible apply touchCells_keeps
    | with_reducible apply countWork_keeps
    | with_reducible apply countNan_keeps
    | with_reducible apply sealBlock_keeps
    | intro t h
    | (with_reducible refine Keeps.foldl ?_ (fun t x h => ?_))
    | (with_reducible refine Keeps.foldlFst ?_ (fun t x h => ?_))
    | (with_reducible refine Keeps.foldlSnd ?_ (fun t x h => ?_))
    | with_reducible apply Keeps.ite
    | (lift_lets; intro x; refine Keeps.cut (s := s0) (x := x) ?_ ?_; rotate_left; intro hx; clear_value x; rotate_left; subst x)
    | (lift_lets; intro (x : Memory); subst x)
    | (lift_lets; intro (x : Flash); subst x)
    | (lift_lets; intro (x : State → State × Nat × Nat); subst x)
    | (lift_lets; intro (x : State → State); subst x)
    | (lift_lets; intro (x : State → State × Result); subst x)
    | (lift_lets; intro x; clear_value x)
    | dsimp only [Keeps]
    | split

theorem execGleanerAdd_keeps {s0 s : State} {a0 a1 a2 a3 a4} (h : Keeps s0 s) {t} (e : execGleanerAdd a0 a1 a2 a3 a4 s = .next t) : Keeps s0 t := by
  unfold execGleanerAdd at e
  first
    | (replace e := Host.Outcome.next.inj e; subst e)
    | cases e
  repeat' first
    | with_reducible assumption
    | with_reducible apply record_keeps
    | with_reducible apply advance_keeps
    | with_reducible apply gleanerAddOne_keeps
    | intro t h
    | with_reducible apply Keeps.ite
    | dsimp only [Keeps]
    | split

theorem gleanerLoss_keeps {s0 s : State} {a0} (h : Keeps s0 s) : Keeps s0 (gleanerLoss a0 s) := by
  unfold gleanerLoss
  repeat' first
    | with_reducible assumption
    | with_reducible apply finding_keeps
    | (with_reducible refine Keeps.foldl ?_ (fun t x h => ?_))
    | (with_reducible refine Keeps.foldlFst ?_ (fun t x h => ?_))
    | (with_reducible refine Keeps.foldlSnd ?_ (fun t x h => ?_))
    | with_reducible apply Keeps.ite
    | (lift_lets; intro x; refine Keeps.cut (s := s0) (x := x) ?_ ?_; rotate_left; intro hx; clear_value x; rotate_left; subst x)
    | (lift_lets; intro (x : Memory); subst x)
    | (lift_lets; intro (x : Flash); subst x)
    | (lift_lets; intro (x : State → State × Nat × Nat); subst x)
    | (lift_lets; intro (x : State → State); subst x)
    | (lift_lets; intro (x : State → State × Result); subst x)
    | (lift_lets; intro x; clear_value x)
    | dsimp only [Keeps]
    | split

theorem gleanerFailure_keeps {s0 s : State} {a0} (h : Keeps s0 s) : Keeps s0 (gleanerFailure a0 s) := by
  unfold gleanerFailure
  repeat' first
    | with_reducible assumption
    | with_reducible apply gleanerLoss_keeps
    | with_reducible apply raise_keeps
    | with_reducible apply Keeps.ite
    | (lift_lets; intro x; refine Keeps.cut (s := s0) (x := x) ?_ ?_; rotate_left; intro hx; clear_value x; rotate_left; subst x)
    | (lift_lets; intro (x : Memory); subst x)
    | (lift_lets; intro (x : Flash); subst x)
    | (lift_lets; intro (x : State → State × Nat × Nat); subst x)
    | (lift_lets; intro (x : State → State); subst x)
    | (lift_lets; intro (x : State → State × Result); subst x)
    | (lift_lets; intro x; clear_value x)
    | dsimp only [Keeps]
    | split

theorem execGleanerFailure_keeps {s0 s : State} {a0} (h : Keeps s0 s) {t} (e : execGleanerFailure a0 s = .next t) : Keeps s0 t := by
  unfold execGleanerFailure at e
  first
    | (replace e := Host.Outcome.next.inj e; subst e)
    | cases e
  repeat' first
    | with_reducible assumption
    | with_reducible apply gleanerFailure_keeps
    | with_reducible apply Keeps.ite
    | dsimp only [Keeps]
    | split

theorem retireCore_keeps {s0 s : State} {a0 a1 a2} (h : Keeps s0 s) : Keeps s0 (retireCore a0 a1 a2 s) := by
  unfold retireCore
  repeat' first
    | with_reducible assumption
    | with_reducible apply raise_keeps
    | with_reducible apply Keeps.ite
    | dsimp only [Keeps]
    | split

theorem failTask_keeps {s0 s : State} {a0} (h : Keeps s0 s) : Keeps s0 (failTask a0 s) := by
  unfold failTask
  repeat' first
    | with_reducible assumption
    | with_reducible apply finding_keeps
    | with_reducible apply traceTask_keeps
    | with_reducible apply setTask_keeps
    | with_reducible apply Keeps.ite
    | dsimp only [Keeps]
    | split

theorem watchdogExpiry_keeps {s0 s : State} {a0 a1 a2 a3} (h : Keeps s0 s) : Keeps s0 (watchdogExpiry a0 a1 a2 a3 s) := by
  unfold watchdogExpiry
  repeat' first
    | with_reducible assumption
    | with_reducible apply retireCore_keeps
    | with_reducible apply setTask_keeps
    | with_reducible apply replayTile_keeps
    | with_reducible apply failTask_keeps
    | with_reducible apply Keeps.ite
    | (lift_lets; intro x; refine Keeps.cut (s := s0) (x := x) ?_ ?_; rotate_left; intro hx; clear_value x; rotate_left; subst x)
    | (lift_lets; intro (x : Memory); subst x)
    | (lift_lets; intro (x : Flash); subst x)
    | (lift_lets; intro (x : State → State × Nat × Nat); subst x)
    | (lift_lets; intro (x : State → State); subst x)
    | (lift_lets; intro (x : State → State × Result); subst x)
    | (lift_lets; intro x; clear_value x)
    | dsimp only [Keeps]
    | split

theorem execWatchdogExpiry_keeps {s0 s : State} {a0 a1 a2 a3} (h : Keeps s0 s) {t} (e : execWatchdogExpiry a0 a1 a2 a3 s = .next t) : Keeps s0 t := by
  unfold execWatchdogExpiry at e
  first
    | (replace e := Host.Outcome.next.inj e; subst e)
    | cases e
  repeat' first
    | with_reducible assumption
    | with_reducible apply advance_keeps
    | with_reducible apply watchdogExpiry_keeps
    | with_reducible apply Keeps.ite
    | dsimp only [Keeps]
    | split

theorem coreSramError_keeps {s0 s : State} {a0 a1} (h : Keeps s0 s) : Keeps s0 (coreSramError a0 a1 s) := by
  unfold coreSramError
  repeat' first
    | with_reducible assumption
    | with_reducible apply retireCore_keeps
    | with_reducible apply replayTile_keeps
    | (with_reducible refine Keeps.foldl ?_ (fun t x h => ?_))
    | (with_reducible refine Keeps.foldlFst ?_ (fun t x h => ?_))
    | (with_reducible refine Keeps.foldlSnd ?_ (fun t x h => ?_))
    | with_reducible apply Keeps.ite
    | (lift_lets; intro x; refine Keeps.cut (s := s0) (x := x) ?_ ?_; rotate_left; intro hx; clear_value x; rotate_left; subst x)
    | (lift_lets; intro (x : Memory); subst x)
    | (lift_lets; intro (x : Flash); subst x)
    | (lift_lets; intro (x : State → State × Nat × Nat); subst x)
    | (lift_lets; intro (x : State → State); subst x)
    | (lift_lets; intro (x : State → State × Result); subst x)
    | (lift_lets; intro x; clear_value x)
    | dsimp only [Keeps]
    | split

theorem execCoreSramError_keeps {s0 s : State} {a0 a1} (h : Keeps s0 s) {t} (e : execCoreSramError a0 a1 s = .next t) : Keeps s0 t := by
  unfold execCoreSramError at e
  first
    | (replace e := Host.Outcome.next.inj e; subst e)
    | cases e
  repeat' first
    | with_reducible assumption
    | with_reducible apply coreSramError_keeps
    | with_reducible apply Keeps.ite
    | dsimp only [Keeps]
    | split

theorem selfTestDone_keeps {s0 s : State} {a0 a1} (h : Keeps s0 s) : Keeps s0 (selfTestDone a0 a1 s) := by
  unfold selfTestDone
  repeat' first
    | with_reducible assumption
    | with_reducible apply retireCore_keeps
    | with_reducible apply Keeps.ite
    | dsimp only [Keeps]
    | split

theorem execSelfTestDone_keeps {s0 s : State} {a0 a1} (h : Keeps s0 s) {t} (e : execSelfTestDone a0 a1 s = .next t) : Keeps s0 t := by
  unfold execSelfTestDone at e
  first
    | (replace e := Host.Outcome.next.inj e; subst e)
    | cases e
  repeat' first
    | with_reducible assumption
    | with_reducible apply selfTestDone_keeps
    | with_reducible apply Keeps.ite
    | dsimp only [Keeps]
    | split

theorem harrowFault_keeps {s0 s : State} {a0 a1} (h : Keeps s0 s) : Keeps s0 (harrowFault a0 a1 s) := by
  unfold harrowFault
  repeat' first
    | with_reducible assumption
    | with_reducible apply record_keeps
    | with_reducible apply raise_keeps
    | with_reducible apply replayTile_keeps
    | intro t h
    | (with_reducible refine Keeps.foldl ?_ (fun t x h => ?_))
    | (with_reducible refine Keeps.foldlFst ?_ (fun t x h => ?_))
    | (with_reducible refine Keeps.foldlSnd ?_ (fun t x h => ?_))
    | with_reducible apply Keeps.ite
    | (lift_lets; intro x; refine Keeps.cut (s := s0) (x := x) ?_ ?_; rotate_left; intro hx; clear_value x; rotate_left; subst x)
    | (lift_lets; intro (x : Memory); subst x)
    | (lift_lets; intro (x : Flash); subst x)
    | (lift_lets; intro (x : State → State × Nat × Nat); subst x)
    | (lift_lets; intro (x : State → State); subst x)
    | (lift_lets; intro (x : State → State × Result); subst x)
    | (lift_lets; intro x; clear_value x)
    | dsimp only [Keeps]
    | split

theorem execHarrowFault_keeps {s0 s : State} {a0 a1} (h : Keeps s0 s) {t} (e : execHarrowFault a0 a1 s = .next t) : Keeps s0 t := by
  unfold execHarrowFault at e
  first
    | (replace e := Host.Outcome.next.inj e; subst e)
    | cases e
  repeat' first
    | with_reducible assumption
    | with_reducible apply advance_keeps
    | with_reducible apply harrowFault_keeps
    | with_reducible apply Keeps.ite
    | dsimp only [Keeps]
    | split

theorem noteDamage_keeps {s0 s : State} {a0} (h : Keeps s0 s) : Keeps s0 (noteDamage a0 s) := by
  unfold noteDamage
  repeat' first
    | with_reducible assumption
    | with_reducible apply needRestoration_keeps
    | (with_reducible refine Keeps.foldl ?_ (fun t x h => ?_))
    | (with_reducible refine Keeps.foldlFst ?_ (fun t x h => ?_))
    | (with_reducible refine Keeps.foldlSnd ?_ (fun t x h => ?_))
    | with_reducible apply Keeps.ite
    | dsimp only [Keeps]
    | split

theorem poisonedRead_keeps {s0 s : State} {a0 a1 a2 a3} (h : Keeps s0 s) : Keeps s0 (poisonedRead a0 a1 a2 a3 s) := by
  unfold poisonedRead
  repeat' first
    | with_reducible assumption
    | with_reducible apply count_keeps
    | with_reducible apply writePoison_keeps
    | with_reducible apply replayTile_keeps
    | with_reducible apply noteDamage_keeps
    | with_reducible apply holdRun_keeps
    | with_reducible apply failTask_keeps
    | (with_reducible refine Keeps.foldl ?_ (fun t x h => ?_))
    | (with_reducible refine Keeps.foldlFst ?_ (fun t x h => ?_))
    | (with_reducible refine Keeps.foldlSnd ?_ (fun t x h => ?_))
    | with_reducible apply Keeps.ite
    | (lift_lets; intro x; refine Keeps.cut (s := s0) (x := x) ?_ ?_; rotate_left; intro hx; clear_value x; rotate_left; subst x)
    | (lift_lets; intro (x : Memory); subst x)
    | (lift_lets; intro (x : Flash); subst x)
    | (lift_lets; intro (x : State → State × Nat × Nat); subst x)
    | (lift_lets; intro (x : State → State); subst x)
    | (lift_lets; intro (x : State → State × Result); subst x)
    | (lift_lets; intro x; clear_value x)
    | dsimp only [Keeps]
    | split

theorem execPoisonedRead_keeps {s0 s : State} {a0 a1 a2 a3} (h : Keeps s0 s) {t} (e : execPoisonedRead a0 a1 a2 a3 s = .next t) : Keeps s0 t := by
  unfold execPoisonedRead at e
  first
    | (replace e := Host.Outcome.next.inj e; subst e)
    | cases e
  repeat' first
    | with_reducible assumption
    | with_reducible apply advance_keeps
    | with_reducible apply poisonedRead_keeps
    | with_reducible apply Keeps.ite
    | dsimp only [Keeps]
    | split

theorem coreHalt_keeps {s0 s : State} {a0} (h : Keeps s0 s) : Keeps s0 (coreHalt a0 s) := by
  unfold coreHalt
  repeat' first
    | with_reducible assumption
    | with_reducible apply Keeps.ite
    | dsimp only [Keeps]
    | split

theorem execCoreHalt_keeps {s0 s : State} {a0} (h : Keeps s0 s) {t} (e : execCoreHalt a0 s = .next t) : Keeps s0 t := by
  unfold execCoreHalt at e
  first
    | (replace e := Host.Outcome.next.inj e; subst e)
    | cases e
  repeat' first
    | with_reducible assumption
    | with_reducible apply coreHalt_keeps
    | with_reducible apply Keeps.ite
    | dsimp only [Keeps]
    | split

theorem coreResume_keeps {s0 s : State} {a0} (h : Keeps s0 s) : Keeps s0 (coreResume a0 s) := by
  unfold coreResume
  repeat' first
    | with_reducible assumption
    | with_reducible apply Keeps.ite
    | dsimp only [Keeps]
    | split

theorem execCoreResume_keeps {s0 s : State} {a0} (h : Keeps s0 s) {t} (e : execCoreResume a0 s = .next t) : Keeps s0 t := by
  unfold execCoreResume at e
  first
    | (replace e := Host.Outcome.next.inj e; subst e)
    | cases e
  repeat' first
    | with_reducible assumption
    | with_reducible apply coreResume_keeps
    | with_reducible apply Keeps.ite
    | dsimp only [Keeps]
    | split

end Sys2Proof.Laws
end

