-- ==== Sys2Proof/Laws/KeepsTaskRows.lean ====
section
/-!
SUPPORT. `Keeps` for the operations of Machine/TaskRows.lean.
-/
namespace Sys2Proof.Laws

open Sys2Proof Sys2Proof.Machine

theorem startKind_keeps {s0 s : State} {a0 a1 a2} (h : Keeps s0 s) : Keeps s0 (startKind a0 a1 a2 s) := by
  unfold startKind
  repeat' first
    | with_reducible assumption
    | with_reducible apply failRun_keeps
    | with_reducible apply startRun_keeps
    | with_reducible apply Keeps.ite
    | (lift_lets; intro x; refine Keeps.cut (s := s0) (x := x) ?_ ?_; rotate_left; intro hx; clear_value x; rotate_left; subst x)
    | (lift_lets; intro (x : Memory); subst x)
    | (lift_lets; intro (x : Flash); subst x)
    | (lift_lets; intro (x : State → State × Nat × Nat); subst x)
    | (lift_lets; intro (x : State → State); subst x)
    | (lift_lets; intro (x : State → State × Result); subst x)
    | (lift_lets; intro x; clear_value x)
    | dsimp only [Keeps]
    | split

theorem bindVector_keeps {s0 s : State} {a0 a1 a2 a3 a4} (h : Keeps s0 s) : Keeps s0 (bindVector a0 a1 a2 a3 a4 s) := by
  unfold bindVector
  repeat' first
    | with_reducible assumption
    | with_reducible apply Keeps.ite
    | (lift_lets; intro x; refine Keeps.cut (s := s0) (x := x) ?_ ?_; rotate_left; intro hx; clear_value x; rotate_left; subst x)
    | (lift_lets; intro (x : Memory); subst x)
    | (lift_lets; intro (x : Flash); subst x)
    | (lift_lets; intro (x : State → State × Nat × Nat); subst x)
    | (lift_lets; intro (x : State → State); subst x)
    | (lift_lets; intro (x : State → State × Result); subst x)
    | (lift_lets; intro x; clear_value x)
    | dsimp only [Keeps]
    | split

theorem startProgram_keeps {s0 s : State} {a0 a1 a2} (h : Keeps s0 s) : Keeps s0 (startProgram a0 a1 a2 s) := by
  unfold startProgram
  repeat' first
    | with_reducible assumption
    | with_reducible apply bindVector_keeps
    | with_reducible apply failRun_keeps
    | with_reducible apply startRun_keeps
    | with_reducible apply Keeps.ite
    | (lift_lets; intro x; refine Keeps.cut (s := s0) (x := x) ?_ ?_; rotate_left; intro hx; clear_value x; rotate_left; subst x)
    | (lift_lets; intro (x : Memory); subst x)
    | (lift_lets; intro (x : Flash); subst x)
    | (lift_lets; intro (x : State → State × Nat × Nat); subst x)
    | (lift_lets; intro (x : State → State); subst x)
    | (lift_lets; intro (x : State → State × Result); subst x)
    | (lift_lets; intro x; clear_value x)
    | dsimp only [Keeps]
    | split

theorem execMatmul_keeps {s0 s : State} {a0} (h : Keeps s0 s) {t} (e : execMatmul a0 s = .next t) : Keeps s0 t := by
  unfold execMatmul at e
  first
    | (replace e := Host.Outcome.next.inj e; subst e)
    | cases e
  repeat' first
    | with_reducible assumption
    | with_reducible apply advance_keeps
    | with_reducible apply startProgram_keeps
    | with_reducible apply Keeps.ite
    | dsimp only [Keeps]
    | split

theorem statKind_keeps {s0 s : State} {a0 a1 a2} (h : Keeps s0 s) : Keeps s0 (statKind a0 a1 a2 s) := by
  unfold statKind
  repeat' first
    | with_reducible assumption
    | with_reducible apply completeAtOnce_keeps
    | with_reducible apply startRun_keeps
    | with_reducible apply Keeps.ite
    | dsimp only [Keeps]
    | split

theorem execMatmulStat_keeps {s0 s : State} {a0} (h : Keeps s0 s) {t} (e : execMatmulStat a0 s = .next t) : Keeps s0 t := by
  unfold execMatmulStat at e
  first
    | (replace e := Host.Outcome.next.inj e; subst e)
    | cases e
  repeat' first
    | with_reducible assumption
    | with_reducible apply advance_keeps
    | with_reducible apply statKind_keeps
    | with_reducible apply Keeps.ite
    | dsimp only [Keeps]
    | split

theorem execAttentionFwd_keeps {s0 s : State} {a0} (h : Keeps s0 s) {t} (e : execAttentionFwd a0 s = .next t) : Keeps s0 t := by
  unfold execAttentionFwd at e
  first
    | (replace e := Host.Outcome.next.inj e; subst e)
    | cases e
  repeat' first
    | with_reducible assumption
    | with_reducible apply advance_keeps
    | with_reducible apply startKind_keeps
    | with_reducible apply Keeps.ite
    | dsimp only [Keeps]
    | split

theorem execAttentionBwd_keeps {s0 s : State} {a0} (h : Keeps s0 s) {t} (e : execAttentionBwd a0 s = .next t) : Keeps s0 t := by
  unfold execAttentionBwd at e
  first
    | (replace e := Host.Outcome.next.inj e; subst e)
    | cases e
  repeat' first
    | with_reducible assumption
    | with_reducible apply advance_keeps
    | with_reducible apply startKind_keeps
    | with_reducible apply Keeps.ite
    | dsimp only [Keeps]
    | split

theorem execVectorProgram_keeps {s0 s : State} {a0} (h : Keeps s0 s) {t} (e : execVectorProgram a0 s = .next t) : Keeps s0 t := by
  unfold execVectorProgram at e
  first
    | (replace e := Host.Outcome.next.inj e; subst e)
    | cases e
  repeat' first
    | with_reducible assumption
    | with_reducible apply advance_keeps
    | with_reducible apply startProgram_keeps
    | with_reducible apply Keeps.ite
    | dsimp only [Keeps]
    | split

theorem execNorm_keeps {s0 s : State} {a0} (h : Keeps s0 s) {t} (e : execNorm a0 s = .next t) : Keeps s0 t := by
  unfold execNorm at e
  first
    | (replace e := Host.Outcome.next.inj e; subst e)
    | cases e
  repeat' first
    | with_reducible assumption
    | with_reducible apply advance_keeps
    | with_reducible apply startKind_keeps
    | with_reducible apply Keeps.ite
    | dsimp only [Keeps]
    | split

theorem execSoftmax_keeps {s0 s : State} {a0} (h : Keeps s0 s) {t} (e : execSoftmax a0 s = .next t) : Keeps s0 t := by
  unfold execSoftmax at e
  first
    | (replace e := Host.Outcome.next.inj e; subst e)
    | cases e
  repeat' first
    | with_reducible assumption
    | with_reducible apply advance_keeps
    | with_reducible apply startKind_keeps
    | with_reducible apply Keeps.ite
    | dsimp only [Keeps]
    | split

theorem execLoss_keeps {s0 s : State} {a0} (h : Keeps s0 s) {t} (e : execLoss a0 s = .next t) : Keeps s0 t := by
  unfold execLoss at e
  first
    | (replace e := Host.Outcome.next.inj e; subst e)
    | cases e
  repeat' first
    | with_reducible assumption
    | with_reducible apply advance_keeps
    | with_reducible apply startKind_keeps
    | with_reducible apply Keeps.ite
    | dsimp only [Keeps]
    | split

theorem execGather_keeps {s0 s : State} {a0} (h : Keeps s0 s) {t} (e : execGather a0 s = .next t) : Keeps s0 t := by
  unfold execGather at e
  first
    | (replace e := Host.Outcome.next.inj e; subst e)
    | cases e
  repeat' first
    | with_reducible assumption
    | with_reducible apply advance_keeps
    | with_reducible apply startKind_keeps
    | with_reducible apply Keeps.ite
    | dsimp only [Keeps]
    | split

theorem execScatter_keeps {s0 s : State} {a0} (h : Keeps s0 s) {t} (e : execScatter a0 s = .next t) : Keeps s0 t := by
  unfold execScatter at e
  first
    | (replace e := Host.Outcome.next.inj e; subst e)
    | cases e
  repeat' first
    | with_reducible assumption
    | with_reducible apply advance_keeps
    | with_reducible apply startKind_keeps
    | with_reducible apply Keeps.ite
    | dsimp only [Keeps]
    | split

theorem execPreconditionApply_keeps {s0 s : State} {a0} (h : Keeps s0 s) {t} (e : execPreconditionApply a0 s = .next t) : Keeps s0 t := by
  unfold execPreconditionApply at e
  first
    | (replace e := Host.Outcome.next.inj e; subst e)
    | cases e
  repeat' first
    | with_reducible assumption
    | with_reducible apply advance_keeps
    | with_reducible apply startKind_keeps
    | with_reducible apply Keeps.ite
    | dsimp only [Keeps]
    | split

theorem startUpdate_keeps {s0 s : State} {a0} (h : Keeps s0 s) : Keeps s0 (startUpdate a0 s) := by
  unfold startUpdate
  repeat' first
    | with_reducible assumption
    | with_reducible apply startRun_keeps
    | (with_reducible refine stageFrames_keeps ?_ (by with_reducible assumption))
    | (with_reducible refine freshFrames_keeps ?_ (by with_reducible assumption))
    | with_reducible apply setFallow_keeps
    | with_reducible apply Keeps.ite
    | (lift_lets; intro x; refine Keeps.cut (s := s0) (x := x) ?_ ?_; rotate_left; intro hx; clear_value x; rotate_left; subst x)
    | (lift_lets; intro (x : Memory); subst x)
    | (lift_lets; intro (x : Flash); subst x)
    | (lift_lets; intro (x : State → State × Nat × Nat); subst x)
    | (lift_lets; intro (x : State → State); subst x)
    | (lift_lets; intro (x : State → State × Result); subst x)
    | (lift_lets; intro x; clear_value x)
    | dsimp only [Keeps]
    | split

theorem execUpdate_keeps {s0 s : State} {a0} (h : Keeps s0 s) {t} (e : execUpdate a0 s = .next t) : Keeps s0 t := by
  unfold execUpdate at e
  first
    | (replace e := Host.Outcome.next.inj e; subst e)
    | cases e
  repeat' first
    | with_reducible assumption
    | with_reducible apply advance_keeps
    | with_reducible apply startUpdate_keeps
    | with_reducible apply Keeps.ite
    | dsimp only [Keeps]
    | split

theorem startFold_keeps {s0 s : State} {a0} (h : Keeps s0 s) : Keeps s0 (startFold a0 s) := by
  unfold startFold
  repeat' first
    | with_reducible assumption
    | with_reducible apply startRun_keeps
    | with_reducible apply finishChunk_keeps
    | with_reducible apply journalChunk_keeps
    | with_reducible apply Keeps.ite
    | (lift_lets; intro x; refine Keeps.cut (s := s0) (x := x) ?_ ?_; rotate_left; intro hx; clear_value x; rotate_left; subst x)
    | (lift_lets; intro (x : Memory); subst x)
    | (lift_lets; intro (x : Flash); subst x)
    | (lift_lets; intro (x : State → State × Nat × Nat); subst x)
    | (lift_lets; intro (x : State → State); subst x)
    | (lift_lets; intro (x : State → State × Result); subst x)
    | (lift_lets; intro x; clear_value x)
    | dsimp only [Keeps]
    | split

theorem execFold_keeps {s0 s : State} {a0} (h : Keeps s0 s) {t} (e : execFold a0 s = .next t) : Keeps s0 t := by
  unfold execFold at e
  first
    | (replace e := Host.Outcome.next.inj e; subst e)
    | cases e
  repeat' first
    | with_reducible assumption
    | with_reducible apply advance_keeps
    | with_reducible apply completeAtOnce_keeps
    | with_reducible apply startFold_keeps
    | with_reducible apply Keeps.ite
    | dsimp only [Keeps]
    | split

theorem startFingerprint_keeps {s0 s : State} {a0} (h : Keeps s0 s) : Keeps s0 (startFingerprint a0 s) := by
  unfold startFingerprint
  repeat' first
    | with_reducible assumption
    | with_reducible apply formFingerprint_keeps
    | with_reducible apply startRun_keeps
    | with_reducible apply Keeps.ite
    | (lift_lets; intro x; refine Keeps.cut (s := s0) (x := x) ?_ ?_; rotate_left; intro hx; clear_value x; rotate_left; subst x)
    | (lift_lets; intro (x : Memory); subst x)
    | (lift_lets; intro (x : Flash); subst x)
    | (lift_lets; intro (x : State → State × Nat × Nat); subst x)
    | (lift_lets; intro (x : State → State); subst x)
    | (lift_lets; intro (x : State → State × Result); subst x)
    | (lift_lets; intro x; clear_value x)
    | dsimp only [Keeps]
    | split

theorem execFingerprint_keeps {s0 s : State} {a0} (h : Keeps s0 s) {t} (e : execFingerprint a0 s = .next t) : Keeps s0 t := by
  unfold execFingerprint at e
  first
    | (replace e := Host.Outcome.next.inj e; subst e)
    | cases e
  repeat' first
    | with_reducible assumption
    | with_reducible apply advance_keeps
    | with_reducible apply startFingerprint_keeps
    | with_reducible apply Keeps.ite
    | dsimp only [Keeps]
    | split

theorem startExport_keeps {s0 s : State} {a0} (h : Keeps s0 s) : Keeps s0 (startExport a0 s) := by
  unfold startExport
  repeat' first
    | with_reducible assumption
    | with_reducible apply emit_keeps
    | with_reducible apply startRun_keeps
    | with_reducible apply Keeps.ite
    | dsimp only [Keeps]
    | split

theorem execExportRecord_keeps {s0 s : State} {a0} (h : Keeps s0 s) {t} (e : execExportRecord a0 s = .next t) : Keeps s0 t := by
  unfold execExportRecord at e
  first
    | (replace e := Host.Outcome.next.inj e; subst e)
    | cases e
  repeat' first
    | with_reducible assumption
    | with_reducible apply advance_keeps
    | with_reducible apply startExport_keeps
    | with_reducible apply Keeps.ite
    | dsimp only [Keeps]
    | split

theorem readFor_keeps {s0 s : State} {a0 a1 a2 a3} (h : Keeps s0 s) : Keeps s0 (readFor a0 a1 a2 a3 s) := by
  unfold readFor
  repeat' first
    | with_reducible assumption
    | with_reducible apply issue_keeps
    | (with_reducible refine issue_keeps_eq ?_ (by with_reducible assumption))
    | (with_reducible refine Keeps.foldl ?_ (fun t x h => ?_))
    | (with_reducible refine Keeps.foldlFst ?_ (fun t x h => ?_))
    | (with_reducible refine Keeps.foldlSnd ?_ (fun t x h => ?_))
    | with_reducible apply Keeps.ite
    | (lift_lets; intro x; refine Keeps.cut (s := s0) (x := x) ?_ ?_; rotate_left; intro hx; clear_value x; rotate_left; subst x)
    | (lift_lets; intro (x : Memory); subst x)
    | (lift_lets; intro (x : Flash); subst x)
    | (lift_lets; intro (x : State → State × Nat × Nat); subst x)
    | (lift_lets; intro (x : State → State); subst x)
    | (lift_lets; intro (x : State → State × Result); subst x)
    | (lift_lets; intro x; clear_value x)
    | dsimp only [Keeps]
    | split

theorem startMove_keeps {s0 s : State} {a0} (h : Keeps s0 s) : Keeps s0 (startMove a0 s) := by
  unfold startMove
  repeat' first
    | with_reducible assumption
    | with_reducible apply startRun_keeps
    | with_reducible apply readFor_keeps
    | (with_reducible refine Keeps.foldl ?_ (fun t x h => ?_))
    | (with_reducible refine Keeps.foldlFst ?_ (fun t x h => ?_))
    | (with_reducible refine Keeps.foldlSnd ?_ (fun t x h => ?_))
    | with_reducible apply Keeps.ite
    | (lift_lets; intro x; refine Keeps.cut (s := s0) (x := x) ?_ ?_; rotate_left; intro hx; clear_value x; rotate_left; subst x)
    | (lift_lets; intro (x : Memory); subst x)
    | (lift_lets; intro (x : Flash); subst x)
    | (lift_lets; intro (x : State → State × Nat × Nat); subst x)
    | (lift_lets; intro (x : State → State); subst x)
    | (lift_lets; intro (x : State → State × Result); subst x)
    | (lift_lets; intro x; clear_value x)
    | dsimp only [Keeps]
    | split

theorem execMove_keeps {s0 s : State} {a0} (h : Keeps s0 s) {t} (e : execMove a0 s = .next t) : Keeps s0 t := by
  unfold execMove at e
  first
    | (replace e := Host.Outcome.next.inj e; subst e)
    | cases e
  repeat' first
    | with_reducible assumption
    | with_reducible apply advance_keeps
    | with_reducible apply startMove_keeps
    | with_reducible apply Keeps.ite
    | dsimp only [Keeps]
    | split

theorem startCollective_keeps {s0 s : State} {a0 a1} (h : Keeps s0 s) : Keeps s0 (startCollective a0 a1 s) := by
  unfold startCollective
  repeat' first
    | with_reducible assumption
    | with_reducible apply beginColl_keeps
    | with_reducible apply Keeps.ite
    | dsimp only [Keeps]
    | split

theorem execAllReduce_keeps {s0 s : State} {a0} (h : Keeps s0 s) {t} (e : execAllReduce a0 s = .next t) : Keeps s0 t := by
  unfold execAllReduce at e
  first
    | (replace e := Host.Outcome.next.inj e; subst e)
    | cases e
  repeat' first
    | with_reducible assumption
    | with_reducible apply advance_keeps
    | with_reducible apply startCollective_keeps
    | with_reducible apply Keeps.ite
    | dsimp only [Keeps]
    | split

theorem execReduceScatter_keeps {s0 s : State} {a0} (h : Keeps s0 s) {t} (e : execReduceScatter a0 s = .next t) : Keeps s0 t := by
  unfold execReduceScatter at e
  first
    | (replace e := Host.Outcome.next.inj e; subst e)
    | cases e
  repeat' first
    | with_reducible assumption
    | with_reducible apply advance_keeps
    | with_reducible apply startCollective_keeps
    | with_reducible apply Keeps.ite
    | dsimp only [Keeps]
    | split

theorem execAllGather_keeps {s0 s : State} {a0} (h : Keeps s0 s) {t} (e : execAllGather a0 s = .next t) : Keeps s0 t := by
  unfold execAllGather at e
  first
    | (replace e := Host.Outcome.next.inj e; subst e)
    | cases e
  repeat' first
    | with_reducible assumption
    | with_reducible apply advance_keeps
    | with_reducible apply startCollective_keeps
    | with_reducible apply Keeps.ite
    | dsimp only [Keeps]
    | split

theorem execBroadcast_keeps {s0 s : State} {a0} (h : Keeps s0 s) {t} (e : execBroadcast a0 s = .next t) : Keeps s0 t := by
  unfold execBroadcast at e
  first
    | (replace e := Host.Outcome.next.inj e; subst e)
    | cases e
  repeat' first
    | with_reducible assumption
    | with_reducible apply advance_keeps
    | with_reducible apply startCollective_keeps
    | with_reducible apply Keeps.ite
    | dsimp only [Keeps]
    | split

theorem execAllToAll_keeps {s0 s : State} {a0} (h : Keeps s0 s) {t} (e : execAllToAll a0 s = .next t) : Keeps s0 t := by
  unfold execAllToAll at e
  first
    | (replace e := Host.Outcome.next.inj e; subst e)
    | cases e
  repeat' first
    | with_reducible assumption
    | with_reducible apply advance_keeps
    | with_reducible apply startCollective_keeps
    | with_reducible apply Keeps.ite
    | dsimp only [Keeps]
    | split

theorem execBarrier_keeps {s0 s : State} {a0} (h : Keeps s0 s) {t} (e : execBarrier a0 s = .next t) : Keeps s0 t := by
  unfold execBarrier at e
  first
    | (replace e := Host.Outcome.next.inj e; subst e)
    | cases e
  repeat' first
    | with_reducible assumption
    | with_reducible apply advance_keeps
    | with_reducible apply startCollective_keeps
    | with_reducible apply Keeps.ite
    | dsimp only [Keeps]
    | split

theorem execCollectiveVote_keeps {s0 s : State} {a0} (h : Keeps s0 s) {t} (e : execCollectiveVote a0 s = .next t) : Keeps s0 t := by
  unfold execCollectiveVote at e
  first
    | (replace e := Host.Outcome.next.inj e; subst e)
    | cases e
  repeat' first
    | with_reducible assumption
    | with_reducible apply advance_keeps
    | with_reducible apply startCollective_keeps
    | with_reducible apply Keeps.ite
    | dsimp only [Keeps]
    | split

theorem execCollectiveNorm_keeps {s0 s : State} {a0} (h : Keeps s0 s) {t} (e : execCollectiveNorm a0 s = .next t) : Keeps s0 t := by
  unfold execCollectiveNorm at e
  first
    | (replace e := Host.Outcome.next.inj e; subst e)
    | cases e
  repeat' first
    | with_reducible assumption
    | with_reducible apply advance_keeps
    | with_reducible apply startCollective_keeps
    | with_reducible apply Keeps.ite
    | dsimp only [Keeps]
    | split

theorem startEvalReduce_keeps {s0 s : State} {a0} (h : Keeps s0 s) : Keeps s0 (startEvalReduce a0 s) := by
  unfold startEvalReduce
  repeat' first
    | with_reducible assumption
    | with_reducible apply beginColl_keeps
    | with_reducible apply Keeps.ite
    | dsimp only [Keeps]
    | split

theorem execEvalReduce_keeps {s0 s : State} {a0} (h : Keeps s0 s) {t} (e : execEvalReduce a0 s = .next t) : Keeps s0 t := by
  unfold execEvalReduce at e
  first
    | (replace e := Host.Outcome.next.inj e; subst e)
    | cases e
  repeat' first
    | with_reducible assumption
    | with_reducible apply advance_keeps
    | with_reducible apply startEvalReduce_keeps
    | with_reducible apply Keeps.ite
    | dsimp only [Keeps]
    | split

end Sys2Proof.Laws
end

