-- ==== Sys2Proof/Laws/KeepsSolveRows.lean ====
section
/-!
SUPPORT. `Keeps` for the operations of Machine/SolveRows.lean.
-/
namespace Sys2Proof.Laws

open Sys2Proof Sys2Proof.Machine

theorem setBlock_keeps {s0 s : State} {a0 a1} (h : Keeps s0 s) : Keeps s0 (setBlock a0 a1 s) := by
  unfold setBlock
  repeat' first
    | with_reducible assumption
    | with_reducible apply Keeps.ite
    | dsimp only [Keeps]
    | split

theorem traceSolve_keeps {s0 s : State} {a0 a1} (h : Keeps s0 s) : Keeps s0 (traceSolve a0 a1 s) := by
  unfold traceSolve
  repeat' first
    | with_reducible assumption
    | with_reducible apply trace_keeps
    | with_reducible apply Keeps.ite
    | dsimp only [Keeps]
    | split

theorem countHarrow_keeps {s0 s : State} {a0 a1 a2} (h : Keeps s0 s) : Keeps s0 (countHarrow a0 a1 a2 s) := by
  unfold countHarrow
  repeat' first
    | with_reducible assumption
    | with_reducible apply countWork_keeps
    | with_reducible apply Keeps.ite
    | (lift_lets; intro x; refine Keeps.cut (s := s0) (x := x) ?_ ?_; rotate_left; intro hx; clear_value x; rotate_left; subst x)
    | (lift_lets; intro (x : Memory); subst x)
    | (lift_lets; intro (x : Flash); subst x)
    | (lift_lets; intro (x : State → State × Nat × Nat); subst x)
    | (lift_lets; intro (x : State → State); subst x)
    | (lift_lets; intro (x : State → State × Result); subst x)
    | (lift_lets; intro x; clear_value x)
    | dsimp only [Keeps]
    | split

theorem countSolveNans_keeps {s0 s : State} {a0 a1} (h : Keeps s0 s) : Keeps s0 (countSolveNans a0 a1 s) := by
  unfold countSolveNans
  repeat' first
    | with_reducible assumption
    | with_reducible apply countNan_keeps
    | (with_reducible refine Keeps.foldl ?_ (fun t x h => ?_))
    | (with_reducible refine Keeps.foldlFst ?_ (fun t x h => ?_))
    | (with_reducible refine Keeps.foldlSnd ?_ (fun t x h => ?_))
    | with_reducible apply Keeps.ite
    | (lift_lets; intro x; refine Keeps.cut (s := s0) (x := x) ?_ ?_; rotate_left; intro hx; clear_value x; rotate_left; subst x)
    | (lift_lets; intro (x : Memory); subst x)
    | (lift_lets; intro (x : Flash); subst x)
    | (lift_lets; intro (x : State → State × Nat × Nat); subst x)
    | (lift_lets; intro (x : State → State); subst x)
    | (lift_lets; intro (x : State → State × Result); subst x)
    | (lift_lets; intro x; clear_value x)
    | dsimp only [Keeps]
    | split

theorem writeArea_keeps {s0 s : State} {a0 a1} (h : Keeps s0 s) : Keeps s0 (writeArea a0 a1 s) := by
  unfold writeArea
  repeat' first
    | with_reducible assumption
    | with_reducible apply writeCells_keeps
    | with_reducible apply Keeps.ite
    | (lift_lets; intro x; refine Keeps.cut (s := s0) (x := x) ?_ ?_; rotate_left; intro hx; clear_value x; rotate_left; subst x)
    | (lift_lets; intro (x : Memory); subst x)
    | (lift_lets; intro (x : Flash); subst x)
    | (lift_lets; intro (x : State → State × Nat × Nat); subst x)
    | (lift_lets; intro (x : State → State); subst x)
    | (lift_lets; intro (x : State → State × Result); subst x)
    | (lift_lets; intro x; clear_value x)
    | dsimp only [Keeps]
    | split

theorem applyBound_keeps {s0 s : State} {a0 a1 a2 a3 a4} (h : Keeps s0 s) : Keeps s0 (applyBound a0 a1 a2 a3 a4 s) := by
  unfold applyBound
  repeat' first
    | with_reducible assumption
    | with_reducible apply record_keeps
    | with_reducible apply writeArea_keeps
    | with_reducible apply countHarrow_keeps
    | with_reducible apply setBlock_keeps
    | with_reducible apply traceSolve_keeps
    | with_reducible apply countSolveNans_keeps
    | intro t h
    | (with_reducible refine Keeps.foldl ?_ (fun t x h => ?_))
    | (with_reducible refine Keeps.foldlFst ?_ (fun t x h => ?_))
    | (with_reducible refine Keeps.foldlSnd ?_ (fun t x h => ?_))
    | with_reducible apply Keeps.ite
    | (lift_lets; intro x; refine Keeps.cut (s := s0) (x := x) ?_ ?_; rotate_left; intro hx; clear_value x; rotate_left; subst x)
    | (lift_lets; intro (x : Memory); subst x)
    | (lift_lets; intro (x : Flash); subst x)
    | (lift_lets; intro (x : State → State × Nat × Nat); subst x)
    | (lift_lets; intro (x : State → State); subst x)
    | (lift_lets; intro (x : State → State × Result); subst x)
    | (lift_lets; intro x; clear_value x)
    | dsimp only [Keeps]
    | split

theorem issueSolve_keeps {s0 s : State} {a0 a1 a2} (h : Keeps s0 s) : Keeps s0 (issueSolve a0 a1 a2 s) := by
  unfold issueSolve
  repeat' first
    | with_reducible assumption
    | with_reducible apply record_keeps
    | with_reducible apply writeArea_keeps
    | with_reducible apply setBlock_keeps
    | with_reducible apply countSolveNans_keeps
    | with_reducible apply raise_keeps
    | intro t h
    | with_reducible apply Keeps.ite
    | (lift_lets; intro x; refine Keeps.cut (s := s0) (x := x) ?_ ?_; rotate_left; intro hx; clear_value x; rotate_left; subst x)
    | (lift_lets; intro (x : Memory); subst x)
    | (lift_lets; intro (x : Flash); subst x)
    | (lift_lets; intro (x : State → State × Nat × Nat); subst x)
    | (lift_lets; intro (x : State → State); subst x)
    | (lift_lets; intro (x : State → State × Result); subst x)
    | (lift_lets; intro x; clear_value x)
    | dsimp only [Keeps]
    | split

theorem foldBlockSolve_keeps {s0 s : State} {a0 a1 a2 a3 a4} (h : Keeps s0 s) : Keeps s0 (foldBlockSolve a0 a1 a2 a3 s a4) := by
  unfold foldBlockSolve
  repeat' first
    | with_reducible assumption
    | with_reducible apply record_keeps
    | with_reducible apply setBlock_keeps
    | with_reducible apply issueSolve_keeps
    | intro t h
    | with_reducible apply Keeps.ite
    | (lift_lets; intro x; refine Keeps.cut (s := s0) (x := x) ?_ ?_; rotate_left; intro hx; clear_value x; rotate_left; subst x)
    | (lift_lets; intro (x : Memory); subst x)
    | (lift_lets; intro (x : Flash); subst x)
    | (lift_lets; intro (x : State → State × Nat × Nat); subst x)
    | (lift_lets; intro (x : State → State); subst x)
    | (lift_lets; intro (x : State → State × Result); subst x)
    | (lift_lets; intro x; clear_value x)
    | dsimp only [Keeps]
    | split

theorem startSolve_keeps {s0 s : State} {a0} (h : Keeps s0 s) : Keeps s0 (startSolve a0 s) := by
  unfold startSolve
  repeat' first
    | with_reducible assumption
    | with_reducible apply startRun_keeps
    | with_reducible apply foldBlockSolve_keeps
    | with_reducible apply endSolves_keeps
    | (with_reducible refine Keeps.foldl ?_ (fun t x h => ?_))
    | (with_reducible refine Keeps.foldlFst ?_ (fun t x h => ?_))
    | (with_reducible refine Keeps.foldlSnd ?_ (fun t x h => ?_))
    | with_reducible apply Keeps.ite
    | (lift_lets; intro x; refine Keeps.cut (s := s0) (x := x) ?_ ?_; rotate_left; intro hx; clear_value x; rotate_left; subst x)
    | (lift_lets; intro (x : Memory); subst x)
    | (lift_lets; intro (x : Flash); subst x)
    | (lift_lets; intro (x : State → State × Nat × Nat); subst x)
    | (lift_lets; intro (x : State → State); subst x)
    | (lift_lets; intro (x : State → State × Result); subst x)
    | (lift_lets; intro x; clear_value x)
    | dsimp only [Keeps]
    | split

theorem execSolve_keeps {s0 s : State} {a0} (h : Keeps s0 s) {t} (e : execSolve a0 s = .next t) : Keeps s0 t := by
  unfold execSolve at e
  first
    | (replace e := Host.Outcome.next.inj e; subst e)
    | cases e
  repeat' first
    | with_reducible assumption
    | with_reducible apply advance_keeps
    | with_reducible apply startSolve_keeps
    | with_reducible apply Keeps.ite
    | dsimp only [Keeps]
    | split

theorem beginSolve_keeps {s0 s : State} {a0 a1} (h : Keeps s0 s) : Keeps s0 (beginSolve a0 a1 s) := by
  unfold beginSolve
  repeat' first
    | with_reducible assumption
    | with_reducible apply endSolves_keeps
    | with_reducible apply applyBound_keeps
    | with_reducible apply Keeps.ite
    | (lift_lets; intro x; refine Keeps.cut (s := s0) (x := x) ?_ ?_; rotate_left; intro hx; clear_value x; rotate_left; subst x)
    | (lift_lets; intro (x : Memory); subst x)
    | (lift_lets; intro (x : Flash); subst x)
    | (lift_lets; intro (x : State → State × Nat × Nat); subst x)
    | (lift_lets; intro (x : State → State); subst x)
    | (lift_lets; intro (x : State → State × Result); subst x)
    | (lift_lets; intro x; clear_value x)
    | dsimp only [Keeps]
    | split

theorem assignHarrows_keeps {s0 s : State} {a0 a1} (h : Keeps s0 s) : Keeps s0 (assignHarrows a0 a1 s) := by
  unfold assignHarrows
  repeat' first
    | with_reducible assumption
    | with_reducible apply beginSolve_keeps
    | with_reducible apply setBlock_keeps
    | with_reducible apply record_keeps
    | intro t h
    | (with_reducible refine Keeps.foldl ?_ (fun t x h => ?_))
    | (with_reducible refine Keeps.foldlFst ?_ (fun t x h => ?_))
    | (with_reducible refine Keeps.foldlSnd ?_ (fun t x h => ?_))
    | with_reducible apply Keeps.ite
    | (lift_lets; intro x; refine Keeps.cut (s := s0) (x := x) ?_ ?_; rotate_left; intro hx; clear_value x; rotate_left; subst x)
    | (lift_lets; intro (x : Memory); subst x)
    | (lift_lets; intro (x : Flash); subst x)
    | (lift_lets; intro (x : State → State × Nat × Nat); subst x)
    | (lift_lets; intro (x : State → State); subst x)
    | (lift_lets; intro (x : State → State × Result); subst x)
    | (lift_lets; intro x; clear_value x)
    | dsimp only [Keeps]
    | split

theorem execSolveHarrowAssign_keeps {s0 s : State} {a0 a1} (h : Keeps s0 s) {t} (e : execSolveHarrowAssign a0 a1 s = .next t) : Keeps s0 t := by
  unfold execSolveHarrowAssign at e
  first
    | (replace e := Host.Outcome.next.inj e; subst e)
    | cases e
  repeat' first
    | with_reducible assumption
    | with_reducible apply assignHarrows_keeps
    | with_reducible apply Keeps.ite
    | dsimp only [Keeps]
    | split

theorem passBoundary_keeps {s0 s : State} {a0} (h : Keeps s0 s) : Keeps s0 (passBoundary a0 s) := by
  unfold passBoundary
  repeat' first
    | with_reducible assumption
    | with_reducible apply endSolves_keeps
    | with_reducible apply applyBound_keeps
    | with_reducible apply Keeps.ite
    | (lift_lets; intro x; refine Keeps.cut (s := s0) (x := x) ?_ ?_; rotate_left; intro hx; clear_value x; rotate_left; subst x)
    | (lift_lets; intro (x : Memory); subst x)
    | (lift_lets; intro (x : Flash); subst x)
    | (lift_lets; intro (x : State → State × Nat × Nat); subst x)
    | (lift_lets; intro (x : State → State); subst x)
    | (lift_lets; intro (x : State → State × Result); subst x)
    | (lift_lets; intro x; clear_value x)
    | dsimp only [Keeps]
    | split

theorem execSolveBoundary_keeps {s0 s : State} {a0} (h : Keeps s0 s) {t} (e : execSolveBoundary a0 s = .next t) : Keeps s0 t := by
  unfold execSolveBoundary at e
  first
    | (replace e := Host.Outcome.next.inj e; subst e)
    | cases e
  repeat' first
    | with_reducible assumption
    | with_reducible apply advance_keeps
    | with_reducible apply passBoundary_keeps
    | with_reducible apply Keeps.ite
    | dsimp only [Keeps]
    | split

theorem acceptSolve_keeps {s0 s : State} {a0} (h : Keeps s0 s) : Keeps s0 (acceptSolve a0 s) := by
  unfold acceptSolve
  repeat' first
    | with_reducible assumption
    | with_reducible apply record_keeps
    | with_reducible apply writeArea_keeps
    | with_reducible apply countHarrow_keeps
    | with_reducible apply setBlock_keeps
    | with_reducible apply countSolveNans_keeps
    | with_reducible apply endSolves_keeps
    | with_reducible apply traceSolve_keeps
    | intro t h
    | with_reducible apply Keeps.ite
    | (lift_lets; intro x; refine Keeps.cut (s := s0) (x := x) ?_ ?_; rotate_left; intro hx; clear_value x; rotate_left; subst x)
    | (lift_lets; intro (x : Memory); subst x)
    | (lift_lets; intro (x : Flash); subst x)
    | (lift_lets; intro (x : State → State × Nat × Nat); subst x)
    | (lift_lets; intro (x : State → State); subst x)
    | (lift_lets; intro (x : State → State × Result); subst x)
    | (lift_lets; intro x; clear_value x)
    | dsimp only [Keeps]
    | split

theorem execSolveAcceptance_keeps {s0 s : State} {a0} (h : Keeps s0 s) {t} (e : execSolveAcceptance a0 s = .next t) : Keeps s0 t := by
  unfold execSolveAcceptance at e
  first
    | (replace e := Host.Outcome.next.inj e; subst e)
    | cases e
  repeat' first
    | with_reducible assumption
    | with_reducible apply advance_keeps
    | with_reducible apply acceptSolve_keeps
    | with_reducible apply Keeps.ite
    | dsimp only [Keeps]
    | split

theorem decideDeadline_keeps {s0 s : State} {a0} (h : Keeps s0 s) : Keeps s0 (decideDeadline a0 s) := by
  unfold decideDeadline
  repeat' first
    | with_reducible assumption
    | with_reducible apply setBlock_keeps
    | with_reducible apply count_keeps
    | with_reducible apply traceSolve_keeps
    | with_reducible apply raise_keeps
    | with_reducible apply endSolves_keeps
    | with_reducible apply Keeps.ite
    | (lift_lets; intro x; refine Keeps.cut (s := s0) (x := x) ?_ ?_; rotate_left; intro hx; clear_value x; rotate_left; subst x)
    | (lift_lets; intro (x : Memory); subst x)
    | (lift_lets; intro (x : Flash); subst x)
    | (lift_lets; intro (x : State → State × Nat × Nat); subst x)
    | (lift_lets; intro (x : State → State); subst x)
    | (lift_lets; intro (x : State → State × Result); subst x)
    | (lift_lets; intro x; clear_value x)
    | dsimp only [Keeps]
    | split

theorem execDeadlineDecision_keeps {s0 s : State} {a0} (h : Keeps s0 s) {t} (e : execDeadlineDecision a0 s = .next t) : Keeps s0 t := by
  unfold execDeadlineDecision at e
  first
    | (replace e := Host.Outcome.next.inj e; subst e)
    | cases e
  repeat' first
    | with_reducible assumption
    | with_reducible apply advance_keeps
    | with_reducible apply decideDeadline_keeps
    | with_reducible apply Keeps.ite
    | dsimp only [Keeps]
    | split

end Sys2Proof.Laws
end

