-- ==== Sys2Proof/Laws/KeepsMoves.lean ====
section
/-!
SUPPORT. `Keeps` for the operations of Machine/Moves.lean.
-/
namespace Sys2Proof.Laws

open Sys2Proof Sys2Proof.Machine

theorem dropMove_keeps {s0 s : State} {a0} (h : Keeps s0 s) : Keeps s0 (dropMove a0 s) := by
  unfold dropMove
  repeat' first
    | with_reducible assumption
    | with_reducible apply Keeps.ite
    | dsimp only [Keeps]
    | split

theorem beginMove_keeps {s0 s : State} {a0} (h : Keeps s0 s) : Keeps s0 (beginMove a0 s) := by
  unfold beginMove
  repeat' first
    | with_reducible assumption
    | with_reducible apply dropMove_keeps
    | with_reducible apply traceMemory_keeps
    | with_reducible apply setPage_keeps
    | with_reducible apply Keeps.ite
    | (lift_lets; intro x; refine Keeps.cut (s := s0) (x := x) ?_ ?_; rotate_left; intro hx; clear_value x; rotate_left; subst x)
    | (lift_lets; intro (x : Memory); subst x)
    | (lift_lets; intro (x : Flash); subst x)
    | (lift_lets; intro (x : State → State × Nat × Nat); subst x)
    | (lift_lets; intro (x : State → State); subst x)
    | (lift_lets; intro (x : State → State × Result); subst x)
    | (lift_lets; intro x; clear_value x)
    | dsimp only [Keeps]
    | split

theorem execMigrationStart_keeps {s0 s : State} {a0} (h : Keeps s0 s) {t} (e : execMigrationStart a0 s = .next t) : Keeps s0 t := by
  unfold execMigrationStart at e
  first
    | (replace e := Host.Outcome.next.inj e; subst e)
    | cases e
  repeat' first
    | with_reducible assumption
    | with_reducible apply beginMove_keeps
    | with_reducible apply Keeps.ite
    | dsimp only [Keeps]
    | split

theorem execMigrationSeal_keeps {s0 s : State} {a0} (h : Keeps s0 s) {t} (e : execMigrationSeal a0 s = .next t) : Keeps s0 t := by
  unfold execMigrationSeal at e
  first
    | (replace e := Host.Outcome.next.inj e; subst e)
    | cases e
  repeat' first
    | with_reducible assumption
    | with_reducible apply sealMove_keeps
    | with_reducible apply Keeps.ite
    | dsimp only [Keeps]
    | split

theorem execMigrationFlip_keeps {s0 s : State} {a0} (h : Keeps s0 s) {t} (e : execMigrationFlip a0 s = .next t) : Keeps s0 t := by
  unfold execMigrationFlip at e
  first
    | (replace e := Host.Outcome.next.inj e; subst e)
    | cases e
  repeat' first
    | with_reducible assumption
    | with_reducible apply advance_keeps
    | with_reducible apply flipMove_keeps
    | with_reducible apply Keeps.ite
    | dsimp only [Keeps]
    | split

theorem execMigrationSourceFree_keeps {s0 s : State} {a0} (h : Keeps s0 s) {t} (e : execMigrationSourceFree a0 s = .next t) : Keeps s0 t := by
  unfold execMigrationSourceFree at e
  first
    | (replace e := Host.Outcome.next.inj e; subst e)
    | cases e
  repeat' first
    | with_reducible assumption
    | with_reducible apply advance_keeps
    | with_reducible apply sow_keeps
    | with_reducible apply freeSource_keeps
    | with_reducible apply Keeps.ite
    | dsimp only [Keeps]
    | split

theorem poisonLine_keeps {s0 s : State} {a0} (h : Keeps s0 s) : Keeps s0 (poisonLine a0 s) := by
  unfold poisonLine
  repeat' first
    | with_reducible assumption
    | with_reducible apply count_keeps
    | with_reducible apply traceMemory_keeps
    | with_reducible apply Keeps.ite
    | (lift_lets; intro x; refine Keeps.cut (s := s0) (x := x) ?_ ?_; rotate_left; intro hx; clear_value x; rotate_left; subst x)
    | (lift_lets; intro (x : Memory); subst x)
    | (lift_lets; intro (x : Flash); subst x)
    | (lift_lets; intro (x : State → State × Nat × Nat); subst x)
    | (lift_lets; intro (x : State → State); subst x)
    | (lift_lets; intro (x : State → State × Result); subst x)
    | (lift_lets; intro x; clear_value x)
    | dsimp only [Keeps]
    | split

theorem setHealth_keeps {s0 s : State} {a0} (h : Keeps s0 s) : Keeps s0 (setHealth a0 s) := by
  unfold setHealth
  repeat' first
    | with_reducible assumption
    | with_reducible apply Keeps.ite
    | dsimp only [Keeps]
    | split

theorem uncorrectableIn_keeps {s0 s : State} {a0 a1 a2 a3} (h : Keeps s0 s) : Keeps s0 (uncorrectableIn a0 a1 a2 a3 s) := by
  unfold uncorrectableIn
  repeat' first
    | with_reducible assumption
    | with_reducible apply poisonLine_keeps
    | with_reducible apply count_keeps
    | with_reducible apply abandonMove_keeps
    | (with_reducible refine Keeps.foldl ?_ (fun t x h => ?_))
    | (with_reducible refine Keeps.foldlFst ?_ (fun t x h => ?_))
    | (with_reducible refine Keeps.foldlSnd ?_ (fun t x h => ?_))
    | with_reducible apply Keeps.ite
    | (lift_lets; intro x; refine Keeps.cut (s := s0) (x := x) ?_ ?_; rotate_left; intro hx; clear_value x; rotate_left; subst x)
    | (lift_lets; intro (x : Memory); subst x)
    | (lift_lets; intro (x : Flash); subst x)
    | (lift_lets; intro (x : State → State × Nat × Nat); subst x)
    | (lift_lets; intro (x : State → State); subst x)
    | (lift_lets; intro (x : State → State × Result); subst x)
    | (lift_lets; intro x; clear_value x)
    | dsimp only [Keeps]
    | split

theorem scrubFrame_keeps {s0 s : State} {a0 a1 a2 a3 a4} (h : Keeps s0 s) : Keeps s0 (scrubFrame a0 a1 a2 a3 a4 s) := by
  unfold scrubFrame
  repeat' first
    | with_reducible assumption
    | with_reducible apply count_keeps
    | with_reducible apply setHealth_keeps
    | with_reducible apply uncorrectableIn_keeps
    | with_reducible apply retireFrame_keeps
    | (with_reducible refine Keeps.foldl ?_ (fun t x h => ?_))
    | (with_reducible refine Keeps.foldlFst ?_ (fun t x h => ?_))
    | (with_reducible refine Keeps.foldlSnd ?_ (fun t x h => ?_))
    | with_reducible apply Keeps.ite
    | (lift_lets; intro x; refine Keeps.cut (s := s0) (x := x) ?_ ?_; rotate_left; intro hx; clear_value x; rotate_left; subst x)
    | (lift_lets; intro (x : Memory); subst x)
    | (lift_lets; intro (x : Flash); subst x)
    | (lift_lets; intro (x : State → State × Nat × Nat); subst x)
    | (lift_lets; intro (x : State → State); subst x)
    | (lift_lets; intro (x : State → State × Result); subst x)
    | (lift_lets; intro x; clear_value x)
    | rw [answered_base]
    | dsimp only [Keeps]
    | split

theorem execPatrolScrub_keeps {s0 s : State} {a0 a1 a2 a3 a4} (h : Keeps s0 s) {t} (e : execPatrolScrub a0 a1 a2 a3 a4 s = .next t) : Keeps s0 t := by
  unfold execPatrolScrub at e
  first
    | (replace e := Host.Outcome.next.inj e; subst e)
    | cases e
  repeat' first
    | with_reducible assumption
    | with_reducible apply scrubFrame_keeps
    | with_reducible apply Keeps.ite
    | dsimp only [Keeps]
    | split

theorem loseDevice_keeps {s0 s : State} (h : Keeps s0 s) : Keeps s0 (loseDevice s) := by
  unfold loseDevice
  repeat' first
    | with_reducible assumption
    | with_reducible apply isolate_keeps
    | with_reducible apply Keeps.ite
    | dsimp only [Keeps]
    | split

theorem lineUncorrectable_keeps {s0 s : State} {a0 a1 a2 a3} (h : Keeps s0 s) : Keeps s0 (lineUncorrectable a0 a1 a2 a3 s) := by
  unfold lineUncorrectable
  repeat' first
    | with_reducible assumption
    | with_reducible apply poisonLine_keeps
    | with_reducible apply setHealth_keeps
    | with_reducible apply retireFrame_keeps
    | with_reducible apply Keeps.ite
    | (lift_lets; intro x; refine Keeps.cut (s := s0) (x := x) ?_ ?_; rotate_left; intro hx; clear_value x; rotate_left; subst x)
    | (lift_lets; intro (x : Memory); subst x)
    | (lift_lets; intro (x : Flash); subst x)
    | (lift_lets; intro (x : State → State × Nat × Nat); subst x)
    | (lift_lets; intro (x : State → State); subst x)
    | (lift_lets; intro (x : State → State × Result); subst x)
    | (lift_lets; intro x; clear_value x)
    | dsimp only [Keeps]
    | split

theorem requestExpired_keeps {s0 s : State} {a0 a1} (h : Keeps s0 s) : Keeps s0 (requestExpired a0 a1 s) := by
  unfold requestExpired
  repeat' first
    | with_reducible assumption
    | with_reducible apply lineUncorrectable_keeps
    | with_reducible apply loseDevice_keeps
    | with_reducible apply Keeps.ite
    | (lift_lets; intro x; refine Keeps.cut (s := s0) (x := x) ?_ ?_; rotate_left; intro hx; clear_value x; rotate_left; subst x)
    | (lift_lets; intro (x : Memory); subst x)
    | (lift_lets; intro (x : Flash); subst x)
    | (lift_lets; intro (x : State → State × Nat × Nat); subst x)
    | (lift_lets; intro (x : State → State); subst x)
    | (lift_lets; intro (x : State → State × Result); subst x)
    | (lift_lets; intro x; clear_value x)
    | dsimp only [Keeps]
    | split

theorem execMemTimeout_keeps {s0 s : State} {a0 a1} (h : Keeps s0 s) {t} (e : execMemTimeout a0 a1 s = .next t) : Keeps s0 t := by
  unfold execMemTimeout at e
  first
    | (replace e := Host.Outcome.next.inj e; subst e)
    | cases e
  repeat' first
    | with_reducible assumption
    | with_reducible apply requestExpired_keeps
    | with_reducible apply Keeps.ite
    | dsimp only [Keeps]
    | split

theorem controllerFailed_keeps {s0 s : State} {a0} (h : Keeps s0 s) : Keeps s0 (controllerFailed a0 s) := by
  unfold controllerFailed
  repeat' first
    | with_reducible assumption
    | with_reducible apply loseDevice_keeps
    | with_reducible apply Keeps.ite
    | dsimp only [Keeps]
    | split

theorem execMemoryControllerFailure_keeps {s0 s : State} {a0 a1} (h : Keeps s0 s) {t} (e : execMemoryControllerFailure a0 a1 s = .next t) : Keeps s0 t := by
  unfold execMemoryControllerFailure at e
  first
    | (replace e := Host.Outcome.next.inj e; subst e)
    | cases e
  repeat' first
    | with_reducible assumption
    | with_reducible apply controllerFailed_keeps
    | with_reducible apply Keeps.ite
    | dsimp only [Keeps]
    | split

end Sys2Proof.Laws
end

