-- ==== Sys2Proof/Laws/KeepsVecRows.lean ====
section
/-!
SUPPORT. `Keeps` for the operations of Machine/VecRows.lean.
-/
namespace Sys2Proof.Laws

open Sys2Proof Sys2Proof.Machine

theorem setVec_keeps {s0 s : State} {a0 a1} (h : Keeps s0 s) : Keeps s0 (setVec a0 a1 s) := by
  unfold setVec
  repeat' first
    | with_reducible assumption
    | with_reducible apply Keeps.ite
    | dsimp only [Keeps]
    | split

theorem chargeTask_keeps {s0 s : State} {a0 a1 a2 a3 a4} (h : Keeps s0 s) : Keeps s0 (chargeTask a0 a1 a2 a3 a4 s) := by
  unfold chargeTask
  repeat' first
    | with_reducible assumption
    | with_reducible apply setTask_keeps
    | with_reducible apply countWork_keeps
    | with_reducible apply countNan_keeps
    | (with_reducible refine Keeps.foldl ?_ (fun t x h => ?_))
    | (with_reducible refine Keeps.foldlFst ?_ (fun t x h => ?_))
    | (with_reducible refine Keeps.foldlSnd ?_ (fun t x h => ?_))
    | with_reducible apply Keeps.ite
    | (lift_lets; intro x; refine Keeps.cut (s := s0) (x := x) ?_ ?_; rotate_left; intro hx; clear_value x; rotate_left; subst x)
    | (lift_lets; intro (x : Memory); subst x)
    | (lift_lets; intro (x : Flash); subst x)
    | (lift_lets; intro (x : State → State × Nat × Nat); subst x)
    | (lift_lets; intro (x : State → State); subst x)
    | (lift_lets; intro (x : State → State × Result); subst x)
    | (lift_lets; intro x; clear_value x)
    | dsimp only [Keeps]
    | split

theorem vecStep_keeps {s0 s : State} {a0 a1 a2} (h : Keeps s0 s) : Keeps s0 (vecStep a0 a1 a2 s) := by
  unfold vecStep
  repeat' first
    | with_reducible assumption
    | with_reducible apply setVec_keeps
    | with_reducible apply countWork_keeps
    | with_reducible apply countNan_keeps
    | with_reducible apply chargeTask_keeps
    | (with_reducible refine Keeps.foldl ?_ (fun t x h => ?_))
    | (with_reducible refine Keeps.foldlFst ?_ (fun t x h => ?_))
    | (with_reducible refine Keeps.foldlSnd ?_ (fun t x h => ?_))
    | with_reducible apply Keeps.ite
    | (lift_lets; intro x; refine Keeps.cut (s := s0) (x := x) ?_ ?_; rotate_left; intro hx; clear_value x; rotate_left; subst x)
    | (lift_lets; intro (x : Memory); subst x)
    | (lift_lets; intro (x : Flash); subst x)
    | (lift_lets; intro (x : State → State × Nat × Nat); subst x)
    | (lift_lets; intro (x : State → State); subst x)
    | (lift_lets; intro (x : State → State × Result); subst x)
    | (lift_lets; intro x; clear_value x)
    | dsimp only [Keeps]
    | split

theorem execVNop_keeps {s0 s : State} {a0 a1} (h : Keeps s0 s) {t} (e : execVNop a0 a1 s = .next t) : Keeps s0 t := by
  unfold execVNop at e
  first
    | (replace e := Host.Outcome.next.inj e; subst e)
    | cases e
  repeat' first
    | with_reducible assumption
    | with_reducible apply vecStep_keeps
    | with_reducible apply Keeps.ite
    | dsimp only [Keeps]
    | split

theorem execVMov_keeps {s0 s : State} {a0 a1} (h : Keeps s0 s) {t} (e : execVMov a0 a1 s = .next t) : Keeps s0 t := by
  unfold execVMov at e
  first
    | (replace e := Host.Outcome.next.inj e; subst e)
    | cases e
  repeat' first
    | with_reducible assumption
    | with_reducible apply vecStep_keeps
    | with_reducible apply Keeps.ite
    | dsimp only [Keeps]
    | split

theorem execVAdd_keeps {s0 s : State} {a0 a1} (h : Keeps s0 s) {t} (e : execVAdd a0 a1 s = .next t) : Keeps s0 t := by
  unfold execVAdd at e
  first
    | (replace e := Host.Outcome.next.inj e; subst e)
    | cases e
  repeat' first
    | with_reducible assumption
    | with_reducible apply vecStep_keeps
    | with_reducible apply Keeps.ite
    | dsimp only [Keeps]
    | split

theorem execVSub_keeps {s0 s : State} {a0 a1} (h : Keeps s0 s) {t} (e : execVSub a0 a1 s = .next t) : Keeps s0 t := by
  unfold execVSub at e
  first
    | (replace e := Host.Outcome.next.inj e; subst e)
    | cases e
  repeat' first
    | with_reducible assumption
    | with_reducible apply vecStep_keeps
    | with_reducible apply Keeps.ite
    | dsimp only [Keeps]
    | split

theorem execVMul_keeps {s0 s : State} {a0 a1} (h : Keeps s0 s) {t} (e : execVMul a0 a1 s = .next t) : Keeps s0 t := by
  unfold execVMul at e
  first
    | (replace e := Host.Outcome.next.inj e; subst e)
    | cases e
  repeat' first
    | with_reducible assumption
    | with_reducible apply vecStep_keeps
    | with_reducible apply Keeps.ite
    | dsimp only [Keeps]
    | split

theorem execVFma_keeps {s0 s : State} {a0 a1} (h : Keeps s0 s) {t} (e : execVFma a0 a1 s = .next t) : Keeps s0 t := by
  unfold execVFma at e
  first
    | (replace e := Host.Outcome.next.inj e; subst e)
    | cases e
  repeat' first
    | with_reducible assumption
    | with_reducible apply vecStep_keeps
    | with_reducible apply Keeps.ite
    | dsimp only [Keeps]
    | split

theorem execVMin_keeps {s0 s : State} {a0 a1} (h : Keeps s0 s) {t} (e : execVMin a0 a1 s = .next t) : Keeps s0 t := by
  unfold execVMin at e
  first
    | (replace e := Host.Outcome.next.inj e; subst e)
    | cases e
  repeat' first
    | with_reducible assumption
    | with_reducible apply vecStep_keeps
    | with_reducible apply Keeps.ite
    | dsimp only [Keeps]
    | split

theorem execVMax_keeps {s0 s : State} {a0 a1} (h : Keeps s0 s) {t} (e : execVMax a0 a1 s = .next t) : Keeps s0 t := by
  unfold execVMax at e
  first
    | (replace e := Host.Outcome.next.inj e; subst e)
    | cases e
  repeat' first
    | with_reducible assumption
    | with_reducible apply vecStep_keeps
    | with_reducible apply Keeps.ite
    | dsimp only [Keeps]
    | split

theorem execVAbs_keeps {s0 s : State} {a0 a1} (h : Keeps s0 s) {t} (e : execVAbs a0 a1 s = .next t) : Keeps s0 t := by
  unfold execVAbs at e
  first
    | (replace e := Host.Outcome.next.inj e; subst e)
    | cases e
  repeat' first
    | with_reducible assumption
    | with_reducible apply vecStep_keeps
    | with_reducible apply Keeps.ite
    | dsimp only [Keeps]
    | split

theorem execVNeg_keeps {s0 s : State} {a0 a1} (h : Keeps s0 s) {t} (e : execVNeg a0 a1 s = .next t) : Keeps s0 t := by
  unfold execVNeg at e
  first
    | (replace e := Host.Outcome.next.inj e; subst e)
    | cases e
  repeat' first
    | with_reducible assumption
    | with_reducible apply vecStep_keeps
    | with_reducible apply Keeps.ite
    | dsimp only [Keeps]
    | split

theorem execVDiv_keeps {s0 s : State} {a0 a1} (h : Keeps s0 s) {t} (e : execVDiv a0 a1 s = .next t) : Keeps s0 t := by
  unfold execVDiv at e
  first
    | (replace e := Host.Outcome.next.inj e; subst e)
    | cases e
  repeat' first
    | with_reducible assumption
    | with_reducible apply vecStep_keeps
    | with_reducible apply Keeps.ite
    | dsimp only [Keeps]
    | split

theorem execVRcp_keeps {s0 s : State} {a0 a1} (h : Keeps s0 s) {t} (e : execVRcp a0 a1 s = .next t) : Keeps s0 t := by
  unfold execVRcp at e
  first
    | (replace e := Host.Outcome.next.inj e; subst e)
    | cases e
  repeat' first
    | with_reducible assumption
    | with_reducible apply vecStep_keeps
    | with_reducible apply Keeps.ite
    | dsimp only [Keeps]
    | split

theorem execVSqrt_keeps {s0 s : State} {a0 a1} (h : Keeps s0 s) {t} (e : execVSqrt a0 a1 s = .next t) : Keeps s0 t := by
  unfold execVSqrt at e
  first
    | (replace e := Host.Outcome.next.inj e; subst e)
    | cases e
  repeat' first
    | with_reducible assumption
    | with_reducible apply vecStep_keeps
    | with_reducible apply Keeps.ite
    | dsimp only [Keeps]
    | split

theorem execVRsqrt_keeps {s0 s : State} {a0 a1} (h : Keeps s0 s) {t} (e : execVRsqrt a0 a1 s = .next t) : Keeps s0 t := by
  unfold execVRsqrt at e
  first
    | (replace e := Host.Outcome.next.inj e; subst e)
    | cases e
  repeat' first
    | with_reducible assumption
    | with_reducible apply vecStep_keeps
    | with_reducible apply Keeps.ite
    | dsimp only [Keeps]
    | split

theorem execVExp2_keeps {s0 s : State} {a0 a1} (h : Keeps s0 s) {t} (e : execVExp2 a0 a1 s = .next t) : Keeps s0 t := by
  unfold execVExp2 at e
  first
    | (replace e := Host.Outcome.next.inj e; subst e)
    | cases e
  repeat' first
    | with_reducible assumption
    | with_reducible apply vecStep_keeps
    | with_reducible apply Keeps.ite
    | dsimp only [Keeps]
    | split

theorem execVLog2_keeps {s0 s : State} {a0 a1} (h : Keeps s0 s) {t} (e : execVLog2 a0 a1 s = .next t) : Keeps s0 t := by
  unfold execVLog2 at e
  first
    | (replace e := Host.Outcome.next.inj e; subst e)
    | cases e
  repeat' first
    | with_reducible assumption
    | with_reducible apply vecStep_keeps
    | with_reducible apply Keeps.ite
    | dsimp only [Keeps]
    | split

theorem execVExp_keeps {s0 s : State} {a0 a1} (h : Keeps s0 s) {t} (e : execVExp a0 a1 s = .next t) : Keeps s0 t := by
  unfold execVExp at e
  first
    | (replace e := Host.Outcome.next.inj e; subst e)
    | cases e
  repeat' first
    | with_reducible assumption
    | with_reducible apply vecStep_keeps
    | with_reducible apply Keeps.ite
    | dsimp only [Keeps]
    | split

theorem execVLog_keeps {s0 s : State} {a0 a1} (h : Keeps s0 s) {t} (e : execVLog a0 a1 s = .next t) : Keeps s0 t := by
  unfold execVLog at e
  first
    | (replace e := Host.Outcome.next.inj e; subst e)
    | cases e
  repeat' first
    | with_reducible assumption
    | with_reducible apply vecStep_keeps
    | with_reducible apply Keeps.ite
    | dsimp only [Keeps]
    | split

theorem execVTanh_keeps {s0 s : State} {a0 a1} (h : Keeps s0 s) {t} (e : execVTanh a0 a1 s = .next t) : Keeps s0 t := by
  unfold execVTanh at e
  first
    | (replace e := Host.Outcome.next.inj e; subst e)
    | cases e
  repeat' first
    | with_reducible assumption
    | with_reducible apply vecStep_keeps
    | with_reducible apply Keeps.ite
    | dsimp only [Keeps]
    | split

theorem execVErf_keeps {s0 s : State} {a0 a1} (h : Keeps s0 s) {t} (e : execVErf a0 a1 s = .next t) : Keeps s0 t := by
  unfold execVErf at e
  first
    | (replace e := Host.Outcome.next.inj e; subst e)
    | cases e
  repeat' first
    | with_reducible assumption
    | with_reducible apply vecStep_keeps
    | with_reducible apply Keeps.ite
    | dsimp only [Keeps]
    | split

theorem execVSigmoid_keeps {s0 s : State} {a0 a1} (h : Keeps s0 s) {t} (e : execVSigmoid a0 a1 s = .next t) : Keeps s0 t := by
  unfold execVSigmoid at e
  first
    | (replace e := Host.Outcome.next.inj e; subst e)
    | cases e
  repeat' first
    | with_reducible assumption
    | with_reducible apply vecStep_keeps
    | with_reducible apply Keeps.ite
    | dsimp only [Keeps]
    | split

theorem execVCmpeq_keeps {s0 s : State} {a0 a1} (h : Keeps s0 s) {t} (e : execVCmpeq a0 a1 s = .next t) : Keeps s0 t := by
  unfold execVCmpeq at e
  first
    | (replace e := Host.Outcome.next.inj e; subst e)
    | cases e
  repeat' first
    | with_reducible assumption
    | with_reducible apply vecStep_keeps
    | with_reducible apply Keeps.ite
    | dsimp only [Keeps]
    | split

theorem execVCmplt_keeps {s0 s : State} {a0 a1} (h : Keeps s0 s) {t} (e : execVCmplt a0 a1 s = .next t) : Keeps s0 t := by
  unfold execVCmplt at e
  first
    | (replace e := Host.Outcome.next.inj e; subst e)
    | cases e
  repeat' first
    | with_reducible assumption
    | with_reducible apply vecStep_keeps
    | with_reducible apply Keeps.ite
    | dsimp only [Keeps]
    | split

theorem execVCmple_keeps {s0 s : State} {a0 a1} (h : Keeps s0 s) {t} (e : execVCmple a0 a1 s = .next t) : Keeps s0 t := by
  unfold execVCmple at e
  first
    | (replace e := Host.Outcome.next.inj e; subst e)
    | cases e
  repeat' first
    | with_reducible assumption
    | with_reducible apply vecStep_keeps
    | with_reducible apply Keeps.ite
    | dsimp only [Keeps]
    | split

theorem execVCmpgt_keeps {s0 s : State} {a0 a1} (h : Keeps s0 s) {t} (e : execVCmpgt a0 a1 s = .next t) : Keeps s0 t := by
  unfold execVCmpgt at e
  first
    | (replace e := Host.Outcome.next.inj e; subst e)
    | cases e
  repeat' first
    | with_reducible assumption
    | with_reducible apply vecStep_keeps
    | with_reducible apply Keeps.ite
    | dsimp only [Keeps]
    | split

theorem execVCmpge_keeps {s0 s : State} {a0 a1} (h : Keeps s0 s) {t} (e : execVCmpge a0 a1 s = .next t) : Keeps s0 t := by
  unfold execVCmpge at e
  first
    | (replace e := Host.Outcome.next.inj e; subst e)
    | cases e
  repeat' first
    | with_reducible assumption
    | with_reducible apply vecStep_keeps
    | with_reducible apply Keeps.ite
    | dsimp only [Keeps]
    | split

theorem execVCmpun_keeps {s0 s : State} {a0 a1} (h : Keeps s0 s) {t} (e : execVCmpun a0 a1 s = .next t) : Keeps s0 t := by
  unfold execVCmpun at e
  first
    | (replace e := Host.Outcome.next.inj e; subst e)
    | cases e
  repeat' first
    | with_reducible assumption
    | with_reducible apply vecStep_keeps
    | with_reducible apply Keeps.ite
    | dsimp only [Keeps]
    | split

theorem execVMand_keeps {s0 s : State} {a0 a1} (h : Keeps s0 s) {t} (e : execVMand a0 a1 s = .next t) : Keeps s0 t := by
  unfold execVMand at e
  first
    | (replace e := Host.Outcome.next.inj e; subst e)
    | cases e
  repeat' first
    | with_reducible assumption
    | with_reducible apply vecStep_keeps
    | with_reducible apply Keeps.ite
    | dsimp only [Keeps]
    | split

theorem execVMor_keeps {s0 s : State} {a0 a1} (h : Keeps s0 s) {t} (e : execVMor a0 a1 s = .next t) : Keeps s0 t := by
  unfold execVMor at e
  first
    | (replace e := Host.Outcome.next.inj e; subst e)
    | cases e
  repeat' first
    | with_reducible assumption
    | with_reducible apply vecStep_keeps
    | with_reducible apply Keeps.ite
    | dsimp only [Keeps]
    | split

theorem execVMandn_keeps {s0 s : State} {a0 a1} (h : Keeps s0 s) {t} (e : execVMandn a0 a1 s = .next t) : Keeps s0 t := by
  unfold execVMandn at e
  first
    | (replace e := Host.Outcome.next.inj e; subst e)
    | cases e
  repeat' first
    | with_reducible assumption
    | with_reducible apply vecStep_keeps
    | with_reducible apply Keeps.ite
    | dsimp only [Keeps]
    | split

theorem execVSel_keeps {s0 s : State} {a0 a1} (h : Keeps s0 s) {t} (e : execVSel a0 a1 s = .next t) : Keeps s0 t := by
  unfold execVSel at e
  first
    | (replace e := Host.Outcome.next.inj e; subst e)
    | cases e
  repeat' first
    | with_reducible assumption
    | with_reducible apply vecStep_keeps
    | with_reducible apply Keeps.ite
    | dsimp only [Keeps]
    | split

theorem execVCompress_keeps {s0 s : State} {a0 a1} (h : Keeps s0 s) {t} (e : execVCompress a0 a1 s = .next t) : Keeps s0 t := by
  unfold execVCompress at e
  first
    | (replace e := Host.Outcome.next.inj e; subst e)
    | cases e
  repeat' first
    | with_reducible assumption
    | with_reducible apply vecStep_keeps
    | with_reducible apply Keeps.ite
    | dsimp only [Keeps]
    | split

theorem execVExpand_keeps {s0 s : State} {a0 a1} (h : Keeps s0 s) {t} (e : execVExpand a0 a1 s = .next t) : Keeps s0 t := by
  unfold execVExpand at e
  first
    | (replace e := Host.Outcome.next.inj e; subst e)
    | cases e
  repeat' first
    | with_reducible assumption
    | with_reducible apply vecStep_keeps
    | with_reducible apply Keeps.ite
    | dsimp only [Keeps]
    | split

theorem execVRedsum_keeps {s0 s : State} {a0 a1} (h : Keeps s0 s) {t} (e : execVRedsum a0 a1 s = .next t) : Keeps s0 t := by
  unfold execVRedsum at e
  first
    | (replace e := Host.Outcome.next.inj e; subst e)
    | cases e
  repeat' first
    | with_reducible assumption
    | with_reducible apply vecStep_keeps
    | with_reducible apply Keeps.ite
    | dsimp only [Keeps]
    | split

theorem execVRedmax_keeps {s0 s : State} {a0 a1} (h : Keeps s0 s) {t} (e : execVRedmax a0 a1 s = .next t) : Keeps s0 t := by
  unfold execVRedmax at e
  first
    | (replace e := Host.Outcome.next.inj e; subst e)
    | cases e
  repeat' first
    | with_reducible assumption
    | with_reducible apply vecStep_keeps
    | with_reducible apply Keeps.ite
    | dsimp only [Keeps]
    | split

theorem execVRedmin_keeps {s0 s : State} {a0 a1} (h : Keeps s0 s) {t} (e : execVRedmin a0 a1 s = .next t) : Keeps s0 t := by
  unfold execVRedmin at e
  first
    | (replace e := Host.Outcome.next.inj e; subst e)
    | cases e
  repeat' first
    | with_reducible assumption
    | with_reducible apply vecStep_keeps
    | with_reducible apply Keeps.ite
    | dsimp only [Keeps]
    | split

theorem execVWacc_keeps {s0 s : State} {a0 a1} (h : Keeps s0 s) {t} (e : execVWacc a0 a1 s = .next t) : Keeps s0 t := by
  unfold execVWacc at e
  first
    | (replace e := Host.Outcome.next.inj e; subst e)
    | cases e
  repeat' first
    | with_reducible assumption
    | with_reducible apply vecStep_keeps
    | with_reducible apply Keeps.ite
    | dsimp only [Keeps]
    | split

theorem execVWsum_keeps {s0 s : State} {a0 a1} (h : Keeps s0 s) {t} (e : execVWsum a0 a1 s = .next t) : Keeps s0 t := by
  unfold execVWsum at e
  first
    | (replace e := Host.Outcome.next.inj e; subst e)
    | cases e
  repeat' first
    | with_reducible assumption
    | with_reducible apply vecStep_keeps
    | with_reducible apply Keeps.ite
    | dsimp only [Keeps]
    | split

theorem execVCvti_keeps {s0 s : State} {a0 a1} (h : Keeps s0 s) {t} (e : execVCvti a0 a1 s = .next t) : Keeps s0 t := by
  unfold execVCvti at e
  first
    | (replace e := Host.Outcome.next.inj e; subst e)
    | cases e
  repeat' first
    | with_reducible assumption
    | with_reducible apply vecStep_keeps
    | with_reducible apply Keeps.ite
    | dsimp only [Keeps]
    | split

theorem execVCvtf_keeps {s0 s : State} {a0 a1} (h : Keeps s0 s) {t} (e : execVCvtf a0 a1 s = .next t) : Keeps s0 t := by
  unfold execVCvtf at e
  first
    | (replace e := Host.Outcome.next.inj e; subst e)
    | cases e
  repeat' first
    | with_reducible assumption
    | with_reducible apply vecStep_keeps
    | with_reducible apply Keeps.ite
    | dsimp only [Keeps]
    | split

theorem execVIadd_keeps {s0 s : State} {a0 a1} (h : Keeps s0 s) {t} (e : execVIadd a0 a1 s = .next t) : Keeps s0 t := by
  unfold execVIadd at e
  first
    | (replace e := Host.Outcome.next.inj e; subst e)
    | cases e
  repeat' first
    | with_reducible assumption
    | with_reducible apply vecStep_keeps
    | with_reducible apply Keeps.ite
    | dsimp only [Keeps]
    | split

theorem execVIand_keeps {s0 s : State} {a0 a1} (h : Keeps s0 s) {t} (e : execVIand a0 a1 s = .next t) : Keeps s0 t := by
  unfold execVIand at e
  first
    | (replace e := Host.Outcome.next.inj e; subst e)
    | cases e
  repeat' first
    | with_reducible assumption
    | with_reducible apply vecStep_keeps
    | with_reducible apply Keeps.ite
    | dsimp only [Keeps]
    | split

theorem execVIxor_keeps {s0 s : State} {a0 a1} (h : Keeps s0 s) {t} (e : execVIxor a0 a1 s = .next t) : Keeps s0 t := by
  unfold execVIxor at e
  first
    | (replace e := Host.Outcome.next.inj e; subst e)
    | cases e
  repeat' first
    | with_reducible assumption
    | with_reducible apply vecStep_keeps
    | with_reducible apply Keeps.ite
    | dsimp only [Keeps]
    | split

theorem execVLaneidx_keeps {s0 s : State} {a0 a1} (h : Keeps s0 s) {t} (e : execVLaneidx a0 a1 s = .next t) : Keeps s0 t := by
  unfold execVLaneidx at e
  first
    | (replace e := Host.Outcome.next.inj e; subst e)
    | cases e
  repeat' first
    | with_reducible assumption
    | with_reducible apply vecStep_keeps
    | with_reducible apply Keeps.ite
    | dsimp only [Keeps]
    | split

theorem execVRandu_keeps {s0 s : State} {a0 a1} (h : Keeps s0 s) {t} (e : execVRandu a0 a1 s = .next t) : Keeps s0 t := by
  unfold execVRandu at e
  first
    | (replace e := Host.Outcome.next.inj e; subst e)
    | cases e
  repeat' first
    | with_reducible assumption
    | with_reducible apply vecStep_keeps
    | with_reducible apply Keeps.ite
    | dsimp only [Keeps]
    | split

theorem execVRandb_keeps {s0 s : State} {a0 a1} (h : Keeps s0 s) {t} (e : execVRandb a0 a1 s = .next t) : Keeps s0 t := by
  unfold execVRandb at e
  first
    | (replace e := Host.Outcome.next.inj e; subst e)
    | cases e
  repeat' first
    | with_reducible assumption
    | with_reducible apply vecStep_keeps
    | with_reducible apply Keeps.ite
    | dsimp only [Keeps]
    | split

theorem execVLoad_keeps {s0 s : State} {a0 a1} (h : Keeps s0 s) {t} (e : execVLoad a0 a1 s = .next t) : Keeps s0 t := by
  unfold execVLoad at e
  first
    | (replace e := Host.Outcome.next.inj e; subst e)
    | cases e
  repeat' first
    | with_reducible assumption
    | with_reducible apply vecStep_keeps
    | with_reducible apply Keeps.ite
    | dsimp only [Keeps]
    | split

theorem execVStore_keeps {s0 s : State} {a0 a1} (h : Keeps s0 s) {t} (e : execVStore a0 a1 s = .next t) : Keeps s0 t := by
  unfold execVStore at e
  first
    | (replace e := Host.Outcome.next.inj e; subst e)
    | cases e
  repeat' first
    | with_reducible assumption
    | with_reducible apply vecStep_keeps
    | with_reducible apply Keeps.ite
    | dsimp only [Keeps]
    | split

end Sys2Proof.Laws
end

