-- ==== Sys2Proof/Laws/KeepsDiscovery.lean ====
section
/-!
SUPPORT. `Keeps` for the operations of Machine/Discovery.lean.
-/
namespace Sys2Proof.Laws

open Sys2Proof Sys2Proof.Machine

theorem offerNeighbours_keeps {s0 s : State} {a0} (h : Keeps s0 s) : Keeps s0 (offerNeighbours a0 s) := by
  unfold offerNeighbours
  repeat' first
    | with_reducible assumption
    | with_reducible apply sendHedge_keeps
    | (with_reducible refine Keeps.foldl ?_ (fun t x h => ?_))
    | (with_reducible refine Keeps.foldlFst ?_ (fun t x h => ?_))
    | (with_reducible refine Keeps.foldlSnd ?_ (fun t x h => ?_))
    | with_reducible apply Keeps.ite
    | dsimp only [Keeps]
    | split

theorem measureHolding_keeps {s0 s : State} (h : Keeps s0 s) : Keeps s0 (measureHolding s) := by
  unfold measureHolding
  repeat' first
    | with_reducible assumption
    | with_reducible apply extendMeas_keeps
    | with_reducible apply Keeps.ite
    | dsimp only [Keeps]
    | split

theorem completeHolding_keeps {s0 s : State} (h : Keeps s0 s) : Keeps s0 (completeHolding s) := by
  unfold completeHolding
  repeat' first
    | with_reducible assumption
    | with_reducible apply Keeps.ite
    | dsimp only [Keeps]
    | split

theorem refuseHolding_keeps {s0 s : State} {a0 a1} (h : Keeps s0 s) : Keeps s0 (refuseHolding a0 a1 s) := by
  unfold refuseHolding
  repeat' first
    | with_reducible assumption
    | with_reducible apply Keeps.ite
    | dsimp only [Keeps]
    | split

theorem discover_keeps {s0 s : State} (h : Keeps s0 s) : Keeps s0 (discover s) := by
  unfold discover
  repeat' first
    | with_reducible assumption
    | with_reducible apply completeHolding_keeps
    | with_reducible apply flushEvents_keeps
    | with_reducible apply offerNeighbours_keeps
    | with_reducible apply measureHolding_keeps
    | with_reducible apply Keeps.ite
    | (lift_lets; intro x; refine Keeps.cut (s := s0) (x := x) ?_ ?_; rotate_left; intro hx; clear_value x; rotate_left; subst x)
    | (lift_lets; intro (x : Memory); subst x)
    | (lift_lets; intro (x : Flash); subst x)
    | (lift_lets; intro (x : State → State × Nat × Nat); subst x)
    | (lift_lets; intro (x : State → State); subst x)
    | (lift_lets; intro (x : State → State × Result); subst x)
    | (lift_lets; intro x; clear_value x)
    | rw [answered_base]
    | dsimp only [Keeps]
    | split

theorem execDiscover_keeps {s0 s : State} (h : Keeps s0 s) {t} (e : execDiscover s = .next t) : Keeps s0 t := by
  unfold execDiscover at e
  first
    | (replace e := Host.Outcome.next.inj e; subst e)
    | cases e
  repeat' first
    | with_reducible assumption
    | with_reducible apply discover_keeps
    | with_reducible apply Keeps.ite
    | dsimp only [Keeps]
    | split

theorem noteAnswer_keeps {s0 s : State} {a0 a1} (h : Keeps s0 s) : Keeps s0 (noteAnswer a0 a1 s) := by
  unfold noteAnswer
  repeat' first
    | with_reducible assumption
    | (with_reducible refine Keeps.foldl ?_ (fun t x h => ?_))
    | (with_reducible refine Keeps.foldlFst ?_ (fun t x h => ?_))
    | (with_reducible refine Keeps.foldlSnd ?_ (fun t x h => ?_))
    | with_reducible apply Keeps.ite
    | (lift_lets; intro x; refine Keeps.cut (s := s0) (x := x) ?_ ?_; rotate_left; intro hx; clear_value x; rotate_left; subst x)
    | (lift_lets; intro (x : Memory); subst x)
    | (lift_lets; intro (x : Flash); subst x)
    | (lift_lets; intro (x : State → State × Nat × Nat); subst x)
    | (lift_lets; intro (x : State → State); subst x)
    | (lift_lets; intro (x : State → State × Result); subst x)
    | (lift_lets; intro x; clear_value x)
    | rw [answered_base]
    | dsimp only [Keeps]
    | split

theorem takeAnswer_keeps {s0 s : State} {a0 a1 a2 a3} (h : Keeps s0 s) : Keeps s0 (takeAnswer a0 a1 a2 a3 s) := by
  unfold takeAnswer
  repeat' first
    | with_reducible assumption
    | with_reducible apply traceReceive_keeps
    | with_reducible apply refuseHolding_keeps
    | with_reducible apply completeHolding_keeps
    | with_reducible apply noteAnswer_keeps
    | with_reducible apply Keeps.ite
    | (lift_lets; intro x; refine Keeps.cut (s := s0) (x := x) ?_ ?_; rotate_left; intro hx; clear_value x; rotate_left; subst x)
    | (lift_lets; intro (x : Memory); subst x)
    | (lift_lets; intro (x : Flash); subst x)
    | (lift_lets; intro (x : State → State × Nat × Nat); subst x)
    | (lift_lets; intro (x : State → State); subst x)
    | (lift_lets; intro (x : State → State × Result); subst x)
    | (lift_lets; intro x; clear_value x)
    | dsimp only [Keeps]
    | split

theorem execDiscoveryAnswer_keeps {s0 s : State} {a0 a1 a2 a3} (h : Keeps s0 s) {t} (e : execDiscoveryAnswer a0 a1 a2 a3 s = .next t) : Keeps s0 t := by
  unfold execDiscoveryAnswer at e
  first
    | (replace e := Host.Outcome.next.inj e; subst e)
    | cases e
  repeat' first
    | with_reducible assumption
    | with_reducible apply takeAnswer_keeps
    | with_reducible apply Keeps.ite
    | dsimp only [Keeps]
    | split

theorem judgeHolding_keeps {s0 s : State} (h : Keeps s0 s) : Keeps s0 (judgeHolding s) := by
  unfold judgeHolding
  repeat' first
    | with_reducible assumption
    | with_reducible apply refuseHolding_keeps
    | with_reducible apply Keeps.ite
    | rw [answered_base]
    | dsimp only [Keeps]
    | split

theorem execDiscoveryTimeout_keeps {s0 s : State} (h : Keeps s0 s) {t} (e : execDiscoveryTimeout s = .next t) : Keeps s0 t := by
  unfold execDiscoveryTimeout at e
  first
    | (replace e := Host.Outcome.next.inj e; subst e)
    | cases e
  repeat' first
    | with_reducible assumption
    | with_reducible apply judgeHolding_keeps
    | with_reducible apply Keeps.ite
    | dsimp only [Keeps]
    | split

theorem reoffer_keeps {s0 s : State} {a0} (h : Keeps s0 s) : Keeps s0 (reoffer a0 s) := by
  unfold reoffer
  repeat' first
    | with_reducible assumption
    | with_reducible apply sendHedge_keeps
    | with_reducible apply Keeps.ite
    | (lift_lets; intro x; refine Keeps.cut (s := s0) (x := x) ?_ ?_; rotate_left; intro hx; clear_value x; rotate_left; subst x)
    | (lift_lets; intro (x : Memory); subst x)
    | (lift_lets; intro (x : Flash); subst x)
    | (lift_lets; intro (x : State → State × Nat × Nat); subst x)
    | (lift_lets; intro (x : State → State); subst x)
    | (lift_lets; intro (x : State → State × Result); subst x)
    | (lift_lets; intro x; clear_value x)
    | dsimp only [Keeps]
    | split

theorem execDiscoveryReoffer_keeps {s0 s : State} {a0} (h : Keeps s0 s) {t} (e : execDiscoveryReoffer a0 s = .next t) : Keeps s0 t := by
  unfold execDiscoveryReoffer at e
  first
    | (replace e := Host.Outcome.next.inj e; subst e)
    | cases e
  repeat' first
    | with_reducible assumption
    | with_reducible apply reoffer_keeps
    | with_reducible apply Keeps.ite
    | dsimp only [Keeps]
    | split

theorem answerOffer_keeps {s0 s : State} {a0 a1 a2} (h : Keeps s0 s) : Keeps s0 (answerOffer a0 a1 a2 s) := by
  unfold answerOffer
  repeat' first
    | with_reducible assumption
    | with_reducible apply sendHedge_keeps
    | with_reducible apply Keeps.ite
    | dsimp only [Keeps]
    | split

theorem takeOffer_keeps {s0 s : State} {a0} (h : Keeps s0 s) : Keeps s0 (takeOffer a0 s) := by
  unfold takeOffer
  repeat' first
    | with_reducible assumption
    | with_reducible apply answerOffer_keeps
    | with_reducible apply offerNeighbours_keeps
    | with_reducible apply measureHolding_keeps
    | with_reducible apply flushEvents_keeps
    | with_reducible apply Keeps.ite
    | (lift_lets; intro x; refine Keeps.cut (s := s0) (x := x) ?_ ?_; rotate_left; intro hx; clear_value x; rotate_left; subst x)
    | (lift_lets; intro (x : Memory); subst x)
    | (lift_lets; intro (x : Flash); subst x)
    | (lift_lets; intro (x : State → State × Nat × Nat); subst x)
    | (lift_lets; intro (x : State → State); subst x)
    | (lift_lets; intro (x : State → State × Result); subst x)
    | (lift_lets; intro x; clear_value x)
    | dsimp only [Keeps]
    | split

theorem receiveOffer_keeps {s0 s : State} {a0} (h : Keeps s0 s) : Keeps s0 (receiveOffer a0 s) := by
  unfold receiveOffer
  repeat' first
    | with_reducible assumption
    | with_reducible apply traceReceive_keeps
    | with_reducible apply refuseHolding_keeps
    | with_reducible apply answerOffer_keeps
    | with_reducible apply takeOffer_keeps
    | with_reducible apply Keeps.ite
    | (lift_lets; intro x; refine Keeps.cut (s := s0) (x := x) ?_ ?_; rotate_left; intro hx; clear_value x; rotate_left; subst x)
    | (lift_lets; intro (x : Memory); subst x)
    | (lift_lets; intro (x : Flash); subst x)
    | (lift_lets; intro (x : State → State × Nat × Nat); subst x)
    | (lift_lets; intro (x : State → State); subst x)
    | (lift_lets; intro (x : State → State × Result); subst x)
    | (lift_lets; intro x; clear_value x)
    | dsimp only [Keeps]
    | split

theorem execDiscoveryOffer_keeps {s0 s : State} {a0} (h : Keeps s0 s) {t} (e : execDiscoveryOffer a0 s = .next t) : Keeps s0 t := by
  unfold execDiscoveryOffer at e
  first
    | (replace e := Host.Outcome.next.inj e; subst e)
    | cases e
  repeat' first
    | with_reducible assumption
    | with_reducible apply receiveOffer_keeps
    | with_reducible apply Keeps.ite
    | dsimp only [Keeps]
    | split

end Sys2Proof.Laws
end

