-- ==== Sys2Proof/Laws/KeepsRestore.lean ====
section
/-!
SUPPORT. `Keeps` for the operations of Machine/Restore.lean.
-/
namespace Sys2Proof.Laws

open Sys2Proof Sys2Proof.Machine

theorem installCopy_keeps {s0 s : State} {a0} (h : Keeps s0 s) {t} (e : installCopy a0 s = some t) : Keeps s0 t := by
  unfold installCopy at e
  split at e
  · cases e
  · cases e
    exact extendMeas_keeps (acceptPins_keeps h)

theorem installCopies_keeps {s0 s : State} {a0} (h : Keeps s0 s) {t} (e : installCopies a0 s = some t) : Keeps s0 t := by
  induction a0 generalizing s with
  | nil => cases e; exact h
  | cons p ps ih =>
    obtain ⟨u, hu, he⟩ := Option.bind_eq_some_iff.mp e
    exact ih (installCopy_keeps h hu) he

theorem joinRun_keeps {s0 s : State} {a0} (h : Keeps s0 s) : Keeps s0 (joinRun a0 s) := by
  unfold joinRun
  repeat' first
    | with_reducible assumption
    | with_reducible apply lockRegisters_keeps
    | with_reducible apply Keeps.ite
    | (lift_lets; intro x; refine Keeps.cut (s := s0) (x := x) ?_ ?_; rotate_left; intro hx; clear_value x; rotate_left; subst x)
    | (lift_lets; intro (x : Memory); subst x)
    | (lift_lets; intro (x : Flash); subst x)
    | (lift_lets; intro (x : State → State × Nat × Nat); subst x)
    | (lift_lets; intro (x : State → State); subst x)
    | (lift_lets; intro (x : State → State × Result); subst x)
    | (lift_lets; intro x; clear_value x)
    | dsimp only [Keeps]
    | split

theorem reinstateSelf_keeps {s0 s : State} {a0} (h : Keeps s0 s) : Keeps s0 (reinstateSelf a0 s) := by
  unfold reinstateSelf
  repeat' first
    | with_reducible assumption
    | (with_reducible refine installCopies_keeps ?_ (by with_reducible assumption))
    | with_reducible apply defineTensor_keeps
    | with_reducible apply joinRun_keeps
    | (with_reducible refine Keeps.foldl ?_ (fun t x h => ?_))
    | (with_reducible refine Keeps.foldlFst ?_ (fun t x h => ?_))
    | (with_reducible refine Keeps.foldlSnd ?_ (fun t x h => ?_))
    | with_reducible apply Keeps.ite
    | (lift_lets; intro x; refine Keeps.cut (s := s0) (x := x) ?_ ?_; rotate_left; intro hx; clear_value x; rotate_left; subst x)
    | (lift_lets; intro (x : Memory); subst x)
    | (lift_lets; intro (x : Flash); subst x)
    | (lift_lets; intro (x : State → State × Nat × Nat); subst x)
    | (lift_lets; intro (x : State → State); subst x)
    | (lift_lets; intro (x : State → State × Result); subst x)
    | (lift_lets; intro x; clear_value x)
    | dsimp only [Keeps]
    | split

theorem reinstateOther_keeps {s0 s : State} {a0} (h : Keeps s0 s) : Keeps s0 (reinstateOther a0 s) := by
  unfold reinstateOther
  repeat' first
    | with_reducible assumption
    | with_reducible apply sendHedge_keeps
    | with_reducible apply sendDefinition_keeps
    | (with_reducible refine Keeps.foldl ?_ (fun t x h => ?_))
    | (with_reducible refine Keeps.foldlFst ?_ (fun t x h => ?_))
    | (with_reducible refine Keeps.foldlSnd ?_ (fun t x h => ?_))
    | with_reducible apply Keeps.ite
    | (lift_lets; intro x; refine Keeps.cut (s := s0) (x := x) ?_ ?_; rotate_left; intro hx; clear_value x; rotate_left; subst x)
    | (lift_lets; intro (x : Memory); subst x)
    | (lift_lets; intro (x : Flash); subst x)
    | (lift_lets; intro (x : State → State × Nat × Nat); subst x)
    | (lift_lets; intro (x : State → State); subst x)
    | (lift_lets; intro (x : State → State × Result); subst x)
    | (lift_lets; intro x; clear_value x)
    | dsimp only [Keeps]
    | split

theorem reinstated_keeps {s0 s : State} {a0 a1} (h : Keeps s0 s) : Keeps s0 (reinstated a0 a1 s) := by
  unfold reinstated
  repeat' first
    | with_reducible assumption
    | with_reducible apply reinstateSelf_keeps
    | with_reducible apply reinstateOther_keeps
    | with_reducible apply Keeps.ite
    | dsimp only [Keeps]
    | split

theorem placeShard_keeps {s0 s : State} {a0} (h : Keeps s0 s) : Keeps s0 (placeShard a0 s) := by
  unfold placeShard
  repeat' first
    | with_reducible assumption
    | with_reducible apply writePoison_keeps
    | with_reducible apply ensureFrame_keeps
    | with_reducible apply setFallow_keeps
    | (with_reducible refine Keeps.foldl ?_ (fun t x h => ?_))
    | (with_reducible refine Keeps.foldlFst ?_ (fun t x h => ?_))
    | (with_reducible refine Keeps.foldlSnd ?_ (fun t x h => ?_))
    | with_reducible apply Keeps.ite
    | (lift_lets; intro x; refine Keeps.cut (s := s0) (x := x) ?_ ?_; rotate_left; intro hx; clear_value x; rotate_left; subst x)
    | (lift_lets; intro (x : Memory); subst x)
    | (lift_lets; intro (x : Flash); subst x)
    | (lift_lets; intro (x : State → State × Nat × Nat); subst x)
    | (lift_lets; intro (x : State → State); subst x)
    | (lift_lets; intro (x : State → State × Result); subst x)
    | (lift_lets; intro x; clear_value x)
    | with_reducible apply KeepsParts.tsetBytes
    | dsimp only [Keeps]
    | split

theorem replayedLogs_keeps {s0 s : State} {a0} (h : Keeps s0 s) : Keeps s0 (replayedLogs a0 s) := by
  unfold replayedLogs
  repeat' first
    | with_reducible assumption
    | with_reducible apply Keeps.ite
    | dsimp only [Keeps]
    | split

theorem restoredAt_keeps {s0 s : State} {a0 a1 a2 a3 a4} (h : Keeps s0 s) : Keeps s0 (restoredAt a0 a1 a2 a3 a4 s) := by
  unfold restoredAt
  repeat' first
    | with_reducible assumption
    | with_reducible apply rearmStones_keeps
    | with_reducible apply sendHedge_keeps
    | with_reducible apply takeRestored_keeps
    | with_reducible apply Keeps.ite
    | (lift_lets; intro x; refine Keeps.cut (s := s0) (x := x) ?_ ?_; rotate_left; intro hx; clear_value x; rotate_left; subst x)
    | (lift_lets; intro (x : Memory); subst x)
    | (lift_lets; intro (x : Flash); subst x)
    | (lift_lets; intro (x : State → State × Nat × Nat); subst x)
    | (lift_lets; intro (x : State → State); subst x)
    | (lift_lets; intro (x : State → State × Result); subst x)
    | (lift_lets; intro x; clear_value x)
    | dsimp only [Keeps]
    | split

theorem rebuildShard_keeps {s0 s : State} {a0 a1 a2 a3 a4 a5 a6 a7} (h : Keeps s0 s) : Keeps s0 (rebuildShard a0 a1 a2 a3 a4 a5 a6 a7 s) := by
  unfold rebuildShard
  repeat' first
    | with_reducible assumption
    | with_reducible apply restoredAt_keeps
    | with_reducible apply replayedLogs_keeps
    | with_reducible apply placeShard_keeps
    | with_reducible apply Keeps.ite
    | (lift_lets; intro x; refine Keeps.cut (s := s0) (x := x) ?_ ?_; rotate_left; intro hx; clear_value x; rotate_left; subst x)
    | (lift_lets; intro (x : Memory); subst x)
    | (lift_lets; intro (x : Flash); subst x)
    | (lift_lets; intro (x : State → State × Nat × Nat); subst x)
    | (lift_lets; intro (x : State → State); subst x)
    | (lift_lets; intro (x : State → State × Result); subst x)
    | (lift_lets; intro x; clear_value x)
    | rw [dropLayers_base]
    | dsimp only [Keeps]
    | split

theorem restoreStage_keeps {s0 s : State} {a0} (h : Keeps s0 s) : Keeps s0 (restoreStage a0 s) := by
  unfold restoreStage
  repeat' first
    | with_reducible assumption
    | with_reducible apply needRestoration_keeps
    | with_reducible apply reinstated_keeps
    | with_reducible apply rebuildShard_keeps
    | with_reducible apply Keeps.ite
    | dsimp only [Keeps]
    | split

theorem execShardRestoration_keeps {s0 s : State} {a0} (h : Keeps s0 s) {t} (e : execShardRestoration a0 s = .next t) : Keeps s0 t := by
  unfold execShardRestoration at e
  first
    | (replace e := Host.Outcome.next.inj e; subst e)
    | cases e
  repeat' first
    | with_reducible assumption
    | with_reducible apply advance_keeps
    | with_reducible apply restoreStage_keeps
    | with_reducible apply Keeps.ite
    | dsimp only [Keeps]
    | split

theorem execExportAckPoll_keeps {s0 s : State} {a0} (h : Keeps s0 s) {t} (e : execExportAckPoll a0 s = .next t) : Keeps s0 t := by
  unfold execExportAckPoll at e
  first
    | (replace e := Host.Outcome.next.inj e; subst e)
    | cases e
  repeat' first
    | with_reducible assumption
    | with_reducible apply advance_keeps
    | with_reducible apply emit_keeps
    | with_reducible apply acknowledged_keeps
    | with_reducible apply Keeps.ite
    | dsimp only [Keeps]
    | split

theorem execExportResend_keeps {s0 s : State} (h : Keeps s0 s) {t} (e : execExportResend s = .next t) : Keeps s0 t := by
  unfold execExportResend at e
  first
    | (replace e := Host.Outcome.next.inj e; subst e)
    | cases e
  repeat' first
    | with_reducible assumption
    | with_reducible apply resend_keeps
    | with_reducible apply Keeps.ite
    | dsimp only [Keeps]
    | split

theorem abandonEval_keeps {s0 s : State} (h : Keeps s0 s) : Keeps s0 (abandonEval s) := by
  unfold abandonEval
  repeat' first
    | with_reducible assumption
    | with_reducible apply discardRuns_keeps
    | with_reducible apply Keeps.ite
    | (lift_lets; intro x; refine Keeps.cut (s := s0) (x := x) ?_ ?_; rotate_left; intro hx; clear_value x; rotate_left; subst x)
    | (lift_lets; intro (x : Memory); subst x)
    | (lift_lets; intro (x : Flash); subst x)
    | (lift_lets; intro (x : State → State × Nat × Nat); subst x)
    | (lift_lets; intro (x : State → State); subst x)
    | (lift_lets; intro (x : State → State × Result); subst x)
    | (lift_lets; intro x; clear_value x)
    | dsimp only [Keeps]
    | split

theorem execEvalBudgetExpiry_keeps {s0 s : State} (h : Keeps s0 s) {t} (e : execEvalBudgetExpiry s = .next t) : Keeps s0 t := by
  unfold execEvalBudgetExpiry at e
  first
    | (replace e := Host.Outcome.next.inj e; subst e)
    | cases e
  repeat' first
    | with_reducible assumption
    | with_reducible apply advance_keeps
    | with_reducible apply abandonEval_keeps
    | with_reducible apply Keeps.ite
    | dsimp only [Keeps]
    | split

end Sys2Proof.Laws
end

