-- ==== Sys2Proof/Laws/Memory.lean ====
section
/-!
SUPPORT. What a read of one byte finds after the operations on memory.
-/
namespace Sys2Proof.Laws

open Sys2Proof Sys2Proof.Machine

/-! ### Touching a range -/

theorem ensureFrame_frame (p : Nat) (s : State) :
    (ensureFrame p s).mem.base = s.mem.base ∧ (ensureFrame p s).mem.layers = s.mem.layers ∧
      (ensureFrame p s).mem.poison = s.mem.poison ∧ { ensureFrame p s with mem := s.mem } = s := by
  unfold ensureFrame
  dsimp only
  split
  · exact ⟨rfl, rfl, rfl, rfl⟩
  · split
    · exact ⟨rfl, rfl, rfl, rfl⟩
    · split <;> exact ⟨rfl, rfl, rfl, rfl⟩

/-- A property that each step of a fold keeps holds after the fold. -/
theorem foldl_inv {α β : Type} {p : β → Prop} {g : β → α → β} (hg : ∀ u x, p u → p (g u x)) (l : List α) {s : β} (h : p s) :
    p (l.foldl g s) := by
  induction l generalizing s with
  | nil => exact h
  | cons x l ih => exact ih (hg s x h)

/-- What an access leaves alone: no byte, no version, no poison, nothing but memory and counters. -/
def Touched (s u : State) : Prop :=
  u.mem.base = s.mem.base ∧ u.mem.layers = s.mem.layers ∧ u.mem.poison = s.mem.poison ∧
    { u with mem := s.mem, counters.values := s.counters.values } = s

theorem Touched.ensureFrame {s u : State} (p : Nat) (h : Touched s u) : Touched s (ensureFrame p u) := by
  obtain ⟨a, b, c, d⟩ := ensureFrame_frame p u
  refine ⟨a.trans h.1, b.trans h.2.1, c.trans h.2.2.1, ?_⟩
  calc _ = { ({ Machine.ensureFrame p u with mem := u.mem } : State) with
      mem := s.mem, counters.values := s.counters.values } := rfl
    _ = _ := by rw [d]; exact h.2.2.2

theorem Touched.page {s u : State} (p : Nat) (e : PageEntry) (slot n : Nat) (far : Bool) (ls : List Nat) (h : Touched s u) :
    Touched s { count slot n (setPage p e u) with mem := answered far (pageRegion p) ls (count slot n (setPage p e u)).mem } :=
  h

theorem touch_frame (w : Bool) (off len : Nat) (s : State) : Touched s (touch w off len s) := by
  unfold touch
  refine foldl_inv (p := Touched s) (fun u p h => ?_) _ ⟨rfl, rfl, rfl, rfl⟩
  refine Touched.page _ _ _ _ _ _ ?_
  split
  · exact h.ensureFrame p
  · exact h

/-! ### Plain writes -/

theorem noteRewrite_frame (off len : Nat) (s : State) : { noteRewrite off len s with mem.health := s.mem.health } = s := rfl

theorem writePoison_frame (off len : Nat) (b : Bool) (s : State) :
    (writePoison off len b s).mem.base = s.mem.base ∧ (writePoison off len b s).mem.layers = s.mem.layers ∧
      { writePoison off len b s with mem := s.mem } = s := by
  unfold writePoison
  dsimp only
  split <;> exact ⟨rfl, rfl, rfl⟩

theorem cellAt_filter_out (cs : Cells) (p : Nat → Bool) (a : Nat) (h : p a = false) :
    cellAt (cs.filter fun c => !p c.1) a = cellAt cs a := by
  unfold cellAt
  congr 1
  induction cs with
  | nil => rfl
  | cons c cs ih =>
    rw [List.filter_cons]
    by_cases hc : c.1 = a
    · simp [hc, h]
    · by_cases hp : p c.1 = true
      · simp [hp, hc, ih]
      · simp [hp, hc, ih]

theorem cellAt_filter_in (cs : Cells) (p : Nat → Bool) (a : Nat) (h : p a = true) :
    cellAt (cs.filter fun c => !p c.1) a = none := by
  unfold cellAt
  induction cs with
  | nil => rfl
  | cons c cs ih =>
    rw [List.filter_cons]
    by_cases hc : c.1 = a
    · simp [hc, h]; simpa using ih
    · by_cases hp : p c.1 = true
      · simp [hp]; simpa using ih
      · simp [hp, hc]; simpa using ih

/-- Everything a plain write can do: its bytes, for every plain reader; no other byte, for any reader; nothing but memory and
counters. -/
theorem writeNow_spec (off : Nat) (bs : Bytes) (poison : Bool) (s : State) :
    (∀ i, i < bs.length →
      readByte (writeNow off bs poison s).mem s.run.head .plain (off + i) = bs.getD i 0) ∧
    (∀ r a, a < off ∨ off + bs.length ≤ a →
      readByte (writeNow off bs poison s).mem s.run.head r a = readByte s.mem s.run.head r a) ∧
    { writeNow off bs poison s with mem := s.mem, counters.values := s.counters.values } = s := by
  obtain ⟨pb, pl, pf⟩ := writePoison_frame off bs.length poison s
  obtain ⟨tb, tl, -, tf⟩ := touch_frame true off bs.length (writePoison off bs.length poison s)
  have hf : { writeNow off bs poison s with mem := s.mem, counters.values := s.counters.values } = s := by
    unfold writeNow
    dsimp only
    generalize touch true off bs.length (writePoison off bs.length poison s) = u at *
    generalize writePoison off bs.length poison s = v at *
    calc _ = { ({ ({ u with mem := v.mem, counters.values := v.counters.values } : State) with mem := s.mem } : State) with
        counters.values := s.counters.values } := rfl
      _ = _ := by rw [tf, pf]
  have hm : (writeNow off bs poison s).mem.base = tsetBytes s.mem.base off bs ∧
      (writeNow off bs poison s).mem.layers = s.mem.layers.map fun l =>
        if sees s.run.head .plain l.tag then
          { l with cells := l.cells.filter fun c => !(decide (off ≤ c.1) && decide (c.1 < off + bs.length)) }
        else l := by
    have hh : (touch true off bs.length (writePoison off bs.length poison s)).run.head = s.run.head := by
      have := congrArg (fun x : State => x.run.head) hf
      exact this
    unfold writeNow
    dsimp only
    rw [hh, tb, pb, tl, pl]
    exact ⟨rfl, rfl⟩
  refine ⟨?_, ?_, hf⟩
  · intro i hi
    unfold readByte
    rw [hm.1, hm.2]
    rw [tget_tsetBytes_same _ _ _ _ hi, show bs.getD i 0 = bs[i] by simp [hi]]
    have go : ∀ (ls : List Layer) (v : Byte), (ls.map fun l =>
        if sees s.run.head .plain l.tag then
          { l with cells := l.cells.filter fun c => !(decide (off ≤ c.1) && decide (c.1 < off + bs.length)) }
        else l).foldl (fun v l => if sees s.run.head .plain l.tag then (cellAt l.cells (off + i)).getD v else v) v = v := by
      intro ls
      induction ls with
      | nil => exact fun _ => rfl
      | cons l ls ih =>
        intro v
        rw [List.map_cons, List.foldl_cons]
        by_cases hs : sees s.run.head .plain l.tag = true
        · rw [if_pos hs]
          rw [if_pos hs]
          rw [cellAt_filter_in _ (fun a => decide (off ≤ a) && decide (a < off + bs.length)) _
            (by simp; omega)]
          exact ih v
        · rw [if_neg hs, if_neg hs]; exact ih v
    exact go _ _
  · intro r a ha
    unfold readByte
    rw [hm.1, hm.2, tget_tsetBytes_other _ _ ha]
    have go : ∀ (ls : List Layer) (v : Byte), (ls.map fun l =>
        if sees s.run.head .plain l.tag then
          { l with cells := l.cells.filter fun c => !(decide (off ≤ c.1) && decide (c.1 < off + bs.length)) }
        else l).foldl (fun v l => if sees s.run.head r l.tag then (cellAt l.cells a).getD v else v) v =
        ls.foldl (fun v l => if sees s.run.head r l.tag then (cellAt l.cells a).getD v else v) v := by
      intro ls
      induction ls with
      | nil => exact fun _ => rfl
      | cons l ls ih =>
        intro v
        rw [List.map_cons, List.foldl_cons, List.foldl_cons, ih]
        congr 1
        by_cases hs : sees s.run.head .plain l.tag = true
        · rw [if_pos hs]
          rw [cellAt_filter_out _ (fun a => decide (off ≤ a) && decide (a < off + bs.length)) _
            (by simp; omega)]
        · rw [if_neg hs]
    exact go _ _

end Sys2Proof.Laws
end

