-- ==== Sys2Proof/Laws/State.lean ====
section
/-!
SUPPORT. The named updates of the state: for each, every other field is what it was, and what the updated table is.
-/
namespace Sys2Proof.Laws

open Sys2Proof Sys2Proof.Machine

/-! ### setSub -/

@[simp] theorem setSub_flash (r : Nat) (f : SubRing → SubRing) (s : State) : (setSub r f s).flash = s.flash := rfl
@[simp] theorem setSub_security (r : Nat) (f : SubRing → SubRing) (s : State) : (setSub r f s).security = s.security := rfl
@[simp] theorem setSub_startup (r : Nat) (f : SubRing → SubRing) (s : State) : (setSub r f s).startup = s.startup := rfl
@[simp] theorem setSub_power (r : Nat) (f : SubRing → SubRing) (s : State) : (setSub r f s).power = s.power := rfl
@[simp] theorem setSub_run (r : Nat) (f : SubRing → SubRing) (s : State) : (setSub r f s).run = s.run := rfl
@[simp] theorem setSub_votes (r : Nat) (f : SubRing → SubRing) (s : State) : (setSub r f s).votes = s.votes := rfl
@[simp] theorem setSub_graph (r : Nat) (f : SubRing → SubRing) (s : State) : (setSub r f s).graph = s.graph := rfl
@[simp] theorem setSub_sched (r : Nat) (f : SubRing → SubRing) (s : State) : (setSub r f s).sched = s.sched := rfl
@[simp] theorem setSub_mem (r : Nat) (f : SubRing → SubRing) (s : State) : (setSub r f s).mem = s.mem := rfl
@[simp] theorem setSub_numerics (r : Nat) (f : SubRing → SubRing) (s : State) : (setSub r f s).numerics = s.numerics := rfl
@[simp] theorem setSub_harrows (r : Nat) (f : SubRing → SubRing) (s : State) : (setSub r f s).harrows = s.harrows := rfl
@[simp] theorem setSub_coll (r : Nat) (f : SubRing → SubRing) (s : State) : (setSub r f s).coll = s.coll := rfl
@[simp] theorem setSub_tmo (r : Nat) (f : SubRing → SubRing) (s : State) : (setSub r f s).tmo = s.tmo := rfl
@[simp] theorem setSub_tmoNext (r : Nat) (f : SubRing → SubRing) (s : State) : (setSub r f s).tmoNext = s.tmoNext := rfl
@[simp] theorem setSub_counters (r : Nat) (f : SubRing → SubRing) (s : State) : (setSub r f s).counters = s.counters := rfl
@[simp] theorem setSub_sheaf (r : Nat) (f : SubRing → SubRing) (s : State) : (setSub r f s).sheaf = s.sheaf := rfl
@[simp] theorem setSub_stones (r : Nat) (f : SubRing → SubRing) (s : State) : (setSub r f s).stones = s.stones := rfl
@[simp] theorem setSub_exporter (r : Nat) (f : SubRing → SubRing) (s : State) : (setSub r f s).exporter = s.exporter := rfl
@[simp] theorem setSub_fallow (r : Nat) (f : SubRing → SubRing) (s : State) : (setSub r f s).fallow = s.fallow := rfl
@[simp] theorem setSub_lamio (r : Nat) (f : SubRing → SubRing) (s : State) : (setSub r f s).lamio = s.lamio := rfl
@[simp] theorem setSub_holding (r : Nat) (f : SubRing → SubRing) (s : State) : (setSub r f s).holding = s.holding := rfl
@[simp] theorem setSub_clock (r : Nat) (f : SubRing → SubRing) (s : State) : (setSub r f s).clock = s.clock := rfl
@[simp] theorem setSub_vec (r : Nat) (f : SubRing → SubRing) (s : State) : (setSub r f s).vec = s.vec := rfl
@[simp] theorem setSub_out (r : Nat) (f : SubRing → SubRing) (s : State) : (setSub r f s).out = s.out := rfl
@[simp] theorem setSub_pending (r : Nat) (f : SubRing → SubRing) (s : State) : (setSub r f s).pending = s.pending := rfl
@[simp] theorem setSub_host_sub (r : Nat) (f : SubRing → SubRing) (s : State) :
    (setSub r f s).host.sub = tmod {} s.host.sub r f := rfl

/-! ### setCompl -/

@[simp] theorem setCompl_flash (c : Nat) (f : ComplRing → ComplRing) (s : State) : (setCompl c f s).flash = s.flash := rfl
@[simp] theorem setCompl_security (c : Nat) (f : ComplRing → ComplRing) (s : State) : (setCompl c f s).security = s.security := rfl
@[simp] theorem setCompl_startup (c : Nat) (f : ComplRing → ComplRing) (s : State) : (setCompl c f s).startup = s.startup := rfl
@[simp] theorem setCompl_power (c : Nat) (f : ComplRing → ComplRing) (s : State) : (setCompl c f s).power = s.power := rfl
@[simp] theorem setCompl_run (c : Nat) (f : ComplRing → ComplRing) (s : State) : (setCompl c f s).run = s.run := rfl
@[simp] theorem setCompl_votes (c : Nat) (f : ComplRing → ComplRing) (s : State) : (setCompl c f s).votes = s.votes := rfl
@[simp] theorem setCompl_graph (c : Nat) (f : ComplRing → ComplRing) (s : State) : (setCompl c f s).graph = s.graph := rfl
@[simp] theorem setCompl_sched (c : Nat) (f : ComplRing → ComplRing) (s : State) : (setCompl c f s).sched = s.sched := rfl
@[simp] theorem setCompl_mem (c : Nat) (f : ComplRing → ComplRing) (s : State) : (setCompl c f s).mem = s.mem := rfl
@[simp] theorem setCompl_numerics (c : Nat) (f : ComplRing → ComplRing) (s : State) : (setCompl c f s).numerics = s.numerics := rfl
@[simp] theorem setCompl_harrows (c : Nat) (f : ComplRing → ComplRing) (s : State) : (setCompl c f s).harrows = s.harrows := rfl
@[simp] theorem setCompl_coll (c : Nat) (f : ComplRing → ComplRing) (s : State) : (setCompl c f s).coll = s.coll := rfl
@[simp] theorem setCompl_tmo (c : Nat) (f : ComplRing → ComplRing) (s : State) : (setCompl c f s).tmo = s.tmo := rfl
@[simp] theorem setCompl_tmoNext (c : Nat) (f : ComplRing → ComplRing) (s : State) : (setCompl c f s).tmoNext = s.tmoNext := rfl
@[simp] theorem setCompl_counters (c : Nat) (f : ComplRing → ComplRing) (s : State) : (setCompl c f s).counters = s.counters := rfl
@[simp] theorem setCompl_sheaf (c : Nat) (f : ComplRing → ComplRing) (s : State) : (setCompl c f s).sheaf = s.sheaf := rfl
@[simp] theorem setCompl_stones (c : Nat) (f : ComplRing → ComplRing) (s : State) : (setCompl c f s).stones = s.stones := rfl
@[simp] theorem setCompl_exporter (c : Nat) (f : ComplRing → ComplRing) (s : State) : (setCompl c f s).exporter = s.exporter := rfl
@[simp] theorem setCompl_fallow (c : Nat) (f : ComplRing → ComplRing) (s : State) : (setCompl c f s).fallow = s.fallow := rfl
@[simp] theorem setCompl_lamio (c : Nat) (f : ComplRing → ComplRing) (s : State) : (setCompl c f s).lamio = s.lamio := rfl
@[simp] theorem setCompl_holding (c : Nat) (f : ComplRing → ComplRing) (s : State) : (setCompl c f s).holding = s.holding := rfl
@[simp] theorem setCompl_clock (c : Nat) (f : ComplRing → ComplRing) (s : State) : (setCompl c f s).clock = s.clock := rfl
@[simp] theorem setCompl_vec (c : Nat) (f : ComplRing → ComplRing) (s : State) : (setCompl c f s).vec = s.vec := rfl
@[simp] theorem setCompl_out (c : Nat) (f : ComplRing → ComplRing) (s : State) : (setCompl c f s).out = s.out := rfl
@[simp] theorem setCompl_pending (c : Nat) (f : ComplRing → ComplRing) (s : State) : (setCompl c f s).pending = s.pending := rfl
@[simp] theorem setCompl_host_compl (c : Nat) (f : ComplRing → ComplRing) (s : State) :
    (setCompl c f s).host.compl = tmod {} s.host.compl c f := rfl

/-! ### setPage -/

@[simp] theorem setPage_flash (p : Nat) (e : PageEntry) (s : State) : (setPage p e s).flash = s.flash := rfl
@[simp] theorem setPage_security (p : Nat) (e : PageEntry) (s : State) : (setPage p e s).security = s.security := rfl
@[simp] theorem setPage_startup (p : Nat) (e : PageEntry) (s : State) : (setPage p e s).startup = s.startup := rfl
@[simp] theorem setPage_power (p : Nat) (e : PageEntry) (s : State) : (setPage p e s).power = s.power := rfl
@[simp] theorem setPage_host (p : Nat) (e : PageEntry) (s : State) : (setPage p e s).host = s.host := rfl
@[simp] theorem setPage_run (p : Nat) (e : PageEntry) (s : State) : (setPage p e s).run = s.run := rfl
@[simp] theorem setPage_votes (p : Nat) (e : PageEntry) (s : State) : (setPage p e s).votes = s.votes := rfl
@[simp] theorem setPage_graph (p : Nat) (e : PageEntry) (s : State) : (setPage p e s).graph = s.graph := rfl
@[simp] theorem setPage_sched (p : Nat) (e : PageEntry) (s : State) : (setPage p e s).sched = s.sched := rfl
@[simp] theorem setPage_numerics (p : Nat) (e : PageEntry) (s : State) : (setPage p e s).numerics = s.numerics := rfl
@[simp] theorem setPage_harrows (p : Nat) (e : PageEntry) (s : State) : (setPage p e s).harrows = s.harrows := rfl
@[simp] theorem setPage_coll (p : Nat) (e : PageEntry) (s : State) : (setPage p e s).coll = s.coll := rfl
@[simp] theorem setPage_tmo (p : Nat) (e : PageEntry) (s : State) : (setPage p e s).tmo = s.tmo := rfl
@[simp] theorem setPage_tmoNext (p : Nat) (e : PageEntry) (s : State) : (setPage p e s).tmoNext = s.tmoNext := rfl
@[simp] theorem setPage_counters (p : Nat) (e : PageEntry) (s : State) : (setPage p e s).counters = s.counters := rfl
@[simp] theorem setPage_sheaf (p : Nat) (e : PageEntry) (s : State) : (setPage p e s).sheaf = s.sheaf := rfl
@[simp] theorem setPage_stones (p : Nat) (e : PageEntry) (s : State) : (setPage p e s).stones = s.stones := rfl
@[simp] theorem setPage_exporter (p : Nat) (e : PageEntry) (s : State) : (setPage p e s).exporter = s.exporter := rfl
@[simp] theorem setPage_fallow (p : Nat) (e : PageEntry) (s : State) : (setPage p e s).fallow = s.fallow := rfl
@[simp] theorem setPage_lamio (p : Nat) (e : PageEntry) (s : State) : (setPage p e s).lamio = s.lamio := rfl
@[simp] theorem setPage_holding (p : Nat) (e : PageEntry) (s : State) : (setPage p e s).holding = s.holding := rfl
@[simp] theorem setPage_clock (p : Nat) (e : PageEntry) (s : State) : (setPage p e s).clock = s.clock := rfl
@[simp] theorem setPage_vec (p : Nat) (e : PageEntry) (s : State) : (setPage p e s).vec = s.vec := rfl
@[simp] theorem setPage_out (p : Nat) (e : PageEntry) (s : State) : (setPage p e s).out = s.out := rfl
@[simp] theorem setPage_pending (p : Nat) (e : PageEntry) (s : State) : (setPage p e s).pending = s.pending := rfl
@[simp] theorem setPage_mem_pages (p : Nat) (e : PageEntry) (s : State) :
    (setPage p e s).mem.pages = tset {} s.mem.pages p e := rfl

/-! ### setHealth -/

@[simp] theorem setHealth_flash (h : FrameHealth) (s : State) : (setHealth h s).flash = s.flash := rfl
@[simp] theorem setHealth_security (h : FrameHealth) (s : State) : (setHealth h s).security = s.security := rfl
@[simp] theorem setHealth_startup (h : FrameHealth) (s : State) : (setHealth h s).startup = s.startup := rfl
@[simp] theorem setHealth_power (h : FrameHealth) (s : State) : (setHealth h s).power = s.power := rfl
@[simp] theorem setHealth_host (h : FrameHealth) (s : State) : (setHealth h s).host = s.host := rfl
@[simp] theorem setHealth_run (h : FrameHealth) (s : State) : (setHealth h s).run = s.run := rfl
@[simp] theorem setHealth_votes (h : FrameHealth) (s : State) : (setHealth h s).votes = s.votes := rfl
@[simp] theorem setHealth_graph (h : FrameHealth) (s : State) : (setHealth h s).graph = s.graph := rfl
@[simp] theorem setHealth_sched (h : FrameHealth) (s : State) : (setHealth h s).sched = s.sched := rfl
@[simp] theorem setHealth_numerics (h : FrameHealth) (s : State) : (setHealth h s).numerics = s.numerics := rfl
@[simp] theorem setHealth_harrows (h : FrameHealth) (s : State) : (setHealth h s).harrows = s.harrows := rfl
@[simp] theorem setHealth_coll (h : FrameHealth) (s : State) : (setHealth h s).coll = s.coll := rfl
@[simp] theorem setHealth_tmo (h : FrameHealth) (s : State) : (setHealth h s).tmo = s.tmo := rfl
@[simp] theorem setHealth_tmoNext (h : FrameHealth) (s : State) : (setHealth h s).tmoNext = s.tmoNext := rfl
@[simp] theorem setHealth_counters (h : FrameHealth) (s : State) : (setHealth h s).counters = s.counters := rfl
@[simp] theorem setHealth_sheaf (h : FrameHealth) (s : State) : (setHealth h s).sheaf = s.sheaf := rfl
@[simp] theorem setHealth_stones (h : FrameHealth) (s : State) : (setHealth h s).stones = s.stones := rfl
@[simp] theorem setHealth_exporter (h : FrameHealth) (s : State) : (setHealth h s).exporter = s.exporter := rfl
@[simp] theorem setHealth_fallow (h : FrameHealth) (s : State) : (setHealth h s).fallow = s.fallow := rfl
@[simp] theorem setHealth_lamio (h : FrameHealth) (s : State) : (setHealth h s).lamio = s.lamio := rfl
@[simp] theorem setHealth_holding (h : FrameHealth) (s : State) : (setHealth h s).holding = s.holding := rfl
@[simp] theorem setHealth_clock (h : FrameHealth) (s : State) : (setHealth h s).clock = s.clock := rfl
@[simp] theorem setHealth_vec (h : FrameHealth) (s : State) : (setHealth h s).vec = s.vec := rfl
@[simp] theorem setHealth_out (h : FrameHealth) (s : State) : (setHealth h s).out = s.out := rfl
@[simp] theorem setHealth_pending (h : FrameHealth) (s : State) : (setHealth h s).pending = s.pending := rfl

/-! ### setPort -/

@[simp] theorem setPort_flash (p : Nat) (f : Port → Port) (s : State) : (setPort p f s).flash = s.flash := rfl
@[simp] theorem setPort_security (p : Nat) (f : Port → Port) (s : State) : (setPort p f s).security = s.security := rfl
@[simp] theorem setPort_startup (p : Nat) (f : Port → Port) (s : State) : (setPort p f s).startup = s.startup := rfl
@[simp] theorem setPort_power (p : Nat) (f : Port → Port) (s : State) : (setPort p f s).power = s.power := rfl
@[simp] theorem setPort_host (p : Nat) (f : Port → Port) (s : State) : (setPort p f s).host = s.host := rfl
@[simp] theorem setPort_run (p : Nat) (f : Port → Port) (s : State) : (setPort p f s).run = s.run := rfl
@[simp] theorem setPort_votes (p : Nat) (f : Port → Port) (s : State) : (setPort p f s).votes = s.votes := rfl
@[simp] theorem setPort_graph (p : Nat) (f : Port → Port) (s : State) : (setPort p f s).graph = s.graph := rfl
@[simp] theorem setPort_sched (p : Nat) (f : Port → Port) (s : State) : (setPort p f s).sched = s.sched := rfl
@[simp] theorem setPort_mem (p : Nat) (f : Port → Port) (s : State) : (setPort p f s).mem = s.mem := rfl
@[simp] theorem setPort_numerics (p : Nat) (f : Port → Port) (s : State) : (setPort p f s).numerics = s.numerics := rfl
@[simp] theorem setPort_harrows (p : Nat) (f : Port → Port) (s : State) : (setPort p f s).harrows = s.harrows := rfl
@[simp] theorem setPort_coll (p : Nat) (f : Port → Port) (s : State) : (setPort p f s).coll = s.coll := rfl
@[simp] theorem setPort_tmo (p : Nat) (f : Port → Port) (s : State) : (setPort p f s).tmo = s.tmo := rfl
@[simp] theorem setPort_tmoNext (p : Nat) (f : Port → Port) (s : State) : (setPort p f s).tmoNext = s.tmoNext := rfl
@[simp] theorem setPort_counters (p : Nat) (f : Port → Port) (s : State) : (setPort p f s).counters = s.counters := rfl
@[simp] theorem setPort_sheaf (p : Nat) (f : Port → Port) (s : State) : (setPort p f s).sheaf = s.sheaf := rfl
@[simp] theorem setPort_stones (p : Nat) (f : Port → Port) (s : State) : (setPort p f s).stones = s.stones := rfl
@[simp] theorem setPort_exporter (p : Nat) (f : Port → Port) (s : State) : (setPort p f s).exporter = s.exporter := rfl
@[simp] theorem setPort_fallow (p : Nat) (f : Port → Port) (s : State) : (setPort p f s).fallow = s.fallow := rfl
@[simp] theorem setPort_holding (p : Nat) (f : Port → Port) (s : State) : (setPort p f s).holding = s.holding := rfl
@[simp] theorem setPort_clock (p : Nat) (f : Port → Port) (s : State) : (setPort p f s).clock = s.clock := rfl
@[simp] theorem setPort_vec (p : Nat) (f : Port → Port) (s : State) : (setPort p f s).vec = s.vec := rfl
@[simp] theorem setPort_out (p : Nat) (f : Port → Port) (s : State) : (setPort p f s).out = s.out := rfl
@[simp] theorem setPort_pending (p : Nat) (f : Port → Port) (s : State) : (setPort p f s).pending = s.pending := rfl
@[simp] theorem setPort_lamio_ports (p : Nat) (f : Port → Port) (s : State) :
    (setPort p f s).lamio.ports = tmod {} s.lamio.ports p f := rfl

/-! ### setTask -/

@[simp] theorem setTask_flash (step : Nat) (task : W32) (f : TaskInst → TaskInst) (s : State) : (setTask step task f s).flash = s.flash := rfl
@[simp] theorem setTask_security (step : Nat) (task : W32) (f : TaskInst → TaskInst) (s : State) : (setTask step task f s).security = s.security := rfl
@[simp] theorem setTask_startup (step : Nat) (task : W32) (f : TaskInst → TaskInst) (s : State) : (setTask step task f s).startup = s.startup := rfl
@[simp] theorem setTask_power (step : Nat) (task : W32) (f : TaskInst → TaskInst) (s : State) : (setTask step task f s).power = s.power := rfl
@[simp] theorem setTask_host (step : Nat) (task : W32) (f : TaskInst → TaskInst) (s : State) : (setTask step task f s).host = s.host := rfl
@[simp] theorem setTask_run (step : Nat) (task : W32) (f : TaskInst → TaskInst) (s : State) : (setTask step task f s).run = s.run := rfl
@[simp] theorem setTask_votes (step : Nat) (task : W32) (f : TaskInst → TaskInst) (s : State) : (setTask step task f s).votes = s.votes := rfl
@[simp] theorem setTask_graph (step : Nat) (task : W32) (f : TaskInst → TaskInst) (s : State) : (setTask step task f s).graph = s.graph := rfl
@[simp] theorem setTask_mem (step : Nat) (task : W32) (f : TaskInst → TaskInst) (s : State) : (setTask step task f s).mem = s.mem := rfl
@[simp] theorem setTask_numerics (step : Nat) (task : W32) (f : TaskInst → TaskInst) (s : State) : (setTask step task f s).numerics = s.numerics := rfl
@[simp] theorem setTask_harrows (step : Nat) (task : W32) (f : TaskInst → TaskInst) (s : State) : (setTask step task f s).harrows = s.harrows := rfl
@[simp] theorem setTask_coll (step : Nat) (task : W32) (f : TaskInst → TaskInst) (s : State) : (setTask step task f s).coll = s.coll := rfl
@[simp] theorem setTask_tmo (step : Nat) (task : W32) (f : TaskInst → TaskInst) (s : State) : (setTask step task f s).tmo = s.tmo := rfl
@[simp] theorem setTask_tmoNext (step : Nat) (task : W32) (f : TaskInst → TaskInst) (s : State) : (setTask step task f s).tmoNext = s.tmoNext := rfl
@[simp] theorem setTask_counters (step : Nat) (task : W32) (f : TaskInst → TaskInst) (s : State) : (setTask step task f s).counters = s.counters := rfl
@[simp] theorem setTask_sheaf (step : Nat) (task : W32) (f : TaskInst → TaskInst) (s : State) : (setTask step task f s).sheaf = s.sheaf := rfl
@[simp] theorem setTask_stones (step : Nat) (task : W32) (f : TaskInst → TaskInst) (s : State) : (setTask step task f s).stones = s.stones := rfl
@[simp] theorem setTask_exporter (step : Nat) (task : W32) (f : TaskInst → TaskInst) (s : State) : (setTask step task f s).exporter = s.exporter := rfl
@[simp] theorem setTask_fallow (step : Nat) (task : W32) (f : TaskInst → TaskInst) (s : State) : (setTask step task f s).fallow = s.fallow := rfl
@[simp] theorem setTask_lamio (step : Nat) (task : W32) (f : TaskInst → TaskInst) (s : State) : (setTask step task f s).lamio = s.lamio := rfl
@[simp] theorem setTask_holding (step : Nat) (task : W32) (f : TaskInst → TaskInst) (s : State) : (setTask step task f s).holding = s.holding := rfl
@[simp] theorem setTask_clock (step : Nat) (task : W32) (f : TaskInst → TaskInst) (s : State) : (setTask step task f s).clock = s.clock := rfl
@[simp] theorem setTask_vec (step : Nat) (task : W32) (f : TaskInst → TaskInst) (s : State) : (setTask step task f s).vec = s.vec := rfl
@[simp] theorem setTask_out (step : Nat) (task : W32) (f : TaskInst → TaskInst) (s : State) : (setTask step task f s).out = s.out := rfl
@[simp] theorem setTask_pending (step : Nat) (task : W32) (f : TaskInst → TaskInst) (s : State) : (setTask step task f s).pending = s.pending := rfl
@[simp] theorem setTask_sched_tasks (step : Nat) (task : W32) (f : TaskInst → TaskInst) (s : State) :
    (setTask step task f s).sched.tasks = mapFirst (sameRun step task) f s.sched.tasks := rfl

/-! ### setColl -/

@[simp] theorem setColl_flash (c : CollInst) (s : State) : (setColl c s).flash = s.flash := rfl
@[simp] theorem setColl_security (c : CollInst) (s : State) : (setColl c s).security = s.security := rfl
@[simp] theorem setColl_startup (c : CollInst) (s : State) : (setColl c s).startup = s.startup := rfl
@[simp] theorem setColl_power (c : CollInst) (s : State) : (setColl c s).power = s.power := rfl
@[simp] theorem setColl_host (c : CollInst) (s : State) : (setColl c s).host = s.host := rfl
@[simp] theorem setColl_run (c : CollInst) (s : State) : (setColl c s).run = s.run := rfl
@[simp] theorem setColl_votes (c : CollInst) (s : State) : (setColl c s).votes = s.votes := rfl
@[simp] theorem setColl_graph (c : CollInst) (s : State) : (setColl c s).graph = s.graph := rfl
@[simp] theorem setColl_sched (c : CollInst) (s : State) : (setColl c s).sched = s.sched := rfl
@[simp] theorem setColl_mem (c : CollInst) (s : State) : (setColl c s).mem = s.mem := rfl
@[simp] theorem setColl_numerics (c : CollInst) (s : State) : (setColl c s).numerics = s.numerics := rfl
@[simp] theorem setColl_harrows (c : CollInst) (s : State) : (setColl c s).harrows = s.harrows := rfl
@[simp] theorem setColl_tmo (c : CollInst) (s : State) : (setColl c s).tmo = s.tmo := rfl
@[simp] theorem setColl_tmoNext (c : CollInst) (s : State) : (setColl c s).tmoNext = s.tmoNext := rfl
@[simp] theorem setColl_counters (c : CollInst) (s : State) : (setColl c s).counters = s.counters := rfl
@[simp] theorem setColl_sheaf (c : CollInst) (s : State) : (setColl c s).sheaf = s.sheaf := rfl
@[simp] theorem setColl_stones (c : CollInst) (s : State) : (setColl c s).stones = s.stones := rfl
@[simp] theorem setColl_exporter (c : CollInst) (s : State) : (setColl c s).exporter = s.exporter := rfl
@[simp] theorem setColl_fallow (c : CollInst) (s : State) : (setColl c s).fallow = s.fallow := rfl
@[simp] theorem setColl_lamio (c : CollInst) (s : State) : (setColl c s).lamio = s.lamio := rfl
@[simp] theorem setColl_holding (c : CollInst) (s : State) : (setColl c s).holding = s.holding := rfl
@[simp] theorem setColl_clock (c : CollInst) (s : State) : (setColl c s).clock = s.clock := rfl
@[simp] theorem setColl_vec (c : CollInst) (s : State) : (setColl c s).vec = s.vec := rfl
@[simp] theorem setColl_out (c : CollInst) (s : State) : (setColl c s).out = s.out := rfl
@[simp] theorem setColl_pending (c : CollInst) (s : State) : (setColl c s).pending = s.pending := rfl
@[simp] theorem setColl_coll_live (c : CollInst) (s : State) :
    (setColl c s).coll.live = mapFirst (sameColl c) (fun _ => c) s.coll.live := rfl

/-! ### setBlock -/

@[simp] theorem setBlock_flash (k : SolveKey) (f : BlockSolve → BlockSolve) (s : State) : (setBlock k f s).flash = s.flash := rfl
@[simp] theorem setBlock_security (k : SolveKey) (f : BlockSolve → BlockSolve) (s : State) : (setBlock k f s).security = s.security := rfl
@[simp] theorem setBlock_startup (k : SolveKey) (f : BlockSolve → BlockSolve) (s : State) : (setBlock k f s).startup = s.startup := rfl
@[simp] theorem setBlock_power (k : SolveKey) (f : BlockSolve → BlockSolve) (s : State) : (setBlock k f s).power = s.power := rfl
@[simp] theorem setBlock_host (k : SolveKey) (f : BlockSolve → BlockSolve) (s : State) : (setBlock k f s).host = s.host := rfl
@[simp] theorem setBlock_run (k : SolveKey) (f : BlockSolve → BlockSolve) (s : State) : (setBlock k f s).run = s.run := rfl
@[simp] theorem setBlock_votes (k : SolveKey) (f : BlockSolve → BlockSolve) (s : State) : (setBlock k f s).votes = s.votes := rfl
@[simp] theorem setBlock_graph (k : SolveKey) (f : BlockSolve → BlockSolve) (s : State) : (setBlock k f s).graph = s.graph := rfl
@[simp] theorem setBlock_sched (k : SolveKey) (f : BlockSolve → BlockSolve) (s : State) : (setBlock k f s).sched = s.sched := rfl
@[simp] theorem setBlock_mem (k : SolveKey) (f : BlockSolve → BlockSolve) (s : State) : (setBlock k f s).mem = s.mem := rfl
@[simp] theorem setBlock_numerics (k : SolveKey) (f : BlockSolve → BlockSolve) (s : State) : (setBlock k f s).numerics = s.numerics := rfl
@[simp] theorem setBlock_coll (k : SolveKey) (f : BlockSolve → BlockSolve) (s : State) : (setBlock k f s).coll = s.coll := rfl
@[simp] theorem setBlock_tmo (k : SolveKey) (f : BlockSolve → BlockSolve) (s : State) : (setBlock k f s).tmo = s.tmo := rfl
@[simp] theorem setBlock_tmoNext (k : SolveKey) (f : BlockSolve → BlockSolve) (s : State) : (setBlock k f s).tmoNext = s.tmoNext := rfl
@[simp] theorem setBlock_counters (k : SolveKey) (f : BlockSolve → BlockSolve) (s : State) : (setBlock k f s).counters = s.counters := rfl
@[simp] theorem setBlock_sheaf (k : SolveKey) (f : BlockSolve → BlockSolve) (s : State) : (setBlock k f s).sheaf = s.sheaf := rfl
@[simp] theorem setBlock_stones (k : SolveKey) (f : BlockSolve → BlockSolve) (s : State) : (setBlock k f s).stones = s.stones := rfl
@[simp] theorem setBlock_exporter (k : SolveKey) (f : BlockSolve → BlockSolve) (s : State) : (setBlock k f s).exporter = s.exporter := rfl
@[simp] theorem setBlock_fallow (k : SolveKey) (f : BlockSolve → BlockSolve) (s : State) : (setBlock k f s).fallow = s.fallow := rfl
@[simp] theorem setBlock_lamio (k : SolveKey) (f : BlockSolve → BlockSolve) (s : State) : (setBlock k f s).lamio = s.lamio := rfl
@[simp] theorem setBlock_holding (k : SolveKey) (f : BlockSolve → BlockSolve) (s : State) : (setBlock k f s).holding = s.holding := rfl
@[simp] theorem setBlock_clock (k : SolveKey) (f : BlockSolve → BlockSolve) (s : State) : (setBlock k f s).clock = s.clock := rfl
@[simp] theorem setBlock_vec (k : SolveKey) (f : BlockSolve → BlockSolve) (s : State) : (setBlock k f s).vec = s.vec := rfl
@[simp] theorem setBlock_out (k : SolveKey) (f : BlockSolve → BlockSolve) (s : State) : (setBlock k f s).out = s.out := rfl
@[simp] theorem setBlock_pending (k : SolveKey) (f : BlockSolve → BlockSolve) (s : State) : (setBlock k f s).pending = s.pending := rfl
@[simp] theorem setBlock_harrows_blocks (k : SolveKey) (f : BlockSolve → BlockSolve) (s : State) :
    (setBlock k f s).harrows.blocks = mapFirst (fun b => b.key == k) f s.harrows.blocks := rfl

/-! ### setFallow -/

@[simp] theorem setFallow_flash (q : FallowQueue) (s : State) : (setFallow q s).flash = s.flash := rfl
@[simp] theorem setFallow_security (q : FallowQueue) (s : State) : (setFallow q s).security = s.security := rfl
@[simp] theorem setFallow_startup (q : FallowQueue) (s : State) : (setFallow q s).startup = s.startup := rfl
@[simp] theorem setFallow_power (q : FallowQueue) (s : State) : (setFallow q s).power = s.power := rfl
@[simp] theorem setFallow_host (q : FallowQueue) (s : State) : (setFallow q s).host = s.host := rfl
@[simp] theorem setFallow_run (q : FallowQueue) (s : State) : (setFallow q s).run = s.run := rfl
@[simp] theorem setFallow_votes (q : FallowQueue) (s : State) : (setFallow q s).votes = s.votes := rfl
@[simp] theorem setFallow_graph (q : FallowQueue) (s : State) : (setFallow q s).graph = s.graph := rfl
@[simp] theorem setFallow_sched (q : FallowQueue) (s : State) : (setFallow q s).sched = s.sched := rfl
@[simp] theorem setFallow_mem (q : FallowQueue) (s : State) : (setFallow q s).mem = s.mem := rfl
@[simp] theorem setFallow_numerics (q : FallowQueue) (s : State) : (setFallow q s).numerics = s.numerics := rfl
@[simp] theorem setFallow_harrows (q : FallowQueue) (s : State) : (setFallow q s).harrows = s.harrows := rfl
@[simp] theorem setFallow_coll (q : FallowQueue) (s : State) : (setFallow q s).coll = s.coll := rfl
@[simp] theorem setFallow_tmo (q : FallowQueue) (s : State) : (setFallow q s).tmo = s.tmo := rfl
@[simp] theorem setFallow_tmoNext (q : FallowQueue) (s : State) : (setFallow q s).tmoNext = s.tmoNext := rfl
@[simp] theorem setFallow_counters (q : FallowQueue) (s : State) : (setFallow q s).counters = s.counters := rfl
@[simp] theorem setFallow_sheaf (q : FallowQueue) (s : State) : (setFallow q s).sheaf = s.sheaf := rfl
@[simp] theorem setFallow_stones (q : FallowQueue) (s : State) : (setFallow q s).stones = s.stones := rfl
@[simp] theorem setFallow_exporter (q : FallowQueue) (s : State) : (setFallow q s).exporter = s.exporter := rfl
@[simp] theorem setFallow_lamio (q : FallowQueue) (s : State) : (setFallow q s).lamio = s.lamio := rfl
@[simp] theorem setFallow_holding (q : FallowQueue) (s : State) : (setFallow q s).holding = s.holding := rfl
@[simp] theorem setFallow_clock (q : FallowQueue) (s : State) : (setFallow q s).clock = s.clock := rfl
@[simp] theorem setFallow_vec (q : FallowQueue) (s : State) : (setFallow q s).vec = s.vec := rfl
@[simp] theorem setFallow_out (q : FallowQueue) (s : State) : (setFallow q s).out = s.out := rfl
@[simp] theorem setFallow_pending (q : FallowQueue) (s : State) : (setFallow q s).pending = s.pending := rfl

/-! ### setVec -/

@[simp] theorem setVec_flash (core : Nat) (c : VecCtx) (s : State) : (setVec core c s).flash = s.flash := rfl
@[simp] theorem setVec_security (core : Nat) (c : VecCtx) (s : State) : (setVec core c s).security = s.security := rfl
@[simp] theorem setVec_startup (core : Nat) (c : VecCtx) (s : State) : (setVec core c s).startup = s.startup := rfl
@[simp] theorem setVec_power (core : Nat) (c : VecCtx) (s : State) : (setVec core c s).power = s.power := rfl
@[simp] theorem setVec_host (core : Nat) (c : VecCtx) (s : State) : (setVec core c s).host = s.host := rfl
@[simp] theorem setVec_run (core : Nat) (c : VecCtx) (s : State) : (setVec core c s).run = s.run := rfl
@[simp] theorem setVec_votes (core : Nat) (c : VecCtx) (s : State) : (setVec core c s).votes = s.votes := rfl
@[simp] theorem setVec_graph (core : Nat) (c : VecCtx) (s : State) : (setVec core c s).graph = s.graph := rfl
@[simp] theorem setVec_sched (core : Nat) (c : VecCtx) (s : State) : (setVec core c s).sched = s.sched := rfl
@[simp] theorem setVec_mem (core : Nat) (c : VecCtx) (s : State) : (setVec core c s).mem = s.mem := rfl
@[simp] theorem setVec_numerics (core : Nat) (c : VecCtx) (s : State) : (setVec core c s).numerics = s.numerics := rfl
@[simp] theorem setVec_harrows (core : Nat) (c : VecCtx) (s : State) : (setVec core c s).harrows = s.harrows := rfl
@[simp] theorem setVec_coll (core : Nat) (c : VecCtx) (s : State) : (setVec core c s).coll = s.coll := rfl
@[simp] theorem setVec_tmo (core : Nat) (c : VecCtx) (s : State) : (setVec core c s).tmo = s.tmo := rfl
@[simp] theorem setVec_tmoNext (core : Nat) (c : VecCtx) (s : State) : (setVec core c s).tmoNext = s.tmoNext := rfl
@[simp] theorem setVec_counters (core : Nat) (c : VecCtx) (s : State) : (setVec core c s).counters = s.counters := rfl
@[simp] theorem setVec_sheaf (core : Nat) (c : VecCtx) (s : State) : (setVec core c s).sheaf = s.sheaf := rfl
@[simp] theorem setVec_stones (core : Nat) (c : VecCtx) (s : State) : (setVec core c s).stones = s.stones := rfl
@[simp] theorem setVec_exporter (core : Nat) (c : VecCtx) (s : State) : (setVec core c s).exporter = s.exporter := rfl
@[simp] theorem setVec_fallow (core : Nat) (c : VecCtx) (s : State) : (setVec core c s).fallow = s.fallow := rfl
@[simp] theorem setVec_lamio (core : Nat) (c : VecCtx) (s : State) : (setVec core c s).lamio = s.lamio := rfl
@[simp] theorem setVec_holding (core : Nat) (c : VecCtx) (s : State) : (setVec core c s).holding = s.holding := rfl
@[simp] theorem setVec_clock (core : Nat) (c : VecCtx) (s : State) : (setVec core c s).clock = s.clock := rfl
@[simp] theorem setVec_out (core : Nat) (c : VecCtx) (s : State) : (setVec core c s).out = s.out := rfl
@[simp] theorem setVec_pending (core : Nat) (c : VecCtx) (s : State) : (setVec core c s).pending = s.pending := rfl
@[simp] theorem setVec_vec (core : Nat) (c : VecCtx) (s : State) :
    (setVec core c s).vec = tset {} s.vec core c := rfl

/-! ### countAs -/

@[simp] theorem countAs_flash (slot status n : Nat) (s : State) : (countAs slot status n s).flash = s.flash := rfl
@[simp] theorem countAs_security (slot status n : Nat) (s : State) : (countAs slot status n s).security = s.security := rfl
@[simp] theorem countAs_startup (slot status n : Nat) (s : State) : (countAs slot status n s).startup = s.startup := rfl
@[simp] theorem countAs_power (slot status n : Nat) (s : State) : (countAs slot status n s).power = s.power := rfl
@[simp] theorem countAs_host (slot status n : Nat) (s : State) : (countAs slot status n s).host = s.host := rfl
@[simp] theorem countAs_run (slot status n : Nat) (s : State) : (countAs slot status n s).run = s.run := rfl
@[simp] theorem countAs_votes (slot status n : Nat) (s : State) : (countAs slot status n s).votes = s.votes := rfl
@[simp] theorem countAs_graph (slot status n : Nat) (s : State) : (countAs slot status n s).graph = s.graph := rfl
@[simp] theorem countAs_sched (slot status n : Nat) (s : State) : (countAs slot status n s).sched = s.sched := rfl
@[simp] theorem countAs_mem (slot status n : Nat) (s : State) : (countAs slot status n s).mem = s.mem := rfl
@[simp] theorem countAs_numerics (slot status n : Nat) (s : State) : (countAs slot status n s).numerics = s.numerics := rfl
@[simp] theorem countAs_harrows (slot status n : Nat) (s : State) : (countAs slot status n s).harrows = s.harrows := rfl
@[simp] theorem countAs_coll (slot status n : Nat) (s : State) : (countAs slot status n s).coll = s.coll := rfl
@[simp] theorem countAs_tmo (slot status n : Nat) (s : State) : (countAs slot status n s).tmo = s.tmo := rfl
@[simp] theorem countAs_tmoNext (slot status n : Nat) (s : State) : (countAs slot status n s).tmoNext = s.tmoNext := rfl
@[simp] theorem countAs_sheaf (slot status n : Nat) (s : State) : (countAs slot status n s).sheaf = s.sheaf := rfl
@[simp] theorem countAs_stones (slot status n : Nat) (s : State) : (countAs slot status n s).stones = s.stones := rfl
@[simp] theorem countAs_exporter (slot status n : Nat) (s : State) : (countAs slot status n s).exporter = s.exporter := rfl
@[simp] theorem countAs_fallow (slot status n : Nat) (s : State) : (countAs slot status n s).fallow = s.fallow := rfl
@[simp] theorem countAs_lamio (slot status n : Nat) (s : State) : (countAs slot status n s).lamio = s.lamio := rfl
@[simp] theorem countAs_holding (slot status n : Nat) (s : State) : (countAs slot status n s).holding = s.holding := rfl
@[simp] theorem countAs_clock (slot status n : Nat) (s : State) : (countAs slot status n s).clock = s.clock := rfl
@[simp] theorem countAs_vec (slot status n : Nat) (s : State) : (countAs slot status n s).vec = s.vec := rfl
@[simp] theorem countAs_out (slot status n : Nat) (s : State) : (countAs slot status n s).out = s.out := rfl
@[simp] theorem countAs_pending (slot status n : Nat) (s : State) : (countAs slot status n s).pending = s.pending := rfl
@[simp] theorem countAs_counters_values (slot status n : Nat) (s : State) :
    (countAs slot status n s).counters.values = tmod 0 s.counters.values (4 * slot + status) fun v => (v + n) % 2 ^ 64 := rfl

/-! ### countStone -/

@[simp] theorem countStone_flash (slot : Nat) (s : State) : (countStone slot s).flash = s.flash := rfl
@[simp] theorem countStone_security (slot : Nat) (s : State) : (countStone slot s).security = s.security := rfl
@[simp] theorem countStone_startup (slot : Nat) (s : State) : (countStone slot s).startup = s.startup := rfl
@[simp] theorem countStone_power (slot : Nat) (s : State) : (countStone slot s).power = s.power := rfl
@[simp] theorem countStone_host (slot : Nat) (s : State) : (countStone slot s).host = s.host := rfl
@[simp] theorem countStone_run (slot : Nat) (s : State) : (countStone slot s).run = s.run := rfl
@[simp] theorem countStone_votes (slot : Nat) (s : State) : (countStone slot s).votes = s.votes := rfl
@[simp] theorem countStone_graph (slot : Nat) (s : State) : (countStone slot s).graph = s.graph := rfl
@[simp] theorem countStone_sched (slot : Nat) (s : State) : (countStone slot s).sched = s.sched := rfl
@[simp] theorem countStone_mem (slot : Nat) (s : State) : (countStone slot s).mem = s.mem := rfl
@[simp] theorem countStone_numerics (slot : Nat) (s : State) : (countStone slot s).numerics = s.numerics := rfl
@[simp] theorem countStone_harrows (slot : Nat) (s : State) : (countStone slot s).harrows = s.harrows := rfl
@[simp] theorem countStone_coll (slot : Nat) (s : State) : (countStone slot s).coll = s.coll := rfl
@[simp] theorem countStone_tmo (slot : Nat) (s : State) : (countStone slot s).tmo = s.tmo := rfl
@[simp] theorem countStone_tmoNext (slot : Nat) (s : State) : (countStone slot s).tmoNext = s.tmoNext := rfl
@[simp] theorem countStone_sheaf (slot : Nat) (s : State) : (countStone slot s).sheaf = s.sheaf := rfl
@[simp] theorem countStone_stones (slot : Nat) (s : State) : (countStone slot s).stones = s.stones := rfl
@[simp] theorem countStone_exporter (slot : Nat) (s : State) : (countStone slot s).exporter = s.exporter := rfl
@[simp] theorem countStone_fallow (slot : Nat) (s : State) : (countStone slot s).fallow = s.fallow := rfl
@[simp] theorem countStone_lamio (slot : Nat) (s : State) : (countStone slot s).lamio = s.lamio := rfl
@[simp] theorem countStone_holding (slot : Nat) (s : State) : (countStone slot s).holding = s.holding := rfl
@[simp] theorem countStone_clock (slot : Nat) (s : State) : (countStone slot s).clock = s.clock := rfl
@[simp] theorem countStone_vec (slot : Nat) (s : State) : (countStone slot s).vec = s.vec := rfl
@[simp] theorem countStone_out (slot : Nat) (s : State) : (countStone slot s).out = s.out := rfl
@[simp] theorem countStone_pending (slot : Nat) (s : State) : (countStone slot s).pending = s.pending := rfl
@[simp] theorem countStone_counters_values (slot : Nat) (s : State) :
    (countStone slot s).counters.values = tmod 0 s.counters.values (4 * slot) fun v => satTo (2 ^ 32 - 1) (v + 1) := rfl

end Sys2Proof.Laws
end

