-- ==== Sys2Proof/Laws/Vector.lean ====
section
/-!
SUPPORT. What one vector instruction can change: the engine it runs on, its task's results, counters, the trap count, the
trace; and a mask read back lane by lane.
-/
namespace Sys2Proof.Laws

open Sys2Proof Sys2Proof.Machine Sys2Proof.Safety

/-- From `s` to `t` nothing has changed but counters, the trap count and the trace. -/
def SameButCounts (s t : State) : Prop :=
  { t with counters.values := s.counters.values, numerics.trap := s.numerics.trap, sheaf := s.sheaf } = s

theorem SameButCounts.refl (s : State) : SameButCounts s s := rfl

theorem SameButCounts.eq {s t : State} (h : SameButCounts s t) :
    t = { s with counters.values := t.counters.values, numerics.trap := t.numerics.trap, sheaf := t.sheaf } := by
  rw [← h]

theorem SameButCounts.trans {s t u : State} (h : SameButCounts s t) (k : SameButCounts t u) : SameButCounts s u := by
  unfold SameButCounts
  rw [k.eq]
  exact h

theorem countWork_same (b : Bool) (k n : Nat) (s : State) : SameButCounts s (countWork b k n s) := rfl

theorem countNan_same (b : Bool) (task : W32) (e : NanEvent) (s : State) : SameButCounts s (countNan b task e s) := by
  unfold countNan SameButCounts
  dsimp only
  rw [trace_eq]
  split <;> rfl

theorem foldl_same {α : Type} (f : State → α → State) (h : ∀ s x, SameButCounts s (f s x)) (l : List α) (s : State) :
    SameButCounts s (l.foldl f s) := by
  induction l generalizing s with
  | nil => rfl
  | cons x l ih => exact (h s x).trans (ih _)

theorem chargeTask_same (core : Nat) (k : List (Nat × Nat)) (es : List NanEvent) (w : Work) (t : TaskInst) (s : State) :
    ∃ f : TaskInst → TaskInst, (∀ x, (f x).step = x.step ∧ (f x).task = x.task ∧ (f x).cells = w.cells ++ x.cells) ∧
      SameButCounts (setTask t.step t.task f s) (chargeTask core k es w t s) := by
  refine ⟨fun y => { y with
    cells := w.cells ++ y.cells
    counts := y.counts ++ k ++ w.counts ++ nanSlots (atUnit core es)
    event := firstEvent (y.event.toList ++ es) }, fun x => ⟨rfl, rfl, rfl⟩, ?_⟩
  unfold chargeTask
  exact (foldl_same _ (fun s x => countWork_same _ _ _ s) _ _).trans (foldl_same _ (fun s e => countNan_same _ _ _ s) _ _)

/-- The engine of an engaged core after the instruction. -/
def engineAfter (op : VecOp) (core : Nat) (a : VecArgs) (s : State) : VecCtx :=
  vecInstr (engineEnv op a s core) op a (engineOf s core)

/-- An instruction of an engaged core. -/
theorem vecStep_engaged {op : VecOp} {core : Nat} {a : VecArgs} {s : State} (h : Engaged op core a s) :
    ∃ (f : TaskInst → TaskInst) (k : Nat × W32), (∀ x, (f x).step = x.step ∧ (f x).task = x.task) ∧
      (∀ x, servedTask s (engineOf s core) = some x → k = (x.1.step, x.1.task) ∧
        ∀ y, (f y).cells = (if op = .store then storeWork s a (engineOf s core) (engineAfter op core a s) x else {}).cells ++
          y.cells) ∧
      (servedTask s (engineOf s core) = none → f = id) ∧
      SameButCounts (setTask k.1 k.2 f (setVec core (engineAfter op core a s) s)) (vecStep op core a s) := by
  have hr := h.ready
  have hk : ¬ 4096 ≤ core := by have := h.known; omega
  have hc := h.enabled
  have hg := h.going
  have hf := h.fits
  unfold viewCount at hf
  unfold vecStep engineAfter engineEnv
  simp only [hr, hc, hg, hk, decide_false, Bool.not_true, Bool.or_false, Bool.false_eq_true, if_false]
  cases hx : servedTask s (engineOf s core) with
  | none =>
    simp only [hx] at hf ⊢
    rw [if_pos hf]
    refine ⟨id, (0, 0), fun x => ⟨rfl, rfl⟩, by simp, fun _ => rfl, ?_⟩
    have e : ∀ v : State, setTask 0 0 id v = v := by
      intro v
      unfold setTask
      have : ∀ l : List TaskInst, mapFirst (sameRun 0 0) id l = l := by
        intro l; induction l with
        | nil => rfl
        | cons x l ih => simp only [mapFirst, ih]; split <;> rfl
      rw [this]
    rw [e]
    exact (foldl_same _ (fun s x => countWork_same _ _ _ s) _ _).trans (foldl_same _ (fun s e => countNan_same _ _ _ s) _ _)
  | some x =>
    simp only [hx] at hf ⊢
    rw [if_pos hf]
    generalize he : (if op = VecOp.store then
      withStores (outsOf s x.2.1 x.2.2.1) (vecInstr (vecEnvOf s x) op a (engineOf s core)) (vecEnvOf s x) else vecEnvOf s x) = env
    generalize hc' : vecInstr env op a (engineOf s core) = c'
    obtain ⟨f, h1, h2⟩ := chargeTask_same core (vecCounts env op a (engineOf s core))
      (atUnit core (c'.events.drop (engineOf s core).events.length))
      (if op = .store then storeWork s a (engineOf s core) c' x else {}) x.1 (setVec core c' s)
    refine ⟨f, (x.1.step, x.1.task), fun y => ⟨(h1 y).1, (h1 y).2.1⟩, ?_, by simp, h2⟩
    intro y hy
    obtain rfl : x = y := by simpa using hy
    exact ⟨rfl, fun y => (h1 y).2.2⟩

theorem vecOf_setVec (core : Nat) (c : VecCtx) (s : State) : vecOf (setVec core c s) core = c := tget_tset_same ..

theorem vecOf_setVec_other {core k : Nat} (h : k ≠ core) (c : VecCtx) (s : State) :
    vecOf (setVec core c s) k = vecOf s k := tget_tset_other _ _ _ h

/-- The engine after an instruction of an engaged core. -/
theorem vecStep_vec {op : VecOp} {core : Nat} {a : VecArgs} {s : State} (h : Engaged op core a s) :
    vecOf (vecStep op core a s) core = engineAfter op core a s := by
  obtain ⟨f, k, -, -, -, e⟩ := vecStep_engaged h
  rw [e.eq]
  exact vecOf_setVec core _ s

/-! ### Masks -/

theorem pack_ones (f : Nat → Bool) (l : List Nat) (i : Nat) :
    (pack (l.map fun j => (1, b2n (f j)))).testBit i = ((l[i]?).map f).getD false := by
  induction l generalizing i with
  | nil => simp [pack]
  | cons x l ih =>
    have e : pack ((x :: l).map fun j => (1, b2n (f j))) = b2n (f x) + 2 * pack (l.map fun j => (1, b2n (f j))) := by
      simp only [List.map_cons, pack, b2n]; split <;> rfl
    rw [e]
    cases i with
    | zero =>
      have : b2n (f x) ≤ 1 := by unfold b2n; split <;> omega
      simp only [Nat.testBit_zero, List.getElem?_cons_zero, Option.map_some, Option.getD_some]
      cases h : f x <;> simp [b2n] <;> omega
    | succ i =>
      have : (b2n (f x) + 2 * pack (l.map fun j => (1, b2n (f j)))) / 2 = pack (l.map fun j => (1, b2n (f j))) := by
        have : b2n (f x) ≤ 1 := by unfold b2n; split <;> omega
        omega
      rw [Nat.testBit_succ, this, ih]
      simp

theorem maskOf_getLsbD (f : Nat → Bool) {j : Nat} (h : j < 64) : (maskOf f).getLsbD j = f j := by
  unfold maskOf
  rw [BitVec.getLsbD_ofNat, pack_ones]
  simp [h]

end Sys2Proof.Laws
end

