-- ==== Sys2Proof/WellFormed.lean ====
section
/-!
DEFINITION. Which commands can reach the block at all: the width or range of each operand that the carrier of the
command fixes (a descriptor is 64 bytes, a ring number 8 bits, a core ID 12 bits). What the manual itself refuses with a
status (a malformed descriptor, an unknown code) is well formed here: the module decides it.
-/
namespace Sys2Proof.WellFormed

open Sys2Proof

/-- A descriptor: bytes 16 to 63, and one of 256 rings (13 R270, R276). -/
def desc (d : Desc) : Bool := decide (d.ring < 256) && d.body.length == 48

/-- A packet: LEN8 of 1 to 28 and data of whole words (14 R302, R303). -/
def packet (p : Packet) : Bool :=
  decide (p.len8 ≤ 31) && decide (p.orderSeq < 4096) && decide (p.status < 16) && decide (p.data.length ≤ 224) &&
    p.data.length % 8 == 0

/-- One of the eight ports (14 R292). -/
def port (n : Nat) : Bool := decide (n < 8)

/-- A BAR0 access (20 R409). -/
def access (offset len : Nat) : Bool := decide (offset < 2 ^ 25) && decide (len ≤ 8)

/-- A vector instruction on a core (01 R6, 05 R92). -/
def vec (core : Nat) (a : VecArgs) : Bool :=
  decide (core < 4096) && decide (a.mask < 8) && decide (a.vd < 32) && decide (a.va < 32) && decide (a.vb < 32) &&
    decide (a.bsel < 4) && decide (a.vc < 32)

/-- A forwarded order. -/
def order (o : FwdOrder) : Bool := decide (o.holding < 1024) && desc o.desc

/-- A key of a collective segment (10 R208). -/
def segKey (k : SegKey) : Bool := decide (k.group < 4096) && decide (k.seq < 2 ^ 32)

/-- A task run: an existing unit, at least one tile. -/
def run (r : TaskRun) : Bool := decide (r.step < 2 ^ 36) && decide (r.unit < 4096) && decide (1 ≤ r.tiles)

end Sys2Proof.WellFormed

namespace Sys2Proof

open Sys2Proof.WellFormed in
/-- The command can reach the block. -/
def Instr.wellFormed : Instr → Bool
  | .graphSubmit d | .graphRetire d | .tensorDefine d | .tensorRelease d | .furrowAdvance d | .runBegin d
  | .groupDefine d | .groupReform d | .copyIn d | .copyOut d | .exportConfig d | .exportAcknowledge d
  | .exportChainBase d | .exportReplayImport d | .snapshot d | .stopScheduled d | .stopImmediate d | .resume d
  | .modeSet d | .rootSupply d | .voteSupply d | .placementPin d | .counterConfig d | .counterReadNow d
  | .counterClear d | .counterStatus d | .traceConfigArm d | .traceRearm d | .traceDisable d | .traceStatus d
  | .injectConfigure d | .fence d => desc d
  | .getIdentity t _ | .challenge t _ => (match t with | .attest d => desc d | _ => true)
  | .nudge ring | .ringEnable _ ring _ | .ringResume ring | .completionPost ring => decide (ring < 256)
  | .registerWrite o l _ | .setupWrite o l _ => access o l
  | .bar4Load o l => decide (o + l ≤ 2 ^ 44)
  | .bar4Store o b => decide (o + b.length ≤ 2 ^ 44)
  | .recoveryImageLoad slot _ => decide (slot < 3)
  | .sensorRead r => r.length == 128
  | .lamioTraining m f => m.length == 8 && f.length == 8
  | .coalesceExpiry r => (match r with | some n => decide (n < 256) | none => true)
  | .flitReceive p _ f => port p && f.length == 256
  | .linkRetry p _ | .linkRetrain p _ _ | .linkRetrainAttempt p _ _ => port p
  | .readReq p | .write p | .atomicAdd64 p | .atomicAdd32 p | .atomicSwap64 p | .atomicCas64 p | .atomicOr64 p
  | .atomicAnd64 p | .bulkReq p | .readResp p | .writeAck p | .atomicResp p | .bulkDone p | .bulkData p => packet p
  | .reorderHoldExpiry p vc => port p && decide (vc < 4)
  | .orderForward o => order o
  | .endOfDataNotice _ k _ | .missingRangeRequest _ k _ _ => (match k with | .segment k => segKey k | .bulk .. => true)
  | .reservationRequest _ k | .grant _ k | .takeBack _ k
  | .release k | .reservationTimeout k => segKey k
  | .groupDefinition _ part _ b => decide (part < 3) && b.length == 16
  | .coreHalt core | .coreResume core | .selfTestDone core _ => decide (core < 4096)
  | .coreSramError core other | .watchdogExpiry _ _ core other => decide (core < 4096) && decide (other < 4096)
  | .harrowFault h _ => decide (h < 256)
  | .gleanerFailure r => decide (r < 32)
  | .patrolScrub _ r _ _ _ | .memoryControllerFailure _ r => decide (r < 32)
  | .msixVectorUnmask v => decide (v < 2048)
  | .matmul r | .matmulStat r | .attentionFwd r | .attentionBwd r | .vectorProgram r | .norm r | .softmax r | .loss r
  | .gather r | .scatter r | .preconditionApply r | .update r | .solve r | .fold r | .move r | .exportRecord r
  | .fingerprint r | .evalReduce r | .allReduce r | .reduceScatter r | .allGather r | .broadcast r | .allToAll r
  | .barrier r | .collectiveVote r | .collectiveNorm r => run r
  | .vNop c a | .vMov c a | .vAdd c a | .vSub c a | .vMul c a | .vFma c a | .vMin c a | .vMax c a | .vAbs c a
  | .vNeg c a | .vDiv c a | .vRcp c a | .vSqrt c a | .vRsqrt c a | .vExp2 c a | .vLog2 c a | .vExp c a | .vLog c a
  | .vTanh c a | .vErf c a | .vSigmoid c a | .vCmpeq c a | .vCmplt c a | .vCmple c a | .vCmpgt c a | .vCmpge c a
  | .vCmpun c a | .vMand c a | .vMor c a | .vMandn c a | .vSel c a | .vCompress c a | .vExpand c a | .vRedsum c a
  | .vRedmax c a | .vRedmin c a | .vWacc c a | .vWsum c a | .vCvti c a | .vCvtf c a | .vIadd c a | .vIand c a
  | .vIxor c a | .vLaneidx c a | .vRandu c a | .vRandb c a | .vLoad c a | .vStore c a => vec c a
  | .nudgeAll | .discover | .holdingReset | .timeOffset _ | .timeRate _ | .trapArmed | .nonceRequest | .requestGo
  | .powerControl _ | .getStatus _ | .setPowerCap _ | .mgmtStop _ | .mgmtHoldingReset _ | .moduleReset _
  | .powerOff _ | .powerOn _ | .getNonce _ | .securityRequest _ | .pwrEnAssert | .pwrEnDeassert
  | .inputUndervoltage _ | .inputOvervoltage _ | .modResetN _ | .perstN | .functionLevelReset | .hostLinkDown
  | .masterSel _ | .bootRom _ | .firmwareVerify | .pufRegenerate _ | .hbmTraining _ | .lpddrTraining _
  | .builtInSelfTest .. | .powerSample .. | .capStepRaise | .capStepLower | .thermalStepRaise | .thermalStepLower
  | .episodeEnd _ | .pollTick | .ringFetchRetry _ | .livenessTimeout | .orderHoldRelease | .stepReportPost
  | .collData _ | .txnTimeout .. | .furrowHead _ | .localFront .. | .furrowStall | .timestampSync _ | .heartbeatTick
  | .heartbeat .. | .heartbeatLoss _ | .hedgeMemberLost .. | .hedgeEvent .. | .voteTimeoutReport ..
  | .voteContribution .. | .voteOutcome _ | .autoResume | .voteTimeout | .muster .. | .goAhead .. | .collTimeout ..
  | .agreementAck .. | .hedgeTimeout _ | .hedgeStop _ | .stopCutReached | .discoveryOffer _ | .discoveryAnswer ..
  | .discoveryTimeout | .discoveryReoffer _ | .taskAdmit | .ageingTick .. | .tileComplete .. | .trapDeliver
  | .poisonedRead .. | .memTimeout .. | .migrationStart _ | .migrationSeal _ | .migrationFlip _
  | .migrationSourceFree _ | .gleanerAdd .. | .solveHarrowAssign .. | .solveBoundary _ | .solveAcceptance _
  | .deadlineDecision _ | .workingPageAudit | .exportAckPoll _ | .exportResend | .evalBudgetExpiry
  | .shardRestoration _ | .counterSample _ | .pcSample .. | .sheafThresholdTest | .sheafFreeze | .inputPowerApplied _
  | .aux3v3Applied | .aux3v3Removed | .thermTripNRelease | .hostLinkUp | .holdingResetDone | .hostAccessCompletion _
  | .hostCompletionTimeout _ | .factoryServiceWrite _ => true

end Sys2Proof
end

