-- ==== Sys2Proof/Tests/Slice0.lean ====
section
/-!
SUPPORT. Tests of the model: ill-formed commands are refused, and for every statement with hypotheses a concrete state and
operands that meet them, clause by clause.
-/
set_option Elab.async false

namespace Sys2Proof.Tests

open Sys2Proof Sys2Proof.Machine Sys2Proof.Safety

/-! ### Small commands -/

/-- A descriptor of zeros. -/
def desc0 : Desc :=
  { ring := 0, flags := 0, tag := 0, count := 0, gate := 0, body := List.replicate 48 0, data := .ok [] }

/-- A descriptor whose bytes from `i` (of 16 to 63) hold `bs`. -/
def descAt (i : Nat) (bs : Bytes) : Desc :=
  { desc0 with body := (desc0.body.take (i - 16) ++ bs ++ desc0.body.drop (i - 16 + bs.length)) }

/-- A packet from module 1 to module 0, of eight bytes of data, without a context word. -/
def pkt : Packet :=
  { source := 1, dest := 0, tag := 5, offset := 64, len8 := 1, orderSeq := 0, seedbed := false, poison := false
    detour := false, status := 0, context := none, data := List.replicate 8 3 }

def vec0 : VecArgs :=
  { mask := 0, zero := false, vd := 1, va := 0, vb := 0, bsel := 0, vc := 0, imm := 0 }

def run0 : TaskRun := { step := 0, task := 0, unit := 0, tiles := 1, remote := [] }

/-! ### The ill-formed commands of WellFormed.lean -/

theorem test_wf_desc : (Instr.fence desc0).wellFormed = true ∧
    (Instr.fence { desc0 with ring := 256 }).wellFormed = false ∧
    (Instr.fence { desc0 with body := [] }).wellFormed = false ∧
    (Instr.getIdentity (.attest { desc0 with ring := 256 }) []).wellFormed = false := by decide

set_option maxRecDepth 4000 in
theorem test_wf_packet : (Instr.write pkt).wellFormed = true ∧
    (Instr.write { pkt with len8 := 32 }).wellFormed = false ∧
    (Instr.write { pkt with orderSeq := 4096 }).wellFormed = false ∧
    (Instr.write { pkt with status := 16 }).wellFormed = false ∧
    (Instr.write { pkt with data := List.replicate 232 0 }).wellFormed = false ∧
    (Instr.write { pkt with data := [1] }).wellFormed = false := by decide

theorem test_wf_ports : (Instr.linkRetry 7 true).wellFormed = true ∧ (Instr.linkRetry 8 true).wellFormed = false ∧
    (Instr.flitReceive 0 true []).wellFormed = false ∧ (Instr.reorderHoldExpiry 0 4).wellFormed = false := by decide

theorem test_wf_accesses : (Instr.registerWrite (2 ^ 25) 8 0).wellFormed = false ∧
    (Instr.setupWrite 0 9 0).wellFormed = false ∧ (Instr.bar4Load (2 ^ 44) 1).wellFormed = false ∧
    (Instr.bar4Store (2 ^ 44) [1]).wellFormed = false := by decide

theorem test_wf_units : (Instr.coreHalt 4096).wellFormed = false ∧ (Instr.selfTestDone 4096 true).wellFormed = false ∧
    (Instr.coreSramError 0 4096).wellFormed = false ∧ (Instr.watchdogExpiry 0 0 0 4096).wellFormed = false ∧
    (Instr.harrowFault 256 1).wellFormed = false ∧ (Instr.gleanerFailure 32).wellFormed = false ∧
    (Instr.patrolScrub false 32 0 [] []).wellFormed = false ∧
    (Instr.memoryControllerFailure false 32).wellFormed = false := by decide

theorem test_wf_numbers : (Instr.nudge 256).wellFormed = false ∧ (Instr.ringEnable true 256 true).wellFormed = false ∧
    (Instr.completionPost 256).wellFormed = false ∧ (Instr.coalesceExpiry (some 256)).wellFormed = false ∧
    (Instr.msixVectorUnmask 2048).wellFormed = false ∧ (Instr.recoveryImageLoad 3 defaultImage).wellFormed = false ∧
    (Instr.sensorRead []).wellFormed = false ∧ (Instr.lamioTraining [] []).wellFormed = false := by decide

theorem test_wf_hedge : (Instr.orderForward ⟨0, 1024, 0, false, .stop, desc0⟩).wellFormed = false ∧
    (Instr.grant 0 ⟨4096, 0, 0⟩).wellFormed = false ∧ (Instr.grant 0 ⟨0, 2 ^ 32, 0⟩).wellFormed = false ∧
    (Instr.groupDefinition 0 3 0 (List.replicate 16 0)).wellFormed = false ∧
    (Instr.groupDefinition 0 2 0 []).wellFormed = false := by decide

theorem test_wf_runs : (Instr.matmul run0).wellFormed = true ∧ (Instr.matmul { run0 with step := 2 ^ 36 }).wellFormed = false ∧
    (Instr.matmul { run0 with unit := 4096 }).wellFormed = false ∧ (Instr.matmul { run0 with tiles := 0 }).wellFormed = false ∧
    (Instr.vAdd 0 vec0).wellFormed = true ∧ (Instr.vAdd 4096 vec0).wellFormed = false ∧
    (Instr.vAdd 0 { vec0 with mask := 8 }).wellFormed = false ∧ (Instr.vAdd 0 { vec0 with vd := 32 }).wellFormed = false ∧
    (Instr.vAdd 0 { vec0 with va := 32 }).wellFormed = false ∧ (Instr.vAdd 0 { vec0 with vb := 32 }).wellFormed = false ∧
    (Instr.vAdd 0 { vec0 with bsel := 4 }).wellFormed = false ∧
    (Instr.vAdd 0 { vec0 with vc := 32 }).wellFormed = false := by decide

/-! ### Small states -/

/-- A module that is ready, alone, the master of its holding, with its host link up. -/
def lone : State :=
  { State.reset with
    startup := { State.reset.startup with ready := true, phase := 7 }
    power := { State.reset.power with linkUp := true }
    holding := { State.reset.holding with moduleId := 0, isMaster := true, state := 2, members := 1 } }

/-- The lead master of a run at step 0, alone. -/
def lead : State := { lone with run.isOn := true, run.created := some 0, votes.openStep := some 0 }

/-- Module 0x1000 of a holding of two, in a run. -/
def member : State :=
  { lead with
    holding := { lone.holding with extentM1 := 0x1000, moduleId := 0x1000, isMaster := false } }

/-- A state in start-up phase `n`. -/
def booting (n : Nat) : State := { State.reset with startup.phase := n }

/-! ### The hypotheses of the statements are met -/

theorem test_hyps_StepConsumesOneCommand : ∃ t, step { State.reset with pending := [.nudgeAll] } = .next t := ⟨_, rfl⟩

theorem test_hyps_StepKeepsMemoryCanonical :
    memoryCanonical State.reset ∧ ∃ t, step { State.reset with pending := [.nudgeAll] } = .next t := ⟨rfl, _, rfl⟩

theorem test_hyps_IdleStepTicks : State.reset.pending = [] := rfl

theorem test_hyps_StartUpPhases_good :
    inPhase (booting 0) 0 = true ∧ (booting 0).startup.romDone = false ∧
    (booting 0).flash.slots.any (keyAccepted (booting 0).flash) = true ∧
    inPhase (booting 1) 1 = true ∧ ((booting 1).flash.replay.all fun e => e.tagOk) = true ∧
    slotAccepted (booting 1).flash 0 = true ∧ (booting 1).flash.slots[0]? = some defaultImage ∧
    inPhase (booting 2) 2 = true ∧ (booting 2).flash.record.identityKey = (booting 2).flash.dieKey ∧
    inPhase (booting 3) 3 = true ∧ inPhase (booting 4) 4 = true := by decide

set_option maxRecDepth 20000 in
theorem test_hyps_StartUpPhases_record : recordAccepted (booting 1).flash (booting 1).flash.record = true := by decide

set_option maxRecDepth 20000 in
theorem test_hyps_StartUpPhases_recovery :
    (let s := { booting 0 with flash.rootKey := [9] }
     inPhase s 0 = true ∧ s.startup.romDone = false ∧ s.flash.slots.any (keyAccepted s.flash) = false) ∧
    (let s := { booting 1 with flash.replay := [{ tagOk := false }] }
     inPhase s 1 = true ∧ (s.flash.replay.all fun e => e.tagOk) = false) ∧
    (let s := { booting 1 with flash.rootKey := [9] }
     inPhase s 1 = true ∧ (s.flash.replay.all fun e => e.tagOk) = true ∧ slotAccepted s.flash 0 = false ∧
       slotAccepted s.flash 1 = false) ∧
    (let s := { booting 1 with flash.record.pubKey := [9] }
     inPhase s 1 = true ∧ (s.flash.replay.all fun e => e.tagOk) = true ∧
       (slotAccepted s.flash 0 || slotAccepted s.flash 1) = true ∧ recordAccepted s.flash s.flash.record = false) ∧
    (let s := { booting 2 with flash.dieKey := [9] }
     inPhase s 2 = true ∧ s.flash.record.identityKey ≠ s.flash.dieKey) := by decide

theorem test_hyps_SelfTestAndReady : inPhase (booting 5) 5 = true ∧ inPhase (booting 6) 6 = true := by decide

theorem test_hyps_SecurityCommands :
    hostControls lone = true ∧
    (let s := { State.reset with startup.recovery := true, security.bootError := 2 }
     s.startup.recovery = true ∧ s.power.aux = true ∧ mgmtRuns s.flash = true ∧ slotRefused s 1 = true) ∧
    (let s := { State.reset with flash.replay := [{}, {}, { counter := 1 }, {}] }; s.power.aux = true ∧ mgmtRuns s.flash = false) ∧
    (let s := { State.reset with security.state := 2 }
     s.security.state = 2 ∧ s.flash.record.pubKey = s.flash.rootKey ∧
       verifies s.flash s.flash.record.pubKey (recordMessage s.flash.record) s.flash.record.sig = true) ∧
    State.reset.security.state ≠ 2 := by decide +kernel

/-- The mailbox's request is on the current nonce; the module is in state `st`, the request for the state `target`. -/
def requested (st : Nat) (target : Byte) : State :=
  { lone with
    security.state := st, security.nonceIssued := true, security.area := if target = 0 then [] else [(0, target)]
    security.nonce := digestBits (List.replicate 32 0) }

/-- A request on a stale nonce; one for the present state; one with and one without a good authorisation. -/
theorem test_hyps_SecurityCommands_request :
    (let ok := fun s => nonceNow s == some (digestBits (slice (requestArea s) 8 32))
     ok lone = false ∧
     (ok (requested 0 0) = true ∧ byteAt (requestArea (requested 0 0)) 0 = (requested 0 0).security.state) ∧
     (ok (requested 1 0) = true ∧ byteAt (requestArea (requested 1 0)) 0 ≠ (requested 1 0).security.state ∧
       authGood (requested 1 0) 0 (requestArea (requested 1 0)) = true) ∧
     (ok (requested 0 1) = true ∧ byteAt (requestArea (requested 0 1)) 0 ≠ (requested 0 1).security.state ∧
       authGood (requested 0 1) 1 (requestArea (requested 0 1)) = false) ∧
     lone.security.nonceAt ≠ some lone.clock.up) := by decide +kernel

theorem test_hyps_SuppliesAndPins :
    State.reset.power.pwrGood = true ∧
    (let s := { State.reset with power.pwrEn := false, power.pwrEnLowAt := some 0, clock.up := 100000000 }
     s.power.pwrEn = false ∧ s.power.pwrEnLowAt = some 0 ∧ 0 + ms 100 ≤ s.clock.up) ∧
    (let s := { State.reset with power.volts := 0 }; s.power.volts = 0) := by decide

theorem test_hyps_ResetLevels :
    State.reset.power.pwrGood = true ∧ mgmtTakes State.reset = true ∧ lone.holding.isMaster = true ∧
    member.assigned = true ∧ member.holding.isMaster = false ∧
    (let s := { lone with holding.resetting := true }; s.holding.resetting = true) := by decide

set_option maxRecDepth 20000 in
theorem test_hyps_PowerAndThermalSteps :
    hostControls lone = true ∧
    (let s := { State.reset with power.windowCount := 1, power.windowSum := 7501 }
     s.power.pwrGood = true ∧ s.power.capW * s.power.windowCount < s.power.windowSum) ∧
    (let s := { State.reset with power.capStep := 48, power.samples := [7349] }
     s.power.pwrGood = true ∧ 48 ≤ s.power.capStep ∧ 0 < s.power.capStep ∧
       100 * s.power.samples.foldl (· + ·) 0 < 98 * s.power.capW * s.power.samples.length) ∧
    (let s := { State.reset with clock.up := 1000000000 }
     clockStep s.power = 0 ∧ s.power.capDecidedAt + 1000000000 ≤ s.clock.up ∧
       s.power.thermDecidedAt + 1000000000 ≤ s.clock.up) ∧
    (List.replicate 128 (0x8000 : W16)).length = 128 ∧ trippedSensor (List.replicate 128 0x8000) = none ∧
    trippedSensor (2000 :: List.replicate 127 0x8000) = some 0 := by decide

set_option maxRecDepth 20000 in
theorem test_hyps_PowerAndThermalSteps_sensors :
    (let s := { State.reset with power.sensors := 1600 :: List.replicate 127 0x8000 }
     atLeast (s.power.sensors.getD 0 0x8000) (throttleLimit s.power 0) = true ∧ s.power.thermalStep < 48) ∧
    (let s := { State.reset with power.sensors := List.replicate 128 0, power.thermalStep := 1 }
     (∀ i : Nat, i < 108 → clearOf (s.power.sensors.getD i 0x8000) (throttleLimit s.power i) 3 = true) ∧
       0 < s.power.thermalStep) := by decide

theorem test_hyps_RegisterWrites :
    hostControls lone = true ∧ lone.holding.setupLock = false ∧
    (let s := { lone with holding.setupLock := true }; hostControls s = true ∧ s.holding.setupLock = true) ∧
    accessOk 0x30001 8 = false ∧ accessOk 0x30000 8 = true ∧ hostControls member = false ∧ 0x30000 / 8 * 8 ≠ 0x10030 := by
  decide

theorem test_hyps_TimeFieldsActOnTheLead :
    lead.isLead = true ∧ member.isLead = false ∧ member.assigned = true ∧
    (858993 : W32).toInt.natAbs * 1000000 ≤ 200 * 2 ^ 32 ∧ 200 * 2 ^ 32 < (858994 : W32).toInt.natAbs * 1000000 := by
  decide

theorem test_hyps_ActingFields :
    (let s := { State.reset with power.masterSel := true, power.linkUp := true }
     hostControls s = true ∧ s.holding.isMaster = false) ∧
    lone.holding.isMaster = true ∧ member.assigned = true ∧ member.holding.isMaster = false ∧
    member.holding.before = none ∧
    (let b : LockedFields := { at_ := 0, config := 0, depth := 1, report := 0, reserved := 96, gMax := 0, harrows := 0 }
     let s := { member with holding.before := some b }
     s.holding.before = some b ∧ b.at_ = s.clock.up) := by decide

theorem test_hyps_Bar4Accesses :
    windowTarget lone 0 64 = some (lone.holding.moduleId, 0) ∧
    (let s := { lone with host.ctx.windowBase := 0x1000100000000000 }
     windowTarget s 8 64 = some (1, 8) ∧ (1 : ModId) ≠ s.holding.moduleId) ∧
    (let s := { lone with host.ctx.windowBase := 0x2000000000000000 }; windowTarget s 0 64 = none) ∧
    windowTarget lone (3584 * 2 ^ 30 - 8) 9 = none := by decide

theorem test_hyps_RemoteWritesAndReads :
    pkt.dest = lone.holding.moduleId ∧ lone.assigned = true ∧ pkt.offset.toNat + pkt.data.length ≤ lone.mem.capacity ∧
    InTurn lone ptWrite pkt ∧ pkt.context = none ∧
    plainWriteAllowed lone pkt.offset.toNat pkt.data.length = true ∧
    (let p := { pkt with context := some (7, 0, 0) }
     InTurn lone ptWrite p ∧ p.context = some (7, 0, 0) ∧
       touchesReserved lone p.offset.toNat p.data.length = false) ∧
    (let p := { pkt with offset := 3488 * 2 ^ 30 }
     p.offset.toNat + p.data.length ≤ lone.mem.capacity ∧ InTurn lone ptWrite p ∧
       plainWriteAllowed lone p.offset.toNat p.data.length = false) ∧
    InTurn lone ptReadReq pkt ∧ pkt.offset.toNat + 8 * pkt.len8 ≤ lone.mem.capacity ∧ readMustWait lone pkt = false ∧
    (let p := { pkt with context := some (7, 1, 0), seedbed := true }
     InTurn lead ptReadReq p ∧ readMustWait lead p = true) ∧
    (let p := { pkt with data := leBytes 8 64 ++ leBytes 8 (2 ^ 60 + 2 ^ 56) ++ leBytes 8 16 }
     InTurn lone ptBulkReq p ∧ lamioTarget lone (field p.data 0 8) = some (lone.holding.moduleId, 64) ∧
       lamioTarget lone (field p.data 8 8) = some (0x1000, 0) ∧ (0x1000 : ModId) ≠ lone.holding.moduleId ∧
       64 + field p.data 16 8 ≤ lone.mem.capacity ∧ field p.data 16 8 ≤ 2 ^ 32) := by decide

theorem test_hyps_Atomics : (Instr.atomicAdd32, ptAtomicAdd32, 4, fun old x _ => old + x) ∈ atomicRows ∧
    pkt.dest = lone.holding.moduleId ∧ lone.assigned = true ∧ InTurn lone ptAtomicAdd32 pkt ∧ pkt.offset.toNat % 4 = 0 ∧
    pkt.offset.toNat + 4 ≤ lone.mem.capacity ∧ plainWriteAllowed lone pkt.offset.toNat 4 = true :=
  ⟨by simp [atomicRows], by decide, by decide, by decide, by decide, by decide, by decide⟩

/-- A module of two that waits for the answer to the read with tag 5 that it sent to module 1. -/
def asking : State :=
  { member with lamio.txns := [{ dest := 1, tag := 5, type := ptReadReq, p := pkt, resent := false, sentAt := 0, task := none }] }

theorem test_hyps_Responses :
    (let s := { member with lamio.ports := [(1, { width := 16 })] }
     nextHop s 0 false = some (1, false) ∧ s.stones.live = [] ∧ s.stones.holding = []) ∧
    (let p := { pkt with dest := 0x1000 }
     p.dest = asking.holding.moduleId ∧ asking.assigned = true ∧ InTurn asking ptReadResp p ∧
     asking.lamio.txns.find? (fun t => t.dest == p.source && t.tag == p.tag) =
       some { dest := 1, tag := 5, type := ptReadReq, p := pkt, resent := false, sentAt := 0, task := none } ∧
     asking.run.jobs = [] ∧ member.lamio.txns.find? (fun t => t.dest == p.source && t.tag == p.tag) = none) := by decide

/-- A flit of the data class with header `h` and an empty body, its CRC right. -/
def flitOf (h : Nat) : Bytes :=
  let b := leBytes 8 h ++ List.replicate 240 0
  b ++ leBytes 8 (crc64 b).toNat

/-- A ready module whose port 0 is up, with one flit in its retry buffer. -/
def linked : State :=
  { lone with lamio.ports := [(0, { width := 16, data := { buffer := [(0, flitOf 0)] } })], clock.up := 2000 }

set_option maxRecDepth 20000 in
theorem test_hyps_FlitsAndLinkTimers_flits :
    (port linked 0).width ≠ 0 ∧
    crc64 ((List.replicate 256 (0 : Byte)).take 248) ≠ BitVec.ofNat 64 (field (List.replicate 256 0) 248 8) ∧
    crc64 ((flitOf 0).take 248) = BitVec.ofNat 64 (field (flitOf 0) 248 8) ∧ bits (field (flitOf 0) 0 8) 28 2 = 0 ∧
    bitOf (field (flitOf 0) 0 8) 24 = false ∧
    bits (field (flitOf 0) 0 8) 0 12 = (laneClass false (port linked 0)).recvSeq ∧ byteAt (flitOf 0) 8 = 0 := by decide +kernel

set_option maxRecDepth 20000 in
theorem test_hyps_FlitsAndLinkTimers_ack :
    (let h := 2 ^ 28 + 2 ^ 24
     crc64 ((flitOf h).take 248) = BitVec.ofNat 64 (field (flitOf h) 248 8) ∧ bits (field (flitOf h) 0 8) 28 2 = 1 ∧
     bitOf (field (flitOf h) 0 8) 24 = true ∧ bitOf (field (flitOf h) 0 8) 25 = false) := by decide +kernel

theorem test_hyps_FlitsAndLinkTimers_timers :
    ((port linked 0).retraining = false ∧ (laneClass false (port linked 0)).buffer ≠ [] ∧
      (laneClass false (port linked 0)).sentAt + 2000 ≤ linked.clock.up) ∧
    (let s := { lone with lamio.ports := [(0, { retraining := true })] }
     (port s 0).retraining = true ∧ widthOf 0xFFFF ≠ 0 ∧ widthOf 0 = 0) ∧
    (let s := { lone with clock.up := 100000000 }
     (port s 0).width = 0 ∧ (port s 0).tripped = false ∧ s.startup.ready = true ∧ (port s 0).triedAt + ms 100 ≤ s.clock.up) ∧
    (let s := { asking with clock.up := 50000 }
     ∃ x, s.lamio.txns.find? (fun t => t.dest == 1 && t.tag == 5) = some x ∧ x.sentAt + us s.tmo.txn.toNat ≤ s.clock.up ∧
       x.task = none ∧ s.run.jobs = []) := by
  refine ⟨by decide, by decide, by decide, _, rfl, by decide, rfl, rfl⟩

theorem test_hyps_ManagementMessages :
    mgmtTakes lead = true ∧ ((Instr.setPowerCap, 0x21, 2, true) : (Bytes → Instr) × Nat × Nat × Bool) ∈ mgmtRows ∧
    ([] : Bytes).length ≠ 2 ∧ ([0, 0] : Bytes).length = 2 ∧ { lone with power.pwrGood := false }.power.pwrGood = false ∧
    lead.power.pwrGood = true ∧ lone.run.isOn = false ∧ lead.isLead = true ∧ member.run.isOn = true ∧
    member.isLead = false ∧ member.holding.isMaster = false ∧ lone.holding.isMaster = true :=
  ⟨by decide, by simp [mgmtRows], by decide, by decide, rfl, rfl, rfl, by decide, rfl, by decide, rfl, rfl⟩

theorem test_hyps_ManagementMessages_request : (List.replicate 29856 (0 : Byte)).length = 29856 := List.length_replicate

/-- A host-served module whose rings 0 are enabled. -/
def ringed : State :=
  { lone with
    host := { lone.host with
      sub := [(0, { enable := true, state := 1, sizeLog2 := 4 })]
      compl := [(0, { enable := true, state := 1, sizeLog2 := 4 })] } }

theorem test_hyps_RingControls :
    serves ringed = true ∧ (subRing ringed 0).enable = true ∧ ringed.power.linkUp = true ∧ serves State.reset = false ∧
    hostControls lone = true ∧ (subRing lone 0).enable = false ∧ (complRing lone 0).enable = false ∧
    (subRing ringed 255).enable = false ∧ (subRing ringed 0).waiting = [] ∧ ringed.run.held.any (holdsRing ringed 0) = false ∧
    (let s := { ringed with host.sub := [(0, { enable := true, state := 2 })] }; (subRing s 0).state = 2) ∧
    (subRing ringed 0).state ≠ 2 := by decide

theorem test_hyps_PollEngine :
    ((ringed.host.sub.any fun e => e.2.enable) = true) ∧
    (let s := { ringed with host.accesses := [(3, some (.doorbell 0))], power.linkUp := false }
     tget none s.host.accesses 3 = some (.doorbell 0) ∧ (subRing s 0).state ≠ 3 ∧
     field (leBytes 8 1) 4 4 = (subRing s 0).generation.toNat ∧
     ((BitVec.ofNat 32 (field (leBytes 8 16) 0 4) - (subRing s 0).fetched).toNat ≤ 2 ^ (subRing s 0).sizeLog2.toNat) ∧
     2 ^ (subRing s 0).sizeLog2.toNat < (BitVec.ofNat 32 (field (leBytes 8 17) 0 4) - (subRing s 0).fetched).toNat) ∧
    (let s := { ringed with host.accesses := [(3, some (.descriptor 0 0 2)), (4, some (.descriptor 0 1 3))] }
     tget none s.host.accesses 3 = some (.descriptor 0 0 2) ∧ 2 < s.tmo.ringRetry.toNat ∧
     tget none s.host.accesses 4 = some (.descriptor 0 1 3) ∧ s.tmo.ringRetry.toNat ≤ 3) ∧
    (let s := { ringed with
       host.liveSeen := true, clock.up := 10000000000, run.isOn := true, run.leadHolding := 1, run.leadModule := 0x2000 }
     serves s = true ∧ s.host.liveSeen = true ∧ s.host.safeHold = false ∧ s.tmo.liveness ≠ 0 ∧
     s.host.liveAt + ms s.tmo.liveness.toNat ≤ s.clock.up ∧ s.run.isOn = true ∧ s.isLead = false) := by decide

/-- An entry that waits to be posted. -/
def entry0 : Entry :=
  { tag := 1, status := 0, halted := false, report := false, detail := 0, urgent := false, position := none, ring := none
    access := none, quiet := false }

/-- The commit of step 0, all of its work done. -/
def commit0 : CommitRecord :=
  { step := 0, entries := 0, flipped := 0, foldDone := true, queuesDone := true, rootsDone := true, recordsDone := true
    fingerprintDone := true, reported := false, timestamp := 0 }

set_option maxRecDepth 20000 in
theorem test_hyps_PostingAndSignalling :
    (let s := { ringed with host.compl := [(0, { enable := true, state := 1, sizeLog2 := 4, waiting := [entry0] })],
                            host.msixMasked := 0 }
     serves s = true ∧ (complRing s 0).enable = true ∧ (complRing s 0).state = 1 ∧ complFull (complRing s 0) = false ∧
     (complRing s 0).waiting = [entry0] ∧ entry0.quiet = false ∧ entry0.halted = false ∧ (complRing s 0).coalesce = 0 ∧
     s.host.msixMasked.getLsbD (complRing s 0).vector.toNat = false) ∧
    (let s := { ringed with
       host.msixMasked := 0, host.compl := [(0, { enable := true, state := 1, unsignalled := 1, coalesce := 5 })]
       host.evUnsig := 1, clock.up := 5000 }
     s.power.linkUp = true ∧ (complRing s 0).unsignalled ≠ 0 ∧
     (complRing s 0).firstAt + us (complRing s 0).coalesce.toNat ≤ s.clock.up ∧
     s.host.msixMasked.getLsbD s.host.ctx.eventVector.toNat = false ∧ s.host.evUnsig ≠ 0 ∧
     s.host.evFirstAt + us s.host.ctx.eventCoalesce.toNat ≤ s.clock.up) ∧
    ({ ringed with host.msixPending := 4 }.host.msixPending.getLsbD 2 = true) ∧
    lone.host.msixPending.getLsbD 2 = false ∧
    (let s := { member with votes.commits := [commit0] }
     s.votes.commits = [commit0] ∧ s.run.finished ≠ some commit0.step ∧ s.holding.isMaster = false ∧
     s.run.pendingModes = [] ∧ s.stones.pending = none ∧ s.exporter.pending = none ∧ s.graph.dir = [] ∧
     s.run.jobs = []) := by decide

/-- A COPY_IN of eight bytes from host address 0x100 to this module's byte 64. -/
def copyDesc : Desc := { descAt 16 (leBytes 8 0x100 ++ leBytes 8 64) with count := 8 }

theorem test_hyps_CopyInData :
    dAt copyDesc 40 8 = 0 ∧ copyTarget lone copyDesc = some (lone.holding.moduleId, 64) ∧
    (let s := { lone with host.accesses := [(3, some (.copyIn 0 copyDesc none))] }
     tget none s.host.accesses 3 = some (.copyIn 0 copyDesc none)) := by decide

/-! ### Descriptors -/

/-- The delivery of `d` on ring 0 of `s` is taken, reaches the order point and executes. -/
def executesAt (op : DescOp) (d : Desc) (s : State) : Bool :=
  takesDescriptor s d.ring && (frontOf? (fetched op d s) d.ring == some (op, d)) && !runWide (atOrderPoint op d s) op d &&
    !headerBad d

theorem executesAt_spec {op : DescOp} {d : Desc} {s : State} (h : executesAt op d s = true) : Executes op d s := by
  simp only [executesAt, Bool.and_eq_true, Bool.not_eq_true', beq_iff_eq] at h
  exact { takes := h.1.1.1, front := h.1.1.2, here := h.1.2, header := h.2 }

theorem test_hyps_DescriptorsReachOrderPoint :
    takesDescriptor lone 0 = false ∧
    (let d := { desc0 with gate := 0x10000000 }
     let s := { ringed with run.isOn := true }
     takesDescriptor s d.ring = true ∧ frontOf? (fetched .fence d s) d.ring = none) ∧
    (let d := { desc0 with flags := 4 }
     Reaches .fence d ringed ∧ runWide (atOrderPoint .fence d ringed) .fence d = false ∧ headerBad d = true ∧
       (ringed.run.jobs.any fun j => j.op == .runBegin) = false) :=
  ⟨by decide +kernel, by decide +kernel, ⟨by decide +kernel, by decide +kernel⟩, by decide +kernel, by decide +kernel, by decide +kernel⟩

theorem test_hyps_CompletionEntries : DescOp.fence ≠ .copyOut ∧ DescOp.fence ≠ .snapshot := by decide +kernel

/-- A standing segment of no tasks. -/
def segment0 : Bytes :=
  leBytes 4 0x53475848 ++ [1, 1, 1, 0] ++ List.replicate 16 0 ++ leBytes 8 (0xFFFF * 2 ^ 14) ++ leBytes 4 256 ++
    List.replicate 220 0

def submitDesc : Desc := { desc0 with count := 256, data := .ok segment0 }

set_option maxRecDepth 20000 in
theorem test_hyps_GraphAndTensorOrders_submit :
    Executes .graphSubmit submitDesc ringed ∧ segmentBytes submitDesc = .ok segment0 ∧
    (let p := atOrderPoint .graphSubmit submitDesc ringed
     let g := parseSegment segment0
     segmentOk p segment0 = true ∧ (segmentModules p g).any (fun m => !inHolding p.holding m) = false ∧ p.quiet = true ∧
       segmentConflicts p g = false ∧ storeFull p g = false ∧ g.standing = true) := by
  exact ⟨executesAt_spec (by decide +kernel), by rfl, by decide +kernel⟩

/-- The parsed segment of no tasks. -/
def seg0 : Segment := parseSegment segment0

/-- A one-element tensor of binary32 at byte 0, and its record. -/
def tensorBytes0 : Bytes :=
  leBytes 64 (fB32 + 2 ^ 16 + 0xFFFF * 2 ^ 48 + ((List.range 6).map fun d => 2 ^ (128 + 40 * d)).foldl (· + ·) 0)

def tensor0 : TensorRec := parseTensor tensorBytes0

def defineDesc : Desc := { descAt 24 (leBytes 4 3 ++ leBytes 2 0xFFFF) with count := 64, data := .ok tensorBytes0 }

def releaseDesc : Desc := descAt 24 (leBytes 4 3)

theorem test_hyps_GraphAndTensorOrders_retire :
    (let s := { ringed with graph.dir := [(0, { state := 1, segment := some seg0 })] }
     Executes .graphRetire desc0 s ∧ noCount desc0 = true ∧ dZeroFrom desc0 17 = true ∧
       (tget {} s.graph.dir (dAt desc0 16 1)).segment = some seg0 ∧ namedElsewhere s (dAt desc0 16 1) seg0 = false ∧
       (tget {} s.graph.dir (dAt desc0 16 1)).lastStep = 0) :=
  ⟨executesAt_spec (by decide +kernel), by decide +kernel⟩

set_option maxRecDepth 20000 in
theorem test_hyps_GraphAndTensorOrders_define :
    Executes .tensorDefine defineDesc ringed ∧
    (∃ t, tensorOf (atOrderPoint .tensorDefine defineDesc ringed) defineDesc = .ok t) ∧
    groupOutside (atOrderPoint .tensorDefine defineDesc ringed) (dAt defineDesc 28 2) = false ∧ ringed.quiet = true ∧
    dAt defineDesc 28 2 = 0xFFFF ∧ findTensor ringed (dAt defineDesc 24 4) = none := by
  refine ⟨executesAt_spec (by decide +kernel), ?_, by decide +kernel⟩
  cases h : tensorOf (atOrderPoint .tensorDefine defineDesc ringed) defineDesc with
  | ok t => exact ⟨t, rfl⟩
  | error e =>
    have : (match tensorOf (atOrderPoint .tensorDefine defineDesc ringed) defineDesc with
      | .ok _ => true | .error _ => false) = true := by decide +kernel
    rw [h] at this; cases this

theorem test_hyps_GraphAndTensorOrders_release :
    (let s := { ringed with graph.tensors := [(3, some tensor0)], graph.tensorGroups := [] }
     Executes .tensorRelease releaseDesc s ∧ noCount releaseDesc = true ∧ dZeroIn releaseDesc 16 8 = true ∧
       dZeroFrom releaseDesc 28 = true ∧
       groupOutside s (tget 0xFFFF s.graph.tensorGroups (dAt releaseDesc 24 4)) = false ∧ s.quiet = true ∧
       (tget none s.graph.tensors (dAt releaseDesc 24 4)).isSome = true ∧
       ((heldSegments s).any fun e => (namedTensors e.2).contains (dAt releaseDesc 24 4)) = false) :=
  ⟨executesAt_spec (by decide +kernel), by decide +kernel⟩

/-- RUN_BEGIN of the one holding, at step 0. -/
def beginDesc : Desc := descAt 34 [1]

/-- The ringed module as the lead master of a run. -/
def ringedLead : State := { ringed with run.isOn := true, run.created := some 0, votes.openStep := some 0 }

/-- The ringed module as the master of a holding that does not lead its run. -/
def ringedFollower : State := { ringedLead with run.leadHolding := 1, run.leadModule := 0x2000 }

theorem test_hyps_RunOrders_begin :
    Executes .runBegin beginDesc ringed ∧ beginMalformed beginDesc ringed = false ∧ ringed.run.isOn = false ∧
    ringed.security.state ≠ 2 ∧ ringed.holding.state = 2 ∧ ringed.run.jobs.any isBegin = false ∧
    (ringed.run.jobs.any fun j => j.op == .runBegin) = false ∧ dAt beginDesc 32 2 = ringed.holding.number.toNat ∧
    dAt beginDesc 34 2 = 1 :=
  ⟨executesAt_spec (by decide +kernel), by decide +kernel⟩

theorem test_hyps_RunOrders_modes :
    Executes .modeSet desc0 ringedLead ∧ Executes .fence desc0 ringed ∧ modeMalformed desc0 = false ∧
    noCount desc0 = true ∧ dAt desc0 16 1 ≤ 1 ∧ dZeroFrom desc0 17 = true :=
  ⟨executesAt_spec (by decide +kernel), executesAt_spec (by decide +kernel), by decide +kernel⟩

/-- The ringed lead master, whose host votes and whose reduction is complete. -/
def ringedVoter : State :=
  { ringedLead with run.modes := [false, false, false, false, false, true], votes.received := [(0, ⟨0, 1, []⟩)] }

/-- The delivery of `d` on ring 0 of `s` is taken and reaches the order point, where it is an order of the whole run. -/
def reachesWide (op : DescOp) (d : Desc) (s : State) : Bool :=
  takesDescriptor s d.ring && (frontOf? (fetched op d s) d.ring == some (op, d)) && runWide (atOrderPoint op d s) op d &&
    !wideMalformed op d

theorem reachesWide_spec {op : DescOp} {d : Desc} {s : State} (h : reachesWide op d s = true) :
    Reaches op d s ∧ runWide (atOrderPoint op d s) op d = true ∧ wideMalformed op d = false := by
  simp only [reachesWide, Bool.and_eq_true, Bool.not_eq_true', beq_iff_eq] at h
  exact ⟨{ takes := h.1.1.1, front := h.1.1.2 }, h.1.2, h.2⟩

theorem test_hyps_RunOrders_wide :
    reachesWide .resume desc0 ringedLead = true ∧ ringedLead.isLead = true ∧
    reachesWide .voteSupply (descAt 24 [1]) ringedVoter = true ∧ ringedVoter.isLead = true ∧
    voteSupplyFirst (descAt 24 [1]) ringedVoter = none ∧
    reachesWide .resume desc0 ringedFollower = true ∧ ringedFollower.isLead = false := by decide +kernel

/-- The lead master holds the order `op` of its own with descriptor `d`, the hold over. -/
def holdingOne (op : DescOp) (d : Desc) : State :=
  { lead with
    run := { lead.run with held := [⟨⟨0, 0, 0, false, op, d⟩, 0⟩], head := 0x1000, modes := List.replicate 10 true }
    clock.up := 8000 }

theorem test_hyps_HeldOrdersTakeEffect_holds (op : DescOp) (d : Desc) (h : headerBad d = false) :
    HoldsOne ⟨0, 0, 0, false, op, d⟩ (holdingOne op d) :=
  { lead := rfl, held := ⟨0, rfl, rfl⟩, ours := ⟨rfl, rfl⟩, header := h }

theorem test_hyps_HeldOrdersTakeEffect :
    (lead.run.held.any (holdOver lead)) = false ∧ headerBad desc0 = false ∧
    (let s := { holdingOne .furrowAdvance desc0 with run.advanceLimit := some 0 }
     noCount desc0 = true ∧ dZeroFrom desc0 24 = true ∧ posMalformed (BitVec.ofNat 64 (dAt desc0 16 8)) = false ∧
       s.run.modes.getD 1 false = true ∧ s.run.advanceLimit = some 0) ∧
    modeMalformed desc0 = false ∧
    (let d := descAt 16 (leBytes 8 0x2000)
     let s := holdingOne .stop d
     headerBad d = false ∧ stopMalformed d = false ∧ s.run.halt = .running ∧ dAt d 24 1 = 0 ∧ s.run.stop = none ∧
       s.run.head.toNat < (BitVec.ofNat 64 (dAt d 16 8) : Pos).toNat ∧ (s.sched.tasks.any fun x => x.seedbed) = false) ∧
    (let d := descAt 24 [1]; stopMalformed d = false ∧ dAt d 24 1 = 1) ∧
    (let s := { holdingOne .resume desc0 with run.halt := .cut }
     s.isLead = true ∧ noCount desc0 = true ∧ dZeroFrom desc0 16 = true ∧ s.run.halt = .cut ∧
       ([1, 2, 5, 6].contains s.holding.restore) = false ∧ reformed s = true) ∧
    (let d := descAt 24 [2]
     let s := { holdingOne .voteSupply d with votes.received := [(0, ⟨0, 1, []⟩)] }
     noCount d = true ∧ dZeroFrom d 25 = true ∧ dAt d 24 1 ≤ 2 ∧ s.run.modes.getD 5 false = true ∧
       s.run.halt = .running ∧ s.votes.openStep = some (dAt d 16 8) ∧ s.votes.decided = none ∧
       reductionComplete s = true ∧ dAt d 24 1 = outRetry) := by
  decide +kernel

/-- A group of module 0 alone, of number 4. -/
def groupDesc : Desc := descAt 16 (leBytes 2 4 ++ List.replicate 14 0 ++ List.replicate 32 0xFF)

/-- The ringed module once group 4 is defined. -/
def grouped : State := { ringed with coll.groups := [(4, some { def48 := groupDesc.body })] }

theorem test_hyps_GroupsAndCopies_groups :
    Executes .groupDefine groupDesc ringed ∧ Executes .groupReform groupDesc grouped ∧
    noCount groupDesc = true ∧ groupBad ringed.holding groupDesc.body = false ∧
    (groupMembers groupDesc.body).isEmpty = false ∧ definitionOutside ringed groupDesc.body = false ∧
    groupOf ringed 4 = none ∧ (ringed.coll.groups.filter fun e => e.2.isSome).length < 4096 ∧
    groupOf grouped 4 = some { def48 := groupDesc.body } ∧ definitionOutside grouped groupDesc.body = false ∧
    still grouped = true ∧ memberChanges groupDesc.body groupDesc.body = [] :=
  ⟨executesAt_spec (by decide +kernel), executesAt_spec (by decide +kernel), by decide +kernel⟩

/-- The copy of eight bytes on this module's own link. -/
def copyHere : Desc := { copyDesc with body := (copyDesc.body.take 16 ++ [0xFF, 0xFF] ++ copyDesc.body.drop 18) }

theorem test_hyps_GroupsAndCopies_copies :
    Executes .copyIn copyHere ringed ∧ Executes .copyOut copyHere ringed ∧ copyRefused false copyHere ringed = none ∧
    copyTarget ringed copyHere = some (0, 64) ∧ copyInConflict 0 64 copyHere ringed = false ∧
    copyRefused true copyHere ringed = none ∧ seedbedIn ringed 64 copyHere.count.toNat = false :=
  ⟨executesAt_spec (by decide +kernel), executesAt_spec (by decide +kernel), by decide +kernel⟩

/-- 64 zero bytes but for byte 0. -/
def block64 (op : Byte) : Bytes := op :: List.replicate 63 0

/-- A parameter-block descriptor for module 0, with the block `b`. -/
def blockDesc (b : Bytes) : Desc := { desc0 with count := BitVec.ofNat 32 b.length, data := .ok b }

def exportHereAt (k : Nat) (d : Desc) (s : State) (b : Bytes) : Bool :=
  exportBlockOk s b && byteAt b 0 == k && paramTarget s d == some [0] && targetsMe s d && (othersOf s [0]).isEmpty &&
    byteAt b 0 != 3

theorem exportHereAt_spec {k : Nat} {d : Desc} {s : State} {b : Bytes} (h : exportHereAt k d s b = true)
    (hb : exportBlock d = .ok b) (hl : b.take 64 = b) : ExportHere k d s b [0] := by
  simp only [exportHereAt, Bool.and_eq_true, beq_iff_eq, List.isEmpty_iff, bne_iff_ne, ne_eq] at h
  exact { block := ⟨b, hb, by rw [if_neg h.2, hl]⟩, good := h.1.1.1.1.1, op := h.1.1.1.1.2, all := h.1.1.1.2, me := h.1.1.2
          alone := h.1.2 }

/-- The ringed module in a run whose export may be acknowledged by order. -/
def ringedPulled : State := { ringed with run.modes := List.replicate 10 true }

theorem test_hyps_ExportOrders :
    (let d := withBlockOp 0 (blockDesc (block64 0))
     Executes .exportConfigure d ringed ∧ ExportHere 0 d (atOrderPoint .exportConfigure d ringed) (block64 0) [0]) ∧
    (let d := withBlockOp 0 (blockDesc (block64 0))
     Executes .exportConfigure d ringedLead ∧
       ExportHere 0 d (atOrderPoint .exportConfigure d ringedLead) (block64 0) [0]) ∧
    (let d := withBlockOp 1 (blockDesc (block64 1))
     Executes .exportConfigure d ringedPulled ∧
       ExportHere 1 d (atOrderPoint .exportConfigure d ringedPulled) (block64 1) [0]) ∧
    (let d := withBlockOp 2 (blockDesc (block64 2))
     Executes .exportConfigure d ringed ∧ ExportHere 2 d (atOrderPoint .exportConfigure d ringed) (block64 2) [0]) ∧
    still ringed = true ∧ still ringedLead = false ∧ ringedPulled.run.modes.getD 8 false = true ∧
    field (block64 1) 8 8 < ringedPulled.exporter.nextSeq ∧ ringedPulled.exporter.retained = [] ∧
    ringed.run.isOn = false := by
  refine ⟨⟨executesAt_spec (by decide +kernel), exportHereAt_spec (by decide +kernel) rfl rfl⟩,
    ⟨executesAt_spec (by decide +kernel), exportHereAt_spec (by decide +kernel) rfl rfl⟩,
    ⟨executesAt_spec (by decide +kernel), exportHereAt_spec (by decide +kernel) rfl rfl⟩,
    ⟨executesAt_spec (by decide +kernel), exportHereAt_spec (by decide +kernel) rfl rfl⟩, by decide +kernel⟩

theorem test_hyps_ExportOrders_replay :
    (let d := withBlockOp 3 (blockDesc (block64 3))
     Executes .exportConfigure d ringed ∧ ExportHere 3 d (atOrderPoint .exportConfigure d ringed) (block64 3) [0] ∧
       replayEntries ringed (field (block64 3) 24 8) (block64 3).length (slice (block64 3) 64 (field (block64 3) 16 8)) =
         some []) :=
  ⟨executesAt_spec (by decide +kernel),
    { block := ⟨block64 3, rfl, rfl⟩, good := by decide +kernel, op := by decide, all := by decide +kernel
      me := by decide +kernel, alone := by decide +kernel }, rfl⟩

/-! A root of one block of 2 x 2 in binary32, its statistic, and the segment that holds them -/

def stat0 : StatRec :=
  { running := 4, pendingT := 5, kind := 2, norm := 0, firstFold := false, interval := 1, phase := 0, blockLog2 := 8
    beta := 0x3F000000, layer := 0, multM1 := 0, rows := 2, cols := 2 }

def root0 : RootRec :=
  { stat := 0, root := 3, work := 6, algorithm := 2, pLog2 := 1, precision := false, dampMode := false, carry := false
    ageAction := false, biasCorrect := false, strict := false, deadlineM1 := 0, maxAge := 0, iterLimit := 0
    epsilon := 0x322BCC77, tol := 0, harrows := 0 }

def rootSegment : Segment := { seg0 with stats := [stat0], roots := [root0] }

/-- The ringed lead master, which holds the segment of the root and its tensor, and step 0 of which is committed. -/
def rooted : State :=
  { ringedLead with
    graph := { ringedLead.graph with
      dir := [(0, { state := 1, segment := some rootSegment })], tensors := [(3, some tensor0)] }
    run.modes := [false, false, false, false, true], run.lastCommit := some 0 }

def form0 : SolveForm := ⟨stat0, root0, tensor0⟩

/-- A root for block 0 of the record, for the fold of step 0. -/
def supplyDesc : Desc :=
  { descAt 48 (leBytes 8 (rootSignature stat0 root0 fB32 0)) with count := 16, data := .ok (List.replicate 16 0) }

theorem test_hyps_SnapshotSupplyAndPin_supply :
    Executes .rootSupply supplyDesc rooted ∧ supplyForm rooted supplyDesc = some form0 ∧
    BitVec.ofNat 16 (dAt supplyDesc 40 2) = rooted.holding.moduleId ∧ rooted.run.modes.getD 4 false = true ∧
    inHolding rooted.holding rooted.holding.moduleId = true ∧ dZeroIn supplyDesc 42 6 = true ∧
    dZeroFrom supplyDesc 56 = true ∧ supplyDesc.data = .ok (List.replicate 16 0) ∧
    form0.stat.due (dAt supplyDesc 32 8) = true ∧ rooted.run.lastCommit = some 0 ∧ dAt supplyDesc 32 8 ≤ 0 ∧
    (installedHeader rooted form0 (supplyKey supplyDesc).block).state = 0 :=
  ⟨executesAt_spec (by decide +kernel), by decide +kernel⟩

/-- A SNAPSHOT to host memory, and one to this module's memory. -/
def snapHost : Desc := descAt 24 [1]

def snapHere : Desc := desc0

theorem test_hyps_SnapshotSupplyAndPin_snapshot :
    (let s := { ringed with run.lastCommit := some 0 }
     Executes .snapshot snapHost s ∧ noCount snapHost = true ∧ bits (dAt snapHost 24 1) 2 6 = 0 ∧
       dZeroFrom snapHost 25 = true ∧ s.run.lastCommit.isSome = true ∧ s.run.halt ≠ .smear ∧ s.run.halt ≠ .noLead ∧
       bitOf (dAt snapHost 24 1) 0 = true) ∧
    (let s := { ringed with run.lastCommit := some 0 }
     let p := atOrderPoint .snapshot snapHere s
     Executes .snapshot snapHere s ∧ bitOf (dAt snapHere 24 1) 0 = false ∧
       lamioTarget p (dAt snapHere 16 8) = some (0, 0) ∧ 0 + (snapshotRecord p false).1.length ≤ p.mem.capacity ∧
       touchesReserved p 0 (snapshotRecord p false).1.length = false ∧ p.quiet = true) :=
  ⟨⟨executesAt_spec (by decide +kernel), by decide +kernel⟩, ⟨executesAt_spec (by decide +kernel), by decide +kernel⟩⟩

/-- Pages 0 of module 0 pinned near. -/
def pinDesc : Desc := descAt 24 (leBytes 8 pageBytes ++ [1])

theorem test_hyps_SnapshotSupplyAndPin_pin :
    Executes .placementPin pinDesc ringed ∧ pinMalformed ringed pinDesc = false ∧
    BitVec.ofNat 16 (dAt pinDesc 40 2) = ringed.holding.moduleId ∧
    inHolding ringed.holding ringed.holding.moduleId = true ∧
    touchesReserved ringed (dAt pinDesc 16 8) (dAt pinDesc 24 8) = false ∧ dAt pinDesc 33 1 = 0 ∧
    pinFits ringed (dAt pinDesc 32 1 == 2) (pinPages pinDesc) = true :=
  ⟨executesAt_spec (by decide +kernel), by decide +kernel⟩

def blockHereAt (ok : Bytes → Bool) (d : Desc) (s : State) (b : Bytes) : Bool :=
  ok b && paramTarget s d == some [0] && targetsMe s d && (othersOf s [0]).isEmpty

theorem blockHereAt_spec {ok : Bytes → Bool} {d : Desc} {s : State} {b : Bytes} (h : blockHereAt ok d s b = true)
    (hb : paramBlock d = .ok b) : BlockHere ok d s b [0] := by
  simp only [blockHereAt, Bool.and_eq_true, beq_iff_eq, List.isEmpty_iff] at h
  exact { block := hb, good := h.1.1.1, all := h.1.1.2, me := h.1.2, alone := h.2 }

theorem test_hyps_DiagnosticOrders_counters (k : Nat) (hk : k < 4) :
    (let d := withBlockOp k (blockDesc (block64 0))
     Executes .counterConfigure d ringed ∧
       BlockHere counterBlockOk d (atOrderPoint .counterConfigure d ringed) (block64 (BitVec.ofNat 8 k)) [0] ∧
       byteAt (block64 (BitVec.ofNat 8 k)) 0 = k) := by
  have h : ∀ i : Fin 4, executesAt .counterConfigure (withBlockOp i (blockDesc (block64 0))) ringed = true ∧
      blockHereAt counterBlockOk (withBlockOp i (blockDesc (block64 0)))
        (atOrderPoint .counterConfigure (withBlockOp i (blockDesc (block64 0))) ringed) (block64 (BitVec.ofNat 8 i)) = true ∧
      byteAt (block64 (BitVec.ofNat 8 i)) 0 = i := by decide +kernel
  exact ⟨executesAt_spec (h ⟨k, hk⟩).1, blockHereAt_spec (h ⟨k, hk⟩).2.1 rfl, (h ⟨k, hk⟩).2.2⟩

theorem test_hyps_DiagnosticOrders_trace (k : Nat) (hk : k < 4) :
    (let d := withBlockOp k (blockDesc (block64 0))
     Executes .traceConfigure d ringed ∧
       BlockHere traceBlockOk d (atOrderPoint .traceConfigure d ringed) (block64 (BitVec.ofNat 8 k)) [0] ∧
       byteAt (block64 (BitVec.ofNat 8 k)) 0 = k) := by
  have h : ∀ i : Fin 4, executesAt .traceConfigure (withBlockOp i (blockDesc (block64 0))) ringed = true ∧
      blockHereAt traceBlockOk (withBlockOp i (blockDesc (block64 0)))
        (atOrderPoint .traceConfigure (withBlockOp i (blockDesc (block64 0))) ringed) (block64 (BitVec.ofNat 8 i)) = true ∧
      byteAt (block64 (BitVec.ofNat 8 i)) 0 = i := by decide +kernel
  exact ⟨executesAt_spec (h ⟨k, hk⟩).1, blockHereAt_spec (h ⟨k, hk⟩).2.1 rfl, (h ⟨k, hk⟩).2.2⟩

/-- A counter configuration that enables sampling of one counter. -/
def sampleBlock : Bytes :=
  [0, 1] ++ leBytes 2 1 ++ leBytes 4 0 ++ leBytes 8 1000 ++ leBytes 8 0 ++ leBytes 8 65536 ++ List.replicate 32 0 ++ [0x90, 0x0B]

theorem test_hyps_DiagnosticOrders_stones :
    counterBlockOk sampleBlock = true ∧ (sampleCfgOf sampleBlock).enable = true ∧
    (sampleCfgOf (block64 0)).enable = false ∧
    (let s := { ringed with security.state := 1 }
     Executes .injectConfigure (blockDesc (block64 0)) s ∧
       BlockHere injectBlockOk (blockDesc (block64 0)) (atOrderPoint .injectConfigure (blockDesc (block64 0)) s) (block64 0) [0] ∧
       s.security.state = 1 ∧ still s = true) ∧
    (let s := { ringedLead with security.state := 1 }
     Executes .injectConfigure (blockDesc (block64 0)) s ∧
       BlockHere injectBlockOk (blockDesc (block64 0)) (atOrderPoint .injectConfigure (blockDesc (block64 0)) s) (block64 0) [0] ∧
       s.security.state = 1 ∧ still s = false) :=
  ⟨by decide +kernel, by decide +kernel, by decide +kernel,
    ⟨executesAt_spec (by decide +kernel), blockHereAt_spec (by decide +kernel) rfl, by decide +kernel⟩,
    ⟨executesAt_spec (by decide +kernel), blockHereAt_spec (by decide +kernel) rfl, by decide +kernel⟩⟩

theorem test_hyps_AttestationCommands :
    lone.power.pwrGood = true ∧ lone.power.linkUp = true ∧ (lone.security.busy.any fun b => b.1 == 0) = false ∧
    (lone.security.busy.any fun b => b.1 == 1) = false ∧
    (let s := { lone with security.busy := [(1, [])] }; (s.security.busy.any fun b => b.1 == 1) = true) ∧
    ({ lone with power.pwrGood := false }.power.pwrGood = false) ∧
    ([] : Bytes).length < 8 ∧ (let req : Bytes := 2 :: List.replicate 7 0; 8 ≤ req.length ∧ byteAt req 0 ≠ 1) ∧
    (let req : Bytes := [1, BitVec.ofNat 8 sahithIdentity, 0, 0, 0, 0, 0, 0]
     req.length = 8 ∧ byteAt req 0 = 1 ∧ byteAt req 1 = sahithIdentity ∧ zeroAt req 2 2 = true ∧ field req 4 4 = 0) := by
  decide +kernel

theorem test_hyps_AttestationCommands_attest :
    (let d := { blockDesc (block64 0) with data := HostData.ok (block64 1) }
     Executes .attest d ringed ∧ BlockHere (fun _ => true) d (atOrderPoint .attest d ringed) (block64 1) [0]) :=
  ⟨executesAt_spec (by decide +kernel), blockHereAt_spec (by decide +kernel) rfl⟩

/-- A module that samples one counter every microsecond into its local area, and program counters every microsecond. -/
def sampling : State :=
  { lone with
    counters := { lone.counters with
      cfg := { enable := true, pc := true, pcInterval := 1, interval := 1000, size := 65536, ids := [0xB90] } }
    clock.up := 1000 }

theorem test_hyps_SamplingRows :
    sampling.counters.cfg.enable = true ∧ sampling.counters.cfg.host = false ∧ sampling.counters.cfg.furrow = false ∧
    sampling.counters.lastAt + sampling.counters.cfg.interval ≤ sampling.clock.up ∧
    sampling.counters.produced % sampling.counters.cfg.size + (counterRecord sampling sampling.counters.cfg.ids).length ≤
      sampling.counters.cfg.size ∧
    sampling.counters.cfg.pc = true ∧ sampling.counters.lastPcAt + us sampling.counters.cfg.pcInterval ≤ sampling.clock.up ∧
    (let s := { sampling with flash.record.coreMap := 1 }
     s.counters.produced % s.counters.cfg.size + (pcRecord s []).length ≤ s.counters.cfg.size) ∧
    (let s := { sampling with counters.cfg.host := true, counters.suspended := true }
     s.counters.cfg.host = true ∧ s.counters.suspended = true) ∧
    lone.counters.cfg.enable = false ∧
    (let s := { lone with sheaf := { state := 1, triggers := 8, writeIndex := 1, counter := 0xB90 } }
     s.sheaf.state = 1 ∧ s.sheaf.counterHit = false ∧ s.sheaf.triggers.testBit 3 = true ∧ s.sheaf.writeIndex ≠ 0 ∧
       s.sheaf.threshold.toNat ≤ counterValue s s.sheaf.counter) ∧
    (let s := { lone with sheaf := { threshold := 1, counter := 0xB90 } }; counterValue s s.sheaf.counter < s.sheaf.threshold.toNat) ∧
    (let s := { lone with sheaf := { state := 2, freezeAt := 5, writeIndex := 5 } }
     s.sheaf.state = 2 ∧ s.sheaf.freezeAt ≤ s.sheaf.writeIndex) ∧
    (let s := { lone with sheaf := { state := 2, freezeAt := 5, writeIndex := 4 } }; s.sheaf.writeIndex < s.sheaf.freezeAt) := by
  decide +kernel

theorem test_hyps_FurrowDistances :
    0 + 1 < 2 ^ 36 ∧ 7 < 8 ∧ 8190 + 1 < 2 ^ 13 ∧
    (let s := { sampling with counters.cfg.furrow := true }
     s.counters.cfg.enable = true ∧ s.counters.cfg.furrow = true ∧
       s.run.head.toNat < s.counters.lastHead.toNat + s.counters.cfg.interval) := by decide +kernel

theorem test_hyps_FurrowMessages :
    member.run.isOn = true ∧ member.isLead = false ∧ member.run.halt = .running ∧ lone.run.isOn = false ∧
    lead.isLead = true ∧ (1 : ModId) ≠ member.holding.moduleId ∧
    (let s := { lead with clock.up := 10000000000 }
     s.isLead = true ∧ s.moving = true ∧ s.run.stallRaised = false ∧ s.run.headAt + ms s.tmo.stall.toNat ≤ s.clock.up) ∧
    ({ lead with run.stallRaised := true }.run.stallRaised = true) ∧ member.assigned = true ∧
    (let s := { member with run.isOn := false }; s.assigned = true ∧ s.isLead = false ∧ s.run.isOn = false) ∧
    (⟨false, 0, 0, 0⟩ : StopMsg).scheduled = false ∧
    (⟨true, 0x1000, 0, 0⟩ : StopMsg).scheduled = true ∧ member.run.stop = none ∧
    (member.sched.tasks.any fun x => x.seedbed) = false ∧
    cutReached { member with run.stop := some ⟨true, 0, 0, 0⟩ } = true ∧ cutReached member = false := by decide +kernel

/-- The lead master of a holding of two. -/
def lead2 : State := { lead with holding.extentM1 := 0x1000 }

theorem test_hyps_HoldingMessages_beats :
    member.ready = true ∧ member.assigned = true ∧ member.holding.isolated = false ∧ cutOff member = false ∧
    State.reset.ready = false ∧
    (let s := { member with holding.beats := [(0, 0, 1, 0)] }
     s.holding.beats.find? (fun b => b.1 == 0) = some (0, 0, 1, 0)) ∧
    (let s := { lead2 with clock.up := 50000000 }
     watches s 0x1000 = true ∧ s.holding.isolated = false ∧ (0x1000 : ModId) ∉ s.holding.lost ∧
       silentSince s (lastBeatOf s 0x1000) = true ∧ cutOff s = false) ∧
    silentSince member (lastBeatOf member 0) = false ∧ posMalformed 0 = false ∧
    (0 : ModId) ≠ member.holding.moduleId ∧ (0 : ModId) ∉ member.holding.lost ∧
    lone.holding.isMaster = true ∧ lone.host.ctx.eventEnable = false := by decide +kernel

/-- A job that waits for the answers of modules 0x1000 and 0x2000. -/
def job0 : Job := ⟨desc0, .placementPin, .targets [0x1000, 0x2000] stOk 0, none, 0⟩

theorem test_hyps_HoldingMessages_groups :
    (let s := { member with coll.parts := [(0, 3, 0, [1]), (0, 3, 1, [2])] }
     s.assigned = true ∧ 3 < 2 ^ 16 ∧ s.coll.parts = [(0, 3, 0, [1]), (0, 3, 1, [2])]) ∧ member.coll.parts = [] ∧
    lead.isLead = true ∧ ((0 : W64)).toNat = stepOf lead.run.head ∧ (0x1000 : ModId) ∉ member.holding.restoring ∧
    (let s := { lone with run.jobs := [job0] }
     s.run.jobs = [job0] ∧ resultIdent job0.d = 0 ∧ job0.kind = .targets [0x1000, 0x2000] stOk 0 ∧
       ([0x2000] : List ModId) ≠ [] ∧ (0x1000 : ModId) ∉ ([0x2000] : List ModId)) := by decide +kernel

theorem test_hyps_HoldingMessages_late :
    (let s := { member with run.jobs := [{ job0 with kind := .resume }], clock.up := 1000000000 }
     agreementLate s agreeDiscard = true ∧ agreeDiscard ≠ agreeGroup ∧ s.run.isOn = true ∧ s.isLead = false) ∧
    (let s := { lead2 with run.halt := .cut, clock.up := 1000000000 }
     agreementLate s agreeStop = true ∧ agreeStop ≠ agreeGroup ∧ s.isLead = true ∧ s.run.halt ≠ .running) ∧
    agreementLate member agreeStop = false ∧
    (let o : FwdOrder := ⟨0x1000, 0, 0, false, .stop, desc0⟩
     lead2.assigned = true ∧ o.op ≠ .runBegin ∧ forLead lead2 o = true) ∧
    (let o : FwdOrder := ⟨0, 0, 0, false, .modeSet, desc0⟩
     member.assigned = true ∧ o.source ≠ member.holding.moduleId ∧ member.isLead = false ∧ orderForMe o member = true) ∧
    (let o : FwdOrder := ⟨0, 0, 0, false, .resume, desc0⟩
     let s := { member with run.halt := .cut }
     o.op = .resume ∧ s.holding.isolated = false ∧ s.run.halt = .cut ∧ orderForMe o s = true) := by decide +kernel

/-! ### Votes and collectives -/

def vote0 (outcome : Nat) : VoteMsg :=
  { step := 0, bits := 0, outcome := outcome, supplied := false, timedOut := false, contributors := 1, firstSetter := []
    timestamp := 0 }

theorem test_hyps_VoteRows_words :
    lead.isLead = true ∧ lead.votes.openStep = some 0 ∧ lead.votes.decided = none ∧
    (lead.votes.received.any fun c => c.1 == 0) = false ∧
    reductionComplete { lead with votes.received := [(0, ⟨5, 1, []⟩)] } = true ∧
    reductionComplete { lead2 with votes.received := [(0, ⟨5, 1, []⟩)] } = false ∧
    lead.run.halt = .running ∧ lead.run.modes.getD 5 false = false ∧
    ringedFollower.isLead = false ∧ ringedFollower.holding.isMaster = true := by decide +kernel

theorem test_hyps_VoteOutcomeTable :
    (let s := lead
     let got := fun w : W16 => { s with
       votes.received := (s.votes.received.filter fun c => c.1 != 0) ++ [(0, ⟨w, 1, []⟩)] }
     s.isLead = true ∧ s.votes.openStep = some 0 ∧ s.votes.decided = none ∧ s.votes.outcome = none ∧ s.run.halt = .running ∧
     s.run.modes.getD 5 false = false ∧ reductionComplete (got 0) = true ∧
     (reducedWord (got 0)).bits = 0 ∧
     (reducedWord (got 0x80)).bits.extractLsb' 8 8 = 0 ∧ (reducedWord (got 0x80)).bits.extractLsb' 0 8 ≠ 0 ∧
     (reducedWord (got 0x100)).bits.extractLsb' 8 8 ≠ 0) := by decide +kernel

theorem test_hyps_VoteRows_outcomes :
    member.isLead = false ∧ member.votes.openStep = some (vote0 outCommit).step ∧ member.votes.outcome = none ∧
    member.moving = true ∧ (vote0 outCommit).outcome = outCommit ∧ committed member 0 = false ∧
    (let s := { member with mem.layers := [⟨.staged 0, [(64, 7)]⟩] }
     s.mem.layers = [⟨.staged (vote0 outCommit).step, [(64, 7)]⟩] ∧ s.harrows.blocks = []) ∧
    (vote0 outSkip).outcome = outSkip ∧ (vote0 outRetry).outcome = outRetry := by decide +kernel

theorem test_hyps_VoteRows_bounds :
    (let s := { lead2 with run.head := posOf 0 passC 0, clock.up := 30000000000 }
     s.votes.openStep = some 0 ∧ s.moving = true ∧ (s.run.jobs.any (beginLate s)) = false ∧ s.votes.timeoutSent = false ∧
     s.votes.outcome = none ∧ voteBounds s 0 ≠ 0 ∧ s.isLead = true ∧ s.votes.decided = none ∧ reductionComplete s = false) ∧
    (let s := { member with run.head := posOf 0 passC 0, clock.up := 30000000000 }
     s.votes.openStep = some 0 ∧ s.moving = true ∧ (s.run.jobs.any (beginLate s)) = false ∧ s.votes.timeoutSent = false ∧
     s.votes.outcome = none ∧ voteBounds s 0 ≠ 0 ∧ s.isLead = false) ∧
    member.votes.openStep ≠ some 1 ∧ lone.votes.openStep = none := by decide +kernel

/-- The lead master halted by an immediate stop after a RETRY, every module having acknowledged it. -/
def halted : State :=
  { lead with
    run := { lead.run with
      halt := .smear, stopAcks := [0]
      stopMap := some { kind := 1, sourceKind := 2, sourceHolding := 0, aborted := 0, head := 0, target := 0, timestamp := 0
                        lastCommit := 0, seedbedHead := 0, streams := [] } }
    votes.outcome := some (0, outRetry) }

theorem test_hyps_VoteRows_resume :
    mayResume halted = true ∧ mayResume lead = false ∧
    (let s := { member with run.head := posOf 0 passC 0 }
     s.votes.openStep = some 0 ∧ s.moving = true ∧ s.votes.contributed = false ∧ 0 = stepOf s.run.head ∧
     localUDone s 0 = true ∧ commitBelowStop s 0 = true ∧ issuesWaiting s 0 (fun _ _ => true) = false ∧
     s.holding.isMaster = false ∧ s.holding.masterId ∉ s.holding.lost) := by decide +kernel

/-- A collective of group 4, whose data have not begun to move. -/
def coll0 : CollInst :=
  { step := 0, task := 0, group := 4, epoch := 0, seq := 0, op := opBarrier, operator := 0, mode := 0, count := 1, root := 0
    format := fB32, block := 0, seedbed := false, phase := 0, mine := [0] }

/-- The definition of group 4 with modules 0 and 0x1000. -/
def pairDef : Bytes := leBytes 2 4 ++ [0, 0, 0x10] ++ List.replicate 11 0 ++ List.replicate 32 0xFF

/-- The lead master of two modules, group 4 of both defined, one collective of it live. -/
def collecting (c : CollInst) : State :=
  { lead2 with coll := { lead2.coll with groups := [(4, some { def48 := pairDef })], live := [c] } }

def collMsg (phase : Nat) : CollMsg := { key := ⟨4, 0, 0⟩, phase := phase, ranks := [1], source := 0x1000, values := [7], events := [] }

theorem test_hyps_CollectiveMessages_data :
    (let c := { coll0 with op := opAllGather }
     let s := collecting c
     s.coll.live = [c] ∧ ofKey (collMsg 4).key c = true ∧ (groupOf s c.group).isSome = true ∧ c.phase = 0 ∧
       c.copies = true ∧ (c.blocks.any fun b => b.1 == (collMsg 4).ranks.headD 0 && b.2.1 == (collMsg 4).key.index) = false) ∧
    (let c := { coll0 with op := opAllReduce, segs := [{ index := 0 }] }
     let s := collecting c
     s.coll.live = [c] ∧ ofKey (collMsg 4).key c = true ∧ c.copies = false ∧ c.segs = [{ index := 0 }] ∧
       ({ index := 0 } : SegState).index = (collMsg 4).key.index ∧ (collMsg 4).phase = 4 ∧ (collMsg 4).values ≠ [] ∧
       s.coll.bin = [] ∧ (collMsg 0).phase ≠ 4 ∧ (([] : List CollMsg).any fun p => p.phase == (collMsg 0).phase) = false) ∧
    lead2.coll.live.find? (ofKey (collMsg 0).key) = none := by decide +kernel

theorem test_hyps_CollectiveMessages_musters :
    (let s := { collecting coll0 with coll.musters := [(4, 0, 0, 0x1000, 9, false)] }
     (groupOf s 4).isSome = true ∧ (groupMembers pairDef).head? = some s.holding.moduleId ∧
     decidedWithout s 4 0 0x1000 = none ∧
     (4, 0, 0, 0x1000, 9, false) ∈ s.coll.musters ∧ (0x1000 : ModId) ≠ 0 ∧ (0x1000 : ModId) ≠ s.holding.moduleId ∧
     (9 : W64) ≠ 8) ∧
    (let s := { collecting coll0 with coll.live := [], coll.musters := [(4, 0, 0, 0, 9, false)] }
     s.coll.live = [] ∧ (∀ x ∈ s.coll.musters, x.2.2.2.2.1 = 9) ∧
     groupMembers pairDef = [0, 0x1000] ∧
     (s.coll.musters.any fun x => x.1 == 4 && x.2.1 == 0 && x.2.2.1 == 0 && x.2.2.2.1 == 0) = true) ∧
    ((collecting coll0).coll.live = [coll0] ∧ coll0.op ≠ opEval ∧ coll0.phase = 0 ∧ (collecting coll0).coll.bin = [] ∧
      coll0.op = opBarrier ∧ (groupOf (collecting coll0) 4).isSome = true) := by decide +kernel

theorem test_hyps_CollectiveMessages_ranges :
    (let c := { coll0 with op := opAllGather, phase := 1 }
     let s := collecting c
     s.coll.live = [c] ∧ ofKey ⟨4, 0, 0⟩ c = true ∧ c.phase = 1 ∧ c.copies = true ∧
     (c.blocks.any fun b => b.1 == (rankOf (membersOf s c.group) 0x1000).getD 0 && b.2.1 == 0) = false ∧ 0 ∉ c.asked) ∧
    (let c := { coll0 with op := opAllGather, phase := 1, asked := [0] }; 0 ∈ c.asked) ∧
    (let c := { coll0 with sent := [(0x1000, collMsg 0)] }
     (collecting c).coll.live = [c] ∧ ofKey ⟨4, 0, 0⟩ c = true ∧ (collMsg 0).key = ⟨4, 0, 0⟩ ∧
       0 < (collMsg 0).values.length) ∧
    lead2.coll.bin = [] ∧ (0x1000 : ModId) ≠ lead2.holding.moduleId := by decide +kernel

theorem test_hyps_CollectiveMessages_slots :
    (let r : MyReserve := ⟨⟨4, 0, 0⟩, [], false, 0⟩
     let s := { lead2 with coll.reserves := [r] }
     s.coll.reserves = [r] ∧ r.key = ⟨4, 0, 0⟩ ∧ r.firm = false ∧ s.coll.bin = [] ∧ s.coll.live = []) ∧
    (let r : MyReserve := ⟨⟨4, 0, 0⟩, [0], false, 0⟩
     let s := { collecting coll0 with coll.reserves := [r] }
     s.coll.live = [coll0] ∧ ofKey ⟨4, 0, 0⟩ coll0 = true ∧ groupMembers pairDef = [0, 0x1000] ∧
     addNew r.granted 0x1000 = [0, 0x1000] ∧
     s.clock.up < r.since + ms s.tmo.coll.toNat ∧
     r.since + ms s.tmo.coll.toNat ≤ { s with clock.up := 100000000 }.clock.up) ∧
    ({ lead2 with coll.bin := [⟨⟨4, 0, 0⟩, 0x1000, 1⟩] }.coll.bin = [⟨⟨4, 0, 0⟩, 0x1000, 1⟩]) := by decide +kernel

/-! ### Tasks -/

/-- Task 0 of step 0, of segment 0, on core 0. -/
def task0 (phase : Phase) : TaskInst :=
  { step := 0, task := 0, seg := 0, index := 0, stream := streamF, gate := 0, phase := phase, seedbed := false, attempt := 1
    unit := 0, tiles := 1, done := 0, overran := [], cells := [(64, 1)], staged := false, event := none, findings := 0
    counts := [], status := 0, contributions := [], boost := 0, eligibleAt := some 0, pubSeq := 0 }

/-- A task record of a kind, with its input and output views. -/
def rec0 (kind : Nat) (ins outs : List Nat) : TaskRec :=
  { kind := kind, stream := streamF, stint := 3, inCount := ins.length, outCount := outs.length, predCount := 0, gate := 0
    succOffset := 0, succCount := 0, inView := ins, outView := outs, program := noneIndex, record := 0, blockFirst := 0
    blockCount := 1, param := List.replicate 64 0 }

/-- A tensor of 2 x 2 in binary32 at the byte `home`. -/
def tensor2 (home : Nat) : TensorRec := { tensor0 with rank := 2, extent := [2, 2, 1, 1, 1, 1], homeOffset := home }

/-- The segment of one task, over the tensors 0 to 7 of 2 x 2 and their views. -/
def taskSegment (k : TaskRec) : Segment :=
  { rootSegment with
    tensors := (List.range 8).map fun i => tensor2 (4096 * i)
    views := (List.range 8).map fun i => { tensor := i, start := [0, 0, 0, 0, 0, 0], span := [2, 2, 1, 1, 1, 1] }
    tasks := [k] }

/-- The lead master with the task of record `k` in a phase. -/
def tasked (k : TaskRec) (phase : Phase) : State :=
  { lead with
    graph := { lead.graph with dir := [(0, { state := 1, segment := some (taskSegment k) })] }
    sched.tasks := [task0 phase] }

/-- A matrix product of views 0 and 1 into view 2. -/
def matRec : TaskRec := rec0 0x01 [0, 1] [2]

theorem test_hyps_SchedulerAndFaultRows_tasks :
    (let s := tasked matRec .created
     s.run.isOn = true ∧ s.sched.tasks = [task0 .created] ∧ nextAdmission s = some (task0 .created)) ∧
    lone.run.isOn = false ∧
    (let s := { tasked matRec .admitted with clock.up := 5000000 }
     s.sched.tasks = [task0 .admitted] ∧ (task0 .admitted).eligibleAt = some 0 ∧ eligible s (task0 .admitted) = true ∧
     0 + ms s.tmo.ageing.toNat ≤ s.clock.up) ∧
    eligible (tasked matRec .created) (task0 .created) = false ∧
    (let s := tasked matRec .computed
     let t := task0 .computed
     s.sched.tasks = [t] ∧ t.phase = .computed ∧ t.done < t.tiles ∧ ownEnd (kindOf s t) = false ∧ s.sched.halted = [] ∧
     (s.lamio.txns.any fun x => x.task == some (t.step, t.task)) = false ∧ t.done + 1 = t.tiles ∧ t.contributions = [] ∧
     t.staged = false ∧ t.commitWork = false ∧ t.cells ≠ [] ∧ t.stream ≠ streamB ∧ 0 ≠ t.attempt ∧
     ({ t with tiles := 2 }.done + 1 ≠ { t with tiles := 2 }.tiles)) := by decide +kernel

/-- A NaN event. -/
def event0 : NanEvent := { outIndex := 0, kIndex := 0, cause := 1, stage := 0, unit := 0, gleaner := false }

theorem test_hyps_SchedulerAndFaultRows_traps :
    (let c : Nat × Pos × W32 × Nat × Bool × NanEvent := (0, 0, 0, 0, false, event0)
     let s := { lead with sched.candidates := [c], numerics := { lead.numerics with trapEnable := true, trapArmed := true } }
     lowestCandidate s = some c ∧ trapArmed s = true ∧ settledBefore s c.1 c.2.1 c.2.2.1 = true) ∧
    trapArmed lead = false := by decide +kernel

theorem test_hyps_SchedulerAndFaultRows_units :
    (let s := tasked matRec .computed
     let t := task0 .computed
     t.unit = 0 ∧ unitClass (kindOf s t) = 0 ∧ coreEnabled s 0 = true ∧ t.overran = []) ∧
    coreEnabled lead 0 = true ∧ runningOn lead 0 = [] ∧
    coreEnabled { lead with sched.retiredCores := [0] } 0 = false ∧
    (0 ∈ { lead with sched.suspects := [0] }.sched.suspects) ∧ 0 ∉ lead.sched.suspects ∧
    harrowEnabled lead 255 = true ∧ harrowEnabled { lead with sched.retiredHarrows := [255] } 255 = false ∧
    31 ∉ lead.sched.retiredGleaners ∧ (31 ∈ { lead with sched.retiredGleaners := [31] }.sched.retiredGleaners) ∧
    (let s := { lead with security.state := 1 }
     s.security.state = 1 ∧ coreEnabled s 0 = true ∧ 0 ∉ s.sched.halted) ∧
    (let s := { lead with security.state := 1, sched.halted := [0] }; s.security.state = 1 ∧ 0 ∈ s.sched.halted) ∧
    lead.security.state ≠ 1 := by decide +kernel

theorem test_hyps_SchedulerAndFaultRows_poison :
    (let s := { tasked matRec .admitted with mem.poison := [0] }
     (0 ∈ poisonedOperands s (task0 .admitted)) ∧ intactSource (count 0x2E3 1 s) 0 2 0 = none ∧
     s.votes.openStep = some (task0 .admitted).step) ∧
    0 ∉ poisonedOperands (tasked matRec .admitted) (task0 .admitted) := by decide +kernel

/-- A statistic product of views 0 and 1 with contributions for blocks 0 and 1 that wait. -/
def statRec : TaskRec := rec0 0x02 [0, 1] []

def statTask : TaskInst := { task0 .computed with contributions := [(0, [0, 0, 0, 0]), (1, [0])] }

def contributing : State := { tasked statRec .computed with sched.tasks := [statTask] }

theorem test_hyps_GleanerAdds :
    findTask contributing 0 0 = some statTask ∧ segmentOf contributing 0 = some (taskSegment statRec) ∧
    (taskSegment statRec).stats[0]? = some stat0 ∧
    statTask.contributions.find? (fun c => c.1 == 0) = some (0, [0, 0, 0, 0]) ∧
    (statTask.contributions.any fun c => c.1 != 0) = true ∧ taskRecOf contributing statTask = some statRec ∧
    statTask.phase = .computed ∧ statTask.seg = 0 ∧ statRec.record = 0 ∧
    (statHeader contributing (.task 0 true) stat0.pendingT 0).state = 0 ∧
    (contributors (taskSegment statRec) 0 0).findIdx (· == statTask.index) = 0 := by decide +kernel

/-! ### Memory, discovery, export -/

/-- A module whose page 0 stands in near frame 5, selected to move to the far tier. -/
def paged (state : Nat) : State :=
  { lone with mem := { lone.mem with pages := [(0, { present := true, frame := 5, state := state })] } }

theorem test_hyps_MemoryRows_moves :
    (let x : Selected := ⟨0, true, 1⟩
     let s := { paged 0 with mem.selected := [x] }
     s.mem.selected.find? (fun x => x.page == 0) = some x ∧ movedAlready s x (pageOf s 0) = false ∧ s.run.isOn = false ∧
     (pageOf s 0).state = 0 ∧ pageStaged s 0 = false ∧ nextMove s x = true) ∧
    lone.mem.selected.find? (fun x => x.page == 0) = none ∧ (pageOf (paged 1) 0).state = 1 ∧
    (pageOf (paged 2) 0).state = 2 ∧ (pageOf (paged 3) 0).state = 3 ∧ (pageOf lone 0).state ≠ 1 := by decide +kernel

theorem test_hyps_MemoryRows_errors :
    lone.ready = true ∧ 5 < tierFrames false ∧ (∀ k ∈ [1, 2], k < 32768) ∧ [1, 2].Nodup ∧
    (noteCorrected lone.clock.up (scrubPeriod lone) [1, 2] (healthOf lone false 0 5)).lines.length ≤ 64 ∧
    pageOn (paged 0) false 0 5 = some 0 ∧
    (let s := { paged 0 with mem.health := [⟨false, 0, 5, 0, [], 0, [], [9]⟩] }; 9 ∈ (healthOf s false 0 5).rewritten) ∧
    (let s := paged 0
     (pageOf s (7 / 32768)).present = true ∧ (pageOf s (7 / 32768)).far = false ∧ s.mem.deviceLost = false ∧
     expiriesOf s false (pageRegion (7 / 32768)) + 1 < 16 ∧ (false, 7) ∉ s.mem.reissued ∧ s.holding.isolated = false) ∧
    (let s := { paged 0 with mem.reissued := [(false, 7)] }; (false, 7) ∈ s.mem.reissued) ∧
    (let s := { paged 0 with mem.expiries := [(false, 0, 15)] }
     16 ≤ expiriesOf s false (pageRegion (7 / 32768)) + 1 ∧ s.holding.isolated = false) ∧
    ({ lone with mem.deviceLost := true }.mem.deviceLost = true) := by decide +kernel

/-- A ready module without an ID whose MASTER_SEL is asserted. -/
def candidate : State :=
  { lone with power.masterSel := true, holding := { State.reset.holding with extentM1 := 0x1000, hallM1 := 0x1000 }
              lamio.ports := [(0, { width := 16 })] }

/-- A ready module without an ID. -/
def blank : State := { candidate with power.masterSel := false }

/-- The master of a holding of two that discovers it. -/
def discovering : State :=
  { lead2 with holding := { lead2.holding with state := 1, answered := [(0, 0)] }, clock.up := 100000000 }

theorem test_hyps_DiscoveryRows :
    candidate.ready = true ∧ hostControls candidate = true ∧ masterCandidate candidate = true ∧
    masterCandidate blank = false ∧ blank.assigned = false ∧ blank.holding.setupLock = false ∧
    blank.holding.isMaster = false ∧
    (neighbour candidate.holding candidate.holding.masterId 0 = some 0x1000 ∧ inHolding candidate.holding 0x1000 = true ∧
      portUp candidate 0 = true) ∧
    discovering.holding.isMaster = true ∧ discovering.assigned = true ∧ inHolding discovering.holding 0x1000 = true ∧
    discovering.holding.state = 1 ∧ (discovering.holding.answered.any fun a => a.1 == 0x1000) = false ∧
    discovering.holding.discoverAt + discoveryBound ≤ discovering.clock.up ∧
    discovering.holding.answered.find? (fun a => decide (maxHops < a.2)) = none ∧
    ([(0x1000, 10)] : List (ModId × Nat)).find? (fun a => decide (maxHops < a.2)) = some (0x1000, 10) ∧
    lone.holding.state ≠ 1 ∧
    (let s := { discovering with holding.state := 3 }
     s.holding.state = 3 ∧ vacant s 0x1000 = true ∧ s.holding.reoffered = []) ∧
    vacant lone 0x1000 = false := by decide +kernel

/-- A record that waits to be written to the sink. -/
def record0 : RetainedRecord := { seq := 1, step := 0, bytes := [1, 2, 3], at_ := none, head := 0, time := 0 }

/-- A module that exports to host memory, with one record. -/
def exporting (r : RetainedRecord) : State :=
  { lead with
    exporter := { lead.exporter with
      cfg := { enable := true, sinkHost := true, sinkSize := 2 ^ 30, ackTime := 10 }, retained := [r] }
    clock.up := 10000000 }

theorem test_hyps_ExportAndRestorationRows_records :
    (let s := exporting record0
     s.ready = true ∧ pushes s = true ∧ s.exporter.retained = [record0] ∧ record0.at_ = none ∧
     (0 : W64).toNat ≤ s.exporter.acked ∧ s.exporter.cfg.sinkHost = true ∧ s.power.linkUp = true ∧
     record0.bytes.length ≤ s.exporter.cfg.sinkSize ∧
     s.exporter.produced % s.exporter.cfg.sinkSize + record0.bytes.length ≤ s.exporter.cfg.sinkSize) ∧
    (let r := { record0 with at_ := some 0 }
     let s := exporting r
     (∀ x ∈ s.exporter.retained, x.at_.isSome ∧ s.exporter.acked < x.seq) ∧ s.exporter.retained = [r] ∧
     0 % s.exporter.cfg.sinkSize + r.bytes.length ≤ s.exporter.cfg.sinkSize ∧
     r.time + ms s.exporter.cfg.ackTime ≤ s.clock.up) ∧
    pushes lead = false ∧ lead.exporter.retained = [] := by decide +kernel

theorem test_hyps_ExportAndRestorationRows_budget :
    (let s := { tasked { matRec with stream := 4 } .created with
       run.head := posOf 0 passE 0, exporter.cfg.evalBudget := 1, clock.up := 1000000
       sched.tasks := [{ task0 .created with stream := streamE }] }
     budgetExpired s = true ∧
     (s.sched.tasks.any fun t => t.stream == streamE && t.step == stepOf s.run.head && t.incomplete) = true) ∧
    budgetExpired lead = false ∧ ({ lead with holding.restore := 1 }.holding.restore = 1) ∧
    (let s := { lead2 with graph.tensors := [(3, some tensor0)] }
     (0x1000 : ModId) ∈ runModules s ∧ s.run.isOn = true ∧ (0x1000 : ModId) ∉ s.holding.restoring ∧
     holdsHome s 0x1000 = true ∧ s.exporter.cfg.enable = false) ∧
    lead.assigned = true ∧
    (let s := { lead with
       holding := { lead.holding with restoring := [0], restore := 2, restoreTarget := 3 }
       run := { lead.run with halt := .smear, lastCommit := some 3 }, exporter.chainStep := some 3 }
     s.run.isOn = true ∧ s.holding.moduleId ∈ s.holding.restoring ∧ s.holding.restore = 2 ∧ 3 = s.holding.restoreTarget ∧
     s.run.halt = .smear ∧ survived 3 0 s = true) := by decide +kernel

/-! ### The vector engine -/

/-- A vector program of the tensors 0 and 1 into 2, computed on core 0, whose engine is bound to it. -/
def programRec : TaskRec := { rec0 0x05 [0, 1] [2] with program := 0 }

def engine : State := { tasked programRec .computed with vec := [(0, { task := some (0, 0) })] }

/-- Every register number of an instruction 1. -/
def vec1 : VecArgs := { vec0 with va := 1, vb := 0, vc := 1 }

theorem engagedAt {op : VecOp} {a : VecArgs} {s : State} (h1 : s.ready = true ∧ coreEnabled s 0 = true ∧
    s.sched.halted.contains 0 = false) (h2 : vecFits (viewCount s 0).1 (viewCount s 0).2 (engineOf s 0).tail op a = true) :
    Engaged op 0 a s :=
  { ready := h1.1, known := by decide, enabled := h1.2.1, going := h1.2.2, fits := h2 }

theorem test_hyps_VectorRowsKeepTheRest (row : Nat → VecArgs → Instr) (op : VecOp) (bank : Nat)
    (h : (row, op, bank) ∈ vecRows) : Engaged op 0 vec1 engine := by
  refine engagedAt (by decide +kernel) ?_
  have hv : (viewCount engine 0) = (2, 1) := by decide +kernel
  have ht : (engineOf engine 0).tail = false := by decide +kernel
  rw [hv, ht]
  have hall : ∀ o ∈ vecRows.map (fun r => r.2.1), vecFits 2 1 false o vec1 = true := by decide +kernel
  exact hall op (List.mem_map.mpr ⟨(row, op, bank), h, rfl⟩)

/-- Every lane row engages, and SEL, LANEIDX, RANDU, RANDB, LOAD and EXPAND with it. -/
theorem test_hyps_VectorLaneResults (row : Nat → VecArgs → Instr) (op : VecOp) (f : W32 → W32 → W32 → W32)
    (h : (row, op, f) ∈ laneRows) : Engaged op 0 vec1 engine := by
  refine engagedAt (by decide +kernel) ?_
  have hv : (viewCount engine 0) = (2, 1) := by decide +kernel
  have ht : (engineOf engine 0).tail = false := by decide +kernel
  rw [hv, ht]
  have hall : ∀ o ∈ laneRows.map (fun r => r.2.1), vecFits 2 1 false o vec1 = true := by decide +kernel
  exact hall op (List.mem_map.mpr ⟨(row, op, f), h, rfl⟩)

theorem test_hyps_VectorLaneResults_others (op : VecOp) (h : op ∈ [VecOp.sel, .laneidx, .randu, .randb, .load, .expand]) :
    Engaged op 0 vec1 engine := by
  refine engagedAt (by decide +kernel) ?_
  have hv : (viewCount engine 0) = (2, 1) := by decide +kernel
  have ht : (engineOf engine 0).tail = false := by decide +kernel
  rw [hv, ht]
  have hall : ∀ o ∈ [VecOp.sel, .laneidx, .randu, .randb, .load, .expand], vecFits 2 1 false o vec1 = true := by
    decide +kernel
  exact hall op h

theorem test_hyps_VectorRowsKeepTheRest_none : ¬ Engaged .add 0 vec1 State.reset := by
  intro h; exact absurd h.ready (by decide)

theorem test_hyps_VectorMasksSumsAndStores_store :
    (let c := vecOf engine 0
     ∃ x o, servedTask engine c = some x ∧ (outsOf engine x.2.1 x.2.2.1)[vec1.vb]? = some o) := by
  have h1 : (servedTask engine (vecOf engine 0)).isSome = true := by decide +kernel
  obtain ⟨x, hx⟩ := Option.isSome_iff_exists.mp h1
  have h2 : ((servedTask engine (vecOf engine 0)).bind fun x => (outsOf engine x.2.1 x.2.2.1)[vec1.vb]?).isSome = true := by
    decide +kernel
  rw [hx] at h2
  obtain ⟨o, ho⟩ := Option.isSome_iff_exists.mp h2
  exact ⟨x, o, hx, ho⟩

/-! ### Task kinds -/

/-- The task of the record `k` starts on core 0, with its numbers of input and output views. -/
def startsWith (k : TaskRec) (nin nout : Nat) : Prop :=
  startable (tasked k .admitted) k.kind run0 = some (task0 .admitted, taskSegment k, k) ∧
  (insOf (tasked k .admitted) (taskSegment k) k).length = nin ∧ (outsOf (tasked k .admitted) (taskSegment k) k).length = nout

theorem test_hyps_TaskKindsStart_rows (row : TaskRun → Instr) (kind : Nat)
    (work : State → Nat → TaskInst → Segment → TaskRec → Work) (h : (row, kind, work) ∈ taskRows) :
    startable (tasked (rec0 kind [0, 1] [2]) .admitted) kind run0 =
      some (task0 .admitted, taskSegment (rec0 kind [0, 1] [2]), rec0 kind [0, 1] [2]) ∧
    startable lead kind run0 = none := by
  have hall : ∀ x ∈ taskRows.map (fun r => r.2.1),
      startable (tasked (rec0 x [0, 1] [2]) .admitted) x run0 =
        some (task0 .admitted, taskSegment (rec0 x [0, 1] [2]), rec0 x [0, 1] [2]) ∧
      startable lead x run0 = none := by decide +kernel
  exact hall kind (List.mem_map.mpr ⟨(row, kind, work), h, rfl⟩)

theorem test_hyps_TaskKindsStart :
    (taskSegment (rec0 0x02 [0, 1] [2])).stats[(rec0 0x02 [0, 1] [2]).record]? = some stat0 ∧ stat0.due run0.step = true ∧
    { stat0 with interval := 2, phase := 1 }.due run0.step = false ∧ imageOf (taskSegment matRec) matRec = none ∧
    (imageOf (taskSegment programRec) programRec).isSome = true ∧
    (let k := rec0 0x09 [0, 1] [2]
     let s := { tasked k .admitted with mem.base := [(4097, 0x42), (4099, 0x42)] }
     startable s 0x09 run0 = some (task0 .admitted, taskSegment k, k) ∧
       (gatherRun s 0 (task0 .admitted) (taskSegment k) k).fail = true) := by
  decide +kernel

theorem test_hyps_TaskResults :
    startsWith matRec 2 1 ∧ matRec.program = noneIndex ∧ startsWith (rec0 0x06 [0] [2]) 1 1 ∧
    startsWith (rec0 0x06 [0, 1, 3] [2]) 3 1 ∧ startsWith (rec0 0x07 [0] [2]) 1 1 ∧
    startsWith (rec0 0x09 [0, 1] [2]) 2 1 ∧
    startsWith { rec0 0x10 [0] [2] with param := 0xFF :: 0xFF :: List.replicate 62 0 } 1 1 := by
  unfold startsWith; decide +kernel

/-- Every index of GATHER is 0 while memory is zero. -/
theorem test_hyps_TaskResults_gather :
    (let k := rec0 0x09 [0, 1] [2]
     let s := tasked k .admitted
     match insOf s (taskSegment k) k, outsOf s (taskSegment k) k with
     | [tb, ix], [o] => (List.range (o.span 1)).all fun i =>
         decide (0 ≤ targetOf (ix.read s (readerOf s (task0 .admitted)) i)) &&
           decide (targetOf (ix.read s (readerOf s (task0 .admitted)) i) < tb.span 1)
     | _, _ => false) = true := by decide +kernel

/-- An Adam-style update of tensor 0 by the gradient of tensor 2. -/
def update0 : UpdateRec :=
  { master := 0, working := noneIndex, m1 := 1, m2 := noneIndex, grad := 2, leftRoot := noneIndex, rightRoot := noneIndex
    normT := noneIndex, recipe := 0, decay := false, clip := false, precise := false, biasCorrect := false, fallowDelay := 0
    layer := 0, lr := 0x3F800000, beta1 := 0, beta2 := 0, eps := 0, wd := 0, clipNorm := 0, umax := 0, t0 := 0 }

def updateTaskRec : TaskRec := rec0 0x0D [] []

/-- The segment of the update's task. -/
def updateSegment (u : UpdateRec) : Segment := { taskSegment updateTaskRec with updates := [u] }

def updating (u : UpdateRec) : State :=
  { tasked updateTaskRec .admitted with graph.dir := [(0, { state := 1, segment := some (updateSegment u) })] }

/-- The update starts; what it writes lies on page 0; where its first step has not come, it still has its operands. -/
theorem test_hyps_UpdatesAreStaged :
    startable (updating update0) 0x0D run0 = some (task0 .admitted, updateSegment update0, updateTaskRec) ∧
    (updateSegment update0).updates[updateTaskRec.record]? = some update0 ∧
    (let s := updating update0
     let x := updateTask s (readerOf s (task0 .admitted)) 0 0 0 (updateSegment update0) update0 none
     stagedPages x.1 = [0] ∧ (stageFrames 0 (stagedPages x.1) s).isSome = true) ∧
    (let u := { update0 with t0 := 1 }
     startable (updating u) 0x0D run0 = some (task0 .admitted, updateSegment u, updateTaskRec) ∧
     (updateOps (updating u) u).isSome = true ∧ run0.step < u.t0) := by decide +kernel

theorem freeFrameFrom_none (s : State) (far : Bool) (region : Nat) :
    ∀ n i : Nat, (∀ k, i ≤ k → k < i + n → frameBusy s far region k = true) → freeFrameFrom s far region n i = none
  | 0, _, _ => rfl
  | n + 1, i, h => by
    unfold freeFrameFrom
    rw [if_pos (h i (Nat.le_refl _) (by omega))]
    exact freeFrameFrom_none s far region n (i + 1) fun k h1 h2 => h k (by omega) (by omega)

theorem tierOf_retired (s : State) (l : List (Bool × Nat × Nat)) (p : Nat) :
    tierOf { s with mem.retired := l } p = tierOf s p := rfl

/-- The update with every near frame of region 0 retired. -/
def fullTier : State := { updating update0 with mem.retired := (List.range 24576).map fun f => (false, 0, f) }

theorem fullTier_no_frame : freeFrame fullTier false 0 = none := by
  apply freeFrameFrom_none
  intro k _ hk
  have hk' : k < 24576 := by simp [tierFrames] at hk; omega
  have hm : fullTier.mem.retired.contains (false, 0, k) = true := by
    simp only [fullTier, List.contains_eq_mem, decide_eq_true_eq, List.mem_map, List.mem_range]
    exact ⟨k, hk', rfl⟩
  simp only [frameBusy, hm, Bool.or_true, Bool.true_or]

/-- Page 0 then finds no frame for a staged copy. -/
theorem test_hyps_UpdatesAreStaged_full : stageFrames 0 [0] fullTier = none := by
  have ht : tierOf fullTier 0 = false := by
    have h : tierOf (updating update0) 0 = false := by decide +kernel
    rw [← h]
    exact tierOf_retired _ _ 0
  have hh : fullTier.mem.hopper = [] := by
    show (updating update0).mem.hopper = []
    decide +kernel
  simp [stageFrames, stageFrame, hh, ht, show pageRegion 0 = 0 from rfl, fullTier_no_frame]

/-- A collective of operation `op` over view 0 into view 2, of group 4. -/
def collRec (op : Nat) : TaskRec := { rec0 0x0B [0] [2] with param := leBytes 64 (op + 4 * 2 ^ 16 + 4 * 2 ^ 64) }

/-- Its run, with group 4 the module alone, or not defined. -/
def collStart (op : Nat) (there : Bool) : State :=
  { tasked (collRec op) .admitted with
    coll.groups := if there then [(4, some { def48 := groupDesc.body })] else [] }

theorem test_hyps_CollectivesStart (row : TaskRun → Instr) (op : Nat) (h : (row, op) ∈ collRows) (there : Bool) :
    startable (collStart op there) 0x0B run0 = some (task0 .admitted, taskSegment (collRec op), collRec op) ∧
    (collForm (collRec op)).op = op ∧
    (membersOf (collStart op there) (collOf (collStart op there) (task0 .admitted) (taskSegment (collRec op))
      (collRec op)).1.group).contains (collStart op there).holding.moduleId = there ∧
    startable lead 0x0B run0 = none := by
  have hall : ∀ o ∈ collRows.map (fun r => r.2), ∀ b : Bool,
      startable (collStart o b) 0x0B run0 = some (task0 .admitted, taskSegment (collRec o), collRec o) ∧
      (collForm (collRec o)).op = o ∧
      (membersOf (collStart o b) (collOf (collStart o b) (task0 .admitted) (taskSegment (collRec o))
        (collRec o)).1.group).contains (collStart o b).holding.moduleId = b ∧
      startable lead 0x0B run0 = none := by decide +kernel
  exact hall op (List.mem_map.mpr ⟨(row, op), h, rfl⟩) there

theorem test_hyps_CollectivesStart_eval :
    (let k := { rec0 0x13 [0] [2] with param := leBytes 64 4 }
     let s := { tasked k .admitted with coll.groups := [(4, some { def48 := groupDesc.body })] }
     startable s 0x13 run0 = some (task0 .admitted, taskSegment k, k) ∧
     (membersOf s (collOf s (task0 .admitted) (taskSegment k) k).1.group).contains s.holding.moduleId = true) := by
  decide +kernel

theorem test_hyps_CommitAndMoveKinds :
    (let k := rec0 0x12 [] []
     let s := fun (done work : Bool) => { tasked k .admitted with
       votes.commits := [{ commit0 with fingerprintDone := done }]
       sched.tasks := if work then [task0 .admitted]
         else [task0 .admitted, { task0 .admitted with task := 1, gate := posOf 0 passC 0, stream := streamU, index := 1 }] }
     startable (s true true) 0x12 run0 = some (task0 .admitted, taskSegment k, k) ∧
     startable (s false true) 0x12 run0 = some (task0 .admitted, taskSegment k, k) ∧
     startable (s false false) 0x12 run0 = some (task0 .admitted, taskSegment k, k) ∧
     commitWorkDone (s false true) 0 = true ∧ commitWorkDone (s false false) 0 = false ∧
     (s false true).exporter.cfg.enable = false ∧ (s false true).holding.restore ≠ 3) ∧
    (let k := rec0 0x11 [] []
     startable (tasked k .admitted) 0x11 run0 = some (task0 .admitted, taskSegment k, k)) ∧
    (let k := { rec0 0x10 [0] [2] with param := 0 :: 0x10 :: List.replicate 62 0 }
     startsWith k 1 1 ∧ BitVec.ofNat 16 (field k.param 0 2) = (0x1000 : ModId) ∧ (0x1000 : ModId) ≠ 0xFFFF ∧
       (0x1000 : ModId) ≠ (tasked k .admitted).holding.moduleId) := by
  unfold startsWith; decide +kernel

/-! ### Harrows -/

def key0 : SolveKey := ⟨0, 0, 0⟩

/-- The solve of block 0 in status `status`, with the work `w`. -/
def block0 (status : Nat) (w : Option SolveWork) : BlockSolve :=
  { key := key0, record := { status := status }, work := w, harrows := if status = 2 then [3] else [] }

/-- The lead master at step 1, the head at the end of pass U's reach, with the solve `b`. -/
def solving (b : BlockSolve) : State :=
  { tasked matRec .published with
    run.head := posOf 1 passU 0, votes.openStep := some 1, harrows.blocks := [b] }

/-- The form of the root of `taskSegment`. -/
def form2 : SolveForm := ⟨stat0, root0, tensor2 (4096 * 3)⟩

theorem test_hyps_HarrowsServeSolves :
    findBlock (solving (block0 1 none)) key0 = some (block0 1 none) ∧
    solveForm (solving (block0 1 none)) key0.seg key0.record = some form2 ∧
    (solving (block0 1 none)).moving = true ∧ [255].length ≤ (if form2.root.harrows = 0 then 64 else min 64 form2.root.harrows) ∧
    [255].eraseDups.length = [255].length ∧ harrowEnabled (solving (block0 1 none)) 255 = true ∧
    ((solving (block0 1 none)).harrows.blocks.all fun x => x.key == key0) = true ∧
    (block0 0 none).record.status ≠ 1 ∧ (block0 0 none).record.status ≠ 2 := by decide +kernel

/-- A Newton solve of the identity. -/
def work0 (ended : Bool) : SolveWork :=
  { n := 2, a := [0x3FF0000000000000, 0, 0, 0x3FF0000000000000], x := [0x3FF0000000000000, 0, 0, 0x3FF0000000000000]
    m := [0x3FF0000000000000, 0, 0, 0x3FF0000000000000], limit := 16, ended := ended, started := true }

theorem test_hyps_SolveBoundariesAndAcceptance (ended : Bool) :
    (let b := block0 2 (some (work0 ended))
     findBlock (solving b) key0 = some b ∧ solveForm (solving b) key0.seg key0.record = some form2 ∧
     b.work = some (work0 ended) ∧ (solving b).moving = true ∧ b.record.status = 2 ∧ b.harrows ≠ [] ∧
     (work0 ended).ended = ended) := by
  revert ended; decide +kernel

theorem test_hyps_SolveBoundariesAndAcceptance_results :
    (acceptance form2 (work0 true)).2.2 = false ∧
    (acceptance form2 (work0 true)).1.le (effTol (solving (block0 2 none)) form2.root) = true ∧
    (acceptance form2 { work0 true with x := [0x4000000000000000, 0, 0, 0x4000000000000000] }).2.2 = false ∧
    (acceptance form2 { work0 true with x := [0x4000000000000000, 0, 0, 0x4000000000000000] }).1.le
      (effTol (solving (block0 2 none)) form2.root) = false ∧
    (acceptance form2 { work0 true with x := [0x7FF0000000000000, 0, 0, 0] }).2.2 = true := by decide +kernel

/-- A state whose installed root of block 0 is usable. -/
def withRoot (b : BlockSolve) : State :=
  { solving b with
    mem.base := ((leBytes 64 (rootSignature stat0 root0 fB32 0 + 2 ^ 256)).mapIdx fun i x => (12288 + i, x)).filter
      fun e => e.2 != 0 }

/-- What the decision for block 0 needs in `s`, with the outcome of the deadline and of the root's test. -/
def decides (s : State) (b : BlockSolve) (due usable : Bool) : Bool :=
  (findBlock s key0 == some b) && (solveForm s 0 0 == some form2) && s.run.isOn &&
  (s.votes.openStep == some (stepOf s.run.head)) &&
  decide ((posOf (stepOf s.run.head) passU 0).toNat ≤ s.run.head.toNat) && b.decisions.isEmpty &&
  (loggedDecision s b (stepOf s.run.head)).isNone && !strictWaits form2 b (stepOf s.run.head) &&
  !issuesWaiting s (stepOf s.run.head) (fun _ _ => true) && (deadlineReached form2 b (stepOf s.run.head) == due) &&
  (form2.usable 0 (installedHeader s form2 0) == usable)

def candidate0 : Candidate := { statStep := 0, residual := 0, state := 1, iterations := 3, block := [] }

theorem test_hyps_DeadlineDecisions :
    decides (solving (block0 0 none)) (block0 0 none) false false = true ∧
    decides (withRoot (block0 0 none)) (block0 0 none) false true = true ∧
    decides (solving (block0 0 (some (work0 true)))) (block0 0 (some (work0 true))) true false = true ∧
    decides (withRoot (block0 0 (some (work0 true)))) (block0 0 (some (work0 true))) true true = true ∧
    form2.root.ageAction = false ∧
    (let b := { block0 4 (some (work0 true)) with candidate := some candidate0 }
     decides (solving b) b true false = true ∧ b.candidate = some candidate0) ∧
    (let b := block0 2 (some (work0 false))
     decides (solving b) b true false = true ∧ solveInFlight b = true ∧ form2.root.carry = false) ∧
    (solving (block0 0 none)).votes.openStep ≠ some 0 := by decide +kernel

/-- The task of kind SOLVE for block 0 of record 0. -/
def solveRec : TaskRec := rec0 0x0E [] []

theorem test_hyps_SolvesAreIssued :
    startable lead 0x0E run0 = none ∧
    startable (tasked solveRec .admitted) 0x0E run0 = some (task0 .admitted, taskSegment solveRec, solveRec) ∧
    solveForm (tasked solveRec .admitted) 0 0 = some form2 ∧ form2.stat.due 0 = true ∧
    { stat0 with interval := 2, phase := 1 }.due 0 = false ∧
    (let s := { tasked solveRec .admitted with harrows.blocks := [block0 0 none] }
     findBlock s ⟨0, 0, 0⟩ = some (block0 0 none) ∧ 0 < solveRec.blockFirst + solveRec.blockCount ∧
     s.run.modes.getD 4 false = false ∧ solveInFlight (block0 0 none) = false) ∧
    solveInFlight (block0 2 none) = true ∧
    ({ lead with run.modes := [false, false, false, false, true] }.run.modes.getD 4 false = true) := by decide +kernel
/-! ### Clauses at which the statements part -/

/-- A module alone in its holding, in a hall of two modules, the other of them at its port 0. -/
def twoInHall : State :=
  { lone with holding.hallM1 := 0x1000, holding.extentM1 := 0, lamio.ports := [(0, { width := 16 })] }

theorem test_hyps_Bar4Accesses_reachable :
    (let s := { twoInHall with host.ctx.windowBase := 0x1100000000000000 }
     windowTarget s 8 64 = some (0x1000, 8) ∧ (0x1000 : ModId) ≠ s.holding.moduleId ∧ Reachable s 0x1000) ∧
    (lineParts 8 64).length = 2 ∧ plainWriteAllowed lone 0 64 = true ∧
    plainWriteAllowed { lone with host.ctx.windowBase := 3488 * 2 ^ 30 } (3488 * 2 ^ 30) 64 = false := by
  unfold Reachable; decide +kernel

theorem test_hyps_RemoteWrites_context :
    (∀ l ∈ lead.mem.layers, layerKey l.tag ≤ 2 * fullStep lead 0 + 1) ∧ fullStep lead 0 ≤ stepOf lead.run.head := by
  decide +kernel

theorem test_hyps_Responses_waiting :
    (let s := { member with lamio.ports := [(1, { width := 16, retraining := true })] }
     nextHop s 0 false = some (1, false) ∧ portBlocked s 1 = true) ∧
    portBlocked { member with lamio.ports := [(1, { width := 16 })] } 1 = false ∧
    (∀ y ∈ asking.lamio.txns, y.queued = false) ∧
    (let t : Txn := { dest := 1, tag := 5, type := ptReadReq, p := pkt, resent := false, sentAt := 0, task := none, bar4 := true }
     t.bar4 = true ∧ t.task = none ∧ asking.run.jobs = []) := by decide +kernel

theorem test_hyps_FlitsAndLinkTimers_more :
    (port linked 0).data.blocked = [] ∧ (port linked 0).width ≠ 0 ∧ (port linked 0).retraining = false ∧
    (port linked 0).data.buffer.length + linked.stones.holding.length ≤ retryFlits ∧
    (let s := { asking with
       clock.up := 50000
       lamio.txns := [{ dest := 1, tag := 5, type := ptReadReq, p := pkt, resent := true, sentAt := 0, task := none }] }
     ∃ x, s.lamio.txns.find? (fun t => t.dest == 1 && t.tag == 5) = some x ∧ x.resent = true ∧
       x.sentAt + us s.tmo.txn.toNat ≤ s.clock.up ∧ x.task = none ∧ s.run.jobs = [] ∧
       (∀ y ∈ s.lamio.txns, y.queued = false)) := by
  refine ⟨by decide +kernel, by decide +kernel, by decide +kernel, by decide +kernel, _, rfl, rfl, by decide +kernel, rfl, rfl, ?_⟩
  decide +kernel

theorem test_hyps_ManagementMessages_cap :
    (let s := { lone with power.capWrittenAt := some 0 }; mgmtTakes s = true ∧ s.power.capWrittenAt = some s.clock.up) ∧
    lone.power.capWrittenAt ≠ some lone.clock.up := by decide +kernel

theorem test_hyps_PollEngine_more :
    (serves ringed = true ∧ ringed.power.linkUp = true) ∧
    (serves lone = true ∧ lone.power.linkUp = true ∧ (lone.host.sub.any fun e => e.2.enable) = false) ∧
    serves State.reset = false ∧
    (let s := { ringed with host.liveSeen := true, clock.up := 10000000000 }
     serves s = true ∧ s.host.liveSeen = true ∧ s.host.safeHold = false ∧ s.tmo.liveness ≠ 0 ∧
     s.host.liveAt + ms s.tmo.liveness.toNat ≤ s.clock.up ∧ s.run.isOn = false) := by decide +kernel

theorem test_hyps_PostingAndSignalling_more :
    (let e := { entry0 with quiet := true }
     let s := { ringed with host.compl := [(0, { enable := true, state := 1, sizeLog2 := 4, waiting := [e] })] }
     (complRing s 0).waiting = [e] ∧ (e.quiet && e.status == stOk) = true ∧ complFull (complRing s 0) = false) ∧
    (let s := { ringed with
       host.compl := [(0, { enable := true, state := 1, sizeLog2 := 4, coalesce := 9, waiting := [entry0] })] }
     s.power.linkUp = true ∧ (complRing s 0).waiting = [entry0] ∧ (entry0.quiet && entry0.status == stOk) = false ∧
       ¬((complRing s 0).coalesce = 0 ∨ entry0.urgent = true)) ∧
    (let s := { lone with votes.commits := [commit0] }
     s.holding.isMaster = true ∧ reportsWaiting s < 256 ∧ s.power.linkUp = true ∧ commit0.reported = false ∧
       commit0.fingerprintDone = true ∧ s.stones.due = none ∧ s.exporter.due = none ∧ s.run.pendingModes = []) := by
  decide +kernel

/-- A COPY_IN to the start of the fallow queues. -/
def copyFallow : Desc :=
  { descAt 16 (leBytes 8 0x100 ++ leBytes 8 (fallowAt lone)) with count := 8 }

/-- The lone module with an update record that keeps a fallow queue of one step. -/
def withFallow : State :=
  { lone with
    graph := { lone.graph with
      tensors := [(2, some (tensor2 0))]
      dir := [(0, { state := 1, segment := some { rootSegment with updates := [{ update0 with fallowDelay := 1 }] } })] } }

theorem test_hyps_CopyInData_ranges :
    fallowRange lone 64 copyDesc.count.toNat = false ∧ dAt copyFallow 40 8 = 0 ∧
    copyTarget withFallow copyFallow = some (withFallow.holding.moduleId, fallowAt withFallow) ∧
    fallowRange withFallow (fallowAt withFallow) copyFallow.count.toNat = true := by decide +kernel

theorem test_hyps_RunOrders_more :
    (ringed.holding.before.any fun b => b.at_ == ringed.clock.up) = false ∧
    (reachesWide .modeSet (descAt 16 [1]) ringedFollower = true ∧ ringedFollower.isLead = false) ∧
    reachesWide .stop desc0 ringedFollower = true := by decide +kernel

theorem test_hyps_HeldOrdersTakeEffect_more :
    haltKnown { holdingOne .resume desc0 with run.halt := .cut } = true ∧
    (let s := { holdingOne .resume desc0 with run.halt := .cut }
     HoldsOne ⟨0, 0, 0, false, .resume, desc0⟩ s) ∧
    (let d := descAt 24 [1]
     let s := { holdingOne .voteSupply d with votes.received := [(0, ⟨0, 1, []⟩)] }
     operationalBits (voteRecord 0 1 true false s).bits = 0 ∧ s.votes.openStep = some (dAt d 16 8) ∧
       reductionComplete s = true) := by
  refine ⟨by decide +kernel, ?_, by decide +kernel⟩
  exact { lead := rfl, held := ⟨0, rfl, rfl⟩, ours := ⟨rfl, rfl⟩, header := by decide +kernel }

theorem test_hyps_GroupsAndCopies_more :
    (definedMembers ringed groupDesc.body).isEmpty = false ∧ ringed.coll.reforming = false ∧
    (groupOf grouped 4).isSome = true ∧ groupBusy grouped 4 = false ∧ still grouped = true ∧
    slice groupDesc.body 4 9 = slice ({ def48 := groupDesc.body } : Group).def48 4 9 ∧
    viaOther ringed copyHere = false := by decide +kernel

/-- The ringed module with a neighbour of its own holding at port 0. -/
def ringedPair : State :=
  { ringed with holding.extentM1 := 0x1000, holding.hallM1 := 0x1000, lamio.ports := [(0, { width := 16 })] }

/-- A copy of eight bytes to or from byte 64 of module 0x1000, by this module's link or by that module's. -/
def copyThere (via : Nat) : Desc :=
  { descAt 16 (leBytes 8 0x100 ++ leBytes 8 (2 ^ 60 + 0x1000 * 2 ^ 44 + 64) ++ leBytes 2 via) with count := 8 }

theorem test_hyps_GroupsAndCopies_there :
    Executes .copyOut (copyThere 0xFFFF) ringedPair ∧ Executes .copyIn (copyThere 0xFFFF) ringedPair ∧
    Executes .copyOut (copyThere 0x1000) ringedPair ∧ Executes .copyIn (copyThere 0x1000) ringedPair ∧
    copyTarget ringedPair (copyThere 0xFFFF) = some (0x1000, 64) ∧ copyRefused true (copyThere 0xFFFF) ringedPair = none ∧
    copyRefused false (copyThere 0x1000) ringedPair = none ∧ copyInConflict 0x1000 64 (copyThere 0x1000) ringedPair = false ∧
    viaOther ringedPair (copyThere 0xFFFF) = false ∧ viaOther ringedPair (copyThere 0x1000) = true ∧
    seedbedThere ringedPair 0x1000 64 8 = false ∧ ringedPair.holding.lost.contains 0x1000 = false :=
  ⟨executesAt_spec (by decide +kernel), executesAt_spec (by decide +kernel), executesAt_spec (by decide +kernel),
    executesAt_spec (by decide +kernel), by decide +kernel⟩

/-- A SNAPSHOT to byte 0 of module 0x1000; a root and a pin for it. -/
def snapThere : Desc := descAt 16 (leBytes 8 (2 ^ 60 + 0x1000 * 2 ^ 44))

def supplyThere : Desc := { supplyDesc with body := supplyDesc.body.take 24 ++ [0x00, 0x10] ++ supplyDesc.body.drop 26 }

def pinThere : Desc := { pinDesc with body := pinDesc.body.take 24 ++ [0x00, 0x10] ++ pinDesc.body.drop 26 }

/-- A hint for page 0. -/
def hintDesc : Desc := descAt 24 (leBytes 8 pageBytes ++ [1, 1])

theorem test_hyps_SnapshotSupplyAndPin_there :
    (let s := { ringedPair with run.lastCommit := some 0 }
     let p := atOrderPoint .snapshot snapThere s
     Executes .snapshot snapThere s ∧ noCount snapThere = true ∧ bitOf (dAt snapThere 24 1) 0 = false ∧
       lamioTarget p (dAt snapThere 16 8) = some (0x1000, 0) ∧ 0 + (snapshotRecord p false).1.length ≤ reservedBase p ∧
       p.quiet = true) ∧
    (let s := { rooted with holding.extentM1 := 0x1000 }
     Executes .rootSupply supplyThere s ∧ inHolding s.holding (BitVec.ofNat 16 (dAt supplyThere 40 2)) = true ∧
       dZeroIn supplyThere 42 6 = true ∧ (BitVec.ofNat 16 (dAt supplyThere 40 2) : ModId) ≠ s.holding.moduleId) ∧
    (Executes .placementPin pinThere ringedPair ∧ pinMalformed ringedPair pinThere = false ∧
       inHolding ringedPair.holding (BitVec.ofNat 16 (dAt pinThere 40 2)) = true ∧
       (BitVec.ofNat 16 (dAt pinThere 40 2) : ModId) ≠ ringedPair.holding.moduleId) ∧
    (Executes .placementPin hintDesc ringed ∧ pinMalformed ringed hintDesc = false ∧ dAt hintDesc 33 1 = 1 ∧
       dAt hintDesc 32 1 = 1 ∧ pinFits ringed (dAt hintDesc 32 1 == 2) (pinPages hintDesc) = true ∧
       touchesReserved ringed (dAt hintDesc 16 8) (dAt hintDesc 24 8) = false) ∧
    stepCommitted rooted (dAt supplyDesc 32 8) = true :=
  ⟨⟨executesAt_spec (by decide +kernel), by decide +kernel⟩, ⟨executesAt_spec (by decide +kernel), by decide +kernel⟩,
    ⟨executesAt_spec (by decide +kernel), by decide +kernel⟩, ⟨executesAt_spec (by decide +kernel), by decide +kernel⟩,
    by decide +kernel⟩

theorem test_hyps_DiagnosticOrders_areas :
    (let b := 0 :: 3 :: sampleBlock.drop 2
     (sampleCfgOf b).enable = true ∧ (sampleCfgOf b).host = true) ∧
    (sampleCfgOf sampleBlock).host = false ∧ (sampleCfgOf sampleBlock).furrow = false := by decide +kernel

theorem test_hyps_AttestationCommands_formed :
    (let req : Bytes := [1, BitVec.ofNat 8 sahithChallenge, 0, 0] ++ leBytes 4 32 ++ List.replicate 32 0
     byteAt req 0 = 1 ∧ byteAt req 1 = sahithChallenge ∧ zeroAt req 2 2 = true ∧ field req 4 4 = 32 ∧ req.length = 8 + 32) ∧
    lone.security.meas.length = 8 ∧ lone.security.identityValid = false ∧
    { lone with security.identityValid := true }.security.identityValid = true := by decide +kernel

theorem test_hyps_SamplingRows_more :
    (let s := { sampling with counters.cfg.host := true }
     s.counters.cfg.host = true ∧ s.counters.suspended = false ∧ s.power.linkUp = true) ∧
    (let s := { lone with sheaf := { state := 3, triggers := 8, counter := 0xB90 } }
     2 ≤ s.sheaf.state ∧ s.sheaf.threshold.toNat ≤ counterValue s s.sheaf.counter ∧ s.sheaf.counter % 4 ≠ 1) ∧
    (let s := { lone with sheaf := { state := 1, triggers := 8, counter := 0xB91 }, run.seedbedOpen := true }
     s.sheaf.counterHit = false ∧ s.sheaf.triggers.testBit 3 = true ∧ s.sheaf.state ≠ 0 ∧
       s.sheaf.threshold.toNat ≤ counterValue s s.sheaf.counter ∧ s.sheaf.counter % 4 = 1 ∧ s.run.seedbedOpen = true) := by
  decide +kernel

theorem test_hyps_FurrowDistances_overflow :
    (let s := { sampling with counters.cfg.furrow := true, counters.lastHead := 0xFFFFFFFFFFFFF000, counters.cfg.interval := 0x1000 }
     2 ^ 64 ≤ s.counters.lastHead.toNat + s.counters.cfg.interval) := by decide +kernel

theorem test_hyps_FurrowMessages_more :
    member.moving = true ∧
    (let s := { member with
       run.halt := .cut
       run.stopMap := some { kind := 0, sourceKind := 0, sourceHolding := 0, aborted := 0, head := 0, target := 0
                             timestamp := 0, lastCommit := 0, seedbedHead := 0, streams := [] } }
     s.run.isOn = true ∧ s.isLead = false ∧ s.run.halt = .cut ∧ s.run.stopMap.isSome = true ∧ s.moving = false) ∧
    lead.run.halt = .running := by decide +kernel

/-- A member cut off from its master and from the hedge lane. -/
def cutOffMember : State := { member with clock.up := 50000000 }

theorem test_hyps_HoldingMessages_cutOff :
    cutOff cutOffMember = true ∧ cutOffMember.ready = true ∧ cutOffMember.holding.isolated = false ∧
    watches cutOffMember 0 = true ∧ (0 : ModId) ∉ cutOffMember.holding.lost ∧
    silentSince cutOffMember (lastBeatOf cutOffMember 0) = true ∧ watches member 0x2000 = false ∧
    (let s := { lone with host.ctx.eventEnable := true, host.ctx.eventSizeLog2 := 4 }
     s.holding.isMaster = true ∧ s.power.linkUp = true ∧
       (s.host.evPosted - s.host.evConsumer).toNat < 2 ^ s.host.ctx.eventSizeLog2.toNat) ∧
    member.holding.isMaster = false := by decide +kernel

theorem test_hyps_HoldingMessages_definition :
    (let a := slice groupDesc.body 0 16
     let b := slice groupDesc.body 16 16
     let s := { member with coll.parts := [(0, 3, 0, a), (0, 3, 1, b)] }
     s.coll.reforming = false ∧
       definitionFits s (field (a ++ b ++ padTo 16 (slice groupDesc.body 32 16)) 0 2) = true) ∧
    (let full := (List.range 4096).map fun i => (i + 5, some ({ def48 := groupDesc.body } : Group))
     definitionFits { member with coll.groups := full } 4 = false) ∧
    (let s := { lone with run.jobs := [{ job0 with kind := .group 4 0 [0x1000, 0x2000] }] }
     s.run.jobs = [{ job0 with kind := .group 4 0 [0x1000, 0x2000] }]) ∧
    (let s := { lone with run.jobs := [{ job0 with kind := .group 4 0 [0x1000] }], clock.up := 1000000000 }
     agreementLate s agreeGroup = true) ∧
    (let s := { lead2 with coll.reforming := true, clock.up := 1000000000, run.halt := .smear, coll.unformed := [(4, 0)] }
     agreementLate s agreeReform = true ∧ s.isLead = true ∧ s.run.isOn = true ∧ s.run.halt ≠ .running) ∧
    (let s := { lead2 with run.jobs := [{ job0 with kind := .resume }], clock.up := 1000000000 }
     agreementLate s agreeDiscard = true ∧ s.isLead = true ∧ s.run.halt = .running) ∧
    (let o : FwdOrder := ⟨0, 0, 0, false, .furrowAdvance, desc0⟩
     let s := { member with run.advanceLimit := some 0 }
     orderForMe o s = true ∧ o.source ≠ s.holding.moduleId ∧ s.run.advanceLimit = some 0) ∧
    ((0 : W64)).toNat = lead.run.rollTo.getD (stepOf lead.run.head) := by decide +kernel

theorem test_hyps_VoteRows_more :
    (lead.holding.isMaster = true ∧ lead.votes.outcome = none) ∧
    (let got := { ringedVoter with votes.received := (ringedVoter.votes.received.filter fun c => c.1 != 0) ++ [(0, ⟨0, 1, []⟩)] }
     ringedVoter.isLead = true ∧ ringedVoter.holding.isMaster = true ∧ reductionComplete got = true ∧
       ringedVoter.votes.openStep = some 0 ∧ ringedVoter.votes.decided = none ∧ ringedVoter.run.halt = .running ∧
       ringedVoter.run.modes.getD 5 false = true ∧ ringedVoter.power.linkUp = true) ∧
    member.holding.isMaster = false ∧ member.run.pendingModes = [] ∧
    ({ member with run.halt := .smear }.run.halt = .smear ∧ (vote0 outCommit).outcome = outCommit) ∧
    (lead.isLead = true ∧ lead.run.halt ≠ .smear) ∧
    (let s := { lead with votes.received := [(0, ⟨0, 1, []⟩)], run.modes := List.replicate 10 true, clock.up := 30000000000
                          run.head := posOf 0 passC 0 }
     reductionComplete s = true ∧ s.run.modes.getD 5 false = true ∧ voteBounds s 0 ≠ 0 ∧ s.isLead = true ∧ s.moving = true) ∧
    (voteBounds lead 0 = 0 ∧ (lead.run.jobs.any (beginLate lead)) = false) ∧
    (let j : Job := ⟨desc0, .runBegin, .runBegin, none, 0⟩
     let s := { lone with run.jobs := [j], clock.up := 30000000000 }
     s.votes.openStep = none ∧ s.run.jobs = [j] ∧ beginLate s j = true) ∧
    (lead2.isLead = true ∧ lead2.moving = true ∧ lead2.votes.openStep = some 0 ∧ lead2.votes.decided = none ∧
      reductionComplete lead2 = false) ∧
    (let s := { ringedFollower with run.head := posOf 0 passC 0 }
     s.votes.openStep = some 0 ∧ s.moving = true ∧ s.votes.contributed = false ∧ 0 = stepOf s.run.head ∧
       localUDone s 0 = true ∧ commitBelowStop s 0 = true ∧ issuesWaiting s 0 (fun _ _ => true) = false ∧
       s.holding.isMaster = true ∧ s.isLead = false ∧ s.votes.decided = none ∧ s.votes.outcome = none) := by decide +kernel

theorem test_hyps_VoteRows_left :
    (let s := { halted with run.lastCommit := some 0, votes.commits := [{ commit0 with rootsDone := false }] }
     mayResume s = true ∧ resumeStep s = 1 ∧ commitWorkLeft 1 s = true) ∧ commitWorkLeft (resumeStep halted) halted = false := by
  decide +kernel

/-- Module 0x1000 of three, the lead of a run alone in its holding, and its collective of group 4 of the three. -/
def middle (c : CollInst) : State :=
  { lead with
    holding := { lead.holding with extentM1 := 0x2000, hallM1 := 0x2000, moduleId := 0x1000 }
    coll := { lead.coll with
      groups := [(4, some { def48 := leBytes 2 4 ++ [0, 0, 0x20] ++ List.replicate 11 0 ++ List.replicate 32 0xFF })]
      live := [c] } }

theorem test_hyps_CollectiveMessages_at :
    (∀ c ∈ [{ coll0 with op := opAllGather }, { coll0 with op := opAllReduce, segs := [{ index := 0 }] }, coll0],
      CollAt (collecting c) ⟨4, 0, 0⟩ c { def48 := pairDef }) ∧
    (let x : SegState := { index := 0, passed := true }
     let c := { coll0 with op := opAllReduce, segs := [x] }
     segOf c (collMsg 4).key.index = some x ∧ (collMsg 4).phase = 4 ∧ x.final = none ∧ x.passed = true ∧ c.phase = 0) ∧
    (let x : SegState := { index := 0 }
     let c := { coll0 with op := opAllReduce, phase := 1, segs := [x] }
     let m := { collMsg 0 with source := 0, ranks := [0] }
     let s := middle c
     let grid := gridOf s { def48 := leBytes 2 4 ++ [0, 0, 0x20] ++ List.replicate 11 0 ++ List.replicate 32 0xFF }
     segOf c m.key.index = some x ∧ m.phase ≠ 4 ∧ (x.partials.any fun p => p.phase == m.phase) = false ∧ c.phase = 1 ∧
       c.mode ≠ 1 ∧ x.passed = false ∧ x.phase = m.phase ∧ m.phase < 4 ∧ grid.before m.phase s.holding.moduleId ≠ [] ∧
       grid.next m.phase s.holding.moduleId = some 0x2000 ∧ s.stones.live = [] ∧
       s.coll.live.find? (ofKey m.key) = some c) := by
  refine ⟨?_, by decide +kernel, by decide +kernel⟩
  intro c hc
  simp only [List.mem_cons, List.not_mem_nil, or_false] at hc
  rcases hc with rfl | rfl | rfl <;>
    exact { named := by decide +kernel, one := by decide +kernel, group := by decide +kernel }

theorem test_hyps_CollectiveMessages_agree :
    (let s := collecting coll0
     let held := mustersWith s (4, 0, 0, 0, 9, false)
     groupOf s 4 = some { def48 := pairDef } ∧ (membersOf s 4).head? = some s.holding.moduleId ∧
       (firstMuster held 4 0 0x1000).isNone = true ∧ (0x1000 : ModId) ∈ membersOf s 4 ∧ s.coll.bin = [] ∧ decidedWithout s 4 0 0 = none ∧
       s.coll.live = [coll0] ∧ countBreaks s coll0 2 = false) ∧
    (let s := { collecting coll0 with coll.musters := [(4, 0, 0, 0x1000, 9, false)] }
     let held := mustersWith s (4, 0, 0, 0, 9, false)
     membersOf s 4 = [0, 0x1000] ∧
       (firstMuster held 4 0 0).map (·.2.2.2.2.1) = some 9 ∧ (firstMuster held 4 0 0x1000).map (·.2.2.2.2.1) = some 9) ∧
    (let s := { collecting coll0 with coll.musters := [(4, 0, 0, 0x1000, 9, false)] }
     let held := mustersWith s (4, 0, 0, 0, 8, false)
     (firstMuster held 4 0 0).map (·.2.2.2.2.1) = some 8 ∧ (firstMuster held 4 0 0x1000).map (·.2.2.2.2.1) = some 9) ∧
    (1 : Nat) ≠ ({ def48 := pairDef } : Group).epoch ∧ (membersOf lead2 4).head? ≠ some lead2.holding.moduleId := by
  decide +kernel

theorem test_hyps_CollectiveMessages_waiting :
    (let waits := fun (c : CollInst) => c.op != opEval && c.group == 4 && c.epoch == 0 && c.seq == 0 && c.phase == 0
     (collecting coll0).coll.live.find? waits = some coll0 ∧ (collecting coll0).coll.live.filter (sameColl coll0) = [coll0] ∧
       lead2.coll.live.find? waits = none) := by decide +kernel

theorem test_hyps_CollectiveMessages_notices :
    (let x : SegState := { index := 0 }
     let c := { coll0 with op := opAllReduce, phase := 1, segs := [x] }
     c.copies = false ∧ segOf c 0 = some x ∧ x.final = none ∧ (x.partials.any fun p => p.source == 0x1000) = false ∧
       0 ∉ c.asked) ∧
    (let s := { lead2 with lamio.bulkIn := [⟨0x1000, 5, [(0, 8)], true⟩] }
     s.coll.bin = [] ∧ 8 ≤ ((([(0, 8)] : List (Nat × Nat)).map (·.2)).foldl (· + ·) 0) ∧
       ¬ 16 ≤ ((([(0, 8)] : List (Nat × Nat)).map (·.2)).foldl (· + ·) 0) ∧
       s.lamio.bulkIn.find? (fun x => x.source == 0x1000 && x.tag == 5) = some ⟨0x1000, 5, [(0, 8)], true⟩ ∧
       lead2.lamio.bulkIn = []) ∧
    (let s := { lead2 with lamio.bulkOut := [⟨0x1000, 5, 0, none, [1]⟩] }
     s.lamio.bulkOut.find? (fun y => y.dest == 0x1000 && y.tag == 5) = some ⟨0x1000, 5, 0, none, [1]⟩) := by decide +kernel

/-- A bin whose 32 slots are held, all of them tentative. -/
def fullBin : List BinReq := (List.range 32).map fun i => ⟨⟨4, 1, i⟩, 0x1000, 1⟩

theorem test_hyps_CollectiveMessages_bins :
    (let s := lead2
     s.coll.reserves = [] ∧ (s.coll.bin.any fun r => r.key == ⟨4, 0, 0⟩ && r.source == 0x1000) = false ∧
       closedKey s ⟨4, 0, 0⟩ = false ∧ ((s.coll.bin.map (·.key)) ++ [(⟨4, 0, 0⟩ : SegKey)]).eraseDups.length ≤ 32) ∧
    (let s := { lead2 with coll.bin := fullBin }
     (∀ r ∈ s.coll.bin, r.state = 1 ∨ r.state = 2) ∧ (heldKeys s).length = 32 ∧ (⟨4, 0, 0⟩ : SegKey) ∉ heldKeys s ∧
       (highestTentative s ⟨4, 0, 0⟩).isSome = true) ∧
    (let s := { lead2 with coll.bin := [⟨⟨4, 0, 0⟩, 0x1000, 1⟩] }
     s.coll.bin = [] ++ ⟨⟨4, 0, 0⟩, 0x1000, 1⟩ :: [] ∧ (⟨4, 0, 0⟩ : SegKey) ∉ s.coll.left ∧ (∀ r ∈ s.coll.bin, r.state ≠ 0)) ∧
    (let r : MyReserve := ⟨⟨4, 0, 0⟩, [0], false, 0⟩
     definedMembers (collecting coll0) pairDef = [0, 0x1000] ∧ (0x1000 : ModId) ∉ addNew ([] : List ModId) 0 ∧
       addNew r.granted 0x1000 = [0, 0x1000]) := by decide +kernel

theorem test_hyps_CollectiveMessages_lost :
    (let s := { collecting coll0 with
       sched.tasks := [{ task0 .computed with gateAt := some 0 }], clock.up := 1000000000 }
     s.coll.live.find? (fun c => c.op != opEval && c.group == 4 && c.seq == 0) = some coll0 ∧
       (collGateAt s coll0).isSome = true ∧ lastSign s coll0 0x1000 + ms s.tmo.coll.toNat ≤ s.clock.up ∧
       awaitsFrom s coll0 0x1000 = true ∧ (0x1000 : ModId) ∈ membersOf s 4 ∧ watchesColl s 4 0x1000 = true ∧
       (0x1000 : ModId) ∉ s.holding.lost) ∧
    collGateAt (collecting coll0) coll0 = none ∧ (collecting coll0).coll.bin = [] := by decide +kernel

theorem test_hyps_SchedulerAndFaultRows_once :
    OneEach (tasked matRec .computed) ∧ kindOf (tasked matRec .computed) (task0 .computed) ≠ 0x0F ∧
    (let s := tasked (rec0 0x0F [] []) .computed
     kindOf s (task0 .computed) = 0x0F ∧ segmentOf s 0 = some (taskSegment (rec0 0x0F [] [])) ∧
       taskRecOf s (task0 .computed) = some (rec0 0x0F [] []) ∧ (taskSegment (rec0 0x0F [] [])).stats[0]? = some stat0 ∧
       (journalOf { s with mem.folds := [⟨0, 0, 0, some (0, [(8, 1)])⟩] } 0 0).slot = some (0, [(8, 1)])) ∧
    (task0 .computed).stream ≠ streamB ∧ { task0 .computed with staged := true }.staged = true ∧
    { task0 .computed with gate := posOf 0 passC 0, stream := streamU }.commitWork = true := by
  unfold OneEach; decide +kernel

theorem test_hyps_SchedulerAndFaultRows_watchdog :
    (let s := tasked matRec .computed
     let t := task0 .computed
     findTask s t.step t.task = some t ∧ unitOf s t = 0 ∧ t.phase = .computed ∧ t.done < t.tiles ∧
       ownEnd (kindOf s t) = false ∧ overranBefore s t.step 0 = false ∧ (t.overran.any fun o => o.2 == t.done) = false) ∧
    (let t := { task0 .computed with overran := [(0, 0)] }
     let s := { tasked matRec .computed with sched.tasks := [t] }
     findTask s t.step t.task = some t ∧ overranBefore s t.step 0 = true ∧ (t.overran.any fun o => o.2 == t.done) = true) ∧
    (let s := { tasked matRec .abandoned with run.halt := .smear }
     findTask s 0 0 = some (task0 .abandoned) ∧ (task0 .abandoned).phase = .abandoned ∧ s.run.halt = .smear) ∧
    (task0 .published).phase = .published ∧ 1 ≤ 3 ∧ harrowEnabled lead 3 = true ∧
    pendingOwners lead 31 = [] ∧ voteUndecided lead 0 = true ∧ voteUndecided { lead with votes.decided := some (vote0 0) } 0 = false := by
  decide +kernel

theorem test_hyps_SchedulerAndFaultRows_repair :
    (let k := rec0 0x01 [0, 1] [2]
     let p : TaskRec := rec0 0x06 [3] [0]
     let g := { taskSegment k with tasks := [k, p] }
     let maker := { task0 .published with task := 1, index := 1, unit := 1, cells := [], done := 1, pubSeq := 1 }
     let s := { tasked k .admitted with
       graph.dir := [(0, { state := 1, segment := some g })], sched.tasks := [task0 .admitted, maker]
       mem.poison := [0] }
     findTask s 0 0 = some (task0 .admitted) ∧ (0 ∈ poisonedOperands s (task0 .admitted)) ∧
       (intactSource s 0 (s.sched.tasks.length + 1) 0).isSome = true) := by decide +kernel

theorem test_hyps_MemoryRows_more :
    (let x : Selected := ⟨0, false, 1⟩
     let s := { paged 0 with mem.selected := [x] }
     movedAlready s x (pageOf s 0) = true) ∧
    (let x : Selected := ⟨0, true, 1⟩
     let s := { paged 0 with mem.selected := [x] }
     moveTarget s x (pageOf s 0) = some (true, 0) ∧ nextMove s x = true) ∧
    (let x : Selected := ⟨0, true, 1⟩
     let s := { paged 0 with mem.selected := [x], run.isOn := true, run.halt := .smear }
     ¬ (s.run.isOn = false ∨ s.run.halt = .running) ∧ movedAlready s x (pageOf s 0) = false) ∧
    (24576 : Nat) = tierFrames false ∧ (32 : Nat) ≤ 32 := by decide +kernel

theorem test_hyps_DiscoveryRows_offers :
    (let o : OfferMsg := ⟨0x1000, BitVec.ofNat 128 (holdingConfig blank.holding), 1, 0⟩
     blank.ready = true ∧ blank.holding.isMaster = false ∧ masterCandidate blank = false ∧
       ¬ (blank.assigned = true ∧ holdingConfig blank.holding = holdingConfig (withConfig o.config blank.holding) ∧
         blank.holding.moduleId ≠ o.position) ∧
       ¬ (blank.holding.setupLock = true) ∧ o.hops ≤ 9) ∧
    (let o : OfferMsg := ⟨0x1000, BitVec.ofNat 128 (holdingConfig member.holding), 1, 0⟩
     let s := member
     s.ready = true ∧ s.assigned = true ∧ s.holding.moduleId = o.position ∧
       holdingConfig s.holding = holdingConfig (withConfig o.config s.holding) ∧
       s.clock.up < s.holding.discoverAt + discoveryBound) ∧
    (let o : OfferMsg := ⟨0x2000, BitVec.ofNat 128 (holdingConfig member.holding), 1, 0⟩
     member.assigned = true ∧ holdingConfig member.holding = holdingConfig (withConfig o.config member.holding) ∧
       member.holding.moduleId ≠ o.position) ∧
    (let o : OfferMsg := ⟨0x1000, 0, 1, 0⟩
     let s := { blank with holding.setupLock := true }
     s.holding.setupLock = true ∧ holdingConfig s.holding ≠ holdingConfig (withConfig o.config s.holding)) ∧
    (let o : OfferMsg := ⟨0x2000, BitVec.ofNat 128 (holdingConfig discovering.holding), 1, 0⟩
     discovering.holding.isMaster = true ∧ discovering.holding.state = 1 ∧ o.position ≠ discovering.holding.moduleId ∧
       holdingConfig discovering.holding = holdingConfig (withConfig o.config discovering.holding)) ∧
    (let o : OfferMsg := ⟨0x1000, 0, 1, 0⟩
     candidate.holding.isMaster = false ∧ masterCandidate candidate = true ∧
       holdingConfig lone.holding ≠ holdingConfig (withConfig o.config lone.holding)) ∧
    State.reset.ready = false := by decide +kernel

theorem test_hyps_DiscoveryRows_answers :
    (discovering.ready = true ∧ discovering.holding.isMaster = true ∧ discovering.assigned = true ∧
      inHolding discovering.holding 0x1000 = true ∧ discovering.holding.state = 1) ∧
    (let s := { discovering with holding.state := 3 }
     s.holding.state ≠ 1 ∧ vacant s 0x1000 = true ∧ vacant s 0 = false ∧
       (((s.holding.reoffered.find? fun r => r.1 == 0x1000).map (·.2)).getD s.holding.discoverAt) + discoveryBound ≤ s.clock.up) ∧
    (let s := { discovering with holding.answered := [(0x1000, 10)] }
     s.holding.answered.find? (fun a => decide (9 < a.2)) = some (0x1000, 10) ∧
       s.holding.discoverAt + discoveryBound ≤ s.clock.up) := by decide +kernel

theorem test_hyps_ExportAndRestorationRows_sink :
    (let s := exporting record0
     HostSink s ∧ (ackedTo 0 s.exporter).retained = [] ++ [record0] ∧
       unacknowledged (ackedTo 0 s.exporter) + record0.bytes.length ≤ s.exporter.cfg.sinkSize) ∧
    (let s := { exporting record0 with exporter.cfg.sinkSize := 2 }
     s.exporter.cfg.sinkSize < unacknowledged (ackedTo 0 s.exporter) + record0.bytes.length) ∧
    (let s := exporting { record0 with at_ := some 0 }
     s.ready = true ∧ pushes s = true ∧ (∀ r ∈ (ackedTo 0 s.exporter).retained, r.at_.isSome = true) ∧
       s.exporter.retained.filter (fun r => r.at_.isSome) = { record0 with at_ := some 0 } :: []) ∧
    (let s := { tasked matRec .created with run.head := posOf 0 passE 0, exporter.cfg.evalBudget := 1, clock.up := 1000000 }
     budgetExpired s = true ∧ (s.sched.tasks.any fun t => t.stream == streamE && t.step == stepOf s.run.head && t.incomplete) = false) := by
  unfold HostSink; decide +kernel

/-- The lead master of two whose record of step 0 the sink holds. -/
def vouched : State :=
  { lead2 with
    graph.tensors := [(3, some tensor0)], run.lastCommit := some 0
    exporter := { lead2.exporter with cfg.enable := true, nextSeq := 2, acked := 1, chainStep := some 0 } }

theorem test_hyps_ExportAndRestorationRows_waiting :
    (vouched.ready = true ∧ (0 : ModId) ∈ runModules vouched ∧ vouched.run.isOn = true ∧
      (0 : ModId) ∉ vouched.holding.restoring ∧ holdsHome vouched 0 = true ∧ resumeStep vouched = 0 + 1 ∧
      vouched.exporter.cfg.enable = true ∧
      restoreTargetOf { vouched with holding.restoring := [0] } [0] 0 = some 0) ∧
    (let s := { lead2 with graph.tensors := [(3, some tensor0)] }; resumeStep s = 0) ∧
    (let s := { lead2 with holding.restoring := [0x1000], holding.restore := 1 }
     (0x1000 : ModId) ≠ s.holding.moduleId ∧ (0x1000 : ModId) ∈ s.holding.restoring ∧ s.holding.restore = 1 ∧
       s.ready = true ∧ s.assigned = true) ∧
    (let r : RunCopy := { segments := [], tensors := [], seed := 0, firstHolding := 0, holdingCount := 1, leadHolding := 0
                          lead := 0, modes := [], timestamp := 0, target := 0, committed := 0 }
     lone.run.isOn = false ∧ lone.ready = true ∧ lone.assigned = true ∧ (installCopies r.segments lone).isSome = true) ∧
    (let c : SegmentCopy := { number := 0, state := 1, firstStep := 0, lastStep := 0, digest := 0, bytes := [1] }
     (installCopies [c] lone).isSome = false) := by decide +kernel

theorem test_hyps_ExportAndRestorationRows_rebuilt :
    (let s := { lead with
       holding := { lead.holding with restoring := [0], restore := 2, restoreTarget := 3 }
       run := { lead.run with halt := .smear, lastCommit := some 3 } }
     s.run.halt ≠ .running ∧ survived 3 0 s = false ∧ 3 = s.holding.restoreTarget ∧ s.holding.moduleId ∈ s.holding.restoring) := by
  decide +kernel

theorem test_hyps_VectorMasksSumsAndStores_served :
    (∃ x, servedTask engine (engineOf engine 0) = some x) := by
  have h : (servedTask engine (engineOf engine 0)).isSome = true := by decide +kernel
  exact Option.isSome_iff_exists.mp h

theorem test_hyps_TaskKindsStart_stat :
    (let k := rec0 0x02 [0, 1] [2]
     let s := { tasked k .admitted with
       graph.dir := [(0, { state := 1, segment := some { taskSegment k with stats := [{ stat0 with interval := 2, phase := 1 }] } })] }
     findTask s 0 0 = some (task0 .admitted) ∧ notDue s (task0 .admitted) = true ∧ kindOf s (task0 .admitted) = 0x02 ∧
       eligible s (task0 .admitted) = true ∧
       eligible { s with sched.tasks := [task0 .created] } (task0 .created) = false) ∧
    (let k := rec0 0x02 [0, 1] [2]
     startable (tasked k .admitted) 0x02 run0 = some (task0 .admitted, taskSegment k, k) ∧
       notDue (tasked k .admitted) (task0 .admitted) = false) ∧
    (let k := rec0 0x0F [] []
     startable (tasked k .admitted) 0x0F run0 = some (task0 .admitted, taskSegment k, k) ∧
       notDue (tasked k .admitted) (task0 .admitted) = false ∧ (taskSegment k).stats[k.record]? = some stat0) := by
  decide +kernel

theorem test_hyps_CollectivesStart_lost (row : TaskRun → Instr) (op : Nat) (h : (row, op) ∈ collRows) :
    (let s := { collStart op true with holding.lost := [0] }
     startable s 0x0B run0 = some (task0 .admitted, taskSegment (collRec op), collRec op) ∧ (collForm (collRec op)).op = op ∧
       (membersOf s 4).any (fun m => s.holding.lost.contains m) = true) ∧
    (membersOf (collStart op true) 4).any (fun m => (collStart op true).holding.lost.contains m) = false := by
  have hall : ∀ o ∈ collRows.map (fun r => r.2),
      (let s := { collStart o true with holding.lost := [0] }
       startable s 0x0B run0 = some (task0 .admitted, taskSegment (collRec o), collRec o) ∧ (collForm (collRec o)).op = o ∧
         (membersOf s 4).any (fun m => s.holding.lost.contains m) = true) ∧
      (membersOf (collStart o true) 4).any (fun m => (collStart o true).holding.lost.contains m) = false := by decide +kernel
  exact hall op (List.mem_map.mpr ⟨(row, op), h, rfl⟩)

theorem test_hyps_CommitAndMoveKinds_room :
    (let k := rec0 0x12 [] []
     let s := { tasked k .admitted with votes.commits := [{ commit0 with fingerprintDone := false }], exporter.cfg.enable := true }
     k.outView = [] ∧ s.exporter.acked < s.exporter.nextSeq ∧ s.holding.restore ≠ 3 ∧
       retainedBytes s.exporter + 256 ≤ stagingSize s) := by decide +kernel

theorem test_hyps_HarrowsServeSolves_begun :
    (∃ w : SolveWork, w.begun = true) ∧
    (let w := { work0 false with begun := false, started := true }
     let b := block0 1 (some w)
     findBlock (solving b) key0 = some b ∧ b.work = some w ∧ w.begun = false ∧ w.ended = false ∧
       harrowTaken (solving b) 255 = false ∧ b.record.status = 1) ∧
    (let w := { work0 false with begun := true }
     let b := block0 2 (some w)
     b.work = some w ∧ w.begun = true ∧ w.ended = false ∧ b.harrows.any (harrowTaken (solving b)) = false) := by
  refine ⟨⟨{ work0 false with begun := true }, rfl⟩, by decide +kernel, by decide +kernel⟩

theorem test_hyps_SolvesAreIssued_once : OneEach (tasked solveRec .admitted) := by unfold OneEach; decide +kernel


/-! ### The queue, and steps from reset -/

theorem test_decode_none (n w : Nat) : decodeTableWord n w = none := rfl

/-- On an empty queue the clock ticks: the step answers a next state. -/
theorem test_hyps_FlashKeepsRetirementsAndKeys : ∃ t, step State.reset = .next t := ⟨_, rfl⟩

theorem test_hyps_RollbackCountersNeverDecrease : ∃ t, step State.reset = .next t := ⟨_, rfl⟩

theorem test_reset_queue_empty : State.reset.pending = [] := rfl

end Sys2Proof.Tests
end

section
/-!
PROOFS. Notices sent: what an announcement leaves in the event queue or on the hedge lane, and that nothing sent is taken back.
-/
namespace Sys2Proof.Proofs

open Sys2Proof Sys2Proof.Machine Sys2Proof.Laws

/-! ### Hedge messages sent stay sent -/

@[simp] theorem trace_out (a b : Nat) (c : Bool) (d : Nat) (e : W32) (f : Nat) (s : State) :
    (trace a b c d e f s).out = s.out := by rw [trace_eq]

@[simp] theorem sendHedge_sent (d : ModId) (m : Hedge) (s : State) :
    (sendHedge d m s).out.hedge = s.out.hedge ++ [(d, m)] := by rw [sendHedge_eq]

theorem mem_sendHedge (d : ModId) (m : Hedge) (s : State) : (d, m) ∈ (sendHedge d m s).out.hedge := by simp

theorem sent_sendHedge (d : ModId) (m : Hedge) (s : State) : s.out.hedge ⊆ (sendHedge d m s).out.hedge := by simp

@[simp] theorem hostWrite_sent (a : Nat) (b : Bytes) (p : Bool) (s : State) :
    (hostWrite a b p s).out.hedge = s.out.hedge := by
  unfold hostWrite; split <;> rfl

@[simp] theorem signal_sent (v : Nat) (s : State) : (signal v s).out.hedge = s.out.hedge := by
  unfold signal; split
  · rfl
  · split <;> rfl

@[simp] theorem eventSignal_sent (s : State) : (eventSignal s).out.hedge = s.out.hedge := by
  unfold eventSignal; split
  · exact signal_sent _ _
  · rfl

@[simp] theorem postEvent_sent (c : Nat) (m : ModId) (p : Pos) (a b : W64) (s : State) :
    (postEvent c m p a b s).out.hedge = s.out.hedge := by
  unfold postEvent; dsimp only; split
  · rfl
  · split
    · rfl
    · rw [eventSignal_sent, hostWrite_sent]

theorem sent_deliverEvent (c : Nat) (p : Pos) (d : W64) (s : State) :
    s.out.hedge ⊆ (deliverEvent c p d s).out.hedge := by
  unfold deliverEvent; dsimp only; split
  · rw [postEvent_sent]; exact List.Subset.refl _
  · split
    · exact sent_sendHedge _ _ _
    · exact List.Subset.refl _

/-! ### Raising an event -/

/-- An event raised is delivered from a state that differs in the sheaf alone. -/
theorem raiseAt_delivers (b : Bool) (c : Nat) (p : Pos) (d : Nat) (s : State) :
    ∃ h : Sheaf, raiseAt b c p d s = deliverEvent c p (BitVec.ofNat 64 d) { s with sheaf := h } := by
  unfold raiseAt; dsimp only
  rw [trace_eq]
  split
  · rw [sheafTriggerOf_eq]; exact ⟨_, rfl⟩
  · exact ⟨_, rfl⟩

theorem sent_raiseAt (b : Bool) (c : Nat) (p : Pos) (d : Nat) (s : State) :
    s.out.hedge ⊆ (raiseAt b c p d s).out.hedge := by
  obtain ⟨h, e⟩ := raiseAt_delivers b c p d s
  rw [e]; exact sent_deliverEvent c p _ { s with sheaf := h }

theorem sent_raise (c d : Nat) (s : State) : s.out.hedge ⊆ (raise c d s).out.hedge := sent_raiseAt _ _ _ _ s

/-- A master whose event queue is not enabled keeps the event waiting. -/
theorem deliverEvent_waits {s : State} (hm : s.holding.isMaster = true) (he : s.host.ctx.eventEnable = false) (c : Nat)
    (p : Pos) (d : W64) : (BitVec.ofNat 16 c, s.holding.moduleId, p, BitVec.ofNat 64 s.clock.now, d) ∈
      (deliverEvent c p d s).host.evWaiting := by
  simp [deliverEvent, postEvent, hm, he]

/-- A member sends the event to its master. -/
theorem deliverEvent_sends {s : State} (hm : s.holding.isMaster = false) (ha : s.assigned = true) (c : Nat) (p : Pos)
    (d : W64) : (s.holding.masterId, Hedge.event (BitVec.ofNat 16 c) p (BitVec.ofNat 64 s.clock.now) d) ∈
      (deliverEvent c p d s).out.hedge := by
  simp [deliverEvent, hm, ha]

theorem raise_announces (c d : Nat) (s : State) : Safety.Announces s (raise c d s) c d := by
  obtain ⟨h, e⟩ := raiseAt_delivers false c s.run.head d s
  unfold raise; rw [e]
  exact ⟨fun hm he => deliverEvent_waits (s := { s with sheaf := h }) hm he c _ _,
    fun hm ha => deliverEvent_sends (s := { s with sheaf := h }) hm ha c _ _⟩

/-! ### Receiving a hedge message -/

@[simp] theorem traceReceive_run (m : ModId) (k : Nat) (s : State) : (traceReceive m k s).run = s.run := by
  rw [traceReceive_eq]

@[simp] theorem traceReceive_clock (m : ModId) (k : Nat) (s : State) : (traceReceive m k s).clock = s.clock := by
  rw [traceReceive_eq]

@[simp] theorem traceReceive_mem (m : ModId) (k : Nat) (s : State) : (traceReceive m k s).mem = s.mem := by
  rw [traceReceive_eq]

@[simp] theorem traceReceive_votes (m : ModId) (k : Nat) (s : State) : (traceReceive m k s).votes = s.votes := by
  rw [traceReceive_eq]

@[simp] theorem traceReceive_sched (m : ModId) (k : Nat) (s : State) : (traceReceive m k s).sched = s.sched := by
  rw [traceReceive_eq]

@[simp] theorem traceReceive_isLead (m : ModId) (k : Nat) (s : State) : (traceReceive m k s).isLead = s.isLead := by
  rw [traceReceive_eq]; rfl

/-! ### Who leads and what moves -/

theorem isOn_of_moving {s : State} (h : s.moving = true) : s.run.isOn = true := by
  simp only [State.moving, Bool.and_eq_true] at h
  obtain ⟨⟨hon, -⟩, -⟩ := h
  exact hon

theorem running_of_moving {s : State} (h : s.moving = true) : s.run.halt = .running := by
  simp only [State.moving, Bool.and_eq_true, beq_iff_eq] at h
  obtain ⟨⟨-, hrun⟩, -⟩ := h
  exact hrun

theorem isOn_of_isLead {s : State} (h : s.isLead = true) : s.run.isOn = true := by
  simp only [State.isLead, Bool.and_eq_true] at h
  obtain ⟨⟨⟨hon, -⟩, -⟩, -⟩ := h
  exact hon

end Sys2Proof.Proofs
end

section
/-!
PROOFS. What the furrow's shared operations can change: jobs that end, the head that rises, halts.
-/
namespace Sys2Proof.Proofs

open Sys2Proof Sys2Proof.Machine Sys2Proof.Laws

/-! ### Operations that tell -/

/-- From `s` to `t` the run's jobs, its stop map and its acknowledgements, the host's rings, the sheaf and what is sent may have
changed, and nothing else; no hedge message is taken back. -/
structure Tells (s t : State) : Prop where
  frame : t = { s with
    run := { s.run with
      jobs := t.run.jobs, stopMap := t.run.stopMap, haltAt := t.run.haltAt, stopAcks := t.run.stopAcks
      discardAcks := t.run.discardAcks }
    host := t.host, sheaf := t.sheaf, out := t.out }
  sent  : s.out.hedge ⊆ t.out.hedge

theorem Tells.refl (s : State) : Tells s s := ⟨rfl, List.Subset.refl _⟩

theorem Tells.trans {s t u : State} (a : Tells s t) (b : Tells t u) : Tells s u :=
  ⟨by rw [b.frame, a.frame], List.Subset.trans a.sent b.sent⟩

theorem Tells.foldl {α : Type} {g : State → α → State} (hg : ∀ t x, Tells t (g t x)) (l : List α) (s : State) :
    Tells s (l.foldl g s) :=
  foldl_inv (p := Tells s) (fun u x h => h.trans (hg u x)) l (.refl s)

theorem Tells.of_noted {s t : State} (h : Noted s t) (hs : s.out.hedge ⊆ t.out.hedge) : Tells s t := by
  refine ⟨?_, hs⟩
  unfold Noted at h; rw [h]

theorem tells_trace (a b : Nat) (c : Bool) (d : Nat) (e : W32) (f : Nat) (s : State) : Tells s (trace a b c d e f s) :=
  .of_noted (noted_trace a b c d e f s) (by simp)

theorem tells_sendHedge (d : ModId) (m : Hedge) (s : State) : Tells s (sendHedge d m s) :=
  .of_noted (noted_sendHedge d m s) (sent_sendHedge d m s)

theorem tells_raise (c d : Nat) (s : State) : Tells s (raise c d s) := .of_noted (noted_raise c d s) (sent_raise c d s)

theorem tells_setSub (r : Nat) (f : SubRing → SubRing) (s : State) : Tells s (setSub r f s) := ⟨rfl, List.Subset.refl _⟩

theorem tells_setCompl (r : Nat) (f : ComplRing → ComplRing) (s : State) : Tells s (setCompl r f s) :=
  ⟨rfl, List.Subset.refl _⟩

theorem tells_completeWith (op : DescOp) (d : Desc) (st dt : Nat) (h l : Bool) (s : State) :
    Tells s (completeWith op d st dt h l s) := by
  have haccess : Tells s (accessFor op d st s).2 := by
    unfold accessFor; split <;> exact ⟨rfl, List.Subset.refl _⟩
  unfold completeWith; dsimp only
  split
  · exact haccess
  · exact haccess.trans (tells_setCompl ..)

theorem tells_completeLater (op : DescOp) (d : Desc) (st dt : Nat) (s : State) : Tells s (completeLater op d st dt s) :=
  (tells_setSub _ _ _).trans ((tells_completeWith ..).trans (tells_trace ..))

theorem tells_finishJobs (p : Job → Bool) (st dt : Nat) (s : State) : Tells s (finishJobs p st dt s) := by
  have hjobs : Tells s { s with run.jobs := s.run.jobs.filter fun j => !p j } := ⟨rfl, List.Subset.refl _⟩
  refine hjobs.trans (Tells.foldl (fun t j => ?_) _ _)
  split
  · exact tells_sendHedge _ _ t
  · exact tells_completeLater _ _ _ _ t

theorem tells_writeStopMap (k : Nat) (m : StopMsg) (a : Nat) (s : State) : Tells s (writeStopMap k m a s) := by
  have hmap : Tells s { s with run.stopMap := some (stopMapOf s k m a), run.haltAt := s.clock.up } :=
    ⟨rfl, List.Subset.refl _⟩
  exact hmap.trans (tells_raise _ _ _)

theorem tells_acknowledge (k : Nat) (i p : W64) (s : State) : Tells s (acknowledge k i p s) := by
  unfold acknowledge
  split
  · split
    · exact ⟨rfl, List.Subset.refl _⟩
    · split <;> exact ⟨rfl, List.Subset.refl _⟩
  · exact tells_sendHedge _ _ s

/-- A module that does not lead sends its acknowledgement to the lead master. -/
theorem mem_acknowledge {s : State} (h : s.isLead = false) (k : Nat) (i p : W64) :
    (leadId s, Hedge.agreement k i p) ∈ (acknowledge k i p s).out.hedge := by
  simp [acknowledge, h]

theorem tells_stopsComplete (s : State) : Tells s (stopsComplete s) := by
  unfold stopsComplete
  split
  · exact (tells_finishJobs ..).trans (tells_sendHedge ..)
  · exact .refl s

theorem tells_shareVote (s : State) : Tells s (shareVote s) := by
  unfold shareVote
  split
  · split
    · exact .refl s
    · exact tells_sendHedge _ _ s
  · exact .refl s

/-! ### Operations of a halt -/

/-- From `s` to `t` what `Tells` lists, the memory, the counters and the schedule may have changed, and nothing else. -/
structure Unwinds (s t : State) : Prop where
  frame : t = { s with
    run := { s.run with
      jobs := t.run.jobs, stopMap := t.run.stopMap, haltAt := t.run.haltAt, stopAcks := t.run.stopAcks
      discardAcks := t.run.discardAcks }
    mem := t.mem, counters := t.counters, sched := t.sched, host := t.host, sheaf := t.sheaf, out := t.out }
  sent  : s.out.hedge ⊆ t.out.hedge

theorem Unwinds.refl (s : State) : Unwinds s s := ⟨rfl, List.Subset.refl _⟩

theorem Unwinds.trans {s t u : State} (a : Unwinds s t) (b : Unwinds t u) : Unwinds s u :=
  ⟨by rw [b.frame, a.frame], List.Subset.trans a.sent b.sent⟩

theorem Unwinds.foldl {α : Type} {g : State → α → State} (hg : ∀ t x, Unwinds t (g t x)) (l : List α) (s : State) :
    Unwinds s (l.foldl g s) :=
  foldl_inv (p := Unwinds s) (fun u x h => h.trans (hg u x)) l (.refl s)

theorem Tells.unwinds {s t : State} (h : Tells s t) : Unwinds s t := ⟨by rw [h.frame], h.sent⟩

theorem unwinds_selectMove (p : Nat) (f : Bool) (c : Nat) (s : State) : Unwinds s (selectMove p f c s) :=
  ⟨rfl, List.Subset.refl _⟩

theorem unwinds_setPage (p : Nat) (e : PageEntry) (s : State) : Unwinds s (setPage p e s) := ⟨rfl, List.Subset.refl _⟩

theorem unwinds_repin (p : Nat) (s : State) : Unwinds s (repin p s) := by
  unfold repin; dsimp only; split
  · exact unwinds_selectMove ..
  · exact .refl s

theorem unwinds_freeSource (p : Nat) (s : State) : Unwinds s (freeSource p s) := by
  unfold freeSource; dsimp only; split
  · exact unwinds_setPage ..
  · exact .refl s

theorem unwinds_abandonMove (p : Nat) (s : State) : Unwinds s (abandonMove p s) := by
  refine (unwinds_setPage p (settled (pageOf s p)) s).trans (Unwinds.trans ?_ (unwinds_repin ..))
  split
  · exact unwinds_selectMove ..
  · exact .refl _

theorem unwinds_stopMoves (s : State) : Unwinds s (stopMoves s) := by
  refine Unwinds.foldl (fun t e => ?_) _ _
  split
  · exact unwinds_freeSource ..
  · split
    · exact unwinds_abandonMove ..
    · exact .refl t

theorem unwinds_countAs (k st n : Nat) (s : State) : Unwinds s (countAs k st n s) := ⟨rfl, List.Subset.refl _⟩

theorem unwinds_countDiscarded (t : TaskInst) (s : State) : Unwinds s (countDiscarded t s) := by
  have hcounts : Unwinds s ((t.counts ++ t.recounts).foldl (fun s c => countAs c.1 2 c.2 s) s) :=
    Unwinds.foldl (g := fun s (c : Nat × Nat) => countAs c.1 2 c.2 s) (fun u c => unwinds_countAs c.1 2 c.2 u) _ s
  unfold countDiscarded; dsimp only; split
  · exact hcounts.trans (unwinds_countAs ..)
  · exact hcounts

theorem unwinds_discardRuns (p : TaskInst → Bool) (ph : Phase) (s : State) : Unwinds s (discardRuns p ph s) := by
  have hfresh : Unwinds s (freeFresh p s) := ⟨rfl, List.Subset.refl _⟩
  unfold discardRuns; dsimp only
  refine (hfresh.trans (Unwinds.foldl (fun u t => ?_) _ _)).trans ⟨rfl, List.Subset.refl _⟩
  split
  · exact unwinds_countDiscarded t u
  · exact (unwinds_countDiscarded t u).trans (tells_trace ..).unwinds

theorem unwinds_abandonStarted (s : State) : Unwinds s (abandonStarted s) :=
  (unwinds_discardRuns ..).trans ⟨rfl, List.Subset.refl _⟩

/-! ### An immediate stop (02 R39) -/

/-- What an immediate stop does to a module of the run that is not halted: it stands in a smear with no stop pending, its
collectives and its tasks' transactions are gone, its votes stand, and nothing it has sent is taken back. -/
structure Smeared (s u : State) : Prop where
  halt       : u.run.halt = .smear
  stop       : u.run.stop = none
  holdResume : u.run.holdResume = s.run.holdResume
  live       : u.coll.live = []
  txns       : (u.lamio.txns.all fun t => t.task.isNone) = true
  votes      : u.votes = s.votes
  sent       : s.out.hedge ⊆ u.out.hedge

/-- The module in its smear, before it shares its vote and tells of the halt. -/
def enterSmear (s : State) : State :=
  { s with
    run.halt := .smear, run.stop := none, run.rollTo := none, coll.live := [], coll.bin := [], coll.left := []
    coll.reserves := [], coll.musters := [], coll.decided := []
    lamio.txns := s.lamio.txns.filter fun t => t.task.isNone }

theorem Smeared.of_unwinds {s t u : State} (before : Unwinds s t) (after : Unwinds (enterSmear t) u) : Smeared s u where
  halt := by rw [after.frame]; rfl
  stop := by rw [after.frame]; rfl
  holdResume := by rw [after.frame, before.frame]; rfl
  live := by rw [after.frame]; rfl
  txns := by rw [after.frame]; exact List.all_eq_true.2 fun t ht => (List.mem_filter.1 ht).2
  votes := by rw [after.frame, before.frame]; rfl
  sent := List.Subset.trans before.sent after.sent

theorem haltSmear_smears {s : State} (hon : s.run.isOn = true) (hrun : s.run.halt = .running) (m : StopMsg) :
    Smeared s (haltSmear m s) := by
  unfold haltSmear
  rw [if_pos (by simp [hon, hrun])]
  refine .of_unwinds ((tells_writeStopMap 2 m s.coll.live.length s).unwinds.trans (unwinds_abandonStarted _)) ?_
  exact (unwinds_stopMoves _).trans ((tells_shareVote _).trans ((tells_finishJobs _ _ _ _).trans
    ((tells_acknowledge _ _ _ _).trans (tells_stopsComplete _)))).unwinds

/-! ### A scheduled stop (02 R36) -/

/-- Core Lean alone has no lemma for a filter that keeps everything. -/
theorem filter_keeps_all {α : Type} (l : List α) : (l.filter fun _ => true) = l := List.filter_eq_self.2 fun _ _ => rfl

theorem discardRuns_of_none {p : TaskInst → Bool} {s : State} (h : ∀ t ∈ s.sched.tasks, p t = false) (ph : Phase) :
    discardRuns p ph s = s := by
  have hgone : (s.sched.tasks.filter fun t => p t && t.phase != .discarded) = [] :=
    List.filter_eq_nil_iff.2 fun t ht => by simp [h t ht]
  have hfresh : freeFresh p s = s := by
    have hany : ∀ f : FreshFrame, (s.sched.tasks.any fun t => p t && sameRun f.step f.task t) = false := fun f =>
      List.any_eq_false.2 fun t ht => by simp [h t ht]
    simp only [freeFresh, hany, Bool.not_false, filter_keeps_all]
  have htasks : (s.sched.tasks.map fun t =>
      if p t && t.phase != .discarded then
        if t.phase == .abandoned then { t with counts := [], recounts := [] }
        else { t with
          phase := ph, cells := [], contributions := [], status := stDiscarded, counts := [], recounts := [] }
      else t) = s.sched.tasks :=
    (List.map_congr_left fun t ht => by simp [h t ht]).trans (List.map_id _)
  unfold discardRuns; dsimp only
  rw [hgone, hfresh, List.foldl_nil, htasks]

/-- Where no task run is seedbed work, a scheduled stop discards nothing. -/
theorem cutSeedbed_of_no_seedbed {s : State} (h : (s.sched.tasks.any fun t => t.seedbed) = false) (target : Pos) :
    cutSeedbed target s = s := by
  have hno : ∀ t ∈ s.sched.tasks, t.seedbed = false := fun t ht => by simpa using List.any_eq_false.1 h t ht
  have hhit : (s.sched.tasks.filter fun t => t.seedbed && decide (target.toNat ≤ t.gate.toNat) &&
      (t.phase == .computed || t.phase == .published)) = [] :=
    List.filter_eq_nil_iff.2 fun t ht => by simp [hno t ht]
  unfold cutSeedbed; dsimp only
  rw [hhit, discardRuns_of_none fun t ht => by simp [hno t ht]]
  have hword : ∀ x : W16, s.votes.heldWord &&& ~~~(0 &&& x) = s.votes.heldWord := fun x => by
    have hzero : (0 : W16) &&& x = 0 := BitVec.zero_and
    rw [hzero]; exact BitVec.and_allOnes
  simp only [keyOfRuns, List.any_nil, List.foldl_nil, hword, Bool.not_false, Bool.false_eq_true, if_false, List.map_id',
    filter_keeps_all]
  rw [List.filter_eq_self.2]
  intro l _
  split <;> rfl

/-! ### The cut (02 R36, R37) -/

/-- A solve that runs pauses at its boundary. -/
def paused (b : BlockSolve) : BlockSolve :=
  if b.record.status = 2 then { b with record := { b.record with status := 3 } } else b

theorem paused_status_ne_two (b : BlockSolve) : (paused b).record.status ≠ 2 := by
  unfold paused; split
  · simp
  · assumption

/-- The module at the cut, before it tells the lead master. -/
def enterCut (m : StopMsg) (s : State) : State :=
  let t := writeStopMap 1 m 0 { s with harrows.blocks := s.harrows.blocks.map paused }
  { t with run.halt := .cut }

theorem enterCut_frame (m : StopMsg) (s : State) : ∃ t : State, Tells s t ∧
    enterCut m s = { t with run.halt := .cut, harrows.blocks := s.harrows.blocks.map paused } := by
  have tells := tells_writeStopMap 1 m 0 { s with harrows.blocks := s.harrows.blocks.map paused }
  unfold enterCut
  generalize writeStopMap 1 m 0 { s with harrows.blocks := s.harrows.blocks.map paused } = t at tells
  refine ⟨{ t with harrows := s.harrows }, ⟨by rw [tells.frame], tells.sent⟩, ?_⟩
  rw [tells.frame]

theorem cutReached_stop {s : State} (h : cutReached s = true) : s.moving = true ∧ ∃ m, s.run.stop = some m := by
  unfold cutReached at h
  rw [Bool.and_eq_true] at h
  refine ⟨h.1, ?_⟩
  cases hs : s.run.stop with
  | none => simp [hs] at h
  | some m => exact ⟨m, rfl⟩

theorem reachCut_of_stop {s : State} {m : StopMsg} (h : s.run.stop = some m) :
    reachCut s = stopsComplete (acknowledge agreeStop (commitWord (enterCut m s)) (enterCut m s).run.head (enterCut m s)) := by
  unfold reachCut; rw [h]; rfl

/-- What reaching the cut does: the module stands in it with its solves paused, a member has told the lead master, and nothing
but the run, the solves and what is told has changed. -/
theorem reachCut_cuts {s : State} (h : cutReached s = true) :
    (reachCut s).run.halt = .cut ∧ (reachCut s).run.head = s.run.head ∧
    (∀ b ∈ (reachCut s).harrows.blocks, b.record.status ≠ 2) ∧
    (s.isLead = false → (leadId s, Hedge.agreement agreeStop (commitWord s) s.run.head) ∈ (reachCut s).out.hedge) ∧
    { reachCut s with
      run := s.run, harrows.blocks := s.harrows.blocks, host := s.host, sheaf := s.sheaf, out := s.out } = s := by
  obtain ⟨hmove, m, hm⟩ := cutReached_stop h
  obtain ⟨t, before, ht⟩ := enterCut_frame m s
  rw [reachCut_of_stop hm]
  have hword : commitWord (enterCut m s) = commitWord s := by rw [ht, before.frame]; rfl
  have hhead : (enterCut m s).run.head = s.run.head := by rw [ht, before.frame]
  have hlead : leadId (enterCut m s) = leadId s := by rw [ht, before.frame]; rfl
  have his : s.isLead = false → (enterCut m s).isLead = false := fun hl => by
    rw [ht, before.frame]
    simpa [State.isLead, running_of_moving hmove] using hl
  rw [hword, hhead]
  have tells := tells_acknowledge agreeStop (commitWord s) s.run.head (enterCut m s)
  have told := tells_stopsComplete (acknowledge agreeStop (commitWord s) s.run.head (enterCut m s))
  have after := tells.trans told
  have hsent : s.isLead = false → (leadId s, Hedge.agreement agreeStop (commitWord s) s.run.head) ∈ _ := fun hl =>
    told.sent (hlead ▸ mem_acknowledge (his hl) agreeStop (commitWord s) s.run.head)
  generalize stopsComplete (acknowledge agreeStop (commitWord s) s.run.head (enterCut m s)) = u at after hsent ⊢
  have hu := after.frame
  rw [ht, before.frame] at hu
  refine ⟨by rw [hu], by rw [hu], ?_, hsent, by rw [hu]⟩
  rw [hu]
  intro b hb
  obtain ⟨a, -, rfl⟩ := List.mem_map.1 hb
  exact paused_status_ne_two a

/-! ### The head rises (02 R26, R28) -/

/-- From `s` to `t` the task runs created, their sequence numbers, the sheaf and the moves selected may have changed, and
nothing else. -/
def Prepares (s t : State) : Prop :=
  t = { s with
    run := { s.run with created := t.run.created, attempts := t.run.attempts }
    sched := t.sched, coll := t.coll, sheaf := t.sheaf, mem := { s.mem with selected := t.mem.selected } }

theorem Prepares.refl (s : State) : Prepares s s := rfl

theorem Prepares.trans {s t u : State} (a : Prepares s t) (b : Prepares t u) : Prepares s u := by
  unfold Prepares at *; rw [b, a]

theorem Prepares.ite {s t u : State} {c : Prop} [Decidable c] (a : Prepares s t) (b : Prepares s u) :
    Prepares s (if c then t else u) := by
  split
  · exact a
  · exact b

theorem prepares_selectMove (p : Nat) (f : Bool) (c : Nat) (s : State) : Prepares s (selectMove p f c s) := rfl

theorem prepares_sow (s : State) : Prepares s (sow s) := by
  unfold sow
  refine .ite (.refl s) ?_
  have hdrop : Prepares s { s with mem.selected := s.mem.selected.filter fun x => x.cause != 3 } := rfl
  refine hdrop.trans (foldl_inv (p := Prepares _) (fun u p h => h.trans ?_) _ (.refl _))
  refine .ite (.refl u) (.ite (prepares_selectMove ..) (.ite (.refl u) (.ite (prepares_selectMove ..) ?_)))
  dsimp only
  split
  · exact (prepares_selectMove ..).trans (prepares_selectMove ..)
  · exact .refl u

theorem prepares_markGates (s : State) : Prepares s (markGates s) := rfl

theorem prepares_positionTrigger (s : State) : Prepares s (positionTrigger s) := by
  unfold positionTrigger
  refine .ite ?_ (.refl s)
  unfold Prepares; rw [sheafTrigger_eq]

theorem prepares_giveSeq (s : State) (t : TaskInst) : Prepares s (giveSeq s t).1 := by
  unfold giveSeq
  split
  · exact .refl s
  · split
    · exact .refl s
    · rfl

theorem prepares_giveSeqs (ts : List TaskInst) (s : State) : Prepares s (giveSeqs ts s).1 :=
  foldl_inv (p := fun x : State × List TaskInst => Prepares s x.1) (fun x t h => h.trans (prepares_giveSeq x.1 t)) ts
    (Prepares.refl s)

theorem prepares_addInstances (n : Nat) (new : List TaskInst) (s : State) : Prepares s (addInstances n new s) :=
  (prepares_giveSeqs new s).trans rfl

theorem prepares_createStep (n : Nat) (s : State) : Prepares s (createStep n s) := by
  unfold createStep
  refine .ite (.refl s) ?_
  have hcount : Prepares s { s with run.created := some n, run.attempts := tmod 0 s.run.attempts n (· + 1) } := rfl
  exact hcount.trans (prepares_addInstances ..)

theorem Prepares.createStep_if {s t : State} {c : Prop} [Decidable c] {n : Nat} (h : Prepares s t) :
    Prepares s (if c then createStep n t else t) :=
  .ite (h.trans (prepares_createStep n t)) h

theorem Prepares.sow_if {s t : State} {c : Prop} [Decidable c] (h : Prepares s t) :
    Prepares s (if c then sow t else t) :=
  .ite (h.trans (prepares_sow t)) h

theorem setHead_of_le {p : Pos} {s : State} (h : p.toNat ≤ s.run.head.toNat) : setHead p s = s := by
  unfold setHead; rw [if_pos h]

/-- A head that rises stands at its new position; no byte, no version and no vote has changed. -/
theorem setHead_of_lt {p : Pos} {s : State} (h : s.run.head.toNat < p.toNat) :
    (setHead p s).run.head = p ∧ (setHead p s).mem.base = s.mem.base ∧ (setHead p s).mem.layers = s.mem.layers ∧
      (setHead p s).votes = s.votes := by
  have risen : ∃ w : State, Prepares w (setHead p s) ∧ w.run.head = p ∧ w.mem = s.mem ∧ w.votes = s.votes := by
    unfold setHead; rw [if_neg (by omega)]
    refine ⟨_, .sow_if ((Prepares.createStep_if (.refl _)).createStep_if.trans
      ((prepares_markGates _).trans (prepares_positionTrigger _))), ?_⟩
    exact ⟨rfl, rfl, rfl⟩
  obtain ⟨w, prep, hhead, hmem, hvotes⟩ := risen
  rw [prep, hmem, hvotes, hhead]
  exact ⟨rfl, rfl, rfl, rfl⟩

end Sys2Proof.Proofs
end

section
/-!
PROOFS. Furrow distances (02 R30).
-/
namespace Sys2Proof.Proofs

open Sys2Proof Sys2Proof.Machine Sys2Proof.Laws

theorem distanceReached_iff (head p : Pos) (d : Nat) :
    distanceReached head p d = true ↔ p.toNat + d < 2 ^ 64 ∧ p.toNat + d ≤ head.toNat := by
  simp [distanceReached]

theorem distanceReached_eq_false {head p : Pos} {d : Nat}
    (h : 2 ^ 64 ≤ p.toNat + d ∨ head.toNat < p.toNat + d) : distanceReached head p d = false := by
  rw [Bool.eq_false_iff, Ne, distanceReached_iff]
  omega

theorem posOf_toNat {n pass slot : Nat} (hn : n < 2 ^ 36) (hp : pass < 8) (hs : slot < 2 ^ 13) :
    (posOf n pass slot).toNat = n * 2 ^ 28 + pass * 2 ^ 25 + slot * 2 ^ 12 := by
  rw [posOf, BitVec.toNat_ofNat, Nat.mod_eq_of_lt hp, Nat.mod_eq_of_lt hs]
  omega

theorem posOf_next_step {n pass slot : Nat} (hn : n + 1 < 2 ^ 36) (hp : pass < 8) (hs : slot < 2 ^ 13) :
    (posOf (n + 1) pass slot).toNat = (posOf n pass slot).toNat + 0x10000000 := by
  rw [posOf_toNat hn hp hs, posOf_toNat (by omega) hp hs]
  omega

theorem posOf_next_slot {n pass slot : Nat} (hn : n < 2 ^ 36) (hp : pass < 8) (hs : slot + 1 < 2 ^ 13) :
    (posOf n pass (slot + 1)).toNat = (posOf n pass slot).toNat + 0x1000 := by
  rw [posOf_toNat hn hp hs, posOf_toNat hn hp (by omega)]
  omega

theorem exec_counterSample (consumed : W64) (s : State) :
    exec (.counterSample consumed) s = .next (counterSample consumed s) := rfl

/-- A sampler of the furrow form takes no counter record before its distance is reached. -/
theorem counterSample_not_reached {s : State} (hf : s.counters.cfg.furrow = true)
    (h : distanceReached s.run.head s.counters.lastHead s.counters.cfg.interval = false) (consumed : W64) :
    counterSample consumed s = s := by
  simp [counterSample, hf, h]

theorem testBit_one_of_two_flags (a b : Bool) : (b2n a + 2 * b2n b).testBit 1 = b := by
  cases a <;> cases b <;> rfl

theorem voteBounds_distance (s : State) (n : Nat) :
    (voteBounds s n).testBit 1 = true ↔ s.tmo.voteDistance ≠ 0 ∧ (posOf n passC 0).toNat ≤ s.run.head.toNat ∧
      ∃ p, s.run.seedbedHead = some p ∧
        distanceReached p (posOf (n + 1) passF 0) s.tmo.voteDistance.toNat = true := by
  unfold voteBounds
  rw [testBit_one_of_two_flags]
  cases s.run.seedbedHead with
  | none => simp
  | some p => simp [and_assoc]

/-- Settles O38: both waits are `distanceReached`, and a position's number is the sum of its fields. -/
theorem furrowDistances : Obligations.FurrowDistances := by
  unfold Obligations.FurrowDistances
  refine ⟨distanceReached_iff, fun n pass slot hn hp hs => ⟨?_, ?_⟩, fun s consumed _ hf h => ?_, fun s n => ?_⟩
  · exact posOf_next_step hn hp (by omega)
  · exact posOf_next_slot (by omega) hp hs
  · rw [exec_counterSample, counterSample_not_reached hf (distanceReached_eq_false h)]
  · simp only [voteBounds_distance, distanceReached_iff]

end Sys2Proof.Proofs
end

section
/-!
PROOFS. The furrow's messages and the clock, at a module (02 R26 to R40).
-/
namespace Sys2Proof.Proofs

open Sys2Proof Sys2Proof.Machine Sys2Proof.Laws

/-! ### What each message answers -/

theorem exec_furrowHead (p : Pos) (s : State) : exec (.furrowHead p) s = .next (takeHead p s) := rfl

theorem exec_localFront (m : ModId) (f b : Pos) (low : W32) (s : State) :
    exec (.localFront m f b low) s = .next (takeFront m f b low s) := rfl

theorem exec_furrowStall (s : State) : exec .furrowStall s = execFurrowStall s := rfl

theorem exec_timestampSync (lead : W64) (s : State) : exec (.timestampSync lead) s = execTimestampSync lead s := rfl

theorem exec_hedgeStop (m : StopMsg) (s : State) :
    exec (.hedgeStop m) s = .next (if s.run.isOn then advance (takeStop m s) else s) := rfl

theorem exec_stopCutReached (s : State) :
    exec .stopCutReached s = .next (if cutReached s then advance (reachCut s) else s) := rfl

/-! ### The head and the fronts (02 R26, R28) -/

/-- A member takes the head that the lead master broadcasts where it is higher than its own copy. -/
theorem furrowHead_taken {s : State} (hl : s.isLead = false) (hm : s.moving = true) (p : Pos) :
    ∃ u, exec (.furrowHead p) s = .next (advance u) ∧
      u.run.head = (if s.run.head.toNat < p.toNat then p else s.run.head) ∧
      u.mem.base = s.mem.base ∧ u.mem.layers = s.mem.layers ∧ u.votes = s.votes := by
  have htake : takeHead p s = advance (setHead p (traceReceive (leadId s) 0x01 s)) := by
    simp [takeHead, isOn_of_moving hm, hl, hm]
  refine ⟨setHead p (traceReceive (leadId s) 0x01 s), by rw [exec_furrowHead, htake], ?_⟩
  split
  next hlt =>
    simpa using setHead_of_lt (p := p) (s := traceReceive (leadId s) 0x01 s) (by simpa using hlt)
  next hle =>
    rw [setHead_of_le (by simpa using hle)]
    simp

theorem furrowHead_ignored {s : State} (h : s.moving = false ∨ s.isLead = true) (p : Pos) :
    exec (.furrowHead p) s = .next s := by
  have htake : takeHead p s = s := by
    rcases h with h | h <;> simp [takeHead, h]
  rw [exec_furrowHead, htake]

theorem localFront_taken {s : State} {m : ModId} (hon : s.run.isOn = true) (hm : m ≠ s.holding.moduleId) (f b : Pos)
    (low : W32) :
    ∃ u, exec (.localFront m f b low) s = .next (advance u) ∧
      u.run.fronts = (s.run.fronts.filter fun e => e.1 != m) ++ [(m, f, b, low)] ∧
      { u with run.fronts := s.run.fronts, holding.lastHedge := s.holding.lastHedge, sheaf := s.sheaf } = s := by
  have htake : takeFront m f b low s = advance (traceReceive m 0x02
      { s with run.fronts := (s.run.fronts.filter fun e => e.1 != m) ++ [(m, f, b, low)] }) := by
    simp [takeFront, hon, hm]
  refine ⟨_, by rw [exec_localFront, htake], by rw [traceReceive_run], ?_⟩
  rw [traceReceive_eq]

/-! ### The stall (02 R33) -/

/-- The task that FURROW_STALL names: the lowest of the module whose front is lowest, as its last report gives it. -/
def stallTask (s : State) : W32 :=
  ((s.run.fronts.find? fun e => e.1 == lowestFront s).map (·.2.2.2)).getD (BitVec.allOnes 32)

theorem furrowStall_raised {s : State} (hl : s.isLead = true) (hm : s.moving = true) (hr : s.run.stallRaised = false)
    (ht : s.run.headAt + ms s.tmo.stall.toNat ≤ s.clock.up) :
    ∃ t, exec .furrowStall s = .next t ∧ t.run.stallRaised = true ∧
      Safety.Announces s t evFurrowStall (pack [(16, (lowestFront s).toNat), (32, (stallTask s).toNat)]) ∧
      { t with run.stallRaised := s.run.stallRaised, host := s.host, sheaf := s.sheaf, out := s.out } = s := by
  have hexec : exec .furrowStall s = .next (raise evFurrowStall
      (pack [(16, (lowestFront s).toNat), (32, (stallTask s).toNat)]) { s with run.stallRaised := true }) := by
    simp [exec_furrowStall, execFurrowStall, stallTask, hl, hm, hr, ht]
  refine ⟨_, hexec, by rw [raise_eq], raise_announces _ _ { s with run.stallRaised := true }, ?_⟩
  rw [raise_eq]

theorem furrowStall_not_due {s : State}
    (h : s.run.stallRaised = true ∨ s.isLead = false ∨ s.clock.up < s.run.headAt + ms s.tmo.stall.toNat) :
    exec .furrowStall s = .next s := by
  rw [exec_furrowStall, execFurrowStall, if_neg]
  rcases h with h | h | h
  · simp [h]
  · simp [h]
  · simp [Nat.not_le.2 h]

/-! ### The timestamp (02 R34) -/

theorem timestampSync_taken {s : State} (ha : s.assigned = true) (hl : s.isLead = false) (lead : W64) :
    ∃ t, exec (.timestampSync lead) s = .next t ∧
      t.clock = { s.clock with offset := (lead.toNat : Int) - (s.clock.now : Int) } ∧
      { t with clock := s.clock, holding.lastHedge := s.holding.lastHedge, sheaf := s.sheaf } = s := by
  have hexec : exec (.timestampSync lead) s = .next { traceReceive (leadId s) 0x03 s with
      clock := { s.clock with offset := (lead.toNat : Int) - (s.clock.now : Int) } } := by
    simp [exec_timestampSync, execTimestampSync, ha, hl]
  refine ⟨_, hexec, rfl, ?_⟩
  rw [traceReceive_eq]

theorem timestampSync_ignored {s : State} (h : s.assigned = false ∨ s.isLead = true) (lead : W64) :
    exec (.timestampSync lead) s = .next s := by
  rcases h with h | h <;> simp [exec_timestampSync, execTimestampSync, h]

/-- A tick slews back only where the nanosecond it takes away has passed. -/
theorem tick_now_le (s : State) : s.clock.now ≤ (tick s).clock.now := by
  have hslew : ∀ (whole : Nat) (c : Bool), (0 : Int) ≤ whole +
      (if c && (decide (0 < s.clock.offset) || (whole : Int) != 0) then (if 0 < s.clock.offset then 1 else -1) else 0) := by
    intro whole c
    by_cases hoff : 0 < s.clock.offset
    · simp only [hoff, if_true]; split <;> omega
    · by_cases hw : whole = 0
      · simp [hoff, hw]
      · simp only [hoff, if_false]; split <;> omega
  have hround : ∀ (n whole : Nat) (slew : Int), 0 ≤ whole + slew → n ≤ (n + whole + slew).toNat := by omega
  exact hround _ _ _ (hslew _ _)

theorem step_of_empty_queue {s : State} (h : s.pending = []) : step s = .next (tick (answerSahith s)) := by
  unfold step; rw [h]

/-! ### Stops (02 R35 to R39) -/

theorem hedgeStop_exec {s : State} (h : s.run.isOn = true) (m : StopMsg) :
    exec (.hedgeStop m) s = .next (advance (takeStop m s)) := by
  rw [exec_hedgeStop, if_pos h]

theorem hedgeStop_outside_run {s : State} (h : s.run.isOn = false) (m : StopMsg) : exec (.hedgeStop m) s = .next s := by
  simp [exec_hedgeStop, h]

/-- A member takes a stop message as the lead master's order. -/
theorem takeStop_of_member {s : State} (hl : s.isLead = false) (m : StopMsg) :
    takeStop m s = applyStop m (traceReceive (leadId s) 0x19 s) := by
  simp [takeStop, hl]

/-- An immediate stop halts a module that runs, and one at the cut of a stop that is not yet complete. -/
theorem applyStop_immediate {m : StopMsg} {s : State} (hon : s.run.isOn = true) (hi : m.scheduled = false)
    (hh : s.run.halt = .running ∨ (s.run.halt = .cut ∧ s.run.stopMap.isSome = true)) :
    Smeared s (applyStop m s) := by
  have happly : applyStop m s = haltSmear m { s with run.halt := .running } := by
    rcases hh with hh | ⟨hh, hmap⟩
    · simp [applyStop, hon, hi, hh]
    · simp [applyStop, hon, hi, hh, hmap]
  have h := haltSmear_smears (s := { s with run.halt := .running }) hon rfl m
  rw [happly]
  exact ⟨h.halt, h.stop, h.holdResume, h.live, h.txns, h.votes, h.sent⟩

/-- Of the pending stop and a scheduled one that joins it, the one that is pending afterwards (02 R38). -/
def joinedStop (pending : Option StopMsg) (m : StopMsg) : StopMsg :=
  match pending with
  | some o => if o.scheduled ∧ o.target.toNat < m.target.toNat then o else m
  | none => m

theorem applyStop_scheduled {m : StopMsg} {s : State} (hon : s.run.isOn = true) (hs : m.scheduled = true)
    (hrun : s.run.halt = .running) (hno : (s.sched.tasks.any fun x => x.seedbed) = false) :
    applyStop m s = { s with run.stop := some (joinedStop s.run.stop m) } := by
  have hcut : applyStop m s = cutSeedbed (joinedStop s.run.stop m).target
      { s with run.stop := some (joinedStop s.run.stop m) } := by
    cases hp : s.run.stop with
    | none => simp [applyStop, joinedStop, hon, hs, hrun, hp]
    | some o => simp [applyStop, joinedStop, hon, hs, hrun, hp]
  rw [hcut]
  exact cutSeedbed_of_no_seedbed (s := { s with run.stop := some (joinedStop s.run.stop m) }) hno _

/-- A member of the run halts at an immediate stop; its votes are those it had before the message. -/
theorem takeStop_immediate {m : StopMsg} {s : State} (hon : s.run.isOn = true) (hl : s.isLead = false)
    (hi : m.scheduled = false) (hh : s.run.halt = .running ∨ (s.run.halt = .cut ∧ s.run.stopMap.isSome = true)) :
    Smeared (traceReceive (leadId s) 0x19 s) (takeStop m s) := by
  rw [takeStop_of_member hl]
  exact applyStop_immediate (by rwa [traceReceive_run]) hi (by rwa [traceReceive_run])

/-- A member of the run with no seedbed work notes a scheduled stop, and goes on. -/
theorem takeStop_scheduled {m : StopMsg} {s : State} (hon : s.run.isOn = true) (hl : s.isLead = false)
    (hs : m.scheduled = true) (hrun : s.run.halt = .running) (hno : (s.sched.tasks.any fun x => x.seedbed) = false) :
    takeStop m s = { traceReceive (leadId s) 0x19 s with
      run := { s.run with stop := some (joinedStop s.run.stop m) } } := by
  rw [takeStop_of_member hl, applyStop_scheduled (by rwa [traceReceive_run]) hs (by rwa [traceReceive_run])
    (by rwa [traceReceive_sched])]
  simp only [traceReceive_run]

/-- The lead master when it orders the immediate stop it has been asked for. -/
def stopAsked (s : State) : State :=
  { traceReceive (leadId s) 0x19 s with run.holdResume := true, run.stopAcks := [] }

theorem stopAsked_run (s : State) : (stopAsked s).run = { s.run with holdResume := true, stopAcks := [] } := by
  rw [stopAsked, traceReceive_run]

/-- The lead master asked for an immediate stop: it is ordered of every module, and halts the lead master too. -/
theorem takeStop_of_lead {m : StopMsg} {s : State} (hl : s.isLead = true) (hrun : s.run.halt = .running)
    (hi : m.scheduled = false) :
    (takeStop m s).run.halt = .smear ∧ (takeStop m s).run.holdResume = true ∧
      (everyone, Hedge.stop m) ∈ (takeStop m s).out.hedge := by
  have htake : takeStop m s = applyStop m (sendHedge everyone (.stop m) (stopAsked s)) := by
    simp [takeStop, orderStop, stopAsked, hl, hrun, hi]
  have hrun' : (sendHedge everyone (.stop m) (stopAsked s)).run = { s.run with holdResume := true, stopAcks := [] } := by
    rw [sendHedge_eq, stopAsked_run]
  have h : Smeared (sendHedge everyone (.stop m) (stopAsked s)) (takeStop m s) := by
    rw [htake]
    exact applyStop_immediate (by rw [hrun']; exact isOn_of_isLead hl) hi (.inl (by rw [hrun']; exact hrun))
  exact ⟨h.halt, by rw [h.holdResume, hrun'], h.sent (mem_sendHedge ..)⟩

theorem stopCutReached_exec {s : State} (h : cutReached s = true) :
    exec .stopCutReached s = .next (advance (reachCut s)) := by
  rw [exec_stopCutReached, if_pos h]

theorem stopCutReached_early {s : State} (h : cutReached s = false) : exec .stopCutReached s = .next s := by
  simp [exec_stopCutReached, h]

/-- Settles O39: each clause is the lemma about its message. -/
theorem furrowMessages : Obligations.FurrowMessages := by
  unfold Obligations.FurrowMessages
  intro s
  refine ⟨fun p hl hm => furrowHead_taken hl hm p, fun p h => furrowHead_ignored h p,
    fun m f b low hon hm => localFront_taken hon hm f b low, furrowStall_raised, furrowStall_not_due,
    fun lead ha hl => timestampSync_taken ha hl lead, fun lead h => timestampSync_ignored h lead,
    fun hq => ⟨_, step_of_empty_queue hq, rfl, tick_now_le _⟩,
    fun m hon hl => ⟨fun hi hh => ?immediate, fun hs hrun hno => ?scheduled⟩,
    fun m hl hrun hi => ⟨_, hedgeStop_exec (isOn_of_isLead hl) m, takeStop_of_lead hl hrun hi⟩,
    fun m h => hedgeStop_outside_run h m, fun h => ⟨_, stopCutReached_exec h, reachCut_cuts h⟩, stopCutReached_early⟩
  case immediate =>
    have h := takeStop_immediate hon hl hi hh
    exact ⟨_, hedgeStop_exec hon m, h.halt, h.stop, h.live, h.txns, by rw [h.votes, traceReceive_votes]⟩
  case scheduled =>
    refine ⟨_, hedgeStop_exec hon m, ?_⟩
    rw [takeStop_scheduled hon hl hs hrun hno]
    exact ⟨hrun, traceReceive_mem .., traceReceive_votes .., rfl⟩

end Sys2Proof.Proofs
end

section
/-!
PROOFS. The setup fields whose write acts: TRAP_ARMED at the host's write, and the words that the master forwards to a member
(04 R85, 20 R411, R412, R415).
-/
namespace Sys2Proof.Proofs

open Sys2Proof Sys2Proof.Machine Sys2Proof.Laws

theorem exec_trapArmed (s : State) : exec .trapArmed s = execTrapArmed s := rfl

theorem exec_setupWrite (offset len : Nat) (value : W64) (s : State) :
    exec (.setupWrite offset len value) s = execSetupWrite offset len value s := rfl

/-! ### TRAP_ARMED written by the host (04 R85) -/

theorem hostControls_of_isMaster {s : State} (h : s.holding.isMaster = true) : hostControls s = true := by
  simp [hostControls, h]

/-- The master's message to every member: numerics word 0 with TRAP_ARMED in it. -/
def armForward (s : State) : Hedge := .setupWrite 0x40000 8 (BitVec.ofNat 64 (numericsWord (armTrap s).numerics))

/-- Where the write is not forwarded, it only arms the trap. -/
theorem trapArmed_kept {s : State} (hc : hostControls s = true)
    (h : s.holding.isMaster = false ∨ s.numerics.trapArmed = true) : exec .trapArmed s = .next (armTrap s) := by
  rw [exec_trapArmed, execTrapArmed, if_pos hc]
  rcases h with h | h <;> simp [h]

/-- A master whose trap was not armed tells every member. -/
theorem trapArmed_forwarded {s : State} (hm : s.holding.isMaster = true) (ha : s.numerics.trapArmed = false) :
    exec .trapArmed s = .next (sendHedge everyone (armForward s) (armTrap s)) := by
  rw [exec_trapArmed, execTrapArmed, if_pos (hostControls_of_isMaster hm)]
  simp [hm, ha, armForward]

theorem trapArmed_of_master {s : State} (hm : s.holding.isMaster = true) :
    ∃ t, exec .trapArmed s = .next t ∧
      t.numerics = { s.numerics with trapArmed := true, armedAt := some s.clock.up } ∧
      t.out.hedge = s.out.hedge ++ (if s.numerics.trapArmed then []
        else [(everyone, .setupWrite 0x40000 8 (BitVec.ofNat 64 (numericsWord t.numerics)))]) ∧
      { t with numerics := s.numerics, sheaf := s.sheaf, out := s.out } = s := by
  cases ha : s.numerics.trapArmed with
  | true => exact ⟨_, trapArmed_kept (hostControls_of_isMaster hm) (.inr ha), rfl, by simp [armTrap], rfl⟩
  | false =>
    refine ⟨_, trapArmed_forwarded hm ha, ?_⟩
    rw [sendHedge_eq]
    exact ⟨rfl, rfl, rfl⟩

/-! ### SETUP_LOCK forwarded to a member (20 R411, R412) -/

theorem setupWrite_lock {s : State} (ha : s.assigned = true) (hm : s.holding.isMaster = false) :
    exec (.setupWrite 0x18 8 1) s = .next (lockRegisters s) := by
  have hbit : writtenBit 0x18 8 1 0 = true := by decide
  simp [exec_setupWrite, execSetupWrite, accessOk, ha, hm, hbit]

/-- With no RWL field written in this cycle, there is nothing to put back. -/
theorem lockRegisters_of_no_write {s : State} (h : ∀ b, s.holding.before = some b → b.at_ ≠ s.clock.up) :
    lockRegisters s = lockSetup s := by
  unfold lockRegisters
  split
  next => rfl
  next b hb => rw [if_pos (h b hb)]

/-- On a member the RWL fields written in this cycle are put back and nothing is sent. -/
theorem lockRegisters_of_write {s : State} {b : LockedFields} (hm : s.holding.isMaster = false)
    (hb : s.holding.before = some b) (h : b.at_ = s.clock.up) :
    lockRegisters s = lockSetup (restoreFields b s) := by
  simp [lockRegisters, hb, h, hm]

/-! ### A staged word forwarded to a member (20 R411) -/

/-- An 8-byte write replaces the whole word. -/
@[simp] theorem mergeWord_whole (old o : Nat) (v : W64) : mergeWord old o 8 v.toNat = v.toNat := by
  rw [mergeWord, if_pos rfl, Nat.mod_eq_of_lt v.isLt]

@[simp] theorem keepFields_mem (s : State) : (keepFields s).mem = s.mem := by
  unfold keepFields
  split <;> rfl

theorem writeRegister_memWord (v : W64) (s : State) :
    writeRegister 0x30000 8 v.toNat s =
      { keepFields s with mem.staged := some (writeMemWord v.toNat (s.mem.staged.getD s.mem.cfg)) } := by
  simp [writeRegister, holdingScope, writeHoldingWord]

theorem setupWrite_memWord {s : State} (ha : s.assigned = true) (hm : s.holding.isMaster = false) (v : W64) :
    exec (.setupWrite 0x30000 8 v) s = .next (writeRegister 0x30000 8 v.toNat s) := by
  simp [exec_setupWrite, execSetupWrite, accessOk, holdingScope, ha, hm]

/-- Settles O16: TRAP_ARMED by whether the write is forwarded, SETUP_LOCK by whether an RWL field was written in this cycle, and
the staged word by its register's write. -/
theorem actingFields : Obligations.ActingFields := by
  unfold Obligations.ActingFields
  refine fun s => ⟨fun hc hm => trapArmed_kept hc (.inl hm), trapArmed_of_master, fun ha hm => ⟨fun h => ?unwritten,
    fun b hb h => ?written, fun v => ?staged⟩⟩
  case unwritten =>
    rw [setupWrite_lock ha hm, lockRegisters_of_no_write h]
    rfl
  case written =>
    rw [setupWrite_lock ha hm, lockRegisters_of_write hm hb h]
    exact ⟨_, rfl, rfl, rfl, rfl, rfl, rfl, rfl, rfl⟩
  case staged => rw [setupWrite_memWord ha hm, writeRegister_memWord]

end Sys2Proof.Proofs
end

section
/-!
PROOFS. The registers of a vector engine: reading them back after a write, what an event leaves of them, and the registers that
an instruction writes (05 R89, R92 to R96).
-/
namespace Sys2Proof.Proofs

open Sys2Proof Sys2Proof.Machine Sys2Proof.Safety Sys2Proof.Laws

/-! ### A register read after a write -/

@[simp] theorem vReg_setV_same (r : Nat) (x : List W32) (c : VecCtx) : vReg (setV r x c) r = x := tget_tset_same ..

theorem vReg_setV_other {r q : Nat} (h : q ≠ r) (x : List W32) (c : VecCtx) : vReg (setV r x c) q = vReg c q :=
  tget_tset_other _ _ _ h

@[simp] theorem vReg_setM (r q : Nat) (x : BitVec 64) (c : VecCtx) : vReg (setM r x c) q = vReg c q := rfl

/-- M0 is the live mask, which no write reaches. -/
theorem mReg_setM_same {r : Nat} (h : r ≠ 0) (x : BitVec 64) (c : VecCtx) : mReg (setM r x c) r = x := by
  rw [mReg, if_neg h]
  exact tget_tset_same ..

theorem mReg_setM_other {r q : Nat} (h : q ≠ r) (x : BitVec 64) (c : VecCtx) : mReg (setM r x c) q = mReg c q := by
  unfold mReg
  split
  · rfl
  · exact tget_tset_other _ _ _ h

@[simp] theorem dReg_setD_same (r : Nat) (x : List W64) (c : VecCtx) : dReg (setD r x c) r = x := tget_tset_same ..

theorem dReg_setD_other {r q : Nat} (h : q ≠ r) (x : List W64) (c : VecCtx) : dReg (setD r x c) q = dReg c q :=
  tget_tset_other _ _ _ h

/-- Lane `j` of a register written lane by lane. -/
theorem getD_lanes {α : Type} (f : Nat → α) (d : α) {j : Nat} (h : j < 64) : ((List.range 64).map f).getD j d = f j := by
  simp [h]

theorem getD_append_zeros (l : List W32) (n j : Nat) : (l ++ List.replicate n 0).getD j 0 = l.getD j 0 := by
  rcases Nat.lt_or_ge j l.length with h | h
  · rw [List.getD_eq_getElem?_getD, List.getElem?_append_left h, List.getD_eq_getElem?_getD]
  · rw [List.getD_eq_getElem?_getD, List.getElem?_append_right h, List.getElem?_replicate, List.getD_eq_getElem?_getD,
      List.getElem?_eq_none h]
    split
    · rfl
    · rfl

/-- The engine at another instruction, its registers as they are. -/
def moveOn (n : Nat) (c : VecCtx) : VecCtx := { c with pc := n }

@[simp] theorem vReg_moveOn (n : Nat) (c : VecCtx) (q : Nat) : vReg (moveOn n c) q = vReg c q := rfl

@[simp] theorem mReg_moveOn (n : Nat) (c : VecCtx) (q : Nat) : mReg (moveOn n c) q = mReg c q := rfl

@[simp] theorem dReg_moveOn (n : Nat) (c : VecCtx) (q : Nat) : dReg (moveOn n c) q = dReg c q := rfl

/-! ### Events -/

theorem raiseLane_eq (stage j cause : Nat) (c : VecCtx) : ∃ raised events,
    raiseLane stage j cause c = { c with raised := raised, events := events } := by
  unfold raiseLane
  split
  · exact ⟨c.raised, c.events, rfl⟩
  · exact ⟨_, _, rfl⟩

/-- The events of an instruction are noted, and nothing else of the engine changes. -/
theorem raiseLanes_eq (stage : Nat) (f : Nat → Option Nat) (js : List Nat) (c : VecCtx) : ∃ raised events,
    raiseLanes stage f js c = { c with raised := raised, events := events } := by
  unfold raiseLanes
  induction js generalizing c with
  | nil => exact ⟨c.raised, c.events, rfl⟩
  | cons j js ih =>
    rw [List.foldl_cons]
    cases f j with
    | none => exact ih c
    | some cause =>
      obtain ⟨r, es, h⟩ := raiseLane_eq stage j cause c
      obtain ⟨r', es', h'⟩ := ih (raiseLane stage j cause c)
      exact ⟨r', es', by rw [h', h]⟩

section
variable (stage : Nat) (f : Nat → Option Nat) (js : List Nat) (c : VecCtx)

@[simp] theorem raiseLanes_live : (raiseLanes stage f js c).live = c.live := by
  obtain ⟨_, _, h⟩ := raiseLanes_eq stage f js c
  rw [h]

@[simp] theorem raiseLanes_vReg (r : Nat) : vReg (raiseLanes stage f js c) r = vReg c r := by
  obtain ⟨_, _, h⟩ := raiseLanes_eq stage f js c
  rw [h]
  rfl

@[simp] theorem raiseLanes_stores : (raiseLanes stage f js c).stores = c.stores := by
  obtain ⟨_, _, h⟩ := raiseLanes_eq stage f js c
  rw [h]

end

/-! ### What an instruction may write -/

/-- The engine `c'` with the program counter, the registers, the stores and the events of `c`. -/
def withRegs (c c' : VecCtx) : VecCtx :=
  { c' with
    pc := c.pc, v := c.v, m := c.m, d := c.d, stores := c.stores, raised := c.raised, events := c.events }

/-- From `c` to `c'` an instruction `op` whose VD names a register of `bank` (1 V, 2 M, 3 D) has written no other register, but
for the M7 of COMPRESS and the stores of STORE. -/
structure WritesOnly (op : VecOp) (bank vd : Nat) (c c' : VecCtx) : Prop where
  rest   : withRegs c c' = c
  stores : op ≠ .store → c'.stores = c.stores
  v      : ∀ r, r ≠ vd ∨ bank ≠ 1 → vReg c' r = vReg c r
  m      : ∀ r, r ≠ vd ∨ bank ≠ 2 → ¬(op = .compress ∧ r = 7) → mReg c' r = mReg c r
  d      : ∀ r, r ≠ vd ∨ bank ≠ 3 → dReg c' r = dReg c r

namespace WritesOnly

variable {op : VecOp} {bank vd : Nat} {c c' c'' : VecCtx}

theorem refl (op : VecOp) (bank vd : Nat) (c : VecCtx) : WritesOnly op bank vd c c :=
  ⟨rfl, fun _ => rfl, fun _ _ => rfl, fun _ _ _ => rfl, fun _ _ => rfl⟩

theorem trans (h : WritesOnly op bank vd c c') (k : WritesOnly op bank vd c' c'') : WritesOnly op bank vd c c'' where
  rest := calc
    withRegs c c'' = withRegs c (withRegs c' c'') := rfl
    _ = withRegs c c' := by rw [k.rest]
    _ = c := h.rest
  stores ho := (k.stores ho).trans (h.stores ho)
  v r hr := (k.v r hr).trans (h.v r hr)
  m r hr hc := (k.m r hr hc).trans (h.m r hr hc)
  d r hr := (k.d r hr).trans (h.d r hr)

theorem movedOn (h : WritesOnly op bank vd c c') (n : Nat) : WritesOnly op bank vd c (moveOn n c') :=
  ⟨h.rest, h.stores, h.v, h.m, h.d⟩

end WritesOnly

theorem raiseLanes_writesOnly (op : VecOp) (bank vd stage : Nat) (f : Nat → Option Nat) (js : List Nat) (c : VecCtx) :
    WritesOnly op bank vd c (raiseLanes stage f js c) := by
  obtain ⟨r, es, h⟩ := raiseLanes_eq stage f js c
  rw [h]
  exact ⟨rfl, fun _ => rfl, fun _ _ => rfl, fun _ _ _ => rfl, fun _ _ => rfl⟩

theorem setV_writesOnly (op : VecOp) (vd : Nat) (x : List W32) (c : VecCtx) : WritesOnly op 1 vd c (setV vd x c) where
  rest := rfl
  stores _ := rfl
  v _ hr := vReg_setV_other (hr.resolve_right (not_not_intro rfl)) x c
  m _ _ _ := rfl
  d _ _ := rfl

theorem setM_writesOnly (op : VecOp) (vd : Nat) (x : BitVec 64) (c : VecCtx) : WritesOnly op 2 vd c (setM vd x c) where
  rest := rfl
  stores _ := rfl
  v _ _ := rfl
  m _ hr _ := mReg_setM_other (hr.resolve_right (not_not_intro rfl)) x c
  d _ _ := rfl

theorem setD_writesOnly (op : VecOp) (vd : Nat) (x : List W64) (c : VecCtx) : WritesOnly op 3 vd c (setD vd x c) where
  rest := rfl
  stores _ := rfl
  v _ _ := rfl
  m _ _ _ := rfl
  d _ hr := dReg_setD_other (hr.resolve_right (not_not_intro rfl)) x c

theorem setM7_writesOnly (bank vd : Nat) (x : BitVec 64) (c : VecCtx) : WritesOnly .compress bank vd c (setM 7 x c) where
  rest := rfl
  stores _ := rfl
  v _ _ := rfl
  m _ _ hc := mReg_setM_other (fun h => hc ⟨rfl, h⟩) x c
  d _ _ := rfl

theorem stores_writesOnly (bank vd : Nat) (x : List (Nat × Nat × W32)) (c : VecCtx) :
    WritesOnly .store bank vd c { c with stores := x } :=
  ⟨rfl, fun h => absurd rfl h, fun _ _ => rfl, fun _ _ _ => rfl, fun _ _ => rfl⟩

/-! ### The registers that the VD of each instruction names -/

/-- 0 none, 1 V, 2 M, 3 D (05 R93). -/
def bankOf : VecOp → Nat
  | .nop | .store => 0
  | .cmpeq | .cmplt | .cmple | .cmpgt | .cmpge | .cmpun | .mand | .mor | .mandn => 2
  | .wacc => 3
  | _ => 1

theorem vecRows_bank : ∀ r ∈ vecRows, r.2.2 = bankOf r.2.1 := by decide

theorem vecInstr_writesOnly (env : VecEnv) (op : VecOp) (a : VecArgs) (c : VecCtx) :
    WritesOnly op (bankOf op) a.vd c (vecInstr env op a c) := by
  apply WritesOnly.movedOn
  cases op
  case nop => exact .refl ..
  case cmpeq | cmplt | cmple | cmpgt | cmpge | cmpun | mand | mor | mandn => exact setM_writesOnly ..
  case compress => exact (setV_writesOnly ..).trans (setM7_writesOnly ..)
  case wacc => exact (raiseLanes_writesOnly ..).trans (setD_writesOnly ..)
  case store => exact (stores_writesOnly ..).trans (raiseLanes_writesOnly ..)
  case sel | expand | redsum | redmax | redmin | wsum | laneidx | randu | randb => exact setV_writesOnly ..
  all_goals exact (raiseLanes_writesOnly ..).trans (setV_writesOnly ..)

/-- An instruction that writes a mask register does not name M0. -/
theorem vd_ne_zero_of_vecFits {nin nout : Nat} {tail : Bool} {op : VecOp} {a : VecArgs} (hb : bankOf op = 2)
    (h : vecFits nin nout tail op a = true) : a.vd ≠ 0 := by
  have hvd : 1 ≤ a.vd := by
    cases op
    case cmpeq | cmplt | cmple | cmpgt | cmpge | cmpun | mand | mor | mandn =>
      simp only [vecFits, Bool.and_eq_true, decide_eq_true_eq] at h
      obtain ⟨⟨⟨hvd, -⟩, -⟩, -⟩ := h
      exact hvd
    all_goals exact absurd hb (by decide)
  omega

/-! ### What is left in a register -/

/-- The upper half of a draw. -/
theorem ofNat_div_eq_extractLsb' (x : W64) : BitVec.ofNat 32 (x.toNat / 2 ^ 32) = x.extractLsb' 32 32 := by
  rw [BitVec.extractLsb', Nat.shiftRight_eq_div_pow]

/-- A register written lane by lane, of an engine that may have noted its events first. -/
theorem writeLanes_lanesAre {c c' : VecCtx} {a : VecArgs} (hl : c'.live = c.live) (hv : vReg c' a.vd = vReg c a.vd)
    (act : BitVec 64) (f : Nat → W32) : LanesAre act a f c (writeLanes act a f c') := by
  intro j hj
  rw [writeLanes, vReg_setV_same, getD_lanes _ _ hj, hl, hv]

theorem toLive_liveLanesAre (a : VecArgs) (x : W32) (c : VecCtx) : LiveLanesAre a x c (toLive a.vd x c) := by
  intro j hj
  rw [toLive, vReg_setV_same, getD_lanes _ _ hj]

theorem acting_of_ne_sel {op : VecOp} (h : op ≠ .sel) (a : VecArgs) (c : VecCtx) : acting op a c = c.live &&& mReg c a.mask :=
  if_neg h

theorem vecValue_lanesAre {op : VecOp} (h : op ≠ .sel) (a : VecArgs) (c : VecCtx) :
    LanesAre (c.live &&& mReg c a.mask) a (fun j => (vecAlu op (laneA a c j) (operandB a c j) (operandC a c j)).1) c
      (vecValue op a c) := by
  rw [← acting_of_ne_sel h]
  exact writeLanes_lanesAre (by simp) (by simp) _ _

theorem vecLoad_lanesAre (env : VecEnv) (a : VecArgs) (c : VecCtx) :
    LanesAre (c.live &&& mReg c a.mask) a (fun j => toB32 (env.load a.va (c.first + j))) c (vecLoad env a c) :=
  writeLanes_lanesAre (by simp) (by simp) _ _

/-- Lane `j` of a mask register written lane by lane. -/
theorem setM_maskOf_lane {r : Nat} (hr : r ≠ 0) (f : Nat → Bool) (c : VecCtx) {j : Nat} (hj : j < 64) :
    (mReg (setM r (maskOf f) c) r).getLsbD j = f j := by
  rw [mReg_setM_same hr, maskOf_getLsbD f hj]

/-- A compare writes a mask register on all 64 lanes. -/
theorem vecCmp_lane {op : VecOp} {a : VecArgs} (h : op ≠ .sel) (hd : a.vd ≠ 0) (c : VecCtx) {j : Nat} (hj : j < 64) :
    (mReg (vecCmp op a c) a.vd).getLsbD j =
      ((c.live &&& mReg c a.mask).getLsbD j && vecCompare op (laneA a c j) (operandB a c j)) := by
  rw [← acting_of_ne_sel h]
  exact setM_maskOf_lane hd _ c hj

theorem vecMask_lane {a : VecArgs} (hd : a.vd ≠ 0) (c : VecCtx) {j : Nat} (hj : j < 64) :
    ∀ r ∈ maskRows, (mReg (vecMask r.2.1 a c) a.vd).getLsbD j =
      if (c.live &&& mReg c a.mask).getLsbD j then
        r.2.2 ((mReg c (a.va % 8)).getLsbD j) ((mReg c (a.vb % 8)).getLsbD j)
      else if c.live.getLsbD j && a.zero then false else (mReg c a.vd).getLsbD j := by
  simp only [maskRows, List.forall_mem_cons]
  refine ⟨?mand, ?mor, ?mandn, nofun⟩
  all_goals
    refine (setM_maskOf_lane hd _ c hj).trans ?_
    simp [acting, hj]

theorem vecCompress_lane (a : VecArgs) (c : VecCtx) {j : Nat} (hj : j < 64) :
    (vReg (vecCompress a c) a.vd).getD j 0 = ((lanesOf (c.live &&& mReg c a.mask)).map (laneA a c)).getD j 0 ∧
    (mReg (vecCompress a c) 7).getLsbD j = decide (j < (lanesOf (c.live &&& mReg c a.mask)).length) := by
  refine ⟨?value, setM_maskOf_lane (by decide) _ _ hj⟩
  rw [vecCompress, vReg_setM, vReg_setV_same, acting_of_ne_sel (by decide)]
  exact getD_append_zeros _ _ j

theorem vecWacc_lane (a : VecArgs) (c : VecCtx) {j : Nat} (hj : j < 64) :
    (dReg (vecWacc a c) a.vd).getD j 0 =
      if (c.live &&& mReg c a.mask).getLsbD j then
        toB64 (rnd64 ((ofB64 ((dReg c a.vd).getD j 0)).add (ofB32 (laneA a c j))))
      else if c.live.getLsbD j && a.zero then 0 else (dReg c a.vd).getD j 0 := by
  rw [vecWacc, dReg_setD_same, getD_lanes _ _ hj, raiseLanes_live]
  rfl

/-- The elements of its output view that a STORE stores: every live lane's, +0 where the lane is predicated off. -/
def storedElems (a : VecArgs) (c : VecCtx) : List (Nat × W32) :=
  (lanesOf c.live).map fun j => (c.first + j, if (c.live &&& mReg c a.mask).getLsbD j then laneA a c j else 0)

theorem vecStore_stores (env : VecEnv) (a : VecArgs) (c : VecCtx) :
    (vecStore env a c).stores = c.stores ++ (storedElems a c).map fun e => (a.vb, e) := by
  rw [vecStore, raiseLanes_stores, storedElems, List.map_map]
  rfl

end Sys2Proof.Proofs
end

section
/-!
PROOFS. The rows of the vector instructions: the engine that an instruction leaves, the task it serves, and the rest of the module
(05 R89 to R98, R103; log entry 1).
-/
namespace Sys2Proof.Proofs

open Sys2Proof Sys2Proof.Machine Sys2Proof.Safety Sys2Proof.Laws

/-! ### The run of a task replaced by its image -/

theorem mem_mapFirst_of_not {α : Type} {p : α → Bool} {x : α} (f : α → α) {l : List α} (hx : x ∈ l) (hp : p x = false) :
    x ∈ mapFirst p f l := by
  induction l with
  | nil => exact hx
  | cons y l ih =>
    rw [mapFirst]
    rcases List.mem_cons.1 hx with rfl | hx
    · simp [hp]
    · split
      · exact List.mem_cons_of_mem _ hx
      · exact List.mem_cons_of_mem _ (ih hx)

theorem mapFirst_id {α : Type} (p : α → Bool) (l : List α) : mapFirst p id l = l := by
  induction l with
  | nil => rfl
  | cons y l ih => rw [mapFirst, ih, id_eq, ite_self]

theorem find?_mapFirst {α : Type} {p : α → Bool} {f : α → α} (hf : ∀ x, p (f x) = p x) (l : List α) :
    (mapFirst p f l).find? p = (l.find? p).map f := by
  induction l with
  | nil => rfl
  | cons y l ih =>
    rw [mapFirst]
    cases hy : p y with
    | true => simp [hf, hy]
    | false => simpa [hy] using ih

theorem findTask_setTask {step : Nat} {task : W32} {f : TaskInst → TaskInst}
    (hf : ∀ x, (f x).step = x.step ∧ (f x).task = x.task) (s : State) :
    findTask (setTask step task f s) step task = (findTask s step task).map f :=
  find?_mapFirst (p := sameRun step task) (fun x => by rw [sameRun, sameRun, (hf x).1, (hf x).2]) _

/-- The task an engine serves is the run that the engine names. -/
theorem servedTask_found {s : State} {c : VecCtx} {x : TaskInst × Segment × TaskRec × Bytes} (h : servedTask s c = some x) :
    c.task = some (x.1.step, x.1.task) ∧ findTask s x.1.step x.1.task = some x.1 := by
  unfold servedTask at h
  split at h
  · cases h
  next t ht =>
    split at h
    · cases h
    split at h
    next g k _ _ =>
      obtain ⟨img, -, rfl⟩ := Option.map_eq_some_iff.1 h
      obtain ⟨⟨step, task⟩, hkey, hfind⟩ := Option.bind_eq_some_iff.1 ht
      obtain ⟨rfl, rfl⟩ : t.step = step ∧ t.task = task := by simpa using List.find?_some hfind
      exact ⟨hkey, hfind⟩
    · cases h

/-! ### A step of an engine -/

theorem vecStep_of_not_engaged {op : VecOp} {core : Nat} {a : VecArgs} {s : State} (h : ¬ Engaged op core a s) :
    vecStep op core a s = s := by
  unfold vecStep
  by_cases hg : (!s.ready || 4096 ≤ core || !coreEnabled s core || s.sched.halted.contains core) = true
  case pos => rw [if_pos hg]
  case neg =>
    rw [if_neg hg]
    simp only [Bool.or_eq_true, Bool.not_eq_true', decide_eq_true_eq, not_or, Bool.not_eq_false, Nat.not_le,
      Bool.not_eq_true] at hg
    obtain ⟨⟨⟨hready, hknown⟩, henabled⟩, hgoing⟩ := hg
    have hfits : ¬ vecFits (viewCount s core).1 (viewCount s core).2 (engineOf s core).tail op a = true :=
      fun hf => h ⟨hready, hknown, henabled, hgoing, hf⟩
    unfold viewCount at hfits
    cases hx : servedTask s (engineOf s core) with
    | none =>
      rw [hx] at hfits
      exact if_neg hfits
    | some x =>
      rw [hx] at hfits
      exact if_neg hfits

/-- The tasks after a step of an engine: the run that the engine serves is replaced by an image of itself, with the cells of a
STORE put before its own. -/
structure TasksAfter (op : VecOp) (core : Nat) (a : VecArgs) (s t : State) : Prop where
  others : ∀ x ∈ s.sched.tasks, (x.step, x.task) ≠ ((engineOf s core).task).getD (0, 0) → x ∈ t.sched.tasks
  served : ∀ x, servedTask s (engineOf s core) = some x → ∃ u, findTask t x.1.step x.1.task = some u ∧
    u.cells = (if op = .store then storeWork s a (engineOf s core) (engineAfter op core a s) x else {}).cells ++ x.1.cells

theorem vecStep_tasks {op : VecOp} {core : Nat} {a : VecArgs} {s : State} (h : Engaged op core a s) :
    TasksAfter op core a s (vecStep op core a s) := by
  obtain ⟨f, k, hkey, hserved, hidle, hsame⟩ := vecStep_engaged h
  have htasks : (vecStep op core a s).sched.tasks = mapFirst (sameRun k.1 k.2) f s.sched.tasks := by rw [hsame.eq]; rfl
  constructor
  case others =>
    intro x hx hne
    rw [htasks]
    cases hc : servedTask s (engineOf s core) with
    | none => rwa [hidle hc, mapFirst_id]
    | some y =>
      obtain ⟨rfl, -⟩ := hserved y hc
      refine mem_mapFirst_of_not f hx ?_
      rw [(servedTask_found hc).1] at hne
      simpa [sameRun] using hne
  case served =>
    intro x hx
    obtain ⟨rfl, hcells⟩ := hserved x hx
    refine ⟨f x.1, ?_, hcells x.1⟩
    calc findTask (vecStep op core a s) x.1.step x.1.task
      _ = findTask (setTask x.1.step x.1.task f s) x.1.step x.1.task := by rw [findTask, htasks]; rfl
      _ = (findTask s x.1.step x.1.task).map f := findTask_setTask hkey s
      _ = some (f x.1) := by rw [(servedTask_found hx).2]; rfl

theorem vecStep_vec_other {op : VecOp} {core k : Nat} {a : VecArgs} {s : State} (h : Engaged op core a s) (hk : k ≠ core) :
    vecOf (vecStep op core a s) k = vecOf s k := by
  obtain ⟨f, key, -, -, -, hsame⟩ := vecStep_engaged h
  rw [hsame.eq]
  exact vecOf_setVec_other hk _ s

theorem vecStep_rest {op : VecOp} {core : Nat} {a : VecArgs} {s : State} (h : Engaged op core a s) :
    { vecStep op core a s with
      vec := s.vec, sched.tasks := s.sched.tasks, counters.values := s.counters.values
      numerics.trap := s.numerics.trap, sheaf := s.sheaf } = s := by
  obtain ⟨f, key, -, -, -, hsame⟩ := vecStep_engaged h
  rw [hsame.eq]
  rfl

/-! ### The rows -/

/-- The row runs the instruction `op` on the engine of its core. -/
def Runs (row : Nat → VecArgs → Instr) (op : VecOp) : Prop :=
  ∀ core a s, exec (row core a) s = .next (vecStep op core a s)

theorem vecRows_run : ∀ r ∈ vecRows, Runs r.1 r.2.1 := by
  simp only [vecRows, List.forall_mem_cons, List.not_mem_nil, false_implies, implies_true, and_true]
  and_intros
  all_goals exact fun _ _ _ => rfl

/-- Settles O49: where the core is engaged, by what an instruction may write and by what a step of an engine leaves. -/
theorem vectorRowsKeepTheRest : Obligations.VectorRowsKeepTheRest := by
  unfold Obligations.VectorRowsKeepTheRest
  intro row op bank core a s hrow
  obtain rfl : bank = bankOf op := vecRows_bank _ hrow
  have hexec := vecRows_run _ hrow core a s
  refine ⟨fun h => by rw [hexec, vecStep_of_not_engaged h], fun h => ⟨_, hexec, ?engine, fun k hk => vecStep_vec_other h hk,
    (vecStep_tasks h).others, vecStep_rest h⟩⟩
  case engine =>
    rw [vecStep_vec h]
    have hw := vecInstr_writesOnly (engineEnv op a s core) op a (engineOf s core)
    exact ⟨rfl, hw.rest, hw.stores, hw.v, hw.m, hw.d⟩

/-- A row of a value instruction, with its result on a lane. -/
structure IsLaneRow (r : (Nat → VecArgs → Instr) × VecOp × (W32 → W32 → W32 → W32)) : Prop where
  run    : Runs r.1 r.2.1
  notSel : r.2.1 ≠ .sel
  instr  : ∀ env a c, vecInstr env r.2.1 a c = moveOn (c.pc + 1) (vecValue r.2.1 a c)
  result : ∀ x y z, (vecAlu r.2.1 x y z).1 = r.2.2 x y z

theorem laneRows_isLaneRow : ∀ r ∈ laneRows, IsLaneRow r := by
  simp only [laneRows, List.forall_mem_cons, List.not_mem_nil, false_implies, implies_true, and_true]
  and_intros
  all_goals exact ⟨fun _ _ _ => rfl, nofun, fun _ _ _ => rfl, fun _ _ _ => rfl⟩

theorem laneRows_lanesAre (env : VecEnv) (a : VecArgs) (c : VecCtx) : ∀ r ∈ laneRows, LanesAre (c.live &&& mReg c a.mask) a
    (fun j => r.2.2 (laneA a c j) (operandB a c j) (operandC a c j)) c (vecInstr env r.2.1 a c) := by
  intro r hr
  have hrow := laneRows_isLaneRow r hr
  rw [hrow.instr]
  simp only [← hrow.result]
  exact vecValue_lanesAre hrow.notSel a c

/-- A row of a compare, with its relation. -/
structure IsCmpRow (r : (Nat → VecArgs → Instr) × VecOp × (Machine.Num → Machine.Num → Bool)) : Prop where
  run      : Runs r.1 r.2.1
  notSel   : r.2.1 ≠ .sel
  bank     : bankOf r.2.1 = 2
  instr    : ∀ env a c, vecInstr env r.2.1 a c = moveOn (c.pc + 1) (vecCmp r.2.1 a c)
  relation : ∀ x y, vecCompare r.2.1 x y = r.2.2 (ofB32 x) (ofB32 y)

theorem cmpRows_isCmpRow : ∀ r ∈ cmpRows, IsCmpRow r := by
  simp only [cmpRows, List.forall_mem_cons, List.not_mem_nil, false_implies, implies_true, and_true]
  and_intros
  all_goals exact ⟨fun _ _ _ => rfl, nofun, rfl, fun _ _ _ => rfl, fun _ _ => rfl⟩

theorem cmpRows_lane (env : VecEnv) {a : VecArgs} (hd : a.vd ≠ 0) (c : VecCtx) : ∀ r ∈ cmpRows, ∀ j, j < 64 →
    (mReg (vecInstr env r.2.1 a c) a.vd).getLsbD j =
      ((c.live &&& mReg c a.mask).getLsbD j && r.2.2 (ofB32 (laneA a c j)) (ofB32 (operandB a c j))) := by
  intro r hr j hj
  have hrow := cmpRows_isCmpRow r hr
  rw [hrow.instr, mReg_moveOn, ← hrow.relation]
  exact vecCmp_lane hrow.notSel hd c hj

/-- A row of a mask operation. -/
structure IsMaskRow (r : (Nat → VecArgs → Instr) × VecOp × (Bool → Bool → Bool)) : Prop where
  run   : Runs r.1 r.2.1
  bank  : bankOf r.2.1 = 2
  instr : ∀ env a c, vecInstr env r.2.1 a c = moveOn (c.pc + 1) (vecMask r.2.1 a c)

theorem maskRows_isMaskRow : ∀ r ∈ maskRows, IsMaskRow r := by
  simp only [maskRows, List.forall_mem_cons, List.not_mem_nil, false_implies, implies_true, and_true]
  and_intros
  all_goals exact ⟨fun _ _ _ => rfl, rfl, fun _ _ _ => rfl⟩

theorem maskRows_lane (env : VecEnv) {a : VecArgs} (hd : a.vd ≠ 0) (c : VecCtx) : ∀ r ∈ maskRows, ∀ j, j < 64 →
    (mReg (vecInstr env r.2.1 a c) a.vd).getLsbD j =
      if (c.live &&& mReg c a.mask).getLsbD j then
        r.2.2 ((mReg c (a.va % 8)).getLsbD j) ((mReg c (a.vb % 8)).getLsbD j)
      else if c.live.getLsbD j && a.zero then false else (mReg c a.vd).getLsbD j := by
  intro r hr j hj
  rw [(maskRows_isMaskRow r hr).instr, mReg_moveOn]
  exact vecMask_lane hd c hj r hr

theorem reduceRows_result : ∀ r ∈ reduceRows, Runs r.1 r.2.1 ∧ ∀ env a c, LiveLanesAre a
    (toB32 (r.2.2 ((lanesOf (c.live &&& mReg c a.mask)).map fun j => ofB32 (laneA a c j)))) c (vecInstr env r.2.1 a c) := by
  simp only [reduceRows, List.forall_mem_cons]
  refine ⟨?redsum, ?redmax, ?redmin, nofun⟩
  all_goals exact ⟨fun _ _ _ => rfl, fun _ a c => toLive_liveLanesAre a _ c⟩

/-- Settles O50: the value instructions by their table, the others by the lanes they write. -/
theorem vectorLaneResults : Obligations.VectorLaneResults := by
  unfold Obligations.VectorLaneResults
  intro core a s c
  refine ⟨fun row op f hrow h => ?value, fun h => ⟨_, rfl, ?sel⟩, fun h => ⟨_, rfl, ?laneidx⟩, fun h => ⟨_, rfl, ?randu⟩,
    fun h => ⟨_, rfl, ?randb⟩, fun h => ⟨_, rfl, ?load⟩, fun h => ⟨_, rfl, ?expand⟩⟩
  case value =>
    refine ⟨_, (laneRows_isLaneRow _ hrow).run core a s, ?_⟩
    rw [vecStep_vec h]
    exact laneRows_lanesAre _ a c (row, op, f) hrow
  all_goals rw [vecStep_vec h]
  case randb =>
    simp only [← ofNat_div_eq_extractLsb']
    exact writeLanes_lanesAre rfl rfl _ _
  case load => exact vecLoad_lanesAre _ a c
  all_goals exact writeLanes_lanesAre rfl rfl _ _

theorem vecInstr_compress (env : VecEnv) (a : VecArgs) (c : VecCtx) :
    vecInstr env .compress a c = moveOn (c.pc + 1) (vecCompress a c) := rfl

theorem vecInstr_wacc (env : VecEnv) (a : VecArgs) (c : VecCtx) :
    vecInstr env .wacc a c = moveOn (c.pc + 1) (vecWacc a c) := rfl

/-- The cells that a STORE adds to the output of the task served: those of the elements it has just stored. -/
theorem storeWork_eq {s : State} {a : VecArgs} {c c' : VecCtx} {x : TaskInst × Segment × TaskRec × Bytes} {o : Operand}
    {es : List (Nat × W32)} (ho : (outsOf s x.2.1 x.2.2.1)[a.vb]? = some o)
    (hs : c'.stores = c.stores ++ es.map fun e => (a.vb, e)) :
    storeWork s a c c' x = storeElems a.vb o (es.map fun e => e.1) c' := by
  simp only [storeWork, ho, hs, List.drop_left, List.map_map, Function.comp_def]

theorem vStore_result {core : Nat} {a : VecArgs} {s : State} (h : Engaged .store core a s) :
    let c := engineOf s core
    let es := storedElems a c
    ∃ t, exec (.vStore core a) s = .next t ∧ (vecOf t core).stores = c.stores ++ es.map (fun e => (a.vb, e)) ∧
      ∀ x o, servedTask s c = some x → (outsOf s x.2.1 x.2.2.1)[a.vb]? = some o →
        ∃ u, findTask t x.1.step x.1.task = some u ∧
          u.cells = (storeElems a.vb o (es.map fun e => e.1) (vecOf t core)).cells ++ x.1.cells := by
  intro c es
  have hstores : (engineAfter .store core a s).stores = c.stores ++ es.map fun e => (a.vb, e) := vecStore_stores _ a c
  refine ⟨_, rfl, by rw [vecStep_vec h, hstores], fun x o hx ho => ?_⟩
  obtain ⟨u, hu, hcells⟩ := (vecStep_tasks h).served x hx
  rw [if_pos rfl, storeWork_eq ho hstores] at hcells
  exact ⟨u, hu, by rw [vecStep_vec h, hcells]⟩

/-- Settles O51: the compares, mask operations and reductions by their tables, the others by what they write. -/
theorem vectorMasksSumsAndStores : Obligations.VectorMasksSumsAndStores := by
  unfold Obligations.VectorMasksSumsAndStores
  intro core a s c act
  refine ⟨fun row op rel hrow h => ?compare, fun row op f hrow h => ?mask, fun h => ⟨_, rfl, ?compress⟩,
    fun row op f hrow h => ?reduce, fun h => ⟨_, rfl, ?wsum⟩, fun h => ⟨_, rfl, ?wacc⟩, fun h => vStore_result h,
    fun h => ⟨_, rfl, vecStep_vec h⟩⟩
  case compare =>
    have hcmp := cmpRows_isCmpRow _ hrow
    refine ⟨_, hcmp.run core a s, ?_⟩
    rw [vecStep_vec h, engineAfter]
    exact cmpRows_lane _ (vd_ne_zero_of_vecFits hcmp.bank h.fits) c (row, op, rel) hrow
  case mask =>
    have hmask := maskRows_isMaskRow _ hrow
    refine ⟨_, hmask.run core a s, ?_⟩
    rw [vecStep_vec h, engineAfter]
    exact maskRows_lane _ (vd_ne_zero_of_vecFits hmask.bank h.fits) c (row, op, f) hrow
  case reduce =>
    obtain ⟨hrun, hlanes⟩ := reduceRows_result _ hrow
    refine ⟨_, hrun core a s, ?_⟩
    rw [vecStep_vec h, engineAfter]
    exact hlanes _ a c
  all_goals rw [vecStep_vec h, engineAfter]
  case compress =>
    intro j hj
    rw [vecInstr_compress, vReg_moveOn, mReg_moveOn]
    exact vecCompress_lane a c hj
  case wsum => exact toLive_liveLanesAre a _ c
  case wacc =>
    intro j hj
    rw [vecInstr_wacc, dReg_moveOn]
    exact vecWacc_lane a c hj

end Sys2Proof.Proofs
end

section
/-!
PROOFS. The gleaner's adds: the operations of a publication that change no run, the run that loses a contribution, the block that is
sealed, and the contribution whose turn it is (06 R113 to R117).
-/
namespace Sys2Proof.Proofs

open Sys2Proof Sys2Proof.Machine Sys2Proof.Safety Sys2Proof.Laws

/-! ### Operations that change no task run -/

/-- From `s` to `u` the task runs are the same. -/
def SameRuns (s u : State) : Prop := u.sched.tasks = s.sched.tasks

theorem SameRuns.refl (s : State) : SameRuns s s := rfl

theorem SameRuns.trans {s t u : State} (a : SameRuns s t) (b : SameRuns t u) : SameRuns s u := Eq.trans b a

theorem SameRuns.ite {s t u : State} {c : Prop} [Decidable c] (a : SameRuns s t) (b : SameRuns s u) :
    SameRuns s (if c then t else u) := by
  split
  · exact a
  · exact b

theorem SameRuns.foldl {α : Type} {g : State → α → State} (hg : ∀ t x, SameRuns t (g t x)) (l : List α) (s : State) :
    SameRuns s (l.foldl g s) :=
  foldl_inv (p := SameRuns s) (fun u x h => h.trans (hg u x)) l (.refl s)

/-- A finding touches the votes alone. -/
theorem finding_eq (step bit : Nat) (s : State) : finding step bit s = { s with votes := (finding step bit s).votes } := by
  unfold finding
  split
  · rfl
  · split
    · rfl
    · split <;> rfl

theorem sameRuns_finding (step bit : Nat) (s : State) : SameRuns s (finding step bit s) := by
  unfold SameRuns; rw [finding_eq]

theorem sameRuns_findings (step : Nat) (w : W16) (s : State) : SameRuns s (findings step w s) :=
  .foldl (fun t b => .ite (sameRuns_finding step b t) (.refl t)) _ s

theorem sameRuns_trace (a b : Nat) (c : Bool) (d : Nat) (e : W32) (f : Nat) (s : State) :
    SameRuns s (trace a b c d e f s) := by
  unfold SameRuns; rw [trace_eq]

theorem sameRuns_writePoison (off len : Nat) (b : Bool) (s : State) : SameRuns s (writePoison off len b s) := .ite rfl rfl

theorem sameRuns_layOutput (t : TaskInst) (s : State) : SameRuns s (layOutput t s) := by
  have hpoison : SameRuns s (if t.staged then s else (writeRanges s t).foldl (fun s x => writePoison x.1 x.2 false s) s) := by
    split
    · exact .refl s
    · exact SameRuns.foldl (fun u (x : Nat × Nat) => sameRuns_writePoison x.1 x.2 false u) _ s
  unfold layOutput
  refine hpoison.trans ?_
  generalize (if t.staged then s else (writeRanges s t).foldl (fun s x => writePoison x.1 x.2 false s) s) = u
  exact .ite (.refl u) (.ite rfl (.ite rfl rfl))

theorem sameRuns_flipMove (page : Nat) (s : State) : SameRuns s (flipMove page s) := by
  refine .ite (SameRuns.trans ?_ (.ite rfl (.refl _))) (.refl s)
  refine SameRuns.trans ?_ (sameRuns_trace ..)
  exact .ite rfl rfl

theorem sameRuns_finishMove (page : Nat) (s : State) : SameRuns s (finishMove page s) := by
  have hseal : SameRuns s (sealMove page s) := .ite rfl (.refl s)
  have hfree : ∀ u, SameRuns u (freeSource page u) := fun u => .ite rfl (.refl u)
  exact .ite (hseal.trans ((sameRuns_flipMove page _).trans (hfree _))) (.refl s)

theorem sameRuns_flipFresh (step : Nat) (task : W32) (s : State) : SameRuns s (flipFresh step task s) := by
  have hflip : ∀ u (h : FreshFrame), SameRuns u
      (setPage h.page (flipTo h.far h.frame (pageOf (finishMove h.page u) h.page)) (finishMove h.page u)) :=
    fun u h => sameRuns_finishMove h.page u
  exact SameRuns.foldl hflip _ s

theorem sameRuns_offerCandidate (t : TaskInst) (s : State) : SameRuns s (offerCandidate t s) := by
  unfold offerCandidate
  split
  · rfl
  · exact .ite rfl (.refl s)

theorem sameRuns_sealBlock (g : Segment) (record step q : Nat) (t : StatRec) (s : State) :
    SameRuns s (sealBlock g record step q t s) := by
  refine .ite (.ite ?_ rfl) (.refl s)
  exact SameRuns.trans rfl (sameRuns_finding ..)

theorem sameRuns_sealSegment (seg step : Nat) (s : State) : SameRuns s (sealSegment seg step s) := by
  unfold sealSegment
  split
  · rfl
  · exact .foldl (fun u e => .ite (.foldl (fun v q => sameRuns_sealBlock ..) _ u) (.refl u)) _ s

/-! ### The run of a task after a publication -/

/-- A run as its publication leaves it. -/
def publishedRun (n status : Nat) (x : TaskInst) : TaskInst :=
  { x with phase := .published, cells := [], pubSeq := n, status := status }

/-- A publication marks the task's run as published, and changes no other run. -/
theorem publish_runs (t : TaskInst) (s : State) :
    ∃ n status, SameRuns (setTask t.step t.task (publishedRun n status) s) (publish t s) := by
  unfold publish
  dsimp only
  have hlaid := sameRuns_layOutput t s
  generalize layOutput t s = laid at *
  have hflipped : SameRuns laid (if t.seedbed && heldBySeedbed laid t.step then laid else
      flipFresh t.step t.task (dropJournal t.step t.task laid)) :=
    .ite (.refl laid) (SameRuns.trans rfl (sameRuns_flipFresh t.step t.task _))
  generalize (if t.seedbed && heldBySeedbed laid t.step then laid else
      flipFresh t.step t.task (dropJournal t.step t.task laid)) = flipped at *
  refine ⟨flipped.sched.pubs + 1, endStatus flipped t, ?_⟩
  refine SameRuns.trans ?_ (sameRuns_trace ..)
  refine SameRuns.trans ?_ (.ite (SameRuns.foldl (fun u (e : Nat × Segment) => sameRuns_sealSegment e.1 t.step u) _ _) (.refl _))
  refine SameRuns.trans (SameRuns.trans ?_ (sameRuns_offerCandidate t _)) (sameRuns_findings ..)
  exact congrArg (mapFirst _ _) (hlaid.trans hflipped)

theorem mapFirst_congr {α : Type} {p : α → Bool} {f g : α → α} (h : ∀ x, p x = true → f x = g x) (l : List α) :
    mapFirst p f l = mapFirst p g l := by
  induction l with
  | nil => rfl
  | cons y l ih =>
    rw [mapFirst, mapFirst, ih]
    split
    next hy => rw [h y hy]
    next => rfl

theorem findTask_of_sameRuns {s u : State} (h : SameRuns s u) (step : Nat) (task : W32) :
    findTask u step task = findTask s step task := by
  unfold findTask; rw [h]

/-- A run under the step and the task ID of another. -/
def withKeyOf (t x : TaskInst) : TaskInst := { t with step := x.step, task := x.task }

/-- The run of a task replaced by a given one. -/
theorem findTask_setTask_const {s v : State} {t t' : TaskInst} (hv : SameRuns s v) (ht : findTask s t.step t.task = some t)
    (hstep : t'.step = t.step) (htask : t'.task = t.task) :
    findTask (setTask t.step t.task (fun _ => t') v) t.step t.task = some t' := by
  have hkeyed : ∀ x : TaskInst, x.step = t.step → x.task = t.task → t' = withKeyOf t' x := by
    intro x hx hx'
    rw [withKeyOf, hx, hx', ← hstep, ← htask]
  have hsame : setTask t.step t.task (fun _ => t') v = setTask t.step t.task (withKeyOf t') v := by
    unfold setTask
    rw [mapFirst_congr fun x hx => ?_]
    obtain ⟨hx, hx'⟩ : x.step = t.step ∧ x.task = t.task := by
      simpa only [sameRun, Bool.and_eq_true, beq_iff_eq] using hx
    exact hkeyed x hx hx'
  rw [hsame, findTask_setTask (f := withKeyOf t') fun _ => ⟨rfl, rfl⟩, findTask_of_sameRuns hv, ht, Option.map_some,
    ← hkeyed t rfl rfl]

theorem othersStay_setTask {s v : State} (hv : SameRuns s v) (step : Nat) (task : W32) (f : TaskInst → TaskInst) :
    OthersStay step task s (setTask step task f v) := by
  intro x hx hne
  refine mem_mapFirst_of_not f (by rw [hv]; exact hx) (Bool.eq_false_iff.2 fun hsame => hne ?_)
  obtain ⟨hstep, htask⟩ : x.step = step ∧ x.task = task := by
    simpa only [sameRun, Bool.and_eq_true, beq_iff_eq] using hsame
  rw [hstep, htask]

/-! ### A run that loses a contribution -/

/-- A run without its contribution to a block. -/
def contributed (q : Nat) (t : TaskInst) : TaskInst :=
  { t with contributions := t.contributions.filter fun c => c.1 != q }

theorem tryPublish_guard (t : TaskInst) :
    (t.phase == .computed && t.done == t.tiles && t.contributions.isEmpty) = true ↔
      (t.phase = .computed ∧ t.done = t.tiles) ∧ t.contributions = [] := by
  simp only [Bool.and_eq_true, beq_iff_eq, List.isEmpty_iff]

theorem dropContribution_of_more {t : TaskInst} {q : Nat} (h : t.done ≠ t.tiles ∨ (contributed q t).contributions ≠ [])
    (s : State) : dropContribution t q s = setTask t.step t.task (fun _ => contributed q t) s := by
  refine if_neg fun hc => ?_
  obtain ⟨⟨-, hdone⟩, hleft⟩ := (tryPublish_guard (contributed q t)).1 hc
  exact h.elim (fun hmore => hmore hdone) (fun hmore => hmore hleft)

theorem dropContribution_of_last {t : TaskInst} {q : Nat} (hphase : t.phase = .computed) (hdone : t.done = t.tiles)
    (hleft : (contributed q t).contributions = []) (s : State) :
    dropContribution t q s = publish (contributed q t) (setTask t.step t.task (fun _ => contributed q t) s) :=
  if_pos ((tryPublish_guard (contributed q t)).2 ⟨⟨hphase, hdone⟩, hleft⟩)

/-- With its last contribution a task whose tiles are complete publishes. -/
theorem dropContribution_publishes {s v : State} {t t' : TaskInst} {q : Nat} (hv : SameRuns s v)
    (ht : findTask s t.step t.task = some t) (hstep : t'.step = t.step) (htask : t'.task = t.task)
    (hphase : t'.phase = .computed) (hdone : t'.done = t'.tiles) (hleft : (contributed q t').contributions = []) :
    ∃ x, findTask (dropContribution t' q v) t.step t.task = some x ∧ x.phase = .published ∧ x.contributions = [] := by
  obtain ⟨n, status, hruns⟩ := publish_runs (contributed q t') (setTask t'.step t'.task (fun _ => contributed q t') v)
  refine ⟨publishedRun n status (contributed q t'), ?_, rfl, hleft⟩
  have hset := findTask_setTask_const (t' := contributed q t') hv ht hstep htask
  have hkey : (contributed q t').step = t.step ∧ (contributed q t').task = t.task := ⟨hstep, htask⟩
  rw [dropContribution_of_last hphase hdone hleft, findTask_of_sameRuns hruns, hkey.1, hkey.2, hstep, htask,
    findTask_setTask (f := publishedRun n status) fun _ => ⟨rfl, rfl⟩, hset]
  rfl

/-! ### Sealing (R117) -/

theorem finding_of_open {n bit : Nat} {s : State} (h : s.votes.openStep = some n) (hbit : bit < 16) :
    (finding n bit s).votes.word.getLsbD bit = true := by
  have hword : (finding n bit s).votes.word = withBit s.votes.word bit := by
    unfold finding; rw [h]; simp only [if_true]
  rw [hword, withBit, BitVec.getLsbD_or, BitVec.getLsbD_twoPow, decide_eq_true hbit, decide_eq_true rfl, Bool.and_self,
    Bool.or_true]

section Sealed

variable {g : Segment} {record step q : Nat} {stat : StatRec} {u : State}

/-- A block whose contributions are all added, and that no task of pass B will write again. -/
structure Complete (g : Segment) (record step q : Nat) (stat : StatRec) (u : State) : Prop where
  pending : (statHeader u (.task step true) stat.pendingT q).state = 1
  ofStep  : (statHeader u (.task step true) stat.pendingT q).step = step
  all     : (statHeader u (.task step true) stat.pendingT q).count = (contributors g record q).length
  last    : laterWriter u stat step q = false

theorem sealBlock_of_complete (h : Complete g record step q stat u) :
    let bad := anyNonFinite (statElems u (.task step true) stat stat.pendingT q)
    let laid := layCells step 0 (u.run.seedbedOpen && decide (stepOf u.run.head < step))
      (statHeaderCells u stat stat.pendingT q
        { statHeader u (.task step true) stat.pendingT q with state := 2, nonfinite := bad }) u
    sealBlock g record step q stat u = if bad then finding step vbGrad laid else laid :=
  if_pos ⟨h.pending, h.ofStep, h.all, h.last⟩

theorem sealBlock_layers (h : Complete g record step q stat u) :
    (sealBlock g record step q stat u).mem.layers = addLayer ⟨.output step 0
      (u.run.seedbedOpen && decide (stepOf u.run.head < step)), statHeaderCells u stat stat.pendingT q
        { statHeader u (.task step true) stat.pendingT q with
          state := 2, nonfinite := anyNonFinite (statElems u (.task step true) stat stat.pendingT q) }⟩ u.mem.layers := by
  rw [sealBlock_of_complete h]
  split
  · rw [finding_eq]; rfl
  · rfl

theorem sealBlock_finds (h : Complete g record step q stat u)
    (hbad : anyNonFinite (statElems u (.task step true) stat stat.pendingT q) = true)
    (hopen : u.votes.openStep = some step) : (sealBlock g record step q stat u).votes.word.getLsbD vbGrad = true := by
  rw [sealBlock_of_complete h, if_pos hbad]
  exact finding_of_open hopen (by decide)

end Sealed

/-! ### A contribution at its pending block (R113 to R115) -/

/-- The run of a task with a contribution to block `q` of a statistic record. -/
structure Brings (s : State) (seg record q : Nat) (t : TaskInst) (g : Segment) (stat : StatRec) (r : TaskRec)
    (new : List W32) : Prop where
  run     : findTask s t.step t.task = some t
  segment : segmentOf s seg = some g
  stat    : g.stats[record]? = some stat
  next    : t.contributions.find? (fun c => c.1 == q) = some (q, new)
  record  : taskRecOf s t = some r

/-- The header of a pending block as a task of the step finds it. -/
def pendingHeader (s : State) (stat : StatRec) (step q : Nat) : StatHeader :=
  statHeader s (.task step true) stat.pendingT q

/-- The contributions that a pending block holds. -/
def addedCount (s : State) (stat : StatRec) (step q : Nat) : Nat :=
  if (pendingHeader s stat step q).state = 0 then 0 else (pendingHeader s stat step q).count

/-- The task is computed and of the record, and the pending block is free or of the task's step. -/
def Fits (s : State) (seg record q : Nat) (t : TaskInst) (stat : StatRec) (r : TaskRec) : Prop :=
  t.phase = .computed ∧ t.seg = seg ∧ r.record = record ∧
    ((pendingHeader s stat t.step q).state = 0 ∨ (pendingHeader s stat t.step q).step = t.step)

/-- The place of a task among the contributors of a block. -/
def turnOf (g : Segment) (record q : Nat) (t : TaskInst) : Nat := (contributors g record q).findIdx (· == t.index)

/-- The version of the pending block with a contribution added: its sums, and the count one higher. -/
def sumLayer (s : State) (stat : StatRec) (step q : Nat) (new : List W32) : Layer :=
  let n := stat.dim q
  let count := addedCount s stat step q
  let old := if count = 0 then List.replicate (n * n) 0 else statElems s (.task step true) stat stat.pendingT q
  ⟨.output step 0 (s.run.seedbedOpen && decide (stepOf s.run.head < step)),
    statElemCells s stat stat.pendingT q
      (List.zipWith (fun a b => toB32 (rnd32 ((ofB32 a).add (ofB32 b)))) old new) ++
    statHeaderCells s stat stat.pendingT q
      { pendingHeader s stat step q with count := count + 1, state := 1, step := step, nonfinite := false }⟩

/-- From `s` to `v` a layer has been added to memory, no byte beneath it and no run has changed; `t'` is the run `t` with the NaN
events and the counts of an add. -/
structure Laid (s v : State) (t t' : TaskInst) (l : Layer) : Prop where
  run    : t' = { t with event := t'.event, counts := t'.counts }
  tasks  : SameRuns s v
  layers : v.mem.layers = addLayer l s.mem.layers
  base   : v.mem.base = s.mem.base

theorem Laid.of_sameButCounts {s u v : State} {t t' : TaskInst} {l : Layer} (h : Laid s u t t' l) (hv : SameButCounts u v) :
    Laid s v t t' l := by
  rw [hv.eq]
  exact ⟨h.run, h.tasks, h.layers, h.base⟩

theorem gleanerSums_patterns (old new : List W32) :
    (gleanerSums old new).1 = List.zipWith (fun a b => toB32 (rnd32 ((ofB32 a).add (ofB32 b)))) old new :=
  List.map_zipWith

theorem touched_trans {s t u : State} (a : Touched s t) (b : Touched t u) : Touched s u := by
  obtain ⟨abase, alayers, apoison, arest⟩ := a
  obtain ⟨bbase, blayers, bpoison, brest⟩ := b
  refine ⟨bbase.trans abase, blayers.trans alayers, bpoison.trans apoison, ?_⟩
  calc _ = { ({ u with mem := t.mem, counters.values := t.counters.values } : State) with
      mem := s.mem, counters.values := s.counters.values } := rfl
    _ = s := by rw [brest]; exact arest

theorem touchCells_touched (cs : Cells) (s : State) : Touched s (touchCells cs s) :=
  foldl_inv (p := Touched s) (fun u _ hu => touched_trans hu (touch_frame true _ lineBytes u)) _ ⟨rfl, rfl, rfl, rfl⟩

theorem countOverflows_same (b : Bool) (slot n : Nat) (s : State) :
    SameButCounts s (if n = 0 then s else countWork b slot n s) := by
  split
  · exact .refl s
  · exact countWork_same b slot n s

theorem laid_layCells {s : State} {t t' : TaskInst} {step : Nat} {sb : Bool} {cells : Cells}
    (ht : t' = { t with event := t'.event, counts := t'.counts }) :
    Laid s (layCells step 0 sb cells (touchCells cells s)) t t' ⟨.output step 0 sb, cells⟩ := by
  obtain ⟨hbase, hlayers, -, hrest⟩ := touchCells_touched cells s
  have hruns := congrArg (fun x : State => x.sched.tasks) hrest
  exact ⟨ht, hruns, congrArg (addLayer _) hlayers, hbase⟩

section Turn

variable {s : State} {seg record q : Nat} {t : TaskInst} {g : Segment} {stat : StatRec} {r : TaskRec} {new : List W32}

theorem fits_guard : (t.phase != .computed || t.seg != seg || r.record != record ||
    ((pendingHeader s stat t.step q).state != 0 && (pendingHeader s stat t.step q).step != t.step)) = true ↔
      ¬ Fits s seg record q t stat r := by
  unfold Fits
  generalize pendingHeader s stat t.step q = h
  simp only [Bool.or_eq_true, Bool.and_eq_true, bne_iff_ne, ne_eq, Classical.not_and_iff_not_or_not, not_or, or_assoc]

/-- What the gleaner does with a contribution: nothing where it does not fit or before its turn; it is dropped where the block has
it; at its turn the sums are laid, the contribution is dropped, and the block is sealed if it is complete. -/
theorem gleanerAddOne_outcomes (h : Brings s seg record q t g stat r new) :
    let u := gleanerAddOne seg record q t.step t.task s
    let turn := turnOf g record q t
    let count := addedCount s stat t.step q
    ∃ v t', Laid s v t t' (sumLayer s stat t.step q new) ∧
      (¬ Fits s seg record q t stat r → u = s) ∧
      (Fits s seg record q t stat r → turn < count → u = dropContribution t q s) ∧
      (Fits s seg record q t stat r → count < turn → u = s) ∧
      (Fits s seg record q t stat r → turn = count →
        u = sealBlock g record t.step q stat (dropContribution t' q v)) := by
  have hmine (hf : Fits s seg record q t stat r) := fun hguard => fits_guard.1 hguard hf
  unfold gleanerAddOne
  rw [h.run, h.segment]
  dsimp only
  rw [h.stat, h.next, h.record]
  refine ⟨_, _, ?laid, fun hf => if_pos (fits_guard.2 hf), fun hf hlt => (if_neg (hmine hf)).trans (if_pos hlt),
    fun hf hlt => (if_neg (hmine hf)).trans ((if_neg (Nat.lt_asymm hlt)).trans (if_pos hlt)),
    fun hf heq => (if_neg (hmine hf)).trans ((if_neg (Nat.not_lt.2 (Nat.le_of_eq heq.symm))).trans
      (if_neg (Nat.not_lt.2 (Nat.le_of_eq heq))))⟩
  refine Laid.of_sameButCounts ?_ (foldl_same _ (fun u e => countNan_same _ _ e u) _ _)
  refine Laid.of_sameButCounts ?_ (countOverflows_same ..)
  rw [gleanerSums_patterns]
  exact laid_layCells rfl

end Turn

/-! ### The row -/

theorem exec_gleanerAdd (seg record q step : Nat) (task : W32) (s : State) :
    exec (.gleanerAdd seg record q step task) s = .next (advance (gleanerAddOne seg record q step task s)) := rfl

/-- Settles O45: by the place of the task among the contributors of the block, and by whether a contribution or a tile of it is
left. -/
theorem gleanerAdds : Obligations.GleanerAdds := by
  unfold Obligations.GleanerAdds
  intro s seg record q t g stat r new hrun hseg hstat hnext hrec h n index count old sums sb left ours more c
  have hb : Brings s seg record q t g stat r new := ⟨hrun, hseg, hstat, hnext, hrec⟩
  have hexec : exec c s = .next (advance (gleanerAddOne seg record q t.step t.task s)) := exec_gleanerAdd ..
  obtain ⟨v, t', hlaid, hother, hduplicate, hearly, hturn⟩ := gleanerAddOne_outcomes hb
  have hkey : t'.step = t.step ∧ t'.task = t.task := by rw [hlaid.run]; exact ⟨rfl, rfl⟩
  refine ⟨fun ho heq hmore => ?turn, fun ho hlt hmore => ?duplicate, fun ho hle hlast => ?last,
    fun ho hlt => by rw [hexec, hearly ho hlt], fun ho => by rw [hexec, hother ho]⟩
  case turn =>
    have hdrop : dropContribution t' q v = setTask t.step t.task (fun _ => contributed q t') v := by
      rw [dropContribution_of_more (by rw [hlaid.run]; exact hmore), hkey.1, hkey.2]
    refine ⟨setTask t.step t.task (fun _ => contributed q t') v, by rw [hexec, hturn ho heq, hdrop], hlaid.layers,
      hlaid.base, ⟨contributed q t', ?_, ?_, ?_⟩, othersStay_setTask hlaid.tasks _ _ _, ?_⟩
    · exact findTask_setTask_const hlaid.tasks hrun hkey.1 hkey.2
    · rw [hlaid.run]; rfl
    · rw [hlaid.run]; exact ho.1
    · intro reader h' bad hpending hof hall hlater
      have hcomplete : Complete g record t.step q stat _ := ⟨hpending, hof, hall, hlater⟩
      exact ⟨sealBlock_layers hcomplete, sealBlock_finds hcomplete⟩
  case duplicate =>
    refine ⟨setTask t.step t.task (fun _ => contributed q t) s, ?_, ?_, othersStay_setTask (.refl s) _ _ _, rfl⟩
    · rw [hexec, hduplicate ho hlt, dropContribution_of_more hmore]
    · exact findTask_setTask_const (.refl s) hrun rfl rfl
  case last =>
    obtain ⟨hdone, hleft⟩ : t.done = t.tiles ∧ left = [] := by
      simpa only [more, not_or, ne_eq, Classical.not_not] using hlast
    rcases Nat.lt_or_eq_of_le hle with hlt | heq
    · refine ⟨_, by rw [hexec, hduplicate ho hlt], ?_⟩
      exact dropContribution_publishes (.refl s) hrun rfl rfl ho.1 hdone hleft
    · refine ⟨_, by rw [hexec, hturn ho heq], ?_⟩
      rw [findTask_of_sameRuns (sameRuns_sealBlock ..)]
      refine dropContribution_publishes hlaid.tasks hrun hkey.1 hkey.2 ?_ ?_ ?_ <;> rw [hlaid.run]
      · exact ho.1
      · exact hdone
      · exact hleft

end Sys2Proof.Proofs
end

section
/-!
PROOFS. What the operations behind a solve can change: the workspace, counts and traces, a task run's accesses, and the publication
of the SOLVE tasks that have come to their end (07 R136 to R146, 12 R253).
-/
namespace Sys2Proof.Proofs

open Sys2Proof Sys2Proof.Machine Sys2Proof.Safety Sys2Proof.Laws

/-! ### Operations that only account for work -/

/-- From `s` to `t` the memory, the counters, the trap and the trace may have changed, and nothing else. -/
def Accounts (s t : State) : Prop :=
  t = { s with mem := t.mem, numerics := t.numerics, counters := t.counters, sheaf := t.sheaf }

theorem Accounts.refl (s : State) : Accounts s s := rfl

theorem Accounts.trans {s t u : State} (a : Accounts s t) (b : Accounts t u) : Accounts s u := by
  unfold Accounts at *; rw [b, a]

theorem Accounts.ite {s t u : State} {c : Prop} [Decidable c] (a : Accounts s t) (b : Accounts s u) :
    Accounts s (if c then t else u) := by
  split
  · exact a
  · exact b

theorem Accounts.foldl {α : Type} {g : State → α → State} (hg : ∀ t x, Accounts t (g t x)) (l : List α) (s : State) :
    Accounts s (l.foldl g s) :=
  foldl_inv (p := Accounts s) (fun u x h => h.trans (hg u x)) l (.refl s)

theorem Accounts.of_sameButCounts {s t : State} (h : SameButCounts s t) : Accounts s t := by
  unfold Accounts; rw [h.eq]

theorem Accounts.sameRuns {s t : State} (h : Accounts s t) : SameRuns s t := by
  unfold SameRuns; rw [h]

theorem Accounts.run {s t : State} (h : Accounts s t) : t.run = s.run := by rw [h]

theorem Accounts.harrows {s t : State} (h : Accounts s t) : t.harrows = s.harrows := by rw [h]

theorem accounts_trace (a b : Nat) (c : Bool) (d : Nat) (e : W32) (f : Nat) (s : State) :
    Accounts s (trace a b c d e f s) := by
  unfold Accounts; rw [trace_eq]

theorem accounts_mem (m : Memory) (s : State) : Accounts s { s with mem := m } := rfl

theorem accounts_setPage (p : Nat) (e : PageEntry) (s : State) : Accounts s (setPage p e s) := rfl

theorem accounts_ensureFrame (p : Nat) (s : State) : Accounts s (ensureFrame p s) := by
  obtain ⟨-, -, -, h⟩ := ensureFrame_frame p s
  have hmem : ensureFrame p s = { s with mem := (ensureFrame p s).mem } := by
    calc ensureFrame p s
      _ = { ({ ensureFrame p s with mem := s.mem } : State) with mem := (ensureFrame p s).mem } := rfl
      _ = _ := by rw [h]
  unfold Accounts; rw [hmem]

theorem accounts_touchAs (sb : Bool) (what : Access) (off len : Nat) (s : State) :
    Accounts s (touchAs sb what off len s) := by
  unfold touchAs
  refine .foldl (fun u p => ?_) _ s
  have hframe : Accounts u (if (what == .write) = true then ensureFrame p u else u) :=
    .ite (accounts_ensureFrame p u) (.refl u)
  exact hframe.trans rfl

theorem accounts_touchViews (sb : Bool) (t : TaskInst) (s : State) : Accounts s (touchViews sb t s) :=
  Accounts.foldl (g := fun u (x : Access × Nat × Nat) => touchAs sb x.1 x.2.1 x.2.2 u)
    (fun u x => accounts_touchAs sb x.1 x.2.1 x.2.2 u) _ s

theorem accounts_freshFrames {step : Nat} {task : W32} {ps : List Nat} {s v : State}
    (h : freshFrames step task ps s = some v) : Accounts s v := by
  induction ps generalizing s with
  | nil =>
    obtain rfl : s = v := Option.some.inj h
    exact .refl s
  | cons p ps ih =>
    rw [freshFrames] at h
    split at h
    · exact ih h
    · obtain ⟨f, -, h⟩ := Option.bind_eq_some_iff.1 h
      exact (accounts_mem _ s).trans (ih h)

theorem accounts_writePoison (off len : Nat) (b : Bool) (s : State) : Accounts s (writePoison off len b s) := .ite rfl rfl

theorem accounts_flipMove (page : Nat) (s : State) : Accounts s (flipMove page s) := by
  refine .ite (Accounts.trans ?_ (.ite rfl (.refl _))) (.refl s)
  refine Accounts.trans ?_ (accounts_trace ..)
  exact .ite rfl rfl

theorem accounts_finishMove (page : Nat) (s : State) : Accounts s (finishMove page s) := by
  have hseal : Accounts s (sealMove page s) := .ite rfl (.refl s)
  have hfree : ∀ u, Accounts u (freeSource page u) := fun u => .ite rfl (.refl u)
  exact .ite (hseal.trans ((accounts_flipMove page _).trans (hfree _))) (.refl s)

theorem accounts_flipFresh (step : Nat) (task : W32) (s : State) : Accounts s (flipFresh step task s) := by
  have hflip : ∀ u (h : FreshFrame), Accounts u
      (setPage h.page (flipTo h.far h.frame (pageOf (finishMove h.page u) h.page)) (finishMove h.page u)) :=
    fun u h => (accounts_finishMove h.page u).trans (accounts_setPage ..)
  exact (Accounts.foldl hflip _ s).trans rfl

theorem accounts_layOutput (t : TaskInst) (s : State) : Accounts s (layOutput t s) := by
  have hpoison : Accounts s (if t.staged then s else (writeRanges s t).foldl (fun s x => writePoison x.1 x.2 false s) s) :=
    .ite (.refl s) (Accounts.foldl (g := fun u (x : Nat × Nat) => writePoison x.1 x.2 false u)
      (fun u x => accounts_writePoison x.1 x.2 false u) _ s)
  unfold layOutput
  refine hpoison.trans ?_
  generalize (if t.staged then s else (writeRanges s t).foldl (fun s x => writePoison x.1 x.2 false s) s) = u
  exact .ite (.refl u) (.ite rfl (.ite rfl rfl))

theorem accounts_countHarrow (precise : Bool) (fmas divs : Nat) (s : State) : Accounts s (countHarrow precise fmas divs s) := by
  have hfmas : Accounts s (if fmas = 0 then s else countWork false (0x220 + b2n precise) fmas s) := .ite (.refl s) rfl
  exact hfmas.trans (.ite (.refl _) rfl)

theorem accounts_countSolveNans (b : BlockSolve) (es : List NanEvent) (s : State) : Accounts s (countSolveNans b es s) :=
  .of_sameButCounts (foldl_same _ (fun u e => countNan_same false _ e u) es s)

theorem accounts_traceSolve (type : Nat) (b : BlockSolve) (s : State) : Accounts s (traceSolve type b s) :=
  accounts_trace ..

theorem accounts_writeCells (cs : Cells) (s : State) : Accounts s (writeCells cs s) := rfl

theorem accounts_writeArea (k : SolveKey) (f : SolveForm) (s : State) : Accounts s (writeArea k f s) := by
  unfold writeArea
  split
  · exact .ite (accounts_writeCells _ s) (.refl s)
  · exact .refl s

/-! ### Publication -/

/-- From `s` to `t` what `Accounts` lists, the schedule and the votes may have changed, and nothing else. -/
def Publishes (s t : State) : Prop :=
  t = { s with
    mem := t.mem, numerics := t.numerics, counters := t.counters, sheaf := t.sheaf, sched := t.sched, votes := t.votes }

theorem Publishes.refl (s : State) : Publishes s s := rfl

theorem Publishes.trans {s t u : State} (a : Publishes s t) (b : Publishes t u) : Publishes s u := by
  unfold Publishes at *; rw [b, a]

theorem Publishes.ite {s t u : State} {c : Prop} [Decidable c] (a : Publishes s t) (b : Publishes s u) :
    Publishes s (if c then t else u) := by
  split
  · exact a
  · exact b

theorem Publishes.foldl {α : Type} {g : State → α → State} (hg : ∀ t x, Publishes t (g t x)) (l : List α) (s : State) :
    Publishes s (l.foldl g s) :=
  foldl_inv (p := Publishes s) (fun u x h => h.trans (hg u x)) l (.refl s)

theorem Accounts.publishes {s t : State} (h : Accounts s t) : Publishes s t := by
  unfold Publishes; rw [h]

theorem Publishes.run {s t : State} (h : Publishes s t) : t.run = s.run := by rw [h]

theorem Publishes.harrows {s t : State} (h : Publishes s t) : t.harrows = s.harrows := by rw [h]

theorem publishes_setTask (step : Nat) (task : W32) (f : TaskInst → TaskInst) (s : State) :
    Publishes s (setTask step task f s) := rfl

theorem publishes_finding (step bit : Nat) (s : State) : Publishes s (finding step bit s) := by
  unfold Publishes; rw [finding_eq]

theorem publishes_findings (step : Nat) (w : W16) (s : State) : Publishes s (findings step w s) :=
  .foldl (fun t b => .ite (publishes_finding step b t) (.refl t)) _ s

theorem publishes_offerCandidate (t : TaskInst) (s : State) : Publishes s (offerCandidate t s) := by
  unfold offerCandidate
  split
  · exact .refl s
  · exact .ite rfl (.refl s)

theorem publishes_sealBlock (g : Segment) (record step q : Nat) (t : StatRec) (s : State) :
    Publishes s (sealBlock g record step q t s) := by
  refine .ite (.ite ?_ rfl) (.refl s)
  exact (accounts_mem _ s).publishes.trans (publishes_finding ..)

theorem publishes_sealSegment (seg step : Nat) (s : State) : Publishes s (sealSegment seg step s) := by
  unfold sealSegment
  split
  · exact .refl s
  · exact .foldl (fun u e => .ite (.foldl (fun v q => publishes_sealBlock ..) _ u) (.refl u)) _ s

theorem publishes_publish (t : TaskInst) (s : State) : Publishes s (publish t s) := by
  unfold publish
  dsimp only
  have hlaid := (accounts_layOutput t s).publishes
  generalize layOutput t s = laid at *
  have hflipped : Publishes laid (if t.seedbed && heldBySeedbed laid t.step then laid else
      flipFresh t.step t.task (dropJournal t.step t.task laid)) :=
    .ite (.refl laid) ((accounts_mem _ laid).trans (accounts_flipFresh t.step t.task _)).publishes
  generalize (if t.seedbed && heldBySeedbed laid t.step then laid else
      flipFresh t.step t.task (dropJournal t.step t.task laid)) = flipped at *
  refine Publishes.trans ?_ (accounts_trace ..).publishes
  refine Publishes.trans ?_ (.ite (Publishes.foldl (fun u (e : Nat × Segment) => publishes_sealSegment e.1 t.step u) _ _)
    (.refl _))
  refine Publishes.trans (Publishes.trans ?_ (publishes_offerCandidate t _)) (publishes_findings ..)
  exact (hlaid.trans hflipped).trans rfl

theorem publishes_endSolve (t : TaskInst) (s : State) : Publishes s (endSolve t s) := by
  unfold endSolve
  split
  · exact .refl s
  · exact .ite (.refl s) ((publishes_setTask ..).trans (publishes_publish ..))

theorem publishes_endSolves (s : State) : Publishes s (endSolves s) :=
  .foldl (fun u t => publishes_endSolve t u) _ s

/-! ### The blocks of the harrows -/

theorem findBlock_of_harrows {s t : State} (h : t.harrows = s.harrows) (k : SolveKey) : findBlock t k = findBlock s k := by
  unfold findBlock; rw [h]

theorem key_of_findBlock {s : State} {k : SolveKey} {b : BlockSolve} (h : findBlock s k = some b) : b.key = k := by
  simpa using List.find?_some h

theorem find?_mapFirst_other {α : Type} {p q : α → Bool} {f : α → α} (hp : ∀ x, p x = true → q x = false)
    (hf : ∀ x, p x = true → q (f x) = false) (l : List α) : (mapFirst p f l).find? q = l.find? q := by
  induction l with
  | nil => rfl
  | cons y l ih =>
    rw [mapFirst]
    split
    next hy => simp [hp y hy, hf y hy]
    next => simp only [List.find?_cons, ih]

theorem findBlock_setBlock {k : SolveKey} {f : BlockSolve → BlockSolve} (hf : ∀ b, (f b).key = b.key) (s : State) :
    findBlock (setBlock k f s) k = (findBlock s k).map f :=
  find?_mapFirst (p := fun b : BlockSolve => b.key == k) (fun b => by rw [hf]) _

theorem otherBlocksStay_setBlock {k : SolveKey} {f : BlockSolve → BlockSolve} (hf : ∀ b, (f b).key = b.key) (s : State) :
    OtherBlocksStay k s (setBlock k f s) := by
  intro k' hk'
  have hother : ∀ b : BlockSolve, (b.key == k) = true → (b.key == k') = false := fun b hb => by
    rw [beq_iff_eq.1 hb]; exact beq_false_of_ne (Ne.symm hk')
  exact find?_mapFirst_other hother (fun b hb => by rw [hf]; exact hother b hb) _

theorem otherBlocksStay_of_harrows {k : SolveKey} {s t u : State} (h : OtherBlocksStay k s t) (e : u.harrows = t.harrows) :
    OtherBlocksStay k s u := fun k' hk' => (findBlock_of_harrows e k').trans (h k' hk')

/-- The block of `k` is `b`, and every other block is as in `s`. -/
structure BlockIs (k : SolveKey) (b : BlockSolve) (s t : State) : Prop where
  found  : findBlock t k = some b
  others : OtherBlocksStay k s t

theorem blockIs_setBlock {k : SolveKey} {f : BlockSolve → BlockSolve} {b : BlockSolve} {s : State}
    (hf : ∀ b, (f b).key = b.key) (hb : findBlock s k = some b) : BlockIs k (f b) s (setBlock k f s) :=
  ⟨by rw [findBlock_setBlock hf, hb]; rfl, otherBlocksStay_setBlock hf s⟩

theorem BlockIs.of_harrows {k : SolveKey} {b : BlockSolve} {s t u : State} (h : BlockIs k b s t)
    (e : u.harrows = t.harrows) : BlockIs k b s u :=
  ⟨(findBlock_of_harrows e k).trans h.found, otherBlocksStay_of_harrows h.others e⟩

theorem BlockIs.trans {k : SolveKey} {b c : BlockSolve} {s t u : State} (h : BlockIs k b s t) (h' : BlockIs k c t u) :
    BlockIs k c s u := ⟨h'.found, fun k' hk' => (h'.others k' hk').trans (h.others k' hk')⟩

end Sys2Proof.Proofs
end

section
/-!
PROOFS. The rows of the harrows: harrows assigned to a solve, its boundaries and its acceptance test (07 R133 to R139).
-/
namespace Sys2Proof.Proofs

open Sys2Proof Sys2Proof.Machine Sys2Proof.Safety Sys2Proof.Laws

section Solve

variable {k : SolveKey} {s : State} {b : BlockSolve} {f : SolveForm} {w : SolveWork}

/-! ### A boundary's result -/

/-- The block with a boundary's result put into it. -/
def boundApplied (f : SolveForm) (i : Nat) (x : Bound) (es : List NanEvent) (b : BlockSolve) : BlockSolve :=
  let prior := b.work.bind (·.event)
  let done := if x.whole then i else b.record.boundary
  let r := { b.record with
    boundary := done, iterations := if 2 ≤ f.root.algorithm then done else 0
    harrowCount := b.harrows.length, harrowFirst := b.harrows.foldl min (b.harrows.headD 0) }
  { b with
    work := some { x.work with
      event := if i = 0 then joinEvent prior (firstEvent es) else if prior.isSome then prior else firstEvent es
      ended := x.work.ended || x.status != 0 }
    record := if x.status = 0 then r else { r with status := x.status }
    harrows := if x.status = 0 then b.harrows else [] }

theorem passedBound_boundApplied (f : SolveForm) (i : Nat) (x : Bound) (es : List NanEvent) (b : BlockSolve) :
    PassedBound f i x b (boundApplied f i x es b) := by
  refine ⟨⟨_, rfl⟩, ?_, ?_, ?_, ?_, rfl, rfl, rfl⟩ <;> by_cases h : x.status = 0 <;> simp [boundApplied, h]

theorem boundApplied_harrowFirst (f : SolveForm) (i : Nat) (x : Bound) (es : List NanEvent) (b : BlockSolve) :
    (boundApplied f i x es b).record.harrowFirst = b.harrows.foldl min (b.harrows.headD 0) := by
  unfold boundApplied; dsimp only; split <;> rfl

/-- A boundary changes no block but its own, whatever SOLVE task ends with it. -/
theorem endSolves_applyBound (hb : findBlock s k = some b) (i : Nat) (x : Bound) (es : List NanEvent) :
    BlockIs k (boundApplied f i x es b) s (endSolves (applyBound k f i x es s)) := by
  have hput : BlockIs k (boundApplied f i x es b) s (setBlock k (boundApplied f i x es) s) :=
    blockIs_setBlock (fun _ => rfl) hb
  have harea := (accounts_countHarrow f.root.precision x.fmas x.divs (setBlock k (boundApplied f i x es) s)).trans
    (accounts_writeArea k f _)
  have hbound : Accounts (setBlock k (boundApplied f i x es) s) (applyBound k f i x es s) := by
    unfold applyBound
    dsimp only
    refine harea.trans ?_
    split
    · exact .refl _
    next c _ =>
      exact ((accounts_countSolveNans c es _).trans (accounts_traceSolve 0 c _)).trans
        (.ite (.refl _) (accounts_traceSolve 2 c _))
  exact hput.of_harrows ((publishes_endSolves _).harrows.trans hbound.harrows)

/-! ### Harrows assigned (R136) -/

/-- The lowest of the harrows assigned is one of them and no higher than any. -/
theorem foldl_min_headD {hs : List Nat} (h : hs ≠ []) :
    hs.foldl min (hs.headD 0) ∈ hs ∧ ∀ x ∈ hs, hs.foldl min (hs.headD 0) ≤ x := by
  have hmin : hs.min? = some (hs.foldl min (hs.headD 0)) := by
    cases hs with
    | nil => exact absurd rfl h
    | cons x xs => rw [List.min?_cons', List.headD_cons, List.foldl_cons, Nat.min_self]
  exact List.min?_eq_some_iff.1 hmin

/-- The assignment is within the limits: the run moves, the solve waits or runs, and its harrows are free. -/
def AssignFits (k : SolveKey) (hs : List Nat) (s : State) (b : BlockSolve) (f : SolveForm) : Prop :=
  s.moving = true ∧ (b.record.status = 1 ∨ b.record.status = 2) ∧ hs ≠ [] ∧
    hs.length ≤ harrowLimit f.root ∧ hs.eraseDups.length = hs.length ∧
    ∀ h ∈ hs, h < 256 ∧ harrowEnabled s h = true ∧ harrowTaken s h = false ∧
      ∀ x ∈ s.harrows.blocks, x.key ≠ k → solveInFlight x = true → h ∉ x.harrows

theorem harrowBusy_eq_false {h : Nat} : harrowBusy s k h = false ↔
    harrowTaken s h = false ∧ ∀ x ∈ s.harrows.blocks, x.key ≠ k → solveInFlight x = true → h ∉ x.harrows := by
  simp [harrowBusy]

/-- The block with the harrows assigned. -/
def served (hs : List Nat) (b : BlockSolve) : BlockSolve :=
  { b with
    harrows := hs
    record := { b.record with status := 2, harrowCount := hs.length, harrowFirst := hs.foldl min (hs.headD 0) } }

theorem assignHarrows_eq (hb : findBlock s k = some b) (hf : solveForm s k.seg k.record = some f) (hs : List Nat) :
    (AssignFits k hs s b f → assignHarrows k hs s = beginSolve k f (setBlock k (served hs) s)) ∧
    (¬ AssignFits k hs s b f → assignHarrows k hs s = s) := by
  have hguard : (s.moving && (!hs.isEmpty && decide (hs.length ≤ harrowLimit f.root) && hs.eraseDups.length == hs.length &&
      hs.all fun h => decide (h < 256) && harrowEnabled s h && !harrowBusy s k h) &&
      (b.record.status == 1 || b.record.status == 2)) = true ↔ AssignFits k hs s b f := by
    simp only [AssignFits, Bool.and_eq_true, Bool.or_eq_true, Bool.not_eq_true', beq_iff_eq, decide_eq_true_eq,
      List.all_eq_true, List.isEmpty_eq_false_iff, harrowBusy_eq_false,
      and_assoc]
    exact ⟨fun ⟨hmove, hne, hlen, hdup, hfree, hst⟩ => ⟨hmove, hst, hne, hlen, hdup, hfree⟩,
      fun ⟨hmove, hst, hne, hlen, hdup, hfree⟩ => ⟨hmove, hne, hlen, hdup, hfree, hst⟩⟩
  unfold assignHarrows
  rw [hb, hf]
  exact ⟨fun h => if_pos (hguard.2 h), fun h => if_neg (mt hguard.1 h)⟩

theorem assignHarrows_unknown (h : findBlock s k = none ∨ solveForm s k.seg k.record = none) (hs : List Nat) :
    assignHarrows k hs s = s := by
  unfold assignHarrows
  split
  next hb hf => simp [hb, hf] at h
  next => rfl

theorem beginSolve_of_begun (hb : findBlock s k = some b)
    (h : ∀ w, b.work = some w → w.begun = true ∨ w.ended = true) : beginSolve k f s = s := by
  unfold beginSolve
  rw [hb]
  dsimp only
  split
  next w hw => exact if_pos (by simpa using h w hw)
  next => rfl

theorem beginSolve_of_waiting (hb : findBlock s k = some b) (hw : b.work = some w) (hbegun : w.begun = false)
    (hended : w.ended = false) :
    ∃ es, beginSolve k f s = endSolves (applyBound k f 0 (boundary0 f w) es s) := by
  unfold beginSolve
  rw [hb]
  dsimp only
  rw [hw]
  exact ⟨_, if_neg (by simp [hbegun, hended])⟩

theorem exec_solveHarrowAssign (k : SolveKey) (hs : List Nat) (s : State) :
    exec (.solveHarrowAssign k hs) s = .next (assignHarrows k hs s) := rfl

/-! ### Boundaries (R133 to R135, R139) -/

/-- The solve runs on its harrows, and no precise apply has one of them. -/
def Serves (s : State) (b : BlockSolve) : Prop :=
  s.moving = true ∧ b.record.status = 2 ∧ b.harrows ≠ [] ∧ b.harrows.any (harrowTaken s) = false

/-- The guard of both rows, each with its own condition on the work. -/
theorem serves_guard (idle : Bool) : (!s.moving || b.record.status != 2 || idle || b.harrows.isEmpty ||
    b.harrows.any (harrowTaken s)) = false ↔ Serves s b ∧ idle = false := by
  simp only [Serves, Bool.or_eq_false_iff, Bool.not_eq_false', bne_eq_false_iff_eq, List.isEmpty_eq_false_iff,
    and_assoc]
  exact ⟨fun ⟨hmove, hst, hidle, hne, hfree⟩ => ⟨hmove, hst, hne, hfree, hidle⟩,
    fun ⟨hmove, hst, hne, hfree, hidle⟩ => ⟨hmove, hst, hidle, hne, hfree⟩⟩

theorem passBoundary_unknown (h : findBlock s k = none ∨ solveForm s k.seg k.record = none) : passBoundary k s = s := by
  unfold passBoundary
  split
  next hb hf => simp [hb, hf] at h
  next => rfl

theorem passBoundary_of_no_work (hb : findBlock s k = some b) (hf : solveForm s k.seg k.record = some f)
    (hw : b.work = none) : passBoundary k s = s := by
  unfold passBoundary
  rw [hb, hf]
  dsimp only
  rw [hw]

theorem passBoundary_eq (hb : findBlock s k = some b) (hf : solveForm s k.seg k.record = some f) (hw : b.work = some w) :
    (Serves s b ∧ w.ended = false ∧ w.begun = true → ∃ es, passBoundary k s = endSolves
      (applyBound k f (b.record.boundary + 1) (solveBoundary f (effTol s f.root) (b.record.boundary + 1) w) es s)) ∧
    (¬ (Serves s b ∧ w.ended = false ∧ w.begun = true) → passBoundary k s = s) := by
  have hguard : (!s.moving || b.record.status != 2 || w.ended || !w.begun || b.harrows.isEmpty ||
      b.harrows.any (harrowTaken s)) = false ↔ Serves s b ∧ w.ended = false ∧ w.begun = true := by
    rw [Bool.or_assoc (!s.moving || b.record.status != 2), serves_guard, Bool.or_eq_false_iff, Bool.not_eq_false']
  unfold passBoundary
  rw [hb, hf]
  dsimp only
  rw [hw]
  exact ⟨fun h => ⟨_, if_neg (Bool.eq_false_iff.1 (hguard.2 h))⟩,
    fun h => if_pos (eq_true_of_ne_false (mt hguard.1 h))⟩

theorem exec_solveBoundary (k : SolveKey) (s : State) :
    exec (.solveBoundary k) s = .next (advance (passBoundary k s)) := rfl

/-! ### The acceptance test (R138) -/

/-- The root is accepted: its residual is within the tolerance, and nothing is non-finite. -/
def accepted (s : State) (f : SolveForm) (w : SolveWork) : Bool :=
  (acceptance f w).1.le (effTol s f.root) && !(acceptance f w).2.2

/-- The candidate that an accepted root becomes. -/
def candidateOf (f : SolveForm) (w : SolveWork) (iterations : Nat) : Candidate :=
  { statStep := w.foldStep, residual := toB64 (acceptance f w).1, state := 1, iterations := iterations
    block := rootBlockBytes f.tensor.format f.rootWidth w.x }

/-- The block after the acceptance test of its work, run on harrows of which `unit` is the first. -/
def tested (s : State) (f : SolveForm) (w : SolveWork) (iterations unit : Nat) (b : BlockSolve) : BlockSolve :=
  { b with
    harrows := []
    candidate := if accepted s f w then some (candidateOf f w iterations) else b.candidate
    work := some { w with
      event := if w.event.isSome then w.event else firstEvent (solveEvents unit 0xFFFFFFFF (acceptance f w).2.1) }
    record := { b.record with
      status := if (acceptance f w).2.2 then rejectedNonfinite else if accepted s f w then 4 else rejectedResidual
      residual := toB64 (acceptance f w).1 } }

theorem acceptSolve_unknown (h : findBlock s k = none ∨ solveForm s k.seg k.record = none) : acceptSolve k s = s := by
  unfold acceptSolve
  split
  next hb hf => simp [hb, hf] at h
  next => rfl

theorem acceptSolve_of_no_work (hb : findBlock s k = some b) (hf : solveForm s k.seg k.record = some f)
    (hw : b.work = none) : acceptSolve k s = s := by
  unfold acceptSolve
  rw [hb, hf]
  dsimp only
  rw [hw]

theorem acceptSolve_of_idle (hb : findBlock s k = some b) (hf : solveForm s k.seg k.record = some f) (hw : b.work = some w)
    (h : ¬ (Serves s b ∧ w.ended = true)) : acceptSolve k s = s := by
  unfold acceptSolve
  rw [hb, hf]
  dsimp only
  rw [hw]
  refine if_pos (eq_true_of_ne_false fun hguard => h ?_)
  obtain ⟨hserves, hended⟩ := (serves_guard (!w.ended)).1 hguard
  exact ⟨hserves, by simpa using hended⟩

theorem acceptSolve_of_ended (hb : findBlock s k = some b) (hf : solveForm s k.seg k.record = some f) (hw : b.work = some w)
    (h : Serves s b) (hended : w.ended = true) :
    BlockIs k (tested s f w b.record.iterations (b.harrows.headD 0) b) s (acceptSolve k s) := by
  have hguard := (serves_guard (s := s) (b := b) (!w.ended)).2 ⟨h, by simp [hended]⟩
  unfold acceptSolve
  rw [hb, hf]
  dsimp only
  rw [hw]
  dsimp only
  rw [if_neg (Bool.eq_false_iff.1 hguard)]
  refine (blockIs_setBlock (f := tested s f w b.record.iterations (b.harrows.headD 0)) (fun _ => rfl) hb).of_harrows ?_
  exact (publishes_endSolves _).harrows.trans ((accounts_traceSolve _ b _).harrows.trans
    ((accounts_countSolveNans b _ _).harrows.trans ((accounts_writeArea k f _).harrows.trans
      ((accounts_countHarrow _ _ _ _).harrows.trans rfl))))

theorem exec_solveAcceptance (k : SolveKey) (s : State) :
    exec (.solveAcceptance k) s = .next (advance (acceptSolve k s)) := rfl

end Solve

/-- Settles O57: by whether the assignment fits, and then by whether the solve has begun. -/
theorem harrowsServeSolves : Obligations.HarrowsServeSolves := by
  unfold Obligations.HarrowsServeSolves
  intro k hs s
  refine ⟨fun h => by rw [exec_solveHarrowAssign, assignHarrows_unknown h], fun b f hb hf => ?_⟩
  obtain ⟨hfits, hnot⟩ := assignHarrows_eq hb hf hs
  refine ⟨fun h => by rw [exec_solveHarrowAssign, hnot h], fun h => ?_⟩
  obtain ⟨-, -, hne, -⟩ := id h
  obtain ⟨hmem, hle⟩ := foldl_min_headD hne
  have hput : BlockIs k (served hs b) s (setBlock k (served hs) s) := blockIs_setBlock (fun _ => rfl) hb
  refine ⟨_, hmem, hle, fun hbegun => ?begun, fun w hw hwaits hruns => ?waiting⟩ <;>
    rw [exec_solveHarrowAssign, hfits h]
  case begun =>
    rw [beginSolve_of_begun hput.found hbegun]
    exact ⟨_, rfl, hput.found, hput.others, rfl⟩
  case waiting =>
    obtain ⟨es, hstart⟩ := beginSolve_of_waiting (f := f) hput.found hw hwaits hruns
    have hpassed := hput.trans (endSolves_applyBound (f := f) hput.found 0 (boundary0 f w) es)
    rw [hstart]
    exact ⟨_, _, rfl, hpassed.found, passedBound_boundApplied .., boundApplied_harrowFirst .., hpassed.others⟩

/-- Settles O58: by whether the solve runs on its harrows, and then by whether its algorithm has begun and ended. -/
theorem solveBoundariesAndAcceptance : Obligations.SolveBoundariesAndAcceptance := by
  unfold Obligations.SolveBoundariesAndAcceptance
  intro k s
  rw [exec_solveBoundary, exec_solveAcceptance]
  refine ⟨fun h => by rw [passBoundary_unknown h, acceptSolve_unknown h]; exact ⟨rfl, rfl⟩, fun b f hb hf => ?_⟩
  refine ⟨fun h => ?idle, fun w hserves hw => ?runs⟩
  case idle =>
    cases hw : b.work with
    | none => rw [passBoundary_of_no_work hb hf hw, acceptSolve_of_no_work hb hf hw]; exact ⟨rfl, rfl⟩
    | some w =>
      have hidle : ¬ Serves s b := h.resolve_right (by simp [hw])
      rw [(passBoundary_eq hb hf hw).2 fun hs => hidle hs.1, acceptSolve_of_idle hb hf hw fun hs => hidle hs.1]
      exact ⟨rfl, rfl⟩
  case runs =>
    obtain ⟨hpass, hstay⟩ := passBoundary_eq hb hf hw
    refine ⟨fun h => ?waits, fun h => ?goes, fun hended hbegun => ?boundary, fun hended => ?test⟩
    case waits =>
      rw [hstay]
      rintro ⟨-, hended, hbegun⟩
      simp [hended, hbegun] at h
    case goes => rw [acceptSolve_of_idle hb hf hw]; simp [h]
    case boundary =>
      obtain ⟨es, hes⟩ := hpass ⟨hserves, hended, hbegun⟩
      obtain ⟨hfound, hothers⟩ := endSolves_applyBound (f := f) hb (b.record.boundary + 1)
        (solveBoundary f (effTol s f.root) (b.record.boundary + 1) w) es
      exact ⟨_, _, by rw [hes], hfound, passedBound_boundApplied .., hothers⟩
    case test =>
      obtain ⟨hfound, hothers⟩ := acceptSolve_of_ended hb hf hw hserves hended
      refine ⟨_, _, rfl, hfound, rfl, rfl, rfl, rfl, fun hbad => ?_, fun hbad hrho => ?_, fun hbad hrho => ?_, hothers⟩ <;>
        simp [tested, accepted, candidateOf, *]

end Sys2Proof.Proofs
end

section
/-!
PROOFS. The decision taken for a block at a deadline: the notices it gives, what it records, and the table of decisions (07 R140 to
R142, 16 R355).
-/
namespace Sys2Proof.Proofs

open Sys2Proof Sys2Proof.Machine Sys2Proof.Safety Sys2Proof.Laws

/-! ### Events that wait or are sent -/

/-- An event raised in `t` is given the origin, the position and the time that one raised in `s` would be given. -/
structure SameTeller (s t : State) : Prop where
  holding : t.holding = s.holding
  run     : t.run = s.run
  clock   : t.clock = s.clock
  enable  : t.host.ctx.eventEnable = s.host.ctx.eventEnable

/-- Events that wait in `s` wait in `t`, and hedge messages sent stay sent. -/
structure KeepsNotices (s t : State) : Prop where
  waiting : s.host.evWaiting ⊆ t.host.evWaiting
  sent    : s.out.hedge ⊆ t.out.hedge

theorem SameTeller.refl (s : State) : SameTeller s s := ⟨rfl, rfl, rfl, rfl⟩

theorem SameTeller.trans {s t u : State} (a : SameTeller s t) (b : SameTeller t u) : SameTeller s u :=
  ⟨b.holding.trans a.holding, b.run.trans a.run, b.clock.trans a.clock, b.enable.trans a.enable⟩

theorem Accounts.sameTeller {s t : State} (h : Accounts s t) : SameTeller s t := by
  rw [h]; exact ⟨rfl, rfl, rfl, rfl⟩

theorem KeepsNotices.refl (s : State) : KeepsNotices s s := ⟨List.Subset.refl _, List.Subset.refl _⟩

theorem KeepsNotices.trans {s t u : State} (a : KeepsNotices s t) (b : KeepsNotices t u) : KeepsNotices s u :=
  ⟨List.Subset.trans a.waiting b.waiting, List.Subset.trans a.sent b.sent⟩

theorem Publishes.keepsNotices {s t : State} (h : Publishes s t) : KeepsNotices s t := by
  rw [h]; exact ⟨List.Subset.refl _, List.Subset.refl _⟩

theorem announces_of_sameTeller {s u t : State} (h : SameTeller s u) {c d : Nat} (ha : Announces u t c d) :
    Announces s t c d := by
  unfold Announces State.assigned at *
  rwa [h.holding, h.run, h.clock, h.enable] at ha

theorem announces_of_keepsNotices {s t v : State} (h : KeepsNotices t v) {c d : Nat} (ha : Announces s t c d) :
    Announces s v c d :=
  ⟨fun hm he => h.waiting (ha.1 hm he), fun hm hs => h.sent (ha.2 hm hs)⟩

theorem eventSignal_host (s : State) : (eventSignal s).host.evWaiting = s.host.evWaiting ∧
    (eventSignal s).host.ctx = s.host.ctx := by
  unfold eventSignal signal
  split
  · split
    · exact ⟨rfl, rfl⟩
    · split <;> exact ⟨rfl, rfl⟩
  · exact ⟨rfl, rfl⟩

theorem postEvent_host (c : Nat) (m : ModId) (p : Pos) (ts d : W64) (s : State) :
    s.host.evWaiting ⊆ (postEvent c m p ts d s).host.evWaiting ∧
      (postEvent c m p ts d s).host.ctx.eventEnable = s.host.ctx.eventEnable := by
  unfold postEvent
  dsimp only
  split
  · exact ⟨List.subset_append_left _ _, rfl⟩
  · split
    · exact ⟨List.Subset.refl _, rfl⟩
    · rw [(eventSignal_host _).1, (eventSignal_host _).2, hostWrite_eq]
      exact ⟨List.Subset.refl _, rfl⟩

theorem deliverEvent_host (c : Nat) (p : Pos) (d : W64) (s : State) :
    s.host.evWaiting ⊆ (deliverEvent c p d s).host.evWaiting ∧
      (deliverEvent c p d s).host.ctx.eventEnable = s.host.ctx.eventEnable := by
  unfold deliverEvent
  dsimp only
  split
  · exact postEvent_host ..
  · split
    · rw [sendHedge_eq]; exact ⟨List.Subset.refl _, rfl⟩
    · exact ⟨List.subset_append_left _ _, rfl⟩

theorem raise_host (c d : Nat) (s : State) : s.host.evWaiting ⊆ (raise c d s).host.evWaiting ∧
    (raise c d s).host.ctx.eventEnable = s.host.ctx.eventEnable := by
  obtain ⟨h, e⟩ := raiseAt_delivers false c s.run.head d s
  unfold raise; rw [e]
  exact deliverEvent_host c _ _ { s with sheaf := h }

theorem sameTeller_raise (c d : Nat) (s : State) : SameTeller s (raise c d s) := by
  have hframe := raise_eq c d s
  refine ⟨?_, ?_, ?_, (raise_host c d s).2⟩ <;> rw [hframe]

theorem keepsNotices_raise (c d : Nat) (s : State) : KeepsNotices s (raise c d s) :=
  ⟨(raise_host c d s).1, sent_raise c d s⟩

theorem raise_harrows (c d : Nat) (s : State) : (raise c d s).harrows = s.harrows := by rw [raise_eq]

/-- An event raised where the condition holds. -/
def raiseIf (c : Bool) (code detail : Nat) (s : State) : State := if c then raise code detail s else s

theorem sameTeller_raiseIf (c : Bool) (code detail : Nat) (s : State) : SameTeller s (raiseIf c code detail s) := by
  unfold raiseIf; split
  · exact sameTeller_raise ..
  · exact .refl s

theorem keepsNotices_raiseIf (c : Bool) (code detail : Nat) (s : State) : KeepsNotices s (raiseIf c code detail s) := by
  unfold raiseIf; split
  · exact keepsNotices_raise ..
  · exact .refl s

theorem raiseIf_harrows (c : Bool) (code detail : Nat) (s : State) : (raiseIf c code detail s).harrows = s.harrows := by
  unfold raiseIf; split
  · exact raise_harrows ..
  · rfl

theorem raiseIf_announces {c : Bool} (h : c = true) (code detail : Nat) (s : State) :
    Announces s (raiseIf c code detail s) code detail := by
  unfold raiseIf; rw [if_pos h]; exact raise_announces ..

/-! ### The block with a decision recorded -/

/-- The decision brings the root of the block to its age limit, and this has not been told. -/
def reachesLimit (s : State) (f : SolveForm) (x : Decision × Bool) (b : BlockSolve) : Bool :=
  x.1.outcome == 2 && x.2 && decide (effMaxAge s f.root ≤ x.1.age) && !b.ageRaised

/-- The block once the decision is recorded. -/
def decided (now : Nat) (f : SolveForm) (x : Decision × Bool) (limit : Bool) (b : BlockSolve) : BlockSolve :=
  let b := recordDecision now f x.1 x.2 b
  if limit then { b with ageRaised := true } else b

/-- A decision as it is kept, with what it abandons. -/
def keptDecision (f : SolveForm) (x : Decision × Bool) (b : BlockSolve) : Decision :=
  if x.2 && deadlineReached f b x.1.step && solveInFlight b && !f.root.carry then
    { x.1 with abandoned := true, beforeWork := b.work, beforeHarrows := b.harrows }
  else x.1

/-- The block `b'` has the decision `d` recorded, where it was `b`. -/
def Recorded (b b' : BlockSolve) (d : Decision) : Prop :=
  b'.decisions = [d] ∧ b'.record.outcome = d.outcome ∧ b'.record.fallback = d.fallback ∧ b'.record.age = d.age ∧
    b'.record.lag = d.lag ∧ b'.record.carried = d.carried ∧
    b'.candidate = (if d.selected.isSome then none else b.candidate)

/-- The decision `d` says what `x` says, whatever it has abandoned. -/
structure SameDecision (x d : Decision) : Prop where
  step      : d.step = x.step
  outcome   : d.outcome = x.outcome
  carried   : d.carried = x.carried
  fallback  : d.fallback = x.fallback
  age       : d.age = x.age
  lag       : d.lag = x.lag
  diagonal  : d.diagonal = x.diagonal
  selected  : d.selected = x.selected
  before    : d.before = x.before
  candidate : d.beforeCandidate = x.beforeCandidate

theorem sameDecision_keptDecision (f : SolveForm) (x : Decision × Bool) (b : BlockSolve) :
    SameDecision x.1 (keptDecision f x b) := by
  unfold keptDecision
  split <;> exact ⟨rfl, rfl, rfl, rfl, rfl, rfl, rfl, rfl, rfl, rfl⟩

theorem decided_recorded (now : Nat) (f : SolveForm) (x : Decision × Bool) (limit : Bool) (b : BlockSolve) :
    Recorded b (decided now f x limit b) (keptDecision f x b) := by
  obtain ⟨-, hout, hcarried, hfall, hage, hlag, -, hsel, -, -⟩ := sameDecision_keptDecision f x b
  unfold Recorded
  rw [hout, hcarried, hfall, hage, hlag, hsel]
  unfold decided
  split <;> exact ⟨rfl, rfl, rfl, rfl, rfl, rfl, rfl⟩

theorem decided_timestamp {now : Nat} {f : SolveForm} {x : Decision × Bool} (h : x.2 = false) (limit : Bool) (b : BlockSolve) :
    (decided now f x limit b).record.timestamp = b.record.timestamp := by
  obtain ⟨d, taken⟩ := x
  obtain rfl : taken = false := h
  cases limit <;> rfl

/-- A late solve without CARRY is abandoned, and its harrows are free (R141). -/
theorem decided_abandons {now : Nat} {f : SolveForm} {x : Decision × Bool} {limit : Bool} {b : BlockSolve}
    (htaken : x.2 = true) (hdue : deadlineReached f b x.1.step = true) (hflight : solveInFlight b = true)
    (hcarry : f.root.carry = false) :
    (decided now f x limit b).record.status = 8 ∧ (decided now f x limit b).harrows = [] := by
  unfold decided recordDecision
  simp only [htaken, hdue, hflight, hcarry, Bool.not_false, Bool.and_self, if_true]
  split <;> exact ⟨rfl, rfl⟩

/-! ### The decision taken -/

section Decide

variable {k : SolveKey} {s : State} {b : BlockSolve} {f : SolveForm}

/-- The state with a decision recorded and told. -/
def recordRoot (k : SolveKey) (f : SolveForm) (b : BlockSolve) (x : Decision × Bool) (s : State) : State :=
  let limit := reachesLimit s f x b
  let t := setBlock k (decided s.clock.now f x limit) s
  let t := if x.2 then count (0x318 + x.1.outcome) 1 t else t
  endSolves (raiseIf limit evRootAgeLimit (rootDetail k x.1.age)
    (raiseIf (x.2 && x.1.outcome == 2) evRootReused (rootDetail k x.1.age) (traceSolve 3 b t)))

/-- The head has reached the place of the block's decision, which is not yet taken in the step. -/
def DecidesHere (s : State) (b : BlockSolve) (f : SolveForm) : Prop :=
  s.run.isOn = true ∧ s.votes.openStep = some (stepOf s.run.head) ∧
    (posOf (stepOf s.run.head) passU f.stat.layer).toNat ≤ s.run.head.toNat ∧
    ∀ d ∈ b.decisions, d.step ≠ stepOf s.run.head

/-- A solve of the block is still to be issued at an earlier fold. -/
def issuing (s : State) (k : SolveKey) : Bool :=
  issuesWaiting s (stepOf s.run.head) fun t r => t.seg == k.seg && r.record == k.record && decide (r.blockFirst ≤ k.block) &&
    decide (k.block < r.blockFirst + r.blockCount)

/-- The decision that the replay log or the table gives. -/
def rootDecision (s : State) (f : SolveForm) (b : BlockSolve) : Decision × Bool :=
  match loggedDecision s b (stepOf s.run.head) with
  | some d => (d, d.selected.isSome || deadlineReached f b (stepOf s.run.head))
  | none => decideRoot s f b (stepOf s.run.head)

theorem decidesHere_guard : (!s.run.isOn || s.votes.openStep != some (stepOf s.run.head) ||
    decide (s.run.head.toNat < (posOf (stepOf s.run.head) passU f.stat.layer).toNat) ||
    (b.decisions.any fun d => d.step == stepOf s.run.head)) = false ↔ DecidesHere s b f := by
  simp only [DecidesHere, Bool.or_eq_false_iff, Bool.not_eq_false', bne_eq_false_iff_eq, decide_eq_false_iff_not, Nat.not_lt,
    List.any_eq_false, beq_iff_eq, ne_eq, and_assoc]

theorem decideDeadline_unknown (h : findBlock s k = none ∨ solveForm s k.seg k.record = none) : decideDeadline k s = s := by
  unfold decideDeadline
  split
  next hb hf => simp [hb, hf] at h
  next => rfl

theorem decideDeadline_eq (hb : findBlock s k = some b) (hf : solveForm s k.seg k.record = some f) :
    (¬ DecidesHere s b f → decideDeadline k s = s) ∧
    (DecidesHere s b f → (issuing s k || (loggedDecision s b (stepOf s.run.head)).isNone &&
      strictWaits f b (stepOf s.run.head)) = true → decideDeadline k s = s) ∧
    (DecidesHere s b f → (issuing s k || (loggedDecision s b (stepOf s.run.head)).isNone &&
      strictWaits f b (stepOf s.run.head)) = false → decideDeadline k s = recordRoot k f b (rootDecision s f b) s) := by
  have hguard := decidesHere_guard (s := s) (b := b) (f := f)
  unfold decideDeadline
  rw [hb, hf]
  refine ⟨fun h => if_pos (eq_true_of_ne_false (mt hguard.1 h)), fun h hwait => ?_, fun h hwait => ?_⟩ <;>
    refine (if_neg (Bool.eq_false_iff.1 (hguard.2 h))).trans ?_
  · exact if_pos hwait
  · exact if_neg (Bool.eq_false_iff.1 hwait)

theorem recordRoot_block (hb : findBlock s k = some b) (x : Decision × Bool) :
    BlockIs k (decided s.clock.now f x (reachesLimit s f x b) b) s (recordRoot k f b x s) := by
  refine (blockIs_setBlock (f := decided s.clock.now f x (reachesLimit s f x b)) (fun b => ?_) hb).of_harrows ?_
  · unfold decided; split <;> rfl
  · unfold recordRoot
    rw [(publishes_endSolves _).harrows, raiseIf_harrows, raiseIf_harrows, (accounts_traceSolve ..).harrows]
    split <;> rfl

/-- The state in which the events of a decision are raised. -/
theorem recordRoot_teller (x : Decision × Bool) : ∃ u, SameTeller s u ∧
    recordRoot k f b x s = endSolves (raiseIf (reachesLimit s f x b) evRootAgeLimit (rootDetail k x.1.age)
      (raiseIf (x.2 && x.1.outcome == 2) evRootReused (rootDetail k x.1.age) u)) := by
  refine ⟨_, SameTeller.trans ?_ (accounts_traceSolve ..).sameTeller, rfl⟩
  split <;> exact ⟨rfl, rfl, rfl, rfl⟩

theorem recordRoot_announces_reuse {x : Decision × Bool} (h : (x.2 && x.1.outcome == 2) = true) :
    Announces s (recordRoot k f b x s) evRootReused (rootDetail k x.1.age) := by
  obtain ⟨u, hu, e⟩ := recordRoot_teller (k := k) (s := s) (b := b) (f := f) x
  rw [e]
  exact announces_of_sameTeller hu (announces_of_keepsNotices
    ((keepsNotices_raiseIf ..).trans (publishes_endSolves _).keepsNotices) (raiseIf_announces h ..))

theorem recordRoot_announces_limit {x : Decision × Bool} (h : reachesLimit s f x b = true) :
    Announces s (recordRoot k f b x s) evRootAgeLimit (rootDetail k x.1.age) := by
  obtain ⟨u, hu, e⟩ := recordRoot_teller (k := k) (s := s) (b := b) (f := f) x
  rw [e]
  exact announces_of_sameTeller (hu.trans (sameTeller_raiseIf ..)) (announces_of_keepsNotices
    (publishes_endSolves _).keepsNotices (raiseIf_announces h ..))

/-! ### The table of decisions (R140) -/

theorem satTo_eq_min (m x : Nat) : satTo m x = min m x := by
  unfold satTo; split <;> omega

/-- What every row of the table starts from: the record as it is. -/
def tableBase (b : BlockSolve) (m : Nat) : Decision :=
  { step := m, outcome := b.record.outcome, carried := b.record.carried, fallback := b.record.fallback, age := b.record.age
    lag := b.record.lag, diagonal := false, selected := none, before := b.record, beforeCandidate := b.candidate
    beforeRaised := b.ageRaised }

theorem decideRoot_of_candidate {c : Candidate} (hc : b.candidate = some c) (m : Nat) :
    decideRoot s f b m = ({ tableBase b m with
      outcome := if c.state = 2 then 4 else 1, carried := candidateLate b c, fallback := false, age := 0
      lag := lagOf m c.statStep, selected := some c }, true) := by
  simp only [decideRoot, tableBase, hc]

/-- Before a deadline the installed root serves on, or the diagonal; no decision of a deadline is taken. -/
theorem decideRoot_of_early {m : Nat} (hc : b.candidate = none) (hdue : deadlineReached f b m = false) :
    let h := installedHeader s f b.key.block
    let usable := f.usable b.key.block h
    decideRoot s f b m = ({ tableBase b m with
      diagonal := !usable, lag := if usable then lagOf m h.statStep else b.record.lag }, false) := by
  dsimp only
  cases husable : f.usable b.key.block (installedHeader s f b.key.block) <;>
    simp [decideRoot, tableBase, hc, hdue, husable]

theorem decideRoot_of_fallback {m : Nat} (hc : b.candidate = none) (hdue : deadlineReached f b m = true)
    (h : f.usable b.key.block (installedHeader s f b.key.block) = false ∨
      (f.root.ageAction = true ∧ effMaxAge s f.root ≤ b.record.age)) :
    decideRoot s f b m = ({ tableBase b m with outcome := 3, fallback := true, diagonal := true }, true) := by
  rcases h with husable | ⟨haction, hage⟩
  · simp [decideRoot, tableBase, hc, hdue, husable]
  · simp [decideRoot, tableBase, hc, hdue, haction, hage]

theorem decideRoot_of_reuse {m : Nat} (hc : b.candidate = none) (hdue : deadlineReached f b m = true)
    (husable : f.usable b.key.block (installedHeader s f b.key.block) = true)
    (hage : f.root.ageAction = false ∨ b.record.age < effMaxAge s f.root) :
    decideRoot s f b m = ({ tableBase b m with
      outcome := 2, fallback := false, age := satTo 255 (b.record.age + 1)
      lag := lagOf m (installedHeader s f b.key.block).statStep }, true) := by
  have hold : (f.root.ageAction && decide (effMaxAge s f.root ≤ b.record.age)) = false := by
    rw [Bool.and_eq_false_iff, decide_eq_false_iff_not, Nat.not_le]
    exact hage
  simp [decideRoot, tableBase, hc, hdue, husable, hold]

/-- Every row names its step and what it takes the place of. -/
theorem decideRoot_before (m : Nat) : (decideRoot s f b m).1.step = m ∧ (decideRoot s f b m).1.before = b.record ∧
    (decideRoot s f b m).1.beforeCandidate = b.candidate := by
  unfold decideRoot
  dsimp only
  split
  next => exact ⟨rfl, rfl, rfl⟩
  next =>
    split
    · split <;> exact ⟨rfl, rfl, rfl⟩
    · split
      · exact ⟨rfl, rfl, rfl⟩
      · split <;> exact ⟨rfl, rfl, rfl⟩

/-- No root but a candidate is selected. -/
theorem decideRoot_selected (hc : b.candidate = none) (m : Nat) : (decideRoot s f b m).1.selected = none := by
  unfold decideRoot
  rw [hc]
  dsimp only
  split
  · split <;> rfl
  · split
    · rfl
    · split <;> rfl

theorem decideRoot_taken {m : Nat} (hdue : deadlineReached f b m = true) : (decideRoot s f b m).2 = true := by
  unfold decideRoot
  rw [hdue]
  dsimp only
  split
  next => rfl
  next =>
    rw [Bool.not_true, if_neg Bool.false_ne_true]
    split
    · rfl
    · split <;> rfl

theorem exec_deadlineDecision (k : SolveKey) (s : State) :
    exec (.deadlineDecision k) s = .next (advance (decideDeadline k s)) := rfl

end Decide

/-- Settles O59: by whether the decision is taken here, whether the replay log has it, and then by the rows of the table. -/
theorem deadlineDecisions : Obligations.DeadlineDecisions := by
  unfold Obligations.DeadlineDecisions
  intro k s
  rw [exec_deadlineDecision]
  refine ⟨fun h => by rw [decideDeadline_unknown h], fun b f hb hf => ?_⟩
  obtain rfl := key_of_findBlock hb
  intro m h usable due here issues recorded
  obtain ⟨hnot, hwaits, htakes⟩ := decideDeadline_eq hb hf
  refine ⟨fun h => ?elsewhere, fun hhere hlog hstrict => ?strict, fun d0 hhere hissue hlog => ?logged,
    fun hhere hissue hlog hstrict => ?table⟩
  case elsewhere =>
    by_cases hhere : DecidesHere s b f
    · rw [hwaits hhere]
      exact Bool.or_eq_true_iff.2 (.inl (h.resolve_left (not_not_intro hhere)))
    · rw [hnot hhere]
  case strict =>
    rw [hwaits hhere]
    exact Bool.or_eq_true_iff.2 (.inr (by rw [show loggedDecision s b _ = none from hlog]; exact hstrict))
  case logged =>
    have hx : (rootDecision s f b).1 = d0 := by unfold rootDecision; rw [hlog]
    have hsame := sameDecision_keptDecision f (rootDecision s f b) b
    have hblock := recordRoot_block (f := f) hb (rootDecision s f b)
    rw [htakes hhere (by rw [show issuing s b.key = false from hissue, show loggedDecision s b _ = some d0 from hlog]; rfl)]
    rw [hx] at hsame
    exact ⟨_, _, _, rfl, hblock.found, decided_recorded .., hsame.outcome, hsame.age, hsame.carried, hsame.fallback, hsame.lag,
      hblock.others⟩
  case table =>
    have hx : rootDecision s f b = decideRoot s f b m := by unfold rootDecision; rw [hlog]
    have hblock := recordRoot_block (f := f) hb (decideRoot s f b m)
    obtain ⟨hstep, hout, hcarried, hfall, hage, hlag, hdiag, hsel, hbefore, hcand⟩ :=
      sameDecision_keptDecision f (decideRoot s f b m) b
    obtain ⟨hstep', hbefore', hcand'⟩ := decideRoot_before (s := s) (f := f) (b := b) m
    rw [htakes hhere (by
      rw [show issuing s b.key = false from hissue, show strictWaits f b _ = false from hstrict, Bool.and_false]; rfl), hx]
    refine ⟨_, _, _, rfl, hblock.found, decided_recorded .., hstep.trans hstep', hbefore.trans hbefore', hcand.trans hcand',
      hblock.others, fun c hc => ?candidate, fun hc => hsel.trans (decideRoot_selected hc m), fun hc hdue => ?early,
      fun hc hdue hfallback => ?fallback, fun hc hdue husable hyoung => ?reuse, fun hdue hflight hcarry => ?abandons⟩
    case candidate =>
      rw [hsel, hdiag, hout, hfall, hage, hlag, hcarried, decideRoot_of_candidate hc]
      exact ⟨rfl, rfl, rfl, rfl, rfl, satTo_eq_min .., rfl⟩
    case early =>
      rw [hout, hfall, hage, hlag, hdiag, decideRoot_of_early hc hdue, decided_timestamp rfl]
      exact ⟨rfl, rfl, rfl, rfl, by rw [← satTo_eq_min]; rfl, rfl⟩
    case fallback =>
      rw [hout, hfall, hage, hdiag, decideRoot_of_fallback hc hdue hfallback]
      exact ⟨rfl, rfl, rfl, rfl⟩
    case reuse =>
      have hrow := decideRoot_of_reuse (s := s) hc hdue husable hyoung
      have htaken : ((decideRoot s f b m).2 && (decideRoot s f b m).1.outcome == 2) = true := by rw [hrow]; rfl
      rw [hout, hfall, hage, hlag, hdiag]
      refine ⟨by rw [hrow], by rw [hrow], by rw [hrow]; rfl, by rw [hrow]; exact satTo_eq_min ..,
        by rw [hrow]; exact satTo_eq_min .., recordRoot_announces_reuse htaken, fun hlimit hraised => ?_⟩
      have hreaches : reachesLimit s f (decideRoot s f b m) b = true := by
        rw [hrow] at hlimit ⊢
        simp [reachesLimit, hlimit, hraised]
      exact ⟨by rw [hreaches]; rfl, recordRoot_announces_limit hreaches⟩
    case abandons => exact decided_abandons (decideRoot_taken hdue) (by rw [hstep']; exact hdue) hflight hcarry

end Sys2Proof.Proofs
end

section
/-!
PROOFS. SOLVE: the task run that starts, the solves it issues for the blocks it names, and the run once the solves that have ended
are published (07 R130, R131, R145, R146).
-/
namespace Sys2Proof.Proofs

open Sys2Proof Sys2Proof.Machine Sys2Proof.Safety Sys2Proof.Laws

/-! ### The run that a row starts -/

/-- What a row starts is the run it names, and its output pages have fresh frames to be had. -/
theorem startable_found {s : State} {kind : Nat} {r : TaskRun} {t : TaskInst} {g : Segment} {kr : TaskRec}
    (h : startable s kind r = some (t, g, kr)) : findTask s r.step r.task = some t ∧ t.step = r.step ∧ t.task = r.task ∧
      (freshFrames t.step t.task (outputPages s t) s).isSome = true := by
  unfold startable at h
  split at h
  · cases h
  next x hx =>
    split at h
    next g' k' _ _ =>
      split at h
      next hguard =>
        cases h
        obtain ⟨hstep, htask⟩ : t.step = r.step ∧ t.task = r.task := by simpa using List.find?_some hx
        simp only [Bool.and_eq_true] at hguard
        exact ⟨hx, hstep, htask, hguard.2⟩
      · cases h
    · cases h

/-- A run has begun, on the unit and with the tiles given. -/
structure Begun (unit tiles : Nat) (x : TaskInst) : Prop where
  phase : x.phase = .computed ∨ x.phase = .published
  unit  : x.unit = unit
  tiles : x.tiles = tiles

/-- A run that starts is traced, and each of its tiles. -/
theorem accounts_traceTiles (t : TaskInst) (s : State) :
    Accounts s ((List.range t.tiles).foldl (fun s _ => traceTask 2 t s) (traceTask 1 t s)) :=
  (accounts_trace ..).trans (Accounts.foldl (g := fun s (_ : Nat) => traceTask 2 t s) (fun _ _ => accounts_trace ..) _ _)

/-- A run that stages nothing starts where its outputs have frames: the run is replaced by one that has begun. -/
theorem startRun_begins {r : TaskRun} {w : Work} {t : TaskInst} {s : State} (hw : w.staged = false)
    (h : (freshFrames t.step t.task (outputPages s t) s).isSome = true) :
    ∃ t', (t'.step = t.step ∧ t'.task = t.task) ∧ Begun r.unit (max 1 r.tiles) t' ∧
      SameRuns (setTask t.step t.task (fun _ => t') s) (startRun r w t s) ∧ Publishes s (startRun r w t s) := by
  obtain ⟨u, hu⟩ := Option.isSome_iff_exists.1 h
  have hframes : (stageFrames t.step (stagedPages w) s).bind (freshFrames t.step t.task (outputPages s t)) = some u := by
    simp [stagedPages, hw, stageFrames, hu]
  have hfresh := accounts_freshFrames hu
  unfold startRun
  dsimp only
  rw [hframes]
  dsimp only
  generalize (s.run.seedbedOpen && decide (stepOf s.run.head < t.step)) = sb
  have hviews := hfresh.trans (accounts_touchViews sb t u)
  generalize touchViews sb t u = v at *
  have hcounts : Accounts v (w.counts.foldl (fun s c => countWork sb c.1 c.2 s) v) :=
    Accounts.foldl (g := fun s (c : Nat × Nat) => countWork sb c.1 c.2 s) (fun x c => rfl) _ v
  generalize w.counts.foldl (fun s c => countWork sb c.1 c.2 s) v = v' at *
  have hnans : Accounts v' (w.events.foldl (fun s e => countNan sb t.task e s) v') :=
    Accounts.foldl (g := fun s (e : NanEvent) => countNan sb t.task e s)
      (fun x e => .of_sameButCounts (countNan_same sb t.task e x)) _ v'
  generalize w.events.foldl (fun s e => countNan sb t.task e s) v' = v'' at *
  have hbefore := (hviews.trans hcounts).trans hnans
  refine ⟨?run, ?keys, ?begun, ?runs, ?rest⟩
  case runs =>
    refine SameRuns.trans ?_ (accounts_traceTiles _ _).sameRuns
    exact congrArg (mapFirst _ _) hbefore.sameRuns
  case keys => exact ⟨rfl, rfl⟩
  case begun => exact ⟨.inl rfl, rfl, rfl⟩
  case rest =>
    refine Publishes.trans ?_ (accounts_traceTiles _ _).publishes
    exact hbefore.publishes.trans (publishes_setTask ..)

/-! ### The run once solves have ended -/

theorem findTask_setTask_other {step step' : Nat} {task task' : W32} {f : TaskInst → TaskInst}
    (hne : ¬ (step = step' ∧ task = task'))
    (hf : ∀ x : TaskInst, x.step = step → x.task = task → (f x).step = step ∧ (f x).task = task) (s : State) :
    findTask (setTask step task f s) step' task' = findTask s step' task' := by
  have hkey : ∀ x : TaskInst, x.step = step ∧ x.task = task → sameRun step' task' x = false := by
    rintro x ⟨rfl, rfl⟩
    simpa [sameRun] using hne
  have hrun : ∀ x, sameRun step task x = true → x.step = step ∧ x.task = task := fun x hx => by
    simpa [sameRun] using hx
  exact find?_mapFirst_other (q := sameRun step' task') (fun x hx => hkey x (hrun x hx))
    (fun x hx => hkey (f x) (hf x (hrun x hx).1 (hrun x hx).2)) _

theorem keys_of_findTask {s : State} {step : Nat} {task : W32} {x : TaskInst} (h : findTask s step task = some x) :
    x.step = step ∧ x.task = task := by simpa using List.find?_some h

/-- The run of a task replaced by a given one, where some run was. -/
theorem findTask_setTask_of_found {s : State} {step : Nat} {task : W32} {x t' : TaskInst} (hx : findTask s step task = some x)
    (hstep : t'.step = step) (htask : t'.task = task) :
    findTask (setTask step task (fun _ => t') s) step task = some t' := by
  obtain ⟨rfl, rfl⟩ := keys_of_findTask hx
  exact findTask_setTask_const (.refl s) hx hstep htask

/-- A publication leaves a run that has begun at that, its own or another's. -/
theorem publish_begun {unit tiles step : Nat} {task : W32} {t : TaskInst} {s : State}
    (h : ∃ x, findTask s step task = some x ∧ Begun unit tiles x) :
    ∃ x, findTask (publish t s) step task = some x ∧ Begun unit tiles x := by
  obtain ⟨n, status, hruns⟩ := publish_runs t s
  obtain ⟨x, hx, hbegun⟩ := h
  rw [findTask_of_sameRuns hruns]
  by_cases hkey : t.step = step ∧ t.task = task
  · obtain ⟨rfl, rfl⟩ := hkey
    rw [findTask_setTask (f := publishedRun n status) fun _ => ⟨rfl, rfl⟩, hx]
    exact ⟨_, rfl, .inr rfl, hbegun.unit, hbegun.tiles⟩
  · rw [findTask_setTask_other (f := publishedRun n status) hkey fun _ hstep htask => ⟨hstep, htask⟩]
    exact ⟨x, hx, hbegun⟩

theorem endSolve_begun {unit tiles step : Nat} {task : W32} {t : TaskInst} {s : State}
    (ht : t.step = step → t.task = task → Begun unit tiles t)
    (h : ∃ x, findTask s step task = some x ∧ Begun unit tiles x) :
    ∃ x, findTask (endSolve t s) step task = some x ∧ Begun unit tiles x := by
  unfold endSolve
  split
  · exact h
  · dsimp only
    split
    · exact h
    · refine publish_begun ?_
      obtain ⟨x, hx, hbegun⟩ := h
      by_cases hkey : t.step = step ∧ t.task = task
      · obtain ⟨rfl, rfl⟩ := hkey
        obtain ⟨hphase, hunit, htiles⟩ := ht rfl rfl
        exact ⟨_, findTask_setTask_of_found hx rfl rfl, hphase, hunit, htiles⟩
      · exact ⟨x, (findTask_setTask_other hkey (fun _ _ _ => by exact ⟨rfl, rfl⟩) s).trans hx, hbegun⟩

theorem endSolves_begun {unit tiles step : Nat} {task : W32} {s : State}
    (hall : ∀ t ∈ s.sched.tasks, t.step = step → t.task = task → Begun unit tiles t)
    (h : ∃ x, findTask s step task = some x ∧ Begun unit tiles x) :
    ∃ x, findTask (endSolves s) step task = some x ∧ Begun unit tiles x := by
  unfold endSolves
  have hlist : ∀ t ∈ s.sched.tasks.filter (fun t => t.phase == .computed && kindOf s t == 0x0E),
      t.step = step → t.task = task → Begun unit tiles t := fun t ht => hall t (List.mem_filter.1 ht).1
  generalize s.sched.tasks.filter (fun t => t.phase == .computed && kindOf s t == 0x0E) = l at hlist
  clear hall
  induction l generalizing s with
  | nil => exact h
  | cons t l ih =>
    exact ih (endSolve_begun (hlist t List.mem_cons_self) h) fun y hy => hlist y (List.mem_cons_of_mem _ hy)

/-- Where at most one element satisfies `p`, the replaced one is the only one that does. -/
theorem eq_of_mem_mapFirst {α : Type} {p : α → Bool} {c y : α} {l : List α}
    (hone : l.Pairwise fun a b => ¬ (p a = true ∧ p b = true)) (hy : y ∈ mapFirst p (fun _ => c) l) (hp : p y = true) :
    y = c := by
  induction l with
  | nil => cases hy
  | cons x l ih =>
    obtain ⟨hx, hl⟩ := List.pairwise_cons.1 hone
    rw [mapFirst] at hy
    split at hy
    next hpx => exact (List.mem_cons.1 hy).resolve_right fun hmem => hx y hmem ⟨hpx, hp⟩
    next hpx =>
      rcases List.mem_cons.1 hy with rfl | hmem
      · exact absurd hp hpx
      · exact ih hl hmem

theorem oneEach_pairwise {s : State} (h : OneEach s) (step : Nat) (task : W32) :
    s.sched.tasks.Pairwise fun a b => ¬ (sameRun step task a = true ∧ sameRun step task b = true) := by
  refine (List.pairwise_map.1 h).imp fun {a b} hne => ?_
  rintro ⟨ha, hb⟩
  obtain ⟨hstep, htask⟩ : a.step = step ∧ a.task = task := by simpa [sameRun] using ha
  obtain ⟨hstep', htask'⟩ : b.step = step ∧ b.task = task := by simpa [sameRun] using hb
  exact hne (by rw [hstep, htask, hstep', htask'])

/-! ### Solves issued (R130, R131, R145) -/

/-- From `s` to `t` what `Accounts` lists, the host's rings, what is sent and the blocks may have changed, and nothing else. -/
def Issues (s t : State) : Prop :=
  t = { s with
    mem := t.mem, numerics := t.numerics, counters := t.counters, sheaf := t.sheaf, host := t.host, out := t.out
    harrows := t.harrows }

theorem Issues.refl (s : State) : Issues s s := rfl

theorem Issues.trans {s t u : State} (a : Issues s t) (b : Issues t u) : Issues s u := by
  unfold Issues at *; rw [b, a]

theorem Issues.foldl {α : Type} {g : State → α → State} (hg : ∀ t x, Issues t (g t x)) (l : List α) (s : State) :
    Issues s (l.foldl g s) :=
  foldl_inv (p := Issues s) (fun u x h => h.trans (hg u x)) l (.refl s)

theorem Issues.run {s t : State} (h : Issues s t) : t.run = s.run := by rw [h]

theorem Issues.sameRuns {s t : State} (h : Issues s t) : SameRuns s t := by unfold SameRuns; rw [h]

theorem Accounts.issues {s t : State} (h : Accounts s t) : Issues s t := by unfold Issues; rw [h]

theorem issues_setBlock (k : SolveKey) (f : BlockSolve → BlockSolve) (s : State) : Issues s (setBlock k f s) := rfl

theorem issues_raiseIf (c : Bool) (code detail : Nat) (s : State) : Issues s (raiseIf c code detail s) := by
  unfold raiseIf; split
  · unfold Issues; rw [raise_eq]
  · exact .refl s

/-- The block with a solve issued, whose assembled work is `w`. -/
def issued (f : SolveForm) (step : Nat) (w : SolveWork) (rejected : Bool) (b : BlockSolve) : BlockSolve :=
  { b with
    record := { b.record with
      status := 1, warmRejected := rejected, iterations := 0, harrowCount := 0, harrowFirst := 0, statStep := step
      deadline := deadlineOf f step, boundary := 0 }
    work := some w, harrows := [] }

/-- The solve of a block put into it, written to its workspace and told. -/
def putIssued (f : SolveForm) (k : SolveKey) (step : Nat) (w : SolveWork) (es : List NanEvent) (rejected tell : Bool)
    (s : State) : State :=
  let t := writeArea k f (setBlock k (issued f step w rejected) s)
  match findBlock t k with
  | none => t
  | some b => raiseIf tell evWarmStartRejected (rootDetail k b.record.age) (countSolveNans b es t)

theorem issueSolve_eq (f : SolveForm) (k : SolveKey) (step : Nat) (s : State) :
    ∃ w es rejected tell, (w.foldStep = step ∧ w.started = true ∧ w.n = f.stat.dim k.block) ∧
      issueSolve f k step s = putIssued f k step w es rejected tell s :=
  ⟨_, _, _, _, ⟨rfl, rfl, rfl⟩, rfl⟩

theorem putIssued_changes (f : SolveForm) (k : SolveKey) (step : Nat) (w : SolveWork) (es : List NanEvent)
    (rejected tell : Bool) (s : State) : Issues s (putIssued f k step w es rejected tell s) ∧
      (putIssued f k step w es rejected tell s).harrows = (setBlock k (issued f step w rejected) s).harrows := by
  have harea := accounts_writeArea k f (setBlock k (issued f step w rejected) s)
  unfold putIssued
  dsimp only
  generalize writeArea k f (setBlock k (issued f step w rejected) s) = t at *
  have hput : Issues s t := (issues_setBlock ..).trans harea.issues
  split
  · exact ⟨hput, harea.harrows⟩
  next b _ =>
    have hnans := accounts_countSolveNans b es t
    exact ⟨hput.trans (hnans.issues.trans (issues_raiseIf ..)),
      (raiseIf_harrows ..).trans (hnans.harrows.trans harea.harrows)⟩

/-- The block that awaits a supplied root. -/
def awaitsRoot (step : Nat) (b : BlockSolve) : BlockSolve := { b with work := some { foldStep := step, ended := true } }

/-- The block that has skipped a fold. -/
def foldSkipped (b : BlockSolve) : BlockSolve :=
  { b with record.skippedBusy := satTo (2 ^ 32 - 1) (b.record.skippedBusy + 1) }

/-- What the fold of `step` makes of the block `q` that its SOLVE names: `assisted` in host-assisted mode. -/
structure FoldTaken (assisted : Bool) (f : SolveForm) (step q : Nat) (b b' : BlockSolve) : Prop where
  candidate : b'.candidate = b.candidate
  decisions : b'.decisions = b.decisions
  supplied  : assisted = true → b' = awaitsRoot step b
  skipped   : assisted = false → solveInFlight b = true → b' = foldSkipped b
  issued    : assisted = false → solveInFlight b = false → ∃ w rejected, b' = issued f step w rejected b ∧
    w.foldStep = step ∧ w.started = true ∧ w.n = f.stat.dim q

section Folds

variable {seg record step : Nat} {f : SolveForm} {s : State}

theorem foldBlockSolve_named {q : Nat} {b : BlockSolve} (hb : findBlock s ⟨seg, record, q⟩ = some b) :
    ∃ b', FoldTaken (s.run.modes.getD 4 false) f step q b b' ∧
      BlockIs ⟨seg, record, q⟩ b' s (foldBlockSolve seg record step f s q) := by
  unfold foldBlockSolve
  dsimp only
  rw [hb]
  dsimp only
  split
  next hassisted =>
    exact ⟨awaitsRoot step b, ⟨rfl, rfl, fun _ => rfl, fun h => absurd (hassisted.symm.trans h) nofun,
      fun h => absurd (hassisted.symm.trans h) nofun⟩, blockIs_setBlock (f := awaitsRoot step) (fun _ => rfl) hb⟩
  next hassisted =>
    split
    next hflight =>
      exact ⟨foldSkipped b, ⟨rfl, rfl, fun h => absurd h hassisted, fun _ _ => rfl,
        fun _ h => absurd (hflight.symm.trans h) nofun⟩, blockIs_setBlock (f := foldSkipped) (fun _ => rfl) hb⟩
    next hflight =>
      obtain ⟨w, es, rejected, tell, hw, e⟩ := issueSolve_eq f ⟨seg, record, q⟩ step s
      rw [e]
      exact ⟨issued f step w rejected b, ⟨rfl, rfl, fun h => absurd h hassisted, fun _ h => absurd h hflight,
        fun _ _ => ⟨w, rejected, rfl, hw⟩⟩,
        (blockIs_setBlock (f := issued f step w rejected) (fun _ => rfl) hb).of_harrows (putIssued_changes ..).2⟩

theorem foldBlockSolve_issues (s : State) (q : Nat) : Issues s (foldBlockSolve seg record step f s q) := by
  unfold foldBlockSolve
  dsimp only
  split
  · exact .refl s
  · split
    · exact issues_setBlock ..
    · split
      · exact issues_setBlock ..
      · obtain ⟨w, es, rejected, tell, -, e⟩ := issueSolve_eq f ⟨seg, record, q⟩ step s
        rw [e]
        exact (putIssued_changes ..).1

theorem foldBlockSolve_others (s : State) (q : Nat) :
    OtherBlocksStay ⟨seg, record, q⟩ s (foldBlockSolve seg record step f s q) := by
  cases hb : findBlock s ⟨seg, record, q⟩ with
  | none =>
    unfold foldBlockSolve
    dsimp only
    rw [hb]
    exact fun _ _ => rfl
  | some b =>
    obtain ⟨b', -, h⟩ := foldBlockSolve_named (step := step) (f := f) hb
    exact h.others

theorem foldBlocks_unnamed {l : List Nat} {q : Nat} (hq : q ∉ l) (s : State) :
    findBlock (l.foldl (foldBlockSolve seg record step f) s) ⟨seg, record, q⟩ = findBlock s ⟨seg, record, q⟩ := by
  induction l generalizing s with
  | nil => rfl
  | cons p l ih =>
    rw [List.mem_cons, not_or] at hq
    rw [List.foldl_cons, ih hq.2]
    exact foldBlockSolve_others s p _ (by simp [hq.1])

/-- A fold takes each block that it names once. -/
theorem foldBlocks_named {l : List Nat} (hl : l.Nodup) {q : Nat} (hq : q ∈ l) {b : BlockSolve}
    (hb : findBlock s ⟨seg, record, q⟩ = some b) : ∃ b', FoldTaken (s.run.modes.getD 4 false) f step q b b' ∧
      findBlock (l.foldl (foldBlockSolve seg record step f) s) ⟨seg, record, q⟩ = some b' := by
  induction l generalizing s with
  | nil => cases hq
  | cons p l ih =>
    obtain ⟨hp, hl⟩ := List.nodup_cons.1 hl
    rw [List.foldl_cons]
    rcases List.mem_cons.1 hq with rfl | hq
    · obtain ⟨b', hb', h⟩ := foldBlockSolve_named (step := step) (f := f) hb
      exact ⟨b', hb', (foldBlocks_unnamed hp _).trans h.found⟩
    · have hne : q ≠ p := fun e => hp (e ▸ hq)
      have hstays := foldBlockSolve_others (seg := seg) (record := record) (step := step) (f := f) s p ⟨seg, record, q⟩
        (by simp [hne])
      have hrun := (foldBlockSolve_issues (seg := seg) (record := record) (step := step) (f := f) s p).run
      rw [← hrun]
      exact ih hl hq (hstays.trans hb)

end Folds

theorem mem_upto {lo hi q : Nat} : q ∈ upto lo hi ↔ lo ≤ q ∧ q < hi := by
  unfold upto
  rw [List.mem_map]
  exact ⟨fun ⟨i, hi, e⟩ => by rw [List.mem_range] at hi; omega,
    fun h => ⟨q - lo, List.mem_range.2 (by omega), by omega⟩⟩

theorem nodup_upto (lo hi : Nat) : (upto lo hi).Nodup :=
  List.pairwise_map.2 (List.nodup_range.imp fun hne h => hne (Nat.add_left_cancel h))

/-! ### The row -/

/-- The solves of the blocks a task names, issued where its fold is due. -/
def issueNamed (t : TaskInst) (kr : TaskRec) (s : State) : State :=
  match solveForm s t.seg kr.record with
  | some f =>
    if f.stat.due t.step then
      (upto kr.blockFirst (kr.blockFirst + kr.blockCount)).foldl (foldBlockSolve t.seg kr.record t.step f) s
    else s
  | none => s

theorem issueNamed_issues (t : TaskInst) (kr : TaskRec) (s : State) : Issues s (issueNamed t kr s) := by
  unfold issueNamed
  split
  next f _ =>
    split
    · exact .foldl (fun u q => foldBlockSolve_issues u q) _ s
    · exact .refl s
  · exact .refl s

theorem issueNamed_due {t : TaskInst} {kr : TaskRec} {s : State} {f : SolveForm}
    (hf : solveForm s t.seg kr.record = some f) :
    (f.stat.due t.step = false → issueNamed t kr s = s) ∧
    (f.stat.due t.step = true → issueNamed t kr s =
      (upto kr.blockFirst (kr.blockFirst + kr.blockCount)).foldl (foldBlockSolve t.seg kr.record t.step f) s) := by
  unfold issueNamed
  rw [hf]
  exact ⟨fun h => if_neg (Bool.eq_false_iff.1 h), fun h => if_pos h⟩

theorem solveForm_of_publishes {s t : State} (h : Publishes s t) (seg record : Nat) :
    solveForm t seg record = solveForm s seg record := by
  rw [h]; rfl

theorem startSolve_none {r : TaskRun} {s : State} (h : startable s 0x0E r = none) : startSolve r s = s := by
  unfold startSolve
  rw [h]

theorem startSolve_some {r : TaskRun} {s : State} {t : TaskInst} {g : Segment} {kr : TaskRec}
    (h : startable s 0x0E r = some (t, g, kr)) :
    startSolve r s = endSolves (issueNamed t kr (startRun { r with tiles := 1 } {} t s)) := by
  unfold startSolve
  rw [h]
  rfl

theorem exec_solve (r : TaskRun) (s : State) : exec (.solve r) s = .next (advance (startSolve r s)) := rfl

/-- Settles O60: by whether the row starts its task, whether the fold is due, and by the blocks that it names. -/
theorem solvesAreIssued : Obligations.SolvesAreIssued := by
  unfold Obligations.SolvesAreIssued
  intro r s
  refine ⟨fun h => by rw [exec_solve, startSolve_none h], fun t g kr h hone => ?_⟩
  obtain ⟨hfound, hstep, htask, hfresh⟩ := startable_found h
  obtain ⟨t', ⟨hstep', htask'⟩, hbegun, hruns, hstart⟩ := startRun_begins (r := { r with tiles := 1 }) (w := {}) rfl hfresh
  refine ⟨_, by rw [exec_solve, startSolve_some h], ?run, fun f hf => ?blocks⟩
  all_goals generalize startRun { r with tiles := 1 } {} t s = u at *
  case run =>
    rw [hstep, htask] at hruns
    have htasks := hruns.trans (issueNamed_issues t kr u).sameRuns
    have hnamed : findTask (issueNamed t kr u) r.step r.task = some t' := by
      rw [findTask_of_sameRuns htasks]
      exact findTask_setTask_of_found hfound (hstep'.trans hstep) (htask'.trans htask)
    have hall : ∀ x ∈ (issueNamed t kr u).sched.tasks, x.step = r.step → x.task = r.task → Begun r.unit 1 x := by
      intro x hx hxstep hxtask
      rw [htasks] at hx
      rw [eq_of_mem_mapFirst (oneEach_pairwise hone r.step r.task) hx (by simp [sameRun, hxstep, hxtask])]
      exact hbegun
    obtain ⟨x, hx, hphase, hunit, htiles⟩ := endSolves_begun hall ⟨t', hnamed, hbegun⟩
    exact ⟨x, hx, hphase, hunit, htiles⟩
  case blocks =>
    obtain ⟨hnone, hdue⟩ := issueNamed_due ((solveForm_of_publishes hstart t.seg kr.record).trans hf)
    rw [hstep] at hnone hdue
    refine ⟨fun h => ?_, fun h q b hlo hhi hb => ?_⟩
    · rw [(publishes_endSolves _).harrows, hnone h, hstart.harrows]
    · rw [← findBlock_of_harrows hstart.harrows] at hb
      obtain ⟨b', hb', hnow⟩ := foldBlocks_named (step := r.step) (f := f) (nodup_upto _ _) (mem_upto.2 ⟨hlo, hhi⟩) hb
      rw [hstart.run] at hb'
      refine ⟨b', ?_, hb'.candidate, hb'.decisions, hb'.supplied, fun ha hflight => ?_, fun ha hflight => ?_⟩
      · rw [findBlock_of_harrows (publishes_endSolves _).harrows, hdue h]; exact hnow
      · rw [hb'.skipped ha hflight, foldSkipped, satTo_eq_min]
      · obtain ⟨w, rejected, rfl, hw⟩ := hb'.issued ha hflight
        exact ⟨rfl, rfl, rfl, rfl, rfl, rfl, rfl, rfl, rfl, w, rfl, hw⟩

end Sys2Proof.Proofs
end

section
/-!
PROOFS. UPDATE: frames for what a run stages and writes, the run that starts with its work kept in it, and the fallow queue staged
beside it; no committed byte and no version changes (08 R153, R165, R166).
-/
namespace Sys2Proof.Proofs

open Sys2Proof Sys2Proof.Machine Sys2Proof.Safety Sys2Proof.Laws

/-! ### Operations that ready memory for a run -/

theorem sameButCounts_withMem {s t : State} (h : SameButCounts s t) (m : Memory) :
    SameButCounts { s with mem := m } { t with mem := m } := by
  rw [h.eq]
  rfl

/-- From `s` to `t` a run has been readied: memory has changed, but no committed byte and no version, and no staged page has lost
its frame; beside it work has been counted. -/
structure Readies (s t : State) : Prop where
  rest   : SameButCounts { s with mem := t.mem } t
  base   : t.mem.base = s.mem.base
  layers : t.mem.layers = s.mem.layers
  hopper : s.mem.hopper ⊆ t.mem.hopper

theorem Readies.refl (s : State) : Readies s s := ⟨rfl, rfl, rfl, fun _ h => h⟩

theorem Readies.trans {s t u : State} (a : Readies s t) (b : Readies t u) : Readies s u :=
  ⟨(sameButCounts_withMem a.rest u.mem).trans b.rest, b.base.trans a.base, b.layers.trans a.layers,
    fun _ h => b.hopper (a.hopper h)⟩

theorem Readies.foldl {α : Type} {g : State → α → State} (hg : ∀ t x, Readies t (g t x)) (l : List α) (s : State) :
    Readies s (l.foldl g s) :=
  foldl_inv (p := Readies s) (fun u x h => h.trans (hg u x)) l (.refl s)

theorem Readies.sameRuns {s t : State} (h : Readies s t) : SameRuns s t := by
  unfold SameRuns; rw [h.rest.eq]

theorem Readies.of_sameButCounts {s t : State} (h : SameButCounts s t) : Readies s t := by
  rw [h.eq]
  exact ⟨rfl, rfl, rfl, fun _ h => h⟩

theorem readies_trace (a b : Nat) (c : Bool) (d : Nat) (e : W32) (f : Nat) (s : State) : Readies s (trace a b c d e f s) :=
  .of_sameButCounts (by rw [trace_eq]; rfl)

theorem hopper_ensureFrame (p : Nat) (s : State) : (ensureFrame p s).mem.hopper = s.mem.hopper := by
  unfold ensureFrame
  dsimp only
  split
  · rfl
  · split
    · rfl
    · split <;> rfl

theorem readies_ensureFrame (p : Nat) (s : State) : Readies s (ensureFrame p s) := by
  obtain ⟨hbase, hlayers, -, hrest⟩ := ensureFrame_frame p s
  have hsame : SameButCounts s { ensureFrame p s with mem := s.mem } := by rw [hrest]; exact .refl s
  exact ⟨sameButCounts_withMem hsame _, hbase, hlayers, by rw [hopper_ensureFrame]; exact fun _ h => h⟩

theorem readies_touchAs (sb : Bool) (what : Access) (off len : Nat) (s : State) : Readies s (touchAs sb what off len s) := by
  unfold touchAs
  refine .foldl (fun u p => ?_) _ s
  have hframe : Readies u (if (what == .write) = true then ensureFrame p u else u) := by
    split
    · exact readies_ensureFrame p u
    · exact .refl u
  exact hframe.trans ⟨rfl, rfl, rfl, fun _ h => h⟩

theorem readies_touchViews (sb : Bool) (t : TaskInst) (s : State) : Readies s (touchViews sb t s) :=
  Readies.foldl (g := fun u (x : Access × Nat × Nat) => touchAs sb x.1 x.2.1 x.2.2 u)
    (fun u x => readies_touchAs sb x.1 x.2.1 x.2.2 u) _ s

/-- A task run's fresh frame is taken. -/
def addFresh (h : FreshFrame) (s : State) : State := { s with mem.fresh := s.mem.fresh ++ [h] }

theorem freshFrames_cons (step : Nat) (task : W32) (p : Nat) (ps : List Nat) (s : State) :
    freshFrames step task (p :: ps) s =
      if s.mem.fresh.any fun h => h.step == step && h.task == task && h.page == p then freshFrames step task ps s
      else (freeFrame s (tierOf s p) (pageRegion p)).bind fun f =>
        freshFrames step task ps (addFresh ⟨step, task, p, tierOf s p, f⟩ s) := rfl

theorem readies_addFresh (h : FreshFrame) (s : State) : Readies s (addFresh h s) := ⟨rfl, rfl, rfl, fun _ h => h⟩

theorem readies_freshFrames {step : Nat} {task : W32} {ps : List Nat} {s v : State}
    (h : freshFrames step task ps s = some v) : Readies s v := by
  induction ps generalizing s with
  | nil =>
    obtain rfl : s = v := Option.some.inj h
    exact .refl s
  | cons p ps ih =>
    rw [freshFrames_cons] at h
    split at h
    · exact ih h
    · obtain ⟨f, -, h⟩ := Option.bind_eq_some_iff.1 h
      exact (readies_addFresh ..).trans (ih h)

/-! ### The hopper (08 R166) -/

/-- The hopper has a frame for the page in the step. -/
def Staged (step p : Nat) (s : State) : Prop := s.mem.hopper.any (fun h => h.step == step && h.page == p) = true

theorem Staged.of_readies {step p : Nat} {s t : State} (h : Staged step p s) (k : Readies s t) : Staged step p t := by
  obtain ⟨x, hx, hpage⟩ := List.any_eq_true.1 h
  exact List.any_eq_true.2 ⟨x, k.hopper hx, hpage⟩

theorem stageFrame_stages {step p : Nat} {s v : State} (h : stageFrame step p s = some v) :
    Readies s v ∧ Staged step p v := by
  unfold stageFrame at h
  split at h
  next hthere =>
    obtain rfl : s = v := Option.some.inj h
    exact ⟨.refl s, hthere⟩
  next =>
    obtain ⟨f, -, rfl⟩ := Option.map_eq_some_iff.1 h
    exact ⟨⟨rfl, rfl, rfl, List.subset_append_left _ _⟩, by simp [Staged]⟩

theorem stageFrames_stages {step : Nat} {ps : List Nat} {s v : State} (h : stageFrames step ps s = some v) :
    Readies s v ∧ ∀ p ∈ ps, Staged step p v := by
  induction ps generalizing s with
  | nil =>
    obtain rfl : s = v := Option.some.inj h
    exact ⟨.refl s, by simp⟩
  | cons p ps ih =>
    obtain ⟨u, hu, h⟩ := Option.bind_eq_some_iff.1 h
    obtain ⟨hfirst, hp⟩ := stageFrame_stages hu
    obtain ⟨hrest, hps⟩ := ih h
    exact ⟨hfirst.trans hrest, List.forall_mem_cons.2 ⟨hp.of_readies hrest, hps⟩⟩

/-! ### Frames do not depend on the fallow queues -/

/-- The state with other fallow queues. -/
def withQueues (l : List FallowQueue) (s : State) : State := { s with fallow := l }

theorem freeFrameFrom_withQueues (l : List FallowQueue) (s : State) (far : Bool) (region n i : Nat) :
    freeFrameFrom (withQueues l s) far region n i = freeFrameFrom s far region n i := by
  induction n generalizing i with
  | zero => rfl
  | succ n ih =>
    rw [freeFrameFrom, freeFrameFrom, ih]
    rfl

theorem freeFrame_withQueues (l : List FallowQueue) (s : State) (far : Bool) (region : Nat) :
    freeFrame (withQueues l s) far region = freeFrame s far region := freeFrameFrom_withQueues ..

theorem tierOf_withQueues (l : List FallowQueue) (s : State) (p : Nat) : tierOf (withQueues l s) p = tierOf s p := rfl

theorem stageFrame_withQueues (l : List FallowQueue) (step p : Nat) (s : State) :
    stageFrame step p (withQueues l s) = (stageFrame step p s).map (withQueues l) := by
  unfold stageFrame
  dsimp only
  rw [apply_ite (Option.map (withQueues l)), tierOf_withQueues, freeFrame_withQueues, Option.map_map]
  rfl

theorem stageFrames_withQueues (l : List FallowQueue) (step : Nat) (ps : List Nat) (s : State) :
    stageFrames step ps (withQueues l s) = (stageFrames step ps s).map (withQueues l) := by
  induction ps generalizing s with
  | nil => rfl
  | cons p ps ih =>
    rw [stageFrames, stageFrames, stageFrame_withQueues, Option.bind_map, Option.map_bind]
    exact congrArg _ (funext ih)

theorem freshFrames_withQueues (l : List FallowQueue) (step : Nat) (task : W32) (ps : List Nat) (s : State) :
    freshFrames step task ps (withQueues l s) = (freshFrames step task ps s).map (withQueues l) := by
  induction ps generalizing s with
  | nil => rfl
  | cons p ps ih =>
    rw [freshFrames_cons, freshFrames_cons, apply_ite (Option.map (withQueues l)), tierOf_withQueues, freeFrame_withQueues,
      ← ih, Option.map_bind]
    exact congrArg (ite _ _) (congrArg _ (funext fun f => ih (addFresh ⟨step, task, p, tierOf s p, f⟩ s)))

/-- What a run needs before it starts: a frame in the hopper for every page that it stages, and a fresh one for every page of its
output views. -/
def runFrames (w : Work) (t : TaskInst) (s : State) : Option State :=
  (stageFrames t.step (stagedPages w) s).bind (freshFrames t.step t.task (outputPages s t))

theorem runFrames_withQueues (l : List FallowQueue) (w : Work) (t : TaskInst) (s : State) :
    runFrames w t (withQueues l s) = (runFrames w t s).map (withQueues l) := by
  unfold runFrames
  rw [stageFrames_withQueues, Option.bind_map, Option.map_bind]
  exact congrArg _ (funext (freshFrames_withQueues l t.step t.task (outputPages s t)))

theorem runFrames_stages {w : Work} {t : TaskInst} {s v : State} (h : runFrames w t s = some v) :
    Readies s v ∧ ∀ p ∈ stagedPages w, Staged t.step p v := by
  obtain ⟨u, hu, h⟩ := Option.bind_eq_some_iff.1 h
  obtain ⟨hstaged, hpages⟩ := stageFrames_stages hu
  have hfresh := readies_freshFrames h
  exact ⟨hstaged.trans hfresh, fun p hp => (hpages p hp).of_readies hfresh⟩

/-! ### The run that starts (12 R253) -/

/-- `t'` is the run `t` computed on the unit of the row, with its work kept in it until it publishes. -/
def Computed (r : TaskRun) (w : Work) (t t' : TaskInst) : Prop :=
  t' = { t with
    phase := .computed, seedbed := t'.seedbed, attempt := (t.attempt + 1) % 256, unit := r.unit, tiles := max 1 r.tiles, done := 0
    cells := w.cells, staged := w.staged, findings := w.findings, counts := t'.counts, status := w.status
    contributions := w.contributions, bound := t'.bound, event := t'.event }

/-- Work is counted, and its NaN events. -/
theorem readies_counts (sb : Bool) (task : W32) (counts : List (Nat × Nat)) (es : List NanEvent) (s : State) :
    Readies s (es.foldl (fun s e => countNan sb task e s) (counts.foldl (fun s c => countWork sb c.1 c.2 s) s)) :=
  .of_sameButCounts <|
    (foldl_same (fun s (c : Nat × Nat) => countWork sb c.1 c.2 s) (fun s c => countWork_same sb c.1 c.2 s) counts s).trans
      (foldl_same (fun s e => countNan sb task e s) (fun s e => countNan_same sb task e s) es _)

theorem readies_traceTiles (t : TaskInst) (s : State) :
    Readies s ((List.range t.tiles).foldl (fun s _ => traceTask 2 t s) (traceTask 1 t s)) :=
  (readies_trace ..).trans (Readies.foldl (g := fun s (_ : Nat) => traceTask 2 t s) (fun _ _ => readies_trace ..) _ _)

/-- A run whose frames are to be had starts: memory is readied from the frames on, and the run is replaced by one that keeps the
work. -/
theorem startRun_computes (r : TaskRun) {w : Work} {t : TaskInst} {s u : State} (h : runFrames w t s = some u) :
    ∃ t' v, Computed r w t t' ∧ Readies u v ∧ Readies (setTask t.step t.task (fun _ => t') v) (startRun r w t s) := by
  have hframes : (stageFrames t.step (stagedPages w) s).bind (freshFrames t.step t.task (outputPages s t)) = some u := h
  unfold startRun
  dsimp only
  rw [hframes]
  dsimp only
  refine ⟨?run, ?before, ?computed, ?ready, ?ended⟩
  case ended => exact readies_traceTiles _ _
  case ready => exact (readies_touchViews _ t u).trans (readies_counts ..)
  case computed => rfl

theorem startRun_started {r : TaskRun} {w : Work} {t : TaskInst} {s u : State} (hfound : findTask s r.step r.task = some t)
    (h : runFrames w t s = some u) : Started r w t s (startRun r w t s) := by
  obtain ⟨hstep, htask⟩ := keys_of_findTask hfound
  obtain ⟨t', v', hrun, hready, hend⟩ := startRun_computes r h
  have hbefore := (runFrames_stages h).1.trans hready
  generalize startRun r w t s = v at *
  rw [hstep, htask] at hend
  have hbase : v.mem.base = s.mem.base := hend.base.trans hbefore.base
  have hlayers : v.mem.layers = s.mem.layers := hend.layers.trans hbefore.layers
  have htasks := hend.sameRuns
  have hsame : v.run = s.run := by rw [hend.rest.eq, setTask, hbefore.rest.eq]
  refine ⟨⟨t', ?_, ?_⟩, fun x hx hne => ?_, fun rd a => ?_, hbase, ?_⟩
  · rw [findTask_of_sameRuns htasks]
    have hthere := (findTask_of_sameRuns hbefore.sameRuns r.step r.task).trans hfound
    exact findTask_setTask_of_found hthere (by rw [hrun]; exact hstep) (by rw [hrun]; exact htask)
  · rw [hrun]
    exact ⟨rfl, rfl, rfl, rfl, rfl, rfl, rfl, rfl, rfl, rfl⟩
  · rw [htasks]
    exact othersStay_setTask hbefore.sameRuns r.step r.task (fun _ => t') x hx hne
  · rw [readByte, readByte, hbase, hlayers, hsame]
  · rw [hend.rest.eq, setTask, hbefore.rest.eq]

theorem startRun_stages {r : TaskRun} {w : Work} {t : TaskInst} {s u : State} (h : runFrames w t s = some u) :
    (∀ p ∈ stagedPages w, Staged t.step p (startRun r w t s)) ∧ (startRun r w t s).mem.layers = s.mem.layers := by
  obtain ⟨t', v, -, hready, hend⟩ := startRun_computes r h
  obtain ⟨hframes, hpages⟩ := runFrames_stages h
  refine ⟨fun p hp => ?_, hend.layers.trans (hready.layers.trans hframes.layers)⟩
  have hpage : Staged t.step p v := (hpages p hp).of_readies hready
  exact Staged.of_readies (s := setTask t.step t.task (fun _ => t') v) hpage hend

/-! ### UPDATE (08 R153, R165) -/

/-- The fallow queues once a changed one is staged. -/
def stagedQueues (q : Option FallowQueue) (l : List FallowQueue) : List FallowQueue :=
  match q with
  | some q => (l.filter fun z => z.master != q.master) ++ [q]
  | none => l

/-- What an UPDATE of a run computes: its work, and the queue as it is staged. -/
def updateOf (r : TaskRun) (t : TaskInst) (g : Segment) (k : TaskRec) (u : UpdateRec) (s : State) : Work × Option FallowQueue :=
  updateTask s (readerOf s t) r.unit t.seg t.step g u ((insOf s g k).head?.map fun o => o.values s (readerOf s t))

theorem exec_update (r : TaskRun) (s : State) : exec (.update r) s = .next (advance (startUpdate r s)) := rfl

theorem startUpdate_none {r : TaskRun} {s : State} (h : startable s 0x0D r = none) : startUpdate r s = s := by
  unfold startUpdate
  rw [h]

/-- An UPDATE waits for its frames, and then starts beside its staged queue. -/
theorem startUpdate_some {r : TaskRun} {s : State} {t : TaskInst} {g : Segment} {k : TaskRec} {u : UpdateRec} {w : Work}
    {q : Option FallowQueue} (h : startable s 0x0D r = some (t, g, k)) (hu : g.updates[k.record]? = some u)
    (hx : updateOf r t g k u s = (w, q)) :
    startUpdate r s =
      if (runFrames w t s).isNone then s else startRun r w t (withQueues (stagedQueues q s.fallow) s) := by
  unfold updateOf at hx
  unfold startUpdate
  rw [h]
  dsimp only
  rw [hu]
  dsimp only
  rw [hx]
  cases q <;> rfl

/-- Before its first step, and with no shard of the master, an UPDATE writes nothing (R153). -/
theorem updateTask_idle {s : State} {u : UpdateRec} {o : UpdateOps} {step : Nat} (ho : updateOps s u = some o)
    (h : step < u.t0 ∨ o.master.tensor.held = false) (rd : Reader) (unit seg : Nat) (g : Segment)
    (p : Option (List Machine.Num)) :
    updateTask s rd unit seg step g u p = ({ staged := true }, none) := by
  unfold updateTask
  rw [ho]
  exact if_pos (by simpa using h)

/-- Settles O54: by whether the row starts its task, and whether the pages that the update writes have frames to be had. -/
theorem updatesAreStaged : Obligations.UpdatesAreStaged := by
  unfold Obligations.UpdatesAreStaged
  intro r s
  refine ⟨fun h => by rw [exec_update, startUpdate_none h], fun t g k u h hu => ?_⟩
  obtain ⟨hfound, hstep, htask, -⟩ := startable_found h
  intro p x frames
  have hx : updateOf r t g k u s = x := rfl
  have hidle : ∀ o, updateOps s u = some o → (t.step < u.t0 ∨ o.master.tensor.held = false) →
      x = ({ staged := true }, none) := fun o ho h => updateTask_idle ho h ..
  have hframes : frames = runFrames x.1 t s := by rw [runFrames, hstep, htask]
  clear_value frames x
  obtain ⟨w, q⟩ := x
  have hstart := startUpdate_some h hu hx
  rw [exec_update, hstart, hframes]
  refine ⟨fun hnone => by rw [if_pos (Option.isNone_iff_eq_none.2 hnone)], fun hsome => ?_⟩
  obtain ⟨v, hv⟩ := Option.isSome_iff_exists.1 hsome
  rw [if_neg (by simp [hv])]
  have hqueues : runFrames w t (withQueues (stagedQueues q s.fallow) s) = some (withQueues (stagedQueues q s.fallow) v) := by
    rw [runFrames_withQueues, hv, Option.map_some]
  obtain ⟨⟨y, hy, hphase, -, hunit, -, -, hcells, hstaged, hfindings, -⟩, hothers, -, hbase, hrest⟩ :=
    startRun_started (s := withQueues (stagedQueues q s.fallow) s) hfound hqueues
  obtain ⟨hpages, hlayers⟩ := startRun_stages (r := r) hqueues
  have hfallow := congrArg State.fallow hrest
  rw [hstep] at hidle hpages
  refine ⟨_, y, rfl, hy, hphase, hunit, hcells, hstaged, hfindings, hpages, hfallow, hbase, hlayers, hothers,
    fun o ho h => ?_⟩
  obtain ⟨rfl, rfl⟩ := Prod.mk.inj (hidle o ho h)
  exact ⟨hcells, hstaged, hfallow⟩

end Sys2Proof.Proofs
end

section
/-!
PROOFS. A hedge message sent stays sent: the operations that every family shares, the links, the task runs and the head. One
lemma per operation; an operation that sends nothing and calls nothing that sends has no lemma of its own and is unfolded.
-/
namespace Sys2Proof.Proofs

open Sys2Proof Sys2Proof.Machine Sys2Proof.Laws

/-- A message that has been sent on the hedge lane. -/
abbrev Sent (e : ModId × Hedge) (s : State) : Prop := e ∈ s.out.hedge

section

variable {e : ModId × Hedge} {s : State} (h : Sent e s)
include h

theorem Sent.foldl {α : Type} {g : State → α → State} (hg : ∀ t x, Sent e t → Sent e (g t x)) (l : List α) :
    Sent e (l.foldl g s) := foldl_inv hg l h

theorem Sent.of_prepares {t : State} (p : Prepares s t) : Sent e t := by rw [p]; exact h

theorem Sent.of_publishes {t : State} (p : Publishes s t) : Sent e t := by rw [p]; exact h

theorem Sent.of_touched {t : State} (p : Touched s t) : Sent e t := by
  obtain ⟨-, -, -, hrest⟩ := p
  rwa [← hrest] at h

/-! ### Notices and host writes -/

theorem Sent.trace (source type : Nat) (seedbed : Bool) (unit : Nat) (task : W32) (data : Nat) :
    Sent e (trace source type seedbed unit task data s) := (tells_trace ..).sent h

theorem Sent.sheafTrigger (kind code : Nat) : Sent e (sheafTrigger kind code s) := by
  unfold Machine.sheafTrigger
  dsimp only
  repeat' split
  all_goals exact h

theorem Sent.hostWrite (addr : Nat) (bs : Bytes) (poison : Bool) : Sent e (hostWrite addr bs poison s) := by
  unfold Machine.hostWrite
  split <;> exact h

theorem Sent.sendHedge (dest : ModId) (m : Hedge) : Sent e (sendHedge dest m s) := (tells_sendHedge ..).sent h

theorem Sent.raise (code detail : Nat) : Sent e (raise code detail s) := (tells_raise ..).sent h

/-! ### Memory -/

theorem Sent.writePoison (off len : Nat) (poison : Bool) : Sent e (writePoison off len poison s) :=
  h.of_publishes (accounts_writePoison ..).publishes

theorem Sent.touch (write : Bool) (off len : Nat) : Sent e (touch write off len s) := h.of_touched (touch_frame ..)

theorem Sent.finishMove (page : Nat) : Sent e (finishMove page s) := h.of_publishes (accounts_finishMove ..).publishes

theorem Sent.flipFresh (step : Nat) (task : W32) : Sent e (flipFresh step task s) :=
  h.of_publishes (accounts_flipFresh ..).publishes

/-! ### Registers -/

theorem Sent.lockRegisters : Sent e (lockRegisters s) := by
  unfold Machine.lockRegisters
  grind [← Sent.foldl, Machine.restoreFields, ← Sent.sendHedge, Machine.lockSetup]

/-! ### Completions and jobs -/

theorem Sent.completeWith (op : DescOp) (d : Desc) (status detail : Nat) (halted late : Bool) :
    Sent e (completeWith op d status detail halted late s) := (tells_completeWith ..).sent h

theorem Sent.finishJobs (p : Job → Bool) (status detail : Nat) : Sent e (finishJobs p status detail s) :=
  (tells_finishJobs ..).sent h

omit h in
theorem Sent.record {x : State × Result} (hx : Sent e x.1) (op : DescOp) (d : Desc) : Sent e (record op d x) := by
  unfold Machine.record
  grind [Machine.startJob, Machine.setSub, Machine.completeNow, ← Sent.completeWith, ← Sent.trace]

/-! ### Findings -/

theorem Sent.finding (step bit : Nat) : Sent e (finding step bit s) := h.of_publishes (publishes_finding ..)

theorem Sent.addressError (step : Nat) : Sent e (addressError step s) := by
  unfold Machine.addressError
  grind [← Sent.finding, Machine.holdRun, ← Sent.sendHedge]

/-! ### Packets on the links -/

theorem Sent.sendFlit (p t : Nat) (q : Packet) (corrupt : Option (Nat × Byte)) : Sent e (sendFlit p t q corrupt s) := by
  unfold Machine.sendFlit
  split <;> exact h

theorem Sent.transmit (p t : Nat) (q : Packet) : Sent e (transmit p t q s) := by
  unfold Machine.transmit
  grind [Machine.countStone, ← Sent.sendFlit]

theorem Sent.releaseHeld (p vc : Nat) : Sent e (releaseHeld p vc s) := by
  unfold Machine.releaseHeld
  grind [← Sent.foldl, ← Sent.sendFlit]

theorem Sent.sendPacket (t : Nat) (reverse : Bool) (q : Packet) : Sent e (sendPacket t reverse q s) := by
  unfold Machine.sendPacket
  split
  · split <;> exact h
  next p detour _ =>
    extract_lets q s₁ held s₂
    have h₁ : Sent e s₁ := by unfold s₁; split <;> exact h
    have h₂ : Sent e s₂ := Sent.transmit h₁ ..
    split
    · exact Sent.releaseHeld h₂ ..
    · exact h₂

theorem Sent.launch (x : Txn) : Sent e (launch x s) := by
  unfold Machine.launch
  grind [← Sent.sendPacket, ← Sent.trace, Machine.takeOrder]

theorem Sent.launchNext (m : ModId) : Sent e (launchNext m s) := by
  unfold Machine.launchNext
  grind [← Sent.launch]

theorem Sent.issue (t : Nat) (dest : ModId) (off len8 : Nat) (data : Bytes) (seedbed : Bool) (ctx : Option (W32 × Nat × Nat))
    (task : Option (Nat × W32)) (bar4 : Bool) :
    Sent e (issue t dest off len8 data seedbed ctx task bar4 s).2 := by
  unfold Machine.issue
  grind [← Sent.launch]

theorem Sent.respond (t : Nat) (req : Packet) (status : Nat) (poison : Bool) (data : Bytes) :
    Sent e (respond t req status poison data s) := by
  unfold Machine.respond
  grind [← Sent.sendPacket, Machine.takeOrder]

/-! ### Requests and their answers -/

theorem Sent.sendBulk (dest : ModId) (tag : W16) (src : Option Nat) (off n : Nat) (bs : Bytes) :
    Sent e (sendBulk dest tag src off n bs s) := by
  induction n generalizing s src off bs with
  | zero => exact h
  | succ n ih =>
    unfold Machine.sendBulk
    split
    · exact h
    · exact ih (h.sendPacket ..) ..

theorem Sent.sendTransfer (x : BulkOut) : Sent e (sendTransfer x s) := by
  unfold Machine.sendTransfer
  grind [← Sent.sendBulk, ← Sent.sendHedge]

theorem Sent.refuseReads : Sent e (refuseReads s) := by
  unfold Machine.refuseReads
  grind [← Sent.foldl, ← Sent.respond]

theorem Sent.remoteToHost (d : Desc) (tags : List W16) (parts : List (W16 × Bool × Bytes)) :
    Sent e (remoteToHost d tags parts s) := by
  unfold Machine.remoteToHost
  grind [← Sent.foldl, ← Sent.hostWrite]

theorem Sent.finishRemote (tag : W16) (st : Nat) (poison : Bool) (data : Bytes) :
    Sent e (finishRemote tag st poison data s) := by
  unfold Machine.finishRemote
  grind [← Sent.remoteToHost, ← Sent.finishJobs]

theorem Sent.taskAnswered (st step : Nat) (task : W32) : Sent e (taskAnswered st step task s) := by
  unfold Machine.taskAnswered
  grind [← Sent.addressError, Machine.setTask]

theorem Sent.doResponse (p : Packet) : Sent e (doResponse p s) := by
  unfold Machine.doResponse
  grind [← Sent.launchNext, Machine.countLink, Machine.count, Machine.countAs, ← Sent.finishRemote, ← Sent.taskAnswered,
    ← Sent.trace]

theorem Sent.answerUnreachedN (n : Nat) : Sent e (answerUnreachedN n s) := by
  induction n generalizing s with
  | zero => exact h
  | succ n ih =>
    unfold Machine.answerUnreachedN
    split
    · exact h
    · next rest _ => exact ih (Sent.doResponse (s := { s with lamio.unreached := rest }) h _)

theorem Sent.answerUnreached : Sent e (answerUnreached s) := h.answerUnreachedN _

/-! ### Segments -/

theorem Sent.pinPage (far : Bool) (p : Nat) : Sent e (pinPage far p s) := by
  unfold Machine.pinPage
  grind [Machine.setPage]

theorem Sent.pinTensor (far : Bool) (t : TensorRec) : Sent e (pinTensor far t s) := by
  unfold Machine.pinTensor
  grind [← Sent.foldl, ← Sent.pinPage]

theorem Sent.acceptPins (g : Segment) : Sent e (acceptPins g s) := by
  unfold Machine.acceptPins
  grind [← Sent.foldl, ← Sent.pinTensor, Machine.pinDefault, ← Sent.pinPage]

theorem Sent.installSegment (b : Bytes) : Sent e (installSegment b s).2 := by
  unfold Machine.installSegment
  grind [← Sent.acceptPins, Machine.extendMeas]

theorem Sent.submitGraph (mayNotPermit : Bool) (b : Bytes) : Sent e (submitGraph mayNotPermit b s).1 := by
  unfold Machine.submitGraph
  grind [Machine.accept, ← Sent.installSegment, Machine.refuse]

/-! ### Task runs -/

theorem Sent.giveSeqs (ts : List TaskInst) : Sent e (giveSeqs ts s).1 := h.of_prepares (prepares_giveSeqs ..)

theorem Sent.markGates : Sent e (markGates s) := h

theorem Sent.addInstances (n : Nat) (new : List TaskInst) : Sent e (addInstances n new s) :=
  h.of_prepares (prepares_addInstances ..)

theorem Sent.createStep (n : Nat) : Sent e (createStep n s) := h.of_prepares (prepares_createStep ..)

theorem Sent.offerCandidate (t : TaskInst) : Sent e (offerCandidate t s) := h.of_publishes (publishes_offerCandidate ..)

theorem Sent.touchCells (cs : Cells) : Sent e (touchCells cs s) := h.of_touched (touchCells_touched ..)

theorem Sent.endSolves : Sent e (endSolves s) := h.of_publishes (publishes_endSolves ..)

theorem Sent.discardRuns (p : TaskInst → Bool) (phase : Phase) : Sent e (discardRuns p phase s) :=
  (unwinds_discardRuns ..).sent h

/-! ### Moves and rotation -/

theorem Sent.sow : Sent e (sow s) := h.of_prepares (prepares_sow ..)

theorem Sent.rotateRegion (window : List Nat) (region n : Nat) : Sent e (rotateRegion window region n s) := by
  induction n generalizing s with
  | zero => exact h
  | succ n ih =>
    unfold Machine.rotateRegion
    split
    · exact h
    · exact ih h

theorem Sent.rotationSelect : Sent e (rotationSelect s) := by
  unfold Machine.rotationSelect
  grind [← Sent.foldl, ← Sent.rotateRegion]

/-! ### The head and halts -/

theorem Sent.setHead (p : Pos) : Sent e (setHead p s) := by
  unfold Machine.setHead
  split
  · exact h
  · refine Sent.of_prepares ?_ (.sow_if ((Prepares.createStep_if (.refl _)).createStep_if.trans
      ((prepares_markGates _).trans (prepares_positionTrigger _))))
    exact h

theorem Sent.reportFront : Sent e (reportFront s) := by
  unfold Machine.reportFront
  grind [← Sent.sendHedge]

theorem Sent.advanceHead : Sent e (advanceHead s) := by
  unfold Machine.advanceHead
  grind [← Sent.setHead, ← Sent.sendHedge]

theorem Sent.advanceSeedbed : Sent e (advanceSeedbed s) := by
  unfold Machine.advanceSeedbed
  grind [← Sent.sow]

theorem Sent.openSeedbed : Sent e (openSeedbed s) := by
  unfold Machine.openSeedbed
  grind [← Sent.createStep, ← Sent.sow]

theorem Sent.settleHead (n : Nat) : Sent e (settleHead n s) := by
  induction n generalizing s with
  | zero => exact h
  | succ n ih => exact ih h.advanceSeedbed.reportFront.advanceHead

theorem Sent.settle : Sent e (settle s) := h.openSeedbed.settleHead 8

theorem Sent.acknowledge (kind : Nat) (ident pos : W64) : Sent e (acknowledge kind ident pos s) :=
  (tells_acknowledge ..).sent h

theorem Sent.haltSmear (m : StopMsg) : Sent e (haltSmear m s) := by
  by_cases hrun : s.run.isOn = true ∧ s.run.halt = .running
  · exact (haltSmear_smears hrun.1 hrun.2 m).sent h
  · unfold Machine.haltSmear
    rw [if_neg (by simpa using hrun)]
    exact h

theorem Sent.cutSeedbed (target : Pos) : Sent e (cutSeedbed target s) := by
  unfold Machine.cutSeedbed
  grind [← Sent.foldl, ← Sent.discardRuns]

theorem Sent.applyStop (m : StopMsg) : Sent e (applyStop m s) := by
  unfold Machine.applyStop
  grind [← Sent.haltSmear, ← Sent.cutSeedbed]

theorem Sent.orderStop (m : StopMsg) : Sent e (orderStop m s) := by
  unfold Machine.orderStop
  grind [← Sent.applyStop, ← Sent.sendHedge]

end

end Sys2Proof.Proofs
end

section
/-!
PROOFS. A hedge message sent stays sent: group definitions, the vote and its outcomes, and the rollback (02 R42, 09 R174 to R182).
-/
namespace Sys2Proof.Proofs

open Sys2Proof Sys2Proof.Machine Sys2Proof.Laws

section

variable {e : ModId × Hedge} {s : State} (h : Sent e s)
include h

/-! ### Groups -/

theorem Sent.renumber (g : Nat) : Sent e (renumber g s) := by
  unfold Machine.renumber
  grind [← Sent.foldl, Machine.mapGroups, ← Sent.giveSeqs]

theorem Sent.installGroup (b : Bytes) (epoch : Nat) : Sent e (installGroup b epoch s) := by
  unfold Machine.installGroup
  grind [← Sent.renumber]

theorem Sent.spreadGroup (b : Bytes) (epoch : Nat) : Sent e (spreadGroup b epoch s).1 := by
  unfold Machine.spreadGroup
  grind [← Sent.foldl, ← Sent.installGroup, Machine.sendDefinition, ← Sent.sendHedge]

theorem Sent.reformOne (excluded : Bool) (m : ModId) (g : Nat) : Sent e (reformOne excluded m g s) := by
  unfold Machine.reformOne
  grind [← Sent.spreadGroup, ← Sent.raise]

theorem Sent.reportReformed : Sent e (reportReformed s) := by
  unfold Machine.reportReformed
  grind [← Sent.sendHedge]

theorem Sent.reformLost : Sent e (reformLost s) := by
  unfold Machine.reformLost
  grind [← Sent.foldl, ← Sent.reformOne, ← Sent.reportReformed]

/-! ### The vote, its outcomes and the rollback -/

theorem Sent.queueReport (n status : Nat) : Sent e (queueReport n status s) := by
  unfold Machine.queueReport
  grind [Machine.setCompl]

theorem Sent.traceCommit (type data : Nat) : Sent e (traceCommit type data s) := by
  unfold Machine.traceCommit
  grind [← Sent.trace]

theorem Sent.traceProgress (fields : List Nat) : Sent e (traceProgress fields s) := by
  unfold Machine.traceProgress
  grind [← Sent.foldl, ← Sent.traceCommit]

theorem Sent.releaseRetired : Sent e (releaseRetired s) := by
  unfold Machine.releaseRetired
  grind [← Sent.foldl, Machine.releaseSegment]

theorem Sent.retireAt (n : Nat) (commit : Bool) : Sent e (retireAt n commit s) := by
  unfold Machine.retireAt
  grind [← Sent.finishJobs, ← Sent.releaseRetired]

theorem Sent.applyEvaluation (n : Nat) (host : Bool) : Sent e (applyEvaluation n host s) := by
  unfold Machine.applyEvaluation
  grind [← Sent.foldl, Machine.createEval, ← Sent.addInstances]

theorem Sent.applyMode (n f : Nat) (host : Bool) : Sent e (applyMode n f host s) := by
  unfold Machine.applyMode
  grind [← Sent.endSolves, Machine.dropSelected, ← Sent.applyEvaluation]

theorem Sent.applyModes (n : Nat) : Sent e (applyModes n s) := by
  unfold Machine.applyModes
  grind [← Sent.foldl, Machine.extendMeas, ← Sent.applyMode]

theorem Sent.boundaryEffects (n : Nat) (commit : Bool) : Sent e (boundaryEffects n commit s) := by
  unfold Machine.boundaryEffects
  grind [← Sent.foldl, Machine.installStones, Machine.extendMeas, ← Sent.applyModes, Machine.installExport, ← Sent.retireAt]

theorem Sent.finishStep (n : Nat) (commit : Bool) : Sent e (finishStep n commit s) := by
  unfold Machine.finishStep
  grind [← Sent.boundaryEffects]

theorem Sent.installRoot (n : Nat) (b : BlockSolve) : Sent e (installRoot n b s) := by
  unfold Machine.installRoot
  grind [← Sent.touchCells, Machine.writeCells]

theorem Sent.closeSeedbed (n : Nat) : Sent e (closeSeedbed n s) := by
  unfold Machine.closeSeedbed
  grind [← Sent.foldl, ← Sent.flipFresh, ← Sent.sheafTrigger, ← Sent.offerCandidate]

theorem Sent.followPin (p : Nat) : Sent e (followPin s p) := by
  unfold Machine.followPin
  grind [Machine.selectMove]

theorem Sent.applyCommit (v : VoteMsg) : Sent e (applyCommit v s) := by
  unfold Machine.applyCommit
  extract_lets n s₁ k record _ _ _ _ s₂ pages s₃ s₄ s₅ s₆ _ s₇ s₈ s₉ _ s₁₀ s₁₁ s₁₂
  split
  · exact h
  · have h₃ : Sent e s₃ := Sent.foldl (s := s₂) h (fun _ p ht => Sent.finishMove ht p) pages
    have h₅ : Sent e s₅ := Sent.foldl (s := s₄) h₃ (fun _ p ht => Sent.followPin ht p) pages
    have h₆ : Sent e s₆ := Sent.foldl h₅ (fun _ b ht => Sent.installRoot ht n b) _
    have h₉ : Sent e s₉ := Sent.closeSeedbed (s := s₈) h₆ n
    have h₁₁ : Sent e s₁₁ := Sent.rotationSelect (s := Machine.decayHeat s₁₀) h₉
    exact Sent.traceProgress h₁₁ _

theorem Sent.releasePending (n : Nat) : Sent e (releasePending n s) := by
  unfold Machine.releasePending
  grind [← Sent.foldl, Machine.layCells, ← Sent.touchCells]

theorem Sent.discardFrom (n : Nat) : Sent e (discardFrom n s) := by
  unfold Machine.discardFrom
  grind [← Sent.discardRuns]

theorem Sent.applySkip (v : VoteMsg) : Sent e (applySkip v s) := by
  unfold Machine.applySkip
  extract_lets n s₁ s₂ s₃ s₄ _ _ s₅ s₆ s₇
  have h₁ : Sent e s₁ := Sent.refuseReads (s := Machine.keepVote v s) h
  have h₂ : Sent e s₂ := Sent.discardFrom h₁ n
  have h₄ : Sent e s₄ := Sent.releasePending (s := { s₃ with mem := dropLayers (skipLayers n) s₃.mem }) h₂ n
  have h₆ : Sent e s₆ := Sent.raise (s := s₅) h₄ ..
  clear_value s₆
  have h₇ : Sent e s₇ := Sent.finishStep (Sent.queueReport (Sent.sow h₆) ..) ..
  clear_value s₇
  exact Sent.acknowledge (s := Machine.openVote (n + 1) 0 s₇) h₇ ..

theorem Sent.applyRetry (v : VoteMsg) : Sent e (applyRetry v s) := by
  unfold Machine.applyRetry
  grind [Machine.keepVote, ← Sent.refuseReads, ← Sent.reformLost, ← Sent.orderStop, ← Sent.queueReport, ← Sent.raise]

theorem Sent.applyOutcome (v : VoteMsg) : Sent e (applyOutcome v s) := by
  unfold Machine.applyOutcome
  grind [← Sent.applySkip, ← Sent.applyRetry, ← Sent.applyCommit, ← Sent.traceCommit]

theorem Sent.takeDecision (v : VoteMsg) : Sent e (takeDecision v s) := by
  unfold Machine.takeDecision
  grind [Machine.keepVote, ← Sent.applyOutcome, ← Sent.sendHedge]

theorem Sent.reduceVote : Sent e (reduceVote s) := by
  unfold Machine.reduceVote
  grind [← Sent.takeDecision, ← Sent.hostWrite]

theorem Sent.takeContribution (m : ModId) (step : Nat) (w : VoteWord) : Sent e (takeContribution m step w s) := by
  unfold Machine.takeContribution
  grind [← Sent.reduceVote, Machine.passReduced, ← Sent.sendHedge]

theorem Sent.contribute (n : Nat) : Sent e (contribute n s) := by
  unfold Machine.contribute
  grind [← Sent.takeContribution, ← Sent.traceCommit, ← Sent.sendHedge]

theorem Sent.lateFindings : Sent e (lateFindings s) := by
  unfold Machine.lateFindings
  grind [← Sent.contribute]

theorem Sent.discardPartial (first : Nat) : Sent e (discardPartial first s) := by
  unfold Machine.discardPartial
  grind [← Sent.discardFrom, Machine.forgetRuns, ← Sent.discardRuns, Machine.restoreSeqs, Machine.mapGroups]

theorem Sent.endRoll (first : Nat) : Sent e (endRoll first s) := by
  unfold Machine.endRoll
  grind [← Sent.createStep, ← Sent.sow, Machine.rearmStones, Machine.openVote, ← Sent.acknowledge, ← Sent.discardPartial]

theorem Sent.rollBack (first : Nat) : Sent e (rollBack first s) := by
  unfold Machine.rollBack
  extract_lets _ s₁ s₂
  have h₁ : Sent e s₁ := h
  clear_value s₁
  have h₂ : Sent e s₂ := by
    unfold s₂
    split
    · exact Sent.applyCommit h₁ _
    · exact h₁
  clear_value s₂
  split
  · exact Sent.markGates h₂
  · exact Sent.endRoll h₂ first

theorem Sent.continueRoll : Sent e (continueRoll s) := by
  unfold Machine.continueRoll
  grind [← Sent.endRoll]

theorem Sent.applyResume (first : Nat) : Sent e (applyResume first s) := by
  unfold Machine.applyResume
  grind [Machine.releaseCut, ← Sent.rollBack]

end

end Sys2Proof.Proofs
end

section
/-!
PROOFS. A hedge message sent stays sent: the descriptors and the order point, and so what follows every change of state.
-/
namespace Sys2Proof.Proofs

open Sys2Proof Sys2Proof.Machine Sys2Proof.Laws

section

variable {e : ModId × Hedge} {s : State} (h : Sent e s)
include h

/-! ### Samples and results -/

theorem Sent.toSink (host : Bool) (addr : Nat) (bs : Bytes) : Sent e (toSink host addr bs s) := by
  unfold Machine.toSink
  grind [Machine.writeNow, ← Sent.writePoison, ← Sent.touch, Machine.masterWrite, ← Sent.hostWrite, ← Sent.sendTransfer]

theorem Sent.toSamples (off : Nat) (bs : Bytes) : Sent e (toSamples off bs s) := by
  unfold Machine.toSamples
  grind [Machine.masterWrite, ← Sent.hostWrite]

theorem Sent.writeSample (bs : Bytes) : Sent e (writeSample bs s) := by
  unfold Machine.writeSample
  grind [← Sent.toSamples, Machine.sampleControl, Machine.wrapEvent, ← Sent.raise]

theorem Sent.takeCounterRecord : Sent e (takeCounterRecord s) := by
  unfold Machine.takeCounterRecord
  grind [← Sent.writeSample]

theorem Sent.configureCounters (b : Bytes) : Sent e (configureCounters b s) := by
  unfold Machine.configureCounters
  grind [Machine.sampleControl, ← Sent.toSamples, ← Sent.takeCounterRecord]

theorem Sent.resultAt (ms : List ModId) (d : Desc) (bs : Bytes) : Sent e (resultAt ms d bs s) := by
  unfold Machine.resultAt
  grind [Machine.masterWrite, ← Sent.hostWrite]

theorem Sent.applyCounters (ms : List ModId) (d : Desc) (b : Bytes) : Sent e (applyCounters ms d b s) := by
  unfold Machine.applyCounters
  grind [← Sent.foldl, Machine.clearCounters, ← Sent.configureCounters, ← Sent.resultAt]

theorem Sent.applyTrace (ms : List ModId) (d : Desc) (b : Bytes) : Sent e (applyTrace ms d b s) := by
  unfold Machine.applyTrace
  grind [Machine.configureSheaf, Machine.armSheaf, ← Sent.resultAt]

/-! ### Descriptors -/

theorem Sent.toTargets (ms : List ModId) (op : DescOp) (d : Desc) (status detail : Nat) :
    Sent e (toTargets ms op d status detail s).1 := by
  unfold Machine.toTargets
  grind [← Sent.foldl, ← Sent.sendHedge]

omit h in
theorem Sent.spreadIf {x : State × Result} (hx : Sent e x.1) (op : DescOp) (d : Desc) :
    Sent e (spreadIf op d x).1 := by
  unfold Machine.spreadIf
  grind [Machine.spread, ← Sent.sendHedge]

theorem Sent.runGraphSubmit (d : Desc) : Sent e (runGraphSubmit d s).1 := by
  unfold Machine.runGraphSubmit
  grind [← Sent.spreadIf, Machine.refuse, ← Sent.submitGraph]

theorem Sent.runGraphRetire (d : Desc) : Sent e (runGraphRetire d s).1 := by
  unfold Machine.runGraphRetire
  grind [Machine.accept, Machine.spread, ← Sent.sendHedge, Machine.retireSegment, Machine.refuse]

theorem Sent.defineTensor (i group : Nat) (t : TensorRec) : Sent e (defineTensor i group t s) := by
  unfold Machine.defineTensor
  grind [← Sent.pinTensor]

theorem Sent.runTensorDefine (d : Desc) : Sent e (runTensorDefine d s).1 := by
  unfold Machine.runTensorDefine
  grind [← Sent.defineTensor, Machine.spread, ← Sent.sendHedge, Machine.refuse]

theorem Sent.runTensorRelease (d : Desc) : Sent e (runTensorRelease d s).1 := by
  unfold Machine.runTensorRelease
  grind [Machine.spread, ← Sent.sendHedge, Machine.releaseTensor, Machine.refuse]

theorem Sent.runFurrowAdvance (d : Desc) : Sent e (runFurrowAdvance d s).1 := by
  unfold Machine.runFurrowAdvance
  grind [Machine.raiseLimit, Machine.spread, ← Sent.sendHedge, Machine.refuse]

theorem Sent.runStop (kind holding : Nat) (d : Desc) : Sent e (runStop kind holding d s).1 := by
  unfold Machine.runStop
  grind [Machine.accept, ← Sent.orderStop, Machine.refuse]

theorem Sent.orderRollBack (d : Desc) : Sent e (orderRollBack d s) := by
  unfold Machine.orderRollBack
  grind [← Sent.applyResume, ← Sent.sendHedge]

theorem Sent.runResume (d : Desc) : Sent e (runResume d s).1 := by
  unfold Machine.runResume
  grind [← Sent.orderRollBack, Machine.releaseCut, Machine.spread, ← Sent.sendHedge, Machine.refuse]

theorem Sent.runModeSet (d : Desc) : Sent e (runModeSet d s).1 := by
  unfold Machine.runModeSet
  grind [Machine.setMode, Machine.spread, ← Sent.sendHedge, Machine.refuse]

theorem Sent.runVoteSupply (d : Desc) : Sent e (runVoteSupply d s).1 := by
  unfold Machine.runVoteSupply
  grind [← Sent.takeDecision, Machine.refuse]

theorem Sent.beginRun (lead : ModId) (d : Desc) : Sent e (beginRun lead d s) := by
  unfold Machine.beginRun
  grind [← Sent.createStep, ← Sent.sow, ← Sent.lockRegisters, Machine.openVote, Machine.keepReplay]

theorem Sent.takeBegin (holding : Nat) (d : Desc) : Sent e (takeBegin holding d s) := by
  unfold Machine.takeBegin
  grind [← Sent.finishJobs, Machine.spread, ← Sent.sendHedge, ← Sent.beginRun]

theorem Sent.runRunBegin (d : Desc) : Sent e (runRunBegin d s).1 := by
  unfold Machine.runRunBegin
  grind [Machine.accept, Machine.spread, ← Sent.sendHedge, Machine.refuse, ← Sent.beginRun]

theorem Sent.defineGroup (b : Bytes) (epoch : Nat) : Sent e (defineGroup b epoch s).1 := by
  unfold Machine.defineGroup
  grind [← Sent.spreadGroup, ← Sent.reportReformed]

theorem Sent.runGroupDefine (d : Desc) : Sent e (runGroupDefine d s).1 := by
  unfold Machine.runGroupDefine
  grind [← Sent.defineGroup, Machine.refuse]

theorem Sent.runGroupReform (d : Desc) : Sent e (runGroupReform d s).1 := by
  unfold Machine.runGroupReform
  grind [← Sent.foldl, ← Sent.defineGroup, ← Sent.raise, Machine.refuse]

theorem Sent.beginCopyIn (reply : Option ModId) (m : ModId) (off : Nat) (d : Desc) :
    Sent e (beginCopyIn reply m off d s) := by
  unfold Machine.beginCopyIn
  grind [Machine.awaitCopy, ← Sent.sendHedge]

theorem Sent.runCopyIn (d : Desc) : Sent e (runCopyIn d s).1 := by
  unfold Machine.runCopyIn
  split
  · exact h
  · exact h
  · split
    · exact h
    · split
      · exact h.toTargets ..
      · exact h.beginCopyIn ..

theorem Sent.readRemote (m : ModId) (off len : Nat) : Sent e (readRemote m off len s).2 :=
  foldl_inv (p := fun x : List W16 × State => Sent e x.2) (fun _ _ hx => hx.issue ..) _ h

theorem Sent.copyToHost (d : Desc) (off : Nat) : Sent e (copyToHost d off s) := by
  unfold Machine.copyToHost
  grind [← Sent.foldl, ← Sent.touch, ← Sent.hostWrite]

theorem Sent.runCopyOut (d : Desc) : Sent e (runCopyOut d s).1 := by
  unfold Machine.runCopyOut
  grind [← Sent.readRemote, ← Sent.copyToHost, ← Sent.toTargets, Machine.refuse]

theorem Sent.serveCopyOut (j : Job) : Sent e (serveCopyOut j s) := by
  unfold Machine.serveCopyOut
  grind [← Sent.readRemote, ← Sent.copyToHost, ← Sent.finishJobs]

theorem Sent.serveCopyOuts : Sent e (serveCopyOuts s) := by
  unfold Machine.serveCopyOuts
  grind [← Sent.foldl, ← Sent.serveCopyOut]

theorem Sent.onTargets {x : State × Nat × Nat} (hx : Sent e x.1) (op : DescOp) (ms : List ModId) (d : Desc) :
    Sent e (onTargets op ms d x s).1 := by
  unfold Machine.onTargets
  split
  · split
    · exact h
    · exact hx.toTargets ..
  · exact h.toTargets ..

theorem Sent.applyExport (ms : List ModId) (d : Desc) (b : Bytes) : Sent e (applyExport ms d b s).1 := by
  unfold Machine.applyExport
  grind [Machine.installExport, Machine.acknowledged, ← Sent.resultAt]

theorem Sent.runExport (d : Desc) : Sent e (runExport d s).1 := by
  unfold Machine.runExport
  grind [← Sent.applyExport, ← Sent.onTargets, Machine.refuse]

theorem Sent.applyInject (ms : List ModId) (d : Desc) (b : Bytes) : Sent e (applyInject ms d b s).1 := by
  unfold Machine.applyInject
  grind [← Sent.foldl, Machine.installStones, Machine.extendMeas, ← Sent.resultAt]

theorem Sent.runInject (d : Desc) : Sent e (runInject d s).1 := by
  unfold Machine.runInject
  grind [← Sent.onTargets, ← Sent.applyInject, Machine.refuse]

theorem Sent.runCounters (d : Desc) : Sent e (runCounters d s).1 := by
  unfold Machine.runCounters
  grind [← Sent.applyCounters, ← Sent.onTargets, Machine.refuse]

theorem Sent.runTrace (d : Desc) : Sent e (runTrace d s).1 := by
  unfold Machine.runTrace
  grind [← Sent.applyTrace, ← Sent.onTargets, Machine.refuse]

theorem Sent.runAttest (d : Desc) : Sent e (runAttest d s).1 := by
  unfold Machine.runAttest
  grind [← Sent.onTargets, Machine.applyAttest, ← Sent.resultAt, Machine.refuse]

theorem Sent.runSnapshot (d : Desc) : Sent e (runSnapshot d s).1 := by
  unfold Machine.runSnapshot
  grind [Machine.accept, ← Sent.toSink, Machine.refuse]

theorem Sent.applySupply (d : Desc) : Sent e (applySupply d s).1 := by
  unfold Machine.applySupply
  dsimp only
  split
  · exact h
  · split
    · exact h
    · split <;> exact h
    · exact h

theorem Sent.runRootSupply (d : Desc) : Sent e (runRootSupply d s).1 := by
  unfold Machine.runRootSupply
  grind [← Sent.applySupply, ← Sent.toTargets, Machine.refuse]

theorem Sent.hintPage (p : Nat) : Sent e (hintPage p s) := by
  unfold Machine.hintPage
  grind [Machine.setPage]

theorem Sent.applyPin (d : Desc) : Sent e (applyPin d s).1 := by
  unfold Machine.applyPin
  extract_lets ps tier far hint away moving s₁
  have hunpinned := Sent.foldl h (g := fun s p => setPage p { pageOf s p with pin := 0 } s) (fun _ _ ht => ht) ps
  have hpin : ∀ t p, Sent e t → Sent e (if hint = true then Machine.hintPage p t else Machine.pinPage far p t) := fun t p ht => by
    split
    · exact Sent.hintPage ht p
    · exact Sent.pinPage ht far p
  have h₁ : Sent e s₁ := Sent.foldl h hpin ps
  clear_value s₁
  repeat' split
  any_goals exact h
  any_goals exact h₁
  exact hunpinned

theorem Sent.runPlacementPin (d : Desc) : Sent e (runPlacementPin d s).1 := by
  unfold Machine.runPlacementPin
  grind [← Sent.applyPin, ← Sent.toTargets, Machine.refuse]

theorem Sent.finishPins : Sent e (finishPins s) := by
  unfold Machine.finishPins
  grind [← Sent.foldl, ← Sent.finishJobs]

theorem Sent.runDesc (kind holding : Nat) (op : DescOp) (d : Desc) : Sent e (runDesc kind holding op d s).1 := by
  unfold Machine.runDesc
  split
  · exact h
  · cases op with
    | graphSubmit => exact h.runGraphSubmit d
    | graphRetire => exact h.runGraphRetire d
    | tensorDefine => exact h.runTensorDefine d
    | tensorRelease => exact h.runTensorRelease d
    | furrowAdvance => exact h.runFurrowAdvance d
    | runBegin => exact h.runRunBegin d
    | groupDefine => exact h.runGroupDefine d
    | groupReform => exact h.runGroupReform d
    | copyIn => exact h.runCopyIn d
    | copyOut => exact h.runCopyOut d
    | exportConfigure => exact h.runExport d
    | snapshot => exact h.runSnapshot d
    | stop => exact h.runStop kind holding d
    | resume => exact h.runResume d
    | modeSet => exact h.runModeSet d
    | rootSupply => exact h.runRootSupply d
    | voteSupply => exact h.runVoteSupply d
    | placementPin => exact h.runPlacementPin d
    | counterConfigure => exact h.runCounters d
    | traceConfigure => exact h.runTrace d
    | injectConfigure => exact h.runInject d
    | attest => exact h.runAttest d
    | fence =>
      dsimp only
      split <;> exact h
    | unknown n => exact h

/-! ### The order point -/

theorem Sent.fetchAll : Sent e (fetchAll s) := by
  unfold Machine.fetchAll
  grind [← Sent.foldl, Machine.fetchNext, Machine.hostRead, Machine.setSub]

theorem Sent.issueWide (op : DescOp) (d : Desc) : Sent e (issueWide op d s) := by
  unfold Machine.issueWide
  grind [Machine.startJob, Machine.setSub, ← Sent.sendHedge, ← Sent.record, ← Sent.runDesc, Machine.refuse]

theorem Sent.executeOne (n : Nat) (op : DescOp) (d : Desc) : Sent e (executeOne n op d s) := by
  unfold Machine.executeOne
  grind [← Sent.takeBegin, Machine.setSub, ← Sent.trace, ← Sent.record, ← Sent.issueWide, ← Sent.runDesc]

theorem Sent.drainRings (n : Nat) : Sent e (drainRings n s) := by
  induction n generalizing s with
  | zero => exact h
  | succ n ih =>
    unfold Machine.drainRings
    split
    · exact h
    · exact ih (h.executeOne ..)

theorem Sent.drain : Sent e (drain s) := by
  unfold Machine.drain
  split
  · exact Sent.fetchAll (h.finishPins.serveCopyOuts.drainRings _)
  · exact h.finishPins

theorem Sent.stampEligible : Sent e (stampEligible s) := h

theorem Sent.settleSuccession : Sent e (settleSuccession s) := by
  unfold Machine.settleSuccession
  grind [← Sent.takeDecision]

/-- What follows a change of state takes back no hedge message. -/
theorem Sent.advance : Sent e (advance s) :=
  h.answerUnreached.lateFindings.settleSuccession.continueRoll.settle.drain.settle.stampEligible

end

end Sys2Proof.Proofs
end

section
/-!
PROOFS. The vote at a lead master whose rollback waits for commit work (02 R42, 09 R175, R178): it takes the last contribution of
the open step and decides nothing.
-/
namespace Sys2Proof.Proofs

open Sys2Proof Sys2Proof.Machine Sys2Proof.Laws

theorem exec_voteContribution (m : ModId) (n : Nat) (w : VoteWord) (s : State) :
    exec (.voteContribution m n w) s = .next (advance (takeContribution m n w (traceReceive m 0x08 s))) := rfl

/-! ### Operations with nothing to do -/

theorem answerUnreached_of_none {s : State} (h : s.lamio.unreached = []) : answerUnreached s = s := by
  unfold answerUnreached
  cases s.lamio.unreached.length + s.lamio.txns.length with
  | zero => rfl
  | succ n => simp [answerUnreachedN, h]

theorem lateFindings_of_not_moving {s : State} (h : s.moving = false) : lateFindings s = s := by
  unfold lateFindings
  split <;> simp [h]

theorem settleSuccession_of_none {s : State} (h : s.run.succession = none) : settleSuccession s = s := by
  simp [settleSuccession, h]

theorem continueRoll_of_workLeft {s : State} {first : Nat} (h : s.run.rollTo = some first)
    (hw : commitWorkLeft first s = true) : continueRoll s = s := by
  simp [continueRoll, h, hw]

theorem settle_of_not_moving {s : State} (h : s.moving = false) (hb : s.run.seedbedHead = none) : settle s = s := by
  have hopen : openSeedbed s = s := by simp [openSeedbed, h]
  have hround : advanceHead (reportFront (advanceSeedbed s)) = s := by
    simp [advanceSeedbed, hb, reportFront, advanceHead, h]
  have hrounds : ∀ n, settleHead n s = s := fun n => by
    induction n with
    | zero => rfl
    | succ n ih => rw [settleHead, hround, ih]
  rw [settle, hopen, hrounds]

theorem drain_of_empty {s : State} (hjobs : s.run.jobs = []) (hsub : s.host.sub = []) : drain s = s := by
  simp [drain, finishPins, serveCopyOuts, hjobs, waitingCount, hsub, drainRings, fetchAll]

theorem stampEligible_of_no_runs {s : State} (h : s.sched.tasks = []) : stampEligible s = s := by
  simp only [stampEligible, h, List.map_nil]
  rw [← h]

/-- While the run does not move, a complete reduction is not decided. -/
theorem reduceVote_of_not_moving {s : State} (h : s.moving = false) : reduceVote s = s := by
  unfold reduceVote
  split <;> simp [h]

/-! ### A rollback that waits -/

/-- A module whose rollback waits for commit work, with nothing else under way. -/
structure RollWaits (s : State) : Prop where
  unreached  : s.lamio.unreached = []
  succession : s.run.succession = none
  roll       : ∃ first, s.run.rollTo = some first ∧ commitWorkLeft first s = true
  seedbed    : s.run.seedbedHead = none
  jobs       : s.run.jobs = []
  rings      : s.host.sub = []
  runs       : s.sched.tasks = []

theorem RollWaits.not_moving {s : State} (h : RollWaits s) : s.moving = false := by
  obtain ⟨first, hroll, -⟩ := h.roll
  simp [State.moving, hroll]

theorem RollWaits.advance {s : State} (h : RollWaits s) : advance s = s := by
  obtain ⟨first, hroll, hwork⟩ := h.roll
  have hsettle := settle_of_not_moving h.not_moving h.seedbed
  rw [Machine.advance, answerUnreached_of_none h.unreached, lateFindings_of_not_moving h.not_moving,
    settleSuccession_of_none h.succession, continueRoll_of_workLeft hroll hwork, hsettle,
    drain_of_empty h.jobs h.rings, hsettle, stampEligible_of_no_runs h.runs]

/-! ### The lead master in it -/

/-- The lead master of a run, alone, at the start of a rollback to step 1: the commit work of step 0 is not over on it, so the
rollback waits. Its halt is `running` and the vote of step 1 is open, but the run does not move. -/
def waitingLead : State :=
  { State.reset with
    startup.ready := true, startup.phase := 7
    power.linkUp := true
    holding.moduleId := 0, holding.isMaster := true, holding.state := 2, holding.members := 1
    run.isOn := true, run.created := some 1, run.lastCommit := some 0, run.rollTo := some 1
    votes.openStep := some 1
    votes.commits := [{
      step := 0, entries := 0, flipped := 0, foldDone := true, queuesDone := true, rootsDone := true
      recordsDone := false, fingerprintDone := false, reported := false, timestamp := 0 }] }

/-- The word of that module for step 1: no finding. -/
def quietWord : VoteWord := ⟨0, 1, []⟩

/-- That module once its own word is in, the last of the step. -/
def votedLead : State := { waitingLead with votes.received := [(0, quietWord)] }

theorem votedLead_complete : reductionComplete votedLead = true := rfl

/-- The word is kept and the rollback goes on waiting: nothing is sent. -/
theorem waitingLead_takes : ∃ t, exec (.voteContribution 0 1 quietWord) waitingLead = .next t ∧ t.out.hedge = [] := by
  rw [exec_voteContribution, traceReceive_eq]
  generalize (traceReceive 0 0x08 waitingLead).sheaf = traced
  have waits : RollWaits { votedLead with holding.lastHedge := 0, sheaf := traced } :=
    ⟨rfl, rfl, ⟨1, rfl, rfl⟩, rfl, rfl, rfl, rfl⟩
  have htake : takeContribution 0 1 quietWord { waitingLead with holding.lastHedge := 0, sheaf := traced } =
      reduceVote { votedLead with holding.lastHedge := 0, sheaf := traced } := rfl
  refine ⟨{ votedLead with holding.lastHedge := 0, sheaf := traced }, congrArg _ ?_, rfl⟩
  calc _ = advance (reduceVote { votedLead with holding.lastHedge := 0, sheaf := traced }) := congrArg advance htake
    _ = advance { votedLead with holding.lastHedge := 0, sheaf := traced } := by
      rw [reduceVote_of_not_moving waits.not_moving]
    _ = _ := waits.advance

/-- In no state from which `advance` leads to that answer has a hedge message been sent, since none is taken back. -/
theorem waitingLead_sends_nothing {u : State} (h : exec (.voteContribution 0 1 quietWord) waitingLead = .next (advance u))
    (e : ModId × Hedge) : e ∉ u.out.hedge := by
  obtain ⟨t, ht, hsilent⟩ := waitingLead_takes
  have hu : advance u = t := Host.Outcome.next.inj (h.symm.trans ht)
  intro he
  have hkept : e ∈ (advance u).out.hedge := Sent.advance he
  rw [hu, hsilent] at hkept
  exact List.not_mem_nil hkept

/-- Refutes O41: its clause on hardware vote mode asks for the broadcast of the decision whenever the reduction is complete and the
halt is `running`; a lead master whose rollback waits for commit work does not move, and neither decides nor sends. -/
theorem not_voteRows : ¬ Obligations.VoteRows := by
  unfold Obligations.VoteRows
  intro h
  obtain ⟨words, -⟩ := h waitingLead
  obtain ⟨-, hardware, -⟩ := words 0 1 quietWord rfl rfl rfl rfl
  obtain ⟨u, hexec, -, hsent⟩ := hardware rfl votedLead_complete rfl rfl
  exact waitingLead_sends_nothing hexec _ hsent

/-- Refutes O42: the same lead master broadcasts no outcome when the last word of the step is in. -/
theorem not_voteOutcomeTable : ¬ Obligations.VoteOutcomeTable := by
  unfold Obligations.VoteOutcomeTable
  intro h
  obtain ⟨u, v, hexec, hsent, -⟩ := h waitingLead 0 1 quietWord rfl rfl rfl rfl rfl rfl votedLead_complete
  exact waitingLead_sends_nothing hexec _ (List.mem_of_mem_drop hsent)

end Sys2Proof.Proofs
end

section
/-!
PROOFS. Every command keeps what `Keeps` names: the queue, the memory's canonical form, and of the flash the keys, the retired
frames and the rollback counters (11 R219, R220, 18 R374, R377, R379).
-/
namespace Sys2Proof.Proofs

open Sys2Proof Sys2Proof.Machine Sys2Proof.Laws

theorem exec_keeps {c : Instr} {s t : State} (h : exec c s = .next t) : Keeps s t := by
  cases c with
  | graphSubmit => exact execGraphSubmit_keeps (.refl s) h
  | graphRetire => exact execGraphRetire_keeps (.refl s) h
  | tensorDefine => exact execTensorDefine_keeps (.refl s) h
  | tensorRelease => exact execTensorRelease_keeps (.refl s) h
  | furrowAdvance => exact execFurrowAdvance_keeps (.refl s) h
  | runBegin => exact execRunBegin_keeps (.refl s) h
  | groupDefine => exact execGroupDefine_keeps (.refl s) h
  | groupReform => exact execGroupReform_keeps (.refl s) h
  | copyIn => exact execCopyIn_keeps (.refl s) h
  | copyOut => exact execCopyOut_keeps (.refl s) h
  | exportConfig => exact execExportConfig_keeps (.refl s) h
  | exportAcknowledge => exact execExportAcknowledge_keeps (.refl s) h
  | exportChainBase => exact execExportChainBase_keeps (.refl s) h
  | exportReplayImport => exact execExportReplayImport_keeps (.refl s) h
  | snapshot => exact execSnapshot_keeps (.refl s) h
  | stopScheduled => exact execStopScheduled_keeps (.refl s) h
  | stopImmediate => exact execStopImmediate_keeps (.refl s) h
  | resume => exact execResume_keeps (.refl s) h
  | modeSet => exact execModeSet_keeps (.refl s) h
  | rootSupply => exact execRootSupply_keeps (.refl s) h
  | voteSupply => exact execVoteSupply_keeps (.refl s) h
  | placementPin => exact execPlacementPin_keeps (.refl s) h
  | counterConfig => exact execCounterConfig_keeps (.refl s) h
  | counterReadNow => exact execCounterReadNow_keeps (.refl s) h
  | counterClear => exact execCounterClear_keeps (.refl s) h
  | counterStatus => exact execCounterStatus_keeps (.refl s) h
  | traceConfigArm => exact execTraceConfigArm_keeps (.refl s) h
  | traceRearm => exact execTraceRearm_keeps (.refl s) h
  | traceDisable => exact execTraceDisable_keeps (.refl s) h
  | traceStatus => exact execTraceStatus_keeps (.refl s) h
  | injectConfigure => exact execInjectConfigure_keeps (.refl s) h
  | getIdentity => exact execGetIdentity_keeps (.refl s) h
  | challenge => exact execChallenge_keeps (.refl s) h
  | fence => exact execFence_keeps (.refl s) h
  | nudge => exact execNudge_keeps (.refl s) h
  | nudgeAll => exact execNudgeAll_keeps (.refl s) h
  | ringEnable => exact execRingEnable_keeps (.refl s) h
  | ringResume => exact execRingResume_keeps (.refl s) h
  | discover => exact execDiscover_keeps (.refl s) h
  | holdingReset => exact execHoldingReset_keeps (.refl s) h
  | timeOffset => exact execTimeOffset_keeps (.refl s) h
  | timeRate => exact execTimeRate_keeps (.refl s) h
  | trapArmed => exact execTrapArmed_keeps (.refl s) h
  | nonceRequest => exact execNonceRequest_keeps (.refl s) h
  | requestGo => exact execRequestGo_keeps (.refl s) h
  | powerControl => exact execPowerControl_keeps (.refl s) h
  | registerWrite => exact execRegisterWrite_keeps (.refl s) h
  | bar4Load => exact execBar4Load_keeps (.refl s) h
  | bar4Store => exact execBar4Store_keeps (.refl s) h
  | getStatus => exact execGetStatus_keeps (.refl s) h
  | setPowerCap => exact execSetPowerCap_keeps (.refl s) h
  | mgmtStop => exact execMgmtStop_keeps (.refl s) h
  | mgmtHoldingReset => exact execMgmtHoldingReset_keeps (.refl s) h
  | moduleReset => exact execModuleReset_keeps (.refl s) h
  | powerOff => exact execPowerOff_keeps (.refl s) h
  | powerOn => exact execPowerOn_keeps (.refl s) h
  | getNonce => exact execGetNonce_keeps (.refl s) h
  | securityRequest => exact execSecurityRequest_keeps (.refl s) h
  | recoveryImageLoad => exact execRecoveryImageLoad_keeps (.refl s) h
  | pwrEnAssert => exact execPwrEnAssert_keeps (.refl s) h
  | pwrEnDeassert => exact execPwrEnDeassert_keeps (.refl s) h
  | inputUndervoltage => exact execInputUndervoltage_keeps (.refl s) h
  | inputOvervoltage => exact execInputOvervoltage_keeps (.refl s) h
  | modResetN => exact execModResetN_keeps (.refl s) h
  | perstN => exact execPerstN_keeps (.refl s) h
  | functionLevelReset => exact execFunctionLevelReset_keeps (.refl s) h
  | hostLinkDown => exact execHostLinkDown_keeps (.refl s) h
  | masterSel => exact execMasterSel_keeps (.refl s) h
  | bootRom => exact execBootRom_keeps (.refl s) h
  | firmwareVerify => exact execFirmwareVerify_keeps (.refl s) h
  | pufRegenerate => exact execPufRegenerate_keeps (.refl s) h
  | hbmTraining => exact execHbmTraining_keeps (.refl s) h
  | lpddrTraining => exact execLpddrTraining_keeps (.refl s) h
  | builtInSelfTest => exact execBuiltInSelfTest_keeps (.refl s) h
  | lamioTraining => exact execLamioTraining_keeps (.refl s) h
  | powerSample => exact execPowerSample_keeps (.refl s) h
  | capStepRaise => exact execCapStepRaise_keeps (.refl s) h
  | capStepLower => exact execCapStepLower_keeps (.refl s) h
  | sensorRead readings => exact execSensorRead_keeps (a0 := readings) (.refl s) h
  | thermalStepRaise => exact execThermalStepRaise_keeps (.refl s) h
  | thermalStepLower => exact execThermalStepLower_keeps (.refl s) h
  | episodeEnd => exact execEpisodeEnd_keeps (.refl s) h
  | pollTick => exact execPollTick_keeps (.refl s) h
  | ringFetchRetry => exact execRingFetchRetry_keeps (.refl s) h
  | livenessTimeout => exact execLivenessTimeout_keeps (.refl s) h
  | orderHoldRelease => exact execOrderHoldRelease_keeps (.refl s) h
  | completionPost => exact execCompletionPost_keeps (.refl s) h
  | coalesceExpiry => exact execCoalesceExpiry_keeps (.refl s) h
  | stepReportPost => exact execStepReportPost_keeps (.refl s) h
  | flitReceive => exact execFlitReceive_keeps (.refl s) h
  | linkRetry => exact execLinkRetry_keeps (.refl s) h
  | linkRetrain => exact execLinkRetrain_keeps (.refl s) h
  | linkRetrainAttempt => exact execLinkRetrainAttempt_keeps (.refl s) h
  | readReq => exact execReadReq_keeps (.refl s) h
  | write => exact execWrite_keeps (.refl s) h
  | atomicAdd64 => exact execAtomicAdd64_keeps (.refl s) h
  | atomicAdd32 => exact execAtomicAdd32_keeps (.refl s) h
  | atomicSwap64 => exact execAtomicSwap64_keeps (.refl s) h
  | atomicCas64 => exact execAtomicCas64_keeps (.refl s) h
  | atomicOr64 => exact execAtomicOr64_keeps (.refl s) h
  | atomicAnd64 => exact execAtomicAnd64_keeps (.refl s) h
  | bulkReq => exact execBulkReq_keeps (.refl s) h
  | readResp => exact execReadResp_keeps (.refl s) h
  | writeAck => exact execWriteAck_keeps (.refl s) h
  | atomicResp => exact execAtomicResp_keeps (.refl s) h
  | bulkDone => exact execBulkDone_keeps (.refl s) h
  | collData => exact execCollData_keeps (.refl s) h
  | bulkData => exact execBulkData_keeps (.refl s) h
  | txnTimeout => exact execTxnTimeout_keeps (.refl s) h
  | furrowHead => exact execFurrowHead_keeps (.refl s) h
  | localFront => exact execLocalFront_keeps (.refl s) h
  | furrowStall => exact execFurrowStall_keeps (.refl s) h
  | timestampSync => exact execTimestampSync_keeps (.refl s) h
  | heartbeatTick => exact execHeartbeatTick_keeps (.refl s) h
  | heartbeat => exact execHeartbeat_keeps (.refl s) h
  | heartbeatLoss => exact execHeartbeatLoss_keeps (.refl s) h
  | hedgeMemberLost => exact execHedgeMemberLost_keeps (.refl s) h
  | hedgeEvent => exact execHedgeEvent_keeps (.refl s) h
  | voteTimeoutReport => exact execVoteTimeoutReport_keeps (.refl s) h
  | voteContribution => exact execVoteContribution_keeps (.refl s) h
  | voteOutcome => exact execVoteOutcome_keeps (.refl s) h
  | autoResume => exact execAutoResume_keeps (.refl s) h
  | voteTimeout => exact execVoteTimeout_keeps (.refl s) h
  | muster => exact execMuster_keeps (.refl s) h
  | goAhead => exact execGoAhead_keeps (.refl s) h
  | endOfDataNotice => exact execEndOfDataNotice_keeps (.refl s) h
  | missingRangeRequest => exact execMissingRangeRequest_keeps (.refl s) h
  | reservationRequest => exact execReservationRequest_keeps (.refl s) h
  | grant => exact execGrant_keeps (.refl s) h
  | takeBack => exact execTakeBack_keeps (.refl s) h
  | release => exact execRelease_keeps (.refl s) h
  | reservationTimeout => exact execReservationTimeout_keeps (.refl s) h
  | collTimeout => exact execCollTimeout_keeps (.refl s) h
  | groupDefinition => exact execGroupDefinition_keeps (.refl s) h
  | agreementAck => exact execAgreementAck_keeps (.refl s) h
  | hedgeTimeout => exact execHedgeTimeout_keeps (.refl s) h
  | orderForward => exact execOrderForward_keeps (.refl s) h
  | hedgeStop => exact execHedgeStop_keeps (.refl s) h
  | stopCutReached => exact execStopCutReached_keeps (.refl s) h
  | setupWrite => exact execSetupWrite_keeps (.refl s) h
  | discoveryOffer => exact execDiscoveryOffer_keeps (.refl s) h
  | discoveryAnswer => exact execDiscoveryAnswer_keeps (.refl s) h
  | discoveryTimeout => exact execDiscoveryTimeout_keeps (.refl s) h
  | discoveryReoffer => exact execDiscoveryReoffer_keeps (.refl s) h
  | taskAdmit => exact execTaskAdmit_keeps (.refl s) h
  | ageingTick => exact execAgeingTick_keeps (.refl s) h
  | tileComplete => exact execTileComplete_keeps (.refl s) h
  | trapDeliver => exact execTrapDeliver_keeps (.refl s) h
  | watchdogExpiry => exact execWatchdogExpiry_keeps (.refl s) h
  | coreSramError => exact execCoreSramError_keeps (.refl s) h
  | selfTestDone => exact execSelfTestDone_keeps (.refl s) h
  | harrowFault => exact execHarrowFault_keeps (.refl s) h
  | gleanerFailure => exact execGleanerFailure_keeps (.refl s) h
  | poisonedRead => exact execPoisonedRead_keeps (.refl s) h
  | memTimeout => exact execMemTimeout_keeps (.refl s) h
  | patrolScrub => exact execPatrolScrub_keeps (.refl s) h
  | migrationStart => exact execMigrationStart_keeps (.refl s) h
  | migrationSeal => exact execMigrationSeal_keeps (.refl s) h
  | migrationFlip => exact execMigrationFlip_keeps (.refl s) h
  | migrationSourceFree => exact execMigrationSourceFree_keeps (.refl s) h
  | gleanerAdd => exact execGleanerAdd_keeps (.refl s) h
  | solveHarrowAssign => exact execSolveHarrowAssign_keeps (.refl s) h
  | solveBoundary => exact execSolveBoundary_keeps (.refl s) h
  | solveAcceptance => exact execSolveAcceptance_keeps (.refl s) h
  | deadlineDecision => exact execDeadlineDecision_keeps (.refl s) h
  | workingPageAudit => exact execWorkingPageAudit_keeps (.refl s) h
  | matmul => exact execMatmul_keeps (.refl s) h
  | matmulStat => exact execMatmulStat_keeps (.refl s) h
  | attentionFwd => exact execAttentionFwd_keeps (.refl s) h
  | attentionBwd => exact execAttentionBwd_keeps (.refl s) h
  | vectorProgram => exact execVectorProgram_keeps (.refl s) h
  | norm => exact execNorm_keeps (.refl s) h
  | softmax => exact execSoftmax_keeps (.refl s) h
  | loss => exact execLoss_keeps (.refl s) h
  | gather => exact execGather_keeps (.refl s) h
  | scatter => exact execScatter_keeps (.refl s) h
  | preconditionApply => exact execPreconditionApply_keeps (.refl s) h
  | update => exact execUpdate_keeps (.refl s) h
  | solve => exact execSolve_keeps (.refl s) h
  | fold => exact execFold_keeps (.refl s) h
  | move => exact execMove_keeps (.refl s) h
  | exportRecord => exact execExportRecord_keeps (.refl s) h
  | fingerprint => exact execFingerprint_keeps (.refl s) h
  | evalReduce => exact execEvalReduce_keeps (.refl s) h
  | allReduce => exact execAllReduce_keeps (.refl s) h
  | reduceScatter => exact execReduceScatter_keeps (.refl s) h
  | allGather => exact execAllGather_keeps (.refl s) h
  | broadcast => exact execBroadcast_keeps (.refl s) h
  | allToAll => exact execAllToAll_keeps (.refl s) h
  | barrier => exact execBarrier_keeps (.refl s) h
  | collectiveVote => exact execCollectiveVote_keeps (.refl s) h
  | collectiveNorm => exact execCollectiveNorm_keeps (.refl s) h
  | vNop => exact execVNop_keeps (.refl s) h
  | vMov => exact execVMov_keeps (.refl s) h
  | vAdd => exact execVAdd_keeps (.refl s) h
  | vSub => exact execVSub_keeps (.refl s) h
  | vMul => exact execVMul_keeps (.refl s) h
  | vFma => exact execVFma_keeps (.refl s) h
  | vMin => exact execVMin_keeps (.refl s) h
  | vMax => exact execVMax_keeps (.refl s) h
  | vAbs => exact execVAbs_keeps (.refl s) h
  | vNeg => exact execVNeg_keeps (.refl s) h
  | vDiv => exact execVDiv_keeps (.refl s) h
  | vRcp => exact execVRcp_keeps (.refl s) h
  | vSqrt => exact execVSqrt_keeps (.refl s) h
  | vRsqrt => exact execVRsqrt_keeps (.refl s) h
  | vExp2 => exact execVExp2_keeps (.refl s) h
  | vLog2 => exact execVLog2_keeps (.refl s) h
  | vExp => exact execVExp_keeps (.refl s) h
  | vLog => exact execVLog_keeps (.refl s) h
  | vTanh => exact execVTanh_keeps (.refl s) h
  | vErf => exact execVErf_keeps (.refl s) h
  | vSigmoid => exact execVSigmoid_keeps (.refl s) h
  | vCmpeq => exact execVCmpeq_keeps (.refl s) h
  | vCmplt => exact execVCmplt_keeps (.refl s) h
  | vCmple => exact execVCmple_keeps (.refl s) h
  | vCmpgt => exact execVCmpgt_keeps (.refl s) h
  | vCmpge => exact execVCmpge_keeps (.refl s) h
  | vCmpun => exact execVCmpun_keeps (.refl s) h
  | vMand => exact execVMand_keeps (.refl s) h
  | vMor => exact execVMor_keeps (.refl s) h
  | vMandn => exact execVMandn_keeps (.refl s) h
  | vSel => exact execVSel_keeps (.refl s) h
  | vCompress => exact execVCompress_keeps (.refl s) h
  | vExpand => exact execVExpand_keeps (.refl s) h
  | vRedsum => exact execVRedsum_keeps (.refl s) h
  | vRedmax => exact execVRedmax_keeps (.refl s) h
  | vRedmin => exact execVRedmin_keeps (.refl s) h
  | vWacc => exact execVWacc_keeps (.refl s) h
  | vWsum => exact execVWsum_keeps (.refl s) h
  | vCvti => exact execVCvti_keeps (.refl s) h
  | vCvtf => exact execVCvtf_keeps (.refl s) h
  | vIadd => exact execVIadd_keeps (.refl s) h
  | vIand => exact execVIand_keeps (.refl s) h
  | vIxor => exact execVIxor_keeps (.refl s) h
  | vLaneidx => exact execVLaneidx_keeps (.refl s) h
  | vRandu => exact execVRandu_keeps (.refl s) h
  | vRandb => exact execVRandb_keeps (.refl s) h
  | vLoad => exact execVLoad_keeps (.refl s) h
  | vStore => exact execVStore_keeps (.refl s) h
  | exportAckPoll => exact execExportAckPoll_keeps (.refl s) h
  | exportResend => exact execExportResend_keeps (.refl s) h
  | evalBudgetExpiry => exact execEvalBudgetExpiry_keeps (.refl s) h
  | shardRestoration => exact execShardRestoration_keeps (.refl s) h
  | counterSample => exact execCounterSample_keeps (.refl s) h
  | pcSample => exact execPcSample_keeps (.refl s) h
  | sheafThresholdTest => exact execSheafThresholdTest_keeps (.refl s) h
  | sheafFreeze => exact execSheafFreeze_keeps (.refl s) h
  | inputPowerApplied => exact execInputPowerApplied_keeps (.refl s) h
  | aux3v3Applied => exact execAux3v3Applied_keeps (.refl s) h
  | aux3v3Removed => exact execAux3v3Removed_keeps (.refl s) h
  | thermTripNRelease => exact execThermTripNRelease_keeps (.refl s) h
  | hostLinkUp => exact execHostLinkUp_keeps (.refl s) h
  | holdingResetDone => exact execHoldingResetDone_keeps (.refl s) h
  | memoryControllerFailure far region => exact execMemoryControllerFailure_keeps (a0 := far) (.refl s) h
  | coreHalt => exact execCoreHalt_keeps (.refl s) h
  | coreResume => exact execCoreResume_keeps (.refl s) h
  | reorderHoldExpiry => exact execReorderHoldExpiry_keeps (.refl s) h
  | hostAccessCompletion => exact execHostAccessCompletion_keeps (.refl s) h
  | hostCompletionTimeout => exact execHostCompletionTimeout_keeps (.refl s) h
  | msixVectorUnmask => exact execMsixVectorUnmask_keeps (.refl s) h
  | factoryServiceWrite => exact execFactoryServiceWrite_keeps (.refl s) h

/-- A step on an empty queue writes neither memory nor flash. -/
theorem idle_keeps (s : State) : Keeps s (tick (answerSahith s)) := tick_keeps (answerSahith_keeps (.refl s))

/-- Whatever the command, a step leaves the memory canonical if it was, and the flash what it keeps; of the queue it takes the
front. -/
theorem step_keeps {s t : State} (h : step s = .next t) :
    t.pending = s.pending.tail ∧ (Safety.memoryCanonical s → Safety.memoryCanonical t) ∧ FlashKeeps s.flash t.flash := by
  unfold step at h
  split at h
  case h_1 hq =>
    obtain ⟨hp, hm, hf⟩ := idle_keeps s
    rw [← Host.Outcome.next.inj h]
    exact ⟨by rw [hp, hq]; rfl, hm, hf⟩
  case h_2 c rest hq =>
    obtain ⟨hp, hm, hf⟩ := exec_keeps h
    exact ⟨by rw [hp, hq]; rfl, hm, hf⟩

/-- Settles O4, by the invariant that every command keeps. -/
theorem stepKeepsMemoryCanonical : Obligations.StepKeepsMemoryCanonical := by
  unfold Obligations.StepKeepsMemoryCanonical
  intro s t hs h
  obtain ⟨-, hmem, -⟩ := step_keeps h
  exact hmem hs

/-- Settles O6, by the same invariant, in its part on the flash. -/
theorem flashKeepsRetirementsAndKeys : Obligations.FlashKeepsRetirementsAndKeys := by
  unfold Obligations.FlashKeepsRetirementsAndKeys
  intro s t h
  obtain ⟨-, -, hroot, hseed, hdie, hretired, -⟩ := step_keeps h
  exact ⟨hretired, hroot, hseed, hdie⟩

end Sys2Proof.Proofs
end

section
/-!
PROOFS. Loads and stores through the BAR4 window: a range cut at its lines, a store of one line in this module's memory, and
requests sent to another module (11 R224, 13 R267).
-/
namespace Sys2Proof.Proofs

open Sys2Proof Sys2Proof.Machine Sys2Proof.Safety Sys2Proof.Laws

theorem exec_bar4Load (offset len : Nat) (s : State) : exec (.bar4Load offset len) s = execBar4Load offset len s := rfl

theorem exec_bar4Store (offset : Nat) (data : Bytes) (s : State) :
    exec (.bar4Store offset data) s = execBar4Store offset data s := rfl

/-! ### The lines of a range -/

/-- The part of the range of `len` bytes at `o` that lies in line `l`. -/
def partIn (o len l : Nat) : Nat × Nat :=
  (max o (64 * l) - o, min (o + len) (64 * l + 64) - max o (64 * l))

theorem lineParts_eq (o len : Nat) : lineParts o len = (linesOf o len).map (partIn o len) := rfl

theorem mem_linesOf {o len l : Nat} (h : l ∈ linesOf o len) : o < 64 * l + 64 ∧ 64 * l < o + len := by
  unfold linesOf at h
  split at h
  · exact absurd h List.not_mem_nil
  · obtain ⟨i, hi, rfl⟩ := List.mem_map.1 h
    have := List.mem_range.1 hi
    omega

theorem linesOf_ascending (o len : Nat) : (linesOf o len).Pairwise (· < ·) := by
  unfold linesOf
  split
  · exact .nil
  · exact List.pairwise_lt_range.map _ fun a b h => by omega

theorem lineParts_within {o len : Nat} {x : Nat × Nat} (h : x ∈ lineParts o len) : x.1 + x.2 ≤ len := by
  obtain ⟨l, hl, rfl⟩ := List.mem_map.1 (lineParts_eq o len ▸ h)
  have := mem_linesOf hl
  simp only [partIn]
  omega

/-- The parts lie one after another. -/
theorem lineParts_ascending (o len : Nat) : (lineParts o len).Pairwise fun x y => x.1 + x.2 ≤ y.1 := by
  rw [lineParts_eq, List.pairwise_map]
  refine (linesOf_ascending o len).imp_of_mem fun {a b} ha hb h => ?_
  have := mem_linesOf ha
  have := mem_linesOf hb
  simp only [partIn]
  omega

/-! ### A store to this module's memory -/

/-- What a reader finds at a byte now. -/
abbrev seen (s : State) (r : Reader) (a : Nat) : Byte := readByte s.mem s.run.head r a

/-- From `s` to `t` memory and counters may have changed, but not where the reserved area lies. -/
structure Stores (s t : State) : Prop where
  rest     : { t with mem := s.mem, counters.values := s.counters.values } = s
  capacity : t.mem.capacity = s.mem.capacity
  reserved : t.mem.reservedNow = s.mem.reservedNow

theorem Stores.refl (s : State) : Stores s s := ⟨rfl, rfl, rfl⟩

theorem Stores.trans {s t u : State} (a : Stores s t) (b : Stores t u) : Stores s u := by
  refine ⟨?_, b.capacity.trans a.capacity, b.reserved.trans a.reserved⟩
  calc _ = { ({ u with mem := t.mem, counters.values := t.counters.values } : State) with
      mem := s.mem, counters.values := s.counters.values } := rfl
    _ = s := by rw [b.rest]; exact a.rest

theorem Stores.head {s t : State} (h : Stores s t) : t.run.head = s.run.head := by
  have hrun := congrArg (fun x : State => x.run.head) h.rest
  exact hrun

theorem Stores.moduleId {s t : State} (h : Stores s t) : t.holding.moduleId = s.holding.moduleId := by
  have hid := congrArg (fun x : State => x.holding.moduleId) h.rest
  exact hid

theorem Stores.eq {s t : State} (h : Stores s t) : t = { s with mem := t.mem, counters.values := t.counters.values } := by
  calc t = { ({ t with mem := s.mem, counters.values := s.counters.values } : State) with
      mem := t.mem, counters.values := t.counters.values } := rfl
    _ = _ := by rw [h.rest]

theorem Stores.touchesReserved {s t : State} (h : Stores s t) (off len : Nat) :
    touchesReserved t off len = touchesReserved s off len := by
  rw [Machine.touchesReserved, Machine.touchesReserved, reservedBase, reservedBase, h.capacity, h.reserved]

/-- Whether a plain write is allowed depends on no byte of memory and on no counter. -/
theorem Stores.plainWriteAllowed {s t : State} (h : Stores s t) (off len : Nat) :
    plainWriteAllowed t off len = plainWriteAllowed s off len := by
  unfold Machine.plainWriteAllowed
  rw [h.touchesReserved, h.eq]
  rfl

theorem stores_count (slot n : Nat) (s : State) : Stores s (count slot n s) := ⟨rfl, rfl, rfl⟩

theorem ensureFrame_capacity (p : Nat) (s : State) : (ensureFrame p s).mem.capacity = s.mem.capacity ∧
    (ensureFrame p s).mem.reservedNow = s.mem.reservedNow := by
  unfold ensureFrame
  dsimp only
  split
  · exact ⟨rfl, rfl⟩
  · split
    · exact ⟨rfl, rfl⟩
    · split <;> exact ⟨rfl, rfl⟩

theorem stores_ensureFrame (p : Nat) (s : State) : Stores s (ensureFrame p s) := by
  obtain ⟨-, -, -, hrest⟩ := ensureFrame_frame p s
  obtain ⟨hcap, hres⟩ := ensureFrame_capacity p s
  refine ⟨?_, hcap, hres⟩
  calc _ = { ({ ensureFrame p s with mem := s.mem } : State) with counters.values := s.counters.values } := rfl
    _ = s := by rw [hrest]

theorem stores_touchAs (sb : Bool) (what : Access) (off len : Nat) (s : State) : Stores s (touchAs sb what off len s) := by
  unfold touchAs
  refine foldl_inv (p := Stores s) (fun u p h => h.trans ?_) _ (.refl s)
  have hframe : Stores u (if (what == .write) = true then ensureFrame p u else u) := by
    split
    · exact stores_ensureFrame p u
    · exact .refl u
  generalize (if (what == .write) = true then ensureFrame p u else u) = v at hframe ⊢
  exact hframe.trans ⟨rfl, rfl, rfl⟩

theorem stores_touch (write : Bool) (off len : Nat) (s : State) : Stores s (touch write off len s) := stores_touchAs ..

theorem stores_writePoison (off len : Nat) (b : Bool) (s : State) : Stores s (writePoison off len b s) := by
  unfold writePoison
  dsimp only
  split <;> exact ⟨rfl, rfl, rfl⟩

theorem stores_writeNow (off : Nat) (bs : Bytes) (b : Bool) (s : State) : Stores s (writeNow off bs b s) :=
  ((stores_writePoison off bs.length b s).trans (stores_touch true off bs.length _)).trans ⟨rfl, rfl, rfl⟩

/-- A store of the part `x` of `data`, to be put at `o` in this module's memory. -/
def storePart (o : Nat) (data : Bytes) (s : State) (x : Nat × Nat) : State :=
  if touchesReserved s (o + x.1) x.2 then count slotBar4Error 1 s
  else if plainWriteAllowed s (o + x.1) x.2 then writeNow (o + x.1) (slice data x.1 x.2) false s
  else count slotBar4Refused 1 s

theorem storePart_allowed {s : State} {o : Nat} {x : Nat × Nat} (h : plainWriteAllowed s (o + x.1) x.2 = true)
    (data : Bytes) : storePart o data s x = writeNow (o + x.1) (slice data x.1 x.2) false s := by
  have hres : touchesReserved s (o + x.1) x.2 = false := by
    simp only [plainWriteAllowed, Bool.and_eq_true, Bool.not_eq_true'] at h
    exact h.1.1
  rw [storePart, hres, if_neg Bool.false_ne_true, if_pos h]

/-- A store that is not allowed is only counted. -/
theorem storePart_refused {s : State} {o : Nat} {x : Nat × Nat} (h : plainWriteAllowed s (o + x.1) x.2 = false)
    (data : Bytes) : ∃ slot, storePart o data s x = count slot 1 s := by
  unfold storePart
  split
  · exact ⟨_, rfl⟩
  · rw [h]
    exact ⟨_, rfl⟩

theorem stores_storePart (o : Nat) (data : Bytes) (s : State) (x : Nat × Nat) : Stores s (storePart o data s x) := by
  unfold storePart
  split
  · exact stores_count ..
  · split
    · exact stores_writeNow ..
    · exact stores_count ..

theorem slice_length {data : Bytes} {off len : Nat} (h : off + len ≤ data.length) : (slice data off len).length = len := by
  rw [slice, List.length_take, List.length_drop]
  omega

theorem slice_getD {data : Bytes} {off len i : Nat} (h : i < len) : (slice data off len).getD i 0 = data.getD (off + i) 0 := by
  simp [slice, List.getD_eq_getElem?_getD, h]

/-- Of the bytes from `o` on, those that the part `x` names. -/
def Inside (o : Nat) (x : Nat × Nat) (a : Nat) : Prop := o + x.1 ≤ a ∧ a < o + x.1 + x.2

theorem storePart_outside {s : State} {o : Nat} {data : Bytes} {x : Nat × Nat} (hx : x.1 + x.2 ≤ data.length) {a : Nat}
    (h : ¬ Inside o x a) (r : Reader) : seen (storePart o data s x) r a = seen s r a := by
  cases hp : plainWriteAllowed s (o + x.1) x.2 with
  | true =>
    obtain ⟨-, hout, -⟩ := writeNow_spec (o + x.1) (slice data x.1 x.2) false s
    have hhead := (stores_storePart o data s x).head
    have hlen := slice_length hx
    rw [seen, hhead, storePart_allowed hp]
    exact hout r a (by unfold Inside at h; omega)
  | false =>
    obtain ⟨slot, he⟩ := storePart_refused hp data
    rw [he]
    rfl

/-- What the store of a part leaves at a byte of that part. -/
def PartStored (o : Nat) (data : Bytes) (s t : State) (x : Nat × Nat) : Prop :=
  ∀ i, x.1 ≤ i → i < x.1 + x.2 →
    if plainWriteAllowed s (o + x.1) x.2 then seen t .plain (o + i) = data.getD i 0
    else ∀ r, seen t r (o + i) = seen s r (o + i)

theorem storePart_stored {s : State} {o : Nat} {data : Bytes} {x : Nat × Nat} (hx : x.1 + x.2 ≤ data.length) :
    PartStored o data s (storePart o data s x) x := by
  intro i hlo hhi
  cases hp : plainWriteAllowed s (o + x.1) x.2 with
  | true =>
    obtain ⟨hin, -, -⟩ := writeNow_spec (o + x.1) (slice data x.1 x.2) false s
    have hhead := (stores_storePart o data s x).head
    have hi := hin (i - x.1) (by rw [slice_length hx]; omega)
    rw [show o + x.1 + (i - x.1) = o + i by omega, slice_getD (by omega), show x.1 + (i - x.1) = i by omega] at hi
    rw [if_pos rfl, seen, hhead, storePart_allowed hp]
    exact hi
  | false =>
    obtain ⟨slot, he⟩ := storePart_refused hp data
    rw [if_neg Bool.false_ne_true, he]
    exact fun _ => rfl

/-- Parts that lie one after another are stored each as if it were alone, and nothing outside them changes. -/
theorem storeParts_spec (o : Nat) (data : Bytes) {l : List (Nat × Nat)} (hl : l.Pairwise fun x y => x.1 + x.2 ≤ y.1)
    (hin : ∀ x ∈ l, x.1 + x.2 ≤ data.length) (s : State) :
    Stores s (l.foldl (storePart o data) s) ∧ (∀ x ∈ l, PartStored o data s (l.foldl (storePart o data) s) x) ∧
      ∀ r a, (∀ x ∈ l, ¬ Inside o x a) → seen (l.foldl (storePart o data) s) r a = seen s r a := by
  induction l generalizing s with
  | nil => exact ⟨.refl s, by simp, fun _ _ _ => rfl⟩
  | cons x l ih =>
    obtain ⟨hafter, hl⟩ := List.pairwise_cons.1 hl
    obtain ⟨hx, hin⟩ := List.forall_mem_cons.1 hin
    have hfirst := stores_storePart o data s x
    obtain ⟨hstores, hparts, hrest⟩ := ih hl hin (storePart o data s x)
    rw [List.foldl_cons]
    refine ⟨hfirst.trans hstores, List.forall_mem_cons.2 ⟨fun i hlo hhi => ?_, fun y hy i hlo hhi => ?_⟩, fun r a ha => ?_⟩
    · have hlater : ∀ y ∈ l, ¬ Inside o y (o + i) := fun y hy => by
        have := hafter y hy
        unfold Inside
        omega
      have hhere := storePart_stored (o := o) (s := s) hx i hlo hhi
      simp only [hrest _ _ hlater]
      exact hhere
    · have hhere := hparts y hy i hlo hhi
      have hbefore : ¬ Inside o x (o + i) := by
        have := hafter y hy
        unfold Inside
        omega
      rw [hfirst.plainWriteAllowed] at hhere
      simpa only [storePart_outside hx hbefore] using hhere
    · obtain ⟨hax, ha⟩ := List.forall_mem_cons.1 ha
      rw [hrest r a ha, storePart_outside hx hax]

/-! ### Requests to another module -/

/-- From `s` to `t` packets may have left: the module is who it was, its ports are up as they were, memory, the answers to loads
and the requests that its router could not forward are as they were, and it has as many transactions. -/
structure Forwards (s t : State) : Prop where
  holding   : t.holding = s.holding
  mem       : t.mem = s.mem
  loads     : t.out.loads = s.out.loads
  txns      : t.lamio.txns.length = s.lamio.txns.length
  unreached : t.lamio.unreached = s.lamio.unreached
  ports     : ∀ p, portUp t p = portUp s p ∧ (port t p).retraining = (port s p).retraining

theorem Forwards.refl (s : State) : Forwards s s := ⟨rfl, rfl, rfl, rfl, rfl, fun _ => ⟨rfl, rfl⟩⟩

theorem Forwards.trans {s t u : State} (a : Forwards s t) (b : Forwards t u) : Forwards s u :=
  ⟨b.holding.trans a.holding, b.mem.trans a.mem, b.loads.trans a.loads, b.txns.trans a.txns, b.unreached.trans a.unreached,
    fun p => ⟨(b.ports p).1.trans (a.ports p).1, (b.ports p).2.trans (a.ports p).2⟩⟩

theorem Forwards.nextHop {s t : State} (h : Forwards s t) (m : ModId) (reverse : Bool) :
    nextHop t m reverse = nextHop s m reverse := by
  simp only [Machine.nextHop, h.holding, h.ports]

theorem Forwards.reachable {s t : State} (h : Forwards s t) {m : ModId} (hm : Reachable s m) : Reachable t m := by
  obtain ⟨hhop, hnone⟩ := hm
  exact ⟨by rw [h.nextHop]; exact hhop, h.unreached.trans hnone⟩

theorem mapFirst_length {α : Type} (p : α → Bool) (f : α → α) (l : List α) : (mapFirst p f l).length = l.length := by
  induction l with
  | nil => rfl
  | cons x l ih =>
    rw [mapFirst]
    split
    · rfl
    · rw [List.length_cons, List.length_cons, ih]

/-- Ports and transactions as they were are enough, where nothing else that counts has changed. -/
theorem Forwards.of_ports {s t : State} (hholding : t.holding = s.holding) (hmem : t.mem = s.mem)
    (hloads : t.out.loads = s.out.loads) (htxns : t.lamio.txns.length = s.lamio.txns.length)
    (hunreached : t.lamio.unreached = s.lamio.unreached) (hports : t.lamio.ports = s.lamio.ports) : Forwards s t :=
  ⟨hholding, hmem, hloads, htxns, hunreached, fun p => by simp only [portUp, port, hports, and_self]⟩

section

variable {s u : State} (h : Forwards s u)
include h

theorem Forwards.trace (a b : Nat) (c : Bool) (d : Nat) (e : W32) (f : Nat) : Forwards s (trace a b c d e f u) := by
  rw [trace_eq]
  exact h.trans (.of_ports rfl rfl rfl rfl rfl rfl)

theorem Forwards.countStone (slot : Nat) : Forwards s (countStone slot u) := h.trans (.of_ports rfl rfl rfl rfl rfl rfl)

theorem Forwards.countLink (p e : Nat) : Forwards s (countLink p e u) := h.trans (.of_ports rfl rfl rfl rfl rfl rfl)

/-- The retry buffer of a port does not say whether the port is up. -/
theorem Forwards.setPort {f : Port → Port}
    (hf : ∀ x, (f x).width = x.width ∧ (f x).heldDown = x.heldDown ∧ (f x).retraining = x.retraining) (p : Nat) :
    Forwards s (setPort p f u) := by
  refine h.trans ⟨rfl, rfl, rfl, rfl, rfl, fun q => ?_⟩
  by_cases hq : q = p
  · subst hq
    obtain ⟨hw, hd, hr⟩ := hf (port u q)
    have hport : port (Machine.setPort q f u) q = f (port u q) := tget_tmod_same ..
    simp only [portUp, hport, hw, hd, hr, and_self]
  · have hport : port (Machine.setPort p f u) q = port u q := tget_tmod_other _ _ _ hq
    simp only [portUp, hport, and_self]

theorem Forwards.sendFlit (p t : Nat) (q : Packet) (corrupt : Option (Nat × Byte)) :
    Forwards s (sendFlit p t q corrupt u) := by
  unfold Machine.sendFlit
  split
  · exact h.setPort (f := fun x => { x with data := { x.data with blocked := x.data.blocked ++ [(t, q, corrupt)] } })
      (fun _ => ⟨rfl, rfl, rfl⟩) p
  · dsimp only
    refine Forwards.trans (h.setPort ?_ p) (.of_ports rfl rfl rfl rfl rfl rfl)
    exact fun _ => ⟨rfl, rfl, rfl⟩

theorem Forwards.transmit (p t : Nat) (q : Packet) : Forwards s (transmit p t q u) := by
  unfold Machine.transmit
  dsimp only
  split
  · exact h.sendFlit ..
  next l _ =>
    have hstones : ∀ x, Forwards s { u with stones := x } := fun _ => h.trans (.of_ports rfl rfl rfl rfl rfl rfl)
    split
    · exact (hstones _).sendFlit ..
    split
    · exact (hstones _).countStone _
    split
    · exact ((hstones _).countStone _).sendFlit ..
    split
    · exact ((hstones _).countStone _).sendFlit ..
    · exact Forwards.countStone (hstones _) _

theorem Forwards.releaseHeld (p vc : Nat) : Forwards s (releaseHeld p vc u) := by
  have hstones : ∀ x, Forwards s { u with stones := x } := fun _ => h.trans (.of_ports rfl rfl rfl rfl rfl rfl)
  unfold Machine.releaseHeld
  exact foldl_inv (p := Forwards s) (fun v x hv => hv.sendFlit ..) _ (hstones _)

/-- A packet with a way out leaves by it. -/
theorem Forwards.sendPacket {q : Packet} {reverse : Bool} (hhop : (Machine.nextHop s q.dest reverse).isSome = true) (t : Nat) :
    Forwards s (sendPacket t reverse q u) := by
  rw [← h.nextHop] at hhop
  obtain ⟨⟨p, detour⟩, hp⟩ := Option.isSome_iff_exists.1 hhop
  have hlink : Forwards s (if detour then Machine.countLink p 3 u else u) := by
    split
    · exact h.countLink ..
    · exact h
  unfold Machine.sendPacket
  rw [hp]
  dsimp only
  generalize (if detour then Machine.countLink p 3 u else u) = v at hlink ⊢
  split
  · exact (hlink.transmit ..).releaseHeld ..
  · exact hlink.transmit ..

theorem Forwards.launch {x : Txn} (hhop : (Machine.nextHop s x.p.dest false).isSome = true) : Forwards s (launch x u) := by
  unfold Machine.launch takeOrder
  dsimp only
  refine Forwards.trace (Forwards.sendPacket ?_ ?_ _) ..
  · exact h.trans (.of_ports rfl rfl rfl (mapFirst_length ..) rfl rfl)
  · exact hhop

end

/-- From `s` to `t` requests to `m` have been sent, `n` of them; `m` can be reached as before. -/
structure Requests (m : ModId) (n : Nat) (s t : State) : Prop where
  moduleId : t.holding.moduleId = s.holding.moduleId
  mem      : t.mem = s.mem
  loads    : t.out.loads = s.out.loads
  txns     : t.lamio.txns.length = s.lamio.txns.length + n
  reach    : Reachable t m

theorem Requests.forwards {m : ModId} {n : Nat} {s t u : State} (h : Requests m n s t) (k : Forwards t u) :
    Requests m n s u :=
  ⟨k.holding ▸ h.moduleId, k.mem.trans h.mem, k.loads.trans h.loads, k.txns.trans h.txns, k.reachable h.reach⟩

/-- A request to a module that can be reached becomes one more transaction. -/
theorem requests_issue {s : State} {m : ModId} (h : Reachable s m) (t off len8 : Nat) (data : Bytes) (seedbed : Bool)
    (ctx : Option (W32 × Nat × Nat)) (task : Option (Nat × W32)) (bar4 : Bool) :
    Requests m 1 s (issue t m off len8 data seedbed ctx task bar4 s).2 := by
  unfold issue
  dsimp only
  have hput : ∀ tag x, Requests m 1 s { s with lamio.nextTag := tag, lamio.txns := s.lamio.txns ++ [x] } :=
    fun _ _ => ⟨rfl, rfl, rfl, List.length_append, h⟩
  split
  · refine (hput _ _).forwards (Forwards.launch (.refl _) ?_)
    exact h.1
  · exact hput _ _

/-- One request for each element of a list. -/
theorem requests_foldl {α : Type} {m : ModId} {g : State → α → State} {s : State}
    (hg : ∀ u x, u.holding.moduleId = s.holding.moduleId → Reachable u m → Requests m 1 u (g u x)) (h : Reachable s m)
    (l : List α) : Requests m l.length s (l.foldl g s) := by
  suffices ∀ u n, Requests m n s u → Requests m (n + l.length) s (l.foldl g u) by
    simpa using this s 0 ⟨rfl, rfl, rfl, rfl, h⟩
  induction l with
  | nil => exact fun _ _ hu => hu
  | cons x l ih =>
    intro u n hu
    have hx := hg u x hu.moduleId hu.reach
    rw [List.foldl_cons, List.length_cons, show n + (l.length + 1) = (n + 1) + l.length by omega]
    refine ih _ _ ⟨hx.moduleId.trans hu.moduleId, hx.mem.trans hu.mem, hx.loads.trans hu.loads, ?_, hx.reach⟩
    rw [hx.txns, hu.txns, Nat.add_assoc]

theorem answerUnreached_of_reachable {s : State} {m : ModId} (h : Reachable s m) : answerUnreached s = s :=
  answerUnreached_of_none h.2

/-! ### The rows -/

theorem bar4Load_local {s : State} {offset len o : Nat} (h : windowTarget s offset len = some (s.holding.moduleId, o)) :
    exec (.bar4Load offset len) s =
      .next (loadAnswer (localBytes s .plain o len) (!(poisonedIn s o len).isEmpty) (touch false o len s)) := by
  simp [exec_bar4Load, execBar4Load, h]

/-- The read of one line of a module's memory, at `o` in it. -/
def readPart (m : ModId) (o : Nat) (s : State) (x : Nat × Nat) : State :=
  (issue ptReadReq m (o + x.1) (ceilDiv x.2 8) [] false none none true s).2

theorem bar4Load_remote {s : State} {offset len o : Nat} {m : ModId} (hm : m ≠ s.holding.moduleId)
    (h : windowTarget s offset len = some (m, o)) :
    exec (.bar4Load offset len) s = .next (answerUnreached ((lineParts o len).foldl (readPart m o) s)) := by
  simp only [exec_bar4Load, execBar4Load, h, if_neg hm]
  rfl

theorem bar4Load_nowhere {s : State} {offset len : Nat} (h : windowTarget s offset len = none) :
    exec (.bar4Load offset len) s = .next (loadAnswer (List.replicate len 0xFF) false (count slotBar4Error 1 s)) := by
  simp [exec_bar4Load, execBar4Load, h]

/-- The store of the part `x` of `data` in the memory of `m`, at `o` in it. -/
def storePartAt (m : ModId) (o : Nat) (data : Bytes) (s : State) (x : Nat × Nat) : State :=
  if m = s.holding.moduleId then storePart o data s x
  else answerUnreached
    (issue ptWrite m (o + x.1) (ceilDiv x.2 8) (padMul 8 (slice data x.1 x.2)) false none none true s).2

theorem bar4Store_somewhere {s : State} {offset o : Nat} {data : Bytes} {m : ModId}
    (h : windowTarget s offset data.length = some (m, o)) :
    exec (.bar4Store offset data) s = .next ((lineParts o data.length).foldl (storePartAt m o data) s) := by
  simp only [exec_bar4Store, execBar4Store, h]
  rfl

theorem bar4Store_nowhere {s : State} {offset : Nat} {data : Bytes} (h : windowTarget s offset data.length = none) :
    exec (.bar4Store offset data) s = .next (count slotBar4Error 1 s) := by
  simp [exec_bar4Store, execBar4Store, h]

/-- On this module every part is stored in its own memory. -/
theorem storePartAt_own (o : Nat) (data : Bytes) (l : List (Nat × Nat)) {s u : State} (h : Stores s u) :
    l.foldl (storePartAt s.holding.moduleId o data) u = l.foldl (storePart o data) u := by
  induction l generalizing u with
  | nil => rw [List.foldl_nil, List.foldl_nil]
  | cons x l ih =>
    have hown : storePartAt s.holding.moduleId o data u x = storePart o data u x := if_pos h.moduleId.symm
    rw [List.foldl_cons, List.foldl_cons, hown]
    exact ih (h.trans (stores_storePart o data u x))

theorem storePartAt_requests {s : State} {m : ModId} (hm : m ≠ s.holding.moduleId) (h : Reachable s m) (o : Nat) (data : Bytes)
    (x : Nat × Nat) : Requests m 1 s (storePartAt m o data s x) := by
  have hreq := requests_issue h ptWrite (o + x.1) (ceilDiv x.2 8) (padMul 8 (slice data x.1 x.2)) false none none true
  rw [storePartAt, if_neg hm, answerUnreached_of_reachable hreq.reach]
  exact hreq

theorem count_slot (slot n : Nat) (s : State) :
    tget 0 (count slot n s).counters.values (4 * slot) = (tget 0 s.counters.values (4 * slot) + n) % 2 ^ 64 := by
  show tget 0 (tmod 0 s.counters.values (4 * slot + 0) fun v => (v + n) % 2 ^ 64) (4 * slot + 0) = _
  exact tget_tmod_same ..

/-- Settles O17: a load by whose memory it names, a store as the fold of its parts, each stored alone or sent as one request. -/
theorem bar4Accesses : Obligations.Bar4Accesses := by
  unfold Obligations.Bar4Accesses
  refine ⟨fun s offset len o => ⟨fun h => ?loadOwn, fun m hm h hreach => ?loadPeer, fun h => ?loadNone⟩,
    fun s offset o data => ⟨fun h => ?storeOwn, fun m hm h hreach => ?storePeer, fun h => ?storeNone⟩⟩
  case loadOwn =>
    obtain ⟨hbase, hlayers, hpoison, -⟩ := touch_frame false o len s
    have hstores := stores_touch false o len s
    refine ⟨_, bar4Load_local h, ?_, fun r a => ?_, hbase, hlayers, hpoison, ?_⟩
    · rw [hstores.eq]
      rfl
    · show readByte (touch false o len s).mem (touch false o len s).run.head r a = _
      rw [readByte, readByte, hbase, hlayers, hstores.head]
    · rw [hstores.eq]
      rfl
  case loadPeer =>
    have hreq : Requests m (lineParts o len).length s ((lineParts o len).foldl (readPart m o) s) :=
      requests_foldl (fun u x _ hu => requests_issue hu ..) hreach _
    rw [bar4Load_remote hm h, answerUnreached_of_reachable hreq.reach]
    exact ⟨_, rfl, hreq.mem, hreq.loads, hreq.txns⟩
  case loadNone =>
    refine ⟨_, bar4Load_nowhere h, rfl, count_slot slotBar4Error 1 s, ?_⟩
    unfold loadAnswer count countAs
    rfl
  case storeOwn =>
    obtain ⟨hstores, hparts, hrest⟩ := storeParts_spec o data (lineParts_ascending o data.length) (fun x => lineParts_within) s
    rw [bar4Store_somewhere h, storePartAt_own o data _ (.refl s)]
    refine ⟨_, rfl, hparts, fun r a ha => hrest r a fun x hx => ?_, hstores.rest⟩
    have := lineParts_within hx
    unfold Inside
    omega
  case storePeer =>
    have hreq : Requests m (lineParts o data.length).length s ((lineParts o data.length).foldl (storePartAt m o data) s) :=
      requests_foldl (fun u x hu hr => storePartAt_requests (by rw [hu]; exact hm) hr o data x) hreach _
    exact ⟨_, bar4Store_somewhere h, hreq.mem, hreq.txns⟩
  case storeNone => exact ⟨_, bar4Store_nowhere h, count_slot slotBar4Error 1 s, rfl⟩

end Sys2Proof.Proofs
end

section
/-!
PROOFS. The moves of a page, in its parts: what each part makes of the page's entry, and that only entries and selections change
(11 R227 to R230, R233, R234).
-/
namespace Sys2Proof.Proofs

open Sys2Proof Sys2Proof.Machine Sys2Proof.Safety Sys2Proof.Laws

/-! ### Operations that only move pages -/

/-- From `s` to `t` entries of pages and the moves selected may have changed, and nothing else. -/
def Relocates (s t : State) : Prop :=
  t = { s with mem := { s.mem with pages := t.mem.pages, selected := t.mem.selected } }

theorem Relocates.refl (s : State) : Relocates s s := rfl

theorem Relocates.trans {s t u : State} (a : Relocates s t) (b : Relocates t u) : Relocates s u := by
  unfold Relocates at *; rw [b, a]

theorem Relocates.ite {s t u : State} {c : Prop} [Decidable c] (a : Relocates s t) (b : Relocates s u) :
    Relocates s (if c then t else u) := by
  split
  · exact a
  · exact b

theorem Relocates.foldl {α : Type} {g : State → α → State} (hg : ∀ t x, Relocates t (g t x)) (l : List α) (s : State) :
    Relocates s (l.foldl g s) :=
  foldl_inv (p := Relocates s) (fun u x h => h.trans (hg u x)) l (.refl s)

theorem relocates_setPage (p : Nat) (e : PageEntry) (s : State) : Relocates s (setPage p e s) := rfl

theorem relocates_selectMove (p : Nat) (far : Bool) (cause : Nat) (s : State) : Relocates s (selectMove p far cause s) := rfl

theorem relocates_repin (p : Nat) (s : State) : Relocates s (repin p s) := .ite (relocates_selectMove ..) (.refl s)

theorem relocates_freeSource (p : Nat) (s : State) : Relocates s (freeSource p s) := .ite (relocates_setPage ..) (.refl s)

theorem relocates_abandonMove (p : Nat) (s : State) : Relocates s (abandonMove p s) := by
  refine (relocates_setPage p (settled (pageOf s p)) s).trans (Relocates.trans ?_ (relocates_repin ..))
  exact .ite (relocates_selectMove ..) (.refl _)

/-! ### Entries -/

@[simp] theorem pageOf_setPage_same (p : Nat) (e : PageEntry) (s : State) : pageOf (setPage p e s) p = e := tget_tset_same ..

theorem pageOf_setPage_other {p q : Nat} (h : q ≠ p) (e : PageEntry) (s : State) : pageOf (setPage p e s) q = pageOf s q :=
  tget_tset_other _ _ _ h

@[simp] theorem pageOf_dropMove (x : Selected) (s : State) (p : Nat) : pageOf (dropMove x s) p = pageOf s p := rfl

@[simp] theorem pageOf_count (slot n : Nat) (s : State) (p : Nat) : pageOf (count slot n s) p = pageOf s p := rfl

@[simp] theorem pageOf_countMove (cause : Nat) (s : State) (p : Nat) : pageOf (countMove cause s) p = pageOf s p := by
  unfold countMove; split <;> rfl

@[simp] theorem traceMemory_mem (type off : Nat) (s : State) : (traceMemory type off s).mem = s.mem := by
  rw [traceMemory, trace_eq]

@[simp] theorem pageOf_traceMemory (type off : Nat) (s : State) (p : Nat) : pageOf (traceMemory type off s) p = pageOf s p := by
  rw [pageOf, traceMemory_mem, pageOf]

@[simp] theorem pageOf_repin (q : Nat) (s : State) (p : Nat) : pageOf (repin q s) p = pageOf s p := by
  unfold repin; dsimp only; split <;> rfl

/-! ### A move starts (11 R228) -/

theorem exec_migrationStart (page : Nat) (s : State) : exec (.migrationStart page) s = .next (beginMove page s) := rfl

section Start

variable {s : State} {page : Nat} {x : Selected}

/-- A move may start: the run is not halted, the page has no staged pair, and it is the next of its kind. -/
abbrev MayStart (s : State) (page : Nat) (x : Selected) : Prop :=
  (s.run.isOn = false ∨ s.run.halt = .running) ∧ pageStaged s page = false ∧ nextMove s x = true

theorem mayStart_guard : ((s.run.isOn && s.run.halt != .running) || pageStaged s page || !nextMove s x) = true ↔
    ¬ MayStart s page x := by
  simp only [Bool.or_eq_true, Bool.and_eq_true, bne_iff_ne, Bool.not_eq_true', Classical.not_and_iff_not_or_not, not_or,
    Bool.not_eq_false, Bool.not_eq_true, or_assoc, ne_eq]

/-- A move started: the destination is bound to the page, and the copy has not begun. -/
def moving (far : Bool) (frame cause : Nat) (e : PageEntry) : PageEntry :=
  { e with state := 1, otherFar := far, otherFrame := frame, dirty := [], cause := cause }

variable (hx : s.mem.selected.find? (fun x => x.page == page) = some x) (he : (pageOf s page).state = 0)
include hx he

theorem beginMove_moved (h : movedAlready s x (pageOf s page) = true) : beginMove page s = dropMove x s := by
  unfold beginMove
  rw [hx]
  simp [he, h]

theorem beginMove_starts (h : movedAlready s x (pageOf s page) = false) (hmay : MayStart s page x) {far : Bool} {frame : Nat}
    (ht : moveTarget s x (pageOf s page) = some (far, frame)) :
    beginMove page s =
      traceMemory 0 (page * pageBytes) (setPage page (moving far frame x.cause (pageOf s page)) (dropMove x s)) := by
  have hguard := mt mayStart_guard.1 (not_not_intro hmay)
  unfold beginMove
  simp only [hx, he, h, ht, hguard, bne_self_eq_false, Bool.false_eq_true, if_false]
  rfl

theorem beginMove_waits (h : movedAlready s x (pageOf s page) = false)
    (hwait : ¬ MayStart s page x ∨ moveTarget s x (pageOf s page) = none) : beginMove page s = s := by
  unfold beginMove
  simp only [hx, he, h, bne_self_eq_false, Bool.false_eq_true, if_false]
  split
  · rfl
  next hguard =>
    have ht := hwait.resolve_left (mt mayStart_guard.2 hguard)
    rw [ht]

end Start

theorem beginMove_none {s : State} {page : Nat}
    (h : (pageOf s page).state ≠ 0 ∨ s.mem.selected.find? (fun x => x.page == page) = none) : beginMove page s = s := by
  unfold beginMove
  split
  · rfl
  next x hx =>
    have hstate := h.resolve_right (by rw [hx]; exact Option.some_ne_none x)
    simp [hstate]

/-! ### The seal, the flip, the source frame (11 R228) -/

theorem exec_migrationSeal (page : Nat) (s : State) : exec (.migrationSeal page) s = .next (sealMove page s) := rfl

theorem exec_migrationFlip (page : Nat) (s : State) : exec (.migrationFlip page) s = .next (advance (flipMove page s)) := rfl

theorem exec_migrationSourceFree (page : Nat) (s : State) :
    exec (.migrationSourceFree page) s = .next (advance (sow (freeSource page s))) := rfl

theorem sealMove_eq {s : State} {page : Nat} (h : (pageOf s page).state = 1) :
    sealMove page s = count 0x234 pageBytes (setPage page { pageOf s page with state := 2 } s) := if_pos h

theorem count_setPage_rest (slot n p : Nat) (e : PageEntry) (s : State) :
    { count slot n (setPage p e s) with mem.pages := s.mem.pages, counters.values := s.counters.values } = s := rfl

/-- A page after its flip: its home is the destination, its source is not free yet. -/
def flipped (e : PageEntry) : PageEntry :=
  { flipTo e.otherFar e.otherFrame e with otherFar := e.far, otherFrame := e.frame, state := 3 }

/-- The flip before the page is looked at for its pin. -/
def flipEntry (page : Nat) (s : State) : State :=
  traceMemory 1 (page * pageBytes) (countMove (pageOf s page).cause
    (count 0x234 (lineBytes * (pageOf s page).dirty.length) (setPage page (flipped (pageOf s page)) s)))

theorem flipMove_eq {s : State} {page : Nat} (h : (pageOf s page).state = 2) : flipMove page s = repin page (flipEntry page s) :=
  if_pos h

theorem pageOf_flipEntry (page : Nat) (s : State) : pageOf (flipEntry page s) page = flipped (pageOf s page) := by
  simp [flipEntry]

theorem pageOf_flipEntry_other {p page : Nat} (h : p ≠ page) (s : State) : pageOf (flipEntry page s) p = pageOf s p := by
  simp [flipEntry, pageOf_setPage_other h]

theorem countMove_eq (cause : Nat) (s : State) :
    countMove cause s = { s with counters.values := (countMove cause s).counters.values } := by
  unfold countMove; split <;> rfl

theorem flipEntry_frame (page : Nat) (s : State) : flipEntry page s =
    { setPage page (flipped (pageOf s page)) s with
      counters.values := (flipEntry page s).counters.values, sheaf := (flipEntry page s).sheaf } := by
  unfold flipEntry traceMemory
  rw [trace_eq, countMove_eq]
  rfl

/-- A page that its flip takes away from its pin's tier, and no other, is selected again. -/
theorem repin_flipEntry (page : Nat) (s : State) : (repin page (flipEntry page s)).mem.selected =
    s.mem.selected ++ (if (pageOf s page).pin ≠ 0 ∧ (pageOf s page).otherFar ≠ ((pageOf s page).pin == 2) ∧
      (s.mem.selected.any fun x => x.page == page) = false then [⟨page, (pageOf s page).pin == 2, 1⟩] else []) := by
  have hsel : (flipEntry page s).mem.selected = s.mem.selected := by rw [flipEntry_frame]; rfl
  unfold repin
  simp only [pageOf_flipEntry, hsel]
  simp only [flipped, flipTo, Bool.true_and, Bool.and_eq_true, bne_iff_ne, Bool.not_eq_true', and_assoc]
  split
  · rw [selectMove, hsel]
  · rw [hsel, List.append_nil]

theorem flipMove_frame {s : State} {page : Nat} (h : (pageOf s page).state = 2) :
    { flipMove page s with
      mem.pages := s.mem.pages, mem.selected := s.mem.selected, counters.values := s.counters.values
      sheaf := s.sheaf } = s := by
  rw [flipMove_eq h, relocates_repin page (flipEntry page s), flipEntry_frame]
  rfl

/-! ### Sowing after a frame is free (11 R234) -/

/-- From `s` to `t` selections of sowing may have come and gone, and nothing else has changed. -/
structure Sows (s t : State) : Prop where
  frame : t = { s with mem.selected := t.mem.selected }
  kept  : ∀ x ∈ s.mem.selected, x.cause ≠ 3 → x ∈ t.mem.selected
  new   : ∀ x ∈ t.mem.selected, x ∈ s.mem.selected ∨ x.cause = 3

theorem Sows.refl (s : State) : Sows s s := ⟨rfl, fun _ h _ => h, fun _ h => .inl h⟩

theorem Sows.trans {s t u : State} (a : Sows s t) (b : Sows t u) : Sows s u :=
  ⟨by rw [b.frame, a.frame], fun x h hc => b.kept x (a.kept x h hc) hc, fun x h => (b.new x h).elim (a.new x) .inr⟩

theorem Sows.ite {s t u : State} {c : Prop} [Decidable c] (a : Sows s t) (b : Sows s u) : Sows s (if c then t else u) := by
  split
  · exact a
  · exact b

theorem sows_selectMove (p : Nat) (far : Bool) (s : State) : Sows s (selectMove p far 3 s) := by
  refine ⟨rfl, fun x h _ => List.mem_append_left _ h, fun x h => (List.mem_append.1 h).imp_right fun h => ?_⟩
  rw [List.mem_singleton.1 h]

theorem sows_sow (s : State) : Sows s (sow s) := by
  unfold sow
  refine .ite (.refl s) ?_
  have hdrop : Sows s { s with mem.selected := s.mem.selected.filter fun x => x.cause != 3 } :=
    ⟨rfl, fun x h hc => List.mem_filter.2 ⟨h, bne_iff_ne.2 hc⟩, fun x h => .inl (List.mem_filter.1 h).1⟩
  refine hdrop.trans (foldl_inv (p := Sows _) (fun u p h => h.trans ?_) _ (.refl _))
  refine .ite (.refl u) (.ite (sows_selectMove ..) (.ite (.refl u) (.ite (sows_selectMove ..) ?_)))
  dsimp only
  split
  · exact (sows_selectMove ..).trans (sows_selectMove ..)
  · exact .refl u

theorem freeSource_selected (page : Nat) (s : State) : (freeSource page s).mem.selected = s.mem.selected := by
  unfold freeSource; dsimp only; split <;> rfl

theorem pageOf_freeSource (page : Nat) (s : State) : pageOf (freeSource page s) page =
    if (pageOf s page).state = 3 then settled (pageOf s page) else pageOf s page := by
  unfold freeSource; dsimp only
  split
  · exact pageOf_setPage_same ..
  · rfl

theorem pageOf_freeSource_other {p page : Nat} (h : p ≠ page) (s : State) : pageOf (freeSource page s) p = pageOf s p := by
  unfold freeSource; dsimp only
  split
  · exact pageOf_setPage_other h _ s
  · rfl

theorem pageOf_sow (s : State) (p : Nat) : pageOf (sow s) p = pageOf s p := by rw [(sows_sow s).frame]; rfl

end Sys2Proof.Proofs
end

section
/-!
PROOFS. Errors of memory: lines poisoned, frames retired, requests that expire, and the loss of a device (11 R235 to R238, 15 R319,
R324).
-/
namespace Sys2Proof.Proofs

open Sys2Proof Sys2Proof.Machine Sys2Proof.Safety Sys2Proof.Laws

theorem exec_patrolScrub (far : Bool) (region frame : Nat) (corrected uncorrectable : List Nat) (s : State) :
    exec (.patrolScrub far region frame corrected uncorrectable) s =
      .next (scrubFrame far region frame corrected uncorrectable s) := rfl

theorem exec_memTimeout (far : Bool) (line : Nat) (s : State) :
    exec (.memTimeout far line) s = .next (requestExpired far line s) := rfl

theorem exec_memoryControllerFailure (far : Bool) (region : Nat) (s : State) :
    exec (.memoryControllerFailure far region) s = .next (controllerFailed region s) := rfl

/-! ### An entry put in the place of those of its key -/

theorem find?_replaced {α : Type} {p : α → Bool} {x : α} (h : p x = true) (l : List α) :
    ((l.filter fun y => !p y) ++ [x]).find? p = some x := by
  rw [List.find?_append, List.find?_eq_none.2 fun y hy => by simpa using (List.mem_filter.1 hy).2]
  simp [h]

theorem mem_addNew {α : Type} [DecidableEq α] {l : List α} {a b : α} : a ∈ addNew l b ↔ a ∈ l ∨ a = b := by
  unfold addNew
  split
  next hb => exact ⟨.inl, fun h => h.elim id fun e => e ▸ hb⟩
  · simp

/-! ### Lines poisoned (11 R236) -/

/-- From `s` to `t` lines may have been poisoned, moves abandoned, and errors counted and traced; nothing else has changed, and no
line's poison is gone. -/
structure Poisons (s t : State) : Prop where
  frame : t = { s with
    mem := { s.mem with pages := t.mem.pages, selected := t.mem.selected, poison := t.mem.poison }
    counters.values := t.counters.values, sheaf := t.sheaf }
  kept  : s.mem.poison ⊆ t.mem.poison

theorem Poisons.refl (s : State) : Poisons s s := ⟨rfl, List.Subset.refl _⟩

theorem Poisons.trans {s t u : State} (a : Poisons s t) (b : Poisons t u) : Poisons s u :=
  ⟨by rw [b.frame, a.frame], List.Subset.trans a.kept b.kept⟩

theorem Poisons.foldl {α : Type} {g : State → α → State} (hg : ∀ t x, Poisons t (g t x)) (l : List α) (s : State) :
    Poisons s (l.foldl g s) :=
  foldl_inv (p := Poisons s) (fun u x h => h.trans (hg u x)) l (.refl s)

theorem Relocates.poisons {s t : State} (h : Relocates s t) : Poisons s t := by
  rw [h]
  exact ⟨rfl, List.Subset.refl _⟩

theorem Poisons.retired {s t : State} (h : Poisons s t) : t.mem.retired = s.mem.retired := by rw [h.frame]

theorem Poisons.flash {s t : State} (h : Poisons s t) : t.flash = s.flash := by rw [h.frame]

theorem poisonLine_poison (line : Nat) (s : State) : (poisonLine line s).mem.poison = addNew s.mem.poison line := by
  rw [poisonLine, traceMemory_mem]
  rfl

theorem poisons_poisonLine (line : Nat) (s : State) : Poisons s (poisonLine line s) := by
  refine ⟨?_, fun l h => ?_⟩
  · rw [poisonLine, traceMemory, trace_eq]
    rfl
  · rw [poisonLine_poison]
    exact mem_addNew.2 (.inl h)

theorem mem_poisonLine (line : Nat) (s : State) : line ∈ (poisonLine line s).mem.poison := by
  rw [poisonLine_poison]
  exact mem_addNew.2 (.inr rfl)

/-- Each line of a list is poisoned, and stays so. -/
theorem mem_foldl_poisonLine (f : Nat → Nat) {k : Nat} {l : List Nat} (hk : k ∈ l) (s : State) :
    f k ∈ (l.foldl (fun s k => poisonLine (f k) s) s).mem.poison := by
  induction l generalizing s with
  | nil => exact absurd hk List.not_mem_nil
  | cons j l ih =>
    rw [List.foldl_cons]
    rcases List.mem_cons.1 hk with rfl | hk
    · exact (Poisons.foldl (g := fun s k => poisonLine (f k) s) (fun t k => poisons_poisonLine (f k) t) l _).kept
        (mem_poisonLine (f k) s)
    · exact ih hk _

/-- The pages whose move has the frame as its destination. -/
def boundFor (far : Bool) (region frame : Nat) (s : State) : List (Nat × PageEntry) :=
  s.mem.pages.filter fun e =>
    pageRegion e.1 == region && (e.2.state == 1 || e.2.state == 2) && e.2.otherFar == far && e.2.otherFrame == frame

/-- Their moves abandoned. -/
def abandonBound (far : Bool) (region frame : Nat) (s : State) : State :=
  (boundFor far region frame s).foldl (fun s e => abandonMove e.1 s) s

theorem relocates_abandonBound (far : Bool) (region frame : Nat) (s : State) :
    Relocates s (abandonBound far region frame s) :=
  Relocates.foldl (g := fun s (e : Nat × PageEntry) => abandonMove e.1 s) (fun t e => relocates_abandonMove e.1 t) _ s

/-- The uncorrectable lines of a frame counted, and poisoned where a page stands on it. -/
def poisonLines (far : Bool) (region frame : Nat) (lines : List Nat) (s : State) : State :=
  match pageOn s far region frame with
  | some p => lines.foldl (fun s k => poisonLine (32768 * p + k) s) s
  | none => count 0x2E2 lines.length s

theorem uncorrectableIn_eq (far : Bool) (region frame : Nat) (lines : List Nat) (s : State) :
    uncorrectableIn far region frame lines s =
      if lines.isEmpty then poisonLines far region frame lines s
      else abandonBound far region frame (poisonLines far region frame lines s) := rfl

theorem poisons_poisonLines (far : Bool) (region frame : Nat) (lines : List Nat) (s : State) :
    Poisons s (poisonLines far region frame lines s) := by
  unfold poisonLines
  split
  next p _ => exact Poisons.foldl (g := fun s k => poisonLine (32768 * p + k) s) (fun t k => poisons_poisonLine _ t) lines s
  · exact ⟨rfl, List.Subset.refl _⟩

theorem poisons_uncorrectableIn (far : Bool) (region frame : Nat) (lines : List Nat) (s : State) :
    Poisons s (uncorrectableIn far region frame lines s) := by
  rw [uncorrectableIn_eq]
  split
  · exact poisons_poisonLines ..
  · exact (poisons_poisonLines ..).trans (relocates_abandonBound ..).poisons

theorem mem_uncorrectableIn {far : Bool} {region frame page k : Nat} {lines : List Nat} {s : State}
    (hpage : pageOn s far region frame = some page) (hk : k ∈ lines) :
    32768 * page + k ∈ (uncorrectableIn far region frame lines s).mem.poison := by
  have hpoisoned : 32768 * page + k ∈ (poisonLines far region frame lines s).mem.poison := by
    rw [poisonLines, hpage]
    exact mem_foldl_poisonLine (32768 * page + ·) hk s
  rw [uncorrectableIn_eq]
  split
  · exact hpoisoned
  · exact (relocates_abandonBound ..).poisons.kept hpoisoned

theorem uncorrectableIn_nil (far : Bool) (region frame : Nat) (s : State) :
    (uncorrectableIn far region frame [] s).mem.poison = s.mem.poison := by
  show (poisonLines far region frame [] s).mem.poison = s.mem.poison
  unfold poisonLines
  split <;> rfl

/-! ### Frames retired (11 R237, R238) -/

/-- From `s` to `t` frames may have been retired and reported, and their pages selected to move; nothing else has changed. -/
def Retires (s t : State) : Prop :=
  t = { s with
    mem := { s.mem with pages := t.mem.pages, selected := t.mem.selected, retired := t.mem.retired }
    flash.retired := t.flash.retired, host := t.host, sheaf := t.sheaf, out := t.out }

theorem Retires.refl (s : State) : Retires s s := rfl

theorem Retires.trans {s t u : State} (a : Retires s t) (b : Retires t u) : Retires s u := by
  unfold Retires at *; rw [b, a]

theorem Relocates.retires {s t : State} (h : Relocates s t) : Retires s t := by
  rw [h]
  exact rfl

theorem Retires.of_noted {s t : State} (h : Noted s t) : Retires s t := by
  unfold Noted at h
  rw [h]
  exact rfl

theorem Retires.poison {s t : State} (h : Retires s t) : t.mem.poison = s.mem.poison := by rw [h]

/-- The frame put on the two lists. -/
def listRetired (f : Bool × Nat × Nat) (s : State) : State :=
  { s with
    mem.retired := s.mem.retired ++ [f]
    flash.retired := if s.flash.retired.length < 4096 then s.flash.retired ++ [f] else s.flash.retired }

/-- The page on the retired frame selected to move, or its move under way made the retirement's own. -/
def evacuate (far : Bool) (frame same p : Nat) (s : State) : State :=
  let e := pageOf s p
  let s := if e.present then s else setPage p { e with present := true, far := far, frame := frame, gen := 1 } s
  if e.state == 1 || e.state == 2 then setPage p { pageOf s p with cause := 4 } s
  else if s.mem.selected.any (fun x => x.page == p && x.cause == 4) then s
  else selectMove p (if 0 < same then far else !far) 4 s

theorem relocates_evacuate (far : Bool) (frame same p : Nat) (s : State) : Relocates s (evacuate far frame same p s) := by
  have hplaced : Relocates s (if (pageOf s p).present then s
      else setPage p { pageOf s p with present := true, far := far, frame := frame, gen := 1 } s) :=
    .ite (.refl s) (relocates_setPage ..)
  exact hplaced.trans (.ite (relocates_setPage ..) (.ite (.refl _) (relocates_selectMove ..)))

/-- The frame listed, and the page on it, if there is one, seen to. -/
def emptied (far : Bool) (region frame : Nat) (s : State) : State :=
  match pageOn s far region frame with
  | some p => evacuate far frame (framesLeft s far region) p (listRetired (far, region, frame) s)
  | none => listRetired (far, region, frame) s

theorem relocates_emptied (far : Bool) (region frame : Nat) (s : State) :
    Relocates (listRetired (far, region, frame) s) (emptied far region frame s) := by
  unfold emptied
  split
  · exact relocates_evacuate ..
  · exact .refl _

theorem retireFrame_retired {far : Bool} {region frame : Nat} {s : State}
    (h : (s.mem.retired.contains (far, region, frame) || s.flash.retired.contains (far, region, frame)) = true) :
    retireFrame far region frame s = s := if_pos h

/-- The retirement of a frame that is not retired yet: listed, its page and the moves towards it seen to, reported. -/
theorem retireFrame_new {far : Bool} {region frame : Nat} {s : State}
    (h : (s.mem.retired.contains (far, region, frame) || s.flash.retired.contains (far, region, frame)) = false) :
    ∃ t, Relocates (listRetired (far, region, frame) s) t ∧ Noted t (retireFrame far region frame s) := by
  refine ⟨abandonBound far region frame (emptied far region frame s),
    (relocates_emptied far region frame s).trans (relocates_abandonBound ..), ?_⟩
  unfold retireFrame
  rw [h]
  exact (noted_trace ..).trans (noted_raise ..)

theorem retires_retireFrame (far : Bool) (region frame : Nat) (s : State) : Retires s (retireFrame far region frame s) := by
  cases h : s.mem.retired.contains (far, region, frame) || s.flash.retired.contains (far, region, frame) with
  | true => rw [retireFrame_retired h]; exact .refl s
  | false =>
    obtain ⟨t, hmoves, hnoted⟩ := retireFrame_new h
    have hlisted : Retires s (listRetired (far, region, frame) s) := rfl
    exact (hlisted.trans hmoves.retires).trans (.of_noted hnoted)

theorem mem_retireFrame (far : Bool) (region frame : Nat) (s : State) :
    (far, region, frame) ∈ (retireFrame far region frame s).mem.retired ++ (retireFrame far region frame s).flash.retired := by
  cases h : s.mem.retired.contains (far, region, frame) || s.flash.retired.contains (far, region, frame) with
  | true => rw [retireFrame_retired h]; simpa using h
  | false =>
    obtain ⟨t, hmoves, hnoted⟩ := retireFrame_new h
    have hlist : (retireFrame far region frame s).mem.retired = s.mem.retired ++ [(far, region, frame)] := by
      unfold Noted at hnoted
      rw [hnoted, hmoves]
      rfl
    rw [hlist]
    simp

/-- The frame retired if it is worn out. -/
def retireIf (worn : Bool) (far : Bool) (region frame : Nat) (s : State) : State :=
  if worn then retireFrame far region frame s else s

theorem retires_retireIf (worn far : Bool) (region frame : Nat) (s : State) : Retires s (retireIf worn far region frame s) := by
  unfold retireIf
  split
  · exact retires_retireFrame ..
  · exact .refl s

/-- From `s` to `t` errors of a frame have been seen to: lines poisoned, moves abandoned, the frame retired where it is worn out,
all of it counted, traced and reported; nothing else has changed. -/
structure SeenTo (worn far : Bool) (region frame : Nat) (s t : State) : Prop where
  rest    : t = { s with
    mem := { s.mem with
      pages := t.mem.pages, selected := t.mem.selected, poison := t.mem.poison, retired := t.mem.retired }
    flash.retired := t.flash.retired, counters.values := t.counters.values, host := t.host, sheaf := t.sheaf, out := t.out }
  retired : worn = true → (far, region, frame) ∈ t.mem.retired ++ t.flash.retired
  spared  : worn = false → t.mem.retired = s.mem.retired ∧ t.flash = s.flash

theorem seenTo_retireIf {s t : State} (h : Poisons s t) (worn far : Bool) (region frame : Nat) :
    SeenTo worn far region frame s (retireIf worn far region frame t) := by
  refine ⟨?_, ?_, ?_⟩
  · rw [retires_retireIf worn far region frame t, h.frame]
  · rintro rfl
    exact mem_retireFrame far region frame t
  · rintro rfl
    exact ⟨h.retired, h.flash⟩

/-! ### The history of a frame (11 R235, R237) -/

/-- The history is that of the frame. -/
def Names (far : Bool) (region frame : Nat) (h : FrameHealth) : Prop := h.far = far ∧ h.region = region ∧ h.frame = frame

theorem names_healthOf (s : State) (far : Bool) (region frame : Nat) : Names far region frame (healthOf s far region frame) := by
  unfold healthOf
  cases h : s.mem.health.find? fun h => h.far == far && h.region == region && h.frame == frame with
  | none => exact ⟨rfl, rfl, rfl⟩
  | some x => simpa [Names, and_assoc] using List.find?_some h

/-- The history of a frame with the lines `ks`, counted in it, that have failed. -/
def failedWith (ks : List Nat) (h : FrameHealth) : FrameHealth := { h with failed := ks.foldl addNew h.failed }

section

variable {far : Bool} {region frame : Nat} {h : FrameHealth} (hn : Names far region frame h)
include hn

theorem names_noteCorrected (now period : Nat) (lines : List Nat) :
    Names far region frame (noteCorrected now period lines h) := by
  unfold noteCorrected; dsimp only; split <;> exact hn

theorem names_failedWith (ks : List Nat) : Names far region frame (failedWith ks h) := hn

end

/-- The history that was put in for a frame is the frame's. -/
theorem healthOf_of_health {s t : State} {h : FrameHealth} {far : Bool} {region frame : Nat}
    (hnames : Names far region frame h) (ht : t.mem.health = (setHealth h s).mem.health) :
    healthOf t far region frame = h := by
  obtain ⟨rfl, rfl, rfl⟩ := hnames
  rw [healthOf, ht]
  have hfound := find?_replaced (p := fun x : FrameHealth => x.far == h.far && x.region == h.region && x.frame == h.frame)
    (x := h) (by simp) s.mem.health
  rw [setHealth, hfound]
  rfl

/-! ### A scrub (11 R235 to R237) -/

section Scrub

variable (far : Bool) (region frame : Nat) (corrected uncorrectable : List Nat) (s : State)

/-- The lines a scrub could not correct, and those that it corrected. -/
def scrubbedBad : List Nat := (uncorrectable.filter (· < 32768)).eraseDups

def scrubbedFixed : List Nat := (corrected.filter fun k => k < 32768 && !(scrubbedBad uncorrectable).contains k).eraseDups

/-- The history of the frame with what the scrub has corrected. -/
def scrubbedHealth : FrameHealth :=
  noteCorrected s.clock.up (scrubPeriod s) (scrubbedFixed corrected uncorrectable) (healthOf s far region frame)

/-- That history with the lines the scrub could not correct. -/
def recordedHealth : FrameHealth :=
  failedWith (scrubbedBad uncorrectable) (scrubbedHealth far region frame corrected uncorrectable s)

/-- The scrub recorded, before its uncorrectable lines are seen to. -/
def scrubNoted : State :=
  let s := count 0x2E6 1 (count 0x2E1 (scrubbedFixed corrected uncorrectable).length
    (setHealth (recordedHealth far region frame corrected uncorrectable s) s))
  { s with mem := answered far region [] s.mem }

/-- The frame is to be retired: an error has come again, or there are too many. -/
def wornOut : Bool :=
  let h := scrubbedHealth far region frame corrected uncorrectable s
  ((scrubbedBad uncorrectable).any fun k => h.rewritten.contains k) || decide (64 < h.lines.length)

theorem scrubFrame_eq (hready : s.ready = true) (hframe : frame < tierFrames far) (hregion : region < 32) :
    scrubFrame far region frame corrected uncorrectable s =
      let t := uncorrectableIn far region frame (scrubbedBad uncorrectable)
        (scrubNoted far region frame corrected uncorrectable s)
      retireIf (wornOut far region frame corrected uncorrectable s) far region frame t := by
  unfold scrubFrame
  rw [if_neg (by simp [hready, hframe, hregion])]
  rfl

theorem scrubFrame_idle (h : s.ready = false ∨ tierFrames far ≤ frame ∨ 32 ≤ region) :
    scrubFrame far region frame corrected uncorrectable s = s := by
  unfold scrubFrame
  exact if_pos (by simpa [or_assoc] using h)

/-- What the history says of the frame does not say which page stands on it. -/
theorem pageOn_scrubNoted : pageOn (scrubNoted far region frame corrected uncorrectable s) far region frame =
    pageOn s far region frame := by
  unfold scrubNoted count countAs setHealth answered
  rfl

theorem recordedHealth_names : Names far region frame (recordedHealth far region frame corrected uncorrectable s) :=
  names_failedWith (names_noteCorrected (names_healthOf s far region frame) ..) _

end Scrub

/-- What a scrub leaves: the frame's history, its uncorrectable lines poisoned, a worn frame retired. -/
structure Scrubbed (far : Bool) (region frame : Nat) (corrected uncorrectable : List Nat) (s t : State) : Prop where
  health   : healthOf t far region frame = recordedHealth far region frame corrected uncorrectable s
  poisoned : ∀ page, pageOn s far region frame = some page → ∀ k ∈ scrubbedBad uncorrectable, 32768 * page + k ∈ t.mem.poison
  clean    : scrubbedBad uncorrectable = [] → t.mem.poison = s.mem.poison
  retired  : wornOut far region frame corrected uncorrectable s = true →
    (far, region, frame) ∈ t.mem.retired ++ t.flash.retired
  spared   : wornOut far region frame corrected uncorrectable s = false → t.mem.retired = s.mem.retired ∧ t.flash = s.flash
  base     : t.mem.base = s.mem.base
  layers   : t.mem.layers = s.mem.layers
  rest     : { t with
    mem := s.mem, flash.retired := s.flash.retired, counters.values := s.counters.values, host := s.host
    sheaf := s.sheaf, out := s.out } = s

theorem scrubbed_scrubFrame {far : Bool} {region frame : Nat} {s : State} (corrected uncorrectable : List Nat)
    (hready : s.ready = true) (hframe : frame < tierFrames far) (hregion : region < 32) :
    Scrubbed far region frame corrected uncorrectable s (scrubFrame far region frame corrected uncorrectable s) := by
  have hpoisons := poisons_uncorrectableIn far region frame (scrubbedBad uncorrectable)
    (scrubNoted far region frame corrected uncorrectable s)
  have hseen := seenTo_retireIf hpoisons (wornOut far region frame corrected uncorrectable s) far region frame
  have hpoison := (retires_retireIf (wornOut far region frame corrected uncorrectable s) far region frame
    (uncorrectableIn far region frame (scrubbedBad uncorrectable)
      (scrubNoted far region frame corrected uncorrectable s))).poison
  rw [scrubFrame_eq far region frame corrected uncorrectable s hready hframe hregion]
  dsimp only
  generalize retireIf _ far region frame _ = t at hseen hpoison
  refine ⟨?_, fun page hpage k hk => ?_, fun hbad => ?_, hseen.retired, hseen.spared, ?_, ?_, ?_⟩
  · refine healthOf_of_health (s := s) (recordedHealth_names far region frame corrected uncorrectable s) ?_
    rw [hseen.rest]
    rfl
  · rw [hpoison]
    exact mem_uncorrectableIn ((pageOn_scrubNoted ..).trans hpage) hk
  · rw [hpoison, hbad, uncorrectableIn_nil]
    rfl
  · rw [hseen.rest]
    rfl
  · rw [hseen.rest]
    rfl
  · rw [hseen.rest]
    unfold scrubNoted count countAs setHealth
    rfl

/-! ### Requests that expire (15 R319) -/

/-- One more expiry in a row of a device. -/
def noteExpiry (far : Bool) (region : Nat) (s : State) : State :=
  { s with mem.expiries :=
      (s.mem.expiries.filter fun (x : Bool × Nat × Nat) => !(x.1 == far && x.2.1 == region)) ++
        [(far, region, expiriesOf s far region + 1)] }

theorem expiriesOf_noted {far : Bool} {region : Nat} {s t : State}
    (h : t.mem.expiries = (noteExpiry far region s).mem.expiries) :
    expiriesOf t far region = expiriesOf s far region + 1 := by
  have hfound := find?_replaced (p := fun x : Bool × Nat × Nat => x.1 == far && x.2.1 == region)
    (x := (far, region, expiriesOf s far region + 1)) (by simp) s.mem.expiries
  rw [expiriesOf, h, noteExpiry, hfound]
  rfl

/-- The line is poisoned, and a frame that fails there again is retired. -/
theorem lineUncorrectable_eq (far : Bool) (region frame line : Nat) (s : State) :
    lineUncorrectable far region frame line s =
      let t := poisonLine line (setHealth (failedWith [line % 32768] (healthOf s far region frame)) s)
      retireIf ((healthOf s far region frame).rewritten.contains (line % 32768)) far region frame t := rfl

/-- What an uncorrectable line leaves. -/
structure LineFailed (far : Bool) (region frame line : Nat) (s t : State) : Prop where
  poisoned : line ∈ t.mem.poison
  retired  : line % 32768 ∈ (healthOf s far region frame).rewritten → (far, region, frame) ∈ t.mem.retired ++ t.flash.retired
  reissued : t.mem.reissued = s.mem.reissued
  expiries : t.mem.expiries = s.mem.expiries
  base     : t.mem.base = s.mem.base
  layers   : t.mem.layers = s.mem.layers
  rest     : { t with
    mem := s.mem, flash.retired := s.flash.retired, counters.values := s.counters.values, host := s.host
    sheaf := s.sheaf, out := s.out } = s

theorem lineFailed_lineUncorrectable (far : Bool) (region frame line : Nat) (s : State) :
    LineFailed far region frame line s (lineUncorrectable far region frame line s) := by
  have hpoisons := poisons_poisonLine line (setHealth (failedWith [line % 32768] (healthOf s far region frame)) s)
  have hseen := seenTo_retireIf hpoisons ((healthOf s far region frame).rewritten.contains (line % 32768)) far region frame
  have hpoison := (retires_retireIf ((healthOf s far region frame).rewritten.contains (line % 32768)) far region frame
    (poisonLine line (setHealth (failedWith [line % 32768] (healthOf s far region frame)) s))).poison
  rw [lineUncorrectable_eq]
  dsimp only
  generalize retireIf _ far region frame _ = t at hseen hpoison
  refine ⟨?_, fun h => hseen.retired (List.contains_iff_mem.2 h), ?_, ?_, ?_, ?_, ?_⟩
  · rw [hpoison]
    exact mem_poisonLine ..
  all_goals
    rw [hseen.rest]
    rfl

/-! ### Devices (15 R319, R324, R328) -/

/-- From `s` to `t` no committed byte has changed, and whether a device is lost is as it was. -/
structure SameStore (s t : State) : Prop where
  base       : t.mem.base = s.mem.base
  deviceLost : t.mem.deviceLost = s.mem.deviceLost

theorem SameStore.refl (s : State) : SameStore s s := ⟨rfl, rfl⟩

theorem SameStore.trans {s t u : State} (a : SameStore s t) (b : SameStore t u) : SameStore s u :=
  ⟨b.base.trans a.base, b.deviceLost.trans a.deviceLost⟩

theorem SameStore.foldl {α : Type} {g : State → α → State} (hg : ∀ t x, SameStore t (g t x)) (l : List α) (s : State) :
    SameStore s (l.foldl g s) :=
  foldl_inv (p := SameStore s) (fun u x h => h.trans (hg u x)) l (.refl s)

theorem SameStore.of_mem {s t : State} (h : t.mem = s.mem) : SameStore s t := ⟨by rw [h], by rw [h]⟩

theorem Relocates.sameStore {s t : State} (h : Relocates s t) : SameStore s t := by rw [h]; exact ⟨rfl, rfl⟩

theorem Tells.sameStore {s t : State} (h : Tells s t) : SameStore s t := .of_mem (by rw [h.frame])

theorem sameStore_countDiscarded (t : TaskInst) (s : State) : SameStore s (countDiscarded t s) := by
  have hcounts : SameStore s ((t.counts ++ t.recounts).foldl (fun s c => countAs c.1 2 c.2 s) s) :=
    SameStore.foldl (g := fun s (c : Nat × Nat) => countAs c.1 2 c.2 s) (fun _ _ => ⟨rfl, rfl⟩) _ s
  unfold countDiscarded; dsimp only; split
  · exact hcounts.trans ⟨rfl, rfl⟩
  · exact hcounts

theorem sameStore_discardRuns (p : TaskInst → Bool) (ph : Phase) (s : State) : SameStore s (discardRuns p ph s) := by
  have hfresh : SameStore s (freeFresh p s) := ⟨rfl, rfl⟩
  unfold discardRuns; dsimp only
  refine (hfresh.trans (SameStore.foldl (fun u t => ?_) _ _)).trans ⟨rfl, rfl⟩
  split
  · exact sameStore_countDiscarded t u
  · exact (sameStore_countDiscarded t u).trans (tells_trace ..).sameStore

theorem sameStore_stopMoves (s : State) : SameStore s (stopMoves s) := by
  refine SameStore.foldl (fun t e => ?_) _ _
  split
  · exact (relocates_freeSource ..).sameStore
  · split
    · exact (relocates_abandonMove ..).sameStore
    · exact .refl t

theorem sameStore_haltSmear (m : StopMsg) (s : State) : SameStore s (haltSmear m s) := by
  unfold haltSmear
  split
  · have hstarted : ∀ u, SameStore u (abandonStarted u) := fun u => (sameStore_discardRuns ..).trans ⟨rfl, rfl⟩
    refine ((tells_writeStopMap 2 m s.coll.live.length s).sameStore.trans (hstarted _)).trans ?_
    refine SameStore.trans (t := enterSmear (abandonStarted (writeStopMap 2 m s.coll.live.length s))) ⟨rfl, rfl⟩ ?_
    exact (sameStore_stopMoves _).trans ((tells_shareVote _).trans ((tells_finishJobs _ _ _ _).trans
      ((tells_acknowledge _ _ _ _).trans (tells_stopsComplete _)))).sameStore
  · exact .refl s

theorem sameStore_discardFrom (n : Nat) (s : State) : SameStore s (discardFrom n s) :=
  (sameStore_discardRuns ..).trans ⟨rfl, rfl⟩

/-- A module that needs restoration notes it with its holding. -/
theorem needRestoration_eq (m : ModId) (s : State) :
    needRestoration m s = { s with holding := (needRestoration m s).holding } := by
  unfold needRestoration
  dsimp only
  split
  · rfl
  · split
    · rfl
    · split <;> rfl

/-- A module that isolates itself tells every other, and keeps its committed memory. -/
theorem isolate_isolates {s : State} (h : s.holding.isolated = false) (cause : Nat) :
    (isolate cause s).holding.isolated = true ∧ SameStore s (isolate cause s) ∧
      (everyone, Hedge.memberLost s.holding.moduleId cause s.run.head) ∈ (isolate cause s).out.hedge := by
  unfold isolate
  rw [if_neg (by simp [h])]
  dsimp only
  generalize hraised : raise evMemberLost _ s = r
  have hnoted : Noted s r := hraised ▸ noted_raise ..
  have hhead : r.run.head = s.run.head := by unfold Noted at hnoted; rw [hnoted]
  have htells : Tells s (sendHedge everyone (.memberLost s.holding.moduleId cause r.run.head) r) :=
    (hraised ▸ tells_raise ..).trans (tells_sendHedge ..)
  have htold := mem_sendHedge everyone (.memberLost s.holding.moduleId cause r.run.head) r
  rw [hhead] at htold htells ⊢
  generalize sendHedge everyone _ r = u at htold htells ⊢
  have hneeds : SameStore u (needRestoration s.holding.moduleId u) := by rw [needRestoration_eq]; exact ⟨rfl, rfl⟩
  have hkept : Sent (everyone, .memberLost s.holding.moduleId cause s.run.head) (needRestoration s.holding.moduleId u) := by
    rw [needRestoration_eq]
    exact htold
  refine ⟨rfl, ?_, Sent.discardFrom (hkept.haltSmear _) _⟩
  exact htells.sameStore.trans (hneeds.trans ((sameStore_haltSmear ..).trans ((sameStore_discardFrom ..).trans ⟨rfl, rfl⟩)))

/-- What the loss of a device leaves: the module knows of it, isolates itself and tells every other; its committed memory stays. -/
structure DeviceLost (s t : State) : Prop where
  deviceLost : t.mem.deviceLost = true
  isolated   : t.holding.isolated = true
  told       : (everyone, Hedge.memberLost s.holding.moduleId 1 s.run.head) ∈ t.out.hedge
  base       : t.mem.base = s.mem.base

theorem loseDevice_loses {s : State} (h : s.holding.isolated = false) : DeviceLost s (loseDevice s) := by
  obtain ⟨hisolated, hstore, htold⟩ := isolate_isolates (s := { s with mem.deviceLost := true }) h 1
  exact ⟨hstore.deviceLost, hisolated, htold, hstore.base⟩

end Sys2Proof.Proofs
end

section
/-!
PROOFS. The memory rows settled: a request that expires, a controller that fails, and the statement (11 R228 to R238, 15 R319,
R324).
-/
namespace Sys2Proof.Proofs

open Sys2Proof Sys2Proof.Machine Sys2Proof.Safety Sys2Proof.Laws

/-! ### The rows of devices -/

section Expiry

variable {far : Bool} {line : Nat} {s : State}

/-- The request is of a page on a device of this tier, and no device is lost. -/
structure Live (far : Bool) (line : Nat) (s : State) : Prop where
  ready   : s.ready = true
  present : (pageOf s (line / 32768)).present = true
  tier    : (pageOf s (line / 32768)).far = far
  intact  : s.mem.deviceLost = false

/-- The request reissued, or its line given up where it has been reissued before. -/
def reissue (far : Bool) (line : Nat) (s : State) : State :=
  let s' := noteExpiry far (pageRegion (line / 32768)) s
  if s.mem.reissued.contains (far, line) then
    lineUncorrectable far (pageRegion (line / 32768)) (pageOf s (line / 32768)).frame line
      { s' with mem.reissued := s.mem.reissued.filter (· != (far, line)) }
  else { s' with mem.reissued := s.mem.reissued ++ [(far, line)] }

theorem requestExpired_live (h : Live far line s) : requestExpired far line s =
    if 16 ≤ expiriesOf s far (pageRegion (line / 32768)) + 1 then loseDevice (reissue far line s) else reissue far line s := by
  unfold requestExpired
  rw [if_neg (by simp [h.ready, h.present, h.tier, h.intact])]
  rfl

theorem requestExpired_dead (h : ¬ Live far line s) : requestExpired far line s = s := by
  unfold requestExpired
  refine if_pos (Decidable.byContradiction fun hguard => ?_)
  simp only [Bool.or_eq_true, Bool.not_eq_true', not_or, Bool.not_eq_false, Bool.not_eq_true, bne_eq_false_iff_eq] at hguard
  obtain ⟨⟨⟨hready, hpresent⟩, htier⟩, hintact⟩ := hguard
  exact h ⟨hready, hpresent, htier, hintact⟩

theorem reissue_first (h : (far, line) ∉ s.mem.reissued) : reissue far line s =
    { noteExpiry far (pageRegion (line / 32768)) s with mem.reissued := s.mem.reissued ++ [(far, line)] } :=
  if_neg (by simpa using h)

/-- The state in which the line of a request reissued before is given up. -/
def givenUp (far : Bool) (line : Nat) (s : State) : State :=
  { noteExpiry far (pageRegion (line / 32768)) s with mem.reissued := s.mem.reissued.filter (· != (far, line)) }

theorem reissue_again (h : (far, line) ∈ s.mem.reissued) : reissue far line s =
    lineUncorrectable far (pageRegion (line / 32768)) (pageOf s (line / 32768)).frame line (givenUp far line s) :=
  if_pos (by simpa using h)

/-- What expiry leaves, reissued or not, of the committed memory, of the module and of the run. -/
structure Expired (s t : State) : Prop where
  base    : t.mem.base = s.mem.base
  holding : t.holding = s.holding
  run     : t.run = s.run

theorem expired_reissue (far : Bool) (line : Nat) (s : State) : Expired s (reissue far line s) := by
  by_cases h : (far, line) ∈ s.mem.reissued
  · have hfailed := lineFailed_lineUncorrectable far (pageRegion (line / 32768)) (pageOf s (line / 32768)).frame line
      (givenUp far line s)
    have hholding := congrArg State.holding hfailed.rest
    have hrun := congrArg State.run hfailed.rest
    rw [reissue_again h]
    exact ⟨hfailed.base, hholding, hrun⟩
  · rw [reissue_first h]
    exact ⟨rfl, rfl, rfl⟩

theorem requestExpired_loses (h : Live far line s) (hn : 16 ≤ expiriesOf s far (pageRegion (line / 32768)) + 1)
    (hi : s.holding.isolated = false) : DeviceLost s (requestExpired far line s) := by
  have hexpired := expired_reissue far line s
  have hloses := loseDevice_loses (s := reissue far line s) (by rw [hexpired.holding]; exact hi)
  have htold := hloses.told
  rw [hexpired.holding, hexpired.run] at htold
  rw [requestExpired_live h, if_pos hn]
  exact ⟨hloses.deviceLost, hloses.isolated, htold, hloses.base.trans hexpired.base⟩

/-- The first expiry of a request, with the device still in use: the request goes out again. -/
theorem requestExpired_reissues (h : Live far line s) (hn : expiriesOf s far (pageRegion (line / 32768)) + 1 < 16)
    (hfirst : (far, line) ∉ s.mem.reissued) : ∃ t, requestExpired far line s = t ∧ (far, line) ∈ t.mem.reissued ∧
      expiriesOf t far (pageRegion (line / 32768)) = expiriesOf s far (pageRegion (line / 32768)) + 1 ∧
      { t with mem.reissued := s.mem.reissued, mem.expiries := s.mem.expiries } = s := by
  rw [requestExpired_live h, if_neg (by omega), reissue_first hfirst]
  exact ⟨_, rfl, by simp, expiriesOf_noted rfl, rfl⟩

/-- The second expiry of a request: its line is given up. -/
theorem requestExpired_givesUp (h : Live far line s) (hn : expiriesOf s far (pageRegion (line / 32768)) + 1 < 16)
    (hagain : (far, line) ∈ s.mem.reissued) : requestExpired far line s =
      lineUncorrectable far (pageRegion (line / 32768)) (pageOf s (line / 32768)).frame line (givenUp far line s) := by
  rw [requestExpired_live h, if_neg (by omega), reissue_again hagain]

end Expiry

theorem controllerFailed_loses {s : State} {region : Nat} (hready : s.ready = true) (hregion : region < 32)
    (hintact : s.mem.deviceLost = false) : controllerFailed region s = loseDevice s :=
  if_neg (by simp [hready, hregion, hintact])

theorem controllerFailed_idle {s : State} {region : Nat} (h : s.ready = false ∨ 32 ≤ region ∨ s.mem.deviceLost = true) :
    controllerFailed region s = s :=
  if_pos (by simpa [or_assoc] using h)

/-! ### The statement -/

/-- Settles O46: the parts of a page's move by its entry, a scrub and a request that expires by what they leave of errors, and the
loss of a device by the module's isolation. -/
theorem memoryRows : Obligations.MemoryRows := by
  unfold Obligations.MemoryRows
  intro s
  refine ⟨fun page => ⟨fun x hx he => ⟨fun h => ?moved, fun far frame h hmay ht => ?starts, fun h hwait => ?waits⟩,
    fun h => ?unselected, fun h => ?seals, fun h => ?noSeal, fun h => ?flips, fun h => ?noFlip, ?freed⟩,
    fun far region frame corrected uncorrectable => ⟨fun hready hframe hregion => ?scrubs, fun h => ?noScrub⟩,
    fun far line => ⟨fun ⟨hready, hpresent, htier, hintact⟩ hn hfirst => ?reissues,
      fun ⟨hready, hpresent, htier, hintact⟩ hn hagain => ?givesUp,
      fun ⟨hready, hpresent, htier, hintact⟩ hn hi => ?loses, fun h => ?dead⟩,
    fun far region => ⟨fun hready hregion hintact hi => ?fails, fun h => ?noFailure⟩⟩
  case moved => rw [exec_migrationStart, beginMove_moved hx he h]; rfl
  case starts =>
    refine ⟨_, congrArg Host.Outcome.next (beginMove_starts hx he h hmay ht), ?_, fun p hp => ?_, ?_, ?_⟩
    · rw [pageOf_traceMemory, pageOf_setPage_same]
      rfl
    · rw [pageOf_traceMemory, pageOf_setPage_other hp, pageOf_dropMove]
    · rw [traceMemory_mem]
      rfl
    · rw [traceMemory, trace_eq]
      rfl
  case waits => rw [exec_migrationStart, beginMove_waits hx he h hwait]
  case unselected => rw [exec_migrationStart, beginMove_none h]
  case seals =>
    refine ⟨_, congrArg Host.Outcome.next (sealMove_eq h), ?_, fun p hp => ?_, count_setPage_rest ..⟩
    · rw [pageOf_count, pageOf_setPage_same]
    · rw [pageOf_count, pageOf_setPage_other hp]
  case noSeal =>
    have hseal : sealMove page s = s := if_neg h
    rw [exec_migrationSeal, hseal]
  case flips =>
    refine ⟨_, exec_migrationFlip page s, ?_, fun p hp => ?_, ?_, flipMove_frame h⟩
    · rw [flipMove_eq h, pageOf_repin, pageOf_flipEntry]
      rfl
    · rw [flipMove_eq h, pageOf_repin, pageOf_flipEntry_other hp]
    · rw [flipMove_eq h, repin_flipEntry]
  case noFlip =>
    have hflip : flipMove page s = s := if_neg h
    rw [exec_migrationFlip, hflip]
  case freed =>
    have hsows := sows_sow (freeSource page s)
    have hkept := hsows.kept
    have hnew := hsows.new
    rw [freeSource_selected] at hkept hnew
    refine ⟨_, exec_migrationSourceFree page s, ?_, fun p hp => ?_, hkept, hnew, ?_⟩
    · rw [pageOf_sow, pageOf_freeSource, settled]
    · rw [pageOf_sow, pageOf_freeSource_other hp]
    · rw [hsows.frame, relocates_freeSource page s]
  case scrubs =>
    have hscrubbed := scrubbed_scrubFrame corrected uncorrectable hready hframe hregion
    refine ⟨_, exec_patrolScrub .., hscrubbed.health, hscrubbed.poisoned, fun h => hscrubbed.retired ?_,
      fun hrecurs hlines => hscrubbed.spared ?_, hscrubbed.clean, hscrubbed.base, hscrubbed.layers, hscrubbed.rest⟩
    · rw [wornOut, Bool.or_eq_true, decide_eq_true_iff]
      exact h
    · rw [wornOut, Bool.or_eq_false_iff, decide_eq_false_iff_not, Nat.not_lt]
      exact ⟨hrecurs, hlines⟩
  case noScrub => rw [exec_patrolScrub, scrubFrame_idle _ _ _ _ _ _ h]
  case reissues =>
    obtain ⟨t, ht, hreissued, hexpiries, hrest⟩ := requestExpired_reissues ⟨hready, hpresent, htier, hintact⟩ hn hfirst
    exact ⟨t, congrArg Host.Outcome.next ht, hreissued, hexpiries, hrest⟩
  case givesUp =>
    have hfailed := lineFailed_lineUncorrectable far (pageRegion (line / 32768)) (pageOf s (line / 32768)).frame line
      (givenUp far line s)
    have hexpiries := expiriesOf_noted (s := s) hfailed.expiries
    refine ⟨_, congrArg Host.Outcome.next (requestExpired_givesUp ⟨hready, hpresent, htier, hintact⟩ hn hagain),
      hfailed.poisoned, ?_, hexpiries, hfailed.retired, hfailed.base, hfailed.layers, ?_⟩
    · rw [hfailed.reissued]
      simp [givenUp]
    · calc _ = { ({ lineUncorrectable far (pageRegion (line / 32768)) (pageOf s (line / 32768)).frame line
            (givenUp far line s) with
            mem := (givenUp far line s).mem, flash.retired := s.flash.retired, counters.values := s.counters.values
            host := s.host, sheaf := s.sheaf, out := s.out } : State) with mem := s.mem } := rfl
        _ = { givenUp far line s with mem := s.mem } := congrArg (fun x : State => { x with mem := s.mem }) hfailed.rest
        _ = s := rfl
  case loses =>
    have hloses := requestExpired_loses ⟨hready, hpresent, htier, hintact⟩ hn hi
    exact ⟨_, rfl, hloses.deviceLost, hloses.isolated, hloses.told, hloses.base⟩
  case dead =>
    have hdead : ¬ Live far line s := fun hlive => h ⟨hlive.ready, hlive.present, hlive.tier, hlive.intact⟩
    rw [exec_memTimeout, requestExpired_dead hdead]
  case fails =>
    have hloses := loseDevice_loses hi
    exact ⟨_, congrArg Host.Outcome.next (controllerFailed_loses hready hregion hintact), hloses.deviceLost, hloses.isolated,
      hloses.told, hloses.base⟩
  case noFailure => rw [exec_memoryControllerFailure, controllerFailed_idle h]

end Sys2Proof.Proofs
end

section
/-!
PROOFS. Descriptors at the order point that accept a segment, retire one, define a tensor or release one: pages pinned, the order
sent to the other modules, and the row that delivers the descriptor (12 R243, R245, 13 R277, R289).
-/
namespace Sys2Proof.Proofs

open Sys2Proof Sys2Proof.Machine Sys2Proof.Safety Sys2Proof.Laws

/-! ### Pages pinned (11 R231 to R233, 08 R164) -/

/-- From `s` to `t` entries of pages and the pages selected to move may have changed, and nothing else. -/
def Pins (s t : State) : Prop := t = { s with mem.pages := t.mem.pages, mem.selected := t.mem.selected }

theorem Pins.refl (s : State) : Pins s s := rfl

theorem Pins.trans {s t u : State} (a : Pins s t) (b : Pins t u) : Pins s u := by
  unfold Pins at *
  rw [b, a]

theorem Pins.foldl {α : Type} {g : State → α → State} (hg : ∀ t x, Pins t (g t x)) (l : List α) (s : State) :
    Pins s (l.foldl g s) :=
  foldl_inv (p := Pins s) (fun u x h => h.trans (hg u x)) l (.refl s)

theorem pins_pinPage (far : Bool) (p : Nat) (s : State) : Pins s (pinPage far p s) := by
  unfold pinPage
  dsimp only
  split
  · split <;> rfl
  · split <;> rfl

theorem pins_pinTensor (far : Bool) (t : TensorRec) (s : State) : Pins s (pinTensor far t s) := by
  unfold pinTensor
  split
  · exact .foldl (fun u p => pins_pinPage far p u) _ s
  · exact .refl s

theorem pins_pinDefault (t : TensorRec) (s : State) : Pins s (pinDefault t s) := by
  unfold pinDefault
  split
  · refine .foldl (fun u p => ?_) _ s
    split
    · exact .refl u
    · exact pins_pinPage true p u
  · exact .refl s

theorem pins_acceptPins (g : Segment) (s : State) : Pins s (acceptPins g s) := by
  unfold acceptPins
  dsimp only
  refine Pins.trans (.foldl (fun u i => ?_) _ s) (.foldl (fun u t => ?_) _ _)
  · split
    · split
      · exact .refl u
      · exact pins_pinDefault _ u
    · exact .refl u
  · split
    · exact pins_pinTensor t.pinFar t u
    · exact .refl u

/-! ### The order sent (R289; log entry 15) -/

/-- From `s` to `t` the order `o` has been sent, and nothing but the trace and what is sent has changed. -/
structure Spreads (o : ModId × Hedge) (s t : State) : Prop where
  sent : t.out.hedge = s.out.hedge ++ [o]
  rest : t = { s with sheaf := t.sheaf, out := t.out }

theorem spreads_spread (op : DescOp) (d : Desc) (s : State) : Spreads (orderOut op d s) s (spread op d s) := by
  unfold spread
  rw [sendHedge_eq]
  exact ⟨rfl, rfl⟩

/-! ### The row of a descriptor (R275, R281) -/

/-- A descriptor that executes here, RUN_BEGIN aside, leaves the result of its own effect at the order point. -/
theorem takeDescriptor_of_executes {op : DescOp} {d : Desc} {s : State} (h : Executes op d s) (hop : op ≠ .runBegin) :
    let p := atOrderPoint op d s
    takeDescriptor op d s = advance (record op d (runDesc 0 p.holding.number.toNat op d p)) := by
  intro p
  have hfront : executeFront d.ring (fetched op d s) = executeOne d.ring op d (fetched op d s) := by
    unfold executeFront
    rw [h.front]
  have hone : executeOne d.ring op d (fetched op d s) = record op d (runDesc 0 p.holding.number.toNat op d p) := by
    have hhere : runWide (trace 1 0 false 0 (BitVec.allOnes 32) (descData op d 0) (setSub d.ring (fun r =>
      { r with waiting := r.waiting.drop 1, executed := r.executed + 1 }) (fetched op d s))) op d = false := h.here
    unfold executeOne
    dsimp only
    rw [if_neg (Bool.eq_false_iff.1 hhere), if_neg hop]
    rfl
  rw [takeDescriptor, if_pos h.takes, hfront, hone]

/-- What a descriptor row yields, from what its opcode does at the order point. -/
theorem yields_of_runDesc {c : Instr} {op : DescOp} {d : Desc} {s u : State} {r : Result} {P : State → State → Prop}
    (hrow : exec c s = .next (takeDescriptor op d s)) (h : Executes op d s) (hop : op ≠ .runBegin)
    (hrun : runDesc 0 (atOrderPoint op d s).holding.number.toNat op d (atOrderPoint op d s) = (u, r))
    (hP : P (atOrderPoint op d s) u) : Yields c op d s r P :=
  ⟨u, by rw [hrow, takeDescriptor_of_executes h hop, hrun], hP⟩

/-- The way to the order point touches a ring and the trace alone. -/
theorem atOrderPoint_eq (op : DescOp) (d : Desc) (s : State) : atOrderPoint op d s =
    { s with host.sub := (atOrderPoint op d s).host.sub, sheaf := (atOrderPoint op d s).sheaf } := by
  unfold atOrderPoint
  rw [trace_eq]
  rfl

/-! ### A segment accepted (12 R243) -/

/-- The segment that is kept of the bytes submitted: its stints resolved. -/
def keptBytes (b : Bytes) (s : State) : Bytes := resolveStints s.numerics.stintDefault.toNat b

/-- The segment as it is held. -/
def keptSegment (b : Bytes) (s : State) : Segment := (draftOf s (parseSegment (keptBytes b s))).g

/-- From `s` to `t` the segment of `b` has been installed under the lowest free number, its digest extended into the measurements,
and pages pinned. -/
structure Installs (b : Bytes) (s t : State) : Prop where
  digest   : (tget {} t.graph.dir (freeSegment s)).digest = digestBits (sha256 (keptBytes b s))
  segment  : (tget {} t.graph.dir (freeSegment s)).segment = some (keptSegment b s)
  state    : (tget {} t.graph.dir (freeSegment s)).state = if (keptSegment b s).standing then 1 else 2
  others   : ∀ k, k ≠ freeSegment s → tget {} t.graph.dir k = tget {} s.graph.dir k
  measured : t.security.meas = s.security.meas.set 4 (digestBits (sha256
    (digestBytes (s.security.meas.getD 4 0) ++ digestBytes (digestBits (sha256 (keptBytes b s))))))
  rest     : t = { s with
    graph := t.graph, harrows.blocks := t.harrows.blocks, security.meas := t.security.meas, mem.pages := t.mem.pages
    mem.selected := t.mem.selected }

/-- A state with a segment entered into the directory under the number `n`, and its blocks. -/
def entered (n : Nat) (e : DirEntry) (blocks : List BlockSolve) (s : State) : State :=
  { s with
    graph.dir := tset {} s.graph.dir n e
    graph.solveSlots := s.graph.solveSlots + blocks.length
    harrows.blocks := (s.harrows.blocks.filter fun x => x.key.seg != n) ++ blocks }

theorem installSegment_eq (b : Bytes) (s : State) : ∃ e blocks,
    e.digest = digestBits (sha256 (keptBytes b s)) ∧ e.segment = some (keptSegment b s) ∧
    e.state = (if (keptSegment b s).standing then 1 else 2) ∧
    installSegment b s = (freeSegment s,
      extendMeas 4 (digestBytes e.digest) (acceptPins (keptSegment b s) (entered (freeSegment s) e blocks s))) :=
  ⟨_, _, rfl, rfl, rfl, rfl⟩

theorem installSegment_installs (b : Bytes) (s : State) : Installs b s (installSegment b s).2 := by
  obtain ⟨e, blocks, hdigest, hsegment, hstate, heq⟩ := installSegment_eq b s
  have hpins := pins_acceptPins (keptSegment b s) (entered (freeSegment s) e blocks s)
  rw [heq]
  dsimp only
  generalize acceptPins (keptSegment b s) (entered (freeSegment s) e blocks s) = t at *
  have hdir : t.graph.dir = tset {} s.graph.dir (freeSegment s) e := by rw [hpins]; rfl
  have hentry : tget {} t.graph.dir (freeSegment s) = e := by rw [hdir, tget_tset_same]
  refine ⟨?_, ?_, ?_, fun k hk => ?_, ?_, ?_⟩
  · exact (congrArg DirEntry.digest hentry).trans hdigest
  · exact (congrArg DirEntry.segment hentry).trans hsegment
  · exact (congrArg DirEntry.state hentry).trans hstate
  · exact (congrArg (tget {} · k) hdir).trans (tget_tset_other _ _ _ hk)
  · rw [extendMeas, hpins, hdigest]
    rfl
  · rw [extendMeas, hpins]
    rfl

theorem submitGraph_accepts {b : Bytes} {s : State} (hok : segmentOk s b = true)
    (hpermit : s.isLead = true ∨ groupOutside s (parseSegment b).group = false) (hquiet : s.quiet = true)
    (hnames : segmentConflicts s (parseSegment b) = false) (hroom : storeFull s (parseSegment b) = false)
    (hshot : (parseSegment b).standing = true ∨ ∀ c, s.run.created = some c → c < (parseSegment b).oneShot) :
    submitGraph true b s = accept (freeSegment s) (installSegment b s).2 := by
  have houtside : ¬ (true && !s.isLead && groupOutside s (parseSegment b).group) = true := by
    rcases hpermit with h | h <;> simp [h]
  unfold submitGraph
  dsimp only
  rw [if_neg (by simp [hok]), if_neg houtside, if_neg (by simp [hquiet]), if_neg (by simp [hnames, hroom])]
  refine if_neg fun hlate => ?_
  obtain ⟨honce, hpast⟩ := Bool.and_eq_true_iff.1 hlate
  rcases hshot with hstanding | hlater
  · simp [hstanding] at honce
  · cases hc : s.run.created with
    | none =>
      rw [hc] at hpast
      exact absurd hpast Bool.false_ne_true
    | some c =>
      rw [hc] at hpast
      exact absurd (hlater c hc) (Nat.not_lt.2 (of_decide_eq_true hpast))

/-! ### Tensors -/

/-- The tensor entered under its index, with its group; what the exporter kept of another under that index is forgotten. -/
def tensorEntered (i group : Nat) (t : TensorRec) (s : State) : State :=
  { s with
    graph.tensors := tset none s.graph.tensors i (some t)
    graph.tensorGroups := tset 0xFFFF s.graph.tensorGroups i group
    exporter.images := s.exporter.images.filter fun x => x.1 != i
    exporter.keyed := s.exporter.keyed.filter fun x => x.1 != i }

theorem defineTensor_enters (i group : Nat) (t : TensorRec) (s : State) :
    Pins (tensorEntered i group t s) (defineTensor i group t s) := by
  unfold defineTensor
  dsimp only
  split
  · exact pins_pinTensor t.pinFar t _
  · exact rfl

/-! ### The rows -/

theorem exec_graphSubmit (d : Desc) (s : State) : exec (.graphSubmit d) s = .next (takeDescriptor .graphSubmit d s) := rfl

theorem exec_graphRetire (d : Desc) (s : State) : exec (.graphRetire d) s = .next (takeDescriptor .graphRetire d s) := rfl

theorem exec_tensorDefine (d : Desc) (s : State) : exec (.tensorDefine d) s = .next (takeDescriptor .tensorDefine d s) := rfl

theorem exec_tensorRelease (d : Desc) (s : State) :
    exec (.tensorRelease d) s = .next (takeDescriptor .tensorRelease d s) := rfl

theorem runDesc_graphSubmit {kind holding : Nat} {d : Desc} {b : Bytes} {s : State} (hheader : headerBad d = false)
    (hb : segmentBytes d = .ok b) (haccepts : submitGraph true b s = accept (freeSegment s) (installSegment b s).2) :
    runDesc kind holding .graphSubmit d s =
      (spread .graphSubmit d (installSegment b s).2, .done stOk (freeSegment s)) := by
  have hrun : runDesc kind holding .graphSubmit d s = runGraphSubmit d s := if_neg (Bool.eq_false_iff.1 hheader)
  rw [hrun, runGraphSubmit, hb]
  dsimp only
  rw [haccepts]
  rfl

theorem runDesc_graphRetire {kind holding : Nat} {d : Desc} {g : Segment} {s : State} (hheader : headerBad d = false)
    (hcount : noCount d = true) (hzero : dZeroFrom d 17 = true)
    (hsegment : (tget {} s.graph.dir (dAt d 16 1)).segment = some g) (hnamed : namedElsewhere s (dAt d 16 1) g = false)
    (hlast : (tget {} s.graph.dir (dAt d 16 1)).lastStep = 0) :
    runDesc kind holding .graphRetire d s =
      (spread .graphRetire d (retireSegment (dAt d 16 1) s), .later (.retire (dAt d 16 1))) := by
  have hrun : runDesc kind holding .graphRetire d s = runGraphRetire d s := if_neg (Bool.eq_false_iff.1 hheader)
  rw [hrun, runGraphRetire]
  rw [if_neg (by simp [hcount, hzero]), hsegment]
  dsimp only
  rw [if_neg (by simp [hnamed]), if_neg (Classical.not_not.2 hlast)]

theorem runDesc_tensorDefine {kind holding : Nat} {d : Desc} {t : TensorRec} {s : State} (hheader : headerBad d = false)
    (ht : tensorOf s d = .ok t) (hpermit : s.isLead = true ∨ groupOutside s (dAt d 28 2) = false) (hquiet : s.quiet = true)
    (hgroup : dAt d 28 2 = 0xFFFF ∨ (groupOf s (dAt d 28 2)).isSome = true) (hfree : findTensor s (dAt d 24 4) = none) :
    runDesc kind holding .tensorDefine d s =
      (spread .tensorDefine d (defineTensor (dAt d 24 4) (dAt d 28 2) t s), .done stOk 0) := by
  have hrun : runDesc kind holding .tensorDefine d s = runTensorDefine d s := if_neg (Bool.eq_false_iff.1 hheader)
  have hpermitted : ¬ (groupOutside s (dAt d 28 2) && !s.isLead) = true := by rcases hpermit with h | h <;> simp [h]
  have hdefined : (dAt d 28 2 != 0xFFFF && (groupOf s (dAt d 28 2)).isNone) = false := by
    rcases hgroup with h | h
    · simp [h]
    · simp [Option.isNone_eq_false_iff.2 h]
  rw [hrun, runTensorDefine]
  rw [ht]
  dsimp only
  rw [if_neg hpermitted, if_neg (by rw [hdefined]; simp [hquiet, hfree])]

theorem runDesc_tensorRelease {kind holding : Nat} {d : Desc} {s : State} (hheader : headerBad d = false)
    (hcount : noCount d = true) (hzero : dZeroIn d 16 8 = true) (hzeroEnd : dZeroFrom d 28 = true)
    (hpermit : s.isLead = true ∨ groupOutside s (tget 0xFFFF s.graph.tensorGroups (dAt d 24 4)) = false)
    (hquiet : s.quiet = true) (hdefined : (tget none s.graph.tensors (dAt d 24 4)).isSome = true)
    (hnamed : ((heldSegments s).any fun e => (namedTensors e.2).contains (dAt d 24 4)) = false) :
    runDesc kind holding .tensorRelease d s =
      (spread .tensorRelease d (releaseTensor (dAt d 24 4) s), .done stOk 0) := by
  have hrun : runDesc kind holding .tensorRelease d s = runTensorRelease d s := if_neg (Bool.eq_false_iff.1 hheader)
  have hpermitted : ¬ (releaseOutside s (dAt d 24 4) && !s.isLead) = true := by
    unfold releaseOutside
    rcases hpermit with h | h <;> simp [h]
  rw [hrun, runTensorRelease]
  rw [if_neg (by simp [hcount, hzero, hzeroEnd]), if_neg hpermitted,
    if_neg (by rw [hnamed]; simp [hquiet, Option.isNone_eq_false_iff.2 hdefined])]

/-- Settles O29: each order by what its opcode does at the order point, and by what the order sent leaves. -/
theorem graphAndTensorOrders : Obligations.GraphAndTensorOrders := by
  unfold Obligations.GraphAndTensorOrders
  intro d s
  refine ⟨?submit, ?retire, ?define, ?release⟩
  case submit =>
    intro b h hb p g n kept hok hpermit hquiet hnames hroom hshot
    have haccepts := submitGraph_accepts hok hpermit hquiet hnames hroom hshot
    refine yields_of_runDesc (exec_graphSubmit d s) h nofun (runDesc_graphSubmit h.header hb haccepts) ?_
    obtain ⟨hdigest, hsegment, hstate, hothers, hmeasured, hrest⟩ := installSegment_installs b p
    obtain ⟨hsent, hspread⟩ := spreads_spread .graphSubmit d (installSegment b p).2
    generalize spread .graphSubmit d (installSegment b p).2 = u at *
    generalize (installSegment b p).2 = t at *
    have hgraph : u.graph = t.graph := by rw [hspread]
    have hmeas : u.security.meas = t.security.meas := by rw [hspread]
    rw [hgraph, hmeas]
    refine ⟨hdigest, hsegment, fun hon => hstate.trans (if_pos hon),
      fun hoff => hstate.trans (if_neg (Bool.eq_false_iff.1 hoff)), hothers, ?_, hmeasured, ?_⟩
    · rw [hsent, hrest]
      rfl
    · rw [hspread, hrest]
  case retire =>
    intro g h n hcount hzero hsegment hnamed hlast
    have hp := atOrderPoint_eq .graphRetire d s
    have hrun := runDesc_graphRetire (kind := 0) (holding := (atOrderPoint .graphRetire d s).holding.number.toNat)
      (g := g) (s := atOrderPoint .graphRetire d s) h.header hcount hzero
      (by rw [hp]; exact hsegment) (by rw [hp]; exact hnamed) (by rw [hp]; exact hlast)
    refine yields_of_runDesc (exec_graphRetire d s) h nofun hrun ?_
    generalize atOrderPoint .graphRetire d s = p
    obtain ⟨hsent, hspread⟩ := spreads_spread .graphRetire d (retireSegment n p)
    generalize spread .graphRetire d (retireSegment n p) = u at *
    have hdir : u.graph.dir = tmod {} p.graph.dir n fun e => { e with state := 3 } := by rw [hspread]; rfl
    rw [hdir]
    exact ⟨tget_tmod_same .., fun k hk => tget_tmod_other _ _ _ hk, hsent, by rw [hspread]; rfl⟩
  case define =>
    intro t h ht hpermit hquiet hgroup hfree
    have hp := atOrderPoint_eq .tensorDefine d s
    have hrun := runDesc_tensorDefine (kind := 0) (holding := (atOrderPoint .tensorDefine d s).holding.number.toNat)
      (s := atOrderPoint .tensorDefine d s) h.header ht (by rw [hp]; exact hpermit) (by rw [hp]; exact hquiet)
      (by rw [hp]; exact hgroup) (by rw [hp]; exact hfree)
    refine yields_of_runDesc (exec_tensorDefine d s) h nofun hrun ?_
    clear hrun hp ht
    generalize atOrderPoint .tensorDefine d s = p
    have hpins := defineTensor_enters (dAt d 24 4) (dAt d 28 2) t p
    generalize defineTensor (dAt d 24 4) (dAt d 28 2) t p = v at *
    obtain ⟨hsent, hspread⟩ := spreads_spread .tensorDefine d v
    generalize spread .tensorDefine d v = u at *
    have htensors : u.graph.tensors = tset none p.graph.tensors (dAt d 24 4) (some t) := by rw [hspread, hpins]; rfl
    have hgroups : u.graph.tensorGroups = tset 0xFFFF p.graph.tensorGroups (dAt d 24 4) (dAt d 28 2) := by
      rw [hspread, hpins]; rfl
    rw [htensors, hgroups]
    refine ⟨tget_tset_same .., fun k hk => tget_tset_other _ _ _ hk, tget_tset_same .., ?_, ?_⟩
    · rw [hsent, hpins]
      rfl
    · rw [hspread, hpins]
      rfl
  case release =>
    intro h hcount hzero hzeroEnd hpermit hquiet hdefined hnamed
    have hp := atOrderPoint_eq .tensorRelease d s
    have hrun := runDesc_tensorRelease (kind := 0) (holding := (atOrderPoint .tensorRelease d s).holding.number.toNat)
      (s := atOrderPoint .tensorRelease d s) h.header hcount hzero hzeroEnd (by rw [hp]; exact hpermit)
      (by rw [hp]; exact hquiet) (by rw [hp]; exact hdefined) (by rw [hp]; exact hnamed)
    refine yields_of_runDesc (exec_tensorRelease d s) h nofun hrun ?_
    clear hrun hp
    generalize atOrderPoint .tensorRelease d s = p
    obtain ⟨hsent, hspread⟩ := spreads_spread .tensorRelease d (releaseTensor (dAt d 24 4) p)
    generalize spread .tensorRelease d (releaseTensor (dAt d 24 4) p) = u at *
    have htensors : u.graph.tensors = tset none p.graph.tensors (dAt d 24 4) none := by rw [hspread]; rfl
    rw [htensors]
    exact ⟨tget_tset_same .., fun k hk => tget_tset_other _ _ _ hk, hsent, by rw [hspread]; rfl⟩

end Sys2Proof.Proofs
end

section
/-!
PROOFS. The publication of a task of stream B seals the pending blocks of every active segment (06 R117). The model finds the active
segments by the entries of the directory, and the one to seal by its number; where a number is listed twice the two part.
-/
namespace Sys2Proof.Proofs

open Sys2Proof Sys2Proof.Machine Sys2Proof.Laws

theorem exec_tileComplete (step : Nat) (task : W32) (attempt : Nat) (s : State) :
    exec (.tileComplete step task attempt) s = .next (advance (tileComplete step task attempt s)) := rfl

/-! ### A module at rest -/

/-- A module that has no run, no order and no request under way. -/
structure Resting (s : State) : Prop where
  unreached  : s.lamio.unreached = []
  succession : s.run.succession = none
  roll       : s.run.rollTo = none
  off        : s.run.isOn = false
  seedbed    : s.run.seedbedHead = none
  jobs       : s.run.jobs = []
  rings      : s.host.sub = []

theorem Resting.not_moving {s : State} (h : Resting s) : s.moving = false := by
  simp [State.moving, h.off]

theorem continueRoll_of_none {s : State} (h : s.run.rollTo = none) : continueRoll s = s := by
  simp [continueRoll, h]

/-- Of a module at rest `advance` moves nothing but the times since which its task runs are eligible. -/
theorem Resting.advance {s : State} (h : Resting s) : advance s = stampEligible s := by
  have hsettle := settle_of_not_moving h.not_moving h.seedbed
  rw [Machine.advance, answerUnreached_of_none h.unreached, lateFindings_of_not_moving h.not_moving,
    settleSuccession_of_none h.succession, continueRoll_of_none h.roll, hsettle, drain_of_empty h.jobs h.rings, hsettle]

theorem Resting.advance_mem {s : State} (h : Resting s) : (Machine.advance s).mem = s.mem := by
  rw [h.advance]
  rfl

theorem Resting.of_eq {s t : State} (h : Resting s) (hlamio : t.lamio = s.lamio) (hrun : t.run = s.run)
    (hhost : t.host = s.host) : Resting t := by
  obtain ⟨a, b, c, d, e, f, g⟩ := h
  exact ⟨hlamio ▸ a, hrun ▸ b, hrun ▸ c, hrun ▸ d, hrun ▸ e, hrun ▸ f, hhost ▸ g⟩

/-! ### A segment number listed twice -/

/-- A segment without tasks and statistics, for every module. -/
def idleSegment : Segment :=
  { standing := true, layers := 0, oneShot := 0, taskBase := 0, tensorBase := 0, evalInterval := 0, evalPhase := 0
    group := 0xFFFF, bytes := [], tensors := [], views := [], tasks := [], edges := [], stats := [], roots := []
    updates := [], programs := [], order := [] }

/-- A statistic of one block of one element, due in every step. -/
def oneBlock : StatRec :=
  { running := 0, pendingT := 0, kind := 0, norm := 0, firstFold := false, interval := 1, phase := 0, blockLog2 := 0
    beta := 0, layer := 0, multM1 := 0, rows := 1, cols := 1 }

/-- A run of stream B in step 0 before its last tile, its output to be staged. -/
def lastTile : TaskInst :=
  { step := 0, task := 0, seg := 1, index := 0, stream := streamB, gate := 0, phase := .computed, seedbed := false
    attempt := 1, unit := 0, tiles := 1, done := 0, overran := [], cells := [(64, 1)], staged := true, event := none
    findings := 0, counts := [], status := stOk, contributions := [], boost := 0, eligibleAt := none, pubSeq := 0 }

/-- A directory that lists the number 0 twice: first a segment that is not active, with a statistic whose block is complete (its
STATE, byte 4 of its header, is 1), then an active one without statistics. -/
def twiceListed : State :=
  { State.reset with
    graph.dir := [(0, { segment := some { idleSegment with stats := [oneBlock] } }),
      (0, { state := 1, segment := some idleSegment })]
    mem.base := [(4, 1)]
    sched.tasks := [lastTile] }

theorem twiceListed_resting : Resting twiceListed := ⟨rfl, rfl, rfl, rfl, rfl, rfl, rfl⟩

/-- No segment active in the step has a statistic. -/
theorem twiceListed_active : activeSegments twiceListed 0 = [(0, idleSegment)] := by decide +kernel

/-- The publication lays two versions: the staged output, and the header of the block sealed. -/
theorem twiceListed_seals : (tileComplete 0 0 1 twiceListed).mem.layers.length = 2 := by decide +kernel

/-- Whatever state leads to that answer holds both versions. -/
theorem twiceListed_layers {u : State} (hu : Resting u)
    (h : exec (.tileComplete 0 0 1) twiceListed = .next (advance u)) : u.mem.layers.length = 2 := by
  have hdone : Resting (tileComplete 0 0 1 twiceListed) := ⟨rfl, rfl, rfl, rfl, rfl, rfl, rfl⟩
  have hadvance : advance (tileComplete 0 0 1 twiceListed) = advance u := Host.Outcome.next.inj h
  calc u.mem.layers.length
    _ = (advance u).mem.layers.length := by rw [hu.advance_mem]
    _ = (tileComplete 0 0 1 twiceListed).mem.layers.length := by rw [← hadvance, hdone.advance_mem]
    _ = 2 := twiceListed_seals

/-- Refutes O44: its clause on a task's last tile holds the versions to the task's output alone when no statistic of an active segment
is due; the block sealed here is that of an entry that is not active and has the number of one that is. -/
theorem not_schedulerAndFaultRows : ¬ Obligations.SchedulerAndFaultRows := by
  unfold Obligations.SchedulerAndFaultRows
  intro h
  obtain ⟨-, -, -, tile, -⟩ := h twiceListed
  obtain ⟨-, publishes, -⟩ := tile lastTile rfl
  have hgoes : lastTile.phase = .computed ∧ lastTile.done < lastTile.tiles ∧
      ownEnd (kindOf twiceListed lastTile) = false ∧
      ¬ (unitOf twiceListed lastTile = 0 ∧ lastTile.unit ∈ twiceListed.sched.halted) ∧
      (twiceListed.lamio.txns.any fun x => x.task == some (lastTile.step, lastTile.task)) = false :=
    ⟨rfl, by decide, rfl, by rintro ⟨-, hhalted⟩; exact List.not_mem_nil hhalted, rfl⟩
  have hnone : ∀ e ∈ activeSegments twiceListed 0, ∀ x ∈ e.2.stats, x.due 0 = false := by
    simp [twiceListed_active, idleSegment]
  obtain ⟨u, hexec, -, -, -, -, hstaged, -, -, hrest⟩ :=
    publishes hgoes rfl rfl (by decide) (by decide) fun _ => hnone
  have hlamio := congrArg State.lamio hrest
  have hrun := congrArg State.run hrest
  have hhost := congrArg State.host hrest
  have hresting : Resting u := twiceListed_resting.of_eq hlamio hrun hhost
  have htwo := twiceListed_layers hresting hexec
  obtain ⟨-, hone⟩ := hstaged rfl
  rw [hone] at htwo
  exact absurd htwo (by decide)

end Sys2Proof.Proofs
end

section
/-!
PROOFS. How a row of a computing kind starts its task run: the works, which stage nothing; the frames of a run, which depend on no
byte, journal or vector engine; the engine that a program takes; the run that meets an address error (12 R252, R253, R261, R262,
05 R89, R91, 11 R224).
-/
namespace Sys2Proof.Proofs

open Sys2Proof Sys2Proof.Machine Sys2Proof.Safety Sys2Proof.Laws

/-! ### What a work's operations leave of it -/

section

variable (unit kIndex view fa fb len : Nat) (o : Operand) (v : Nat → Machine.Num) (cs : List Cell) (w : Written) (x : Work)

@[simp] theorem written_staged : (x.written unit kIndex view o w).staged = x.staged := rfl

@[simp] theorem written_fail : (x.written unit kIndex view o w).fail = x.fail := rfl

@[simp] theorem put_staged : (x.put unit kIndex view o v).staged = x.staged := rfl

@[simp] theorem put_fail : (x.put unit kIndex view o v).fail = x.fail := rfl

@[simp] theorem put_cells : (x.put unit kIndex view o v).cells = x.cells ++ (o.write v).cells := rfl

@[simp] theorem cellsDone_staged : (x.cellsDone unit view fa fb len cs).staged = x.staged := rfl

@[simp] theorem cellsDone_fail : (x.cellsDone unit view fa fb len cs).fail = x.fail := rfl

@[simp] theorem cellsDone_cells : (x.cellsDone unit view fa fb len cs).cells = x.cells := rfl

end

theorem putStores_staged (c : VecCtx) (outs : List Operand) (x : Work) : (putStores c outs x).staged = x.staged := by
  unfold putStores
  refine foldl_inv (p := fun y : Work => y.staged = x.staged) (fun y e h => ?_) _ rfl
  dsimp only
  split
  · exact h
  · exact h

/-! ### The works of the kinds stage nothing -/

section

variable (s : State) (unit : Nat) (t : TaskInst) (g : Segment) (k : TaskRec)

theorem matmulWork_staged (r : Reader) (gate : Pos) (img : Option Bytes) (a b c : Operand) (pre : Option Operand) :
    (matmulWork s r unit gate k img a b pre c).staged = false := by
  unfold matmulWork
  dsimp only
  split
  · rfl
  · exact putStores_staged ..

theorem matmulRun_staged : (matmulRun s unit t g k).staged = false := by
  unfold matmulRun
  split
  · exact matmulWork_staged ..
  · rfl

theorem attentionFwdRun_staged : (attentionFwdRun s unit t g k).staged = false := by
  unfold attentionFwdRun
  split <;> rfl

theorem attentionBwdRun_staged : (attentionBwdRun s unit t g k).staged = false := by
  unfold attentionBwdRun
  split <;> rfl

theorem vectorProgramRun_staged : (vectorProgramRun s unit t g k).staged = false := by
  unfold vectorProgramRun
  split
  · exact putStores_staged ..
  · rfl

theorem normRun_staged : (normRun s unit t g k).staged = false := by
  unfold normRun
  split <;> rfl

theorem softmaxRun_staged : (softmaxRun s unit t g k).staged = false := by
  unfold softmaxRun
  split <;> rfl

theorem lossRun_staged : (lossRun s unit t g k).staged = false := by
  unfold lossRun
  split <;> rfl

theorem gatherRun_staged : (gatherRun s unit t g k).staged = false := by
  unfold gatherRun
  split
  · unfold gatherWork
    dsimp only
    split <;> rfl
  · rfl

theorem scatterWork_staged (r : Reader) (add : Bool) (src idx table : Operand) :
    (scatterWork s r unit add src idx table).staged = false := by
  unfold scatterWork
  dsimp only
  split
  · rfl
  · refine foldl_inv (p := fun y : Work => y.staged = false) (fun y row h => ?_) _ rfl
    split
    · exact h
    · exact h

theorem scatterRun_staged : (scatterRun s unit t g k).staged = false := by
  unfold scatterRun
  split
  · exact scatterWork_staged ..
  · rfl

theorem preconditionRun_staged : (preconditionRun s unit t g k).staged = false := by
  unfold preconditionRun
  split
  · unfold preconditionWork
    split <;> rfl
  · rfl

theorem matmulStatRun_staged : (matmulStatRun s unit t g k).staged = false := by
  unfold matmulStatRun
  split
  · unfold statWork
    refine foldl_inv (p := fun y : Work => y.staged = false) (fun y i h => ?_) _ rfl
    exact h
  · rfl

end

/-! ### Frames for a run do not depend on bytes, journals and engines -/

/-- The state with other committed bytes, versions, journals and vector engines. -/
def withHome (b : Sparse Byte) (l : List Layer) (j : List FoldJournal) (e : Sparse VecCtx) (s : State) : State :=
  { s with mem.base := b, mem.layers := l, mem.folds := j, vec := e }

section

variable (b : Sparse Byte) (l : List Layer) (j : List FoldJournal) (e : Sparse VecCtx)

theorem freeFrameFrom_withHome (s : State) (far : Bool) (region n i : Nat) :
    freeFrameFrom (withHome b l j e s) far region n i = freeFrameFrom s far region n i := by
  induction n generalizing i with
  | zero => rfl
  | succ n ih =>
    rw [freeFrameFrom, freeFrameFrom, ih]
    rfl

theorem freeFrame_withHome (s : State) (far : Bool) (region : Nat) :
    freeFrame (withHome b l j e s) far region = freeFrame s far region := freeFrameFrom_withHome ..

theorem tierOf_withHome (s : State) (p : Nat) : tierOf (withHome b l j e s) p = tierOf s p := rfl

theorem freshFrames_withHome (step : Nat) (task : W32) (ps : List Nat) (s : State) :
    freshFrames step task ps (withHome b l j e s) = (freshFrames step task ps s).map (withHome b l j e) := by
  induction ps generalizing s with
  | nil => rfl
  | cons p ps ih =>
    rw [freshFrames_cons, freshFrames_cons, apply_ite (Option.map (withHome b l j e)), tierOf_withHome, freeFrame_withHome,
      ← ih, Option.map_bind]
    exact congrArg (ite _ _) (congrArg _ (funext fun f => ih (addFresh ⟨step, task, p, tierOf s p, f⟩ s)))

theorem runFrames_of_not_staged {w : Work} (hw : w.staged = false) (t : TaskInst) (s : State) :
    runFrames w t s = freshFrames t.step t.task (outputPages s t) s := by
  simp [runFrames, stagedPages, hw, stageFrames]

/-- A run that stages nothing and whose outputs have frames to be had finds them whatever the bytes, journals and engines. -/
theorem runFrames_withHome {w : Work} (hw : w.staged = false) {t : TaskInst} {s : State}
    (h : (freshFrames t.step t.task (outputPages s t) s).isSome = true) :
    ∃ u, runFrames w t (withHome b l j e s) = some u := by
  obtain ⟨u, hu⟩ := Option.isSome_iff_exists.1 h
  have hpages : outputPages (withHome b l j e s) t = outputPages s t := rfl
  refine ⟨withHome b l j e u, ?_⟩
  rw [runFrames_of_not_staged hw, hpages, freshFrames_withHome, hu, Option.map_some]

end

/-! ### The vector engine that a program takes (05 R89, R91) -/

/-- The state with other vector engines. -/
def withEngines (e : Sparse VecCtx) (s : State) : State := { s with vec := e }

theorem started_of_withEngines {r : TaskRun} {w : Work} {t : TaskInst} {e : Sparse VecCtx} {s v : State}
    (h : Started r w t (withEngines e s) v) : Started r w t s v := by
  obtain ⟨hrun, hothers, hreads, hbase, hrest⟩ := h
  exact ⟨hrun, hothers, hreads, hbase, congrArg (withEngines s.vec) hrest⟩

theorem startRun_vec {r : TaskRun} {w : Work} {t : TaskInst} {s u : State} (h : runFrames w t s = some u) :
    (startRun r w t s).vec = s.vec := by
  obtain ⟨t', v, -, hready, hend⟩ := startRun_computes r h
  have hbefore := (runFrames_stages h).1.trans hready
  rw [hend.rest.eq, setTask, hbefore.rest.eq]

/-- The first group of a task's program: the engine bound to the task, at its first instruction, the lanes of the group live. -/
structure AtFirstGroup (r : TaskRun) (t : TaskInst) (n : Nat) (c : VecCtx) : Prop where
  task  : c.task = some (t.step, t.task)
  gate  : c.gate = t.gate
  pc    : c.pc = 0
  first : c.first = 0
  row   : c.row = 0
  group : c.group = 0
  tail  : c.tail = false
  m     : c.m = []
  d     : c.d = []
  live  : ∀ j, j < 64 → c.live.getLsbD j = decide (j < n)

theorem bindVector_binds (r : TaskRun) (t : TaskInst) (g : Segment) (k : TaskRec) (img : Bytes) (s : State) :
    ∃ e, bindVector r.unit t g k img s = withEngines (tset {} s.vec r.unit e) s ∧
      AtFirstGroup r t (((outsOf s g k).head?.map Operand.row).getD 0) e := by
  refine ⟨_, rfl, rfl, rfl, rfl, ?_, rfl, rfl, rfl, rfl, rfl, fun j hj => ?_⟩
  · exact Nat.zero_mul _
  · exact (maskOf_getLsbD _ hj).trans (decide_eq_decide.2 (by omega))

/-! ### A run that meets an address error (11 R224) -/

theorem holdRun_eq (again : Bool) (s : State) : holdRun again s =
    { s with run := (holdRun again s).run, sheaf := (holdRun again s).sheaf, out := (holdRun again s).out } := by
  unfold holdRun
  split
  · rfl
  · split
    · rfl
    · rw [sendHedge_eq]

/-- A run as an address error leaves it. -/
def abandonedRun (t : TaskInst) : TaskInst := { t with phase := .abandoned, cells := [] }

/-- The state in which the address error of a run is found: the run is abandoned, and its fresh frames are free. -/
structure Abandons (t : TaskInst) (s x : State) : Prop where
  tasks : x.sched.tasks = (setTask t.step t.task abandonedRun s).sched.tasks
  votes : x.votes = s.votes
  vec   : x.vec = s.vec
  mem   : { x.mem with fresh := s.mem.fresh } = s.mem

theorem failRun_abandons (t : TaskInst) (s : State) : ∃ again x, Abandons t s x ∧
    failRun t s = holdRun again (finding t.step vbReplayFailed x) := by
  refine ⟨_, _, ?_, rfl⟩
  rw [traceTask, trace_eq]
  exact ⟨rfl, rfl, rfl, rfl⟩

theorem failRun_addressFault {r : TaskRun} {t : TaskInst} {s : State} (hfound : findTask s r.step r.task = some t) :
    AddressFault r s (failRun t s) ∧ (failRun t s).vec = s.vec := by
  obtain ⟨hstep, htask⟩ := keys_of_findTask hfound
  obtain ⟨again, x, ⟨htasks, hvotes, hvec, hmem⟩, hfail⟩ := failRun_abandons t s
  rw [hstep, htask] at htasks
  rw [hstep] at hfail
  have hruns : SameRuns (setTask r.step r.task abandonedRun s) (failRun t s) := by
    rw [hfail, holdRun_eq, finding_eq]
    exact htasks
  refine ⟨⟨⟨abandonedRun t, ?_, rfl, rfl⟩, fun hopen => ?_, fun y hy hne => ?_, ?_⟩, ?_⟩
  · rw [findTask_of_sameRuns hruns, findTask_setTask (f := abandonedRun) fun _ => ⟨rfl, rfl⟩, hfound]
    rfl
  · rw [hfail, holdRun_eq]
    exact finding_of_open (by rw [hvotes]; exact hopen) (by decide)
  · rw [hruns]
    exact othersStay_setTask (.refl s) r.step r.task abandonedRun y hy hne
  · rw [hfail, holdRun_eq, finding_eq]
    exact hmem
  · rw [hfail, holdRun_eq, finding_eq]
    exact hvec

/-! ### The rows of the computing kinds -/

/-- The state in which a run starts: MATMUL and VECTOR_PROGRAM with a program engage the core's vector engine. -/
def withProgram (kind : Nat) (r : TaskRun) (t : TaskInst) (g : Segment) (k : TaskRec) (s : State) : State :=
  if kind = 1 ∨ kind = 5 then ((imageOf g k).map fun img => bindVector r.unit t g k img s).getD s else s

/-- A row of the kind starts the run that it may, or ends it as an address error. -/
def startWork (kind : Nat) (r : TaskRun) (f : TaskInst → Segment → TaskRec → Work) (s : State) : State :=
  ((startable s kind r).map fun x =>
    if (f x.1 x.2.1 x.2.2).fail then failRun x.1 (withProgram kind r x.1 x.2.1 x.2.2 s)
    else startRun r (f x.1 x.2.1 x.2.2) x.1 (withProgram kind r x.1 x.2.1 x.2.2 s)).getD s

theorem startKind_eq {kind : Nat} (h : ¬ (kind = 1 ∨ kind = 5)) (r : TaskRun) (f : TaskInst → Segment → TaskRec → Work)
    (s : State) : startKind kind r f s = startWork kind r f s := by
  unfold startKind startWork withProgram
  cases startable s kind r with
  | none => rfl
  | some x => simp [h]

theorem startProgram_eq {kind : Nat} (h : kind = 1 ∨ kind = 5) (r : TaskRun) (f : TaskInst → Segment → TaskRec → Work)
    (s : State) : startProgram kind r f s = startWork kind r f s := by
  unfold startProgram startWork withProgram
  cases startable s kind r with
  | none => rfl
  | some x =>
    cases himg : imageOf x.2.1 x.2.2 with
    | none => simp [h, himg]
    | some img => simp [h, himg]

/-- A row of a computing kind: its work stages nothing, and the row starts a run with it. -/
structure StartsBy (row : TaskRun → Instr) (kind : Nat) (work : State → Nat → TaskInst → Segment → TaskRec → Work) :
    Prop where
  unstaged : ∀ s unit t g k, (work s unit t g k).staged = false
  exec     : ∀ r s, exec (row r) s = .next (advance (startWork kind r (work s r.unit) s))

theorem StartsBy.of_kind {row : TaskRun → Instr} {kind : Nat} {work : State → Nat → TaskInst → Segment → TaskRec → Work}
    (h : ¬ (kind = 1 ∨ kind = 5)) (hunstaged : ∀ s unit t g k, (work s unit t g k).staged = false)
    (hexec : ∀ r s, Machine.exec (row r) s = .next (advance (startKind kind r (work s r.unit) s))) :
    StartsBy row kind work := ⟨hunstaged, fun r s => by rw [hexec, startKind_eq h]⟩

theorem StartsBy.of_program {row : TaskRun → Instr} {kind : Nat}
    {work : State → Nat → TaskInst → Segment → TaskRec → Work} (h : kind = 1 ∨ kind = 5)
    (hunstaged : ∀ s unit t g k, (work s unit t g k).staged = false)
    (hexec : ∀ r s, Machine.exec (row r) s = .next (advance (startProgram kind r (work s r.unit) s))) :
    StartsBy row kind work := ⟨hunstaged, fun r s => by rw [hexec, startProgram_eq h]⟩

theorem startsBy_matmul : StartsBy .matmul 0x01 matmulRun := .of_program (by decide) matmulRun_staged fun _ _ => rfl

theorem startsBy_attentionFwd : StartsBy .attentionFwd 0x03 attentionFwdRun :=
  .of_kind (by decide) attentionFwdRun_staged fun _ _ => rfl

theorem startsBy_attentionBwd : StartsBy .attentionBwd 0x04 attentionBwdRun :=
  .of_kind (by decide) attentionBwdRun_staged fun _ _ => rfl

theorem startsBy_vectorProgram : StartsBy .vectorProgram 0x05 vectorProgramRun :=
  .of_program (by decide) vectorProgramRun_staged fun _ _ => rfl

theorem startsBy_norm : StartsBy .norm 0x06 normRun := .of_kind (by decide) normRun_staged fun _ _ => rfl

theorem startsBy_softmax : StartsBy .softmax 0x07 softmaxRun := .of_kind (by decide) softmaxRun_staged fun _ _ => rfl

theorem startsBy_loss : StartsBy .loss 0x08 lossRun := .of_kind (by decide) lossRun_staged fun _ _ => rfl

theorem startsBy_gather : StartsBy .gather 0x09 gatherRun := .of_kind (by decide) gatherRun_staged fun _ _ => rfl

theorem startsBy_scatter : StartsBy .scatter 0x0A scatterRun := .of_kind (by decide) scatterRun_staged fun _ _ => rfl

theorem startsBy_preconditionApply : StartsBy .preconditionApply 0x0C preconditionRun :=
  .of_kind (by decide) preconditionRun_staged fun _ _ => rfl

theorem taskRows_startBy : ∀ x ∈ taskRows, StartsBy x.1 x.2.1 x.2.2 := by
  simp only [taskRows, List.forall_mem_cons, List.not_mem_nil, false_imp_iff, implies_true, and_true]
  exact ⟨startsBy_matmul, startsBy_attentionFwd, startsBy_attentionBwd, startsBy_vectorProgram, startsBy_norm,
    startsBy_softmax, startsBy_loss, startsBy_gather, startsBy_scatter, startsBy_preconditionApply⟩

/-! ### What a row starts -/

theorem withProgram_engines (kind : Nat) (r : TaskRun) (t : TaskInst) (g : Segment) (k : TaskRec) (s : State) :
    ∃ e, withProgram kind r t g k s = withEngines e s ∧ ((imageOf g k = none ∨ (kind ≠ 1 ∧ kind ≠ 5)) → e = s.vec) ∧
      (∀ img, kind = 1 ∨ kind = 5 → imageOf g k = some img → ∃ c, e = tset {} s.vec r.unit c ∧
        AtFirstGroup r t (((outsOf s g k).head?.map Operand.row).getD 0) c) := by
  unfold withProgram
  by_cases hkind : kind = 1 ∨ kind = 5
  case neg => exact ⟨s.vec, if_neg hkind, fun _ => rfl, fun _ h => absurd h hkind⟩
  case pos =>
    rw [if_pos hkind]
    cases himg : imageOf g k with
    | none => exact ⟨s.vec, rfl, fun _ => rfl, nofun⟩
    | some img =>
      obtain ⟨c, hbind, hfirst⟩ := bindVector_binds r t g k img s
      refine ⟨_, hbind, fun h => ?_, fun _ _ _ => ⟨c, rfl, hfirst⟩⟩
      exact absurd hkind (by simpa using h)

section

variable {row : TaskRun → Instr} {kind : Nat} {work : State → Nat → TaskInst → Segment → TaskRec → Work}
  {r : TaskRun} {s : State}

theorem StartsBy.exec_of_none (h : StartsBy row kind work) (hs : startable s kind r = none) :
    Machine.exec (row r) s = .next (advance s) := by
  rw [h.exec, startWork, hs]
  rfl

/-- What a row leaves of the run that it may start. -/
structure RowLeaves (kind : Nat) (r : TaskRun) (w : Work) (t : TaskInst) (g : Segment) (k : TaskRec) (s v : State) : Prop where
  fault   : w.fail = true → AddressFault r s v
  started : w.fail = false → Started r w t s v
  engines : v.vec = (withProgram kind r t g k s).vec

theorem StartsBy.exec_of_some (h : StartsBy row kind work) {t : TaskInst} {g : Segment} {k : TaskRec}
    (hs : startable s kind r = some (t, g, k)) :
    ∃ v, Machine.exec (row r) s = .next (advance v) ∧ RowLeaves kind r (work s r.unit t g k) t g k s v := by
  obtain ⟨hfound, -, -, hfresh⟩ := startable_found hs
  have hunstaged := h.unstaged s r.unit t g k
  obtain ⟨e, hprogram, -⟩ := withProgram_engines kind r t g k s
  refine ⟨_, by rw [h.exec, startWork, hs, Option.map_some, Option.getD_some], ?_⟩
  dsimp only
  generalize work s r.unit t g k = w at *
  rw [hprogram]
  have hengines : (withEngines e s).vec = (withProgram kind r t g k s).vec := congrArg State.vec hprogram.symm
  cases hfail : w.fail with
  | true =>
    rw [if_pos rfl]
    obtain ⟨hfault, hvec⟩ := failRun_addressFault (r := r) (t := t) (s := withEngines e s) hfound
    exact ⟨fun _ => hfault, by simp [hfail], hvec.trans hengines⟩
  | false =>
    rw [if_neg (by decide)]
    obtain ⟨u, hu⟩ := runFrames_withHome s.mem.base s.mem.layers s.mem.folds e hunstaged hfresh
    have hstarted := startRun_started (r := r) (s := withEngines e s) hfound hu
    exact ⟨by simp [hfail], fun _ => started_of_withEngines hstarted, (startRun_vec (s := withEngines e s) hu).trans hengines⟩

end

end Sys2Proof.Proofs
end

section
/-!
PROOFS. The statistic kinds: a run that is not due completes at once; a FOLD brings a journalled chunk home, starts with the
chunks that are left, and journals the next (06 R109, R112, R118 to R120). Last, the obligation on how a computing kind starts.
-/
namespace Sys2Proof.Proofs

open Sys2Proof Sys2Proof.Machine Sys2Proof.Safety Sys2Proof.Laws

/-! ### A run that is not due (06 R109) -/

/-- A run of a statistic kind completes at once where it is not due, and is started otherwise. -/
def atOnceOr (kind : Nat) (start : State → State) (r : TaskRun) (s : State) : State :=
  ((findTask s r.step r.task).map fun t =>
    if notDue s t && kindOf s t == kind then (if eligible s t then completeAtOnce t s else s) else start s).getD s

/-- What MATMUL_STAT starts when it is due. -/
def startStat (r : TaskRun) (s : State) : State :=
  ((startable s 0x02 r).map fun x => startRun r (matmulStatRun s r.unit x.1 x.2.1 x.2.2) x.1 s).getD s

theorem exec_matmulStat (r : TaskRun) (s : State) :
    exec (.matmulStat r) s = .next (advance (atOnceOr 0x02 (startStat r) r s)) := by
  refine congrArg (fun x => Host.Outcome.next (advance x)) ?_
  unfold statKind atOnceOr startStat
  cases findTask s r.step r.task with
  | none => rfl
  | some t =>
    cases startable s 0x02 r with
    | none => rfl
    | some x => rfl

theorem exec_fold (r : TaskRun) (s : State) : exec (.fold r) s = .next (advance (atOnceOr 0x0F (startFold r) r s)) := by
  refine congrArg (fun x => Host.Outcome.next (advance x)) ?_
  unfold atOnceOr
  cases findTask s r.step r.task with
  | none => rfl
  | some t => rfl

/-- A row of a statistic kind: its run completes at once where it is not due, and stays as it is where it cannot start. -/
structure StartsStat (row : TaskRun → Instr) (kind : Nat) (start : TaskRun → State → State) : Prop where
  exec  : ∀ r s, exec (row r) s = .next (advance (atOnceOr kind (start r) r s))
  waits : ∀ {r s}, startable s kind r = none → start r s = s

theorem startsStat_matmulStat : StartsStat .matmulStat 0x02 startStat :=
  ⟨exec_matmulStat, fun h => by rw [startStat, h]; rfl⟩

theorem startsStat_fold : StartsStat .fold 0x0F startFold :=
  ⟨exec_fold, fun h => by rw [startFold, h]⟩

theorem statRows_startStat : ∀ x ∈ statRows, ∃ start, StartsStat x.1 x.2 start := by
  simp only [statRows, List.forall_mem_cons, List.not_mem_nil, false_imp_iff, implies_true, and_true]
  exact ⟨⟨_, startsStat_matmulStat⟩, ⟨_, startsStat_fold⟩⟩

/-- A run as it completes at once. -/
def completedRun (n : Nat) (t : TaskInst) : TaskInst := { t with phase := .published, attempt := 0, pubSeq := n }

section

variable {row : TaskRun → Instr} {kind : Nat} {start : TaskRun → State → State} {r : TaskRun} {s : State} {t : TaskInst}

theorem StartsStat.exec_of_none (h : StartsStat row kind start) (hnone : findTask s r.step r.task = none) :
    Machine.exec (row r) s = .next (advance s) := by
  rw [h.exec, atOnceOr, hnone]
  rfl

theorem StartsStat.exec_of_atOnce (h : StartsStat row kind start) (hfound : findTask s r.step r.task = some t)
    (hnow : notDue s t = true ∧ kindOf s t = kind) :
    Machine.exec (row r) s = .next (advance (if eligible s t then completeAtOnce t s else s)) := by
  rw [h.exec, atOnceOr, hfound, Option.map_some, Option.getD_some, if_pos (by simpa using hnow)]

theorem StartsStat.exec_of_not_atOnce (h : StartsStat row kind start) (hfound : findTask s r.step r.task = some t)
    (hdue : ¬ (notDue s t = true ∧ kindOf s t = kind)) :
    Machine.exec (row r) s = .next (advance (start r s)) := by
  rw [h.exec, atOnceOr, hfound, Option.map_some, Option.getD_some, if_neg (by simpa using hdue)]

theorem completeAtOnce_completes (hfound : findTask s r.step r.task = some t) :
    findTask (completeAtOnce t s) r.step r.task = some (completedRun (s.sched.pubs + 1) t) ∧
      OthersStay r.step r.task s (completeAtOnce t s) ∧
      { completeAtOnce t s with sched.tasks := s.sched.tasks, sched.pubs := s.sched.pubs } = s := by
  obtain ⟨hstep, htask⟩ := keys_of_findTask hfound
  have heq : completeAtOnce t s =
      setTask r.step r.task (completedRun (s.sched.pubs + 1)) { s with sched.pubs := s.sched.pubs + 1 } := by
    rw [← hstep, ← htask]
    rfl
  rw [heq]
  refine ⟨?_, othersStay_setTask rfl _ _ _, rfl⟩
  rw [findTask_setTask (f := completedRun _) fun _ => ⟨rfl, rfl⟩]
  exact congrArg (Option.map _) hfound

end

/-! ### The journal of a fold (06 R120) -/

theorem tget_applyCells (b : Sparse Byte) (cs : Cells) (a : Nat) :
    tget 0 (applyCells b cs) a = (cellAt cs a).getD (tget 0 b a) := by
  induction cs with
  | nil => rfl
  | cons c cs ih =>
    have hcons : applyCells b (c :: cs) = tset 0 (applyCells b cs) c.1 c.2 := rfl
    rw [hcons, cellAt, List.find?_cons]
    cases hc : c.1 == a with
    | true =>
      obtain rfl : c.1 = a := by simpa using hc
      exact tget_tset_same ..
    | false => exact (tget_tset_other _ _ _ (Ne.symm (by simpa using hc))).trans ih

theorem journalOf_keys (s : State) (step : Nat) (task : W32) :
    (journalOf s step task).step = step ∧ (journalOf s step task).task = task := by
  unfold journalOf
  cases h : s.mem.folds.find? fun j => j.step == step && j.task == task with
  | none => exact ⟨rfl, rfl⟩
  | some j => simpa using List.find?_some h

theorem journalOf_of_folds {s v : State} (h : v.mem.folds = s.mem.folds) (step : Nat) (task : W32) :
    journalOf v step task = journalOf s step task := by
  unfold journalOf; rw [h]

theorem journalOf_setJournal (j : FoldJournal) (s : State) : journalOf (setJournal j s) j.step j.task = j := by
  have hnone : (dropJournal j.step j.task s).mem.folds.find? (fun x => x.step == j.step && x.task == j.task) = none := by
    refine List.find?_eq_none.2 fun x hx hkey => ?_
    have hkept := (List.mem_filter.1 hx).2
    rw [hkey] at hkept
    exact absurd hkept (by decide)
  have happend : (setJournal j s).mem.folds = (dropJournal j.step j.task s).mem.folds ++ [j] := rfl
  rw [journalOf, happend, List.find?_append, hnone]
  simp

/-- From `s` to `v` the chunk in the valid slot of a fold's journal has been copied home and is done. -/
structure BroughtHome (step : Nat) (task : W32) (s v : State) : Prop where
  rest    : ∃ b l j, v = withHome b l j s.vec s
  base    : ∀ a, tget 0 v.mem.base a =
    ((journalOf s step task).slot.bind fun x => cellAt x.2 a).getD (tget 0 s.mem.base a)
  journal : journalOf v step task =
    ⟨step, task, (journalOf s step task).done + (if (journalOf s step task).slot.isSome then 1 else 0), none⟩
  same    : (journalOf s step task).slot = none → v = s

theorem finishChunk_brings (step : Nat) (task : W32) (s : State) : BroughtHome step task s (finishChunk step task s) := by
  unfold finishChunk
  obtain ⟨hstep, htask⟩ := journalOf_keys s step task
  generalize hj : journalOf s step task = j at *
  subst hstep htask
  obtain ⟨step, task, done, slot⟩ := j
  cases slot with
  | none => exact ⟨⟨_, _, _, rfl⟩, fun _ => by rw [hj]; rfl, by rw [hj]; rfl, fun _ => rfl⟩
  | some x =>
    refine ⟨⟨_, _, _, rfl⟩, fun a => ?_, ?_, ?_⟩
    · rw [hj]
      exact tget_applyCells ..
    · rw [hj]
      exact journalOf_setJournal ⟨step, task, done + 1, none⟩ _
    · rw [hj]
      nofun

/-! ### A run without NaN events leaves the journals and the trap count -/

/-- From `s` to `v` no journal and no count of traps has changed. -/
def SameJournals (s v : State) : Prop := v.mem.folds = s.mem.folds ∧ v.numerics = s.numerics

theorem SameJournals.refl (s : State) : SameJournals s s := ⟨rfl, rfl⟩

theorem SameJournals.trans {s t u : State} (a : SameJournals s t) (b : SameJournals t u) : SameJournals s u :=
  ⟨b.1.trans a.1, b.2.trans a.2⟩

theorem SameJournals.foldl {α : Type} {g : State → α → State} (hg : ∀ t x, SameJournals t (g t x)) (l : List α) (s : State) :
    SameJournals s (l.foldl g s) :=
  foldl_inv (p := SameJournals s) (fun u x h => h.trans (hg u x)) l (.refl s)

theorem sameJournals_trace (a b : Nat) (c : Bool) (d : Nat) (e : W32) (f : Nat) (s : State) :
    SameJournals s (trace a b c d e f s) := by
  rw [trace_eq]
  exact ⟨rfl, rfl⟩

theorem sameJournals_ensureFrame (p : Nat) (s : State) : SameJournals s (ensureFrame p s) := by
  unfold ensureFrame
  dsimp only
  split
  · exact .refl s
  · split
    · exact ⟨rfl, rfl⟩
    · split
      · exact ⟨rfl, rfl⟩
      · exact .refl s

theorem sameJournals_touchAs (sb : Bool) (what : Access) (off len : Nat) (s : State) :
    SameJournals s (touchAs sb what off len s) := by
  unfold touchAs
  refine .foldl (fun u p => ?_) _ s
  have hframe : SameJournals u (if (what == .write) = true then ensureFrame p u else u) := by
    split
    · exact sameJournals_ensureFrame p u
    · exact .refl u
  exact hframe.trans ⟨rfl, rfl⟩

theorem sameJournals_touchViews (sb : Bool) (t : TaskInst) (s : State) : SameJournals s (touchViews sb t s) :=
  SameJournals.foldl (g := fun u (x : Access × Nat × Nat) => touchAs sb x.1 x.2.1 x.2.2 u)
    (fun u x => sameJournals_touchAs sb x.1 x.2.1 x.2.2 u) _ s

theorem sameJournals_addFresh (h : FreshFrame) (s : State) : SameJournals s (addFresh h s) := ⟨rfl, rfl⟩

theorem sameJournals_setTask (step : Nat) (task : W32) (f : TaskInst → TaskInst) (s : State) :
    SameJournals s (setTask step task f s) := ⟨rfl, rfl⟩

theorem sameJournals_countAll (sb : Bool) (counts : List (Nat × Nat)) (s : State) :
    SameJournals s (counts.foldl (fun s c => countWork sb c.1 c.2 s) s) :=
  .foldl (g := fun s (c : Nat × Nat) => countWork sb c.1 c.2 s) (fun _ _ => ⟨rfl, rfl⟩) ..

theorem sameJournals_traceTiles (t : TaskInst) (s : State) :
    SameJournals s ((List.range t.tiles).foldl (fun s _ => traceTask 2 t s) (traceTask 1 t s)) :=
  (sameJournals_trace ..).trans (.foldl (g := fun s (_ : Nat) => traceTask 2 t s) (fun _ _ => sameJournals_trace ..) ..)

theorem sameJournals_freshFrames {step : Nat} {task : W32} {ps : List Nat} {s v : State}
    (h : freshFrames step task ps s = some v) : SameJournals s v := by
  induction ps generalizing s with
  | nil =>
    obtain rfl : s = v := Option.some.inj h
    exact .refl s
  | cons p ps ih =>
    rw [freshFrames_cons] at h
    split at h
    · exact ih h
    · obtain ⟨f, -, h⟩ := Option.bind_eq_some_iff.1 h
      exact (sameJournals_addFresh ..).trans (ih h)

theorem sameJournals_startRun {r : TaskRun} {w : Work} {t : TaskInst} {s u : State} (hw : w.staged = false)
    (hevents : w.events = []) (h : runFrames w t s = some u) : SameJournals s (startRun r w t s) := by
  have hframes : (stageFrames t.step (stagedPages w) s).bind (freshFrames t.step t.task (outputPages s t)) = some u := h
  rw [runFrames_of_not_staged hw] at h
  unfold startRun
  dsimp only
  rw [hframes, hevents]
  dsimp only
  refine SameJournals.trans ?counted (sameJournals_traceTiles ..)
  refine SameJournals.trans ?_ (sameJournals_setTask ..)
  exact ((sameJournals_freshFrames h).trans (sameJournals_touchViews ..)).trans (sameJournals_countAll ..)

/-! ### FOLD -/

/-- The next chunk of a fold is journalled where one is left; nothing but the journals changes. -/
theorem journalChunk_journals {st : StatRec} {step : Nat} {task : W32} {cs : Cells} {s : State} {done : Nat}
    (h : journalOf s step task = ⟨step, task, done, none⟩) :
    (∃ j, journalChunk st step task cs s = withHome s.mem.base s.mem.layers j s.vec s) ∧
      journalOf (journalChunk st step task cs s) step task = ⟨step, task, done,
        if done < (foldChunks st).length then some (done, chunkCells s st done cs) else none⟩ := by
  unfold journalChunk
  rw [h]
  dsimp only
  split
  · exact ⟨⟨_, rfl⟩, journalOf_setJournal ⟨step, task, done, some (done, chunkCells s st done cs)⟩ s⟩
  · exact ⟨⟨_, rfl⟩, h⟩

theorem chunkCells_of_graph {s v : State} (h : v.graph = s.graph) (st : StatRec) (i : Nat) (cs : Cells) :
    chunkCells v st i cs = chunkCells s st i cs := by
  have hhome : homeOf v st.running = homeOf s st.running := by unfold homeOf findTensor definedTensors heldSegments; rw [h]
  unfold chunkCells
  rw [hhome]

/-- The chunks of a fold that are done once the one in the slot is home. -/
def chunksDone (r : TaskRun) (s : State) : Nat :=
  (journalOf s r.step r.task).done + (if (journalOf s r.step r.task).slot.isSome then 1 else 0)

/-- The fold's run on the unit of the row: its results computed and not yet published, with a tile for each chunk that is left. -/
structure FoldRun (r : TaskRun) (t : TaskInst) (st : StatRec) (s : State) (u : TaskInst) : Prop where
  phase   : u.phase = .computed
  attempt : u.attempt = (t.attempt + 1) % 256
  unit    : u.unit = r.unit
  tiles   : u.tiles = max 1 ((foldChunks st).length - chunksDone r s)
  done    : u.done = 0
  cells   : (journalOf s r.step r.task).slot = none → u.cells = (foldWork s (readerOf s t) st (chunksDone r s) r.step).cells

/-- The state with another memory. -/
def withMemory (m : Memory) (s : State) : State := { s with mem := m }

/-- What a FOLD leaves beside its run: the chunk of the slot home, the next one in the slot. -/
structure FoldLeaves (r : TaskRun) (st : StatRec) (s : State) (cs : Cells) (v : State) : Prop where
  base    : ∀ a, tget 0 v.mem.base a =
    ((journalOf s r.step r.task).slot.bind fun x => cellAt x.2 a).getD (tget 0 s.mem.base a)
  journal : journalOf v r.step r.task = ⟨r.step, r.task, chunksDone r s,
    if chunksDone r s < (foldChunks st).length then some (chunksDone r s, chunkCells s st (chunksDone r s) cs) else none⟩
  others  : OthersStay r.step r.task s v
  rest    : { v with
    sched.tasks := s.sched.tasks, mem := s.mem, counters.values := s.counters.values, sheaf := s.sheaf } = s

/-- A run started after a chunk has been copied home leaves what it would leave without the copy. -/
theorem rest_of_run {b : Sparse Byte} {l : List Layer} {j : List FoldJournal} {s h y : State} (hhome : h = withHome b l j s.vec s)
    (hvec : y.vec = h.vec) (hnumerics : y.numerics = h.numerics)
    (hrest : { y with
      sched.tasks := h.sched.tasks, mem := h.mem, vec := h.vec, counters.values := h.counters.values
      numerics.trap := h.numerics.trap, sheaf := h.sheaf } = h) :
    { y with sched.tasks := s.sched.tasks, mem := s.mem, counters.values := s.counters.values, sheaf := s.sheaf } = s := by
  rw [← hvec, ← hnumerics] at hrest
  subst hhome
  exact congrArg (withMemory s.mem) hrest

theorem startFold_folds {r : TaskRun} {s : State} {t : TaskInst} {g : Segment} {k : TaskRec} {st : StatRec}
    (hs : startable s 0x0F r = some (t, g, k)) (hst : g.stats[k.record]? = some st) :
    ∃ u, findTask (startFold r s) r.step r.task = some u ∧ FoldRun r t st s u ∧ FoldLeaves r st s u.cells (startFold r s) := by
  obtain ⟨hfound, hstep, htask, hfresh⟩ := startable_found hs
  rw [startFold, hs]
  dsimp only
  rw [hst]
  dsimp only
  rw [hstep, htask]
  obtain ⟨⟨b, l, j, hhome⟩, hbase, hjournal, hsame⟩ := finishChunk_brings r.step r.task s
  generalize finishChunk r.step r.task s = h at *
  rw [hjournal]
  dsimp only
  generalize hw : foldWork h (readerOf h t) st _ r.step = w
  have hunstaged : w.staged = false := by rw [← hw]; rfl
  have hevents : w.events = [] := by rw [← hw]; rfl
  obtain ⟨x, hx⟩ : ∃ x, runFrames w t h = some x := by
    rw [hhome]
    exact runFrames_withHome b l j s.vec hunstaged hfresh
  have hfoundHome : findTask h r.step r.task = some t := by rw [hhome]; exact hfound
  generalize hrow : ({ r with tiles := _ } : TaskRun) = r'
  have hstarted : Started r' w t h (startRun r' w t h) := startRun_started (by rw [← hrow]; exact hfoundHome) hx
  have hvec := startRun_vec (r := r') hx
  obtain ⟨hfolds, hnumerics⟩ := sameJournals_startRun (r := r') hunstaged hevents hx
  generalize startRun r' w t h = y at *
  have hjournalY := (journalOf_of_folds hfolds r.step r.task).trans hjournal
  obtain ⟨⟨j', hchunk⟩, hjournalled⟩ := journalChunk_journals (st := st) (cs := w.cells) hjournalY
  generalize journalChunk st r.step r.task w.cells y = v at *
  subst hrow
  obtain ⟨⟨u, hu, hphase, hattempt, hunit, htiles, hdone, hcells, -⟩, hothers, -, hbaseY, hrest⟩ := hstarted
  have hframe := rest_of_run hhome hvec hnumerics hrest
  have hgraph := congrArg State.graph hframe
  refine ⟨u, by rw [hchunk]; exact hu, ⟨hphase, hattempt, hunit, htiles, hdone, fun hnone => ?_⟩, fun a => ?_, ?_, ?_, ?_⟩
  · rw [hcells, ← hw, hsame hnone]
    rfl
  · rw [← hbase, ← hbaseY, hchunk]
    rfl
  · rw [hjournalled, hcells, chunkCells_of_graph (v := y) hgraph]
    rfl
  · rw [hchunk]
    rw [hhome] at hothers
    exact hothers
  · rw [hchunk]
    exact hframe

/-! ### O52 -/

/-- Settles O52: each row starts its kind's work (`StartsBy`) or lets its run complete at once (`StartsStat`); a FOLD starts
between two journal operations, which touch nothing but bytes and journals. -/
theorem taskKindsStart : Obligations.TaskKindsStart := by
  unfold Obligations.TaskKindsStart
  refine fun r s => ⟨fun row kind work hrow => ?kinds, fun row kind hrow => ?stats, fun t g k hs hdue => ?stat,
    fun t g k st hs hdue hst => ?fold⟩
  case kinds =>
    have hrow : StartsBy row kind work := taskRows_startBy _ hrow
    refine ⟨hrow.exec_of_none, fun t g k hs => ?_⟩
    obtain ⟨v, hexec, hfault, hstarted, hengines⟩ := hrow.exec_of_some hs
    obtain ⟨e, hprogram, hnone, hsome⟩ := withProgram_engines kind r t g k s
    obtain ⟨-, hstep, htask, -⟩ := startable_found hs
    have hvec : v.vec = e := by rw [hengines, hprogram]; rfl
    refine ⟨v, hexec, hfault, hstarted, fun h => hvec.trans (hnone h), fun img hkind himg => ?_⟩
    obtain ⟨c, rfl, hfirst⟩ := hsome img hkind himg
    have hc : vecOf v r.unit = c := by rw [vecOf, hvec, tget_tset_same]
    dsimp only
    rw [hc]
    refine ⟨by rw [hfirst.task, hstep, htask], hfirst.gate, hfirst.pc, hfirst.first, hfirst.row, hfirst.group, hfirst.tail,
      hfirst.m, hfirst.d, hfirst.live, fun core hcore => ?_⟩
    rw [vecOf, hvec, tget_tset_other _ _ _ hcore]
    rfl
  case stats =>
    obtain ⟨start, hrow⟩ := statRows_startStat _ hrow
    refine ⟨hrow.exec_of_none, fun t hfound => ⟨fun hnow heligible => ?_, fun hnow hineligible => ?_, fun hdue hnone => ?_⟩⟩
    · exact ⟨_, by rw [hrow.exec_of_atOnce hfound hnow, if_pos heligible], completeAtOnce_completes hfound⟩
    · rw [hrow.exec_of_atOnce hfound hnow, if_neg (by simp [hineligible])]
    · rw [hrow.exec_of_not_atOnce hfound hdue, hrow.waits hnone]
  case stat =>
    obtain ⟨hfound, -, -, hfresh⟩ := startable_found hs
    obtain ⟨u, hu⟩ := Option.isSome_iff_exists.1 hfresh
    rw [startsStat_matmulStat.exec_of_not_atOnce hfound (by simp [hdue]), startStat, hs]
    refine ⟨_, rfl, startRun_started hfound (u := u) ?_⟩
    rw [runFrames_of_not_staged (matmulStatRun_staged ..)]
    exact hu
  case fold =>
    obtain ⟨hfound, -, -, -⟩ := startable_found hs
    obtain ⟨u, hu, hrun, hleaves⟩ := startFold_folds hs hst
    exact ⟨_, u, startsStat_fold.exec_of_not_atOnce hfound (by simp [hdue]), hu, hrun.phase, hrun.attempt, hrun.unit, hrun.tiles,
      hrun.done, hrun.cells, hleaves.base, hleaves.journal, hleaves.others, hleaves.rest⟩

end Sys2Proof.Proofs
end

section
/-!
PROOFS. What MATMUL without an epilogue, NORM, SOFTMAX, GATHER and a MOVE within the module write, element by element of the output
view (12 R252, 05 R99, R100, 04 R71, R81).
-/
namespace Sys2Proof.Proofs

open Sys2Proof Sys2Proof.Machine Sys2Proof.Safety Sys2Proof.Laws

/-! ### A view as it is written -/

theorem index_lt_elems {o : Operand} {r i : Nat} (hr : r < o.rows) (hi : i < o.row) : r * o.row + i < o.elems := by
  have hrow : r * o.row + o.row ≤ o.rows * o.row := by
    rw [← Nat.succ_mul]
    exact Nat.mul_le_mul_right _ hr
  rw [Operand.elems, Nat.mul_comm o.row]
  omega

theorem foldl_congr_of_mem {α β : Type} {f g : β → α → β} {l : List α} (h : ∀ acc, ∀ x ∈ l, f acc x = g acc x) (b : β) :
    l.foldl f b = l.foldl g b := by
  induction l generalizing b with
  | nil => rfl
  | cons x l ih =>
    rw [List.foldl_cons, List.foldl_cons, h b x List.mem_cons_self]
    exact ih (fun acc y hy => h acc y (List.mem_cons_of_mem x hy)) _

/-- A view is written from the values of its own elements alone. -/
theorem write_congr {o : Operand} {v v' : Nat → Machine.Num} (h : ∀ i, i < o.elems → v i = v' i) : o.write v = o.write v' := by
  unfold Operand.write
  refine foldl_congr_of_mem (fun acc r hr => ?_) _
  have hrow : (List.range o.row).map (fun i => v (r * o.row + i)) = (List.range o.row).map fun i => v' (r * o.row + i) :=
    List.map_congr_left fun i hi => h _ (index_lt_elems (List.mem_range.1 hr) (List.mem_range.1 hi))
  rw [hrow]

/-! ### The results of the works -/

section

variable (s : State) (r : Reader) (unit : Nat)

theorem matmulWork_cells (gate : Pos) (k : TaskRec) (a b c : Operand) :
    (matmulWork s r unit gate k none a b none c).cells = (c.write fun i =>
      (refElement (stintLength k.stint) (matmulK (matmulForm k) a) .zero false
        (fun n => a.read s r (a.linear (coordsA (matmulForm k) n (c.coords i))))
        (fun n => b.read s r (b.linear (coordsB (matmulForm k) n (c.coords i))))).wide).cells := by
  refine congrArg Written.cells (write_congr fun i hi => ?_)
  rw [matmulCells, List.getD_eq_getElem?_getD, List.getElem?_map, List.getElem?_range hi]
  rfl

theorem normRow_fst (layer : Bool) (eps : Machine.Num) (gain : Option (List Machine.Num × List Machine.Num))
    (xs : List Machine.Num) : (normRow layer eps gain xs).1 = normOf layer eps gain xs := by
  unfold normRow normOf
  dsimp only
  rw [List.map_map]
  refine List.map_congr_left fun i _ => ?_
  cases gain with
  | none => rfl
  | some g => rfl

theorem softmaxRow_fst (xs : List Machine.Num) : (softmaxRow xs).1 = softmaxOf xs := by
  unfold softmaxRow softmaxOf expRow
  dsimp only
  split
  · rfl
  · simp only [List.map_map]
    rfl

theorem normWork_cells (layer : Bool) (eps : Machine.Num) (x y : Operand) (gain : Option (Operand × Operand)) :
    (normWork s r unit layer eps x gain y).cells = (y.write fun i => ((List.range x.rows).flatMap fun j =>
      normOf layer eps (gain.map fun p => (rowValues s r p.1 0, rowValues s r p.2 0)) (rowValues s r x j)).getD i .zero).cells := by
  refine congrArg Written.cells (write_congr fun i _ => ?_)
  simp only [List.flatMap_map, normRow_fst]

theorem softmaxWork_cells (x y : Operand) :
    (softmaxWork s r unit x y).cells = (y.write fun i => ((List.range x.rows).flatMap fun j =>
      softmaxOf (rowValues s r x j)).getD i .zero).cells := by
  refine congrArg Written.cells (write_congr fun i _ => ?_)
  simp only [List.flatMap_map, softmaxRow_fst]

/-- The table row that an index names: none for -1. -/
def indexOf (ix : Operand) (i : Nat) : Int := targetOf (ix.read s r i)

/-- The indices of a GATHER, in the order of its output rows. -/
def indicesOf (ix o : Operand) : List Int := (List.range (o.span 1)).map (indexOf s r ix)

/-- An index outside the table: an address error. -/
def outsideOf (tb : Operand) (i : Int) : Bool := i != -1 && (decide (i < 0) || decide ((tb.span 1 : Int) ≤ i))

/-- The table element that a GATHER puts at coordinates whose row has the index `i`. -/
def gatheredAt (tb : Operand) (c : List Nat) (i : Int) : Machine.Num :=
  if i = -1 then .zero else tb.read s r (tb.linear (withRow c i.toNat))

theorem gatherWork_eq (tb ix o : Operand) : gatherWork s r unit tb ix o =
    if (indicesOf s r ix o).any (outsideOf tb) then { fail := true }
    else ({} : Work).put unit 0 0 o fun i =>
      gatheredAt s r tb (o.coords i) ((indicesOf s r ix o).getD ((o.coords i).getD 1 0) (-1)) := rfl

theorem indicesOf_getD (ix o : Operand) (i : Nat) :
    (indicesOf s r ix o).getD i (-1) = if i < o.span 1 then indexOf s r ix i else -1 := by
  rw [indicesOf, List.getD_eq_getElem?_getD, List.getElem?_map]
  by_cases hi : i < o.span 1
  · simp [hi]
  · simp [hi]

theorem indicesOf_inside {tb ix o : Operand}
    (h : ∀ i, i < o.span 1 → indexOf s r ix i = -1 ∨ (0 ≤ indexOf s r ix i ∧ indexOf s r ix i < tb.span 1)) :
    (indicesOf s r ix o).any (outsideOf tb) = false := by
  simp only [indicesOf, List.any_map, List.any_eq_false, List.mem_range]
  intro i hi
  rcases h i hi with hnone | ⟨hlow, hhigh⟩
  · simp [outsideOf, hnone]
  · simp [outsideOf, hlow, hhigh]

theorem gatherWork_of_inside {tb ix o : Operand} (h : (indicesOf s r ix o).any (outsideOf tb) = false) :
    (gatherWork s r unit tb ix o).fail = false ∧ (gatherWork s r unit tb ix o).cells = (o.write fun i =>
      if (o.coords i).getD 1 0 < o.span 1 ∧ indexOf s r ix ((o.coords i).getD 1 0) ≠ -1 then
        tb.read s r (tb.linear (withRow (o.coords i) (indexOf s r ix ((o.coords i).getD 1 0)).toNat))
      else .zero).cells := by
  rw [gatherWork_eq, if_neg (Bool.eq_false_iff.1 h)]
  refine ⟨rfl, congrArg Written.cells (write_congr fun i _ => ?_)⟩
  rw [indicesOf_getD, gatheredAt]
  generalize (o.coords i).getD 1 0 = row
  by_cases hrow : row < o.span 1
  · simp only [hrow, if_true, true_and, ne_eq, ite_not]
  · simp only [hrow, if_false, if_true, false_and]

end

/-! ### The runs -/

/-- The row's step leaves the named run with the given cells. -/
def RunsWith (row : TaskRun → Instr) (r : TaskRun) (cs : Cells) (s : State) : Prop :=
  ∃ v u, exec (row r) s = .next (advance v) ∧ findTask v r.step r.task = some u ∧ u.cells = cs

theorem cells_of_started {r : TaskRun} {w : Work} {t : TaskInst} {s v : State} (h : Started r w t s v) :
    ∃ u, findTask v r.step r.task = some u ∧ u.cells = w.cells := by
  obtain ⟨⟨u, hu, -, -, -, -, -, hcells, -⟩, -⟩ := h
  exact ⟨u, hu, hcells⟩

theorem StartsBy.runsWith {row : TaskRun → Instr} {kind : Nat} {work : State → Nat → TaskInst → Segment → TaskRec → Work}
    (h : StartsBy row kind work) {r : TaskRun} {s : State} {t : TaskInst} {g : Segment} {k : TaskRec}
    (hs : startable s kind r = some (t, g, k)) {w : Work} (hw : work s r.unit t g k = w) (hfail : w.fail = false) {cs : Cells}
    (hcells : w.cells = cs) : RunsWith row r cs s := by
  subst hw hcells
  obtain ⟨v, hexec, -, hstarted, -⟩ := h.exec_of_some hs
  obtain ⟨u, hu, hcells⟩ := cells_of_started (hstarted hfail)
  exact ⟨v, u, hexec, hu, hcells⟩

theorem startMove_of_within {r : TaskRun} {s : State} {t : TaskInst} {g : Segment} {k : TaskRec} {src dst : Operand}
    (hs : startable s 0x10 r = some (t, g, k)) (hin : insOf s g k = [src]) (hout : outsOf s g k = [dst])
    (hwithin : BitVec.ofNat 16 (field k.param 0 2) = (0xFFFF : W16)) :
    startMove r s = startRun r (moveWork r.unit (tensorBytes s (readerOf s t) src.tensor) src dst) t s := by
  rw [startMove, hs]
  dsimp only
  rw [hin, hout]
  exact if_pos (.inl hwithin)

/-! ### O53 -/

/-- Settles O53: a run keeps the cells of its kind's work until it publishes (`StartsBy.runsWith`), and those are the output view
written from the values of the statement, element by element (`write_congr`). -/
theorem taskResults : Obligations.TaskResults := by
  unfold Obligations.TaskResults
  refine fun r s t g k => ⟨fun a b c hs hprogram hin hout => ?matmul, fun x y hs hin hout => ?norm,
    fun x a b y hs hin hout => ?gain, fun x y hs hin hout => ?softmax, fun tb ix o hs hin hout => ?gather,
    fun src dst hs hin hout hwithin => ?move⟩
  case matmul =>
    refine startsBy_matmul.runsWith hs ?_ rfl (matmulWork_cells s (readerOf s t) r.unit t.gate k a b c)
    rw [matmulRun, hin, hout, imageOf, if_pos hprogram]
    rfl
  case norm =>
    refine startsBy_norm.runsWith hs ?_ rfl (normWork_cells s (readerOf s t) r.unit _ _ x y none)
    rw [normRun, hin, hout]
  case gain =>
    refine startsBy_norm.runsWith hs ?_ rfl (normWork_cells s (readerOf s t) r.unit _ _ x y (some (a, b)))
    rw [normRun, hin, hout]
  case softmax =>
    refine startsBy_softmax.runsWith hs ?_ rfl (softmaxWork_cells s (readerOf s t) r.unit x y)
    rw [softmaxRun, hin, hout]
  case gather =>
    intro index hinside
    obtain ⟨hfail, hcells⟩ := gatherWork_of_inside s (readerOf s t) r.unit (indicesOf_inside s (readerOf s t) hinside)
    refine startsBy_gather.runsWith hs ?_ hfail hcells
    rw [gatherRun, hin, hout]
  case move =>
    obtain ⟨hfound, -, -, hfresh⟩ := startable_found hs
    obtain ⟨x, hx⟩ := Option.isSome_iff_exists.1 hfresh
    have hframes : runFrames (moveWork r.unit (tensorBytes s (readerOf s t) src.tensor) src dst) t s = some x :=
      (runFrames_of_not_staged rfl t s).trans hx
    obtain ⟨u, hu, hcells⟩ := cells_of_started (startRun_started (r := r) hfound hframes)
    exact ⟨_, u, by rw [← startMove_of_within hs hin hout hwithin]; rfl, hu, hcells⟩

end Sys2Proof.Proofs
end

section
/-!
PROOFS. The host's rings read back after the operations that change them, and what a descriptor that has executed leaves of its
submission ring, its completion ring and the jobs (13 R276, R281, R282, R284).
-/
namespace Sys2Proof.Proofs

open Sys2Proof Sys2Proof.Machine Sys2Proof.Laws

/-! ### A ring read after a write -/

@[simp] theorem subRing_setSub_same (n : Nat) (f : SubRing → SubRing) (s : State) :
    subRing (setSub n f s) n = f (subRing s n) := tget_tmod_same ..

theorem subRing_setSub_other {n k : Nat} (h : k ≠ n) (f : SubRing → SubRing) (s : State) :
    subRing (setSub n f s) k = subRing s k := tget_tmod_other _ _ _ h

@[simp] theorem complRing_setCompl_same (n : Nat) (f : ComplRing → ComplRing) (s : State) :
    complRing (setCompl n f s) n = f (complRing s n) := tget_tmod_same ..

theorem complRing_setCompl_other {n k : Nat} (h : k ≠ n) (f : ComplRing → ComplRing) (s : State) :
    complRing (setCompl n f s) k = complRing s k := tget_tmod_other _ _ _ h

@[simp] theorem complRing_setSub (n k : Nat) (f : SubRing → SubRing) (s : State) :
    complRing (setSub n f s) k = complRing s k := rfl

@[simp] theorem subRing_setCompl (n k : Nat) (f : ComplRing → ComplRing) (s : State) :
    subRing (setCompl n f s) k = subRing s k := rfl

@[simp] theorem trace_host (a b : Nat) (c : Bool) (d : Nat) (e : W32) (f : Nat) (s : State) :
    (trace a b c d e f s).host = s.host := by rw [trace_eq]

@[simp] theorem subRing_trace (a b : Nat) (c : Bool) (d : Nat) (e : W32) (f : Nat) (s : State) (k : Nat) :
    subRing (trace a b c d e f s) k = subRing s k := by rw [subRing, trace_host]; rfl

@[simp] theorem complRing_trace (a b : Nat) (c : Bool) (d : Nat) (e : W32) (f : Nat) (s : State) (k : Nat) :
    complRing (trace a b c d e f s) k = complRing s k := by rw [complRing, trace_host]; rfl

/-! ### A descriptor that completes at its execution (R281, R282, R284) -/

/-- The entry of a descriptor that completes at its execution and no host access of which may still time out. -/
def entryNow (d : Desc) (status detail : Nat) (halted : Bool) : Entry :=
  { tag := d.tag, status := status, halted := halted, report := false, detail := detail, urgent := dUrgent d
    position := none, ring := none, access := none, quiet := dQuiet d }

/-- The entries that a descriptor adds to its completion ring: none when it is QUIET and OK. -/
def entriesNow (d : Desc) (status detail : Nat) (halted : Bool) : List Entry :=
  if dQuiet d && status == stOk then [] else [entryNow d status detail halted]

/-- The error status halts the ring of the descriptor. -/
def haltsRing (d : Desc) (status : Nat) (s : State) : Bool := isError status && (subRing s d.ring).haltOnError

theorem accessFor_of_no_host_write {op : DescOp} (hout : op ≠ .copyOut) (hsnap : op ≠ .snapshot) (d : Desc) (st : Nat) (s : State) :
    accessFor op d st s = (none, s) := by
  simp [accessFor, hout, hsnap]

theorem completeWith_of_no_access {op : DescOp} (hout : op ≠ .copyOut) (hsnap : op ≠ .snapshot) (d : Desc) (st dt : Nat)
    (halted : Bool) (s : State) :
    completeWith op d st dt halted false s = if dQuiet d && st == stOk then s else
      setCompl (subRing s d.ring).completionRing.toNat (fun c => { c with waiting := c.waiting ++ [entryNow d st dt halted] }) s := by
  rw [completeWith, accessFor_of_no_host_write hout hsnap]
  simp only [Option.isNone_none, Bool.and_true]
  rfl

/-- The submission ring halted when the status asks for it. -/
def haltRing (d : Desc) (status : Nat) (s : State) : State :=
  if haltsRing d status s then setSub d.ring (fun r => { r with state := 2 }) s else s

theorem completeNow_eq (op : DescOp) (d : Desc) (st dt : Nat) (s : State) : completeNow op d st dt s =
    trace 1 1 false 0 (BitVec.allOnes 32) (descData op d st)
      (completeWith op d st dt (haltsRing d st s) false (haltRing d st s)) := rfl

/-! ### Completions touch the host's rings and the sheaf alone -/

theorem noted_run {s t : State} (h : Noted s t) : t.run = s.run := by
  unfold Noted at h
  rw [h]

theorem noted_setCompl (n : Nat) (f : ComplRing → ComplRing) (s : State) : Noted s (setCompl n f s) := rfl

theorem noted_completeWith (op : DescOp) (d : Desc) (st dt : Nat) (halted late : Bool) (s : State) :
    Noted s (completeWith op d st dt halted late s) := by
  have haccess : Noted s (accessFor op d st s).2 := by
    unfold accessFor
    split <;> rfl
  unfold completeWith
  dsimp only
  split
  · exact haccess
  · exact haccess.trans (noted_setCompl ..)

theorem noted_haltRing (d : Desc) (st : Nat) (s : State) : Noted s (haltRing d st s) := by
  unfold haltRing
  split <;> rfl

theorem noted_completeNow (op : DescOp) (d : Desc) (st dt : Nat) (s : State) : Noted s (completeNow op d st dt s) := by
  rw [completeNow_eq]
  exact (noted_haltRing d st s).trans ((noted_completeWith ..).trans (noted_trace ..))

/-! ### What the entry is, and whether the ring halts -/

theorem subRing_haltRing (d : Desc) (st : Nat) (s : State) : subRing (haltRing d st s) d.ring =
    { subRing s d.ring with state := if haltsRing d st s then 2 else (subRing s d.ring).state } := by
  unfold haltRing
  split <;> simp

theorem subRing_haltRing_other {d : Desc} {k : Nat} (h : k ≠ d.ring) (st : Nat) (s : State) :
    subRing (haltRing d st s) k = subRing s k := by
  unfold haltRing
  split
  · exact subRing_setSub_other h _ s
  · rfl

theorem haltRing_frame (d : Desc) (st : Nat) (s : State) :
    haltRing d st s = { s with host.sub := (haltRing d st s).host.sub } := by
  unfold haltRing
  split <;> rfl

/-- What a descriptor that completes at its execution leaves: its entry, its ring halted on an error, and the rest as it was. -/
structure CompletesNow (d : Desc) (st dt : Nat) (s t : State) : Prop where
  entry  : complRing t (subRing s d.ring).completionRing.toNat =
    { complRing s (subRing s d.ring).completionRing.toNat with
      waiting := (complRing s (subRing s d.ring).completionRing.toNat).waiting ++ entriesNow d st dt (haltsRing d st s) }
  compls : ∀ k, k ≠ (subRing s d.ring).completionRing.toNat → complRing t k = complRing s k
  ring   : subRing t d.ring = { subRing s d.ring with state := if haltsRing d st s then 2 else (subRing s d.ring).state }
  subs   : ∀ k, k ≠ d.ring → subRing t k = subRing s k
  rest   : t = { s with host.sub := t.host.sub, host.compl := t.host.compl, sheaf := t.sheaf }

theorem completeNow_completes {op : DescOp} (hout : op ≠ .copyOut) (hsnap : op ≠ .snapshot) (d : Desc) (st dt : Nat) (s : State) :
    CompletesNow d st dt s (completeNow op d st dt s) := by
  rw [completeNow_eq, completeWith_of_no_access hout hsnap]
  have hring := subRing_haltRing d st s
  have hsubs := fun k (h : k ≠ d.ring) => subRing_haltRing_other h st s
  have hcompl : ∀ k, complRing (haltRing d st s) k = complRing s k := fun k => by unfold haltRing; split <;> rfl
  have hframe := haltRing_frame d st s
  generalize haltRing d st s = h at *
  rw [trace_eq]
  split
  · next hquiet =>
    refine ⟨?_, fun k _ => hcompl k, hring, hsubs, by rw [hframe]⟩
    rw [entriesNow, if_pos hquiet, List.append_nil]
    exact hcompl _
  · next hloud =>
    refine ⟨?_, fun k hk => ?_, hring, hsubs, by rw [hframe]; rfl⟩
    · rw [entriesNow, if_neg hloud, ← hcompl, hring]
      exact complRing_setCompl_same _ _ h
    · rw [← hcompl k]
      exact complRing_setCompl_other (by rw [hring]; exact hk) _ h

theorem record_done_completes {op : DescOp} (hout : op ≠ .copyOut) (hsnap : op ≠ .snapshot) (d : Desc) (st dt : Nat) (s : State) :
    CompletesNow d st dt s (record op d (s, .done st dt)) :=
  completeNow_completes hout hsnap d st dt s

/-- Settles O28: by what a descriptor that completes at its execution leaves, and by the job that one leaves whose work goes on. -/
theorem completionEntries : Obligations.CompletionEntries := by
  unfold Obligations.CompletionEntries
  intro op d u st dt hout hsnap
  obtain ⟨hentry, hcompls, hring, hsubs, hrest⟩ := record_done_completes hout hsnap d st dt u
  exact ⟨hentry, hcompls, hring, hsubs, by rw [hrest], fun kind => ⟨_, rfl, rfl, by simp [record, startJob]; rfl, rfl⟩⟩

end Sys2Proof.Proofs
end

section
/-!
PROOFS. A descriptor's way to its order point: the rows that deliver one, its place on its ring, its turn, and the header that is
malformed (13 R275, R276, R281, R282).
-/
namespace Sys2Proof.Proofs

open Sys2Proof Sys2Proof.Machine Sys2Proof.Safety Sys2Proof.Laws

/-! ### The rows -/

/-- Every descriptor row delivers its descriptor, with the sub-operation of its row. -/
theorem descRows_take : ∀ row ∈ descRows, ∀ (d : Desc) (s : State),
    exec (row.1 d) s = .next (takeDescriptor row.2.1 (row.2.2 d) s) := by
  intro row h d s
  simp only [descRows, List.mem_cons, List.not_mem_nil, or_false] at h
  rcases h with rfl | rfl | rfl | rfl | rfl | rfl | rfl | rfl | rfl | rfl | rfl | rfl | rfl | rfl | rfl | rfl | rfl | rfl |
    rfl | rfl | rfl | rfl | rfl | rfl | rfl | rfl | rfl | rfl | rfl | rfl | rfl | rfl <;> rfl

/-! ### Taken, and in its turn -/

section

variable {op : DescOp} {d : Desc} {s : State}

theorem takeDescriptor_untaken (h : takesDescriptor s d.ring = false) : takeDescriptor op d s = s :=
  if_neg (Bool.eq_false_iff.1 h)

theorem takeDescriptor_waits (h : takesDescriptor s d.ring = true) (hfront : frontOf? (fetched op d s) d.ring = none) :
    takeDescriptor op d s = advance (fetched op d s) := by
  rw [takeDescriptor, if_pos h, executeFront, hfront]

/-- The descriptor in its turn goes through its order point. -/
theorem takeDescriptor_of_reaches (h : Reaches op d s) :
    takeDescriptor op d s = advance (executeOne d.ring op d (fetched op d s)) := by
  rw [takeDescriptor, if_pos h.takes, executeFront, h.front]

theorem executeOne_wide (h : runWide (atOrderPoint op d s) op d = true) :
    executeOne d.ring op d (fetched op d s) = issueWide op d (atOrderPoint op d s) := if_pos h

theorem executeOne_here (h : runWide (atOrderPoint op d s) op d = false) :
    let p := atOrderPoint op d s
    let t := record op d (runDesc 0 p.holding.number.toNat op d p)
    executeOne d.ring op d (fetched op d s) = if op = .runBegin ∧ (t.run.jobs.any fun j => j.op == .runBegin && j.d == d) = true then
      takeBegin t.holding.number.toNat d t else t := by
  intro p t
  have hone : executeOne d.ring op d (fetched op d s) = if op = .runBegin then
      (if (t.run.jobs.any fun j => j.op == .runBegin && j.d == d) = true then takeBegin t.holding.number.toNat d t else t)
      else t := if_neg (Bool.eq_false_iff.1 h)
  rw [hone, ite_and]

end

/-! ### A malformed header (R276) -/

theorem runDesc_of_headerBad {d : Desc} (h : headerBad d = true) (kind holding : Nat) (op : DescOp) (s : State) :
    runDesc kind holding op d s = (s, .done stMalformed 0) := if_pos h

theorem record_done_run (op : DescOp) (d : Desc) (st dt : Nat) (s : State) : (record op d (s, .done st dt)).run = s.run :=
  noted_run (noted_completeNow op d st dt s)

/-- A descriptor with a malformed header completes at its order point with MALFORMED; RUN_BEGIN begins no run. -/
theorem executeOne_of_headerBad {op : DescOp} {d : Desc} {s : State} (hhere : runWide (atOrderPoint op d s) op d = false)
    (hbad : headerBad d = true) (hnone : (s.run.jobs.any fun j => j.op == .runBegin) = false) :
    executeOne d.ring op d (fetched op d s) = record op d (atOrderPoint op d s, .done stMalformed 0) := by
  rw [executeOne_here hhere, runDesc_of_headerBad hbad]
  refine if_neg fun ⟨_, hany⟩ => ?_
  rw [record_done_run, atOrderPoint_eq] at hany
  obtain ⟨j, hj, hjob⟩ := List.any_eq_true.1 hany
  exact List.any_eq_false.1 hnone j hj (Bool.and_eq_true_iff.1 hjob).1

/-! ### The ring of the descriptor -/

theorem subRing_fetched (op : DescOp) (d : Desc) (s : State) : subRing (fetched op d s) d.ring =
    { subRing s d.ring with
      fetched := (subRing s d.ring).fetched + 1, waiting := (subRing s d.ring).waiting ++ [(op, d)] } :=
  subRing_setSub_same ..

theorem subRing_atOrderPoint (op : DescOp) (d : Desc) (s : State) : subRing (atOrderPoint op d s) d.ring =
    { subRing s d.ring with
      fetched := (subRing s d.ring).fetched + 1, executed := (subRing s d.ring).executed + 1
      waiting := ((subRing s d.ring).waiting ++ [(op, d)]).drop 1 } := by
  rw [atOrderPoint, subRing_trace, subRing_setSub_same, subRing_fetched]

theorem subRing_atOrderPoint_other {d : Desc} {k : Nat} (h : k ≠ d.ring) (op : DescOp) (s : State) :
    subRing (atOrderPoint op d s) k = subRing s k := by
  rw [atOrderPoint, subRing_trace, subRing_setSub_other h, fetched, subRing_setSub_other h]

/-- Settles O27: a descriptor is untaken, waits, or goes through its order point, and its place on its ring is read back. -/
theorem descriptorsReachOrderPoint : Obligations.DescriptorsReachOrderPoint := by
  unfold Obligations.DescriptorsReachOrderPoint
  intro row hrow d0 s c op d r
  have hexec : exec c s = .next (takeDescriptor op d s) := descRows_take row hrow d0 s
  rw [hexec]
  refine ⟨fun huntaken => ?_, fun htaken hwaits => ?_, fun hreach hhere hbad hnone => ?_, subRing_fetched op d s,
    subRing_atOrderPoint op d s, fun k hk => subRing_atOrderPoint_other hk op s, rfl, ?_⟩
  · rw [takeDescriptor_untaken huntaken]
  · rw [takeDescriptor_waits htaken hwaits]
  · rw [takeDescriptor_of_reaches hreach, executeOne_of_headerBad hhere hbad hnone]
  · rw [atOrderPoint_eq]

end Sys2Proof.Proofs
end

section
/-!
PROOFS. Host reads and the controls of a ring: the doorbell words that a nudge or a poll reads, ENABLE and RESUME (13 R266, R268,
R272, R274, R282, R283).
-/
namespace Sys2Proof.Proofs

open Sys2Proof Sys2Proof.Machine Sys2Proof.Safety Sys2Proof.Laws

/-! ### A host read (R275) -/

/-- A read issued takes the next identifier; the link carries it. -/
theorem hostRead_of_linkUp {s : State} (h : s.power.linkUp = true) (what : HostAccess) (addr len : Nat) :
    hostRead what addr len s = { s with
      host.nextAccess := s.host.nextAccess + 1
      host.accesses := tset none s.host.accesses s.host.nextAccess (some what)
      out.reads := s.out.reads ++ [(s.host.nextAccess, addr, len)] } := if_pos h

/-- A read issued leaves every other access as it was. -/
theorem hostRead_older {s : State} (h : s.power.linkUp = true) (what : HostAccess) (addr len : Nat) {id : Nat}
    (hid : id < s.host.nextAccess) : tget none (hostRead what addr len s).host.accesses id = tget none s.host.accesses id := by
  rw [hostRead_of_linkUp h]
  exact tget_tset_other none s.host.accesses (some what) (Nat.ne_of_lt hid)

theorem hostRead_access {s : State} (h : s.power.linkUp = true) (what : HostAccess) (addr len : Nat) :
    tget none (hostRead what addr len s).host.accesses s.host.nextAccess = some what := by
  rw [hostRead_of_linkUp h]
  exact tget_tset_same none s.host.accesses s.host.nextAccess (some what)

@[simp] theorem subRing_hostRead (what : HostAccess) (addr len : Nat) (s : State) (k : Nat) :
    subRing (hostRead what addr len s) k = subRing s k := by
  unfold hostRead
  split <;> rfl

/-- The address of a doorbell word (13 R272). -/
def doorbellAt (s : State) (w : Nat) : Nat := s.host.ctx.doorbellBase.toNat / 4096 * 4096 + 8 * w

/-- From `s` to `t` reads have been issued, and nothing else has changed. -/
def ReadsOnly (s t : State) : Prop :=
  t = { s with host.nextAccess := t.host.nextAccess, host.accesses := t.host.accesses, out.reads := t.out.reads }

/-- From `s` to `t` the doorbell words `ws` are being read, each under its own identifier. -/
structure ReadsWords (ws : List Nat) (s t : State) : Prop where
  next   : t.host.nextAccess = s.host.nextAccess + ws.length
  reads  : t.out.reads = s.out.reads ++ ws.mapIdx fun i w => (s.host.nextAccess + i, doorbellAt s w, 8)
  access : ∀ i w, ws[i]? = some w → tget none t.host.accesses (s.host.nextAccess + i) = some (.doorbell w)
  older  : ∀ id, id < s.host.nextAccess → tget none t.host.accesses id = tget none s.host.accesses id
  rest   : ReadsOnly s t

theorem readDoorbell_reads {s : State} (h : s.power.linkUp = true) (w : Nat) : ReadsWords [w] s (readDoorbell w s) := by
  have hread : readDoorbell w s = _ := hostRead_of_linkUp h ..
  refine ⟨by rw [hread]; rfl, by rw [hread]; rfl, fun i x hx => ?_, fun id hid => hostRead_older h _ _ _ hid, by rw [hread]; rfl⟩
  obtain ⟨rfl, rfl⟩ : i = 0 ∧ w = x := by
    cases i <;> simp_all
  exact hostRead_access h ..

theorem ReadsWords.append {ws vs : List Nat} {s t u : State} (a : ReadsWords ws s t) (b : ReadsWords vs t u) :
    ReadsWords (ws ++ vs) s u where
  next := by rw [b.next, a.next, List.length_append, Nat.add_assoc]
  reads := by
    have hat : ∀ w, doorbellAt t w = doorbellAt s w := fun w => by rw [doorbellAt, a.rest]; rfl
    rw [b.reads, a.reads, a.next, List.mapIdx_append, List.append_assoc]
    simp only [hat, Nat.add_assoc, Nat.add_comm ws.length]
  access := fun i w hw => by
    by_cases hi : i < ws.length
    · rw [b.older _ (by rw [a.next]; omega)]
      exact a.access i w (by rwa [List.getElem?_append_left hi] at hw)
    · rw [List.getElem?_append_right (by omega)] at hw
      rw [← b.access _ w hw, a.next]
      congr 1
      omega
  older := fun id hid => (b.older id (by rw [a.next]; omega)).trans (a.older id hid)
  rest := by
    have ha := a.rest
    have hb := b.rest
    unfold ReadsOnly at *
    rw [hb, ha]

theorem readDoorbells_read {s : State} (h : s.power.linkUp = true) (ws : List Nat) :
    ReadsWords ws s (ws.foldl (fun s w => readDoorbell w s) s) := by
  induction ws generalizing s with
  | nil => exact ⟨rfl, by simp, nofun, fun _ _ => rfl, rfl⟩
  | cons w ws ih =>
    have first := readDoorbell_reads h w
    exact first.append (ih (by rw [first.rest]; exact h))

/-! ### The controls (R266, R274, R283) -/

theorem exec_nudge (n : Nat) (s : State) : exec (.nudge n) s =
    .next (if serves s && decide (n < 256) && (subRing s n).enable then readDoorbell n s else s) := rfl

/-- The numbers of the enabled submission rings. -/
def enabledSubs (s : State) : List Nat := s.host.sub.filterMap fun e => if e.2.enable then some e.1 else none

theorem exec_nudgeAll (s : State) : exec .nudgeAll s =
    .next (if serves s then (enabledSubs s).foldl (fun s n => readDoorbell n s) s else s) := rfl

theorem exec_ringEnable_sub {s : State} {n : Nat} (hc : hostControls s = true) (hn : n < 256) (value : Bool) :
    exec (.ringEnable false n value) s = .next (if value then setSub n enableSub s else disableSub n s) := by
  have hguard : (!hostControls s || decide (256 ≤ n)) = false := by simp [hc, hn]
  show Host.Outcome.next (if (!hostControls s || decide (256 ≤ n)) = true then s else _) = _
  rw [hguard]
  rfl

theorem exec_ringEnable_compl {s : State} {n : Nat} (hc : hostControls s = true) (hn : n < 256) (value : Bool) :
    exec (.ringEnable true n value) s = .next (advance (setCompl n (if value then enableCompl else disableCompl) s)) := by
  have hguard : (!hostControls s || decide (256 ≤ n)) = false := by simp [hc, hn]
  show Host.Outcome.next (if (!hostControls s || decide (256 ≤ n)) = true then s else _) = _
  rw [hguard]
  rfl

theorem exec_ringResume {s : State} {n : Nat} (hc : hostControls s = true) (hn : n < 256) :
    exec (.ringResume n) s = .next (if (subRing s n).state = 2 then advance (setSub n (fun r => { r with state := 1 }) s) else s) := by
  show Host.Outcome.next (if (hostControls s && decide (n < 256) && (subRing s n).state == 2) = true then _ else _) = _
  simp [hc, hn]

theorem settleRing_enable (r : SubRing) : (settleRing r).enable = r.enable := by
  unfold settleRing
  split <;> rfl

/-- The ring as ENABLE written 0 leaves it. -/
def disabled (r : SubRing) : SubRing := settleRing { r with enable := false, waiting := [], reading := 0, draining := true }

/-- A ring disabled with nothing waiting and no order of it held completes nothing. -/
theorem disableSub_of_idle {s : State} {n : Nat} (hon : (subRing s n).enable = true) (hidle : (subRing s n).waiting = [])
    (hheld : s.run.held.any (holdsRing s n) = false) :
    disableSub n s = setSub n disabled
      { s with host.accesses := (disableSub n s).host.accesses, run.held := (disableSub n s).run.held } := by
  have hnone : ∀ u : State, u.run = s.run → u.holding = s.holding → u.run.held.filter (holdsRing u n) = [] := by
    intro u hrun hholding
    have hholds : holdsRing u n = holdsRing s n := by
      funext h
      rw [holdsRing, hholding]
      rfl
    rw [hholds, hrun]
    exact List.filter_eq_nil_iff.2 fun h hh => by simpa using List.any_eq_false.1 hheld h hh
  unfold disableSub
  dsimp only
  rw [if_neg (by simp [hon]), hidle, hnone]
  all_goals rfl

/-- Settles O23: each control by what its guard lets through, and by the words it reads or the ring it writes. -/
theorem ringControls : Obligations.RingControls := by
  unfold Obligations.RingControls
  intro s n hn
  refine ⟨?nudge, ?nudgeAll, ?inert, ?enableSub, ?disableSub, ?enableCompl, ?resume, ?running⟩
  case nudge =>
    intro hserves hon hlink
    have h := readDoorbell_reads hlink n
    refine ⟨readDoorbell n s, ?_, h.reads, ?_, ?_⟩
    · rw [exec_nudge]
      simp [hserves, hon, hn]
    · rw [readDoorbell, hostRead_of_linkUp hlink]
    · rw [h.rest]
  case nudgeAll =>
    intro hserves hlink rings
    have h := readDoorbells_read hlink rings
    exact ⟨_, by rw [exec_nudgeAll, if_pos hserves]; rfl, h.next, h.reads⟩
  case inert =>
    intro hserves
    rw [exec_nudge, exec_nudgeAll]
    simp [hserves]
  case enableSub =>
    intro hc hoff
    refine ⟨setSub n enableSub s, exec_ringEnable_sub hc hn true, ?_, fun k hk => subRing_setSub_other hk _ s, rfl⟩
    rw [subRing_setSub_same, enableSub, if_neg (by simp [hoff])]
  case disableSub =>
    intro hc hon hidle hheld
    have heq := disableSub_of_idle hon hidle hheld
    refine ⟨disableSub n s, exec_ringEnable_sub hc hn false, ?_, fun k hk => ?_, ?_⟩
    · rw [heq, subRing_setSub_same, disabled, settleRing_enable]
    · rw [heq, subRing_setSub_other hk]
      rfl
    · rw [heq]
      rfl
  case enableCompl =>
    intro hc hoff
    refine ⟨setCompl n enableCompl s, exec_ringEnable_compl hc hn true, ?_, rfl⟩
    rw [complRing_setCompl_same, enableCompl, if_neg (by simp [hoff])]
  case resume =>
    intro hc hhalted
    refine ⟨_, by rw [exec_ringResume hc hn, if_pos hhalted], subRing_setSub_same .., fun k hk => subRing_setSub_other hk _ s, rfl⟩
  case running =>
    intro hc hrunning
    rw [exec_ringResume hc hn, if_neg hrunning]

end Sys2Proof.Proofs
end

section
/-!
PROOFS. The poll engine: the progress words that a poll writes, the descriptor fetches, the doorbell words answered, and the host
interface across an event that is raised (13 R272, R273, R275, 15 R319, R330).
-/
namespace Sys2Proof.Proofs

open Sys2Proof Sys2Proof.Machine Sys2Proof.Safety Sys2Proof.Laws

/-! ### The host interface across an event (R285) -/

/-- From `h` to `h'` what the event queue and the vectors hold may have changed, and nothing else. -/
def EventsOnly (h h' : HostIf) : Prop :=
  h' = { h with
    ctx.eventLost := h'.ctx.eventLost, evPosted := h'.evPosted, evLostFlag := h'.evLostFlag, evUnsig := h'.evUnsig
    evFirstAt := h'.evFirstAt, evWaiting := h'.evWaiting, msixPending := h'.msixPending }

theorem EventsOnly.trans {a b c : HostIf} (h : EventsOnly a b) (k : EventsOnly b c) : EventsOnly a c := by
  unfold EventsOnly at *
  rw [k, h]

theorem hostWrite_host (a : Nat) (bs : Bytes) (p : Bool) (s : State) : (hostWrite a bs p s).host = s.host := by rw [hostWrite_eq]

theorem signal_events (v : Nat) (s : State) : EventsOnly s.host (signal v s).host := by
  unfold signal
  split
  · rfl
  · split <;> rfl

theorem eventSignal_events (s : State) : EventsOnly s.host (eventSignal s).host := by
  unfold eventSignal
  split
  · exact EventsOnly.trans (b := { s.host with evUnsig := 0 }) rfl (signal_events _ { s with host.evUnsig := 0 })
  · rfl

theorem postEvent_events (c : Nat) (m : ModId) (p : Pos) (ts d : W64) (s : State) :
    EventsOnly s.host (postEvent c m p ts d s).host := by
  unfold postEvent
  dsimp only
  split
  · rfl
  · split
    · rfl
    · refine EventsOnly.trans ?_ (eventSignal_events _)
      rw [hostWrite_host]
      rfl

theorem deliverEvent_events (c : Nat) (p : Pos) (d : W64) (s : State) : EventsOnly s.host (deliverEvent c p d s).host := by
  unfold deliverEvent
  dsimp only
  split
  · exact postEvent_events ..
  · split
    · rw [sendHedge_eq]
      rfl
    · rfl

theorem raise_events (c d : Nat) (s : State) : EventsOnly s.host (raise c d s).host := by
  obtain ⟨h, e⟩ := raiseAt_delivers false c s.run.head d s
  unfold raise
  rw [e]
  exact deliverEvent_events c _ _ { s with sheaf := h }

theorem raise_sub (c d : Nat) (s : State) : (raise c d s).host.sub = s.host.sub := by rw [raise_events c d s]

theorem raise_safeHold (c d : Nat) (s : State) : (raise c d s).host.safeHold = s.host.safeHold := by rw [raise_events c d s]

@[simp] theorem subRing_raise (c d : Nat) (s : State) (k : Nat) : subRing (raise c d s) k = subRing s k := by
  rw [subRing, raise_sub]
  rfl

/-! ### Little-endian words -/

theorem leNat_append (a b : Bytes) : leNat (a ++ b) = leNat a + 256 ^ a.length * leNat b := by
  induction a with
  | nil => simp [leNat]
  | cons x a ih =>
    rw [List.cons_append, leNat, ih, leNat, List.length_cons, Nat.pow_succ]
    ring

theorem leNat_lt (a : Bytes) : leNat a < 256 ^ a.length := by
  induction a with
  | nil => simp [leNat]
  | cons x a ih =>
    have hx := x.isLt
    rw [leNat, List.length_cons, Nat.pow_succ]
    omega

theorem field_lt (b : Bytes) (off len : Nat) : field b off len < 256 ^ len :=
  Nat.lt_of_lt_of_le (leNat_lt _) (Nat.pow_le_pow_right (by decide) (by simp [slice]))

/-- A doorbell word is the count in its low half and the generation in its high half. -/
theorem field_halves (b : Bytes) : field b 0 8 = field b 0 4 + 2 ^ 32 * field b 4 4 := by
  have hcut : slice b 0 8 = slice b 0 4 ++ slice b 4 4 := by simp [slice, ← List.take_add]
  rw [field, hcut, leNat_append]
  by_cases h : 4 ≤ b.length
  · have hlen : (slice b 0 4).length = 4 := by simp [slice, h]
    rw [hlen]
    rfl
  · have hnil : slice b 4 4 = [] := by simp [slice]; omega
    simp [field, hnil, leNat]

theorem doorbell_count (b : Bytes) : BitVec.ofNat 32 (field b 0 8) = BitVec.ofNat 32 (field b 0 4) := by
  apply BitVec.eq_of_toNat_eq
  rw [field_halves, BitVec.toNat_ofNat, BitVec.toNat_ofNat, Nat.add_mul_mod_self_left]

theorem doorbell_generation (b : Bytes) : bits (field b 0 8) 32 32 = field b 4 4 := by
  have hlow := field_lt b 0 4
  have hhigh := field_lt b 4 4
  rw [bits, Nat.shiftRight_eq_div_pow, field_halves]
  omega

/-! ### Descriptor fetches (R275) -/

/-- From `s` to `t` descriptors are being fetched, and nothing else has changed; a read issued earlier stands. -/
structure Fetches (s t : State) : Prop where
  reads : ∃ more, t.out.reads = s.out.reads ++ more ∧ ∀ x ∈ more, x.2.2 = 64
  next  : s.host.nextAccess ≤ t.host.nextAccess
  older : ∀ id, id < s.host.nextAccess → tget none t.host.accesses id = tget none s.host.accesses id
  rest  : t = { s with
    host.sub := t.host.sub, host.nextAccess := t.host.nextAccess, host.accesses := t.host.accesses
    out.reads := t.out.reads }

theorem Fetches.refl (s : State) : Fetches s s := ⟨⟨[], by simp, by simp⟩, Nat.le_refl _, fun _ _ => rfl, rfl⟩

theorem Fetches.trans {s t u : State} (a : Fetches s t) (b : Fetches t u) : Fetches s u where
  reads := by
    obtain ⟨xs, hxs, hxlen⟩ := a.reads
    obtain ⟨ys, hys, hylen⟩ := b.reads
    refine ⟨xs ++ ys, by rw [hys, hxs, List.append_assoc], fun x hx => ?_⟩
    exact (List.mem_append.1 hx).elim (hxlen x) (hylen x)
  next := Nat.le_trans a.next b.next
  older := fun id hid => (b.older id (Nat.lt_of_lt_of_le hid a.next)).trans (a.older id hid)
  rest := by rw [b.rest, a.rest]

/-- The next slot of the ring may be fetched. -/
def fetchable (s : State) (n : Nat) : Bool :=
  let r := subRing s n
  r.enable && r.state != 3 && r.reading == 0 && hasRoom r && r.fetched != r.producer && s.power.linkUp

theorem fetchNext_eq (n : Nat) (s : State) : fetchNext n s = if fetchable s n then
    setSub n (fun r => { r with reading := 1 }) (hostRead (.descriptor n (subRing s n).fetched 0)
      (slotAddress (subRing s n) (subRing s n).fetched) 64 s) else s := rfl

theorem linkUp_of_fetchable {s : State} {n : Nat} (h : fetchable s n = true) : s.power.linkUp = true :=
  (Bool.and_eq_true_iff.1 h).2

theorem fetchNext_fetches (n : Nat) (s : State) : Fetches s (fetchNext n s) := by
  rw [fetchNext_eq]
  split
  · next h =>
    have hlink := linkUp_of_fetchable h
    have hread := hostRead_of_linkUp hlink
    exact ⟨⟨_, by rw [hread]; rfl, by simp⟩, by rw [hread]; exact Nat.le_succ _,
      fun id hid => hostRead_older hlink _ _ _ hid, by rw [hread]; rfl⟩
  · exact .refl s

theorem fetchAll_fetches (s : State) : Fetches s (fetchAll s) :=
  foldl_inv (p := Fetches s) (fun u n h => h.trans (fetchNext_fetches n u)) _ (.refl s)

/-! ### Progress words (R273) -/

/-- The write of a progress word, if the word has changed. -/
def progressWrite (s : State) (w : Nat) (count generation : W32) (shown : Option Nat) : Option (Nat × Bytes × Bool) :=
  if shown = some (progressWord count generation) then none else
    some (s.host.ctx.progressBase.toNat / 4096 * 4096 + 8 * w, leBytes 8 (progressWord count generation), false)

/-- The progress write of a submission ring, and of a completion ring. -/
def subWrite (s : State) (e : Nat × SubRing) : Option (Nat × Bytes × Bool) :=
  if e.2.enable then progressWrite s e.1 e.2.fetched e.2.generation e.2.shown else none

def complWrite (s : State) (e : Nat × ComplRing) : Option (Nat × Bytes × Bool) :=
  if e.2.enable then progressWrite s (256 + e.1) e.2.posted e.2.generation e.2.shown else none

theorem progressWrites_eq (s : State) : progressWrites s =
    s.host.sub.filterMap (subWrite s) ++ s.host.compl.filterMap (complWrite s) := rfl

/-- One submission ring's progress shown, and one completion ring's. -/
def showSub (s : State) (e : Nat × SubRing) : State :=
  if e.2.enable then setSub e.1 (fun r => { r with shown := some (progressWord e.2.fetched e.2.generation) })
    (showProgress e.1 (progressWord e.2.fetched e.2.generation) e.2.shown s) else s

def showCompl (s : State) (e : Nat × ComplRing) : State :=
  if e.2.enable then setCompl e.1 (fun c => { c with shown := some (progressWord e.2.posted e.2.generation) })
    (showProgress (256 + e.1) (progressWord e.2.posted e.2.generation) e.2.shown s) else s

theorem writeProgress_eq (s : State) : writeProgress s =
    (s.host.sub.foldl showSub s).host.compl.foldl showCompl (s.host.sub.foldl showSub s) := rfl

/-- From `s` to `t` the progress words `ws` have been written, and nothing but the words last shown has changed. -/
structure Shows (ws : List (Nat × Bytes × Bool)) (s t : State) : Prop where
  writes : t.out.host = s.out.host ++ ws
  rest   : t = { s with host.sub := t.host.sub, host.compl := t.host.compl, out.host := t.out.host }

theorem Shows.refl (s : State) : Shows [] s s := ⟨(List.append_nil _).symm, rfl⟩

theorem Shows.append {ws vs : List (Nat × Bytes × Bool)} {s t u : State} (a : Shows ws s t) (b : Shows vs t u) :
    Shows (ws ++ vs) s u :=
  ⟨by rw [b.writes, a.writes, List.append_assoc], by rw [b.rest, a.rest]⟩

theorem showProgress_shows {s : State} (h : s.power.linkUp = true) (w : Nat) (count generation : W32) (shown : Option Nat) :
    Shows (progressWrite s w count generation shown).toList s (showProgress w (progressWord count generation) shown s) := by
  unfold showProgress progressWrite
  split
  · exact .refl s
  · rw [hostWrite, if_pos h]
    exact ⟨rfl, rfl⟩

theorem showSub_shows {s : State} (h : s.power.linkUp = true) (e : Nat × SubRing) : Shows (subWrite s e).toList s (showSub s e) := by
  unfold showSub subWrite
  split
  · obtain ⟨hwrites, hrest⟩ := showProgress_shows h e.1 e.2.fetched e.2.generation e.2.shown
    exact ⟨hwrites, by rw [hrest]; rfl⟩
  · exact .refl s

theorem showCompl_shows {s : State} (h : s.power.linkUp = true) (e : Nat × ComplRing) :
    Shows (complWrite s e).toList s (showCompl s e) := by
  unfold showCompl complWrite
  split
  · obtain ⟨hwrites, hrest⟩ := showProgress_shows h (256 + e.1) e.2.posted e.2.generation e.2.shown
    exact ⟨hwrites, by rw [hrest]; rfl⟩
  · exact .refl s

/-- Rings shown in turn: the words of each, as its step writes them. -/
theorem foldl_shows {ρ : Type} {g : State → ρ → State} {f : State → ρ → Option (Nat × Bytes × Bool)}
    (hg : ∀ s x, s.power.linkUp = true → Shows (f s x).toList s (g s x)) (hf : ∀ s t ws, Shows ws s t → f t = f s)
    (l : List ρ) {s : State} (h : s.power.linkUp = true) : Shows (l.filterMap (f s)) s (l.foldl g s) := by
  induction l generalizing s with
  | nil => exact .refl s
  | cons x l ih =>
    have first := hg s x h
    have others := ih (s := g s x) (by rw [first.rest]; exact h)
    rw [hf _ _ _ first] at others
    have all := first.append others
    rw [List.filterMap_cons]
    cases hx : f s x with
    | none => simpa [hx] using all
    | some y => simpa [hx] using all

theorem subWrite_of_shows {ws : List (Nat × Bytes × Bool)} {s t : State} (h : Shows ws s t) : subWrite t = subWrite s := by
  funext e
  rw [subWrite, progressWrite, h.rest]
  rfl

theorem complWrite_of_shows {ws : List (Nat × Bytes × Bool)} {s t : State} (h : Shows ws s t) : complWrite t = complWrite s := by
  funext e
  rw [complWrite, progressWrite, h.rest]
  rfl

theorem showSubs_compl (l : List (Nat × SubRing)) (s : State) : (l.foldl showSub s).host.compl = s.host.compl := by
  refine foldl_inv (p := fun t : State => t.host.compl = s.host.compl) (fun u e h => ?_) l rfl
  unfold showSub showProgress
  split
  · split
    · exact h
    · rw [hostWrite_eq]; exact h
  · exact h

theorem writeProgress_shows {s : State} (h : s.power.linkUp = true) : Shows (progressWrites s) s (writeProgress s) := by
  have subs := foldl_shows (fun s e hs => showSub_shows hs e) (fun _ _ _ hw => subWrite_of_shows hw) s.host.sub h
  rw [writeProgress_eq, progressWrites_eq, showSubs_compl, ← complWrite_of_shows subs]
  exact subs.append (foldl_shows (fun s e hs => showCompl_shows hs e) (fun _ _ _ hw => complWrite_of_shows hw) _
    (by rw [subs.rest]; exact h))

/-- With no submission ring enabled no word of one is shown. -/
theorem writeProgress_sub {s : State} (h : (s.host.sub.any fun e => e.2.enable) = false) :
    (writeProgress s).host.sub = s.host.sub := by
  have hsubs : s.host.sub.foldl showSub s = s := by
    refine (foldl_congr_of_mem (g := fun t _ => t) (fun t e he => ?_) s).trans (List.foldl_fixed _)
    exact if_neg (List.any_eq_false.1 h e he)
  rw [writeProgress_eq, hsubs]
  refine foldl_inv (p := fun t : State => t.host.sub = s.host.sub) (fun u e hu => ?_) _ rfl
  unfold showCompl showProgress
  split
  · split
    · exact hu
    · rw [hostWrite_eq]; exact hu
  · exact hu

/-! ### A poll (R272) -/

/-- The state with the poll's time noted. -/
def pollNoted (s : State) : State := { s with host.lastPoll := s.clock.up }

/-- The words a poll reads while a submission ring is enabled. -/
theorem poll_of_serves {s : State} (h : serves s = true) : poll s =
    if (enabledSubs s).isEmpty then writeProgress (pollNoted s) else
      fetchAll ((pollWords s).foldl (fun s w => readDoorbell w s) (writeProgress (pollNoted s))) := by
  have hguard : ¬ (!serves s) = true := by simp [h]
  exact if_neg hguard

theorem poll_of_idle {s : State} (h : serves s = false) : poll s = s := by
  have hguard : (!serves s) = true := by simp [h]
  exact if_pos hguard

theorem enabledSubs_isEmpty (s : State) : (enabledSubs s).isEmpty = !(s.host.sub.any fun e => e.2.enable) := by
  unfold enabledSubs
  induction s.host.sub with
  | nil => rfl
  | cons e l ih =>
    rw [List.filterMap_cons, List.any_cons]
    cases h : e.2.enable
    · simpa using ih
    · simp

theorem exec_pollTick (s : State) : exec .pollTick s = .next (advance (poll s)) := rfl

/-- What a poll leaves while a submission ring is enabled. -/
structure Polled (s u : State) : Prop where
  at_    : u.host.lastPoll = s.clock.up
  writes : u.out.host = s.out.host ++ progressWrites s
  reads  : ∃ more, (∀ x ∈ more, x.2.2 = 64) ∧ u.out.reads =
    s.out.reads ++ ((pollWords s).mapIdx fun i w => (s.host.nextAccess + i, doorbellAt s w, 8)) ++ more
  access : ∀ i w, (pollWords s)[i]? = some w → tget none u.host.accesses (s.host.nextAccess + i) = some (.doorbell w)
  rest   : u = { s with host := u.host, out := u.out }

theorem poll_polls {s : State} (hserves : serves s = true) (hlink : s.power.linkUp = true)
    (hon : (s.host.sub.any fun e => e.2.enable) = true) : Polled s (poll s) := by
  have shows := writeProgress_shows (s := pollNoted s) hlink
  rw [poll_of_serves hserves, enabledSubs_isEmpty, hon]
  generalize writeProgress (pollNoted s) = t at *
  obtain ⟨hwrites, hshown⟩ := shows
  have words := readDoorbells_read (s := t) (by rw [hshown]; exact hlink) (pollWords s)
  show Polled s (fetchAll ((pollWords s).foldl (fun s w => readDoorbell w s) t))
  generalize (pollWords s).foldl (fun s w => readDoorbell w s) t = v at *
  obtain ⟨hnext, hreads, haccess, -, hread⟩ := words
  obtain ⟨⟨more, hmore, hlen⟩, -, holder, hfetched⟩ := fetchAll_fetches v
  generalize fetchAll v = u at *
  have hbase : t.host.nextAccess = s.host.nextAccess := by rw [hshown]; rfl
  refine ⟨?_, ?_, ⟨more, hlen, ?_⟩, fun i w hw => ?_, ?_⟩
  · rw [hfetched, hread, hshown]
    rfl
  · rw [hfetched, hread]
    exact hwrites
  · rw [hmore, hreads, hshown]
    rfl
  · have hi := (List.getElem?_eq_some_iff.1 hw).1
    rw [← hbase, holder _ (by omega)]
    exact haccess i w hw
  · rw [hfetched, hread, hshown]
    rfl

/-! ### Doorbell words answered (R272, R275) -/

theorem exec_hostAccessCompletion (r : HostReply) (s : State) :
    exec (.hostAccessCompletion r) s = .next (advance (takeReply r s)) := rfl

theorem takeReply_doorbell {r : HostReply} {s : State} {n : Nat} {b : Bytes}
    (haccess : tget none s.host.accesses r.id = some (.doorbell n)) (hdata : r.data = .ok b) :
    takeReply r s = takeDoorbell n (field b 0 8) (dropAccess r.id s) := by
  rw [takeReply, haccess]
  dsimp only
  rw [hdata]

/-- A submission doorbell word of the ring's present generation: its count moves the producer, or puts the ring into its error state. -/
theorem takeDoorbell_sub {s : State} {n : Nat} {b : Bytes} (hn : n < 256) (hon : (subRing s n).enable = true)
    (hstate : (subRing s n).state ≠ 3) (hgeneration : field b 4 4 = (subRing s n).generation.toNat) :
    takeDoorbell n (field b 0 8) s =
      if 2 ^ (subRing s n).sizeLog2.toNat < (BitVec.ofNat 32 (field b 0 4) - (subRing s n).fetched).toNat then
        ringError false n 1 (setSub n (fun r => { r with state := 3, errorCode := 1 }) s)
      else fetchNext n (setSub n (fun r => { r with producer := BitVec.ofNat 32 (field b 0 4) }) s) := by
  rw [takeDoorbell, if_pos hn, takeProducer, doorbell_count, doorbell_generation]
  exact if_neg (by simp [hon, hstate, hgeneration])

/-- A ring's error leaves the other parts of the module as they were (15 R319). -/
structure RingFails (n code : Nat) (s u : State) : Prop where
  state : (subRing u n).state = 3
  error : (subRing u n).errorCode = code
  rest  : u = { s with host := u.host, sheaf := u.sheaf, out := u.out }

theorem ringError_fails (n code : Nat) (f : SubRing → SubRing) (hf : ∀ r, (f r).state = 3 ∧ (f r).errorCode = code) (c : Bool)
    (k : Nat) (s : State) : RingFails n code s (ringError c n k (setSub n f s)) := by
  refine ⟨?_, ?_, ?_⟩
  · rw [ringError, subRing_raise, subRing_setSub_same]
    exact (hf _).1
  · rw [ringError, subRing_raise, subRing_setSub_same]
    exact (hf _).2
  · rw [ringError, raise_eq]
    rfl

theorem producer_fetches {s : State} {n : Nat} (hon : (subRing s n).enable = true) (hstate : (subRing s n).state ≠ 3) (p : W32) :
    fetchable (setSub n (fun r => { r with producer := p }) s) n =
      ((subRing s n).reading == 0 && hasRoom (subRing s n) && (subRing s n).fetched != p && s.power.linkUp) := by
  unfold fetchable
  rw [subRing_setSub_same]
  show ((subRing s n).enable && (subRing s n).state != 3 && _ && _ && _ && _) = _
  rw [hon, bne_iff_ne.2 hstate]
  rfl

/-- The submission ring `n` of `u` once its producer is `p`: its next descriptor is fetched when there is one and room for it. -/
structure MovesProducer (n : Nat) (p : W32) (fetches : Bool) (s u : State) : Prop where
  ring   : subRing u n =
    { subRing s n with producer := p, reading := if fetches then 1 else (subRing s n).reading }
  others : ∀ k, k ≠ n → subRing u k = subRing s k
  reads  : u.out.reads = s.out.reads ++ (if fetches then
    [(s.host.nextAccess, slotAddress (subRing s n) (subRing s n).fetched, 64)] else [])
  access : fetches = true → tget none u.host.accesses s.host.nextAccess = some (.descriptor n (subRing s n).fetched 0)
  rest   : u = { s with
    host.sub := u.host.sub, host.accesses := u.host.accesses, host.nextAccess := u.host.nextAccess
    out.reads := u.out.reads }

theorem fetchNext_movesProducer {s : State} {n : Nat} (hon : (subRing s n).enable = true) (hstate : (subRing s n).state ≠ 3)
    (p : W32) : MovesProducer n p
      ((subRing s n).reading == 0 && hasRoom (subRing s n) && (subRing s n).fetched != p && s.power.linkUp) s
      (fetchNext n (setSub n (fun r => { r with producer := p }) s)) := by
  have hring : subRing (setSub n (fun r => { r with producer := p }) s) n = { subRing s n with producer := p } :=
    subRing_setSub_same ..
  have hothers : ∀ k, k ≠ n → subRing (setSub n (fun r => { r with producer := p }) s) k = subRing s k :=
    fun k hk => subRing_setSub_other hk _ s
  have hrest := (fetchNext_fetches n (setSub n (fun r => { r with producer := p }) s)).rest
  have heq := fetchNext_eq n (setSub n (fun r => { r with producer := p }) s)
  rw [producer_fetches hon hstate, hring] at heq
  cases hfetches : (subRing s n).reading == 0 && hasRoom (subRing s n) && (subRing s n).fetched != p && s.power.linkUp with
  | false =>
    rw [hfetches, if_neg Bool.false_ne_true] at heq
    rw [heq] at hrest ⊢
    exact ⟨hring, hothers, (List.append_nil _).symm, nofun, hrest⟩
  | true =>
    have hlink : (setSub n (fun r => { r with producer := p }) s).power.linkUp = true := (Bool.and_eq_true_iff.1 hfetches).2
    rw [hfetches, if_pos rfl] at heq
    refine ⟨?_, fun k hk => ?_, ?_, fun _ => ?_, hrest⟩
    · rw [heq, subRing_setSub_same, subRing_hostRead, hring]
      rfl
    · rw [heq, subRing_setSub_other hk, subRing_hostRead, hothers k hk]
    · rw [heq, hostRead_of_linkUp hlink]
      rfl
    · rw [heq]
      exact hostRead_access hlink ..

theorem exec_ringFetchRetry {s : State} {id n k : Nat} {i : W32}
    (h : tget none s.host.accesses id = some (.descriptor n i k)) : exec (.ringFetchRetry id) s =
      .next (if k < s.tmo.ringRetry.toNat then
        hostRead (.descriptor n i (k + 1)) (slotAddress (subRing s n) i) 64 (dropAccess id s)
      else fetchFailed n (dropAccess id s)) := by
  show Host.Outcome.next _ = _
  rw [h]
  rfl

theorem exec_livenessTimeout {s : State} (hserves : serves s = true) (hseen : s.host.liveSeen = true)
    (hfree : s.host.safeHold = false) (hset : s.tmo.liveness ≠ 0)
    (hlate : s.host.liveAt + ms s.tmo.liveness.toNat ≤ s.clock.up) :
    exec .livenessTimeout s = .next (advance (safeHoldNow s)) := by
  show Host.Outcome.next (if _ then _ else _) = _
  rw [if_pos]
  simpa [hserves, hseen, hfree, hlate] using hset

/-- The module in safe hold, its event raised (15 R330). -/
def heldSafe (s : State) : State :=
  raise evSafeHold (pack [(10, s.holding.number.toNat), (1, 0)]) { s with host.safeHold := true }

theorem heldSafe_eq (s : State) :
    heldSafe s = { s with host := (heldSafe s).host, sheaf := (heldSafe s).sheaf, out := (heldSafe s).out } := by
  unfold heldSafe
  rw [raise_eq]

theorem heldSafe_safeHold (s : State) : (heldSafe s).host.safeHold = true := raise_safeHold ..

theorem safeHoldNow_eq (s : State) : safeHoldNow s =
    if !(heldSafe s).run.isOn then heldSafe s
    else if (heldSafe s).isLead then orderStop ⟨true, safeTarget (heldSafe s).run.head, 2, 0⟩ (heldSafe s)
    else sendHedge (leadId (heldSafe s)) (.stop ⟨true, 0, 2, 0⟩) (heldSafe s) := rfl

/-- Settles O24: a poll by the words it writes and reads, an answered word by its count, a retry by RING_RETRY, and the liveness
time-out by who leads the run. -/
theorem pollEngine : Obligations.PollEngine := by
  unfold Obligations.PollEngine
  intro s
  refine ⟨?polled, ?shown, ?inert, ?answered, ?retried, ?failed, ?safe⟩
  case polled =>
    intro hserves hlink hon
    obtain ⟨hat, hwrites, ⟨more, hlen, hreads⟩, haccess, hrest⟩ := poll_polls hserves hlink hon
    exact ⟨poll s, more, exec_pollTick s, hat, hwrites, hreads, hlen, haccess, by rw [hrest]⟩
  case shown =>
    intro hserves hlink hoff
    obtain ⟨hwrites, hrest⟩ := writeProgress_shows (s := pollNoted s) hlink
    have hsub : (writeProgress (pollNoted s)).host.sub = s.host.sub := writeProgress_sub hoff
    have hpoll : poll s = writeProgress (pollNoted s) := by
      rw [poll_of_serves hserves, enabledSubs_isEmpty, hoff]
      rfl
    refine ⟨poll s, exec_pollTick s, ?_⟩
    rw [hpoll]
    generalize writeProgress (pollNoted s) = t at *
    refine ⟨by rw [hrest]; rfl, hwrites, by rw [hrest]; rfl, ?_⟩
    rw [hrest, hsub]
    rfl
  case inert =>
    intro hidle
    rw [exec_pollTick, poll_of_idle hidle]
  case answered =>
    intro r n b hn haccess hdata hon hstate hgeneration p
    have htaken : takeReply r s = _ :=
      (takeReply_doorbell haccess hdata).trans (takeDoorbell_sub (s := dropAccess r.id s) hn hon hstate hgeneration)
    have hmoves := fetchNext_movesProducer (s := dropAccess r.id s) hon hstate p
    refine ⟨?_, fun hpast => ?_⟩
    · intro hroom fetches
      refine ⟨_, by rw [exec_hostAccessCompletion, htaken]; exact congrArg _ (congrArg _ (if_neg (Nat.not_lt.2 hroom))),
        hmoves.ring, hmoves.others, hmoves.reads, hmoves.access, ?_⟩
      rw [hmoves.rest]
      rfl
    · have hfails := ringError_fails n 1 (fun r => { r with state := 3, errorCode := 1 }) (fun _ => ⟨rfl, rfl⟩) false 1
        (dropAccess r.id s)
      refine ⟨_, by rw [exec_hostAccessCompletion, htaken]; exact congrArg _ (congrArg _ (if_pos hpast)), hfails.state,
        hfails.error, ?_⟩
      rw [hfails.rest]
      rfl
  case retried =>
    intro id n k i haccess hlink hleft
    have hread : hostRead (.descriptor n i (k + 1)) (slotAddress (subRing s n) i) 64 (dropAccess id s) = _ :=
      hostRead_of_linkUp (s := dropAccess id s) hlink ..
    refine ⟨_, by rw [exec_ringFetchRetry haccess, if_pos hleft], hostRead_access (s := dropAccess id s) hlink .., ?_, ?_⟩
    · rw [hread]
      rfl
    · rw [hread]
      rfl
  case failed =>
    intro id n k i haccess hspent
    have hfails := ringError_fails n 2 (fun r => { r with state := 3, errorCode := 2, reading := 0 }) (fun _ => ⟨rfl, rfl⟩)
      false 2 (dropAccess id s)
    refine ⟨_, by rw [exec_ringFetchRetry haccess, if_neg (Nat.not_lt.2 hspent)]; rfl, hfails.state, hfails.error, ?_⟩
    rw [hfails.rest]
    rfl
  case safe =>
    intro hserves hseen hfree hset hlate
    rw [exec_livenessTimeout hserves hseen hfree hset hlate, safeHoldNow_eq]
    have heq := heldSafe_eq s
    have hheld := heldSafe_safeHold s
    generalize heldSafe s = t at *
    have hrun : t.run = s.run := by rw [heq]
    have hlead : t.isLead = s.isLead := by rw [heq]; rfl
    have hleadId : leadId t = leadId s := by rw [heq]; rfl
    rw [hrun, hlead, hleadId]
    refine ⟨fun hon hmember => ⟨_, by rw [hon, hmember]; rfl, ?_, mem_sendHedge .., ?_⟩, fun hoff => ⟨_, by rw [hoff]; rfl, hheld, ?_⟩⟩
    · rw [sendHedge_eq]
      exact hheld
    · rw [sendHedge_eq, heq]
    · rw [heq]

end Sys2Proof.Proofs
end

section
/-!
PROOFS. Completion entries posted, vectors signalled and unmasked, and the step report that ends its step (13 R284, R285).
-/
namespace Sys2Proof.Proofs

open Sys2Proof Sys2Proof.Machine Sys2Proof.Safety Sys2Proof.Laws

/-! ### Vectors (R284) -/

/-- The message of a vector sent. -/
def messageSent (v : Nat) (s : State) : State := { s with out.msix := s.out.msix ++ [v] }

theorem signal_unmasked {v : Nat} {s : State} (hmask : s.host.msixMasked.getLsbD v = false) (hlink : s.power.linkUp = true) :
    signal v s = messageSent v s := by
  rw [messageSent, signal, if_neg (by simp [hmask]), if_pos hlink]

/-- A mask with the bit `v` cleared. -/
def cleared (v : Nat) (m : BitVec 2048) : BitVec 2048 := m &&& ~~~ (BitVec.twoPow 2048 v)

theorem getLsbD_cleared_same (v : Nat) (m : BitVec 2048) : (cleared v m).getLsbD v = false := by
  unfold cleared
  by_cases h : v < 2048
  · simp [h]
  · exact BitVec.getLsbD_of_ge _ _ (by omega)

theorem getLsbD_cleared_other {v w : Nat} (h : w ≠ v) (m : BitVec 2048) : (cleared v m).getLsbD w = m.getLsbD w := by
  unfold cleared
  by_cases hw : w < 2048
  · simp [hw, h]
  · rw [BitVec.getLsbD_of_ge _ _ (by omega), BitVec.getLsbD_of_ge _ _ (by omega)]

/-- The vector unmasked, and its pending bit taken. -/
def unmasked (v : Nat) (s : State) : State := { s with host.msixMasked := cleared v s.host.msixMasked }

def pendingTaken (v : Nat) (s : State) : State := { s with host.msixPending := cleared v s.host.msixPending }

theorem exec_msixVectorUnmask (v : Nat) (s : State) : exec (.msixVectorUnmask v) s =
    .next (if v < 2048 ∧ s.host.msixPending.getLsbD v = true then signal v (pendingTaken v (unmasked v s))
      else unmasked v s) := rfl

/-! ### Coalescing -/

theorem exec_coalesceExpiry_ring (n : Nat) (s : State) : exec (.coalesceExpiry (some n)) s =
    .next (if (complRing s n).unsignalled != 0 &&
        decide ((complRing s n).firstAt + us (complRing s n).coalesce.toNat ≤ s.clock.up) then
      signal (complRing s n).vector.toNat (setCompl n (fun c => { c with unsignalled := 0 }) s) else s) := rfl

theorem exec_coalesceExpiry_events (s : State) : exec (.coalesceExpiry none) s =
    .next (if s.host.evUnsig != 0 && decide (s.host.evFirstAt + us s.host.ctx.eventCoalesce.toNat ≤ s.clock.up) then
      signal s.host.ctx.eventVector.toNat { s with host.evUnsig := 0 } else s) := rfl

/-! ### The oldest waiting entry -/

theorem exec_completionPost {s : State} (h : serves s = true) (n : Nat) :
    exec (.completionPost n) s = .next (advance (postEntry n s)) := by
  show Host.Outcome.next (if serves s = true then _ else _) = _
  rw [if_pos h]

/-- The ring that a posted entry halts, halted if it still runs. -/
def haltPosted (e : Entry) (s : State) : State :=
  match e.halted, e.ring with
  | true, some r => if (subRing s r).state = 1 then setSub r (fun r => { r with state := 2 }) s else s
  | _, _ => s

theorem haltPosted_frame (e : Entry) (s : State) : haltPosted e s = { s with host.sub := (haltPosted e s).host.sub } := by
  unfold haltPosted
  split
  · split <;> rfl
  · rfl

theorem complRing_haltPosted (e : Entry) (s : State) (k : Nat) : complRing (haltPosted e s) k = complRing s k := by
  rw [haltPosted_frame]
  rfl

theorem subRing_haltPosted (e : Entry) (s : State) (k : Nat) : subRing (haltPosted e s) k =
    if e.halted = true ∧ e.ring = some k ∧ (subRing s k).state = 1 then { subRing s k with state := 2 } else subRing s k := by
  unfold haltPosted
  split
  · next r hhalted hring =>
    rw [hhalted, hring]
    by_cases hk : k = r
    · subst hk
      split
      · next hruns => simp [hruns]
      · next hstands => simp [hstands]
    · have hne : r ≠ k := Ne.symm hk
      split <;> simp [hne, subRing_setSub_other hk]
  · next hother =>
    refine (if_neg fun ⟨hhalted, hring, _⟩ => ?_).symm
    exact hother k hhalted hring

/-- The host address of the next slot of a completion ring (R284). -/
def complSlot (c : ComplRing) : Nat := c.base.toNat / 4096 * 4096 + 16 * (c.posted.toNat % 2 ^ c.sizeLog2.toNat)

/-- The state with the entry written to its slot, before its vector. -/
def entryPosted (n : Nat) (e : Entry) (rest : List Entry) (s : State) : State :=
  haltPosted e (setCompl n (fun c => { c with waiting := rest, posted := c.posted + 1 })
    (hostWrite (complSlot (complRing s n)) (entryBytes (complRing s n) e (e.position.getD s.run.head)) false s))

section

variable {n : Nat} {e : Entry} {rest : List Entry} {s : State}

/-- The ring posts its oldest entry `e` (R284). -/
structure Postable (n : Nat) (e : Entry) (rest : List Entry) (s : State) : Prop where
  on      : (complRing s n).enable = true
  state   : (complRing s n).state = 1
  room    : complFull (complRing s n) = false
  waiting : (complRing s n).waiting = e :: rest

theorem postEntry_eq (h : Postable n e rest s) : postEntry n s =
    if e.quiet && e.status == stOk then setCompl n (fun c => { c with waiting := rest }) s
    else signalEntry n e.urgent (entryPosted n e rest s) := by
  unfold postEntry
  dsimp only
  rw [if_neg (by simp [h.on, h.state, h.room]), h.waiting]
  rfl

/-- What is left once the entry is in its slot. -/
structure Posts (n : Nat) (e : Entry) (rest : List Entry) (s t : State) : Prop where
  write : t.out.host = s.out.host ++
    [(complSlot (complRing s n), entryBytes (complRing s n) e (e.position.getD s.run.head), false)]
  subs  : ∀ k, subRing t k =
    if e.halted = true ∧ e.ring = some k ∧ (subRing s k).state = 1 then { subRing s k with state := 2 } else subRing s k
  ring  : complRing t n = { complRing s n with waiting := rest, posted := (complRing s n).posted + 1 }
  rest  : t = { s with host.sub := t.host.sub, host.compl := t.host.compl, out.host := t.out.host }

theorem entryPosted_posts (hlink : s.power.linkUp = true) : Posts n e rest s (entryPosted n e rest s) := by
  have hwrite : ∀ slot bs, hostWrite slot bs false s = { s with out.host := s.out.host ++ [(slot, bs, false)] } :=
    fun _ _ => if_pos hlink
  have hframe : entryPosted n e rest s = _ := haltPosted_frame e _
  refine ⟨?_, fun k => ?_, ?_, ?_⟩
  · rw [hframe, hwrite]
    rfl
  · rw [entryPosted, subRing_haltPosted, hwrite]
    rfl
  · rw [entryPosted, complRing_haltPosted, complRing_setCompl_same, hwrite]
    rfl
  · rw [hframe, hwrite]
    rfl

end

/-- The vector once an entry is posted: signalled at once, or counted until its time. -/
theorem signalEntry_now {n : Nat} {urgent : Bool} {s : State} (hnow : (complRing s n).coalesce = 0 ∨ urgent = true)
    (hmask : s.host.msixMasked.getLsbD (complRing s n).vector.toNat = false) (hlink : s.power.linkUp = true) :
    signalEntry n urgent s =
      messageSent (complRing s n).vector.toNat (setCompl n (fun c => { c with unsignalled := 0 }) s) :=
  (if_pos hnow).trans (signal_unmasked hmask hlink)

theorem signalEntry_later {n : Nat} {urgent : Bool} {s : State} (hlater : ¬ ((complRing s n).coalesce = 0 ∨ urgent = true)) :
    signalEntry n urgent s = setCompl n (fun c => { c with
      firstAt := if c.unsignalled = 0 then s.clock.up else c.firstAt, unsignalled := c.unsignalled + 1 }) s := if_neg hlater

/-- What the posting of an entry leaves, its vector signalled when it is due now (R284). -/
structure PostsAndSignals (n : Nat) (e : Entry) (rest : List Entry) (s u : State) : Prop where
  write : u.out.host = s.out.host ++
    [(complSlot (complRing s n), entryBytes (complRing s n) e (e.position.getD s.run.head), false)]
  subs  : ∀ k, subRing u k =
    if e.halted = true ∧ e.ring = some k ∧ (subRing s k).state = 1 then { subRing s k with state := 2 } else subRing s k
  now   : (complRing s n).coalesce = 0 ∨ e.urgent = true →
    u.out.msix = s.out.msix ++ [(complRing s n).vector.toNat] ∧
    complRing u n = { complRing s n with waiting := rest, posted := (complRing s n).posted + 1, unsignalled := 0 }
  later : ¬ ((complRing s n).coalesce = 0 ∨ e.urgent = true) →
    u.out.msix = s.out.msix ∧
    complRing u n = { complRing s n with
      waiting := rest, posted := (complRing s n).posted + 1, unsignalled := (complRing s n).unsignalled + 1
      firstAt := if (complRing s n).unsignalled = 0 then s.clock.up else (complRing s n).firstAt }
  rest  : u = { s with
    host.sub := u.host.sub, host.compl := u.host.compl, out.host := u.out.host, out.msix := u.out.msix }

theorem signalEntry_posts {n : Nat} {e : Entry} {rest : List Entry} {s t : State} (h : Posts n e rest s t)
    (hlink : s.power.linkUp = true) (hmask : (complRing s n).coalesce = 0 ∨ e.urgent = true →
      s.host.msixMasked.getLsbD (complRing s n).vector.toNat = false) : PostsAndSignals n e rest s (signalEntry n e.urgent t) := by
  obtain ⟨hwrite, hsubs, hring, hrest⟩ := h
  have hcoalesce : (complRing t n).coalesce = (complRing s n).coalesce := by rw [hring]
  have hvector : (complRing t n).vector = (complRing s n).vector := by rw [hring]
  have hmsix : t.out.msix = s.out.msix := by rw [hrest]
  by_cases hnow : (complRing s n).coalesce = 0 ∨ e.urgent = true
  · have hsignal : signalEntry n e.urgent t = _ := signalEntry_now (by rwa [hcoalesce])
      (by rw [hvector, hrest]; exact hmask hnow) (by rw [hrest]; exact hlink)
    rw [hvector] at hsignal
    refine ⟨by rw [hsignal]; exact hwrite, fun k => by rw [hsignal]; exact hsubs k, fun _ => ⟨by rw [hsignal, ← hmsix]; rfl, ?_⟩,
      fun hlater => absurd hnow hlater, by rw [hsignal, hrest]; rfl⟩
    have hcompl : complRing (signalEntry n e.urgent t) n = complRing (setCompl n (fun c => { c with unsignalled := 0 }) t) n := by
      rw [hsignal]
      rfl
    rw [hcompl, complRing_setCompl_same, hring]
  · have hsignal : signalEntry n e.urgent t = _ := signalEntry_later (by rwa [hcoalesce])
    have hclock : t.clock.up = s.clock.up := by rw [hrest]
    refine ⟨by rw [hsignal]; exact hwrite, fun k => by rw [hsignal]; exact hsubs k, fun h => absurd h hnow,
      fun _ => ⟨by rw [hsignal]; exact hmsix, ?_⟩, by rw [hsignal, hrest]; rfl⟩
    rw [hsignal, complRing_setCompl_same, hring, hclock]

/-! ### The step report (R284, 01 R13) -/

/-- A boundary at which nothing is due only ends the step. -/
def stepEnded (n : Nat) (s : State) : State :=
  { s with
    run.finished := some n, run.modesDue := 0, run.retireDue := [], mem.oldBase := none, mem.oldHomes := []
    exporter.oldFallow := none }

/-- Nothing waits for the boundary of a step (01 R19, 12 R245, 15 R335, 16 R354). -/
structure NothingDue (s : State) : Prop where
  modes  : s.run.pendingModes = []
  stones : s.stones.due = none
  export_ : s.exporter.due = none
  dir    : s.graph.dir = []
  jobs   : s.run.jobs = []

theorem retireAt_of_idle {s : State} (hdir : s.graph.dir = []) (hjobs : s.run.jobs = []) (n : Nat) (commit : Bool) :
    retireAt n commit s = s := by
  have hkept : ({ s with graph.dir := [] } : State) = s := by rw [← hdir]
  have hreleased : releaseRetired s = s := by rw [releaseRetired, hdir]; rfl
  have hfinished : ∀ p, finishJobs p stOk 0 s = s := fun p => by
    unfold finishJobs
    rw [hjobs]
    simp only [List.filter_nil, List.foldl_nil]
    rw [← hjobs]
  unfold retireAt
  dsimp only
  rw [hdir, List.map_nil, hkept, hreleased]
  exact hfinished _

theorem applyModes_of_none {s : State} (h : s.run.pendingModes = []) (n : Nat) :
    applyModes n s = { s with run.modesDue := 0 } := by
  unfold applyModes
  rw [h, List.take_nil, List.drop_nil]
  show ({ s with run.pendingModes := [], run.modesDue := 0 } : State) = _
  rw [← h]

theorem boundaryEffects_of_nothingDue {s : State} (h : NothingDue s) (n : Nat) (commit : Bool) :
    boundaryEffects n commit s = { s with run.modesDue := 0, run.retireDue := [] } := by
  unfold boundaryEffects
  dsimp only
  rw [retireAt_of_idle h.dir h.jobs, applyModes_of_none h.modes]
  simp only [h.stones, h.export_]
  rw [← h.stones, ← h.export_]

theorem finishStep_of_nothingDue {s : State} (h : NothingDue s) (n : Nat) (commit : Bool) : finishStep n commit s = stepEnded n s :=
  boundaryEffects_of_nothingDue (s := { s with
    run.finished := some n, mem.oldBase := none, mem.oldHomes := [], exporter.oldFallow := none })
    ⟨h.modes, h.stones, h.export_, h.dir, h.jobs⟩ n commit

/-- The one commit record of `s`, its step not yet reported, its fingerprint formed. -/
structure ReportDue (c : CommitRecord) (s : State) : Prop where
  only       : s.votes.commits = [c]
  unreported : c.reported = false
  unfinished : s.run.finished ≠ some c.step
  formed     : c.fingerprintDone = true

/-- The report of the step in the buffer of the report ring, its slot written; a member reports nothing (13 R284). -/
def reportPosted (c : CommitRecord) (s : State) : State :=
  if s.holding.isMaster then
    queueReport c.step stOk
      { hostWrite (s.host.ctx.reportBase.toNat / 4096 * 4096 + 64 * (c.step % 256)) (reportSlot s c.step) false s with
        exporter.evalAbandoned := false }
  else s

/-- The commit record marked as reported. -/
def reportMarked (c : CommitRecord) (s : State) : State :=
  traceCommit 2 133 (markCommit c.step (fun c => { c with reported := true }) s)

theorem stepReport_of_due {c : CommitRecord} {s : State} (h : ReportDue c s)
    (hroom : s.holding.isMaster = false ∨ reportsWaiting s < 256) :
    stepReport s = finishStep c.step true (reportMarked c (reportPosted c s)) := by
  have hdue : (s.votes.commits.filter fun c => !c.reported && s.run.finished != some c.step).getLast? = some c := by
    rw [h.only]
    simp [h.unreported, h.unfinished]
  have hformed : formFingerprint c.step s = s := by
    unfold formFingerprint
    rw [h.only]
    simp [h.formed]
  have hready : (s.votes.commits.any fun x => x.step == c.step && x.fingerprintDone) = true := by
    rw [h.only]
    simp [h.formed]
  have hfull : ¬ (!true || (s.holding.isMaster && decide (256 ≤ reportsWaiting s))) = true := by
    rcases hroom with hmember | hroom
    · simp [hmember]
    · simp [hroom]
  unfold stepReport
  dsimp only
  rw [hdue]
  dsimp only
  rw [hformed, hready, if_neg hfull]
  rfl

theorem exec_stepReportPost (s : State) : exec .stepReportPost s = .next (advance (stepReport s)) := rfl

/-- The report entry of a committed step (13 R284). -/
def reportEntry (n : Nat) : Entry :=
  { tag := 0xFFFF, status := stOk, halted := false, report := true, detail := 1, urgent := false
    position := some (posOf n passC 0), ring := none, access := none, quiet := false }

/-- What a report leaves: the step ended, its record marked; the rest but the trace is that of `t`. -/
structure EndsStep (c : CommitRecord) (t u : State) : Prop where
  finished : u.run.finished = some c.step
  commits  : u.votes.commits = [{ c with reported := true }]
  rest     : u = { t with
    votes.commits := u.votes.commits, run.finished := u.run.finished, run.modesDue := u.run.modesDue
    run.retireDue := u.run.retireDue, mem.oldBase := u.mem.oldBase, mem.oldHomes := u.mem.oldHomes
    exporter.oldFallow := u.exporter.oldFallow, sheaf := u.sheaf }

theorem finishStep_endsStep {c : CommitRecord} {t : State} (hdue : NothingDue t) (honly : t.votes.commits = [c]) :
    EndsStep c t (finishStep c.step true (reportMarked c t)) := by
  have hmarked : reportMarked c t = _ := trace_eq ..
  have hidle : NothingDue (reportMarked c t) := by
    rw [hmarked]
    exact ⟨hdue.modes, hdue.stones, hdue.export_, hdue.dir, hdue.jobs⟩
  rw [finishStep_of_nothingDue hidle, hmarked]
  refine ⟨rfl, ?_, rfl⟩
  show (markCommit c.step (fun c => { c with reported := true }) t).votes.commits = _
  rw [markCommit, honly]
  simp

/-- What the master posts of a report. -/
theorem reportPosted_of_master {c : CommitRecord} {s : State} (hmaster : s.holding.isMaster = true) (hlink : s.power.linkUp = true) :
    reportPosted c s = setCompl s.host.ctx.reportRing.toNat (fun r => { r with waiting := r.waiting ++ [reportEntry c.step] })
      { s with
        out.host := s.out.host ++
          [(s.host.ctx.reportBase.toNat / 4096 * 4096 + 64 * (c.step % 256), reportSlot s c.step, false)]
        exporter.evalAbandoned := false } := by
  rw [reportPosted, if_pos hmaster, hostWrite, if_pos hlink]
  exact if_pos hmaster

/-- Settles O25: an entry by whether it is dropped or written, a vector by its mask, and a step report by who posts it. -/
theorem postingAndSignalling : Obligations.PostingAndSignalling := by
  unfold Obligations.PostingAndSignalling
  intro s n
  refine ⟨?posted, ?coalesced, ?events, ?pending, ?clear, ?report⟩
  case posted =>
    intro e rest hserves hlink hon hstate hroom hwaiting
    have heq := postEntry_eq ⟨hon, hstate, hroom, hwaiting⟩
    refine ⟨fun hloud => ?_, fun hquiet => ?_⟩
    · intro now hmask
      have hposts := signalEntry_posts (entryPosted_posts (n := n) (e := e) (rest := rest) hlink) hlink hmask
      rw [hloud, if_neg Bool.false_ne_true] at heq
      refine ⟨_, by rw [exec_completionPost hserves, heq], hposts.write, hposts.subs, hposts.now, hposts.later, ?_⟩
      rw [hposts.rest]
    · rw [if_pos hquiet] at heq
      exact ⟨setCompl n (fun c => { c with waiting := rest }) s, by rw [exec_completionPost hserves, heq],
        complRing_setCompl_same .., rfl⟩
  case coalesced =>
    intro hmask hlink hcount htime
    refine ⟨messageSent (complRing s n).vector.toNat (setCompl n (fun c => { c with unsignalled := 0 }) s), ?_, ?_, rfl, rfl⟩
    · rw [exec_coalesceExpiry_ring, if_pos (by simp [hcount, htime]), signal_unmasked]
      exacts [hmask, hlink]
    · exact congrArg ComplRing.unsignalled (complRing_setCompl_same n (fun c => { c with unsignalled := 0 }) s)
  case events =>
    intro hmask hlink hcount htime
    rw [exec_coalesceExpiry_events, if_pos (by simp [hcount, htime]), signal_unmasked]
    exacts [rfl, hmask, hlink]
  case pending =>
    intro v hv hpending hlink
    refine ⟨messageSent v (pendingTaken v (unmasked v s)), ?_, getLsbD_cleared_same v s.host.msixMasked,
      getLsbD_cleared_same v s.host.msixPending, rfl,
      fun w hw => ⟨getLsbD_cleared_other hw s.host.msixMasked, getLsbD_cleared_other hw s.host.msixPending⟩, rfl⟩
    rw [exec_msixVectorUnmask, if_pos ⟨hv, hpending⟩, signal_unmasked]
    exacts [getLsbD_cleared_same v s.host.msixMasked, hlink]
  case clear =>
    intro v hclear
    refine ⟨unmasked v s, ?_, getLsbD_cleared_same v s.host.msixMasked, rfl, rfl⟩
    rw [exec_msixVectorUnmask, if_neg (by simp [hclear])]
  case report =>
    intro c honly hunreported hunfinished hformed hmodes hstones hexport hdir hjobs
    have hdue : ReportDue c s := ⟨honly, hunreported, hunfinished, hformed⟩
    have hnothing : NothingDue s := ⟨hmodes, hstones, hexport, hdir, hjobs⟩
    refine ⟨fun hmember => ?_, fun hmaster hroom hlink => ?_⟩
    · have hposted : reportPosted c s = s := if_neg (by simp [hmember])
      have hends := finishStep_endsStep (t := reportPosted c s) (by rw [hposted]; exact hnothing) (by rw [hposted]; exact honly)
      rw [← stepReport_of_due hdue (.inl hmember), hposted] at hends
      refine ⟨stepReport s, exec_stepReportPost s, hends.finished, hends.commits, ?_⟩
      rw [hends.rest]
    · have hposted := reportPosted_of_master (c := c) hmaster hlink
      have hends := finishStep_endsStep (t := reportPosted c s)
        (by rw [hposted]; exact ⟨hmodes, hstones, hexport, hdir, hjobs⟩) (by rw [hposted]; exact honly)
      rw [← stepReport_of_due hdue (.inr hroom)] at hends
      obtain ⟨hfinished, hcommits, hrest⟩ := hends
      have hexec := exec_stepReportPost s
      generalize stepReport s = u at *
      have hout : u.out = (reportPosted c s).out := by rw [hrest]
      have hcompl : u.host = (reportPosted c s).host := by rw [hrest]
      refine ⟨u, hexec, hfinished, hcommits, ?_, ?_, ?_⟩
      · rw [hout, hposted]
        rfl
      · rw [complRing, hcompl, hposted]
        exact congrArg ComplRing.waiting (complRing_setCompl_same s.host.ctx.reportRing.toNat _ s)
      · rw [hrest, hposted]
        rfl

end Sys2Proof.Proofs
end

section
/-!
PROOFS. The data of a COPY_IN into this module's memory or its fallow queues, and a host access that has met a completion timeout
(13 R278, 15 R319).
-/
namespace Sys2Proof.Proofs

open Sys2Proof Sys2Proof.Machine Sys2Proof.Safety Sys2Proof.Laws

/-! ### Bytes padded -/

theorem padTo_length (n : Nat) (b : Bytes) : (padTo n b).length = n := by
  simp only [padTo, List.length_append, List.length_take, List.length_replicate]
  omega

theorem padTo_getD {n i : Nat} (h : i < n) (b : Bytes) : (padTo n b).getD i 0 = b.getD i 0 := by
  rw [padTo, List.getD_eq_getElem?_getD, List.getD_eq_getElem?_getD]
  by_cases hi : i < b.length
  · rw [List.getElem?_append_left (by simp; omega), List.getElem?_take_of_lt h]
  · rw [List.getElem?_append_right (by simp; omega), List.getElem?_eq_none (by omega : b.length ≤ i), List.getElem?_replicate]
    split <;> rfl

/-! ### The data published -/

/-- A COPY_IN of this module's own, into its memory: where it goes, and that it is for no step. -/
structure CopiesHere (d : Desc) (o : Nat) (s : State) : Prop where
  step   : dAt d 40 8 = 0
  target : copyTarget s d = some (s.holding.moduleId, o)

section

variable {d : Desc} {o : Nat} {s : State}

theorem CopiesHere.dropAccess (h : CopiesHere d o s) (id : Nat) : CopiesHere d o (dropAccess id s) := ⟨h.step, h.target⟩

/-- The padded data are what the copy publishes. -/
theorem finishCopyIn_here (h : CopiesHere d o s) (b : Bytes) : finishCopyIn none d b s =
    completeLater .copyIn d stOk 0 (publishCopy s.holding.moduleId d o (padTo d.count.toNat b) s) := by
  unfold finishCopyIn
  dsimp only
  rw [h.target]
  dsimp only
  rw [if_pos rfl]
  rfl

theorem publishCopy_memory (h : CopiesHere d o s) (source : ModId) {bs : Bytes} (hplain : fallowRange s o bs.length = false) :
    publishCopy source d o bs s = writeNow o bs false s := by
  unfold publishCopy
  dsimp only
  rw [hplain, if_neg Bool.false_ne_true, if_pos (.inl h.step)]

theorem publishCopy_fallow (source : ModId) {bs : Bytes} (hqueue : fallowRange s o bs.length = true) :
    publishCopy source d o bs s = loadFallow o bs s := if_pos hqueue

theorem loadFallow_frame (off : Nat) (bs : Bytes) (s : State) :
    loadFallow off bs s = { s with fallow := (loadFallow off bs s).fallow } := by
  unfold loadFallow
  split <;> rfl

theorem failCopyIn_here (h : CopiesHere d o s) (status : Nat) : failCopyIn none d status s =
    completeLater .copyIn d status 0 (endAwait s.holding.moduleId d s) := by
  unfold failCopyIn
  dsimp only
  rw [h.target]
  dsimp only
  rw [if_pos rfl]
  rfl

/-! ### The rows -/

theorem takeReply_copyIn {r : HostReply} {ring : Nat} {b : Bytes} (haccess : tget none s.host.accesses r.id = some (.copyIn ring d none))
    (hdata : r.data = .ok b) : takeReply r s = finishCopyIn none d b (dropAccess r.id s) := by
  rw [takeReply, haccess]
  dsimp only
  rw [hdata]

theorem exec_hostCompletionTimeout (id : Nat) (s : State) :
    exec (.hostCompletionTimeout id) s = .next (advance (hostTimeout id s)) := rfl

theorem hostTimeout_copyIn {id ring : Nat} (haccess : tget none s.host.accesses id = some (.copyIn ring d none)) :
    hostTimeout id s = failCopyIn none d stTimeout (dropAccess id s) := by
  rw [hostTimeout, haccess]

end

/-- Settles O26: an answered read by where its data go, and a timed-out one by what it no longer awaits. -/
theorem copyInData : Obligations.CopyInData := by
  unfold Obligations.CopyInData
  intro s ring o d hstep htarget
  have hhere : CopiesHere d o s := ⟨hstep, htarget⟩
  refine ⟨fun r b haccess hdata => ?_, fun id haccess => ?_⟩
  · have hlen := padTo_length d.count.toNat b
    have htaken := takeReply_copyIn haccess hdata
    rw [finishCopyIn_here (hhere.dropAccess r.id)] at htaken
    refine ⟨fun hplain => ?_, fun hqueue => ?_⟩
    · rw [publishCopy_memory (hhere.dropAccess r.id) _ (by rw [hlen]; exact hplain)] at htaken
      obtain ⟨hin, hout, hrest⟩ := writeNow_spec o (padTo d.count.toNat b) false (dropAccess r.id s)
      refine ⟨writeNow o (padTo d.count.toNat b) false (dropAccess r.id s), by rw [exec_hostAccessCompletion, htaken],
        fun i hi => ?_, fun q a ha => ?_, congrArg (fun x : State => { x with host.accesses := s.host.accesses }) hrest⟩
      all_goals
        have hhead := congrArg (fun x : State => x.run.head) hrest
        rw [show (writeNow o (padTo d.count.toNat b) false (dropAccess r.id s)).run.head = s.run.head from hhead]
      · rw [← padTo_getD hi]
        exact hin i (by rw [hlen]; exact hi)
      · exact hout q a (by rw [hlen]; exact ha)
    · rw [publishCopy_fallow _ (by rw [hlen]; exact hqueue)] at htaken
      refine ⟨loadFallow o (padTo d.count.toNat b) (dropAccess r.id s), by rw [exec_hostAccessCompletion, htaken], ?_⟩
      rw [loadFallow_frame]
      rfl
  · refine ⟨endAwait s.holding.moduleId d (dropAccess id s), ?_, rfl, rfl, rfl⟩
    rw [exec_hostCompletionTimeout, hostTimeout_copyIn haccess, failCopyIn_here (hhere.dropAccess id)]
    rfl

end Sys2Proof.Proofs
end

section
/-!
PROOFS. The reset levels of the module (O12).
-/
namespace Sys2Proof.Proofs

open Sys2Proof Sys2Proof.Machine Sys2Proof.Safety Sys2Proof.Laws

variable {s : State}

/-! ### Module reset -/

theorem moduleLevel_isModuleReset (s : State) : IsModuleReset s (moduleLevel s) := by
  have hsec : (securityAfterReset s.security).state =
        (if s.security.pending = 3 then s.security.state else s.security.pending) ∧
      (securityAfterReset s.security).changedFrom =
        (if s.security.pending = 3 then none else some s.security.state) ∧
      (securityAfterReset s.security).pending = 3 ∧ (securityAfterReset s.security).identityValid = false ∧
      (securityAfterReset s.security).nonceIssued = false := by
    unfold securityAfterReset
    split <;> exact ⟨rfl, rfl, rfl, rfl, rfl⟩
  obtain ⟨hstate, hfrom, hpending, hident, hnonce⟩ := hsec
  exact ⟨rfl, hstate, hfrom, hpending, hident, hnonce, rfl, rfl, rfl, rfl, rfl, rfl, rfl, rfl, rfl, rfl, rfl, rfl, rfl, rfl,
    rfl, rfl, rfl⟩

/-- A module reset looks at nothing that leaves the module. -/
theorem isModuleReset_mgmtRespond {t : State} (h : IsModuleReset s t) (code status : Nat) (body : Bytes) :
    IsModuleReset s (mgmtRespond code status body t) := h

theorem exec_modResetN (n : Nat) (s : State) : exec (.modResetN n) s =
    .next (if 1000 ≤ n && s.power.pwrGood then moduleLevel s else s) := rfl

/-- A message with the body its row asks for acts when the controller runs and main power is on (19 R406, R407). -/
theorem withPower_of_good {code n : Nat} {body : Bytes} {f : State → State} (htakes : mgmtTakes s = true)
    (hlen : body.length = n) (hgood : s.power.pwrGood = true) : withPower code n body f s = f s := by
  simp [withPower, htakes, hlen, hgood]

theorem exec_moduleReset (body : Bytes) (s : State) : exec (.moduleReset body) s =
    .next (withPower 0x24 0 body (fun s => mgmtRespond 0x24 mgDone [] (moduleLevel s)) s) := rfl

theorem moduleResets (s : State) (hgood : s.power.pwrGood = true) :
    (∀ n : Nat, 1000 ≤ n → ∃ t, exec (.modResetN n) s = .next t ∧ IsModuleReset s t ∧ t.out = s.out) ∧
    (∀ n : Nat, n < 1000 → exec (.modResetN n) s = .next s) ∧
    (mgmtTakes s = true → ∃ t, exec (.moduleReset []) s = .next t ∧ IsModuleReset s t ∧
      t.out = { s.out with mgmt := s.out.mgmt ++ [(0xA4, [0])] }) := by
  refine ⟨fun n hn => ⟨moduleLevel s, ?_, moduleLevel_isModuleReset s, rfl⟩, fun n hn => ?_, fun htakes =>
    ⟨mgmtRespond 0x24 mgDone [] (moduleLevel s), ?_, isModuleReset_mgmtRespond (moduleLevel_isModuleReset s) .., rfl⟩⟩
  · rw [exec_modResetN, if_pos (by simp [hn, hgood])]
  · rw [exec_modResetN, if_neg (by simp; omega)]
  · rw [exec_moduleReset, withPower_of_good (n := 0) htakes rfl hgood]

/-! ### Function-level reset -/

theorem functionLevel_hostForgotten (s : State) : HostForgotten s (functionLevel s) := by
  have hlost : (functionLevel s).host.ctx.eventLost.toNat = min s.host.evWaiting.length (2 ^ 32 - 1) := by
    show (BitVec.ofNat 32 (satTo (2 ^ 32 - 1) s.host.evWaiting.length)).toNat = _
    rw [BitVec.toNat_ofNat, satTo]
    split <;> omega
  exact ⟨rfl, rfl, rfl, rfl, rfl, rfl, rfl, rfl, rfl, hlost, rfl, rfl⟩

theorem functionLevelResets (s : State) :
    (∃ t, exec .functionLevelReset s = .next t ∧ HostForgotten s t ∧ t.power = s.power) ∧
    (∃ t, exec .perstN s = .next t ∧ HostForgotten s t ∧ t.power = { s.power with perst := true, linkUp := false }) ∧
    (∃ t, exec .hostLinkDown s = .next t ∧ HostForgotten s t ∧ t.power = { s.power with linkUp := false }) :=
  ⟨⟨functionLevel s, rfl, functionLevel_hostForgotten s, rfl⟩,
    ⟨{ functionLevel s with power.perst := true, power.linkUp := false }, rfl, functionLevel_hostForgotten s, rfl⟩,
    ⟨{ functionLevel s with power.linkUp := false }, rfl, functionLevel_hostForgotten s, rfl⟩⟩

/-! ### Holding reset -/

/-- A table kept below a bound reads as before below it, and as nothing from it on. -/
theorem tget_filter_lt {α : Type} (d : α) (bound : Nat) (t : Sparse α) (a : Nat) :
    tget d (t.filter fun c => decide (c.1 < bound)) a = if a < bound then tget d t a else d := by
  induction t with
  | nil => simp [tget]
  | cons c t ih =>
    obtain ⟨k, v⟩ := c
    by_cases hk : k < bound
    · rw [List.filter_cons_of_pos (by simpa using hk), tget, tget, ih]
      split
      next hka => rw [if_pos (hka ▸ hk)]
      next => rfl
    · rw [List.filter_cons_of_neg (by simpa using hk), ih, tget]
      split
      next ha => rw [if_neg (by omega)]
      next => rfl

theorem holdingLevel_isHoldingReset (s : State) : IsHoldingReset s (holdingLevel s) := by
  have hbase (a : Nat) : tget 0 (holdingLevel s).mem.base a = if a < reservedBase s then tget 0 s.mem.base a else 0 :=
    tget_filter_lt ..
  exact ⟨rfl, rfl, rfl, rfl, rfl, rfl, rfl, rfl, rfl, rfl, rfl, rfl, rfl, rfl, rfl, rfl, rfl, rfl, rfl, rfl, rfl, rfl, rfl, rfl,
    rfl, rfl, rfl, rfl, fun a ha => by rw [hbase, if_pos ha], fun a ha => by rw [hbase, if_neg (by omega)], rfl, rfl, rfl, rfl⟩

/-- The write that the master sends on leaves what the reset of its own module reads. -/
theorem holdingLevel_sendHedge_isHoldingReset (m : ModId) (b : Hedge) (s : State) :
    IsHoldingReset s (holdingLevel (sendHedge m b s)) := by
  rw [sendHedge_eq]
  exact holdingLevel_isHoldingReset { s with sheaf := (sendHedge m b s).sheaf, out := (sendHedge m b s).out }

theorem exec_holdingReset (s : State) : exec .holdingReset s = .next (if hostControls s then resetHolding s else s) := rfl

theorem exec_setupWrite_holdingReset (hassigned : s.assigned = true) (hmember : s.holding.isMaster = false) :
    exec (.setupWrite 0x20010 8 2) s = .next (holdingLevel s) := by
  show Host.Outcome.next (if accessOk 0x20010 8 && s.assigned && !s.holding.isMaster then
    holdingLevel s else s) = _
  rw [if_pos (by rw [hassigned, hmember]; rfl)]

theorem exec_holdingResetDone (s : State) : exec .holdingResetDone s = .next (if s.holding.resetting then
    raise evModuleReady
      (pack [(16, s.startup.elapsed.getD 0), (8, s.startup.portsUp.toNat), (8, 0), (13, enabledCores s), (3, 0),
        (9, enabledHarrows s)]) { s with holding.resetting := false }
  else s) := rfl

theorem holdingResets (s : State) :
    (s.holding.isMaster = true → ∃ t, exec .holdingReset s = .next t ∧ IsHoldingReset s t ∧
      t.out.hedge = s.out.hedge ++ [(everyone, .setupWrite 0x20010 8 2)]) ∧
    (s.holding.isMaster = false → exec .holdingReset s = .next s) ∧
    (s.assigned = true → s.holding.isMaster = false →
      ∃ t, exec (.setupWrite 0x20010 8 2) s = .next t ∧ IsHoldingReset s t ∧ t.out = s.out) ∧
    (s.holding.resetting = true → ∃ t, exec .holdingResetDone s = .next t ∧
      t.holding = { s.holding with resetting := false } ∧
      Announces s t evModuleReady (pack [(16, s.startup.elapsed.getD 0), (8, s.startup.portsUp.toNat), (8, 0),
        (13, enabledCores s), (3, 0), (9, enabledHarrows s)]) ∧
      { t with holding := s.holding, host := s.host, sheaf := s.sheaf, out := s.out } = s) := by
  refine ⟨fun hmaster => ?_, fun hmember => ?_, fun hassigned hmember => ?_, fun hresetting => ?_⟩
  · refine ⟨holdingLevel (sendHedge everyone (.setupWrite 0x20010 8 2) s), ?_,
      holdingLevel_sendHedge_isHoldingReset everyone (.setupWrite 0x20010 8 2) s, sendHedge_sent ..⟩
    rw [exec_holdingReset, if_pos (by simp [hostControls, hmaster]), resetHolding, if_pos hmaster]
  · rw [exec_holdingReset, resetHolding, hmember]
    exact congrArg Host.Outcome.next (ite_self _)
  · exact ⟨holdingLevel s, exec_setupWrite_holdingReset hassigned hmember, holdingLevel_isHoldingReset s, rfl⟩
  · refine ⟨_, by rw [exec_holdingResetDone, if_pos hresetting], ?_, raise_announces _ _ { s with holding.resetting := false },
      ?_⟩
    · rw [raise_eq]
    · rw [raise_eq]

/-- Settles O12: each row is one of the three levels of the reset, and each level says what it loses by its own definition;
what a holding reset keeps of memory is read off the cells below the reserved area. -/
theorem resetLevels : Obligations.ResetLevels := ⟨moduleResets, functionLevelResets, holdingResets⟩

end Sys2Proof.Proofs
end

section
/-!
PROOFS. The one order that the run lead master holds: what its release does, and the orders whose effect is a field of the run or
a stop (13 R289, 02 R29, R36, R39, R41, 01 R19).
-/
namespace Sys2Proof.Proofs

open Sys2Proof Sys2Proof.Machine Sys2Proof.Safety Sys2Proof.Laws

/-! ### The result given to the order's descriptor (13 R289) -/

/-- From `u` to `v` the result of a held order of this master has been given: the jobs, the host's rings, the trace and what is
sent may have changed, and nothing else; no hedge message is taken back. -/
structure Delivered (u v : State) : Prop where
  frame : v = { u with run.jobs := v.run.jobs, host := v.host, sheaf := v.sheaf, out := v.out }
  sent  : u.out.hedge ⊆ v.out.hedge

theorem Delivered.trans {s t u : State} (a : Delivered s t) (b : Delivered t u) : Delivered s u :=
  ⟨by rw [b.frame, a.frame], List.Subset.trans a.sent b.sent⟩

theorem delivered_completeNow (op : DescOp) (d : Desc) (st dt : Nat) (s : State) :
    Delivered s (completeNow op d st dt s) where
  frame := by
    have hnoted := noted_completeNow op d st dt s
    unfold Noted at hnoted
    rw [hnoted]
  sent := by
    have hhalt : (haltRing d st s).out = s.out := by rw [haltRing_frame]
    have hsent := (tells_completeWith op d st dt (haltsRing d st s) false (haltRing d st s)).sent
    rw [completeNow_eq, trace_out]
    rwa [hhalt] at hsent

variable {o : FwdOrder} {s u : State}

theorem delivered_deliver (hours : o.mgmt = false) (hsource : o.source = u.holding.moduleId) (r : Result) :
    Delivered u (deliver o (u, r)) := by
  unfold deliver
  rw [if_neg (by simp [hours]), if_pos hsource]
  cases r with
  | done st dt =>
    have hended : Delivered u (endHeld o (setSub o.desc.ring (fun r => { r with executed := r.executed + 1 }) u)) :=
      ⟨rfl, List.Subset.refl _⟩
    exact hended.trans (delivered_completeNow ..)
  | later k => exact ⟨rfl, List.Subset.refl _⟩
  | reading => exact ⟨rfl, List.Subset.refl _⟩

/-! ### The release -/

theorem exec_orderHoldRelease (s : State) : exec .orderHoldRelease s = .next (releaseHolds s) := rfl

/-- While no hold is over, the release changes nothing. -/
theorem releaseHolds_of_none (h : s.run.held.any (holdOver s) = false) : releaseHolds s = s := by
  have hready : s.run.held.filter (holdOver s) = [] :=
    List.filter_eq_nil_iff.2 fun x hx => Bool.eq_false_iff.1 (Bool.eq_false_iff.2 (List.any_eq_false.1 h x hx))
  unfold releaseHolds
  split
  · rw [hready]
    rfl
  · rfl

/-- The state in which the one held order is run. -/
def noneHeld (s : State) : State := { s with run.held := [] }

theorem releaseHolds_of_holdsOne (h : HoldsOne o s) :
    releaseHolds s = advance (deliver o (tryOrder o (noneHeld s))) := by
  obtain ⟨at_, hheld, hover⟩ := h.held
  have hready : s.run.held.filter (holdOver s) = [⟨o, at_⟩] := by rw [hheld]; simp [hover]
  have hrest : (s.run.held.filter fun x => !holdOver s x) = [] := by rw [hheld]; simp [hover]
  unfold releaseHolds
  rw [if_pos h.lead, hready, hrest]
  exact congrArg advance (rfl : runHeld [] [⟨o, at_⟩] (noneHeld s) = deliver o (tryOrder o (noneHeld s)))

/-- What a release does, from what the order's opcode does. -/
theorem releases_of_runDesc {r : Result} {P : State → Prop} (h : HoldsOne o s)
    (hrun : runDesc 0 o.holding o.op o.desc (noneHeld s) = (u, r)) (hid : u.holding.moduleId = s.holding.moduleId)
    (hheld : u.run.held = []) (hP : ∀ v, Delivered u v → P v) : Releases s P := by
  obtain ⟨hours, hsource⟩ := h.ours
  have htry : tryOrder o (noneHeld s) = (u, r) := by rw [tryOrder, hours]; exact hrun
  have hgiven := delivered_deliver hours (hsource.trans hid.symm) r
  refine ⟨deliver o (u, r), by rw [exec_orderHoldRelease, releaseHolds_of_holdsOne h, htry], ?_, hP _ hgiven⟩
  rw [hgiven.frame]
  exact hheld

/-! ### The orders whose effect is a field of the run -/

variable {d : Desc} {kind holding : Nat}

theorem noneHeld_isLead (h : s.isLead = true) : (noneHeld s).isLead = true := h

theorem runDesc_furrowAdvance (hheader : headerBad d = false) (hlead : s.isLead = true) (hcount : noCount d = true)
    (hzero : dZeroFrom d 24 = true) (hpos : posMalformed (BitVec.ofNat 64 (dAt d 16 8)) = false)
    (hmode : s.run.modes.getD 1 false = true) : runDesc kind holding .furrowAdvance d s =
      (spread .furrowAdvance d (raiseLimit (BitVec.ofNat 64 (dAt d 16 8)) s), .done stOk 0) := by
  have hrun : runDesc kind holding .furrowAdvance d s = runFurrowAdvance d s := if_neg (Bool.eq_false_iff.1 hheader)
  rw [hrun, runFurrowAdvance, if_neg (by simp [hcount, hzero, hpos]), if_neg (by simp [hlead]),
    if_neg (by simp only [isOn_of_isLead hlead, hmode]; decide)]

theorem raiseLimit_eq {l : Pos} (t : Pos) (h : s.run.advanceLimit = some l) :
    raiseLimit t s = { s with run.advanceLimit := some (if l.toNat < t.toNat then t else l) } := by
  unfold raiseLimit
  rw [h]
  dsimp only
  split
  · rfl
  · rw [← h]

theorem runDesc_modeSet (hheader : headerBad d = false) (hgood : modeMalformed d = false) :
    runDesc kind holding .modeSet d s =
      (spread .modeSet d (setMode (dAt d 16 1) (dAt d 17 1 == 1) s), .done stOk 0) := by
  have hrun : runDesc kind holding .modeSet d s = runModeSet d s := if_neg (Bool.eq_false_iff.1 hheader)
  rw [hrun, runModeSet, if_neg (Bool.eq_false_iff.1 hgood)]

theorem runDesc_resume_cut (hheader : headerBad d = false) (hon : s.run.isOn = true) (hcount : noCount d = true)
    (hzero : dZeroFrom d 16 = true) (hcut : s.run.halt = .cut) (hknown : haltKnown s = true)
    (hrestore : ([1, 2, 5, 6].contains s.holding.restore) = false) (hformed : reformed s = true) :
    runDesc kind holding .resume d s = (spread .resume d (releaseCut s), .done stOk 0) := by
  have hrun : runDesc kind holding .resume d s = runResume d s := if_neg (Bool.eq_false_iff.1 hheader)
  have hhalted : s.halted = true := by simp [State.halted, hon, hcut]
  rw [hrun, runResume, if_neg (by simp [hcount, hzero]),
    if_neg (by rw [hhalted, hcut, hrestore, hknown, hformed]; decide), if_pos (by rw [hcut]; rfl)]

/-! ### The stops (02 R36, R38, R39) -/

/-- A STOP of a run that goes on is ordered of every module, and completes with the halt or waits for it. -/
theorem runDesc_stop_running (hheader : headerBad d = false) (hon : s.run.isOn = true) (hgood : stopMalformed d = false)
    (hrunning : s.run.halt = .running)
    (hahead : (stopOf kind holding d).scheduled = true → s.run.head.toNat < (stopOf kind holding d).target.toNat) :
    ∃ r, runDesc kind holding .stop d s = (orderStop (stopOf kind holding d) s, r) := by
  have hrun : runDesc kind holding .stop d s = runStop kind holding d s := if_neg (Bool.eq_false_iff.1 hheader)
  have hhalted : s.halted = false := by simp [State.halted, hrunning]
  have htarget : ((stopOf kind holding d).scheduled &&
      decide ((stopOf kind holding d).target.toNat ≤ s.run.head.toNat)) = false := by
    cases hs : (stopOf kind holding d).scheduled with
    | false => rfl
    | true => exact decide_eq_false (Nat.not_le.2 (hahead hs))
  rw [hrun, runStop]
  dsimp only
  rw [if_neg (Bool.eq_false_iff.1 hgood), if_neg (by simp [hon]), if_neg (by simp [hhalted]),
    if_neg (Bool.eq_false_iff.1 htarget)]
  split <;> exact ⟨_, rfl⟩

/-- The lead master has told every module of the stop, and counts none that has reached it. -/
def stopTold (m : StopMsg) (s : State) : State := sendHedge everyone (.stop m) { s with run.stopAcks := [] }

theorem stopTold_eq (m : StopMsg) (s : State) : stopTold m s =
    { s with run.stopAcks := [], sheaf := (stopTold m s).sheaf, out := (stopTold m s).out } := by
  unfold stopTold
  rw [sendHedge_eq]

theorem stopTold_sent (m : StopMsg) (s : State) : (everyone, Hedge.stop m) ∈ (stopTold m s).out.hedge := mem_sendHedge ..

/-- A first stop, and an immediate one, of a run that goes on joins no other. -/
theorem orderStop_eq {m : StopMsg} (hrunning : s.run.halt = .running) (h : m.scheduled = true → s.run.stop = none) :
    orderStop m s = applyStop m (stopTold m s) := by
  have hjoins : (m.scheduled && (s.run.stop.isSome || s.run.halt == .cut)) = false := by
    cases hs : m.scheduled with
    | false => rfl
    | true => rw [h hs, hrunning]; rfl
  unfold orderStop
  rw [hjoins]
  rfl

theorem orderStop_scheduled {m : StopMsg} (hon : s.run.isOn = true) (hs : m.scheduled = true)
    (hrunning : s.run.halt = .running) (hstop : s.run.stop = none) (hno : (s.sched.tasks.any fun x => x.seedbed) = false) :
    orderStop m s = { stopTold m s with run.stop := some m } := by
  have htold := stopTold_eq m s
  rw [orderStop_eq hrunning fun _ => hstop]
  generalize stopTold m s = t at htold
  rw [applyStop_scheduled (by rw [htold]; exact hon) hs (by rw [htold]; exact hrunning) (by rw [htold]; exact hno)]
  have hnone : t.run.stop = none := by rw [htold]; exact hstop
  rw [hnone]
  rfl

/-- A halt in a smear is an unwinding before the module stands in it, and one after. -/
theorem haltSmear_unwinds (hon : s.run.isOn = true) (hrunning : s.run.halt = .running) (m : StopMsg) :
    ∃ t, Unwinds s t ∧ Unwinds (enterSmear t) (haltSmear m s) := by
  unfold haltSmear
  rw [if_pos (by simp [hon, hrunning])]
  refine ⟨_, (tells_writeStopMap 2 m s.coll.live.length s).unwinds.trans (unwinds_abandonStarted _), ?_⟩
  exact (unwinds_stopMoves _).trans ((tells_shareVote _).trans ((tells_finishJobs _ _ _ _).trans
    ((tells_acknowledge _ _ _ _).trans (tells_stopsComplete _)))).unwinds

/-- An immediate stop leaves the orders held and the module's place as they were. -/
theorem applyStop_immediate_holds {m : StopMsg} (hon : s.run.isOn = true) (hi : m.scheduled = false)
    (hrunning : s.run.halt = .running) :
    (applyStop m s).run.held = s.run.held ∧ (applyStop m s).holding = s.holding := by
  have happly : applyStop m s = haltSmear m { s with run.halt := .running } := by simp [applyStop, hon, hi, hrunning]
  obtain ⟨t, before, after⟩ := haltSmear_unwinds (s := { s with run.halt := .running }) hon rfl m
  have hheld : t.run.held = s.run.held := by rw [before.frame]
  have hholding : t.holding = s.holding := by rw [before.frame]
  rw [happly, after.frame]
  exact ⟨hheld, hholding⟩

end Sys2Proof.Proofs
end

section
/-!
PROOFS. The tally across an outcome: what the vote decides keeps the orders held, the module's ID and the vote records, but for the
record of the vote itself. One lemma per operation; an operation that changes none of the three and calls nothing that has a lemma
here is unfolded (09 R179 to R182).
-/
namespace Sys2Proof.Proofs

open Sys2Proof Sys2Proof.Machine Sys2Proof.Safety Sys2Proof.Laws

/-- The orders held at the lead master, the module's ID, and the ring of vote records. -/
def tally (s : State) : List HeldOrder × ModId × List (Nat × VoteMsg × Nat) :=
  (s.run.held, s.holding.moduleId, s.votes.ring)

theorem tally_foldl {α : Type} {g : State → α → State} (hg : ∀ t x, tally (g t x) = tally t) (l : List α) (s : State) :
    tally (l.foldl g s) = tally s :=
  foldl_inv (p := fun t => tally t = tally s) (fun t x ht => (hg t x).trans ht) l rfl

section

variable {s t : State}

theorem tally_of_tells (h : Tells s t) : tally t = tally s := by
  rw [h.frame]
  rfl

theorem tally_of_unwinds (h : Unwinds s t) : tally t = tally s := by
  rw [h.frame]
  rfl

theorem tally_of_prepares (h : Prepares s t) : tally t = tally s := by
  rw [h]
  rfl

theorem tally_of_accounts (h : Accounts s t) : tally t = tally s := by
  rw [h]
  rfl

theorem tally_of_touched (h : Touched s t) : tally t = tally s := by
  obtain ⟨-, -, -, hrest⟩ := h
  rw [← hrest]
  rfl

end

variable (s : State)

/-! ### Notices, packets and completions -/

theorem tally_trace (source type : Nat) (seedbed : Bool) (unit : Nat) (task : W32) (data : Nat) :
    tally (trace source type seedbed unit task data s) = tally s := tally_of_tells (tells_trace ..)

theorem tally_sendHedge (dest : ModId) (m : Hedge) : tally (sendHedge dest m s) = tally s := tally_of_tells (tells_sendHedge ..)

theorem tally_raise (code detail : Nat) : tally (raise code detail s) = tally s := tally_of_tells (tells_raise ..)

theorem tally_finishJobs (p : Job → Bool) (status detail : Nat) : tally (finishJobs p status detail s) = tally s :=
  tally_of_tells (tells_finishJobs ..)

theorem tally_acknowledge (kind : Nat) (ident pos : W64) : tally (acknowledge kind ident pos s) = tally s :=
  tally_of_tells (tells_acknowledge ..)

theorem tally_sheafTrigger (kind code : Nat) : tally (sheafTrigger kind code s) = tally s := by
  unfold sheafTrigger
  grind [tally]

theorem tally_sendFlit (p t : Nat) (q : Packet) (corrupt : Option (Nat × Byte)) :
    tally (sendFlit p t q corrupt s) = tally s := by
  unfold sendFlit
  split <;> rfl

theorem tally_transmit (p t : Nat) (q : Packet) : tally (transmit p t q s) = tally s := by
  unfold transmit
  grind [countStone, tally_sendFlit, tally]

theorem tally_releaseHeld (p vc : Nat) : tally (releaseHeld p vc s) = tally s := by
  unfold releaseHeld
  grind [tally_foldl, tally_sendFlit, tally]

theorem tally_sendPacket (t : Nat) (reverse : Bool) (q : Packet) : tally (sendPacket t reverse q s) = tally s := by
  unfold sendPacket
  split
  · split <;> rfl
  next p detour _ =>
    extract_lets q s₁ held s₂
    have h₁ : tally s₁ = tally s := by unfold s₁; split <;> rfl
    have h₂ : tally s₂ = tally s := (tally_transmit ..).trans h₁
    split
    · exact (tally_releaseHeld ..).trans h₂
    · exact h₂

theorem tally_respond (t : Nat) (req : Packet) (status : Nat) (poison : Bool) (data : Bytes) :
    tally (respond t req status poison data s) = tally s := by
  unfold respond
  grind [tally_sendPacket, takeOrder, tally]

theorem tally_refuseReads : tally (refuseReads s) = tally s := by
  unfold refuseReads
  grind [tally_foldl, tally_respond, tally]

/-! ### Task runs and memory -/

theorem tally_finishMove (page : Nat) : tally (finishMove page s) = tally s := tally_of_accounts (accounts_finishMove ..)

theorem tally_flipFresh (step : Nat) (task : W32) : tally (flipFresh step task s) = tally s :=
  tally_of_accounts (accounts_flipFresh ..)

theorem tally_layOutput (t : TaskInst) : tally (layOutput t s) = tally s := tally_of_accounts (accounts_layOutput ..)

theorem tally_finding (step bit : Nat) : tally (finding step bit s) = tally s := by
  unfold finding
  grind [tally]

theorem tally_findings (step : Nat) (w : W16) : tally (findings step w s) = tally s := by
  unfold findings
  grind [tally_foldl, tally_finding]

theorem tally_offerCandidate (t : TaskInst) : tally (offerCandidate t s) = tally s := by
  unfold offerCandidate
  grind [tally]

theorem tally_sealBlock (g : Segment) (record step q : Nat) (t : StatRec) :
    tally (sealBlock g record step q t s) = tally s := by
  unfold sealBlock
  grind [tally_finding, layCells, tally]

theorem tally_sealSegment (seg step : Nat) : tally (sealSegment seg step s) = tally s := by
  unfold sealSegment
  grind [tally_foldl, tally_sealBlock]

theorem tally_publish (t : TaskInst) : tally (publish t s) = tally s := by
  unfold publish
  grind [tally_foldl, tally_layOutput, tally_flipFresh, tally_findings, tally_offerCandidate, tally_sealSegment, tally_trace,
    dropJournal, traceTask, countWork, countAs, setTask, tally]

theorem tally_endSolves : tally (endSolves s) = tally s := by
  unfold endSolves
  grind [tally_foldl, endSolve, setTask, tally_publish, tally]

theorem tally_touchCells (cs : Cells) : tally (touchCells cs s) = tally s := tally_of_touched (touchCells_touched ..)

theorem tally_giveSeqs (ts : List TaskInst) : tally (giveSeqs ts s).1 = tally s := tally_of_prepares (prepares_giveSeqs ..)

theorem tally_addInstances (n : Nat) (new : List TaskInst) : tally (addInstances n new s) = tally s :=
  tally_of_prepares (prepares_addInstances ..)

theorem tally_sow : tally (sow s) = tally s := tally_of_prepares (prepares_sow ..)

theorem tally_discardRuns (p : TaskInst → Bool) (phase : Phase) : tally (discardRuns p phase s) = tally s :=
  tally_of_unwinds (unwinds_discardRuns ..)

theorem tally_rotateRegion (window : List Nat) (region n : Nat) : tally (rotateRegion window region n s) = tally s := by
  induction n generalizing s with
  | zero => rfl
  | succ n ih =>
    unfold rotateRegion
    split
    · rfl
    · exact ih _

theorem tally_rotationSelect : tally (rotationSelect s) = tally s := by
  unfold rotationSelect
  grind [tally_foldl, tally_rotateRegion, tally]

/-! ### Groups (10 R199, R216, R217) -/

theorem tally_mapGroups (f : Nat → Group → Group) : tally (mapGroups f s) = tally s := rfl

theorem tally_renumber (g : Nat) : tally (renumber g s) = tally s := by
  unfold renumber
  grind [tally_foldl, tally_mapGroups, tally_giveSeqs, tally]

theorem tally_installGroup (b : Bytes) (epoch : Nat) : tally (installGroup b epoch s) = tally s := by
  unfold installGroup
  grind [tally_renumber, tally]

theorem tally_sendDefinition (b : Bytes) (epoch : Nat) (m : ModId) : tally (sendDefinition b epoch m s) = tally s := by
  unfold sendDefinition
  grind [tally_foldl, tally_sendHedge]

theorem tally_spreadGroup (b : Bytes) (epoch : Nat) : tally (spreadGroup b epoch s).1 = tally s := by
  unfold spreadGroup
  grind [tally_foldl, tally_installGroup, tally_sendDefinition]

theorem tally_reformOne (excluded : Bool) (m : ModId) (g : Nat) : tally (reformOne excluded m g s) = tally s := by
  unfold reformOne
  grind [tally_spreadGroup, tally_raise]

theorem tally_reportReformed : tally (reportReformed s) = tally s := by
  unfold reportReformed
  grind [tally_sendHedge, tally]

theorem tally_reformLost : tally (reformLost s) = tally s := by
  unfold reformLost
  grind [tally_foldl, tally_reformOne, tally_reportReformed]

/-! ### The end of a pass C (09 R180 to R182) -/

theorem tally_queueReport (n status : Nat) : tally (queueReport n status s) = tally s := by
  unfold queueReport
  split <;> rfl

theorem tally_traceCommit (type data : Nat) : tally (traceCommit type data s) = tally s := tally_trace ..

theorem tally_traceProgress (fields : List Nat) : tally (traceProgress fields s) = tally s :=
  tally_foldl (fun t f => tally_traceCommit t 2 f) fields s

theorem tally_releaseRetired : tally (releaseRetired s) = tally s := by
  unfold releaseRetired
  grind [tally_foldl, releaseSegment, tally]

theorem tally_retireAt (n : Nat) (commit : Bool) : tally (retireAt n commit s) = tally s := by
  unfold retireAt
  grind [tally_finishJobs, tally_releaseRetired, tally]

theorem tally_createEval (k : Nat) : tally (createEval k s) = tally s := by
  unfold createEval
  grind [tally_addInstances]

theorem tally_applyEvaluation (n : Nat) (host : Bool) : tally (applyEvaluation n host s) = tally s := by
  unfold applyEvaluation
  grind [tally_foldl, tally_createEval, tally]

theorem tally_applyMode (n f : Nat) (host : Bool) : tally (applyMode n f host s) = tally s := by
  unfold applyMode
  grind [tally_endSolves, dropSelected, tally_applyEvaluation, tally]

theorem tally_extendMeas (i : Nat) (d : Bytes) : tally (extendMeas i d s) = tally s := rfl

theorem tally_applyModes (n : Nat) : tally (applyModes n s) = tally s := by
  unfold applyModes
  grind [tally_foldl, tally_extendMeas, tally_applyMode, tally]

theorem tally_installStones (xs : List Stone) (digest : BitVec 256) (reset : Bool) :
    tally (installStones xs digest reset s) = tally s := rfl

theorem tally_installExport (c : ExportCfg) : tally (installExport c s) = tally s := by
  unfold installExport
  grind [tally]

theorem tally_boundaryEffects (n : Nat) (commit : Bool) : tally (boundaryEffects n commit s) = tally s := by
  unfold boundaryEffects
  grind [tally_installStones, tally_applyModes, tally_installExport, tally_retireAt, tally]

theorem tally_finishStep (n : Nat) (commit : Bool) : tally (finishStep n commit s) = tally s := tally_boundaryEffects ..

/-! ### The outcomes -/

theorem tally_installRoot (n : Nat) (b : BlockSolve) : tally (installRoot n b s) = tally s := by
  unfold installRoot
  grind [tally_touchCells, writeCells, tally]

theorem tally_closeSeedbed (n : Nat) : tally (closeSeedbed n s) = tally s := by
  unfold closeSeedbed
  grind [tally_foldl, tally_flipFresh, tally_sheafTrigger, tally_offerCandidate, tally]

theorem tally_followPin (p : Nat) : tally (followPin s p) = tally s := by
  unfold followPin
  grind [selectMove, tally]

theorem tally_applyCommit (v : VoteMsg) : tally (applyCommit v s) = tally (keepVote v s) := by
  unfold applyCommit
  extract_lets n s₁ k record _ _ _ _ s₂ pages s₃ s₄ s₅ s₆ _ s₇ s₈ s₉ _ s₁₀ s₁₁ s₁₂
  split
  · rfl
  · calc tally s₁₂
      _ = tally s₁₁ := tally_traceProgress ..
      _ = tally s₉ := tally_rotationSelect (decayHeat s₁₀)
      _ = tally s₆ := tally_closeSeedbed s₈ n
      _ = tally s₅ := tally_foldl (fun t b => tally_installRoot t n b) _ _
      _ = tally s₃ := tally_foldl tally_followPin pages s₄
      _ = tally s₂ := tally_foldl (fun t p => tally_finishMove t p) pages s₂

theorem tally_releasePending (n : Nat) : tally (releasePending n s) = tally s := by
  unfold releasePending
  grind [tally_foldl, layCells, tally_touchCells, tally]

theorem tally_discardFrom (n : Nat) : tally (discardFrom n s) = tally s :=
  tally_discardRuns s (fun t => decide (n ≤ t.step)) .discarded

theorem tally_applySkip (v : VoteMsg) : tally (applySkip v s) = tally (keepVote v s) := by
  unfold applySkip
  extract_lets n s₁ s₂ s₃ s₄ _ _ s₅ s₆ s₇
  have h₁ : tally s₁ = tally (keepVote v s) := tally_refuseReads (keepVote v s)
  have h₃ : tally s₃ = tally (keepVote v s) := (tally_discardFrom s₁ n).trans h₁
  clear_value s₃
  have h₄ : tally s₄ = tally s₃ := tally_releasePending { s₃ with mem := dropLayers (skipLayers n) s₃.mem } n
  clear_value s₄
  have h₆ : tally s₆ = tally s₄ := tally_raise s₅ ..
  clear_value s₆
  have h₇ : tally s₇ = tally s₆ := (tally_finishStep ..).trans ((tally_queueReport ..).trans (tally_sow s₆))
  clear_value s₇
  have hopen : tally (openVote (n + 1) 0 s₇) = tally s₇ := rfl
  rw [tally_acknowledge, hopen, h₇, h₆, h₄, h₃]

theorem tally_cutSeedbed (target : Pos) : tally (cutSeedbed target s) = tally s := tally_discardRuns s _ .discarded

theorem tally_haltSmear (m : StopMsg) : tally (haltSmear m s) = tally s := by
  by_cases hrun : s.run.isOn = true ∧ s.run.halt = .running
  · obtain ⟨t, before, after⟩ := haltSmear_unwinds hrun.1 hrun.2 m
    have hentered : tally t = tally s := tally_of_unwinds before
    rw [tally_of_unwinds after]
    exact hentered
  · unfold haltSmear
    rw [if_neg (by simpa using hrun)]

theorem tally_applyStop (m : StopMsg) : tally (applyStop m s) = tally s := by
  unfold applyStop
  grind [tally_haltSmear, tally_cutSeedbed, tally]

theorem tally_orderStop (m : StopMsg) : tally (orderStop m s) = tally s :=
  (tally_applyStop ..).trans (tally_sendHedge ..)

theorem tally_applyRetry (v : VoteMsg) : tally (applyRetry v s) = tally (keepVote v s) := by
  unfold applyRetry
  extract_lets n s₁ _ s₂ s₃ s₄
  have h₁ : tally s₁ = tally (keepVote v s) := tally_refuseReads (keepVote v s)
  have h₂ : tally s₂ = tally s₁ := rfl
  have h₄ : tally s₄ = tally s₂ := (tally_queueReport ..).trans (tally_raise ..)
  clear_value s₄
  rw [tally_reformLost, ← h₁, ← h₂, ← h₄]
  split
  · exact tally_orderStop ..
  · rfl

/-- An outcome changes the tally by the record of its vote, or leaves it. -/
theorem tally_applyOutcome (v : VoteMsg) :
    tally (applyOutcome v s) = tally s ∨ ∃ t, tally t = tally s ∧ tally (applyOutcome v s) = tally (keepVote v t) := by
  unfold applyOutcome
  split
  · refine .inr ⟨traceCommit 1 v.bits.toNat s, tally_traceCommit .., ?_⟩
    dsimp only
    split
    · exact tally_applyCommit ..
    · split
      · exact tally_applySkip ..
      · exact tally_applyRetry ..
  · exact .inl rfl

end Sys2Proof.Proofs
end

section
/-!
PROOFS. What an order held at the run lead master does once its hold is over (13 R289).
-/
namespace Sys2Proof.Proofs

open Sys2Proof Sys2Proof.Machine Sys2Proof.Safety Sys2Proof.Laws

variable {o : FwdOrder} {s : State}

/-! ### The vote supplied (09 R178) -/

theorem keepVote_kept (v : VoteMsg) (s : State) : (keepVote v s).votes.ring.any (fun e => e.2.1 == v) = true := by
  simp [keepVote]

theorem takeDecision_keeps (v : VoteMsg) (s : State) :
    (takeDecision v s).run.held = s.run.held ∧ (takeDecision v s).holding.moduleId = s.holding.moduleId ∧
      (takeDecision v s).votes.ring.any (fun e => e.2.1 == v) = true := by
  have hkept := keepVote_kept v { s with votes.decided := some v }
  have htold := tally_sendHedge (keepVote v { s with votes.decided := some v }) everyone (.voteOutcome v)
  unfold takeDecision
  dsimp only
  generalize sendHedge everyone (.voteOutcome v) (keepVote v { s with votes.decided := some v }) = t at *
  simp only [tally, Prod.mk.injEq] at htold
  obtain ⟨(hheld : t.run.held = s.run.held), (hid : t.holding.moduleId = s.holding.moduleId), hring⟩ := htold
  rcases tally_applyOutcome t v with h | ⟨u, hu, h⟩
  · simp only [tally, Prod.mk.injEq] at h
    obtain ⟨hheld', hid', hring'⟩ := h
    exact ⟨hheld'.trans hheld, hid'.trans hid, by rw [hring', hring]; exact hkept⟩
  · have hu' := keepVote_kept v u
    simp only [tally, Prod.mk.injEq] at h hu
    obtain ⟨hheld', hid', hring'⟩ := h
    obtain ⟨hheldu, hidu, -⟩ := hu
    exact ⟨hheld'.trans (hheldu.trans hheld), hid'.trans (hidu.trans hid), by rw [hring']; exact hu'⟩

theorem takeDecision_sent (v : VoteMsg) (s : State) : (everyone, Hedge.voteOutcome v) ∈ (takeDecision v s).out.hedge :=
  Sent.applyOutcome (mem_sendHedge ..) v

theorem voteSupplyFirst_of_good {d : Desc} (hlead : s.isLead = true) (hcount : noCount d = true)
    (hzero : dZeroFrom d 25 = true) (hrange : dAt d 24 1 ≤ 2) (hmode : s.run.modes.getD 5 false = true) :
    voteSupplyFirst d s = none := by
  unfold voteSupplyFirst
  rw [if_neg (by simp [hcount, hzero, hrange]), if_neg (by simp [hlead]), if_neg (by
    simp only [isOn_of_isLead hlead, hmode]; decide)]

theorem runDesc_voteSupply {d : Desc} {kind holding : Nat} (hheader : headerBad d = false)
    (hfirst : voteSupplyFirst d s = none) (hrunning : s.run.halt = .running)
    (hopen : s.votes.openStep = some (dAt d 16 8)) (hundecided : s.votes.decided = none)
    (hcomplete : reductionComplete s = true)
    (hbits : dAt d 24 1 = outRetry ∨ operationalBits (voteRecord (dAt d 16 8) (dAt d 24 1) true false s).bits = 0) :
    runDesc kind holding .voteSupply d s =
      (takeDecision (voteRecord (dAt d 16 8) (dAt d 24 1) true false s) s, .done stOk 0) := by
  have hrun : runDesc kind holding .voteSupply d s = runVoteSupply d s := if_neg (Bool.eq_false_iff.1 hheader)
  have hhalted : s.halted = false := by simp [State.halted, hrunning]
  rw [hrun, runVoteSupply, hfirst]
  dsimp only
  rw [if_neg (by simp [hopen, hundecided, hcomplete, hhalted]), if_neg (by tauto)]

/-! ### The statement -/

/-- Settles O31: each order by what its opcode does with none held, and by what giving its result leaves. -/
theorem heldOrdersTakeEffect : Obligations.HeldOrdersTakeEffect := by
  unfold Obligations.HeldOrdersTakeEffect
  intro s
  refine ⟨fun h => ?none, fun o h hop => ?advance, fun o h hop hgood => ?mode, fun o h hop hgood hrunning => ?scheduled,
    fun o h hop hgood hrunning hnow => ?immediate, fun o h hop hcount hzero hcut hknown hrestore hformed => ?resume,
    fun o h hop hcount hzero hrange hmode hrunning => ?vote⟩
  case none => rw [exec_orderHoldRelease, releaseHolds_of_none h]
  case advance =>
    intro t l hcount hzero hpos hmode hlimit
    have hrun := runDesc_furrowAdvance (kind := 0) (holding := o.holding) (s := noneHeld s) h.header (noneHeld_isLead h.lead)
      hcount hzero hpos hmode
    rw [← hop, raiseLimit_eq (s := noneHeld s) _ hlimit] at hrun
    obtain ⟨-, hspread⟩ := spreads_spread o.op o.desc
      { noneHeld s with run.advanceLimit := some (if l.toNat < t.toNat then t else l) }
    generalize spread o.op o.desc { noneHeld s with run.advanceLimit := some (if l.toNat < t.toNat then t else l) } = u at *
    refine releases_of_runDesc h hrun (by rw [hspread]; rfl) (by rw [hspread]; rfl) fun v hv => ?_
    rw [hv.frame, hspread]
    exact ⟨rfl, rfl⟩
  case mode =>
    have hrun := runDesc_modeSet (kind := 0) (holding := o.holding) (s := noneHeld s) h.header hgood
    rw [← hop] at hrun
    obtain ⟨-, hspread⟩ := spreads_spread o.op o.desc (setMode (dAt o.desc 16 1) (dAt o.desc 17 1 == 1) (noneHeld s))
    generalize spread o.op o.desc (setMode (dAt o.desc 16 1) (dAt o.desc 17 1 == 1) (noneHeld s)) = u at *
    refine releases_of_runDesc h hrun (by rw [hspread]; rfl) (by rw [hspread]; rfl) fun v hv => ?_
    rw [hv.frame, hspread]
    exact ⟨rfl, rfl⟩
  case scheduled =>
    intro hsched hstop t hahead hno
    have hmsg : stopOf 0 o.holding o.desc = ⟨true, t, 0, o.holding⟩ := by simp [stopOf, hsched, t]
    obtain ⟨r, hrun⟩ := runDesc_stop_running (kind := 0) (holding := o.holding) (s := noneHeld s) h.header
      (isOn_of_isLead h.lead) hgood hrunning fun _ => hahead
    rw [hmsg, orderStop_scheduled (s := noneHeld s) (m := ⟨true, t, 0, o.holding⟩) (isOn_of_isLead h.lead) rfl hrunning hstop hno,
      ← hop] at hrun
    have htold := stopTold_eq ⟨true, t, 0, o.holding⟩ (noneHeld s)
    have hsent := stopTold_sent ⟨true, t, 0, o.holding⟩ (noneHeld s)
    generalize stopTold ⟨true, t, 0, o.holding⟩ (noneHeld s) = u at *
    refine releases_of_runDesc h hrun (by rw [htold]; rfl) (by rw [htold]; rfl) fun v hv => ?_
    have hkept := hv.sent hsent
    rw [hv.frame, htold]
    exact ⟨rfl, rfl, hrunning, hkept, rfl, rfl⟩
  case immediate =>
    have hmsg : stopOf 0 o.holding o.desc = ⟨false, BitVec.ofNat 64 (dAt o.desc 16 8), 0, o.holding⟩ := by
      simp [stopOf, hnow]
    obtain ⟨r, hrun⟩ := runDesc_stop_running (kind := 0) (holding := o.holding) (s := noneHeld s) h.header
      (isOn_of_isLead h.lead) hgood hrunning fun hs => by simp [hmsg] at hs
    rw [hmsg, orderStop_eq (s := noneHeld s) hrunning (absurd · Bool.false_ne_true), ← hop] at hrun
    have htold := stopTold_eq ⟨false, BitVec.ofNat 64 (dAt o.desc 16 8), 0, o.holding⟩ (noneHeld s)
    have hsent := stopTold_sent ⟨false, BitVec.ofNat 64 (dAt o.desc 16 8), 0, o.holding⟩ (noneHeld s)
    generalize stopTold ⟨false, BitVec.ofNat 64 (dAt o.desc 16 8), 0, o.holding⟩ (noneHeld s) = u at *
    have hon : u.run.isOn = true := by rw [htold]; exact isOn_of_isLead h.lead
    have hrunning' : u.run.halt = .running := by rw [htold]; exact hrunning
    have hsmeared := applyStop_immediate (m := ⟨false, BitVec.ofNat 64 (dAt o.desc 16 8), 0, o.holding⟩) hon rfl (.inl hrunning')
    obtain ⟨hheld, hholding⟩ := applyStop_immediate_holds (m := ⟨false, BitVec.ofNat 64 (dAt o.desc 16 8), 0, o.holding⟩)
      hon rfl hrunning'
    refine releases_of_runDesc h hrun (by rw [hholding, htold]; rfl) (by rw [hheld, htold]; rfl) fun v hv => ?_
    refine ⟨?_, ?_, ?_, hv.sent (hsmeared.sent hsent)⟩
    · rw [hv.frame]
      exact hsmeared.halt
    · rw [hv.frame]
      exact hsmeared.live
    · rw [hv.frame]
      exact hsmeared.stop
  case resume =>
    have hrun := runDesc_resume_cut (kind := 0) (holding := o.holding) (s := noneHeld s) h.header (isOn_of_isLead h.lead)
      hcount hzero hcut hknown hrestore hformed
    rw [← hop] at hrun
    obtain ⟨-, hspread⟩ := spreads_spread o.op o.desc (releaseCut (noneHeld s))
    generalize spread o.op o.desc (releaseCut (noneHeld s)) = u at *
    refine releases_of_runDesc h hrun (by rw [hspread]; rfl) (by rw [hspread]; rfl) fun v hv => ?_
    rw [hv.frame, hspread]
    exact ⟨rfl, rfl, rfl, rfl, rfl, rfl⟩
  case vote =>
    intro n vote hopen hundecided hcomplete hbits
    have hrun := runDesc_voteSupply (kind := 0) (holding := o.holding) (s := noneHeld s) h.header
      (voteSupplyFirst_of_good (noneHeld_isLead h.lead) hcount hzero hrange hmode) hrunning hopen hundecided hcomplete hbits
    rw [← hop] at hrun
    obtain ⟨hheld, hid, hkept⟩ := takeDecision_keeps vote (noneHeld s)
    refine releases_of_runDesc h hrun hid hheld fun v hv => ⟨?_, hv.sent (takeDecision_sent vote (noneHeld s))⟩
    rw [hv.frame]
    exact hkept

end Sys2Proof.Proofs
end

section
/-!
PROOFS. RUN_BEGIN, MODE_SET, FENCE, and the run-wide orders at the master that issues them (13 R279, R281, R289, 01 R19, R20).
-/
namespace Sys2Proof.Proofs

open Sys2Proof Sys2Proof.Machine Sys2Proof.Safety Sys2Proof.Laws

variable {s : State} {d : Desc}

/-! ### The step created at START (12 R242, 10 R199) -/

theorem giveSeqs_eq (ts : List TaskInst) (s : State) :
    (giveSeqs ts s).1 = { s with coll.groups := (giveSeqs ts s).1.coll.groups } := by
  refine foldl_inv (p := fun x : State × List TaskInst => x.1 = { s with coll.groups := x.1.coll.groups }) (fun x t hx => ?_)
    ts rfl
  have hgive : (giveSeq x.1 t).1 = { x.1 with coll.groups := (giveSeq x.1 t).1.coll.groups } := by
    unfold giveSeq
    split
    · rfl
    · split <;> rfl
  show (giveSeq x.1 t).1 = { s with coll.groups := (giveSeq x.1 t).1.coll.groups }
  rw [hgive, hx]

theorem addInstances_eq (n : Nat) (new : List TaskInst) (s : State) : addInstances n new s =
    { s with sched.tasks := (addInstances n new s).sched.tasks, coll.groups := (addInstances n new s).coll.groups } := by
  have hgiven := giveSeqs_eq new s
  unfold addInstances
  dsimp only
  generalize giveSeqs new s = x at *
  rw [hgiven]
  rfl

/-- The first step that a module creates. -/
theorem createStep_first (n : Nat) (h : s.run.created = none) : createStep n s =
    { s with
      run.created := some n, run.attempts := tmod 0 s.run.attempts n (· + 1), sched.tasks := (createStep n s).sched.tasks
      coll.groups := (createStep n s).coll.groups } := by
  unfold createStep
  rw [h, if_neg Bool.false_ne_true, addInstances_eq]

/-! ### RUN_BEGIN (13 R279, 02 R35) -/

/-- The run as RUN_BEGIN makes it, before its first step is created. -/
def begunRun (lead : ModId) (d : Desc) (s : State) : Run :=
  let start : Pos := BitVec.ofNat 64 (dAt d 16 8)
  { isOn := true, start := start, seed := BitVec.ofNat 64 (dAt d 24 8), firstHolding := dAt d 32 2
    holdingCount := dAt d 34 2, leadHolding := dAt d 32 2, leadModule := lead, masters := s.run.masters, head := start
    headAt := s.clock.up, halt := .cut, modes := s.run.modes, pendingModes := s.run.pendingModes, held := s.run.held
    jobs := s.run.jobs, finished := if stepOf start = 0 then none else some (stepOf start - 1) }

/-- A segment's directory entry at the beginning of a run: one that stands runs from the first step on. -/
def entryAtStart (n : Nat) (e : Nat × DirEntry) : Nat × DirEntry :=
  if e.2.state = 1 ∧ e.2.firstStep < n then (e.1, { e.2 with firstStep := n }) else e

/-- The lead master when the run has begun and its first step is still to be created. -/
def begun (lead : ModId) (d : Desc) (s : State) : State :=
  let n := stepOf (BitVec.ofNat 64 (dAt d 16 8))
  openVote n 0 (keepReplay n { lockSetup s with
    run := begunRun lead d s
    graph.dir := s.graph.dir.map (entryAtStart n)
    exporter.chainStep := none
    exporter.images := [] })

/-- The master whose holding is the first begins the run with its clock as it stands. -/
theorem beginRun_of_lead (lead : ModId) (hmaster : s.holding.isMaster = true)
    (hfirst : dAt d 32 2 = s.holding.number.toNat)
    (hbefore : (s.holding.before.any fun b => b.at_ == s.clock.up) = false) : beginRun lead d s =
      sow (createStep (stepOf (BitVec.ofNat 64 (dAt d 16 8))) (begun lead d s)) := by
  have hlock : lockRegisters s = lockSetup s := lockRegisters_of_no_write fun b hb hat => by simp [hb, hat] at hbefore
  unfold beginRun
  rw [hlock]
  dsimp only
  rw [if_pos]
  · rfl
  · simp [State.isLead, lockSetup, hmaster, hfirst]

/-- What RUN_BEGIN leaves of the module: the step created and the moves sown are those of the begun run. -/
theorem beginRun_eq (lead : ModId) (hmaster : s.holding.isMaster = true) (hfirst : dAt d 32 2 = s.holding.number.toNat)
    (hbefore : (s.holding.before.any fun b => b.at_ == s.clock.up) = false) :
    ∃ u : State, beginRun lead d s = { begun lead d s with
      run.created := some (stepOf (BitVec.ofNat 64 (dAt d 16 8))), run.attempts := u.run.attempts
      sched.tasks := u.sched.tasks, coll.groups := u.coll.groups, mem.selected := u.mem.selected } := by
  have hcreated := createStep_first (s := begun lead d s) (stepOf (BitVec.ofNat 64 (dAt d 16 8))) rfl
  have hsown := (sows_sow (createStep (stepOf (BitVec.ofNat 64 (dAt d 16 8))) (begun lead d s))).frame
  rw [beginRun_of_lead lead hmaster hfirst hbefore]
  generalize createStep (stepOf (BitVec.ofNat 64 (dAt d 16 8))) (begun lead d s) = t at *
  generalize sow t = u at *
  refine ⟨u, ?_⟩
  have hattempts : u.run.attempts = t.run.attempts := by rw [hsown]
  have htasks : u.sched.tasks = t.sched.tasks := by rw [hsown]
  have hgroups : u.coll.groups = t.coll.groups := by rw [hsown]
  rw [hattempts, htasks, hgroups]
  rw [hsown, hcreated]

theorem isMaster_of_takesDescriptor {n : Nat} (h : takesDescriptor s n = true) : s.holding.isMaster = true := by
  simp only [takesDescriptor, serves, Bool.and_eq_true] at h
  obtain ⟨⟨⟨⟨⟨⟨-, hmaster⟩, -⟩, -⟩, -⟩, -⟩, -⟩ := h
  exact hmaster

/-- The lead master has told the hall the time, and of the run. -/
def beginTold (d : Desc) (s : State) : State :=
  spread .runBegin d (sendHedge everyone (.timestampSync (BitVec.ofNat 64 s.clock.now)) s)

theorem beginTold_eq (d : Desc) (s : State) :
    beginTold d s = { s with sheaf := (beginTold d s).sheaf, out := (beginTold d s).out } := by
  unfold beginTold spread
  rw [sendHedge_eq, sendHedge_eq everyone (.timestampSync (BitVec.ofNat 64 s.clock.now))]

theorem beginTold_sent (d : Desc) (s : State) : (beginTold d s).out.hedge =
    s.out.hedge ++ [(everyone, .timestampSync (BitVec.ofNat 64 s.clock.now)), orderOut .runBegin d s] := by
  have hsent := sendHedge_sent everyone (.timestampSync (BitVec.ofNat 64 s.clock.now)) s
  have heq := sendHedge_eq everyone (.timestampSync (BitVec.ofNat 64 s.clock.now)) s
  unfold beginTold spread asOrder
  generalize sendHedge everyone (.timestampSync (BitVec.ofNat 64 s.clock.now)) s = t at *
  have hrun : t.run = s.run := by rw [heq]
  have hholding : t.holding = s.holding := by rw [heq]
  rw [sendHedge_sent, hsent, hrun, hholding, List.append_assoc]
  rfl

theorem runDesc_runBegin {kind holding : Nat} (hheader : headerBad d = false) (hgood : beginMalformed d s = false)
    (hoff : s.run.isOn = false) (hsecurity : s.security.state ≠ 2) (hstate : s.holding.state = 2)
    (hnone : s.run.jobs.any isBegin = false) (hfirst : dAt d 32 2 = s.holding.number.toNat) (hone : dAt d 34 2 = 1) :
    runDesc kind holding .runBegin d s = (beginRun (beginTold d s).holding.moduleId d (beginTold d s), .done stOk 1) := by
  have hrun : runDesc kind holding .runBegin d s = runRunBegin d s := if_neg (Bool.eq_false_iff.1 hheader)
  rw [hrun, runRunBegin, if_neg (Bool.eq_false_iff.1 hgood),
    if_neg (by rw [hoff, hnone, hstate, beq_eq_false_iff_ne.2 hsecurity]; decide), if_pos hfirst, if_pos hone]
  rfl

/-- A RUN_BEGIN that has completed at its execution leaves no job that the begun run would wait for. -/
theorem takeDescriptor_runBegin {u : State} {st dt : Nat} (h : Executes .runBegin d s)
    (hrun : runDesc 0 (atOrderPoint .runBegin d s).holding.number.toNat .runBegin d (atOrderPoint .runBegin d s) =
      (u, .done st dt)) (hjobs : (u.run.jobs.any fun j => j.op == .runBegin) = false) :
    takeDescriptor .runBegin d s = advance (record .runBegin d (u, .done st dt)) := by
  have hnone : ((record .runBegin d (u, .done st dt)).run.jobs.any fun j => j.op == .runBegin && j.d == d) = false := by
    rw [record_done_run]
    refine List.any_eq_false.2 fun j hj hboth => ?_
    exact List.any_eq_false.1 hjobs j hj (Bool.and_eq_true_iff.1 hboth).1
  rw [takeDescriptor_of_reaches h.toReaches, executeOne_here h.here, hrun, if_neg fun hwaits => Bool.eq_false_iff.1 hnone hwaits.2]

/-! ### Orders that wait for nothing -/

theorem exec_runBegin (d : Desc) (s : State) : exec (.runBegin d) s = .next (takeDescriptor .runBegin d s) := rfl

theorem exec_modeSet (d : Desc) (s : State) : exec (.modeSet d) s = .next (takeDescriptor .modeSet d s) := rfl

theorem exec_fence (d : Desc) (s : State) : exec (.fence d) s = .next (takeDescriptor .fence d s) := rfl

theorem runDesc_fence {kind holding : Nat} (hheader : headerBad d = false) (hcount : noCount d = true)
    (hscope : dAt d 16 1 ≤ 1) (hzero : dZeroFrom d 17 = true) : runDesc kind holding .fence d s = (s, .done stOk 0) := by
  unfold runDesc
  rw [if_neg (Bool.eq_false_iff.1 hheader)]
  dsimp only
  rw [if_neg (by simp [hcount, hscope, hzero])]
  rfl

/-! ### Run-wide orders at the issuing master (R289) -/

theorem issueWide_lead {op : DescOp} (hgood : wideMalformed op d = false) (hlead : s.isLead = true)
    (hsupply : op = .voteSupply → voteSupplyFirst d s = none) : issueWide op d s =
      startJob none op d (.targets [leadId s] stOk 0)
        { setSub d.ring (fun r => { r with executed := r.executed - 1 }) s with
          run.held := s.run.held ++ [⟨asOrder op d s, s.clock.up⟩] } := by
  unfold issueWide
  dsimp only
  rw [if_neg (Bool.eq_false_iff.1 hgood), if_pos hlead]
  split
  next st hfirst => rw [hsupply rfl] at hfirst; cases hfirst
  next => rfl

/-- The order held and its job, and a ring. -/
theorem issueWide_lead_eq {op : DescOp} (hgood : wideMalformed op d = false) (hlead : s.isLead = true)
    (hsupply : op = .voteSupply → voteSupplyFirst d s = none) : ∃ sub, issueWide op d s = { s with
      run.held := s.run.held ++ [⟨asOrder op d s, s.clock.up⟩]
      run.jobs := s.run.jobs ++ [⟨d, op, .targets [leadId s] stOk 0, none, s.clock.up⟩]
      host.sub := sub } := by
  rw [issueWide_lead hgood hlead hsupply]
  exact ⟨_, rfl⟩

theorem issueWide_modeSet (hgood : wideMalformed .modeSet d = false) (hlead : s.isLead = false) :
    issueWide .modeSet d s = record .modeSet d (s, .done stNotPermitted 0) := by
  unfold issueWide
  dsimp only
  rw [if_neg (Bool.eq_false_iff.1 hgood), if_neg (Bool.eq_false_iff.1 hlead), if_pos rfl]
  rfl

theorem issueWide_forwarded {op : DescOp} (hgood : wideMalformed op d = false) (hlead : s.isLead = false)
    (hop : op = .stop ∨ op = .resume) : issueWide op d s =
      startJob none op d (.targets [leadId s] stOk 0) (sendHedge (leadId s) (.orderForward (asOrder op d s)) s) := by
  have hmode : op ≠ .modeSet := by rcases hop with rfl | rfl <;> nofun
  unfold issueWide
  dsimp only
  rw [if_neg (Bool.eq_false_iff.1 hgood), if_neg (Bool.eq_false_iff.1 hlead), if_neg hmode, if_pos hop]

/-- A run-wide order in its turn is issued at the order point. -/
theorem takeDescriptor_wide {op : DescOp} (h : Reaches op d s) (hwide : runWide (atOrderPoint op d s) op d = true) :
    takeDescriptor op d s = advance (issueWide op d (atOrderPoint op d s)) := by
  rw [takeDescriptor_of_reaches h, executeOne_wide hwide]

/-! ### The statement -/

/-- Settles O30: the order point changes a ring and the trace alone, so each order is what its opcode does in the state it is
delivered in. -/
theorem runOrders : Obligations.RunOrders := by
  unfold Obligations.RunOrders
  refine ⟨fun d s h hgood hoff hsecurity hstate hnone hjobs hfirst hone hbefore => ?begin, fun d s h hgood => ?mode,
    fun row hrow d0 s => ?wide, fun d s h hcount hscope hzero => ?fence⟩
  case begin =>
    intro start
    have hp := atOrderPoint_eq .runBegin d s
    have hmaster := isMaster_of_takesDescriptor h.takes
    have hrun := runDesc_runBegin (kind := 0) (holding := (atOrderPoint .runBegin d s).holding.number.toNat)
      (s := atOrderPoint .runBegin d s) h.header (by rw [hp]; exact hgood) (by rw [hp]; exact hoff)
      (by rw [hp]; exact hsecurity) (by rw [hp]; exact hstate) (by rw [hp]; exact hnone) (by rw [hp]; exact hfirst) hone
    have htold := beginTold_eq d (atOrderPoint .runBegin d s)
    have hsent := beginTold_sent d (atOrderPoint .runBegin d s)
    have hclock : (atOrderPoint .runBegin d s).clock = s.clock := by rw [hp]
    generalize beginTold d (atOrderPoint .runBegin d s) = t at *
    have htoldholding : t.holding = s.holding := by rw [htold, hp]
    have htoldclock : t.clock = s.clock := by rw [htold, hp]
    obtain ⟨x, hbegun⟩ := beginRun_eq (s := t) (d := d) t.holding.moduleId (by rw [htoldholding]; exact hmaster)
      (by rw [htoldholding]; exact hfirst) (by rw [htoldholding, htoldclock]; exact hbefore)
    have hjobs' : (t.run.jobs.any fun j => j.op == .runBegin) = false := by rw [htold, hp]; exact hjobs
    have htake := takeDescriptor_runBegin h hrun (by rw [hbegun]; exact hjobs')
    refine ⟨_, by rw [exec_runBegin, htake], ?_⟩
    rw [hclock] at hsent
    generalize atOrderPoint .runBegin d s = p at *
    have hmodes : t.run.modes = p.run.modes := by rw [htold]
    have hreserved : t.mem.reservedSize = p.mem.reservedSize := by rw [htold]
    rw [hbegun, htoldholding]
    refine ⟨rfl, rfl, rfl, rfl, rfl, hfirst, hmodes, rfl, rfl, rfl, rfl, rfl, rfl, hreserved, hsent, ?_⟩
    rw [htold]
    rfl
  case mode =>
    refine yields_of_runDesc (exec_modeSet d s) h nofun (runDesc_modeSet h.header hgood) ?_
    generalize atOrderPoint .modeSet d s = p
    obtain ⟨hsent, hspread⟩ := spreads_spread .modeSet d (setMode (dAt d 16 1) (dAt d 17 1 == 1) p)
    generalize spread .modeSet d (setMode (dAt d 16 1) (dAt d 17 1 == 1) p) = u at *
    refine ⟨by rw [hspread]; rfl, hsent, by rw [hspread]; rfl⟩
  case wide =>
    intro op d o h hwide hgood
    have hexec : exec (row.1 d0) s = .next (advance (issueWide op d (atOrderPoint op d s))) := by
      rw [descRows_take row hrow, takeDescriptor_wide h hwide]
    have hp := atOrderPoint_eq op d s
    rw [hexec]
    generalize atOrderPoint op d s = p at *
    refine ⟨fun hlead hsupply => ?lead, fun hlead hmode => ?refused, fun hlead hop => ?forwarded⟩
    case lead =>
      have hsupply' : op = .voteSupply → voteSupplyFirst d p = none := fun hop => by rw [hp]; exact hsupply hop
      obtain ⟨sub, hissue⟩ := issueWide_lead_eq hgood (by rw [hp]; exact hlead) hsupply'
      rw [hissue, hp]
      exact ⟨_, rfl, rfl, rfl, rfl⟩
    case refused =>
      have hissue := issueWide_modeSet (d := d) (s := p) (by rw [← hmode]; exact hgood) (by rw [hp]; exact hlead)
      rw [hmode, hissue]
    case forwarded =>
      rw [issueWide_forwarded hgood (by rw [hp]; exact hlead) hop]
      have hsent := sendHedge_sent (leadId p) (.orderForward (asOrder op d p)) p
      have heq := sendHedge_eq (leadId p) (.orderForward (asOrder op d p)) p
      generalize sendHedge (leadId p) (.orderForward (asOrder op d p)) p = t at *
      refine ⟨_, rfl, ?_, ?_, ?_⟩
      · exact hsent.trans (by rw [hp]; rfl)
      · rw [heq, hp]
        rfl
      · rw [heq, hp]
        rfl
  case fence =>
    have hrun := runDesc_fence (kind := 0) (holding := (atOrderPoint .fence d s).holding.number.toNat)
      (s := atOrderPoint .fence d s) h.header hcount hscope hzero
    rw [exec_fence, takeDescriptor_of_executes h nofun, hrun]

end Sys2Proof.Proofs
end

section
/-!
PROOFS. The queue, the idle step, the rollback counters and the reset values (18 R379, 20 R413).
-/
namespace Sys2Proof.Proofs

open Sys2Proof Sys2Proof.Machine Sys2Proof.Safety Sys2Proof.Laws

/-- Settles O5, by the invariant that every command keeps, in its part on the counters. -/
theorem rollbackCountersNeverDecrease : Obligations.RollbackCountersNeverDecrease := by
  unfold Obligations.RollbackCountersNeverDecrease
  intro s t h
  obtain ⟨-, -, -, -, -, -, hcounters⟩ := step_keeps h
  exact hcounters

/-- Settles O3, by the same invariant, in its part on the queue. -/
theorem stepConsumesOneCommand : Obligations.StepConsumesOneCommand := by
  unfold Obligations.StepConsumesOneCommand
  intro s t h
  obtain ⟨hqueue, -, -⟩ := step_keeps h
  exact hqueue

/-- Settles O1: it is how `step` reads a queue that is not empty. -/
theorem stepRunsFrontCommand : Obligations.StepRunsFrontCommand := by
  unfold Obligations.StepRunsFrontCommand
  intro c rest s
  rfl

/-- Settles O2, by the one clock tick of an idle step. -/
theorem idleStepTicks : Obligations.IdleStepTicks := by
  unfold Obligations.IdleStepTicks
  intro s hempty
  exact ⟨tick (answerSahith s), step_of_empty_queue hempty, rfl, hempty, rfl, rfl, tick_now_le (answerSahith s), rfl⟩

/-- Settles O7: each word is read off the state at reset. -/
theorem resetValues : Obligations.ResetValues := by
  unfold Obligations.ResetValues
  have hmemory : memoryCanonical State.reset := rfl
  have hword : bar0Word State.reset 0x30000 = 0x18210100005A0400 := by decide
  refine ⟨hmemory, rfl, rfl, rfl, hword, rfl, rfl, rfl, rfl, rfl, rfl, rfl, rfl, rfl, rfl, rfl, rfl, rfl, rfl, rfl, rfl, rfl,
    rfl, rfl, rfl, rfl, rfl, rfl, fun _ => rfl, rfl, rfl, rfl, rfl, rfl, rfl, fun _ => rfl⟩

end Sys2Proof.Proofs
end

section
/-!
PROOFS. Start-up in its phases, and the ways into recovery (18 R375 to R379, 19 R401).
-/
namespace Sys2Proof.Proofs

open Sys2Proof Sys2Proof.Machine Sys2Proof.Safety Sys2Proof.Laws

variable {s : State}

theorem exec_bootRom (sel : Bool) (s : State) : exec (.bootRom sel) s = .next (bootRom sel s) := rfl

theorem exec_firmwareVerify (s : State) : exec .firmwareVerify s = .next (firmwareVerify s) := rfl

theorem exec_pufRegenerate (correctable : Bool) (s : State) :
    exec (.pufRegenerate correctable) s = .next (pufRegenerate correctable s) := rfl

/-- What recovery with an error leaves, of whatever start-up had already noted (18 R375). -/
theorem recovers_of_recover {c : Instr} {error : Nat} {t : State} (hexec : exec c s = .next (recover error t))
    (hready : t.startup.ready = s.startup.ready) (hidentity : t.security.identityValid = s.security.identityValid)
    (hpower : t.power = s.power) (hframe : { t with startup := s.startup, security := s.security } = s) :
    Recovers c error s := by
  refine ⟨_, hexec, rfl, hready, rfl, hidentity, ?_, ?_⟩
  · simp [recover, withAlert, hpower, alertCause]
  · conv_rhs => rw [← hframe]
    rw [← hpower]
    rfl

/-! ### The mask ROM (18 R375) -/

theorem bootRom_boots (sel : Bool) (hphase : inPhase s 0 = true) (hfirst : s.startup.romDone = false)
    (hkey : s.flash.slots.any (keyAccepted s.flash) = true) :
    bootRom sel s = { s with startup := { s.startup with
      startedAt := s.clock.up, firstSlot := b2n sel, romDone := true, phase := 1 } } := by
  simp [bootRom, hphase, hfirst, hkey]

theorem bootRom_recovers (sel : Bool) (hphase : inPhase s 0 = true) (hfirst : s.startup.romDone = false)
    (hkey : s.flash.slots.any (keyAccepted s.flash) = false) :
    bootRom sel s = recover 1 { s with startup := { s.startup with
      startedAt := s.clock.up, firstSlot := b2n sel, romDone := true } } := by
  simp [bootRom, hphase, hfirst, hkey]

/-! ### The slots, the factory record and the replay-protected area (18 R375, R376, R378) -/

/-- The slot that boots: the first, or else the other. -/
def chosenSlot (f : Flash) (first : Nat) : Option Nat :=
  if slotAccepted f first then some first else if slotAccepted f (1 - first) then some (1 - first) else none

/-- The chosen slot noted, and its image measured. -/
def slotNoted (n : Nat) (s : State) : State :=
  let refused := n != s.startup.firstSlot
  let t := { s with
    security.slot := n
    security.otherRefused := refused
    security.refusedSvn := if refused then refusedForSvn s.flash s.startup.firstSlot else none
    security.fwSvn := ((s.flash.slots[n]?).map (·.svn)).getD 0 }
  extendMeas 0 (mgmtDigest s.flash) (extendMeas 0 (((s.flash.slots[n]?).map imageDigest).getD []) t)

/-- The limits of the factory record taken, and the record measured. -/
def recordTaken (s : State) : State :=
  let t := extendMeas 2 (padTo 32 [BitVec.ofNat 8 s.security.state]) (extendMeas 1 (recordDigest s.flash.record) s)
  { t with
    power.capW := s.flash.record.powerLimit
    power.dieThrottle := s.flash.record.dieThrottle
    power.hbmThrottle := s.flash.record.hbmThrottle
    startup.phase := 2 }

theorem firmwareVerify_of_bad_tag (hphase : inPhase s 1 = true) (htags : (s.flash.replay.all fun e => e.tagOk) = false) :
    firmwareVerify s = recover 5 s := by
  have hany : (s.flash.replay.any fun e => !e.tagOk) = true := by rw [← List.not_all_eq_any_not, htags]; rfl
  simp only [firmwareVerify, hphase, if_true, hany]

theorem firmwareVerify_of_no_slot (hphase : inPhase s 1 = true) (htags : (s.flash.replay.all fun e => e.tagOk) = true)
    (hnone : chosenSlot s.flash s.startup.firstSlot = none) :
    firmwareVerify s = recover 2 { s with security.otherRefused := true } := by
  have hany : (s.flash.replay.any fun e => !e.tagOk) = false := by rw [← List.not_all_eq_any_not, htags]; rfl
  unfold chosenSlot at hnone
  simp [firmwareVerify, hphase, hany, hnone]

theorem firmwareVerify_of_slot {n : Nat} (hphase : inPhase s 1 = true)
    (htags : (s.flash.replay.all fun e => e.tagOk) = true) (hsome : chosenSlot s.flash s.startup.firstSlot = some n) :
    firmwareVerify s =
      if recordAccepted s.flash s.flash.record then recordTaken (slotNoted n s) else recover 3 (slotNoted n s) := by
  have hany : (s.flash.replay.any fun e => !e.tagOk) = false := by rw [← List.not_all_eq_any_not, htags]; rfl
  unfold chosenSlot at hsome
  simp only [firmwareVerify, hphase, if_true, hany, hsome]
  cases recordAccepted s.flash s.flash.record <;> rfl

theorem chosenSlot_of_accepted {f : Flash} {first n : Nat}
    (hn : n = if slotAccepted f first then first else 1 - first) (haccepted : slotAccepted f n = true) :
    chosenSlot f first = some n := by
  unfold chosenSlot
  split at hn
  case isTrue h => rw [if_pos h, hn]
  case isFalse h => rw [if_neg h, ← hn, if_pos haccepted]

/-! ### The start-up phases -/

/-- Settles O8, phase by phase. -/
theorem startUpPhases : Obligations.StartUpPhases := by
  unfold Obligations.StartUpPhases
  refine ⟨fun s => ⟨?rom, ?verify, ?puf, ?hbm, ?lpddr⟩, fun s => ⟨?noKey, ?badTag, ?noSlot, ?badRecord, ?badSeed, ?badKey⟩⟩
  case rom =>
    intro sel hphase hfirst hkey
    rw [exec_bootRom, bootRom_boots sel hphase hfirst hkey]
  case verify =>
    intro n i hphase htags hn haccepted hslot hrecord
    refine ⟨recordTaken (slotNoted n s), ?_, rfl, rfl, rfl, ?_, rfl, rfl, rfl, rfl⟩
    · rw [exec_firmwareVerify, firmwareVerify_of_slot hphase htags (chosenSlot_of_accepted hn haccepted), if_pos hrecord]
    · simp [recordTaken, slotNoted, extendMeas, hslot]
  case puf =>
    intro hphase hkey
    simp [exec_pufRegenerate, pufRegenerate, hphase, hkey]
  case hbm =>
    intro hphase
    simp [exec, execHbmTraining, memoryTraining, hphase]
  case lpddr =>
    intro hphase
    simp [exec, execLpddrTraining, memoryTraining, hphase]
  case noKey =>
    intro sel hphase hfirst hkey
    have hexec := (exec_bootRom sel s).trans (congrArg _ (bootRom_recovers sel hphase hfirst hkey))
    exact recovers_of_recover hexec rfl rfl rfl rfl
  case badTag =>
    intro hphase htags
    exact recovers_of_recover (t := s) (by rw [exec_firmwareVerify, firmwareVerify_of_bad_tag hphase htags]) rfl rfl rfl rfl
  case noSlot =>
    intro hphase htags hfirst hother
    have hnone : chosenSlot s.flash s.startup.firstSlot = none := by simp [chosenSlot, hfirst, hother]
    have hexec := (exec_firmwareVerify s).trans (congrArg _ (firmwareVerify_of_no_slot hphase htags hnone))
    exact recovers_of_recover hexec rfl rfl rfl rfl
  case badRecord =>
    intro hphase htags hone hrecord
    have hsome : ∃ n, chosenSlot s.flash s.startup.firstSlot = some n := by
      unfold chosenSlot
      split
      · exact ⟨_, rfl⟩
      case isFalse hfirst =>
        rw [if_pos (by simpa [hfirst] using hone)]
        exact ⟨_, rfl⟩
    obtain ⟨n, hchosen⟩ := hsome
    have hexec : exec .firmwareVerify s = .next (recover 3 (slotNoted n s)) := by
      rw [exec_firmwareVerify, firmwareVerify_of_slot hphase htags hchosen, hrecord]
      rfl
    exact recovers_of_recover hexec rfl rfl rfl rfl
  case badSeed =>
    intro hphase
    exact recovers_of_recover (t := s) (by simp [exec_pufRegenerate, pufRegenerate, hphase]) rfl rfl rfl rfl
  case badKey =>
    intro hphase hkey
    exact recovers_of_recover (t := s) (by simp [exec_pufRegenerate, pufRegenerate, hphase, hkey]) rfl rfl rfl rfl

end Sys2Proof.Proofs
end

section
/-!
PROOFS. The Lamio ports trained, and the self-test before it (14 R296, R314, 15 R326, 19 R401, R403).
-/
namespace Sys2Proof.Proofs

open Sys2Proof Sys2Proof.Machine Sys2Proof.Safety Sys2Proof.Laws

variable {s t u : State}

theorem port_setPort_same (p : Nat) (f : Port → Port) (s : State) : port (setPort p f s) p = f (port s p) := tget_tmod_same ..

theorem port_setPort_other {p q : Nat} (h : q ≠ p) (f : Port → Port) (s : State) : port (setPort p f s) q = port s q :=
  tget_tmod_other _ _ _ h

/-! ### What training a port can change -/

/-- From `s` to `t` only the ports, PORTS_UP and notices have changed. -/
def Rewires (s t : State) : Prop :=
  t = { s with
    lamio.ports := t.lamio.ports, startup.portsUp := t.startup.portsUp, host := t.host, sheaf := t.sheaf, out := t.out }

theorem Rewires.refl (s : State) : Rewires s s := rfl

theorem Rewires.trans (a : Rewires s t) (b : Rewires t u) : Rewires s u := by
  unfold Rewires at *; rw [b, a]

theorem Rewires.of_noted (h : Noted s t) : Rewires s t := by
  unfold Rewires Noted at *; rw [h]

section

variable (h : Rewires s u)
include h

theorem Rewires.setPort (p : Nat) (f : Port → Port) : Rewires s (setPort p f u) := h.trans rfl

theorem Rewires.notePorts : Rewires s (notePorts u) := h.trans rfl

theorem Rewires.raise (c d : Nat) : Rewires s (raise c d u) := h.trans (.of_noted (noted_raise c d u))

theorem Rewires.takeDown (p : Nat) (m : W16) : Rewires s (takeDown p m u) := by
  unfold Machine.takeDown
  dsimp only
  split
  · exact (h.setPort ..).notePorts.raise ..
  · exact (h.setPort ..).notePorts

theorem Rewires.trainWidth (p : Nat) (m : W16) : Rewires s (trainWidth p m u) := by
  unfold Machine.trainWidth
  dsimp only
  split
  · exact h.takeDown ..
  split
  · exact (h.setPort ..).notePorts
  · exact (h.setPort ..).notePorts.raise ..

theorem Rewires.holdLink (p : Nat) (farOk : Bool) : Rewires s (holdLink p farOk u) := by
  unfold Machine.holdLink
  split
  · exact h.setPort ..
  split
  · exact h
  · exact (h.setPort ..).raise ..

theorem Rewires.trainPort (p : Nat) (m : W16) (farOk : Bool) : Rewires s (trainPort p m farOk u) :=
  (h.trainWidth ..).holdLink ..

end

/-! ### The lanes of a port -/

/-- The ports have in `t` the widths and lane masks of `s`. -/
def SameLanes (s t : State) : Prop := ∀ p, (port t p).width = (port s p).width ∧ (port t p).mask = (port s p).mask

theorem SameLanes.refl (s : State) : SameLanes s s := fun _ => ⟨rfl, rfl⟩

theorem SameLanes.trans (a : SameLanes s t) (b : SameLanes t u) : SameLanes s u :=
  fun p => ⟨(b p).1.trans (a p).1, (b p).2.trans (a p).2⟩

theorem SameLanes.of_ports (h : t.lamio.ports = s.lamio.ports) : SameLanes s t := fun p => by
  unfold port; rw [h]; exact ⟨rfl, rfl⟩

theorem ports_raise (c d : Nat) (s : State) : (raise c d s).lamio.ports = s.lamio.ports := by rw [raise_eq]

theorem sameLanes_setPort {f : Port → Port} (hf : ∀ x, (f x).width = x.width ∧ (f x).mask = x.mask) (p : Nat) (s : State) :
    SameLanes s (setPort p f s) := fun q => by
  by_cases hq : q = p
  · rw [hq, port_setPort_same]; exact hf _
  · rw [port_setPort_other hq]; exact ⟨rfl, rfl⟩

theorem sameLanes_holdLink (p : Nat) (farOk : Bool) (s : State) : SameLanes s (holdLink p farOk s) := by
  unfold holdLink
  split
  · exact sameLanes_setPort (f := fun q => { q with heldDown := false }) (fun _ => ⟨rfl, rfl⟩) p s
  split
  · exact .refl s
  · refine SameLanes.trans ?_ (.of_ports (ports_raise ..))
    exact sameLanes_setPort (f := fun q => { q with heldDown := true }) (fun _ => ⟨rfl, rfl⟩) p s

/-- Each port below `n` is, once all have been set in turn, what it was set to. -/
theorem port_setPorts {P : Nat → Port → Prop} {g : State → Nat → Port → Port} (hg : ∀ t p x, P p (g t p x)) {n q : Nat}
    (hq : q < n) (s : State) : P q (port ((List.range n).foldl (fun t p => setPort p (g t p) t) s) q) := by
  induction n with
  | zero => exact absurd hq (Nat.not_lt_zero q)
  | succ n ih =>
    rw [List.range_succ, List.foldl_append, List.foldl_cons, List.foldl_nil]
    by_cases hn : q = n
    · rw [hn, port_setPort_same]
      exact hg ..
    · rw [port_setPort_other hn]
      exact ih (by omega)

/-! ### Ready (19 R403) -/

/-- MODULE_READY, and an event for each unit that the self-test retired. -/
def unitEvents (s : State) : State :=
  let none32 : W32 := BitVec.allOnes 32
  let s := raise evModuleReady (readyDetail s) s
  let s := (sortNat s.startup.bistCores).foldl (fun s c => raise evCoreRetired (coreRetiredDetail c 0 2 none32) s) s
  let s := (sortNat s.startup.bistGleaners).foldl (fun s c => raise evCoreRetired (coreRetiredDetail c 1 2 none32) s) s
  let s := (sortNat s.startup.bistRollers).foldl (fun s c => raise evCoreRetired (coreRetiredDetail c 2 5 none32) s) s
  (sortNat s.startup.bistHarrows).foldl (fun s c => raise evHarrowRetired (harrowRetiredDetail c 2 none32) s) s

theorem noted_unitEvents (s : State) : Noted s (unitEvents s) := by
  have hraises : ∀ (code : Nat) (detail : Nat → Nat) (l : List Nat) (u : State),
      Noted u (l.foldl (fun s c => raise code (detail c) s) u) :=
    fun code detail l u => .foldl (fun t x => noted_raise code (detail x) t) l u
  unfold unitEvents
  refine .trans ?_ (hraises ..)
  refine .trans ?_ (hraises ..)
  refine .trans ?_ (hraises ..)
  exact .trans (noted_raise ..) (hraises ..)

/-- The events at ready touch what notices touch, and the two reports that they answer. -/
theorem readyEvents_eq (s : State) : readyEvents s = { s with
    host := (readyEvents s).host, sheaf := (readyEvents s).sheaf, out := (readyEvents s).out
    security.changedFrom := none, security.refusedSvn := none } := by
  have hevents : ∃ t, Noted s t ∧ readyEvents s = { t with security.changedFrom := none, security.refusedSvn := none } := by
    refine ⟨_, ?_, rfl⟩
    have hunits := noted_unitEvents s
    split
    all_goals split
    · exact (hunits.trans (noted_raise ..)).trans (noted_raise ..)
    · exact hunits.trans (noted_raise ..)
    · exact hunits.trans (noted_raise ..)
    · exact hunits
  obtain ⟨t, hnoted, heq⟩ := hevents
  rw [heq, hnoted]

/-- The ports at the widths of their lanes, noted in PORTS_UP. -/
def portsTrained (masks : List W16) (s : State) : State :=
  notePorts ((List.range 8).foldl (fun t p =>
    setPort p (fun q => { q with width := widthOf (masks.getD p 0), mask := masks.getD p 0, triedAt := t.clock.up }) t) s)

/-- Phase 7 reached, before the events. -/
def madeReady (s : State) : State :=
  raiseCounters { s with
    startup.elapsed := some ((s.clock.up - s.startup.startedAt) / 1000000), startup.phase := 7, startup.ready := true }

/-- Every port that is up held down or released by what stands at its far end. -/
def linksHeld (farOk : List Bool) (s : State) : State :=
  (List.range 8).foldl (fun s p => if (port s p).width = 0 then s else holdLink p (farOk.getD p true) s) s

theorem rewires_linksHeld (farOk : List Bool) (s : State) : Rewires s (linksHeld farOk s) :=
  foldl_inv (p := Rewires s) (fun t p h => by split; exacts [h, h.holdLink ..]) _ (.refl s)

theorem sameLanes_linksHeld (farOk : List Bool) (s : State) : SameLanes s (linksHeld farOk s) :=
  foldl_inv (p := SameLanes s) (fun t p h => by split; exacts [h, h.trans (sameLanes_holdLink _ _ t)]) _ (.refl s)

theorem lamioTraining_eq {masks : List W16} {farOk : List Bool} (hphase : inPhase s 6 = true) :
    lamioTraining masks farOk s = linksHeld farOk (readyEvents (madeReady (portsTrained masks s))) := by
  unfold lamioTraining
  rw [if_pos hphase]
  rfl

theorem rewires_portsTrained (masks : List W16) (s : State) : Rewires s (portsTrained masks s) :=
  (foldl_inv (p := Rewires s) (fun _ _ h => h.setPort ..) _ (.refl s)).notePorts

theorem port_portsTrained (masks : List W16) {p : Nat} (h : p < 8) (s : State) :
    (port (portsTrained masks s) p).width = widthOf (masks.getD p 0) ∧ (port (portsTrained masks s) p).mask = masks.getD p 0 :=
  port_setPorts (P := fun p x => x.width = widthOf (masks.getD p 0) ∧ x.mask = masks.getD p 0)
    (g := fun t p q => { q with width := widthOf (masks.getD p 0), mask := masks.getD p 0, triedAt := t.clock.up })
    (fun _ _ _ => ⟨rfl, rfl⟩) h s

/-- Settles O9: the self-test on its row, and the training as its four parts, each with what it can change. -/
theorem selfTestAndReady : Obligations.SelfTestAndReady := by
  unfold Obligations.SelfTestAndReady
  refine fun s => ⟨fun cores harrows gleaners rollers hphase => ?selfTest, fun masks farOk hphase => ?ready⟩
  case selfTest =>
    have hexec : exec (.builtInSelfTest cores harrows gleaners rollers) s = .next (selfTestAll cores harrows gleaners rollers s) := rfl
    rw [hexec, selfTestAll, if_pos hphase]
    exact ⟨_, rfl, rfl, rfl, rfl, rfl, rfl, rfl, rfl⟩
  case ready =>
    have hexec : exec (.lamioTraining masks farOk) s = .next (lamioTraining masks farOk s) := rfl
    rw [hexec, lamioTraining_eq hphase]
    have hports := rewires_portsTrained masks s
    have hevents := readyEvents_eq (madeReady (portsTrained masks s))
    have hheld := rewires_linksHeld farOk (readyEvents (madeReady (portsTrained masks s)))
    have hlanes : SameLanes (portsTrained masks s) (linksHeld farOk (readyEvents (madeReady (portsTrained masks s)))) :=
      SameLanes.trans (.of_ports (by rw [hevents]; rfl)) (sameLanes_linksHeld farOk _)
    unfold Rewires at hports hheld
    refine ⟨_, rfl, ?_, ?_, ?_, fun p hp => ?_, ?_, ?_⟩
    · rw [hheld, hevents]; rfl
    · rw [hheld, hevents]; rfl
    · rw [hheld, hevents, madeReady, hports]; rfl
    · obtain ⟨hwidth, hmask⟩ := hlanes p
      obtain ⟨hwidth', hmask'⟩ := port_portsTrained masks hp s
      exact ⟨hwidth.trans hwidth', hmask.trans hmask'⟩
    · rw [hheld, hevents, madeReady, hports]; rfl
    · rw [hheld, hevents, madeReady, hports]; rfl

end Sys2Proof.Proofs
end

section
/-!
PROOFS. Register writes of BAR0 (20 R410 to R412, R416) and the security mailbox (18 R375, R379 to R381, 20 R425).
-/
namespace Sys2Proof.Proofs

open Sys2Proof Sys2Proof.Machine Sys2Proof.Safety Sys2Proof.Laws

variable {s : State}

/-! ### The time fields (20 R416) -/

theorem isMaster_of_isLead (h : s.isLead = true) : s.holding.isMaster = true := by
  simp only [State.isLead, Bool.and_eq_true] at h
  obtain ⟨⟨⟨-, hmaster⟩, -⟩, -⟩ := h
  exact hmaster

theorem hostControls_of_isLead (h : s.isLead = true) : hostControls s = true :=
  hostControls_of_isMaster (isMaster_of_isLead h)

theorem exec_timeOffset (v : W64) (s : State) : exec (.timeOffset v) s = execTimeOffset v s := rfl

theorem exec_timeRate (v : W32) (s : State) : exec (.timeRate v) s = execTimeRate v s := rfl

/-- Settles O15, by whether the module is the run lead master. -/
theorem timeFieldsActOnTheLead : Obligations.TimeFieldsActOnTheLead := by
  unfold Obligations.TimeFieldsActOnTheLead
  refine fun s => ⟨fun v hlead => ?_, fun v hlead hrange => ?_, fun v hlead hrange => ?_, fun v hlead => ?_,
    fun v hlead => ?_, fun lead hlead hassigned => ?_⟩
  · simp [exec_timeOffset, execTimeOffset, hlead, hostControls_of_isLead hlead]
  · simp only [exec_timeRate, execTimeRate, hlead, hostControls_of_isLead hlead, hrange, decide_true, Bool.and_self, if_true]
  · simp only [exec_timeRate, execTimeRate, Nat.not_le.2 hrange, decide_false, Bool.and_false, Bool.false_eq_true, if_false]
  · simp [exec_timeOffset, execTimeOffset, hlead]
  · simp [exec_timeRate, execTimeRate, hlead]
  · obtain ⟨t, hexec, hclock, -⟩ := timestampSync_taken hassigned hlead lead
    refine ⟨t, hexec, ?_⟩
    rw [hclock]
    show (s.clock.now : Int) + ((lead.toNat : Int) - (s.clock.now : Int)) = lead.toNat
    omega

/-! ### Register writes (20 R410 to R412) -/

theorem exec_registerWrite (offset len : Nat) (v : W64) (s : State) :
    exec (.registerWrite offset len v) s = execRegisterWrite offset len v s := rfl

theorem keepFields_eq (s : State) : keepFields s = { s with holding.before := (keepFields s).holding.before } := by
  unfold keepFields
  split <;> rfl

/-- A write of holding scope is told, or not; either way nothing else of the state written changes. -/
theorem forwardSetup_noted (offset len : Nat) (v : W64) (b t : State) :
    forwardSetup offset len v b t =
      { t with sheaf := (forwardSetup offset len v b t).sheaf, out := (forwardSetup offset len v b t).out } := by
  unfold forwardSetup
  dsimp only
  split
  · rw [sendHedge_eq]
  · rfl

/-- A register outside holding scope is the module's own: its write is told to no one. -/
theorem forwardSetup_own {offset : Nat} (h : holdingScope (offset / 8 * 8) = false) (len : Nat) (v : W64) (b t : State) :
    forwardSetup offset len v b t = t := by
  simp [forwardSetup, h]

theorem registerWrite_taken {offset : Nat} (hcontrols : hostControls s = true) (haligned : accessOk offset 8 = true) (v : W64) :
    exec (.registerWrite offset 8 v) s = .next (forwardSetup offset 8 v s (writeRegister offset 8 v.toNat s)) := by
  simp [exec_registerWrite, execRegisterWrite, haligned, hcontrols]

theorem registerWrite_own {offset : Nat} (hcontrols : hostControls s = true) (haligned : accessOk offset 8 = true)
    (hown : holdingScope (offset / 8 * 8) = false) (v : W64) :
    exec (.registerWrite offset 8 v) s = .next (writeOtherWord (offset / 8 * 8) v.toNat (keepFields s)) := by
  rw [registerWrite_taken hcontrols haligned, forwardSetup_own hown, writeRegister, mergeWord_whole, hown]
  rfl

theorem writeRegister_numericsWord (v : W64) (s : State) :
    writeRegister 0x40000 8 v.toNat s = { keepFields s with numerics := writeNumericsWord v.toNat (keepFields s).numerics } := by
  simp [writeRegister, holdingScope, writeHoldingWord]

/-- A field of the registers kept where the value is out of its range. -/
theorem ofNat_inRange_zero {w : Nat} (hi x : Nat) (old : BitVec w) :
    BitVec.ofNat w (inRange 0 hi x old.toNat) = if x ≤ hi then BitVec.ofNat w x else old := by
  unfold inRange
  simp only [Nat.zero_le, true_and]
  split
  · rfl
  · rw [BitVec.ofNat_toNat, BitVec.setWidth_eq]

/-- An enabled event ring is not started again by a write that leaves ENABLE. -/
theorem enableEvents_of_same {t : State} {was : Bool} (h : t.host.ctx.eventEnable = was) : enableEvents was t = t := by
  cases was <;> simp [enableEvents, h]

/-- A word of the host context that leaves ENABLE of the event ring as it stands is written and does no more. -/
theorem writeOtherWord_hostContext {o v : Nat} (ho : o / 0x10000 = 1) (hw : o % 0x10000 < 0x40)
    (henable : (writeHostContext (o % 0x10000 / 8) v s.host.ctx).eventEnable = s.host.ctx.eventEnable) :
    writeOtherWord o v s = { s with host.ctx := writeHostContext (o % 0x10000 / 8) v s.host.ctx } := by
  simp only [writeOtherWord, ho, hw, if_true]
  exact enableEvents_of_same henable

/-- Settles O14: by who controls the setup, and then by the word the offset names. -/
theorem registerWrites : Obligations.RegisterWrites := by
  unfold Obligations.RegisterWrites
  refine fun s v => ⟨fun hcontrols => ⟨?fields, ?doorbell, ?window, ?select, fun hlock => ?locked, fun hlock => ?report, ?memory,
    ?numerics⟩, fun offset len haccess => ?misaligned, fun hcontrols => ⟨?data, fun offset len hoffset => ?other⟩⟩
  case fields => rw [keepFields_eq]
  case doorbell =>
    rw [registerWrite_own hcontrols rfl rfl]
    rw [writeOtherWord_hostContext rfl (by decide) rfl]
    simp [writeHostContext]
  case window =>
    rw [registerWrite_own hcontrols rfl rfl]
    rw [writeOtherWord_hostContext rfl (by decide) rfl]
    simp [writeHostContext]
  case select =>
    rw [registerWrite_own hcontrols rfl rfl]
    rfl
  case locked =>
    have hlock' : (keepFields s).holding.setupLock = true := by rw [keepFields_eq]; exact hlock
    rw [registerWrite_own hcontrols rfl rfl]
    simp [writeOtherWord, hlock']
  case report =>
    have hlock' : (keepFields s).holding.setupLock = false := by rw [keepFields_eq]; exact hlock
    rw [registerWrite_own hcontrols rfl rfl]
    simp [writeOtherWord, hlock']
  case memory =>
    rw [registerWrite_taken hcontrols rfl, writeRegister_memWord]
    refine ⟨_, rfl, ?_, ?_, ?_⟩
    all_goals rw [forwardSetup_noted, keepFields_eq]
  case numerics =>
    rw [registerWrite_taken hcontrols rfl, writeRegister_numericsWord]
    refine ⟨_, rfl, ?_, ?_⟩
    · rw [forwardSetup_noted, keepFields_eq]
      simp only [writeNumericsWord, ofNat_inRange_zero]
    · rw [forwardSetup_noted, keepFields_eq]
  case misaligned => simp [exec_registerWrite, execRegisterWrite, haccess]
  case data =>
    rw [exec_registerWrite, execRegisterWrite, if_pos (show accessOk 0x10030 8 = true from rfl), hcontrols]
    simp [writeDataChannel]
  case other => simp [exec_registerWrite, execRegisterWrite, hcontrols, hoffset]

/-! ### Nonces and security requests (18 R381, 20 R425) -/

/-- A nonce used up: nothing of security but the nonce changes. -/
theorem useNonce_eq (s : State) : useNonce s = { s with security := { s.security with
    nonce := (useNonce s).security.nonce, nonceIssued := (useNonce s).security.nonceIssued
    nonceAt := (useNonce s).security.nonceAt, nonceBefore := (useNonce s).security.nonceBefore } } := by
  unfold useNonce
  split <;> rfl

theorem nonceNow_useNonce (s : State) : nonceNow (useNonce s) = none := by
  by_cases h : s.security.nonceAt = some s.clock.up <;> simp [useNonce, nonceNow, withdrawNonce, h]

theorem nonceIssued_useNonce (h : s.security.nonceAt ≠ some s.clock.up) : (useNonce s).security.nonceIssued = false := by
  simp [useNonce, withdrawNonce, h]

/-- The request carries the nonce that stands. -/
def requestCurrent (s : State) (req : Bytes) : Bool := nonceNow s == some (digestBits (slice req 8 32))

section

variable {req : Bytes}

theorem securityRequest_stale (h : requestCurrent s req = false) :
    securityRequest req s = { useNonce s with security.result := 3 } := by
  unfold requestCurrent at h
  simp [securityRequest, h]

theorem securityRequest_present (h : requestCurrent s req = true) (htarget : byteAt req 0 = s.security.state) :
    securityRequest req s = { useNonce s with security.result := 1, security.pending := 3 } := by
  unfold requestCurrent at h
  simp [securityRequest, h, htarget]

theorem securityRequest_accepted (h : requestCurrent s req = true) (htarget : byteAt req 0 ≠ s.security.state)
    (hauth : authGood s (byteAt req 0) req = true) :
    securityRequest req s =
      extendMeas 2 (sha256 (authMessage s.flash (BitVec.ofNat 8 (byteAt req 0)) (slice req 8 32)))
        { useNonce s with security.result := 1, security.pending := byteAt req 0 } := by
  unfold requestCurrent at h
  simp [securityRequest, h, htarget, hauth]

theorem securityRequest_refused (h : requestCurrent s req = true) (htarget : byteAt req 0 ≠ s.security.state)
    (hauth : authGood s (byteAt req 0) req = false) :
    securityRequest req s = { useNonce s with security.result := 2 } := by
  unfold requestCurrent at h
  simp [securityRequest, h, htarget, hauth]

/-- Whatever its answer, a request uses the nonce up, keeps the present state, and touches security alone. -/
theorem securityRequest_spec (req : Bytes) (s : State) : nonceNow (securityRequest req s) = none ∧
    (securityRequest req s).security.nonceIssued = (useNonce s).security.nonceIssued ∧
    (securityRequest req s).security.state = s.security.state ∧ { securityRequest req s with security := s.security } = s := by
  have hnow := nonceNow_useNonce s
  have hstate : (useNonce s).security.state = s.security.state := by rw [useNonce_eq]
  have hframe : { useNonce s with security := s.security } = s := by rw [useNonce_eq]
  cases h : requestCurrent s req with
  | false => rw [securityRequest_stale h]; exact ⟨hnow, rfl, hstate, hframe⟩
  | true =>
    by_cases htarget : byteAt req 0 = s.security.state
    · rw [securityRequest_present h htarget]; exact ⟨hnow, rfl, hstate, hframe⟩
    cases hauth : authGood s (byteAt req 0) req with
    | false => rw [securityRequest_refused h htarget hauth]; exact ⟨hnow, rfl, hstate, hframe⟩
    | true => rw [securityRequest_accepted h htarget hauth]; exact ⟨hnow, rfl, hstate, hframe⟩

end

theorem exec_requestGo (s : State) :
    exec .requestGo s = .next (if hostControls s then securityRequest (requestArea s) s else s) := rfl

theorem exec_recoveryImageLoad (n : Nat) (i : FirmwareImage) (s : State) :
    exec (.recoveryImageLoad n i) s = execRecoveryImageLoad n i s := rfl

theorem exec_factoryServiceWrite (x : ServiceItem) (s : State) :
    exec (.factoryServiceWrite x) s = execFactoryServiceWrite x s := rfl

/-- Settles O10: the request by the four answers it can have, the other rows by their conditions. -/
theorem securityCommands : Obligations.SecurityCommands := by
  unfold Obligations.SecurityCommands
  refine fun s => ⟨fun hcontrols => ?nonce, fun hcontrols => ?request, fun n i hn hrecovery haux hruns hrefused => ?slot,
    fun i haux hruns => ?firmware, fun n i hfactory => ?factorySlot, fun r hfactory hkey hsigned => ?record,
    fun x hfactory => ?sealed⟩
  case nonce =>
    show Host.Outcome.next (if hostControls s then issueNonce s else s) = _
    rw [if_pos hcontrols]
    rfl
  case request =>
    obtain ⟨hnow, hissued, hstate, hframe⟩ := securityRequest_spec (requestArea s) s
    refine ⟨_, by rw [exec_requestGo, if_pos hcontrols], hnow, fun h => hissued.trans (nonceIssued_useNonce h), hstate,
      fun h => ?_, fun h htarget => ?_, fun h htarget hauth => ?_, fun h htarget hauth => ?_, hframe⟩
    · rw [securityRequest_stale h, useNonce_eq]; exact ⟨rfl, rfl, rfl⟩
    · rw [securityRequest_present h htarget, useNonce_eq]; exact ⟨rfl, rfl, rfl⟩
    · rw [securityRequest_accepted h htarget hauth]; simp only [extendMeas, and_self]
    · rw [securityRequest_refused h htarget hauth, useNonce_eq]; exact ⟨rfl, rfl, rfl⟩
  case slot =>
    have hmgmt : n ≠ 2 := by omega
    simp [exec_recoveryImageLoad, execRecoveryImageLoad, hmgmt, hrecovery, haux, hruns, hrefused]
  case firmware => simp [exec_recoveryImageLoad, execRecoveryImageLoad, haux, hruns]
  case factorySlot => simp [exec_factoryServiceWrite, execFactoryServiceWrite, hfactory]
  case record =>
    have haccepted : (r.pubKey == s.flash.rootKey && verifies s.flash r.pubKey (recordMessage r) r.sig) = true := by
      rw [hsigned, hkey, BEq.rfl]; rfl
    rw [exec_factoryServiceWrite, execFactoryServiceWrite, if_pos hfactory]
    exact congrArg Host.Outcome.next (if_pos haccepted)
  case sealed => simp [exec_factoryServiceWrite, execFactoryServiceWrite, hfactory]

end Sys2Proof.Proofs
end

section
/-!
PROOFS. The supplies and their pins (19 R388, R390 to R392, R400), and the management port (19 R406 to R408).
-/
namespace Sys2Proof.Proofs

open Sys2Proof Sys2Proof.Machine Sys2Proof.Safety Sys2Proof.Laws

variable {s : State}

/-! ### Main power started, kept and lost -/

/-- The supplies and pins on which main power starts (19 R391). -/
def powerStarts (p : Power) : Bool := p.pwrEn && decide (4000 ≤ p.volts) && p.aux && !p.tripLow && !p.offByMgmt

/-- From power `p`, main power is as it was, or starts; the pins and supplies stay; nothing outside power changes but the time
of start. -/
theorem startPower_spec (p : Power) (s : State) :
    (startPower { s with power := p }).power.pwrGood = (p.pwrGood || powerStarts p) ∧
    (startPower { s with power := p }).power = { p with
      pwrGood := (startPower { s with power := p }).power.pwrGood, alert := (startPower { s with power := p }).power.alert
      inputLow := (startPower { s with power := p }).power.inputLow } ∧
    (startPower { s with power := p }).out = s.out ∧
    { startPower { s with power := p } with power := s.power, startup.startedAt := s.startup.startedAt } = s := by
  unfold startPower powerStarts
  dsimp only
  split
  case isTrue h =>
    simp only [Bool.and_eq_true, Bool.not_eq_true'] at h
    obtain ⟨⟨⟨⟨⟨hen, hvolts⟩, haux⟩, htrip⟩, hoff⟩, hgood⟩ := h
    exact ⟨by simp [withInputLow, withAlert, hen, hvolts, haux, htrip, hoff], rfl, rfl, rfl⟩
  case isFalse h =>
    refine ⟨?_, rfl, rfl, rfl⟩
    show p.pwrGood = _
    cases hgood : p.pwrGood with
    | true => rfl
    | false =>
      rw [hgood, Bool.not_false, Bool.and_true, Bool.not_eq_true] at h
      rw [h]
      rfl

/-- What a shutdown leaves of power (19 R392). -/
def powerLost (p : Power) (s : State) : Power := (withInputLow (coldLoss { s with power := p })).power

/-- A shutdown of a running module is, but for power, a module reset (19 R392). -/
theorem shutdown_of_good {p : Power} (hgood : p.pwrGood = true) :
    shutdown { s with power := p } = { moduleLevel s with power := powerLost p s } := by
  rw [shutdown, if_pos hgood]
  rfl

/-- A command shuts the module down that leaves a module reset behind, with main power and the link off. -/
theorem shutsDown_of_moduleLevel {c : Instr} {p : Power} (hexec : exec c s = .next { moduleLevel s with power := p })
    (hgood : p.pwrGood = false) (hlink : p.linkUp = false) : ShutsDown c s :=
  ⟨_, hexec, hgood, hlink, rfl, rfl, rfl, rfl, rfl, rfl⟩

/-- Removal of the 48 V releases THERM_TRIP_N and touches nothing else. -/
theorem releaseOnRemoval_eq (s : State) : releaseOnRemoval s =
    { s with power := { s.power with tripLow := (releaseOnRemoval s).power.tripLow } } := by
  unfold releaseOnRemoval
  split <;> rfl

theorem exec_pwrEnAssert (s : State) : exec .pwrEnAssert s =
    .next (startPower { s with power.pwrEn := true, power.pwrEnLowAt := none }) := rfl

theorem exec_inputPowerApplied (volts : Nat) (s : State) : exec (.inputPowerApplied volts) s =
    .next (startPower { s with power.volts := volts }) := rfl

theorem exec_aux3v3Applied (s : State) : exec .aux3v3Applied s = .next (startPower { s with power.aux := true }) := rfl

theorem exec_hostLinkUp (s : State) : exec .hostLinkUp s = execHostLinkUp s := rfl

theorem exec_thermTripNRelease (s : State) : exec .thermTripNRelease s = execThermTripNRelease s := rfl

theorem exec_pwrEnDeassert (s : State) : exec .pwrEnDeassert s =
    .next (shutdown { s with power.pwrEn := false, power.pwrEnLowAt := some s.clock.up }) := rfl

theorem exec_inputUndervoltage (volts : Nat) (s : State) : exec (.inputUndervoltage volts) s =
    .next (releaseOnRemoval (if volts < 3800 then shutdown { s with power.volts := volts }
      else withInputLow { s with power.volts := volts })) := rfl

theorem exec_inputOvervoltage (volts : Nat) (s : State) : exec (.inputOvervoltage volts) s =
    .next (if 6300 < volts then shutdown { s with power.volts := volts } else withInputLow { s with power.volts := volts }) := rfl

/-- Once its reason to stand low has gone, THERM_TRIP_N is released; released already, it stays so. -/
theorem thermTripNRelease_released (h : s.power.volts = 0 ∨
    ∃ since, s.power.pwrEn = false ∧ s.power.pwrEnLowAt = some since ∧ since + ms 100 ≤ s.clock.up) :
    exec .thermTripNRelease s = .next { s with power.tripLow := false } := by
  rw [exec_thermTripNRelease]
  cases htrip : s.power.tripLow with
  | false =>
    have hsame : { s with power.tripLow := false } = s := by rw [← htrip]
    rw [hsame]
    simp [execThermTripNRelease, htrip]
  | true =>
    obtain hvolts | ⟨since, hen, hlow, htime⟩ := h
    · simp [execThermTripNRelease, htrip, hvolts]
    · simp [execThermTripNRelease, htrip, hen, hlow, htime]

/-- Settles O11: what starts main power through `startPower`, what ends it through `shutdown`. -/
theorem suppliesAndPins : Obligations.SuppliesAndPins := by
  unfold Obligations.SuppliesAndPins
  refine ⟨fun s => ⟨?enable, fun volts => ?input, ?aux, rfl, fun level => rfl, fun hgood => ?link, fun since hen hlow htime => ?cool,
    fun hvolts => ?removed⟩, fun s hgood => ⟨?disable, fun volts hlow => ?low, fun volts hhigh => ?high,
    fun volts hvolts => ?notLow, fun volts hvolts hlimit => ?notHigh⟩⟩
  case enable =>
    obtain ⟨hstart, hpower, -, hframe⟩ := startPower_spec { s.power with pwrEn := true, pwrEnLowAt := none } s
    exact ⟨_, exec_pwrEnAssert s, by rw [hpower], by rw [hpower], by rw [hstart]; simp [powerStarts], hframe⟩
  case input =>
    obtain ⟨hstart, hpower, -, hframe⟩ := startPower_spec { s.power with volts := volts } s
    exact ⟨_, exec_inputPowerApplied volts s, by rw [hpower], hstart, hframe⟩
  case aux =>
    obtain ⟨hstart, hpower, -, hframe⟩ := startPower_spec { s.power with aux := true } s
    exact ⟨_, exec_aux3v3Applied s, by rw [hpower], by rw [hstart]; simp [powerStarts], hframe⟩
  case link => rw [exec_hostLinkUp, execHostLinkUp, if_pos hgood]
  case cool => exact thermTripNRelease_released (.inr ⟨since, hen, hlow, htime⟩)
  case removed => exact thermTripNRelease_released (.inl hvolts)
  case disable =>
    exact shutsDown_of_moduleLevel ((exec_pwrEnDeassert s).trans (congrArg _ (shutdown_of_good hgood))) rfl rfl
  case low =>
    have hexec := exec_inputUndervoltage volts s
    rw [if_pos hlow, shutdown_of_good (p := { s.power with volts := volts }) hgood, releaseOnRemoval_eq] at hexec
    exact shutsDown_of_moduleLevel hexec rfl rfl
  case high =>
    have hexec := exec_inputOvervoltage volts s
    rw [if_pos hhigh, shutdown_of_good (p := { s.power with volts := volts }) hgood] at hexec
    exact shutsDown_of_moduleLevel hexec rfl rfl
  case notLow =>
    have hexec := exec_inputUndervoltage volts s
    rw [if_neg (Nat.not_lt.2 hvolts), releaseOnRemoval_eq] at hexec
    refine ⟨_, hexec, hgood, rfl, ?_, rfl⟩
    show (s.power.pwrGood && decide (3800 ≤ volts) && decide (volts < 4000)) = _
    rw [hgood, decide_eq_true hvolts]
    rfl
  case notHigh =>
    have hexec := exec_inputOvervoltage volts s
    rw [if_neg (Nat.not_lt.2 hlimit)] at hexec
    exact ⟨_, hexec, hgood, rfl, rfl⟩

/-! ### The management port (19 R406 to R408) -/

/-- A response leaves by the management port alone. -/
theorem mgmtRespond_eq (code status : Nat) (body : Bytes) (s : State) : mgmtRespond code status body s =
    { s with out.mgmt := s.out.mgmt ++ [(code + 0x80, BitVec.ofNat 8 status :: body)] } := rfl

theorem withPower_malformed {code n : Nat} {body : Bytes} (f : State → State) (htakes : mgmtTakes s = true)
    (hlen : body.length ≠ n) : withPower code n body f s = mgmtRespond code mgMalformed [] s := by
  simp [withPower, htakes, hlen]

theorem withPower_off {code n : Nat} {body : Bytes} (f : State → State) (htakes : mgmtTakes s = true) (hlen : body.length = n)
    (hoff : s.power.pwrGood = false) : withPower code n body f s = mgmtRespond code mgPowerOff [] s := by
  simp [withPower, htakes, hlen, hoff]

/-- Each message is one that needs main power, or one that is answered without it. -/
theorem mgmtRow_cases {row : Bytes → Instr} {code n : Nat} {power : Bool} (hrow : (row, code, n, power) ∈ mgmtRows)
    (htakes : mgmtTakes s = true) (body : Bytes) :
    (∃ f, exec (row body) s = .next (withPower code n body f s)) ∨
    (power = false ∧ n = 0 ∧ (body.length ≠ 0 → exec (row body) s = .next (mgmtRespond code mgMalformed [] s))) := by
  simp only [mgmtRows, List.mem_cons, Prod.mk.injEq, List.not_mem_nil, or_false] at hrow
  obtain ⟨rfl, rfl, rfl, rfl⟩ | ⟨rfl, rfl, rfl, rfl⟩ | ⟨rfl, rfl, rfl, rfl⟩ | ⟨rfl, rfl, rfl, rfl⟩ | ⟨rfl, rfl, rfl, rfl⟩ |
    ⟨rfl, rfl, rfl, rfl⟩ | ⟨rfl, rfl, rfl, rfl⟩ | ⟨rfl, rfl, rfl, rfl⟩ | ⟨rfl, rfl, rfl, rfl⟩ := hrow
  · exact .inr ⟨rfl, rfl, fun hlen => by simp [exec, execGetStatus, htakes, List.length_eq_zero_iff.not.1 hlen]⟩
  · exact .inl ⟨_, rfl⟩
  · exact .inl ⟨_, rfl⟩
  · exact .inl ⟨_, rfl⟩
  · exact .inl ⟨_, rfl⟩
  · exact .inr ⟨rfl, rfl, fun hlen => by simp [exec, execPowerOff, htakes, List.length_eq_zero_iff.not.1 hlen]⟩
  · exact .inr ⟨rfl, rfl, fun hlen => by simp [exec, execPowerOn, htakes, List.length_eq_zero_iff.not.1 hlen]⟩
  · exact .inl ⟨_, rfl⟩
  · exact .inl ⟨_, rfl⟩

theorem exec_setPowerCap (body : Bytes) (s : State) : exec (.setPowerCap body) s = .next (withPower 0x21 2 body (fun s =>
    mgmtRespond 0x21 mgDone [] (if s.power.capWrittenAt = some s.clock.up then s
      else { s with power.capW := inRange 3000 s.flash.record.powerLimit (leNat body) s.power.capW })) s) := rfl

theorem exec_mgmtStop (body : Bytes) (s : State) : exec (.mgmtStop body) s = execMgmtStop body s := rfl

theorem exec_mgmtHoldingReset (body : Bytes) (s : State) : exec (.mgmtHoldingReset body) s = .next (withPower 0x23 0 body
    (fun s => if s.holding.isMaster then mgmtRespond 0x23 mgDone [] (resetHolding s) else mgmtRespond 0x23 mgNotMaster [] s) s) :=
  rfl

theorem exec_getNonce (body : Bytes) (s : State) : exec (.getNonce body) s = .next (withPower 0x27 0 body
    (fun s => mgmtRespond 0x27 mgDone (digestBytes (issueNonce s).security.nonce) (issueNonce s)) s) := rfl

theorem exec_securityRequest (body : Bytes) (s : State) : exec (.securityRequest body) s = .next (withPower 0x28 29856 body
    (fun s => mgmtRespond 0x28 mgDone [BitVec.ofNat 8 (securityRequest body s).security.result] (securityRequest body s)) s) :=
  rfl

/-- A message whose payload is not laid out adds no bytes of its own to what is sent. -/
theorem sendHedge_out {m : Hedge} (h : hedgePayload m = none) (d : ModId) (s : State) :
    (sendHedge d m s).out = { s.out with hedge := s.out.hedge ++ [(d, m)] } := by
  rw [sendHedge_eq]
  simp [hedgeMessage, h]

/-- The management STOP as a run-wide order of this module (19 R408). -/
def mgmtStopOrder (s : State) : FwdOrder :=
  { source := s.holding.moduleId, holding := s.holding.number.toNat, stamp := s.run.head, mgmt := true, op := .stop,
    desc := mgmtStopDesc }

theorem mgmtStop_of_run (htakes : mgmtTakes s = true) (hgood : s.power.pwrGood = true) (hon : s.run.isOn = true) :
    exec (.mgmtStop []) s = .next (mgmtRespond 0x22 mgDone []
      (if s.isLead then { s with run.held := s.run.held ++ [⟨mgmtStopOrder s, s.clock.up⟩] }
       else sendHedge (leadId s) (.orderForward (mgmtStopOrder s)) s)) := by
  rw [exec_mgmtStop, execMgmtStop, withPower_of_good (n := 0) htakes rfl hgood]
  simp [hon, mgmtStopOrder]

/-- What every message is answered, and the two messages answered without main power. -/
theorem mgmtAnswered (s : State) (htakes : mgmtTakes s = true) :
    (∀ (row : Bytes → Instr) (code n : Nat) (power : Bool), (row, code, n, power) ∈ mgmtRows → ∀ body : Bytes,
      (body.length ≠ n → exec (row body) s = .next { s with out.mgmt := s.out.mgmt ++ [(code + 0x80, [1])] }) ∧
      (body.length = n → power = true → s.power.pwrGood = false →
        exec (row body) s = .next { s with out.mgmt := s.out.mgmt ++ [(code + 0x80, [4])] })) ∧
    (∃ t, exec (.getStatus []) s = .next t ∧
      t.out = { s.out with mgmt := s.out.mgmt ++ [(0xA0, (0 : Byte) :: statusBody s)] } ∧
      t.power = { s.power with alert := s.power.alert && alertCause s } ∧
      { t with out := s.out, power := s.power } = s) ∧
    (∃ t, exec (.powerOn []) s = .next t ∧ t.power.offByMgmt = false ∧
      t.power.pwrGood = (s.power.pwrGood ||
        (s.power.pwrEn && decide (4000 ≤ s.power.volts) && s.power.aux && !s.power.tripLow)) ∧
      t.out = { s.out with mgmt := s.out.mgmt ++ [(0xA6, [0])] } ∧
      { t with power := s.power, startup.startedAt := s.startup.startedAt, out := s.out } = s) := by
  refine ⟨fun row code n power hrow body => ⟨fun hlen => ?malformed, fun hlen hpower hoff => ?off⟩, ?status, ?on⟩
  case malformed =>
    obtain ⟨f, hexec⟩ | ⟨-, rfl, hexec⟩ := mgmtRow_cases hrow htakes body
    · rw [hexec, withPower_malformed f htakes hlen]; rfl
    · rw [hexec hlen]; rfl
  case off =>
    obtain ⟨f, hexec⟩ | ⟨hfree, -⟩ := mgmtRow_cases hrow htakes body
    · rw [hexec, withPower_off f htakes hlen hoff]; rfl
    · exact absurd (hfree.symm.trans hpower) (by decide)
  case status =>
    have hexec : exec (.getStatus []) s = .next { mgmtRespond 0x20 mgDone (statusBody s) s with
        power.alert := s.power.alert && alertCause s } := by
      show Host.Outcome.next (if !mgmtTakes s then _ else _) = _
      rw [htakes]
      rfl
    exact ⟨_, hexec, rfl, rfl, rfl⟩
  case on =>
    have hexec : exec (.powerOn []) s = .next (mgmtRespond 0x26 mgDone [] (startPower { s with power.offByMgmt := false })) := by
      show Host.Outcome.next (if !mgmtTakes s then _ else _) = _
      rw [htakes]
      rfl
    obtain ⟨hstart, hpower, hout, hframe⟩ := startPower_spec { s.power with offByMgmt := false } s
    refine ⟨_, hexec, ?_, ?_, ?_, congrArg (fun t : State => { t with out := s.out }) hframe⟩
    · rw [mgmtRespond_eq, hpower]
    · rw [mgmtRespond_eq, hstart]; simp [powerStarts]
    · rw [mgmtRespond_eq, hout]; rfl

/-- Settles O22: message by message, on what each answers through `withPower`. -/
theorem managementMessages : Obligations.ManagementMessages := by
  unfold Obligations.ManagementMessages
  refine ⟨mgmtAnswered, fun s htakes hgood => ⟨fun body hlen hwritten => ?hostWrote, fun body hlen hwritten => ?cap, fun hoff => ?noRun,
    fun hlead => ?lead, fun hon hlead => ?forward, fun hmember => ?notMaster, fun hmaster => ?holdingReset, ?powerOff, ?nonce,
    fun body hlen => ?request⟩⟩
  case hostWrote => rw [exec_setPowerCap, withPower_of_good htakes hlen hgood, if_pos hwritten]; rfl
  case cap => rw [exec_setPowerCap, withPower_of_good htakes hlen hgood, if_neg hwritten]; rfl
  case noRun =>
    rw [exec_mgmtStop, execMgmtStop, withPower_of_good (n := 0) htakes rfl hgood]
    simp [hoff, mgmtRespond, mgNoRun]
  case lead =>
    rw [mgmtStop_of_run htakes hgood (isOn_of_isLead hlead), if_pos hlead]
    exact ⟨_, mgmtStopOrder s, rfl, rfl, rfl, rfl, rfl, rfl, rfl, rfl⟩
  case forward =>
    rw [mgmtStop_of_run htakes hgood hon, hlead, if_neg Bool.false_ne_true]
    refine ⟨_, mgmtStopOrder s, rfl, ?_, rfl, rfl, rfl, ?_⟩
    · rw [mgmtRespond_eq, sendHedge_out rfl]; rfl
    · rw [mgmtRespond_eq, sendHedge_eq]
  case notMaster =>
    rw [exec_mgmtHoldingReset, withPower_of_good (n := 0) htakes rfl hgood, hmember]
    rfl
  case holdingReset =>
    rw [exec_mgmtHoldingReset, withPower_of_good (n := 0) htakes rfl hgood, if_pos hmaster, resetHolding, if_pos hmaster]
    refine ⟨_, rfl, holdingLevel_sendHedge_isHoldingReset .., ?_⟩
    have hout : (holdingLevel (sendHedge everyone (.setupWrite 0x20010 8 2) s)).out =
      { s.out with hedge := s.out.hedge ++ [(everyone, .setupWrite 0x20010 8 2)] } := sendHedge_out rfl everyone s
    rw [mgmtRespond_eq, hout]
    rfl
  case powerOff =>
    have hexec : exec (.powerOff []) s = .next (mgmtRespond 0x25 mgDone [] (shutdown { s with power.offByMgmt := true })) := by
      show Host.Outcome.next (if !mgmtTakes s then _ else _) = _
      rw [htakes]
      rfl
    rw [shutdown_of_good (p := { s.power with offByMgmt := true }) hgood] at hexec
    exact ⟨_, hexec, rfl, rfl, rfl, rfl, rfl, rfl⟩
  case nonce =>
    rw [exec_getNonce, withPower_of_good (n := 0) htakes rfl hgood]
    exact ⟨_, rfl, rfl, rfl, rfl, rfl⟩
  case request =>
    obtain ⟨hnow, -, -, hframe⟩ := securityRequest_spec body s
    have hout : (securityRequest body s).out = s.out :=
      congrArg (f := fun t : State => t.out) (a₁ := { securityRequest body s with security := s.security }) hframe
    rw [exec_securityRequest, withPower_of_good htakes hlen hgood]
    refine ⟨_, rfl, rfl, hnow, ?_, ?_⟩
    · rw [mgmtRespond_eq, hout]; rfl
    · exact congrArg (fun t : State => { t with out := s.out }) hframe

end Sys2Proof.Proofs
end

section
/-!
PROOFS. Packets sent and packets in their turn: what sending can change, and when a packet that arrives acts (14 R294 to R303, R309).
-/
namespace Sys2Proof.Proofs

open Sys2Proof Sys2Proof.Machine Sys2Proof.Safety Sys2Proof.Laws

variable {s t u : State}

/-! ### What sending a packet can change -/

/-- From `s` to `t` packets may have left, or wait to leave: ports, the orders of sending, the router's own answers, the stones,
counters and what is sent have changed, and nothing else. -/
def Carries (s t : State) : Prop :=
  t = { s with
    lamio.ports := t.lamio.ports, lamio.sendOrder := t.lamio.sendOrder, lamio.unreached := t.lamio.unreached
    stones := t.stones, counters.values := t.counters.values, out.flits := t.out.flits, out.packets := t.out.packets }

theorem Carries.refl (s : State) : Carries s s := rfl

theorem Carries.trans (a : Carries s t) (b : Carries t u) : Carries s u := by
  unfold Carries at *; rw [b, a]

/-- What the statements say of a frame around what was sent. -/
theorem Carries.frame (h : Carries s t) :
    { t with lamio := s.lamio, stones := s.stones, counters.values := s.counters.values, out := s.out } = s := by rw [h]

theorem Carries.txns (h : Carries s t) : t.lamio.txns = s.lamio.txns := by rw [h]

theorem Carries.reorder (h : Carries s t) : t.lamio.reorder = s.lamio.reorder := by rw [h]

theorem Carries.recvOrder (h : Carries s t) : t.lamio.recvOrder = s.lamio.recvOrder := by rw [h]

section

variable (h : Carries s u)
include h

theorem Carries.setPort (p : Nat) (f : Port → Port) : Carries s (setPort p f u) := h.trans rfl

theorem Carries.countLink (p e : Nat) : Carries s (countLink p e u) := h.trans rfl

theorem Carries.countStone (slot : Nat) : Carries s (countStone slot u) := h.trans rfl

theorem Carries.sendFlit (p ty : Nat) (q : Packet) (corrupt : Option (Nat × Byte)) : Carries s (sendFlit p ty q corrupt u) := by
  unfold Machine.sendFlit
  split
  · exact h.setPort ..
  · exact h.trans rfl

theorem Carries.sendBlocked (p n : Nat) : Carries s (sendBlocked p n u) := by
  induction n generalizing u with
  | zero => exact h
  | succ n ih =>
    unfold Machine.sendBlocked
    split
    · exact h
    split
    · exact h
    · exact ih ((h.setPort ..).sendFlit ..)

theorem Carries.transmit (p ty : Nat) (q : Packet) : Carries s (transmit p ty q u) := by
  unfold Machine.transmit
  dsimp only
  split
  · exact h.sendFlit ..
  next l _ =>
    have hstones : ∀ x, Carries s { u with stones := x } := fun _ => h.trans rfl
    split
    · exact (hstones _).sendFlit ..
    split
    · exact (hstones _).countStone _
    split
    · exact ((hstones _).countStone _).sendFlit ..
    split
    · exact ((hstones _).countStone _).sendFlit ..
    · exact Carries.countStone (hstones _) _

theorem Carries.releaseHeld (p vc : Nat) : Carries s (releaseHeld p vc u) := by
  unfold Machine.releaseHeld
  exact foldl_inv (p := Carries s) (fun _ _ hv => hv.sendFlit ..) _ (h.trans rfl)

theorem Carries.sendPacket (ty : Nat) (reverse : Bool) (q : Packet) : Carries s (sendPacket ty reverse q u) := by
  unfold Machine.sendPacket
  split
  · split
    · exact h.trans rfl
    · exact h
  next p detour _ =>
    dsimp only
    have hlink : Carries s (if detour then Machine.countLink p 3 u else u) := by
      split
      · exact h.countLink ..
      · exact h
    generalize (if detour then Machine.countLink p 3 u else u) = v at hlink ⊢
    split
    · exact (hlink.transmit ..).releaseHeld ..
    · exact hlink.transmit ..

theorem Carries.respond (ty : Nat) (req : Packet) (st : Nat) (poison : Bool) (data : Bytes) :
    Carries s (respond ty req st poison data u) := by
  have horder : Carries s (takeOrder req.source 1 u).2 := h.trans rfl
  exact horder.sendPacket ..

theorem Carries.sendBulk (dest : ModId) (tag : W16) (n : Nat) :
    ∀ (src : Option Nat) (off : Nat) (bs : Bytes), Carries s (sendBulk dest tag src off n bs u) := by
  induction n generalizing u with
  | zero => exact fun _ _ _ => h
  | succ n ih =>
    intro src off bs
    unfold Machine.sendBulk
    split
    · exact h
    · exact ih (h.sendPacket ..) _ _ _

end

/-! ### A packet that leaves by its port -/

/-- With no stone in the way, a packet with a next hop is put into a flit of that port. -/
theorem sendPacket_of_hop {q : Packet} {reverse detour : Bool} {p : Nat} (hhop : nextHop s q.dest reverse = some (p, detour))
    (hlive : s.stones.live = []) (hholding : s.stones.holding = []) (ty : Nat) :
    sendPacket ty reverse q s =
      sendFlit p ty { q with detour := q.detour || detour } none (if detour then countLink p 3 s else s) := by
  have hlive' : (if detour then countLink p 3 s else s).stones.live = [] := by split <;> exact hlive
  have hholding' : (if detour then countLink p 3 s else s).stones.holding = [] := by split <;> exact hholding
  simp only [sendPacket, hhop]
  generalize (if detour then countLink p 3 s else s) = v at *
  simp [transmit, hlive', hholding']

/-- A flit leaves, or its packet waits at the port. -/
theorem sendFlit_leaves (p ty : Nat) (q : Packet) (s : State) :
    if portBlocked s p then
      (port (sendFlit p ty q none s) p).data.blocked = (port s p).data.blocked ++ [(ty, q, none)] ∧
        (sendFlit p ty q none s).out.packets = s.out.packets
    else (sendFlit p ty q none s).out.packets = s.out.packets ++ [(p, ty, q)] := by
  unfold sendFlit
  split
  · exact ⟨by rw [port_setPort_same], rfl⟩
  · rfl

/-- The response to a request, as it leaves this module. -/
def responseOf (req : Packet) (st : Nat) (poison : Bool) (data : Bytes) (s : State) : Packet :=
  { source := s.holding.moduleId, dest := req.source, tag := req.tag, offset := req.offset, len8 := data.length / 8
    orderSeq := tget 0 s.lamio.sendOrder (orderKey req.source 1), seedbed := false, poison := poison, detour := false
    status := st, context := none, data := data }

theorem respond_eq (ty : Nat) (req : Packet) (st : Nat) (poison : Bool) (data : Bytes) (s : State) :
    respond ty req st poison data s = sendPacket ty false (responseOf req st poison data s) (takeOrder req.source 1 s).2 := rfl

theorem respond_leaves {req : Packet} {p : Nat} {detour : Bool} (hhop : nextHop s req.source false = some (p, detour))
    (hlive : s.stones.live = []) (hholding : s.stones.holding = []) (ty st : Nat) (poison : Bool) (data : Bytes) :
    ∃ q, (if portBlocked s p then
        (port (respond ty req st poison data s) p).data.blocked = (port s p).data.blocked ++ [(ty, q, none)] ∧
          (respond ty req st poison data s).out.packets = s.out.packets
      else (respond ty req st poison data s).out.packets = s.out.packets ++ [(p, ty, q)]) ∧
      q = { responseOf req st poison data s with detour := detour } := by
  refine ⟨_, ?_, rfl⟩
  have hsend := sendPacket_of_hop (q := responseOf req st poison data s) (s := (takeOrder req.source 1 s).2) hhop hlive hholding ty
  rw [respond_eq, hsend]
  have hleaves := sendFlit_leaves p ty { responseOf req st poison data s with detour := detour }
    (if detour then countLink p 3 (takeOrder req.source 1 s).2 else (takeOrder req.source 1 s).2)
  cases detour <;> exact hleaves

/-! ### A packet in its turn (14 R301, R309) -/

/-- The order of arrival once the packet has been taken. -/
def turned (ty : Nat) (p : Packet) (s : State) : State :=
  let key := orderKey p.source (ptVc ty)
  { s with lamio.recvOrder := tset 0 s.lamio.recvOrder key ((tget 0 s.lamio.recvOrder key + 1) % 4096) }

/-- No packet of an order waits in the reorder buffer. -/
def NoneBehind (m : ModId) (vc : Nat) (s : State) : Prop :=
  (s.lamio.reorder.all fun x => x.2.source != m || ptVc x.1 != vc) = true

theorem drainReorder_of_none {m : ModId} {vc : Nat} (h : NoneBehind m vc s) (n : Nat) : drainReorder n m vc s = s := by
  cases n with
  | zero => rfl
  | succ n =>
    have hnone : s.lamio.reorder.find? (fun x => x.2.source == m && ptVc x.1 == vc &&
        x.2.orderSeq == tget 0 s.lamio.recvOrder (orderKey m vc)) = none := by
      rw [List.find?_eq_none]
      intro x hx
      have hnot := List.all_eq_true.1 h x hx
      simp only [Bool.or_eq_true, bne_iff_ne, ne_eq] at hnot
      simp only [Bool.and_eq_true, beq_iff_eq, not_and]
      rintro ⟨hsource, hvc⟩
      rcases hnot with hnot | hnot
      · exact absurd hsource hnot
      · exact absurd hvc hnot
    simp only [drainReorder, hnone]

/-- A packet for this module in its turn acts, and no packet behind it. -/
theorem packetRow_inTurn {ty : Nat} {p : Packet} (hdest : p.dest = s.holding.moduleId) (hassigned : s.assigned = true)
    (hturn : InTurn s ty p) (hvc : ptVc ty < 2)
    (hreorder : (perform ty p (turned ty p s)).lamio.reorder = s.lamio.reorder) :
    packetRow ty p s = perform ty p (turned ty p s) := by
  obtain ⟨hseq, hlt, hnone⟩ := hturn
  have hahead : (p.orderSeq + 4096 - tget 0 s.lamio.recvOrder (orderKey p.source (ptVc ty))) % 4096 = 0 := by omega
  have hbehind : NoneBehind p.source (ptVc ty) (perform ty p (turned ty p s)) := by
    unfold NoneBehind
    rw [hreorder]
    exact hnone
  simp only [packetRow, hassigned, hdest, arriveInOrder, Nat.not_le.2 hvc, hahead, Bool.not_true, Bool.false_eq_true, if_false,
    bne_self_eq_false, if_true]
  exact drainReorder_of_none hbehind _

end Sys2Proof.Proofs
end

section
/-!
PROOFS. Responses, atomics, reads and writes of other modules at their destination (14 R303 to R309, 15 R324, R337).
-/
namespace Sys2Proof.Proofs

open Sys2Proof Sys2Proof.Machine Sys2Proof.Safety Sys2Proof.Laws

variable {s t u : State}

/-! ### A response at its requester (14 R303, R309) -/

/-- The transaction that a response answers. -/
abbrev answers (p : Packet) (x : Txn) : Bool := x.dest == p.source && x.tag == p.tag

theorem launchNext_of_none_queued (h : ∀ y ∈ s.lamio.txns, y.queued = false) (m : ModId) : launchNext m s = s := by
  have hnone : s.lamio.txns.find? (fun x => x.dest == m && x.queued && mayLaunch s x.type m) = none :=
    List.find?_eq_none.2 fun y hy => by simp [h y hy]
  simp only [launchNext, hnone]

theorem finishRemote_of_no_job (h : s.run.jobs = []) (tag : W16) (st : Nat) (poison : Bool) (data : Bytes) :
    finishRemote tag st poison data s = s := by
  simp [finishRemote, h]

/-- The answer of a BAR4 access given to the host: the data of a load, a count of an access refused. -/
def hostAnswered (x : Txn) (p : Packet) (s : State) : State :=
  if x.bar4 then
    (if x.type = ptReadReq then
      (if p.status = psOk then { s with out.loads := s.out.loads ++ [(p.data, p.poison)] }
       else { count 0x2E4 1 s with out.loads := s.out.loads ++ [(List.replicate (8 * x.p.len8) 0xFF, false)] })
    else if p.status = psOk then s
    else count (if p.status = psRefused then 0x2E5 else 0x2E4) 1 s)
  else s

theorem hostAnswered_eq (x : Txn) (p : Packet) (s : State) :
    hostAnswered x p s = { s with counters.values := (hostAnswered x p s).counters.values, out := (hostAnswered x p s).out } := by
  unfold hostAnswered
  split_ifs <;> rfl

/-- A load has its data, or ones where it failed; nothing else is answered. -/
theorem hostAnswered_loads (x : Txn) (p : Packet) (s : State) :
    (hostAnswered x p s).out.loads = if x.bar4 && x.type == ptReadReq then
      s.out.loads ++ [if p.status = psOk then (p.data, p.poison) else (List.replicate (8 * x.p.len8) 0xFF, false)]
    else s.out.loads := by
  unfold hostAnswered
  cases hbar : x.bar4 with
  | false => rfl
  | true =>
    by_cases hread : x.type = ptReadReq
    · by_cases hok : p.status = psOk <;> simp [hread, hok]
    · by_cases hok : p.status = psOk <;> simp [hread, hok, count]

/-- The transaction over and its answer kept, with the trace of it. -/
def ended (p : Packet) (s : State) : State :=
  trace 4 1 false 0 (BitVec.allOnes 32) (lamioAddr p.source p.offset.toNat) { s with
    lamio.txns := s.lamio.txns.filter fun y => !answers p y
    lamio.answers := s.lamio.answers ++ [(p.source, p.tag, p.status, p.data)] }

theorem ended_eq (p : Packet) (s : State) :
    ended p s = { s with
      lamio.txns := s.lamio.txns.filter fun y => !answers p y
      lamio.answers := s.lamio.answers ++ [(p.source, p.tag, p.status, p.data)]
      sheaf := (ended p s).sheaf } := trace_eq ..

/-- The response to a transaction of no task, in no job, and with no request waiting behind it. -/
theorem doResponse_of_txn {p : Packet} {x : Txn} (hx : s.lamio.txns.find? (answers p) = some x) (htask : x.task = none)
    (hjobs : s.run.jobs = []) (hqueued : ∀ y ∈ s.lamio.txns, y.queued = false) :
    doResponse p s = hostAnswered x p (ended p s) := by
  simp only [doResponse, hx, htask]
  show launchNext p.source (finishRemote p.tag p.status p.poison p.data (hostAnswered x p (ended p s))) = hostAnswered x p (ended p s)
  have hframe := hostAnswered_eq x p (ended p s)
  rw [finishRemote_of_no_job (by rw [hframe, ended_eq]; exact hjobs), launchNext_of_none_queued]
  rw [hframe, ended_eq]
  exact fun y hy => hqueued y (List.mem_of_mem_filter hy)

theorem doResponse_of_no_txn {p : Packet} (h : s.lamio.txns.find? (answers p) = none) :
    doResponse p s = countLink (portToward s p.source) 4 s := by
  simp only [doResponse, h]

/-- The response rows are those of the packets that end a transaction. -/
theorem responseRow {row : Packet → Instr} {ty : Nat} (hrow : (row, ty) ∈ [(Instr.readResp, ptReadResp), (Instr.writeAck, ptWriteAck),
    (Instr.atomicResp, ptAtomicResp), (Instr.bulkDone, ptBulkDone)]) (p : Packet) (s : State) :
    exec (row p) s = .next (packetRow ty p s) ∧ ptVc ty < 2 ∧ ∀ u, perform ty p u = doResponse p u := by
  simp only [List.mem_cons, Prod.mk.injEq, List.not_mem_nil, or_false] at hrow
  obtain ⟨rfl, rfl⟩ | ⟨rfl, rfl⟩ | ⟨rfl, rfl⟩ | ⟨rfl, rfl⟩ := hrow
  all_goals exact ⟨rfl, by decide, fun _ => rfl⟩

/-- Settles O20: how a response leaves, and a response in its turn by whether it answers a transaction. -/
theorem responses : Obligations.Responses := by
  unfold Obligations.Responses
  refine ⟨fun s ty st req poison data => ?sent, fun s p row ty hrow hdest hassigned hturn => ?received⟩
  case sent =>
    have hcarries := (Carries.refl s).respond ty req st poison data
    refine ⟨hcarries.frame, hcarries.txns, fun p detour hhop hlive hholding => ?_⟩
    obtain ⟨q, hleaves, rfl⟩ := respond_leaves hhop hlive hholding ty st poison data
    exact ⟨_, hleaves, rfl, rfl, rfl, rfl, rfl, rfl, rfl⟩
  case received =>
    obtain ⟨hexec, hvc, hperform⟩ := responseRow hrow p s
    refine ⟨fun x hx htask hjobs hqueued => ?_, fun hnone => ?_⟩
    · have hdo : perform ty p (turned ty p s) = hostAnswered x p (ended p (turned ty p s)) :=
        (hperform _).trans (doResponse_of_txn (s := turned ty p s) hx htask hjobs hqueued)
      have hframe := hostAnswered_eq x p (ended p (turned ty p s))
      have hloads := hostAnswered_loads x p (ended p (turned ty p s))
      have hrow : packetRow ty p s = hostAnswered x p (ended p (turned ty p s)) := by
        rw [packetRow_inTurn hdest hassigned hturn hvc (by rw [hdo, hframe, ended_eq]; rfl), hdo]
      refine ⟨_, hexec.trans (congrArg _ hrow), ?_, ?_, ?_, ?_⟩
      · rw [hframe, ended_eq]
        rfl
      · rw [hframe, ended_eq]
        rfl
      · rw [hloads, ended_eq]
        rfl
      · rw [hframe, ended_eq]
        rfl
    · have hdo : perform ty p (turned ty p s) = countLink (portToward s p.source) 4 (turned ty p s) :=
        (hperform _).trans (doResponse_of_no_txn (s := turned ty p s) hnone)
      exact ⟨countLink (portToward s p.source) 4 (turned ty p s),
        by rw [hexec, packetRow_inTurn hdest hassigned hturn hvc (by rw [hdo]; rfl), hdo], rfl⟩

end Sys2Proof.Proofs
end

section
/-!
PROOFS. The atomics of other modules at their destination (14 R305, R307, R309).
-/
namespace Sys2Proof.Proofs

open Sys2Proof Sys2Proof.Machine Sys2Proof.Safety Sys2Proof.Laws

variable {s t u : State}

/-! ### Words in memory -/

@[simp] theorem leBytes_length (n x : Nat) : (leBytes n x).length = n := by
  induction n generalizing x with
  | zero => rfl
  | succ n ih => simp [leBytes, ih]

theorem leNat_leBytes (n x : Nat) : leNat (leBytes n x) = x % 256 ^ n := by
  induction n generalizing x with
  | zero => simp [leBytes, leNat, Nat.mod_one]
  | succ n ih =>
    rw [leBytes, leNat, ih, BitVec.toNat_ofNat, pow_succ' 256 n]
    exact Nat.mod_mul.symm

/-- Bytes that a reader finds one by one are the bytes it reads. -/
theorem readBytes_of_written {bs : Bytes} {r : Reader} {off : Nat}
    (h : ∀ i, i < bs.length → readByte u.mem u.run.head r (off + i) = bs.getD i 0) : readBytes u r off bs.length = bs := by
  apply List.ext_getElem (by simp [readBytes])
  intro i hi hi'
  simp [readBytes, h i hi', hi']

/-! ### One atomic -/

/-- The atomic's word written, and its old value kept against a duplicate. -/
def replaced (p : Packet) (off w old new : Nat) (s : State) : State :=
  let t := writeNow off (leBytes w new) false (touch false off w s)
  { t with lamio.atomics := keepAtomic p.source p.orderSeq (BitVec.ofNat 64 old) t.lamio.atomics }

theorem mem_keepAtomic (m : ModId) (seq : Nat) (old : W64) (l : List (ModId × Nat × W64)) : (m, seq, old) ∈ keepAtomic m seq old l := by
  unfold keepAtomic
  refine List.mem_append_right _ ?_
  rw [List.drop_append]
  refine List.mem_append_right _ ?_
  rw [show _ - _ - _ = 0 by simp only [List.length_append, List.length_singleton]; omega]
  simp

/-- What an atomic leaves: its new word, every other byte, and nothing but memory, counters and the record of it. -/
theorem replaced_spec (p : Packet) (off w old new : Nat) (s : State) :
    leNat (readBytes (replaced p off w old new s) .plain off w) = new % 256 ^ w ∧
    (∀ r a, a < off ∨ off + w ≤ a →
      readByte (replaced p off w old new s).mem (replaced p off w old new s).run.head r a = readByte s.mem s.run.head r a) ∧
    { replaced p off w old new s with
      mem := s.mem, counters.values := s.counters.values, lamio.atomics := s.lamio.atomics } = s := by
  obtain ⟨hbase, hlayers, -, htouch⟩ := touch_frame false off w s
  obtain ⟨hnew, hother, hwrite⟩ := writeNow_spec off (leBytes w new) false (touch false off w s)
  unfold replaced
  dsimp only
  have hhead : (touch false off w s).run.head = s.run.head := congrArg (fun x => x.run.head) htouch
  have hhead' : (writeNow off (leBytes w new) false (touch false off w s)).run.head = (touch false off w s).run.head :=
    congrArg (fun x => x.run.head) hwrite
  generalize touch false off w s = v at *
  generalize writeNow off (leBytes w new) false v = x at *
  refine ⟨?_, fun r a ha => ?_, ?_⟩
  · have hread := readBytes_of_written (u := x) (bs := leBytes w new) (r := .plain) (off := off) (by rw [hhead']; exact hnew)
    rw [leBytes_length] at hread
    exact (congrArg leNat hread).trans (leNat_leBytes w new)
  · rw [leBytes_length] at hother
    rw [hhead', hother r a ha, hhead]
    unfold readByte
    rw [hbase, hlayers]
  · calc _ = { ({ x with mem := v.mem, counters.values := v.counters.values } : State) with
        mem := s.mem, counters.values := s.counters.values, lamio.atomics := s.lamio.atomics } := rfl
      _ = { ({ v with mem := s.mem, counters.values := s.counters.values } : State) with lamio.atomics := s.lamio.atomics } := by
        rw [hwrite]
      _ = s := by rw [htouch]

/-- An atomic on an aligned word that may be written. -/
theorem doAtomic_of_allowed {ty w : Nat} {p : Packet} (hw : w = if ty = ptAtomicAdd32 then 4 else 8) (halign : p.offset.toNat % w = 0)
    (hrange : p.offset.toNat + w ≤ s.mem.capacity) (hallowed : plainWriteAllowed s p.offset.toNat w = true) :
    doAtomic ty p s = respond ptAtomicResp p psOk (!(poisonedIn s p.offset.toNat w).isEmpty)
      (leBytes 8 (leNat (localBytes s .plain p.offset.toNat w)))
      (replaced p p.offset.toNat w (leNat (localBytes s .plain p.offset.toNat w))
        (atomicResult ty (leNat (localBytes s .plain p.offset.toNat w)) p.data) s) := by
  have hpos : 0 < w := by rw [hw]; split <;> decide
  have hoff : p.offset.toNat / w * w = p.offset.toNat := Nat.div_mul_cancel (Nat.dvd_of_mod_eq_zero halign)
  have hin : packetRangeOk s p w = true := decide_eq_true hrange
  have hreserved : touchesReserved s p.offset.toNat w = false := by
    simp only [plainWriteAllowed, Bool.and_eq_true, Bool.not_eq_true'] at hallowed
    exact hallowed.1.1
  unfold doAtomic
  simp only [← hw, hoff, hin, hreserved, hallowed, Bool.not_true, Bool.or_false, Bool.false_eq_true, if_false]
  rfl

theorem perform_of_atomic {ty : Nat} (hread : ty ≠ ptReadReq) (hwrite : ty ≠ ptWrite) (hbulk : ty ≠ ptBulkReq)
    (hatomic : ptAtomicAdd64 ≤ ty ∧ ty ≤ ptAtomicAnd64) (p : Packet) (u : State) : perform ty p u = doAtomic ty p u := by
  unfold perform
  rw [if_neg hread, if_neg hwrite, if_neg hbulk, if_pos hatomic]

/-- The atomic rows are those of the atomic packets, and their words and results the table's. -/
theorem atomicRow {row : Packet → Instr} {ty w : Nat} {f : Nat → Nat → Nat → Nat} (hrow : (row, ty, w, f) ∈ atomicRows)
    (p : Packet) (s : State) :
    exec (row p) s = .next (packetRow ty p s) ∧ ptVc ty < 2 ∧ (∀ u, perform ty p u = doAtomic ty p u) ∧
      w = (if ty = ptAtomicAdd32 then 4 else 8) ∧
      ∀ old, atomicResult ty old p.data % 256 ^ w = f old (field p.data 0 8) (field p.data 8 8) % 2 ^ (8 * w) := by
  simp only [atomicRows, List.mem_cons, Prod.mk.injEq, List.not_mem_nil, or_false] at hrow
  obtain ⟨rfl, rfl, rfl, rfl⟩ | ⟨rfl, rfl, rfl, rfl⟩ | ⟨rfl, rfl, rfl, rfl⟩ | ⟨rfl, rfl, rfl, rfl⟩ | ⟨rfl, rfl, rfl, rfl⟩ |
    ⟨rfl, rfl, rfl, rfl⟩ := hrow
  all_goals refine ⟨rfl, by decide, perform_of_atomic (by decide) (by decide) (by decide) (by decide) p, rfl, fun old => ?_⟩
  case inl | inr.inl => exact Nat.mod_mod _ _
  all_goals rfl

/-- Apart from the order of arrival, a state frames the packet's as it frames the one in which its turn was taken. -/
theorem frame_of_turned {ty : Nat} {p : Packet} {v : State}
    (h : { v with mem := (turned ty p s).mem, counters.values := (turned ty p s).counters.values
                  lamio.atomics := (turned ty p s).lamio.atomics } = turned ty p s) :
    { v with mem := s.mem, counters.values := s.counters.values, lamio.recvOrder := s.lamio.recvOrder
             lamio.atomics := s.lamio.atomics } = s :=
  congrArg (fun x : State => { x with lamio.recvOrder := s.lamio.recvOrder }) h

/-- Settles O19: an atomic in its turn is answered and leaves its word replaced. -/
theorem atomics : Obligations.Atomics := by
  unfold Obligations.Atomics
  intro s p row ty w f hrow hdest hassigned hturn halign hrange hallowed old
  obtain ⟨hexec, hvc, hperform, hw, hresult⟩ := atomicRow hrow p s
  have hdo := doAtomic_of_allowed (s := turned ty p s) hw halign hrange hallowed
  obtain ⟨hword, hother, hframe⟩ := replaced_spec p p.offset.toNat w old (atomicResult ty old p.data) (turned ty p s)
  have hrow' : packetRow ty p s = _ := (packetRow_inTurn hdest hassigned hturn hvc (by
    rw [hperform, hdo, Carries.reorder ((Carries.refl _).respond ..)]
    exact congrArg (fun x => x.lamio.reorder) hframe)).trans ((hperform _).trans hdo)
  exact ⟨_, hexec.trans (congrArg _ hrow'), hword.trans (hresult old), hother, mem_keepAtomic .., frame_of_turned hframe⟩

end Sys2Proof.Proofs
end

section
/-!
PROOFS. WRITE, BULK_DATA, READ_REQ and BULK_REQ at their destination (14 R303 to R305, R308, 11 R224, 09 R187).
-/
namespace Sys2Proof.Proofs

open Sys2Proof Sys2Proof.Machine Sys2Proof.Safety Sys2Proof.Laws

variable {s t u : State} {p : Packet}

/-! ### The frame around a packet that acts -/

/-- Nothing but memory, counters and the order of arrival has changed. -/
abbrev AroundMem (s u : State) : Prop :=
  { u with mem := s.mem, counters.values := s.counters.values, lamio.recvOrder := s.lamio.recvOrder } = s

theorem aroundMem_of_turned {ty : Nat}
    (h : { u with mem := (turned ty p s).mem, counters.values := (turned ty p s).counters.values } = turned ty p s) :
    AroundMem s u :=
  congrArg (fun x : State => { x with lamio.recvOrder := s.lamio.recvOrder }) h

theorem AroundMem.reorder (h : AroundMem s u) : u.lamio.reorder = s.lamio.reorder := by
  rw [← h]

theorem AroundMem.head (h : AroundMem s u) : u.run.head = s.run.head := by
  rw [← h]

/-- A row whose packet is answered from `u`, which leaves the reorder buffer alone. -/
theorem packetRow_answered {ty st : Nat} {poison : Bool} {data : Bytes} {rty : Nat} (hdest : p.dest = s.holding.moduleId)
    (hassigned : s.assigned = true) (hturn : InTurn s ty p) (hvc : ptVc ty < 2)
    (hperform : perform ty p (turned ty p s) = respond rty p st poison data u) (haround : AroundMem s u) :
    packetRow ty p s = respond rty p st poison data u := by
  rw [packetRow_inTurn hdest hassigned hturn hvc, hperform]
  rw [hperform, Carries.reorder ((Carries.refl u).respond ..), haround.reorder]

/-! ### A write without a context word -/

theorem not_touchesReserved_of_plainWriteAllowed {off len : Nat} (h : plainWriteAllowed s off len = true) :
    touchesReserved s off len = false := by
  simp only [plainWriteAllowed, Bool.and_eq_true, Bool.not_eq_true'] at h
  exact h.1.1

theorem performWrite_plain (hrange : p.offset.toNat + p.data.length ≤ s.mem.capacity) (hcontext : p.context = none)
    (hallowed : plainWriteAllowed s p.offset.toNat p.data.length = true) :
    performWrite p s = (psOk, writeNow p.offset.toNat p.data p.poison s) := by
  have hin : packetRangeOk s p p.data.length = true := decide_eq_true hrange
  simp [performWrite, hin, hcontext, hallowed, not_touchesReserved_of_plainWriteAllowed hallowed]

theorem performWrite_refused (hrange : p.offset.toNat + p.data.length ≤ s.mem.capacity) (hcontext : p.context = none)
    (hrefused : plainWriteAllowed s p.offset.toNat p.data.length = false) :
    performWrite p s = (psRefused, countLink (portToward s p.source) 6 s) := by
  have hin : packetRangeOk s p p.data.length = true := decide_eq_true hrange
  simp [performWrite, hin, hcontext, hrefused]

theorem doWrite_eq (p : Packet) (s : State) :
    doWrite p s = respond ptWriteAck p (performWrite p s).1 false [] (performWrite p s).2 := rfl

/-- The bytes a plain write puts where it says. -/
theorem plainBytes_of_writeNow {v : State} (hmem : v.mem = s.mem) (hhead : v.run.head = s.run.head)
    (hframe : AroundMem s (writeNow p.offset.toNat p.data p.poison v)) :
    PlainBytes s p (writeNow p.offset.toNat p.data p.poison v) := by
  obtain ⟨hnew, hother, -⟩ := writeNow_spec p.offset.toNat p.data p.poison v
  refine ⟨fun i hi => ?_, fun r a ha => ?_, hframe⟩
  · rw [hframe.head, ← hhead]
    exact hnew i hi
  · rw [hframe.head, ← hhead, hother r a ha, hmem]

theorem plainBytes_turned (ty : Nat) (p : Packet) (s : State) :
    PlainBytes s p (writeNow p.offset.toNat p.data p.poison (turned ty p s)) := by
  obtain ⟨-, -, hframe⟩ := writeNow_spec p.offset.toNat p.data p.poison (turned ty p s)
  exact plainBytes_of_writeNow rfl rfl (aroundMem_of_turned hframe)

theorem plainBytes_untouched (p : Packet) (s : State) : PlainBytes s p (writeNow p.offset.toNat p.data p.poison s) := by
  obtain ⟨-, -, hframe⟩ := writeNow_spec p.offset.toNat p.data p.poison s
  refine plainBytes_of_writeNow rfl rfl ?_
  exact congrArg (fun x : State => { x with lamio.recvOrder := s.lamio.recvOrder }) hframe

/-! ### A write of a task (14 R304, log entry 20) -/

theorem addLayer_last {l : Layer} {ls : List Layer} (h : ∀ x ∈ ls, layerKey x.tag ≤ layerKey l.tag) : addLayer l ls = ls ++ [l] := by
  induction ls with
  | nil => rfl
  | cons x ls ih =>
    simp only [List.mem_cons, forall_eq_or_imp] at h
    rw [addLayer, if_neg (Nat.not_lt.2 h.1), ih h.2, List.cons_append]

/-- The cell that consecutive bytes hold at an address. -/
theorem cellAt_cellsAt (off : Nat) (bs : Bytes) (a : Nat) :
    cellAt (cellsAt off bs) a = if off ≤ a then bs[a - off]? else none := by
  unfold cellAt cellsAt
  induction bs generalizing off with
  | nil => simp
  | cons b bs ih =>
    have hshift : (bs.mapIdx fun i b => (off + (i + 1), b)) = bs.mapIdx fun i b => (off + 1 + i, b) := by
      congr 1
      funext i b
      rw [Nat.add_assoc, Nat.add_comm 1]
    rw [List.mapIdx_cons, List.find?_cons, Nat.add_zero, hshift]
    by_cases hhere : off = a
    · subst hhere
      simp
    · rw [show (off == a) = false from beq_false_of_ne hhere]
      simp only [ih]
      by_cases hle : off ≤ a
      · rw [if_pos hle, if_pos (by omega : off + 1 ≤ a), show a - off = a - (off + 1) + 1 by omega, List.getElem?_cons_succ]
      · rw [if_neg hle, if_neg (by omega)]

/-- What a reader finds under one layer more. -/
theorem readByte_append {m m' : Memory} (hbase : m'.base = m.base) {l : Layer} (hlayers : m'.layers = m.layers ++ [l]) (head : Pos)
    (r : Reader) (a : Nat) :
    readByte m' head r a = if sees head r l.tag then (cellAt l.cells a).getD (readByte m head r a) else readByte m head r a := by
  simp only [readByte, hbase, hlayers, List.foldl_append, List.foldl_cons, List.foldl_nil]

/-- Whether a peer's write of a step is seedbed work here (09 R188). -/
def writesSeedbed (s : State) (step : Nat) : Bool :=
  s.run.isOn && decide (stepOf s.run.head < step) && s.votes.openStep.any fun n => decide (n < step)

theorem performWrite_task {task : W32} {low k : Nat} (hrange : p.offset.toNat + p.data.length ≤ s.mem.capacity)
    (hcontext : p.context = some (task, low, k)) (hreserved : touchesReserved s p.offset.toNat p.data.length = false) :
    performWrite p s = (psOk, taskWrite (fullStep s low) task (writesSeedbed s (fullStep s low)) p.offset.toNat p.data
      (writePoison p.offset.toNat p.data.length p.poison s)) := by
  have hin : packetRangeOk s p p.data.length = true := decide_eq_true hrange
  simp [performWrite, hin, hcontext, hreserved, writesSeedbed]

/-- The version a task's write makes: one layer more, and nothing but memory and counters. -/
theorem taskWrite_spec {step : Nat} (task : W32) (sb : Bool) (off : Nat) (bs : Bytes) (poison : Bool)
    (hlayers : ∀ l ∈ s.mem.layers, layerKey l.tag ≤ 2 * step + 1) :
    let u := taskWrite step task sb off bs (writePoison off bs.length poison s)
    u.mem.base = s.mem.base ∧ u.mem.layers = s.mem.layers ++ [⟨.output step task sb, cellsAt off bs⟩] ∧
      { u with mem := s.mem, counters.values := s.counters.values } = s := by
  obtain ⟨hpoisonBase, hpoisonLayers, hpoison⟩ := writePoison_frame off bs.length poison s
  unfold taskWrite
  dsimp only
  generalize writePoison off bs.length poison s = v at *
  obtain ⟨hbase, hlayer, -, hframe⟩ := touch_frame true off bs.length
    { v with mem.layers := addLayer ⟨.output step task sb, cellsAt off bs⟩ v.mem.layers }
  refine ⟨hbase.trans hpoisonBase, ?_, ?_⟩
  · rw [hlayer]
    show addLayer _ v.mem.layers = _
    rw [hpoisonLayers, addLayer_last hlayers]
  · generalize touch true off bs.length _ = w at *
    calc _ = { ({ w with mem := { v.mem with layers := addLayer ⟨.output step task sb, cellsAt off bs⟩ v.mem.layers }
                         counters.values := v.counters.values } : State) with
        mem := s.mem, counters.values := s.counters.values } := rfl
      _ = { ({ v with mem := s.mem } : State) with counters.values := s.counters.values } := by rw [hframe]
      _ = s := by rw [hpoison]

theorem stepOf_head_lt_of_writesSeedbed {step : Nat} (h : writesSeedbed s step = true) : stepOf s.run.head < step := by
  simp only [writesSeedbed, Bool.and_eq_true, decide_eq_true_eq] at h
  exact h.1.2

/-! ### A read -/

/-- A range read by a packet in its turn: no byte changes. -/
theorem touch_turned (ty : Nat) (p : Packet) (off len : Nat) (s : State) :
    let u := touch false off len (turned ty p s)
    (∀ r a, readByte u.mem u.run.head r a = readByte s.mem s.run.head r a) ∧ u.mem.base = s.mem.base ∧ AroundMem s u := by
  obtain ⟨hbase, hlayers, -, hframe⟩ := touch_frame false off len (turned ty p s)
  have haround := aroundMem_of_turned hframe
  refine ⟨fun r a => ?_, hbase, haround⟩
  rw [haround.head]
  unfold readByte
  rw [hbase, hlayers]
  rfl

theorem doRead_of_ready (hrange : p.offset.toNat + 8 * p.len8 ≤ s.mem.capacity) (hready : readMustWait s p = false) :
    doRead p s = answerRead p s := by
  have hin : packetRangeOk s p (8 * p.len8) = true := decide_eq_true hrange
  simp [doRead, hin, hready]

theorem doRead_of_waiting (hrange : p.offset.toNat + 8 * p.len8 ≤ s.mem.capacity) (hwait : readMustWait s p = true) :
    doRead p s = { s with lamio.readsHeld := s.lamio.readsHeld ++ [p] } := by
  have hin : packetRangeOk s p (8 * p.len8) = true := decide_eq_true hrange
  simp [doRead, hin, hwait]

theorem touched_moduleId (h : Touched s u) : u.holding.moduleId = s.holding.moduleId := by
  obtain ⟨-, -, -, hframe⟩ := h
  rw [← hframe]

/-- A copy from this module to another. -/
theorem doBulk_out {o dst : Nat} {d : ModId} (hsource : lamioTarget s (field p.data 0 8) = some (s.holding.moduleId, o))
    (htarget : lamioTarget s (field p.data 8 8) = some (d, dst)) (hother : d ≠ s.holding.moduleId)
    (hrange : o + field p.data 16 8 ≤ s.mem.capacity) (hlen : field p.data 16 8 ≤ 2 ^ 32) (hready : readMustWait s p = false) :
    doBulk p s = respond ptBulkDone p psOk false (leBytes 8 (field p.data 16 8))
      (sendTransfer ⟨d, p.tag, dst, some o, localBytes s (packetReader s p) o (field p.data 16 8)⟩
        (touch false o (field p.data 16 8) s)) := by
  have hmodule := touched_moduleId (touch_frame false o (field p.data 16 8) s)
  simp only [doBulk, hsource, htarget, hready, bne_self_eq_false, decide_eq_false (Nat.not_lt.2 hrange),
    decide_eq_false (Nat.not_lt.2 hlen), Bool.or_false, Bool.false_eq_true, if_false, hmodule, if_neg hother]

theorem sendTransfer_reorder (x : BulkOut) (s : State) : (sendTransfer x s).lamio.reorder = s.lamio.reorder := by
  unfold sendTransfer
  dsimp only
  have hcarries := ((Carries.refl s).sendBulk x.dest x.tag (ceilDiv x.data.length 224) x.src x.off x.data).reorder
  generalize sendBulk x.dest x.tag x.src x.off (ceilDiv x.data.length 224) x.data s = v at hcarries ⊢
  rw [sendHedge_eq]
  exact hcarries

/-! ### The rows -/

theorem perform_write (p : Packet) (s : State) : perform ptWrite p s = doWrite p s := by
  unfold perform
  rw [if_neg (by decide), if_pos rfl]

theorem perform_readReq (p : Packet) (s : State) : perform ptReadReq p s = doRead p s := by
  unfold perform
  rw [if_pos rfl]

theorem perform_bulkReq (p : Packet) (s : State) : perform ptBulkReq p s = doBulk p s := by
  unfold perform
  rw [if_neg (by decide), if_neg (by decide), if_pos rfl]

theorem perform_bulkData (p : Packet) (s : State) :
    perform ptBulkData p s = noteBulk p (performWrite { p with context := none } s).2 := by
  unfold perform
  rw [if_neg (by decide), if_neg (by decide), if_neg (by decide), if_neg (by decide), if_neg (by decide), if_pos rfl]

theorem exec_write (p : Packet) (s : State) : exec (.write p) s = .next (packetRow ptWrite p s) := rfl

theorem exec_readReq (p : Packet) (s : State) : exec (.readReq p) s = .next (packetRow ptReadReq p s) := rfl

theorem exec_bulkReq (p : Packet) (s : State) : exec (.bulkReq p) s = .next (packetRow ptBulkReq p s) := rfl

/-- Bulk data carries no sequence and acts as it arrives. -/
theorem exec_bulkData (hdest : p.dest = s.holding.moduleId) (hassigned : s.assigned = true) :
    exec (.bulkData p) s = .next (noteBulk p (performWrite { p with context := none } s).2) := by
  rw [← perform_bulkData]
  show Host.Outcome.next (packetRow ptBulkData p s) = _
  simp only [packetRow, hassigned, hdest, arriveInOrder, Bool.not_true, Bool.false_eq_true, if_false, bne_self_eq_false,
    if_pos (by decide : 2 ≤ ptVc ptBulkData)]

section

variable (hdest : p.dest = s.holding.moduleId) (hassigned : s.assigned = true)
include hdest hassigned

/-- A write in its turn is answered with what it did. -/
theorem exec_write_inTurn {st : Nat} (hturn : InTurn s ptWrite p) (hwrite : performWrite p (turned ptWrite p s) = (st, u))
    (haround : AroundMem s u) : exec (.write p) s = .next (respond ptWriteAck p st false [] u) := by
  rw [exec_write, packetRow_answered hdest hassigned hturn (by decide) (by rw [perform_write, doWrite_eq, hwrite]) haround]

/-- A write with a context word makes a version. -/
theorem write_task {task : W32} {low k : Nat} (hrange : p.offset.toNat + p.data.length ≤ s.mem.capacity)
    (hturn : InTurn s ptWrite p) (hcontext : p.context = some (task, low, k))
    (hreserved : touchesReserved s p.offset.toNat p.data.length = false)
    (hlayers : ∀ l ∈ s.mem.layers, layerKey l.tag ≤ 2 * fullStep s low + 1) :
    ∃ u, exec (.write p) s = .next (respond ptWriteAck p psOk false [] u) ∧ u.mem.base = s.mem.base ∧
      u.mem.layers = s.mem.layers ++
        [⟨.output (fullStep s low) task (writesSeedbed s (fullStep s low)), cellsAt p.offset.toNat p.data⟩] ∧ AroundMem s u := by
  obtain ⟨hbase, hlayer, hframe⟩ := taskWrite_spec (s := turned ptWrite p s) task (writesSeedbed s (fullStep s low))
    p.offset.toNat p.data p.poison hlayers
  have haround := aroundMem_of_turned hframe
  exact ⟨_, exec_write_inTurn hdest hassigned hturn (performWrite_task (s := turned ptWrite p s) hrange hcontext hreserved) haround,
    hbase, hlayer, haround⟩

end

/-- Settles O18: writes by whether they may write and have a context word, reads by whether they wait. -/
theorem remoteWritesAndReads : Obligations.RemoteWritesAndReads := by
  unfold Obligations.RemoteWritesAndReads
  refine ⟨fun s p hdest hassigned hrange => ⟨fun hturn hcontext hallowed => ?plain, fun hallowed => ?bulkData,
    fun task low k hturn hcontext hreserved hlayers => ?task, fun hturn hcontext hrefused => ?refused⟩,
    fun s p hdest hassigned => ⟨fun hturn hrange hready => ?read, fun hturn hrange hwait => ?waits,
      fun o dst d hturn hsource htarget hother hrange hlen hready => ?bulk⟩⟩
  case plain =>
    have hbytes := plainBytes_turned ptWrite p s
    exact ⟨_, exec_write_inTurn hdest hassigned hturn (performWrite_plain (s := turned ptWrite p s) hrange hcontext hallowed)
      hbytes.2.2, hbytes⟩
  case bulkData =>
    refine ⟨_, ?_, plainBytes_untouched p s⟩
    rw [exec_bulkData hdest hassigned, performWrite_plain (p := { p with context := none }) hrange rfl hallowed]
  case task =>
    obtain ⟨u, hexec, hbase, hlayer, haround⟩ := write_task hdest hassigned hrange hturn hcontext hreserved hlayers
    have hread := readByte_append hbase hlayer u.run.head
    have hcell : ∀ i, i < p.data.length →
        cellAt (cellsAt p.offset.toNat p.data) (p.offset.toNat + i) = some (p.data.getD i 0) := by
      intro i hi
      rw [cellAt_cellsAt, if_pos (Nat.le_add_right _ _), Nat.add_sub_cancel_left]
      simp [hi]
    refine ⟨u, hexec, hbase, fun i hi => ?_, fun hstep i hi => ?_, fun r a ha => ?_, haround⟩
    · rw [hread, if_pos (by simp [sees]), hcell i hi, Option.getD_some]
    · have hsb : writesSeedbed s (fullStep s low) = false :=
        Bool.eq_false_iff.2 fun h => Nat.not_lt.2 hstep (stepOf_head_lt_of_writesSeedbed h)
      rw [hread, if_pos (by simp [sees, hsb]), hcell i hi, Option.getD_some]
    · have hnone : cellAt (cellsAt p.offset.toNat p.data) a = none := by
        rw [cellAt_cellsAt]
        split
        · exact List.getElem?_eq_none (by omega)
        · rfl
      rw [hread, hnone, Option.getD_none, ite_self, haround.head]
  case refused =>
    exact ⟨_, exec_write_inTurn hdest hassigned hturn (performWrite_refused (s := turned ptWrite p s) hrange hcontext hrefused) rfl,
      rfl⟩
  case read =>
    obtain ⟨hbytes, hbase, haround⟩ := touch_turned ptReadReq p p.offset.toNat (8 * p.len8) s
    refine ⟨_, ?_, hbytes, hbase, haround⟩
    rw [exec_readReq, packetRow_answered hdest hassigned hturn (by decide) ?_ haround]
    rw [perform_readReq, doRead_of_ready (s := turned ptReadReq p s) hrange hready]
    rfl
  case waits =>
    have hdo := (perform_readReq p _).trans (doRead_of_waiting (s := turned ptReadReq p s) hrange hwait)
    refine ⟨_, (exec_readReq p s).trans (congrArg _ ((packetRow_inTurn hdest hassigned hturn (by decide) ?_).trans hdo)), rfl, rfl⟩
    rw [hdo]
    rfl
  case bulk =>
    obtain ⟨hbytes, hbase, haround⟩ := touch_turned ptBulkReq p o (field p.data 16 8) s
    have hdo := (perform_bulkReq p _).trans (doBulk_out (s := turned ptBulkReq p s) hsource htarget hother hrange hlen hready)
    refine ⟨_, (exec_bulkReq p s).trans (congrArg _ ((packetRow_inTurn hdest hassigned hturn (by decide) ?_).trans hdo)), hbytes,
      hbase, haround⟩
    rw [hdo, Carries.reorder ((Carries.refl _).respond ..), sendTransfer_reorder]
    exact haround.reorder

end Sys2Proof.Proofs
end

section
/-!
PROOFS. The link layer's flits and timers, and transactions that time out (14 R294 to R297, R309, 15 R324, R337, 19 R400).
-/
namespace Sys2Proof.Proofs

open Sys2Proof Sys2Proof.Machine Sys2Proof.Safety Sys2Proof.Laws

variable {s t u : State} {p : Nat} {hedge : Bool} {flit : Bytes}

/-! ### What a port keeps when flits leave by it -/

/-- The ports have in `t` the widths, lane masks and training of `s`. -/
structure SameLinks (s t : State) : Prop where
  at_port : ∀ q, (port t q).width = (port s q).width ∧ (port t q).mask = (port s q).mask ∧ (port t q).retraining = (port s q).retraining

theorem SameLinks.refl (s : State) : SameLinks s s := ⟨fun _ => ⟨rfl, rfl, rfl⟩⟩

theorem SameLinks.trans (a : SameLinks s t) (b : SameLinks t u) : SameLinks s u := ⟨fun q => by
  obtain ⟨hwidth, hmask, hretraining⟩ := a.at_port q
  obtain ⟨hwidth', hmask', hretraining'⟩ := b.at_port q
  exact ⟨hwidth'.trans hwidth, hmask'.trans hmask, hretraining'.trans hretraining⟩⟩

theorem SameLinks.of_ports (h : t.lamio.ports = s.lamio.ports) : SameLinks s t := ⟨fun q => by
  unfold port; rw [h]; exact ⟨rfl, rfl, rfl⟩⟩

theorem sameLinks_setPort {f : Port → Port} (hf : ∀ x, (f x).width = x.width ∧ (f x).mask = x.mask ∧ (f x).retraining = x.retraining)
    (p : Nat) (s : State) : SameLinks s (setPort p f s) := ⟨fun q => by
  by_cases hq : q = p
  · rw [hq, port_setPort_same]; exact hf _
  · rw [port_setPort_other hq]; exact ⟨rfl, rfl, rfl⟩⟩

theorem sameLinks_holdLink (p : Nat) (farOk : Bool) (s : State) : SameLinks s (holdLink p farOk s) := by
  unfold holdLink
  split
  · exact sameLinks_setPort (f := fun q => { q with heldDown := false }) (fun _ => ⟨rfl, rfl, rfl⟩) p s
  split
  · exact .refl s
  · refine SameLinks.trans ?_ (.of_ports (ports_raise ..))
    exact sameLinks_setPort (f := fun q => { q with heldDown := true }) (fun _ => ⟨rfl, rfl, rfl⟩) p s

/-- From `s` to `t` flits have left, or wait: ports, counters and what is sent have changed, and no port's width or training. -/
def Flies (s t : State) : Prop :=
  t = { s with lamio.ports := t.lamio.ports, counters.values := t.counters.values, out := t.out } ∧ SameLinks s t

theorem Flies.refl (s : State) : Flies s s := ⟨rfl, .refl s⟩

theorem Flies.trans (a : Flies s t) (b : Flies t u) : Flies s u := by
  obtain ⟨hframe, hlinks⟩ := a
  obtain ⟨hframe', hlinks'⟩ := b
  exact ⟨by rw [hframe', hframe], hlinks.trans hlinks'⟩

theorem flies_setData (p : Nat) (f : LaneClass → LaneClass) (s : State) : Flies s (setPort p (fun x => { x with data := f x.data }) s) :=
  ⟨rfl, sameLinks_setPort (f := fun x => { x with data := f x.data }) (fun _ => ⟨rfl, rfl, rfl⟩) p s⟩

theorem flies_sendFlit (p ty : Nat) (q : Packet) (corrupt : Option (Nat × Byte)) (s : State) : Flies s (sendFlit p ty q corrupt s) := by
  unfold sendFlit
  split
  · exact flies_setData p (fun x => { x with blocked := x.blocked ++ [(ty, q, corrupt)] }) s
  · refine ⟨rfl, SameLinks.trans (sameLinks_setPort (f := fun x => { x with data := { x.data with
      sendSeq := (x.data.sendSeq + 1) % 4096
      buffer := x.data.buffer ++ [(x.data.sendSeq,
        flitBytes (port s p).data.sendSeq (((port s p).data.recvSeq + 4095) % 4096) 0 (packetBytes ty q))]
      sentAt := if x.data.buffer.isEmpty then s.clock.up else x.data.sentAt } }) (fun _ => ⟨rfl, rfl, rfl⟩) p s) (.of_ports rfl)⟩

theorem flies_sendBlocked (p n : Nat) (s : State) : Flies s (sendBlocked p n s) := by
  induction n generalizing s with
  | zero => exact .refl s
  | succ n ih =>
    unfold sendBlocked
    split
    · exact .refl s
    next rest _ =>
      split
      · exact .refl s
      · exact ((flies_setData p (fun x => { x with blocked := rest }) s).trans (flies_sendFlit ..)).trans (ih _)

theorem flies_resendBuffer (p : Nat) (hedge : Bool) (s : State) : Flies s (resendBuffer p hedge s) := ⟨rfl, .of_ports rfl⟩

/-! ### A lane class of a port -/

@[simp] theorem laneClass_setClass (p : Nat) (hedge : Bool) (f : LaneClass → LaneClass) (s : State) :
    laneClass hedge (port (setClass p hedge f s) p) = f (laneClass hedge (port s p)) := by
  unfold setClass
  rw [port_setPort_same]
  cases hedge <;> rfl

theorem laneClass_setPort {f : Port → Port} (hf : ∀ x, laneClass hedge (f x) = laneClass hedge x) :
    laneClass hedge (port (setPort p f s) p) = laneClass hedge (port s p) := by
  rw [port_setPort_same, hf]

theorem retraining_setClass (p : Nat) (hedge : Bool) (f : LaneClass → LaneClass) (s : State) :
    (port (setClass p hedge f s) p).retraining = (port s p).retraining := by
  unfold setClass
  rw [port_setPort_same]
  cases hedge <;> rfl

theorem ackFlits_buffer (ack now : Nat) (c : LaneClass) :
    (ackFlits ack now c).buffer = c.buffer.filter fun f => !decide ((ack + 4096 - f.1) % 4096 < 2048) := by
  unfold ackFlits
  dsimp only
  split
  next h => exact (List.filter_eq_self.2 (List.length_filter_eq_length_iff.1 h)).symm
  · rfl

theorem ackFlits_recvSeq (ack now : Nat) (c : LaneClass) : (ackFlits ack now c).recvSeq = c.recvSeq := by
  unfold ackFlits
  dsimp only
  split <;> rfl

theorem ackFlits_blocked (ack now : Nat) (c : LaneClass) : (ackFlits ack now c).blocked = c.blocked := by
  unfold ackFlits
  dsimp only
  split <;> rfl

/-! ### A flit received (14 R294, R295, R297) -/

/-- The credits a flit brings. -/
def credited (p : Nat) (flit : Bytes) (s : State) : State :=
  let h := field flit 0 8
  setPort p (fun q => { q with credits := q.credits.set (bits h 30 2) (q.credits.getD (bits h 30 2) 0 + bits h 32 10) }) s

theorem laneClass_credited (p : Nat) (hedge : Bool) (flit : Bytes) (s : State) :
    laneClass hedge (port (credited p flit s) p) = laneClass hedge (port s p) :=
  laneClass_setPort fun _ => rfl

theorem port_linkAnswer (p : Nat) (hedge : Bool) (seq : Nat) (nak : Bool) (s : State) (q : Nat) :
    port (linkAnswer p hedge seq nak s) q = port s q := rfl

/-- An answer on a link, where otherwise only ports have changed. -/
theorem linkAnswer_around (hu : u = { s with lamio.ports := u.lamio.ports }) (p : Nat) (hedge : Bool) (seq : Nat) (nak : Bool) :
    (linkAnswer p hedge seq nak u).out = { s.out with acks := s.out.acks ++ [(p, hedge, seq, nak)] } ∧
      { linkAnswer p hedge seq nak u with lamio.ports := s.lamio.ports, out := s.out } = s := by
  rw [linkAnswer, hu]
  exact ⟨rfl, rfl⟩

theorem exec_flitReceive (p : Nat) (hedge : Bool) (flit : Bytes) (s : State) :
    exec (.flitReceive p hedge flit) s = .next (flitReceive p hedge flit s) := rfl

theorem flitReceive_of_badCrc (hwidth : (port s p).width ≠ 0)
    (hcrc : crc64 (flit.take 248) ≠ BitVec.ofNat 64 (field flit 248 8)) :
    flitReceive p hedge flit s =
      linkAnswer p hedge (((laneClass hedge (port s p)).recvSeq + 4095) % 4096) true (countLink p 0 s) := by
  unfold flitReceive
  rw [if_neg hwidth]
  exact if_pos (bne_iff_ne.2 hcrc)

/-- No packet waits at the port's data class when the flit is one of it. -/
abbrev NoneWaits (s : State) (p : Nat) (hedge : Bool) : Prop := hedge = false → (port s p).data.blocked = []

theorem sendBlocked_of_noneWaits (h : NoneWaits s p hedge) :
    (if hedge then s else sendBlocked p (port s p).data.blocked.length s) = s := by
  cases hedge with
  | true => rfl
  | false =>
    rw [h rfl]
    rfl

/-- The body of a data flit with a zero header holds no packet. -/
theorem flitPackets_of_zero {body : Bytes} (h : byteAt body 0 = 0) (n : Nat) : flitPackets n body = [] := by
  cases n with
  | zero => rfl
  | succ n =>
    have htype : (parsePacket body).1 = 0 := by
      show bits (field body 0 16) 0 6 = 0
      cases body with
      | nil => decide
      | cons b body =>
        have hb : b.toNat = 0 := h
        have hfield : field (b :: body) 0 16 = 256 * leNat (body.take 15) := by
          simp [field, slice, leNat, hb]
        rw [hfield, bits]
        omega
    unfold flitPackets
    simp [htype]

theorem byteAt_body (flit : Bytes) : byteAt (slice flit 8 240) 0 = byteAt flit 8 := by
  simp [byteAt, slice]

/-- A good data flit in sequence that holds no packet. -/
theorem flitReceive_inSequence (hwidth : (port s p).width ≠ 0)
    (hcrc : crc64 (flit.take 248) = BitVec.ofNat 64 (field flit 248 8)) (hkind : bits (field flit 0 8) 28 2 = 0)
    (hack : bitOf (field flit 0 8) 24 = false) (hseq : bits (field flit 0 8) 0 12 = (laneClass hedge (port s p)).recvSeq)
    (hempty : byteAt flit 8 = 0) (hwaits : NoneWaits s p hedge) :
    flitReceive p hedge flit s = linkAnswer p hedge (bits (field flit 0 8) 0 12) false
      (setClass p hedge (fun c => { c with recvSeq := (c.recvSeq + 1) % 4096 }) (credited p flit s)) := by
  have hbody := flitPackets_of_zero ((byteAt_body flit).trans hempty) 15
  unfold flitReceive
  simp only [if_neg hwidth, hcrc, bne_self_eq_false, hack, hkind, hseq, Bool.false_and, Bool.false_eq_true, if_false,
    sendBlocked_of_noneWaits hwaits, hbody, List.foldl_nil, (by decide : (0 : Nat) ≠ 1), (by decide : (0 : Nat) ≠ 3),
    (by decide : (0 : Nat) ≠ 2)]
  rfl

/-- An acknowledgement alone. -/
theorem flitReceive_ack (hwidth : (port s p).width ≠ 0)
    (hcrc : crc64 (flit.take 248) = BitVec.ofNat 64 (field flit 248 8)) (hkind : bits (field flit 0 8) 28 2 = 1)
    (hack : bitOf (field flit 0 8) 24 = true) (hnak : bitOf (field flit 0 8) 25 = false) (hwaits : NoneWaits s p hedge) :
    flitReceive p hedge flit s =
      credited p flit (setClass p hedge (ackFlits (bits (field flit 0 8) 12 12) s.clock.up) s) := by
  have hwaits' : NoneWaits (setClass p hedge (ackFlits (bits (field flit 0 8) 12 12) s.clock.up) s) p hedge := by
    rintro rfl
    have hclass := laneClass_setClass p false (ackFlits (bits (field flit 0 8) 12 12) s.clock.up) s
    exact (congrArg LaneClass.blocked hclass).trans ((ackFlits_blocked ..).trans (hwaits rfl))
  unfold flitReceive
  simp only [if_neg hwidth, hcrc, bne_self_eq_false, hack, hnak, hkind, Bool.and_false, Bool.false_eq_true, if_false, if_true,
    sendBlocked_of_noneWaits hwaits']
  rfl

/-! ### The timers of a link -/

/-- The retry buffer sent again, and the retry counted. -/
def retried (p : Nat) (hedge : Bool) (s : State) : State :=
  setClass p hedge (fun c => { c with retries := c.retries + 1, sentAt := s.clock.up }) (resendBuffer p hedge (countLink p 1 s))

theorem retried_eq (p : Nat) (hedge : Bool) (s : State) : retried p hedge s = { s with
    lamio.ports := (retried p hedge s).lamio.ports, counters.values := (retried p hedge s).counters.values
    out.flits := s.out.flits ++ (laneClass hedge (port s p)).buffer.map fun f => (p, hedge, f.2) } := rfl

theorem laneClass_retried (p : Nat) (hedge : Bool) (s : State) : laneClass hedge (port (retried p hedge s) p) =
    { laneClass hedge (port s p) with retries := (laneClass hedge (port s p)).retries + 1, sentAt := s.clock.up } :=
  laneClass_setClass ..

theorem retraining_retried (p : Nat) (hedge : Bool) (s : State) : (port (retried p hedge s) p).retraining = (port s p).retraining :=
  retraining_setClass ..

/-- The port put into training. -/
def retrains (p : Nat) (s : State) : State := countLink p 2 (setPort p (fun q => { q with retraining := true }) s)

theorem retrains_eq (p : Nat) (s : State) : retrains p s = { s with
    lamio.ports := (retrains p s).lamio.ports, counters.values := (retrains p s).counters.values } := rfl

theorem port_retrains (p : Nat) (s : State) : port (retrains p s) p = { port s p with retraining := true } :=
  port_setPort_same p (fun q => { q with retraining := true }) s

theorem linkRetry_of_due (hwidth : (port s p).width ≠ 0) (hretraining : (port s p).retraining = false)
    (hbuffer : (laneClass hedge (port s p)).buffer ≠ []) (hdue : (laneClass hedge (port s p)).sentAt + 2000 ≤ s.clock.up) :
    linkRetry p hedge s =
      if 8 ≤ (laneClass hedge (port s p)).retries + 1 then retrains p (retried p hedge s) else retried p hedge s := by
  refine if_neg ?_
  simp [hwidth, hretraining, hbuffer, hdue]

/-- A port trained: the width its lanes give, and no longer in training. -/
theorem port_trainWidth (p : Nat) (m : W16) (s : State) :
    (port (trainWidth p m s) p).width = widthOf m ∧ (port (trainWidth p m s) p).mask = m ∧
      (port (trainWidth p m s) p).retraining = false := by
  have hraise : ∀ c d u, port (raise c d u) p = port u p := fun c d u => by unfold port; rw [ports_raise]
  have hnote : ∀ f, port (notePorts (setPort p f s)) p = f (port s p) := fun f => port_setPort_same p f s
  unfold trainWidth takeDown
  dsimp only
  split
  next hzero =>
    split
    · rw [hraise, hnote]
      exact ⟨hzero.symm, rfl, rfl⟩
    · rw [hnote]
      exact ⟨hzero.symm, rfl, rfl⟩
  · split
    · rw [hnote]
      exact ⟨rfl, rfl, rfl⟩
    · rw [hraise, hnote]
      exact ⟨rfl, rfl, rfl⟩

theorem port_trainPort (p : Nat) (m : W16) (farOk : Bool) (s : State) :
    (port (trainPort p m farOk s) p).width = widthOf m ∧ (port (trainPort p m farOk s) p).mask = m ∧
      (port (trainPort p m farOk s) p).retraining = false := by
  obtain ⟨hwidth, hmask, hretraining⟩ := (sameLinks_holdLink p farOk (trainWidth p m s)).at_port p
  obtain ⟨hwidth', hmask', hretraining'⟩ := port_trainWidth p m s
  exact ⟨hwidth.trans hwidth', hmask.trans hmask', hretraining.trans hretraining'⟩

theorem linkRetrain_up {m : W16} (far : Bool) (hretraining : (port s p).retraining = true) (hwidth : widthOf m ≠ 0) :
    Flies (trainPort p m far s) (linkRetrain p m far s) := by
  obtain ⟨htrained, -, -⟩ := port_trainPort p m far s
  unfold linkRetrain
  rw [if_pos hretraining]
  dsimp only
  rw [if_neg (by rw [htrained]; exact hwidth)]
  exact ((flies_resendBuffer ..).trans (flies_resendBuffer ..)).trans (flies_sendBlocked ..)

theorem Carries.detourBuffer (h : Carries s u) (p : Nat) : Carries s (detourBuffer p u) := by
  unfold Machine.detourBuffer
  dsimp only
  refine foldl_inv (p := Carries s) (fun _ _ hv => hv.sendPacket ..) _ ?_
  exact foldl_inv (p := Carries s) (fun _ _ hv => hv.sendPacket ..) _ (h.setPort ..)

section

variable (h : SameLinks s u)
include h

theorem SameLinks.countLink (p e : Nat) : SameLinks s (countLink p e u) := h.trans (.of_ports rfl)

theorem SameLinks.countStone (slot : Nat) : SameLinks s (countStone slot u) := h.trans (.of_ports rfl)

theorem SameLinks.sendFlit (p ty : Nat) (q : Packet) (corrupt : Option (Nat × Byte)) : SameLinks s (sendFlit p ty q corrupt u) :=
  h.trans (flies_sendFlit p ty q corrupt u).2

theorem SameLinks.transmit (p ty : Nat) (q : Packet) : SameLinks s (transmit p ty q u) := by
  unfold Machine.transmit
  dsimp only
  split
  · exact h.sendFlit ..
  next l _ =>
    have hstones : ∀ x, SameLinks s { u with stones := x } := fun _ => h.trans (.of_ports rfl)
    split
    · exact (hstones _).sendFlit ..
    split
    · exact (hstones _).countStone _
    split
    · exact ((hstones _).countStone _).sendFlit ..
    split
    · exact ((hstones _).countStone _).sendFlit ..
    · exact SameLinks.countStone (hstones _) _

theorem SameLinks.releaseHeld (p vc : Nat) : SameLinks s (releaseHeld p vc u) := by
  unfold Machine.releaseHeld
  exact foldl_inv (p := SameLinks s) (fun _ _ hv => hv.sendFlit ..) _ (h.trans (.of_ports rfl))

theorem SameLinks.sendPacket (ty : Nat) (reverse : Bool) (q : Packet) : SameLinks s (sendPacket ty reverse q u) := by
  unfold Machine.sendPacket
  split
  · split
    · exact h.trans (.of_ports rfl)
    · exact h
  next p detour _ =>
    dsimp only
    have hlink : SameLinks s (if detour then Machine.countLink p 3 u else u) := by
      split
      · exact h.countLink ..
      · exact h
    generalize (if detour then Machine.countLink p 3 u else u) = v at hlink ⊢
    split
    · exact (hlink.transmit ..).releaseHeld ..
    · exact hlink.transmit ..

theorem SameLinks.detourBuffer (p : Nat) : SameLinks s (detourBuffer p u) := by
  unfold Machine.detourBuffer
  dsimp only
  refine foldl_inv (p := SameLinks s) (fun _ _ hv => hv.sendPacket ..) _ ?_
  refine foldl_inv (p := SameLinks s) (fun _ _ hv => hv.sendPacket ..) _ ?_
  exact h.trans (flies_setData p (fun x => { x with buffer := [], blocked := [] }) u).2

end

theorem linkRetrain_down {m : W16} (far : Bool) (hretraining : (port s p).retraining = true) (hwidth : widthOf m = 0) :
    linkRetrain p m far s = detourBuffer p (trainPort p m far s) := by
  obtain ⟨htrained, -, -⟩ := port_trainPort p m far s
  unfold linkRetrain
  rw [if_pos hretraining]
  exact if_pos (htrained.trans hwidth)

theorem linkRetrainAttempt_of_due {m : W16} (far : Bool) (hwidth : (port s p).width = 0) (htripped : (port s p).tripped = false)
    (hready : s.startup.ready = true) (hdue : (port s p).triedAt + ms 100 ≤ s.clock.up) :
    linkRetrainAttempt p m far s =
      trainPort p m far (countLink p 2 (setPort p (fun q => { q with triedAt := s.clock.up }) s)) := by
  refine if_pos ?_
  simp [hwidth, htripped, hready, hdue]

/-! ### Transactions that time out (14 R309, 15 R324) -/

theorem finishJobs_of_no_job (h : s.run.jobs = []) (q : Job → Bool) (status detail : Nat) : finishJobs q status detail s = s := by
  have hjobs : ({ s with run.jobs := [] } : State) = s := by rw [← h]
  simp only [finishJobs, h, List.filter_nil, List.foldl_nil, hjobs]

/-- Whether a transaction is the one of a module and tag. -/
abbrev isTxn (dest : ModId) (tag : W16) (x : Txn) : Bool := x.dest == dest && x.tag == tag

theorem txnTimeout_resends {dest : ModId} {tag : W16} {x : Txn} (hx : s.lamio.txns.find? (isTxn dest tag) = some x)
    (hqueued : x.queued = false) (hdue : x.sentAt + us s.tmo.txn.toNat ≤ s.clock.up) (hresent : x.resent = false) :
    txnTimeout dest tag s = trace 4 2 false 0 (BitVec.allOnes 32) (lamioAddr dest x.p.offset.toNat)
      (sendPacket x.type true { x.p with detour := true } { s with
        lamio.txns := mapFirst (isTxn dest tag) (fun t => { t with resent := true, sentAt := s.clock.up }) s.lamio.txns }) := by
  simp [txnTimeout, hx, hqueued, Nat.not_lt.2 hdue, hresent]

theorem txnTimeout_expires {dest : ModId} {tag : W16} {x : Txn} (hx : s.lamio.txns.find? (isTxn dest tag) = some x)
    (hqueued : x.queued = false) (hdue : x.sentAt + us s.tmo.txn.toNat ≤ s.clock.up) (hresent : x.resent = true) :
    txnTimeout dest tag s = expireTxn x s := by
  simp [txnTimeout, hx, hqueued, Nat.not_lt.2 hdue, hresent]

/-- A transaction that ends with TIMEOUT, its answer kept and traced. -/
def expired (x : Txn) (s : State) : State :=
  trace 4 3 false 0 (BitVec.allOnes 32) (lamioAddr x.dest x.p.offset.toNat) { s with
    lamio.txns := s.lamio.txns.filter fun y => !isTxn x.dest x.tag y
    lamio.answers := s.lamio.answers ++ [(x.dest, x.tag, 15, [])] }

theorem expired_eq (x : Txn) (s : State) : expired x s = { s with
    lamio.txns := s.lamio.txns.filter fun y => !isTxn x.dest x.tag y
    lamio.answers := s.lamio.answers ++ [(x.dest, x.tag, 15, [])]
    sheaf := (expired x s).sheaf } := trace_eq ..

/-- A BAR4 load that has timed out reads ones. -/
def hostTimedOut (x : Txn) (s : State) : State :=
  if x.bar4 then
    { count 0x2E4 1 s with
      out.loads := if x.type = ptReadReq then s.out.loads ++ [(List.replicate (8 * x.p.len8) 0xFF, false)] else s.out.loads }
  else s

theorem hostTimedOut_eq (x : Txn) (s : State) : hostTimedOut x s = { s with
    counters.values := (hostTimedOut x s).counters.values, out := (hostTimedOut x s).out } := by
  unfold hostTimedOut
  split <;> rfl

theorem expireTxn_of_txn {x : Txn} (htask : x.task = none) (hjobs : s.run.jobs = []) (hqueued : ∀ y ∈ s.lamio.txns, y.queued = false) :
    expireTxn x s = hostTimedOut x (expired x s) := by
  simp only [expireTxn, htask]
  show launchNext x.dest (finishJobs (awaitsTag x.tag) stTimeout 0 (hostTimedOut x (expired x s))) = hostTimedOut x (expired x s)
  have hframe := hostTimedOut_eq x (expired x s)
  rw [finishJobs_of_no_job (by rw [hframe, expired_eq]; exact hjobs), launchNext_of_none_queued]
  rw [hframe, expired_eq]
  exact fun y hy => hqueued y (List.mem_of_mem_filter hy)

/-! ### Packets that a stone holds (15 R337) -/

/-- Flits that find room leave in their order. -/
theorem packets_sendFlits {α : Type} {p : Nat} (ty : α → Nat) (q : α → Packet) (l : List α) :
    ∀ s : State, (port s p).retraining = false → (port s p).data.buffer.length + l.length ≤ retryFlits →
      (l.foldl (fun t x => sendFlit p (ty x) (q x) none t) s).out.packets = s.out.packets ++ l.map fun x => (p, ty x, q x) := by
  induction l with
  | nil => exact fun s _ _ => (List.append_nil _).symm
  | cons x l ih =>
    intro s hretraining hroom
    rw [List.length_cons] at hroom
    have hfree : portBlocked s p = false := by
      simp only [portBlocked, hretraining, Bool.false_or, decide_eq_false_iff_not]
      omega
    have hleaves := sendFlit_leaves p (ty x) (q x) s
    rw [if_neg (by rw [hfree]; exact Bool.false_ne_true)] at hleaves
    have hbuffer : (port (sendFlit p (ty x) (q x) none s) p).data.buffer.length = (port s p).data.buffer.length + 1 := by
      unfold sendFlit
      rw [if_neg (by rw [hfree]; exact Bool.false_ne_true)]
      show (port (setPort p _ s) p).data.buffer.length = _
      rw [port_setPort_same]
      simp
    obtain ⟨-, -, hsame⟩ := (flies_sendFlit p (ty x) (q x) none s).2.at_port p
    rw [List.foldl_cons, ih _ (hsame.trans hretraining) (by omega), hleaves, List.append_assoc]
    rfl

theorem flies_sendFlits {α : Type} (p : Nat) (ty : α → Nat) (q : α → Packet) (l : List α) (s : State) :
    Flies s (l.foldl (fun t x => sendFlit p (ty x) (q x) none t) s) :=
  foldl_inv (p := Flies s) (fun _ _ h => h.trans (flies_sendFlit ..)) l (.refl s)

/-- Settles O21: a flit by its checksum and kind, and each timer when it is due. -/
theorem flitsAndLinkTimers : Obligations.FlitsAndLinkTimers := by
  unfold Obligations.FlitsAndLinkTimers
  refine ⟨fun s p hedge flit hwidth => ⟨fun hcrc => ?badCrc, fun hcrc hkind hack hseq hempty hwaits => ?inSequence,
    fun hcrc hkind hack hnak hwaits => ?ack⟩, fun s p => ⟨fun hedge => ?retry,
      fun m far hretraining hwidth => ?up, fun m far hretraining hwidth => ?down,
      fun m far hwidth htripped hready hdue => ?attempt, fun dest tag x hx hdue htask hjobs hqueued => ?txn,
      fun vc hretraining hroom => ?held⟩⟩
  case badCrc =>
    exact ⟨_, (exec_flitReceive ..).trans (congrArg _ (flitReceive_of_badCrc hwidth hcrc)), rfl, rfl⟩
  case inSequence =>
    refine ⟨_, (exec_flitReceive ..).trans (congrArg _ (flitReceive_inSequence hwidth hcrc hkind hack hseq hempty hwaits)),
      ?_, ?_, linkAnswer_around ?_ ..⟩
    · rw [port_linkAnswer, laneClass_setClass, laneClass_credited]
    · rw [port_linkAnswer, laneClass_setClass, laneClass_credited]
    · rfl
  case ack =>
    refine ⟨_, (exec_flitReceive ..).trans (congrArg _ (flitReceive_ack hwidth hcrc hkind hack hnak hwaits)), ?_, ?_, rfl, rfl⟩
    · rw [laneClass_credited, laneClass_setClass, ackFlits_buffer]
    · rw [laneClass_credited, laneClass_setClass, ackFlits_recvSeq]
  case retry =>
    intro c hwidth hretraining hbuffer hdue
    have hexec : exec (.linkRetry p hedge) s = .next (linkRetry p hedge s) := rfl
    rw [hexec, linkRetry_of_due hwidth hretraining hbuffer hdue]
    have hclass := laneClass_retried p hedge s
    by_cases hlast : 8 ≤ c.retries + 1
    · have hclass' : laneClass hedge (port (retrains p (retried p hedge s)) p) = laneClass hedge (port (retried p hedge s) p) := by
        rw [port_retrains]
        rfl
      rw [if_pos hlast]
      refine ⟨_, rfl, ?_, ?_, ?_, ?_, ?_⟩
      · rw [retrains_eq, retried_eq]
      · rw [hclass', hclass]
      · rw [hclass', hclass]
      · rw [decide_eq_true hlast, port_retrains]
      · rw [retrains_eq, retried_eq]
    · rw [if_neg hlast]
      refine ⟨_, rfl, ?_, ?_, ?_, ?_, ?_⟩
      · rw [retried_eq]
      · rw [hclass]
      · rw [hclass]
      · rw [decide_eq_false hlast, retraining_retried, hretraining]
      · rw [retried_eq]
  case up =>
    have hexec : exec (.linkRetrain p m far) s = .next (linkRetrain p m far s) := rfl
    obtain ⟨hframe, hlinks⟩ := linkRetrain_up far hretraining hwidth
    have htrain := (Rewires.refl s).trainPort p m far
    obtain ⟨hwidth', hmask, hdone⟩ := port_trainPort p m far s
    obtain ⟨hwidth'', hmask', hdone'⟩ := hlinks.at_port p
    refine ⟨_, hexec, hwidth''.trans hwidth', hmask'.trans hmask, hdone'.trans hdone, ?_⟩
    rw [hframe, htrain]
  case down =>
    have hexec : exec (.linkRetrain p m far) s = .next (linkRetrain p m far s) := rfl
    have htrain := (Rewires.refl s).trainPort p m far
    obtain ⟨hwidth', -, -⟩ := port_trainPort p m far s
    obtain ⟨hwidth'', -, -⟩ := ((SameLinks.refl (trainPort p m far s)).detourBuffer p).at_port p
    have hcarries := (Carries.refl (trainPort p m far s)).detourBuffer p
    refine ⟨_, hexec.trans (congrArg _ (linkRetrain_down far hretraining hwidth)),
      hwidth''.trans (hwidth'.trans hwidth), ?_, ?_, ?_⟩
    all_goals rw [hcarries, htrain]
  case attempt =>
    have hexec : exec (.linkRetrainAttempt p m far) s = .next (linkRetrainAttempt p m far s) := rfl
    obtain ⟨hwidth', hmask, -⟩ := port_trainPort p m far (countLink p 2 (setPort p (fun q => { q with triedAt := s.clock.up }) s))
    refine ⟨_, hexec.trans (congrArg _ (linkRetrainAttempt_of_due far hwidth htripped hready hdue)), hwidth', hmask, ?_⟩
    rw [(Rewires.refl _).trainPort p m far]
    rfl
  case txn =>
    have hexec : exec (.txnTimeout dest tag) s = .next (txnTimeout dest tag s) := rfl
    have hfree := hqueued x (List.mem_of_find?_eq_some hx)
    have hkey : isTxn dest tag x = true := List.find?_some hx
    simp only [Bool.and_eq_true, beq_iff_eq] at hkey
    obtain ⟨rfl, rfl⟩ := hkey
    cases hresent : x.resent with
    | false =>
      rw [hexec, txnTimeout_resends hx hfree hdue hresent, trace_eq]
      have hcarries := (Carries.refl { s with
        lamio.txns := mapFirst (isTxn x.dest x.tag) (fun t => { t with resent := true, sentAt := s.clock.up }) s.lamio.txns
          }).sendPacket x.type true { x.p with detour := true }
      refine ⟨_, rfl, ?_, ?_, ?_, fun _ => ⟨?_, ?_⟩, fun h => absurd h Bool.false_ne_true⟩
      · rw [hcarries]
      · rw [hcarries]
      · rw [hcarries]
      · rw [hcarries]
      · rw [hcarries]
        exact (find?_mapFirst (p := isTxn x.dest x.tag) (f := fun t => { t with resent := true, sentAt := s.clock.up })
          (fun _ => rfl) s.lamio.txns).trans (congrArg (Option.map _) hx)
    | true =>
      rw [hexec, txnTimeout_expires hx hfree hdue hresent, expireTxn_of_txn htask hjobs hqueued]
      have hframe := hostTimedOut_eq x (expired x s)
      refine ⟨_, rfl, ?_, ?_, ?_, fun h => absurd h.symm Bool.false_ne_true, fun _ => ⟨?_, ?_⟩⟩
      all_goals rw [hframe, expired_eq]
  case held =>
    have hexec : exec (.reorderHoldExpiry p vc) s = .next ((s.stones.holding.filter fun x =>
      x.1 == p && x.2.1 == vc && decide (x.2.2.2.2.2 + 2000 ≤ s.clock.up)).foldl
        (fun t x => sendFlit p x.2.2.2.1 x.2.2.2.2.1 none t) { s with stones.holding := s.stones.holding.filter fun x =>
          !(x.1 == p && x.2.1 == vc && decide (x.2.2.2.2.2 + 2000 ≤ s.clock.up)) }) := rfl
    rw [hexec]
    have hfew := List.length_filter_le (fun x => x.1 == p && x.2.1 == vc && decide (x.2.2.2.2.2 + 2000 ≤ s.clock.up)) s.stones.holding
    generalize hdue : s.stones.holding.filter (fun x => x.1 == p && x.2.1 == vc && decide (x.2.2.2.2.2 + 2000 ≤ s.clock.up)) = due
      at hfew ⊢
    generalize hleft : ({ s with stones.holding := _ } : State) = v
    have hpackets := packets_sendFlits (p := p) (fun x => x.2.2.2.1) (fun x => x.2.2.2.2.1) due v
      (by rw [← hleft]; exact hretraining) (by rw [← hleft]; exact (Nat.add_le_add_left hfew _).trans hroom)
    obtain ⟨hframe, -⟩ := flies_sendFlits p (fun x => x.2.2.2.1) (fun x => x.2.2.2.2.1) due v
    refine ⟨_, rfl, ?_, ?_, ?_⟩
    · rw [hframe, ← hleft]
    · rw [hpackets, ← hleft]
    · rw [hframe, ← hleft]

end Sys2Proof.Proofs
end

section
/-!
PROOFS. Power control, power samples, clock steps, sensor readings and thermal trips (19 R393 to R400).
-/
namespace Sys2Proof.Proofs

open Sys2Proof Sys2Proof.Machine Sys2Proof.Safety Sys2Proof.Laws

variable {s t u : State}

/-! ### Who decides the clock step -/

/-- From `s` to `t` power and notices have changed. -/
def Powers (s t : State) : Prop := t = { s with power := t.power, host := t.host, sheaf := t.sheaf, out := t.out }

theorem Powers.trans (a : Powers s t) (b : Powers t u) : Powers s u := by
  unfold Powers at *; rw [b, a]

theorem Powers.frame (h : Powers s t) : { t with power := s.power, host := s.host, sheaf := s.sheaf, out := s.out } = s := by
  rw [h]

theorem Powers.of_noted (h : Noted s t) : Powers s t := by
  unfold Powers Noted at *; rw [h]

theorem powers_noteDeciders (s : State) : Powers s (noteDeciders s) := rfl

theorem powers_power (h : Powers s t) (p : Power) : Powers s { t with power := p } := by
  unfold Powers at *; rw [h]

theorem frame_noteDeciders (p : Power) (s : State) : { noteDeciders s with power := p } = { s with power := p } := rfl

theorem capStep_noteDeciders (s : State) : (noteDeciders s).power.capStep = s.power.capStep := rfl

theorem thermalStep_noteDeciders (s : State) : (noteDeciders s).power.thermalStep = s.power.thermalStep := rfl

theorem capUnmet_noteDeciders (s : State) : (noteDeciders s).power.capUnmet = s.power.capUnmet := rfl

/-- A step newly decided, and the event where its episode begins. -/
theorem stepDecided {begins : Bool} {code detail : Nat} {v : State} (hv : Powers s v) (hsame : v.power.capStep = u.power.capStep ∧
    v.power.thermalStep = u.power.thermalStep) (hu : Powers s u) :
    let t := if begins then raise code detail v else u
    t.power.capStep = u.power.capStep ∧ t.power.thermalStep = u.power.thermalStep ∧ Powers s t := by
  dsimp only
  cases begins with
  | true =>
    have hnoted := noted_raise code detail v
    rw [if_pos rfl]
    refine ⟨?_, ?_, hv.trans (.of_noted hnoted)⟩
    · rw [hnoted]
      exact hsame.1
    · rw [hnoted]
      exact hsame.2
  | false => exact ⟨rfl, rfl, hu⟩

/-- With the clock unstepped nothing decides. -/
theorem noteDeciders_of_unstepped (h : clockStep s.power = 0) : noteDeciders s = s := by
  have hnone : ∀ own, decides own s.power = false := fun own => by simp [decides, h]
  simp only [noteDeciders, hnone, Bool.false_eq_true, if_false]

/-! ### The power-control register (19 R394) -/

theorem exec_powerControl (v : W64) (h : hostControls s = true) : exec (.powerControl v) s = .next { s with
    power := { writePowerControl v.toNat s.flash.record s.power with
      capWrittenAt := if (writePowerControl v.toNat s.flash.record s.power).capW = bits v.toNat 0 13 then some s.clock.up
        else s.power.capWrittenAt } } := by
  show execPowerControl v s = _
  simp only [execPowerControl, h, if_true, beq_iff_eq]
  rfl

/-! ### The steps of the clock (19 R395 to R399) -/

/-- A cap step decided anew, and POWER_CAP where an episode begins. -/
def capRaised (s : State) : State :=
  let u := noteDeciders { noteDeciders s with
    power.capStep := s.power.capStep + 1, power.windowCount := 0, power.windowSum := 0 }
  if !s.power.capEpisode && decides u.power.capStep u.power then
    raise evPowerCap (powerCapDetail u.power) { u with power.capEpisode := true }
  else u

theorem capRaised_spec (s : State) :
    (capRaised s).power.capStep = s.power.capStep + 1 ∧ (capRaised s).power.thermalStep = s.power.thermalStep ∧
      Powers s (capRaised s) := by
  have hpowers : Powers s (noteDeciders { noteDeciders s with
      power.capStep := s.power.capStep + 1, power.windowCount := 0, power.windowSum := 0 }) :=
    (powers_power (powers_noteDeciders s) _).trans (powers_noteDeciders _)
  exact stepDecided (powers_power hpowers _) ⟨rfl, rfl⟩ hpowers

theorem exec_capStepRaise (hgood : s.power.pwrGood = true) (hover : s.power.capW * s.power.windowCount < s.power.windowSum) :
    exec .capStepRaise s =
      .next (if s.power.capStep < 48 then capRaised s else { s with power.capUnmet := true }) := by
  show execCapStepRaise s = _
  unfold execCapStepRaise
  dsimp only
  rw [if_pos (by rw [hgood, decide_eq_true hover]; rfl)]
  rfl

theorem exec_capStepLower (hgood : s.power.pwrGood = true) (hstep : 0 < s.power.capStep)
    (hunder : 100 * s.power.samples.foldl (· + ·) 0 < 98 * s.power.capW * s.power.samples.length) :
    exec .capStepLower s = .next (noteDeciders { noteDeciders s with
      power.capStep := s.power.capStep - 1, power.capUnmet := false, power.windowCount := 0, power.windowSum := 0 }) := by
  show execCapStepLower s = _
  unfold execCapStepLower
  dsimp only
  rw [if_pos (by rw [hgood, decide_eq_true hstep, decide_eq_true hunder]; rfl)]

/-- The thermal step decided anew, and THROTTLE for sensor `i` where an episode begins. -/
def throttled (i : Nat) (s : State) : State :=
  let u := noteDeciders { noteDeciders s with power.thermalStep := s.power.thermalStep + 1 }
  if !s.power.thermEpisode && decides u.power.thermalStep u.power then
    raise evThrottle (sensorDetail (clockStep u.power) i (s.power.sensors.getD i 0x8000)) { u with power.thermEpisode := true }
  else u

theorem throttled_spec (i : Nat) (s : State) :
    (throttled i s).power.capStep = s.power.capStep ∧ (throttled i s).power.thermalStep = s.power.thermalStep + 1 ∧
      Powers s (throttled i s) := by
  have hpowers : Powers s (noteDeciders { noteDeciders s with power.thermalStep := s.power.thermalStep + 1 }) :=
    (powers_power (powers_noteDeciders s) _).trans (powers_noteDeciders _)
  exact stepDecided (powers_power hpowers _) ⟨rfl, rfl⟩ hpowers

theorem exec_thermalStepRaise {i : Nat} (hgood : s.power.pwrGood = true) (hi : i < 108)
    (hhot : atLeast (s.power.sensors.getD i 0x8000) (throttleLimit s.power i) = true) (hstep : s.power.thermalStep < 48) :
    ∃ j, exec .thermalStepRaise s = .next (throttled j s) := by
  have hfound : ((List.range 108).find? fun i => atLeast (s.power.sensors.getD i 0x8000) (throttleLimit s.power i)).isSome = true :=
    List.find?_isSome.2 ⟨i, List.mem_range.2 hi, hhot⟩
  obtain ⟨j, hj⟩ := Option.isSome_iff_exists.1 hfound
  refine ⟨j, ?_⟩
  show execThermalStepRaise s = _
  simp only [execThermalStepRaise, hj, hgood, decide_eq_true hstep, Bool.and_self, if_true]
  rfl

theorem exec_thermalStepLower (hgood : s.power.pwrGood = true) (hstep : 0 < s.power.thermalStep)
    (hcool : ∀ i, i < 108 → clearOf (s.power.sensors.getD i 0x8000) (throttleLimit s.power i) 3 = true) :
    exec .thermalStepLower s = .next (noteDeciders { noteDeciders s with power.thermalStep := s.power.thermalStep - 1 }) := by
  have hall : ((List.range 108).all fun i => clearOf (s.power.sensors.getD i 0x8000) (throttleLimit s.power i) 3) = true :=
    List.all_eq_true.2 fun i hi => hcool i (List.mem_range.1 hi)
  show execThermalStepLower s = _
  unfold execThermalStepLower
  dsimp only
  rw [if_pos (by rw [hgood, decide_eq_true hstep, hall]; rfl)]

theorem exec_episodeEnd_cap (hclock : clockStep s.power = 0) (hlong : s.power.capDecidedAt + 1000000000 ≤ s.clock.up) :
    exec (.episodeEnd false) s = .next { s with power.capEpisode := false } := by
  show execEpisodeEnd false s = _
  unfold execEpisodeEnd
  rw [noteDeciders_of_unstepped hclock]
  cases hepisode : s.power.capEpisode with
  | true =>
    have htime : decide (s.power.capDecidedAt + ms 1000 ≤ s.clock.up) = true := decide_eq_true hlong
    simp [hepisode, htime]
  | false =>
    have hsame : { s with power.capEpisode := false } = s := by rw [← hepisode]
    rw [hsame]
    simp [hepisode]

theorem exec_episodeEnd_thermal (hclock : clockStep s.power = 0) (hlong : s.power.thermDecidedAt + 1000000000 ≤ s.clock.up) :
    exec (.episodeEnd true) s = .next { s with power.thermEpisode := false } := by
  show execEpisodeEnd true s = _
  unfold execEpisodeEnd
  rw [noteDeciders_of_unstepped hclock]
  cases hepisode : s.power.thermEpisode with
  | true =>
    have htime : decide (s.power.thermDecidedAt + ms 1000 ≤ s.clock.up) = true := decide_eq_true hlong
    simp [hepisode, htime]
  | false =>
    have hsame : { s with power.thermEpisode := false } = s := by rw [← hepisode]
    rw [hsame]
    simp [hepisode]

/-! ### The sensor array (19 R399, R400) -/

/-- From `s` to `t` near crossings are noted and ports may have gone down: of power only the near sensors have changed. -/
def Reads (s t : State) : Prop :=
  t = { s with
    power.nearSensors := t.power.nearSensors, lamio := t.lamio, stones := t.stones, counters.values := t.counters.values
    startup.portsUp := t.startup.portsUp, host := t.host, sheaf := t.sheaf, out := t.out }

theorem Reads.refl (s : State) : Reads s s := rfl

theorem Reads.trans (a : Reads s t) (b : Reads t u) : Reads s u := by
  unfold Reads at *; rw [b, a]

theorem Reads.of_rewires (h : Rewires s t) : Reads s t := by
  unfold Reads; rw [h]

theorem Reads.of_carries (h : Carries s t) : Reads s t := by
  unfold Reads; rw [h]

theorem reads_nearCrossing (i : Nat) (s : State) : Reads s (nearCrossing i s) := by
  unfold nearCrossing
  dsimp only
  split
  · split
    · exact .refl s
    · rw [raise_eq]
      rfl
  · rfl

theorem reads_opticalTrip (p : Nat) (s : State) : Reads s (opticalTrip p s) := by
  unfold opticalTrip
  dsimp only
  split
  · have hdown : Reads s (setPort p (fun q => { q with tripped := true }) (takeDown p (port s p).mask s)) :=
      .of_rewires (((Rewires.refl s).takeDown ..).setPort ..)
    split
    · exact hdown.trans (.of_carries ((Carries.refl _).detourBuffer p))
    · exact hdown
  split
  · exact .of_rewires ((Rewires.refl s).setPort ..)
  · exact .refl s

/-- The array read, near crossings noted, and the ports of hot optical engines taken down. -/
def sensed (r : List W16) (s : State) : State :=
  (List.range 8).foldl (fun s p => opticalTrip p s)
    ((List.range 108).foldl (fun s i => nearCrossing i s) { s with power.sensors := r })

theorem reads_sensed (r : List W16) (s : State) : Reads { s with power.sensors := r } (sensed r s) :=
  foldl_inv (p := Reads _) (fun t p h => h.trans (reads_opticalTrip p t)) _
    (foldl_inv (p := Reads _) (fun t i h => h.trans (reads_nearCrossing i t)) _ (.refl _))

theorem sensors_sensed (r : List W16) (s : State) : (sensed r s).power.sensors = r := by
  rw [reads_sensed r s]

theorem padSensors_of_length {r : List W16} (h : r.length = 128) : execSensorRead.padSensors r = r := by
  rw [execSensorRead.padSensors, List.take_of_length_le h.le, h]
  exact List.append_nil r

theorem exec_sensorRead_untripped {r : List W16} (hgood : s.power.pwrGood = true) (hlength : r.length = 128)
    (htrip : trippedSensor r = none) : exec (.sensorRead r) s = .next (withAlert (sensed r s)) := by
  have htrip' : trippedSensor (sensed r s).power.sensors = none := by rw [sensors_sensed, htrip]
  show execSensorRead r s = _
  unfold execSensorRead
  rw [if_pos hgood, padSensors_of_length hlength]
  unfold sensed at htrip' ⊢
  simp only [htrip']

theorem exec_sensorRead_tripped {r : List W16} {i : Nat} (hgood : s.power.pwrGood = true) (hlength : r.length = 128)
    (htrip : trippedSensor r = some i) : exec (.sensorRead r) s =
      .next (withAlert (shutdown { sensed r s with power.tripLow := true, power.tripSensor := some i })) := by
  have htrip' : trippedSensor (sensed r s).power.sensors = some i := by rw [sensors_sensed, htrip]
  show execSensorRead r s = _
  unfold execSensorRead
  rw [if_pos hgood, padSensors_of_length hlength]
  unfold sensed at htrip' ⊢
  simp only [htrip']

/-- Settles O13: each field and step on its guard, the sensor array by whether a sensor stands at its trip temperature. -/
theorem powerAndThermalSteps : Obligations.PowerAndThermalSteps := by
  unfold Obligations.PowerAndThermalSteps
  refine ⟨fun s => ⟨fun v hcontrols => ?control, fun hgood hover => ?capRaise, fun hgood hstep hunder => ?capLower,
    exec_episodeEnd_cap, exec_episodeEnd_thermal⟩, fun s hgood => ⟨fun w v a => ?sample, fun r hlength htrip => ?read,
      fun r i hlength htrip => ?trip, fun i hi hhot hstep => ?throttle, fun hcool hstep => ?cool⟩⟩
  case control =>
    rw [exec_powerControl v hcontrols]
    simp [writePowerControl, inRange]
  case capRaise =>
    rw [exec_capStepRaise hgood hover]
    by_cases hstep : s.power.capStep < 48
    · obtain ⟨hcap, hthermal, hframe⟩ := capRaised_spec s
      rw [if_pos hstep]
      refine ⟨_, rfl, ?_, fun h => absurd hstep (Nat.not_lt.2 h), hthermal, hframe.frame⟩
      rw [hcap]
      omega
    · rw [if_neg hstep]
      refine ⟨_, rfl, ?_, fun _ => rfl, rfl, rfl⟩
      show s.power.capStep = _
      omega
  case capLower =>
    exact ⟨_, exec_capStepLower hgood hstep hunder, capStep_noteDeciders _, capUnmet_noteDeciders _, thermalStep_noteDeciders _,
      (frame_noteDeciders s.power _).trans (frame_noteDeciders s.power s)⟩
  case sample =>
    have hexec : exec (.powerSample w v a) s = execPowerSample w v a s := rfl
    rw [hexec, execPowerSample, if_pos hgood]
    refine ⟨_, rfl, rfl, rfl, rfl, rfl, rfl, rfl, ?_, rfl⟩
    simp [withInputLow, withAlert, hgood]
  case read =>
    have hreads := reads_sensed r s
    have hsensors := sensors_sensed r s
    rw [exec_sensorRead_untripped hgood hlength htrip]
    generalize sensed r s = u at hreads hsensors
    refine ⟨_, rfl, hsensors, ?_, ?_⟩
    · show u.power.pwrGood = true
      rw [hreads]
      exact hgood
    · show { u with
        power := s.power, lamio := s.lamio, stones := s.stones, counters.values := s.counters.values
        startup.portsUp := s.startup.portsUp, host := s.host, sheaf := s.sheaf, out := s.out } = s
      rw [hreads]
  case trip =>
    have hreads := reads_sensed r s
    rw [exec_sensorRead_tripped hgood hlength htrip]
    generalize sensed r s = u at hreads
    have hgood' : u.power.pwrGood = true := by
      rw [hreads]
      exact hgood
    have haux : u.power.aux = s.power.aux := by rw [hreads]
    have hflash : u.flash = s.flash := by rw [hreads]
    rw [shutdown_of_good (s := u) (p := { u.power with tripLow := true, tripSensor := some i }) hgood']
    refine ⟨_, rfl, rfl, rfl, ?_, ?_, hflash⟩
    · show (_ || (_ || true || _ || _ || _)) = true
      simp
    · rw [← haux]
      rfl
  case throttle =>
    obtain ⟨j, hexec⟩ := exec_thermalStepRaise hgood hi hhot hstep
    obtain ⟨hcap, hthermal, hframe⟩ := throttled_spec j s
    exact ⟨_, hexec, hthermal, hcap, hframe.frame⟩
  case cool =>
    exact ⟨_, exec_thermalStepLower hgood hstep hcool, thermalStep_noteDeciders _, capStep_noteDeciders _,
      (frame_noteDeciders s.power _).trans (frame_noteDeciders s.power s)⟩

end Sys2Proof.Proofs
end

section
/-!
PROOFS. Parameter-block orders that reach this module alone (13 R280), and the Sahith exchange (18 R384 to R387).
-/
namespace Sys2Proof.Proofs

open Sys2Proof Sys2Proof.Machine Sys2Proof.Safety Sys2Proof.Laws

variable {s t u : State} {d : Desc} {b : Bytes} {ms : List ModId}

/-! ### A parameter block here (13 R280) -/

theorem withBlock_here {ok : Bytes → Bool} (h : BlockHere ok d s b ms) : withBlock ok d s = .ok (b, ms) := by
  simp [withBlock, h.block, h.good, h.all]

/-- Targets that only this module is among: the block's effect is the descriptor's. -/
theorem onTargets_here {op : DescOp} {st detail : Nat} (hme : targetsMe s d = true) (halone : othersOf u ms = [])
    (hst : isError st = false) : onTargets op ms d (u, st, detail) s = (u, .done st detail) := by
  simp [onTargets, hme, hst, toTargets, halone]

theorem othersOf_of_holding (h : u.holding = s.holding) : othersOf u ms = othersOf s ms := by
  unfold othersOf
  rw [h]

/-- With the host link up, RESULT is written. -/
theorem resultAt_linked (hlink : s.power.linkUp = true) (ms : List ModId) (d : Desc) (bs : Bytes) :
    resultAt ms d bs s = { s with out.host := s.out.host ++ resultWrite d ms bs s } := by
  unfold resultAt resultWrite
  split
  · rw [List.append_nil]
  · unfold masterWrite hostWrite
    rw [if_pos hlink, ite_self]

theorem linkUp_of_reaches {op : DescOp} (h : Reaches op d s) : (atOrderPoint op d s).power.linkUp = true := by
  have htakes := h.takes
  simp only [takesDescriptor, Bool.and_eq_true] at htakes
  obtain ⟨⟨⟨⟨⟨-, hlink⟩, -⟩, -⟩, -⟩, -⟩ := htakes
  rw [atOrderPoint_eq]
  exact hlink

/-! ### Slices of a message -/

theorem slice_append_left {x : Bytes} {off len : Nat} (h : off + len ≤ x.length) (y : Bytes) :
    slice (x ++ y) off len = slice x off len := by
  unfold slice
  rw [List.drop_append_of_le_length (by omega), List.take_append_of_le_length (by rw [List.length_drop]; omega)]

theorem slice_append_right {x : Bytes} {off : Nat} (h : x.length ≤ off) (y : Bytes) (len : Nat) :
    slice (x ++ y) off len = slice y (off - x.length) len := by
  unfold slice
  rw [List.drop_append, List.drop_eq_nil_of_le h, List.nil_append]

theorem slice_append_mid {x y : Bytes} {off len : Nat} (hoff : x.length = off) (hlen : y.length = len) (z : Bytes) :
    slice (x ++ y ++ z) off len = y := by
  rw [slice_append_left (by rw [List.length_append]; omega), slice_append_right hoff.le, hoff, Nat.sub_self, slice, List.drop_zero,
    List.take_of_length_le hlen.le]

theorem slice_flatMap {α : Type} {f : α → Bytes} {n : Nat} (hf : ∀ x, (f x).length = n) (l : List α) (i : Nat) (hi : i < l.length) :
    slice (l.flatMap f) (n * i) n = f l[i] := by
  induction l generalizing i with
  | nil => exact absurd hi (Nat.not_lt_zero i)
  | cons x l ih =>
    rw [List.flatMap_cons]
    cases i with
    | zero =>
      rw [slice_append_left (by rw [hf]; omega), slice, Nat.mul_zero, List.drop_zero, List.take_of_length_le (hf x).le]
      rfl
    | succ i =>
      have hpast : n * (i + 1) - n = n * i := by rw [Nat.mul_succ, Nat.add_sub_cancel]
      rw [slice_append_right (by rw [hf, Nat.mul_succ]; omega), hf, hpast]
      exact ih i (Nat.lt_of_succ_lt_succ hi)

theorem length_flatMap_const {α : Type} {f : α → Bytes} {n : Nat} (hf : ∀ x, (f x).length = n) (l : List α) :
    (l.flatMap f).length = l.length * n := by
  induction l with
  | nil => simp
  | cons x l ih => rw [List.flatMap_cons, List.length_append, hf, ih, List.length_cons, Nat.succ_mul, Nat.add_comm]

theorem field_leBytes {bs : Bytes} {off len x : Nat} (h : slice bs off len = leBytes len x) : field bs off len = x % 256 ^ len := by
  rw [field, h, leNat_leBytes]

@[simp] theorem digestBytes_length (x : BitVec 256) : (digestBytes x).length = 32 := leBytes_length ..

/-! ### A report (18 R386) -/

/-- A report up to its nonce. -/
def reportHead (nonce : Bytes) (s : State) : Bytes :=
  [1, 0x82, 0, 0] ++ leBytes 4 8296 ++ leBytes 2 s.holding.moduleId.toNat ++ leBytes 2 s.holding.number.toNat ++
    leBytes 1 s.security.state ++ leBytes 1 s.security.pending ++ leBytes 1 (reportFlags s) ++ [0] ++ padTo 32 nonce

/-- A report after its measurements, up to the head position. -/
def reportRun (s : State) : Bytes :=
  (if (attestedStep s).isSome then digestBytes s.exporter.chain else List.replicate 32 0) ++
    leBytes 16 (holdingConfig s.holding) ++ leBytes 4 s.security.fwSvn.toNat ++ leBytes 4 (enabledCores s) ++ leBytes 8 s.clock.now

theorem reportRun_length (s : State) : (reportRun s).length = 64 := by
  unfold reportRun
  simp only [List.length_append, leBytes_length]
  split <;> simp

theorem reportBytes_eq (nonce : Bytes) (s : State) : reportBytes nonce s =
    reportHead nonce s ++ s.security.meas.flatMap digestBytes ++ digestBytes s.stones.digest ++ leBytes 8 ((attestedStep s).getD 0) ++
      reportRun s ++ leBytes 8 s.run.head.toNat ++ List.replicate 32 0 := by
  unfold reportBytes reportHead reportRun
  simp only [List.append_assoc]

@[simp] theorem reportHead_length (nonce : Bytes) (s : State) : (reportHead nonce s).length = 48 := by
  simp [reportHead, padTo_length]

/-- What a report says, by the place of each field. -/
theorem reportBytes_fields (nonce : Bytes) (hmeas : s.security.meas.length = 8) :
    (reportBytes nonce s).length = 448 ∧
    (∀ off len, off + len ≤ 48 → slice (reportBytes nonce s) off len = slice (reportHead nonce s) off len) ∧
    (∀ i, i < 8 → slice (reportBytes nonce s) (48 + 32 * i) 32 = digestBytes (s.security.meas.getD i 0)) ∧
    slice (reportBytes nonce s) 304 32 = digestBytes s.stones.digest ∧
    slice (reportBytes nonce s) 336 8 = leBytes 8 ((attestedStep s).getD 0) ∧
    slice (reportBytes nonce s) 408 8 = leBytes 8 s.run.head.toNat := by
  have hflat : (s.security.meas.flatMap digestBytes).length = 256 := by
    rw [length_flatMap_const digestBytes_length, hmeas]
  have hrun := reportRun_length s
  rw [reportBytes_eq]
  refine ⟨?_, fun off len h => ?_, fun i hi => ?_, ?_, ?_, ?_⟩
  · simp only [List.length_append, reportHead_length, hflat, digestBytes_length, leBytes_length, hrun, List.length_replicate]
  · simp only [List.append_assoc]
    exact slice_append_left (by rw [reportHead_length]; exact h) _
  · simp only [List.append_assoc]
    rw [slice_append_right (by rw [reportHead_length]; omega), reportHead_length, Nat.add_sub_cancel_left,
      slice_append_left (by rw [hflat]; omega), slice_flatMap digestBytes_length _ _ (by omega)]
    simp [hmeas, hi]
  · rw [slice_append_left (by simp [hflat, hrun]), slice_append_left (by simp [hflat, hrun]), slice_append_left (by simp [hflat])]
    exact slice_append_mid (by simp [hflat]) (by simp) _
  · rw [slice_append_left (by simp [hflat, hrun]), slice_append_left (by simp [hflat, hrun])]
    exact slice_append_mid (by simp [hflat]) (by simp) _
  · exact slice_append_mid (by simp [hflat, hrun]) (by simp) _

/-- What the front of a report says. -/
theorem reportHead_fields (nonce : Bytes) (s : State) :
    slice (reportHead nonce s) 0 8 = [1, 0x82, 0, 0] ++ leBytes 4 8296 ∧
    slice (reportHead nonce s) 8 2 = leBytes 2 s.holding.moduleId.toNat ∧
    slice (reportHead nonce s) 10 2 = leBytes 2 s.holding.number.toNat ∧
    slice (reportHead nonce s) 12 1 = leBytes 1 s.security.state ∧
    slice (reportHead nonce s) 13 1 = leBytes 1 s.security.pending ∧
    slice (reportHead nonce s) 16 32 = padTo 32 nonce :=
  ⟨rfl, rfl, rfl, rfl, rfl, by
    show (padTo 32 nonce).take 32 = padTo 32 nonce
    exact List.take_of_length_le (padTo_length 32 nonce).le⟩

theorem byteAt_of_slice {bs : Bytes} {off x : Nat} (h : slice bs off 1 = leBytes 1 x) : byteAt bs off = x % 256 := by
  have hhead : (slice bs off 1).getD 0 0 = bs.getD off 0 := by
    simp [slice]
  rw [byteAt, ← hhead, h]
  exact BitVec.toNat_ofNat x 8

theorem take_of_slice {bs x : Bytes} {n : Nat} (h : slice bs 0 n = x) : bs.take n = x := h

/-! ### The response to a request (18 R384, R385) -/

/-- A request well formed for its row. -/
def formed (code : Nat) (req : Bytes) : Prop :=
  byteAt req 1 = code ∧ zeroAt req 2 2 = true ∧ field req 4 4 = (if code = sahithChallenge then 32 else 0) ∧
    req.length = 8 + if code = sahithChallenge then 32 else 0

theorem sahithResponse_short {code : Nat} {req : Bytes} (h : req.length < 8) : sahithResponse code req s = sahithError 1 := if_pos h

theorem sahithResponse_version {code : Nat} {req : Bytes} (hlength : 8 ≤ req.length) (h : byteAt req 0 ≠ 1) :
    sahithResponse code req s = sahithError 3 := by
  simp [sahithResponse, Nat.not_lt.2 hlength, h]

theorem sahithResponse_malformed {code : Nat} {req : Bytes} (hlength : 8 ≤ req.length) (hversion : byteAt req 0 = 1)
    (h : ¬ formed code req) : sahithResponse code req s = sahithError 1 := by
  have hbad : byteAt req 1 ≠ code ∨ zeroAt req 2 2 = false ∨ field req 4 4 ≠ (if code = sahithChallenge then 32 else 0) ∨
      req.length ≠ 8 + if code = sahithChallenge then 32 else 0 := by
    by_contra hgood
    simp only [not_or, ne_eq, not_not, Bool.not_eq_false] at hgood
    exact h hgood
  unfold sahithResponse
  dsimp only
  rw [if_neg (Nat.not_lt.2 hlength), if_neg (not_not.2 hversion), if_pos hbad]

/-- A request well formed is answered by the state of the identity key and the code. -/
theorem sahithResponse_formed {code : Nat} {req : Bytes} (hversion : byteAt req 0 = 1) (h : formed code req) :
    sahithResponse code req s =
      if s.security.identityValid = false then sahithError 4
      else if code = sahithIdentity then sahithMessage 0x81 (padTo 32 s.flash.dieKey ++ s.flash.record.certChain)
      else reportBytes (slice req 8 32) s ++ reportSignature s (reportBytes (slice req 8 32) s) := by
  obtain ⟨hcode, hzero, hlen, hlength⟩ := h
  unfold sahithResponse
  dsimp only
  rw [if_neg (by omega), if_neg (not_not.2 hversion), if_neg]
  rintro (hbad | hbad | hbad | hbad)
  · exact hbad hcode
  · exact Bool.false_ne_true (hbad.symm.trans hzero)
  · exact hbad hlen
  · exact hbad hlength

theorem reportSignature_length (s : State) (report : Bytes) : (reportSignature s report).length = 7856 := by
  simp [reportSignature]

theorem reportSignature_getD {i : Nat} (s : State) (report : Bytes) (h : i < 7856) :
    (reportSignature s report).getD i 0 = Config.signatureByte s.flash.pufSeed report i := by
  simp [reportSignature, List.getD, h]

/-! ### The transports (18 R384) -/

/-- A row of the exchange and its code. -/
def IsSahith (row : Transport → Bytes → Instr) (code : Nat) : Prop :=
  ∀ (way : Transport) (req : Bytes) (s : State), exec (row way req) s = .next (takeSahith way code req s)

theorem isSahith_of_mem {row : (Transport → Bytes → Instr) × Nat}
    (h : row ∈ [(Instr.getIdentity, sahithIdentity), (Instr.challenge, sahithChallenge)]) : IsSahith row.1 row.2 := by
  simp only [List.mem_cons, List.not_mem_nil, or_false] at h
  obtain rfl | rfl := h
  all_goals exact fun _ _ _ => rfl

/-- What a request finds is the same at its descriptor's order point. -/
theorem sahithAny_atOrderPoint (req : Bytes) (op : DescOp) (d : Desc) (s : State) :
    sahithAny req (atOrderPoint op d s) = sahithAny req s := by
  rw [atOrderPoint_eq]
  rfl

theorem runDesc_attest {kind holding : Nat} (hheader : headerBad d = false) (h : BlockHere (fun _ => true) d s b ms)
    (hlink : s.power.linkUp = true) : runDesc kind holding .attest d s =
      ({ s with out.host := s.out.host ++ resultWrite d ms (sahithAny b s) s }, .done stOk (sahithAny b s).length) := by
  have hrun : runDesc kind holding .attest d s = runAttest d s := if_neg (Bool.eq_false_iff.1 hheader)
  rw [hrun, runAttest, withBlock_here h]
  dsimp only
  rw [applyAttest, resultAt_linked hlink]
  exact onTargets_here h.me ((othersOf_of_holding rfl).trans h.alone) rfl

/-- Settles O36: a request by its transport, and its response by its form, its code and the identity key. -/
theorem attestationCommands : Obligations.AttestationCommands := by
  unfold Obligations.AttestationCommands
  refine ⟨fun s req row hrow => ?_, fun s hpending => ?_, fun s req code hcode => ?_⟩
  · have hexec := isSahith_of_mem hrow
    refine ⟨fun way hway hgood hlink => ?_, fun hoff => ?_, fun hdown => ?_, fun d0 b ms => ?_⟩
    · have hon : exec (row.1 way.1 req) s = .next (sahithOn way.2 row.2 req s) := by
        rw [hexec]
        simp only [List.mem_cons, List.not_mem_nil, or_false] at hway
        obtain rfl | rfl := hway
        all_goals rfl
      have hreaches : ¬ (s.power.pwrGood = false ∨ way.2 = 0 ∧ s.power.linkUp = false) := by
        rintro (h | ⟨hdoe, h⟩)
        · exact Bool.false_ne_true (h.symm.trans hgood)
        · exact Bool.false_ne_true (h.symm.trans (hlink hdoe))
      rw [hon, sahithOn, if_neg hreaches]
      exact ⟨fun hfree => by rw [if_neg (Bool.eq_false_iff.1 hfree)], fun hbusy => by rw [if_pos hbusy]⟩
    · have hnone : ∀ n, sahithOn n row.2 req s = s := fun n => if_pos (.inl hoff)
      exact ⟨(hexec ..).trans (congrArg _ (hnone 0)), (hexec ..).trans (congrArg _ (hnone 1))⟩
    · exact (hexec ..).trans (congrArg _ (if_pos (.inr ⟨rfl, hdown⟩)))
    · intro d hexecutes hhere
      refine yields_of_runDesc (hexec ..) hexecutes (by decide) ?_ rfl
      rw [runDesc_attest hexecutes.header hhere (linkUp_of_reaches hexecutes.toReaches), sahithAny_atOrderPoint]
  · exact ⟨_, step_of_empty_queue hpending, rfl, rfl⟩
  · refine ⟨sahithResponse_short, sahithResponse_version, sahithResponse_malformed, fun hversion hformed hkey => ?error,
      fun hversion hformed hkey hidentity => ?identity, fun hversion hformed hkey hchallenge hmeas => ?challenge⟩
    case error => rw [sahithResponse_formed hversion hformed, if_pos hkey]
    case identity =>
      rw [sahithResponse_formed hversion hformed, if_neg (by rw [hkey]; exact Bool.false_ne_true ∘ Eq.symm), if_pos hidentity]
    case challenge =>
      obtain ⟨hlength, hfront, hmeasured, hstones, hstep, hhead⟩ := reportBytes_fields (s := s) (slice req 8 32) hmeas
      obtain ⟨hheader, hmodule, hnumber, hstate, hpending, hnonce⟩ := reportHead_fields (slice req 8 32) s
      refine ⟨reportBytes (slice req 8 32) s, reportSignature s (reportBytes (slice req 8 32) s), ?_, hlength,
        reportSignature_length .., take_of_slice ((hfront 0 8 (by decide)).trans hheader), ?_, ?_,
        byteAt_of_slice ((hfront 12 1 (by decide)).trans hstate), byteAt_of_slice ((hfront 13 1 (by decide)).trans hpending), ?_,
        hmeasured, hstones, field_leBytes hstep, ?_, fun i hi => reportSignature_getD _ _ hi⟩
      · rw [sahithResponse_formed hversion hformed, if_neg (by rw [hkey]; exact Bool.false_ne_true ∘ Eq.symm), if_neg]
        rw [hchallenge]
        decide
      · rw [field_leBytes ((hfront 8 2 (by decide)).trans hmodule)]
        exact Nat.mod_eq_of_lt s.holding.moduleId.isLt
      · rw [field_leBytes ((hfront 10 2 (by decide)).trans hnumber)]
        exact Nat.mod_eq_of_lt (s.holding.number.isLt.trans (by decide))
      · rw [hfront 16 32 (by decide), hnonce]
        obtain ⟨-, -, -, hlength⟩ := hformed
        rw [hchallenge, if_pos rfl] at hlength
        have hwhole : (slice req 8 32).length = 32 := by
          rw [slice, List.length_take, List.length_drop]
          omega
        rw [padTo, List.take_of_length_le hwhole.le, hwhole]
        exact List.append_nil _
      · rw [field_leBytes hhead]
        exact Nat.mod_eq_of_lt s.run.head.isLt

end Sys2Proof.Proofs
end

section
/-!
PROOFS. Counter records and batches of program counters in the sample area, the threshold trigger and the freeze of the sheaf
(17 R364, R365, R370, R371, R373).
-/
namespace Sys2Proof.Proofs

open Sys2Proof Sys2Proof.Machine Sys2Proof.Safety Sys2Proof.Laws

variable {s t u : State} {bs : Bytes}

/-! ### A record in a ring of bytes (17 R364) -/

/-- Bytes put at place `o` of the ring, going on at its start. -/
def ringPut (size o : Nat) (bs : Bytes) (area : Sparse Byte) : Sparse Byte :=
  tsetBytes (tsetBytes area (4096 + o) (bs.take (size - o))) 4096 (bs.drop (size - o))

theorem tget_ringPut {size o i : Nat} (ho : o < size) (hfits : bs.length ≤ size) (hi : i < bs.length) (area : Sparse Byte) :
    tget 0 (ringPut size o bs area) (4096 + (o + i) % size) = bs.getD i 0 := by
  unfold ringPut
  by_cases hfirst : i < size - o
  · have hmod : (o + i) % size = o + i := Nat.mod_eq_of_lt (by omega)
    have hi' : i < (bs.take (size - o)).length := by
      rw [List.length_take]
      omega
    rw [hmod, tget_tsetBytes_other _ _ (.inr (by rw [List.length_drop]; omega)), ← Nat.add_assoc, tget_tsetBytes_same _ _ _ _ hi']
    simp [hi]
  · have hmod : (o + i) % size = i - (size - o) := by
      rw [Nat.mod_eq_sub_mod (by omega), Nat.mod_eq_of_lt (by omega)]
      omega
    have hi' : i - (size - o) < (bs.drop (size - o)).length := by
      rw [List.length_drop]
      omega
    rw [hmod, tget_tsetBytes_same _ _ _ _ hi', List.getElem_drop]
    simp [hi, show size - o + (i - (size - o)) = i by omega]

/-! ### What an event sends to the host -/

theorem host_hostWrite (addr : Nat) (bs : Bytes) (poison : Bool) (s : State) :
    ∃ more, (hostWrite addr bs poison s).out.host = s.out.host ++ more := by
  unfold hostWrite
  split
  · exact ⟨_, rfl⟩
  · exact ⟨[], (List.append_nil _).symm⟩

theorem host_eventSignal (s : State) : (eventSignal s).out.host = s.out.host := by
  unfold eventSignal signal
  split
  · split
    · rfl
    · split <;> rfl
  · rfl

theorem host_postEvent (code : Nat) (m : ModId) (pos : Pos) (ts detail : W64) (s : State) :
    ∃ more, (postEvent code m pos ts detail s).out.host = s.out.host ++ more := by
  unfold postEvent
  dsimp only
  split
  · exact ⟨[], (List.append_nil _).symm⟩
  split
  · exact ⟨[], (List.append_nil _).symm⟩
  · rw [host_eventSignal]
    exact host_hostWrite ..

theorem host_deliverEvent (code : Nat) (pos : Pos) (detail : W64) (s : State) :
    ∃ more, (deliverEvent code pos detail s).out.host = s.out.host ++ more := by
  unfold deliverEvent
  dsimp only
  split
  · exact host_postEvent ..
  split
  · rw [sendHedge_eq]
    exact ⟨[], (List.append_nil _).symm⟩
  · exact ⟨[], (List.append_nil _).symm⟩

/-- An event writes to the host after what was written before it. -/
theorem host_raise (code detail : Nat) (s : State) : ∃ more, (raise code detail s).out.host = s.out.host ++ more := by
  obtain ⟨h, hdelivers⟩ := raiseAt_delivers false code s.run.head detail s
  unfold raise
  rw [hdelivers]
  exact host_deliverEvent _ _ _ { s with sheaf := h }

/-! ### A record written (17 R364, R373) -/

/-- The control block once a record of these bytes is in. -/
def controlBytes (c : Counters) (bs : Bytes) : Bytes := leBytes 8 (c.produced + bs.length) ++ leBytes 8 (c.nextSeq + 1)

/-- What the host is written: the record, in two parts where it goes on at the ring's start, and the control block. -/
def hostRecord (s : State) (bs : Bytes) : List (Nat × Bytes × Bool) :=
  let size := s.counters.cfg.size
  let o := s.counters.produced % size
  [(sampleArea s + 4096 + o, bs.take (size - o), false)] ++
    (if bs.length ≤ size - o then [] else [(sampleArea s + 4096, bs.drop (size - o), false)]) ++
    [(sampleArea s, controlBytes s.counters bs, false)]

/-- From `s` to `u` the record of these bytes has been written and counted. -/
structure SampleIn (bs : Bytes) (s u : State) : Prop where
  here : s.counters.cfg.host = false → u.counters.localArea = tsetBytes
    (ringPut s.counters.cfg.size (s.counters.produced % s.counters.cfg.size) bs s.counters.localArea) 0 (controlBytes s.counters bs)
  there : s.counters.cfg.host = true → u.counters.localArea = s.counters.localArea ∧
    ∃ more, u.out.host = s.out.host ++ hostRecord s bs ++ more
  seq : u.counters.nextSeq = s.counters.nextSeq + 1
  produced : u.counters.produced = s.counters.produced + bs.length
  values : u.counters.values = s.counters.values
  cfg : u.counters.cfg = s.counters.cfg
  times : u.counters.lastAt = s.counters.lastAt ∧ u.counters.lastHead = s.counters.lastHead ∧
    u.counters.lastPcAt = s.counters.lastPcAt
  rest : { u with counters := s.counters, host := s.host, sheaf := s.sheaf, out := s.out } = s

/-- Bytes written at an offset of the area of a module whose host writes get there. -/
theorem toSamples_host (hhost : s.counters.cfg.host = true) (hlink : s.holding.isMaster = true → s.power.linkUp = true) (off : Nat)
    (bs : Bytes) : toSamples off bs s = { s with out.host := s.out.host ++ [(sampleArea s + off, bs, false)] } := by
  unfold toSamples masterWrite hostWrite
  rw [if_pos hhost]
  cases hmaster : s.holding.isMaster with
  | true => simp [hlink hmaster]
  | false => rfl

theorem toSamples_local (hhost : s.counters.cfg.host = false) (off : Nat) (bs : Bytes) :
    toSamples off bs s = { s with counters.localArea := tsetBytes s.counters.localArea off bs } := by
  unfold toSamples
  rw [hhost]
  rfl

/-- The record's bytes in the ring. -/
def placed (bs : Bytes) (s : State) : State :=
  let size := s.counters.cfg.size
  let o := s.counters.produced % size
  let u := toSamples (4096 + o) (bs.take (size - o)) s
  if (bs.drop (size - o)).isEmpty then u else toSamples 4096 (bs.drop (size - o)) u

theorem placed_local (hhost : s.counters.cfg.host = false) (bs : Bytes) : placed bs s = { s with
    counters.localArea := ringPut s.counters.cfg.size (s.counters.produced % s.counters.cfg.size) bs s.counters.localArea } := by
  unfold placed ringPut
  dsimp only
  rw [toSamples_local hhost]
  split
  next hrest =>
    rw [List.isEmpty_iff] at hrest
    rw [hrest]
    rfl
  · rw [toSamples_local (by exact hhost)]

theorem placed_host (hhost : s.counters.cfg.host = true) (hlink : s.holding.isMaster = true → s.power.linkUp = true) (bs : Bytes) :
    let size := s.counters.cfg.size
    let o := s.counters.produced % size
    placed bs s = { s with out.host := s.out.host ++ ([(sampleArea s + 4096 + o, bs.take (size - o), false)] ++
      (if bs.length ≤ size - o then [] else [(sampleArea s + 4096, bs.drop (size - o), false)])) } := by
  intro size o
  unfold placed
  dsimp only
  rw [toSamples_host hhost hlink]
  have hempty : (bs.drop (size - o)).isEmpty = decide (bs.length ≤ size - o) := by
    rw [Bool.eq_iff_iff]
    simp
  by_cases hfits : bs.length ≤ size - o
  · rw [if_pos (by rw [hempty]; exact decide_eq_true hfits), if_pos hfits, List.append_nil, Nat.add_assoc]
  · rw [if_neg (by rw [hempty]; simpa using hfits), if_neg hfits, toSamples_host (by exact hhost) (by exact hlink), ← Nat.add_assoc]
    show ({ s with out.host := _ } : State) = _
    rw [List.append_assoc]
    rfl

/-- Records that leave the ring change the list of records and what is counted as overwritten. -/
theorem trimRecords_eq (n : Nat) (c : Counters) : trimRecords n c = { c with
    records := (trimRecords n c).records, overwritten := (trimRecords n c).overwritten, wrapCount := (trimRecords n c).wrapCount } := by
  induction n generalizing c with
  | zero => rfl
  | succ n ih =>
    unfold trimRecords
    dsimp only
    split
    · rfl
    split
    · rfl
    · exact ih _

theorem wrapEvent_cases (s : State) : wrapEvent s = s ∨ ∃ detail, wrapEvent s =
    raise evSampleBufferWrap detail { s with counters.wrapCount := 0, counters.wrapAt := some s.clock.up } := by
  unfold wrapEvent
  dsimp only
  split
  all_goals
    split
    · exact .inr ⟨_, rfl⟩
    · exact .inl rfl

/-- SAMPLE_BUFFER_WRAP changes when it was last raised, and what notices change; what the host is written stays written. -/
theorem wrapEvent_spec (s : State) :
    wrapEvent s = { s with
      counters.wrapCount := (wrapEvent s).counters.wrapCount, counters.wrapAt := (wrapEvent s).counters.wrapAt
      host := (wrapEvent s).host, sheaf := (wrapEvent s).sheaf, out := (wrapEvent s).out } ∧
    ∃ more, (wrapEvent s).out.host = s.out.host ++ more := by
  obtain hsame | ⟨detail, hraised⟩ := wrapEvent_cases s
  · rw [hsame]
    exact ⟨rfl, [], (List.append_nil _).symm⟩
  · rw [hraised]
    exact ⟨by rw [raise_eq], host_raise ..⟩

/-- The record counted, and the records that it pushes out of the ring. -/
def counted (bs : Bytes) (c : Counters) (u : State) : State :=
  let records := c.records ++ [(c.nextSeq, bs.length)]
  { u with counters := trimRecords records.length { u.counters with
      produced := c.produced + bs.length, nextSeq := c.nextSeq + 1, records := records } }

theorem writeSample_eq (h : s.counters.cfg.host = true → s.counters.suspended = false) (bs : Bytes) :
    writeSample bs s = wrapEvent (sampleControl (counted bs s.counters (placed bs s))) := by
  refine if_neg ?_
  cases hhost : s.counters.cfg.host with
  | true => simp [h hhost]
  | false => simp

theorem writeSample_suspended (hhost : s.counters.cfg.host = true) (hsuspended : s.counters.suspended = true) (bs : Bytes) :
    writeSample bs s = { s with counters := { s.counters with
      nextSeq := s.counters.nextSeq + 1, overwritten := s.counters.overwritten + 1 } } := by
  refine if_pos ?_
  rw [hhost, hsuspended]
  rfl

/-- What counting a record changes, apart from the records listed and what is counted as overwritten. -/
def inRing (bs : Bytes) (s : State) (records : List (Nat × Nat)) (overwritten wraps : Nat) (v : State) : State :=
  { v with counters := { v.counters with
      produced := s.counters.produced + bs.length, nextSeq := s.counters.nextSeq + 1
      records := records, overwritten := overwritten, wrapCount := wraps } }

theorem counted_inRing (bs : Bytes) (s v : State) : ∃ records overwritten wraps,
    counted bs s.counters v = inRing bs s records overwritten wraps v :=
  ⟨_, _, _, congrArg (fun c => { v with counters := c }) (trimRecords_eq _ _)⟩

theorem sampleControl_inRing (bs : Bytes) (s : State) (records : List (Nat × Nat)) (overwritten wraps : Nat) (v : State) :
    sampleControl (inRing bs s records overwritten wraps v) =
      toSamples 0 (controlBytes s.counters bs) (inRing bs s records overwritten wraps v) := rfl

/-- A record that reaches its area. -/
theorem writeSample_sampleIn (hreach : s.counters.cfg.host = true → s.counters.suspended = false ∧
    (s.holding.isMaster = true → s.power.linkUp = true)) (bs : Bytes) : SampleIn bs s (writeSample bs s) := by
  rw [writeSample_eq fun h => (hreach h).1]
  obtain ⟨records, overwritten, wraps, hcounted⟩ := counted_inRing bs s (placed bs s)
  rw [hcounted, sampleControl_inRing]
  cases hhost : s.counters.cfg.host with
  | false =>
    rw [placed_local hhost, toSamples_local (by exact hhost)]
    obtain ⟨hframe, -⟩ := wrapEvent_spec { inRing bs s records overwritten wraps { s with
      counters.localArea := ringPut s.counters.cfg.size (s.counters.produced % s.counters.cfg.size) bs s.counters.localArea } with
      counters.localArea := tsetBytes
        (ringPut s.counters.cfg.size (s.counters.produced % s.counters.cfg.size) bs s.counters.localArea) 0 (controlBytes s.counters bs) }
    refine ⟨fun _ => ?_, fun h => absurd (hhost.symm.trans h) Bool.false_ne_true, ?_, ?_, ?_, ?_, ⟨?_, ?_, ?_⟩, ?_⟩
    all_goals
      rw [inRing] at hframe ⊢
      rw [hframe]
  | true =>
    obtain ⟨-, hlink⟩ := hreach hhost
    generalize hsent : toSamples 0 (controlBytes s.counters bs) (inRing bs s records overwritten wraps (placed bs s)) = v
    rw [placed_host hhost hlink, toSamples_host (by exact hhost) (by exact hlink)] at hsent
    have hhostOut : v.out.host = s.out.host ++ hostRecord s bs := by
      rw [← hsent, hostRecord]
      simp only [← List.append_assoc]
      rfl
    obtain ⟨hframe, more, hmore⟩ := wrapEvent_spec v
    refine ⟨fun h => absurd (h.symm.trans hhost) Bool.false_ne_true, fun _ => ⟨?_, more, hmore.trans (congrArg (· ++ more) hhostOut)⟩,
      ?_, ?_, ?_, ?_, ⟨?_, ?_, ?_⟩, ?_⟩
    all_goals rw [hframe, ← hsent, inRing]

theorem controlBytes_length (c : Counters) (bs : Bytes) : (controlBytes c bs).length = 16 := by simp [controlBytes]

/-- A record in the local area, byte by byte, and the control block before it. -/
theorem SampleIn.local (h : SampleIn bs s u) (hhost : s.counters.cfg.host = false) (hfits : bs.length ≤ s.counters.cfg.size) :
    (∀ i, i < bs.length → tget 0 u.counters.localArea
      (4096 + (s.counters.produced % s.counters.cfg.size + i) % s.counters.cfg.size) = bs.getD i 0) ∧
    (∀ i, i < 16 → tget 0 u.counters.localArea i = (controlBytes s.counters bs).getD i 0) := by
  rw [h.here hhost]
  have hlength := controlBytes_length s.counters bs
  refine ⟨fun i hi => ?_, fun i hi => ?_⟩
  · rw [tget_tsetBytes_other _ _ (.inr (by omega))]
    exact tget_ringPut (Nat.mod_lt _ (by omega)) hfits hi _
  · have hput := tget_tsetBytes_same (controlBytes s.counters bs) (ringPut s.counters.cfg.size
      (s.counters.produced % s.counters.cfg.size) bs s.counters.localArea) 0 i (by omega)
    rw [Nat.zero_add] at hput
    rw [hput]
    simp [hlength, hi]

/-! ### What is due (17 R365, R366) -/

/-- A counter record is due. -/
def sampleDue (s : State) : Bool :=
  if s.counters.cfg.furrow then distanceReached s.run.head s.counters.lastHead s.counters.cfg.interval
  else decide (s.counters.lastAt + s.counters.cfg.interval ≤ s.clock.up)

/-- A batch of program counters is due. -/
def pcDue (s : State) : Bool :=
  s.counters.cfg.pc && decide (s.counters.lastPcAt + us s.counters.cfg.pcInterval ≤ s.clock.up)

/-- The state in which a counter record is taken. -/
def sampling (consumed : W64) (s : State) : State :=
  { takeConsumed consumed s with counters.lastAt := s.clock.up, counters.lastHead := s.run.head }

/-- The state in which a batch of program counters is taken. -/
def pcSampling (consumed : W64) (s : State) : State := takeConsumed consumed { s with counters.lastPcAt := s.clock.up }

theorem exec_pcSample (seen : List PcSeen) (consumed : W64) (s : State) :
    exec (.pcSample seen consumed) s = .next (pcSample seen consumed s) := rfl

theorem counterSample_of_due (henable : s.counters.cfg.enable = true) (hdue : sampleDue s = true) (consumed : W64) :
    counterSample consumed s = writeSample (counterRecord s s.counters.cfg.ids) (sampling consumed s) := by
  refine if_pos ?_
  rw [henable]
  exact hdue

theorem counterSample_of_not_due (h : s.counters.cfg.enable = false ∨ sampleDue s = false) (consumed : W64) :
    counterSample consumed s = s := by
  refine if_neg ?_
  rcases h with h | h
  · rw [h]
    exact Bool.false_ne_true
  · show ¬ (s.counters.cfg.enable && sampleDue s) = true
    rw [h, Bool.and_false]
    exact Bool.false_ne_true

theorem pcSample_of_due (henable : s.counters.cfg.enable = true) (hdue : pcDue s = true) (seen : List PcSeen) (consumed : W64) :
    pcSample seen consumed s = writeSample (pcRecord s seen) (pcSampling consumed s) := by
  refine if_pos ?_
  rw [henable]
  exact hdue

theorem pcSample_of_not_due (h : s.counters.cfg.enable = false ∨ pcDue s = false) (seen : List PcSeen) (consumed : W64) :
    pcSample seen consumed s = s := by
  refine if_neg ?_
  rw [Bool.and_assoc]
  rcases h with h | h
  · rw [h]
    exact Bool.false_ne_true
  · show ¬ (s.counters.cfg.enable && pcDue s) = true
    rw [h, Bool.and_false]
    exact Bool.false_ne_true

/-! ### The sheaf's trigger and freeze (17 R370, R371) -/

theorem exec_sheafThresholdTest (s : State) : exec .sheafThresholdTest s = .next (sheafThresholdTest s) := rfl

theorem exec_sheafFreeze (s : State) : exec .sheafFreeze s = .next (sheafFreeze s) := rfl

theorem sheafThresholdTest_of_crossed (hstate : s.sheaf.state ≠ 0) (hhit : s.sheaf.counterHit = false)
    (htriggers : s.sheaf.triggers.testBit 3 = true) (hcrossed : s.sheaf.threshold.toNat ≤ counterValue s s.sheaf.counter) :
    sheafThresholdTest s = sheafTriggerOf (s.sheaf.counter % 4 == 1) 3 s.sheaf.counter { s with sheaf.counterHit := true } :=
  if_pos ⟨hstate, hhit, htriggers, hcrossed⟩

/-- A threshold crossed by no work of the seedbed triggers at once. -/
theorem sheafTriggerOf_now {seedbed : Bool} (h : seedbed = true → s.run.seedbedOpen = false) (kind code : Nat) :
    sheafTriggerOf seedbed kind code s = sheafTrigger kind code s := by
  refine if_neg ?_
  cases seedbed with
  | true => rw [h rfl]; exact Bool.false_ne_true
  | false => exact Bool.false_ne_true

theorem sheafTrigger_ring {kind : Nat} (htriggers : s.sheaf.triggers.testBit kind = true) (hstate : s.sheaf.state = 1) (code : Nat) :
    sheafTrigger kind code s = { s with sheaf := { s.sheaf with
      state := 2
      triggerIndex := if s.sheaf.writeIndex = 0 then (Config.noEntryIndex 0).toNat else s.sheaf.writeIndex - 1
      freezeAt := s.sheaf.writeIndex + sheafEntries * (8 - s.sheaf.preEighths) / 8
      cause := (kind, code) } } := by
  unfold sheafTrigger
  rw [if_pos htriggers, if_pos hstate]

theorem sheafTrigger_ignored {kind : Nat} (htriggers : s.sheaf.triggers.testBit kind = true) (hstate : 2 ≤ s.sheaf.state)
    (code : Nat) : sheafTrigger kind code s = { s with sheaf.ignored := s.sheaf.ignored + 1 } := by
  unfold sheafTrigger
  rw [if_pos htriggers, if_neg (by omega), if_pos hstate]

/-- A frozen sheaf keeps its ring: what is traced goes to the tail, and a trigger is ignored. -/
def Frozen (h g : Sheaf) : Prop := g.state = 3 ∧ g.freezeIndex = h.freezeIndex ∧ g.ring = h.ring

section

variable {h g : Sheaf} (hg : Frozen h g)
include hg

theorem frozen_sheafStore (e : TraceEntry) : Frozen h (sheafStore e g) := by
  unfold sheafStore
  rw [if_pos (.inl hg.1)]
  exact hg

theorem frozen_sheafOffer (now : Nat) (e : TraceEntry) : Frozen h (sheafOffer now e g) := by
  have hrate : Frozen h (if g.rateAt = now / 1000 then g else { g with rateAt := now / 1000, rateCount := 0 }) := by
    split <;> exact hg
  unfold sheafOffer
  dsimp only
  generalize (if g.rateAt = now / 1000 then g else { g with rateAt := now / 1000, rateCount := 0 }) = x at hrate ⊢
  split
  · exact hrate
  split
  · exact frozen_sheafStore (g := { x with rateCount := x.rateCount + 1 }) hrate e
  · have hmarker := frozen_sheafStore (g := { x with rateCount := x.rateCount + 1, dropped := 0 }) hrate { e with
      source := 15, type := 0, seedbed := false, unit := 0, task := BitVec.allOnes 32, data := BitVec.ofNat 64 x.dropped }
    generalize sheafStore _ { x with rateCount := x.rateCount + 1, dropped := 0 } = y at hmarker ⊢
    split
    · exact hmarker
    · exact frozen_sheafStore (g := { y with rateCount := y.rateCount + 1 }) hmarker e

end

theorem frozen_trace {h : Sheaf} (hs : Frozen h s.sheaf) (source type : Nat) (seedbed : Bool) (unit : Nat) (task : W32) (data : Nat) :
    Frozen h (trace source type seedbed unit task data s).sheaf := by
  unfold trace
  split
  · exact frozen_sheafOffer hs _ _
  · exact hs

theorem frozen_sheafTriggerOf {h : Sheaf} (hs : Frozen h s.sheaf) (seedbed : Bool) (kind code : Nat) :
    Frozen h (sheafTriggerOf seedbed kind code s).sheaf := by
  have hone : s.sheaf.state ≠ 1 := by
    rw [hs.1]
    decide
  unfold sheafTriggerOf sheafTrigger
  dsimp only
  split
  · exact hs
  split
  · split <;> exact hs
  · exact hs

theorem frozen_deliverEvent {h : Sheaf} (hs : Frozen h s.sheaf) (code : Nat) (pos : Pos) (detail : W64) :
    Frozen h (deliverEvent code pos detail s).sheaf := by
  unfold deliverEvent
  dsimp only
  split
  · have hpost : (postEvent code s.holding.moduleId pos (BitVec.ofNat 64 s.clock.now) detail s).sheaf = s.sheaf := by
      unfold postEvent eventSignal hostWrite signal countLost
      dsimp only
      repeat' split
      all_goals rfl
    rw [hpost]
    exact hs
  split
  · unfold sendHedge
    exact frozen_trace (by exact hs) ..
  · exact hs

theorem frozen_raise {h : Sheaf} (hs : Frozen h s.sheaf) (code detail : Nat) : Frozen h (raise code detail s).sheaf := by
  unfold raise raiseAt
  dsimp only
  refine frozen_deliverEvent ?_ _ _ _
  split
  · exact frozen_sheafTriggerOf (frozen_trace hs ..) ..
  · exact frozen_trace hs ..

/-- The ring frozen, before the event. -/
def frozenAt (s : State) : State := { s with sheaf := { s.sheaf with state := 3, freezeIndex := s.sheaf.writeIndex } }

theorem sheafFreeze_of_full (hstate : s.sheaf.state = 2) (hfull : s.sheaf.freezeAt ≤ s.sheaf.writeIndex) :
    sheafFreeze s = raise evTraceFrozen
      (pack [(4, s.sheaf.cause.1), (12, 0), (16, s.sheaf.cause.2), (32, s.sheaf.triggerIndex)]) (frozenAt s) :=
  if_pos ⟨hstate, hfull⟩

/-- What a record leaves, told of the state before its time was taken. -/
theorem SampleIn.written {consumed lastAt lastPcAt : Nat} {lastHead : Pos} (h : SampleIn bs { s with counters := { s.counters with
      consumed := consumed, lastAt := lastAt, lastHead := lastHead, lastPcAt := lastPcAt } } u)
    (hfits : bs.length ≤ s.counters.cfg.size) :
    let c := s.counters
    let o := c.produced % c.cfg.size
    let area := c.cfg.base + ownRank s * c.cfg.stride
    (c.cfg.host = false →
      (∀ i, i < bs.length → tget 0 u.counters.localArea (4096 + (o + i) % c.cfg.size) = bs.getD i 0) ∧
      (∀ i, i < 16 → tget 0 u.counters.localArea i = (controlBytes c bs).getD i 0)) ∧
    (c.cfg.host = true → u.counters.localArea = c.localArea ∧ ∃ more, u.out.host = s.out.host ++
      [(area + 4096 + o, bs.take (c.cfg.size - o), false)] ++
      (if bs.length ≤ c.cfg.size - o then [] else [(area + 4096, bs.drop (c.cfg.size - o), false)]) ++
      [(area, controlBytes c bs, false)] ++ more) ∧
    u.counters.nextSeq = c.nextSeq + 1 ∧ u.counters.produced = c.produced + bs.length ∧
    u.counters.values = c.values ∧ u.counters.cfg = c.cfg ∧
    { u with counters := s.counters, host := s.host, sheaf := s.sheaf, out := s.out } = s := by
  refine ⟨fun hhost => h.local hhost hfits, fun hhost => ?_, h.seq, h.produced, h.values, h.cfg,
    congrArg (fun x : State => { x with counters := s.counters }) h.rest⟩
  obtain ⟨harea, more, hmore⟩ := h.there hhost
  refine ⟨harea, more, hmore.trans ?_⟩
  simp only [hostRecord, ← List.append_assoc]
  rfl

/-- Settles O37: samples by what is due and where they go, the trigger by its threshold, the freeze by the entries left. -/
theorem samplingRows : Obligations.SamplingRows := by
  unfold Obligations.SamplingRows
  intro s consumed seen c o area due duePc control written reachable
  refine ⟨fun henable hdue hreach hfits => ?counter, fun henable hdue hhost hsuspended => ?counterSuspended, fun h => ?counterIdle,
    fun henable hdue hreach hfits => ?pc, fun henable hdue hhost hsuspended => ?pcSuspended, fun h => ?pcIdle,
    fun hhit htriggers hcrossed hnow => ⟨fun hstate => ?fires, fun hstate => ?ignores⟩,
    fun hhit htriggers hstate hcrossed hseedbed hopen => ?holds, fun h => ?quiet, fun hstate hfull => ?freezes, fun h => ?waits⟩
  case counter =>
    have hin := writeSample_sampleIn (s := sampling consumed s) hreach (counterRecord s c.cfg.ids)
    obtain ⟨hat, hhead, -⟩ := hin.times
    exact ⟨_, (exec_counterSample ..).trans (congrArg _ (counterSample_of_due henable hdue consumed)), hat, hhead, hin.written (s := s) hfits⟩
  case counterSuspended =>
    rw [exec_counterSample, counterSample_of_due henable hdue, writeSample_suspended (s := sampling consumed s) hhost hsuspended,
      sampling, takeConsumed]
    dsimp only
    rw [if_pos hhost]
  case counterIdle => exact (exec_counterSample ..).trans (congrArg _ (counterSample_of_not_due h consumed))
  case pc =>
    have hin := writeSample_sampleIn (s := pcSampling consumed s) hreach (pcRecord s seen)
    obtain ⟨-, -, hat⟩ := hin.times
    exact ⟨_, (exec_pcSample ..).trans (congrArg _ (pcSample_of_due henable hdue seen consumed)), hat, hin.written (s := s) hfits⟩
  case pcSuspended =>
    rw [exec_pcSample, pcSample_of_due henable hdue, writeSample_suspended (s := pcSampling consumed s) hhost hsuspended,
      pcSampling, takeConsumed]
    dsimp only
    rw [if_pos hhost]
  case pcIdle => exact (exec_pcSample ..).trans (congrArg _ (pcSample_of_not_due h seen consumed))
  case fires =>
    rw [exec_sheafThresholdTest, sheafThresholdTest_of_crossed (by omega) hhit htriggers hcrossed,
      sheafTriggerOf_now (s := { s with sheaf.counterHit := true }) (fun h => hnow (beq_iff_eq.1 h)),
      sheafTrigger_ring (s := { s with sheaf.counterHit := true }) htriggers hstate]
  case ignores =>
    rw [exec_sheafThresholdTest, sheafThresholdTest_of_crossed (by omega) hhit htriggers hcrossed,
      sheafTriggerOf_now (s := { s with sheaf.counterHit := true }) (fun h => hnow (beq_iff_eq.1 h)),
      sheafTrigger_ignored (s := { s with sheaf.counterHit := true }) htriggers hstate]
  case holds =>
    rw [exec_sheafThresholdTest, sheafThresholdTest_of_crossed hstate hhit htriggers hcrossed]
    refine congrArg _ (if_pos ?_)
    rw [hseedbed]
    exact hopen
  case quiet =>
    refine (exec_sheafThresholdTest s).trans (congrArg _ (if_neg ?_))
    rintro ⟨hstate, hhit, htriggers, hcrossed⟩
    rcases h with h | h | h | h
    · exact absurd hcrossed (Nat.not_le.2 h)
    · exact Bool.false_ne_true (hhit.symm.trans h)
    · exact hstate h
    · exact Bool.false_ne_true (h.symm.trans htriggers)
  case freezes =>
    have hfrozen : Frozen (frozenAt s).sheaf (frozenAt s).sheaf := ⟨rfl, rfl, rfl⟩
    rw [exec_sheafFreeze, sheafFreeze_of_full hstate hfull]
    obtain ⟨hstate', hindex, hring⟩ := frozen_raise (s := frozenAt s) hfrozen evTraceFrozen
      (pack [(4, s.sheaf.cause.1), (12, 0), (16, s.sheaf.cause.2), (32, s.sheaf.triggerIndex)])
    refine ⟨_, rfl, hstate', hindex, hring, raise_announces _ _ (frozenAt s), ?_⟩
    rw [raise_eq]
    rfl
  case waits =>
    refine (exec_sheafFreeze s).trans (congrArg _ (if_neg ?_))
    rintro ⟨hstate, hfull⟩
    rcases h with h | h
    · exact absurd hfull (Nat.not_le.2 h)
    · exact h hstate

end Sys2Proof.Proofs
end

section
/-!
PROOFS. COUNTER_CONFIGURE, TRACE_CONFIGURE and INJECT_CONFIGURE on the one module each reaches (13 R280, 15 R335, R336, 17 R363, R369).
-/
namespace Sys2Proof.Proofs

open Sys2Proof Sys2Proof.Machine Sys2Proof.Safety Sys2Proof.Laws

variable {s t u : State} {d : Desc} {b : Bytes} {ms : List ModId}

/-! ### Counters cleared -/

/-- A table of the keys kept. -/
theorem tget_filter {α : Type} (d : α) (p : Nat → Bool) (t : Sparse α) (a : Nat) :
    tget d (t.filter fun c => p c.1) a = if p a then tget d t a else d := by
  induction t with
  | nil => simp [tget]
  | cons c t ih =>
    obtain ⟨k, v⟩ := c
    by_cases hk : p k = true
    · rw [List.filter_cons_of_pos (by exact hk), tget, tget, ih]
      split
      next hka => rw [if_pos (hka ▸ hk)]
      next => rfl
    · rw [List.filter_cons_of_neg (by exact hk), ih, tget]
      by_cases ha : p a = true
      · rw [if_pos ha, if_pos ha, if_neg fun hka : k = a => hk (hka ▸ ha)]
      · rw [if_neg ha, if_neg ha]

/-- Entries set to 0 one by one. -/
theorem tget_zeroed {α : Type} (key : α → Nat) (l : List α) (t : Sparse Nat) (i : Nat) :
    tget 0 (l.foldl (fun t x => tset 0 t (key x) 0) t) i = if i ∈ l.map key then 0 else tget 0 t i := by
  induction l generalizing t with
  | nil => rfl
  | cons x l ih =>
    rw [List.foldl_cons, ih, tget_tset]
    by_cases hx : i = key x
    · simp [hx]
    · simp [hx]

theorem clearCounters_eq (ids : List Nat) (s : State) :
    clearCounters ids s = { s with counters.values := (clearCounters ids s).counters.values } := by
  unfold clearCounters
  split <;> rfl

theorem tget_clearCounters (ids : List Nat) (s : State) (i : Nat) :
    tget 0 (clearCounters ids s).counters.values i =
      if (ids = [] ∧ ¬ (4 * 0x400 ≤ i ∧ i < 4 * 0x460)) ∨ i ∈ ids then 0 else tget 0 s.counters.values i := by
  cases ids with
  | nil =>
    show tget 0 (s.counters.values.filter fun e => decide (4 * 0x400 ≤ e.1) && decide (e.1 < 4 * 0x460)) i = _
    rw [tget_filter 0 (fun k => decide (4 * 0x400 ≤ k) && decide (k < 4 * 0x460))]
    by_cases hstones : 4 * 0x400 ≤ i ∧ i < 4 * 0x460
    · rw [if_pos (by simpa using hstones), if_neg (by simp [hstones])]
    · rw [if_neg (by simpa using hstones), if_pos (.inl ⟨rfl, hstones⟩)]
  | cons x ids =>
    refine (tget_zeroed id (x :: ids) s.counters.values i).trans ?_
    rw [List.map_id]
    simp

/-! ### A block here -/

/-- The rows of a parameter block: the descriptor is taken, its block's operation fixed. -/
def IsBlockRow (row : Desc → Instr) (op : DescOp) (k : Nat) : Prop :=
  ∀ (d : Desc) (s : State), exec (row d) s = .next (takeDescriptor op (withBlockOp k d) s)

theorem runDesc_counters {kind holding : Nat} (hheader : headerBad d = false) (h : BlockHere counterBlockOk d s b ms)
    (hholding : (applyCounters ms d b s).holding = s.holding) :
    runDesc kind holding .counterConfigure d s = (applyCounters ms d b s, .done stOk 0) := by
  have hrun : runDesc kind holding .counterConfigure d s = runCounters d s := if_neg (Bool.eq_false_iff.1 hheader)
  rw [hrun, runCounters, withBlock_here h]
  exact onTargets_here h.me ((othersOf_of_holding hholding).trans h.alone) rfl

theorem runDesc_trace {kind holding : Nat} (hheader : headerBad d = false) (h : BlockHere traceBlockOk d s b ms)
    (hholding : (applyTrace ms d b s).holding = s.holding) :
    runDesc kind holding .traceConfigure d s = (applyTrace ms d b s, .done stOk 0) := by
  have hrun : runDesc kind holding .traceConfigure d s = runTrace d s := if_neg (Bool.eq_false_iff.1 hheader)
  rw [hrun, runTrace, withBlock_here h]
  exact onTargets_here h.me ((othersOf_of_holding hholding).trans h.alone) rfl

theorem runDesc_inject {kind holding : Nat} (hheader : headerBad d = false) (h : BlockHere injectBlockOk d s b ms)
    (happly : applyInject ms d b s = (u, stOk, 0)) (hholding : u.holding = s.holding) :
    runDesc kind holding .injectConfigure d s = (u, .done stOk 0) := by
  have hrun : runDesc kind holding .injectConfigure d s = runInject d s := if_neg (Bool.eq_false_iff.1 hheader)
  rw [hrun, runInject, withBlock_here h]
  dsimp only
  rw [happly]
  exact onTargets_here h.me ((othersOf_of_holding hholding).trans h.alone) rfl

/-- A row of COUNTER_CONFIGURE yields what its block does here. -/
theorem yields_of_counters {row : Desc → Instr} {k : Nat} {P : State → State → Prop} (hrow : IsBlockRow row .counterConfigure k) {d0 : Desc}
    (hexec : Executes .counterConfigure (withBlockOp k d0) s)
    (hhere : BlockHere counterBlockOk (withBlockOp k d0) (atOrderPoint .counterConfigure (withBlockOp k d0) s) b ms)
    (happly : ∀ p, p.power.linkUp = true → p = atOrderPoint .counterConfigure (withBlockOp k d0) s →
      (applyCounters ms (withBlockOp k d0) b p).holding = p.holding ∧ P p (applyCounters ms (withBlockOp k d0) b p)) :
    Yields (row d0) .counterConfigure (withBlockOp k d0) s (.done stOk 0) P := by
  obtain ⟨hholding, hP⟩ := happly _ (linkUp_of_reaches hexec.toReaches) rfl
  exact yields_of_runDesc (hrow d0 s) hexec (by decide) (runDesc_counters hexec.header hhere hholding) hP

theorem yields_of_trace {row : Desc → Instr} {k : Nat} {P : State → State → Prop} (hrow : IsBlockRow row .traceConfigure k) {d0 : Desc}
    (hexec : Executes .traceConfigure (withBlockOp k d0) s)
    (hhere : BlockHere traceBlockOk (withBlockOp k d0) (atOrderPoint .traceConfigure (withBlockOp k d0) s) b ms)
    (happly : ∀ p, p.power.linkUp = true → p = atOrderPoint .traceConfigure (withBlockOp k d0) s →
      (applyTrace ms (withBlockOp k d0) b p).holding = p.holding ∧ P p (applyTrace ms (withBlockOp k d0) b p)) :
    Yields (row d0) .traceConfigure (withBlockOp k d0) s (.done stOk 0) P := by
  obtain ⟨hholding, hP⟩ := happly _ (linkUp_of_reaches hexec.toReaches) rfl
  exact yields_of_runDesc (hrow d0 s) hexec (by decide) (runDesc_trace hexec.header hhere hholding) hP

theorem applyCounters_configure (hop : byteAt b 0 = 0) : applyCounters ms d b s = configureCounters b s := by
  simp only [applyCounters, hop]

theorem applyCounters_read (hop : byteAt b 0 = 1) : applyCounters ms d b s = resultAt ms d (counterRecord s (blockIds b)) s := by
  simp only [applyCounters, hop]

theorem applyCounters_clear (hop : byteAt b 0 = 2) : applyCounters ms d b s = clearCounters (blockIds b) s := by
  simp only [applyCounters, hop]

theorem applyCounters_status (hop : byteAt b 0 = 3) : applyCounters ms d b s = resultAt ms d (counterStatus s) s := by
  simp only [applyCounters, hop]

theorem applyTrace_arm (hop : byteAt b 0 = 0) : applyTrace ms d b s = configureSheaf b s := by
  simp only [applyTrace, hop]

theorem applyTrace_rearm (hop : byteAt b 0 = 1) : applyTrace ms d b s = armSheaf s := by
  simp only [applyTrace, hop]

theorem applyTrace_disable (hop : byteAt b 0 = 2) : applyTrace ms d b s = { s with sheaf.state := 0 } := by
  simp only [applyTrace, hop]

theorem applyTrace_status (hop : byteAt b 0 = 3) : applyTrace ms d b s = resultAt ms d (sheafStatus s) s := by
  simp only [applyTrace, hop]

/-! ### A counter configuration (17 R363, R365) -/

/-- The counters of a new configuration: an empty area, records from 1. -/
def freshCounters (b : Bytes) (s : State) : Counters :=
  { s.counters with
    cfg := sampleCfgOf b, nextSeq := 1, produced := 0, overwritten := 0, consumed := 0, wrapCount := 0, wrapAt := none
    records := [], lastAt := s.clock.up, lastHead := s.run.head, lastPcAt := s.clock.up }

theorem configureCounters_eq (b : Bytes) (s : State) : configureCounters b s =
    if (sampleCfgOf b).enable then
      (if (sampleCfgOf b).furrow then takeCounterRecord (sampleControl { s with counters := freshCounters b s })
       else sampleControl { s with counters := freshCounters b s })
    else { s with counters := freshCounters b s } := rfl

theorem sampleControl_fresh_host (hlink : s.power.linkUp = true) (hhost : (sampleCfgOf b).host = true) :
    sampleControl { s with counters := freshCounters b s } = { s with
      counters := freshCounters b s
      out.host := s.out.host ++
        [((sampleCfgOf b).base + ownRank s * (sampleCfgOf b).stride, leBytes 8 0 ++ leBytes 8 1, false)] } :=
  toSamples_host (s := { s with counters := freshCounters b s }) hhost (fun _ => hlink) 0 _

theorem sampleControl_fresh_local (hhost : (sampleCfgOf b).host = false) :
    sampleControl { s with counters := freshCounters b s } = { s with counters := { freshCounters b s with
      localArea := tsetBytes s.counters.localArea 0 (leBytes 8 0 ++ leBytes 8 1) } } :=
  toSamples_local (s := { s with counters := freshCounters b s }) hhost 0 _

/-- Bytes at the front of a table. -/
theorem tget_tsetBytes_front (bs : Bytes) (t : Sparse Byte) (i : Nat) :
    tget 0 (tsetBytes t 0 bs) i = if i < bs.length then bs.getD i 0 else tget 0 t i := by
  split
  next hi =>
    have hput := tget_tsetBytes_same bs t 0 i hi
    rw [Nat.zero_add] at hput
    rw [hput]
    simp [hi]
  next hi => exact tget_tsetBytes_other bs t (.inr (by omega))

/-- A record written, or only counted while host writes are suspended. -/
theorem writeSample_counts (hlink : s.power.linkUp = true) (bs : Bytes) :
    (writeSample bs s).counters.cfg = s.counters.cfg ∧ (writeSample bs s).counters.nextSeq = s.counters.nextSeq + 1 ∧
      (writeSample bs s).counters.lastHead = s.counters.lastHead ∧ (writeSample bs s).counters.values = s.counters.values ∧
      (writeSample bs s).holding = s.holding := by
  by_cases hcounted : s.counters.cfg.host = true ∧ s.counters.suspended = true
  · rw [writeSample_suspended hcounted.1 hcounted.2]
    exact ⟨rfl, rfl, rfl, rfl, rfl⟩
  · have hin := writeSample_sampleIn (s := s)
      (fun hhost => ⟨Bool.eq_false_iff.2 fun h => hcounted ⟨hhost, h⟩, fun _ => hlink⟩) bs
    obtain ⟨-, hhead, -⟩ := hin.times
    have hholding := congrArg (fun x : State => x.holding) hin.rest
    exact ⟨hin.cfg, hin.seq, hhead, hin.values, hholding⟩

/-- What a counter configuration leaves, by whether it samples, in which form and where. -/
theorem configureCounters_spec (hlink : s.power.linkUp = true) (b : Bytes) :
    let cfg := sampleCfgOf b
    let control := leBytes 8 0 ++ leBytes 8 1
    (configureCounters b s).holding = s.holding ∧
    (cfg.enable = false → configureCounters b s = { s with counters := freshCounters b s }) ∧
    (cfg.enable = true → cfg.furrow = false → cfg.host = true → configureCounters b s = { s with
      counters := freshCounters b s
      out.host := s.out.host ++ [(cfg.base + ownRank s * cfg.stride, control, false)] }) ∧
    (cfg.enable = true → cfg.furrow = false → cfg.host = false → configureCounters b s = { s with
      counters := { freshCounters b s with localArea := tsetBytes s.counters.localArea 0 control } }) ∧
    (cfg.enable = true → cfg.furrow = true →
      (configureCounters b s).counters.cfg = cfg ∧ (configureCounters b s).counters.nextSeq = 2 ∧
      (configureCounters b s).counters.lastHead = s.run.head ∧ (configureCounters b s).counters.values = s.counters.values) := by
  intro cfg control
  have hcontrol : ∃ area out, sampleControl { s with counters := freshCounters b s } = { s with
      counters := { freshCounters b s with localArea := area }, out := out } := by
    cases hhost : cfg.host with
    | true => exact ⟨_, _, sampleControl_fresh_host hlink hhost⟩
    | false => exact ⟨_, _, sampleControl_fresh_local hhost⟩
  obtain ⟨area, out, hcontrol⟩ := hcontrol
  have hrecord := writeSample_counts (s := { s with
    counters := { freshCounters b s with localArea := area, lastAt := s.clock.up, lastHead := s.run.head }, out := out }) hlink
    (counterRecord { s with counters := { freshCounters b s with localArea := area }, out := out } cfg.ids)
  obtain ⟨hcfg, hseq, hhead, hvalues, hholding⟩ := hrecord
  rw [configureCounters_eq]
  refine ⟨?_, fun henable => ?_, fun henable hfurrow hhost => ?_, fun henable hfurrow hhost => ?_, fun henable hfurrow => ?_⟩
  · split
    · split
      · rw [hcontrol]
        exact hholding
      · rw [hcontrol]
    · rfl
  · exact if_neg (Bool.eq_false_iff.1 henable)
  · rw [if_pos henable, if_neg (Bool.eq_false_iff.1 hfurrow), sampleControl_fresh_host hlink hhost]
  · rw [if_pos henable, if_neg (Bool.eq_false_iff.1 hfurrow), sampleControl_fresh_local hhost]
  · rw [if_pos henable, if_pos hfurrow, hcontrol]
    exact ⟨hcfg, hseq, hhead, hvalues⟩

/-! ### The stones (15 R335, R336) -/

/-- The injection counts set to 0. -/
def stonesZeroed (t : Sparse Nat) : Sparse Nat := (List.range 96).foldl (fun t i => tset 0 t (4 * (0x400 + i)) 0) t

theorem tget_stonesZeroed (t : Sparse Nat) (i : Nat) :
    tget 0 (stonesZeroed t) i = if i % 4 = 0 ∧ 4 * 0x400 ≤ i ∧ i < 4 * 0x460 then 0 else tget 0 t i := by
  refine (tget_zeroed (fun i => 4 * (0x400 + i)) (List.range 96) t i).trans (if_congr ?_ rfl rfl)
  rw [List.mem_map]
  constructor
  · rintro ⟨n, hn, rfl⟩
    rw [List.mem_range] at hn
    omega
  · rintro ⟨hmod, hlow, hhigh⟩
    exact ⟨i / 4 - 0x400, List.mem_range.2 (by omega), by omega⟩

/-- The injection counts written to the result area. -/
def countsTold (ms : List ModId) (d : Desc) (s : State) : State :=
  { s with out.host := s.out.host ++ resultWrite d ms (stoneCounts s) s }

theorem applyInject_of_open (hstate : s.security.state = 1) (hlink : s.power.linkUp = true) : applyInject ms d b s =
    (if still s then installStones ((stoneEntries b).map stoneOf) (digestBits (sha256 b)) (bitOf (byteAt b 1) 0)
        { countsTold ms d s with stones.pending := none }
      else { countsTold ms d s with
        stones.pending := some ((stoneEntries b).map stoneOf, digestBits (sha256 b), bitOf (byteAt b 1) 0) }, stOk, 0) := by
  unfold applyInject
  rw [if_neg (not_not.2 hstate), resultAt_linked hlink]
  rfl

theorem installStones_eq (xs : List Stone) (digest : BitVec 256) (reset : Bool) (s : State) : installStones xs digest reset s = { s with
    stones.live := xs.map fun x => ⟨x, 0, false⟩, stones.digest := if xs = [] then 0 else digest
    counters.values := if reset then stonesZeroed s.counters.values else s.counters.values
    security.meas := s.security.meas.set 3 (digestBits (sha256 (digestBytes (s.security.meas.getD 3 0) ++ digestBytes digest))) } := by
  unfold installStones
  cases xs <;> rfl

theorem exec_injectConfigure (d : Desc) (s : State) : exec (.injectConfigure d) s = .next (takeDescriptor .injectConfigure d s) := rfl

/-- Settles O35: each operation of the three orders by what its block does here. -/
theorem diagnosticOrders : Obligations.DiagnosticOrders := by
  unfold Obligations.DiagnosticOrders
  intro d0 s b ms
  refine ⟨?configure, ?read, ?clear, ?counterStatus, ?arm, ?rearm, ?disable, ?traceStatus, ?inject⟩
  case configure =>
    intro d hexec hhere hop
    refine yields_of_counters (fun _ _ => rfl) hexec hhere fun p hlink _ => ?_
    rw [applyCounters_configure hop]
    obtain ⟨hholding, hidle, hhost, hlocal, hfurrow⟩ := configureCounters_spec hlink b
    exact ⟨hholding, hidle, hhost, fun henable hform hhere =>
      ⟨_, tget_tsetBytes_front _ _, hlocal henable hform hhere⟩, hfurrow⟩
  case read =>
    intro d hexec hhere hop
    refine yields_of_counters (fun _ _ => rfl) hexec hhere fun p hlink _ => ?_
    rw [applyCounters_read hop, resultAt_linked hlink]
    exact ⟨rfl, rfl⟩
  case clear =>
    intro d hexec hhere hop
    refine yields_of_counters (fun _ _ => rfl) hexec hhere fun p _ _ => ?_
    rw [applyCounters_clear hop]
    refine ⟨?_, tget_clearCounters _ p, ?_⟩
    · rw [clearCounters_eq]
    · rw [clearCounters_eq]
  case counterStatus =>
    intro d hexec hhere hop
    refine yields_of_counters (fun _ _ => rfl) hexec hhere fun p hlink _ => ?_
    rw [applyCounters_status hop, resultAt_linked hlink]
    exact ⟨rfl, rfl⟩
  case arm =>
    intro d hexec hhere hop
    refine yields_of_trace (fun _ _ => rfl) hexec hhere fun p _ _ => ?_
    rw [applyTrace_arm hop]
    exact ⟨rfl, rfl, rfl, rfl, rfl, rfl, rfl, rfl, rfl, rfl, rfl, rfl, rfl⟩
  case rearm =>
    intro d hexec hhere hop
    refine yields_of_trace (fun _ _ => rfl) hexec hhere fun p _ _ => ?_
    rw [applyTrace_rearm hop]
    exact ⟨rfl, rfl, rfl, rfl, rfl, rfl, rfl, rfl⟩
  case disable =>
    intro d hexec hhere hop
    refine yields_of_trace (fun _ _ => rfl) hexec hhere fun p _ _ => ?_
    rw [applyTrace_disable hop]
    exact ⟨rfl, rfl⟩
  case traceStatus =>
    intro d hexec hhere hop
    refine yields_of_trace (fun _ _ => rfl) hexec hhere fun p hlink _ => ?_
    rw [applyTrace_status hop, resultAt_linked hlink]
    exact ⟨rfl, rfl⟩
  case inject =>
    intro hexec hhere hopen xs clears
    have hlink := linkUp_of_reaches hexec.toReaches
    have happly := applyInject_of_open (d := d0) (ms := ms) (b := b) (s := atOrderPoint .injectConfigure d0 s)
      (by rw [atOrderPoint_eq]; exact hopen) hlink
    have hstill : still (atOrderPoint .injectConfigure d0 s) = still s := by
      rw [atOrderPoint_eq]
      rfl
    rw [hstill] at happly
    refine ⟨fun hs => ?_, fun hs => ?_⟩
    · rw [if_pos hs, installStones_eq] at happly
      refine yields_of_runDesc (exec_injectConfigure d0 s) hexec (by decide) (runDesc_inject hexec.header hhere happly rfl) ?_
      refine ⟨rfl, rfl, rfl, fun i => ?_, rfl⟩
      show tget 0 (if clears then stonesZeroed _ else _) i = _
      by_cases hclears : clears = true
      · rw [if_pos hclears, tget_stonesZeroed]
        exact if_congr ⟨fun h => ⟨hclears, h⟩, fun h => h.2⟩ rfl rfl
      · rw [if_neg hclears, if_neg fun h => hclears h.1]
        rfl
    · rw [if_neg (Bool.eq_false_iff.1 hs)] at happly
      exact yields_of_runDesc (exec_injectConfigure d0 s) hexec (by decide) (runDesc_inject hexec.header hhere happly rfl) rfl

end Sys2Proof.Proofs
end

section
/-!
PROOFS. EXPORT_CONFIGURE by its four operations on the one module it reaches (13 R280, 16 R353 to R355).
-/
namespace Sys2Proof.Proofs

open Sys2Proof Sys2Proof.Machine Sys2Proof.Safety Sys2Proof.Laws

variable {s t u p : State} {d : Desc} {b : Bytes} {ms : List ModId} {k : Nat}

/-! ### A block here -/

/-- The state once the exporter's status has been written to the result area. -/
def statusTold (ms : List ModId) (d : Desc) (t : State) : State :=
  { t with out.host := t.out.host ++ resultWrite d ms (exportStatus t) t }

/-- A block here that has its effect. -/
theorem runDesc_export {kind holding n : Nat} (hheader : headerBad d = false) (h : ExportHere k d s b ms)
    (happly : applyExport ms d b s = (u, stOk, n)) (hholding : u.holding = s.holding) :
    runDesc kind holding .exportConfigure d s = (u, .done stOk n) := by
  have hrun : runDesc kind holding .exportConfigure d s = runExport d s := if_neg (Bool.eq_false_iff.1 hheader)
  obtain ⟨b0, hblock, hb⟩ := h.block
  rw [hrun, runExport, hblock]
  dsimp only
  rw [← hb, h.good, h.all]
  simp only [Bool.not_true, Bool.false_eq_true, if_false]
  rw [happly]
  exact onTargets_here h.me ((othersOf_of_holding hholding).trans h.alone) rfl

/-- A row of EXPORT_CONFIGURE yields its effect and the status after it. -/
theorem yields_of_export {row : Desc → Instr} {d0 : Desc} {n : Nat} {P : State → State → Prop} (t : State)
    (hrow : IsBlockRow row .exportConfigure k) (hexec : Executes .exportConfigure (withBlockOp k d0) s)
    (hhere : ExportHere k (withBlockOp k d0) (atOrderPoint .exportConfigure (withBlockOp k d0) s) b ms)
    (happly : applyExport ms (withBlockOp k d0) b (atOrderPoint .exportConfigure (withBlockOp k d0) s) =
      (resultAt ms (withBlockOp k d0) (exportStatus t) t, stOk, n))
    (hlink : t.power.linkUp = (atOrderPoint .exportConfigure (withBlockOp k d0) s).power.linkUp)
    (hholding : t.holding = (atOrderPoint .exportConfigure (withBlockOp k d0) s).holding)
    (hP : P (atOrderPoint .exportConfigure (withBlockOp k d0) s) (statusTold ms (withBlockOp k d0) t)) :
    Yields (row d0) .exportConfigure (withBlockOp k d0) s (.done stOk n) P := by
  rw [resultAt_linked (hlink.trans (linkUp_of_reaches hexec.toReaches))] at happly
  exact yields_of_runDesc (hrow d0 s) hexec (by decide) (runDesc_export hexec.header hhere happly hholding) hP

/-! ### The operations -/

/-- What an operation that gives the exporter `x` leaves, its status and its detail. -/
def toldExporter (ms : List ModId) (d : Desc) (x : Exporter) (s : State) : State × Nat × Nat :=
  let t : State := { s with exporter := x }
  (resultAt ms d (exportStatus t) t, stOk, x.retained.length)

/-- An acknowledgement lets go of the records up to it. -/
theorem acknowledged_exporter {seq : Nat} (hrest : ∀ r ∈ s.exporter.retained, s.exporter.acked < r.seq) :
    acknowledged seq s = { s with exporter := { s.exporter with
      acked := max s.exporter.acked seq
      retained := s.exporter.retained.filter fun r => decide (max s.exporter.acked seq < r.seq) } } := by
  unfold acknowledged
  split
  next hold =>
    have hall : s.exporter.retained.filter (fun r => decide (s.exporter.acked < r.seq)) = s.exporter.retained :=
      List.filter_eq_self.2 fun r hr => decide_eq_true (hrest r hr)
    rw [Nat.max_eq_left hold, hall]
  next hnew => rw [Nat.max_eq_right (by omega)]

theorem applyExport_acknowledge (hop : byteAt b 0 = 1) (hmode : s.run.modes.getD 8 false = true)
    (hseq : field b 8 8 < s.exporter.nextSeq) (hrest : ∀ r ∈ s.exporter.retained, s.exporter.acked < r.seq) : applyExport ms d b s =
      toldExporter ms d { s.exporter with
        acked := max s.exporter.acked (field b 8 8)
        retained := s.exporter.retained.filter fun r => decide (max s.exporter.acked (field b 8 8) < r.seq) } s := by
  simp only [applyExport, hop, hmode, decide_eq_false (Nat.not_le.2 hseq), Bool.not_true, Bool.or_false, Bool.false_eq_true, if_false,
    acknowledged_exporter hrest]
  rfl

theorem applyExport_chainBase (hop : byteAt b 0 = 2) (hoff : s.run.isOn = false) : applyExport ms d b s =
    toldExporter ms d { s.exporter with chain := digestBits (slice b 32 32) } s := by
  simp [applyExport, hop, hoff, toldExporter]

theorem applyExport_replay {es : List (Nat × Nat × Nat × Decision × Bytes)} (hop : byteAt b 0 = 3) (hoff : s.run.isOn = false)
    (hentries : replayEntries s (field b 24 8) b.length (slice b 64 (field b 16 8)) = some es) : applyExport ms d b s =
    let t : State := { s with harrows.replay := es }
    (resultAt ms d (exportStatus t) t, stOk, t.exporter.retained.length) := by
  simp [applyExport, hop, hoff, hentries]

/-- A replay log's entries come from the held segments' root tensors. -/
theorem replayEntries_congr (h : ∀ i, rootFormOf t i = rootFormOf s i) (step n : Nat) (b : Bytes) :
    replayEntries t step n b = replayEntries s step n b := by
  induction n generalizing b with
  | zero => rfl
  | succ n ih => simp only [replayEntries, h, ih]

/-- The exporter with a configuration in force, none waiting (16 R353). -/
def configured (c : ExportCfg) (x : Exporter) : Exporter :=
  let on := { x with cfg := c, pending := none }
  if c.enable = true ∧ x.cfg.enable = false then
    { on with first := true, keyed := [], nextSeq := 1, acked := 0, produced := 0, resends := 0, waits := 0, retained := [] }
  else if c.enable = true then { on with retained := x.retained.map (fun r => { r with at_ := none }), produced := 0 }
  else { on with retained := [], first := true }

theorem installExport_configured (c : ExportCfg) (s : State) :
    installExport c { s with exporter.pending := none } = { s with exporter := configured c s.exporter } := by
  cases hnew : c.enable <;> cases hold : s.exporter.cfg.enable
  all_goals simp [installExport, configured, hnew, hold]

theorem applyExport_still (hop : byteAt b 0 = 0) (hs : still s = true) : applyExport ms d b s =
    toldExporter ms d (configured (exportCfgOf b s.exporter.cfg) s.exporter) s := by
  simp only [applyExport, hop, hs, if_true, installExport_configured]
  rfl

theorem applyExport_held (hop : byteAt b 0 = 0) (hs : still s = false) : applyExport ms d b s =
    toldExporter ms d { s.exporter with pending := some (exportCfgOf b s.exporter.cfg) } s := by
  simp only [applyExport, hop, hs, Bool.false_eq_true, if_false]
  rfl

/-- A replay log kept, and the exporter's status told. -/
theorem replay_told (es : List (Nat × Nat × Nat × Decision × Bytes)) (ms : List ModId) (d : Desc) (p : State) :
    let u := statusTold ms d { p with harrows.replay := es }
    u.harrows.replay = es ∧
      u.out = { p.out with host := p.out.host ++ resultWrite d ms (exportStatus u) p } ∧
      { u with harrows.replay := p.harrows.replay, out := p.out } = p := ⟨rfl, rfl, rfl⟩

/-- An exporter put in place, and the exporter's status told. -/
theorem exporter_told (x : Exporter) (ms : List ModId) (d : Desc) (p : State) :
    let u := statusTold ms d { p with exporter := x }
    u.exporter = x ∧
      u.out = { p.out with host := p.out.host ++ resultWrite d ms (exportStatus u) p } ∧
      { u with exporter := p.exporter, out := p.out } = p := ⟨rfl, rfl, rfl⟩

theorem exporter_atOrderPoint (op : DescOp) (d : Desc) (s : State) : (atOrderPoint op d s).exporter = s.exporter := by
  rw [atOrderPoint_eq]

theorem yields_imp {c : Instr} {op : DescOp} {r : Result} {P Q : State → State → Prop} (h : Yields c op d s r P)
    (hQ : ∀ u, P (atOrderPoint op d s) u → Q (atOrderPoint op d s) u) : Yields c op d s r Q := by
  obtain ⟨u, hexec, hP⟩ := h
  exact ⟨u, hexec, hQ u hP⟩

/-- An operation that gives the exporter `x`. -/
theorem yields_of_exporter {row : Desc → Instr} {d0 : Desc} {x : Exporter} (hrow : IsBlockRow row .exportConfigure k)
    (hexec : Executes .exportConfigure (withBlockOp k d0) s)
    (hhere : ExportHere k (withBlockOp k d0) (atOrderPoint .exportConfigure (withBlockOp k d0) s) b ms)
    (happly : applyExport ms (withBlockOp k d0) b (atOrderPoint .exportConfigure (withBlockOp k d0) s) =
      toldExporter ms (withBlockOp k d0) x (atOrderPoint .exportConfigure (withBlockOp k d0) s)) :
    Yields (row d0) .exportConfigure (withBlockOp k d0) s (.done stOk x.retained.length) fun p u =>
      u.exporter = x ∧
        u.out = { p.out with host := p.out.host ++ resultWrite (withBlockOp k d0) ms (exportStatus u) p } ∧
        { u with exporter := p.exporter, out := p.out } = p :=
  yields_of_export _ hrow hexec hhere happly rfl rfl (exporter_told ..)

/-- Settles O33: each operation by the state in which it is taken. -/
theorem exportOrders : Obligations.ExportOrders := by
  unfold Obligations.ExportOrders
  intro d0 s b ms
  refine ⟨?configure, ?acknowledge, ?chainBase, ?replay⟩
  case configure =>
    intro d hexec hhere c on x
    have hstill : still (atOrderPoint .exportConfigure d s) = still s := by
      rw [atOrderPoint_eq]
      rfl
    refine ⟨fun hs => ?_, fun hs => ?_⟩
    · have happly := applyExport_still (ms := ms) (d := d) (s := atOrderPoint .exportConfigure d s) hhere.op (hstill.trans hs)
      rw [exporter_atOrderPoint] at happly
      exact yields_of_exporter (row := .exportConfig) (fun _ _ => rfl) hexec hhere happly
    · have happly := applyExport_held (ms := ms) (d := d) (s := atOrderPoint .exportConfigure d s) hhere.op (hstill.trans hs)
      rw [exporter_atOrderPoint] at happly
      have hyields := yields_of_exporter (row := .exportConfig) (fun _ _ => rfl) hexec hhere happly
      refine yields_imp hyields fun u hu => ⟨?_, hu.2⟩
      rw [exporter_atOrderPoint]
      exact hu.1
  case acknowledge =>
    intro d hexec hhere hmode hseq kept hrest
    have hmode' : (atOrderPoint .exportConfigure d s).run.modes.getD 8 false = true := by
      rw [atOrderPoint_eq]
      exact hmode
    have happly := applyExport_acknowledge (ms := ms) (d := d) (s := atOrderPoint .exportConfigure d s) hhere.op hmode'
      (by rw [exporter_atOrderPoint]; exact hseq) (by rw [exporter_atOrderPoint]; exact hrest)
    rw [exporter_atOrderPoint] at happly
    have hyields := yields_of_exporter (row := .exportAcknowledge) (fun _ _ => rfl) hexec hhere happly
    refine yields_imp hyields fun u hu => ⟨?_, hu.2⟩
    rw [exporter_atOrderPoint]
    exact hu.1
  case chainBase =>
    intro d hexec hhere hoff
    have happly := applyExport_chainBase (ms := ms) (d := d) (s := atOrderPoint .exportConfigure d s) hhere.op
      (by rw [atOrderPoint_eq]; exact hoff)
    rw [exporter_atOrderPoint] at happly
    have hyields := yields_of_exporter (row := .exportChainBase) (fun _ _ => rfl) hexec hhere happly
    refine yields_imp hyields fun u hu => ⟨?_, hu.2⟩
    rw [exporter_atOrderPoint]
    exact hu.1
  case replay =>
    intro d es hexec hhere hoff hentries
    have hform : ∀ i, rootFormOf (atOrderPoint .exportConfigure d s) i = rootFormOf s i := fun i => by
      rw [atOrderPoint_eq]
      rfl
    have happly := applyExport_replay (ms := ms) (d := d) (s := atOrderPoint .exportConfigure d s) hhere.op
      (by rw [atOrderPoint_eq]; exact hoff) ((replayEntries_congr hform ..).trans hentries)
    dsimp only at happly
    rw [← exporter_atOrderPoint .exportConfigure d s]
    exact yields_of_export _ (fun _ _ => rfl) hexec hhere happly rfl rfl (replay_told es ..)

end Sys2Proof.Proofs
end

section
/-!
PROOFS. SNAPSHOT, ROOT_SUPPLY and PLACEMENT_PIN at their order point (16 R358, 07 R147, R148, 11 R231 to R233).
-/
namespace Sys2Proof.Proofs

open Sys2Proof Sys2Proof.Machine Sys2Proof.Safety Sys2Proof.Laws

variable {s t u p : State} {d : Desc} {kind holding : Nat}

/-! ### Pages acted on one after another -/

/-- How a step over pages changes the page it is given and the pages selected to move: the entry becomes its image `image`, and a
page that `leaves` is selected, by an entry `named` so; an entry of its own says the tier and the cause. -/
structure PageStep (g : State → Nat → State) (image : PageEntry → PageEntry) (leaves : PageEntry → Bool) (far : Bool) (cause : Nat)
    (named : Nat → Selected → Prop) : Prop where
  same : ∀ t q, pageOf (g t q) q = image (pageOf t q)
  other : ∀ t q r, r ≠ q → pageOf (g t q) r = pageOf t r
  selects : ∀ t q, leaves (pageOf t q) = true → ∃ x ∈ (g t q).mem.selected, named q x
  keeps : ∀ t q x, x ∈ t.mem.selected → x.page ≠ q → x ∈ (g t q).mem.selected
  only : ∀ t q x, x ∈ (g t q).mem.selected → x ∈ t.mem.selected ∨ (leaves (pageOf t q) = true ∧ x = ⟨q, far, cause⟩)
  page : ∀ q x, named q x → x.page = q
  pins : ∀ t q, Pins t (g t q)

section
variable {g : State → Nat → State} {image : PageEntry → PageEntry} {leaves : PageEntry → Bool} {far : Bool} {cause : Nat}
  {named : Nat → Selected → Prop} {ps : List Nat}

theorem PageStep.page_foldl (h : PageStep g image leaves far cause named) (hnd : ps.Nodup) (s : State) (q : Nat) :
    pageOf (ps.foldl g s) q = if q ∈ ps then image (pageOf s q) else pageOf s q := by
  induction ps generalizing s with
  | nil => simp
  | cons r ps ih =>
    obtain ⟨hr, hps⟩ := List.nodup_cons.1 hnd
    rw [List.foldl_cons, ih hps]
    by_cases hq : q = r
    · subst hq
      simp [hr, h.same]
    · simp [hq, h.other s r q hq]

theorem PageStep.keeps_foldl (h : PageStep g image leaves far cause named) {s : State} {x : Selected} (hx : x ∈ s.mem.selected)
    (hps : x.page ∉ ps) : x ∈ (ps.foldl g s).mem.selected := by
  induction ps generalizing s with
  | nil => exact hx
  | cons r ps ih =>
    simp only [List.mem_cons, not_or] at hps
    exact ih (h.keeps s r x hx hps.1) hps.2

theorem PageStep.selects_foldl (h : PageStep g image leaves far cause named) (hnd : ps.Nodup) (s : State) {q : Nat} (hq : q ∈ ps)
    (hleaves : leaves (pageOf s q) = true) : ∃ x ∈ (ps.foldl g s).mem.selected, named q x := by
  induction ps generalizing s with
  | nil => simp at hq
  | cons r ps ih =>
    obtain ⟨hr, hps⟩ := List.nodup_cons.1 hnd
    rcases List.mem_cons.1 hq with rfl | hq
    · obtain ⟨x, hx, hnamed⟩ := h.selects s q hleaves
      exact ⟨x, h.keeps_foldl (ps := ps) hx (by rwa [h.page q x hnamed]), hnamed⟩
    · exact ih hps (g s r) hq (by rwa [h.other s r q (ne_of_mem_of_not_mem hq hr)])

theorem PageStep.only_foldl (h : PageStep g image leaves far cause named) (hnd : ps.Nodup) (s : State) {x : Selected}
    (hx : x ∈ (ps.foldl g s).mem.selected) :
    x ∈ s.mem.selected ∨ (x.page ∈ ps ∧ leaves (pageOf s x.page) = true ∧ x.toFar = far ∧ x.cause = cause) := by
  induction ps generalizing s with
  | nil => exact .inl hx
  | cons r ps ih =>
    obtain ⟨hr, hps⟩ := List.nodup_cons.1 hnd
    rcases ih hps (g s r) hx with hx | ⟨hpage, hleaves, hmove⟩
    · rcases h.only s r x hx with hx | ⟨hleaves, rfl⟩
      · exact .inl hx
      · exact .inr ⟨List.mem_cons_self, hleaves, rfl, rfl⟩
    · rw [h.other s r x.page (ne_of_mem_of_not_mem hpage hr)] at hleaves
      exact .inr ⟨List.mem_cons_of_mem r hpage, hleaves, hmove⟩

end

theorem pagesOf_nodup (off len : Nat) : (pagesOf off len).Nodup := by
  unfold pagesOf
  split
  · exact List.nodup_nil
  · exact List.nodup_range.map fun _ _ h => Nat.add_left_cancel h

/-! ### The three steps of PLACEMENT_PIN -/

/-- The tier a page stands in once its move has ended. -/
def goesFar (e : PageEntry) : Bool := if e.state == 1 || e.state == 2 then e.otherFar else e.far

theorem pageStep_unpin : PageStep (fun t q => setPage q { pageOf t q with pin := 0 } t) (fun e => { e with pin := 0 })
    (fun _ => false) false 1 (fun q x => x = ⟨q, false, 1⟩) where
  same _ _ := pageOf_setPage_same ..
  other _ _ _ h := pageOf_setPage_other h ..
  selects _ _ h := nomatch h
  keeps _ _ _ hx _ := hx
  only _ _ _ hx := .inl hx
  page _ _ h := congrArg Selected.page h
  pins _ _ := rfl

theorem pinPage_eq (far : Bool) (q : Nat) (s : State) : pinPage far q s =
    let v := setPage q { pageOf s q with pin := if far then 2 else 1 } s
    if (pageOf s q).present && goesFar (pageOf s q) != far then
      { v with mem.selected := (s.mem.selected.filter fun x => x.page != q) ++ [⟨q, far, 1⟩] }
    else v := rfl

theorem pinPage_pages (far : Bool) (q : Nat) (s : State) :
    (pinPage far q s).mem.pages = (setPage q { pageOf s q with pin := if far then 2 else 1 } s).mem.pages := by
  rw [pinPage_eq]
  dsimp only
  split <;> rfl

theorem pinPage_selected (far : Bool) (q : Nat) (s : State) : (pinPage far q s).mem.selected =
    if (pageOf s q).present && goesFar (pageOf s q) != far then (s.mem.selected.filter fun x => x.page != q) ++ [⟨q, far, 1⟩]
    else s.mem.selected := by
  rw [pinPage_eq]
  dsimp only
  split <;> rfl

theorem pageStep_pin (far : Bool) : PageStep (fun t q => pinPage far q t) (fun e => { e with pin := if far then 2 else 1 })
    (fun e => e.present && goesFar e != far) far 1 (fun q x => x = ⟨q, far, 1⟩) where
  same t q := by
    rw [pageOf, pinPage_pages]
    exact pageOf_setPage_same q _ t
  other t q r h := by
    rw [pageOf, pinPage_pages]
    exact pageOf_setPage_other h ..
  selects t q h := ⟨_, by rw [pinPage_selected, if_pos h]; exact List.mem_append_right _ List.mem_cons_self, rfl⟩
  keeps t q x hx hne := by
    rw [pinPage_selected]
    split
    · exact List.mem_append_left _ (List.mem_filter.2 ⟨hx, bne_iff_ne.2 hne⟩)
    · exact hx
  only t q x hx := by
    rw [pinPage_selected] at hx
    split at hx
    next h =>
      rcases List.mem_append.1 hx with hx | hx
      · exact .inl (List.mem_filter.1 hx).1
      · exact .inr ⟨h, List.mem_singleton.1 hx⟩
    next => exact .inl hx
  page _ _ h := congrArg Selected.page h
  pins t q := pins_pinPage far q t

/-- A page whose move to the near tier is under way. -/
def comesNear (e : PageEntry) : Bool := (e.state == 1 || e.state == 2) && !e.otherFar

/-- The entry of a page that is hinted. -/
def hinted (e : PageEntry) : PageEntry :=
  if comesNear e then { e with cause := if owed e.cause then e.cause else 2 } else e

theorem hintPage_comesNear {q : Nat} (h : comesNear (pageOf s q) = true) :
    hintPage q s = setPage q { pageOf s q with cause := if owed (pageOf s q).cause then (pageOf s q).cause else 2 } s :=
  if_pos h

theorem goesFar_of_comesNear {e : PageEntry} (h : comesNear e = true) : goesFar e = false := by
  simp only [comesNear, Bool.and_eq_true, Bool.not_eq_true'] at h
  rw [goesFar, if_pos h.1, h.2]

theorem hintPage_stands {q : Nat} (h : comesNear (pageOf s q) = false) : hintPage q s =
    if (pageOf s q).present && goesFar (pageOf s q) then
      { s with mem.selected := (s.mem.selected.filter fun x => x.page != q || owed x.cause) ++
        (if s.mem.selected.any (fun x => x.page == q && owed x.cause) then [] else [⟨q, false, 2⟩]) }
    else s := by
  have hgoes : goesFar (pageOf s q) = ((pageOf s q).state == 1 || (pageOf s q).state == 2 || (pageOf s q).far) := by
    unfold comesNear at h
    unfold goesFar
    cases hmid : (pageOf s q).state == 1 || (pageOf s q).state == 2 <;> simp_all
  rw [hgoes]
  exact if_neg (Bool.eq_false_iff.1 h)

theorem pageStep_hint : PageStep (fun t q => hintPage q t) hinted (fun e => e.present && goesFar e) false 2
    (fun q x => x.page = q) where
  same t q := by
    unfold hinted
    cases h : comesNear (pageOf t q) with
    | true => rw [hintPage_comesNear h, if_pos rfl, pageOf_setPage_same]
    | false =>
      rw [hintPage_stands h, if_neg Bool.false_ne_true]
      split <;> rfl
  other t q r hr := by
    cases h : comesNear (pageOf t q) with
    | true => rw [hintPage_comesNear h, pageOf_setPage_other hr]
    | false =>
      rw [hintPage_stands h]
      split <;> rfl
  selects t q hleaves := by
    cases h : comesNear (pageOf t q) with
    | true => simp [goesFar_of_comesNear h] at hleaves
    | false =>
      rw [hintPage_stands h, if_pos hleaves]
      dsimp only
      cases howed : t.mem.selected.any fun x => x.page == q && owed x.cause with
      | true =>
        obtain ⟨x, hx, hpage⟩ := List.any_eq_true.1 howed
        simp only [Bool.and_eq_true, beq_iff_eq] at hpage
        exact ⟨x, List.mem_append_left _ (List.mem_filter.2 ⟨hx, by simp [hpage.2]⟩), hpage.1⟩
      | false => exact ⟨⟨q, false, 2⟩, List.mem_append_right _ List.mem_cons_self, rfl⟩
  keeps t q x hx hne := by
    cases h : comesNear (pageOf t q) with
    | true =>
      rw [hintPage_comesNear h]
      exact hx
    | false =>
      rw [hintPage_stands h]
      split
      · exact List.mem_append_left _ (List.mem_filter.2 ⟨hx, by simp [hne]⟩)
      · exact hx
  only t q x hx := by
    cases h : comesNear (pageOf t q) with
    | true =>
      rw [hintPage_comesNear h] at hx
      exact .inl hx
    | false =>
      rw [hintPage_stands h] at hx
      split at hx
      next hleaves =>
        rcases List.mem_append.1 hx with hx | hx
        · exact .inl (List.mem_filter.1 hx).1
        · split at hx
          · exact absurd hx List.not_mem_nil
          · exact .inr ⟨hleaves, List.mem_singleton.1 hx⟩
      next => exact .inl hx
  page _ _ h := h
  pins t q := by
    cases h : comesNear (pageOf t q) with
    | true =>
      rw [hintPage_comesNear h]
      rfl
    | false =>
      rw [hintPage_stands h]
      split <;> rfl

/-! ### PLACEMENT_PIN at its order point -/

/-- The pages a pin waits for: present, and in the other tier or on their way. -/
def pinMoving (far : Bool) (ps : List Nat) (s : State) : List Nat :=
  ps.filter fun q => (pageOf s q).present && ((pageOf s q).far != far || ((pageOf s q).state == 1 || (pageOf s q).state == 2))

/-- What a pin of these pages is answered. -/
def pinResult (far : Bool) (moving : List Nat) : Result :=
  if moving = [] then .done stOk 0 else .later (.pin moving far moving.length)

theorem mem_pinMoving {far : Bool} {ps : List Nat} {q : Nat} (hq : q ∈ ps)
    (hleaves : ((pageOf s q).present && goesFar (pageOf s q) != far) = true) : q ∈ pinMoving far ps s := by
  refine List.mem_filter.2 ⟨hq, ?_⟩
  unfold goesFar at hleaves
  cases hmid : (pageOf s q).state == 1 || (pageOf s q).state == 2
  all_goals simp_all

/-- A PLACEMENT_PIN that this module takes and can meet. -/
structure PinsHere (d : Desc) (s : State) : Prop where
  good : pinMalformed s d = false
  me : BitVec.ofNat 16 (dAt d 40 2) = s.holding.moduleId
  member : inHolding s.holding s.holding.moduleId = true
  free : touchesReserved s (dAt d 16 8) (dAt d 24 8) = false
  fits : dAt d 32 1 = 0 ∨ pinFits s (dAt d 32 1 == 2) (pinPages d) = true

theorem PinsHere.inRange (h : PinsHere d s) : ¬ s.mem.capacity < dAt d 16 8 + dAt d 24 8 := by
  have hgood := h.good
  simp only [pinMalformed, Bool.or_eq_false_iff, decide_eq_false_iff_not] at hgood
  obtain ⟨⟨⟨⟨⟨-, hrange⟩, -⟩, -⟩, -⟩, -⟩ := hgood
  exact hrange

theorem PinsHere.tier (h : PinsHere d s) : dAt d 32 1 ≤ 2 := by
  have hgood := h.good
  simp only [pinMalformed, Bool.or_eq_false_iff, decide_eq_false_iff_not] at hgood
  obtain ⟨⟨⟨⟨-, htier⟩, -⟩, -⟩, -⟩ := hgood
  omega

theorem PinsHere.runDesc (h : PinsHere d s) (hheader : headerBad d = false) :
    runDesc kind holding .placementPin d s = applyPin d s := by
  have hrun : Machine.runDesc kind holding .placementPin d s = runPlacementPin d s := if_neg (Bool.eq_false_iff.1 hheader)
  rw [hrun, runPlacementPin, if_neg (Bool.eq_false_iff.1 h.good), h.me, if_neg (by rw [h.member]; exact Bool.false_ne_true),
    if_pos rfl]

theorem PinsHere.applyPin_unpin (h : PinsHere d s) (htier : dAt d 32 1 = 0) (hhint : dAt d 33 1 = 0) : applyPin d s =
    ((pinPages d).foldl (fun s q => setPage q { pageOf s q with pin := 0 } s) s, .done stOk 0) := by
  unfold applyPin
  dsimp only
  rw [if_neg h.inRange, if_neg (Bool.eq_false_iff.1 h.free), if_neg (fun hno => hno.1 htier), hhint, htier]
  rfl

theorem PinsHere.applyPin_moves (h : PinsHere d s) (htier : dAt d 32 1 ≠ 0) (hhint : dAt d 33 1 = 1 → dAt d 32 1 = 1) :
    applyPin d s =
      ((pinPages d).foldl (fun s q => if dAt d 33 1 == 1 then hintPage q s else pinPage (dAt d 32 1 == 2) q s) s,
        pinResult (dAt d 32 1 == 2) (pinMoving (dAt d 32 1 == 2) (pinPages d) s)) := by
  have hfits : ¬ (dAt d 32 1 ≠ 0 ∧ pinFits s (dAt d 32 1 == 2) (pinPages d) = false) := fun hno =>
    Bool.eq_false_iff.1 hno.2 (h.fits.resolve_left htier)
  have hhinted : ¬ ((dAt d 33 1 == 1 && dAt d 32 1 != 1) = true) := by simpa using hhint
  unfold applyPin
  dsimp only
  rw [if_neg h.inRange, if_neg (Bool.eq_false_iff.1 h.free), if_neg hfits, if_neg hhinted, if_neg htier]
  unfold pinResult pinMoving
  simp only [Bool.or_assoc, List.isEmpty_iff]
  split <;> rfl

theorem PinsHere.atOrderPoint (h : PinsHere d s) (op : DescOp) : PinsHere d (atOrderPoint op d s) := by
  rw [atOrderPoint_eq]
  exact ⟨h.good, h.me, h.member, h.free, h.fits⟩

theorem pageOf_atOrderPoint (op : DescOp) (d : Desc) (s : State) (q : Nat) : pageOf (atOrderPoint op d s) q = pageOf s q := by
  rw [atOrderPoint_eq]
  rfl

theorem pinMoving_atOrderPoint (op : DescOp) (d : Desc) (s : State) (far : Bool) (ps : List Nat) :
    pinMoving far ps (atOrderPoint op d s) = pinMoving far ps s := by
  unfold pinMoving
  simp only [pageOf_atOrderPoint]

/-- What pinning pages, or no longer pinning them, leaves. -/
theorem pinned_spec {g : State → Nat → State} {tier : Nat} {far : Bool} {leaves : PageEntry → Bool}
    (h : PageStep g (fun e => { e with pin := tier }) leaves far 1 (fun q x => x = ⟨q, far, 1⟩)) {ps : List Nat} (hnd : ps.Nodup)
    (p : State) :
    (∀ q ∈ ps, pageOf (ps.foldl g p) q = { pageOf p q with pin := tier }) ∧
    (∀ q, q ∉ ps → pageOf (ps.foldl g p) q = pageOf p q) ∧
    (∀ q ∈ ps, leaves (pageOf p q) = true → ⟨q, far, 1⟩ ∈ (ps.foldl g p).mem.selected) ∧
    (∀ x ∈ (ps.foldl g p).mem.selected, x ∈ p.mem.selected ∨
      (x.page ∈ ps ∧ leaves (pageOf p x.page) = true ∧ x.toFar = far ∧ x.cause = 1)) ∧
    Pins p (ps.foldl g p) := by
  refine ⟨fun q hq => ?_, fun q hq => ?_, fun q hq hleaves => ?_, fun x hx => h.only_foldl hnd p hx, .foldl h.pins ps p⟩
  · rw [h.page_foldl hnd, if_pos hq]
  · rw [h.page_foldl hnd, if_neg hq]
  · obtain ⟨x, hx, rfl⟩ := h.selects_foldl hnd p hq hleaves
    exact hx

theorem Pins.rest (h : Pins s t) : { t with mem.pages := s.mem.pages, mem.selected := s.mem.selected } = s := by
  rw [h]

/-! ### An order for one other member -/

theorem toTargets_peer {m : ModId} (hother : m ≠ s.holding.moduleId) (hthere : s.holding.lost.contains m = false) (op : DescOp)
    (d : Desc) (status detail : Nat) : toTargets [m] op d status detail s =
      (sendHedge m (.orderForward (asOrder op d s)) s, .later (.targets [m] status detail)) := by
  have hothers : othersOf s [m] = [m] :=
    List.filter_eq_self.2 fun x hx => by
      rw [List.mem_singleton.1 hx, hthere, bne_iff_ne.2 hother]
      rfl
  unfold toTargets
  rw [hothers]
  rfl

theorem order_sent (m : ModId) (o : FwdOrder) (p : State) :
    (sendHedge m (.orderForward o) p).out.hedge = p.out.hedge ++ [(m, .orderForward o)] ∧
      { sendHedge m (.orderForward o) p with sheaf := p.sheaf, out := p.out } = p := by
  rw [sendHedge_eq]
  exact ⟨rfl, rfl⟩

/-! ### SNAPSHOT -/

theorem toSink_host (hlink : s.power.linkUp = true) (addr : Nat) (bs : Bytes) :
    toSink true addr bs s = { s with out.host := s.out.host ++ [(addr, bs, false)] } := by
  unfold toSink masterWrite hostWrite
  simp only [hlink, if_true, ite_self]

/-- A SNAPSHOT that is accepted: well formed, of a run that has committed and is not halted in between, to a place it may write. -/
theorem runSnapshot_accepted (hcount : noCount d = true) (hflags : bits (dAt d 24 1) 2 6 = 0) (hzero : dZeroFrom d 25 = true)
    (hcommit : s.run.lastCommit.isSome = true) (hsmear : s.run.halt ≠ .smear) (hlead : s.run.halt ≠ .noLead)
    (hplace : bitOf (dAt d 24 1) 0 = false → ∃ m o, lamioTarget s (dAt d 16 8) = some (m, o) ∧
      o + (snapshotRecord s (bitOf (dAt d 24 1) 1)).1.length ≤ reservedBase s ∧
      (s.quiet = true ∨ (tensorsOn s m o (snapshotRecord s (bitOf (dAt d 24 1) 1)).1.length).isEmpty = true)) :
    runSnapshot d s = accept (satTo (2 ^ 32 - 1) (snapshotRecord s (bitOf (dAt d 24 1) 1)).2)
      (toSink (bitOf (dAt d 24 1) 0) (dAt d 16 8) (snapshotRecord s (bitOf (dAt d 24 1) 1)).1 s) := by
  have hhalt : (s.run.lastCommit.isNone || s.run.halt == .smear || s.run.halt == .noLead) = false := by
    rw [← Option.not_isSome, hcommit, beq_false_of_ne hsmear, beq_false_of_ne hlead]
    rfl
  have hform : ¬ (!noCount d || bits (dAt d 24 1) 2 6 != 0 || !dZeroFrom d 25) = true := by simp [hcount, hflags, hzero]
  unfold runSnapshot
  dsimp only
  rw [if_neg hform, if_neg (c := (s.run.lastCommit.isNone || s.run.halt == .smear || s.run.halt == .noLead) = true)
    (Bool.eq_false_iff.1 hhalt)]
  cases hhost : bitOf (dAt d 24 1) 0 with
  | true => rfl
  | false =>
    obtain ⟨m, o, hat, hfits, hfree⟩ := hplace hhost
    have hfree' : ¬ (!s.quiet && !(tensorsOn s m o (snapshotRecord s (bitOf (dAt d 24 1) 1)).1.length).isEmpty) = true := by
      rcases hfree with h | h <;> simp [h]
    simp only [hat, Bool.false_eq_true, if_false, Bool.not_false, Bool.true_and]
    rw [if_neg (by simpa using hfits), if_neg hfree']

theorem runDesc_snapshot (hheader : headerBad d = false) : runDesc kind holding .snapshot d s = runSnapshot d s :=
  if_neg (Bool.eq_false_iff.1 hheader)

theorem toSink_here {o : Nat} {addr : Nat} (hat : lamioTarget s addr = some (s.holding.moduleId, o)) (bs : Bytes) :
    toSink false addr bs s = writeNow o bs false s := by
  simp [toSink, hat]

theorem toSink_peer {m : ModId} {o : Nat} {addr : Nat} (hat : lamioTarget s addr = some (m, o)) (hother : m ≠ s.holding.moduleId)
    (bs : Bytes) : toSink false addr bs s =
      sendTransfer ⟨m, s.lamio.nextTag, o, none, bs⟩ { s with lamio.nextTag := s.lamio.nextTag + 1 } := by
  simp [toSink, hat, hother]

/-- The record written here. -/
theorem writeNow_bytes (o : Nat) (bs : Bytes) (p : State) :
    let u := writeNow o bs false p
    (∀ i, i < bs.length → readByte u.mem u.run.head .plain (o + i) = bs.getD i 0) ∧
      (∀ q a, a < o ∨ o + bs.length ≤ a → readByte u.mem u.run.head q a = readByte p.mem p.run.head q a) ∧
      { u with mem := p.mem, counters.values := p.counters.values } = p := by
  obtain ⟨hnew, hother, hframe⟩ := writeNow_spec o bs false p
  have hhead : (writeNow o bs false p).run.head = p.run.head := by
    have h := congrArg (fun x : State => x.run.head) hframe
    exact h
  dsimp only
  rw [hhead]
  exact ⟨hnew, hother, hframe⟩

/-! ### ROOT_SUPPLY -/

/-- The candidate a ROOT_SUPPLY brings. -/
def suppliedRoot (d : Desc) (f : SolveForm) (b : Bytes) : Candidate :=
  { statStep := dAt d 32 8, residual := 0, state := 2, iterations := 0, block := padTo (f.blockBytes (supplyKey d).block) b }

theorem applySupply_taken {f : SolveForm} {b : Bytes} (hmode : s.run.modes.getD 4 false = true) (hform : supplyForm s d = some f)
    (hdata : d.data = .ok b) (hdue : f.stat.due (dAt d 32 8) = true) (hcommitted : stepCommitted s (dAt d 32 8) = true)
    (hnewer : (installedHeader s f (supplyKey d).block).state = 0 ∨
      (installedHeader s f (supplyKey d).block).statStep ≤ dAt d 32 8) : applySupply d s =
      ({ s with harrows.blocks :=
          mapFirst (fun x => x.key == supplyKey d) (fun x => { x with candidate := some (suppliedRoot d f b) }) s.harrows.blocks },
        if s.run.head.toNat < (deadlineOf f (dAt d 32 8)).toNat then stOk else stDeadlineReused, 0) := by
  have hgood : ¬ (!(f.stat.due (dAt d 32 8) && stepCommitted s (dAt d 32 8)) ||
      ((installedHeader s f (supplyKey d).block).state != 0 &&
        decide (dAt d 32 8 < (installedHeader s f (supplyKey d).block).statStep))) = true := by
    rcases hnewer with h | h <;> simp [hdue, hcommitted, h]
  unfold applySupply
  dsimp only
  rw [hform, hdata]
  dsimp only
  rw [if_neg hgood, if_neg (by rw [hmode]; exact Bool.false_ne_true)]
  rfl

theorem runDesc_rootSupply {m : ModId} (hheader : headerBad d = false) (hmode : s.run.modes.getD 4 false = true)
    (hm : BitVec.ofNat 16 (dAt d 40 2) = m) (hmember : inHolding s.holding m = true) (hmid : dZeroIn d 42 6 = true)
    (htail : dZeroFrom d 56 = true) : runDesc kind holding .rootSupply d s =
      if m = s.holding.moduleId then ((applySupply d s).1, .done (applySupply d s).2.1 (applySupply d s).2.2)
      else toTargets [m] .rootSupply d stOk 0 s := by
  have hrun : runDesc kind holding .rootSupply d s = runRootSupply d s := if_neg (Bool.eq_false_iff.1 hheader)
  rw [hrun, runRootSupply, hm, hmode, hmember, hmid, htail]
  rfl

/-- The candidate stands in the block it is for, and in no other. -/
theorem candidate_supplied (k : SolveKey) (c : Candidate) (p : State) :
    let u : State :=
      { p with harrows.blocks := mapFirst (fun x => x.key == k) (fun x => { x with candidate := some c }) p.harrows.blocks }
    (∀ x, p.harrows.blocks.find? (fun x => x.key == k) = some x →
      u.harrows.blocks.find? (fun x => x.key == k) = some { x with candidate := some c }) ∧
    (∀ k', k' ≠ k → u.harrows.blocks.find? (fun x => x.key == k') = p.harrows.blocks.find? (fun x => x.key == k')) ∧
    { u with harrows.blocks := p.harrows.blocks } = p := by
  refine ⟨fun x hx => ?_, fun k' hk => ?_, rfl⟩
  · have hfind := find?_mapFirst (p := fun x : BlockSolve => x.key == k) (f := fun x => { x with candidate := some c })
      (fun _ => rfl) p.harrows.blocks
    rw [hx] at hfind
    exact hfind
  · have hother : ∀ x : BlockSolve, (x.key == k) = true → (x.key == k') = false := fun x hx =>
      beq_false_of_ne fun h => hk (h.symm.trans (beq_iff_eq.1 hx))
    exact find?_mapFirst_other (f := fun x => { x with candidate := some c }) hother hother p.harrows.blocks

/-! ### The three orders -/

/-- Settles O34: SNAPSHOT by its sink, ROOT_SUPPLY and PLACEMENT_PIN by their target, a pin by its tier and hint. -/
theorem snapshotSupplyAndPin : Obligations.SnapshotSupplyAndPin := by
  unfold Obligations.SnapshotSupplyAndPin
  intro d s
  refine ⟨?snapshot, ?supply, ?supplyPeer, ?pinPeer, ?pin⟩
  case snapshot =>
    intro hexec p f bs n hcount hflags hzero hcommit hsmear hlead
    have hrun := runDesc_snapshot (kind := 0) (holding := p.holding.number.toNat) (s := p) hexec.header
    have hcommit' : p.run.lastCommit.isSome = true := by rw [show p = _ from atOrderPoint_eq ..]; exact hcommit
    have hsmear' : p.run.halt ≠ .smear := by rw [show p = _ from atOrderPoint_eq ..]; exact hsmear
    have hlead' : p.run.halt ≠ .noLead := by rw [show p = _ from atOrderPoint_eq ..]; exact hlead
    have hme : p.holding.moduleId = s.holding.moduleId := by rw [show p = _ from atOrderPoint_eq ..]
    have haccepted := runSnapshot_accepted hcount hflags hzero hcommit' hsmear' hlead'
    refine ⟨fun hhost => ?_, fun m o hlocal hat hfits hfree => ⟨fun hm => ?_, fun hm => ?_⟩⟩
    · rw [haccepted fun hno => absurd (hhost.symm.trans hno) nofun, show bitOf (dAt d 24 1) 0 = true from hhost,
        toSink_host (linkUp_of_reaches hexec.toReaches)] at hrun
      exact yields_of_runDesc rfl hexec nofun hrun rfl
    · rw [haccepted fun _ => ⟨m, o, hat, hfits, hfree⟩, show bitOf (dAt d 24 1) 0 = false from hlocal,
        toSink_here (by rw [hat, hm, hme])] at hrun
      exact yields_of_runDesc rfl hexec nofun hrun (writeNow_bytes o bs p)
    · rw [haccepted fun _ => ⟨m, o, hat, hfits, hfree⟩, show bitOf (dAt d 24 1) 0 = false from hlocal,
        toSink_peer hat (by rwa [hme])] at hrun
      exact yields_of_runDesc rfl hexec nofun hrun rfl
  case supply =>
    intro f b hexec hm hmode hmember hmid htail hform hdata hdue hcommitted h hnewer st c
    have hp := atOrderPoint_eq .rootSupply d s
    have hrun := runDesc_rootSupply (kind := 0) (holding := (atOrderPoint .rootSupply d s).holding.number.toNat)
      (s := atOrderPoint .rootSupply d s) hexec.header (by rw [hp]; exact hmode) hm (by rw [hp]; exact hmember) hmid htail
    rw [if_pos (by rw [hp]), applySupply_taken (s := atOrderPoint .rootSupply d s) (f := f) (by rw [hp]; exact hmode)
      (by rw [hp]; exact hform) hdata hdue (by rw [hp]; exact hcommitted) (by rw [hp]; exact hnewer),
      show (atOrderPoint .rootSupply d s).run.head = s.run.head by rw [hp]] at hrun
    exact yields_of_runDesc rfl hexec nofun hrun (candidate_supplied (supplyKey d) c _)
  case supplyPeer =>
    intro m hexec hmode hmember hmid htail hm hlost
    have hp := atOrderPoint_eq .rootSupply d s
    have hrun := runDesc_rootSupply (kind := 0) (holding := (atOrderPoint .rootSupply d s).holding.number.toNat) (m := m)
      (s := atOrderPoint .rootSupply d s) hexec.header (by rw [hp]; exact hmode) rfl (by rw [hp]; exact hmember) hmid htail
    rw [if_neg (by rw [hp]; exact hm), toTargets_peer (by rw [hp]; exact hm) (by rw [hp]; exact hlost)] at hrun
    exact yields_of_runDesc rfl hexec nofun hrun (order_sent m _ _)
  case pinPeer =>
    intro m hexec hgood hmember hm hlost
    have hp := atOrderPoint_eq .placementPin d s
    have hrun : runDesc 0 (atOrderPoint .placementPin d s).holding.number.toNat .placementPin d (atOrderPoint .placementPin d s) =
        runPlacementPin d (atOrderPoint .placementPin d s) := if_neg (Bool.eq_false_iff.1 hexec.header)
    have hgood' : pinMalformed (atOrderPoint .placementPin d s) d = false := by rw [hp]; exact hgood
    have hmember' : inHolding (atOrderPoint .placementPin d s).holding m = true := by rw [hp]; exact hmember
    have hm' : m ≠ (atOrderPoint .placementPin d s).holding.moduleId := by rw [hp]; exact hm
    rw [runPlacementPin, if_neg (Bool.eq_false_iff.1 hgood'), if_neg (by rw [hmember']; exact Bool.false_ne_true), if_neg hm',
      toTargets_peer hm' (by rw [hp]; exact hlost)] at hrun
    exact yields_of_runDesc rfl hexec nofun hrun (order_sent m _ _)
  case pin =>
    intro hexec hgood hm hmember hfree hfits far mid goes moving result
    have here : PinsHere d (atOrderPoint .placementPin d s) := PinsHere.atOrderPoint ⟨hgood, hm, hmember, hfree, hfits⟩ .placementPin
    have hrun := here.runDesc (kind := 0) (holding := (atOrderPoint .placementPin d s).holding.number.toNat) hexec.header
    have hnd : (pinPages d).Nodup := pagesOf_nodup ..
    have hmoving : ∀ q ∈ pinPages d, dAt d 32 1 ≠ 0 →
        ((pageOf (atOrderPoint .placementPin d s) q).present && goesFar (pageOf (atOrderPoint .placementPin d s) q) != far) = true →
        q ∈ moving := fun q hq htier hleaves => by
      rw [show moving = pinMoving far (pinPages d) s from if_neg htier, ← pinMoving_atOrderPoint .placementPin d]
      exact mem_pinMoving hq hleaves
    have hresult : dAt d 32 1 ≠ 0 → pinResult far (pinMoving far (pinPages d) (atOrderPoint .placementPin d s)) = result :=
      fun htier => by
        rw [pinMoving_atOrderPoint]
        exact congrArg (pinResult far) (if_neg htier).symm
    refine ⟨fun hhint => ?_, fun hhint htier => ?_⟩
    · by_cases htier : dAt d 32 1 = 0
      · have hdone : result = .done stOk 0 := if_pos (if_pos htier)
        rw [here.applyPin_unpin htier hhint, ← hdone] at hrun
        obtain ⟨hin, hout, -, honly, hpins⟩ := pinned_spec (tier := 0) pageStep_unpin hnd (atOrderPoint .placementPin d s)
        refine yields_of_runDesc rfl hexec nofun hrun ⟨fun q hq => ?_, hout, fun _ _ hno => absurd htier hno, fun x hx => ?_, hpins.rest⟩
        · rw [htier]
          exact hin q hq
        · exact .inl ((honly x hx).resolve_right fun hno => nomatch hno.2.1)
      · rw [here.applyPin_moves htier (by omega), hresult htier] at hrun
        have hpin : (if far then 2 else 1) = dAt d 32 1 := by
          have hle := here.tier
          simp only [far, beq_iff_eq]
          split <;> omega
        have hstep := pageStep_pin far
        rw [hpin] at hstep
        obtain ⟨hin, hout, hselects, honly, hpins⟩ := pinned_spec hstep hnd (atOrderPoint .placementPin d s)
        rw [hhint] at hrun
        refine yields_of_runDesc rfl hexec nofun hrun ⟨hin, hout, fun q hq _ hpresent hgoes => ?_, fun x hx => ?_, hpins.rest⟩
        · exact hselects q hq (Bool.and_eq_true_iff.2 ⟨hpresent, bne_iff_ne.2 hgoes⟩)
        · exact (honly x hx).imp_right fun ⟨hq, hleaves, hmove⟩ => ⟨hmoving _ hq htier hleaves, hmove⟩
    · have hne : dAt d 32 1 ≠ 0 := by omega
      have hfar : far = false := by simp [far, htier]
      rw [here.applyPin_moves hne fun _ => htier, hresult hne, hhint] at hrun
      refine yields_of_runDesc rfl hexec nofun hrun ⟨fun q => ?_, fun q hq hpresent hgoes => ?_, fun x hx => ?_,
        (Pins.foldl (fun t q => pageStep_hint.pins t q) (pinPages d) _).rest⟩
      · refine (pageStep_hint.page_foldl hnd (atOrderPoint .placementPin d s) q).trans ?_
        by_cases hq : q ∈ pinPages d
        · rw [if_pos hq]
          simp only [hinted, comesNear, hq, true_and, Bool.and_eq_true, Bool.not_eq_true', mid]
        · rw [if_neg hq, if_neg fun h => hq h.1]
      · exact pageStep_hint.selects_foldl hnd _ hq (Bool.and_eq_true_iff.2 ⟨hpresent, hgoes⟩)
      · refine (pageStep_hint.only_foldl hnd _ hx).imp_right fun ⟨hq, hleaves, hmove⟩ => ⟨hmoving _ hq hne ?_, hmove⟩
        rw [hfar]
        simpa using hleaves

end Sys2Proof.Proofs
end

section
/-!
PROOFS. Records to the sink, acknowledged, and written again (16 R351, R352).
-/
namespace Sys2Proof.Proofs

open Sys2Proof Sys2Proof.Machine Sys2Proof.Safety Sys2Proof.Laws

variable {s t u : State}

/-! ### What bytes to the sink can change -/

/-- From `s` to `t` bytes may have gone to a sink: memory, counters, the fabric, the stones, the trace and what is sent have changed,
and nothing else. -/
def Sinks (s t : State) : Prop :=
  t = { s with mem := t.mem, counters := t.counters, lamio := t.lamio, stones := t.stones, sheaf := t.sheaf, out := t.out }

theorem Sinks.refl (s : State) : Sinks s s := rfl

theorem Sinks.trans (a : Sinks s t) (b : Sinks t u) : Sinks s u := by
  unfold Sinks at *
  rw [b, a]

theorem Sinks.exporter (h : Sinks s t) : t.exporter = s.exporter := by rw [h]

theorem Sinks.head (h : Sinks s t) : t.run.head = s.run.head := by rw [h]

theorem Sinks.up (h : Sinks s t) : t.clock.up = s.clock.up := by rw [h]

theorem sinks_hostWrite (addr : Nat) (bs : Bytes) (poison : Bool) (s : State) : Sinks s (hostWrite addr bs poison s) := by
  unfold hostWrite
  split <;> rfl

theorem sinks_masterWrite (addr : Nat) (bs : Bytes) (s : State) : Sinks s (masterWrite addr bs s) := by
  unfold masterWrite
  split
  · exact sinks_hostWrite ..
  · rfl

theorem sinks_writeNow (off : Nat) (bs : Bytes) (poison : Bool) (s : State) : Sinks s (writeNow off bs poison s) := by
  obtain ⟨-, -, hframe⟩ := writeNow_spec off bs poison s
  unfold Sinks
  generalize writeNow off bs poison s = v at hframe ⊢
  exact congrArg (fun x : State => { x with
    mem := v.mem, counters := v.counters, lamio := v.lamio, stones := v.stones, sheaf := v.sheaf, out := v.out }) hframe

theorem sinks_sendTransfer (x : BulkOut) (s : State) : Sinks s (sendTransfer x s) := by
  have hcarries := (Carries.refl s).sendBulk x.dest x.tag (ceilDiv x.data.length 224) x.src x.off x.data
  unfold sendTransfer
  dsimp only
  generalize sendBulk x.dest x.tag x.src x.off (ceilDiv x.data.length 224) x.data s = v at hcarries ⊢
  rw [sendHedge_eq, hcarries]
  rfl

theorem sinks_toSink (host : Bool) (addr : Nat) (bs : Bytes) (s : State) : Sinks s (toSink host addr bs s) := by
  unfold toSink
  split
  · split
    · exact sinks_hostWrite ..
    · exact sinks_masterWrite ..
  · split
    · exact .refl s
    · split
      · exact sinks_writeNow ..
      · exact (Sinks.refl s).trans (sinks_sendTransfer _ { s with lamio.nextTag := s.lamio.nextTag + 1 })

theorem sinks_toRing (b : Nat) (bs : Bytes) (s : State) : Sinks s (toRing b bs s) := by
  unfold toRing
  dsimp only
  split
  · exact sinks_toSink ..
  · exact (sinks_toSink ..).trans (sinks_toSink ..)

/-! ### A sink in host memory -/

/-- A sink in host memory, asked of the state: bytes are appended to what the host is sent. -/
theorem toSink_hostSink (h : HostSink s) (addr : Nat) (bs : Bytes) :
    toSink s.exporter.cfg.sinkHost addr bs s = { s with out.host := s.out.host ++ [(addr, bs, false)] } := by
  obtain ⟨hhost, hreach⟩ := h
  rw [hhost]
  unfold toSink masterWrite hostWrite
  rcases hreach with hlink | ⟨hvia, hmember⟩
  · simp [hlink]
  · simp [hvia, hmember]

theorem toRing_hostSink (h : HostSink s) (b : Nat) (bs : Bytes) :
    toRing b bs s = { s with out.host := s.out.host ++ ringWrites s b bs } := by
  unfold toRing ringWrites
  dsimp only
  rw [toSink_hostSink h]
  simp only [List.isEmpty_iff]
  split
  · rfl
  · have hafter : HostSink { s with out.host := s.out.host ++
        [(sinkArea s + 4096 + b % s.exporter.cfg.sinkSize, bs.take (s.exporter.cfg.sinkSize - b % s.exporter.cfg.sinkSize), false)] } := h
    refine (toSink_hostSink hafter ..).trans ?_
    dsimp only
    rw [List.append_assoc]
    rfl

/-! ### Emission -/

/-- The record last, the first without a place, takes one. -/
theorem find?_unplaced {sent : List RetainedRecord} {r : RetainedRecord} (hsent : ∀ e ∈ sent, e.at_.isSome = true) (hr : r.at_ = none) :
    (sent ++ [r]).find? (fun r => r.at_.isNone) = some r := by
  rw [List.find?_append, List.find?_eq_none.2 fun e he => by simp [Option.isSome_iff_ne_none.1 (hsent e he)]]
  simp [hr]

theorem mapFirst_last {α : Type} {p : α → Bool} {l : List α} {x : α} (f : α → α) (hl : ∀ y ∈ l, p y = false) (hx : p x = true) :
    mapFirst p f (l ++ [x]) = l ++ [f x] := by
  induction l with
  | nil => simp [mapFirst, hx]
  | cons y l ih =>
    simp only [List.mem_cons, forall_eq_or_imp] at hl
    simp [mapFirst, hl.1, ih hl.2]

/-- Emission ends where it makes no further step. -/
theorem emitAll_of_fixed (h : emitOne s = s) (n : Nat) : emitAll n s = s := by
  induction n with
  | zero => rfl
  | succ n ih => rw [emitAll, h, ih]

theorem emitOne_of_placed (h : ∀ r ∈ s.exporter.retained, r.at_.isSome = true) : emitOne s = s := by
  have hnone : s.exporter.retained.find? (fun r => r.at_.isNone) = none :=
    List.find?_eq_none.2 fun e he => by simp [Option.isSome_iff_ne_none.1 (h e he)]
  rw [emitOne, hnone]

/-- The exporter once its last record has been placed in the ring. -/
def placedLast (sent : List RetainedRecord) (r : RetainedRecord) (s : State) : Exporter :=
  { s.exporter with
    produced := s.exporter.produced + r.bytes.length
    retained := sent ++ [{ r with at_ := some s.exporter.produced, head := s.run.head, time := s.clock.up }] }

section
variable {sent : List RetainedRecord} {r : RetainedRecord}
variable (hretained : s.exporter.retained = sent ++ [r]) (hsent : ∀ e ∈ sent, e.at_.isSome = true ∧ e.seq ≠ r.seq) (hr : r.at_ = none)
include hretained hsent hr

theorem emitOne_full (hfull : s.exporter.cfg.sinkSize < unacknowledged s.exporter + r.bytes.length) : emitOne s = s := by
  rw [emitOne, hretained, find?_unplaced (fun e he => (hsent e he).1) hr]
  dsimp only
  rw [decide_eq_false (Nat.not_le.2 hfull), Bool.and_false]
  rfl

theorem emitOne_fits (hpushes : pushes s = true) (hfits : unacknowledged s.exporter + r.bytes.length ≤ s.exporter.cfg.sinkSize) :
    emitOne s = sinkControl { toRing s.exporter.produced r.bytes s with exporter := placedLast sent r s } := by
  have hring := sinks_toRing s.exporter.produced r.bytes s
  rw [emitOne, hretained, find?_unplaced (fun e he => (hsent e he).1) hr]
  dsimp only
  rw [hpushes, decide_eq_true hfits, Bool.and_true, if_pos rfl]
  have hput := mapFirst_last (p := fun x : RetainedRecord => x.seq == r.seq)
    (fun x => { x with at_ := some s.exporter.produced, head := s.run.head, time := s.clock.up })
    (fun e he => beq_false_of_ne (hsent e he).2) (beq_self_eq_true r.seq)
  rw [← hretained] at hput
  rw [hring.exporter, hring.head, hring.up, hput]
  rfl

theorem emit_full (hfull : s.exporter.cfg.sinkSize < unacknowledged s.exporter + r.bytes.length) : emit s = s :=
  emitAll_of_fixed (emitOne_full hretained hsent hr hfull) _

theorem emit_fits (hpushes : pushes s = true) (hfits : unacknowledged s.exporter + r.bytes.length ≤ s.exporter.cfg.sinkSize) :
    emit s = sinkControl { toRing s.exporter.produced r.bytes s with exporter := placedLast sent r s } := by
  have hplaced : ∀ e ∈ (placedLast sent r s).retained, e.at_.isSome = true := by
    simp only [placedLast, List.mem_append, List.mem_singleton]
    rintro e (he | rfl)
    · exact (hsent e he).1
    · rfl
  have hfixed : emitOne (sinkControl { toRing s.exporter.produced r.bytes s with exporter := placedLast sent r s }) =
      sinkControl { toRing s.exporter.produced r.bytes s with exporter := placedLast sent r s } :=
    emitOne_of_placed (by rw [sinkControl, (sinks_toSink ..).exporter]; exact hplaced)
  have hlength : s.exporter.retained.length = sent.length + 1 := by simp [hretained]
  rw [emit, hlength, emitAll, emitOne_fits hretained hsent hr hpushes hfits, emitAll_of_fixed hfixed]

/-- A record emitted: it has its place, and in the host's memory its bytes are followed by the control words. -/
theorem emit_spec (hpushes : pushes s = true) (hfits : unacknowledged s.exporter + r.bytes.length ≤ s.exporter.cfg.sinkSize) :
    (emit s).exporter = placedLast sent r s ∧
    (HostSink s → (emit s).out.host = s.out.host ++ ringWrites s s.exporter.produced r.bytes ++
        [(sinkArea s, leBytes 8 (s.exporter.produced + r.bytes.length) ++ leBytes 8 (r.seq + 1), false)] ∧
      { emit s with exporter := s.exporter, out := s.out } = s) := by
  rw [emit_fits hretained hsent hr hpushes hfits]
  refine ⟨(sinks_toSink ..).exporter, fun h => ?_⟩
  have hlast : (((placedLast sent r s).retained.filter fun r => r.at_.isSome)).getLast? =
      some { r with at_ := some s.exporter.produced, head := s.run.head, time := s.clock.up } := by
    simp [placedLast, List.filter_append]
  have hsink : HostSink { s with
      out.host := s.out.host ++ ringWrites s s.exporter.produced r.bytes, exporter := placedLast sent r s } := h
  have hcontrol : sinkControl { s with
      out.host := s.out.host ++ ringWrites s s.exporter.produced r.bytes, exporter := placedLast sent r s } = { s with
      out.host := s.out.host ++ ringWrites s s.exporter.produced r.bytes ++
        [(sinkArea s, leBytes 8 (s.exporter.produced + r.bytes.length) ++ leBytes 8 (r.seq + 1), false)]
      exporter := placedLast sent r s } := by
    unfold sinkControl
    dsimp only
    rw [hlast]
    exact toSink_hostSink hsink ..
  rw [toRing_hostSink h]
  dsimp only
  rw [hcontrol]
  exact ⟨rfl, rfl⟩

end

theorem acknowledged_ackedTo (seq : Nat) (s : State) : acknowledged seq s = { s with exporter := ackedTo seq s.exporter } := by
  unfold acknowledged ackedTo
  split <;> rfl

theorem ackedTo_cfg (seq : Nat) (x : Exporter) : (ackedTo seq x).cfg = x.cfg := by
  unfold ackedTo
  split <;> rfl

theorem exec_exportAckPoll (acked : W64) (s : State) : exec (.exportAckPoll acked) s =
    .next (if s.ready && pushes s then advance (emit (acknowledged acked.toNat s)) else s) := rfl

theorem exportAckPoll_of_pushing (acked : W64) (hready : s.ready = true) (hpushes : pushes s = true) :
    exec (.exportAckPoll acked) s = .next (advance (emit { s with exporter := ackedTo acked.toNat s.exporter })) := by
  rw [exec_exportAckPoll, hready, hpushes, acknowledged_ackedTo]
  rfl

/-! ### Records written again -/

/-- Records written to the ring, one after another. -/
theorem sinks_foldl {α : Type} {g : State → α → State} (hg : ∀ t x, Sinks t (g t x)) (l : List α) (s : State) : Sinks s (l.foldl g s) :=
  foldl_inv (p := Sinks s) (fun u x h => h.trans (hg u x)) l (.refl s)

theorem toRings_hostSink (h : HostSink s) (l : List RetainedRecord) :
    l.foldl (fun s r => toRing (r.at_.getD 0) r.bytes s) s =
      { s with out.host := s.out.host ++ l.flatMap fun r => ringWrites s (r.at_.getD 0) r.bytes } := by
  induction l generalizing s with
  | nil => rw [List.foldl_nil, List.flatMap_nil, List.append_nil]
  | cons r l ih =>
    have hafter : HostSink { s with out.host := s.out.host ++ ringWrites s (r.at_.getD 0) r.bytes } := h
    rw [List.foldl_cons, toRing_hostSink h, ih hafter, List.flatMap_cons, ← List.append_assoc]
    rfl

/-- The exporter once every record in the ring has been written again. -/
def resentAll (s : State) : Exporter :=
  { s.exporter with
    resends := s.exporter.resends + 1
    retained := s.exporter.retained.map fun e => if e.at_.isSome then { e with head := s.run.head, time := s.clock.up } else e }

/-- When the records in the ring are written again: the oldest has stood there for its time or distance. -/
def resendDue (s : State) (r : RetainedRecord) : Bool :=
  pushes s && (distanceReached s.run.head r.head s.exporter.cfg.ackDistance.toNat ||
    decide (r.time + ms s.exporter.cfg.ackTime ≤ s.clock.up))

theorem resendDue_iff (r : RetainedRecord) : resendDue s r = true ↔ pushes s = true ∧
    (distanceReached s.run.head r.head s.exporter.cfg.ackDistance.toNat = true ∨ r.time + ms s.exporter.cfg.ackTime ≤ s.clock.up) := by
  simp [resendDue]

theorem resend_of_not_due (h : ∀ r more, (s.exporter.retained.filter fun r => r.at_.isSome) = r :: more → resendDue s r = false) :
    resend s = s := by
  unfold resend
  dsimp only
  cases hsent : s.exporter.retained.filter fun r => r.at_.isSome with
  | nil => rfl
  | cons r more =>
    have hno := h r more hsent
    unfold resendDue at hno
    dsimp only
    rw [hno]
    rfl

theorem resend_of_due {r : RetainedRecord} {more : List RetainedRecord}
    (hsent : (s.exporter.retained.filter fun r => r.at_.isSome) = r :: more) (hdue : resendDue s r = true) :
    resend s = { count 0x2EE 1 ((r :: more).foldl (fun s r => toRing (r.at_.getD 0) r.bytes s) s) with exporter := resentAll s } := by
  have hsinks := sinks_foldl (fun t (x : RetainedRecord) => sinks_toRing (x.at_.getD 0) x.bytes t) (r :: more) s
  unfold resendDue at hdue
  unfold resend
  dsimp only
  rw [hsent]
  dsimp only
  rw [if_pos hdue]
  generalize (r :: more).foldl (fun s r => toRing (r.at_.getD 0) r.bytes s) s = v at hsinks ⊢
  unfold resentAll
  rw [← hsinks.exporter, ← hsinks.head, ← hsinks.up]
  rfl

theorem exec_exportResend (s : State) : exec .exportResend s = .next (if s.ready then resend s else s) := rfl

end Sys2Proof.Proofs
end

section
/-!
PROOFS. The budget of evaluation (16 R356), and the restoration of a shard: need, reinstatement and rebuilding (15 R331 to R334).
-/
namespace Sys2Proof.Proofs

open Sys2Proof Sys2Proof.Machine Sys2Proof.Safety Sys2Proof.Laws

variable {s t u : State} {m : ModId}

/-! ### Runs discarded -/

/-- What is left of one run when those that satisfy `p` are discarded. -/
def discardOne (p : TaskInst → Bool) (phase : Phase) (t : TaskInst) : TaskInst :=
  if p t && t.phase != .discarded then
    if t.phase == .abandoned then { t with counts := [], recounts := [] }
    else { t with phase := phase, cells := [], contributions := [], status := stDiscarded, counts := [], recounts := [] }
  else t

theorem discardOne_of_not {p : TaskInst → Bool} {x : TaskInst} (h : p x = false) (phase : Phase) : discardOne p phase x = x := by
  simp [discardOne, h]

theorem discardOne_of_incomplete {p : TaskInst → Bool} {x : TaskInst} (h : p x = true) (hopen : x.incomplete = true) (phase : Phase) :
    discardOne p phase x =
      { x with phase := phase, cells := [], contributions := [], status := stDiscarded, counts := [], recounts := [] } := by
  have hphase : x.phase ≠ .discarded ∧ x.phase ≠ .abandoned := by
    constructor <;> intro hno <;> rw [TaskInst.incomplete, hno] at hopen <;> exact absurd hopen (by decide)
  simp [discardOne, h, hphase]

/-- From `s` to `t` counts and the trace have changed, and nothing else. -/
def Counts (s t : State) : Prop := t = { s with counters := t.counters, sheaf := t.sheaf }

theorem Counts.trans (a : Counts s t) (b : Counts t u) : Counts s u := by
  unfold Counts at *
  rw [b, a]

theorem counts_foldl {α : Type} {g : State → α → State} (hg : ∀ t x, Counts t (g t x)) (l : List α) (s : State) : Counts s (l.foldl g s) :=
  foldl_inv (p := Counts s) (fun u x h => h.trans (hg u x)) l rfl

theorem counts_countDiscarded (x : TaskInst) (s : State) : Counts s (countDiscarded x s) := by
  have hcounts : Counts s ((x.counts ++ x.recounts).foldl (fun s c => countAs c.1 2 c.2 s) s) :=
    counts_foldl (g := fun s (c : Nat × Nat) => countAs c.1 2 c.2 s) (fun _ _ => rfl) _ s
  unfold countDiscarded
  dsimp only
  split
  · exact hcounts.trans rfl
  · exact hcounts

theorem counts_traceTask (type : Nat) (x : TaskInst) (s : State) : Counts s (traceTask type x s) := by
  unfold traceTask Counts
  rw [trace_eq]

/-- Runs discarded: what is left of each, their fresh frames, counts and the trace. -/
theorem discardRuns_eq (p : TaskInst → Bool) (phase : Phase) (s : State) : discardRuns p phase s = { s with
    sched.tasks := s.sched.tasks.map (discardOne p phase), mem.fresh := (freeFresh p s).mem.fresh
    counters := (discardRuns p phase s).counters, sheaf := (discardRuns p phase s).sheaf } := by
  have hcounts : Counts (freeFresh p s) ((s.sched.tasks.filter fun t => p t && t.phase != .discarded).foldl (fun s t =>
      let s := countDiscarded t s
      if t.phase == .abandoned then s else traceTask (if phase = .abandoned then 6 else 5) t s) (freeFresh p s)) := by
    refine counts_foldl (fun u x => ?_) _ _
    dsimp only
    split
    · exact counts_countDiscarded x u
    · exact (counts_countDiscarded x u).trans (counts_traceTask ..)
  unfold discardRuns
  dsimp only at hcounts ⊢
  generalize (s.sched.tasks.filter fun t => p t && t.phase != .discarded).foldl _ (freeFresh p s) = v at hcounts ⊢
  rw [hcounts]
  rfl

/-! ### The budget of evaluation -/

/-- A run of stream E that the budget of step `n` cuts. -/
def evalLate (n : Nat) (t : TaskInst) : Bool := t.stream == streamE && t.step == n && t.incomplete

theorem evalLate_incomplete {n : Nat} {x : TaskInst} (h : evalLate n x = true) : x.incomplete = true :=
  (Bool.and_eq_true_iff.1 h).2

/-- Where some run is late, the late ones are abandoned and the evaluation is marked so. -/
theorem abandonEval_of_late (h : s.sched.tasks.any (evalLate (stepOf s.run.head)) = true) : abandonEval s =
    let n := stepOf s.run.head
    let v := discardRuns (evalLate n) .abandoned s
    { v with
      coll.live := v.coll.live.filter fun c =>
        !(c.step == n && (s.sched.tasks.filter (evalLate n)).any fun t => t.task == c.task)
      exporter.evalAbandoned := true } := by
  have hsome : (s.sched.tasks.filter (evalLate (stepOf s.run.head))).isEmpty = false := by
    obtain ⟨x, hx, hlate⟩ := List.any_eq_true.1 h
    exact List.isEmpty_eq_false_iff.2 (List.ne_nil_of_mem (List.mem_filter.2 ⟨hx, hlate⟩))
  exact if_neg (Bool.eq_false_iff.1 hsome)

theorem abandonEval_of_none (h : s.sched.tasks.any (evalLate (stepOf s.run.head)) = false) : abandonEval s = s := by
  have hnone : (s.sched.tasks.filter (evalLate (stepOf s.run.head))).isEmpty = true :=
    List.isEmpty_iff.2 (List.filter_eq_nil_iff.2 fun x hx => List.any_eq_false.1 h x hx)
  exact if_pos hnone

/-- What the budget leaves when it has run out. -/
theorem abandonEval_spec (h : s.sched.tasks.any (evalLate (stepOf s.run.head)) = true) :
    (abandonEval s).exporter.evalAbandoned = true ∧
    (abandonEval s).sched.tasks = s.sched.tasks.map (discardOne (evalLate (stepOf s.run.head)) .abandoned) ∧
    (abandonEval s).mem.base = s.mem.base ∧ (abandonEval s).mem.layers = s.mem.layers ∧ (abandonEval s).votes = s.votes := by
  rw [abandonEval_of_late h]
  dsimp only
  rw [discardRuns_eq]
  exact ⟨rfl, rfl, rfl, rfl, rfl⟩

theorem exec_evalBudgetExpiry (s : State) : exec .evalBudgetExpiry s =
    .next (if budgetExpired s then advance (abandonEval s) else s) := rfl

/-! ### A module that needs restoration (15 R331) -/

theorem exec_shardRestoration (x : RestoreStage) (s : State) : exec (.shardRestoration x) s = .next (advance (restoreStage x s)) := rfl

theorem mem_foldl_addNew {α : Type} [DecidableEq α] {a : α} (l : List α) (k : List α) : a ∈ l.foldl addNew k ↔ a ∈ k ∨ a ∈ l := by
  induction l generalizing k with
  | nil => simp
  | cons x l ih => simp [ih, mem_addNew, or_assoc]

/-- The module needs restoration and is not yet known to. -/
structure Needs (m : ModId) (s : State) : Prop where
  on : s.run.isOn = true
  fresh : m ∉ s.holding.restoring
  home : holdsHome s m = true

/-- The need noted. -/
def needing (m : ModId) (s : State) : State := { s with holding.restoring := s.holding.restoring ++ [m] }

theorem needRestoration_of_not (h : ¬ Needs m s) : needRestoration m s = s := by
  refine if_pos ?_
  by_contra hno
  simp only [Bool.or_eq_true, Bool.not_eq_true', not_or, Bool.not_eq_false, List.contains_eq_mem, decide_eq_true_eq] at hno
  obtain ⟨⟨hon, hfresh⟩, hhome⟩ := hno
  exact h ⟨hon, hfresh, hhome⟩

theorem needRestoration_of_needs (h : Needs m s) : needRestoration m s =
    match resumeStep s with
    | 0 => { needing m s with holding.restore := 5 }
    | k + 1 =>
      match (if s.exporter.cfg.enable then restoreTargetOf (needing m s) (s.holding.restoring ++ [m]) k else none) with
      | none => { needing m s with holding.restore := 5 }
      | some t =>
        let t := if s.holding.restore = 1 ∨ s.holding.restore = 2 then min t s.holding.restoreTarget else t
        { needing m s with
          holding.restore := if s.holding.restore = 2 then 2 else 1
          holding.restoreTarget := t
          holding.restoreUpTo := k
          holding.restoreHost := decide (t < k)
          holding.restoring := if t < k then (runModules s).foldl addNew (s.holding.restoring ++ [m])
            else s.holding.restoring ++ [m] } :=
  if_neg (by simp [h.on, h.fresh, h.home])

theorem needing_told (h : Needs m s) : m ∈ (needRestoration m s).holding.restoring := by
  have hm : m ∈ s.holding.restoring ++ [m] := List.mem_append_right _ List.mem_cons_self
  have hall : ∀ (low : Prop) [Decidable low],
      m ∈ if low then (runModules s).foldl addNew (s.holding.restoring ++ [m]) else s.holding.restoring ++ [m] := fun low _ => by
    split
    · exact (mem_foldl_addNew _ _).2 (.inl hm)
    · exact hm
  rw [needRestoration_of_needs h]
  split
  · exact hm
  · split
    · exact hm
    · exact hall _

theorem needRestoration_rest (m : ModId) (s : State) : { needRestoration m s with
    holding.restore := s.holding.restore, holding.restoring := s.holding.restoring
    holding.restoreTarget := s.holding.restoreTarget, holding.restoreUpTo := s.holding.restoreUpTo
    holding.restoreHost := s.holding.restoreHost } = s := by
  unfold needRestoration
  dsimp only
  split
  · rfl
  · split
    · rfl
    · split <;> rfl

theorem needRestoration_fails (h : Needs m s) (hsink : resumeStep s = 0 ∨ s.exporter.cfg.enable = false) :
    (needRestoration m s).holding.restore = 5 := by
  rw [needRestoration_of_needs h]
  split
  · rfl
  next hk =>
    rw [if_neg (by rw [hsink.resolve_left (by simp [hk])]; exact Bool.false_ne_true)]

theorem needRestoration_unvouched (h : Needs m s) {k : Nat} (hk : resumeStep s = k + 1)
    (hnone : restoreTargetOf (needing m s) (s.holding.restoring ++ [m]) k = none) : (needRestoration m s).holding.restore = 5 := by
  rw [needRestoration_of_needs h, hk]
  dsimp only
  rw [hnone, ite_self]

theorem needRestoration_to (h : Needs m s) {k t : Nat} (hk : resumeStep s = k + 1) (hsink : s.exporter.cfg.enable = true)
    (ht : restoreTargetOf (needing m s) (s.holding.restoring ++ [m]) k = some t) (h1 : s.holding.restore ≠ 1)
    (h2 : s.holding.restore ≠ 2) : needRestoration m s = { needing m s with
      holding.restore := 1
      holding.restoreTarget := t
      holding.restoreUpTo := k
      holding.restoreHost := decide (t < k)
      holding.restoring := if t < k then (runModules s).foldl addNew (s.holding.restoring ++ [m]) else s.holding.restoring ++ [m] } := by
  have hunder : ¬ (s.holding.restore = 1 ∨ s.holding.restore = 2) := by simp [h1, h2]
  rw [needRestoration_of_needs h, hk]
  dsimp only
  rw [if_pos hsink, ht]
  dsimp only
  rw [if_neg hunder, if_neg h2]

/-! ### A module takes the run and the segments again (15 R333) -/

/-- From `s` to `t` segments and tensors have been installed: the graph, the harrows' blocks, the measurements, the exporter's images
and memory have changed, and nothing else. -/
def Reinstalls (s t : State) : Prop :=
  t = { s with graph := t.graph, harrows := t.harrows, security := t.security, exporter := t.exporter, mem := t.mem }

theorem Reinstalls.refl (s : State) : Reinstalls s s := rfl

theorem Reinstalls.trans (a : Reinstalls s t) (b : Reinstalls t u) : Reinstalls s u := by
  unfold Reinstalls at *
  rw [b, a]

theorem Pins.reinstalls (h : Pins s t) : Reinstalls s t := by
  unfold Reinstalls
  rw [h]

theorem reinstalls_installCopy {c : SegmentCopy} (h : installCopy c s = some t) : Reinstalls s t := by
  unfold installCopy at h
  split at h
  · exact nomatch h
  · obtain rfl := Option.some.inj h
    refine Reinstalls.trans (t := acceptPins _ _) (Reinstalls.trans ?_ (pins_acceptPins ..).reinstalls) rfl
    rfl

theorem reinstalls_installCopies {cs : List SegmentCopy} (h : installCopies cs s = some t) : Reinstalls s t := by
  induction cs generalizing s with
  | nil => exact Option.some.inj h ▸ .refl s
  | cons c cs ih =>
    obtain ⟨v, hv, ht⟩ := Option.bind_eq_some_iff.1 h
    exact (reinstalls_installCopy hv).trans (ih ht)

theorem reinstalls_defineTensor (i group : Nat) (x : TensorRec) (s : State) : Reinstalls s (defineTensor i group x s) :=
  Reinstalls.trans (t := tensorEntered i group x s) rfl (defineTensor_enters i group x s).reinstalls

theorem reinstalls_foldl {α : Type} {g : State → α → State} (hg : ∀ t x, Reinstalls t (g t x)) (l : List α) (s : State) :
    Reinstalls s (l.foldl g s) :=
  foldl_inv (p := Reinstalls s) (fun u x h => h.trans (hg u x)) l (.refl s)

/-- The registers locked, the restoration under way stays. -/
theorem lockRegisters_holding (s : State) :
    (lockRegisters s).holding.setupLock = true ∧ (lockRegisters s).holding.restore = s.holding.restore := by
  have hsends : ∀ (l : List Nat) (v : State), (l.foldl (fun t o =>
      sendHedge everyone (.setupWrite o 8 (BitVec.ofNat 64 (heldWord t o))) t) v).holding = v.holding := fun l v =>
    foldl_inv (p := fun t : State => t.holding = v.holding) (fun t o h => by rw [sendHedge_eq]; exact h) l rfl
  unfold lockRegisters
  split
  · exact ⟨rfl, rfl⟩
  · split
    · exact ⟨rfl, rfl⟩
    · refine ⟨rfl, ?_⟩
      dsimp only [lockSetup]
      split
      · rw [hsends]
        rfl
      · rfl

/-- The module that is reinstated, known as such. -/
def reinstating (s : State) : State :=
  { s with holding.restore := 2, holding.restoring := addNew s.holding.restoring s.holding.moduleId }

theorem reinstateSelf_off {r : RunCopy} (hoff : s.run.isOn = false) : reinstateSelf (some r) s =
    match installCopies r.segments (reinstating s) with
    | none => { s with holding.restore := 5 }
    | some v => joinRun r (r.tensors.foldl (fun s (t : Nat × Nat × Bytes) =>
        defineTensor t.1 t.2.1 (placeTensor s t.2.1 (parseTensor (padTo 64 t.2.2))) s) v) :=
  if_neg (by rw [hoff]; exact Bool.false_ne_true)

/-- A module that had lost the run takes it, and its segments, from a survivor. -/
theorem reinstateSelf_takes {r : RunCopy} (hoff : s.run.isOn = false) {v : State} (hv : installCopies r.segments (reinstating s) = some v) :
    let u := reinstateSelf (some r) s
    u.run.isOn = true ∧ u.run.halt = .smear ∧ u.run.head = posOf (r.target + 1) passF 0 ∧ u.run.leadModule = r.lead ∧
      u.run.seed = r.seed ∧ u.run.modes = r.modes ∧ u.holding.setupLock = true ∧ u.holding.restore = 2 ∧
      u.holding.restoreTarget = r.target ∧ s.clock.now ≤ u.clock.now := by
  have hself : reinstateSelf (some r) s = joinRun r (r.tensors.foldl (fun s (t : Nat × Nat × Bytes) =>
      defineTensor t.1 t.2.1 (placeTensor s t.2.1 (parseTensor (padTo 64 t.2.2))) s) v) := by
    rw [reinstateSelf_off hoff, hv]
  have hinstalls : Reinstalls (reinstating s) (r.tensors.foldl (fun s (t : Nat × Nat × Bytes) =>
      defineTensor t.1 t.2.1 (placeTensor s t.2.1 (parseTensor (padTo 64 t.2.2))) s) v) :=
    (reinstalls_installCopies hv).trans (reinstalls_foldl (fun _ _ => reinstalls_defineTensor ..) _ _)
  rw [hself]
  generalize r.tensors.foldl _ v = w at hinstalls
  have hlock := lockRegisters_holding w
  have hrestore : w.holding.restore = 2 := by rw [hinstalls]; rfl
  have hnow : w.clock.now = s.clock.now := by rw [hinstalls]; rfl
  refine ⟨rfl, rfl, rfl, rfl, rfl, rfl, hlock.1, hlock.2.trans hrestore, rfl, ?_⟩
  rw [← hnow]
  exact Nat.le_max_left ..

/-! ### A survivor's part in a reinstatement -/

/-- From `s` to `t` hedge messages have been sent, and nothing but the trace and what is sent has changed. -/
structure Mails (s t : State) : Prop where
  frame : t = { s with sheaf := t.sheaf, out := t.out }
  sent : s.out.hedge ⊆ t.out.hedge

theorem Mails.refl (s : State) : Mails s s := ⟨rfl, List.Subset.refl _⟩

theorem Mails.trans (a : Mails s t) (b : Mails t u) : Mails s u :=
  ⟨by rw [b.frame, a.frame], List.Subset.trans a.sent b.sent⟩

theorem mails_sendHedge (dest : ModId) (x : Hedge) (s : State) : Mails s (sendHedge dest x s) :=
  ⟨by rw [sendHedge_eq], sent_sendHedge ..⟩

theorem mails_foldl {α : Type} {g : State → α → State} (hg : ∀ t x, Mails t (g t x)) (l : List α) (s : State) : Mails s (l.foldl g s) :=
  foldl_inv (p := Mails s) (fun u x h => h.trans (hg u x)) l (.refl s)

/-- What one of several senders sends stands sent at their end. -/
theorem sent_of_mails_foldl {α : Type} {g : State → α → State} (hg : ∀ t x, Mails t (g t x)) {e : ModId × Hedge} {x : α} {l : List α}
    (hx : x ∈ l) (hsends : ∀ t, Mails s t → e ∈ (g t x).out.hedge) : e ∈ (l.foldl g s).out.hedge := by
  obtain ⟨before, after, rfl⟩ := List.append_of_mem hx
  rw [List.foldl_append, List.foldl_cons]
  exact (mails_foldl hg after _).sent (hsends _ (mails_foldl hg before s))

theorem mails_sendDefinition (b : Bytes) (epoch : Nat) (m : ModId) (s : State) : Mails s (sendDefinition b epoch m s) :=
  mails_foldl (fun _ _ => mails_sendHedge ..) _ s

theorem sendDefinition_sent (b : Bytes) (epoch : Nat) (m : ModId) (s : State) {p : Nat} (hp : p < 3) :
    (m, Hedge.groupDefinition p epoch (slice b (16 * p) 16)) ∈ (sendDefinition b epoch m s).out.hedge :=
  sent_of_mails_foldl (g := fun s p => sendHedge m (.groupDefinition p epoch (slice b (16 * p) 16)) s) (fun _ _ => mails_sendHedge ..)
    (List.mem_range.2 hp) fun _ _ => mem_sendHedge ..

/-- The setup words and the lock that the master sends a module reinstated. -/
def setupSent (m : ModId) (s : State) : State :=
  if s.holding.isMaster && inHolding s.holding m then
    sendHedge m (.setupWrite 0x18 8 1)
      (holdingWords.foldl (fun s o => sendHedge m (.setupWrite o 8 (BitVec.ofNat 64 (heldWord s o))) s) s)
  else s

theorem mails_setupSent (m : ModId) (s : State) : Mails s (setupSent m s) := by
  unfold setupSent
  split
  · exact (mails_foldl (fun _ _ => mails_sendHedge ..) _ s).trans (mails_sendHedge ..)
  · exact .refl s

/-- The definition in force of a group, sent where this module leads it and the definition names the one reinstated. -/
def groupSent (m : ModId) (s : State) (e : Nat × Option Group) : State :=
  match e.2 with
  | some x =>
    if (excludedIds x.def48 ++ definedMembers s x.def48).contains m &&
        (definedMembers s x.def48).head? == some s.holding.moduleId then sendDefinition x.def48 x.epoch m s
    else s
  | none => s

theorem mails_groupSent (m : ModId) (s : State) (e : Nat × Option Group) : Mails s (groupSent m s e) := by
  unfold groupSent
  split
  · split
    · exact mails_sendDefinition ..
    · exact .refl s
  · exact .refl s

theorem groupSent_sent {e : Nat × Option Group} {g : Group} (he : e.2 = some g)
    (hnamed : m ∈ excludedIds g.def48 ++ definedMembers s g.def48)
    (hlead : (definedMembers s g.def48).head? = some s.holding.moduleId) {p : Nat} (hp : p < 3) :
    (m, Hedge.groupDefinition p g.epoch (slice g.def48 (16 * p) 16)) ∈ (groupSent m s e).out.hedge := by
  have hyes : ((excludedIds g.def48 ++ definedMembers s g.def48).contains m &&
      (definedMembers s g.def48).head? == some s.holding.moduleId) = true := by
    rw [List.contains_iff_mem.2 hnamed, hlead, beq_self_eq_true]
    rfl
  rw [groupSent, he]
  dsimp only
  rw [if_pos hyes]
  exact sendDefinition_sent g.def48 g.epoch m s hp

theorem reinstateOther_eq (m : ModId) (s : State) : reinstateOther m s =
    s.coll.groups.foldl (groupSent m) (setupSent m { s with holding.restore := 2 }) := by
  have hgroups : (setupSent m { s with holding.restore := 2 }).coll.groups = s.coll.groups := by
    rw [(mails_setupSent m { s with holding.restore := 2 }).frame]
  rw [← hgroups]
  rfl

theorem mails_reinstateOther (m : ModId) (s : State) : Mails { s with holding.restore := 2 } (reinstateOther m s) := by
  rw [reinstateOther_eq]
  exact (mails_setupSent ..).trans (mails_foldl (mails_groupSent m) _ _)

theorem reinstateOther_setup (hmaster : s.holding.isMaster = true) (hin : inHolding s.holding m = true) :
    (m, Hedge.setupWrite 0x18 8 1) ∈ (reinstateOther m s).out.hedge := by
  rw [reinstateOther_eq]
  refine (mails_foldl (mails_groupSent m) _ _).sent ?_
  rw [setupSent, if_pos (by rw [Bool.and_eq_true_iff]; exact ⟨hmaster, hin⟩)]
  exact mem_sendHedge ..

theorem reinstateOther_group {e : Nat × Option Group} (hin : e ∈ s.coll.groups) {g : Group} (he : e.2 = some g)
    (hnamed : m ∈ excludedIds g.def48 ++ definedMembers s g.def48)
    (hlead : (definedMembers s g.def48).head? = some s.holding.moduleId) {p : Nat} (hp : p < 3) :
    (m, Hedge.groupDefinition p g.epoch (slice g.def48 (16 * p) 16)) ∈ (reinstateOther m s).out.hedge := by
  rw [reinstateOther_eq]
  refine sent_of_mails_foldl (mails_groupSent m) hin fun t ht => ?_
  have hframe := ((mails_setupSent m { s with holding.restore := 2 }).trans ht).frame
  exact groupSent_sent he (by rw [hframe]; exact hnamed) (by rw [hframe]; exact hlead) hp

/-! ### Groups that take a module in again (15 R332) -/

/-- From `s` to `t` groups have been re-formed: collectives, task runs' sequence numbers, what the host is told, the trace and what is
sent have changed, and nothing else. -/
structure Regroups (s t : State) : Prop where
  frame : t = { s with coll := t.coll, sched := t.sched, host := t.host, sheaf := t.sheaf, out := t.out }
  sent : s.out.hedge ⊆ t.out.hedge

theorem Regroups.refl (s : State) : Regroups s s := ⟨rfl, List.Subset.refl _⟩

theorem Regroups.trans (a : Regroups s t) (b : Regroups t u) : Regroups s u :=
  ⟨by rw [b.frame, a.frame], List.Subset.trans a.sent b.sent⟩

theorem regroups_foldl {α : Type} {g : State → α → State} (hg : ∀ t x, Regroups t (g t x)) (l : List α) (s : State) :
    Regroups s (l.foldl g s) :=
  foldl_inv (p := Regroups s) (fun u x h => h.trans (hg u x)) l (.refl s)

theorem Regroups.ite {c : Prop} [Decidable c] (a : Regroups s t) (b : Regroups s u) : Regroups s (if c then t else u) := by
  split
  · exact a
  · exact b

theorem Mails.regroups (h : Mails s t) : Regroups s t := ⟨by rw [h.frame], h.sent⟩

theorem regroups_renumber (g : Nat) (s : State) : Regroups s (renumber g s) := by
  refine regroups_foldl (fun u n => ?_) _ s
  dsimp only
  rw [giveSeqs_eq]
  exact ⟨rfl, List.Subset.refl _⟩

theorem regroups_installGroup (b : Bytes) (epoch : Nat) (s : State) : Regroups s (installGroup b epoch s) := by
  unfold installGroup
  refine Regroups.trans ?_ (regroups_renumber ..)
  exact ⟨rfl, List.Subset.refl _⟩

theorem regroups_spreadGroup (b : Bytes) (epoch : Nat) (s : State) : Regroups s (spreadGroup b epoch s).1 :=
  (regroups_installGroup b epoch s).trans (regroups_foldl (fun _ _ => (mails_sendDefinition ..).regroups) _ _)

theorem regroups_raise (code detail : Nat) (s : State) : Regroups s (raise code detail s) := by
  have hnoted : raise code detail s = _ := noted_raise code detail s
  exact ⟨by rw [hnoted], sent_raise ..⟩

theorem regroups_reformOne (excluded : Bool) (m : ModId) (g : Nat) (s : State) : Regroups s (reformOne excluded m g s) := by
  unfold reformOne
  cases groupOf s g with
  | none => exact .refl s
  | some x =>
    refine Regroups.ite ?_ (.refl s)
    cases withExcluded x.def48 m excluded with
    | none => exact .refl s
    | some b => exact (regroups_spreadGroup ..).trans (regroups_raise ..)

theorem regroups_readmit (m : ModId) (s : State) : Regroups s (readmit m s) := by
  unfold readmit
  split
  · exact .refl s
  · exact regroups_foldl (fun _ _ => regroups_reformOne ..) _ s

/-- A module restored: what is known of the lost and of those in restoration, and the groups. -/
theorem takeRestored_frame (m : ModId) (s : State) : ∃ v, Regroups v (takeRestored m s) ∧ v = { s with holding := v.holding } ∧
    v.holding.lost = s.holding.lost.filter (· != m) ∧ v.holding.restoring = s.holding.restoring.filter (· != m) ∧
    v.holding.isolated = s.holding.isolated := by
  unfold takeRestored
  dsimp only
  split
  · exact ⟨_, regroups_foldl (fun _ _ => regroups_readmit ..) _ _, rfl, rfl, rfl, rfl⟩
  · exact ⟨_, .refl _, rfl, rfl, rfl, rfl⟩

/-! ### Rebuilding (15 R332) -/

/-- The module before it says that it is restored at step T. -/
def standingAt (t : Nat) (previous recorded : BitVec 256) (nextSeq produced : Nat) (s : State) : State :=
  let p := posOf (t + 1) passF 0
  let kept := s.exporter.retained.filter fun r => decide (r.seq < nextSeq)
  rearmStones p { s with
    holding.isolated := false
    mem.damaged := []
    run.head := p
    run.headAt := s.clock.up
    run.halt := .smear
    run.lastCommit := some t
    run.knownCommit := some t
    run.finished := some t
    run.created := some t
    votes.openStep := none
    exporter := { s.exporter with
      chain := recorded, prevChain := previous, chainStep := some t, images := imagesOf s, nextSeq := nextSeq,
      produced := produced, retained := kept, acked := max s.exporter.acked (nextSeq - 1),
      first := s.exporter.first && nextSeq == 1 } }

theorem standingAt_holding (t : Nat) (previous recorded : BitVec 256) (nextSeq produced : Nat) (s : State) :
    (standingAt t previous recorded nextSeq produced s).holding = { s.holding with isolated := false } := rfl

theorem restoredAt_eq (t : Nat) (previous recorded : BitVec 256) (nextSeq produced : Nat) (s : State) :
    restoredAt t previous recorded nextSeq produced s = takeRestored s.holding.moduleId
      (sendHedge everyone (.agreement agreeRestore (BitVec.ofNat 64 t) (posOf (t + 1) passF 0))
        (standingAt t previous recorded nextSeq produced s)) := by
  have hid : (sendHedge everyone (.agreement agreeRestore (BitVec.ofNat 64 t) (posOf (t + 1) passF 0))
      (standingAt t previous recorded nextSeq produced s)).holding.moduleId = s.holding.moduleId := by
    rw [sendHedge_eq]
    dsimp only
    rw [standingAt_holding]
  exact congrArg (fun m => takeRestored m (sendHedge everyone (.agreement agreeRestore (BitVec.ofNat 64 t) (posOf (t + 1) passF 0))
    (standingAt t previous recorded nextSeq produced s))) hid

/-- The module stands restored at step T, halted before the next. -/
structure RestoredAt (t : Nat) (recorded : BitVec 256) (me : ModId) (u : State) : Prop where
  head : u.run.head = posOf (t + 1) passF 0
  halt : u.run.halt = .smear
  commit : u.run.lastCommit = some t
  whole : u.mem.damaged = []
  chain : u.exporter.chain = recorded
  vote : u.votes.openStep = none
  connected : u.holding.isolated = false
  found : me ∉ u.holding.lost
  restored : me ∉ u.holding.restoring
  told : (everyone, Hedge.agreement agreeRestore (BitVec.ofNat 64 t) (posOf (t + 1) passF 0)) ∈ u.out.hedge

theorem restoredAt_spec (t : Nat) (previous recorded : BitVec 256) (nextSeq produced : Nat) (s : State) :
    let u := restoredAt t previous recorded nextSeq produced s
    RestoredAt t recorded s.holding.moduleId u ∧ u.exporter.nextSeq = nextSeq ∧ u.exporter.produced = produced ∧
      u.mem.base = s.mem.base := by
  rw [restoredAt_eq]
  have hmail := mails_sendHedge everyone (.agreement agreeRestore (BitVec.ofNat 64 t) (posOf (t + 1) passF 0))
    (standingAt t previous recorded nextSeq produced s)
  have htold := mem_sendHedge everyone (.agreement agreeRestore (BitVec.ofNat 64 t) (posOf (t + 1) passF 0))
    (standingAt t previous recorded nextSeq produced s)
  generalize sendHedge everyone (.agreement agreeRestore (BitVec.ofNat 64 t) (posOf (t + 1) passF 0))
    (standingAt t previous recorded nextSeq produced s) = x at hmail htold
  obtain ⟨v, hgroups, hframe, hlost, hrestoring, hisolated⟩ := takeRestored_frame s.holding.moduleId x
  generalize takeRestored s.holding.moduleId x = w at hgroups ⊢
  have hx := hmail.frame
  have hw : w = { x with
      holding := v.holding, coll := w.coll, sched := w.sched, host := w.host, sheaf := w.sheaf, out := w.out } := by
    rw [hgroups.frame, hframe]
  have hsent : x.out.hedge ⊆ w.out.hedge := by
    have h := hgroups.sent
    rw [hframe] at h
    exact h
  have hholding : w.holding = v.holding := by rw [hw]
  have hrun : w.run = (standingAt t previous recorded nextSeq produced s).run := by rw [hw, hx]
  have hexporter : w.exporter = (standingAt t previous recorded nextSeq produced s).exporter := by rw [hw, hx]
  have hmem : w.mem = (standingAt t previous recorded nextSeq produced s).mem := by rw [hw, hx]
  have hvotes : w.votes = (standingAt t previous recorded nextSeq produced s).votes := by rw [hw, hx]
  have hxholding : x.holding = { s.holding with isolated := false } := by rw [hx, ← standingAt_holding t previous recorded nextSeq produced]
  refine ⟨⟨by rw [hrun]; rfl, by rw [hrun]; rfl, by rw [hrun]; rfl, by rw [hmem]; rfl, by rw [hexporter]; rfl, by rw [hvotes]; rfl,
    ?_, ?_, ?_, hsent htold⟩, by rw [hexporter]; rfl, by rw [hexporter]; rfl, by rw [hmem]; rfl⟩
  · rw [hholding, hisolated, hxholding]
  · rw [hholding, hlost]
    simp
  · rw [hholding, hrestoring]
    simp

theorem placeQueues_eq (l : List (Nat × Bytes)) (s : State) :
    l.foldl (fun s q => setFallow (queueOf q.1 (delayOf s q.1) q.2) s) s =
      { s with fallow := (l.foldl (fun s q => setFallow (queueOf q.1 (delayOf s q.1) q.2) s) s).fallow } :=
  foldl_inv (p := fun t : State => t = { s with fallow := t.fallow }) (g := fun s (q : Nat × Bytes) =>
    setFallow (queueOf q.1 (delayOf s q.1) q.2) s) (fun t q h => by rw [h]; rfl) l rfl

/-- The page of a rebuilt shard that is put in place holds its bytes. -/
theorem placeShard_page {x : ShardImage} {page : Nat} {bs : Bytes} (hx : x.pages = [(page, bs)]) (s : State) {i : Nat}
    (hi : i < pageBytes) : tget 0 (placeShard x s).mem.base (page * pageBytes + i) = bs.getD i 0 := by
  have hlength : i < (padTo pageBytes (bs.take pageBytes)).length := by rwa [padTo_length]
  have hbyte : (padTo pageBytes (bs.take pageBytes))[i] = bs.getD i 0 := by
    rw [← List.getD_eq_getElem _ 0 hlength, padTo_getD hi, List.getD_eq_getElem?_getD, List.getElem?_take_of_lt hi,
      List.getD_eq_getElem?_getD]
  unfold placeShard
  dsimp only
  rw [placeQueues_eq, hx, List.foldl_cons, List.foldl_nil]
  exact (tget_tsetBytes_same ..).trans hbyte

/-- A rebuilt shard is due: the run is halted, this module is in restoration, and T is its target. -/
def rebuildDue (t : Nat) (s : State) : Bool :=
  s.run.isOn && s.holding.restoring.contains s.holding.moduleId && (s.holding.restore == 1 || s.holding.restore == 2) &&
    t == s.holding.restoreTarget && s.run.halt != .running

theorem rebuildDue_iff (t : Nat) (s : State) : rebuildDue t s = true ↔ s.run.isOn = true ∧
    s.holding.moduleId ∈ s.holding.restoring ∧ (s.holding.restore = 1 ∨ s.holding.restore = 2) ∧ t = s.holding.restoreTarget ∧
      s.run.halt ≠ .running := by
  simp [rebuildDue, and_assoc]

theorem rebuildShard_eq (t : Nat) (shard prior : ShardImage) (previous recorded : BitVec 256) (nextSeq produced : Nat)
    (logs : List (Nat × Bytes)) (s : State) : rebuildShard t shard prior previous recorded nextSeq produced logs s =
      if !rebuildDue t s then s
      else if survived t recorded s then
        restoredAt t s.exporter.prevChain recorded s.exporter.nextSeq s.exporter.produced
          { s with mem := dropLayers (beyond (t + 1)) s.mem }
      else if rebuiltPrint t shard prior previous s != recorded then { s with holding.restore := 6 }
      else replayedLogs logs (restoredAt t previous recorded nextSeq produced (placeShard (neededShard t shard s) s)) := rfl

theorem placeShard_holding (x : ShardImage) (s : State) : (placeShard x s).holding = s.holding := by
  unfold placeShard
  dsimp only
  rw [placeQueues_eq]
  refine foldl_inv (p := fun t : State => t.holding = s.holding) (fun u x h => ?_) x.pages rfl
  obtain ⟨-, -, -, hensure⟩ := ensureFrame_frame x.1 u
  obtain ⟨-, -, hpoison⟩ := writePoison_frame (x.1 * pageBytes) pageBytes false (ensureFrame x.1 u)
  have h1 := congrArg State.holding hpoison
  have h2 := congrArg State.holding hensure
  exact h1.trans (h2.trans h)

end Sys2Proof.Proofs
end

section
/-!
PROOFS. The rows of the record sink, the budget of evaluation and the restoration of a shard (15 R331 to R334, 16 R351, R352, R356).
-/
namespace Sys2Proof.Proofs

open Sys2Proof Sys2Proof.Machine Sys2Proof.Safety Sys2Proof.Laws

variable {s : State}

theorem exportAckPoll_rows (acked : W64) (s : State) :
    let x := s.exporter
    let size := x.cfg.sinkSize
    let control := fun (produced seq : Nat) => (sinkArea s, leBytes 8 produced ++ leBytes 8 (seq + 1), false)
    let y := ackedTo acked.toNat x
    (s.ready = true → pushes s = true → (∀ r ∈ y.retained, r.at_.isSome = true) →
      exec (.exportAckPoll acked) s = .next (advance { s with exporter := y })) ∧
    (∀ (sent : List RetainedRecord) (r : RetainedRecord), s.ready = true → pushes s = true → y.retained = sent ++ [r] →
      (∀ e ∈ sent, e.at_.isSome = true ∧ e.seq ≠ r.seq) → r.at_ = none →
      (unacknowledged y + r.bytes.length ≤ size → ∃ u, exec (.exportAckPoll acked) s = .next (advance u) ∧
        u.exporter = { y with
          produced := y.produced + r.bytes.length
          retained := sent ++ [{ r with at_ := some y.produced, head := s.run.head, time := s.clock.up }] } ∧
        (HostSink s → u.out.host = s.out.host ++ ringWrites s y.produced r.bytes ++
            [control (y.produced + r.bytes.length) r.seq] ∧
          { u with exporter := s.exporter, out := s.out } = s)) ∧
      (size < unacknowledged y + r.bytes.length →
        exec (.exportAckPoll acked) s = .next (advance { s with exporter := y }))) ∧
    ((s.ready = false ∨ pushes s = false) → exec (.exportAckPoll acked) s = .next s) := by
  intro x size control y
  have hcfg : y.cfg = s.exporter.cfg := ackedTo_cfg ..
  refine ⟨fun hready hpushes hplaced => ?_, fun sent r hready hpushes hretained hsent hr => ⟨fun hfits => ?_, fun hfull => ?_⟩,
    fun hoff => ?_⟩
  · rw [exportAckPoll_of_pushing acked hready hpushes]
    exact congrArg (fun t => Host.Outcome.next (advance t)) (emitAll_of_fixed (emitOne_of_placed hplaced) _)
  · have hpushes' : pushes { s with exporter := y } = true := by
      unfold pushes at hpushes ⊢
      dsimp only
      rwa [hcfg]
    obtain ⟨hexporter, hhost⟩ := emit_spec (s := { s with exporter := y }) hretained hsent hr hpushes' (by dsimp only; rwa [hcfg])
    refine ⟨_, exportAckPoll_of_pushing acked hready hpushes, hexporter, fun hsink => ?_⟩
    obtain ⟨hbytes, hrest⟩ := hhost (by unfold HostSink at hsink ⊢; dsimp only; rwa [hcfg])
    refine ⟨?_, congrArg (fun t : State => { t with exporter := s.exporter }) hrest⟩
    rw [hbytes]
    simp only [ringWrites, sinkArea, ownRank, hcfg]
    rfl
  · rw [exportAckPoll_of_pushing acked hready hpushes, emit_full (s := { s with exporter := y }) hretained hsent hr
      (by dsimp only; rwa [hcfg])]
  · rw [exec_exportAckPoll, if_neg]
    rcases hoff with h | h <;> simp [h]

theorem exportResend_rows (s : State) :
    let x := s.exporter
    let sent := x.retained.filter fun r => r.at_.isSome
    let due := fun (r : RetainedRecord) => pushes s = true ∧
      (distanceReached s.run.head r.head x.cfg.ackDistance.toNat = true ∨ r.time + ms x.cfg.ackTime ≤ s.clock.up);
    (∀ r more, s.ready = true → sent = r :: more → due r → ∃ t, exec .exportResend s = .next t ∧
      t.exporter = { x with
        resends := x.resends + 1
        retained := x.retained.map fun e => if e.at_.isSome then { e with head := s.run.head, time := s.clock.up } else e } ∧
      (HostSink s → t.out.host = s.out.host ++ sent.flatMap (fun e => ringWrites s (e.at_.getD 0) e.bytes) ∧
        { t with exporter := s.exporter, counters.values := s.counters.values, out := s.out } = s)) ∧
    ((s.ready = false ∨ sent = [] ∨ ∀ r more, sent = r :: more → ¬ due r) → exec .exportResend s = .next s) := by
  intro x sent due
  refine ⟨fun r more hready hsent hdue => ?_, fun hoff => ?_⟩
  · have hexec : exec .exportResend s = .next (resend s) := by rw [exec_exportResend, if_pos hready]
    rw [resend_of_due hsent ((resendDue_iff r).2 hdue)] at hexec
    refine ⟨_, hexec, rfl, fun hsink => ?_⟩
    rw [toRings_hostSink hsink, hsent]
    exact ⟨rfl, rfl⟩
  · rw [exec_exportResend]
    have hstays : s.ready = true → resend s = s := fun hready => by
      refine resend_of_not_due fun r more hsent => Bool.eq_false_iff.2 fun hdue => ?_
      rcases hoff with h | h | h
      · exact Bool.false_ne_true (h.symm.trans hready)
      · exact List.cons_ne_nil _ _ (hsent.symm.trans h)
      · exact h r more hsent ((resendDue_iff r).1 hdue)
    split
    next hready => rw [hstays hready]
    next => rfl

theorem evalBudgetExpiry_rows (s : State) :
    let late := fun (t : TaskInst) => t.stream == streamE && t.step == stepOf s.run.head && t.incomplete;
    (budgetExpired s = true → s.sched.tasks.any late = true →
      ∃ u, exec .evalBudgetExpiry s = .next (advance u) ∧ u.exporter.evalAbandoned = true ∧
        (∀ t ∈ s.sched.tasks, late t = true → ∃ t' ∈ u.sched.tasks, t'.step = t.step ∧ t'.task = t.task ∧
          t'.phase = .abandoned ∧ t'.cells = []) ∧
        (∀ t ∈ s.sched.tasks, late t = false → t ∈ u.sched.tasks) ∧ u.mem.base = s.mem.base ∧ u.mem.layers = s.mem.layers ∧
        u.votes = s.votes) ∧
    ((budgetExpired s = false) → exec .evalBudgetExpiry s = .next s) ∧
    (budgetExpired s = true → s.sched.tasks.any late = false → exec .evalBudgetExpiry s = .next (advance s)) := by
  intro late
  refine ⟨fun hexpired hlate => ?_, fun hno => ?_, fun hexpired hnone => ?_⟩
  · obtain ⟨habandoned, htasks, hbase, hlayers, hvotes⟩ := abandonEval_spec hlate
    refine ⟨abandonEval s, by rw [exec_evalBudgetExpiry, if_pos hexpired], habandoned, fun t ht hl => ?_, fun t ht hl => ?_, hbase,
      hlayers, hvotes⟩
    · refine ⟨discardOne (evalLate (stepOf s.run.head)) .abandoned t, by rw [htasks]; exact List.mem_map_of_mem ht, ?_⟩
      have hlate' : evalLate (stepOf s.run.head) t = true := hl
      rw [discardOne_of_incomplete hlate' (evalLate_incomplete hlate')]
      exact ⟨rfl, rfl, rfl, rfl⟩
    · rw [htasks]
      exact List.mem_map.2 ⟨t, ht, discardOne_of_not hl .abandoned⟩
  · rw [exec_evalBudgetExpiry, hno]
    rfl
  · rw [exec_evalBudgetExpiry, if_pos hexpired, abandonEval_of_none hnone]

theorem restoreStage_reinstate {m : ModId} {run : Option RunCopy} (hready : s.ready = true) (hassigned : s.assigned = true) :
    restoreStage (.reinstate m run) s = if m = s.holding.moduleId then reinstateSelf run s
      else if s.holding.restoring.contains m && (s.holding.restore == 1 || s.holding.restore == 2) then reinstateOther m s else s := by
  unfold restoreStage reinstated
  rw [hready, hassigned]
  rfl

theorem waiting_rows (m : ModId) (s : State) :
    let x := s.exporter
    let needs := s.ready = true ∧ m ∈ runModules s ∧ s.run.isOn = true ∧ m ∉ s.holding.restoring ∧ holdsHome s m = true
    let need := s.holding.restoring ++ [m]
    let c := Instr.shardRestoration (.waiting m)
    (needs → ∃ u, exec c s = .next (advance u) ∧ m ∈ u.holding.restoring ∧
      { u with
        holding.restore := s.holding.restore, holding.restoring := s.holding.restoring
        holding.restoreTarget := s.holding.restoreTarget, holding.restoreUpTo := s.holding.restoreUpTo
        holding.restoreHost := s.holding.restoreHost } = s ∧
      ((resumeStep s = 0 ∨ x.cfg.enable = false) → u.holding.restore = 5) ∧
      (∀ k, resumeStep s = k + 1 → x.cfg.enable = true →
        (restoreTargetOf { s with holding.restoring := need } need k = none → u.holding.restore = 5) ∧
        (∀ t, restoreTargetOf { s with holding.restoring := need } need k = some t → s.holding.restore ≠ 1 →
          s.holding.restore ≠ 2 → u.holding.restore = 1 ∧ u.holding.restoreTarget = t ∧ u.holding.restoreUpTo = k ∧
            u.holding.restoreHost = decide (t < k) ∧
            (t < k → ∀ y ∈ runModules s, y ∈ u.holding.restoring)))) ∧
    (¬ needs → exec c s = .next (advance s)) := by
  intro x needs need c
  refine ⟨fun ⟨hready, hrun, hon, hfresh, hhome⟩ => ?_, fun hno => ?_⟩
  · have hneeds : Needs m s := ⟨hon, hfresh, hhome⟩
    have hexec : exec c s = .next (advance (needRestoration m s)) := by
      rw [exec_shardRestoration, restoreStage, hready, List.contains_iff_mem.2 hrun]
      rfl
    refine ⟨_, hexec, needing_told hneeds, needRestoration_rest m s, needRestoration_fails hneeds, fun k hk hsink =>
      ⟨needRestoration_unvouched hneeds hk, fun t ht h1 h2 => ?_⟩⟩
    rw [needRestoration_to hneeds hk hsink ht h1 h2]
    refine ⟨rfl, rfl, rfl, rfl, fun hlow y hy => ?_⟩
    dsimp only
    rw [if_pos hlow]
    exact (mem_foldl_addNew _ _).2 (.inr hy)
  · have hstays : s.ready = true → m ∈ runModules s → needRestoration m s = s := fun hready hrun =>
      needRestoration_of_not fun h => hno ⟨hready, hrun, h.on, h.fresh, h.home⟩
    rw [exec_shardRestoration, restoreStage]
    split
    next hyes =>
      rw [Bool.and_eq_true_iff, List.contains_iff_mem] at hyes
      rw [hstays hyes.1 hyes.2]
    next => rfl

theorem reinstateSelf_rows (run : Option RunCopy) (s : State) (hready : s.ready = true) (hassigned : s.assigned = true) :
    let c := Instr.shardRestoration (.reinstate s.holding.moduleId run)
    (s.run.isOn = true → exec c s = .next (advance (reinstating s))) ∧
    (s.run.isOn = false → run = none → exec c s = .next (advance s)) ∧
    (∀ r, s.run.isOn = false → run = some r →
      (installCopies r.segments (reinstating s) = none → exec c s = .next (advance { s with holding.restore := 5 })) ∧
      ((installCopies r.segments (reinstating s)).isSome = true → ∃ u, exec c s = .next (advance u) ∧ u.run.isOn = true ∧
        u.run.halt = .smear ∧ u.run.head = posOf (r.target + 1) passF 0 ∧ u.run.leadModule = r.lead ∧
        u.run.seed = r.seed ∧ u.run.modes = r.modes ∧ u.holding.setupLock = true ∧ u.holding.restore = 2 ∧
        u.holding.restoreTarget = r.target ∧ s.clock.now ≤ u.clock.now)) := by
  intro c
  have hexec : exec c s = .next (advance (reinstateSelf run s)) := by
    rw [exec_shardRestoration, restoreStage_reinstate hready hassigned, if_pos rfl]
  refine ⟨fun hon => ?_, fun hoff hnone => ?_, fun r hoff hsome => ⟨fun hbad => ?_, fun hgood => ?_⟩⟩
  · rw [hexec]
    have hself : reinstateSelf run s = reinstating s := by
      cases run with
      | none => exact if_pos hon
      | some r => exact if_pos hon
    rw [hself]
  · subst hnone
    rw [hexec, show reinstateSelf none s = s from if_neg (by rw [hoff]; exact Bool.false_ne_true)]
  · subst hsome
    rw [hexec, reinstateSelf_off hoff, hbad]
  · subst hsome
    obtain ⟨v, hv⟩ := Option.isSome_iff_exists.1 hgood
    exact ⟨_, hexec, reinstateSelf_takes hoff hv⟩

theorem reinstateOther_rows (m : ModId) (run : Option RunCopy) (s : State) (hready : s.ready = true) (hassigned : s.assigned = true)
    (hother : m ≠ s.holding.moduleId) :
    let helps := m ∈ s.holding.restoring ∧ (s.holding.restore = 1 ∨ s.holding.restore = 2)
    let c := Instr.shardRestoration (.reinstate m run)
    (helps → ∃ u, exec c s = .next (advance u) ∧ u.holding.restore = 2 ∧
      (s.holding.isMaster = true → inHolding s.holding m = true → (m, Hedge.setupWrite 0x18 8 1) ∈ u.out.hedge) ∧
      (∀ e ∈ s.coll.groups, ∀ g, e.2 = some g → m ∈ excludedIds g.def48 ++ definedMembers s g.def48 →
        (definedMembers s g.def48).head? = some s.holding.moduleId →
        ∀ p, p < 3 → (m, Hedge.groupDefinition p g.epoch (slice g.def48 (16 * p) 16)) ∈ u.out.hedge) ∧
      { u with holding.restore := s.holding.restore, sheaf := s.sheaf, out := s.out } = s) ∧
    (¬ helps → exec c s = .next (advance s)) := by
  intro helps c
  have hexec : exec c s = .next (advance (if s.holding.restoring.contains m && (s.holding.restore == 1 || s.holding.restore == 2)
      then reinstateOther m s else s)) := by
    rw [exec_shardRestoration, restoreStage_reinstate hready hassigned, if_neg hother]
  have hhelps : (s.holding.restoring.contains m && (s.holding.restore == 1 || s.holding.restore == 2)) = true ↔ helps := by
    simp [helps]
  refine ⟨fun h => ?_, fun h => ?_⟩
  · rw [if_pos (hhelps.2 h)] at hexec
    have hframe := (mails_reinstateOther m s).frame
    refine ⟨_, hexec, by rw [hframe], reinstateOther_setup, fun e he g hg hnamed hlead p hp =>
      reinstateOther_group he hg hnamed hlead hp, ?_⟩
    rw [hframe]
  · rw [hexec, if_neg fun hyes => h (hhelps.1 hyes)]

theorem rebuilt_rows (t : Nat) (shard prior : ShardImage) (previous recorded : BitVec 256) (nextSeq produced : Nat)
    (logs : List (Nat × Bytes)) (s : State) :
    let c := Instr.shardRestoration (.rebuilt t shard prior previous recorded nextSeq produced logs)
    (rebuildDue t s = true → survived t recorded s = true → ∃ u, exec c s = .next (advance u) ∧
      RestoredAt t recorded s.holding.moduleId u ∧ u.mem.base = s.mem.base ∧
      u.exporter.nextSeq = s.exporter.nextSeq ∧ u.exporter.produced = s.exporter.produced) ∧
    (rebuildDue t s = true → survived t recorded s = false → rebuiltPrint t shard prior previous s = recorded →
      ∃ u, exec c s = .next (advance u) ∧ RestoredAt t recorded s.holding.moduleId u ∧ u.exporter.nextSeq = nextSeq ∧
        u.exporter.produced = produced ∧
        (∀ page bs, (neededShard t shard s).pages = [(page, bs)] → ∀ i, i < pageBytes →
          tget 0 u.mem.base (page * pageBytes + i) = bs.getD i 0)) ∧
    (rebuildDue t s = true → survived t recorded s = false → rebuiltPrint t shard prior previous s ≠ recorded →
      exec c s = .next (advance { s with holding.restore := 6 })) ∧
    (¬ rebuildDue t s = true → exec c s = .next (advance s)) := by
  intro c
  have hexec : exec c s = .next (advance (rebuildShard t shard prior previous recorded nextSeq produced logs s)) := rfl
  rw [rebuildShard_eq] at hexec
  refine ⟨fun hdue hsurvived => ?_, fun hdue hlost hprint => ?_, fun hdue hlost hprint => ?_, fun hdue => ?_⟩
  · rw [hdue, Bool.not_true, if_neg Bool.false_ne_true, if_pos hsurvived] at hexec
    obtain ⟨hrestored, hseq, hproduced, hbase⟩ := restoredAt_spec t s.exporter.prevChain recorded s.exporter.nextSeq
      s.exporter.produced { s with mem := dropLayers (beyond (t + 1)) s.mem }
    exact ⟨_, hexec, hrestored, hbase, hseq, hproduced⟩
  · rw [hdue, Bool.not_true, hlost, hprint, bne_self_eq_false, if_neg Bool.false_ne_true, if_neg Bool.false_ne_true,
      if_neg Bool.false_ne_true] at hexec
    obtain ⟨hrestored, hseq, hproduced, hbase⟩ := restoredAt_spec t previous recorded nextSeq produced
      (placeShard (neededShard t shard s) s)
    rw [placeShard_holding] at hrestored
    refine ⟨_, hexec, ⟨hrestored.head, hrestored.halt, hrestored.commit, hrestored.whole, hrestored.chain, hrestored.vote,
      hrestored.connected, hrestored.found, hrestored.restored, hrestored.told⟩, hseq, hproduced, fun page bs hpages i hi => ?_⟩
    have hmem : (replayedLogs logs (restoredAt t previous recorded nextSeq produced (placeShard (neededShard t shard s) s))).mem.base =
        (placeShard (neededShard t shard s) s).mem.base := hbase
    rw [hmem]
    exact placeShard_page hpages s hi
  · rw [hdue, Bool.not_true, hlost, bne_iff_ne.2 hprint, if_neg Bool.false_ne_true, if_neg Bool.false_ne_true, if_pos rfl] at hexec
    exact hexec
  · rw [Bool.eq_false_iff.2 hdue] at hexec
    exact hexec

/-- A module that stands restored, in the words of the statement. -/
theorem RestoredAt.unfold {t : Nat} {recorded : BitVec 256} {me : ModId} {u : State} (h : RestoredAt t recorded me u) :
    u.run.head = posOf (t + 1) passF 0 ∧ u.run.halt = .smear ∧ u.run.lastCommit = some t ∧ u.mem.damaged = [] ∧
      u.exporter.chain = recorded ∧ u.votes.openStep = none ∧ u.holding.isolated = false ∧
      me ∉ u.holding.lost ∧ me ∉ u.holding.restoring ∧
      (everyone, Hedge.agreement agreeRestore (BitVec.ofNat 64 t) (posOf (t + 1) passF 0)) ∈ u.out.hedge :=
  ⟨h.head, h.halt, h.commit, h.whole, h.chain, h.vote, h.connected, h.found, h.restored, h.told⟩

/-- Settles O48: row by row, and SHARD_RESTORATION stage by stage. -/
theorem exportAndRestorationRows : Obligations.ExportAndRestorationRows := by
  unfold Obligations.ExportAndRestorationRows
  intro s x size control
  refine ⟨fun acked => exportAckPoll_rows acked s, exportResend_rows s, evalBudgetExpiry_rows s, rfl, fun m => waiting_rows m s,
    fun run hready hassigned => reinstateSelf_rows run s hready hassigned,
    fun m run hready hassigned hother => reinstateOther_rows m run s hready hassigned hother, ?_⟩
  intro t shard prior previous recorded nextSeq produced logs due c restored
  obtain ⟨hsurvives, hrebuilds, hfails, hwaits⟩ := rebuilt_rows t shard prior previous recorded nextSeq produced logs s
  refine ⟨fun hdue hsurvived => ?_, fun hdue hlost hprint => ?_, fun hdue => hfails ((rebuildDue_iff t s).2 hdue),
    fun hdue => hwaits fun h => hdue ((rebuildDue_iff t s).1 h)⟩
  · obtain ⟨u, hexec, hrestored, hrest⟩ := hsurvives ((rebuildDue_iff t s).2 hdue) hsurvived
    exact ⟨u, hexec, hrestored.unfold, hrest⟩
  · obtain ⟨u, hexec, hrestored, hrest⟩ := hrebuilds ((rebuildDue_iff t s).2 hdue) hlost hprint
    exact ⟨u, hexec, hrestored.unfold, hrest⟩

end Sys2Proof.Proofs
end

section
/-!
PROOFS. FINGERPRINT and EXPORT (16 R346, R351, R352).
-/
namespace Sys2Proof.Proofs

open Sys2Proof Sys2Proof.Machine Sys2Proof.Safety Sys2Proof.Laws

variable {s u : State} {r : TaskRun} {t : TaskInst} {g : Segment} {k : TaskRec}

/-! ### The run that a row starts -/

/-- What a row starts is eligible, and its segment and record are those it names. -/
theorem startable_eligible {kind : Nat} (h : startable s kind r = some (t, g, k)) :
    segmentOf s t.seg = some g ∧ taskRecOf s t = some k ∧ eligible s t = true := by
  unfold startable at h
  split at h
  · cases h
  · split at h
    next hsegment hrecord =>
      split at h
      next hguard =>
        cases h
        simp only [Bool.and_eq_true] at hguard
        obtain ⟨⟨⟨⟨⟨-, heligible⟩, -⟩, -⟩, -⟩, -⟩ := hguard
        exact ⟨hsegment, hrecord, heligible⟩
      · cases h
    · cases h

theorem running_of_eligible (h : eligible s t = true) : s.run.halt = .running := by
  simp only [eligible, Bool.and_eq_true] at h
  obtain ⟨⟨⟨⟨⟨⟨⟨⟨⟨⟨hmoves, -⟩, -⟩, -⟩, -⟩, -⟩, -⟩, -⟩, -⟩, -⟩, -⟩ := h
  simp only [State.moving, completing, Bool.or_eq_true, Bool.and_eq_true, beq_iff_eq] at hmoves
  rcases hmoves with ⟨⟨-, h⟩, -⟩ | ⟨⟨⟨-, h⟩, -⟩, -⟩
  · exact h
  · exact h

/-- A run with no output views needs no frame. -/
theorem runFrames_of_no_output (hsegment : segmentOf s t.seg = some g) (hrecord : taskRecOf s t = some k) (hout : k.outView = []) :
    runFrames {} t s = some s := by
  have hpages : outputPages s t = [] := by simp [outputPages, writeRanges, hsegment, hrecord, hout]
  rw [runFrames_of_not_staged rfl, hpages]
  rfl

theorem runFrames_of_startable {kind : Nat} {w : Work} (hw : w.staged = false) (h : startable s kind r = some (t, g, k)) :
    ∃ v, runFrames w t s = some v := by
  obtain ⟨-, -, -, hfresh⟩ := startable_found h
  rw [runFrames_of_not_staged hw]
  exact Option.isSome_iff_exists.1 hfresh

theorem started_exporter {w : Work} {v : State} (h : Started r w t s v) : v.exporter = s.exporter := by
  obtain ⟨-, -, -, -, hrest⟩ := h
  have hexporter := congrArg State.exporter hrest
  exact hexporter

theorem started_lamio {w : Work} {v : State} (h : Started r w t s v) : v.lamio = s.lamio := by
  obtain ⟨-, -, -, -, hrest⟩ := h
  have hlamio := congrArg State.lamio hrest
  exact hlamio

theorem oldHomes_ensureFrame (p : Nat) (s : State) : (ensureFrame p s).mem.oldHomes = s.mem.oldHomes := by
  unfold ensureFrame
  dsimp only
  split
  · rfl
  · split
    · rfl
    · split <;> rfl

theorem oldHomes_touchViews (sb : Bool) (t : TaskInst) (s : State) : (touchViews sb t s).mem.oldHomes = s.mem.oldHomes := by
  refine foldl_inv (p := fun u : State => u.mem.oldHomes = s.mem.oldHomes)
    (g := fun u (x : Access × Nat × Nat) => touchAs sb x.1 x.2.1 x.2.2 u) (fun u x hu => ?_) _ rfl
  refine foldl_inv (p := fun v : State => v.mem.oldHomes = s.mem.oldHomes) (fun v q hv => ?_) _ hu
  have hframe : (if (x.1 == .write) = true then ensureFrame q v else v).mem.oldHomes = s.mem.oldHomes := by
    split
    · rw [oldHomes_ensureFrame, hv]
    · exact hv
  exact hframe

/-- A run that computes nothing starts: its frames taken, the frames that homes have left stay noted. -/
theorem oldHomes_startRun (h : runFrames {} t s = some u) : (startRun r {} t s).mem.oldHomes = u.mem.oldHomes := by
  have hframes : (stageFrames t.step (stagedPages {}) s).bind (freshFrames t.step t.task (outputPages s t)) = some u := h
  unfold startRun
  dsimp only
  rw [hframes]
  dsimp only [List.foldl_nil]
  refine foldl_inv (p := fun v : State => v.mem.oldHomes = u.mem.oldHomes) (fun v _ hv => ?_) _ ?_
  · unfold traceTask
    rw [trace_eq]
    exact hv
  · unfold traceTask
    rw [trace_eq]
    exact oldHomes_touchViews ..

/-! ### The records of a step -/

/-- The sections of a step that its record has: logical pages of the keyframe only while the sink is enabled. -/
def sectionsOfStep (n : Nat) (s : State) : List Section :=
  (formSections n s).filter fun y => s.exporter.cfg.enable || y.kind != 1

theorem sectionsOfStep_eq (n : Nat) (s : State) : sectionsOfStep n s =
    if s.exporter.cfg.enable then formSections n s else (formSections n s).filter fun y => y.kind != 1 := by
  unfold sectionsOfStep
  cases s.exporter.cfg.enable with
  | true => simp only [Bool.true_or, if_true, filter_keeps_all]
  | false => rfl

/-- Bytes of the record of a step. -/
def stepLength (n : Nat) (s : State) : Nat := 256 + ((sectionsOfStep n s).map fun y => y.bytes.length).foldl (· + ·) 0

/-- The fingerprint of a step. -/
def stepPrint (n : Nat) (s : State) : BitVec 256 :=
  digestBits (sha256 (digestBytes s.exporter.chain ++ differenceRecords s.exporter.cfg.scope (sectionsOfStep n s)))

/-- The record kept for the sink. -/
def stepRecord (n : Nat) (s : State) : RetainedRecord :=
  { seq := s.exporter.nextSeq, step := n
    bytes := stepHeader s n s.exporter.nextSeq (sectionsOfStep n s).length (stepLength n s) s.exporter.first false (stepPrint n s)
      s.exporter.chain ++ (sectionsOfStep n s).flatMap Section.bytes
    at_ := none, head := s.run.head, time := s.clock.up, place := s.exporter.formed }

/-- The exporter once the records of step `n` are formed. -/
def formedExporter (n : Nat) (s : State) : Exporter :=
  let x := s.exporter
  let es := exports s
  let x' := { x with
    chain := stepPrint n s, prevChain := x.chain, chainStep := some n,
    images := es.map fun e => (e.index, e.queue, e.bytes), oldFallow := none, waiting := none }
  if x.cfg.enable then
    { x' with nextSeq := x.nextSeq + 1, first := false, formed := x.formed + stepLength n s,
              retained := if x.nextSeq ≤ x.acked then x.retained else x.retained ++ [stepRecord n s],
              keyed := es.map fun e => (e.index, e.queue) }
  else x'

/-- Staging has room for the record of a step. -/
def hasRoom (n : Nat) (s : State) : Prop :=
  s.exporter.cfg.enable = false ∨ retainedBytes s.exporter + stepLength n s ≤ stagingSize s

theorem hasRoom_iff (n : Nat) (s : State) : hasRoom n s ↔
    (s.exporter.cfg.enable && decide (stagingSize s < retainedBytes s.exporter + stepLength n s)) = false := by
  rw [Bool.and_eq_false_iff, decide_eq_false_iff_not, Nat.not_lt]
  rfl

/-- The state once the records of step `n` are formed. -/
def recordsFormed (n : Nat) (c : CommitRecord) (s : State) : State :=
  traceProgress ((if c.foldDone then [] else [128]) ++ [131, 132])
    (markCommit n (fun c => { c with foldDone := true, recordsDone := true, fingerprintDone := true })
      { s with exporter := formedExporter n s, mem.oldHomes := [], mem.oldBase := none })

section
variable {n : Nat} {c : CommitRecord} (hc : s.votes.commits.find? (fun c => c.step == n) = some c)
include hc

theorem formFingerprint_eq : formFingerprint n s =
    if c.fingerprintDone || !commitWorkDone s n then s
    else if s.exporter.cfg.enable && decide (stagingSize s < retainedBytes s.exporter + stepLength n s) then
      (if s.exporter.waiting = some n then s
        else { s with exporter.waits := satTo (2 ^ 64 - 1) (s.exporter.waits + 1), exporter.waiting := some n })
    else replayCompared n (stepPrint n s) (recordsFormed n c s) := by
  unfold formFingerprint
  rw [hc]
  dsimp only
  rw [← sectionsOfStep_eq]
  rfl

theorem formFingerprint_of_done (hdone : c.fingerprintDone = true) : formFingerprint n s = s := by
  rw [formFingerprint_eq hc, hdone]
  rfl

theorem formFingerprint_of_waiting (hwork : commitWorkDone s n = false) : formFingerprint n s = s := by
  rw [formFingerprint_eq hc, hwork, Bool.not_false, Bool.or_true]
  rfl

theorem formFingerprint_of_ready (hdone : c.fingerprintDone = false) (hwork : commitWorkDone s n = true) (hroom : hasRoom n s) :
    formFingerprint n s = replayCompared n (stepPrint n s) (recordsFormed n c s) := by
  rw [formFingerprint_eq hc, hdone, hwork, (hasRoom_iff n s).1 hroom]
  rfl

theorem formFingerprint_of_full (hdone : c.fingerprintDone = false) (hwork : commitWorkDone s n = true) (hfull : ¬ hasRoom n s)
    (hnew : s.exporter.waiting ≠ some n) : formFingerprint n s =
      { s with exporter.waits := satTo (2 ^ 64 - 1) (s.exporter.waits + 1), exporter.waiting := some n } := by
  have hno := Bool.eq_true_of_not_eq_false fun h => hfull ((hasRoom_iff n s).2 h)
  rw [formFingerprint_eq hc, hdone, hwork, hno]
  exact if_neg hnew

end

theorem traceProgress_eq (fields : List Nat) (s : State) : traceProgress fields s = { s with sheaf := (traceProgress fields s).sheaf } :=
  foldl_inv (p := fun v : State => v = { s with sheaf := v.sheaf }) (fun v f hv => by unfold traceCommit; rw [trace_eq, hv]) fields rfl

/-- Records formed change the exporter, the commit record, the frames that homes have left, and the trace. -/
theorem formed_eq (n : Nat) (c : CommitRecord) (s : State) : recordsFormed n c s = { s with
    exporter := formedExporter n s, mem.oldHomes := [], mem.oldBase := none
    votes.commits := s.votes.commits.map fun c =>
      if c.step = n then { c with foldDone := true, recordsDone := true, fingerprintDone := true } else c
    sheaf := (recordsFormed n c s).sheaf } := by
  unfold recordsFormed
  rw [traceProgress_eq]
  rfl

/-- Outside of a replay the fingerprint is noted and no more. -/
theorem replayCompared_outside {n : Nat} {f : BitVec 256} (h : s.holding.restore ≠ 3) : replayCompared n f s =
    { s with exporter.prints := ((n, f) :: s.exporter.prints.filter fun p => p.1 != n).take 256 } :=
  if_pos (bne_iff_ne.2 h)

/-! ### The rows -/

theorem exec_fingerprint (r : TaskRun) (s : State) : exec (.fingerprint r) s = .next (advance (startFingerprint r s)) := rfl

theorem exec_exportRecord (r : TaskRun) (s : State) : exec (.exportRecord r) s = .next (advance (startExport r s)) := rfl

/-- FINGERPRINT starts where the records of its step are formed and the run moves. -/
theorem startFingerprint_eq (h : startable s 0x12 r = some (t, g, k)) : startFingerprint r s =
    let v := formFingerprint r.step s
    if (v.votes.commits.any fun c => c.step == r.step && c.fingerprintDone) && v.run.halt == .running then startRun r {} t v else v := by
  obtain ⟨-, hstep, -, -⟩ := startable_found h
  unfold startFingerprint
  rw [h]
  dsimp only
  rw [hstep]

theorem startExport_started (h : startable s 0x11 r = some (t, g, k)) :
    startExport r s = emit (startRun r {} t s) ∧ Started r {} t s (startRun r {} t s) := by
  obtain ⟨hfound, -, -, -⟩ := startable_found h
  obtain ⟨v, hv⟩ := runFrames_of_startable (w := {}) rfl h
  exact ⟨by rw [startExport, h], startRun_started hfound hv⟩

/-- No record of the step has its fingerprint: FINGERPRINT leaves what forming it leaves. -/
theorem fingerprint_not_formed (h : startable s 0x12 r = some (t, g, k))
    (hnone : ∀ x ∈ s.votes.commits, x.step = r.step → x.fingerprintDone = false)
    (hsame : (formFingerprint r.step s).votes.commits = s.votes.commits) :
    startFingerprint r s = formFingerprint r.step s := by
  have hany : ((formFingerprint r.step s).votes.commits.any fun c => c.step == r.step && c.fingerprintDone) = false := by
    rw [hsame]
    refine List.any_eq_false.2 fun x hx => ?_
    rw [Bool.and_eq_true_iff, beq_iff_eq]
    rintro ⟨hstep, hdone⟩
    exact Bool.false_ne_true ((hnone x hx hstep).symm.trans hdone)
  rw [startFingerprint_eq h]
  dsimp only
  rw [hany]
  rfl

theorem not_done_of_none {c : CommitRecord} (hc : s.votes.commits.find? (fun c => c.step == r.step) = some c)
    (hnone : ∀ x ∈ s.votes.commits, x.step = r.step → x.fingerprintDone = false) : c.fingerprintDone = false :=
  hnone c (List.mem_of_find?_eq_some hc) (by simpa using List.find?_some hc)

section
variable {c : CommitRecord} (h : startable s 0x12 r = some (t, g, k)) (hc : s.votes.commits.find? (fun c => c.step == r.step) = some c)
include h hc

theorem fingerprint_done (hdone : c.fingerprintDone = true) :
    startFingerprint r s = startRun r {} t s ∧ Started r {} t s (startRun r {} t s) := by
  obtain ⟨hfound, -, -, -⟩ := startable_found h
  obtain ⟨-, -, heligible⟩ := startable_eligible h
  obtain ⟨v, hv⟩ := runFrames_of_startable (w := {}) rfl h
  have hany : (s.votes.commits.any fun c => c.step == r.step && c.fingerprintDone) = true :=
    List.any_eq_true.2 ⟨c, List.mem_of_find?_eq_some hc, by rw [List.find?_some hc, hdone]; rfl⟩
  refine ⟨?_, startRun_started hfound hv⟩
  rw [startFingerprint_eq h, formFingerprint_of_done hc hdone]
  dsimp only
  rw [hany, running_of_eligible heligible]
  rfl

theorem fingerprint_formed (hout : k.outView = []) (hnone : ∀ x ∈ s.votes.commits, x.step = r.step → x.fingerprintDone = false)
    (hwork : commitWorkDone s r.step = true) (hroom : hasRoom r.step s) (hrestore : s.holding.restore ≠ 3) :
    ∃ prints, (startFingerprint r s).exporter = { formedExporter r.step s with prints := prints } ∧
      (startFingerprint r s).mem.oldHomes = [] ∧
      ∃ u, findTask (startFingerprint r s) r.step r.task = some u ∧ u.phase = .computed ∧ u.unit = r.unit := by
  obtain ⟨hfound, hstep, -, -⟩ := startable_found h
  obtain ⟨hsegment, hrecord, heligible⟩ := startable_eligible h
  have hform := formFingerprint_of_ready hc (not_done_of_none hc hnone) hwork hroom
  rw [formed_eq, replayCompared_outside (by exact hrestore)] at hform
  have hany : ((formFingerprint r.step s).votes.commits.any fun c => c.step == r.step && c.fingerprintDone) = true := by
    rw [hform]
    refine List.any_eq_true.2 ⟨_, List.mem_map_of_mem (List.mem_of_find?_eq_some hc), ?_⟩
    have hcstep : c.step = r.step := by simpa using List.find?_some hc
    rw [if_pos hcstep]
    simp [hcstep]
  have hhalt : (formFingerprint r.step s).run.halt = .running := by
    have hrunning := running_of_eligible heligible
    rw [hform]
    exact hrunning
  have hstart : startFingerprint r s = startRun r {} t (formFingerprint r.step s) := by
    rw [startFingerprint_eq h]
    dsimp only
    rw [hany, hhalt]
    rfl
  have hframes : runFrames {} t (formFingerprint r.step s) = some (formFingerprint r.step s) :=
    runFrames_of_no_output (g := g) (by rw [hform]; exact hsegment) (by rw [hform]; exact hrecord) hout
  have hstarted := startRun_started (r := r) (w := {}) (by rw [hform]; exact hfound) hframes
  obtain ⟨⟨u, hu, hphase, -, hunit, -⟩, -⟩ := id hstarted
  refine ⟨((r.step, stepPrint r.step s) :: (formedExporter r.step s).prints.filter fun p => p.1 != r.step).take 256, ?_, ?_, u, ?_, hphase, hunit⟩
  · rw [hstart, started_exporter hstarted, hform]
  · rw [hstart, oldHomes_startRun hframes, hform]
  · rw [hstart]
    exact hu

end

end Sys2Proof.Proofs
end

section
/-!
PROOFS. MOVE from a peer: a read issued for every range of its source, and the transactions that stand for them (12 R252, 14 R301,
R303, R304).
-/
namespace Sys2Proof.Proofs

open Sys2Proof Sys2Proof.Machine Sys2Proof.Safety Sys2Proof.Laws

variable {s u : State} {r : TaskRun} {t : TaskInst} {g : Segment} {k : TaskRec} {m : ModId}

/-! ### One read issued -/

/-- A read of a task on a peer's memory. -/
def issueRead (m : ModId) (t : TaskInst) (s : State) (x : Nat × Nat) : State :=
  (issue ptReadReq m x.1 x.2 [] (bySeedbed s t) (some (t.task, t.step % 2 ^ 24, (t.attempt + 1) % 256)) (some (t.step, t.task)) false s).2

/-- The transaction of a read, waiting. -/
def readTxn (m : ModId) (t : TaskInst) (s : State) (x : Nat × Nat) : Txn :=
  ⟨m, s.lamio.nextTag, ptReadReq,
    { source := s.holding.moduleId, dest := m, tag := s.lamio.nextTag, offset := BitVec.ofNat 44 x.1, len8 := x.2, orderSeq := 0
      seedbed := bySeedbed s t, poison := false, detour := false, status := 0
      context := some (t.task, t.step % 2 ^ 24, (t.attempt + 1) % 256), data := [] },
    false, s.clock.up, some (t.step, t.task), false, true⟩

/-- Requests to a module that are sent and not answered. -/
def outTo (m : ModId) (l : List Txn) : Nat := (l.filter fun x => x.dest == m && !x.queued).length

/-- What sending a waiting request makes of the transaction that its module and tag name. -/
def sentTxn (x : Txn) (seq now : Nat) (y : Txn) : Txn := { y with p := { x.p with orderSeq := seq }, queued := false, sentAt := now }

/-- The transactions once one more is issued. -/
def withIssued (x : Txn) (seq now : Nat) (l : List Txn) : List Txn :=
  if outTo x.dest (l ++ [x]) < 2048 then mapFirst (isTxn x.dest x.tag) (sentTxn x seq now) (l ++ [x]) else l ++ [x]

/-- From `s` to `t` requests have been issued: the fabric, the stones, counters, the trace and what is sent have changed, and nothing
else. -/
def Asks (s t : State) : Prop :=
  t = { s with lamio := t.lamio, stones := t.stones, counters := t.counters, sheaf := t.sheaf, out := t.out }

theorem Asks.trans {t : State} (a : Asks s t) (b : Asks t u) : Asks s u := by
  unfold Asks at *
  rw [b, a]

/-- The state in which a request leaves: its order taken, its transaction sent. -/
def launching (x : Txn) (s : State) : State :=
  { s with
    lamio.sendOrder := tmod 0 s.lamio.sendOrder (orderKey x.dest 0) fun n => (n + 1) % 4096
    lamio.txns := mapFirst (isTxn x.dest x.tag)
      (sentTxn x (tget 0 s.lamio.sendOrder (orderKey x.dest 0)) s.clock.up) s.lamio.txns }

theorem launch_eq (x : Txn) (s : State) : launch x s =
    trace 4 0 x.p.seedbed 0 (BitVec.allOnes 32) (lamioAddr x.dest x.p.offset.toNat)
      (sendPacket x.type false { x.p with orderSeq := tget 0 s.lamio.sendOrder (orderKey x.dest 0) } (launching x s)) := rfl

theorem launch_spec (x : Txn) (s : State) :
    Asks s (launch x s) ∧ (launch x s).lamio.nextTag = s.lamio.nextTag ∧
      ∃ seq, (launch x s).lamio.txns = mapFirst (isTxn x.dest x.tag) (sentTxn x seq s.clock.up) s.lamio.txns := by
  have hcarries := (Carries.refl (launching x s)).sendPacket x.type false
    { x.p with orderSeq := tget 0 s.lamio.sendOrder (orderKey x.dest 0) }
  rw [launch_eq, trace_eq]
  generalize sendPacket x.type false _ (launching x s) = v at hcarries ⊢
  refine ⟨?_, ?_, tget 0 s.lamio.sendOrder (orderKey x.dest 0), ?_⟩
  · unfold Asks
    rw [hcarries]
    rfl
  · rw [hcarries]
    rfl
  · rw [hcarries]
    rfl

theorem issueRead_spec (m : ModId) (t : TaskInst) (s : State) (x : Nat × Nat) :
    Asks s (issueRead m t s x) ∧ (issueRead m t s x).lamio.nextTag = s.lamio.nextTag + 1 ∧
      ∃ seq, (issueRead m t s x).lamio.txns = withIssued (readTxn m t s x) seq s.clock.up s.lamio.txns := by
  have hissue : issueRead m t s x =
      let v := { s with lamio.nextTag := s.lamio.nextTag + 1, lamio.txns := s.lamio.txns ++ [readTxn m t s x] }
      if outTo m (s.lamio.txns ++ [readTxn m t s x]) < 2048 then launch (readTxn m t s x) v else v := by
    unfold issueRead issue
    dsimp only
    have hmay : ∀ v : State, mayLaunch v ptReadReq m = decide (outTo m v.lamio.txns < 2048) := fun v => by
      have hread : isAtomic ptReadReq = false := by decide
      simp only [mayLaunch, outstanding, outTo, hread, Bool.not_false, Bool.true_or, Bool.and_true]
      rfl
    rw [hmay]
    simp only [decide_eq_true_eq]
    rfl
  rw [hissue]
  dsimp only
  split
  next hroom =>
    obtain ⟨hasks, htag, seq, htxns⟩ := launch_spec (readTxn m t s x)
      { s with lamio.nextTag := s.lamio.nextTag + 1, lamio.txns := s.lamio.txns ++ [readTxn m t s x] }
    exact ⟨Asks.trans (t := { s with
      lamio.nextTag := s.lamio.nextTag + 1, lamio.txns := s.lamio.txns ++ [readTxn m t s x] }) rfl hasks, htag, seq,
      htxns.trans (if_pos hroom).symm⟩
  next hfull => exact ⟨rfl, rfl, 0, (if_neg hfull).symm⟩

/-! ### Reads issued one after another -/

/-- What the statement says of a transaction. -/
def shapeOf (x : Txn) : ModId × Nat × BitVec 44 × Nat × Option (Nat × W32) := (x.dest, x.type, x.p.offset, x.p.len8, x.task)

theorem shape_sentTxn {x y : Txn} (hdest : y.dest = x.dest) (htype : y.type = x.type) (htask : y.task = x.task) (seq now : Nat) :
    shapeOf (sentTxn x seq now y) = shapeOf x := by
  simp [shapeOf, sentTxn, hdest, htype, htask]

theorem mapFirst_append_of_some {α : Type} {p : α → Bool} (f : α → α) {l : List α} (h : ∃ x ∈ l, p x = true) (l' : List α) :
    mapFirst p f (l ++ l') = mapFirst p f l ++ l' := by
  induction l with
  | nil => simp at h
  | cons x l ih =>
    cases hx : p x with
    | true => simp [mapFirst, hx]
    | false => simp [mapFirst, hx, ih (by simpa [hx] using h)]

theorem mapFirst_append_of_none {α : Type} {p : α → Bool} (f : α → α) {l : List α} (h : ∀ x ∈ l, p x = false) (l' : List α) :
    mapFirst p f (l ++ l') = l ++ mapFirst p f l' := by
  induction l with
  | nil => rfl
  | cons x l ih =>
    simp only [List.mem_cons, forall_eq_or_imp] at h
    simp [mapFirst, h.1, ih h.2]

theorem mem_mapFirst_image {α : Type} {p : α → Bool} (f : α → α) {l : List α} (h : ∃ x ∈ l, p x = true) :
    ∃ x ∈ l, p x = true ∧ f x ∈ mapFirst p f l := by
  induction l with
  | nil => simp at h
  | cons x l ih =>
    cases hx : p x with
    | true => exact ⟨x, List.mem_cons_self, hx, by simp [mapFirst, hx]⟩
    | false =>
      obtain ⟨y, hy, hpy, hmem⟩ := ih (by simpa [hx] using h)
      exact ⟨y, List.mem_cons_of_mem x hy, hpy, by simp [mapFirst, hx, hmem]⟩

theorem mem_mapFirst_cases {α : Type} (p : α → Bool) (f : α → α) {l : List α} {x : α} (h : x ∈ l) :
    x ∈ mapFirst p f l ∨ f x ∈ mapFirst p f l := by
  induction l with
  | nil => simp at h
  | cons y l ih =>
    rcases List.mem_cons.1 h with rfl | h
    · cases hx : p x with
      | true => exact .inr (by simp [mapFirst, hx])
      | false => exact .inl (by simp [mapFirst, hx])
    · cases hy : p y with
      | true => exact .inl (by simp [mapFirst, hy, h])
      | false => exact (ih h).imp (fun h => by simp [mapFirst, hy, h]) fun h => by simp [mapFirst, hy, h]

/-- A request to `m` with the tag is out. -/
def TagOut (m : ModId) (tag : W16) (l : List Txn) : Prop := ∃ y ∈ l, y.dest = m ∧ y.queued = false ∧ y.tag = tag

theorem TagOut.append {tag : W16} {l : List Txn} (h : TagOut m tag l) (l' : List Txn) : TagOut m tag (l ++ l') := by
  obtain ⟨y, hy, hout⟩ := h
  exact ⟨y, List.mem_append_left l' hy, hout⟩

theorem TagOut.send {tag : W16} {l : List Txn} (h : TagOut m tag l) (x : Txn) (seq now : Nat) :
    TagOut m tag (mapFirst (isTxn x.dest x.tag) (sentTxn x seq now) l) := by
  obtain ⟨y, hy, hdest, hqueued, htag⟩ := h
  rcases mem_mapFirst_cases (isTxn x.dest x.tag) (sentTxn x seq now) hy with hmem | hmem
  · exact ⟨y, hmem, hdest, hqueued, htag⟩
  · exact ⟨_, hmem, hdest, rfl, htag⟩

theorem tags_differ {tag : W16} {i j : Nat} (hi : i < j) (hj : j < 2 ^ 16) : tag + BitVec.ofNat 16 i ≠ tag + BitVec.ofNat 16 j := by
  intro h
  have htoNat := congrArg BitVec.toNat ((BitVec.add_right_inj tag).1 h)
  rw [BitVec.toNat_ofNat, BitVec.toNat_ofNat, Nat.mod_eq_of_lt (by omega), Nat.mod_eq_of_lt hj] at htoNat
  omega

/-- Requests out to `m` with the first `j` tags from `tag` on: as many requests are out, as long as tags do not come round. -/
theorem le_outTo {tag : W16} {l : List Txn} {j : Nat} (hj : j ≤ 2 ^ 16) (h : ∀ i < j, TagOut m (tag + BitVec.ofNat 16 i) l) :
    j ≤ outTo m l := by
  have hsub : (List.range j).map (fun i => tag + BitVec.ofNat 16 i) ⊆ (l.filter fun x => x.dest == m && !x.queued).map (·.tag) := by
    intro a ha
    obtain ⟨i, hi, rfl⟩ := List.mem_map.1 ha
    obtain ⟨y, hy, hdest, hqueued, htag⟩ := h i (List.mem_range.1 hi)
    exact List.mem_map.2 ⟨y, List.mem_filter.2 ⟨hy, by simp [hdest, hqueued]⟩, htag⟩
  have hnodup : ((List.range j).map fun i => tag + BitVec.ofNat 16 i).Nodup := by
    refine List.Nodup.map_on (fun a ha b hb hab => ?_) List.nodup_range
    have ha := List.mem_range.1 ha
    have hb := List.mem_range.1 hb
    rcases Nat.lt_trichotomy a b with hlt | heq | hgt
    · exact absurd hab (tags_differ hlt (by omega))
    · exact heq
    · exact absurd hab.symm (tags_differ hgt (by omega))
  have hle := (hnodup.subperm hsub).length_le
  rwa [List.length_map, List.length_range, List.length_map] at hle

/-- What the statement says of the transaction of a read. -/
def readShape (m : ModId) (t : TaskInst) (x : Nat × Nat) : ModId × Nat × BitVec 44 × Nat × Option (Nat × W32) :=
  (m, ptReadReq, BitVec.ofNat 44 x.1, x.2, some (t.step, t.task))

/-- The reads `done` have been issued behind `old` transactions, with the tags from `tag` on: each has its transaction, and either
as many requests are out as may be, or every one of them is out. -/
structure Reading (m : ModId) (t : TaskInst) (tag : W16) (old : Nat) (done : List (Nat × Nat)) (s : State) : Prop where
  txns : ∃ before reads, s.lamio.txns = before ++ reads ∧ before.length = old ∧ reads.map shapeOf = done.map (readShape m t) ∧
    reads.map (·.tag) = (List.range done.length).map fun i => tag + BitVec.ofNat 16 i
  next : s.lamio.nextTag = tag + BitVec.ofNat 16 done.length
  out : 2048 ≤ outTo m s.lamio.txns ∨ ∀ i < done.length, TagOut m (tag + BitVec.ofNat 16 i) s.lamio.txns

theorem Reading.start (m : ModId) (t : TaskInst) (s : State) : Reading m t s.lamio.nextTag s.lamio.txns.length [] s where
  txns := ⟨s.lamio.txns, [], (List.append_nil _).symm, rfl, rfl, rfl⟩
  next := (BitVec.add_zero _).symm
  out := .inr fun _ hi => absurd hi (Nat.not_lt_zero _)

theorem outTo_waiting (m : ModId) (t : TaskInst) (s : State) (x : Nat × Nat) (l : List Txn) :
    outTo m (l ++ [readTxn m t s x]) = outTo m l := by
  simp [outTo, readTxn, List.filter_append]

theorem range_tags (tag : W16) (j : Nat) : ((List.range j).map fun i => tag + BitVec.ofNat 16 i) ++ [tag + BitVec.ofNat 16 j] =
    (List.range (j + 1)).map fun i => tag + BitVec.ofNat 16 i := by
  rw [List.range_succ, List.map_append, List.map_singleton]

theorem Reading.issue {tag : W16} {old : Nat} {done : List (Nat × Nat)} (h : Reading m t tag old done s) (x : Nat × Nat) :
    Reading m t tag old (done ++ [x]) (issueRead m t s x) := by
  obtain ⟨before, reads, htxns, hold, hshapes, htags⟩ := h.txns
  obtain ⟨-, hnext, seq, hissued⟩ := issueRead_spec m t s x
  have hlength : (done ++ [x]).length = done.length + 1 := by simp
  have hshape : shapeOf (readTxn m t s x) = readShape m t x := rfl
  have htagx : (readTxn m t s x).tag = tag + BitVec.ofNat 16 done.length := h.next
  have hnext' : (issueRead m t s x).lamio.nextTag = tag + BitVec.ofNat 16 (done ++ [x]).length := by
    rw [hnext, h.next, hlength, BitVec.add_assoc]
    congr 1
    exact (BitVec.ofNat_add ..).symm
  by_cases hroom : outTo m s.lamio.txns < 2048
  · -- the request is sent
    have hout := h.out.resolve_left (Nat.not_le.2 hroom)
    have hfew : done.length < 2048 := by
      by_contra hmany
      have hle := le_outTo (j := 2048) (by decide) fun i hi => hout i (by omega)
      omega
    have hsent : (issueRead m t s x).lamio.txns = mapFirst (isTxn m (readTxn m t s x).tag)
        (sentTxn (readTxn m t s x) seq s.clock.up) (before ++ (reads ++ [readTxn m t s x])) := by
      rw [hissued, withIssued, if_pos (by rw [show (readTxn m t s x).dest = m from rfl, outTo_waiting]; exact hroom), htxns,
        List.append_assoc]
      rfl
    have hin : readTxn m t s x ∈ before ++ (reads ++ [readTxn m t s x]) :=
      List.mem_append_right _ (List.mem_append_right _ List.mem_cons_self)
    refine ⟨?_, hnext', .inr fun i hi => ?_⟩
    · by_cases hearlier : ∃ y ∈ before, isTxn m (readTxn m t s x).tag y = true
      · rw [hsent, mapFirst_append_of_some _ hearlier]
        refine ⟨_, _, rfl, (mapFirst_length ..).trans hold, ?_, ?_⟩
        · rw [List.map_append, hshapes, List.map_append]
          rfl
        · rw [List.map_append, htags, List.map_singleton, htagx, hlength, range_tags]
      · have hbefore : ∀ y ∈ before, isTxn m (readTxn m t s x).tag y = false := fun y hy =>
          Bool.eq_false_iff.2 fun h => hearlier ⟨y, hy, h⟩
        have hreads : ∀ y ∈ reads, isTxn m (readTxn m t s x).tag y = false := fun y hy => by
          have hy := List.mem_map_of_mem (f := (·.tag)) hy
          rw [htags] at hy
          obtain ⟨i, hi, htag⟩ := List.mem_map.1 hy
          have hne : (y.tag == (readTxn m t s x).tag) = false := by
            rw [← htag, htagx]
            exact beq_false_of_ne (tags_differ (List.mem_range.1 hi) (by omega))
          rw [isTxn, hne, Bool.and_false]
        rw [hsent, mapFirst_append_of_none _ hbefore, mapFirst_last _ hreads (by simp [isTxn, readTxn])]
        refine ⟨_, _, rfl, hold, ?_, ?_⟩
        · rw [List.map_append, hshapes, List.map_append, List.map_singleton, shape_sentTxn rfl rfl rfl]
          rfl
        · rw [List.map_append, htags, List.map_singleton, show (sentTxn (readTxn m t s x) seq s.clock.up (readTxn m t s x)).tag =
            (readTxn m t s x).tag from rfl, htagx, hlength, range_tags]
    · rw [hsent]
      rw [hlength] at hi
      rcases Nat.lt_succ_iff_lt_or_eq.1 hi with hi | rfl
      · have hthere := ((hout i hi).append [readTxn m t s x]).send (readTxn m t s x) seq s.clock.up
        rwa [htxns, List.append_assoc] at hthere
      · obtain ⟨y, -, hy, hmem⟩ := mem_mapFirst_image (sentTxn (readTxn m t s x) seq s.clock.up)
          ⟨_, hin, show isTxn m (readTxn m t s x).tag (readTxn m t s x) = true by simp [isTxn, readTxn]⟩
        rw [isTxn, Bool.and_eq_true_iff, beq_iff_eq, beq_iff_eq] at hy
        exact ⟨_, hmem, hy.1, rfl, hy.2.trans htagx⟩
  · -- it waits
    have hwaits : (issueRead m t s x).lamio.txns = before ++ (reads ++ [readTxn m t s x]) := by
      rw [hissued, withIssued, if_neg (by rw [show (readTxn m t s x).dest = m from rfl, outTo_waiting]; exact hroom), htxns,
        List.append_assoc]
    refine ⟨⟨before, reads ++ [readTxn m t s x], hwaits, hold, ?_, ?_⟩, hnext', .inl ?_⟩
    · rw [List.map_append, hshapes, List.map_append]
      rfl
    · rw [List.map_append, htags, List.map_singleton, htagx, hlength, range_tags]
    · rw [hwaits, ← List.append_assoc, ← htxns, outTo_waiting]
      exact Nat.not_lt.1 hroom

theorem Reading.reads {tag : W16} {old : Nat} {done : List (Nat × Nat)} (h : Reading m t tag old done s) (l : List (Nat × Nat)) :
    Reading m t tag old (done ++ l) (l.foldl (issueRead m t) s) := by
  induction l generalizing s done with
  | nil => rwa [List.append_nil]
  | cons x l ih =>
    have hnext := ih (h.issue x)
    rwa [List.append_assoc] at hnext

/-- Reads issued stand behind the transactions before them, in their order. -/
theorem reads_txns (m : ModId) (t : TaskInst) (s : State) (l : List (Nat × Nat)) :
    ((l.foldl (issueRead m t) s).lamio.txns.drop s.lamio.txns.length).map shapeOf = l.map (readShape m t) := by
  obtain ⟨before, reads, htxns, hold, hshapes, -⟩ := ((Reading.start m t s).reads l).txns
  rw [htxns, ← hold, List.drop_left, hshapes, List.nil_append]

theorem asks_reads (m : ModId) (t : TaskInst) (l : List (Nat × Nat)) (s : State) : Asks s (l.foldl (issueRead m t) s) :=
  foldl_inv (p := Asks s) (fun u x h => h.trans (issueRead_spec m t u x).1) l rfl

/-! ### MOVE -/

/-- The reads of a range: 224 bytes at most each. -/
def rangeReads (x : Nat × Nat) : List (Nat × Nat) :=
  (List.range (ceilDiv x.2 224)).map fun i => (x.1 + 224 * i, ceilDiv (min 224 (x.2 - 224 * i)) 8)

theorem readFor_eq (m : ModId) (t : TaskInst) (off len : Nat) (s : State) :
    readFor m t off len s = (rangeReads (off, len)).foldl (issueRead m t) s := by
  unfold rangeReads
  rw [List.foldl_map]
  rfl

theorem readsFor_eq (m : ModId) (t : TaskInst) (l : List (Nat × Nat)) (s : State) :
    l.foldl (fun s x => readFor m t x.1 x.2 s) s = (l.flatMap rangeReads).foldl (issueRead m t) s := by
  rw [List.foldl_flatMap]
  exact congrArg (fun f => l.foldl f s) (funext fun s => funext fun x => readFor_eq m t x.1 x.2 s)

theorem startMove_from_peer {src dst : Operand} (h : startable s 0x10 r = some (t, g, k)) (hin : insOf s g k = [src])
    (hout : outsOf s g k = [dst]) (hm : m = BitVec.ofNat 16 (field k.param 0 2)) (hone : m ≠ 0xFFFF) (hpeer : m ≠ s.holding.moduleId) :
    startMove r s = (src.ranges.flatMap rangeReads).foldl (issueRead m t)
      (startRun r (moveWork r.unit (fun o => r.remote.getD o 0) src dst) t s) := by
  subst hm
  rw [← readsFor_eq, startMove, h]
  dsimp only
  rw [hin, hout]
  exact if_neg (by simp only [not_or]; exact ⟨hone, hpeer⟩)

theorem exec_move (r : TaskRun) (s : State) : exec (.move r) s = .next (advance (startMove r s)) := rfl

/-- MOVE from a peer: its run computes what the peer sends, and the reads stand for its ranges. -/
theorem move_from_peer {src dst : Operand} (h : startable s 0x10 r = some (t, g, k)) (hin : insOf s g k = [src])
    (hout : outsOf s g k = [dst]) (hm : m = BitVec.ofNat 16 (field k.param 0 2)) (hone : m ≠ 0xFFFF) (hpeer : m ≠ s.holding.moduleId) :
    let v := startMove r s
    (∃ u, findTask v r.step r.task = some u ∧ u.phase = .computed ∧
      u.cells = (dst.write fun i => src.value (fun o => r.remote.getD o 0) i).cells) ∧
    (v.lamio.txns.drop s.lamio.txns.length).map shapeOf = (src.ranges.flatMap rangeReads).map (readShape m t) := by
  obtain ⟨hfound, -, -, -⟩ := startable_found h
  obtain ⟨w, hw⟩ := runFrames_of_startable (w := moveWork r.unit (fun o => r.remote.getD o 0) src dst) rfl h
  have hstarted := startRun_started (r := r) hfound hw
  rw [startMove_from_peer h hin hout hm hone hpeer]
  have hasks := asks_reads m t (src.ranges.flatMap rangeReads)
    (startRun r (moveWork r.unit (fun o => r.remote.getD o 0) src dst) t s)
  have hreads := reads_txns m t (startRun r (moveWork r.unit (fun o => r.remote.getD o 0) src dst) t s)
    (src.ranges.flatMap rangeReads)
  rw [started_lamio hstarted] at hreads
  obtain ⟨⟨u, hu, hphase, -, -, -, -, hcells, -⟩, -⟩ := hstarted
  refine ⟨⟨u, ?_, hphase, hcells⟩, hreads⟩
  rw [hasks]
  exact hu

/-! ### The three rows -/

/-- What FINGERPRINT leaves in the exporter once it has formed the records of its step. -/
theorem formedExporter_spec (n : Nat) (s : State) :
    let x := s.exporter
    let v := formedExporter n s
    v.chain = stepPrint n s ∧ v.prevChain = x.chain ∧ v.chainStep = some n ∧
      (x.cfg.enable = true → x.acked < x.nextSeq → v.nextSeq = x.nextSeq + 1 ∧ v.retained = x.retained ++ [stepRecord n s]) ∧
      (x.cfg.enable = false → v.nextSeq = x.nextSeq ∧ v.retained = x.retained) := by
  intro x v
  simp only [v, formedExporter, x]
  cases hon : s.exporter.cfg.enable with
  | true =>
    refine ⟨rfl, rfl, rfl, fun _ hacked => ⟨rfl, ?_⟩, nofun⟩
    exact if_neg (Nat.not_le.2 hacked)
  | false => exact ⟨rfl, rfl, rfl, nofun, fun _ => ⟨rfl, rfl⟩⟩

theorem fingerprint_rows {c : CommitRecord} (h : startable s 0x12 r = some (t, g, k)) (hout : k.outView = [])
    (hc : s.votes.commits.find? (fun c => c.step == r.step) = some c) :
    let x := s.exporter
    let sections := (formSections r.step s).filter fun y => x.cfg.enable || y.kind != 1
    let len := 256 + (sections.map fun y => y.bytes.length).foldl (· + ·) 0
    let room := x.cfg.enable = false ∨ retainedBytes x + len ≤ stagingSize s
    let ready := (∀ c ∈ s.votes.commits, c.step = r.step → c.fingerprintDone = false) ∧ commitWorkDone s r.step = true
    (c.fingerprintDone = true → ∃ v, exec (.fingerprint r) s = .next (advance v) ∧ Started r {} t s v) ∧
    ((∀ x ∈ s.votes.commits, x.step = r.step → x.fingerprintDone = false) → commitWorkDone s r.step = false →
      exec (.fingerprint r) s = .next (advance s)) ∧
    (ready → room → s.holding.restore ≠ 3 →
      ∃ v, exec (.fingerprint r) s = .next (advance v) ∧
        v.exporter.chain = digestBits (sha256 (digestBytes x.chain ++ differenceRecords x.cfg.scope sections)) ∧
        v.exporter.prevChain = x.chain ∧ v.exporter.chainStep = some r.step ∧ v.mem.oldHomes = [] ∧
        (x.cfg.enable = true → x.acked < x.nextSeq → v.exporter.nextSeq = x.nextSeq + 1 ∧
          ∃ e, v.exporter.retained = x.retained ++ [e] ∧ e.seq = x.nextSeq ∧ e.step = r.step ∧ e.at_ = none ∧
            e.bytes = stepHeader s r.step x.nextSeq sections.length len x.first false v.exporter.chain x.chain ++
              sections.flatMap Section.bytes) ∧
        (x.cfg.enable = false → v.exporter.nextSeq = x.nextSeq ∧ v.exporter.retained = x.retained) ∧
        ∃ u, findTask v r.step r.task = some u ∧ u.phase = .computed ∧ u.unit = r.unit) ∧
    (ready → ¬ room → x.waiting ≠ some r.step → exec (.fingerprint r) s = .next (advance { s with
      exporter.waits := satTo (2 ^ 64 - 1) (x.waits + 1), exporter.waiting := some r.step })) := by
  intro x sections len room ready
  refine ⟨fun hdone => ?_, fun hnone hwork => ?_, fun ⟨hnone, hwork⟩ hroom hrestore => ?_, fun ⟨hnone, hwork⟩ hfull hnew => ?_⟩
  · obtain ⟨hstart, hstarted⟩ := fingerprint_done h hc hdone
    exact ⟨_, by rw [exec_fingerprint, hstart], hstarted⟩
  · have hform := formFingerprint_of_waiting hc hwork
    rw [exec_fingerprint, fingerprint_not_formed h hnone (by rw [hform]), hform]
  · obtain ⟨prints, hexporter, hhomes, hrun⟩ := fingerprint_formed h hc hout hnone hwork hroom hrestore
    obtain ⟨hchain, hprev, hstep, hon, hoff⟩ := formedExporter_spec r.step s
    refine ⟨_, exec_fingerprint r s, ?_⟩
    rw [hexporter]
    refine ⟨hchain, hprev, hstep, hhomes, fun henable hacked => ?_, hoff, hrun⟩
    obtain ⟨hseq, hkept⟩ := hon henable hacked
    refine ⟨hseq, stepRecord r.step s, hkept, rfl, rfl, rfl, ?_⟩
    dsimp only
    rw [hchain]
    rfl
  · have hform := formFingerprint_of_full hc (not_done_of_none hc hnone) hwork hfull hnew
    rw [exec_fingerprint, fingerprint_not_formed h hnone (by rw [hform]), hform]

/-- A row that nothing lets start changes nothing. -/
theorem commitRow_of_none {row : TaskRun → Instr} {kind : Nat} (hrow : (row, kind) ∈ ([(.fingerprint, 0x12), (.exportRecord, 0x11),
    (.move, 0x10)] : List ((TaskRun → Instr) × Nat))) (h : startable s kind r = none) : exec (row r) s = .next (advance s) := by
  simp only [List.mem_cons, Prod.mk.injEq, List.not_mem_nil, or_false] at hrow
  rcases hrow with ⟨rfl, rfl⟩ | ⟨rfl, rfl⟩ | ⟨rfl, rfl⟩
  · rw [exec_fingerprint, startFingerprint, h]
  · rw [exec_exportRecord, startExport, h]
  · rw [exec_move, startMove, h]

/-- Settles O56: FINGERPRINT by what its step's commit record says, EXPORT by the run it starts, MOVE by the reads it issues. -/
theorem commitAndMoveKinds : Obligations.CommitAndMoveKinds := by
  unfold Obligations.CommitAndMoveKinds
  intro r s
  refine ⟨fun row kind hrow => commitRow_of_none hrow, fun t g k => ⟨fun h hout c hc => fingerprint_rows h hout hc, fun h => ?_,
    fun src dst m h hin hout hm hone hpeer => ?_⟩⟩
  · obtain ⟨hstart, hstarted⟩ := startExport_started h
    exact ⟨_, by rw [exec_exportRecord, hstart], hstarted⟩
  · obtain ⟨⟨u, hu, hphase, hcells⟩, htxns⟩ := move_from_peer h hin hout hm hone hpeer
    obtain ⟨-, hstep, htask, -⟩ := startable_found h
    refine ⟨_, u, exec_move r s, hu, hphase, hcells, htxns.trans ?_⟩
    rw [List.map_flatMap]
    simp only [rangeReads, List.map_map]
    rw [← hstep, ← htask]
    rfl

end Sys2Proof.Proofs
end

section
/-!
PROOFS. Discovery of a holding: offers and answers, at its master and at a member (14 R311 to R313, 15 R328, 18 R383).
-/
namespace Sys2Proof.Proofs

open Sys2Proof Sys2Proof.Machine Sys2Proof.Safety Sys2Proof.Laws

section

variable {s t u : State}

/-! ### Offers to the neighbours -/

/-- The offer over one port, where the position it is cabled to lies in the holding. -/
def offerOver (hops : Nat) (s : State) (p : Nat) : State :=
  match neighbour s.holding s.holding.moduleId p with
  | some m =>
    if m != s.holding.moduleId && inHolding s.holding m && portUp s p then
      sendHedge m (.discoveryOffer ⟨m, BitVec.ofNat 128 (holdingConfig s.holding), hops, p⟩) s
    else s
  | none => s

theorem mails_offerOver (hops : Nat) (s : State) (p : Nat) : Mails s (offerOver hops s p) := by
  unfold offerOver
  split
  · split
    · exact mails_sendHedge ..
    · exact .refl s
  · exact .refl s

theorem mails_offerNeighbours (hops : Nat) (s : State) : Mails s (offerNeighbours hops s) :=
  mails_foldl (mails_offerOver hops) _ s

theorem offerOver_sent {p : Nat} {m : ModId} (hops : Nat) (hm : neighbour s.holding s.holding.moduleId p = some m)
    (hother : m ≠ s.holding.moduleId) (hin : inHolding s.holding m = true) (hup : portUp s p = true) :
    (m, Hedge.discoveryOffer ⟨m, BitVec.ofNat 128 (holdingConfig s.holding), hops, p⟩) ∈ (offerOver hops s p).out.hedge := by
  unfold offerOver
  rw [hm]
  dsimp only
  rw [if_pos (by simp [hother, hin, hup])]
  exact mem_sendHedge ..

theorem offerNeighbours_offers (hops : Nat) (s : State) : OffersNeighbours hops (offerNeighbours hops s) := by
  intro p m hp hm hother hin hup
  have hall := mails_offerNeighbours hops s
  rw [hall.frame] at hm hother hin hup
  have hholding : (offerNeighbours hops s).holding = s.holding := by rw [hall.frame]
  rw [hholding]
  refine sent_of_mails_foldl (mails_offerOver hops) (List.mem_range.2 hp) fun t ht => ?_
  have hheld : t.holding = s.holding := by rw [ht.frame]
  have hport : portUp t p = true := by rw [ht.frame]; exact hup
  have := offerOver_sent (s := t) hops (by rw [hheld]; exact hm) (by rw [hheld]; exact hother) (by rw [hheld]; exact hin) hport
  rwa [hheld] at this

/-- Offers stand when the position, the configuration and the ports stay, and no message is taken back. -/
theorem offersNeighbours_of_noted {hops : Nat} (h : OffersNeighbours hops t) (hn : Noted t u)
    (hsent : t.out.hedge ⊆ u.out.hedge) : OffersNeighbours hops u := by
  intro p m hp hm hother hin hup
  have hholding : u.holding = t.holding := by unfold Noted at hn; rw [hn]
  have hports : portUp u p = portUp t p := by unfold Noted at hn; rw [hn]; rfl
  rw [hholding] at hm hother hin ⊢
  exact hsent (h p m hp hm hother hin (by rw [← hports]; exact hup))

/-! ### Events that waited -/

theorem noted_flushEvents (s : State) : Noted s (flushEvents s) := by
  refine Noted.trans (t := { s with host.evWaiting := [] }) rfl (Noted.foldl (fun t e => ?_) _ _)
  dsimp only
  split
  · exact noted_postEvent ..
  · split
    · exact noted_sendHedge ..
    · exact rfl

theorem sent_flushEvents (s : State) : s.out.hedge ⊆ (flushEvents s).out.hedge := by
  unfold flushEvents
  refine foldl_inv (p := fun t : State => s.out.hedge ⊆ t.out.hedge) (fun t e ht => ?_) _ (List.Subset.refl _)
  dsimp only
  split
  · rwa [postEvent_sent]
  · split
    · exact List.Subset.trans ht (sent_sendHedge ..)
    · exact ht

/-! ### DISCOVER (14 R311, R312) -/

/-- The holding of a master that has just begun its discovery. -/
def discovering (s : State) : Holding :=
  { s.holding with
    state := 1, isMaster := true, moduleId := s.holding.masterId, members := 1, offender := 0
    answered := [(s.holding.masterId, 0)], discoverAt := s.clock.up, reoffered := [], hops := 0 }

/-- What a master has sent when its discovery has begun. -/
def discoveryBegun (s : State) : State := flushEvents (offerNeighbours 1 (measureHolding { s with holding := discovering s }))

theorem discoveryBegun_noted (s : State) :
    Noted (measureHolding { s with holding := discovering s }) (discoveryBegun s) := by
  refine Noted.trans ?_ (noted_flushEvents _)
  have hmails := mails_offerNeighbours 1 (measureHolding { s with holding := discovering s })
  unfold Noted
  rw [hmails.frame]

theorem discoveryBegun_offers (s : State) : OffersNeighbours 1 (discoveryBegun s) :=
  offersNeighbours_of_noted (offerNeighbours_offers 1 _) (noted_flushEvents _) (sent_flushEvents _)

theorem discover_of_candidate (hready : s.ready = true) (hcontrols : hostControls s = true)
    (hcandidate : masterCandidate s = true) : exec .discover s = .next (completeHolding (discoveryBegun s)) := by
  have h : exec .discover s = .next (discover s) := rfl
  rw [h, discover, if_pos (by simp [hready, hcontrols, hcandidate])]
  rfl

theorem completeHolding_eq (s : State) :
    completeHolding s = { s with holding.state := if allReached s.holding then 2 else s.holding.state } := by
  unfold completeHolding
  split <;> rfl

/-- The state of a holding has no part in its offers. -/
theorem offersNeighbours_completeHolding {hops : Nat} (h : OffersNeighbours hops t) :
    OffersNeighbours hops (completeHolding t) := by
  rw [completeHolding_eq]
  exact h

theorem discovers (hready : s.ready = true) (hcontrols : hostControls s = true) (hcandidate : masterCandidate s = true) :
    ∃ t, exec .discover s = .next t ∧
      t.holding = { s.holding with
        isMaster := true, moduleId := s.holding.masterId, members := 1, offender := 0
        answered := [(s.holding.masterId, 0)], discoverAt := s.clock.up, reoffered := [], hops := 0
        state := if allReached t.holding then 2 else 1 } ∧
      OffersNeighbours 1 t ∧
      t.security.meas = (extendMeas 5 (padTo 32 (leBytes 16 (holdingConfig s.holding))) s).security.meas ∧
      { t with holding := s.holding, security.meas := s.security.meas, host := s.host, sheaf := s.sheaf, out := s.out } = s := by
  refine ⟨_, discover_of_candidate hready hcontrols hcandidate, ?_,
    offersNeighbours_completeHolding (discoveryBegun_offers s), ?_, ?_⟩
  all_goals
    rw [completeHolding_eq]
    have hnoted := discoveryBegun_noted s
    unfold Noted at hnoted
    rw [hnoted]
  · rfl
  · rfl
  · rfl

theorem discover_of_not (h : s.ready = false ∨ hostControls s = false ∨ masterCandidate s = false) :
    exec .discover s = .next s := by
  have hexec : exec .discover s = .next (discover s) := rfl
  rw [hexec, discover, if_neg (by rcases h with h | h | h <;> simp [h])]

/-! ### Offers received (14 R312, log entry 41) -/

/-- A module that has received an offer, and has yet to act on it. -/
def heard (o : OfferMsg) (s : State) : State := traceReceive (BitVec.ofNat 16 (bits o.config.toNat 32 16)) 0x20 s

/-- From `s` to `t` only the time of the last hedge message and its trace have changed. -/
def Hears (s t : State) : Prop := ∃ x n, t = { s with sheaf := x, holding := { s.holding with lastHedge := n } }

theorem Hears.back (h : Hears s t) : { t with holding.lastHedge := s.holding.lastHedge, sheaf := s.sheaf } = s := by
  obtain ⟨x, n, rfl⟩ := h
  rfl

theorem hears_traceReceive (m : ModId) (k : Nat) (s : State) : Hears s (traceReceive m k s) := ⟨_, _, traceReceive_eq ..⟩

theorem heard_eq (o : OfferMsg) (s : State) :
    ∃ x, heard o s = { s with sheaf := x, holding := { s.holding with lastHedge := s.clock.up } } :=
  ⟨_, traceReceive_eq ..⟩

/-- The offer names the configuration that the module holds. -/
def keepsConfig (o : OfferMsg) (s : State) : Bool := holdingConfig s.holding == holdingConfig (withConfig o.config s.holding)

theorem keepsConfig_iff (o : OfferMsg) (s : State) :
    keepsConfig o s = true ↔ holdingConfig s.holding = holdingConfig (withConfig o.config s.holding) := beq_iff_eq

/-- What a module makes of an offer: `s` is the module as it was, `r` the module that has received it. -/
def actOnOffer (o : OfferMsg) (s r : State) : State :=
  if s.holding.isMaster && keepsConfig o s then
    (if s.holding.state = 1 ∧ o.position ≠ s.holding.moduleId then refuseHolding 5 o.position r else r)
  else if s.holding.isMaster || masterCandidate s then answerOffer o o.position true r
  else if s.assigned && keepsConfig o s && s.holding.moduleId != o.position then answerOffer o s.holding.moduleId false r
  else if s.holding.setupLock && !keepsConfig o s then r
  else takeOffer o r

theorem exec_discoveryOffer (h : s.ready = true) (o : OfferMsg) :
    exec (.discoveryOffer o) s = .next (actOnOffer o s (heard o s)) := by
  have hact : actOnOffer o (heard o s) (heard o s) = actOnOffer o s (heard o s) := by
    obtain ⟨x, hx⟩ := heard_eq o s
    rw [hx]
    rfl
  have hexec : exec (.discoveryOffer o) s = .next (if !s.ready then s else actOnOffer o (heard o s) (heard o s)) := rfl
  rw [hexec, hact, if_neg (by simp [h])]

theorem answerOffer_answers (o : OfferMsg) (held : ModId) (candidate : Bool) (s : State) :
    (answerOffer o held candidate (heard o s)).out.hedge =
      s.out.hedge ++ [(BitVec.ofNat 16 (bits o.config.toNat 32 16), .discoveryAnswer o.position held o.hops candidate)] ∧
    { answerOffer o held candidate (heard o s) with
      holding.lastHedge := s.holding.lastHedge, sheaf := s.sheaf, out := s.out } = s := by
  obtain ⟨x, hx⟩ := heard_eq o s
  unfold answerOffer
  rw [hx]
  refine ⟨sendHedge_sent .., ?_⟩
  rw [sendHedge_eq]

theorem refused_of_hears (h : Hears s t) (st : Nat) (position : ModId) : Refused st position s (refuseHolding st position t) := by
  obtain ⟨x, n, rfl⟩ := h
  exact ⟨rfl, rfl, rfl, rfl⟩

/-! ### An offer taken -/

/-- The module offers its own neighbours their IDs, within the hops allowed. -/
def offersOn (o : OfferMsg) (s : State) : State := if o.hops ≤ maxHops then offerNeighbours (o.hops + 1) s else s

theorem mails_offersOn (o : OfferMsg) (s : State) : Mails s (offersOn o s) := by
  unfold offersOn
  split
  · exact mails_offerNeighbours ..
  · exact .refl s

theorem offersOn_offers {o : OfferMsg} (h : o.hops ≤ 9) (s : State) : OffersNeighbours (o.hops + 1) (offersOn o s) := by
  unfold offersOn
  rw [if_pos (show o.hops ≤ maxHops from h)]
  exact offerNeighbours_offers (o.hops + 1) s

/-- The ID and the configuration of an offer, at a module that has not taken them before. -/
def settledIn (o : OfferMsg) (s : State) : State :=
  measureHolding { s with
    holding := { withConfig o.config s.holding with
      moduleId := o.position, hops := o.hops, discoverAt := s.clock.up, lastHedge := s.clock.up } }

/-- The offer is the one the module took in this discovery. -/
def takenBefore (o : OfferMsg) (s : State) : Bool :=
  s.assigned && s.holding.moduleId == o.position && keepsConfig o s && decide (s.clock.up < s.holding.discoverAt + discoveryBound)

theorem takenBefore_iff (o : OfferMsg) (s : State) : takenBefore o s = true ↔
    s.assigned = true ∧ s.holding.moduleId = o.position ∧
      holdingConfig s.holding = holdingConfig (withConfig o.config s.holding) ∧
      s.clock.up < s.holding.discoverAt + discoveryBound := by
  simp only [takenBefore, Bool.and_eq_true, beq_iff_eq, decide_eq_true_eq, keepsConfig_iff, and_assoc]

theorem takeOffer_first (o : OfferMsg) (h : takenBefore o s = false) :
    takeOffer o s = flushEvents (offersOn o (answerOffer o o.position false (settledIn o s))) :=
  if_neg (Bool.eq_false_iff.1 h)

theorem takeOffer_again (o : OfferMsg) (h : takenBefore o s = true) : takeOffer o s =
    if o.hops < s.holding.hops then
      offersOn o (answerOffer o o.position false { s with holding.hops := min s.holding.hops o.hops })
    else answerOffer o o.position false { s with holding.hops := min s.holding.hops o.hops } := by
  refine (if_pos h).trans ?_
  unfold offersOn
  by_cases hn : o.hops < s.holding.hops <;> by_cases hm : o.hops ≤ maxHops <;> simp [hn, hm]

/-- The messages of an offer taken for the first time leave the module as it settled in. -/
theorem takeOffer_first_spec {o : OfferMsg} (h : takenBefore o s = false) :
    Noted (settledIn o s) (takeOffer o s) ∧
      (BitVec.ofNat 16 (bits o.config.toNat 32 16), Hedge.discoveryAnswer o.position o.position o.hops false) ∈
        (takeOffer o s).out.hedge ∧
      (o.hops ≤ 9 → OffersNeighbours (o.hops + 1) (takeOffer o s)) := by
  rw [takeOffer_first o h]
  have hanswer : (BitVec.ofNat 16 (bits o.config.toNat 32 16), Hedge.discoveryAnswer o.position o.position o.hops false) ∈
      (answerOffer o o.position false (settledIn o s)).out.hedge := mem_sendHedge ..
  have hnoted : Noted (settledIn o s) (answerOffer o o.position false (settledIn o s)) := noted_sendHedge ..
  generalize answerOffer o o.position false (settledIn o s) = r at hanswer hnoted
  have hon := mails_offersOn o r
  refine ⟨hnoted.trans (Noted.trans ?_ (noted_flushEvents _)), sent_flushEvents _ (hon.sent hanswer), fun hh => ?_⟩
  · unfold Noted
    rw [hon.frame]
  · exact offersNeighbours_of_noted (offersOn_offers hh r) (noted_flushEvents _) (sent_flushEvents _)

/-- An offer taken again is answered, and offered on when it came over fewer hops. -/
theorem takeOffer_again_spec {o : OfferMsg} (h : takenBefore o s = true) :
    Mails { s with holding.hops := min s.holding.hops o.hops } (takeOffer o s) ∧
      (BitVec.ofNat 16 (bits o.config.toNat 32 16), Hedge.discoveryAnswer o.position o.position o.hops false) ∈
        (takeOffer o s).out.hedge ∧
      (o.hops < s.holding.hops → o.hops ≤ 9 → OffersNeighbours (o.hops + 1) (takeOffer o s)) := by
  rw [takeOffer_again o h]
  generalize hs : { s with holding.hops := min s.holding.hops o.hops } = v
  have hanswer : (BitVec.ofNat 16 (bits o.config.toNat 32 16), Hedge.discoveryAnswer o.position o.position o.hops false) ∈
      (answerOffer o o.position false v).out.hedge := mem_sendHedge ..
  have hmails : Mails v (answerOffer o o.position false v) := mails_sendHedge ..
  generalize answerOffer o o.position false v = r at hanswer hmails
  have hon := mails_offersOn o r
  split
  · exact ⟨hmails.trans hon, hon.sent hanswer, fun _ hh => offersOn_offers hh r⟩
  next hfar => exact ⟨hmails, hanswer, fun hnear => absurd hnear hfar⟩

end

end Sys2Proof.Proofs
end

section
/-!
PROOFS. The rows of discovery settled: offers, answers, refusals and time-outs (14 R311 to R313, 15 R328, 18 R383).
-/
namespace Sys2Proof.Proofs

open Sys2Proof Sys2Proof.Machine Sys2Proof.Safety Sys2Proof.Laws

section

variable {s t : State} {o : OfferMsg}

/-! ### DISCOVERY_OFFER -/

/-- A master offered the configuration of its own holding. -/
theorem offer_to_master (hready : s.ready = true) (hmaster : s.holding.isMaster = true) (hsame : keepsConfig o s = true) :
    ∃ t, exec (.discoveryOffer o) s = .next t ∧
      (s.holding.state = 1 ∧ o.position ≠ s.holding.moduleId → Refused 5 o.position s t) ∧
      (¬ (s.holding.state = 1 ∧ o.position ≠ s.holding.moduleId) →
        { t with holding.lastHedge := s.holding.lastHedge, sheaf := s.sheaf } = s) := by
  refine ⟨_, exec_discoveryOffer hready o, ?_⟩
  unfold actOnOffer
  rw [if_pos (by simp [hmaster, hsame])]
  by_cases h : s.holding.state = 1 ∧ o.position ≠ s.holding.moduleId
  · rw [if_pos h]
    exact ⟨fun _ => refused_of_hears (hears_traceReceive ..) 5 o.position, fun hn => absurd h hn⟩
  · rw [if_neg h]
    exact ⟨fun hp => absurd hp h, fun _ => (hears_traceReceive ..).back⟩

/-- A master of another holding, and a candidate, answer as candidates. -/
theorem offer_to_candidate (hready : s.ready = true)
    (h : (s.holding.isMaster = true ∧ keepsConfig o s = false) ∨ (s.holding.isMaster = false ∧ masterCandidate s = true)) :
    exec (.discoveryOffer o) s = .next (answerOffer o o.position true (heard o s)) := by
  rw [exec_discoveryOffer hready]
  unfold actOnOffer
  rcases h with ⟨hmaster, hother⟩ | ⟨hmember, hcandidate⟩
  · rw [if_neg (by simp [hother]), if_pos (by simp [hmaster])]
  · rw [if_neg (by simp [hmember]), if_pos (by simp [hcandidate])]

section

variable (hready : s.ready = true) (hmember : s.holding.isMaster = false) (hcandidate : masterCandidate s = false)
include hready hmember hcandidate

theorem offer_to_other (ha : s.assigned = true) (hsame : keepsConfig o s = true) (hid : s.holding.moduleId ≠ o.position) :
    exec (.discoveryOffer o) s = .next (answerOffer o s.holding.moduleId false (heard o s)) := by
  rw [exec_discoveryOffer hready]
  unfold actOnOffer
  rw [if_neg (by simp [hmember]), if_neg (by simp [hmember, hcandidate]), if_pos (by simp [ha, hsame, hid])]

theorem offer_to_locked (hlock : s.holding.setupLock = true) (hother : keepsConfig o s = false) :
    exec (.discoveryOffer o) s = .next (heard o s) := by
  rw [exec_discoveryOffer hready]
  unfold actOnOffer
  rw [if_neg (by simp [hmember]), if_neg (by simp [hmember, hcandidate]), if_neg (by simp [hother]),
    if_pos (by simp [hlock, hother])]

variable (htakes : ¬ (s.assigned = true ∧ keepsConfig o s = true ∧ s.holding.moduleId ≠ o.position))
include htakes

theorem offer_taken (hlock : ¬ (s.holding.setupLock = true ∧ keepsConfig o s = false)) :
    exec (.discoveryOffer o) s = .next (takeOffer o (heard o s)) := by
  rw [exec_discoveryOffer hready]
  unfold actOnOffer
  rw [if_neg (by simp [hmember]), if_neg (by simp [hmember, hcandidate]), if_neg (by simpa [and_assoc] using htakes),
    if_neg (by simpa using hlock)]

end

theorem takenBefore_heard (o : OfferMsg) (s : State) : takenBefore o (heard o s) = takenBefore o s := by
  obtain ⟨x, hx⟩ := heard_eq o s
  rw [hx]
  rfl

/-- A module that takes an offer for the first time. -/
theorem first_offer_spec (h : takenBefore o s = false) :
    (takeOffer o (heard o s)).holding = { withConfig o.config s.holding with
      moduleId := o.position, hops := o.hops, discoverAt := s.clock.up, lastHedge := s.clock.up } ∧
    (BitVec.ofNat 16 (bits o.config.toNat 32 16), Hedge.discoveryAnswer o.position o.position o.hops false) ∈
      (takeOffer o (heard o s)).out.hedge ∧
    (o.hops ≤ 9 → OffersNeighbours (o.hops + 1) (takeOffer o (heard o s))) ∧
    (takeOffer o (heard o s)).security.meas =
      (extendMeas 5 (padTo 32 (leBytes 16 (holdingConfig (withConfig o.config s.holding)))) s).security.meas ∧
    { takeOffer o (heard o s) with
      holding := s.holding, security.meas := s.security.meas, host := s.host, sheaf := s.sheaf, out := s.out } = s := by
  obtain ⟨hnoted, hanswer, hoffers⟩ := takeOffer_first_spec (s := heard o s) (by rw [takenBefore_heard]; exact h)
  unfold Noted at hnoted
  refine ⟨?_, hanswer, hoffers, ?_, ?_⟩
  all_goals
    obtain ⟨x, hx⟩ := heard_eq o s
    rw [hnoted, hx]
  · rfl
  · rfl
  · rfl

/-- A module that is offered again what it took. -/
theorem offer_again_spec (h : takenBefore o s = true) :
    (takeOffer o (heard o s)).holding.hops = min s.holding.hops o.hops ∧
    (BitVec.ofNat 16 (bits o.config.toNat 32 16), Hedge.discoveryAnswer o.position o.position o.hops false) ∈
      (takeOffer o (heard o s)).out.hedge ∧
    (o.hops < s.holding.hops → o.hops ≤ 9 → OffersNeighbours (o.hops + 1) (takeOffer o (heard o s))) ∧
    { takeOffer o (heard o s) with
      holding.hops := s.holding.hops, holding.lastHedge := s.holding.lastHedge, sheaf := s.sheaf, out := s.out } = s := by
  obtain ⟨hmails, hanswer, hoffers⟩ := takeOffer_again_spec (s := heard o s) (by rw [takenBefore_heard]; exact h)
  have hframe := hmails.frame
  refine ⟨?_, hanswer, ?_, ?_⟩
  · obtain ⟨x, hx⟩ := heard_eq o s
    rw [hframe, hx]
  · obtain ⟨x, hx⟩ := heard_eq o s
    intro hnear
    exact hoffers (by rw [hx]; exact hnear)
  · obtain ⟨x, hx⟩ := heard_eq o s
    rw [hframe, hx]

/-! ### DISCOVERY_ANSWER -/

/-- The module is the master of the holding that the position lies in. -/
def countsAnswers (s : State) (position : ModId) : Bool :=
  s.ready && s.holding.isMaster && s.assigned && inHolding s.holding position

theorem countsAnswers_iff (s : State) (position : ModId) : countsAnswers s position = true ↔
    s.ready = true ∧ s.holding.isMaster = true ∧ s.assigned = true ∧ inHolding s.holding position = true := by
  simp only [countsAnswers, Bool.and_eq_true, and_assoc]

theorem not_countsAnswers (s : State) (position : ModId) :
    (!s.ready || !s.holding.isMaster || !s.assigned || !inHolding s.holding position) = !countsAnswers s position := by
  simp [countsAnswers]

/-- What a master makes of an answer: `s` is the master as it was, `r` the one that has received it. -/
def actOnAnswer (position held : ModId) (hops : Nat) (candidate : Bool) (s r : State) : State :=
  if s.holding.state = 1 then
    if candidate then refuseHolding 4 position r
    else if held != position then refuseHolding 5 position r
    else completeHolding (noteAnswer position hops r)
  else if vacant s position && !candidate && held == position then
    let r := noteAnswer position hops r
    if s.holding.state = 3 then completeHolding r else r
  else r

theorem exec_discoveryAnswer_of_not {position held : ModId} {hops : Nat} {candidate : Bool}
    (h : countsAnswers s position = false) : exec (.discoveryAnswer position held hops candidate) s = .next s := by
  have hexec : exec (.discoveryAnswer position held hops candidate) s = .next (takeAnswer position held hops candidate s) := rfl
  rw [hexec, takeAnswer, not_countsAnswers, if_pos (by simp [h])]

theorem exec_discoveryAnswer {position held : ModId} {hops : Nat} {candidate : Bool} (h : countsAnswers s position = true) :
    exec (.discoveryAnswer position held hops candidate) s =
      .next (actOnAnswer position held hops candidate s (traceReceive held 0x21 s)) := by
  have hact : ∀ r, r = traceReceive held 0x21 s →
      actOnAnswer position held hops candidate r r = actOnAnswer position held hops candidate s r := by
    intro r hr
    obtain ⟨x, n, hx⟩ := hr ▸ hears_traceReceive held 0x21 s
    rw [hx]
    rfl
  have hexec : exec (.discoveryAnswer position held hops candidate) s =
      .next (if !s.ready || !s.holding.isMaster || !s.assigned || !inHolding s.holding position then s
        else actOnAnswer position held hops candidate (traceReceive held 0x21 s) (traceReceive held 0x21 s)) := rfl
  rw [hexec, not_countsAnswers, if_neg (by simp [h]), hact _ rfl]

/-- An answer that fits is counted with the least hops of its position, and may complete the holding. -/
structure AnswerNoted (position : ModId) (hops : Nat) (s t : State) : Prop where
  answered : t.holding.answered = (s.holding.answered.filter fun a => a.1 != position) ++
    [(position, ((s.holding.answered.filter fun a => a.1 == position).map (·.2)).foldl min hops)]
  members : t.holding.members = satTo 64 ((s.holding.answered.filter fun a => a.1 != position) ++
    [(position, ((s.holding.answered.filter fun a => a.1 == position).map (·.2)).foldl min hops)]).length
  state : t.holding.state = (if (s.holding.state = 1 ∨ s.holding.state = 3) ∧ allReached t.holding then 2 else s.holding.state)
  rest : { t with
    holding.answered := s.holding.answered, holding.members := s.holding.members, holding.state := s.holding.state
    holding.lastHedge := s.holding.lastHedge, sheaf := s.sheaf } = s

theorem answerNoted_completes (h : Hears s t) (hopen : s.holding.state = 1 ∨ s.holding.state = 3) (position : ModId) (hops : Nat) :
    AnswerNoted position hops s (completeHolding (noteAnswer position hops t)) := by
  obtain ⟨x, n, rfl⟩ := h
  rw [completeHolding_eq]
  refine ⟨rfl, rfl, ?_, rfl⟩
  simp only [hopen, true_and]
  rfl

theorem answerNoted_stays (h : Hears s t) (hopen : ¬ (s.holding.state = 1 ∨ s.holding.state = 3)) (position : ModId) (hops : Nat) :
    AnswerNoted position hops s (noteAnswer position hops t) := by
  obtain ⟨x, n, rfl⟩ := h
  exact ⟨rfl, rfl, by simp only [hopen, false_and, if_false]; rfl, rfl⟩

/-- While the discovery runs, a candidate and a module of another ID refuse the holding. -/
theorem answer_while_discovering {r : State} (h : Hears s r) (hstate : s.holding.state = 1) (position held : ModId) (hops : Nat)
    (candidate : Bool) :
    (candidate = true → Refused 4 position s (actOnAnswer position held hops candidate s r)) ∧
    (candidate = false → held ≠ position → Refused 5 position s (actOnAnswer position held hops candidate s r)) ∧
    (candidate = false ∧ held = position → AnswerNoted position hops s (actOnAnswer position held hops candidate s r)) := by
  unfold actOnAnswer
  rw [if_pos hstate]
  refine ⟨fun hc => ?_, fun hc hid => ?_, fun ⟨hc, hid⟩ => ?_⟩
  · rw [if_pos hc]
    exact refused_of_hears h ..
  · rw [if_neg (by simp [hc]), if_pos (by simpa using hid)]
    exact refused_of_hears h ..
  · rw [if_neg (by simp [hc]), if_neg (by simp [hid])]
    exact answerNoted_completes h (.inl hstate) ..

/-- Later, only the answer of a position that was vacant is counted. -/
theorem answer_later {r : State} (h : Hears s r) (hstate : s.holding.state ≠ 1) (position held : ModId) (hops : Nat)
    (candidate : Bool) :
    (vacant s position = true → candidate = false ∧ held = position →
      AnswerNoted position hops s (actOnAnswer position held hops candidate s r)) ∧
    (¬ (vacant s position = true ∧ candidate = false ∧ held = position) →
      Hears s (actOnAnswer position held hops candidate s r)) := by
  unfold actOnAnswer
  rw [if_neg hstate]
  refine ⟨fun hv ⟨hc, hid⟩ => ?_, fun hnot => ?_⟩
  · rw [if_pos (by simp [hv, hc, hid])]
    by_cases hthree : s.holding.state = 3
    · dsimp only
      rw [if_pos hthree]
      exact answerNoted_completes h (.inr hthree) ..
    · dsimp only
      rw [if_neg hthree]
      exact answerNoted_stays h (by simp [hstate, hthree]) ..
  · rw [if_neg (by simpa [and_assoc] using hnot)]
    exact h

/-! ### The judgement and the offers repeated -/

theorem discoveryTimeout_due (hmaster : s.holding.isMaster = true) (hstate : s.holding.state = 1)
    (hlate : s.holding.discoverAt + discoveryBound ≤ s.clock.up) : exec .discoveryTimeout s = .next
      (match s.holding.answered.find? fun a => decide (9 < a.2) with
        | some a => refuseHolding 6 a.1 s
        | none => { s with holding.state := if allReached s.holding then 2 else 3 }) := by
  have h : exec .discoveryTimeout s = .next (judgeHolding s) := rfl
  rw [h, judgeHolding, if_pos (by simp [hmaster, hstate, hlate])]
  rfl

theorem discoveryTimeout_of_not (h : ¬ (s.holding.isMaster = true ∧ s.holding.state = 1 ∧
    s.holding.discoverAt + discoveryBound ≤ s.clock.up)) : exec .discoveryTimeout s = .next s := by
  have hexec : exec .discoveryTimeout s = .next (judgeHolding s) := rfl
  rw [hexec, judgeHolding, if_neg (by simpa [and_assoc] using h)]

/-- The time of the last offer to a position. -/
def lastOffer (s : State) (position : ModId) : Nat :=
  ((s.holding.reoffered.find? fun r => r.1 == position).map (·.2)).getD s.holding.discoverAt

/-- The offer to a position is to be repeated. -/
def reofferDue (s : State) (position : ModId) : Prop :=
  s.ready = true ∧ s.holding.isMaster = true ∧ s.assigned = true ∧ (s.holding.state = 2 ∨ s.holding.state = 3) ∧
    vacant s position = true ∧ lastOffer s position + discoveryBound ≤ s.clock.up

theorem reoffer_of_due {position : ModId} (h : reofferDue s position) : ∃ t, exec (.discoveryReoffer position) s = .next t ∧
    t.holding.reoffered = (s.holding.reoffered.filter fun r => r.1 != position) ++ [(position, s.clock.up)] ∧
    t.out.hedge = s.out.hedge ++ [(position, .discoveryOffer ⟨position, BitVec.ofNat 128 (holdingConfig s.holding), 1, 0⟩)] ∧
    { t with holding.reoffered := s.holding.reoffered, sheaf := s.sheaf, out := s.out } = s := by
  obtain ⟨hready, hmaster, ha, hstate, hvacant, hlate⟩ := h
  unfold lastOffer at hlate
  refine ⟨reoffer position s, rfl, ?_⟩
  unfold reoffer
  dsimp only
  rw [if_pos (by simpa [hready, hmaster, ha, hvacant, hlate] using hstate)]
  refine ⟨?_, sendHedge_sent .., ?_⟩ <;> rw [sendHedge_eq]

theorem reoffer_of_not {position : ModId} (h : ¬ reofferDue s position) : exec (.discoveryReoffer position) s = .next s := by
  have hexec : exec (.discoveryReoffer position) s = .next (reoffer position s) := rfl
  rw [hexec, reoffer]
  dsimp only
  rw [if_neg (by simpa [reofferDue, lastOffer, and_assoc] using h)]

end

/-- Settles O47: each row is what `actOnOffer`, `actOnAnswer`, the judgement and the repeated offer do in its case. -/
theorem discoveryRows : Obligations.DiscoveryRows := by
  intro s
  refine ⟨fun hr hh hc => discovers hr hh hc, fun h => discover_of_not h, ?_, fun hr o => ?_, ?_, ⟨?_, ?_⟩, fun position => ?_⟩
  · intro hready o
    dsimp only
    simp only [← keepsConfig_iff]
    refine ⟨fun hm hsame => offer_to_master hready hm hsame, fun h => ?_, fun hm hc ha hsame hid => ?_, ?_, ?_, ?_⟩
    · exact ⟨_, offer_to_candidate hready (by simpa using h), answerOffer_answers ..⟩
    · exact ⟨_, offer_to_other hready hm hc ha hsame hid, answerOffer_answers ..⟩
    · rintro ⟨hm, hc, -⟩ ⟨hlock, hother⟩
      exact ⟨_, offer_to_locked hready hm hc hlock (by simpa using hother), (hears_traceReceive ..).back⟩
    · rintro ⟨hm, hc, htakes⟩ hlock hagain
      refine ⟨_, offer_taken hready hm hc htakes (by simpa using hlock), first_offer_spec ?_⟩
      rwa [keepsConfig_iff, ← takenBefore_iff, Bool.not_eq_true] at hagain
    · rintro ⟨hm, hc, htakes⟩ hlock hagain
      refine ⟨_, offer_taken hready hm hc htakes (by simpa using hlock), offer_again_spec ?_⟩
      rwa [keepsConfig_iff, ← takenBefore_iff] at hagain
  · have h : exec (.discoveryOffer o) s = .next (receiveOffer o s) := rfl
    rw [h, receiveOffer, if_pos (by simp [hr])]
  · intro position held hops candidate
    dsimp only
    rw [← countsAnswers_iff]
    refine ⟨fun h => exec_discoveryAnswer_of_not (by simpa using h), fun h hstate => ⟨_, exec_discoveryAnswer h, ?_⟩,
      fun h hstate => ⟨_, exec_discoveryAnswer h, ?_⟩⟩
    · obtain ⟨hfour, hfive, hnoted⟩ :=
        answer_while_discovering (hears_traceReceive held 0x21 s) hstate position held hops candidate
      exact ⟨hfour, hfive, fun hfits => have h := hnoted hfits; ⟨h.answered, h.members, h.state, h.rest⟩⟩
    · obtain ⟨hnoted, hstays⟩ := answer_later (hears_traceReceive held 0x21 s) hstate position held hops candidate
      exact ⟨fun hv hfits => have h := hnoted hv hfits; ⟨h.answered, h.members, h.state, h.rest⟩, fun h => (hstays h).back⟩
  · rintro ⟨hm, hstate, hlate⟩
    have h := discoveryTimeout_due hm hstate hlate
    exact ⟨fun a ha => by rw [h, ha]; rfl, fun ha => by rw [h, ha]⟩
  · exact fun h => discoveryTimeout_of_not h
  · exact ⟨fun h => reoffer_of_due h, fun h => reoffer_of_not h⟩

end Sys2Proof.Proofs
end

section
/-!
PROOFS. What a module has told and noted stands: hedge messages stay sent in their order, events that wait stay waiting, and a module
known to be lost stays so. The operations that every family shares, the links, the task runs and the halts. One lemma per operation;
one that tells and notes nothing, and calls nothing that does, has no lemma of its own and is unfolded.
-/
namespace Sys2Proof.Proofs

open Sys2Proof Sys2Proof.Machine Sys2Proof.Laws

/-- What a module has told and noted by some time: the hedge messages sent, the events that wait, the modules known to be lost. -/
structure Notes where
  sent    : List (ModId × Hedge)
  waiting : List (W16 × ModId × Pos × W64 × W64)
  lost    : List ModId

/-- The notes of a state. -/
def notesOf (s : State) : Notes := ⟨s.out.hedge, s.host.evWaiting, s.holding.lost⟩

/-- `RecallsParts` of the three parts of a state that hold its notes. -/
structure RecallsParts (c : Notes) (sent : List (ModId × Hedge)) (waiting : List (W16 × ModId × Pos × W64 × W64))
    (lost : List ModId) : Prop where
  sent    : c.sent <+: sent
  waiting : c.waiting ⊆ waiting
  lost    : c.lost ⊆ lost

/-- The state still tells and notes what stands in `c`. -/
abbrev Recalls (c : Notes) (s : State) : Prop := RecallsParts c s.out.hedge s.host.evWaiting s.holding.lost

theorem recalls_notesOf (s : State) : Recalls (notesOf s) s := ⟨List.prefix_rfl, List.Subset.refl _, List.Subset.refl _⟩

section

variable {c : Notes} {s : State} (h : Recalls c s)
include h

theorem Recalls.foldl {α : Type} {g : State → α → State} (hg : ∀ t x, Recalls c t → Recalls c (g t x)) (l : List α) :
    Recalls c (l.foldl g s) := foldl_inv hg l h

theorem Recalls.of_prepares {t : State} (p : Prepares s t) : Recalls c t := by rw [p]; exact h

theorem Recalls.of_publishes {t : State} (p : Publishes s t) : Recalls c t := by rw [p]; exact h

theorem Recalls.of_relocates {t : State} (p : Relocates s t) : Recalls c t := by rw [p]; exact h

theorem Recalls.of_touched {t : State} (p : Touched s t) : Recalls c t := by
  obtain ⟨-, -, -, hrest⟩ := p
  rwa [← hrest] at h

/-! ### Notices and host writes -/

theorem Recalls.trace (source type : Nat) (seedbed : Bool) (unit : Nat) (task : W32) (data : Nat) :
    Recalls c (trace source type seedbed unit task data s) := by rw [trace_eq]; exact h

theorem Recalls.sheafTrigger (kind code : Nat) : Recalls c (sheafTrigger kind code s) := by rw [sheafTrigger_eq]; exact h

theorem Recalls.hostWrite (addr : Nat) (bs : Bytes) (poison : Bool) : Recalls c (hostWrite addr bs poison s) := by
  unfold Machine.hostWrite
  split <;> exact h

theorem Recalls.sendHedge (dest : ModId) (m : Hedge) : Recalls c (sendHedge dest m s) := by
  rw [sendHedge_eq]
  exact ⟨h.sent.trans (List.prefix_append ..), h.waiting, h.lost⟩

theorem Recalls.postEvent (code : Nat) (module : ModId) (pos : Pos) (ts detail : W64) :
    Recalls c (postEvent code module pos ts detail s) := by
  refine ⟨?_, List.Subset.trans h.waiting (postEvent_host ..).1, ?_⟩
  · rw [postEvent_sent]
    exact h.sent
  · rw [postEvent_eq]
    exact h.lost

theorem Recalls.deliverEvent (code : Nat) (pos : Pos) (detail : W64) : Recalls c (deliverEvent code pos detail s) := by
  unfold Machine.deliverEvent
  dsimp only
  split
  · exact Recalls.postEvent h ..
  · split
    · exact Recalls.sendHedge h ..
    · exact ⟨h.sent, List.subset_append_of_subset_left _ h.waiting, h.lost⟩

theorem Recalls.raise (code detail : Nat) : Recalls c (raise code detail s) := by
  obtain ⟨x, hx⟩ := raiseAt_delivers false code s.run.head detail s
  rw [show Machine.raise code detail s = _ from hx]
  exact Recalls.deliverEvent (s := { s with sheaf := x }) h ..

/-! ### Memory -/

theorem Recalls.finishMove (page : Nat) : Recalls c (finishMove page s) := h.of_publishes (accounts_finishMove ..).publishes

theorem Recalls.flipFresh (step : Nat) (task : W32) : Recalls c (flipFresh step task s) :=
  h.of_publishes (accounts_flipFresh ..).publishes

theorem Recalls.touchCells (cs : Cells) : Recalls c (touchCells cs s) := h.of_touched (touchCells_touched ..)

/-! ### Completions and jobs -/

theorem Recalls.completeLater (op : DescOp) (d : Desc) (status detail : Nat) :
    Recalls c (completeLater op d status detail s) := by
  unfold Machine.completeLater Machine.completeWith
  grind [Machine.setSub, Machine.accessFor, Machine.setCompl, ← Recalls.trace]

theorem Recalls.finishJobs (p : Job → Bool) (status detail : Nat) : Recalls c (finishJobs p status detail s) := by
  unfold Machine.finishJobs
  grind [← Recalls.foldl, Machine.sendResult, ← Recalls.sendHedge, ← Recalls.completeLater]

theorem Recalls.queueReport (n status : Nat) : Recalls c (queueReport n status s) := by
  unfold Machine.queueReport
  grind [Machine.setCompl]

/-! ### Findings -/

theorem Recalls.finding (step bit : Nat) : Recalls c (finding step bit s) := h.of_publishes (publishes_finding ..)

theorem Recalls.findMemberLost : Recalls c (findMemberLost s) := by
  unfold Machine.findMemberLost
  split
  · exact h
  · exact h.finding ..

theorem Recalls.holdRun (again : Bool) : Recalls c (holdRun again s) := by
  unfold Machine.holdRun
  grind [← Recalls.sendHedge]

/-! ### Packets on the links -/

theorem Recalls.sendFlit (p t : Nat) (q : Packet) (corrupt : Option (Nat × Byte)) : Recalls c (sendFlit p t q corrupt s) := by
  unfold Machine.sendFlit
  split <;> exact h

theorem Recalls.transmit (p t : Nat) (q : Packet) : Recalls c (transmit p t q s) := by
  unfold Machine.transmit
  grind [Machine.countStone, ← Recalls.sendFlit]

theorem Recalls.releaseHeld (p vc : Nat) : Recalls c (releaseHeld p vc s) := by
  unfold Machine.releaseHeld
  grind [← Recalls.foldl, ← Recalls.sendFlit]

theorem Recalls.sendPacket (t : Nat) (reverse : Bool) (q : Packet) : Recalls c (sendPacket t reverse q s) := by
  unfold Machine.sendPacket
  split
  · split <;> exact h
  next p detour _ =>
    extract_lets q s₁ held s₂
    have h₁ : Recalls c s₁ := by unfold s₁; split <;> exact h
    have h₂ : Recalls c s₂ := Recalls.transmit h₁ ..
    split
    · exact Recalls.releaseHeld h₂ ..
    · exact h₂

theorem Recalls.respond (t : Nat) (req : Packet) (status : Nat) (poison : Bool) (data : Bytes) :
    Recalls c (respond t req status poison data s) := by
  unfold Machine.respond
  grind [← Recalls.sendPacket, Machine.takeOrder]

theorem Recalls.refuseReads : Recalls c (refuseReads s) := by
  unfold Machine.refuseReads
  grind [← Recalls.foldl, ← Recalls.respond]

/-! ### Task runs and moves -/

theorem Recalls.giveSeqs (ts : List TaskInst) : Recalls c (giveSeqs ts s).1 := h.of_prepares (prepares_giveSeqs ..)

theorem Recalls.addInstances (n : Nat) (new : List TaskInst) : Recalls c (addInstances n new s) :=
  h.of_prepares (prepares_addInstances ..)

theorem Recalls.offerCandidate (t : TaskInst) : Recalls c (offerCandidate t s) := h.of_publishes (publishes_offerCandidate ..)

theorem Recalls.publish (t : TaskInst) : Recalls c (publish t s) := h.of_publishes (publishes_publish ..)

theorem Recalls.endSolves : Recalls c (endSolves s) := h.of_publishes (publishes_endSolves ..)

theorem Recalls.countDiscarded (t : TaskInst) : Recalls c (countDiscarded t s) := by
  unfold Machine.countDiscarded
  grind [← Recalls.foldl, Machine.countAs]

theorem Recalls.discardRuns (p : TaskInst → Bool) (phase : Phase) : Recalls c (discardRuns p phase s) := by
  unfold Machine.discardRuns
  grind [← Recalls.foldl, Machine.freeFresh, ← Recalls.countDiscarded, Machine.traceTask, ← Recalls.trace]

theorem Recalls.sow : Recalls c (sow s) := h.of_prepares (prepares_sow ..)

theorem Recalls.stopMoves : Recalls c (stopMoves s) := by
  unfold Machine.stopMoves
  refine Recalls.foldl h (fun t x ht => ?_) _
  split
  · exact ht.of_relocates (relocates_freeSource ..)
  · split
    · exact ht.of_relocates (relocates_abandonMove ..)
    · exact ht

theorem Recalls.rotateRegion (window : List Nat) (region n : Nat) : Recalls c (rotateRegion window region n s) := by
  induction n generalizing s with
  | zero => exact h
  | succ n ih =>
    unfold Machine.rotateRegion
    split
    · exact h
    · exact ih h

theorem Recalls.rotationSelect : Recalls c (rotationSelect s) := by
  unfold Machine.rotationSelect
  grind [← Recalls.foldl, ← Recalls.rotateRegion]

/-! ### Halts -/

theorem Recalls.acknowledge (kind : Nat) (ident pos : W64) : Recalls c (acknowledge kind ident pos s) := by
  unfold Machine.acknowledge
  grind [← Recalls.sendHedge]

theorem Recalls.stopsComplete : Recalls c (stopsComplete s) := by
  unfold Machine.stopsComplete
  grind [← Recalls.sendHedge, ← Recalls.finishJobs]

theorem Recalls.resumeComplete : Recalls c (resumeComplete s) := by
  unfold Machine.resumeComplete
  grind [← Recalls.finishJobs]

theorem Recalls.writeStopMap (kind : Nat) (m : StopMsg) (aborted : Nat) : Recalls c (writeStopMap kind m aborted s) := by
  unfold Machine.writeStopMap
  grind [← Recalls.raise]

theorem Recalls.abandonStarted : Recalls c (abandonStarted s) := by
  unfold Machine.abandonStarted
  grind [← Recalls.discardRuns]

theorem Recalls.shareVote : Recalls c (shareVote s) := by
  unfold Machine.shareVote
  grind [← Recalls.sendHedge]

theorem Recalls.haltSmear (m : StopMsg) : Recalls c (haltSmear m s) := by
  unfold Machine.haltSmear
  split
  · have hunwound : Recalls c (Machine.abandonStarted (Machine.writeStopMap 2 m s.coll.live.length s)) :=
      Recalls.abandonStarted (Recalls.writeStopMap h ..)
    refine Recalls.stopsComplete (Recalls.acknowledge (Recalls.finishJobs (Recalls.shareVote (Recalls.stopMoves ?_)) ..) ..)
    exact hunwound
  · exact h

theorem Recalls.cutSeedbed (target : Pos) : Recalls c (cutSeedbed target s) := by
  unfold Machine.cutSeedbed
  grind [← Recalls.foldl, ← Recalls.discardRuns]

theorem Recalls.applyStop (m : StopMsg) : Recalls c (applyStop m s) := by
  unfold Machine.applyStop
  grind [← Recalls.haltSmear, ← Recalls.cutSeedbed]

theorem Recalls.orderStop (m : StopMsg) : Recalls c (orderStop m s) := by
  unfold Machine.orderStop
  grind [← Recalls.applyStop, ← Recalls.sendHedge]

theorem Recalls.discardFrom (n : Nat) : Recalls c (discardFrom n s) := by
  unfold Machine.discardFrom
  grind [← Recalls.discardRuns]

end

end Sys2Proof.Proofs
end

section
/-!
PROOFS. What a module has told and noted stands through groups that re-form, the vote and its outcomes, collectives that end, and the
loss of a module (09 R174 to R182, 10 R215 to R217, 14 R316, 15 R328).
-/
namespace Sys2Proof.Proofs

open Sys2Proof Sys2Proof.Machine Sys2Proof.Laws

section

variable {c : Notes} {s : State} (h : Recalls c s)
include h

/-! ### Groups -/

theorem Recalls.renumber (g : Nat) : Recalls c (renumber g s) := by
  unfold Machine.renumber
  grind [← Recalls.foldl, Machine.mapGroups, ← Recalls.giveSeqs]

theorem Recalls.installGroup (b : Bytes) (epoch : Nat) : Recalls c (installGroup b epoch s) := by
  unfold Machine.installGroup
  grind [← Recalls.renumber]

theorem Recalls.spreadGroup (b : Bytes) (epoch : Nat) : Recalls c (spreadGroup b epoch s).1 := by
  unfold Machine.spreadGroup
  grind [← Recalls.foldl, ← Recalls.installGroup, Machine.sendDefinition, ← Recalls.sendHedge]

theorem Recalls.reformOne (excluded : Bool) (m : ModId) (g : Nat) : Recalls c (reformOne excluded m g s) := by
  unfold Machine.reformOne
  grind [← Recalls.spreadGroup, ← Recalls.raise]

theorem Recalls.reportReformed : Recalls c (reportReformed s) := by
  unfold Machine.reportReformed
  grind [← Recalls.sendHedge]

theorem Recalls.reformLost : Recalls c (reformLost s) := by
  unfold Machine.reformLost
  grind [← Recalls.foldl, ← Recalls.reformOne, ← Recalls.reportReformed]

/-! ### The vote, its outcomes and the rollback -/

theorem Recalls.traceCommit (type data : Nat) : Recalls c (traceCommit type data s) := by
  unfold Machine.traceCommit
  grind [← Recalls.trace]

theorem Recalls.traceProgress (fields : List Nat) : Recalls c (traceProgress fields s) := by
  unfold Machine.traceProgress
  grind [← Recalls.foldl, ← Recalls.traceCommit]

theorem Recalls.releaseRetired : Recalls c (releaseRetired s) := by
  unfold Machine.releaseRetired
  grind [← Recalls.foldl, Machine.releaseSegment]

theorem Recalls.retireAt (n : Nat) (commit : Bool) : Recalls c (retireAt n commit s) := by
  unfold Machine.retireAt
  grind [← Recalls.finishJobs, ← Recalls.releaseRetired]

theorem Recalls.applyEvaluation (n : Nat) (host : Bool) : Recalls c (applyEvaluation n host s) := by
  unfold Machine.applyEvaluation
  grind [← Recalls.foldl, Machine.createEval, ← Recalls.addInstances]

theorem Recalls.applyMode (n f : Nat) (host : Bool) : Recalls c (applyMode n f host s) := by
  unfold Machine.applyMode
  grind [← Recalls.endSolves, Machine.dropSelected, ← Recalls.applyEvaluation]

theorem Recalls.applyModes (n : Nat) : Recalls c (applyModes n s) := by
  unfold Machine.applyModes
  grind [← Recalls.foldl, Machine.extendMeas, ← Recalls.applyMode]

theorem Recalls.boundaryEffects (n : Nat) (commit : Bool) : Recalls c (boundaryEffects n commit s) := by
  unfold Machine.boundaryEffects
  grind [← Recalls.foldl, Machine.installStones, Machine.extendMeas, ← Recalls.applyModes, Machine.installExport, ← Recalls.retireAt]

theorem Recalls.finishStep (n : Nat) (commit : Bool) : Recalls c (finishStep n commit s) := by
  unfold Machine.finishStep
  grind [← Recalls.boundaryEffects]

theorem Recalls.installRoot (n : Nat) (b : BlockSolve) : Recalls c (installRoot n b s) := by
  unfold Machine.installRoot
  grind [← Recalls.touchCells, Machine.writeCells]

theorem Recalls.closeSeedbed (n : Nat) : Recalls c (closeSeedbed n s) := by
  unfold Machine.closeSeedbed
  grind [← Recalls.foldl, ← Recalls.flipFresh, ← Recalls.sheafTrigger, ← Recalls.offerCandidate]

theorem Recalls.followPin (p : Nat) : Recalls c (followPin s p) := by
  unfold Machine.followPin
  grind [Machine.selectMove]

theorem Recalls.applyCommit (v : VoteMsg) : Recalls c (applyCommit v s) := by
  unfold Machine.applyCommit
  extract_lets n s₁ k record _ _ _ _ s₂ pages s₃ s₄ s₅ s₆ _ s₇ s₈ s₉ _ s₁₀ s₁₁ s₁₂
  split
  · exact h
  · have h₃ : Recalls c s₃ := Recalls.foldl (s := s₂) h (fun _ p ht => Recalls.finishMove ht p) pages
    have h₅ : Recalls c s₅ := Recalls.foldl (s := s₄) h₃ (fun _ p ht => Recalls.followPin ht p) pages
    have h₆ : Recalls c s₆ := Recalls.foldl h₅ (fun _ b ht => Recalls.installRoot ht n b) _
    have h₉ : Recalls c s₉ := Recalls.closeSeedbed (s := s₈) h₆ n
    have h₁₁ : Recalls c s₁₁ := Recalls.rotationSelect (s := Machine.decayHeat s₁₀) h₉
    exact Recalls.traceProgress h₁₁ _

theorem Recalls.releasePending (n : Nat) : Recalls c (releasePending n s) := by
  unfold Machine.releasePending
  grind [← Recalls.foldl, Machine.layCells, ← Recalls.touchCells]

theorem Recalls.applySkip (v : VoteMsg) : Recalls c (applySkip v s) := by
  unfold Machine.applySkip
  extract_lets n s₁ s₂ s₃ s₄ _ _ s₅ s₆ s₇
  have h₁ : Recalls c s₁ := Recalls.refuseReads (s := Machine.keepVote v s) h
  have h₂ : Recalls c s₂ := Recalls.discardFrom h₁ n
  have h₄ : Recalls c s₄ := Recalls.releasePending (s := { s₃ with mem := dropLayers (skipLayers n) s₃.mem }) h₂ n
  have h₆ : Recalls c s₆ := Recalls.raise (s := s₅) h₄ ..
  clear_value s₆
  have h₇ : Recalls c s₇ := Recalls.finishStep (Recalls.queueReport (Recalls.sow h₆) ..) ..
  clear_value s₇
  exact Recalls.acknowledge (s := Machine.openVote (n + 1) 0 s₇) h₇ ..

theorem Recalls.applyRetry (v : VoteMsg) : Recalls c (applyRetry v s) := by
  unfold Machine.applyRetry
  grind [Machine.keepVote, ← Recalls.refuseReads, ← Recalls.reformLost, ← Recalls.orderStop, ← Recalls.queueReport, ← Recalls.raise]

theorem Recalls.applyOutcome (v : VoteMsg) : Recalls c (applyOutcome v s) := by
  unfold Machine.applyOutcome
  grind [← Recalls.applySkip, ← Recalls.applyRetry, ← Recalls.applyCommit, ← Recalls.traceCommit]

theorem Recalls.takeDecision (v : VoteMsg) : Recalls c (takeDecision v s) := by
  unfold Machine.takeDecision
  grind [Machine.keepVote, ← Recalls.applyOutcome, ← Recalls.sendHedge]

theorem Recalls.reduceVote : Recalls c (reduceVote s) := by
  unfold Machine.reduceVote
  grind [← Recalls.takeDecision, ← Recalls.hostWrite]

theorem Recalls.takeContribution (m : ModId) (step : Nat) (w : VoteWord) : Recalls c (takeContribution m step w s) := by
  unfold Machine.takeContribution
  grind [← Recalls.reduceVote, Machine.passReduced, ← Recalls.sendHedge]

theorem Recalls.contribute (n : Nat) : Recalls c (contribute n s) := by
  unfold Machine.contribute
  grind [← Recalls.takeContribution, ← Recalls.traceCommit, ← Recalls.sendHedge]

theorem Recalls.countLostMember (m : ModId) : Recalls c (countLostMember m s) := by
  unfold Machine.countLostMember
  grind [← Recalls.contribute, Machine.passReduced, ← Recalls.sendHedge]

/-! ### Collectives -/

theorem Recalls.stoneParts (p n i : Nat) (bs : Bytes) : Recalls c (stoneParts p n i bs s).2 := by
  induction n generalizing s i bs with
  | zero => exact h
  | succ n ih =>
    unfold Machine.stoneParts
    grind [Machine.countStone]

theorem Recalls.passPart (dest : ModId) (m : CollMsg) : Recalls c (passPart dest m s) := by
  unfold Machine.passPart
  dsimp only
  refine Recalls.sendHedge ?_ ..
  split <;> exact Recalls.stoneParts h ..

theorem Recalls.sendPart (x : CollInst) (dest : ModId) (m : CollMsg) : Recalls c (sendPart x dest m s) := by
  unfold Machine.sendPart
  exact Recalls.passPart (s := countColl x _ _ { s with coll.live := _ }) h ..

theorem Recalls.countWorks (seedbed : Bool) (w : List (Nat × Nat)) :
    Recalls c (w.foldl (fun s x => countWork seedbed x.1 x.2 s) s) :=
  Recalls.foldl (g := fun s (x : Nat × Nat) => countWork seedbed x.1 x.2 s) h (fun _ _ ht => ht) w

theorem Recalls.countNan (seedbed : Bool) (task : W32) (e : NanEvent) : Recalls c (countNan seedbed task e s) := by
  unfold Machine.countNan
  extract_lets s₁ s₂
  have h₁ : Recalls c s₁ := h
  clear_value s₁
  have h₂ : Recalls c s₂ := h₁.trace ..
  clear_value s₂
  split <;> exact h₂

theorem Recalls.completeColl (x : CollInst) : Recalls c (completeColl x s) := by
  unfold Machine.completeColl
  extract_lets ms s₁ r s₂
  have h₂ : Recalls c s₂ := h
  clear_value s₂
  split
  · exact h₂
  next t _ =>
    extract_lets w w' s₃ s₄ t' s₅
    have h₃ : Recalls c s₃ := h₂.countWorks ..
    clear_value s₃
    have h₄ : Recalls c s₄ := Recalls.foldl h₃ (fun _ e ht => ht.countNan t.seedbed t.task e) _
    clear_value s₄
    split
    · exact Recalls.publish (s := s₅) h₄ t'
    · exact h₄

theorem Recalls.grantKey (k : SegKey) : Recalls c (grantKey k s) := by
  unfold Machine.grantKey
  grind [← Recalls.foldl, ← Recalls.sendHedge]

theorem Recalls.takeKey (k : SegKey) : Recalls c (takeKey k s) := by
  unfold Machine.takeKey
  grind [← Recalls.foldl, ← Recalls.sendHedge, Machine.takenBack]

theorem Recalls.serveKeys (ks : List SegKey) : Recalls c (serveKeys ks s) := by
  induction ks generalizing s with
  | nil => exact h
  | cons k ks ih =>
    unfold Machine.serveKeys
    grind [← Recalls.grantKey, ← Recalls.takeKey]

theorem Recalls.clearLeft (k : SegKey) : Recalls c (clearLeft k s) := by
  unfold Machine.clearLeft Machine.serveBin
  grind [← Recalls.serveKeys]

theorem Recalls.requestSlot (m : ModId) (k : SegKey) : Recalls c (requestSlot m k s) := by
  unfold Machine.requestSlot Machine.binRequest Machine.serveBin
  grind [← Recalls.sendHedge, ← Recalls.clearLeft, ← Recalls.serveKeys]

theorem Recalls.leaveBin (k : SegKey) : Recalls c (leaveBin k s) := by
  unfold Machine.leaveBin
  grind [← Recalls.clearLeft]

theorem Recalls.setFinal (x : CollInst) (g : Grid) (y : SegState) (vs : List W64) (es : List (Nat × Nat × Nat × Nat)) :
    Recalls c (setFinal x g y vs es s) := by
  unfold Machine.setFinal Machine.returnFinal
  refine Recalls.leaveBin ?_ _
  refine List.foldrRecOn _ _ (motive := Recalls c) ?_ fun t ht a _ => ?_
  · exact h
  · grind [← Recalls.sendPart]

theorem Recalls.advanceSegment (x : CollInst) (g : Grid) (i n : Nat) : Recalls c (advanceSegment x g i n s) := by
  induction n generalizing s x with
  | zero => exact h
  | succ n ih =>
    unfold Machine.advanceSegment
    split
    · exact h
    next x _ =>
      split
      · exact h
      next y _ =>
        split
        · exact h
        · split
          · exact h.setFinal ..
          · dsimp only
            split
            · exact h
            next f _ =>
              have hcounted : Recalls c (if f.overs = 0 then s else
                  setTask x.step x.task (fun t => { t with counts := t.counts ++ [(slotOverflow, f.overs)] })
                    (countWork x.seedbed slotOverflow f.overs s)) := by
                split <;> exact h
              split
              · have hsent := fun (d : ModId) (m : CollMsg) (z : SegState) => Recalls.sendPart (s := setSeg x z _) hcounted x d m
                split
                · exact hsent ..
                · exact (hsent ..).leaveBin _
              · exact ih (s := setSeg _ _ _) hcounted _

theorem Recalls.tryComplete (step : Nat) (task : W32) : Recalls c (tryComplete step task s) := by
  unfold Machine.tryComplete
  grind [← Recalls.completeColl]

theorem Recalls.takeGrant (bin : ModId) (k : SegKey) : Recalls c (takeGrant bin k s) := by
  unfold Machine.takeGrant
  grind [← Recalls.foldl, Machine.hear, ← Recalls.requestSlot, ← Recalls.tryComplete, ← Recalls.advanceSegment]

theorem Recalls.takeOwnGrants (n : Nat) : Recalls c (takeOwnGrants n s) := by
  induction n generalizing s with
  | zero => exact h
  | succ n ih =>
    unfold Machine.takeOwnGrants
    grind [← Recalls.takeGrant]

theorem Recalls.serveOwn : Recalls c (serveOwn s) := by
  unfold Machine.serveOwn Machine.serveBin
  exact Recalls.takeOwnGrants (Recalls.serveKeys h _) _

theorem Recalls.endColl (x : CollInst) (status : Nat) : Recalls c (endColl x status s) := by
  unfold Machine.endColl
  grind [Machine.forgetColl, Machine.dropColl, Machine.setTask, ← Recalls.publish, ← Recalls.findMemberLost, ← Recalls.holdRun]

/-! ### Loss -/

theorem Recalls.endLostColls (m : ModId) : Recalls c (endLostColls m s) := by
  unfold Machine.endLostColls
  exact Recalls.serveOwn (Recalls.foldl h (fun t x ht => ht.endColl x stMemberLost) _)

theorem Recalls.withoutModule (m : ModId) : Recalls c (withoutModule m s) := by
  unfold Machine.withoutModule
  grind [← Recalls.foldl, ← Recalls.finishJobs]

theorem Recalls.succeed : Recalls c (succeed s) := by
  unfold Machine.succeed Machine.reportAgain
  grind [← Recalls.acknowledge, ← Recalls.shareVote, ← Recalls.reportReformed, ← Recalls.orderStop, ← Recalls.haltSmear]

theorem Recalls.needRestoration (m : ModId) : Recalls c (needRestoration m s) := by
  have hlost : (Machine.needRestoration m s).holding.lost = s.holding.lost := by
    have hrest := congrArg (fun t : State => t.holding.lost) (needRestoration_rest m s)
    exact hrest
  refine ⟨?_, ?_, by rw [hlost]; exact h.lost⟩
  · rw [needRestoration_eq]
    exact h.sent
  · rw [needRestoration_eq]
    exact h.waiting

/-- Whatever a loss brings about, what was told before it stands, and the module is known to be lost. -/
theorem Recalls.noteLost (m : ModId) : Recalls { c with lost := c.lost ++ [m] } (noteLost m s) := by
  unfold Machine.noteLost
  dsimp only
  split
  next hlost =>
    exact ⟨h.sent, h.waiting, List.append_subset.2 ⟨h.lost, by simpa using hlost⟩⟩
  · have hneeds : Recalls c (Machine.needRestoration m s) := h.needRestoration m
    generalize Machine.needRestoration m s = u at hneeds
    have hwithout := Recalls.withoutModule (c := { c with lost := c.lost ++ [m] })
      (s := { u with holding.lost := u.holding.lost ++ [m] })
      ⟨hneeds.sent, hneeds.waiting, List.append_subset.2 ⟨List.subset_append_of_subset_left _ hneeds.lost,
        List.subset_append_right ..⟩⟩ m
    generalize Machine.withoutModule m { u with holding.lost := u.holding.lost ++ [m] } = v at hwithout
    have hformed := ((Recalls.endLostColls (s := noteUnformed m v) hwithout m).countLostMember m).reformLost
    split
    · exact hformed.succeed
    · exact hformed.reduceVote.stopsComplete.resumeComplete

theorem Recalls.isolate (cause : Nat) : Recalls c (isolate cause s) := by
  unfold Machine.isolate
  split
  · exact h
  · extract_lets me s₁ s₂ n s₃ s₄
    have h₂ : Recalls c s₂ := (h.raise ..).sendHedge ..
    clear_value s₂
    have h₄ : Recalls c s₄ := ((h₂.needRestoration me).haltSmear _).discardFrom n
    clear_value s₄
    exact h₄

end

end Sys2Proof.Proofs
end

section
/-!
PROOFS. Heartbeats, lost modules, and the events of members (13 R285, 15 R328).
-/
namespace Sys2Proof.Proofs

open Sys2Proof Sys2Proof.Machine Sys2Proof.Safety Sys2Proof.Laws

section

variable {s t u : State}

/-! ### Heartbeats (15 R328) -/

/-- What a module sends every millisecond, the lead master its timestamp with it. -/
def beatMessages (s : State) : List (ModId × Hedge) :=
  (everyone, .heartbeat s.sched.pubCount) ::
    if s.isLead then [(everyone, .timestampSync (BitVec.ofNat 64 s.clock.now))] else []

/-- The module that has sent its heartbeat. -/
def beating (s : State) : State :=
  let t := sendHedge everyone (.heartbeat s.sched.pubCount) { s with holding.lastBeat := s.clock.up }
  if s.isLead then sendHedge everyone (.timestampSync (BitVec.ofNat 64 s.clock.now)) t else t

theorem mails_beating (s : State) : Mails { s with holding.lastBeat := s.clock.up } (beating s) := by
  unfold beating
  dsimp only
  split
  · exact (mails_sendHedge ..).trans (mails_sendHedge ..)
  · exact mails_sendHedge ..

theorem beating_sends (s : State) : (beating s).out.hedge = s.out.hedge ++ beatMessages s := by
  unfold beating beatMessages
  dsimp only
  split <;> simp [List.append_assoc]

theorem cutOff_beating (s : State) : cutOff (beating s) = cutOff s := by
  rw [(mails_beating s).frame]
  rfl

theorem exec_heartbeatTick (hready : s.ready = true) (ha : s.assigned = true) (hi : s.holding.isolated = false) :
    exec .heartbeatTick s = .next (if cutOff s then isolate 2 (beating s) else beating s) := by
  have hbeats : exec .heartbeatTick s = .next (
      if !s.ready || !s.assigned || s.holding.isolated then s
      else
        let t := sendHedge everyone (.heartbeat s.sched.pubCount) { s with holding.lastBeat := s.clock.up }
        let u := if t.isLead then sendHedge everyone (.timestampSync (BitVec.ofNat 64 t.clock.now)) t else t
        if cutOff u then isolate 2 u else u) := rfl
  have hlead : ∀ v, Mails { s with holding.lastBeat := s.clock.up } v → v.isLead = s.isLead ∧ v.clock = s.clock := by
    intro v hv
    rw [hv.frame]
    exact ⟨rfl, rfl⟩
  obtain ⟨hl, hc⟩ := hlead _ (mails_sendHedge everyone (.heartbeat s.sched.pubCount) { s with holding.lastBeat := s.clock.up })
  rw [hbeats, if_neg (by simp [hready, ha, hi])]
  dsimp only
  rw [hl, hc, ← cutOff_beating s]
  rfl

theorem heartbeatTick_stays (h : s.ready = false ∨ s.assigned = false ∨ s.holding.isolated = true) :
    exec .heartbeatTick s = .next s := by
  have hexec : exec .heartbeatTick s = execHeartbeatTick s := rfl
  rw [hexec, execHeartbeatTick, if_pos (by simpa [or_assoc] using h)]

theorem heartbeatTick_row (hready : s.ready = true) (ha : s.assigned = true) (hi : s.holding.isolated = false) :
    (cutOff s = false → ∃ t, exec .heartbeatTick s = .next t ∧ t.holding.lastBeat = s.clock.up ∧
      t.out.hedge = s.out.hedge ++ beatMessages s ∧
      { t with holding.lastBeat := s.holding.lastBeat, sheaf := s.sheaf, out := s.out } = s) ∧
    (cutOff s = true → ∃ t, exec .heartbeatTick s = .next t ∧ t.holding.isolated = true ∧
      s.out.hedge ++ beatMessages s <+: t.out.hedge ∧
      (everyone, Hedge.memberLost s.holding.moduleId 2 s.run.head) ∈ t.out.hedge) := by
  have hframe := (mails_beating s).frame
  refine ⟨fun hc => ⟨beating s, by rw [exec_heartbeatTick hready ha hi, hc]; rfl, ?_, beating_sends s, ?_⟩,
    fun hc => ⟨isolate 2 (beating s), by rw [exec_heartbeatTick hready ha hi, hc]; rfl, ?_⟩⟩
  · rw [hframe]
  · rw [hframe]
  · have hid : (beating s).holding.moduleId = s.holding.moduleId := by rw [hframe]
    have hhead : (beating s).run = s.run := by rw [hframe]
    obtain ⟨hisolated, -, htold⟩ := isolate_isolates (s := beating s) (by rw [hframe]; exact hi) 2
    rw [hid, hhead] at htold
    refine ⟨hisolated, ?_, htold⟩
    rw [← beating_sends]
    exact ((recalls_notesOf (beating s)).isolate 2).sent

/-- Since when a module has told of its present count of published tasks. -/
def countedSince (s : State) (m : ModId) (n : Nat) : Nat :=
  match s.holding.beats.find? fun b => b.1 == m with
  | some x => if x.2.2.1 = n then x.2.2.2 else s.clock.up
  | none => s.clock.up

theorem heartbeat_row (s : State) (m : ModId) (n : Nat) : ∃ t, exec (.heartbeat m n) s = .next t ∧
    t.holding.beats = (s.holding.beats.filter fun b => b.1 != m) ++ [(m, s.clock.up, n, countedSince s m n)] ∧
    { t with holding.beats := s.holding.beats, holding.lastHedge := s.holding.lastHedge, sheaf := s.sheaf } = s := by
  refine ⟨takeHeartbeat m n s, rfl, ?_⟩
  unfold takeHeartbeat countedSince
  rw [traceReceive_eq]
  cases s.holding.beats.find? fun b => b.1 == m <;> exact ⟨rfl, rfl⟩

/-! ### Losses (15 R328) -/

theorem exec_heartbeatLoss (m : ModId) (s : State) : exec (.heartbeatLoss m) s = .next (
    if watches s m && !s.holding.isolated && !s.holding.lost.contains m && silentSince s (lastBeatOf s m) then
      advance (if cutOff s then isolate 2 s else declareLost m s)
    else s) := rfl

theorem heartbeatLoss_due {m : ModId} (hw : watches s m = true) (hi : s.holding.isolated = false) (hl : m ∉ s.holding.lost)
    (hs : silentSince s (lastBeatOf s m) = true) :
    exec (.heartbeatLoss m) s = .next (advance (if cutOff s then isolate 2 s else declareLost m s)) := by
  rw [exec_heartbeatLoss, if_pos (by simp [hw, hi, hl, hs])]

theorem heartbeatLoss_stays {m : ModId} (h : silentSince s (lastBeatOf s m) = false ∨ watches s m = false ∨ m ∈ s.holding.lost) :
    exec (.heartbeatLoss m) s = .next s := by
  rw [exec_heartbeatLoss, if_neg (by rcases h with h | h | h <;> simp [h])]

theorem publishes_findMemberLost (s : State) : Publishes s (findMemberLost s) := by
  unfold findMemberLost
  split
  · exact .refl s
  · exact publishes_finding ..

/-- A loss declared: the module is lost, every other is told, and the event is raised. -/
theorem declareLost_spec {m : ModId} (hl : m ∉ s.holding.lost) : m ∈ (declareLost m s).holding.lost ∧
    (everyone, Hedge.memberLost m 0 s.run.head) ∈ (declareLost m s).out.hedge ∧
    Announces s (declareLost m s) evMemberLost (pack [(16, m.toNat), (2, 0), (14, 0), (16, s.holding.moduleId.toNat)]) := by
  unfold declareLost
  rw [if_neg (by simpa using hl)]
  dsimp only
  have hfound : Publishes s (findMemberLost s) := publishes_findMemberLost s
  generalize findMemberLost s = f at hfound
  have hmails := mails_sendHedge everyone (.memberLost m 0 s.run.head) f
  have htold := mem_sendHedge everyone (.memberLost m 0 s.run.head) f
  generalize sendHedge everyone (.memberLost m 0 s.run.head) f = v at hmails htold
  have hteller : SameTeller s v := by
    unfold Publishes at hfound
    rw [hmails.frame, hfound]
    exact ⟨rfl, rfl, rfl, rfl⟩
  rw [hteller.holding]
  generalize hraised : raise evMemberLost _ v = r
  have hannounced : Announces s r evMemberLost (pack [(16, m.toNat), (2, 0), (14, 0), (16, s.holding.moduleId.toNat)]) :=
    announces_of_sameTeller hteller (hraised ▸ raise_announces ..)
  have hkept := (recalls_notesOf r).noteLost m
  have hsent : r.out.hedge ⊆ (noteLost m r).out.hedge := hkept.sent.subset
  exact ⟨hkept.lost (List.mem_append_right _ (List.mem_singleton_self m)),
    hsent (hraised ▸ sent_raise _ _ v htold), announces_of_keepsNotices ⟨hkept.waiting, hsent⟩ hannounced⟩

theorem heartbeatLoss_row {m : ModId} (hw : watches s m = true) (hi : s.holding.isolated = false) (hl : m ∉ s.holding.lost)
    (hs : silentSince s (lastBeatOf s m) = true) :
    (cutOff s = false → ∃ u, exec (.heartbeatLoss m) s = .next (advance u) ∧ m ∈ u.holding.lost ∧
      (everyone, Hedge.memberLost m 0 s.run.head) ∈ u.out.hedge ∧
      Announces s u evMemberLost (pack [(16, m.toNat), (2, 0), (14, 0), (16, s.holding.moduleId.toNat)])) ∧
    (cutOff s = true → ∃ u, exec (.heartbeatLoss m) s = .next (advance u) ∧ u.holding.isolated = true ∧
      (everyone, Hedge.memberLost s.holding.moduleId 2 s.run.head) ∈ u.out.hedge) := by
  have hdue := heartbeatLoss_due hw hi hl hs
  refine ⟨fun hc => ⟨declareLost m s, by rw [hdue, hc]; rfl, declareLost_spec hl⟩,
    fun hc => ⟨isolate 2 s, by rw [hdue, hc]; rfl, ?_⟩⟩
  obtain ⟨hisolated, -, htold⟩ := isolate_isolates hi 2
  exact ⟨hisolated, htold⟩

/-- A module that isolates itself has no staged page left. -/
theorem isolate_unstaged (h : s.holding.isolated = false) (cause : Nat) :
    ∀ l ∈ (isolate cause s).mem.layers, ∀ k, l.tag ≠ .staged k := by
  intro l hl k hk
  unfold isolate at hl
  rw [if_neg (by simp [h])] at hl
  have hkept := (List.mem_filter.1 hl).2
  rw [hk] at hkept
  exact absurd hkept (by simp [beyond])

theorem exec_hedgeMemberLost (src m : ModId) {cause : Nat} {head : Pos} (ha : s.assigned = true)
    (hhead : posMalformed head = false) (hcause : cause ≤ 2) : exec (.hedgeMemberLost src m cause head) s =
      .next (advance (if m = s.holding.moduleId then (if src = m then traceReceive src 0x06 s else isolate 2 (traceReceive src 0x06 s))
        else noteLost m (traceReceive src 0x06 s))) := by
  have hexec : exec (.hedgeMemberLost src m cause head) s = .next (
      if !s.assigned || posMalformed head || decide (2 < cause) then s
      else advance (if m = (traceReceive src 0x06 s).holding.moduleId then
        (if src = m then traceReceive src 0x06 s else isolate 2 (traceReceive src 0x06 s))
        else noteLost m (traceReceive src 0x06 s))) := rfl
  have hid : (traceReceive src 0x06 s).holding.moduleId = s.holding.moduleId := by rw [traceReceive_eq]
  rw [hexec, if_neg (by simp [ha, hhead, hcause]), hid]

theorem hedgeMemberLost_row (src m : ModId) {cause : Nat} {head : Pos} (ha : s.assigned = true)
    (hhead : posMalformed head = false) (hcause : cause ≤ 2) :
    (m ≠ s.holding.moduleId → ∃ u, exec (.hedgeMemberLost src m cause head) s = .next (advance u) ∧ m ∈ u.holding.lost) ∧
    (m = s.holding.moduleId → src ≠ m → s.holding.isolated = false →
      ∃ u, exec (.hedgeMemberLost src m cause head) s = .next (advance u) ∧ u.holding.isolated = true ∧
        (everyone, Hedge.memberLost m 2 s.run.head) ∈ u.out.hedge ∧
        (∀ l ∈ u.mem.layers, ∀ k, l.tag ≠ .staged k) ∧ u.mem.base = s.mem.base) := by
  have hexec := exec_hedgeMemberLost src m ha hhead hcause
  refine ⟨fun hm => ⟨_, by rw [hexec, if_neg hm], ?_⟩, fun hm hsrc hi => ⟨_, by rw [hexec, if_pos hm, if_neg hsrc], ?_⟩⟩
  · exact ((recalls_notesOf (traceReceive src 0x06 s)).noteLost m).lost (List.mem_append_right _ (List.mem_singleton_self m))
  · have hfree : (traceReceive src 0x06 s).holding.isolated = false := by rw [traceReceive_eq]; exact hi
    have hid : (traceReceive src 0x06 s).holding.moduleId = m := by rw [traceReceive_eq, hm]
    obtain ⟨hisolated, hstore, htold⟩ := isolate_isolates hfree 2
    rw [hid, traceReceive_run] at htold
    exact ⟨hisolated, htold, isolate_unstaged hfree 2, by rw [hstore.base, traceReceive_mem]⟩

/-! ### Events of members (13 R285) -/

theorem postEvent_disabled (h : s.host.ctx.eventEnable = false) (code : W16) (m : ModId) (p : Pos) (ts detail : W64) :
    postEvent code.toNat m p ts detail s = { s with host.evWaiting := s.host.evWaiting ++ [(code, m, p, ts, detail)] } := by
  unfold postEvent
  dsimp only
  rw [if_pos (by simp [h]), BitVec.ofNat_toNat, BitVec.setWidth_eq]

theorem eventSignal_posted (s : State) : (eventSignal s).host.evPosted = s.host.evPosted ∧ (eventSignal s).out.host = s.out.host := by
  unfold eventSignal signal
  split
  · split
    · exact ⟨rfl, rfl⟩
    · split <;> exact ⟨rfl, rfl⟩
  · exact ⟨rfl, rfl⟩

theorem postEvent_written (he : s.host.ctx.eventEnable = true) (hlink : s.power.linkUp = true)
    (hroom : (s.host.evPosted - s.host.evConsumer).toNat < 2 ^ s.host.ctx.eventSizeLog2.toNat) (code : Nat) (m : ModId) (p : Pos)
    (ts detail : W64) :
    (postEvent code m p ts detail s).host.evPosted = s.host.evPosted + 1 ∧
    (postEvent code m p ts detail s).out.host = s.out.host ++
      [(s.host.ctx.eventBase.toNat / 4096 * 4096 + 32 * (s.host.evPosted.toNat % 2 ^ s.host.ctx.eventSizeLog2.toNat),
        eventBytes s.host.ctx.eventSizeLog2.toNat s.host.evPosted.toNat s.host.evLostFlag code m.toNat p ts detail, false)] := by
  unfold postEvent
  dsimp only
  rw [if_neg (by simp [he]), if_neg (Nat.not_le.2 hroom)]
  obtain ⟨hposted, hhost⟩ := eventSignal_posted (hostWrite
    (s.host.ctx.eventBase.toNat / 4096 * 4096 + 32 * (s.host.evPosted.toNat % 2 ^ s.host.ctx.eventSizeLog2.toNat))
    (eventBytes s.host.ctx.eventSizeLog2.toNat s.host.evPosted.toNat s.host.evLostFlag code m.toNat p ts detail) false
    { s with host.evPosted := s.host.evPosted + 1, host.evLostFlag := false })
  rw [hposted, hhost]
  unfold hostWrite
  rw [if_pos hlink]
  exact ⟨rfl, rfl⟩

theorem exec_hedgeEvent (m : ModId) (code : W16) (p : Pos) (ts detail : W64) (s : State) :
    exec (.hedgeEvent m code p ts detail) s = .next (if s.holding.isMaster then
      postEvent code.toNat m p ts detail (traceReceive m 0x05 s) else traceReceive m 0x05 s) := by
  have hmaster : (traceReceive m 0x05 s).holding.isMaster = s.holding.isMaster := by rw [traceReceive_eq]
  rw [← hmaster]
  rfl

theorem hedgeEvent_row (s : State) (m : ModId) (code : W16) (p : Pos) (ts detail : W64) :
    (s.holding.isMaster = true → s.host.ctx.eventEnable = false →
      ∃ t, exec (.hedgeEvent m code p ts detail) s = .next t ∧
        t.host.evWaiting = s.host.evWaiting ++ [(code, m, p, ts, detail)] ∧
        { t with host.evWaiting := s.host.evWaiting, holding.lastHedge := s.holding.lastHedge, sheaf := s.sheaf } = s) ∧
    (s.holding.isMaster = true → s.host.ctx.eventEnable = true → s.power.linkUp = true →
      (s.host.evPosted - s.host.evConsumer).toNat < 2 ^ s.host.ctx.eventSizeLog2.toNat →
      ∃ t, exec (.hedgeEvent m code p ts detail) s = .next t ∧ t.host.evPosted = s.host.evPosted + 1 ∧
        t.out.host = s.out.host ++
          [(s.host.ctx.eventBase.toNat / 4096 * 4096 + 32 * (s.host.evPosted.toNat % 2 ^ s.host.ctx.eventSizeLog2.toNat),
            eventBytes s.host.ctx.eventSizeLog2.toNat s.host.evPosted.toNat s.host.evLostFlag code.toNat m.toNat p ts detail,
            false)] ∧
        { t with host := s.host, holding.lastHedge := s.holding.lastHedge, sheaf := s.sheaf, out := s.out } = s) ∧
    (s.holding.isMaster = false → ∃ t, exec (.hedgeEvent m code p ts detail) s = .next t ∧
      { t with holding.lastHedge := s.holding.lastHedge, sheaf := s.sheaf } = s) := by
  have hexec := exec_hedgeEvent m code p ts detail s
  have hheard := hears_traceReceive m 0x05 s
  generalize traceReceive m 0x05 s = r at hexec hheard
  have hhost : r.host = s.host ∧ r.power = s.power ∧ r.out = s.out := by
    obtain ⟨x, n, rfl⟩ := hheard
    exact ⟨rfl, rfl, rfl⟩
  obtain ⟨hhost, hpower, hout⟩ := hhost
  refine ⟨fun hm he => ⟨_, hexec.trans (congrArg _ (if_pos hm)), ?_⟩,
    fun hm he hl hroom => ⟨_, hexec.trans (congrArg _ (if_pos hm)), ?_⟩,
    fun hm => ⟨_, hexec.trans (congrArg _ (if_neg (by simp [hm]))), hheard.back⟩⟩
  · rw [postEvent_disabled (by rw [hhost]; exact he)]
    refine ⟨by rw [← hhost], ?_⟩
    obtain ⟨x, n, rfl⟩ := hheard
    rfl
  · obtain ⟨hposted, hwritten⟩ := postEvent_written (s := r) (by rw [hhost]; exact he) (by rw [hpower]; exact hl)
      (by rw [hhost]; exact hroom) code.toNat m p ts detail
    rw [hhost] at hposted
    rw [hhost, hout] at hwritten
    refine ⟨hposted, hwritten, ?_⟩
    rw [postEvent_eq]
    obtain ⟨x, n, rfl⟩ := hheard
    rfl

end

end Sys2Proof.Proofs
end

section
/-!
PROOFS. A group definition at a member: gathered in three parts, put in force, acknowledged (10 R196, R199, 14 R298).
-/
namespace Sys2Proof.Proofs

open Sys2Proof Sys2Proof.Machine Sys2Proof.Safety Sys2Proof.Laws

section

variable {s t u : State} {g : Nat}

/-! ### Sequence numbers given anew (10 R199) -/

/-- A task run but for its sequence number. -/
def unnumbered (t : TaskInst) : TaskInst := { t with seq := 0 }

/-- From `s` to `t` the counters of group `g` and the sequence numbers of task runs may have changed, and nothing else. -/
structure Renumbers (g : Nat) (s t : State) : Prop where
  frame : t = { s with coll.groups := t.coll.groups, sched.tasks := t.sched.tasks }
  tasks : t.sched.tasks.map unnumbered = s.sched.tasks.map unnumbered
  others : ∀ k, k ≠ g → groupOf t k = groupOf s k
  same : ∀ x, groupOf s g = some x → ∃ y, groupOf t g = some y ∧ y.def48 = x.def48 ∧ y.epoch = x.epoch

theorem Renumbers.refl (g : Nat) (s : State) : Renumbers g s s := ⟨rfl, rfl, fun _ _ => rfl, fun x h => ⟨x, h, rfl, rfl⟩⟩

theorem Renumbers.trans (a : Renumbers g s t) (b : Renumbers g t u) : Renumbers g s u where
  frame := by rw [b.frame, a.frame]
  tasks := b.tasks.trans a.tasks
  others k hk := (b.others k hk).trans (a.others k hk)
  same x hx := by
    obtain ⟨y, hy, hdef, hepoch⟩ := a.same x hx
    obtain ⟨z, hz, hdef', hepoch'⟩ := b.same y hy
    exact ⟨z, hz, hdef'.trans hdef, hepoch'.trans hepoch⟩

theorem groupOf_put (s : State) (g : Nat) (x : Group) (k : Nat) :
    groupOf { s with coll.groups := tset none s.coll.groups g (some x) } k = if k = g then some x else groupOf s k :=
  tget_tset none s.coll.groups g k (some x)

theorem renumbers_giveSeq {x : TaskInst} (hx : namesGroup s g x = true) : Renumbers g s (giveSeq s x).1 := by
  unfold namesGroup at hx
  unfold giveSeq
  rw [eq_of_beq hx]
  dsimp only
  cases hg : groupOf s g with
  | none => exact .refl g s
  | some y =>
    dsimp only
    refine ⟨rfl, rfl, fun k hk => (groupOf_put ..).trans (if_neg hk), fun z hz => ?_⟩
    obtain rfl := Option.some.inj (hg.symm.trans hz)
    exact ⟨{ y with seq := (y.seq + 1) % 2 ^ 32 }, (groupOf_put ..).trans (if_pos rfl), rfl, rfl⟩

theorem namesGroup_of_renumbers (h : Renumbers g s t) (k : Nat) (x : TaskInst) : namesGroup t k x = namesGroup s k x := by
  rw [h.frame]
  rfl

theorem renumbers_giveSeqs {ts : List TaskInst} (hts : ∀ x ∈ ts, namesGroup s g x = true) : Renumbers g s (giveSeqs ts s).1 := by
  unfold giveSeqs
  refine List.foldlRecOn ts _ (motive := fun v : State × List TaskInst => Renumbers g s v.1) (.refl g s) fun v hv x hx => ?_
  exact hv.trans (renumbers_giveSeq (by rw [namesGroup_of_renumbers hv]; exact hts x hx))

theorem tget_mapped (f : Nat → Group → Group) (l : Sparse (Option Group)) (k : Nat) :
    tget none (l.map fun e => (e.1, e.2.map (f e.1))) k = (tget none l k).map (f k) := by
  induction l with
  | nil => rfl
  | cons e l ih =>
    obtain ⟨j, v⟩ := e
    by_cases hj : j = k
    · simp [tget, hj]
    · simpa [tget, hj] using ih

theorem groupOf_mapGroups (f : Nat → Group → Group) (s : State) (k : Nat) :
    groupOf (mapGroups f s) k = (groupOf s k).map (f k) := tget_mapped f s.coll.groups k

/-- A sequence number put into a task run, and the group's counter marked. -/
theorem renumbers_put (put : TaskInst → TaskInst) (hput : ∀ x, unnumbered (put x) = unnumbered x) (n : Nat) (s : State) :
    Renumbers g s (mapGroups (fun k x => if k = g then { x with marks := x.marks ++ [(n, x.seq)] } else x)
      { s with sched.tasks := s.sched.tasks.map put }) := by
  refine ⟨rfl, ?_, fun k hk => ?_, fun x hx => ?_⟩
  · change (s.sched.tasks.map put).map unnumbered = _
    rw [List.map_map]
    exact List.map_congr_left fun x _ => hput x
  · refine (groupOf_mapGroups ..).trans ?_
    simp only [if_neg hk, Option.map_id']
    rfl
  · refine ⟨_, (groupOf_mapGroups ..).trans (congrArg _ hx), ?_⟩
    simp

theorem mem_insertBy {α : Type} {le : α → α → Bool} {a x : α} {l : List α} : a ∈ insertBy le x l ↔ a = x ∨ a ∈ l := by
  induction l with
  | nil => simp [insertBy]
  | cons y l ih =>
    unfold insertBy
    split
    · simp
    · simp only [List.mem_cons, ih]
      tauto

theorem mem_sortBy {α : Type} {le : α → α → Bool} {a : α} {l : List α} : a ∈ sortBy le l ↔ a ∈ l := by
  induction l with
  | nil => rfl
  | cons x l ih => simp [sortBy, mem_insertBy, ih]

theorem renumbers_renumber (g : Nat) (s : State) : Renumbers g s (renumber g s) := by
  refine foldl_inv (p := Renumbers g s) (fun v n hv => hv.trans ?_) _ (.refl g s)
  dsimp only
  refine Renumbers.trans (t := (giveSeqs _ v).1) (renumbers_giveSeqs fun x hx => ?_) (renumbers_put _ (fun x => ?_) n _)
  · have hdue := List.of_mem_filter (mem_sortBy.1 hx)
    simp only [Bool.and_eq_true] at hdue
    rw [namesGroup_of_renumbers hv]
    exact hdue.1.2
  · cases List.find? _ _ <;> rfl

/-! ### A definition put in force (10 R196) -/

/-- The state in which a definition stands, before its collectives are numbered anew. -/
def installing (b : Bytes) (epoch : Nat) (s : State) : State :=
  { s with
    coll.groups := tset none s.coll.groups (field b 0 2) (some { def48 := b, epoch := epoch })
    coll.musters := s.coll.musters.filter fun x => x.1 != field b 0 2
    coll.decided := s.coll.decided.filter fun x => x.1 != field b 0 2
    coll.unformed := s.coll.unformed.filter fun x =>
      x.1 != field b 0 2 || ((definedMembers s b).contains x.2 && s.holding.lost.contains x.2) }

theorem installGroup_renumbers (b : Bytes) (epoch : Nat) (s : State) :
    Renumbers (field b 0 2) (installing b epoch s) (installGroup b epoch s) := renumbers_renumber ..

theorem groupOf_installing (b : Bytes) (epoch : Nat) (s : State) (k : Nat) : groupOf (installing b epoch s) k =
    if k = field b 0 2 then some { def48 := b, epoch := epoch } else groupOf s k :=
  groupOf_put s (field b 0 2) { def48 := b, epoch := epoch } k

/-- What a definition in force leaves: its group with its epoch, the others as they were, and no part of a definition touched. -/
structure Installed (b : Bytes) (epoch : Nat) (s t : State) : Prop where
  group : ∃ x, groupOf t (field b 0 2) = some x ∧ x.def48 = b ∧ x.epoch = epoch
  others : ∀ g, g ≠ field b 0 2 → groupOf t g = groupOf s g
  tasks : t.sched.tasks.map unnumbered = s.sched.tasks.map unnumbered
  parts : t.coll.parts = s.coll.parts
  reforming : t.coll.reforming = s.coll.reforming
  rest : { t with coll := s.coll, sched.tasks := s.sched.tasks } = s

theorem installGroup_installed (b : Bytes) (epoch : Nat) (s : State) : Installed b epoch s (installGroup b epoch s) := by
  obtain ⟨hframe, htasks, hothers, hsame⟩ := installGroup_renumbers b epoch s
  refine ⟨?_, fun g hg => ?_, htasks, ?_, ?_, ?_⟩
  · obtain ⟨x, hx, hdef, hepoch⟩ := hsame _ ((groupOf_installing ..).trans (if_pos rfl))
    exact ⟨x, hx, hdef, hepoch⟩
  · exact (hothers g hg).trans ((groupOf_installing ..).trans (if_neg hg))
  · rw [hframe]
    rfl
  · rw [hframe]
    rfl
  · rw [hframe]
    rfl

/-! ### Parts of a definition (14 R298) -/

theorem exec_groupDefinition (src : ModId) {part epoch : Nat} (bytes : Bytes) (ha : s.assigned = true) (hpart : part < 3)
    (hepoch : epoch < 2 ^ 16) :
    exec (.groupDefinition src part epoch bytes) s = .next (advance (takeDefinition src part epoch bytes s)) := by
  have hexec : exec (.groupDefinition src part epoch bytes) s = .next (
      if s.assigned && decide (part < 3) && decide (epoch < 2 ^ 16) then advance (takeDefinition src part epoch bytes s)
      else s) := rfl
  rw [hexec, if_pos (by simpa [ha, hpart] using hepoch)]

theorem takeDefinition_first (src : ModId) {part : Nat} (epoch : Nat) (bytes : Bytes) (hnone : s.coll.parts = []) :
    takeDefinition src part epoch bytes s =
      { traceReceive src 0x14 s with coll.parts := [(src, epoch, part, padTo 16 bytes)] } := by
  have hparts : (traceReceive src 0x14 s).coll.parts = [] := by rw [traceReceive_eq]; exact hnone
  unfold takeDefinition
  dsimp only
  rw [hparts]
  match part with
  | 0 => simp
  | 1 => simp
  | n + 2 => simp

theorem takeDefinition_last (src : ModId) (epoch : Nat) (a b c : Bytes)
    (htwo : s.coll.parts = [(src, epoch, 0, a), (src, epoch, 1, b)]) : takeDefinition src 2 epoch c s =
    let r := { traceReceive src 0x14 s with coll.parts := [] }
    let d := a ++ b ++ padTo 16 c
    if !definitionFits s (field d 0 2) then r
    else sendHedge src (.agreement agreeGroup (BitVec.ofNat 64 (field d 0 2)) (BitVec.ofNat 64 epoch))
      (reportReformed (installGroup d epoch r)) := by
  have hparts : (traceReceive src 0x14 s).coll.parts = [(src, epoch, 0, a), (src, epoch, 1, b)] := by
    rw [traceReceive_eq]
    exact htwo
  have hfits : ∀ g, definitionFits (traceReceive src 0x14 s) g = definitionFits s g := by
    intro g
    rw [traceReceive_eq]
    rfl
  unfold takeDefinition
  dsimp only
  rw [hparts]
  simp [hfits]

/-- The third part of a definition that fits puts it in force and acknowledges it. -/
theorem groupDefinition_fits {src : ModId} {epoch : Nat} {a b c : Bytes}
    (htwo : s.coll.parts = [(src, epoch, 0, a), (src, epoch, 1, b)]) (hidle : s.coll.reforming = false)
    (hfits : definitionFits s (field (a ++ b ++ padTo 16 c) 0 2) = true) :
    let d := a ++ b ++ padTo 16 c
    let u := takeDefinition src 2 epoch c s
    u.coll.parts = [] ∧
    (∃ x, groupOf u (field d 0 2) = some x ∧ x.def48 = d ∧ x.epoch = epoch) ∧
    (∀ g, g ≠ field d 0 2 → groupOf u g = groupOf s g) ∧
    u.out.hedge = s.out.hedge ++
      [(src, .agreement agreeGroup (BitVec.ofNat 64 (field d 0 2)) (BitVec.ofNat 64 epoch))] ∧
    (u.sched.tasks.map fun t => { t with seq := 0 }) = (s.sched.tasks.map fun t => { t with seq := 0 }) ∧
    { u with
      coll := s.coll, sched.tasks := s.sched.tasks, holding.lastHedge := s.holding.lastHedge, sheaf := s.sheaf
      out := s.out } = s := by
  dsimp only
  rw [takeDefinition_last src epoch a b c htwo]
  dsimp only
  rw [hfits, if_neg (by decide)]
  generalize a ++ b ++ padTo 16 c = d
  obtain ⟨x, n, hr⟩ := hears_traceReceive src 0x14 s
  rw [hr]
  obtain ⟨hgroup, hothers, htasks, hparts, hreforming, hrest⟩ := installGroup_installed d epoch
    { s with sheaf := x, holding := { s.holding with lastHedge := n }, coll.parts := [] }
  generalize installGroup d epoch { s with sheaf := x, holding := { s.holding with lastHedge := n }, coll.parts := [] } = v at *
  have hreport : reportReformed v = v := by
    unfold reportReformed
    rw [if_pos (by rw [hreforming]; simp [hidle])]
  rw [hreport]
  have hout : v.out = s.out := by
    have h := congrArg State.out hrest
    exact h
  have hmails := mails_sendHedge src (.agreement agreeGroup (BitVec.ofNat 64 (field d 0 2)) (BitVec.ofNat 64 epoch)) v
  have hsent := sendHedge_sent src (.agreement agreeGroup (BitVec.ofNat 64 (field d 0 2)) (BitVec.ofNat 64 epoch)) v
  generalize sendHedge src (.agreement agreeGroup (BitVec.ofNat 64 (field d 0 2)) (BitVec.ofNat 64 epoch)) v = u at hmails hsent ⊢
  have hcoll : u.coll = v.coll := by rw [hmails.frame]
  have hsched : u.sched = v.sched := by rw [hmails.frame]
  have hgroups : ∀ g, groupOf u g = groupOf v g := fun g => by unfold groupOf; rw [hcoll]
  refine ⟨by rw [hcoll, hparts], by rw [hgroups]; exact hgroup, fun g hg => (hgroups g).trans (hothers g hg),
    by rw [hsent, hout], by rw [hsched]; exact htasks, ?_⟩
  rw [hmails.frame]
  have h := congrArg (fun w : State => { w with
    coll := s.coll, holding.lastHedge := s.holding.lastHedge, sheaf := s.sheaf, out := s.out }) hrest
  exact h

/-- One that does not fit leaves no part and no group. -/
theorem groupDefinition_does_not_fit {src : ModId} {epoch : Nat} {a b c : Bytes}
    (htwo : s.coll.parts = [(src, epoch, 0, a), (src, epoch, 1, b)])
    (hfits : definitionFits s (field (a ++ b ++ padTo 16 c) 0 2) = false) :
    let u := takeDefinition src 2 epoch c s
    u.coll.parts = [] ∧
    { u with coll.parts := s.coll.parts, holding.lastHedge := s.holding.lastHedge, sheaf := s.sheaf } = s := by
  dsimp only
  rw [takeDefinition_last src epoch a b c htwo]
  dsimp only
  rw [hfits, if_pos (by decide)]
  refine ⟨rfl, ?_⟩
  rw [traceReceive_eq]

theorem groupDefinition_part (src : ModId) {part : Nat} (epoch : Nat) (bytes : Bytes) (hnone : s.coll.parts = []) :
    let u := takeDefinition src part epoch bytes s
    u.coll.parts = [(src, epoch, part, padTo 16 bytes)] ∧
    { u with coll.parts := s.coll.parts, holding.lastHedge := s.holding.lastHedge, sheaf := s.sheaf } = s := by
  dsimp only
  rw [takeDefinition_first src epoch bytes hnone]
  refine ⟨rfl, ?_⟩
  rw [traceReceive_eq]

end

end Sys2Proof.Proofs
end

section
/-!
PROOFS. Agreements counted, agreements that are late, and orders of other modules (13 R289, 14 R298, 15 R318, R319).
-/
namespace Sys2Proof.Proofs

open Sys2Proof Sys2Proof.Machine Sys2Proof.Safety Sys2Proof.Laws

section

variable {s t u : State}

/-! ### Jobs that end -/

theorem noted_completeLater (op : DescOp) (d : Desc) (status detail : Nat) (s : State) :
    Noted s (completeLater op d status detail s) := by
  unfold completeLater
  dsimp only
  refine Noted.trans ?_ (noted_trace ..)
  exact Noted.trans (t := setSub d.ring _ s) rfl (noted_completeWith ..)

theorem noted_finishJobs (p : Job → Bool) (status detail : Nat) (s : State) :
    Noted { s with run.jobs := s.run.jobs.filter fun j => !p j } (finishJobs p status detail s) := by
  refine Noted.foldl (fun t j => ?_) _ _
  split
  · exact noted_sendHedge ..
  · exact noted_completeLater ..

/-- The jobs that satisfy `p` are gone. -/
theorem finishJobs_jobs (p : Job → Bool) (status detail : Nat) (s : State) :
    (finishJobs p status detail s).run.jobs = s.run.jobs.filter fun j => !p j := by
  rw [noted_run (noted_finishJobs p status detail s)]

theorem finishJobs_jobs_subset (p : Job → Bool) (status detail : Nat) (s : State) :
    (finishJobs p status detail s).run.jobs ⊆ s.run.jobs := by
  rw [finishJobs_jobs]
  exact List.filter_subset_self _

theorem stopsComplete_jobs_subset (s : State) : (stopsComplete s).run.jobs ⊆ s.run.jobs := by
  unfold stopsComplete
  split
  · rw [noted_run (noted_sendHedge ..)]
    exact finishJobs_jobs_subset ..
  · exact List.Subset.refl _

theorem stopMoves_run (s : State) : (stopMoves s).run = s.run := by
  refine foldl_inv (p := fun t : State => t.run = s.run) (fun t e ht => ?_) _ rfl
  have hrelocated : ∀ v, Relocates t v → v.run = s.run := fun v hv => by rw [hv]; exact ht
  split
  · exact hrelocated _ (relocates_freeSource ..)
  · split
    · exact hrelocated _ (relocates_abandonMove ..)
    · exact ht

theorem acknowledge_jobs (kind : Nat) (ident pos : W64) (s : State) : (acknowledge kind ident pos s).run.jobs = s.run.jobs := by
  unfold acknowledge
  split
  · split
    · rfl
    · split <;> rfl
  · rw [noted_run (noted_sendHedge ..)]

theorem shareVote_run (s : State) : (shareVote s).run = s.run := by
  unfold shareVote
  split
  · split
    · rfl
    · exact noted_run (noted_sendHedge ..)
  · rfl

/-- A halt starts no job. -/
theorem haltSmear_jobs_subset (m : StopMsg) (s : State) : (haltSmear m s).run.jobs ⊆ s.run.jobs := by
  unfold haltSmear
  split
  · refine List.Subset.trans (stopsComplete_jobs_subset _) ?_
    rw [acknowledge_jobs]
    refine List.Subset.trans (finishJobs_jobs_subset ..) ?_
    rw [shareVote_run, stopMoves_run]
    have hmap : (writeStopMap 2 m s.coll.live.length s).run.jobs = s.run.jobs := by
      unfold writeStopMap
      dsimp only
      rw [noted_run (noted_raise ..)]
    have hunwound : (abandonStarted (writeStopMap 2 m s.coll.live.length s)).run.jobs = s.run.jobs := by
      unfold abandonStarted
      dsimp only
      rw [discardRuns_eq]
      exact hmap
    exact hunwound ▸ List.Subset.refl _
  · exact List.Subset.refl _

/-! ### Agreements (14 R298, 15 R318) -/

theorem Hears.run (h : Hears s t) : t.run = s.run := by
  obtain ⟨x, n, rfl⟩ := h
  rfl

theorem Hears.isLead (h : Hears s t) : t.isLead = s.isLead := by
  obtain ⟨x, n, rfl⟩ := h
  rfl

/-- What only tells and changes the run, after an agreement has been received. -/
theorem Hears.back_of_run {ρ : Run} (h : Hears s t) (hn : Noted { t with run := ρ } u) :
    { u with run := s.run, host := s.host, holding.lastHedge := s.holding.lastHedge, sheaf := s.sheaf, out := s.out } = s := by
  unfold Noted at hn
  rw [hn]
  obtain ⟨x, n, rfl⟩ := h
  rfl

/-- What only changes the jobs and tells of it, after an agreement has been received. -/
theorem Hears.back_of_jobs (h : Hears s t) {js : List Job} (hn : Noted { t with run.jobs := js } u) :
    { u with
      run.jobs := s.run.jobs, host := s.host, holding.lastHedge := s.holding.lastHedge, sheaf := s.sheaf
      out := s.out } = s := by
  unfold Noted at hn
  rw [hn]
  obtain ⟨x, n, rfl⟩ := h
  rfl

theorem Hears.back_of_finished (h : Hears s t) (js : List Job) (p : Job → Bool) (status detail : Nat) :
    { finishJobs p status detail { t with run.jobs := js } with
      run.jobs := s.run.jobs, host := s.host, holding.lastHedge := s.holding.lastHedge, sheaf := s.sheaf
      out := s.out } = s :=
  h.back_of_jobs (js := js.filter fun j => !p j) (noted_finishJobs p status detail { t with run.jobs := js })

/-- The STOPs completed: jobs have ended, and every module is told. -/
theorem stopsComplete_noted (s : State) : ∃ js, Noted { s with run.jobs := js } (stopsComplete s) := by
  unfold stopsComplete
  split
  · exact ⟨_, (noted_finishJobs ..).trans (noted_sendHedge ..)⟩
  · exact ⟨s.run.jobs, rfl⟩

theorem resumeComplete_noted (s : State) : ∃ js, Noted { s with run.jobs := js } (resumeComplete s) := by
  unfold resumeComplete
  split
  · exact ⟨_, noted_finishJobs ..⟩
  · exact ⟨s.run.jobs, rfl⟩

theorem stopsComplete_acks (s : State) : (stopsComplete s).run.stopAcks = s.run.stopAcks := by
  obtain ⟨js, hn⟩ := stopsComplete_noted s
  rw [noted_run hn]

theorem resumeComplete_acks (s : State) : (resumeComplete s).run.discardAcks = s.run.discardAcks := by
  obtain ⟨js, hn⟩ := resumeComplete_noted s
  rw [noted_run hn]

theorem agreementHold_row (src : ModId) (ident pos : W64) (hl : s.isLead = true) :
    ∃ u, exec (.agreementAck src agreeHold ident pos) s = .next (advance u) ∧ u.run.holdResume = true ∧
      { u with run.holdResume := s.run.holdResume, holding.lastHedge := s.holding.lastHedge, sheaf := s.sheaf } = s := by
  refine ⟨takeAgreement src agreeHold ident pos s, rfl, ?_⟩
  have hheard := hears_traceReceive src 0x15 s
  have htakes : takeAgreement src agreeHold ident pos s = if (traceReceive src 0x15 s).isLead then
    { traceReceive src 0x15 s with run.holdResume := true } else traceReceive src 0x15 s := rfl
  rw [htakes, if_pos (hheard.isLead.trans hl)]
  refine ⟨rfl, ?_⟩
  rw [traceReceive_eq]

theorem agreementReform_row (s : State) (src : ModId) (ident pos : W64) :
    ∃ u, exec (.agreementAck src agreeReform ident pos) s = .next (advance u) ∧ src ∈ u.coll.reformAcks ∧
      { u with coll.reformAcks := s.coll.reformAcks, holding.lastHedge := s.holding.lastHedge, sheaf := s.sheaf } = s := by
  refine ⟨takeAgreement src agreeReform ident pos s, rfl, ?_⟩
  have htakes : takeAgreement src agreeReform ident pos s =
      { traceReceive src 0x15 s with coll.reformAcks := addNew (traceReceive src 0x15 s).coll.reformAcks src } := rfl
  rw [htakes, traceReceive_eq]
  exact ⟨mem_addNew.2 (.inr rfl), rfl⟩

theorem agreementStop_row (src : ModId) (ident pos : W64) (hon : s.run.isOn = true) :
    ∃ u, exec (.agreementAck src agreeStop ident pos) s = .next (advance u) ∧ src ∈ u.run.stopAcks ∧
      { u with run := s.run, host := s.host, holding.lastHedge := s.holding.lastHedge, sheaf := s.sheaf, out := s.out } = s := by
  refine ⟨takeAgreement src agreeStop ident pos s, rfl, ?_⟩
  have hheard := hears_traceReceive src 0x15 s
  have htakes : takeAgreement src agreeStop ident pos s = takeStopReached src ident (traceReceive src 0x15 s) := rfl
  rw [htakes]
  unfold takeStopReached
  rw [if_pos (by rw [hheard.run]; exact hon)]
  dsimp only
  generalize traceReceive src 0x15 s = r at hheard
  refine ⟨?_, ?_⟩
  · rw [stopsComplete_acks]
    exact mem_addNew.2 (.inr rfl)
  · obtain ⟨js, hn⟩ := stopsComplete_noted { r with run := _ }
    exact hheard.back_of_run hn

theorem agreementDiscard_row (src : ModId) {ident : W64} (pos : W64) (hl : s.isLead = true)
    (hstep : ident.toNat = s.run.rollTo.getD (stepOf s.run.head)) :
    ∃ u, exec (.agreementAck src agreeDiscard ident pos) s = .next (advance u) ∧ src ∈ u.run.discardAcks ∧
      { u with run := s.run, host := s.host, holding.lastHedge := s.holding.lastHedge, sheaf := s.sheaf, out := s.out } = s := by
  refine ⟨takeAgreement src agreeDiscard ident pos s, rfl, ?_⟩
  have hheard := hears_traceReceive src 0x15 s
  have htakes : takeAgreement src agreeDiscard ident pos s = takeDiscarded src ident (traceReceive src 0x15 s) := rfl
  rw [htakes]
  unfold takeDiscarded
  rw [if_pos (by rw [hheard.isLead, hheard.run]; simp [hl, hstep])]
  generalize traceReceive src 0x15 s = r at hheard
  refine ⟨?_, ?_⟩
  · rw [resumeComplete_acks]
    exact mem_addNew.2 (.inr rfl)
  · obtain ⟨js, hn⟩ := resumeComplete_noted { r with run.discardAcks := addNew r.run.discardAcks src }
    exact hheard.back_of_run hn

theorem agreementRestore_row {src : ModId} (ident pos : W64) (hidle : src ∉ s.holding.restoring) :
    ∃ u, exec (.agreementAck src agreeRestore ident pos) s = .next (advance u) ∧
      u.holding.lost = s.holding.lost.filter (· != src) ∧ { u with holding := s.holding, sheaf := s.sheaf } = s := by
  refine ⟨takeAgreement src agreeRestore ident pos s, rfl, ?_⟩
  have htakes : takeAgreement src agreeRestore ident pos s = takeRestored src (traceReceive src 0x15 s) := rfl
  have hnot : (traceReceive src 0x15 s).holding.restoring.contains src = false := by
    rw [traceReceive_eq]
    simpa using hidle
  rw [htakes]
  unfold takeRestored
  dsimp only
  rw [hnot, if_neg (by simp), traceReceive_eq]
  exact ⟨rfl, rfl⟩

/-! ### Members that hold a definition (10 R196) -/

theorem filter_ne_of_fresh {src : ModId} {more : List ModId} (h : src ∉ more) : (src :: more).filter (· != src) = more := by
  rw [List.filter_cons_of_neg (by simp), List.filter_eq_self]
  intro m hm
  simpa using fun he : m = src => h (he ▸ hm)

/-- A group job whose definition `src` holds waits for it no longer. -/
def heldBy (src : ModId) (ident pos : W64) (j : Job) : Job :=
  match j.kind with
  | .group g e ms => if g = ident.toNat ∧ e = pos.toNat then { j with kind := .group g e (ms.filter (· != src)) } else j
  | _ => j

/-- The job of a definition that every member holds. -/
def heldByAll (ident pos : W64) (j : Job) : Bool :=
  match j.kind with
  | .group g e [] => g == ident.toNat && e == pos.toNat
  | _ => false

theorem takeGroupHeld_eq (src : ModId) (ident pos : W64) (s : State) : takeGroupHeld src ident pos s =
    finishJobs (heldByAll ident pos) stOk pos.toNat { s with run.jobs := s.run.jobs.map (heldBy src ident pos) } := rfl

theorem agreementGroup_row {src : ModId} {ident pos : W64} {j : Job} {more : List ModId} (hjobs : s.run.jobs = [j])
    (hfresh : src ∉ more) (hkind : j.kind = .group ident.toNat pos.toNat (src :: more)) :
    ∃ u, exec (.agreementAck src agreeGroup ident pos) s = .next (advance u) ∧
      u.run.jobs = (if more = [] then [] else [{ j with kind := .group ident.toNat pos.toNat more }]) ∧
      { u with
        run.jobs := s.run.jobs, host := s.host, holding.lastHedge := s.holding.lastHedge, sheaf := s.sheaf
        out := s.out } = s := by
  refine ⟨takeAgreement src agreeGroup ident pos s, rfl, ?_⟩
  have hheard := hears_traceReceive src 0x15 s
  have htakes : takeAgreement src agreeGroup ident pos s = takeGroupHeld src ident pos (traceReceive src 0x15 s) := rfl
  rw [htakes, takeGroupHeld_eq]
  refine ⟨?_, hheard.back_of_finished ..⟩
  have hheld : heldBy src ident pos j = { j with kind := .group ident.toNat pos.toNat more } := by
    simp [heldBy, hkind, filter_ne_of_fresh hfresh]
  rw [finishJobs_jobs, hheard.run, hjobs, List.map_singleton, hheld]
  cases more with
  | nil => simp [heldByAll]
  | cons m more => simp [heldByAll]

/-! ### Results of orders (13 R280) -/

/-- The job of an order of one of whose targets the result has come. -/
def resultTaken (j : Job) (more : List ModId) (st dt : Nat) (pos : W64) : Job :=
  { j with kind := .targets more (if st = stOk then bits pos.toNat 0 8 else st) (satTo (2 ^ 32 - 1) (dt + bits pos.toNat 8 32)) }

theorem takeResult_of_single {src : ModId} {j : Job} {more : List ModId} {st dt : Nat} (pos : W64) (hjobs : s.run.jobs = [j])
    (hkind : j.kind = .targets (src :: more) st dt) (hfresh : src ∉ more) :
    takeResult src (resultIdent j.d) pos s =
      if more = [] then
        finishJobs (fun x => x == resultTaken j more st dt pos) (if st = stOk then bits pos.toNat 0 8 else st)
          (satTo (2 ^ 32 - 1) (dt + bits pos.toNat 8 32)) { s with run.jobs := [resultTaken j more st dt pos] }
      else { s with run.jobs := [resultTaken j more st dt pos] } := by
  unfold takeResult
  dsimp only
  rw [hjobs]
  simp only [List.find?_cons, hkind, beq_self_eq_true, List.contains_cons, Bool.true_or, Bool.true_and, mapFirst, if_true,
    filter_ne_of_fresh hfresh]
  cases more <;> rfl

theorem agreementResult_row {src : ModId} {ident pos : W64} {j : Job} {more : List ModId} {st dt : Nat}
    (hjobs : s.run.jobs = [j]) (hident : resultIdent j.d = ident) (hkind : j.kind = .targets (src :: more) st dt)
    (hfresh : src ∉ more) :
    ∃ u, exec (.agreementAck src agreeResult ident pos) s = .next (advance u) ∧
      u.run.jobs = (if more = [] then [] else [resultTaken j more st dt pos]) ∧
      { u with
        run.jobs := s.run.jobs, host := s.host, holding.lastHedge := s.holding.lastHedge, sheaf := s.sheaf
        out := s.out } = s := by
  refine ⟨takeAgreement src agreeResult ident pos s, rfl, ?_⟩
  have hheard := hears_traceReceive src 0x15 s
  have htakes : takeAgreement src agreeResult ident pos s = takeResult src ident pos (traceReceive src 0x15 s) := rfl
  rw [htakes, ← hident, takeResult_of_single pos (by rw [hheard.run]; exact hjobs) hkind hfresh]
  split
  · refine ⟨?_, hheard.back_of_finished ..⟩
    rw [finishJobs_jobs]
    simp
  · exact ⟨rfl, hheard.back_of_jobs (.refl _)⟩

end

end Sys2Proof.Proofs
end

section
/-!
PROOFS. Agreements that are late, and orders of other modules (13 R289, 15 R318, R319).
-/
namespace Sys2Proof.Proofs

open Sys2Proof Sys2Proof.Machine Sys2Proof.Safety Sys2Proof.Laws

section

variable {s t u : State} {kind : Nat} {o : FwdOrder}

/-! ### Agreements that are late (15 R318, R319) -/

/-- The stop that a module asks for, or orders, when an agreement is late. -/
def lateStop : StopMsg := ⟨false, 0, 2, 0⟩

theorem exec_hedgeTimeout (kind : Nat) (s : State) :
    exec (.hedgeTimeout kind) s = .next (if agreementLate s kind then advance (agreementTimeout kind s) else s) := rfl

theorem hedgeTimeout_late (h : agreementLate s kind = true) :
    exec (.hedgeTimeout kind) s = .next (advance (agreementTimeout kind s)) := by
  rw [exec_hedgeTimeout, if_pos h]

theorem hedgeTimeout_stays (h : agreementLate s kind = false) : exec (.hedgeTimeout kind) s = .next s := by
  rw [exec_hedgeTimeout, if_neg (by simp [h])]

/-- Whatever the agreement, the lead master holds the run and stops it; any other module of the run asks for the stop. -/
def reportLate (s : State) : State :=
  if !s.run.isOn then s
  else if s.isLead then
    let s := { s with run.holdResume := true }
    if s.run.halt == .running then orderStop lateStop s else s
  else sendHedge (leadId s) (.stop lateStop) s

/-- A job that waits for a definition to be held. -/
def awaitsGroup (j : Job) : Bool := match j.kind with | .group .. => true | _ => false

theorem agreementTimeout_other (h : kind ≠ agreeGroup) : agreementTimeout kind s = reportLate s := by
  unfold agreementTimeout
  dsimp only
  rw [if_neg h]
  rfl

theorem agreementTimeout_group (s : State) :
    agreementTimeout agreeGroup s = reportLate (finishJobs awaitsGroup stTimeout 0 s) := rfl

theorem reportLate_of_member (hon : s.run.isOn = true) (hl : s.isLead = false) :
    reportLate s = sendHedge (leadId s) (.stop lateStop) s := by
  unfold reportLate
  rw [if_neg (by simp [hon]), if_neg (by simp [hl])]

theorem reportLate_of_halted (hl : s.isLead = true) (hh : s.run.halt ≠ .running) :
    reportLate s = { s with run.holdResume := true } := by
  have hon : s.run.isOn = true := by
    simp only [State.isLead, Bool.and_eq_true] at hl
    exact hl.1.1.1
  unfold reportLate
  rw [if_neg (by simp [hon]), if_pos hl]
  dsimp only
  rw [if_neg (by simpa using hh)]

/-- A run that goes on is halted in a smear, and stays halted until a RESUME. -/
theorem reportLate_of_running (hl : s.isLead = true) (hh : s.run.halt = .running) :
    (reportLate s).run.holdResume = true ∧ (reportLate s).run.halt = .smear ∧
      (everyone, Hedge.stop lateStop) ∈ (reportLate s).out.hedge := by
  have hon : s.run.isOn = true := by
    simp only [State.isLead, Bool.and_eq_true] at hl
    exact hl.1.1.1
  have hreport : reportLate s = orderStop lateStop { s with run.holdResume := true } := by
    unfold reportLate
    rw [if_neg (by simp [hon]), if_pos hl]
    dsimp only
    rw [if_pos (by simp [hh])]
  have htold := stopTold_eq lateStop { s with run.holdResume := true }
  have hsent := stopTold_sent lateStop { s with run.holdResume := true }
  rw [hreport, orderStop_eq (s := { s with run.holdResume := true }) hh fun hs => absurd hs (by decide)]
  generalize stopTold lateStop { s with run.holdResume := true } = v at htold hsent
  have hsmeared : Smeared v (applyStop lateStop v) :=
    applyStop_immediate (by rw [htold]; exact hon) rfl (.inl (by rw [htold]; exact hh))
  refine ⟨?_, hsmeared.halt, hsmeared.sent hsent⟩
  rw [hsmeared.holdResume, htold]

/-- An immediate stop starts no job. -/
theorem orderStop_jobs_subset {m : StopMsg} (hi : m.scheduled = false) (s : State) : (orderStop m s).run.jobs ⊆ s.run.jobs := by
  unfold orderStop
  dsimp only
  generalize hw : sendHedge everyone (.stop m) _ = w
  have hjobs : w.run.jobs = s.run.jobs := by rw [← hw, noted_run (noted_sendHedge ..)]
  rw [← hjobs]
  unfold applyStop
  split
  · exact List.Subset.refl _
  · rw [if_pos (by simp [hi])]
    exact haltSmear_jobs_subset m { w with run.halt := .running }

theorem reportLate_jobs_subset (s : State) : (reportLate s).run.jobs ⊆ s.run.jobs := by
  unfold reportLate
  split
  · exact List.Subset.refl _
  · split
    · dsimp only
      split
      · exact orderStop_jobs_subset (m := lateStop) rfl { s with run.holdResume := true }
      · exact List.Subset.refl _
    · rw [noted_run (noted_sendHedge ..)]
      exact List.Subset.refl _

theorem hedgeTimeout_row (hlate : agreementLate s kind = true) (hon : s.run.isOn = true) (hkind : kind ≠ agreeGroup) :
    (s.isLead = false → ∃ u, exec (.hedgeTimeout kind) s = .next (advance u) ∧
      u.out.hedge = s.out.hedge ++ [(leadId s, .stop lateStop)] ∧ { u with sheaf := s.sheaf, out := s.out } = s) ∧
    (s.isLead = true → s.run.halt ≠ .running → exec (.hedgeTimeout kind) s = .next (advance { s with run.holdResume := true })) ∧
    (s.isLead = true → s.run.halt = .running → ∃ u, exec (.hedgeTimeout kind) s = .next (advance u) ∧
      u.run.holdResume = true ∧ u.run.halt = .smear ∧ (everyone, Hedge.stop lateStop) ∈ u.out.hedge) := by
  have hexec : exec (.hedgeTimeout kind) s = .next (advance (reportLate s)) := by
    rw [hedgeTimeout_late hlate, agreementTimeout_other hkind]
  refine ⟨fun hl => ⟨_, hexec, ?_⟩, fun hl hh => by rw [hexec, reportLate_of_halted hl hh],
    fun hl hh => ⟨_, hexec, reportLate_of_running hl hh⟩⟩
  rw [reportLate_of_member hon hl]
  refine ⟨sendHedge_sent .., ?_⟩
  rw [sendHedge_eq]

theorem hedgeTimeout_group_row (hlate : agreementLate s agreeGroup = true) :
    ∃ u, exec (.hedgeTimeout agreeGroup) s = .next (advance u) ∧ (∀ j ∈ u.run.jobs, ∀ g e ms, j.kind ≠ .group g e ms) ∧
      (s.run.isOn = true → s.isLead = false → (leadId s, Hedge.stop lateStop) ∈ u.out.hedge) := by
  refine ⟨_, by rw [hedgeTimeout_late hlate, agreementTimeout_group], fun j hj g e ms hgroup => ?_, fun hon hl => ?_⟩
  · have hleft := reportLate_jobs_subset _ hj
    rw [finishJobs_jobs] at hleft
    have hnot := List.of_mem_filter hleft
    simp [awaitsGroup, hgroup] at hnot
  · have hended := noted_finishJobs awaitsGroup stTimeout 0 s
    generalize finishJobs awaitsGroup stTimeout 0 s = v at hended
    unfold Noted at hended
    have hlead : leadId v = leadId s := by rw [hended]; rfl
    rw [reportLate_of_member (by rw [hended]; exact hon) (by rw [hended]; exact hl), ← hlead]
    exact mem_sendHedge ..

/-! ### Orders of other modules (13 R289) -/

theorem exec_orderForward (ha : s.assigned = true) (o : FwdOrder) :
    exec (.orderForward o) s = .next (advance (takeForward o s)) := by
  have hexec : exec (.orderForward o) s = .next (if s.assigned then advance (takeForward o s) else s) := rfl
  rw [hexec, if_pos ha]

theorem forLead_of_hears (h : Hears s t) (o : FwdOrder) : forLead t o = forLead s o := by
  obtain ⟨x, n, rfl⟩ := h
  rfl

theorem orderForMe_of_hears (h : Hears s t) (o : FwdOrder) : orderForMe o t = orderForMe o s := by
  obtain ⟨x, n, rfl⟩ := h
  rfl

theorem Hears.holding_same (h : Hears s t) : t.holding.moduleId = s.holding.moduleId ∧ t.holding.isolated = s.holding.isolated := by
  obtain ⟨x, n, rfl⟩ := h
  exact ⟨rfl, rfl⟩

theorem orderHeld_row (ha : s.assigned = true) (hop : o.op ≠ .runBegin) (hfor : forLead s o = true) :
    ∃ u, exec (.orderForward o) s = .next (advance u) ∧ u.run.held = s.run.held ++ [⟨o, s.clock.up⟩] ∧
      { u with run.held := s.run.held, holding.lastHedge := s.holding.lastHedge, sheaf := s.sheaf } = s := by
  refine ⟨_, exec_orderForward ha o, ?_⟩
  unfold takeForward
  dsimp only
  rw [if_neg hop, if_pos (by rw [forLead_of_hears (hears_traceReceive ..)]; exact hfor), traceReceive_eq]
  exact ⟨rfl, rfl⟩

/-- An order that acts on this module, and is not for the lead master's order point. -/
theorem takeForward_applies (hsrc : o.source ≠ s.holding.moduleId) (hl : s.isLead = false) (hme : orderForMe o s = true)
    (hop : o.op ≠ .runBegin) (hfree : o.op = .resume → s.holding.isolated = false) :
    takeForward o s = applyOrder o (traceReceive o.source 0x18 s) := by
  have hheard := hears_traceReceive o.source 0x18 s
  unfold takeForward
  dsimp only
  generalize traceReceive o.source 0x18 s = r at hheard
  obtain ⟨hid, hisolated⟩ := hheard.holding_same
  have hresume : (o.op == .resume && s.holding.isolated) = false := by
    by_cases h : o.op = .resume
    · simp [hfree h]
    · simp [h]
  rw [if_neg hop, forLead_of_hears hheard, if_neg (by simp [forLead, hl]), orderForMe_of_hears hheard, hid, hisolated, hresume,
    if_pos (by simp [hsrc, hme])]

section

variable (ha : s.assigned = true) (hsrc : o.source ≠ s.holding.moduleId) (hl : s.isLead = false) (hme : orderForMe o s = true)
include ha hsrc hl hme

theorem modeSet_row (hop : o.op = .modeSet) : ∃ u, exec (.orderForward o) s = .next (advance u) ∧
    u.run.pendingModes = s.run.pendingModes ++ [(dAt o.desc 16 1, dAt o.desc 17 1 == 1)] ∧
    { u with run.pendingModes := s.run.pendingModes, holding.lastHedge := s.holding.lastHedge, sheaf := s.sheaf } = s := by
  refine ⟨_, exec_orderForward ha o, ?_⟩
  rw [takeForward_applies hsrc hl hme (by simp [hop]) (by simp [hop])]
  unfold applyOrder
  dsimp only
  rw [hop, traceReceive_eq]
  exact ⟨rfl, rfl⟩

theorem furrowAdvance_row (hop : o.op = .furrowAdvance) {l : Pos} (hlimit : s.run.advanceLimit = some l) :
    let t : Pos := BitVec.ofNat 64 (dAt o.desc 16 8)
    ∃ u, exec (.orderForward o) s = .next (advance u) ∧ u.run.advanceLimit = some (if l.toNat < t.toNat then t else l) ∧
      { u with run.advanceLimit := s.run.advanceLimit, holding.lastHedge := s.holding.lastHedge, sheaf := s.sheaf } = s := by
  refine ⟨_, exec_orderForward ha o, ?_⟩
  rw [takeForward_applies hsrc hl hme (by simp [hop]) (by simp [hop])]
  unfold applyOrder
  dsimp only
  rw [hop, traceReceive_eq]
  dsimp only
  unfold raiseLimit
  dsimp only
  rw [hlimit]
  dsimp only
  split
  · exact ⟨rfl, by rw [← hlimit]⟩
  · exact ⟨hlimit, by rw [← hlimit]⟩

theorem resume_row (hop : o.op = .resume) (hi : s.holding.isolated = false) (hcut : s.run.halt = .cut) :
    ∃ u, exec (.orderForward o) s = .next (advance u) ∧ u.run.halt = .running ∧ u.run.stop = none ∧
      { u with
        run.halt := s.run.halt, run.stop := s.run.stop, harrows.blocks := s.harrows.blocks
        holding.lastHedge := s.holding.lastHedge, sheaf := s.sheaf } = s := by
  refine ⟨_, exec_orderForward ha o, ?_⟩
  have hheard := hears_traceReceive o.source 0x18 s
  rw [takeForward_applies hsrc hl hme (by simp [hop]) fun _ => hi]
  unfold applyOrder
  dsimp only
  rw [hop]
  dsimp only
  unfold applyResume
  rw [if_pos (by rw [hheard.run, hcut]; rfl)]
  refine ⟨rfl, rfl, ?_⟩
  rw [traceReceive_eq]
  rfl

end

end

/-- Settles O40: each row is what its operation tells and notes, and leaves unchanged; what a loss brings about takes back nothing
that was told (`Recalls.noteLost`). -/
theorem holdingMessages : Obligations.HoldingMessages := by
  intro s
  refine ⟨fun hr ha hi => heartbeatTick_row hr ha hi, fun h => heartbeatTick_stays h, fun m n => ?_,
    fun m hw hi hl hs => heartbeatLoss_row hw hi hl hs, fun m h => heartbeatLoss_stays h,
    fun src m cause head ha hhead hcause => hedgeMemberLost_row src m ha hhead hcause,
    fun m code p ts detail => hedgeEvent_row s m code p ts detail, ?_, ?_, fun src ident pos => ?_,
    fun kind hlate hon hkind => hedgeTimeout_row hlate hon hkind, fun hlate => hedgeTimeout_group_row hlate,
    fun kind h => hedgeTimeout_stays h, fun o ha hop hfor => orderHeld_row ha hop hfor, fun o ha hsrc hl hme => ?_⟩
  · obtain ⟨t, hexec, hbeats, hrest⟩ := heartbeat_row s m n
    exact ⟨t, _, hexec, hbeats, rfl, hrest⟩
  · intro src epoch a b c ha hepoch htwo hidle
    have hexec := exec_groupDefinition src (part := 2) c ha (by decide) hepoch
    exact ⟨fun hfits => ⟨_, hexec, groupDefinition_fits htwo hidle hfits⟩,
      fun hfits => ⟨_, hexec, groupDefinition_does_not_fit htwo hfits⟩⟩
  · intro src part epoch a ha hpart hepoch hnone
    exact ⟨_, exec_groupDefinition src a ha hpart hepoch, groupDefinition_part src epoch a hnone⟩
  · exact ⟨fun hl => agreementHold_row src ident pos hl, fun hon => agreementStop_row src ident pos hon,
      fun hl hstep => agreementDiscard_row src pos hl hstep, agreementReform_row s src ident pos,
      fun hidle => agreementRestore_row ident pos hidle, fun j more hjobs hfresh hkind => agreementGroup_row hjobs hfresh hkind,
      fun j more st dt hjobs hident hkind hfresh => agreementResult_row hjobs hident hkind hfresh⟩
  · exact ⟨fun hop => modeSet_row ha hsrc hl hme hop, fun hop l hlimit => furrowAdvance_row ha hsrc hl hme hop hlimit,
      fun hop hi hcut => resume_row ha hsrc hl hme hop hi hcut⟩

end Sys2Proof.Proofs
end
